-- ==== Sys2Proof/Word.lean ====
section
/-! DEFINITION. Word.lean: the word types of the YF-6000-M, and the sparse table that holds any numbered collection. -/
namespace Sys2Proof

/-- One byte of memory or of a message. -/
abbrev Byte := BitVec 8

/-- A 32-bit word: a register, a ring index, a descriptor word. -/
abbrev Word := BitVec 32

/-- A byte string: a packet payload, a record, a descriptor, a digest. -/
abbrev Bytes := List Byte

/-- A sparse table: entries by ascending key, every key not listed standing for the table's default.
Memory, the queue table, the semaphores and every other numbered collection have this one form. -/
abbrev Tab (α : Type) := List (Nat × α)

end Sys2Proof
end

