-- ==== Sys2Proof/Syntax.lean ====
section
/-! DEFINITION. Syntax.lean: the commands the module takes, one constructor per row of spec/opcode_table.json,
and the plain data their operands are made of. A command is a whole, indivisible step of the part: a queue command
that starts, a tile or engine job that takes effect, a packet that arrives, a timer that expires, a pin that moves. -/
namespace Sys2Proof

/-- Who makes an access or a request (R8, R413, R485, R540, R547). -/
inductive Requester where
  | firmware                       -- the hub firmware (R540 row 3)
  | operator                       -- a session with operator authority (R485)
  | unit (ctx : Nat)               -- a unit acting for a context (R385)
  | peer (dev : Nat)               -- a Fjorum peer device (R291)
  | other                          -- anyone else
  deriving DecidableEq, Repr

/-- What the SECDED code finds on one word that a tile reads (R147): `double` is an uncorrectable word.
`store` is 0 scratchpad, 1 accumulator store with the status store behind it, 2 core memory (R416 class 0x03); `other` is the cell whose
store it is, when that is not the tile's own: a window that the tile reads, or the odd cell of a pair. -/
structure EccHit where
  store  : Nat
  addr   : Nat
  double : Bool
  other  : Option Nat := none
  deriving DecidableEq, Repr

/-- What a holder reads of a pair and its stored word when it checks them: the bits, of the 1,024 ciphertext bits and the 64 bits of the stored
word after them, that the first read and the re-read find flipped (R200). -/
structure TagRead where
  first : List Nat := []
  again : List Nat := []
  deriving DecidableEq, Repr

/-- The Fjorum packet header (R288). -/
structure FjHdr where
  version : Nat := 1
  cls     : Nat            -- 0 CONTROL, 1 COLLECTIVE, 2 BULK, 3 PARITY
  lc      : Bool := false
  ty      : Nat            -- packet type (R289)
  first   : Bool := true   -- flags bit 1
  last    : Bool := true   -- flags bit 0
  ece     : Bool := false  -- flags bit 2
  ackReq  : Bool := false  -- flags bit 3
  retx    : Bool := false  -- flags bit 4
  src     : Nat
  dst     : Nat
  jobTag  : Nat := 0
  flow    : Nat := 0
  ctx     : Nat := 0
  psn     : Nat := 0
  ackPsn  : Nat := 0
  msgSeq  : Nat := 0
  msgOff  : Nat := 0
  epoch   : Nat := 0
  step    : Nat := 0
  phase   : Nat := 0
  deriving DecidableEq, Repr

/-- A Fjorum packet: header, extension header and payload (R288, R290). -/
structure FjPkt where
  hdr     : FjHdr
  ext     : Bytes := []
  payload : Bytes := []
  deriving DecidableEq, Repr

/-- A flow of this device: the peer at its other end, the class and the flow index (Fjorum packets). -/
structure FlowKey where
  peer : Nat
  cls  : Nat
  flow : Nat
  deriving DecidableEq, Repr

/-- How MACsec finds a received frame (R285, R287). -/
inductive SecFinding where
  | unsecured
  | secured (an : Nat) (icvOk replayOk : Bool)
  deriving DecidableEq, Repr

/-- What a received Ethernet frame carries (R275 to R283). -/
inductive FrameBody where
  | fjorum (csumOk : Bool) (ce : Bool) (bytes : Bytes)   -- UDP on udp_port: the packet's bytes as received
  | ipFragment
  | udpOther (csumOk : Bool)
  | ptp (kind : Nat)                                      -- messageType of the PTP header
  | mka
  | macControl
  | arp | neighbour | icmpEcho | icmpOther
  | unknown
  deriving DecidableEq, Repr

/-- A received Ethernet II frame (R275): its length without SecTAG and ICV, its FCS check, its tag and its DSCP. -/
structure Frame where
  len   : Nat
  fcsOk : Bool
  sec   : SecFinding
  pcp   : Option Nat
  dscp  : Nat
  body  : FrameBody
  deriving DecidableEq, Repr

/-- An MKA message as far as the module acts on it (R284 to R286). -/
structure MkaMsg where
  icvOk     : Bool        -- the ICV verifies under the CAK of the sub-port
  peerMi    : Nat         -- the sender's member identifier
  live      : Bool        -- the sender lists this device as live
  keyServer : Bool        -- the sender is the elected key server
  sak       : Option (Nat × Nat)   -- a distributed SAK: association number and key number
  deriving DecidableEq, Repr

/-- A PTP message as far as the module acts on it (R281, R287): the origin timestamp in nanoseconds, the correction
and the ingress timestamp in units of 1/16 ns (R280). -/
structure PtpMsg where
  seqId      : Nat
  twoStep    : Bool := false
  origin     : Nat := 0
  correction : Int := 0
  ingress    : Nat := 0     -- the timestamp taken at the MDI reference plane (R280)
  better     : Bool := true -- the best master clock algorithm chooses the sender (R281)
  deriving DecidableEq, Repr

/-- Who writes a mailbox slot (R372). -/
inductive MboxFrom where
  | fleet | host | peer (dev : Nat) | operator
  deriving DecidableEq, Repr

/-- The path an amendment or an operator request arrives on (R485, R509). -/
inductive ReqPath where
  | mgmt (session : Nat)      -- over MGMT, in the SPDM session with this number
  | control (ctx : Nat)       -- on the control queue of a context
  deriving DecidableEq, Repr

/-- The transport an SPDM message arrives on (R481): MGMT, or Fjorum from a device. -/
inductive SpdmPath where
  | mgmt
  | fjorum (dev : Nat)
  deriving DecidableEq, Repr

/-- A physical reading that a boot stage finds: a die and its fail_mask bits (R34, R36, R37). -/
structure CalFinding where
  die  : Nat
  mask : Nat
  deriving DecidableEq, Repr

/-- The commands of the module: one constructor per row of spec/opcode_table.json. -/
inductive Instr where
  -- queue commands: command N of queue q starts, its 64 bytes read from the ring (R360, R363, R364)
  | nop (q : Nat)
  | ctxOpen (q : Nat)
  | ctxReady (q : Nat)
  | ctxClose (q : Nat)
  | regionSet (q : Nat)
  | regionZeroed (x : Nat)
  | regionRevoked (x : Nat)
  | queueCtlResume (q : Nat)
  | queueCtlFlush (q : Nat)
  | queueCtlTimeout (q : Nat)
  | queueCtlBudget (q : Nat)
  | queueCtlHalt (q : Nat)
  | queueCtlDisable (q : Nat)
  | queueCtlEnable (q : Nat)
  | queueCtlEventDev (q : Nat)
  | semOpAdd (q : Nat)
  | semOpSet (q : Nat)
  | epochPublishLoad (q : Nat)
  | epochPublishCurrent (q : Nat)
  | epochRetire (q : Nat)
  | stepOpen (q : Nat)
  | stepOpenRediscovery (q : Nat)
  | stepOpenVerify (q : Nat)
  | stepBarrier (q : Nat)
  | stepUpdateEnd (q : Nat)
  | launch (q : Nat)
  | engineJob (q : Nat)
  | collective (q : Nat)
  | seqOpen (q : Nat)
  | seqClose (q : Nat)
  | completionWrite (q : Nat)
  | commandTimeout (q : Nat) (k : Nat)
  -- tiles of the cell with flat index c
  | tileStart (c : Nat)
  | tileEnd (c : Nat)
  | tileNop (c : Nat)
  | matmul (c : Nat) (ecc : List EccHit)
  | boundScan (c : Nat) (ecc : List EccHit)
  | accSpill (c : Nat) (ecc : List EccHit)
  | accFill (c : Nat) (ecc : List EccHit)
  | accDrain (c : Nat) (ecc : List EccHit)
  | vec (c : Nat) (ecc : List EccHit)
  | dmaCopy (c : Nat) (ecc : List EccHit)
  | layoutCopy (c : Nat) (ecc : List EccHit)
  | window (c : Nat) (ecc : List EccHit)
  | gather (c : Nat) (ecc : List EccHit)
  | scatter (c : Nat) (ecc : List EccHit)
  | scatterAdd (c : Nat) (ecc : List EccHit)
  | scatterAddApply (h : Nat) (c : Nat) (t : Nat)
  | coreCall (c : Nat)
  | celCoreIssue (c : Nat) (desc : List Word) (v : Word)
  | celCoreExit (c : Nat) (v : Word)
  | coreFault (c : Nat) (illegal : Bool)
  | tileComplete (c : Nat) (t : Nat)
  | tileRecordWrite (c : Nat)
  | tileLate (c : Nat) (t : Nat)
  | tileAbort (c : Nat) (t : Nat)
  -- beside-memory engine of the holder with die index h
  | sgdMom (h : Nat)
  | adamw (h : Nat)
  | gradFinal (h : Nat)
  | digest (h : Nat)
  | crc (h : Nat)
  | parity (h : Nat)
  | engineGather (h : Nat)
  | zero (h : Nat)
  | migrate (h : Nat)
  | loadShard (h : Nat)
  | micro (h : Nat)
  | shardTimeout (h : Nat)
  | adaptationPass (h : Nat) (x : Nat)
  | holderAccess (r : Requester) (write : Bool) (addr len : Nat) (data : Bytes) (tag : TagRead)
  | scrubPatrol (h : Nat) (tag : TagRead)
  | shardRecheck (h : Nat) (i : Nat)
  -- the training step of context x
  | partialsHanded (x : Nat)
  | collectiveData (p : FjPkt)
  | vote (p : FjPkt)
  | commitTimeout (x : Nat)
  | ledgerEnter (x : Nat)
  | ledgerRecordWrite (x : Nat)
  | ledgerRetry (x : Nat)
  | preemptWindowExpiry (x : Nat)
  -- doorbells, mailboxes, registers
  | doorbell (p : FjPkt) (session : Option Nat)
  | semaphoreDoorbell (p : FjPkt) (session : Option Nat)
  | mboxWrite (src : MboxFrom) (ch : Nat) (msg : Bytes) (session : Option Nat)
  | mboxRead (src : MboxFrom) (ch : Nat)
  | relay (p : FjPkt)
  | spdm (path : SpdmPath) (msg : Bytes)
  | ringPut (ch : Nat)
  | readCpl (ch : Nat)
  | convert (dev : Nat) (msg : Bytes)
  | hubMboxSend (r : Requester) (ch : Nat)
  | hubMboxTake (r : Requester) (ch : Nat)
  | hubQDb (r : Requester) (q : Nat) (v : Word)
  | hubQCcons (r : Requester) (q : Nat) (v : Word)
  | lnkTimeNsRead (r : Requester) (l : Nat)
  | registerWrite (r : Requester) (addr size : Nat) (v : Word)
  -- Fjorum packets and timers
  | bulkWrite (p : FjPkt)
  | readReq (p : FjPkt)
  | ack (p : FjPkt)
  | nack (p : FjPkt)
  | fjOpen (p : FjPkt)
  | openAck (p : FjPkt)
  | fjClose (p : FjPkt)
  | closeAck (p : FjPkt)
  | heartbeat (p : FjPkt)
  | readmissionTimeout (dev : Nat)
  | openingWaitTimeout (f : FlowKey)
  | heartbeatTimer (dev : Nat)
  | peerSuspect (dev : Nat)
  | peerLost (dev : Nat)
  | retransmissionTimeout (f : FlowKey) (psn : Nat)
  | ackTimer (f : FlowKey)
  | rateIncrease (f : FlowKey)
  | openRetry (f : FlowKey)
  | flowClose (f : FlowKey)
  | nackResend (f : FlowKey) (msgSeq : Nat)
  -- Ethernet, MACsec, PTP on the sub-port whose first lane is l
  | frameReceive (l : Nat) (fr : Frame)
  | pfcXon (l : Nat) (pri : Nat)
  | pfcRefresh (l : Nat) (pri : Nat)
  | pfcFrame (l : Nat) (mask : Nat) (quanta : List Nat)
  | pauseExpiry (l : Nat) (pri : Nat)
  | pfcWdog (l : Nat) (pri : Nat)
  | arpRequest (l : Nat) (ip : Nat) (mac : Nat)
  | neighborSolicitation (l : Nat) (ip : Nat) (mac : Nat)
  | echoRequest (l : Nat) (v6 : Bool) (ip : Nat) (data : Bytes)
  | mkaFrame (l : Nat) (m : MkaMsg)
  | sakDistribution (l : Nat)
  | saAgeOut (l : Nat)
  | mkaHello (l : Nat)
  | mkaLifeExpiry (l : Nat)
  | announce (l : Nat) (m : PtpMsg)
  | sync (l : Nat) (m : PtpMsg)
  | followUp (l : Nat) (m : PtpMsg)
  | delayResp (l : Nat) (m : PtpMsg)
  | announceReceiptTimeout (l : Nat)
  | holdoverUncertain (d : Nat)
  | ptpFault (d : Nat)
  | ppsEdge (ns : Nat)
  | ppsLoss
  | linkUp (l : Nat)
  | subportDown (l : Nat)
  | lossOfSignal (lane : Nat) (fec : Bool)
  | fabricLinkDown (a b : Nat)
  -- power, sensors
  | powerOn (centivolts : Nat)
  | undervoltageTrip
  | overvoltageTrip
  | pwrEnLow
  | vinSenseOpen
  | conversionFault
  | faultRelease (auxRemoved : Bool)
  | resetN
  | inputCap (centivolts centiamps watts : Nat)
  | thermalCap (d : Nat) (i : Nat) (temp : Int)
  | thermalCapRelease (d : Nat) (i : Nat) (temp : Int)
  | thermalShutdown (d : Nat) (i : Nat) (temp : Int)
  | coolantCap (inlet outlet : Int)
  | droopEvent (d : Nat)
  | sensorRecalibration (d : Nat) (i : Nat) (temp : Int) (drift : Nat)
  -- hub firmware
  | hubBeat (core : Nat)
  | sliceOverrun (comp : Nat)
  | compartmentFault (comp : Nat) (cause : Nat)
  | gateCall (src dst : Nat) (msg : Bytes)
  | profileSample
  | healthDecay
  | healthCmdTarget (r : Requester) (v : Word)
  | selfTest (r : Requester) (v : Word)
  | selfTestDone (pass : Bool)
  | hangCycle (queues : List Nat)
  | crossDeviceHang (peer : Nat) (jobTag : Nat)
  | cellReset (c : Nat) (trigger : Nat)
  | computeDieReset (d : Nat)
  | holderReset (h : Nat)
  | linkDieReset (d : Nat)
  | hubCoreReset (core : Nat)
  | rotFault
  | deviceWarmReset (r : Requester)
  | resetEscalation
  | redrive (c : Nat)
  | crashSummary
  | crashSampleRequest (r : Requester) (cells : List Nat)
  | soldierCheck (h : Nat) (result : Bytes)
  | soldierReferee (h : Nat) (result : Bytes)
  | thermalReplay (session : Nat) (x d : Nat) (setpoints : List (Int × Nat × Nat)) (tol occ memClass holdS refAddr : Nat)
  | setpointHold
  | setpointSkip
  -- start-up
  | bootFuse (cal : List CalFinding) (bad : Option (Nat × Nat))
  | bootImage
  | bootCarapace (cal : List CalFinding)
  | bootTrainLinks (bad : Option Nat)
  | trainWait
  | bootRelease
  | stageTimeout
  | bootRetry
  | bootCtlRestart (r : Requester) (v : Word)
  | bootCtlEnterPupa (r : Requester) (v : Word)
  | dieSelfTest (r : Requester) (v : Word) (mask : Nat)
  | logReadout (path : ReqPath)
  | fuseReadout (path : ReqPath)
  | imageFetch (path : ReqPath) (carapace : Bool) (len : Nat) (data : Bytes)
  | fetchVerify
  -- Carapace amendments and molts of context x
  | amendment (path : ReqPath) (bytes : Bytes)
  | moltHold (x : Nat)
  | moltTransfer (x : Nat)
  | recoverRestore (x : Nat)
  | moltAgreement (x : Nat)
  | moltTimeout (x : Nat)
  | lendSwitchWait (x : Nat)
  | lendEnd (x : Nat) (w : Nat)
  | drainLimit (x : Nat) (w : Nat)
  -- pre-emption
  | contextPreempt (session : Nat) (x : Nat)
  | preemptWindowed (session : Nat) (x : Nat)
  | preemptRelease (session : Nat) (x : Nat)
  | saveComplete (c : Nat)
  | borrowHoldExpiry (c : Nat)
  | restoreComplete (c : Nat)
  -- security
  | ownershipChange (session : Nat) (rsaHash mldsaHash : Bytes) (sigOld sigNew : Bytes)
  | cakInstall (session : Nat) (n : Nat) (key : Bytes)
  | enterRma (session : Nat) (sigOwner sigOnaov : Bytes)
  | debugGrant (session : Nat) (kind : Nat) (addr len : Nat)
  | getVersion (p : SpdmPath)
  | getCapabilities (p : SpdmPath) (flags : Nat)
  | negotiateAlgorithms (p : SpdmPath) (offer : Bytes)
  | getCertificate (p : SpdmPath) (slot off len : Nat)
  | getMeasurements (p : SpdmPath) (session : Option Nat) (index : Nat) (nonce : Bytes)
  | keyExchange (p : SpdmPath) (slot : Nat) (exch : Bytes)
  | spdmSessionTimeout (sid : Nat)
  | lendingWindowStart (x : Nat) (w : Nat)
  | readmissionRequest (session : Nat) (dev : Nat)
  | registerReadClear (r : Requester) (addr size : Nat)
  | holderResetEnd (h : Nat)
  | hubCoreResetEnd (core : Nat)
  | finish (sid : Nat) (rsaHash mldsaHash : Bytes) (proof : Bytes)
  | challenge (p : SpdmPath) (slot : Nat) (nonce : Bytes)
  | keyUpdate (sid : Nat) (op : Nat)
  deriving DecidableEq, Repr

end Sys2Proof
end

