-- ==== Sys2Proof/Machine/Bits.lean ====
section
/-! DEFINITION. Machine/Bits.lean: byte order, bit fields, sparse tables and the sparse memory every address space is made of. -/
namespace Sys2Proof

/-- The entry of key `k`, the default `d` when none is listed. -/
def Tab.get {α : Type} (d : α) : Tab α → Nat → α
  | [], _ => d
  | (j, v) :: t, k => if j = k then v else Tab.get d t k

/-- Puts `v` at key `k`, keeping the keys ascending. -/
def Tab.set {α : Type} : Tab α → Nat → α → Tab α
  | [], k, v => [(k, v)]
  | (j, w) :: t, k, v =>
    if k < j then (k, v) :: (j, w) :: t
    else if k = j then (k, v) :: t
    else (j, w) :: Tab.set t k v

/-- Removes key `k`. -/
def Tab.erase {α : Type} : Tab α → Nat → Tab α
  | [], _ => []
  | (j, w) :: t, k => if j = k then t else (j, w) :: Tab.erase t k

/-- True when `k` is above the first key given and the keys ascend strictly from there. -/
def Tab.above {α : Type} : Option Nat → Tab α → Bool
  | _, [] => true
  | none, (j, _) :: t => Tab.above (some j) t
  | some i, (j, _) :: t => decide (i < j) && Tab.above (some j) t

namespace Machine

/-- A byte of a memory whose unlisted bytes read as `d`. -/
def memGet (d : Byte) (m : List Host.Cell) (a : Nat) : Byte := Tab.get d m a

/-- Writes one byte; a byte equal to what an unlisted address reads as is removed, so that equal memories are equal lists. -/
def memSet (d : Byte) (m : List Host.Cell) (a : Nat) (b : Byte) : List Host.Cell :=
  if b = d then Tab.erase m a else Tab.set m a b

/-- The canonical form of a memory: addresses strictly rising and no entry equal to what an unlisted address reads as. -/
def memWf (d : Byte) (m : List Host.Cell) : Bool :=
  Tab.above none m && m.all (fun c => decide (c.2 ≠ d))

/-- `n` bytes from address `a` upward. -/
def memRead (d : Byte) (m : List Host.Cell) (a : Nat) : Nat → Bytes
  | 0 => []
  | n + 1 => memGet d m a :: memRead d m (a + 1) n

/-- Writes the bytes from address `a` upward. -/
def memWrite (d : Byte) (m : List Host.Cell) (a : Nat) : Bytes → List Host.Cell
  | [] => m
  | b :: bs => memWrite d (memSet d m a b) (a + 1) bs

/-- What an unlisted byte of device memory reads as: the spec gives memory no reset contents (log entry 3). -/
def memFill : Byte := 0x00

/-- What an unlisted byte of the boot flash reads as: an erased NOR byte (log entry 4). -/
def flashFill : Byte := 0xFF

/-! ## Bytes and numbers -/

/-- The low `n` bytes of `x`, least significant first (R503: integers are little-endian). -/
def le : Nat → Nat → Bytes
  | 0, _ => []
  | n + 1, x => BitVec.ofNat 8 x :: le n (x / 256)

/-- The number that bytes spell, least significant first. -/
def ofLe : Bytes → Nat
  | [] => 0
  | b :: bs => b.toNat + 256 * ofLe bs

/-- The low `n` bytes of `x`, most significant first. -/
def be (n x : Nat) : Bytes := (le n x).reverse

/-- The number that bytes spell, most significant first. -/
def ofBe (bs : Bytes) : Nat := ofLe bs.reverse

/-- `n` zero bytes. -/
def zeros (n : Nat) : Bytes := List.replicate n 0

/-- The number in bytes `i` to `i + n - 1`, little-endian; missing bytes read zero. -/
def leAt (bs : Bytes) (i n : Nat) : Nat := ofLe ((bs.drop i).take n)

/-- Bytes `i` to `i + n - 1`, padded with zeros when the string is shorter. -/
def slice (bs : Bytes) (i n : Nat) : Bytes :=
  let t := (bs.drop i).take n
  t ++ zeros (n - t.length)

/-- Bits `lo` to `lo + n - 1` of `x`. -/
def bits (x lo n : Nat) : Nat := x / 2 ^ lo % 2 ^ n

/-- Bit `i` of `x`. -/
def bit (x i : Nat) : Bool := decide (x / 2 ^ i % 2 = 1)

/-- 1 for true, 0 for false. -/
def b2n (b : Bool) : Nat := if b then 1 else 0

/-- `x` read as an `n`-bit two's complement number. -/
def toSigned (n x : Nat) : Int :=
  let y := x % 2 ^ n
  if y < 2 ^ (n - 1) then (y : Int) else (y : Int) - 2 ^ n

/-- The `n`-bit two's complement pattern of `i`. -/
def ofSigned (n : Nat) (i : Int) : Nat := (i % 2 ^ n).toNat

/-- A 32-bit word of four bit-field pairs: each field is shifted to its place. -/
def fields (fs : List (Nat × Nat)) : Word :=
  BitVec.ofNat 32 (fs.foldl (fun acc f => acc + f.2 * 2 ^ f.1) 0)

/-- `a` plus `b`, never above `top`. -/
def satAdd (top a b : Nat) : Nat := min top (a + b)

/-- A counter of width `w` advanced by `n`, holding its highest value. -/
def bump {w : Nat} (x : BitVec w) (n : Nat) : BitVec w := BitVec.ofNat w (satAdd (2 ^ w - 1) x.toNat n)

/-- Rounds `a` up to a multiple of `m`. -/
def alignUp (a m : Nat) : Nat := (a + m - 1) / m * m

/-- The numbers whose bits are set in `m`, below `n`, ascending. -/
def setBits (m n : Nat) : List Nat := (List.range n).filter (bit m)

/-- The number whose set bits are the listed ones. -/
def ofBits (l : List Nat) : Nat := l.foldl (fun a i => a ||| 2 ^ i) 0

/-- Replaces element `i` of a list by `f` of it. -/
def modAt {α : Type} (l : List α) (i : Nat) (f : α → α) : List α := l.modify i f

/-- Replaces, or appends, the entry of an association list whose key is `k`. -/
def putKey {κ α : Type} [DecidableEq κ] (l : List (κ × α)) (k : κ) (v : α) : List (κ × α) :=
  if l.any (fun e => decide (e.1 = k)) then l.map (fun e => if e.1 = k then (k, v) else e) else l ++ [(k, v)]

/-- The entry of an association list whose key is `k`. -/
def getKey {κ α : Type} [DecidableEq κ] (l : List (κ × α)) (k : κ) : Option α :=
  (l.find? (fun e => decide (e.1 = k))).map (·.2)

/-- Runs `f` on `0 … n - 1` in order, threading the state. -/
def loop {σ : Type} (n : Nat) (f : Nat → σ → σ) (s : σ) : σ := (List.range n).foldl (fun t i => f i t) s

end Machine
end Sys2Proof
end

