-- ==== Sys2Proof/Machine/Crypto.lean ====
section
/-! DEFINITION. Machine/Crypto.lean: the ciphers, digests and codes the spec names, from their standards: AES-256 (FIPS 197),
CMAC (SP 800-38B), XTS (IEEE 1619), SHA-512 (FIPS 180-4), HMAC and HKDF (RFC 2104, RFC 5869), CRC-64/XZ (R219) and GF(2^8) (R220). -/
namespace Sys2Proof.Machine

/-! ## GF(2^8) -/

/-- The product of two bytes in GF(2^8) modulo the degree-8 polynomial `p`, by shift and add over `n` bits of `b`. -/
def gfMulN (p : Nat) : Nat → Nat → Nat → Nat
  | 0, _, _ => 0
  | n + 1, a, b =>
    let rest := gfMulN p n (if a < 128 then 2 * a else (2 * a) ^^^ p) (b / 2)
    if b % 2 = 1 then a ^^^ rest else rest

/-- GF(2^8) of the parity code: polynomial 0x11D (R220). -/
def gfMul (a b : Nat) : Nat := gfMulN 0x11D 8 a b

/-- `a` to the power `n` in the parity field. -/
def gfPow (a : Nat) : Nat → Nat
  | 0 => 1
  | n + 1 => gfMul a (gfPow a n)

/-- The inverse of a nonzero byte in the parity field: its 254th power. -/
def gfInv (a : Nat) : Nat := gfPow a 254

/-! ## AES-256 -/

/-- The product in the field of AES, polynomial 0x11B. -/
def aesMul (a b : Nat) : Nat := gfMulN 0x11B 8 a b

/-- The AES substitution of one byte: the field inverse, then the affine map. -/
def aesSub1 (x : Nat) : Nat :=
  let sq := fun a => aesMul a a
  let x2 := sq x; let x4 := sq x2; let x8 := sq x4; let x16 := sq x8
  let x32 := sq x16; let x64 := sq x32; let x128 := sq x64
  let b := aesMul x2 (aesMul x4 (aesMul x8 (aesMul x16 (aesMul x32 (aesMul x64 x128)))))
  let rot := fun k => (b * 2 ^ k ||| b / 2 ^ (8 - k)) % 256
  b ^^^ rot 1 ^^^ rot 2 ^^^ rot 3 ^^^ rot 4 ^^^ 0x63

/-- The substitution table. -/
def aesSbox : Array Nat := ((List.range 256).map aesSub1).toArray

/-- Substitution of one byte by the table. -/
def aesSub (x : Nat) : Nat := aesSbox.getD x 0

/-- The bytewise exclusive or of two lists. -/
def xorN (a b : List Nat) : List Nat := List.zipWith (· ^^^ ·) a b

/-- Key expansion of AES-256: the words of the schedule, most recent first, from word `i` on. -/
def aesExpand : Nat → Nat → Nat → List (List Nat) → List (List Nat)
  | 0, _, _, ws => ws
  | n + 1, i, rcon, ws =>
    let prev := ws.headD []
    let back := ws.getD 7 []
    let t :=
      if i % 8 = 0 then xorN ((prev.drop 1 ++ prev.take 1).map aesSub) [rcon, 0, 0, 0]
      else if i % 8 = 4 then prev.map aesSub
      else prev
    aesExpand n (i + 1) (if i % 8 = 0 then aesMul rcon 2 else rcon) (xorN back t :: ws)

/-- Cuts a list into pieces of `k`, `n` of them. -/
def pieces {α : Type} (k : Nat) : Nat → List α → List (List α)
  | 0, _ => []
  | n + 1, l => l.take k :: pieces k n (l.drop k)

/-- The fifteen round keys of a 32-byte key. -/
def aesKeys (key : List Nat) : List (List Nat) :=
  let ws := (aesExpand 52 8 1 (pieces 4 8 key).reverse).reverse
  (pieces 4 15 ws).map List.flatten

/-- ShiftRows over the sixteen bytes of a block, column by column. -/
def aesShift (b : List Nat) : List Nat := (List.range 16).map (fun i => b.getD ((i + 4 * (i % 4)) % 16) 0)

/-- MixColumns of one column. -/
def aesMixCol (c : List Nat) : List Nat :=
  let a := c.getD 0 0; let b := c.getD 1 0; let d := c.getD 2 0; let e := c.getD 3 0
  let m2 := fun x => aesMul x 2
  let m3 := fun x => aesMul x 2 ^^^ x
  [m2 a ^^^ m3 b ^^^ d ^^^ e, a ^^^ m2 b ^^^ m3 d ^^^ e, a ^^^ b ^^^ m2 d ^^^ m3 e, m3 a ^^^ b ^^^ d ^^^ m2 e]

/-- One AES round; the last round has no MixColumns. -/
def aesRound (last : Bool) (k b : List Nat) : List Nat :=
  let s := aesShift (b.map aesSub)
  xorN (if last then s else ((pieces 4 4 s).map aesMixCol).flatten) k

/-- The AES-256 encryption of a 16-byte block under an expanded key. -/
def aesWith (ks : List (List Nat)) (blk : List Nat) : List Nat :=
  let b0 := xorN blk (ks.headD [])
  let b := (((ks.drop 1).take 13)).foldl (fun b k => aesRound false k b) b0
  aesRound true (ks.getD 14 []) b

/-- Bytes as numbers. -/
def nats (b : Bytes) : List Nat := b.map BitVec.toNat

/-- Numbers as bytes. -/
def bytesOf (l : List Nat) : Bytes := l.map (BitVec.ofNat 8)

/-- AES-256: a 32-byte key and a 16-byte block. -/
def aes256 (key blk : Bytes) : Bytes := bytesOf (aesWith (aesKeys (nats key)) (nats blk))

/-- A 256-bit key as its 32 bytes, least significant first. -/
def keyBytes (k : BitVec 256) : Bytes := le 32 k.toNat

/-! ## CMAC and XTS -/

/-- Doubling in GF(2^128) of SP 800-38B: the block as a big-endian number. -/
def cmacDouble (x : Nat) : Nat := if x < 2 ^ 127 then 2 * x else (2 * x) % 2 ^ 128 ^^^ 0x87

/-- CMAC over whole and partial 16-byte blocks (SP 800-38B) with AES-256. -/
def cmac (key msg : Bytes) : Bytes :=
  let enc := fun x => ofBe (aes256 key (be 16 x))
  let k1 := cmacDouble (enc 0)
  let k2 := cmacDouble k1
  let n := max 1 ((msg.length + 15) / 16)
  let full := msg.length % 16 = 0 ∧ msg.length ≠ 0
  let lastBytes := msg.drop (16 * (n - 1))
  let last := if full then ofBe lastBytes ^^^ k1
    else ofBe (lastBytes ++ [0x80] ++ zeros (15 - lastBytes.length)) ^^^ k2
  let chain := loop (n - 1) (fun i x => enc (x ^^^ ofBe ((msg.drop (16 * i)).take 16))) 0
  be 16 (enc (chain ^^^ last))

/-- Multiplication of an XTS tweak by alpha, the tweak as a little-endian number (IEEE 1619). -/
def xtsAlpha (t : Nat) : Nat := if t < 2 ^ 127 then 2 * t else (2 * t) % 2 ^ 128 ^^^ 0x87

/-- XTS encryption of `n` 16-byte blocks from tweak `t`. -/
def xtsBlocks (k1 : Bytes) : Nat → Nat → Bytes → Bytes
  | 0, _, _ => []
  | n + 1, t, p =>
    let c := le 16 (ofLe (aes256 k1 (le 16 (ofLe (p.take 16) ^^^ t))) ^^^ t)
    c ++ xtsBlocks k1 n (xtsAlpha t) (p.drop 16)

/-- AES-256-XTS encryption of a data unit of whole 16-byte blocks under data key, tweak key and data unit number. -/
def xts (k1 k2 : Bytes) (unit : Nat) (p : Bytes) : Bytes :=
  xtsBlocks k1 (p.length / 16) (ofLe (aes256 k2 (le 16 unit))) p

/-! ## SHA-512 -/

/-- The largest `r` below `2 ^ n` with `r ^ k ≤ x`, bit by bit from the top. -/
def rootBits (k x : Nat) : Nat → Nat → Nat
  | 0, r => r
  | n + 1, r => rootBits k x n (if (r + 2 ^ n) ^ k ≤ x then r + 2 ^ n else r)

/-- The primes below 410. -/
def primes80 : List Nat := ((List.range 410).filter (fun n => 2 ≤ n ∧ (List.range 20).all (fun d => d + 2 ≥ n ∨ n % (d + 2) ≠ 0)))

/-- The initial hash value: the first 64 bits of the fractions of the square roots of the first eight primes. -/
def shaInit : List (BitVec 64) := (primes80.take 8).map (fun p => BitVec.ofNat 64 (rootBits 2 (p * 2 ^ 128) 70 0))

/-- The round constants: the first 64 bits of the fractions of the cube roots of the first eighty primes. -/
def shaK : List (BitVec 64) := (primes80.take 80).map (fun p => BitVec.ofNat 64 (rootBits 3 (p * 2 ^ 192) 70 0))

/-- Rotation right. -/
def ror (x : BitVec 64) (n : Nat) : BitVec 64 := x.rotateRight n

/-- The message schedule, most recent word first, extended by `n` words. -/
def shaSched : Nat → List (BitVec 64) → List (BitVec 64)
  | 0, w => w
  | n + 1, w =>
    let a := w.getD 1 0; let b := w.getD 14 0
    let s1 := ror a 19 ^^^ ror a 61 ^^^ (a >>> 6)
    let s0 := ror b 1 ^^^ ror b 8 ^^^ (b >>> 7)
    shaSched n ((s1 + w.getD 6 0 + s0 + w.getD 15 0) :: w)

/-- One round of the compression over the eight working variables. -/
def shaRound (v : List (BitVec 64)) (kw : BitVec 64) : List (BitVec 64) :=
  match v with
  | [a, b, c, d, e, f, g, h] =>
    let t1 := h + (ror e 14 ^^^ ror e 18 ^^^ ror e 41) + ((e &&& f) ^^^ (~~~e &&& g)) + kw
    let t2 := (ror a 28 ^^^ ror a 34 ^^^ ror a 39) + ((a &&& b) ^^^ (a &&& c) ^^^ (b &&& c))
    [t1 + t2, a, b, c, d + t1, e, f, g]
  | _ => v

/-- Compression of one 128-byte block. -/
def shaBlock (h : List (BitVec 64)) (blk : Bytes) : List (BitVec 64) :=
  let w0 := (pieces 8 16 blk).map (fun b => BitVec.ofNat 64 (ofBe b))
  let w := (shaSched 64 w0.reverse).reverse
  let v := (List.zipWith (· + ·) shaK w).foldl shaRound h
  List.zipWith (· + ·) h v

/-- SHA-512 of a byte string. -/
def sha512 (msg : Bytes) : Bytes :=
  let n := (msg.length + 17 + 127) / 128
  let pad := [0x80#8] ++ zeros (128 * n - msg.length - 17) ++ be 16 (8 * msg.length)
  let h := (pieces 128 n (msg ++ pad)).foldl shaBlock shaInit
  (h.map (fun x => be 8 x.toNat)).flatten

/-- HMAC-SHA-512 (RFC 2104). -/
def hmac512 (key msg : Bytes) : Bytes :=
  let k0 := if key.length > 128 then sha512 key else key
  let k := k0 ++ zeros (128 - k0.length)
  sha512 (k.map (· ^^^ 0x5C#8) ++ sha512 (k.map (· ^^^ 0x36#8) ++ msg))

/-- The blocks of HKDF-Expand: `n` more blocks after block `i` whose output is `t`. -/
def hkdfExpand (prk info : Bytes) : Nat → Nat → Bytes → Bytes
  | 0, _, _ => []
  | n + 1, i, t =>
    let t' := hmac512 prk (t ++ info ++ [BitVec.ofNat 8 (i + 1)])
    t' ++ hkdfExpand prk info n (i + 1) t'

/-- HKDF-SHA-512 (RFC 5869): extract, then expand to `len` bytes. -/
def hkdf (ikm salt info : Bytes) (len : Nat) : Bytes :=
  (hkdfExpand (hmac512 (if salt.isEmpty then zeros 64 else salt) ikm) info ((len + 63) / 64) 0 []).take len

/-! ## CRC-64/XZ -/

/-- Eight shifts of the reflected register. -/
def crcShift : Nat → Nat → Nat
  | 0, c => c
  | n + 1, c => crcShift n (if c % 2 = 1 then (c / 2) ^^^ 0xC96C5795D7870F42 else c / 2)

/-- CRC-64/XZ (R219): reflected, polynomial 0x42F0_E1EB_A9EA_3693, initial value and final XOR all ones. -/
def crc64 (bs : Bytes) : Nat :=
  (bs.foldl (fun c b => crcShift 8 (c ^^^ b.toNat)) (2 ^ 64 - 1)) ^^^ (2 ^ 64 - 1)

end Sys2Proof.Machine
end

