-- ==== Sys2Proof/Config.lean ====
section
/-! DEFINITION. Config.lean: what the spec leaves open as a VALUE. Every constant here is opaque and has no body:
nothing in Lean can see what it is, and a claim about the module is true whatever it is. -/
namespace Sys2Proof.Config

/-- The n-th undefined byte (R150: the output footprints of an aborted tile are undefined). Log entry 5. -/
opaque freeByte : Nat → Byte

/-- The n-th unstated 32-bit value: stall clocks (R142), load figures (R419), the RISC-V core's timing. Log entry 5. -/
opaque freeWord : Nat → Word

/-- The n-th 256-bit output of the HMAC_DRBG of the root of trust (R471): slot keys, the soldier key, SPDM randomness. Log entry 6. -/
opaque drbg : Nat → BitVec 256

/-- The unique device secret of this module (R473), drawn inside the device at manufacture. Log entry 6. -/
opaque uds : BitVec 256

/-- The serial number of this module (R473). Log entry 6. -/
opaque serial : BitVec 64

/-- The stepping fuses: the two ASCII characters of BOOT_STEPPING (R5). Log entry 6. -/
opaque stepping : BitVec 16

/-- The fused SHA-512 of Onaov's root public keys of generation g (R473): RSA when `mldsa` is false. Log entry 6. -/
opaque rootHash : (g : Nat) → (mldsa : Bool) → Bytes

/-- The certificates that the boot flash and the Alias issue hold (R477): chain n of slot 0. Log entry 6. -/
opaque certChain : (mldsa : Bool) → Bytes

/-- RSASSA-PSS verification with SHA-512 (R477): modulus, message, signature. Log entry 7. -/
opaque rsaVerify : Bytes → Bytes → Bytes → Bool

/-- ML-DSA-87 verification (R477): public key, message, signature. Log entry 7. -/
opaque mldsaVerify : Bytes → Bytes → Bytes → Bool

/-- X.509 verification of a certificate under a root key, giving the certified key when it verifies (R504). Log entry 7. -/
opaque certVerify : Bytes → Bytes → Option Bytes

/-- Verification of a certificate chain to the root whose hash is given (R478): the hash, the chain, then the key that the leaf certifies.
Log entry 7. -/
opaque chainVerify : Bytes → Bytes → Option Bytes

/-- Whether a request carries a valid signature by the key whose hash is given (R474, R488): the hash, the request, the signature.
Log entry 7. -/
opaque hashSigned : Bytes → Bytes → Bytes → Bool

/-- RSASSA-PSS signing by the Alias key whose seed is given (R476, R483). Log entry 7. -/
opaque rsaSign : Bytes → Bytes → Bytes

/-- ML-DSA-87 signing by the Alias key whose seed is given (R476, R483). Log entry 7. -/
opaque mldsaSign : Bytes → Bytes → Bytes

/-- AES-256-GCM sealing of a flash object under the flash key (R475). Log entry 7. -/
opaque flashSeal : Bytes → Bytes → Bytes

/-- The proof of possession an SPDM FINISH carries (R481): the signer's RSA key hash, the transcript proof. Log entry 7. -/
opaque finishVerify : Bytes → Bytes → Bool

/-- The DER of an SPDM message body whose layout DSP0274 gives and the spec does not (R481): message code and fields. Log entry 8. -/
opaque spdmBody : Nat → List Nat → Bytes → Bytes

/-- The digest of a measurement block that the spec names but does not lay out, of what it measures: block 1 of nothing, block 4 of the fused
security configuration, block 5 of the base stream and its amendments (R482). Log entry 8. -/
opaque measurement : Nat → List Bytes → Bytes

/-- The key slots that the partition plate assigns to a context (R479): no field of R511 names them, so this is a function of the bytes of
the context's entry and of the context. Log entry 49. -/
opaque slotMask : Bytes → Nat → BitVec 128

/-- Whether a tile's wait for a semaphore is a wait for a credit of an inter-stage queue, and of which share, by job tag, tile_tag and semaphore (R333,
R411): the runtime gives its semaphores their uses. Log entry 114. -/
opaque creditShare : Nat → Nat → Nat → Option (BitVec 16)

/-- The context whose firmware-table entries (region, queue, epoch or sequence table) a pair of the firmware tables holds (R191, R467). Log entry 115. -/
opaque tableCtx : Nat → Option (BitVec 6)

/-- The ring base and the completion ring base of the control queue of a context: no field of R511 gives them. Log entry 53. -/
opaque ctlRings : Nat → Nat × Nat

/-- The size of a member's shared receive space at an instant (R296 NO_BUFFER): whether the n-th check finds space. Log entry 5. -/
opaque freeBool : Nat → Bool

/-- The code of special element i of an E2M1B block whose scale byte is 0xFF (R70 gives the scale byte and no code). Log entry 9. -/
opaque e2m1NanCode : Nat → BitVec 4

/-- The device to which a MIGRATE job of the runtime sends: its descriptor names the address (R222) and no rule says where it names the
device; a function of the descriptor and the parameter block. Log entry 31. -/
opaque migrateDev : Bytes → Bytes → Nat

/-- Where a device keeps the working weights of a stage in an epoch of a job, address and bytes: they move with a stage that changes rank (R342),
and no field of the carapace places them. A function of the job tag, the epoch, the device and the stage. Log entry 96. -/
opaque stageWeights : Nat → Nat → Nat → Nat → Nat × Nat

/-- The scale-ledger header that the runtime has loaded for a job, by job tag and epoch; none when the job starts without its scale ledger
(R264, R269). No command carries it. Log entry 73. -/
opaque loadedHeader : Nat → Nat → Option Bytes

/-- The data position that the runtime supplies for a job that starts without its scale ledger, by job tag (R264). Log entry 73. -/
opaque dataPos : Nat → Nat

/-- The pipeline stage to which a tile belongs, by job tag and tile_tag: the runtime divides its tiles among the stages (R331, R334), and no field of
a tile descriptor names the stage. Log entry 102. -/
opaque tileStage : Nat → Nat → Nat

end Sys2Proof.Config
end

