-- ==== Sys2Proof/Machine/State.lean ====
section
/-! DEFINITION. Machine/State.lean: everything the spec gives the module to hold, as plain data. Every field's default is its
value at reset; a comment names the rule. Reset values the spec does not state are listed in log entry 1. -/
namespace Sys2Proof.Machine

/-- Why the machine stops with a fault. The model has one: see its docstring. -/
inductive Fault where
  /-- Raised by no meaning today: kept for an access the spec gives no outcome at all. Safe: the machine stops. -/
  | noOutcome
  deriving DecidableEq, Repr

/-- Why a command is refused. -/
inductive Refusal where
  /-- Raised only by an arm of Dispatch whose meaning is not written. Safe: nothing happens. -/
  | notModelled (mnemonic : String)
  deriving DecidableEq, Repr

/-! ## Contexts, regions, epochs -/

/-- A region-table entry (R191); the default, `valid = false`, grants nothing. -/
structure Region where
  valid   : Bool := false          -- bit 31
  base    : Nat  := 0              -- device address, a multiple of 2 MiB
  size    : Nat  := 0              -- in 2 MiB units
  keySlot : Nat  := 0              -- bits 30:24
  shared  : Bool := false
  remote  : Bool := false
  eng     : Bool := false
  w       : Bool := false
  r       : Bool := false
  deriving DecidableEq, Repr

/-- A region change that waits: a grant whose zeroing runs, or a revocation that waits for validated work (R193). -/
structure RegionChange where
  index : Nat
  grant : Bool
  entry : Region
  queue : Option (Nat × Nat)       -- the queue and command index of the REGION_SET that waits for it
  release : Option Nat := none     -- the weight epoch whose release asks for the revocation (R228)
  deriving DecidableEq, Repr

/-- Weight-epoch states (R227). -/
inductive EpochSt where
  | loading | current | superseded
  deriving DecidableEq, Repr

/-- An entry of a context's epoch table (R227, R382). -/
structure EpochEntry where
  num       : Nat
  st        : EpochSt
  refs      : Nat := 0
  mask      : Nat := 0             -- 256-bit region mask
  progBase  : Nat := 0
  restoring : Bool := false        -- a chunk of it is being rebuilt or refetched (R230)
  releasing : Bool := false        -- its regions are being revoked (R228)
  deriving DecidableEq, Repr

/-- Context states (R357), coded as HUB_CTX_STATE.state (R386). -/
inductive CtxSt where
  | empty | loading | ready | running | preempted | molting | faulted
  deriving DecidableEq, Repr

/-- Numerics modes (R77). -/
inductive Mode where
  | native | strictIeee | kwatil
  deriving DecidableEq, Repr

/-- A schedule-plate entry (R397). -/
structure Sched where
  kind   : Nat
  phase  : Nat
  period : Nat
  arg    : Nat
  first  : Nat
  deriving DecidableEq, Repr

/-- A lending window of a carapace (R348) with its progress (FW_LEND_STAT, R414). -/
structure Lend where
  cells      : Bool                 -- kind CELLS; else DEVICE
  devices    : List Nat             -- DEVICE: lent devices
  masks      : List (Nat × Nat)     -- CELLS: per device, a mask of flat cells
  serveCtx   : Nat
  tStart     : Nat                  -- fabric time, ns
  tEnd       : Nat
  drainLimit : Nat := 100           -- ms
  startConv  : Bool := false        -- the start edge is converted
  endConv    : Bool := false
  draining   : Bool := false        -- t_end has passed and the serving context admits nothing new (R350)
  st         : Nat := 1             -- 1 declared, 2 started, 3 ended
  uncertain  : Bool := false        -- R405
  deriving DecidableEq, Repr

/-- A slot-map entry (R328). -/
structure SlotEnt where
  member  : Nat := 0
  holder  : Nat := 8
  hi      : Nat := 0
  lo      : Nat := 0
  m1      : Nat := 0
  m2      : Nat := 0
  expP    : Nat := 0
  streakP : Nat := 0
  grad    : Nat := 0
  deriving DecidableEq, Repr

/-- The carapace of a job (R322), with its nested numerics fields (R245, R510) and schedule plate (R397). -/
structure Job where
  ctx          : Nat := 0
  jobTag       : Nat := 0
  epoch        : Nat := 0
  members      : List Nat := []
  gridR        : Nat := 1
  gridP        : Nat := 1
  gridT        : Nat := 1
  shareMap     : List Nat := []
  pTotal       : Nat := 32
  slots        : List SlotEnt := []
  slotsDefault : Bool := true
  stages       : List (Nat × Nat) := []
  actPolicy    : List Nat := []           -- 0 KEEP, 1 OFFLOAD, 2 RECOMPUTE
  credits      : List Nat := []
  experts      : List (List Nat) := []
  groups       : List (Nat × List Nat) := []
  moltTimeout  : Nat := 600               -- s
  lend         : List Lend := []
  slotPlanes   : List (Nat × Nat × Nat) := []   -- member, holder, base
  nMoments     : Nat := 2
  lsMin        : Int := 0
  lsMax        : Int := 32
  lsUp         : Nat := 1
  lsDown       : Nat := 1
  raiseInt     : Nat := 2000
  xInit        : Nat := 0x70
  gbiWidth     : Nat := 16
  nShares      : Nat := 1
  lsInit       : Int := 16
  commitMs     : Nat := 60000
  replay       : Bool := false
  sched        : List Sched := []
  schedDefault : Bool := true             -- the entries are the default of a training shape (R397, R513)
  deriving DecidableEq, Repr

/-- The 64-byte scale-ledger header (R245). -/
structure ScaleHdr where
  ls        : Int := 16
  lsMin     : Int := 0
  lsMax     : Int := 32
  lsUp      : Nat := 1
  lsDown    : Nat := 1
  clean     : Nat := 0
  raiseInt  : Nat := 2000
  xInit     : Nat := 0x70
  gbiWidth  : Nat := 16
  nShares   : Nat := 1
  lsInit    : Int := 16
  step      : Nat := 0
  breakStep : Nat := 0xFFFFFFFFFFFFFFFF
  dataPos   : Nat := 0
  deriving DecidableEq, Repr

/-- A Grid entry in raw form (R106): the grid word, the special-state bits, the anchor (`none` is NONE). -/
structure Grid where
  word : Int := 0
  st   : BitVec 4 := 0
  a    : Option Int := none
  deriving DecidableEq, Repr

/-- The statistic grids of one layer summed over the device's update jobs, and what the collective made of them (R218, R257, R258). -/
structure LayerAcc where
  layer : Nat
  aStat : Int
  g     : Grid := {}
  d     : Grid := {}
  w     : Grid := {}
  mixed : Bool := false            -- a job of the layer used another a_stat (R257)
  deriving DecidableEq, Repr

/-- A vote held for the barrier (R241). -/
structure Vote where
  member : Nat
  epoch  : Nat
  step   : Nat
  vote   : Nat                     -- 0 READY, 1 NONFINITE, 2 FAIL
  status : Nat
  check  : Bytes                   -- header_check
  deriving DecidableEq, Repr

/-- Step-line phases (R234). -/
inductive Phase where
  | fwd | bwd | reduce | commit | update | ledger | idle
  deriving DecidableEq, Repr

/-- Step outcomes (R236). -/
inductive Outc where
  | committed | skipped | abandoned | rediscovery | verified
  deriving DecidableEq, Repr

/-- Kinds of STEP_OPEN (R364). -/
inductive StepKind where
  | normal | rediscovery | verify
  deriving DecidableEq, Repr

/-- Barrier decisions (R242). -/
inductive Decision where
  | update | skip | rediscover | abandon (status : Nat)
  deriving DecidableEq, Repr

/-- The counts of R251 marked global, in the table's order. -/
structure GlobalCounts where
  overflow  : Nat := 0
  nonfinite : Nat := 0
  raised    : Nat := 0
  lowered   : Nat := 0
  zeroSum   : Nat := 0
  deriving DecidableEq, Repr

/-- The local quantiser counts of a step (R251, R144). -/
structure QCounts where
  crushed    : Nat := 0
  crushBlk   : Nat := 0
  zeroBlk    : Nat := 0
  clampBlk   : Nat := 0
  specialBlk : Nat := 0
  deriving DecidableEq, Repr

/-- A record whose global part is formed and which waits for the fingerprint exchange and for room in the ring (R253, R254). -/
structure PendRec where
  epoch   : Nat
  step    : Nat
  outcome : Outc
  bytes   : Bytes                    -- the record, its digests, flags bits 9 and 11, ledger_wait_us and crc still zero
  base    : Nat                      -- ring base, capacity and slot bytes as read when the step opened
  cap     : Nat
  slot    : Nat
  fp      : Bool := false            -- it waits for the fingerprint exchange of its step
  bare    : Bytes := []              -- the record with stats_valid 0, for a restart of STEPLINE (R391)
  deriving DecidableEq, Repr

/-- The bubble time of a stage in the open step (R334): whether a tile of it has started, the tiles of it that wait for a semaphore (cell, tile, the
clock at which the wait began), the clock since which it has waited with none running, and the clocks counted. -/
structure Bubble where
  stage   : Nat
  started : Bool := false
  waiting : List (Nat × Nat × Nat) := []
  since   : Option Nat := none
  clocks  : Nat := 0
  deriving DecidableEq, Repr

/-- The step line of a training context: position, phase, barrier, ledger (R234 to R270, R395). -/
structure StepLine where
  epoch       : Nat := 0                 -- FW_SL_EPOCH (R414)
  step        : Nat := 0                 -- FW_SL_STEP
  phase       : Phase := .idle           -- FW_SL_PHASE.phase, reset 0x07
  outcome     : Outc := .committed       -- FW_SL_PHASE.outcome: last recorded step, reset 0x00
  isOpen      : Bool := false            -- a step of the context is open
  kind        : StepKind := .normal
  cur         : Option Outc := none      -- outcome of the open step once it is decided
  status      : Nat := 0                 -- record field status (R255)
  dead        : List (Nat × Nat) := []   -- positions at which a command completed PEER_LOST or TIMEOUT (R237)
  votes       : List Vote := []          -- votes held (R242, R313)
  ownVote     : Bool := false            -- the device has sent its vote
  decision    : Option Decision := none
  barrierCmd  : Option (Nat × Nat) := none -- the STEP_BARRIER that waits: queue, index
  updateEnd   : Bool := false            -- the end-of-update marker has completed (R235)
  adapted     : List Nat := []           -- holders whose adaptation pass has run (R246)
  hdr         : ScaleHdr := {}           -- in the firmware tables (R245)
  lsPrev      : Int := 16                -- ls in force during the step
  lsRaised    : Bool := false
  lsLowered   : Bool := false
  lsFloor     : Bool := false
  counts      : GlobalCounts := {}       -- this device's part
  totals      : Option GlobalCounts := none -- the ledger collective's result
  layers      : List LayerAcc := []
  layerTot    : List LayerAcc := []
  qGrid       : Option Grid := none      -- summed q_grid; none when anchors differ or not yet (R258)
  qStepOk     : Bool := false            -- every member's q_step equals the step
  qOwn        : Grid := {}               -- q_grid and q_step of the control block, read on entering COMMIT (R252)
  qStep       : Nat := 0
  qRead       : Bool := false            -- they have been read for the step (R253)
  fastAll     : Bool := false            -- fast_used and unknown_layer over all members
  unknownAll  : Bool := false
  batch       : Nat := 0
  digests     : List (Nat × Bytes × Bytes × Bytes) := [] -- slot, dw, do, ds received (R260)
  digestBad   : Bool := false            -- a duplicate or gap, or a slot without digests (R246, R260)
  badSlots    : List Nat := []           -- slots for which no digests are formed (R246, R429)
  fpDone      : Bool := false            -- the fingerprint exchange has completed or failed
  lost        : Bool := false            -- a loss hit the step in LEDGER (R235)
  fastUsed    : Bool := false            -- R256 bit 10
  unknownLayer: Bool := false            -- R256 bit 12
  smax        : List (Nat × Nat) := []   -- rediscovery: block, maximal scale byte (R265)
  summed      : List (Nat × Nat) := []   -- delivered flag nibbles: block, nibble (R240)
  bubbles     : List Bubble := []        -- bubble times of the step by stage (R334)
  soldierN    : Nat := 0                 -- R443
  soldierBad  : Nat := 0
  soldierWait : Nat := 0                 -- samples of the step without a verdict (R442)
  soldierFail : Bool := false            -- a matrix sample blamed the original: vote FAIL (R442)
  soldierRate : Nat := 0                 -- highest SOLDIER rate that fires at the step (R398, R436)
  phaseUs     : List Nat := [0, 0, 0, 0, 0, 0]  -- clocks in FWD .. LEDGER
  phaseClk    : Nat := 0                 -- clock of the last transition
  openClk     : Nat := 0                 -- clock at which STEP_OPEN completed (R402)
  tMax        : List Int := [-32768, -32768, -32768, -32768, -32768]
  tStale      : BitVec 20 := 0
  gateEv      : Nat := 0                 -- R29
  droopEv     : Nat := 0
  pcap        : BitVec 8 := 0            -- caps active in the step (R530)
  waitClk     : Option Nat := none       -- ledger hold began (R253)
  ledgerWait  : Nat := 0                 -- clocks held
  pend        : List PendRec := []       -- records not yet written, oldest first (R254)
  failSt      : Option Nat := none       -- status of the failure that sent the device into COMMIT (R235)
  table       : List (Nat × Int) := []   -- layer table as read at STEP_OPEN: layer_id, a_stat (R252)
  retrying    : Bool := false            -- control block or slot inaccessible (R253)
  lastRecEpoch: Option Nat := none       -- epoch of the previous record (R256 bit 3)
  lastRecord  : Bytes := []              -- the record as written (R464 compares with it)
  refreshed   : Bool := true             -- the refresh of the last refresh step is complete (R399, R459)
  parityStep  : Nat := 0xFFFFFFFFFFFFFFFF -- R397
  uniform     : Bool := true             -- uniform mode (R336)
  thermal     : Bool := false            -- the step runs under a thermal replay
  capacity    : Nat := 16                -- control block as read at STEP_OPEN (R252)
  deriving DecidableEq, Repr

/-- Molt phases (R342, R346). -/
inductive MoltPh where
  | none | announce | hold | transfer | verify | parity | switch
  deriving DecidableEq, Repr

/-- A survivor's entry of the RECOVER gather (R464): device, header.step, the step and state of both generations. -/
structure RecoverEnt where
  dev    : Nat
  step   : Nat
  gens   : List (Nat × Nat)          -- step, state (0 EMPTY, 1 BUILDING, 2 COMPLETE)
  deriving DecidableEq, Repr

/-- A chunk row that an heir rebuilds (R461): the lost member, the rotation, the row, and the pieces that have arrived. -/
structure Rebuild where
  lost : Nat
  rot  : Nat
  row  : Nat
  got  : List Nat := []
  deriving DecidableEq, Repr

/-- The molt of a context (R340 to R347, R464). -/
structure Molt where
  phase      : MoltPh := .none
  result     : BitVec 2 := 0          -- FW_MOLT_STAT.result (W1C)
  status     : Nat := 0               -- FW_MOLT_STAT.status
  epoch      : Nat := 0               -- FW_MOLT_EPOCH
  job        : Option Job := none     -- the new carapace
  old        : Option Job := none
  sMin       : Nat := 0
  recover    : Bool := false
  checkpoint : Bool := false
  heirs      : List (Nat × Nat) := [] -- lost member (index in the old carapace), device of its heir
  group      : List Nat := []         -- molt group 1,023: devices in ascending order
  flag       : Bool := false          -- this member's failure flag for the next agreement
  why        : Nat := 0               -- status behind that flag
  begun      : Bool := false          -- the phase's work has begun
  agreed     : Bool := false          -- this member has contributed to the agreement of the phase
  agree      : Option (Nat × Nat × Nat) := none -- the agreement's status and sums: members, failure flags
  sends      : List Nat := []         -- slots of plane messages sent and not yet acknowledged
  recvs      : List (Nat × Nat × Nat × Nat) := [] -- planes still to arrive: slot, address, bytes, bytes missing
  needHdr    : Bool := false          -- the scale-ledger header is still to arrive
  needRec    : Bool := false          -- the record of header.step is still to arrive
  needDig    : Bool := false          -- the digest exchange of VERIFY is not complete
  ref        : Bytes := []            -- that record
  entries    : List RecoverEnt := []
  p          : Option Nat := none     -- generation restored (R460)
  tStar      : Nat := 0
  rebuild    : List Rebuild := []     -- chunk rows still to rebuild, the first under way
  need       : List Nat := []         -- slots of this member's own that the rebuilding gives back (R226, R343)
  desc       : Option (BitVec 256 × Nat) := none -- job seed and ledger base that the amendment gives a context it creates (R342)
  fresh      : Bool := false          -- this device is new to the job
  edge       : Option Nat := none     -- lending edge that SWITCH waits for (R403)
  uncertain  : Bool := false
  waits      : Bool := false          -- SWITCH waits for the edge
  deriving DecidableEq, Repr

/-- A coded-state generation of a member (R457). -/
structure Gen where
  step : Nat := 0
  st   : Nat := 0                     -- 0 EMPTY, 1 BUILDING, 2 COMPLETE
  snap : Bool := false                -- the snapshot is written
  rows : List (Nat × Nat) := []       -- parity rotation, chunk rows written
  deriving DecidableEq, Repr

/-- A context (R356, R357, R358). -/
structure Ctx where
  defined  : Bool := false            -- the partition plate defines it
  lc       : Bool := false            -- class: LC; else BE
  mode     : Mode := .native
  owned    : List Nat := []
  guest    : List Nat := []
  slotMask : Nat := 0                 -- key slots assigned to it (R479)
  tenant   : Bytes := []              -- tenant RSA hash then ML-DSA hash; empty for none (R486)
  st       : CtxSt := .empty
  jobTag   : Nat := 0
  jobSeed  : BitVec 256 := 0
  ledger   : Nat := 0                 -- ledger ring base
  sems     : Tab Nat := []            -- semaphores 0 to 4,094 (R370)
  semOvf   : Bool := false            -- HUB_CTX_STATE.sem_overflow
  semQ     : List (Nat × Nat × Nat × Nat) := [] -- waits for units, oldest first: semaphore, queue or 16,384 + cell, command, tile (R370)
  regions  : Tab Region := []         -- 256 entries (R191)
  changes  : List RegionChange := []  -- pending, oldest first (R193)
  epochs   : List EpochEntry := []    -- at most four (R227)
  seqBase  : Nat := 0                 -- range of sequence tags (R381)
  seqCount : Nat := 0
  job      : Option Job := none       -- carapace section in force
  declared : Option Job := none       -- carapace in force when the job's DEVICE windows were declared (R403)
  left     : Option Job := none       -- carapace of a job that this device has left by a lending molt (R403)
  sl       : StepLine := {}
  molt     : Molt := {}
  gens     : List Gen := [{}, {}]     -- coded-state generations 0 and 1
  parIn    : List (Nat × Nat × Nat) := [] -- pieces of chunk rows in the staging: rotation, row, piece (R458)
  closing  : Option (Nat × Nat) := none -- CTX_CLOSE in progress: queue, index
  preReq   : Nat := 0                 -- 0 none, 1 in progress, 2 WINDOWED pending (R400), 3 resumption in progress (R380)
  preWin   : Option Nat := none       -- longest stay of the window that pre-empted it, ms
  started  : Nat := 0                 -- launches, engine jobs and collectives started and not completed
  admits   : Bool := true             -- serves new requests (R350)
  instNo   : List (Nat × Nat × Nat) := [] -- group, op, next collective number (R546)
  deriving DecidableEq, Repr

/-- A sequence-table entry (R381). -/
structure Seq where
  isOpen  : Bool := false
  ctx   : Nat := 0
  epoch : Nat := 0
  inFlight : Nat := 0
  deriving DecidableEq, Repr

/-! ## Queues -/

/-- A command that has started, or that N names, and whose completion is not written (R363, R367). -/
structure Cmd where
  idx      : Nat                      -- k
  bytes    : Bytes                    -- its 64 bytes
  started  : Bool := true
  status   : Option Nat := none       -- completion status, once decided
  detail   : Nat := 0
  detail2  : Nat := 0
  flushed  : Bool := false
  progress : Nat := 0                 -- progress counter (R422)
  armed    : Nat := 0                 -- its value when the timer was last armed
  rearms   : Nat := 0                 -- expiries so far (R423)
  epoch    : Nat := 0                 -- weight epoch pinned by a launch alone (R383)
  pinned   : Bool := false
  seq      : Option Nat := none       -- sequence of a LAUNCH
  waiting  : Bool := false            -- started, its effect waits: an epoch (R365), a free cell (R376), a restoration (R230)
  counted  : Bool := false            -- started work of the context (R357)
  since    : Nat := 0                 -- clock at which it started
  borrow   : Option Nat := none       -- the cell it borrows (R377)
  hung     : Bool := false            -- an ENGINE_JOB found hung: it completes TIMEOUT after the holder reset (R424)
  deriving DecidableEq, Repr

/-- A queue-table entry with its ring indices (R359, R360, R362). -/
structure Queue where
  ctx      : Nat := 0
  defined  : Bool := false
  enabled  : Bool := true
  ring     : Nat := 0
  cpl      : Nat := 0
  log2     : Nat := 8
  halt     : Bool := true             -- halt_on_error
  timeout  : Nat := 10000             -- ms
  budget   : Nat := 0                 -- retx_budget
  eventDev : Nat := 0xFFFF
  p        : Word := 0                -- producer index (HUB_Q_DB)
  n        : Word := 0                -- next command to start
  q        : Word := 0                -- completion producer (HUB_Q_CPROD)
  c        : Word := 0                -- completion consumer (HUB_Q_CCONS)
  halted   : Bool := false
  haltSt   : BitVec 8 := 0            -- HUB_Q_STAT.halt_status
  flight   : List Cmd := []           -- started, completion not written, oldest first
  notices  : List Nat := []           -- released epochs whose notice waits (R369)
  unwritten : Option (Bytes) := none  -- a completion that could not be written (R545)
  viaFleet : List Nat := []           -- command indices put through mailbox channel 0 (R452)
  deriving DecidableEq, Repr

/-! ## Cells -/

/-- A tile in the sequencer (R124, R128): from its fetch to its record. -/
structure Tile where
  id      : Nat                       -- program index; tile k issued by the CORE_CALL of index i has 2^32 (i + 1) + k
  desc    : Bytes                     -- 128 bytes
  tail    : Bytes := []               -- PACKED_TAIL descriptor (R133)
  core    : Bool := false             -- issued by the control core
  running : Bool := false             -- started and not complete
  applied : Bool := false             -- its effect has taken place
  done    : Bool := false             -- complete; its record may wait for earlier ones
  status  : Nat := 0
  word0   : BitVec 32 := 0            -- tile status word (R101)
  word1   : BitVec 32 := 0
  q       : QCounts := {}
  start   : Nat := 0                  -- clock at which it started
  busy    : Nat := 0
  stall   : Nat := 0
  late    : Bool := false             -- wdog_late
  rerun   : Bool := false             -- its record was written before a re-drive (R431)
  staged  : List Nat := []            -- holders that have not acknowledged its scatter-add (R182)
  step    : Nat := 0                  -- step of its context when it started (R437)
  num     : Nat := 0                  -- tiles its cell had started before it (R437)
  odd     : Bool := false             -- a PAIRED tile: it also occupies the array of the odd cell (R108)
  array   : Bool := false             -- units it occupies (R131)
  vector  : Bool := false
  dma     : Bool := false
  rd      : List (Nat × Nat) := []    -- footprints, address and length (R125)
  wr      : List (Nat × Nat) := []
  deriving DecidableEq, Repr

/-- An open accumulation group (R103): the fields every tile of it must repeat, the held anchors, the status word. -/
structure Group where
  grid    : Bool                      -- acc_mode GRID
  mLen    : Nat
  nLen    : Nat
  kTotal  : Nat
  cbound  : Bool                      -- bound_src CONST
  boundA  : Nat
  boundB  : Nat
  anchor  : Int
  tmode   : Nat                       -- 0 PLAIN, 1 PAIRED, 2 PACKED
  ba      : List (Option Int)         -- held bound vectors (VECTOR)
  bb      : List (Option Int)
  word    : BitVec 32 := 0            -- tile status word, sticky bits
  deriving DecidableEq, Repr

/-- A running tile program (R123, R127, R376). -/
structure Program where
  queue   : Nat
  cmd     : Nat                       -- command index of the LAUNCH
  ctx     : Nat
  prog    : Nat                       -- address of tile 0
  recAt     : Nat                       -- record area
  next    : Nat := 0                  -- index of the next descriptor to fetch
  tiles   : List Tile := []           -- fetched, record not written, in program order
  written : Nat := 0                  -- records written
  skip    : Nat := 0                  -- records written before a re-drive (R431)
  ended   : Bool := false             -- END fetched
  fail    : Option (Nat × Nat) := none -- earliest failing tile: index, status
  flagged : Bool := false
  busy    : Nat := 0
  stopNew : Bool := false             -- a hung LAUNCH starts no further tile (R424)
  seq     : Option Nat := none        -- its sequence (R383)
  epoch   : Option Nat := none        -- the weight epoch that the launch alone pins (R383)
  deriving DecidableEq, Repr

/-- The CORE_CALL that runs on a cell's control core and its issue interface (R154 to R157). -/
structure CoreRun where
  tile    : Nat                       -- id of the CORE_CALL tile
  desc    : List Word := []           -- CEL_CORE_DESC0-31
  issued  : Nat := 0                  -- tiles issued in this CORE_CALL
  waiting : Nat := 0                  -- issued and not complete
  done    : Nat := 0                  -- CEL_CORE_DONE
  last    : Word := 0                 -- CEL_CORE_LAST
  recB    : Bytes := []                   -- CEL_CORE_REC0-7
  args    : List Word := []           -- CEL_CORE_ARG0-7
  exit    : Option Nat := none        -- status written to CEL_CORE_EXIT
  fail    : Option Nat := none        -- status of the failing issued tile
  start   : Nat := 0                  -- for CEL_CORE_CYCLE
  segStart : Nat := 0
  entry   : Nat := 0
  q       : QCounts := {}             -- sums of its tiles' counters (R156)
  deriving DecidableEq, Repr

/-- A saved cell: what the save image and the firmware part hold besides the stores (R379). -/
structure Saved where
  ctx    : Nat
  prog   : Option Program
  groups : List (Nat × Group)
  core   : Option CoreRun
  bad    : List (Nat × Nat) := []     -- uncorrectable words of its stores (R147)
  deriving DecidableEq, Repr

/-- Cell states (R158). -/
inductive CellSt where
  | idle | running | stopping | saving | resetting | fenced
  deriving DecidableEq, Repr

/-- A cell: registers, sequencer, open groups, control core (R122 to R160, R185). Its stores lie in the device memory at its window. -/
structure Cell where
  st      : CellSt := .idle           -- CEL_STATE.state
  ctx     : Nat := 0                  -- CEL_STATE.ctx
  tileIdx : BitVec 16 := 0            -- CEL_STATE.tile_index
  abort   : BitVec 16 := 0            -- CEL_WDOG_CNT.abort_count
  lateN   : BitVec 16 := 0            -- CEL_WDOG_CNT.late_count
  unc     : BitVec 16 := 0            -- CEL_SP_ECC.uncorrected
  cor     : BitVec 16 := 0            -- CEL_SP_ECC.corrected
  dropped : BitVec 16 := 0            -- CEL_DMA_OOB.dropped
  subst   : BitVec 16 := 0            -- CEL_DMA_OOB.substituted
  qsum    : Tab (BitVec 32 × BitVec 32 × BitVec 32 × BitVec 32 × BitVec 32) := [] -- CEL_QSUM sets by context (R144)
  groups  : List (Nat × Group) := []  -- open groups by slot
  bad     : List (Nat × Nat) := []    -- uncorrectable words: store, word address (R147)
  prog    : Option Program := none
  core    : Option CoreRun := none
  saved   : Option Saved := none      -- image in the save area (R377, R379)
  stopFor : Option (Nat × Nat) := none -- the launch that borrows the cell: queue, command (R377)
  stopPre : Bool := false             -- stopping or saving for a context pre-emption (R380)
  restoring : Bool := false
  parked  : Bool := false             -- R433
  resets  : List Nat := []            -- clocks of its resets (R433)
  redrive : Option Program := none    -- program to re-drive when the reset ends (R431)
  recs    : List Bytes := []          -- last eight tile records (R409)
  nTiles  : Nat := 0                  -- tiles started since BOOT_RELEASE (R437)
  deriving DecidableEq, Repr

/-! ## Holders and engines -/

/-- A job handed to an engine queue (R204, R205). -/
structure EngJob where
  queue  : Nat
  cmd    : Nat
  ctx    : Nat
  desc   : Bytes                      -- 160 bytes
  recAt    : Nat                        -- record address
  bound  : Option (Nat × Nat) := none -- epoch and step of a step_bound command (R238)
  lc     : Bool := false
  deriving DecidableEq, Repr

/-- A LOAD_SHARD job in progress (R224, R225). -/
structure ShardLoad where
  job     : EngJob
  base    : Nat                       -- S7
  len     : Nat
  digest  : Bytes
  crcs    : List Nat
  srcs    : List (Nat × Nat)          -- device, address
  dropped : List Nat := []            -- source positions no longer used
  passed  : List Nat := []            -- chunks that have passed
  asked   : List (Nat × Nat) := []    -- chunk, source position requested
  refetch : List (Nat × Nat) := []    -- chunk, refetches counted
  second  : Bool := false             -- the whole shard is being fetched once more
  timeout : Nat := 30
  heal    : Bool := false             -- its bytes are being rebuilt from parity before any fetch (R226)
  deriving DecidableEq, Repr

/-- A weight-shard chunk registered for the re-check (R203, R224). -/
structure Chunk where
  ctx  : Nat
  addr : Nat
  len  : Nat
  crc  : Nat
  idx  : Nat := 0                     -- chunk index in its shard
  srcs : List (Nat × Nat) := []       -- device and address of this chunk at each source of its manifest
  deriving DecidableEq, Repr

/-- A chunk whose re-check failed and which is being refetched (R230). -/
structure Restore where
  chunk   : Chunk
  pos     : Nat                       -- source position asked
  dropped : List Nat := []
  tries   : Nat := 0                  -- refetches counted
  heal    : Bool := false             -- it is being rebuilt from parity (R226)
  deriving DecidableEq, Repr

/-- A scatter-add tile's contributions staged at an engine (R182, R223). -/
structure Staged where
  cell  : Nat
  tile  : Nat
  contr : List (Nat × Nat)            -- entry address, FP32 pattern of the contribution (decoded exactly)
  deriving DecidableEq, Repr

/-- A soldier sample waiting for a verdict (R436 to R441). -/
structure Sample where
  matrix  : Bool
  unit    : Nat                       -- flat cell or holder
  checker : Nat
  referee : Nat
  ctx     : Nat
  jobbed  : Bool                      -- belongs to a step of a job
  tag     : Nat                       -- tile_tag or job_tag
  index   : Nat                       -- chunk or block index
  witness : Bytes                     -- witness, or the block's output bytes
  outAt   : List (Nat × Nat) := []    -- where the output bytes stand: address, length
  check   : Option Bytes := none      -- the checker's result once it differs
  step    : Nat := 0                  -- step it belongs to (R437)
  size    : Nat := 0                  -- bytes it takes in its buffer (R440)
  deriving DecidableEq, Repr

/-- A holder: registers, engine, staging, registered chunks (R187 to R233). -/
structure Holder where
  poisoned  : BitVec 16 := 0          -- MEM_ERR.poisoned
  corrected : BitVec 16 := 0          -- MEM_ERR.corrected
  errAddr   : BitVec 48 := 0          -- MEM_ERR_ADDR: pair of the latest event
  errKind   : BitVec 2 := 0
  transient : BitVec 16 := 0
  patrolH   : BitVec 8 := 0x18        -- MEM_SCRUB_CTL
  recheckH  : BitVec 8 := 0x06
  patrolEn  : Bool := true
  passes    : BitVec 16 := 0          -- MEM_SCRUB_STAT
  nextPair  : Nat := 0                -- next pair of the patrol
  running   : Option EngJob := none   -- MEM_ENG_STATE
  queue     : List EngJob := []       -- handed over, oldest first
  load      : Option ShardLoad := none
  staged    : List Staged := []       -- scatter-add tiles whose contributions have come
  announced : List (Nat × Nat × Nat) := [] -- announced scatter-add tiles, in order: cell, tile, contributions (R223)
  applied   : List (Nat × Nat × Nat) := [] -- scatter-add tiles applied for programs that run: cell, tile, status (R182, R223)
  chunks    : List Chunk := []
  restores  : List Restore := []      -- chunks being refetched (R230)
  resetting : Bool := false
  samples   : List Sample := []       -- soldier buffer
  stalled   : Bool := false
  deriving DecidableEq, Repr

/-! ## Links and Fjorum -/

/-- What a frame carries around its content (R275 to R279, R284, R288). -/
structure TxHdr where
  mac    : Nat                        -- destination MAC address
  vlan   : Option (Nat × Nat) := none -- the 802.1Q tag: PCP and vid
  dscp   : Option Nat := none         -- of an IP packet
  ecn    : Nat := 0                   -- of an IP packet: 2 is ECT(0)
  df     : Bool := false              -- the DF bit of an IPv4 packet
  src    : Bytes := []                -- source and destination IP address
  dst    : Bytes := []
  ports  : Option (Nat × Nat) := none -- source and destination UDP port
  csum   : Nat := 0                   -- UDP checksum
  sec    : Option (Nat × Nat × Nat) := none -- SecTAG: association number and packet number, and the cipher suite
  deriving DecidableEq, Repr

/-- Something the device hands to the outside: packets, frames, replies. -/
inductive OutMsg where
  | tx (w : TxHdr) (m : OutMsg)                         -- a frame as it leaves: what stands around its content, and the content
  | packet (l srcPort : Nat) (peer : Bytes) (p : FjPkt)   -- a Fjorum packet, its sub-port, its source UDP port (R288) and the peer's address
  | csr (r : Requester) (addr : Nat) (status : Nat) (v : Word)  -- answer to a CSR access
  | data (r : Requester) (addr : Nat) (status : Nat) (bytes : Bytes) -- answer to a memory access
  | frame (l : Nat) (kind : Nat) (fields : List Nat) (data : Bytes) -- non-Fjorum frame: 1 PFC, 2 ARP, 3 ND, 4 ICMP, 5 MKA, 6 PTP Delay_Req
  | mgmt (code : Nat) (status : Nat) (data : Bytes)     -- message over MGMT
  | spdm (p : SpdmPath) (code : Nat) (fields : List Nat) (data : Bytes) -- SPDM answer
  deriving DecidableEq, Repr

/-- A priority of a sub-port under PFC (R278). -/
structure Pri where
  paused  : Bool := false             -- by the partner
  quanta  : Nat := 0
  ignoreAt : Option Nat := none       -- clock at which the watchdog stopped honouring PAUSE for pfc_wdog
  held    : List OutMsg := []         -- frames that wait while the priority is paused, oldest first
  xoff    : Bool := false             -- this device has sent XOFF
  wdropped : Nat := 0
  deriving DecidableEq, Repr

/-- A secure association of a sub-port (R284, R286). -/
structure Sa where
  an  : Nat
  key : Nat
  pn  : Nat := 1
  deriving DecidableEq, Repr

/-- A sub-port, indexed by its first lane 0 to 71 (R272, R319). -/
structure SubPort where
  present  : Bool := false
  linkUp   : Bool := false
  lanes    : Nat := 0                 -- 1, 2, 4 or 8
  pris     : List Pri := [{}, {}, {}, {}, {}, {}, {}, {}]
  wdog     : BitVec 8 := 0
  los      : BitVec 8 := 0
  sa       : Option Sa := none        -- SA in use for sending
  oldSa    : Option Sa := none        -- still accepted (R286)
  newSeen  : Bool := false            -- the first frame under the new SA has arrived
  secured  : Bool := false            -- a SAK has been installed since the link came up: everything is secured from then on (R285)
  mkaPeer  : Option Nat := none       -- live partner
  mkaClk   : Nat := 0
  server   : Bool := false            -- this device is the elected key server
  training : Bool := false
  echoes   : Nat := 0                 -- echo replies in the present second
  echoSec  : Nat := 0
  deriving DecidableEq, Repr

/-- PTP states (R281, R319). -/
inductive PtpSt where
  | initializing | faulty | disabled | listening | uncalibrated | slave | holdover
  deriving DecidableEq, Repr

/-- A link die's registers and PTP servo (R280 to R283, R319). -/
structure LinkDie where
  dropWhy   : BitVec 8 := 0           -- LNK_RX_DROP.last_reason
  dropN     : BitVec 24 := 0
  lost      : Word := 0               -- LNK_FJ_LOST
  retx      : Word := 0               -- LNK_FJ_RETX
  ceRx      : BitVec 16 := 0          -- LNK_FJ_ECE
  eceRx     : BitVec 16 := 0
  ptp       : PtpSt := .initializing  -- LNK_PTP_STAT
  ppsPres   : Bool := false
  ppsMis    : Bool := false
  ptpLane   : BitVec 7 := 0x7F
  uncertain : Bool := false
  offset    : Int := 0
  good      : Nat := 0                -- consecutive Syncs below 100 ns
  locked    : Bool := false           -- PTP has locked once (R407)
  syncWait  : Option (Nat × Nat) := none -- two-step Sync: sequence, ingress in 1/16 ns
  t1        : Int := 0                -- origin of the last Sync, corrected, in 1/16 ns (R280)
  t2        : Nat := 0                -- its ingress, in 1/16 ns
  delayReq  : Option Nat := none      -- sequence of the Delay_Req that waits for its Delay_Resp
  reqSeq    : Nat := 0                -- sequence of the next Delay_Req
  t3        : Nat := 0                -- egress of the last Delay_Req, in 1/16 ns
  delay     : Int := 0                -- mean path delay, in 1/16 ns
  timeOff   : Int := 0                -- fabric time minus the free-running time, in 1/16 ns
  secLatch  : BitVec 48 := 0          -- LNK_TIME_SEC latched by a read of LNK_TIME_NS
  resetting : Bool := false
  deriving DecidableEq, Repr

/-- Peer states (R295). -/
inductive PeerSt where
  | unknown | up | suspect | lost
  deriving DecidableEq, Repr

/-- A waiting-on marker of a heartbeat (R297). -/
structure Marker where
  jobTag : Nat
  dev    : Nat
  cls    : Nat
  phase  : Nat
  step   : Nat
  deriving DecidableEq, Repr

/-- A peer device (R295, R297, R353, R354). -/
structure Peer where
  st       : PeerSt := .unknown
  inc      : Nat := 0                 -- incarnation recorded
  seen     : Nat := 0                 -- clock of the last valid packet
  sent     : Nat := 0                 -- clock of the last packet sent
  health   : Nat := 0
  hstate   : Nat := 0
  stalled  : Bool := false
  beat     : Nat := 0
  markers  : List Marker := []
  readmit  : Option (Nat × Nat) := none -- re-admission run: step 1 to 4, incarnation that started it
  tried    : Nat := 0                 -- incarnation of the latest re-admission run (R354)
  nonce    : Bytes := []
  chainR   : Bytes := []              -- chains that the peer has sent in the run: RSA, ML-DSA
  chainM   : Bytes := []
  deriving DecidableEq, Repr

/-- Flow states (R293). -/
inductive FlowSt where
  | closed | opening | isOpen | draining
  deriving DecidableEq, Repr

/-- What a message on a sending flow is for, so that its end reaches the work that waits for it. -/
inductive MsgUse where
  | none
  | collective (x op group num : Nat)
  | migrate (h : Nat)
  | shard (h chunk : Nat)
  | restore (h addr : Nat)
  | molt (x slot : Nat)
  | rebuild (x : Nat)
  | parity (x : Nat)
  | vote (x : Nat)
  | relay (host tag : Nat)
  | reply
  deriving DecidableEq, Repr

/-- A message queued on a sending flow. -/
structure SndMsg where
  seq    : Nat
  use    : MsgUse
  budget : Nat := 0                   -- retx_budget of its queue; 0 for the link plate's (R359)
  deriving DecidableEq, Repr

/-- A sending flow: state, window, timers and congestion response (R293, R298, R299). -/
structure SndFlow where
  st      : FlowSt := .closed
  psn     : Nat := 0                  -- next PSN
  msgSeq  : Nat := 0
  una     : List FjPkt := []          -- sent and not acknowledged, by PSN
  unsent  : List FjPkt := []          -- queued; a PSN is given when a packet is sent
  msgs    : List SndMsg := []         -- not yet acknowledged
  retries : Nat := 0                  -- OPEN retries
  held    : Bool := false             -- held in OPENING by NACK LOST_PEER (R353)
  srtt    : Option Nat := none        -- ns
  rto     : Nat := 40000              -- ns
  rate    : Nat := 0                  -- Mbit/s
  alpha   : Nat := 0xFFFF
  inc     : Nat := 0
  lastCut : Nat := 0
  eceSeen : Bool := false             -- an ACK carried ece in this t_inc
  path    : Nat := 0
  budget  : List (Nat × Nat) := []    -- PSN, resends on this path
  tried   : List (Nat × Nat) := []    -- PSN, paths exhausted on that packet
  sacked  : List Nat := []            -- PSNs that a SACK bitmap shows as received (R289)
  sentAt  : List (Nat × Nat) := []    -- PSN, clock of sending
  refused : List Nat := []            -- PSNs refused with EARLY_EPOCH or NO_BUFFER, to be resent (R296)
  deriving DecidableEq, Repr

/-- A receiving flow (R292, R293, R294, R298). -/
structure RcvFlow where
  isOpen  : Bool := false
  inc     : Nat := 0
  ackPsn  : Nat := 0                  -- lowest PSN not yet received
  got     : List Nat := []            -- PSNs received beyond it
  unacked : Nat := 0                  -- packets since the last ACK
  ece     : Bool := false
  buffer  : List FjPkt := []          -- received beyond ack_psn, not yet delivered
  reoffer : List Nat := []            -- PSNs refused for resending (R296 EARLY_EPOCH, NO_BUFFER)
  broken  : List Nat := []            -- messages of which a packet was refused for good: they are not delivered (R292)
  deriving DecidableEq, Repr

/-- A collective in progress on this member (R302, R546). -/
structure Coll where
  x       : Nat
  queue   : Option (Nat × Nat)        -- command; none when the hub issued it
  desc    : Bytes                     -- 128 bytes
  descAt  : Nat := 0                  -- its address
  op      : Nat
  group   : Nat
  num     : Nat                       -- instance: its number among those of its op and group (R546)
  epoch   : Nat
  die     : Nat
  members : List Nat                  -- device indices of the group, in its order
  since   : Nat := 0                  -- clock at which it started
  unacked : Nat := 0                  -- messages sent and not yet acknowledged
  own     : List (Nat × Nat × Bytes) := [] -- contributions for this device's own engine not yet admitted: first unit, units, payload
  want    : List Nat := []            -- blocks still to be delivered to this member
  parts   : List (Nat × Nat × Bytes) := [] -- what has arrived, of each source in the order it sent it: source device, first unit, bytes
  seqs    : List Nat := []            -- the message numbers of those parts
  summed  : Bool := false             -- its contributions are sums of shares that this device holds (R307)
  counts  : List (Nat × Nat) := []    -- what a source has announced: source device, rows or digests or bytes
  received : Nat := 0
  dropped : Nat := 0
  deriving DecidableEq, Repr

/-- An open entry of a reduction store (R307, R308). -/
structure RedEntry where
  x      : Nat
  epoch  : Nat
  step   : Nat
  op     : Nat
  group  : Nat
  num    : Nat
  die    : Nat                        -- link die whose store holds it
  block  : Nat
  share  : Nat                        -- shares summed so far
  sums   : List Int                   -- 32 sums; the marker is absorbed as `bad`
  bad    : List Bool                  -- element holds the non-finite marker
  nibble : BitVec 4                   -- in wire form (R306)
  rows   : Nat := 0                   -- rows and cols of the contributions (R309)
  cols   : Nat := 0
  deriving DecidableEq, Repr

/-- What an ALL_TO_ALL keeps for the COMBINE that follows (R310). -/
structure RouteRec where
  x      : Nat
  group  : Nat
  rows   : Nat := 0                   -- source rows that this member sent
  keys   : List (Nat × Nat)           -- key, device from which the row came, ascending key
  deriving DecidableEq, Repr

/-! ## Hub -/

/-- A compartment of the hub firmware (R388, R391, R392, R414). -/
structure Comp where
  st       : Nat := 0                 -- 0 STOPPED, 1 RUNNING, 2 RESTARTING, 3 FAILED
  core     : Nat := 0
  restarts : BitVec 8 := 0
  cause    : BitVec 4 := 0
  times    : List Nat := []           -- clocks of its restarts
  gate     : List (Nat × Bytes) := [] -- gate messages waiting: sender, message
  deriving DecidableEq, Repr

/-- A mailbox channel (R372 to R374, R387). -/
structure Mbox where
  kind    : Nat := 0                  -- sender: 0 none, 1 fleet manager, 2 host, 3 peer, 4 operator, 5 lending
  sender  : Nat := 0
  rdie    : Nat := 18                 -- receiver's die
  inb     : Bytes := []               -- inbound slot, up to 256 bytes
  outb    : Bytes := []
  inFull  : Bool := false
  outFull : Bool := false
  overrun : Bool := false
  src     : Nat := 0xFFFF             -- who wrote the inbound message
  session : Option Nat := none        -- secured session that carried it (R486)
  deriving DecidableEq, Repr

/-- A Firefly record (R407). -/
structure FfRec where
  seq     : Nat
  time    : Nat
  code    : Nat
  sev     : Nat
  die     : Nat
  flags   : Nat
  unit    : Nat
  ctx     : Nat
  phase   : Nat
  epoch   : Nat
  step    : Nat
  payload : Bytes
  deriving DecidableEq, Repr

/-- An error record (R418). -/
structure ErrRec where
  index  : Nat
  cls    : Nat
  kind   : Nat
  die    : Nat
  ctx    : Option Nat
  unit   : Nat
  status : Nat
  flags  : Nat
  rep    : Nat := 1                   -- repeat
  time   : Nat
  clk    : Nat                        -- clock at which it was written, for the 1 s merge
  epoch  : Nat
  step   : Nat
  phase  : Nat
  pcap   : Nat
  health : Nat
  temp   : List Int
  stale  : Nat
  load   : Bytes
  detail : Bytes
  deriving DecidableEq, Repr

/-- Health states (R452). -/
inductive Health where
  | service | probation | quarantine | pupa
  deriving DecidableEq, Repr

/-- A thermal replay in progress (R445 to R447). -/
structure Replay where
  x        : Nat
  die      : Nat
  points   : List (Int × Nat × Nat)   -- setpoint, first step, last step
  at_      : Nat := 0                 -- index of the setpoint in force
  held     : Bool := false            -- hold_s has passed within tolerance
  bad      : Bool := false            -- a record of the setpoint in force differs from its reference
  tol      : Nat
  occ      : Nat
  memClass : Nat
  holdS    : Nat
  refAddr  : Nat
  result   : List Nat := []           -- one byte per setpoint: 0 equal, 1 differs, 2 skipped
  deriving DecidableEq, Repr

/-- The hub: firmware state, error log, health, hangs, soldier, Firefly, profile (R388 to R470). -/
structure Hub where
  comps      : List Comp := [{}, {}, {}, {}, {}]
  beat       : Word := 0              -- FW_HUB_BEAT
  beatClk    : Nat := 0
  coreReset  : List Nat := []         -- hub cores in reset
  coreResets : List Nat := []         -- clocks of hub core resets (R434)
  mboxes     : Tab Mbox := []
  minSev     : BitVec 3 := 1          -- FW_FF_CTL
  ffDropped  : BitVec 16 := 0         -- FW_FF_DROP
  ffOver     : BitVec 16 := 0
  ffSeq      : Nat := 0
  evNext     : Nat := 0               -- FW_FF_POS
  trNext     : Nat := 0
  evRing     : Tab (Option FfRec) := []   -- slot to record
  trRing     : Tab (Option FfRec) := []
  lostBefore : Bool := false          -- events were dropped since the last one written (R407)
  lostTrace  : Bool := false          -- and trace records
  nextLc     : Nat := 0               -- queue at which the next turn of LC queues begins (R375)
  nextBe     : Nat := 0               -- and of BE queues
  traceEn    : BitVec 128 := 0        -- FW_TRACE_EN0-3
  profEn     : Bool := false          -- FW_PROF_CTL
  profPer    : BitVec 14 := 0x64
  profPos    : BitVec 24 := 0
  errNext    : Word := 0              -- HUB_ERR_POS
  errLog     : List ErrRec := []      -- at most 8,192, newest first
  poolC      : Nat := 0               -- CORRECTED pool, 1/16 point
  poolO      : Nat := 0
  health     : Health := .service
  recState   : Health := .service
  samples    : Nat := 0               -- matrix samples since the last change of health state (R450)
  stPass     : Bool := false          -- self_test_pass
  stRun      : Bool := false
  cmdResult  : BitVec 2 := 0
  lastClass  : BitVec 8 := 0
  scored     : Bool := false          -- health restored (R469: the reset value holds until then)
  hangValid  : Bool := false          -- HUB_HANG_CTX
  hangCause  : BitVec 3 := 0
  hangCtx    : BitVec 6 := 0
  hangQueue  : BitVec 14 := 0
  cycleHold  : BitVec 16 := 0x000A    -- HUB_HANG_CFG
  crossHold  : BitVec 16 := 0x0064
  hung       : BitVec 16 := 0         -- HUB_HANG_STAT
  rearms     : BitVec 16 := 0
  solRate    : BitVec 20 := 0x1388    -- HUB_SOLDIER_CFG
  solMis     : BitVec 16 := 0         -- HUB_SOLDIER_STAT
  solSkip    : BitVec 16 := 0
  solKey     : BitVec 256 := 0
  rstDomain  : BitVec 4 := 0          -- HUB_RESET_LAST
  rstDie     : BitVec 5 := 0
  rstCell    : BitVec 8 := 0
  rstTrig    : BitVec 7 := 0
  rstCellV   : Bool := false
  rstCount   : BitVec 16 := 0         -- HUB_RESET_CNT
  redrives   : BitVec 16 := 0
  lendStat   : Tab (BitVec 2 × Bool) := [] -- FW_LEND_STAT_0-15
  crashInfo  : Option (Nat × Nat × Nat × List Nat) := none -- seq, time, trigger, cells of the latest sampling
  replay     : Option Replay := none
  deriving DecidableEq, Repr

/-! ## Security -/

/-- Session authority (R485). -/
inductive Authority where
  | none | operator | tenant (ctx : Nat)
  deriving DecidableEq, Repr

/-- An SPDM session (R481). -/
structure Session where
  id     : Nat
  path   : SpdmPath
  auth   : Authority := .none
  ready  : Bool := false               -- FINISH has completed it
  clk    : Nat := 0                    -- clock of the last traffic
  keyGen : Nat := 0                    -- key updates
  deriving DecidableEq, Repr

/-- The security state: fuses, key slots, sessions, debug log (R471 to R490). -/
structure Sec where
  lifecycle : Nat := 0                 -- 0 MANUFACTURE .. 4 SCRAPPED
  rootRev   : BitVec 2 := 0
  owners    : List (Bytes × Bytes) := [] -- owner slots written: RSA hash, ML-DSA hash
  ownerRev  : BitVec 4 := 0
  svn       : Nat := 0                 -- fused svn
  ownerNew  : Option (Bytes × Bytes) := none -- pending change (R474)
  slotLive  : BitVec 128 := 0          -- SEC_SLOT_LIVE0-3
  slotKeys  : Tab (BitVec 256 × BitVec 256 × BitVec 256) := [] -- two XTS keys and a MAC key
  caks      : Tab Bytes := []          -- CAK store, 16 slots; empty for none
  sessions  : List Session := []
  nextSid   : Nat := 1
  negotiated : List SpdmPath := []     -- transports with algorithms fixed
  versioned : List SpdmPath := []
  debugSt   : BitVec 4 := 0            -- debug_state
  debugLog  : List Bytes := []         -- measurement 6: the events of its hash chain, oldest first (R482)
  reports   : Nat := 0                 -- SEC_ATTEST_CNT
  drbg      : Nat := 0                 -- draws made
  cdi       : Bytes := []
  aliasSeed : Bytes := []
  meas2     : Bytes := []
  meas3     : Bytes := []
  meas4     : Bytes := []              -- of the fuses as the start found them (R482)
  caraSeq   : Nat := 0                 -- amendments applied since BOOT_RELEASE
  imageSvn  : Nat := 0
  public_   : Bool := false            -- the fuses have been read (SEC_ registers show them)
  deriving DecidableEq, Repr

/-! ## Start-up -/

/-- The device-level plates in force (R510, R511, R274). -/
structure Plate where
  devIndex  : Nat := 0
  mgmtAddr  : Bytes := []
  mgmtHop   : Nat := 0
  spdmPort  : Nat := 4194
  fmAddr    : Option Bytes := none
  dieFence  : BitVec 20 := 0
  cellFence : BitVec 256 := 0          -- bit by flat cell
  coreFence : BitVec 4 := 0
  holdUs    : Nat := 200
  placement : List Nat := [0, 0, 0, 0, 0, 0, 0, 0]
  shardTo   : Nat := 30
  parityReg : List Nat := []           -- region index of each context's parity area
  split     : List Nat := [0, 0, 0, 0, 0, 0, 0, 0, 0]
  addrs     : List (Nat × Bytes) := [] -- first lane to address
  nexthop   : List (Nat × Nat) := []
  peerTab   : List (Nat × List Bytes) := []
  udpPort   : Nat := 7281
  vlanEn    : Bool := true
  vid       : Nat := 100
  pfcMask   : BitVec 8 := 0x08
  pfcWdog   : Nat := 100
  dwrr      : List Nat := [12, 3, 1]
  hbInt     : Nat := 100               -- µs
  peerTo    : Nat := 1000              -- µs
  rtoInit   : Nat := 40                -- µs
  rtoMin    : Nat := 10
  rtoMax    : Nat := 4000
  retx      : Nat := 8
  ai        : Nat := 2000
  rateMin   : Nat := 1000
  tInc      : Nat := 50
  macsec    : Nat := 2                 -- 0 OFF, 1 OPPORTUNISTIC, 2 REQUIRED
  cipher    : Nat := 1
  ptpLane   : Nat := 0
  ptpStand  : Nat := 0x7F
  ppsEn     : Bool := false
  bridge    : Nat := 0xFFFF
  cakSlot   : List Nat := []
  trainWait : Nat := 2000
  shape     : Nat := 0
  deriving DecidableEq, Repr

/-- Boot stages (R492, R519). -/
inductive Stage where
  | fuse | image | carapace | trainLinks | release | released | pupa
  deriving DecidableEq, Repr

/-- A start outcome of the history (R491). -/
structure StartRec where
  ok     : Bool
  stage  : Nat
  reason : Nat
  detail : Nat
  deriving DecidableEq, Repr

/-- The boot controller, the start fuses and the start records of the flash (R491 to R519). -/
structure Boot where
  stage     : Stage := .fuse           -- BOOT_STATUS.stage
  active    : Bool := false            -- a stage is in progress
  reason    : BitVec 8 := 0
  detail    : BitVec 16 := 0
  fuses     : Nat := 0                 -- F
  base      : Option Nat := some 0     -- B; none when neither copy passes its CRC
  armed     : Bool := false
  trialMark : Bool := false            -- trial marker in the flash
  trial     : Bool := false            -- this start is a trial
  pupaReq   : Bool := false            -- BOOT_CTL.enter_pupa was written before this start
  starts    : BitVec 16 := 0
  history   : List StartRec := []      -- last 16, newest first
  ends      : List Word := [0, 0, 0, 0, 0]  -- BOOT_T_*
  fuseClk   : Nat := 0                 -- clock at which BOOT_FUSE began
  incarn    : Nat := 0                 -- incarnation (R294)
  poolC     : Nat := 0                 -- saved health (R449)
  poolO     : Nat := 0
  hState    : Health := .service
  hRec      : Health := .service
  caraSeen  : Nat := 0                 -- one above the highest base seq accepted (R507)
  amends    : List Bytes := []         -- amendment log, in order (R516)
  fetchSt   : BitVec 3 := 0            -- BOOT_FETCH_STAT
  fetchWhy  : BitVec 8 := 0
  fetchPct  : BitVec 7 := 0
  fetchCara : Bool := false
  fetchAt   : Nat := 0                 -- flash address it is programmed at
  fetchLen  : Nat := 0
  retry     : Bool := false            -- a failed start waits for its 1 s (R493)
  commitSvn : Bool := false
  stream    : Bytes := []              -- base stream in force (R516)
  applied   : List Bytes := []         -- amendments in force, in order
  training  : Bool := false            -- BOOT_TRAIN_LINKS has begun to train the lanes
  crashIdx  : Nat := 0                 -- next crash-summary slot (R410)
  keyCache  : Bytes := []              -- SHA-512 of the seed the cached Alias RSA pair was made from (R476)
  stepping  : BitVec 16 := 0           -- BOOT_STEPPING
  deriving DecidableEq, Repr

/-! ## Power and dies -/

/-- A temperature sensor (R534). -/
structure Sensor where
  valid : Bool := false
  stale : Bool := false
  temp  : Int := 0                     -- 1/16 °C
  deriving DecidableEq, Repr

/-- A die: calibration, domain, sensors, limits, caps (R37, R514, R527, R528, R534). -/
structure Die where
  calValid  : Bool := false
  trim      : Bool := false
  drift     : Bool := false            -- drift_alarm (W1C)
  fenced    : Bool := false            -- die_fenced
  isolated  : Bool := false            -- R26
  failMask  : BitVec 8 := 0
  recal     : BitVec 16 := 0
  on        : Bool := false            -- PWR_STATE.domain_on
  sensors   : List Sensor := []
  droop     : BitVec 16 := 0           -- PWR_DROOP.events
  capLim    : Int := 0                 -- PWR_TLIMIT
  shutLim   : Int := 0
  capped    : Bool := false            -- thermal cap active
  droopBusy : Option Nat := none       -- the droop sensor being recalibrated (R35)
  deriving DecidableEq, Repr

/-- Power states (R526). -/
inductive PwrSt where
  | off | starting | on | pupa | halted | shutdown
  deriving DecidableEq, Repr

/-- The power-and-sensing shell (R524 to R534). -/
structure Power where
  st       : PwrSt := .off
  pwrEn    : Bool := false
  faultN   : Bool := true
  lastShut : BitVec 3 := 0
  volts    : BitVec 16 := 0            -- 10 mV
  amps     : BitVec 16 := 0            -- 10 mA
  watts    : BitVec 16 := 0
  peak     : BitVec 16 := 0
  capW     : BitVec 16 := 0x0C80
  inCap    : Bool := false             -- input cap active
  repCap   : Bool := false             -- replay cap
  coolCap  : Bool := false             -- coolant inlet above 40 °C
  coolLim  : Nat := 3200               -- W allowed under the coolant cap
  cappedMs : BitVec 16 := 0
  inlet    : Int := 0
  outlet   : Int := 0
  gate     : Nat := 0                  -- gating events since start-up (R29)
  gateAt   : List Nat := []            -- clocks of the gating events of the last 1 ms (R419)
  droopAt  : List Nat := []            -- clocks of the droop events of the last 1 ms
  deriving DecidableEq, Repr

/-! ## What the device sends, and the whole machine -/

/-- The state of the module. -/
structure State where
  pending  : List Instr := []          -- commands that wait, first in, first out
  clk      : Nat := 0                  -- arithmetic clocks since power came (600 MHz, R28)
  freeCtr  : Nat := 0                  -- MODEL'S OWN: draws made from the free values
  mem      : List Host.Cell := []      -- HBM3E, LPDDR5X and cell windows (R14, R122)
  poison   : List Nat := []            -- poisoned pairs, by address / 128, ascending (R197)
  flash    : List Host.Cell := []      -- boot flash (R491)
  ctxs     : Tab Ctx := []             -- contexts 0 to 63
  seqs     : Tab Seq := []             -- sequence table, 0 to 1,023
  queues   : Tab Queue := []           -- queue table, 0 to 16,383
  cells    : Tab Cell := []            -- flat cells 0 to 255
  holders  : Tab Holder := []          -- by die index: 8 to 15, 19
  links    : Tab LinkDie := []         -- by die index: 16, 17
  ports    : Tab SubPort := []         -- by first lane 0 to 71
  peers    : Tab Peer := []            -- by device index
  snd      : List (FlowKey × SndFlow) := []
  rcv      : List (FlowKey × RcvFlow) := []
  colls    : List Coll := []
  red      : List RedEntry := []       -- reduction stores
  routes   : List RouteRec := []
  rxq      : List FjPkt := []          -- packets delivered by the transport, oldest first
  ended    : List (MsgUse × Nat) := [] -- sent messages that have completed, on their way to the work that waits for them
  fabDown  : List (Nat × Nat) := []    -- fabric links taken down (R25)
  fabRoutes : List (Nat × Nat × Nat) := [] -- the dies' routing tables: from, to, next die (R24)
  cellSamples : List Sample := []      -- soldier buffers of the compute dies
  hub      : Hub := {}
  sec      : Sec := {}
  plate    : Plate := {}
  boot     : Boot := {}
  dies     : Tab Die := []             -- by die index 0 to 19
  pwr      : Power := {}
  sent     : List OutMsg := []         -- everything sent, oldest first
  deriving DecidableEq, Repr

/-- The machine right after reset: every field at its default, before power comes (log entries 1, 2). -/
def State.reset : State := {}

end Sys2Proof.Machine
end

