-- ==== Sys2Proof/Machine/Num.lean ====
section
/-! DEFINITION. Machine/Num.lean: number formats, exact values, rounding and the quantiser (R38 to R76). -/
namespace Sys2Proof.Machine

/-- The format codes of R38. -/
inductive Fmt where
  | fp32 | fp16 | bf16 | e4m3 | e5m2 | e4m3b | e5m2b | e2m1b | gbf8 | gbf4 | gbi16 | gbi24 | fp40 | gbs32 | gbs40
  deriving DecidableEq, Repr

/-- The format that a 4-bit code names; 0xF is reserved (R38). -/
def fmtOf (code : Nat) : Option Fmt :=
  [Fmt.fp32, .fp16, .bf16, .e4m3, .e5m2, .e4m3b, .e5m2b, .e2m1b, .gbf8, .gbf4, .gbi16, .gbi24, .fp40, .gbs32, .gbs40][code]?

/-- Bits of one element (R38). -/
def fmtBits : Fmt → Nat
  | .fp32 => 32 | .fp16 => 16 | .bf16 => 16 | .e4m3 => 8 | .e5m2 => 8 | .e4m3b => 8 | .e5m2b => 8 | .e2m1b => 4
  | .gbf8 => 8 | .gbf4 => 4 | .gbi16 => 16 | .gbi24 => 24 | .fp40 => 40 | .gbs32 => 32 | .gbs40 => 40

/-- The format groups 32 elements in a block (R38). -/
def fmtBlocked : Fmt → Bool
  | .e4m3b | .e5m2b | .e2m1b | .gbf8 | .gbf4 | .gbi16 | .gbi24 | .gbs32 | .gbs40 => true
  | .fp32 | .fp16 | .bf16 | .e4m3 | .e5m2 | .fp40 => false

/-- The format stores a scale byte with each block (R38). -/
def fmtScaled : Fmt → Bool
  | .e4m3b | .e5m2b | .e2m1b | .gbf8 | .gbf4 => true
  | .fp32 | .fp16 | .bf16 | .e4m3 | .e5m2 | .fp40 | .gbi16 | .gbi24 | .gbs32 | .gbs40 => false

/-- The format has a side-plane (R38). -/
def fmtSided : Fmt → Bool
  | .gbf8 | .gbf4 => true
  | .e4m3b | .e5m2b | .e2m1b | .fp32 | .fp16 | .bf16 | .e4m3 | .e5m2 | .fp40 | .gbi16 | .gbi24 | .gbs32 | .gbs40 => false

/-- The format takes its exponent from an agreed-exponent table (R38, R54, R56). -/
def fmtAgreed : Fmt → Bool
  | .gbi16 | .gbi24 | .gbs32 | .gbs40 => true
  | .e4m3b | .e5m2b | .e2m1b | .gbf8 | .gbf4 | .fp32 | .fp16 | .bf16 | .e4m3 | .e5m2 | .fp40 => false

/-- A decoded value: a NaN with its origin code (R46), sign and fraction left-aligned in 31 bits (R47); an infinity;
or exactly (−1)^neg × m × 2^e. -/
inductive Val where
  | nan (code : Nat) (neg : Bool) (pay : Nat)
  | inf (neg : Bool)
  | fin (neg : Bool) (m : Nat) (e : Int)
  deriving DecidableEq, Repr

/-- Plus zero. -/
def vZero : Val := .fin false 0 0

/-- A NaN the device itself forms (R46). -/
def vNan (code : Nat) : Val := .nan code false (2 ^ 30)

/-- The value is a NaN. -/
def Val.isNan : Val → Bool
  | .nan _ _ _ => true
  | .inf _ => false
  | .fin _ _ _ => false

/-- The value is an infinity. -/
def Val.isInf : Val → Bool
  | .inf _ => true
  | .nan _ _ _ => false
  | .fin _ _ _ => false

/-- The value is neither NaN nor infinity. -/
def Val.isFin : Val → Bool
  | .fin _ _ _ => true
  | .nan _ _ _ => false
  | .inf _ => false

/-- The value is a zero of either sign. -/
def Val.isZero : Val → Bool
  | .fin _ m _ => decide (m = 0)
  | .nan _ _ _ => false
  | .inf _ => false

/-- The sign bit of a value. -/
def Val.sign : Val → Bool
  | .fin s _ _ => s
  | .inf s => s
  | .nan _ s _ => s

/-- Finite and nonzero. -/
def Val.isReal (v : Val) : Bool := v.isFin && !v.isZero

/-- Bits of a number: 0 for 0. -/
def bitlen (n : Nat) : Nat := if n = 0 then 0 else Nat.log2 n + 1

/-- `floor_log2` of m × 2^e, m nonzero. -/
def flog2 (m : Nat) (e : Int) : Int := (Nat.log2 m : Int) + e

/-- The top of a finite nonzero value: the smallest t with |v| < 2^t. -/
def vTop (m : Nat) (e : Int) : Int := (bitlen m : Int) + e

/-- m × 2^e rounded up to an integer. -/
def ceilScaled (m : Nat) (e : Int) : Nat :=
  if 0 ≤ e then m * 2 ^ e.toNat else (m + 2 ^ (-e).toNat - 1) / 2 ^ (-e).toNat

/-- True when m1 × 2^e1 ≤ m2 × 2^e2. -/
def magLe (m1 : Nat) (e1 : Int) (m2 : Nat) (e2 : Int) : Bool :=
  let e := min e1 e2
  decide (m1 * 2 ^ (e1 - e).toNat ≤ m2 * 2 ^ (e2 - e).toNat)

/-- The value as a signed integer at weight 2^e, for e not above its exponent. -/
def finInt (neg : Bool) (m : Nat) (e0 e : Int) : Int :=
  let x : Int := (m : Int) * 2 ^ (e0 - e).toNat
  if neg then -x else x

/-- The value i × 2^e; zero is plus zero. -/
def ofInt (i : Int) (e : Int) : Val := .fin (decide (i < 0)) i.natAbs e

/-- The exact sum of two finite values given as sign, significand, exponent. Zero is plus zero. -/
def addExact (s1 : Bool) (m1 : Nat) (e1 : Int) (s2 : Bool) (m2 : Nat) (e2 : Int) : Val :=
  let e := min e1 e2
  ofInt (finInt s1 m1 e1 e + finInt s2 m2 e2 e) e

/-! ## Rounding (R59) -/

/-- Rounding modes: the four of R59, and the two directed ones of STRICT_IEEE (R115). -/
inductive RMode where
  | rne | rtz | rto | sr | up | down
  deriving DecidableEq, Repr

/-- The integer that the magnitude m × 2^e rounds to; `r` is the u24 drawn under SR (R59). -/
def roundMag (mode : RMode) (neg : Bool) (r m : Nat) (e : Int) : Nat :=
  if 0 ≤ e then m * 2 ^ e.toNat
  else
    let d := 2 ^ (-e).toNat
    let n := m / d
    let f := m % d
    match mode with
    | .rne => if 2 * f > d || (2 * f = d && n % 2 = 1) then n + 1 else n
    | .rtz => n
    | .rto => if f = 0 then n else n ||| 1
    | .sr => if f * 2 ^ 24 / d + r ≥ 2 ^ 24 then n + 1 else n
    | .up => if f ≠ 0 && !neg then n + 1 else n
    | .down => if f ≠ 0 && neg then n + 1 else n

/-! ## Floating-point formats (R42, R44) -/

/-- The layout of a floating-point format. -/
structure FloatFmt where
  ew   : Nat
  fw   : Nat
  bias : Int
  top  : Nat          -- pattern of the largest finite magnitude
  inf  : Bool         -- has infinities
  nan1 : Nat          -- pattern of the canonical NaN of code 0 plus one step per code (R46); 0 for a single NaN
  step : Nat
  deriving DecidableEq, Repr

/-- Layouts of R42 and R44, with the canonical NaNs of R46. -/
def layout : Fmt → FloatFmt
  | .fp32 => ⟨8, 23, 127, 0x7F7FFFFF, true, 0x7FC00000, 1⟩
  | .fp16 => ⟨5, 10, 15, 0x7BFF, true, 0x7E00, 1⟩
  | .bf16 => ⟨8, 7, 127, 0x7F7F, true, 0x7FC0, 1⟩
  | .fp40 => ⟨8, 31, 127, 0x7F7FFFFFFF, true, 0x7FC0000000, 0x100⟩
  | .e5m2 | .e5m2b => ⟨5, 2, 15, 0x7B, true, 0x7C, 1⟩
  | .e4m3 | .e4m3b => ⟨4, 3, 7, 0x7E, false, 0x7F, 0⟩
  | .e2m1b => ⟨2, 1, 1, 7, false, 0, 0⟩
  | .gbf8 | .gbf4 | .gbi16 | .gbi24 | .gbs32 | .gbs40 => ⟨0, 0, 0, 0, false, 0, 0⟩

/-- The NaN code of a NaN pattern (R46): a canonical one keeps its code, any other is 1. -/
def nanCode (f : FloatFmt) (pat : Nat) : Nat :=
  if f.step = 0 then 1
  else if pat = f.nan1 + 2 * f.step then 2
  else if pat = f.nan1 + 3 * f.step then 3
  else 1

/-- Decodes a floating-point pattern (R40, R42, R43, R44). -/
def decFloat (f : FloatFmt) (pat : Nat) : Val :=
  let neg := bit pat (f.ew + f.fw)
  let mag := pat % 2 ^ (f.ew + f.fw)
  let ex := mag / 2 ^ f.fw
  let fr := mag % 2 ^ f.fw
  if mag ≤ f.top then
    if ex = 0 then .fin neg fr (1 - f.bias - f.fw)
    else .fin neg (2 ^ f.fw + fr) ((ex : Int) - f.bias - f.fw)
  else if f.inf && fr = 0 then .inf neg
  else .nan (nanCode f (pat % 2 ^ (f.ew + f.fw + 1))) neg (fr * 2 ^ (31 - f.fw))

/-- The pattern of the magnitude m × 2^e rounded to the format's precision with an unbounded exponent (R70). -/
def roundPat (f : FloatFmt) (mode : RMode) (neg : Bool) (r m : Nat) (e : Int) : Nat :=
  if m = 0 then 0
  else
    let ex := max (flog2 m e) (1 - f.bias)
    (ex + f.bias - 1).toNat * 2 ^ f.fw + roundMag mode neg r m (e - (ex - f.fw))

/-- Sets the sign bit of a pattern. -/
def signPat (f : FloatFmt) (neg : Bool) (mag : Nat) : Nat := if neg then mag + 2 ^ (f.ew + f.fw) else mag

/-- The NaN pattern written for a NaN of a code, or for its sign and payload under strict_nan (R46, R47). DESIGN CHOICE (log entry 90): R47 states the
payload of a NaN that comes from an IEEE-like source; one from E4M3, E5M2, a block-scaled form, GBF or GBI gives its left-aligned fraction with the quiet bit
(GBF and GBI: the fraction 0), and its code is dropped. -/
def nanPat (f : FloatFmt) (strict : Bool) (code : Nat) (neg : Bool) (pay : Nat) : Nat :=
  if strict && f.inf && f.fw ≥ 7 then
    signPat f neg ((2 ^ f.ew - 1) * 2 ^ f.fw + (pay / 2 ^ (31 - f.fw) ||| 2 ^ (f.fw - 1)))
  else if f.step = 0 then f.nan1
  else f.nan1 + code * f.step

/-- What an overflowing magnitude becomes: true for an infinity (R70). -/
def overInf (f : FloatFmt) (mode : RMode) (neg sat : Bool) : Bool :=
  f.inf && !sat &&
    match mode with
    | .rne | .sr => true
    | .rtz | .rto => false
    | .up => !neg
    | .down => neg

/-- Encodes a value in a floating-point format (R69, R70); the flag says that the largest finite magnitude was
written in place of a larger one. -/
def encFloat (f : FloatFmt) (mode : RMode) (sat strict : Bool) (r : Nat) (v : Val) : Nat × Bool :=
  match v with
  | .nan c neg pay => (nanPat f strict c neg pay, false)
  | .inf neg =>
    if f.inf then (signPat f neg ((2 ^ f.ew - 1) * 2 ^ f.fw), false)
    else if sat then (signPat f neg f.top, true)
    else (f.nan1, false)
  | .fin neg m e =>
    let p := roundPat f mode neg r m e
    if p ≤ f.top then (signPat f neg p, false)
    else if overInf f mode neg sat then (signPat f neg ((2 ^ f.ew - 1) * 2 ^ f.fw), false)
    else (signPat f neg f.top, true)

/-- Decodes an FP32 pattern. -/
def dec32 (p : Nat) : Val := decFloat (layout .fp32) (p % 2 ^ 32)

/-- Rounds a value to FP32 under RNE, overflow to infinity. -/
def enc32 (v : Val) : Nat := (encFloat (layout .fp32) .rne false false 0 v).1

/-- The value after one rounding to FP32 under RNE. -/
def rnd32 (v : Val) : Val := dec32 (enc32 v)

/-! ## Block elements (R45, R48 to R54) -/

/-- The micro-exponent of element `i` of a block from its side-plane entry (R52). -/
def micro (side i : Nat) : Nat := bits side (8 + 2 * (i / 8)) 2

/-- Decodes element `i` of a GBF block (R53); `w` is 8 or 4. -/
def decGbf (w scale side i code : Nat) : Val :=
  let neg := bit code (w - 1)
  let mag := code % 2 ^ (w - 1)
  let f : Int := if w = 8 then 6 else 2
  if scale = 0xFF then vNan 1
  else if neg && mag = 0 then vNan 1
  else if w = 8 && mag = 127 then .inf neg
  else if scale = 0 then vZero
  else if mag = 0 then vZero
  else .fin neg mag ((scale : Int) - 127 - (micro side i : Int) - f)

/-- Decodes a GBI element, or a sum-form element, of partial width `w` held in `sw` bits under agreed exponent `x`
(R46, R54, R56). A reserved exponent makes the block wholly non-finite (log entry 10). -/
def decGbi (w sw x code : Nat) : Val :=
  let i := toSigned sw code
  if x = 0 || x ≥ 0xFF || i = -(2 ^ (sw - 1) : Int) then vNan 1
  else ofInt i ((x : Int) - 127 - ((w : Int) - 1))

/-- Decodes element `i` of a block of any format, given its code, its scale byte or agreed exponent and its side-plane entry. -/
def decElem (f : Fmt) (scale side i code : Nat) : Val :=
  match f with
  | .fp32 | .fp16 | .bf16 | .fp40 | .e4m3 | .e5m2 => decFloat (layout f) (code % 2 ^ fmtBits f)
  | .e4m3b | .e5m2b | .e2m1b =>
    if scale = 0xFF then vNan 1
    else match decFloat (layout f) (code % 2 ^ fmtBits f) with
      | .fin neg m e => .fin neg m (e + (scale : Int) - 127)
      | .inf neg => .inf neg
      | .nan c neg p => .nan c neg p
  | .gbf8 => decGbf 8 scale side i code
  | .gbf4 => decGbf 4 scale side i code
  | .gbi16 => decGbi 16 16 scale code
  | .gbi24 => decGbi 24 24 scale code
  | .gbs32 => decGbi 16 32 scale code
  | .gbs40 => decGbi 24 40 scale code

/-! ## The quantiser control word (R57, R58) -/

/-- qmode values of R57. -/
inductive QMode where
  | plain | dynamic | agreed
  deriving DecidableEq, Repr

/-- A decoded quantiser control word. -/
structure QCtl where
  fmt    : Fmt := .fp32
  qmode  : QMode := .plain
  rmode  : Nat := 0
  sat    : Bool := false
  micro  : Bool := false
  strict : Bool := false
  shift  : Int := 0
  deriving DecidableEq, Repr

/-- Legal targets, modes and roundings of R58. -/
def qLegal (f : Fmt) (qm : QMode) (rm : Nat) : Bool :=
  match f with
  | .fp32 | .fp40 | .bf16 | .fp16 => qm = .plain
  | .e4m3 | .e5m2 => qm = .plain && rm ≠ 2
  | .e4m3b | .e5m2b | .e2m1b => qm = .dynamic && rm ≠ 2
  | .gbf8 | .gbf4 => (qm = .dynamic || qm = .agreed) && rm ≠ 2
  | .gbi16 | .gbi24 => qm = .agreed && rm < 2
  | .gbs32 | .gbs40 => false

/-- Decodes a control word; `none` is the BAD_DESCRIPTOR of R57 and R58. Under STRICT_IEEE, rmode 2 and 3 of a matrix
tile name the directed roundings (R115) and every rmode is legal with a floating-point target (log entry 11). -/
def qDecode (strictCtx : Bool) (w : Nat) : Option QCtl :=
  match fmtOf (bits w 28 4), (match bits w 26 2 with | 0 => some QMode.plain | 1 => some .dynamic | 2 => some .agreed | _ => none) with
  | some f, some qm =>
    let rm := bits w 24 2
    let sh := toSigned 8 (bits w 8 8)
    let gbf := f = .gbf8 || f = .gbf4
    if bits w 16 5 ≠ 0 || bits w 0 8 ≠ 0 || (qm ≠ .plain && sh ≠ 0) || (bit w 22 && !gbf) || (bit w 21 && !strictCtx)
      || !qLegal f qm rm then none
    else some { fmt := f, qmode := qm, rmode := rm, sat := bit w 23, micro := bit w 22, strict := bit w 21, shift := sh }
  | _, _ => none

/-- The rounding mode of a control word: R59 outside a STRICT_IEEE matrix tile, R115 inside. -/
def qRound (directed : Bool) (q : QCtl) : RMode :=
  match q.rmode with
  | 0 => .rne
  | 1 => .rtz
  | 2 => if directed then .up else .rto
  | _ => if directed then .down else .sr

/-! ## Encoding one block (R61 to R68, R75) -/

/-- A value times 2^k, exactly. -/
def vScale (k : Int) : Val → Val
  | .fin s m e => .fin s m (e + k)
  | .inf s => .inf s
  | .nan c s p => .nan c s p

/-- The largest finite magnitude of a list as (significand, exponent); significand 0 when there is none. -/
def amax (vs : List Val) : Nat × Int :=
  vs.foldl (fun b v => match v with
    | .fin _ m e => if m ≠ 0 && (b.1 = 0 || magLe b.1 b.2 m e) then (m, e) else b
    | .inf _ => b
    | .nan _ _ _ => b) (0, 0)

/-- An encoded block: element codes, scale byte, side-plane entry, flag nibble and the counts of R66. -/
structure EncBlock where
  codes  : List Nat
  scale  : Nat := 0
  side   : Nat := 0
  nibble : Nat := 0
  q      : QCounts := {}
  deriving DecidableEq, Repr

/-- Sums of quantiser counts. -/
def addQ (a b : QCounts) : QCounts :=
  { crushed := a.crushed + b.crushed, crushBlk := a.crushBlk + b.crushBlk, zeroBlk := a.zeroBlk + b.zeroBlk,
    clampBlk := a.clampBlk + b.clampBlk, specialBlk := a.specialBlk + b.specialBlk }

/-- The counts of one block of a block format (R65, R66). -/
def blockCounts (crush : Nat) (zero clamp special : Bool) : QCounts :=
  { crushed := crush, crushBlk := b2n (decide (crush > 8)), zeroBlk := b2n zero, clampBlk := b2n clamp, specialBlk := b2n special }

/-- One finite element of a GBF block at shift `k` (R61): code, clamped, crushed. -/
def gbfCode (w wm : Nat) (mode : RMode) (r : Nat) (k : Int) (neg : Bool) (m : Nat) (e : Int) : Nat × Bool × Bool :=
  let q := roundMag mode neg r m (e + k)
  let ovf := decide (q > wm)
  let q' := if ovf then wm else q
  (if q' ≠ 0 && neg then q' + 2 ^ (w - 1) else q', ovf, decide (q' = 0 ∧ m ≠ 0))

/-- The exponent of a GBF block in DYNAMIC mode (R61); none when no element is finite and nonzero. -/
def gbfExp (wm : Nat) (f : Int) (vs : List Val) : Option Int :=
  let a := amax vs
  if a.1 = 0 then none
  else
    let e := max (flog2 a.1 a.2) (-126)
    let e := if ceilScaled a.1 (a.2 + f - e) > wm then e + 1 else e
    some (min e 127)

/-- The micro-exponent of a sub-block (R61). -/
def gbfMicro (en : Bool) (wm : Nat) (f e : Int) (vs : List Val) : Nat :=
  let a := amax vs
  if en && a.1 ≠ 0 then
    (([3, 2, 1] : List Nat).find? (fun (t : Nat) => decide (ceilScaled a.1 (a.2 + f - e + (t : Int)) ≤ wm))).getD 0
  else 0

/-- A GBF block (R61 to R64). `agreed` is the table byte in AGREED mode. Short blocks are not passed: the caller pads. DESIGN CHOICE (log entry 90): a
source block of NaNs, such as one whose MX scale byte is 0xFF, gives scale 0x00 with NaN codes as R64 says; the scale 0xFF that R49 lets arise
there too is written under a reserved agreed exponent alone. -/
def encGbf (w : Nat) (mode : RMode) (microEn : Bool) (agreed : Option Nat) (rnd : Nat → Nat) (vs : List Val) : EncBlock :=
  let wm := if w = 8 then 126 else 7
  let f : Int := if w = 8 then 6 else 2
  let nan := 2 ^ (w - 1)
  if agreed = some 0 || agreed = some 0xFF then
    { codes := vs.map (fun _ => nan), scale := 0xFF, side := 0x0020, q := blockCounts 0 false false true }
  else
    let zero := vs.all Val.isZero
    let special := vs.any (fun v => !v.isFin)
    let exp? : Option Int := match gbfExp wm f vs, agreed with
      | none, _ => none
      | some e, none => some e
      | some _, some b => some ((b : Int) - 127)
    let e := exp?.getD 0
    let us := (List.range 4).map (fun s => if exp?.isSome then gbfMicro microEn wm f e ((vs.drop (8 * s)).take 8) else 0)
    let one : Nat × Val → Nat × Bool × Bool := fun iv => match iv.2 with
      | .nan _ _ _ => (nan, false, false)
      | .inf neg => if w = 8 then ((if neg then 0xFF else 0x7F), false, false) else (nan, false, false)
      | .fin neg m ex =>
        if exp?.isNone then (0, false, false)
        else gbfCode w wm mode (rnd iv.1) (f - e + (us.getD (iv.1 / 8) 0 : Nat)) neg m ex
    let cs := ((List.range vs.length).zip vs).map one
    let clamp := cs.any (fun c => c.2.1)
    let crush := (cs.filter (fun c => c.2.2)).length
    { codes := cs.map (·.1),
      scale := if exp?.isSome then (e + 127).toNat else 0,
      side := us.getD 3 0 * 2 ^ 14 + us.getD 2 0 * 2 ^ 12 + us.getD 1 0 * 2 ^ 10 + us.getD 0 0 * 2 ^ 8
        + b2n zero * 128 + b2n (decide (crush > 8)) * 64 + b2n special * 32 + b2n clamp * 16 + min crush 15,
      q := blockCounts crush zero clamp special }

/-- A block of E4M3B, E5M2B or E2M1B in DYNAMIC mode (R70, R75). -/
def encMx (f : Fmt) (mode : RMode) (sat : Bool) (rnd : Nat → Nat) (vs : List Val) : EncBlock :=
  let l := layout f
  let emax : Int := match f with | .e4m3b => 8 | .e5m2b => 15 | _ => 2
  let a := amax vs
  let x : Int := if a.1 = 0 then -127 else max (-127) (min 127 (flog2 a.1 a.2 - emax))
  let two := f = .e2m1b
  let one := fun (iv : Nat × Val) =>
    if two && !iv.2.isFin then ((Config.e2m1NanCode iv.1).toNat, false)
    else encFloat l mode (iv.2.isFin || sat) false (rnd iv.1) (vScale (-x) iv.2)
  let cs := ((List.range vs.length).zip vs).map one
  let special := vs.any (fun v => !v.isFin)
  let crush := ((vs.zip cs).filter (fun vc => vc.1.isReal && vc.2.1 % 2 ^ (l.ew + l.fw) = 0)).length
  { codes := cs.map (·.1), scale := if two && special then 0xFF else (x + 127).toNat,
    q := blockCounts crush (vs.all Val.isZero) (cs.any (·.2)) special }

/-- A GBI block under agreed exponent byte `x` (R55, R68). -/
def encGbi (w : Nat) (mode : RMode) (x : Nat) (rnd : Nat → Nat) (vs : List Val) : EncBlock :=
  let marker := 2 ^ (w - 1)
  if x = 0 || x = 0xFF then
    { codes := vs.map (fun _ => marker), nibble := 2, scale := x, q := blockCounts 0 false false true }
  else
    let lim := 2 ^ (w - 1) - 1
    let k : Int := ((w : Int) - 1) - ((x : Int) - 127)
    let one : Nat × Val → Nat × Nat × Bool × Bool := fun iv => match iv.2 with
      | .nan _ _ _ => (marker, 0, false, false)
      | .inf _ => (marker, 0, false, false)
      | .fin neg m e =>
        let q := roundMag mode neg (rnd iv.1) m (e + k)
        let ovf := decide (q > lim)
        let q' := if ovf then lim else q
        (ofSigned w (if neg then -(q' : Int) else q'), q', ovf, decide (q' = 0 ∧ m ≠ 0))
    let cs := ((List.range vs.length).zip vs).map one
    let ovf := cs.any (fun c => c.2.2.1)
    let crush := (cs.filter (fun c => c.2.2.2)).length
    let zero := vs.all Val.isZero
    let nonfin := vs.any (fun v => !v.isFin)
    let big := cs.foldl (fun (b : Nat) c => max b c.2.1) 0
    let low := !zero && !nonfin && decide (big < 2 ^ (w - 7))
    { codes := cs.map (·.1), scale := x, nibble := b2n ovf * 8 + b2n zero * 4 + b2n nonfin * 2 + b2n low,
      q := blockCounts crush zero ovf nonfin }

/-- One element of an unblocked target: the PLAIN scale_shift, then one rounding (R57, R69, R70). -/
def encPlain (q : QCtl) (mode : RMode) (r : Nat) (v : Val) : Nat :=
  (encFloat (layout q.fmt) mode q.sat q.strict r (vScale q.shift v)).1

/-- Encodes one block of 32 values (or one element of an unblocked format per value): the quantiser (R61 to R75).
`x` is the byte of the scale table that AGREED mode reads, `rnd` the draw of element i of the block under SR. -/
def quantBlock (q : QCtl) (mode : RMode) (x : Nat) (rnd : Nat → Nat) (vs : List Val) : EncBlock :=
  match q.fmt with
  | .fp32 | .fp16 | .bf16 | .fp40 | .e4m3 | .e5m2 =>
    { codes := ((List.range vs.length).zip vs).map (fun iv => encPlain q mode (rnd iv.1) iv.2) }
  | .e4m3b | .e5m2b | .e2m1b => encMx q.fmt mode q.sat rnd vs
  | .gbf8 => encGbf 8 mode q.micro (if q.qmode = .agreed then some x else none) rnd vs
  | .gbf4 => encGbf 4 mode q.micro (if q.qmode = .agreed then some x else none) rnd vs
  | .gbi16 => encGbi 16 mode x rnd vs
  | .gbi24 => encGbi 24 mode x rnd vs
  | .gbs32 | .gbs40 => { codes := [] }

/-- A NaN result of a STRICT_IEEE context into a narrow format, or a NaN anywhere else, keeps R46's one code per format. -/
def packCodes (bitsPer : Nat) (codes : List Nat) : Bytes :=
  le ((codes.length * bitsPer + 7) / 8) (codes.foldr (fun c acc => c % 2 ^ bitsPer + 2 ^ bitsPer * acc) 0)

/-- The element codes held in packed bytes (R39). -/
def unpackCodes (bitsPer n : Nat) (bs : Bytes) : List Nat :=
  let x := ofLe bs
  (List.range n).map (fun i => x / 2 ^ (bitsPer * i) % 2 ^ bitsPer)

end Sys2Proof.Machine
end

