-- ==== Sys2Proof/Machine/Dot.lean ====
section
/-! DEFINITION. Machine/Dot.lean: chunks, Fast and Grid accumulation, special-state bits, row reductions, strict IEEE and GLY-KW1
dot products (R77 to R121), on exact values. -/
namespace Sys2Proof.Machine

/-- NONE of R84 and R90: a top or an anchor that bounds nothing. -/
def topNone : Int := -32768

/-- Special-state bits of R98. -/
def stNan : BitVec 4 := 8
/-- Inf × 0 (R98). -/
def stInfZero : BitVec 4 := 4
/-- Plus infinity (R98). -/
def stPos : BitVec 4 := 2
/-- Minus infinity (R98). -/
def stNeg : BitVec 4 := 1

/-- The infinity bit of a sign. -/
def stInf (neg : Bool) : BitVec 4 := if neg then stNeg else stPos

/-- What one chunk gives (R84): the sum C at weight 2^(T − 74), the top T, the special-state bits, and whether a
product violated the bound or lost bits. -/
structure ChunkSum where
  c     : Int := 0
  t     : Int := topNone
  st    : BitVec 4 := 0
  viol  : Bool := false
  trunc : Bool := false
  deriving DecidableEq, Repr

/-- Classifies one product (R84): the special-state bits it sets, and its exact finite nonzero value. -/
def product (x y : Val) : BitVec 4 × Option (Bool × Nat × Int) :=
  match x, y with
  | .nan _ _ _, _ => (stNan, none)
  | _, .nan _ _ _ => (stNan, none)
  | .inf s, .inf u => (stInf (s != u), none)
  | .inf s, .fin u m _ => if m = 0 then (stInfZero, none) else (stInf (s != u), none)
  | .fin s m _, .inf u => if m = 0 then (stInfZero, none) else (stInf (s != u), none)
  | .fin s m e, .fin u n f => if m = 0 || n = 0 then (0, none) else (0, some (s != u, m * n, e + f))

/-- A product's magnitude in units of 2^w, truncated toward zero, with whether bits were lost. -/
def truncAt (m : Nat) (e w : Int) : Nat × Bool :=
  let sh := e - w
  if 0 ≤ sh then (m * 2 ^ sh.toNat, false) else (m / 2 ^ (-sh).toNat, decide (m % 2 ^ (-sh).toNat ≠ 0))

/-- The chunk procedure of R84 over the products of its positions; `bound` is A[m][n] under GRID. -/
def chunk (bound : Option Int) (ps : List (Val × Val)) : ChunkSum :=
  let qs := ps.map (fun p => product p.1 p.2)
  let st0 := qs.foldl (fun a q => a ||| q.1) 0
  let prods := qs.filterMap (·.2)
  let bad := fun (p : Bool × Nat × Int) => match bound with
    | none => false
    | some a => decide (vTop p.2.1 p.2.2 > a - 5)
  let viols := prods.filter bad
  let kept := prods.filter (fun p => !bad p)
  let st := viols.foldl (fun a p => a ||| stInf p.1) st0
  let t := kept.foldl (fun a p => max a (vTop p.2.1 p.2.2)) topNone
  let cs := kept.map (fun p => let r := truncAt p.2.1 p.2.2 (t - 74); ((if p.1 then -(r.1 : Int) else (r.1 : Int)), r.2))
  { c := cs.foldl (fun a x => a + x.1) 0, t := t, st := st, viol := !viols.isEmpty, trunc := cs.any (·.2) }

/-! ## Fast accumulation (R87 to R89) -/

/-- A Fast accumulator entry: the FP32 pattern of the finite part, and its special-state bits. -/
structure FastEnt where
  p  : Nat := 0
  st : BitVec 4 := 0
  deriving DecidableEq, Repr

/-- Rounds an exact value to FP32 and reports overflow (R70, R87). -/
def round32 (mode : RMode) (v : Val) : Val × Bool :=
  match v with
  | .fin neg m e =>
    let p := roundPat (layout .fp32) mode neg 0 m e
    if p ≤ 0x7F7FFFFF then (decFloat (layout .fp32) (signPat (layout .fp32) neg p), false) else (.inf neg, true)
  | .inf s => (.inf s, false)
  | .nan c s p => (.nan c s p, false)

/-- The exact sum of two finite values. -/
def vAddFin (a b : Val) : Val :=
  match a, b with
  | .fin s m e, .fin u n f => addExact s m e u n f
  | .fin s m e, _ => .fin s m e
  | .inf s, _ => .inf s
  | .nan c s p, _ => .nan c s p

/-- Adds one rounded contribution to a Fast entry; the flag is fast_overflow (R87). -/
def fastAdd (ent : FastEnt) (mode : RMode) (v : Val) (st : BitVec 4) : FastEnt × Bool :=
  let r := round32 mode v
  let over1 := r.2
  let sum := round32 .rne (vAddFin (dec32 ent.p) r.1)
  if over1 then ({ p := 0, st := ent.st ||| st ||| stInf v.sign }, true)
  else if sum.2 then ({ p := 0, st := ent.st ||| st ||| stInf sum.1.sign }, true)
  else ({ p := enc32 sum.1, st := ent.st ||| st }, false)

/-- One chunk under FAST (R87). -/
def fastChunk (ent : FastEnt) (k : ChunkSum) : FastEnt × Bool :=
  fastAdd ent .rne (ofInt k.c (k.t - 74)) k.st

/-! ## Grid accumulation (R94, R95) -/

/-- A 96-bit two's complement number (R94). -/
def wrap96 (i : Int) : Int := toSigned 96 (ofSigned 96 i)

/-- Injection of a chunk onto the grid with anchor A (R95): the grid increment, and injected_rounded. -/
def inject (c t a : Int) : Int × Bool :=
  if c = 0 then (0, false)
  else
    let sh := a - t - 5
    let q := roundMag .rne false 0 c.natAbs (-sh)
    let back : Nat := if 0 ≤ sh then q * 2 ^ sh.toNat else q / 2 ^ (-sh).toNat
    ((if c < 0 then -(q : Int) else (q : Int)), decide (back ≠ c.natAbs))

/-- The anchor of a raw entry as a number, NONE when it has none. -/
def anchorOf (a : Option Int) : Int := a.getD topNone

/-- An anchor from its number. -/
def anchorFrom (i : Int) : Option Int := if i = topNone then none else some i

/-- The anchor of an output under VECTOR bounds (R91). -/
def anchorVec (ba bb : Int) : Option Int := if ba = topNone || bb = topNone then none else some (ba + bb + 5)

/-- One chunk under GRID (R95): the entry and injected_rounded. -/
def gridChunk (ent : Grid) (k : ChunkSum) : Grid × Bool :=
  let i := inject k.c k.t (anchorOf ent.a)
  ({ ent with word := wrap96 (ent.word + i.1), st := ent.st ||| k.st }, i.2)

/-- The exact finite value of a grid entry (R96); +0 when A is NONE (R93). -/
def gridVal (g : Grid) : Val :=
  match g.a with
  | none => vZero
  | some a => ofInt g.word (a - 79)

/-- Sums of two raw Grid entries (R106): words added, bits ORed. The caller has compared the anchors (R107). -/
def gridAdd (x y : Grid) : Grid := { x with word := wrap96 (x.word + y.word), st := x.st ||| y.st }

/-- A raw Fast entry filled into an entry (R106): the entry and fast_overflow. -/
def fastFill (ent raw : FastEnt) : FastEnt × Bool :=
  match dec32 raw.p with
  | .nan _ _ _ => ({ ent with st := ent.st ||| raw.st ||| stNan }, false)
  | .inf neg => ({ ent with st := ent.st ||| raw.st ||| stInf neg }, false)
  | .fin s m e => fastAdd ent .rne (.fin s m e) raw.st

/-- Resolution of special-state bits (R98); in a KWATIL context every NaN is of code 1 (R120). -/
def resolve (kwatil : Bool) (st : BitVec 4) (v : Val) : Val :=
  let n := st.toNat
  if bit n 3 then vNan 1
  else if bit n 2 then vNan (if kwatil then 1 else 3)
  else if bit n 1 && bit n 0 then vNan (if kwatil then 1 else 2)
  else if bit n 1 then .inf false
  else if bit n 0 then .inf true
  else v

/-! ## Operand tops (R90) -/

/-- The top of an unscaled operand within one chunk: over its finite nonzero elements. -/
def topOf (vs : List Val) : Int :=
  vs.foldl (fun t v => match v with
    | .fin _ m e => if m = 0 then t else max t (vTop m e)
    | .inf _ => t
    | .nan _ _ _ => t) topNone

/-- The top of a block-scaled operand from its scale byte. -/
def topScaled (f : Fmt) (s : Nat) : Int :=
  match f with
  | .gbf8 | .gbf4 => if s = 0 || s = 0xFF then topNone else (s : Int) - 126
  | .e4m3b => if s = 0xFF then topNone else (s : Int) - 118
  | .e5m2b => if s = 0xFF then topNone else (s : Int) - 111
  | .e2m1b => if s = 0xFF then topNone else (s : Int) - 124
  | .fp32 | .fp16 | .bf16 | .e4m3 | .e5m2 | .gbi16 | .gbi24 | .fp40 | .gbs32 | .gbs40 => topNone

/-! ## Row reductions (R112, R113) -/

/-- True when a counts below b in the order of R112: −0 below +0, infinities as usual. NaNs are handled by the caller. -/
def vLt (a b : Val) : Bool :=
  match a, b with
  | .fin s m e, .fin u n f =>
    if s != u then s
    else if s then !magLe m e n f else !magLe n f m e
  | .inf s, .inf u => s && !u
  | .inf s, _ => s
  | _, .inf u => !u
  | _, _ => false

/-- The NaN of the lower code. -/
def nanLow (a b : Val) : Val :=
  match a, b with
  | .nan c _ _, .nan d _ _ => if d < c then b else a
  | .nan _ _ _, _ => a
  | _, _ => b

/-- Maximum under R112; a NaN wins, the lowest code first. -/
def vMax (a b : Val) : Val := if a.isNan || b.isNan then nanLow a b else if vLt a b then b else a

/-- Minimum under the same ordering (R140). -/
def vMin (a b : Val) : Val := if a.isNan || b.isNan then nanLow a b else if vLt b a then b else a

/-- One drain value added to a row sum with A = rsum_top (R113): the entry, bound_violation, injected_rounded. -/
def rowAdd (g : Grid) (v : Val) : Grid × Bool × Bool :=
  let a := anchorOf g.a
  match v with
  | .nan c _ _ =>
    ({ g with st := g.st ||| (if c = 2 then stPos ||| stNeg else if c = 3 then stInfZero else stNan) }, false, false)
  | .inf s => ({ g with st := g.st ||| stInf s }, false, false)
  | .fin s m e =>
    if m ≠ 0 && vTop m e > a then ({ g with st := g.st ||| stInf s }, true, false)
    else
      let q := roundMag .rne s 0 m (e - (a - 79))
      ({ g with word := wrap96 (g.word + (if s then -(q : Int) else (q : Int))) }, false,
        !(magLe q (a - 79) m e && magLe m e q (a - 79)))

/-! ## Strict IEEE (R115 to R117) -/

/-- The IEEE exception flags: invalid, overflow, underflow, inexact (R117). -/
structure IeeeFlags where
  invalid   : Bool := false
  overflow  : Bool := false
  underflow : Bool := false
  inexact   : Bool := false
  deriving DecidableEq, Repr

/-- Either set of flags. -/
def IeeeFlags.join (a b : IeeeFlags) : IeeeFlags :=
  { invalid := a.invalid || b.invalid, overflow := a.overflow || b.overflow,
    underflow := a.underflow || b.underflow, inexact := a.inexact || b.inexact }

/-- An FP32 pattern is a signalling NaN. -/
def isSnan (p : Nat) : Bool := (dec32 p).isNan && !bit p 22

/-- Rounds an exact finite value to binary32 with IEEE flags, tininess detected after rounding (R115). -/
def ieeeRound (mode : RMode) (neg : Bool) (m : Nat) (e : Int) : Nat × IeeeFlags :=
  let f := layout .fp32
  if m = 0 then (signPat f neg 0, {})
  else
    let p := roundPat f mode neg 0 m e
    let exact := match decFloat f p with
      | .fin _ pm pe => magLe pm pe m e && magLe m e pm pe
      | .inf _ => false
      | .nan _ _ _ => false
    if p > f.top then ((encFloat f mode false false 0 (.fin neg m e)).1, { overflow := true, inexact := true })
    else
      -- rounded to 24 bits with an unbounded exponent: tiny when still below 2^-126
      let w := flog2 m e - 23
      let r := roundMag mode neg 0 m (e - w)
      let tiny := !magLe 1 (-126) r w
      (signPat f neg p, { underflow := tiny && !exact, inexact := !exact })

/-- fusedMultiplyAdd on FP32 patterns under a rounding attribute (R115, R116); the IEEE flags it raises. DESIGN CHOICE (log entry 90): IEEE 754 leaves open
whether Inf times 0 with a quiet-NaN addend raises invalid, and R116 and R117 do not say: it raises none here; a signalling NaN does. -/
def ieeeFma (mode : RMode) (a b acc : Nat) : Nat × IeeeFlags :=
  let va := dec32 a; let vb := dec32 b; let vc := dec32 acc
  let quiet := fun (p : Nat) => p ||| 0x400000
  let snan := isSnan a || isSnan b || isSnan acc
  if vc.isNan then (quiet acc, { invalid := snan })
  else if va.isNan then (quiet a, { invalid := snan })
  else if vb.isNan then (quiet b, { invalid := snan })
  else match va, vb, vc with
    | .fin s m e, .fin u n f, .fin t k g =>
      let ps := s != u
      if m * n = 0 && k = 0 then
        (signPat (layout .fp32) (if ps = t then ps else decide (mode = .down)) 0, {})
      else
        match addExact ps (m * n) (e + f) t k g with
        | .fin z q h => if q = 0 then (signPat (layout .fp32) (decide (mode = .down)) 0, {}) else ieeeRound mode z q h
        | .inf z => (signPat (layout .fp32) z 0x7F800000, {})
        | .nan _ _ _ => (0x7FC00000, {})
    | .fin _ _ _, .fin _ _ _, .inf t => (signPat (layout .fp32) t 0x7F800000, {})
    | x, y, z =>
      let zeroInf := (x.isZero && y.isInf) || (x.isInf && y.isZero)
      let ps := x.sign != y.sign
      if zeroInf || (z.isInf && z.sign != ps) then (0x7FC00000, { invalid := true })
      else (signPat (layout .fp32) ps 0x7F800000, {})

/-! ## GLY-KW1 (R118 to R120) -/

/-- One group of sixteen positions (R119): the entry, fast_overflow, truncated. -/
def kwatilGroup (ent : FastEnt) (ps : List (Val × Val)) : FastEnt × Bool × Bool :=
  let qs := ps.map (fun p => product p.1 p.2)
  let st := qs.foldl (fun a q => a ||| q.1) 0
  let prods := qs.filterMap (·.2)
  let t := prods.foldl (fun a p => max a (vTop p.2.1 p.2.2)) topNone
  let cs := prods.map (fun p => let r := truncAt p.2.1 p.2.2 (t - 26); ((if p.1 then -(r.1 : Int) else (r.1 : Int)), r.2))
  let r := fastAdd ent .rtz (ofInt (cs.foldl (fun a x => a + x.1) 0) (t - 26)) st
  (r.1, r.2, cs.any (·.2))

end Sys2Proof.Machine
end

