-- ==== Sys2Proof/Machine/Fp.lean ====
section
/-! DEFINITION. Machine/Fp.lean: the FP32 operations of the vector unit and the engines, the special functions, and the
counter-based generator (R140, R141, R217). A register holds an FP32 pattern; NaNs in registers are canonical. -/
namespace Sys2Proof.Machine

/-- The FP32 pattern of a value: one rounding under RNE. -/
def reg (v : Val) : Nat := enc32 v

/-- An FP32 pattern loaded into a register: any NaN that is not canonical becomes code 1 (R140). -/
def canon32 (p : Nat) : Nat := enc32 (dec32 p)

/-- The NaN result of operands of which at least one is a NaN: the lowest code among them (R140). -/
def nanOf (vs : List Val) : Option Val :=
  vs.foldl (fun b v => match b, v with
    | none, .nan c _ _ => some (vNan c)
    | some (.nan d _ _), .nan c _ _ => some (vNan (min c d))
    | b, _ => b) none

/-- The exact sum of two non-NaN values with IEEE zero signs under RNE; Inf − Inf is code 2. -/
def sumV (a b : Val) : Val :=
  match a, b with
  | .inf s, .inf u => if s = u then .inf s else vNan 2
  | .inf s, _ => .inf s
  | _, .inf u => .inf u
  | .fin s m e, .fin u n f => if m = 0 && n = 0 then .fin (s && u) 0 0 else addExact s m e u n f
  | .nan c s p, _ => .nan c s p
  | _, .nan c s p => .nan c s p

/-- The exact product of two non-NaN values; Inf × 0 is code 3. -/
def mulV (a b : Val) : Val :=
  match a, b with
  | .fin s m e, .fin u n f => .fin (s != u) (m * n) (e + f)
  | .inf s, .fin u n _ => if n = 0 then vNan 3 else .inf (s != u)
  | .fin s m _, .inf u => if m = 0 then vNan 3 else .inf (s != u)
  | .inf s, .inf u => .inf (s != u)
  | .nan c s p, _ => .nan c s p
  | _, .nan c s p => .nan c s p

/-- ADD of R140. -/
def fAdd (a b : Nat) : Nat := reg ((nanOf [dec32 a, dec32 b]).getD (sumV (dec32 a) (dec32 b)))

/-- The sign inverted; a NaN keeps its code (R140 NEG). -/
def fNeg (a : Nat) : Nat := if (dec32 a).isNan then canon32 a else a ^^^ 0x80000000

/-- The sign cleared; a NaN keeps its code (R140 ABS). -/
def fAbs (a : Nat) : Nat := if (dec32 a).isNan then canon32 a else a % 2 ^ 31

/-- SUB of R140. -/
def fSub (a b : Nat) : Nat := fAdd a (fNeg b)

/-- MUL of R140. -/
def fMul (a b : Nat) : Nat := reg ((nanOf [dec32 a, dec32 b]).getD (mulV (dec32 a) (dec32 b)))

/-- FMA of R140: one rounding; Inf × 0 and Inf − Inf within it give codes 3 and 2. -/
def fFma (a b c : Nat) : Nat :=
  reg ((nanOf [dec32 a, dec32 b, dec32 c]).getD
    (let p := mulV (dec32 a) (dec32 b)
     if p.isNan then p else sumV p (dec32 c)))

/-- MAX of R140. -/
def fMax (a b : Nat) : Nat := reg (vMax (dec32 a) (dec32 b))

/-- MIN of R140. -/
def fMin (a b : Nat) : Nat := reg (vMin (dec32 a) (dec32 b))

/-- SEL of R140: vb when va > +0, otherwise vc. -/
def fSel (a b c : Nat) : Nat := if vLt vZero (dec32 a) && !(dec32 a).isNan then b else c

/-- RINT of R140: to an integral value, ties to even; the sign of a zero is kept. -/
def fRint (a : Nat) : Nat :=
  match dec32 a with
  | .fin s m e => signPat (layout .fp32) s (enc32 (.fin false (roundMag .rne s 0 m e) 0))
  | .inf _ => a
  | .nan c _ _ => reg (vNan c)

/-! ## Special functions (R141) -/

/-- Fraction bits of the fixed-point evaluations: far beyond what any FP32 argument needs to round correctly. -/
def fixP : Nat := 160

/-- A positive inexact value m × 2^e as an exact value just above it, so that it rounds as the real it truncates. -/
def sticky (neg : Bool) (m : Nat) (e : Int) (exact : Bool) : Val := .fin neg (2 * m + b2n (!exact)) (e - 1)

/-- The sum over k < n of x^(2k+1) / (2k+1), signs alternating when `alt`, in `p` fraction bits: atan or atanh of x. -/
def atanSeries (alt : Bool) (p : Nat) (x2 : Nat) : Nat → Nat → Nat → Int
  | 0, _, _ => 0
  | n + 1, k, term =>
    let t : Int := ((term / (2 * k + 1) : Nat) : Int)
    (if alt && k % 2 = 1 then -t else t) + atanSeries alt p x2 n (k + 1) (term * x2 / 2 ^ p)

/-- π in `p` fraction bits (Machin). -/
def fixPi (p : Nat) : Nat :=
  let q := p + 16
  let at5 := atanSeries true q (2 ^ q / 25) (p / 4 + 8) 0 (2 ^ q / 5)
  let at239 := atanSeries true q (2 ^ q / 57121) (p / 15 + 8) 0 (2 ^ q / 239)
  ((16 * at5 - 4 * at239) / 2 ^ 16).toNat

/-- The natural logarithm of f = num / den in [1, 2] in `p` fraction bits: 2 atanh((f − 1) / (f + 1)). -/
def fixLn (p num den : Nat) : Nat :=
  let q := p + 16
  let z := (num - den) * 2 ^ q / (num + den)
  ((2 * atanSeries false q (z * z / 2 ^ q) (p / 3 + 8) 0 z) / 2 ^ 16).toNat

/-- The sum over k < n of terms t^k / k!, from term `k` on, in `p` fraction bits. -/
def expSeries (p t : Nat) : Nat → Nat → Nat → Nat
  | 0, _, _ => 0
  | n + 1, k, term => term + expSeries p t n (k + 1) (term * t / (2 ^ p * (k + 1)))

/-- The alternating sum of t^(2k+i) / (2k+i)! for i = 1 (sine) or 0 (cosine), from a first term, in `p` fraction bits. -/
def trigSeries (p t2 : Nat) : Nat → Nat → Nat → Int
  | 0, _, _ => 0
  | n + 1, i, term => (term : Int) - trigSeries p t2 n (i + 2) (term * t2 / (2 ^ p * ((i + 1) * (i + 2))))

/-- The square root of m × 2^e. -/
def sqrtFin (m : Nat) (e : Int) : Val :=
  let e' := (e - 64) - (e - 64) % 2
  let x := m * 2 ^ (e - e').toNat
  let r := rootBits 2 x (bitlen x / 2 + 1) 0
  sticky false r (e' / 2) (decide (r * r = x))

/-- The reciprocal of the square root of m × 2^e. -/
def rsqrtFin (m : Nat) (e : Int) : Val :=
  let m' := if e % 2 = 0 then m else 2 * m
  let e' := e - e % 2
  let x := 2 ^ 192 / m'
  let r := rootBits 2 x (bitlen x / 2 + 1) 0
  sticky false r (-96 - e' / 2) (decide (r * r * m' = 2 ^ 192))

/-- 2^x for finite x. -/
def exp2Fin (neg : Bool) (m : Nat) (e : Int) : Val :=
  if m = 0 || vTop m e < -30 then .fin false 1 0
  else if vTop m e > 9 then (if neg then vZero else .inf false)
  else
    -- x = i + f, i integral, 0 ≤ f < 1, both exact over 2^60
    let n : Int := if 0 ≤ e + 60 then finInt neg m e (-60) else (if neg then -((m / 2 ^ (-(e + 60)).toNat : Nat) : Int) else ((m / 2 ^ (-(e + 60)).toNat : Nat) : Int))
    let i := n / 2 ^ 60
    let f := (n % 2 ^ 60).toNat
    if f = 0 then .fin false 1 i
    else
      let t := f * fixLn (fixP + 8) 2 1 / 2 ^ 68
      sticky false (expSeries fixP t 60 0 (2 ^ fixP)) (i - fixP) false

/-- log2 of m × 2^e, m nonzero. -/
def log2Fin (m : Nat) (e : Int) : Val :=
  let n := Nat.log2 m
  let ex : Int := e + n
  if m = 2 ^ n then ofInt ex 0
  else
    let l := fixLn (fixP + 8) m (2 ^ n) * 2 ^ fixP / fixLn (fixP + 8) 2 1
    let v : Int := ex * 2 ^ fixP + l
    sticky (decide (v < 0)) (if v < 0 then v.natAbs - 1 else v.natAbs) (-fixP) false

/-- sin or cos of π × d for d = num / den with |d| ≤ 1/4, as sign and value; exact at 0. -/
def trigPi (cos : Bool) (num : Int) (den : Nat) : Val :=
  if num = 0 then (if cos then .fin false 1 0 else vZero)
  else
    let p := fixP + bitlen den
    let t := num.natAbs * fixPi p / den
    let t2 := t * t / 2 ^ p
    if cos then sticky false (trigSeries p t2 40 0 (2 ^ p)).toNat (-p) false
    else sticky (decide (num < 0)) (trigSeries p t2 40 1 t).toNat (-p) false

/-- The value with its sign inverted. -/
def vNeg : Val → Val
  | .fin s m e => .fin (!s) m e
  | .inf s => .inf (!s)
  | .nan c s p => .nan c s p

/-- sin(π x) or cos(π x) of a finite magnitude m × 2^e, by exact reduction to an eighth of a turn. -/
def sinCosPi (cos : Bool) (m : Nat) (e : Int) : Val :=
  let den := 4 * 2 ^ (-(min e 0)).toNat
  let num := 4 * m * 2 ^ (max e 0).toNat % (2 * den)
  let j := (2 * num + den / 2) / den
  let d : Int := 2 * (num : Int) - (j : Int) * den
  let k := (if cos then j + 1 else j) % 4
  let v := trigPi (k % 2 = 1) d (2 * den)
  if k < 2 then v else vNeg v

/-- A primitive special function (R141): correctly rounded, special cases of IEEE 754-2019, invalid gives code 2. -/
def sfnPrim (code : Nat) (x : Nat) : Nat :=
  match dec32 x with
  | .nan c _ _ => reg (vNan c)
  | .inf s =>
    match code with
    | 0 => signPat (layout .fp32) s 0
    | 1 => if s then reg (vNan 2) else x
    | 2 => if s then reg (vNan 2) else 0
    | 3 => if s then 0 else x
    | 4 => if s then reg (vNan 2) else x
    | _ => reg (vNan 2)
  | .fin s m e =>
    match code with
    | 0 => if m = 0 then signPat (layout .fp32) s 0x7F800000
           else reg (sticky s (2 ^ 96 / m) (-96 - e) (decide (2 ^ 96 % m = 0)))
    | 1 => if m = 0 then x else if s then reg (vNan 2) else reg (sqrtFin m e)
    | 2 => if m = 0 then signPat (layout .fp32) s 0x7F800000 else if s then reg (vNan 2) else reg (rsqrtFin m e)
    | 3 => reg (exp2Fin s m e)
    | 4 => if m = 0 then 0xFF800000 else if s then reg (vNan 2) else reg (log2Fin m e)
    | 0xA =>
      let v := sinCosPi false m e
      if v.isZero then signPat (layout .fp32) s 0 else reg (if s then vNeg v else v)
    | _ =>
      let v := sinCosPi true m e
      if v.isZero then 0 else reg v

/-- A special function (R141): primitives, and composites as the exact sequence of operations shown. -/
def sfn (code x : Nat) : Nat :=
  let exp := fun y => sfnPrim 3 (fMul y 0x3FB8AA3B)
  let sigmoid := fun y => sfnPrim 0 (fAdd 0x3F800000 (exp (fNeg y)))
  match code with
  | 5 => exp x
  | 6 => fMul (sfnPrim 4 x) 0x3F317218
  | 7 => sigmoid x
  | 8 => fSub (fMul 0x40000000 (sigmoid (fMul 0x40000000 x))) 0x3F800000
  | 9 => fMul x (sigmoid x)
  | c => sfnPrim c x

/-- Lane slots of a special function (R141). -/
def sfnSlots (code : Nat) : Nat :=
  match code with
  | 5 => 5 | 6 => 5 | 7 => 11 | 8 => 14 | 9 => 12 | _ => 4

/-- The counter-based generator (R217): draw `n` of the element with global index `gidx` in a step, a u24. -/
def draw (seed : BitVec 256) (step gidx n : Nat) : Nat :=
  ofLe ((aes256 (keyBytes seed) (le 8 step ++ le 6 gidx ++ [BitVec.ofNat 8 (n % 16), 0xA5])).take 3)

/-- The draw of R217 under an expanded key, for a unit that draws many. -/
def drawWith (ks : List (List Nat)) (step gidx n : Nat) : Nat :=
  ofLe ((bytesOf (aesWith ks (nats (le 8 step ++ le 6 gidx ++ [BitVec.ofNat 8 (n % 16), 0xA5])))).take 3)

/-- The value of RAND: u × 2^−24 (R140). -/
def fRand (u : Nat) : Nat := enc32 (.fin false u (-24))

/-! ## Micro-operations (R140) -/

/-- A decoded micro-operation word. -/
structure MicroOp where
  vop : Nat
  vd  : Nat
  va  : Nat
  vb  : Nat
  vc  : Nat
  imm : Nat
  deriving DecidableEq, Repr

/-- The fields of a micro-operation word (R140). -/
def microOf (w : Nat) : MicroOp :=
  { vop := bits w 26 6, vd := bits w 22 4, va := bits w 18 4, vb := bits w 14 4, vc := bits w 10 4, imm := bits w 0 10 }

/-- The micro-operation is defined for a VEC tile (R140, R141). -/
def microLegal (o : MicroOp) : Bool :=
  decide (o.vop ≤ 0x0D) && !(o.vop = 0x09 && o.imm % 16 ≥ 0xC) && !(o.vop = 0x0D && o.imm % 16 = 0)

/-- Lane slots of a micro-operation (R140). -/
def microSlots (o : MicroOp) : Nat := if o.vop = 0x09 then sfnSlots (o.imm % 16) else 1

/-- Runs one micro-operation on sixteen registers; `const` gives the constants of CONST, `rand` the draws of the element. -/
def microStep (const : Nat → Nat) (rand : Nat → Nat) (o : MicroOp) (v : List Nat) : List Nat :=
  let a := v.getD o.va 0
  let b := v.getD o.vb 0
  let c := v.getD o.vc 0
  let put := fun x => v.set o.vd x
  match o.vop with
  | 0x01 => put (fAdd a b)
  | 0x02 => put (fSub a b)
  | 0x03 => put (fMul a b)
  | 0x04 => put (fFma a b c)
  | 0x05 => put (fMax a b)
  | 0x06 => put (fMin a b)
  | 0x07 => put (fAbs a)
  | 0x08 => put (fNeg a)
  | 0x09 => put (sfn (o.imm % 16) a)
  | 0x0A => put (canon32 (const (o.imm % 16)))
  | 0x0B => put (fSel a b c)
  | 0x0C => put (fRint a)
  | 0x0D => put (fRand (rand (o.imm % 16)))
  | _ => v

/-- Runs a program on the sixteen registers of one element. -/
def microRun (const : Nat → Nat) (rand : Nat → Nat) (prog : List MicroOp) (v : List Nat) : List Nat :=
  prog.foldl (fun r o => microStep const rand o r) v

end Sys2Proof.Machine
end

