-- ==== Sys2Proof/Machine/Flags.lean ====
section
/-! DEFINITION. Machine/Flags.lean: the tile status word, the conditions that flag a tile, and the tile record (R98 to R102, R142, R143). -/
namespace Sys2Proof.Machine

/-- Sets bit i of a tile status word when a condition holds. -/
def swSet (w : BitVec 32) (i : Nat) (c : Bool) : BitVec 32 := if c then w ||| BitVec.ofNat 32 (2 ^ i) else w

/-- Bit i of a tile status word. -/
def swBit (w : BitVec 32) (i : Nat) : Bool := bit w.toNat i

/-- bound_violation (R101). -/
def swBound (w : BitVec 32) (c : Bool) : BitVec 32 := swSet w 28 c
/-- fast_overflow (R101). -/
def swOverflow (w : BitVec 32) (c : Bool) : BitVec 32 := swSet w 27 c
/-- truncated (R101). -/
def swTrunc (w : BitVec 32) (c : Bool) : BitVec 32 := swSet w 26 c
/-- injected_rounded (R101). -/
def swRounded (w : BitVec 32) (c : Bool) : BitVec 32 := swSet w 25 c

/-- The IEEE flags as bits 23:20 (R117). -/
def swIeee (w : BitVec 32) (f : IeeeFlags) : BitVec 32 :=
  swSet (swSet (swSet (swSet w 23 f.invalid) 22 f.overflow) 21 f.underflow) 20 f.inexact

/-- Completes a status word at drain: special, nan_out, inf_out and the first non-finite index over the outputs in row-major order
(R100, R101). -/
def swDrain (w : BitVec 32) (vs : List Val) : BitVec 32 :=
  let w := swSet (swSet (swSet w 31 (vs.any (fun v => !v.isFin))) 30 (vs.any Val.isNan)) 29 (vs.any Val.isInf)
  if vs.any (fun v => !v.isFin) then w ||| BitVec.ofNat 32 (vs.findIdx (fun v => !v.isFin) % 65536) else w

/-- The sticky bits that a spill with close reports: 28:25 and 23:20 (R136). -/
def swSticky (w : BitVec 32) : BitVec 32 := w &&& 0x1EF00000

/-- special, bound_violation or fast_overflow: the tile completes OK_FLAGGED (R102). -/
def swFlags (w : BitVec 32) : Bool := swBit w 31 || swBit w 28 || swBit w 27

/-- The quantiser counts that flag a tile (R143). -/
def qFlags (q : QCounts) : Bool := decide (q.crushBlk ≠ 0) || decide (q.clampBlk ≠ 0) || decide (q.specialBlk ≠ 0)

/-- OK or OK_FLAGGED. -/
def okFlag (c : Bool) : Nat := if c then 0x01 else 0x00

/-- A counter field of n bytes, holding its largest value (R142). -/
def satLe (n v : Nat) : Bytes := le n (min v (2 ^ (8 * n) - 1))

/-- The 32 bytes of a tile record (R142). -/
def recordBytes (status op tag : Nat) (w0 w1 : BitVec 32) (q : QCounts) (busy stall : Nat) (late : Bool) : Bytes :=
  le 2 tag ++ le 1 op ++ le 1 status ++ le 4 w0.toNat ++ le 4 w1.toNat ++ satLe 4 q.crushed ++ satLe 2 q.crushBlk ++ satLe 2 q.zeroBlk
    ++ satLe 2 q.clampBlk ++ satLe 2 q.specialBlk ++ satLe 4 busy ++ satLe 2 stall ++ le 1 (b2n late) ++ zeros 1

end Sys2Proof.Machine
end

