-- ==== Sys2Proof/Machine/Ops.lean ====
section
/-! DEFINITION. Machine/Ops.lean: the named operations every command is made of: access to the numbered parts of the state,
the address map and its protection, memory, semaphores, time, free values, Firefly records and error records. -/
namespace Sys2Proof.Machine

/-! ## Numbered parts of the state -/

/-- Context x. -/
def State.ctx (s : State) (x : Nat) : Ctx := s.ctxs.get {} x
/-- Applies `f` to context x. -/
def State.modCtx (s : State) (x : Nat) (f : Ctx → Ctx) : State := { s with ctxs := s.ctxs.set x (f (s.ctx x)) }
/-- Queue q. -/
def State.queue (s : State) (q : Nat) : Queue := s.queues.get {} q
/-- Applies `f` to queue q. -/
def State.modQueue (s : State) (q : Nat) (f : Queue → Queue) : State := { s with queues := s.queues.set q (f (s.queue q)) }
/-- The cell with flat index c. -/
def State.cell (s : State) (c : Nat) : Cell := s.cells.get {} c
/-- Applies `f` to cell c. -/
def State.modCell (s : State) (c : Nat) (f : Cell → Cell) : State := { s with cells := s.cells.set c (f (s.cell c)) }
/-- The holder with die index h. -/
def State.holder (s : State) (h : Nat) : Holder := s.holders.get {} h
/-- Applies `f` to holder h. -/
def State.modHolder (s : State) (h : Nat) (f : Holder → Holder) : State := { s with holders := s.holders.set h (f (s.holder h)) }
/-- The link die with die index d. -/
def State.link (s : State) (d : Nat) : LinkDie := s.links.get {} d
/-- Applies `f` to link die d. -/
def State.modLink (s : State) (d : Nat) (f : LinkDie → LinkDie) : State := { s with links := s.links.set d (f (s.link d)) }
/-- The sub-port whose first lane is l. -/
def State.port (s : State) (l : Nat) : SubPort := s.ports.get {} l
/-- Applies `f` to sub-port l. -/
def State.modPort (s : State) (l : Nat) (f : SubPort → SubPort) : State := { s with ports := s.ports.set l (f (s.port l)) }
/-- Peer device d. -/
def State.peer (s : State) (d : Nat) : Peer := s.peers.get {} d
/-- Applies `f` to peer d. -/
def State.modPeer (s : State) (d : Nat) (f : Peer → Peer) : State := { s with peers := s.peers.set d (f (s.peer d)) }
/-- Sequence tag t. -/
def State.seq (s : State) (t : Nat) : Seq := s.seqs.get {} t
/-- Applies `f` to sequence tag t. -/
def State.modSeq (s : State) (t : Nat) (f : Seq → Seq) : State := { s with seqs := s.seqs.set t (f (s.seq t)) }
/-- Die d. -/
def State.die (s : State) (d : Nat) : Die := s.dies.get {} d
/-- Applies `f` to die d. -/
def State.modDie (s : State) (d : Nat) (f : Die → Die) : State := { s with dies := s.dies.set d (f (s.die d)) }
/-- Applies `f` to the hub. -/
def State.modHub (s : State) (f : Hub → Hub) : State := { s with hub := f s.hub }
/-- Mailbox channel c. -/
def State.mbox (s : State) (c : Nat) : Mbox := s.hub.mboxes.get {} c
/-- Applies `f` to mailbox channel c. -/
def State.modMbox (s : State) (c : Nat) (f : Mbox → Mbox) : State :=
  s.modHub (fun h => { h with mboxes := h.mboxes.set c (f (s.mbox c)) })
/-- Applies `f` to the step line of context x. -/
def State.modSl (s : State) (x : Nat) (f : StepLine → StepLine) : State := s.modCtx x (fun c => { c with sl := f c.sl })
/-- The step line of context x. -/
def State.sl (s : State) (x : Nat) : StepLine := (s.ctx x).sl
/-- Sends one message to the outside. -/
def State.emit (s : State) (m : OutMsg) : State := { s with sent := s.sent ++ [m] }

/-! ## What survives the loss of the rails, and the frame of every command -/

/-- The start fuses and the start records of the boot flash (R491, R496): what a start reads of the ones before it. -/
def Boot.kept (b : Boot) : Boot :=
  { fuses := b.fuses, base := b.base, armed := b.armed, trialMark := b.trialMark, starts := b.starts, history := b.history,
    incarn := b.incarn, poolC := b.poolC, poolO := b.poolO, hState := b.hState, hRec := b.hRec, caraSeen := b.caraSeen,
    amends := b.amends, crashIdx := b.crashIdx, keyCache := b.keyCache }

/-- The fuses and the CAK store of the boot flash (R473, R489). -/
def Sec.kept (x : Sec) : Sec :=
  { lifecycle := x.lifecycle, rootRev := x.rootRev, owners := x.owners, ownerRev := x.ownerRev, svn := x.svn,
    ownerNew := x.ownerNew, caks := x.caks, drbg := x.drbg }

/-- What the AUX domain holds, and the power state itself (R526). -/
def Power.kept (p : Power) : Power := { st := p.st, pwrEn := p.pwrEn, faultN := p.faultN, lastShut := p.lastShut }

/-- The module without its volatile state: fuses, boot flash, AUX latches, and the model's own bookkeeping remain (R429 power domain). -/
def State.dark (s : State) : State :=
  { pending := s.pending, clk := s.clk, freeCtr := s.freeCtr, flash := s.flash, boot := s.boot.kept, sec := s.sec.kept,
    pwr := s.pwr.kept, sent := s.sent }

/-- The power states in which the rails are off or every die is held in reset (R526, R493). -/
def PwrSt.isDark : PwrSt → Bool
  | .off => true
  | .halted => true
  | .shutdown => true
  | .starting => false
  | .on => false
  | .pupa => false

/-- A module whose dies have no power, or are held in reset, holds nothing volatile (R429, R526). -/
def State.settle (s : State) : State := if s.pwr.st.isDark then s.dark else s

/-- The frame of a command that may come in any power state: pins and the input supply. -/
def always (f : State → State) (s : State) : Host.Outcome State Fault Refusal := .next (f s).settle

/-- The frame of a command that needs the rails and dies out of reset: with none, nothing answers and nothing changes. -/
def powered (f : State → State) (s : State) : Host.Outcome State Fault Refusal :=
  .next (if s.pwr.st.isDark then s else f s).settle

/-- The frame of a command of a device in service: in any other power state nothing answers and nothing changes (R526, R492). -/
def serving (f : State → State) (s : State) : Host.Outcome State Fault Refusal :=
  .next (if s.pwr.st = .on then f s else s).settle

/-! ## Time (R28, R280) -/

/-- Arithmetic clocks in a microsecond, a millisecond and a second. -/
def clkUs : Nat := 600
/-- Clocks in a millisecond. -/
def clkMs : Nat := 600000
/-- Clocks in a second. -/
def clkS : Nat := 600000000

/-- Clocks as microseconds. -/
def usOf (c : Nat) : Nat := c / clkUs

/-- The link die whose clock the device follows: that of the active PTP sub-port, else L0 (R281). -/
def clockDie (s : State) : Nat := if (s.link 17).ptpLane ≠ 0x7F then 17 else 16

/-- Fabric time in units of 1/16 ns, the resolution of the timestamps (R280): since the PTP epoch once PTP has locked, before that since BOOT_FUSE
began (R407). The clock holds 48 bits of seconds. -/
def fabricStamp (s : State) : Nat :=
  let free := (s.clk - s.boot.fuseClk) * 80 / 3
  let l := s.link (clockDie s)
  (if l.locked then ((free : Int) + l.timeOff).toNat else free) % (2 ^ 48 * 1000000000 * 16)

/-- Fabric time in ns: 48 bits of seconds and 30 bits of nanoseconds (R280). -/
def fabricNs (s : State) : Nat := fabricStamp s / 16

/-- Fabric time is uncertain: before the first lock, or after long holdover (R281, R407). -/
def timeUncertain (s : State) : Bool :=
  let l := s.link (clockDie s)
  !l.locked || l.uncertain

/-! ## Free values -/

/-- Takes the next unstated 32-bit value. -/
def takeWord (s : State) : Nat × State := ((Config.freeWord s.freeCtr).toNat, { s with freeCtr := s.freeCtr + 1 })

/-- Takes `n` undefined bytes. -/
def takeBytes (n : Nat) (s : State) : Bytes × State :=
  ((List.range n).map (fun i => Config.freeByte (s.freeCtr + i)), { s with freeCtr := s.freeCtr + n })

/-- Takes one unstated choice. -/
def takeBool (s : State) : Bool × State := (Config.freeBool s.freeCtr, { s with freeCtr := s.freeCtr + 1 })

/-- Takes the next output of the root of trust's generator (R471). -/
def takeDraw (s : State) : BitVec 256 × State :=
  (Config.drbg s.sec.drbg, { s with sec := { s.sec with drbg := s.sec.drbg + 1 } })

/-! ## Status codes (R535, R536) -/

/-- OK. -/
def stOk : Nat := 0x00
/-- OK_FLAGGED. -/
def stFlagged : Nat := 0x01
/-- STATE_CONFLICT. -/
def stConflict : Nat := 0x10
/-- BAD_DESCRIPTOR. -/
def stBad : Nat := 0x11
/-- PERMISSION. -/
def stPerm : Nat := 0x13
/-- TIMEOUT. -/
def stTimeout : Nat := 0x20
/-- PEER_LOST. -/
def stPeerLost : Nat := 0x21
/-- PREEMPTED. -/
def stPreempted : Nat := 0x22
/-- DIGEST_MISMATCH. -/
def stDigest : Nat := 0x30
/-- SHARD_MISSING. -/
def stShard : Nat := 0x31
/-- MEM_UNCORRECTABLE. -/
def stMem : Nat := 0x40
/-- SDC_SUSPECT. -/
def stSdc : Nat := 0x41
/-- DOMAIN_OFF. -/
def stOff : Nat := 0x50
/-- INTERNAL. -/
def stInternal : Nat := 0x7F

/-- The order of R536 among failures due in the same clock, first first. -/
def statusOrder : List Nat :=
  [stInternal, stMem, stSdc, stDigest, stShard, stPeerLost, stTimeout, stPreempted, stOff, stPerm, stBad, stConflict]

/-- The status of two that became due together (R536); anything else keeps the first. -/
def worse (a b : Nat) : Nat := if statusOrder.idxOf b < statusOrder.idxOf a then b else if a = 0 then b else a

/-! ## Dies, cells and the address map (R6, R14, R17, R187 to R189) -/

/-- The die is fenced: by the die plate or as isolated (R26, R514), or it does not exist. -/
def fenced (s : State) (d : Nat) : Bool := bit s.plate.dieFence.toNat d || (s.die d).fenced || (s.die d).isolated || d ≥ 20

/-- The cell is present: neither fenced itself nor on a fenced die (R514). -/
def cellPresent (s : State) (c : Nat) : Bool := decide (c < 256) && !bit s.plate.cellFence.toNat c && !fenced s (c / 32)

/-- The present memory dies, by stack number. -/
def presentStacks (s : State) : List Nat := (List.range 8).filter (fun n => !fenced s (8 + n))

/-- Bytes of one HBM3E stack. -/
def stackSize : Nat := 0xC00000000
/-- First byte of the LPDDR5X tier. -/
def tierBase : Nat := 0x020000000000
/-- First byte of the cell windows. -/
def winBase : Nat := 0x080000000000
/-- First byte of the CSR space. -/
def csrBase : Nat := 0x0F0000000000

/-- What lies at an address (R14, R187, R188, R122). -/
inductive Area where
  | context (h : Nat)              -- context memory of holder h
  | firmware (h : Nat)             -- save area or firmware tables
  | carve (h : Nat)                -- metadata carve-out
  | window (c off : Nat)           -- cell window
  | csr
  | nowhere
  deriving DecidableEq, Repr

/-- The stack that receives the compute-die tables of a fenced stack: the next present one, modulo 8 (R189). -/
def relocTo (s : State) (n : Nat) : Option Nat :=
  ((List.range 7).map (fun i => (n + 1 + i) % 8)).find? (fun k => !fenced s (8 + k))

/-- How many relocated sets of tables stack k holds (R189). -/
def relocCount (s : State) (k : Nat) : Nat :=
  ((List.range 8).filter (fun n => fenced s (8 + n) && !fenced s n && relocTo s n = some k)).length

/-- The area that holds an address. -/
def areaOf (s : State) (a : Nat) : Area :=
  if a < 8 * stackSize then
    let n := a / stackSize
    let o := a % stackSize
    if o < 0xB30000000 - relocCount s n * 0xD000000 then .context (8 + n)
    else if o < 0xB40000000 then .firmware (8 + n)
    else .carve (8 + n)
  else if tierBase ≤ a ∧ a < 0x03E000000000 then .context 19
  else if 0x03E000000000 ≤ a ∧ a < 0x040000000000 then .carve 19
  else if winBase ≤ a ∧ a < 0x080100000000 then .window ((a - winBase) / 0x1000000) ((a - winBase) % 0x1000000)
  else if csrBase ≤ a ∧ a < 0x100000000000 then .csr
  else .nowhere

/-- The window address of a cell. -/
def cellWin (c : Nat) : Nat := winBase + c * 0x1000000

/-- Size of a scratchpad. -/
def spSize : Nat := 0x400000

/-- The address of a scratchpad byte of cell c. -/
def spAddr (c a : Nat) : Nat := cellWin c + a

/-! ## Region protection (R190, R191, R547) -/

/-- Entry grants an access of n bytes at a. -/
def Region.grants (r : Region) (a n : Nat) (write read eng remote : Bool) : Bool :=
  r.valid && decide (r.base ≤ a) && decide (a + n ≤ r.base + r.size * 0x200000) &&
    (!write || r.w) && (!read || r.r) && (!eng || r.eng) && (!remote || r.remote)

/-- Some region of the context grants the access. -/
def Ctx.grants (c : Ctx) (a n : Nat) (write read eng remote : Bool) : Bool :=
  c.regions.any (fun e => e.2.grants a n write read eng remote)

/-- The region indices of a context that hold any byte of an interval. -/
def Ctx.regionsAt (c : Ctx) (a n : Nat) : List Nat :=
  (c.regions.filter (fun e => e.2.valid && decide (a < e.2.base + e.2.size * 0x200000) && decide (e.2.base < a + n))).map (·.1)

/-- A unit acting for context x may access n bytes at a (R15, R190, R543, R547). -/
def mayAccess (s : State) (x a n : Nat) (write read : Bool) : Bool :=
  n = 0 ||
  match areaOf s a, areaOf s (a + n - 1) with
  | .context h, .context k => h = k && !fenced s h && (s.ctx x).grants a n write read false false
  | .window c off, .window d _ => c = d && off + n ≤ spSize && cellPresent s c && (s.cell c).ctx = x
  | _, _ => false

/-! ## Memory: pairs, poison and uncorrectable words (R147, R199, R201) -/

/-- The pairs that an interval touches. -/
def pairsOf (a n : Nat) : List Nat := if n = 0 then [] else (List.range ((a + n - 1) / 128 - a / 128 + 1)).map (· + a / 128)

/-- The uncorrectable words of cell c that an interval of its window touches. -/
def badIn (s : State) (c off n : Nat) : List (Nat × Nat) :=
  (s.cell c).bad.filter (fun w => w.1 = 0 && decide (off < w.2 + 8) && decide (w.2 < off + n))

/-- Reads bytes with no check: the firmware's and the units' view once an access is allowed. -/
def peek (s : State) (a n : Nat) : Bytes := memRead memFill s.mem a n

/-- Writes bytes with no check. -/
def poke (s : State) (a : Nat) (bs : Bytes) : State := { s with mem := memWrite memFill s.mem a bs }

/-- Some byte of the interval lies in a poisoned pair or an uncorrectable word. -/
def unreadable (s : State) (a n : Nat) : Bool :=
  match areaOf s a with
  | .window c off => !(badIn s c off n).isEmpty
  | _ => (pairsOf a n).any (fun p => s.poison.contains p)

/-- Reads n bytes; none where the read meets MEM_UNCORRECTABLE (R200, R201, R147). -/
def readMem (s : State) (a n : Nat) : Option Bytes := if unreadable s a n then none else some (peek s a n)

/-- The poisoned pairs that a write covers only in part. -/
def partPoison (s : State) (a n : Nat) : List Nat :=
  (pairsOf a n).filter (fun p => s.poison.contains p && !(decide (a ≤ 128 * p) && decide (128 * p + 128 ≤ a + n)))

/-- Writes bytes pair by pair (R199): a whole pair clears its poison; a part of a poisoned pair is not written and makes the
write MEM_UNCORRECTABLE (R201). In a window, words written whole become correct again (R147). The flag says that every byte was written. -/
def writeMem (s : State) (a : Nat) (bs : Bytes) : State × Bool :=
  let n := bs.length
  match areaOf s a with
  | .window c off =>
    ((poke s a bs).modCell c (fun k => { k with bad := k.bad.filter (fun w => !(w.1 = 0 && decide (off ≤ w.2) && decide (w.2 + 8 ≤ off + n))) }), true)
  | _ =>
    let bad := partPoison s a n
    if bad.isEmpty then
      ({ poke s a bs with poison := s.poison.filter (fun p => !(decide (a ≤ 128 * p) && decide (128 * p + 128 ≤ a + n))) }, true)
    else
      (((pairsOf a n).filter (fun p => !bad.contains p)).foldl (fun t p =>
        let lo := max a (128 * p)
        let hi := min (a + n) (128 * p + 128)
        { poke t lo ((bs.drop (lo - a)).take (hi - lo)) with
          poison := t.poison.filter (fun k => !(k = p && decide (lo = 128 * p) && decide (hi = 128 * p + 128))) }) s, false)

/-- Writes the device makes into the memory of a context: records, completions, results (R545). The status is 0 when it stands. -/
def writeFor (s : State) (x a : Nat) (bs : Bytes) : State × Nat :=
  if !mayAccess s x a bs.length true false then (s, stPerm)
  else
    let r := writeMem s a bs
    (r.1, if r.2 then stOk else stMem)

/-- A read that met a poisoned pair names it in the holder's address register: kind 3, poisoned pair read (R232). -/
def notePoison (s : State) (a n : Nat) : State :=
  match (pairsOf a n).find? (fun p => s.poison.contains p) with
  | none => s
  | some p =>
    match areaOf s (128 * p) with
    | .context h => s.modHolder h (fun k => { k with errAddr := BitVec.ofNat 48 (128 * p), errKind := 3 })
    | .firmware h => s.modHolder h (fun k => { k with errAddr := BitVec.ofNat 48 (128 * p), errKind := 3 })
    | .carve h => s.modHolder h (fun k => { k with errAddr := BitVec.ofNat 48 (128 * p), errKind := 3 })
    | _ => s

/-- A read that has ended with a status: one that met a poisoned pair is named by the holder (R232). -/
def noteRead (st a n : Nat) (s : State) : State := if st = stMem then notePoison s a n else s

/-- Reads for a unit acting for a context: bytes, or the status that ends the work. -/
def readFor (s : State) (x a n : Nat) : Except Nat Bytes :=
  if !mayAccess s x a n false true then .error stPerm
  else match readMem s a n with
    | none => .error stMem
    | some b => .ok b

/-! ## Firefly (R406 to R408, R411) -/

/-- Builds a record at this moment; `lost` says that records of its partition were dropped just before. -/
def ffRecord (s : State) (lost : Bool) (code sev die unit : Nat) (x : Option Nat) (payload : Bytes) : FfRec :=
  let sl := match x with | some i => s.sl i | none => {}
  { seq := s.hub.ffSeq, time := fabricNs s, code := code, sev := sev, die := die,
    flags := b2n (timeUncertain s) + 2 * b2n x.isSome + 4 * b2n lost, unit := unit, ctx := x.getD 0,
    phase := if x.isSome then (match sl.phase with | .fwd => 1 | .bwd => 2 | .reduce => 3 | .commit => 4 | .update => 5 | .ledger => 6 | .idle => 7) else 0,
    epoch := if x.isSome then sl.epoch else 0, step := if x.isSome then sl.step else 0,
    payload := payload ++ zeros (28 - payload.length) }

/-- The TRACE compartment cannot write (R391): records are dropped and counted. -/
def traceDown (s : State) : Bool :=
  match s.hub.comps[4]? with
  | some c => c.st = 2 || c.st = 3
  | none => false

/-- An event of severity INFO to FATAL (R408): written when its severity is at least min_sev, ERROR and FATAL always. -/
def ffEvent (code sev die unit : Nat) (x : Option Nat) (payload : Bytes) (s : State) : State :=
  if decide (sev < s.hub.minSev.toNat) && decide (sev < 4) then s
  else if traceDown s then s.modHub (fun h => { h with ffDropped := bump h.ffDropped 1, lostBefore := true })
  else
    let r := ffRecord s s.hub.lostBefore code sev die unit x payload
    s.modHub (fun h => { h with
      evRing := h.evRing.set h.evNext (some r), evNext := (h.evNext + 1) % 12288, ffSeq := h.ffSeq + 1, lostBefore := false,
      ffOver := if (h.evRing.get none h.evNext).isSome then bump h.ffOver 1 else h.ffOver })

/-- A trace point (R408): written when its enable bit is set. -/
def ffTrace (code die unit : Nat) (x : Option Nat) (payload : Bytes) (s : State) : State :=
  if !bit s.hub.traceEn.toNat code then s
  else if traceDown s then s.modHub (fun h => { h with ffDropped := bump h.ffDropped 1, lostTrace := true })
  else
    let r := ffRecord s s.hub.lostTrace code 0 die unit x payload
    s.modHub (fun h => { h with
      trRing := h.trRing.set h.trNext (some r), trNext := (h.trNext + 1) % 4096, ffSeq := h.ffSeq + 1, lostTrace := false,
      ffOver := if (h.trRing.get none h.trNext).isSome then bump h.ffOver 1 else h.ffOver })

/-! ## Power caps, temperatures (R419, R528, R530) -/

/-- The caps now active, as the code of R530. -/
def pcapNow (s : State) : Nat :=
  b2n (decide (s.pwr.capW.toNat < 3200)) + 2 * b2n ((List.range 20).any (fun d => (s.die d).capped)) + 4 * b2n s.pwr.inCap
    + 8 * b2n s.pwr.repCap + 16 * b2n s.pwr.coolCap

/-- The hottest sensor of a die in 1/16 °C; 0x8000 for a fenced die (R418). -/
def hottest (s : State) (d : Nat) : Int :=
  if fenced s d then -32768
  else ((s.die d).sensors.filter (·.valid)).foldl (fun t x => max t x.temp) (-32768)

/-- Bit d set when a sensor of die d is stale (R255, R418). -/
def staleMask (s : State) : Nat := ofBits ((List.range 20).filter (fun d => (s.die d).sensors.any (·.stale)))

/-! ## Health (R448 to R452) -/

/-- The health score (R448). -/
def score (h : Hub) : Nat := 1000 - (h.poolC + h.poolO) / 16

/-- The confidence class (R450). -/
def confidence (h : Hub) : Nat :=
  if h.samples < 10 ^ 8 then 0 else if h.samples < 10 ^ 10 then 1 else if h.samples < 10 ^ 12 then 2 else 3

/-- The recommended state after a change of score, confidence or self-test (R451). -/
def recommend (h : Hub) : Health :=
  match h.recState with
  | .service => if score h < 300 then .quarantine else if score h < 600 then .probation else .service
  | .probation => if score h < 300 then .quarantine
      else if 800 ≤ score h && 2 ≤ confidence h then .service else .probation
  | .quarantine => if 600 ≤ score h && h.stPass then .probation else .quarantine
  | .pupa => .pupa

/-- Health state code (R542). -/
def healthCode : Health → Nat
  | .service => 0
  | .probation => 1
  | .quarantine => 2
  | .pupa => 3

/-! ## Error records (R415 to R420) -/

/-- Kind and penalty of an error class (R416). -/
def errClass (cls : Nat) : Nat × Nat :=
  match cls with
  | 0x01 => (0, 1) | 0x02 => (2, 20) | 0x03 => (0, 1) | 0x04 => (2, 20) | 0x05 => (3, 100) | 0x06 => (3, 200)
  | 0x07 => (1, 5) | 0x08 => (1, 10) | 0x09 => (1, 2) | 0x0A => (1, 0) | 0x0B => (1, 150) | 0x0C => (2, 0)
  | 0x0D => (1, 10) | 0x0E => (1, 5) | 0x0F => (3, 300) | 0x10 => (1, 0) | 0x11 => (2, 250) | 0x12 => (3, 50)
  | 0x13 => (1, 0) | _ => (1, 20)

/-- Firefly severity of a kind (R415). -/
def kindSev (k : Nat) : Nat := k + 2

/-- Adds a record's penalty to its pool (R448) and re-derives the recommendation (R451). -/
def addPenalty (kind penalty : Nat) (h : Hub) : Hub :=
  let h := if kind = 0 then { h with poolC := min 1600 (h.poolC + 16 * penalty) } else { h with poolO := min 16000 (h.poolO + 16 * penalty) }
  { h with recState := recommend h }

/-- Events of the 1 ms before now, as a u16 (R419). -/
def recent (s : State) (at_ : List Nat) : Nat := min 0xFFFF (at_.filter (fun c => decide (s.clk - c < clkMs))).length

/-- Writes an error record with a stated penalty, or merges a CORRECTED one into a record of the same class, die and unit
written less than 1 s earlier (R417). The load figures of R419 that no state holds are free values (log entry 5). -/
def logErrorP (penalty cls die unit : Nat) (x : Option Nat) (status : Nat) (detail : Bytes) (s : State) : State :=
  let kind := (errClass cls).1
  let same := fun (r : ErrRec) => kind = 0 && r.cls = cls && r.die = die && r.unit = unit && decide (s.clk - r.clk < clkS)
  if s.hub.errLog.any same then
    s.modHub (fun h => { h with errLog := h.errLog.map (fun r => if same r then { r with rep := r.rep + 1 } else r) })
  else
    let w := takeWord s
    let s := w.2
    let sl := match x with | some i => s.sl i | none => {}
    let stale := staleMask s
    let r : ErrRec := {
      index := s.hub.errNext.toNat, cls := cls, kind := kind, die := die, ctx := x, unit := unit, status := status,
      flags := b2n x.isSome + 2 * b2n (timeUncertain s) + 4 * b2n (decide (stale ≠ 0)) + 8 * b2n s.hub.replay.isSome
        + 16 * b2n (decide (s.hub.health = .probation)),
      time := fabricNs s, clk := s.clk, epoch := sl.epoch, step := sl.step,
      phase := if x.isSome then (match sl.phase with | .fwd => 1 | .bwd => 2 | .reduce => 3 | .commit => 4 | .update => 5 | .ledger => 6 | .idle => 7) else 0,
      pcap := pcapNow s, health := score s.hub, temp := (List.range 20).map (hottest s), stale := stale,
      load := le 4 w.1 ++ le 2 (recent s s.pwr.gateAt) ++ le 2 (recent s s.pwr.droopAt),
      detail := detail ++ zeros (36 - detail.length) }
    let s := s.modHub (fun h => addPenalty kind penalty
      { h with errLog := (r :: h.errLog).take 8192, errNext := h.errNext + 1, lastClass := BitVec.ofNat 8 cls })
    ffEvent 0x0170 (kindSev kind) die die x (le 4 r.index) s

/-- Writes an error record with its class's penalty. -/
def logError (cls die unit : Nat) (x : Option Nat) (status : Nat) (detail : Bytes) (s : State) : State :=
  logErrorP (errClass cls).2 cls die unit x status detail s

/-- An INTERNAL record (R416 class 0x14). -/
def logInternal (die : Nat) (x : Option Nat) (status : Nat) (s : State) : State :=
  logError 0x14 die 0 x status [BitVec.ofNat 8 die, BitVec.ofNat 8 status] s

/-- The write of a record or completion that failed also writes an INTERNAL record with the write's status (R545). -/
def logFailed (die : Nat) (x : Option Nat) (status : Nat) (s : State) : State :=
  if status = stOk then s else logInternal die x status s

/-- The 128 bytes of an error record (R418). -/
def errBytes (r : ErrRec) : Bytes :=
  le 4 r.index ++ [BitVec.ofNat 8 r.cls, BitVec.ofNat 8 r.kind, BitVec.ofNat 8 r.die, BitVec.ofNat 8 (r.ctx.getD 0 + 64 * b2n r.ctx.isSome)]
    ++ le 2 r.unit ++ [BitVec.ofNat 8 r.status, BitVec.ofNat 8 r.flags] ++ le 4 r.rep ++ le 8 r.time ++ le 4 r.epoch ++ le 8 r.step
    ++ [BitVec.ofNat 8 r.phase, BitVec.ofNat 8 r.pcap] ++ le 2 r.health ++ (r.temp.map (fun t => le 2 (ofSigned 16 t))).flatten
    ++ le 4 r.stale ++ r.load ++ r.detail

/-- The 64 bytes of a Firefly record (R407). -/
def ffBytes (r : FfRec) : Bytes :=
  le 8 r.seq ++ le 8 r.time ++ le 2 r.code ++ [BitVec.ofNat 8 (r.sev * 32 + r.die), BitVec.ofNat 8 r.flags] ++ le 2 r.unit
    ++ [BitVec.ofNat 8 r.ctx, BitVec.ofNat 8 r.phase] ++ le 4 r.epoch ++ le 8 r.step ++ r.payload

/-! ## Semaphores (R370) -/

/-- An addition: saturates, sets sem_overflow and writes an event when it would pass 0xFFFF_FFFF. Index 0xFFF is none. -/
def semAdd (x i n : Nat) (s : State) : State :=
  if i ≥ 0xFFF then s
  else
    let v := (s.ctx x).sems.get 0 i + n
    if v < 2 ^ 32 then s.modCtx x (fun c => { c with sems := c.sems.set i v })
    else ffEvent 0x0102 3 18 i (some x) [] (s.modCtx x (fun c => { c with sems := c.sems.set i 0xFFFFFFFF, semOvf := true }))

/-- A signal adds 1. -/
def semSignal (x i : Nat) (s : State) : State := semAdd x i 1 s

/-- A unit of the semaphore is there: index 0xFFF waits for nothing. -/
def semReady (x i : Nat) (s : State) : Bool := decide (i ≥ 0xFFF) || decide ((s.ctx x).sems.get 0 i ≠ 0)

/-- Consumes one unit. -/
def semTake (x i : Nat) (s : State) : State :=
  if i ≥ 0xFFF then s else s.modCtx x (fun c => { c with sems := c.sems.set i (c.sems.get 0 i - 1) })

/-! ## Sessions and answers over MGMT (R485) -/

/-- Session n is established, and its authority. -/
def sessAuth (s : State) (n : Nat) : Authority :=
  match s.sec.sessions.find? (fun e => e.id = n && e.ready) with
  | some e => e.auth
  | none => .none

/-- The authority that session n gives to a request over MGMT: a session of another path gives it none (R485). -/
def mgmtAuth (s : State) (n : Nat) : Authority :=
  match s.sec.sessions.find? (fun e => e.id = n && e.ready && e.path = .mgmt) with
  | some e => e.auth
  | none => .none

/-- Session n is one over MGMT with operator authority. -/
def isOperator (s : State) (n : Nat) : Bool := mgmtAuth s n = .operator

/-- Answers a request over MGMT with a status; the code is the number of the rule that describes the request (log entry 30). -/
def answer (code st : Nat) (data : Bytes) (s : State) : State := s.emit (.mgmt code st data)

/-- A grant of a logged kind (R488): the bit of debug_state is set, and measurement 6 takes one event more (R482). The 16 bytes of the
event are unstated (log entry 5). -/
def logDebug (b : Nat) (s : State) : State :=
  let e := takeBytes 16 s
  let s := e.2
  { s with sec := { s.sec with debugSt := s.sec.debugSt ||| BitVec.ofNat 4 (2 ^ b), debugLog := s.sec.debugLog ++ [e.1] } }

/-! ## The schedule plate and the job (R397, R398, R454) -/

/-- The member index of a device in a job's carapace. -/
def memberOf (j : Job) (dev : Nat) : Option Nat := if j.members.contains dev then some (j.members.idxOf dev) else none

/-- An entry fires at a step (R398). -/
def fires (e : Sched) (step : Nat) : Bool :=
  decide (step ≥ e.first) && ((e.period = 0 && step = e.first) || (decide (e.period ≥ 1) && (step - e.first) % e.period = 0))

/-- The job's active parity entry: one needs at least three members to be active (R397, R454). -/
def parityEntry (j : Job) : Option Sched :=
  if j.members.length < 3 then none else j.sched.find? (fun e => e.kind = 1)

/-- Phase codes (R234). -/
def phaseCode : Phase → Nat
  | .fwd => 1
  | .bwd => 2
  | .reduce => 3
  | .commit => 4
  | .update => 5
  | .ledger => 6
  | .idle => 7

end Sys2Proof.Machine
end

