-- ==== Sys2Proof/Machine/Operands.lean ====
section
/-! DEFINITION. Machine/Operands.lean: every operand form of the tiles: descriptor words, operand and memory references, planes,
footprints, elements read from planes and quantised blocks written to them (R129, R130, R161 to R168, R304). -/
namespace Sys2Proof.Machine

/-! ## Descriptor words -/

/-- Word i of a descriptor. -/
def w32 (d : Bytes) (i : Nat) : Nat := leAt d (4 * i) 4

/-- Bits lo to lo + n − 1 of word i. -/
def fld (d : Bytes) (i lo n : Nat) : Nat := bits (w32 d i) lo n

/-- Words i to j are zero. -/
def wordsZero (d : Bytes) (i j : Nat) : Bool := (List.range (j + 1 - i)).all (fun k => w32 d (i + k) = 0)

/-- op of the header (R129). -/
def tOp (d : Bytes) : Nat := fld d 0 24 8
/-- tile_tag. -/
def tTag (d : Bytes) : Nat := fld d 0 0 16
/-- wait_sem. -/
def tWait (d : Bytes) : Nat := fld d 1 20 12
/-- signal_sem. -/
def tSignal (d : Bytes) : Nat := fld d 1 8 12
/-- The reserved fields of the header are zero (R129). -/
def tHeadOk (d : Bytes) : Bool := fld d 0 16 8 = 0 && fld d 1 0 8 = 0 && wordsZero d 2 3

/-! ## References -/

/-- A reference, resolved to device addresses: operand references (R130) name the cell's own scratchpad, memory references (R165)
any address. `split` marks an FP40 tensor in a scratchpad (R164). -/
structure TRef where
  fmt   : Fmt
  cm    : Bool
  base  : Nat
  aux   : Nat := 0
  side  : Nat := 0
  pitch : Nat
  split : Bool := false
  deriving DecidableEq, Repr

/-- An operand reference of cell c at byte i of a descriptor (R130). For an output the format comes from qctl and fmt is reserved;
`zeroOk` allows a pitch of 0. None is BAD_DESCRIPTOR. -/
def opRef (c : Nat) (out : Option Fmt) (zeroOk : Bool) (d : Bytes) (i : Nat) : Option TRef :=
  let w := fun k => leAt d (i + 4 * k) 4
  let f := match out with
    | some f => if bits (w 0) 28 4 = 0 then some f else none
    | none => fmtOf (bits (w 0) 28 4)
  match f with
  | none => none
  | some f =>
    let sc := bits (w 1) 0 22
    let sd := bits (w 2) 0 22
    if bits (w 0) 24 4 > 1 || bits (w 0) 22 2 ≠ 0 || bits (w 1) 22 10 ≠ 0 || bits (w 2) 22 10 ≠ 0 || bits (w 3) 0 16 ≠ 0
      || (decide (sc ≠ 0) && !fmtScaled f && !(fmtAgreed f && out.isNone)) || (decide (sd ≠ 0) && !fmtSided f)
      || (!zeroOk && bits (w 3) 16 16 = 0) then none
    else some { fmt := f, cm := bits (w 0) 24 4 = 1, base := spAddr c (bits (w 0) 0 22), aux := spAddr c sc, side := spAddr c sd,
                pitch := 16 * bits (w 3) 16 16, split := f = .fp40 }

/-- A memory reference at byte i of a descriptor (R165). None is BAD_DESCRIPTOR. -/
def memRef (d : Bytes) (i : Nat) : Option TRef :=
  let base := leAt d i 8
  let aux := leAt d (i + 8) 8
  let side := leAt d (i + 16) 8
  let w := leAt d (i + 24) 4
  let st := leAt d (i + 28) 4
  match fmtOf (bits w 28 4) with
  | none => none
  | some f =>
    let win := decide (winBase ≤ base) && decide (base < csrBase)
    if decide (base ≥ 2 ^ 48) || decide (aux ≥ 2 ^ 48) || decide (side ≥ 2 ^ 48) || bits w 24 4 > 1 || bits w 0 24 ≠ 0
      || decide (st % 16 ≠ 0) || st = 0
      || (decide (aux ≠ 0) && !(fmtScaled f || fmtAgreed f || (f = .fp40 && !win))) || (decide (side ≠ 0) && !fmtSided f) then none
    else some { fmt := f, cm := bits w 24 4 = 1, base := base, aux := aux, side := side, pitch := st, split := f = .fp40 && win }

/-! ## Geometry (R162 to R168, R304) -/

/-- Plane rows of a rows × cols tensor. -/
def TRef.rows (r : TRef) (rows cols : Nat) : Nat := if r.cm then cols else rows
/-- Contiguous extent of a rows × cols tensor. -/
def TRef.extent (r : TRef) (rows cols : Nat) : Nat := if r.cm then rows else cols
/-- g: the bytes of 32 elements (R163, R167). -/
def TRef.group (r : TRef) : Nat := 4 * fmtBits r.fmt
/-- The format is GBI: its flag nibbles stand after each plane row (R304). -/
def TRef.gbi (r : TRef) : Bool := r.fmt = .gbi16 || r.fmt = .gbi24
/-- Bytes of n elements of the element plane. -/
def TRef.elemBytes (r : TRef) (n : Nat) : Nat := (n * fmtBits r.fmt + 7) / 8
/-- Bytes of one plane row with its flag nibbles. -/
def TRef.rowBytes (r : TRef) (e : Nat) : Nat :=
  if r.fmt = .fp40 then (if r.split then max (5 * e) (4 * r.pitch / 5 + e) else 4 * e)
  else r.elemBytes e + (if r.gbi then (e + 63) / 64 else 0)

/-- The shape breaks no rule of R163, R164 and R304. -/
def TRef.shapeOk (r : TRef) (rows cols : Nat) : Bool :=
  let e := r.extent rows cols
  (!fmtBlocked r.fmt || (e % 32 = 0 && r.pitch % r.group = 0))
    && (!r.split || (r.pitch % 80 = 0 && decide (e ≤ r.pitch / 5)))
    && (!r.gbi || decide (r.pitch ≥ r.rowBytes e) || r.pitch = 0)

/-- Every 32-element group lies within one 256-byte group (R167). -/
def TRef.aligned (r : TRef) : Bool :=
  fmtBits r.fmt = 24 || fmtBits r.fmt = 40 || (r.base % r.group = 0 && r.pitch % r.group = 0)

/-- The spans of the planes of a reference over a rows × cols tensor: address and length (R166). `table` counts the exponent table of
an agreed format as a plane. -/
def TRef.spans (r : TRef) (rows cols : Nat) (table : Bool) : List (Nat × Nat) :=
  let e := r.extent rows cols
  let n := (if r.pitch = 0 then 1 else r.rows rows cols) - 1
  let l := n * r.pitch + r.rowBytes e
  let le_ := n * r.pitch + r.elemBytes e
  (r.base, l) ::
    ((if fmtScaled r.fmt || (table && fmtAgreed r.fmt) then [(r.aux, le_ / r.group)] else [])
      ++ (if fmtSided r.fmt then [(r.side, 2 * le_ / r.group)] else [])
      ++ (if r.fmt = .fp40 && !r.split then [(r.aux, (n * r.pitch) / 4 + e)] else []))

/-- The smallest interval that covers every listed one (R125, R166). -/
def hull (l : List (Nat × Nat)) : List (Nat × Nat) :=
  match l.filter (fun i => decide (i.2 ≠ 0)) with
  | [] => []
  | i :: t =>
    let lo := t.foldl (fun m j => min m j.1) i.1
    let hi := t.foldl (fun m j => max m (j.1 + j.2)) (i.1 + i.2)
    [(lo, hi - lo)]

/-- Two intervals share a byte. -/
def meets (a b : Nat × Nat) : Bool := decide (a.1 < b.1 + b.2) && decide (b.1 < a.1 + a.2)

/-- Some interval of one list meets some interval of the other. -/
def anyMeet (a b : List (Nat × Nat)) : Bool := a.any (fun i => b.any (meets i))

/-- Every byte of an interval lies in a region of the context or in a window open to it (R126 row 2, R547). -/
def mayReach (s : State) (x : Nat) (write read : Bool) : Nat → Nat → Nat → Bool
  | 0, _, _ => false
  | f + 1, a, e =>
    if e ≤ a then true
    else match areaOf s a with
      | .context _ =>
        match (s.ctx x).regions.find? (fun r => r.2.grants a 1 write read false false) with
        | none => false
        | some r =>
          let m := min e (r.2.base + r.2.size * 0x200000)
          mayAccess s x a (m - a) write read && mayReach s x write read f m e
      | _ => mayAccess s x a (e - a) write read

/-- Every byte of each interval may be accessed. -/
def mayAll (s : State) (x : Nat) (write read : Bool) (l : List (Nat × Nat)) : Bool :=
  l.all (fun i => mayReach s x write read 258 i.1 (i.1 + i.2))

/-! ## Elements (R39, R43, R162 to R164) -/

/-- The code of the element at a plane row and position. -/
def codeAt (s : State) (r : TRef) (p j : Nat) : Nat :=
  let row := r.base + p * r.pitch
  if r.fmt = .fp40 then
    if r.split then 256 * ofLe (peek s (row + 4 * j) 4) + ofLe (peek s (row + 4 * r.pitch / 5 + j) 1)
    else 256 * ofLe (peek s (row + 4 * j) 4) + ofLe (peek s (r.aux + p * r.pitch / 4 + j) 1)
  else if fmtBits r.fmt = 4 then ofLe (peek s (row + j / 2) 1) / (if j % 2 = 1 then 16 else 1) % 16
  else ofLe (peek s (row + fmtBits r.fmt / 8 * j) (fmtBits r.fmt / 8))

/-- Index of a block in the scale plane. -/
def TRef.blockAt (r : TRef) (p j : Nat) : Nat := p * r.pitch / r.group + j / 32

/-- Scale byte, or agreed exponent, of the block of an element; 0 for a format that has neither. -/
def scaleAt (s : State) (r : TRef) (p j : Nat) : Nat :=
  if fmtScaled r.fmt || fmtAgreed r.fmt then ofLe (peek s (r.aux + r.blockAt p j) 1) else 0

/-- Side-plane entry of the block of an element. -/
def sideAt (s : State) (r : TRef) (p j : Nat) : Nat :=
  if fmtSided r.fmt then ofLe (peek s (r.side + 2 * r.blockAt p j) 2) else 0

/-- The value at a plane row and position. -/
def valAt (s : State) (r : TRef) (p j : Nat) : Val := decElem r.fmt (scaleAt s r p j) (sideAt s r p j) (j % 32) (codeAt s r p j)

/-- The value of logical element (row, col). -/
def elemAt (s : State) (r : TRef) (row col : Nat) : Val := if r.cm then valAt s r col row else valAt s r row col

/-- The bytes that reading a plane row takes, plane by plane. -/
def rowReads (r : TRef) (p e : Nat) (table : Bool) : List (Nat × Nat) :=
  let row := r.base + p * r.pitch
  if r.fmt = .fp40 then
    if r.split then [(row, 4 * e), (row + 4 * r.pitch / 5, e)] else [(row, 4 * e), (r.aux + p * r.pitch / 4, e)]
  else
    (row, r.rowBytes e) ::
      ((if fmtScaled r.fmt || (table && fmtAgreed r.fmt) then [(r.aux + r.blockAt p 0, e / 32)] else [])
        ++ (if fmtSided r.fmt then [(r.side + 2 * r.blockAt p 0, e / 16)] else []))

/-- The bytes that reading a rows × cols tensor takes. -/
def refReads (r : TRef) (rows cols : Nat) (table : Bool) : List (Nat × Nat) :=
  (List.range (if r.pitch = 0 then 1 else r.rows rows cols)).flatMap (fun p => rowReads r p (r.extent rows cols) table)

/-- Some byte of the intervals is uncorrectable (R147, R201). -/
def anyBad (s : State) (l : List (Nat × Nat)) : Bool := l.any (fun i => decide (i.2 ≠ 0) && unreadable s i.1 i.2)

/-! ## Writing planes -/

/-- Joins writes that follow one another without a gap: contiguous bytes are one write (log entry 26). -/
def joinWrites : List (Nat × Bytes) → List (Nat × Bytes)
  | [] => []
  | (a, b) :: t =>
    match joinWrites t with
    | [] => [(a, b)]
    | (a2, b2) :: u => if a + b.length = a2 then (a, b ++ b2) :: u else (a, b) :: (a2, b2) :: u

/-- Writes in order; the flag says that every byte was written. -/
def writeList (s : State) (ws : List (Nat × Bytes)) : State × Bool :=
  (joinWrites (ws.filter (fun w => !w.2.isEmpty))).foldl (fun t w => let r := writeMem t.1 w.1 w.2; (r.1, t.2 && r.2)) (s, true)

/-- The bytes of one plane row, plane by plane: elements with flag nibbles, scale bytes, side-plane entries or the FP40 low plane. -/
def rowWrites (r : TRef) (p : Nat) (bs : List EncBlock) : List (List (Nat × Bytes)) :=
  let row := r.base + p * r.pitch
  let codes := bs.flatMap (·.codes)
  if r.fmt = .fp40 then
    let hi := codes.flatMap (fun c => le 4 (c / 256))
    let lo := codes.flatMap (fun c => le 1 c)
    [[(row, hi)], [(if r.split then row + 4 * r.pitch / 5 else r.aux + p * r.pitch / 4, lo)], []]
  else
    [[(row, packCodes (fmtBits r.fmt) codes ++ (if r.gbi then packCodes 4 (bs.map (·.nibble)) else []))],
     if fmtScaled r.fmt then [(r.aux + r.blockAt p 0, bs.flatMap (fun b => le 1 b.scale))] else [],
     if fmtSided r.fmt then [(r.side + 2 * r.blockAt p 0, bs.flatMap (fun b => le 2 b.side))] else []]

/-- The planes of a whole tensor, given the blocks of each plane row. -/
def planeWrites (r : TRef) (rows : List (List EncBlock)) : List (Nat × Bytes) :=
  let ws := rows.zipIdx.map (fun e => rowWrites r e.2 e.1)
  [0, 1, 2].flatMap (fun k => ws.flatMap (fun w => w.getD k []))

/-! ## The quantiser over a tensor (R57 to R75, R132) -/

/-- What keys SR rounding of an output: the expanded job seed, the step, and the global index of (row, col) (R60, R132). -/
structure SrKey where
  keys : List (List Nat) := []
  step : Nat := 0
  base : Nat := 0
  row  : Nat := 0
  col  : Nat := 0

/-- The global index of element (row, col), in u64. -/
def SrKey.gidx (k : SrKey) (i j : Nat) : Nat := (k.base + i * k.row + j * k.col) % 2 ^ 64

/-- The SR key that words 26 to 28 and 31 of a descriptor of context x give. -/
def srKey (s : State) (x : Nat) (d : Bytes) : SrKey :=
  { keys := aesKeys (nats (keyBytes (s.ctx x).jobSeed)), step := (s.sl x).step, base := leAt d 104 8, row := w32 d 28, col := w32 d 31 }

/-- The blocks of every plane row of an output: values at (row, col) encoded under a control word. `tab` is the address of the scale
table for AGREED mode, one byte per block in the block order of the output (R132). -/
def quantise (s : State) (q : QCtl) (mode : RMode) (r : TRef) (rows cols tab : Nat) (key : SrKey) (v : Nat → Nat → Val) : List (List EncBlock) :=
  let e := r.extent rows cols
  let nb := if fmtBlocked r.fmt then e / 32 else 1
  let w := if fmtBlocked r.fmt then 32 else e
  (List.range (r.rows rows cols)).map (fun p =>
    (List.range nb).map (fun b =>
      let at_ := fun i => if r.cm then (w * b + i, p) else (p, w * b + i)
      let x := if q.qmode = .agreed then ofLe (peek s (tab + p * nb + b) 1) else 0
      let rnd := fun i => let ij := at_ i; drawWith key.keys key.step (key.gidx ij.1 ij.2) 0
      quantBlock q mode x rnd ((List.range w).map (fun i => let ij := at_ i; v ij.1 ij.2))))

/-- Sums of the counts of a tensor's blocks. -/
def countsOf (rows : List (List EncBlock)) : QCounts := rows.foldl (fun a r => r.foldl (fun b k => addQ b k.q) a) {}

/-- Blocks of a rows × cols output, for the size of its scale table. -/
def TRef.blocks (r : TRef) (rows cols : Nat) : Nat := if fmtBlocked r.fmt then r.rows rows cols * (r.extent rows cols / 32) else 0

end Sys2Proof.Machine
end

