-- ==== Sys2Proof/Machine/Link.lean ====
section
/-! DEFINITION. Machine/Link.lean: the Fjorum transport as every family uses it: packet bytes, path sets, flows, sending,
acknowledging, refusing, and what the loss of a peer does to flows (R288 to R301). -/
namespace Sys2Proof.Machine

/-! ## Packets as bytes (R288 to R290) -/

/-- The 48 header bytes. -/
def hdrBytes (h : FjHdr) (extLen payLen : Nat) : Bytes :=
  [BitVec.ofNat 8 (h.version * 16 + h.cls * 4 + b2n h.lc * 2), BitVec.ofNat 8 h.ty]
    ++ le 2 (b2n h.last + 2 * b2n h.first + 4 * b2n h.ece + 8 * b2n h.ackReq + 16 * b2n h.retx)
    ++ le 2 h.src ++ le 2 h.dst ++ le 4 h.jobTag ++ le 2 h.flow ++ [BitVec.ofNat 8 h.ctx, BitVec.ofNat 8 (extLen / 8)]
    ++ le 4 h.psn ++ le 4 h.ackPsn ++ le 4 h.msgSeq ++ le 4 h.msgOff ++ le 4 h.epoch ++ le 8 h.step
    ++ [BitVec.ofNat 8 h.phase, 0] ++ le 2 payLen

/-- The bytes of a packet. -/
def pktBytes (p : FjPkt) : Bytes := hdrBytes p.hdr p.ext.length p.payload.length ++ p.ext ++ p.payload

/-- The packet that bytes spell; none for a bad header: a version, type or reserved field that R288 and R289 do not allow, or
lengths that do not add up. -/
def pktOf (b : Bytes) : Option FjPkt :=
  let b0 := leAt b 0 1
  let fl := leAt b 2 2
  let extLen := 8 * leAt b 15 1
  let payLen := leAt b 46 2
  if b.length < 48 || decide (b0 / 16 ≠ 1) || bit b0 0 || decide (fl ≥ 32) || decide (leAt b 14 1 ≥ 64) || decide (extLen > 32)
      || decide (leAt b 45 1 ≠ 0) || decide (payLen > 8192) || decide (b.length ≠ 48 + extLen + payLen)
      || decide (leAt b 1 1 = 0) || decide (leAt b 1 1 > 8) then none
  else some {
    hdr := { version := 1, cls := bits b0 2 2, lc := bit b0 1, ty := leAt b 1 1, last := bit fl 0, first := bit fl 1,
             ece := bit fl 2, ackReq := bit fl 3, retx := bit fl 4, src := leAt b 4 2, dst := leAt b 6 2, jobTag := leAt b 8 4,
             flow := leAt b 12 2, ctx := leAt b 14 1, psn := leAt b 16 4, ackPsn := leAt b 20 4, msgSeq := leAt b 24 4,
             msgOff := leAt b 28 4, epoch := leAt b 32 4, step := leAt b 36 8, phase := leAt b 44 1 },
    ext := (b.drop 48).take extLen, payload := b.drop (48 + extLen) }

/-- The reserved bytes of an extension or payload are zero (R289, R290, R297, R305). -/
def extClean (p : FjPkt) : Bool :=
  match p.hdr.ty with
  | 1 =>
    if p.hdr.cls = 0 then true
    else if p.hdr.cls = 1 then decide (leAt p.ext 28 4 = 0) && decide (leAt p.ext 1 1 < 16)
    else decide (leAt p.ext 1 3 = 0) && (leAt p.ext 0 1 = 1 || decide (leAt p.ext 16 8 = 0))
  | 3 => decide (leAt p.ext 1 7 = 0)
  | 4 => decide (leAt p.ext 4 4 = 0)
  | 5 => decide (leAt p.ext 4 4 = 0)
  | 8 => decide (leAt p.payload 7 1 < 2) && decide (leAt p.payload 12 4 = 0)
  | _ => true

/-- The extension and payload lengths that a type and class have (R289, R290). -/
def extFits (p : FjPkt) : Bool :=
  match p.hdr.ty with
  | 1 => if p.hdr.cls = 0 then decide (p.ext.length = 0) && decide (p.payload.length ≥ 8)
         else if p.hdr.cls = 1 then decide (p.ext.length = 32)
         else decide (p.ext.length = 24)
  | 2 => decide (p.ext.length = 8) && decide (p.payload.length = 0)
  | 3 => decide (p.ext.length = 8) && decide (p.payload.length = 0)
  | 4 => decide (p.ext.length = 8) && decide (p.payload.length = 0)
  | 5 => decide (p.ext.length = 8) && decide (p.payload.length = 0)
  | 6 => decide (p.ext.length = 0) && decide (p.payload.length = 0)
  | 7 => decide (p.ext.length = 0) && decide (p.payload.length = 0)
  | 8 => decide (p.ext.length = 0) && decide (p.payload.length = 48)
  | _ => false

/-- Serial-number comparison modulo 2^32 (R288). -/
def serLt (a b : Nat) : Bool := a ≠ b && decide ((b + 2 ^ 32 - a) % 2 ^ 32 < 2 ^ 31)

/-- The next serial number. -/
def serNext (a : Nat) : Nat := (a + 1) % 2 ^ 32

/-! ## Flows and paths (R293, R301) -/

/-- The sending flow with this key. -/
def sndFlow (s : State) (k : FlowKey) : SndFlow := (getKey s.snd k).getD {}
/-- Puts a sending flow. -/
def putSnd (s : State) (k : FlowKey) (f : SndFlow) : State := { s with snd := putKey s.snd k f }
/-- The receiving flow with this key. -/
def rcvFlow (s : State) (k : FlowKey) : RcvFlow := (getKey s.rcv k).getD {}
/-- Puts a receiving flow. -/
def putRcv (s : State) (k : FlowKey) (f : RcvFlow) : State := { s with rcv := putKey s.rcv k f }

/-- The link die of a sub-port's first lane (R272). -/
def dieOfLane (l : Nat) : Nat := if l < 36 then 16 else 17

/-- The sub-port carries secured frames only: under REQUIRED, and under OPPORTUNISTIC once MKA has installed a SAK (R285). -/
def needsSa (s : State) (l : Nat) : Bool := s.plate.macsec = 2 || (s.plate.macsec = 1 && (s.port l).secured)

/-- secure_up (R285, R319). -/
def secureUp (s : State) (l : Nat) : Bool := s.plate.macsec = 0 || (s.port l).sa.isSome

/-- The sub-port can carry Fjorum (R285, R301). -/
def subUsable (s : State) (l : Nat) : Bool :=
  let p := s.port l
  p.present && p.linkUp && !fenced s (dieOfLane l) && !(s.link (dieOfLane l)).resetting && (!needsSa s l || p.sa.isSome)

/-- Bytes in ascending order, most significant first. -/
def bytesLt : Bytes → Bytes → Bool
  | [], [] => false
  | [], _ => true
  | _, [] => false
  | a :: x, b :: y => decide (a.toNat < b.toNat) || (a = b && bytesLt x y)

/-- Inserts an element in ascending order. -/
def insertBy {α : Type} (lt : α → α → Bool) (a : α) : List α → List α
  | [] => [a]
  | b :: l => if lt b a then b :: insertBy lt a l else a :: b :: l

/-- Sorts a list; elements that compare equal keep their order. -/
def sortBy {α : Type} (lt : α → α → Bool) : List α → List α
  | [] => []
  | a :: l => insertBy lt a (sortBy lt l)

/-- The path set of a peer (R301): at most 16 pairs of a local sub-port with an address and a peer address. -/
def pathSet (s : State) (dev : Nat) : List (Nat × Bytes) :=
  let subs := sortBy (fun a b => decide (a < b)) ((s.plate.addrs.map (·.1)).eraseDups.filter (fun l => (s.port l).present))
  let adrs := sortBy bytesLt ((getKey s.plate.peerTab dev).getD [])
  ((subs.map (fun l => adrs.map (fun a => (l, a)))).flatten).take 16

/-- The path that a flow now uses: the first usable one at or after its path index, in the order of the set. -/
def pathOf (s : State) (dev idx : Nat) : Option (Nat × Nat) :=
  let ps := pathSet s dev
  let n := ps.length
  ((List.range n).map (fun i => (idx + i) % n)).findSome? (fun i =>
    match ps[i]? with
    | some (l, _) => if subUsable s l then some (i, l) else none
    | none => none)

/-- The priority code point of a class (R277). -/
def pcpOf (cls : Nat) : Nat := if cls = 0 then 6 else if cls = 1 then 3 else if cls = 2 then 2 else 1

/-- The PFC watchdog has stopped honouring PAUSE for a priority, for pfc_wdog from then on (R278). -/
def Pri.ignoring (s : State) (r : Pri) : Bool := match r.ignoreAt with | some c => decide (s.clk - c < s.plate.pfcWdog * clkMs) | none => false

/-- The 16-bit words of bytes, most significant byte first; an odd last byte is padded with zero (RFC 768). -/
def words16 : Bytes → List Nat
  | a :: b :: r => (256 * a.toNat + b.toNat) :: words16 r
  | [a] => [256 * a.toNat]
  | [] => []

/-- The UDP checksum over the pseudo-header of either IP version, the UDP header and the payload (R275). -/
def udpSum (src dst : Bytes) (sport dport : Nat) (payload : Bytes) : Nat :=
  let len := payload.length + 8
  65535 - ((words16 (src ++ dst)).foldl (· + ·) (17 + len + sport + dport + len) + (words16 payload).foldl (· + ·) 0) % 65535

/-- The local address of a sub-port from which it sends to an address: the one of the same IP version (R274, R275). -/
def ownFor (s : State) (l : Nat) (dst : Bytes) : Bytes :=
  match s.plate.addrs.find? (fun e => e.1 = l && e.2.length = dst.length) with
  | some e => e.2
  | none => []

/-- The DSCP of a priority (R277). -/
def dscpOf (pri : Nat) : Nat :=
  match pri with | 7 => 56 | 6 => 48 | 3 => 26 | 2 => 18 | 1 => 10 | _ => 0

/-- An MKA message: it is never secured (R284). -/
def OutMsg.isMka : OutMsg → Bool
  | .frame _ k _ _ => k = 5
  | _ => false

/-- What stands around a frame's content (R275 to R279, R284, R288): every IP packet goes to the nexthop of its sub-port, an ARP answer to the
asker, an MKA message to the port access entity group address (log entry 84); a tag with the priority and vid under vlan_en; DSCP always; for
Fjorum ECT(0), DF over IPv4 and the UDP checksum; the SecTAG of the association. -/
def txHdr (s : State) (l pri : Nat) (m : OutMsg) : TxHdr :=
  let hop := (getKey s.plate.nexthop l).getD 0
  let w : TxHdr := {
    mac := hop, vlan := if s.plate.vlanEn then some (pri, s.plate.vid) else none
    sec := if s.plate.macsec = 0 || m.isMka then none else (s.port l).sa.map (fun a => (a.an, a.pn, s.plate.cipher)) }
  match m with
  | .packet _ sport dst p =>
    let src := ownFor s l dst
    { w with
      dscp := some (dscpOf pri), ecn := 2, df := decide (dst.length = 4), src := src, dst := dst, ports := some (sport, s.plate.udpPort)
      csum := udpSum src dst sport s.plate.udpPort (pktBytes p) }
  | .frame _ k fields _ =>
    if k = 2 then { w with mac := fields.getD 1 0 }
    else if k = 5 then { w with mac := 0x0180C2000003 }
    else { w with dscp := some (dscpOf pri) }
  | _ => w

/-- A frame leaves, and takes a packet number of the secure association when it is secured (R284). -/
def leave (l pri : Nat) (m : OutMsg) (s : State) : State :=
  let w := txHdr s l pri m
  (if w.sec.isSome then s.modPort l (fun k => { k with sa := k.sa.map (fun a => { a with pn := a.pn + 1 }) }) else s).emit (.tx w m)

/-- Hands a frame of a priority to a sub-port (R278, R284): one of a paused priority waits, or is dropped and counted while the watchdog does
not honour PAUSE; any other leaves. -/
def sendFrame (l pri : Nat) (m : OutMsg) (s : State) : State :=
  let r := ((s.port l).pris[pri]?).getD {}
  let put := fun (f : Pri → Pri) (t : State) => t.modPort l (fun k => { k with pris := modAt k.pris pri f })
  if bit s.plate.pfcMask.toNat pri && r.paused then
    if r.ignoring s then
      (put (fun q => { q with wdropped := q.wdropped + 1 }) s).modLink (dieOfLane l) (fun d => { d with dropWhy := 7, dropN := bump d.dropN 1 })
    else put (fun q => { q with held := q.held ++ [m] }) s
  else leave l pri m s

/-- Puts one packet on the wire, on the path of its flow; every packet sent to a peer restarts its heartbeat interval (R297).
With no usable path nothing leaves the device. -/
def wire (s : State) (path : Nat) (p : FjPkt) : State :=
  match pathOf s p.hdr.dst path with
  | none => s
  | some (i, l) =>
    let peer := (((pathSet s p.hdr.dst)[i]?).map (·.2)).getD []
    (sendFrame l (pcpOf p.hdr.cls) (.packet l (0xC000 + (p.hdr.flow % 0x4000) ^^^ i) peer p) s).modPeer p.hdr.dst (fun r => { r with sent := s.clk })

/-- Path on which a flow starts: flow mod n. -/
def firstPath (s : State) (k : FlowKey) : Nat := k.flow % max 1 (pathSet s k.peer).length

/-- The rate of a sub-port in Mbit/s (R271, R272). -/
def subRate (s : State) (l : Nat) : Nat := (s.port l).lanes * 200000

/-- The rate of the sub-port that a flow's path uses. -/
def flowSubRate (s : State) (k : FlowKey) (f : SndFlow) : Nat :=
  match pathOf s k.peer f.path with
  | some (_, l) => subRate s l
  | none => 0

/-- The key of the flow on which a packet came. -/
def keyOf (p : FjPkt) : FlowKey := { peer := p.hdr.src, cls := p.hdr.cls, flow := p.hdr.flow }

/-- The DATA packets of a flow that the transport has delivered and no command has taken: the receiver may still refuse them (R296). -/
def waitingRx (s : State) (k : FlowKey) : List Nat := (s.rxq.filter (fun p => p.hdr.ty = 1 && keyOf p = k)).map (·.hdr.psn)

/-- The lowest PSN not yet received, which ack_psn carries (R288, R296): a packet that is to come again, or that may still be refused, does not
count as received. -/
def ackLow (s : State) (k : FlowKey) : Nat :=
  ((rcvFlow s k).reoffer ++ waitingRx s k).foldl (fun m p => if serLt p m then p else m) (rcvFlow s k).ackPsn

/-- ack_psn of the reverse flow. -/
def revAck (s : State) (k : FlowKey) : Nat := ackLow s k

/-- Header fields that a context gives a packet (R288). -/
def ctxHdr (s : State) (x : Option Nat) (k : FlowKey) (ty : Nat) : FjHdr :=
  match x with
  | none => { cls := k.cls, ty := ty, src := s.plate.devIndex, dst := k.peer, flow := k.flow, ackPsn := revAck s k }
  | some i =>
    let c := s.ctx i
    { cls := k.cls, ty := ty, lc := c.lc, src := s.plate.devIndex, dst := k.peer, flow := k.flow, ackPsn := revAck s k,
      jobTag := c.jobTag, ctx := i, epoch := c.sl.epoch, step := c.sl.step, phase := phaseCode c.sl.phase }

/-- Sends a packet that no flow carries: OPEN, OPEN_ACK, CLOSE, CLOSE_ACK, HEARTBEAT. -/
def sendBare (s : State) (k : FlowKey) (ty : Nat) (ext payload : Bytes) : State :=
  wire s ((sndFlow s k).path) { hdr := ctxHdr s none k ty, ext := ext, payload := payload }

/-- The 8 extension bytes of OPEN and OPEN_ACK. -/
def incExt (s : State) : Bytes := le 4 s.boot.incarn ++ zeros 4

/-- NACK with a code, for the packet refused (R289, R296). -/
def sendNack (s : State) (p : FjPkt) (code : Nat) : State :=
  let k : FlowKey := { peer := p.hdr.src, cls := p.hdr.cls, flow := p.hdr.flow }
  wire s ((sndFlow s k).path)
    { hdr := { ctxHdr s none k 3 with jobTag := p.hdr.jobTag, ctx := p.hdr.ctx, psn := p.hdr.psn, msgSeq := p.hdr.msgSeq },
      ext := [BitVec.ofNat 8 code] ++ zeros 7, payload := [] }

/-- ACK of a receiving flow: ack_psn and the SACK bitmap (R289, R298). -/
def sendAck (s : State) (k : FlowKey) : State :=
  let f := rcvFlow s k
  let low := ackLow s k
  let sack := ofBits ((List.range 64).filter (fun i =>
    let q := (low + 1 + i) % 2 ^ 32
    !f.reoffer.contains q && !(waitingRx s k).contains q && (serLt q f.ackPsn || f.got.contains q)))
  let s := wire s ((sndFlow s k).path)
    { hdr := { ctxHdr s none k 2 with ackPsn := low, ece := f.ece }, ext := le 8 sack, payload := [] }
  putRcv s k { f with unacked := (waitingRx s k).length, ece := false }

/-! ## Sending messages (R293, R298) -/

/-- Gives one queued packet its PSN and sends it. -/
def pumpOne (s : State) (k : FlowKey) : State :=
  let f := sndFlow s k
  match f.unsent with
  | [] => s
  | p :: rest =>
    let p := { p with hdr := { p.hdr with psn := f.psn, ackPsn := revAck s k } }
    let s := putSnd s k { f with unsent := rest, una := f.una ++ [p], psn := serNext f.psn, sentAt := f.sentAt ++ [(f.psn, s.clk)] }
    wire s f.path p

/-- Sends queued packets while the flow is open, or draining with messages still to send, and fewer than 256 are unacknowledged. -/
def pump : Nat → State → FlowKey → State
  | 0, s, _ => s
  | n + 1, s, k =>
    let f := sndFlow s k
    if (f.st = .isOpen || f.st = .draining) && decide (f.una.length < 256) && !f.unsent.isEmpty then pump n (pumpOne s k) k else s

/-- Sends what the window allows. -/
def pumpAll (s : State) (k : FlowKey) : State := pump (sndFlow s k).unsent.length s k

/-- A message has ended with a status; its use learns of it. -/
def endMsg (s : State) (u : MsgUse) (st : Nat) : State :=
  match u with
  | .none => s
  | .vote _ => s
  | .reply => s
  | _ => { s with ended := s.ended ++ [(u, st)] }

/-- The link die that holds a sending flow: the one of the sub-port of its path. -/
def flowDie (s : State) (k : FlowKey) (f : SndFlow) : Nat :=
  match (pathSet s k.peer)[f.path]? with | some (l, _) => dieOfLane l | none => 16

/-- Each link die holds up to 65,536 sending flows (R293): the die that would hold a flow has no room for it. -/
def sndFull (s : State) (k : FlowKey) : Bool :=
  let d := flowDie s k { path := firstPath s k }
  decide (65536 ≤ s.snd.length) && decide (65536 ≤ (s.snd.filter (fun e => e.2.st ≠ .closed && flowDie s e.1 e.2 = d)).length)

/-- Queues a message on a flow (R293): to a peer held LOST it completes PEER_LOST at once; a closed flow sends OPEN. With no room for another
flow on its link die the message completes STATE_CONFLICT (log entry 86). -/
def sendMsg (s : State) (k : FlowKey) (use : MsgUse) (budget : Nat) (pkts : List FjPkt) : State :=
  if (s.peer k.peer).st = .lost then endMsg s use stPeerLost
  else if (sndFlow s k).st = .closed && sndFull s k then endMsg s use stConflict
  else
    let f := sndFlow s k
    let pkts := pkts.map (fun p => { p with hdr := { p.hdr with msgSeq := f.msgSeq } })
    let f1 := { f with msgSeq := serNext f.msgSeq, unsent := f.unsent ++ pkts,
                       msgs := f.msgs ++ [{ seq := f.msgSeq, use := use, budget := budget }] }
    if f.st = .closed then
      let f2 := { f1 with st := .opening, psn := 0, path := firstPath s k, retries := 0, held := false, srtt := none,
                          rto := s.plate.rtoInit * 1000, alpha := 0xFFFF, inc := 0, lastCut := 0, una := [], sentAt := [], refused := [],
                          budget := [], tried := [], sacked := [] }
      let s := putSnd s k { f2 with rate := flowSubRate s k f2 }
      sendBare s k 4 (incExt s) []
    else if f.st = .draining then putSnd s k f1
    else pumpAll (putSnd s k f1) k

/-- Sends a control message: prefix and body (R290, R312). -/
def sendCtl (s : State) (x : Option Nat) (dst target op tag : Nat) (body : Bytes) (use : MsgUse := .none) : State :=
  let k : FlowKey := { peer := dst, cls := 0, flow := 0 }
  sendMsg s k use 0 [{ hdr := ctxHdr s x k 1, ext := [], payload := le 2 op ++ le 2 target ++ le 4 tag ++ body }]

/-- Sends an SPDM message as a control message (R312). A peer held LOST has no flow: its message in re-admission goes as a packet that no flow
carries (R354, log entry 103). -/
def sendSpdm (s : State) (dev code : Nat) (fields : List Nat) (data : Bytes) : State :=
  let body := Config.spdmBody code fields data
  if (s.peer dev).st = .lost then sendBare s { peer := dev, cls := 0, flow := 0 } 1 [] (le 2 7 ++ le 2 dev ++ le 4 0 ++ body)
  else sendCtl s none dev dev 7 0 body

/-- The packets of a BULK or PARITY message (R288, R290): 8,192 bytes of payload each. -/
def bulkPkts (h : FjHdr) (op addr ret len : Nat) (data : Bytes) : List FjPkt :=
  let n := max 1 ((data.length + 8191) / 8192)
  (List.range n).map (fun i =>
    { hdr := { h with first := i = 0, last := i + 1 = n, msgOff := 8192 * i },
      ext := [BitVec.ofNat 8 op, 0, 0, 0] ++ le 4 len ++ le 8 addr ++ le 8 ret, payload := (data.drop (8192 * i)).take 8192 })

/-- Sends a BULK (class 2) or PARITY (class 3) WRITE message. -/
def sendWrite (s : State) (x : Option Nat) (cls dst addr : Nat) (data : Bytes) (use : MsgUse) (budget : Nat := 0) : State :=
  let k : FlowKey := { peer := dst, cls := cls, flow := 0 }
  sendMsg s k use budget (bulkPkts (ctxHdr s x k 1) 0 addr 0 data.length data)

/-- Sends a READ_REQ: `len` bytes at `addr` of the peer, returned to `ret` here (R290, R291). -/
def sendRead (s : State) (x : Option Nat) (cls dst addr ret len : Nat) (use : MsgUse) (budget : Nat := 0) : State :=
  let k : FlowKey := { peer := dst, cls := cls, flow := 0 }
  sendMsg s k use budget (bulkPkts (ctxHdr s x k 1) 1 addr ret len [])

/-- The flow on which the collective engine of a link die sends: flow 0 for L0, flow 1 for L1. -/
def collFlow (dst die : Nat) : FlowKey := { peer := dst, cls := 1, flow := if die = 17 then 1 else 0 }

/-! ## The end of messages (R293, R296, R298) -/

/-- Messages of a flow of which no packet is queued or unacknowledged have been acknowledged whole: they complete OK. -/
def reapMsgs (s : State) (k : FlowKey) : State :=
  let f := sndFlow s k
  let live := fun (m : SndMsg) => (f.una ++ f.unsent).any (fun p => p.hdr.msgSeq = m.seq)
  let s := putSnd s k { f with msgs := f.msgs.filter live }
  (f.msgs.filter (fun m => !live m)).foldl (fun t m => endMsg t m.use stOk) s

/-- Every message of a flow not yet acknowledged completes with a status, and the flow is closed (R293, R298). -/
def failFlow (s : State) (k : FlowKey) (st : Nat) : State :=
  let f := sndFlow s k
  let s := putSnd s k { f with
    st := .closed, una := [], unsent := [], msgs := [], sentAt := [], refused := [], budget := [], tried := [], sacked := [], held := false }
  f.msgs.foldl (fun t m => endMsg t m.use st) s

/-- The sender drops one message, which completes with a status (R296). Packets already sent keep their place in the flow. -/
def dropMsg (s : State) (k : FlowKey) (seq st : Nat) : State :=
  let f := sndFlow s k
  let hit := f.msgs.filter (fun m => m.seq = seq)
  let s := putSnd s k { f with msgs := f.msgs.filter (fun m => m.seq ≠ seq), unsent := f.unsent.filter (fun p => p.hdr.msgSeq ≠ seq) }
  hit.foldl (fun t m => endMsg t m.use st) s

/-- The retx_budget of a message: its queue's, or the link plate's (R298, R359). -/
def msgBudget (s : State) (f : SndFlow) (seq : Nat) : Nat :=
  match f.msgs.find? (fun m => m.seq = seq) with
  | some m => if m.budget = 0 then s.plate.retx else m.budget
  | none => s.plate.retx

/-- Sends a packet again under its budget (R298): sets retx and counts; an exhausted budget moves the flow to its next path, where every packet
has a fresh one, and when every path has exhausted a budget on the same packet its message completes TIMEOUT and the flow is closed. -/
def resend (s : State) (k : FlowKey) (psn : Nat) : State :=
  let f := sndFlow s k
  match f.una.find? (fun p => p.hdr.psn = psn) with
  | none => s
  | some p =>
    let used := (getKey f.budget psn).getD 0
    let n := (pathSet s k.peer).length
    let full := decide (used ≥ msgBudget s f p.hdr.msgSeq)
    let gone := (getKey f.tried psn).getD 0 + 1
    if full && decide (gone ≥ n) then
      failFlow (dropMsg s k p.hdr.msgSeq stTimeout) k stTimeout
    else
      let f := if full then { f with path := (f.path + 1) % max 1 n, tried := putKey f.tried psn gone, budget := [(psn, 1)] }
               else { f with budget := putKey f.budget psn (used + 1) }
      let s := if full then ffTrace 0x000A 18 k.peer none [BitVec.ofNat 8 ((f.path + n - 1) % max 1 n), BitVec.ofNat 8 f.path, 1] s else s
      let s := putSnd s k { f with sentAt := putKey f.sentAt psn s.clk }
      let d := match pathOf s k.peer f.path with | some (_, l) => dieOfLane l | none => 16
      (wire s f.path { p with hdr := { p.hdr with retx := true, ackPsn := revAck s k } }).modLink d
        (fun l => { l with retx := bump l.retx 1 })

/-- Sends a packet again without counting it against its budget (R296 EARLY_EPOCH, NO_BUFFER). -/
def resendFree (s : State) (k : FlowKey) (psn : Nat) : State :=
  let f := sndFlow s k
  match f.una.find? (fun p => p.hdr.psn = psn) with
  | none => s
  | some p =>
    let d := match pathOf s k.peer f.path with | some (_, l) => dieOfLane l | none => 16
    (wire s f.path { p with hdr := { p.hdr with retx := true, ackPsn := revAck s k } }).modLink d
      (fun l => { l with retx := bump l.retx 1 })

/-- A receiver refuses a packet that the sender will send again: its PSN counts as not received (R296). -/
def refuseForNow (s : State) (p : FjPkt) (code : Nat) : State :=
  let k : FlowKey := { peer := p.hdr.src, cls := p.hdr.cls, flow := p.hdr.flow }
  let f := rcvFlow s k
  let s := putRcv s k (if f.reoffer.contains p.hdr.psn then f else { f with reoffer := f.reoffer ++ [p.hdr.psn] })
  sendNack s p code

/-- Refuses a packet with a code of R296: for the codes that say only that the receiver is slow, the packet will come again. -/
def refuse (s : State) (p : FjPkt) (code : Nat) : State := if code = 3 || code = 4 then refuseForNow s p code else sendNack s p code

/-- A device index names the host of a colony (R314). -/
def isHost (dev : Nat) : Bool := decide (0x4000 ≤ dev)

/-- The host of this device's colony (R314). -/
def hostDev (s : State) : Nat := 0x4000 + s.plate.devIndex / 64

/-- What a host may not send here (R314): anything to a device that is not the bridge of its colony (PERMISSION, log entry 85), and any class
but CONTROL (BAD_HEADER). -/
def hostRefusal (s : State) (p : FjPkt) : Option Nat :=
  if !isHost p.hdr.src then none
  else if s.plate.bridge ≠ s.plate.devIndex || p.hdr.src ≠ hostDev s then some 5
  else if p.hdr.cls ≠ 0 then some 6
  else none

/-- The packet is a message of a colony's host: from the host itself, or one that the bridge has sent on with the host's header, whose
epoch is 0 since a host has no context (R288, R314, R315). A host sends no VOTE: one from the bridge is the bridge's own. -/
def viaHost (s : State) (p : FjPkt) : Bool :=
  isHost p.hdr.src || (decide (p.hdr.cls = 0) && p.hdr.src = s.plate.bridge && p.hdr.src ≠ s.plate.devIndex && p.hdr.epoch = 0
    && leAt p.payload 0 2 ≠ 1)

/-- What makes a receiver refuse a packet for a context, whatever it asks for (R295, R296, R344): a peer held LOST, a context that cannot
take it or is not the job's, another epoch. The host of a colony has no epoch. -/
def pktRefusal (s : State) (p : FjPkt) : Option Nat :=
  let c := s.ctx p.hdr.ctx
  let coming := match c.molt.phase, c.molt.job with
    | .announce, some j => j.jobTag = p.hdr.jobTag && decide (j.epoch ≤ p.hdr.epoch)
    | .hold, some j => j.jobTag = p.hdr.jobTag && decide (j.epoch ≤ p.hdr.epoch)
    | _, _ => false
  let host := viaHost s p
  if (s.peer p.hdr.src).st = .lost then some 0xA
  else if (hostRefusal s p).isSome then hostRefusal s p
  else if coming && !host then some 3
  else if c.st = .empty || c.st = .faulted then some 7
  else if c.jobTag ≠ p.hdr.jobTag then some 5
  else if host then (if c.st = .molting then some 7 else none)
  else if p.hdr.epoch < c.sl.epoch || c.st = .molting then some 2
  else if c.sl.epoch < p.hdr.epoch then some 3
  else none

/-- Takes a delivered packet out of the receive queue: the command that acts on it does this. -/
def takeRx (s : State) (p : FjPkt) : State := { s with rxq := s.rxq.erase p }

/-- The transport's part of a peer becoming LOST (R293, R295): every message completes PEER_LOST, buffered received data is
discarded, flows close, LNK_FJ_LOST counts, and an event is written. -/
def losePeer (s : State) (dev : Nat) : State :=
  if (s.peer dev).st = .lost then s
  else
    let keys := (s.snd.map (·.1)).filter (fun k => k.peer = dev)
    let s := keys.foldl (fun t k => failFlow t k stPeerLost) s
    let s := { s with rcv := s.rcv.filter (fun e => e.1.peer ≠ dev), rxq := s.rxq.filter (fun p => p.hdr.src ≠ dev) }
    let d := match pathOf s dev 0 with | some (_, l) => dieOfLane l | none => 16
    let s := (s.modPeer dev (fun p => { p with st := .lost, readmit := none })).modLink d (fun l => { l with lost := bump l.lost 1 })
    ffEvent 0x0121 3 d dev none (le 4 (s.peer dev).inc) s

/-- A flow in DRAINING with nothing left to acknowledge sends CLOSE (R293). -/
def closeIfDone (k : FlowKey) (s : State) : State :=
  let f := sndFlow s k
  if f.st = .draining && f.una.isEmpty && f.unsent.isEmpty then sendBare s k 6 [] [] else s

/-- The firmware closes an open flow: it drains, and closes once everything is acknowledged (R293). -/
def flowClose (k : FlowKey) (s : State) : State :=
  let f := sndFlow s k
  if f.st = .isOpen then closeIfDone k (putSnd s k { f with st := .draining }) else s

/-- The flows of a job to its members are closed (R342): those of the classes that carry a job's data. -/
def closeJobFlows (devs : List Nat) (s : State) : State :=
  ((s.snd.map (·.1)).filter (fun k => devs.contains k.peer && decide (k.cls ≠ 0))).foldl (fun t k => flowClose k t) s

/-- The devices of a job. -/
def jobDevices (j : Job) : List Nat := j.members

end Sys2Proof.Machine
end

