-- ==== Sys2Proof/Machine/Work.lean ====
section
/-! DEFINITION. Machine/Work.lean: what commands of queues share: their fields, their form, when they start, how they end;
region changes, key slots, weight epochs, doorbells (R191 to R193, R227 to R230, R357 to R384, R479). -/
namespace Sys2Proof.Machine

/-! ## Command fields (R363) -/

/-- opcode. -/
def cOp (b : Bytes) : Nat := leAt b 0 1
/-- notify. -/
def cNotify (b : Bytes) : Bool := bit (leAt b 1 1) 0
/-- fence. -/
def cFence (b : Bytes) : Bool := bit (leAt b 1 1) 1
/-- step_bound. -/
def cBound (b : Bytes) : Bool := bit (leAt b 1 1) 2
/-- cmd_tag. -/
def cTag (b : Bytes) : Nat := leAt b 2 2
/-- wait_sem. -/
def cWait (b : Bytes) : Nat := bits (leAt b 4 4) 20 12
/-- signal_sem. -/
def cSignal (b : Bytes) : Nat := bits (leAt b 4 4) 8 12
/-- epoch. -/
def cEpoch (b : Bytes) : Nat := leAt b 8 4
/-- step. -/
def cStep (b : Bytes) : Nat := leAt b 12 8

/-- The body bytes that an opcode uses, offset and length (R364); none for an opcode that no row of R364 gives. -/
def bodyUsed (op : Nat) : Option (List (Nat × Nat)) :=
  match op with
  | 0x00 => some []
  | 0x01 => some [(32, 8)]
  | 0x02 => some []
  | 0x03 => some []
  | 0x04 => some [(24, 1), (32, 16)]
  | 0x05 => some [(24, 3), (28, 4)]
  | 0x06 => some [(24, 3), (28, 4)]
  | 0x08 => some [(24, 5), (32, 16)]
  | 0x09 => some [(24, 4)]
  | 0x10 => some [(24, 1)]
  | 0x11 => some []
  | 0x12 => some []
  | 0x20 => some [(24, 5), (32, 24)]
  | 0x21 => some [(24, 1), (32, 16)]
  | 0x22 => some [(24, 1), (32, 8)]
  | 0x23 => some [(24, 2)]
  | 0x24 => some [(24, 2)]
  | _ => none

/-- Opcodes that only the control queue of a context accepts (R364). -/
def isControl (op : Nat) : Bool := decide (1 ≤ op) && decide (op ≤ 0x12) && decide (op ≠ 6)

/-- Body bytes outside the listed fields are zero. -/
def bodyZero (b : Bytes) (used : List (Nat × Nat)) : Bool :=
  (List.range 40).all (fun i => used.any (fun u => decide (u.1 ≤ 24 + i) && decide (24 + i < u.1 + u.2)) || decide (leAt b (24 + i) 1 = 0))

/-- Fields in range (R359, R364, R370, R381). -/
def bodyRange (b : Bytes) : Bool :=
  let v := leAt b 28 4
  match cOp b with
  | 0x05 =>
    decide (leAt b 24 2 < 16384) && decide (leAt b 26 1 ≤ 7) &&
      (match leAt b 26 1 with
       | 2 => decide (1 ≤ v) && decide (v ≤ 60000)
       | 3 => decide (v ≤ 64)
       | 4 => decide (v ≤ 1)
       | 7 => decide (v < 0x4100) || decide (v = 0xFFFF)
       | _ => true)
  | 0x06 => decide (leAt b 24 2 ≤ 4094) && decide (leAt b 26 1 ≤ 1)
  | 0x08 => decide (leAt b 28 1 ≤ 1)
  | 0x10 => decide (leAt b 24 1 ≤ 2)
  | 0x20 => (decide (leAt b 24 2 ≤ 255) || decide (leAt b 24 2 = 0xFFFF)) && (decide (leAt b 26 2 ≤ 1023) || decide (leAt b 26 2 = 0xFFFF))
      && decide (leAt b 28 1 ≤ 1)
  | 0x21 => (decide (8 ≤ leAt b 24 1) && decide (leAt b 24 1 ≤ 15)) || decide (leAt b 24 1 = 19)
  | 0x22 => decide (leAt b 24 1 = 16) || decide (leAt b 24 1 = 17) || decide (leAt b 24 1 = 0xFF)
  | 0x23 => decide (leAt b 24 2 ≤ 1023)
  | 0x24 => decide (leAt b 24 2 ≤ 1023)
  | _ => true

/-- A command on queue q is well formed (R363, R364): a defined opcode, on the control queue when it is a control opcode, no
reserved bit set, fields in range, and step_bound on the three step commands. -/
def cmdForm (s : State) (q : Nat) (b : Bytes) : Bool :=
  match bodyUsed (cOp b) with
  | none => false
  | some used =>
    decide (leAt b 1 1 < 8) && decide (leAt b 4 4 % 256 = 0) && decide (leAt b 20 4 = 0) && bodyZero b used && bodyRange b
      && (!isControl (cOp b) || decide (q = (s.queue q).ctx))
      && (!(decide (0x10 ≤ cOp b) && decide (cOp b ≤ 0x12)) || cBound b)

/-! ## Queues (R359 to R362) -/

/-- Slots of a queue's rings. -/
def Queue.size (k : Queue) : Nat := 2 ^ k.log2

/-- State code of HUB_Q_STAT (R385). -/
def Queue.code (k : Queue) : Nat := if !k.defined || !k.enabled then 0 else if k.halted then 2 else 1

/-- The context holds a valid region. -/
def hasRegion (s : State) (x : Nat) : Bool := (s.ctx x).regions.any (fun e => e.2.valid)

/-- An access of the queue manager to a ring of queue q, or to a structure that a command of it names. The control queue of a
context that holds no region yet is reached without a region, so that the context can be opened at all (log entry 13). -/
def qMay (s : State) (q a n : Nat) (write read : Bool) : Bool :=
  let x := (s.queue q).ctx
  mayAccess s x a n write read ||
    (decide (q = x) && !hasRegion s x && (match areaOf s a, areaOf s (a + n - 1) with
      | .context h, .context k => h = k && !fenced s h
      | _, _ => false))

/-- The rings lie where R359 wants them (R512). -/
def ringOk (s : State) (q : Nat) : Bool :=
  let k := s.queue q
  qMay s q k.ring (64 * k.size) false true && qMay s q k.cpl (16 * k.size) true false

/-- Address of command k in the ring. -/
def cmdAt (k : Queue) (i : Nat) : Nat := k.ring + 64 * (i % k.size)

/-- Reads through the queue manager's right. -/
def qRead (s : State) (q a n : Nat) : Except Nat Bytes :=
  if !qMay s q a n false true then .error stPerm
  else match readMem s a n with
    | none => .error stMem
    | some b => .ok b

/-- Completion slots are free: the consumer has read what the next completion would overwrite (R360). -/
def slotFree (k : Queue) (ahead : Nat) : Bool := decide ((k.q.toNat + ahead + 2 ^ 32 - k.c.toNat) % 2 ^ 32 < k.size)

/-- The queue manager may start a command of queue q now, its own fields apart (R360, R362, R366, R371, R380, R467). -/
def queueOpen (s : State) (q : Nat) : Bool :=
  let k := s.queue q
  let c := s.ctx k.ctx
  k.defined && c.defined && k.enabled && (!k.halted || (c.st = .faulted && decide (q = k.ctx))) && k.unwritten.isNone
    && decide (k.n ≠ k.p) && slotFree k k.flight.length && decide (k.flight.length < 32)
    && decide (c.st ≠ .preempted) && decide (c.preReq ≠ 1) && c.closing.isNone

/-- The 64 bytes of command N, or the status of its unreadable slot. -/
def nextCmd (s : State) (q : Nat) : Except Nat Bytes :=
  let k := s.queue q
  qRead s q (cmdAt k k.n.toNat) 64

/-- Command N wants nothing but its semaphore unit: the queue may start it and its fence is satisfied (R366). -/
def wantsUnit (s : State) (q : Nat) (b : Bytes) : Bool := queueOpen s q && (!cFence b || (s.queue q).flight.isEmpty)

/-- A wait that still stands: command N of a queue that wants nothing else, or the next tile of a cell that runs. -/
def waitStands (s : State) (w : Nat × Nat × Nat × Nat) : Bool :=
  if w.2.1 < 16384 then
    (s.queue w.2.1).n.toNat = w.2.2.1 && (match nextCmd s w.2.1 with | .ok b => wantsUnit s w.2.1 b | .error _ => false)
  else
    let k := s.cell (w.2.1 - 16384)
    (k.st = .running || k.st = .stopping) && (match k.prog with
      | some p => p.cmd = w.2.2.1 && !p.tiles.any (fun t => t.id = w.2.2.2 && (t.running || t.done))
      | none => false)

/-- A wait gets a unit now: more units are there than older waits need them (R370). The waits of one semaphore are those of one context, so
they are of one class and their age alone decides (log entry 23). -/
def semTurn (s : State) (x : Nat) (w : Nat × Nat × Nat × Nat) : Bool :=
  decide (w.1 ≥ 0xFFF) ||
    decide ((((s.ctx x).semQ.takeWhile (fun v => v ≠ w)).filter (fun v => v.1 = w.1 && waitStands s v)).length < (s.ctx x).sems.get 0 w.1)

/-- A wait begins: it stands behind those already there. -/
def semWait (x : Nat) (w : Nat × Nat × Nat × Nat) (s : State) : State :=
  if (s.ctx x).semQ.contains w then s else s.modCtx x (fun c => { c with semQ := c.semQ.filter (waitStands s) ++ [w] })

/-- The wait of command N of a queue. -/
def cmdWait (s : State) (q : Nat) (b : Bytes) : Nat × Nat × Nat × Nat := (cWait b, q, (s.queue q).n.toNat, 0)

/-- Command N is there to be served: its semaphore unit is there for it and its fence is satisfied (R366, R370). An
ENGINE_JOB stays in its ring while its holder is in reset (R429). -/
def canStart (s : State) (q : Nat) (b : Bytes) : Bool :=
  wantsUnit s q b && semTurn s (s.queue q).ctx (cmdWait s q b) && !(decide (cOp b = 0x21) && (s.holder (leAt b 24 1)).resetting)

/-- Queue r has a startable command; one whose slot cannot be read starts too (log entry 16). -/
def hasStartable (s : State) (r : Nat) : Bool :=
  match nextCmd s r with
  | .ok b => canStart s r b
  | .error _ => queueOpen s r

/-- The queue is of an LC context. -/
def queueLc (s : State) (q : Nat) : Bool := (s.ctx (s.queue q).ctx).lc

/-- The place of a queue in the round of its class, which begins behind the queue served last. -/
def roundPlace (s : State) (q : Nat) : Nat := (q + 16384 - (if queueLc s q then s.hub.nextLc else s.hub.nextBe) % 16384) % 16384

/-- Queue r is served before queue q: of class LC before BE, else round-robin by queue index (R375). -/
def servedBefore (s : State) (r q : Nat) : Bool :=
  if queueLc s r = queueLc s q then decide (roundPlace s r < roundPlace s q) else queueLc s r

/-- Queue q is the next to serve: no queue with a startable command comes before it (R375). -/
def inTurn (s : State) (q : Nat) : Bool := s.queues.all (fun e => !(servedBefore s e.1 q && hasStartable s e.1))

/-- Command N may start: it is startable, and its queue is the next to serve (R366, R370, R375). -/
def startable (s : State) (q : Nat) (b : Bytes) : Bool := canStart s q b && inTurn s q

/-- The round of a class goes on behind the queue that has been served. -/
def Hub.passTurn (lc : Bool) (q : Nat) (h : Hub) : Hub :=
  if lc then { h with nextLc := (q + 1) % 16384 } else { h with nextBe := (q + 1) % 16384 }

/-! ## The life of a command -/

/-- Applies `f` to the command k in flight on queue q. -/
def modCmd (s : State) (q k : Nat) (f : Cmd → Cmd) : State :=
  s.modQueue q (fun w => { w with flight := w.flight.map (fun c => if c.idx = k then f c else c) })

/-- The command k in flight on queue q. -/
def findCmd (s : State) (q k : Nat) : Option Cmd := (s.queue q).flight.find? (fun c => c.idx = k)

/-- A launch, engine job or collective of the context has started (R357). -/
def ctxStart (x : Nat) (s : State) : State :=
  s.modCtx x (fun c => { c with started := c.started + 1, st := if c.st = .ready then .running else c.st })

/-- A launch, engine job or collective of the context has completed (R357). -/
def ctxDone (x : Nat) (s : State) : State :=
  s.modCtx x (fun c => { c with started := c.started - 1, st := if c.st = .running && decide (c.started ≤ 1) then .ready else c.st })

/-- The die on which a command's work ran, as the source of an INTERNAL record (R416): the cell's of a LAUNCH, the holder of an ENGINE_JOB,
the link die of a COLLECTIVE, else the hub. -/
def sourceDie (s : State) (b : Bytes) (cell : Nat) : Nat :=
  match cOp b with
  | 0x20 => cell / 32
  | 0x21 => leAt b 24 1
  | 0x22 => if leAt b 24 1 = 0xFF then (if fenced s 16 then 17 else 16) else leAt b 24 1
  | _ => 18

/-- A command completes with a status; one that has a status keeps it (R536: a status, once written, is never rewritten). One found hung
completes TIMEOUT (R424). An INTERNAL completion writes an error record (R416). -/
def finishCmd (q k st : Nat) (d1 d2 : Nat) (s : State) : State :=
  match findCmd s q k with
  | none => s
  | some c =>
    if c.status.isSome then s
    else
      let st := if c.hung then stTimeout else st
      let s := modCmd s q k (fun c => { c with status := some st, detail := d1, detail2 := d2, waiting := false, counted := false })
      let s := if st = stInternal then logInternal (sourceDie s c.bytes d2) (some (s.queue q).ctx) st s else s
      if c.counted then ctxDone (s.queue q).ctx s else s

/-- A command has been accepted as started work of its context. -/
def acceptCmd (q k : Nat) (s : State) : State :=
  ctxStart (s.queue q).ctx (modCmd s q k (fun c => { c with counted := true, waiting := false }))

/-- The effect of a started command waits. -/
def holdCmd (q k : Nat) (s : State) : State := modCmd s q k (fun c => { c with waiting := true })

/-- What the step line says of a step-bound command (R365): go on, wait for a later epoch, or STATE_CONFLICT. -/
inductive Bound where
  | go | wait | conflict
  deriving DecidableEq, Repr

/-- R365 for a command of context x. A context without a job has no step line and binds nothing (log entry 14). -/
def boundOf (s : State) (x : Nat) (b : Bytes) : Bound :=
  let c := s.ctx x
  if !cBound b || c.jobTag = 0 then .go
  else if cEpoch b < c.sl.epoch then .conflict
  else if c.sl.epoch < cEpoch b then .wait
  else if c.sl.dead.contains (cEpoch b, cStep b) then .conflict
  else .go

/-- Command N becomes a started command: its semaphore unit is consumed and N advances (R363, R366). -/
def beginCmd (q : Nat) (b : Bytes) (s : State) : State :=
  let k := s.queue q
  let lc := queueLc s q
  let s := (semTake k.ctx (cWait b) s).modHub (Hub.passTurn lc q)
  let s := s.modQueue q (fun w => { w with n := w.n + 1, flight := w.flight ++ [{ idx := k.n.toNat, bytes := b, since := s.clk }] })
  ffTrace 0x0001 18 q (some k.ctx) (le 4 k.n.toNat ++ [BitVec.ofNat 8 (cOp b)]) s

/-- The checks of R364 and R365 on a started command, then its effect. -/
def checkCmd (act : Nat → Nat → Bytes → State → State) (q k : Nat) (b : Bytes) (s : State) : State :=
  let x := (s.queue q).ctx
  if !cmdForm s q b then finishCmd q k stBad 0 0 s
  else if (s.ctx x).st = .faulted && decide (cOp b ≠ 3) && decide (cOp b ≠ 5) then finishCmd q k stConflict 0 0 s
  else match boundOf s x b with
    | .conflict => finishCmd q k stConflict 0 0 s
    | .wait => holdCmd q k s
    | .go => act q k b s

/-- A row of queue commands: command N of queue q starts when it is of this row and may start, and begins to wait when only its semaphore unit
is missing; with a command of the row already started and waiting for its effect, and `ready`, that effect is tried again. -/
def startRow (row : Bytes → Bool) (act : Nat → Nat → Bytes → State → State) (q : Nat) (s : State)
    (ready : State → Nat → Cmd → Bool := fun _ _ _ => true) : State :=
  match (s.queue q).flight.find? (fun c => c.waiting && c.status.isNone && row c.bytes && decide (boundOf s (s.queue q).ctx c.bytes ≠ .wait)
      && decide ((s.ctx (s.queue q).ctx).st ≠ .preempted) && decide ((s.ctx (s.queue q).ctx).preReq ≠ 1) && ready s q c) with
  | some c => checkCmd act q c.idx c.bytes s
  | none =>
    match nextCmd s q with
    | .error _ => s
    | .ok b =>
      if row b && startable s q b then checkCmd act q (s.queue q).n.toNat b (beginCmd q b s)
      else if row b && wantsUnit s q b && !canStart s q b then semWait (s.queue q).ctx (cmdWait s q b) s
      else s

/-- The first of several failures due together (R536); OK when there is none. -/
def firstOf (fs : List (Bool × Nat)) : Nat := (fs.filter (·.1)).foldl (fun a f => if a = 0 then f.2 else worse a f.2) 0

/-- R371 for LAUNCH, ENGINE_JOB and COLLECTIVE; `load` marks an ENGINE_JOB with LOAD_SHARD, ZERO or CRC. An EMPTY context has no
work (log entry 15). -/
def workConflict (s : State) (x : Nat) (load : Bool) : Bool :=
  match (s.ctx x).st with
  | .empty => true
  | .loading => !load
  | .ready => false
  | .running => false
  | .preempted => false
  | .molting => true
  | .faulted => true

/-! ## Key slots (R479, R480) -/

/-- Draws the three keys of a slot, unless it holds keys. -/
def drawKeys (slot : Nat) (s : State) : State :=
  if bit s.sec.slotLive.toNat slot then s
  else
    let a := takeDraw s
    let b := takeDraw a.2
    let c := takeDraw b.2
    { c.2 with sec := { c.2.sec with slotLive := c.2.sec.slotLive ||| BitVec.ofNat 128 (2 ^ slot),
                                     slotKeys := c.2.sec.slotKeys.set slot (a.1, b.1, c.1) } }

/-- A slot is unused: no valid region uses it and every context assigned to it is EMPTY. -/
def slotUnused (s : State) (slot : Nat) : Bool :=
  s.ctxs.all (fun e => (!bit e.2.slotMask slot || decide (e.2.st = .empty)) && e.2.regions.all (fun r => !(r.2.valid && r.2.keySlot = slot)))

/-- Every holder clears the unused slots from 1 to 127. -/
def sweepKeys (s : State) : State :=
  (setBits s.sec.slotLive.toNat 128).foldl (fun t i =>
    if decide (i ≠ 0) && slotUnused t i then
      { t with sec := { t.sec with slotLive := t.sec.slotLive &&& ~~~(BitVec.ofNat 128 (2 ^ i)), slotKeys := t.sec.slotKeys.erase i } }
    else t) s

/-! ## Regions (R191 to R193) -/

/-- The entry that 16 bytes spell (R191). -/
def regionOf (b : Bytes) : Region :=
  let f := leAt b 12 4
  { valid := bit f 31, base := leAt b 0 8, size := leAt b 8 4, keySlot := bits f 24 7, shared := bit f 4, remote := bit f 3,
    eng := bit f 2, w := bit f 1, r := bit f 0 }

/-- The 16 bytes of an entry. -/
def regionBytes (r : Region) : Bytes :=
  le 8 r.base ++ le 4 r.size ++ le 4 (b2n r.valid * 2 ^ 31 + r.keySlot * 2 ^ 24 + b2n r.shared * 16 + b2n r.remote * 8
    + b2n r.eng * 4 + b2n r.w * 2 + b2n r.r)

/-- Two intervals overlap. -/
def regionsMeet (a b : Region) : Bool :=
  decide (a.base < b.base + b.size * 0x200000) && decide (b.base < a.base + a.size * 0x200000)

/-- The regions that a context holds or is about to hold: those in force and the grant whose zeroing runs (R192, R193). -/
def Ctx.claims (c : Ctx) : List (Nat × Region) :=
  c.regions.filter (fun f => f.2.valid) ++ (match c.changes with | ch :: _ => if ch.grant then [(ch.index, ch.entry)] else [] | [] => [])

/-- The entry may stand in the table of context x at an index (R191, R192): aligned, within the context memory of one tier, on stacks that are
present (R189), meeting no region that it may not meet, and shared where its key slot is assigned to another context too (R479; log entry 112). -/
def regionLegal (s : State) (x i : Nat) (r : Region) : Bool :=
  let last := r.base + r.size * 0x200000 - 1
  decide (r.base % 0x200000 = 0) && decide (r.base < 2 ^ 48) && decide (1 ≤ r.size) &&
    (match areaOf s r.base, areaOf s last with
     | .context h, .context k => (h = k || (h ≠ 19 && k ≠ 19)) && decide (last < 2 ^ 48) &&
         (List.range (r.size + 1)).all (fun j =>
           match areaOf s (min last (r.base + j * 0x200000)) with | .context g => !fenced s g | _ => false)
     | _, _ => false) &&
    (r.shared || s.ctxs.all (fun e => e.1 = x || !bit e.2.slotMask r.keySlot)) &&
    s.ctxs.all (fun e => e.2.claims.all (fun f =>
      !regionsMeet r f.2 || (e.1 = x && f.1 = i) || (e.1 ≠ x && r.shared && f.2.shared && r.keySlot = f.2.keySlot)))

/-- Running work of context x: tiles that have started and engine jobs that run (R193, R371). -/
def workRuns (s : State) (x : Nat) : Bool :=
  s.cells.any (fun c => match c.2.prog with
    | some p => p.ctx = x && p.tiles.any (fun t => t.running)
    | none => false) ||
  s.holders.any (fun h => match h.2.running with | some j => j.ctx = x | none => false)

/-- The region is in the mask of an epoch entry that is not freed (R371). -/
def inEpochMask (s : State) (x i : Nat) : Bool := (s.ctx x).epochs.any (fun e => bit e.mask i)

/-- Completes the command that asked for a region change. -/
def answerChange (st : Nat) (ch : RegionChange) (s : State) : State :=
  match ch.queue with
  | some (q, k) => finishCmd q k st 0 0 s
  | none => s

/-- Starts the region change at the head of the list, and answers at once those that fail their checks (R192, R193, R371, R479). -/
def advanceChanges : Nat → Nat → State → State
  | 0, _, s => s
  | n + 1, x, s =>
    match (s.ctx x).changes with
    | [] => s
    | ch :: rest =>
      let drop := fun (t : State) => t.modCtx x (fun c => { c with changes := rest })
      if ch.grant then
        if !(decide (ch.entry.keySlot ≠ 0) && bit (s.ctx x).slotMask ch.entry.keySlot) then advanceChanges n x (answerChange stPerm ch (drop s))
        else if !regionLegal s x ch.index ch.entry then advanceChanges n x (answerChange stBad ch (drop s))
        else drawKeys ch.entry.keySlot s
      else if ch.queue.isSome && inEpochMask s x ch.index then advanceChanges n x (answerChange stConflict ch (drop s))
      else s.modCtx x (fun c => { c with regions := c.regions.set ch.index {} })

/-- Asks for a region change; one that meets an earlier change waits for it. -/
def askChange (x : Nat) (ch : RegionChange) (s : State) : State :=
  let first := (s.ctx x).changes.isEmpty
  let s := s.modCtx x (fun c => { c with changes := c.changes ++ [ch] })
  if first then advanceChanges 64 x s else s

/-- The regions of a released epoch are revoked: its entry is freed and the notice waits on the control queue (R228, R369). -/
def freeEpoch (x n : Nat) (s : State) : State :=
  (s.modCtx x (fun c => { c with epochs := c.epochs.filter (fun f => f.num ≠ n) })).modQueue x (fun k => { k with notices := k.notices ++ [n] })

/-- Ends the change at the head and starts the next; the last revocation of a released epoch frees it. -/
def endChange (x : Nat) (s : State) : State :=
  match (s.ctx x).changes with
  | [] => s
  | ch :: rest =>
    let s := answerChange stOk ch (s.modCtx x (fun c => { c with changes := rest }))
    let s := match ch.release with
      | some n => if rest.any (fun r => r.release = some n) then s else freeEpoch x n s
      | none => s
    sweepKeys (advanceChanges 64 x s)

/-- Removes every listed byte of an interval: the memory then reads zero there. -/
def memZero (m : List Host.Cell) (a n : Nat) : List Host.Cell := m.filter (fun c => !(decide (a ≤ c.1) && decide (c.1 < a + n)))

/-- Writes zeros over an interval of whole pairs and clears its poison (R193). -/
def zeroRange (a n : Nat) (s : State) : State :=
  { s with mem := memZero s.mem a n, poison := s.poison.filter (fun p => !(decide (a ≤ 128 * p) && decide (128 * p + 128 ≤ a + n))) }

/-! ## Weight epochs (R227 to R230, R369, R382, R383) -/

/-- The CURRENT entry of a context. -/
def currentEpoch (s : State) (x : Nat) : Option EpochEntry := (s.ctx x).epochs.find? (fun e => e.st = .current)

/-- Applies `f` to the entry of epoch n. -/
def modEpoch (x n : Nat) (f : EpochEntry → EpochEntry) (s : State) : State :=
  s.modCtx x (fun c => { c with epochs := c.epochs.map (fun e => if e.num = n then f e else e) })

/-- Releases the SUPERSEDED epochs that no reference holds: their regions are revoked, and then their entries are freed and a notice is posted
on the control queue (R228, R369). -/
def releaseEpochs (x : Nat) (s : State) : State :=
  ((s.ctx x).epochs.filter (fun e => e.st = .superseded && e.refs = 0 && !e.releasing)).foldl (fun t e =>
    match (setBits e.mask 256).filter (fun i => ((t.ctx x).regions.get {} i).valid) with
    | [] => freeEpoch x e.num t
    | is => is.foldl (fun u i => askChange x { index := i, grant := false, entry := {}, queue := none, release := some e.num } u)
        (modEpoch x e.num (fun f => { f with releasing := true }) t)) s

/-- Adds a reference to an epoch. -/
def pinEpoch (x n : Nat) (s : State) : State := modEpoch x n (fun e => { e with refs := e.refs + 1 }) s

/-- Takes a reference from an epoch and releases it when it may go. -/
def unpinEpoch (x n : Nat) (s : State) : State := releaseEpochs x (modEpoch x n (fun e => { e with refs := e.refs - 1 }) s)

/-- A LOAD_SHARD job counts as a load of a LOADING epoch: its destination lies in a region of the epoch's mask (R382). -/
def loadsEpoch (s : State) (x : Nat) (e : EpochEntry) (j : EngJob) : Bool :=
  j.ctx = x && decide (leAt j.desc 3 1 = 0x60) && e.st = .loading &&
    ((s.ctx x).regionsAt (leAt j.desc 144 8) 1).any (fun i => bit e.mask i)

/-- The jobs that a holder runs or will run. -/
def Holder.jobs (h : Holder) : List EngJob := h.running.toList ++ h.queue

/-- LOAD_SHARD jobs of the context pending, those that count for a LOADING epoch apart (R364, R382). -/
def loadsOf (s : State) (x : Nat) : Nat :=
  (s.holders.map (fun h => (h.2.jobs.filter (fun j => j.ctx = x && decide (leAt j.desc 3 1 = 0x60)
    && !((s.ctx x).epochs.any (fun e => loadsEpoch s x e j)))).length)).sum

/-- A LOAD_SHARD job of the epoch is pending. -/
def epochLoads (s : State) (x : Nat) (e : EpochEntry) : Bool := s.holders.any (fun h => h.2.jobs.any (loadsEpoch s x e))

/-- Open sequences of a context (R386). -/
def seqOpenCount (s : State) (x : Nat) : Nat := (s.seqs.filter (fun e => e.2.isOpen && e.2.ctx = x)).length

/-- The tag lies in the context's range (R371, R381). -/
def seqOwned (s : State) (x t : Nat) : Bool := decide ((s.ctx x).seqBase ≤ t) && decide (t < (s.ctx x).seqBase + (s.ctx x).seqCount)

/-- Closes one sequence and releases its pin (R383). -/
def closeSeq (t : Nat) (s : State) : State :=
  let e := s.seq t
  if e.isOpen then unpinEpoch e.ctx e.epoch (s.modSeq t (fun _ => {})) else s

/-! ## Waiting commands (R357, R364, R383) -/

/-- What leaves a context EMPTY keeps of it: what the plates give. -/
def Ctx.fresh (c : Ctx) : Ctx :=
  { defined := c.defined, lc := c.lc, mode := c.mode, owned := c.owned, guest := c.guest, slotMask := c.slotMask, tenant := c.tenant,
    seqBase := c.seqBase, seqCount := c.seqCount, job := c.job, declared := c.declared,
    left := c.left, molt := c.molt }

/-- CTX_CLOSE has nothing left to wait for. -/
def closeReady (s : State) (x : Nat) : Bool :=
  (s.ctx x).started = 0 && (s.ctx x).changes.isEmpty && !workRuns s x

/-- The context becomes EMPTY (R357): sequences closed, regions revoked, epochs freed, semaphores zeroed, unused key slots destroyed. The
queues that FAULTED halted are ACTIVE again, so that the context can be opened anew (R467; log entry 32). -/
def emptyCtx (x : Nat) (s : State) : State :=
  let s := if (s.ctx x).st = .faulted then
      { s with queues := s.queues.map (fun e => if e.2.ctx = x then (e.1, { e.2 with halted := false }) else e) } else s
  let s := { s with seqs := s.seqs.filter (fun e => !(e.2.isOpen && e.2.ctx = x)) }
  sweepKeys (s.modCtx x Ctx.fresh)

/-- A pre-emption in progress ends: no program of the context is on a cell, and its started jobs and collectives are complete (R380). -/
def tryPreempted (x : Nat) (s : State) : State :=
  if decide ((s.ctx x).preReq = 1) && ((s.ctx x).st = .ready || (s.ctx x).st = .running) && !s.cells.any (fun c => match c.2.prog with | some p => p.ctx = x | none => false)
      && !s.holders.any (fun h => h.2.jobs.any (fun j => j.ctx = x)) && !s.colls.any (fun k => k.x = x && k.queue.isSome) then
    s.modCtx x (fun c => { c with preReq := 0, st := .preempted })
  else s

/-- Completes the commands of queue q that wait for a condition which now holds: CTX_READY, CTX_CLOSE, SEQ_CLOSE. -/
def pollWaits (q : Nat) (s0 : State) : State :=
  let s := tryPreempted (s0.queue q).ctx s0
  (s.queue q).flight.foldl (fun t c =>
    let x := (t.queue q).ctx
    if c.status.isSome || c.waiting then t
    else match cOp c.bytes with
      | 0x02 => if loadsOf t x = 0 then
          finishCmd q c.idx stOk 0 0 (t.modCtx x (fun k => { k with st := if k.st = .loading then .ready else k.st })) else t
      | 0x03 => if closeReady t x then finishCmd q c.idx stOk 0 0 (emptyCtx x t) else t
      | 0x24 => if (t.seq (leAt c.bytes 24 2)).inFlight = 0 then finishCmd q c.idx stOk 0 0 (closeSeq (leAt c.bytes 24 2) t) else t
      | _ => t) s

/-- Completes what waits on the queues of context x. -/
def pollCtx (x : Nat) (s : State) : State := s.queues.foldl (fun t e => if e.2.ctx = x then pollWaits e.1 t else t) s

/-- A launch, engine job or collective moves its command's progress counter (R422). -/
def progressCmd (q k n : Nat) (s : State) : State := modCmd s q k (fun c => { c with progress := c.progress + n })

/-- HUB_HANG_CTX names a hang: cause, context and queue (R424, R427, R468). -/
def setHang (cause x q : Nat) (s : State) : State :=
  s.modHub (fun h => { h with hangValid := true, hangCause := BitVec.ofNat 3 cause, hangCtx := BitVec.ofNat 6 x, hangQueue := BitVec.ofNat 14 q })

/-! ## Doorbells (R361, R512) -/

/-- The value of a queue doorbell is acceptable: 1 ≤ value − P ≤ size. -/
def dbAccept (k : Queue) (v : Nat) : Bool :=
  let d := (v + 2 ^ 32 - k.p.toNat) % 2 ^ 32
  decide (1 ≤ d) && decide (d ≤ k.size)

/-- A queue doorbell: P becomes the value; a value out of range, or a queue whose rings lie outside its context's regions, is ignored
and written to the Firefly ring; a disabled queue ignores doorbells. -/
def ringDoorbell (q v : Nat) (s : State) : State :=
  let k := s.queue q
  if !k.defined || !k.enabled then s
  else if dbAccept k v && ringOk s q then s.modQueue q (fun w => { w with p := BitVec.ofNat 32 v })
  else ffEvent 0x0101 2 18 q (some k.ctx) (le 4 v ++ le 4 k.p.toNat) s

/-- HUB_Q_CCONS: C moves to the value unless that moves it backward or past Q (R385). -/
def writeCcons (q v : Nat) (s : State) : State :=
  let k := s.queue q
  if decide ((v + 2 ^ 32 - k.c.toNat) % 2 ^ 32 ≤ (k.q.toNat + 2 ^ 32 - k.c.toNat) % 2 ^ 32) then
    s.modQueue q (fun w => { w with c := BitVec.ofNat 32 v })
  else s

/-- The queue and register (0 DB, 1 CCONS, 2 STAT, 3 CPROD) at an address of the HUB_ block (R385, R541). -/
def queueReg (a : Nat) : Option (Nat × Nat) :=
  if decide (csrBase + 0x100000 ≤ a) && decide (a < csrBase + 0x140000) && a % 4 = 0 then
    some ((a - csrBase - 0x100000) / 16, (a - csrBase) % 16 / 4) else none

/-! ## Control messages to a device or to the host (R312, R315) -/

/-- Sends a control message to its target: a device, or the colony's host through the bridge (R315). -/
def sendTo (target op tag : Nat) (body : Bytes) (x : Option Nat) (s : State) : State :=
  if target = s.plate.devIndex || target = 0xFFFF then s
  else if target < 0x4000 then sendCtl s x target target op tag body
  else if s.plate.bridge = s.plate.devIndex then sendCtl s x target target op tag body
  else if s.plate.bridge = 0xFFFF then s
  else sendCtl s x s.plate.bridge target op tag body

/-- Posts a completion of a molt or recovery on the control queue of a context (R340), as a notice-less entry of the firmware:
index and opcode zero, the status, no tag. -/
def postMolt (x st : Nat) (s : State) : State :=
  s.modQueue x (fun k => { k with flight := k.flight ++ [{ idx := 2 ^ 32 + k.flight.length, bytes := zeros 64, started := false, status := some st }] })

/-- Every queue of a context halts with a status (R467). -/
def haltQueues (x st : Nat) (s : State) : State :=
  { s with queues := s.queues.map (fun e => if e.2.ctx = x && e.2.defined then (e.1, { e.2 with halted := true, haltSt := BitVec.ofNat 8 st }) else e) }

/-- The context enters FAULTED (R357, R467). -/
def faultCtx (x st : Nat) (s : State) : State := haltQueues x st (s.modCtx x (fun c => { c with st := .faulted }))

end Sys2Proof.Machine
end

