-- ==== Sys2Proof/Machine/Tile.lean ====
section
/-! DEFINITION. Machine/Tile.lean: what every tile shares: its plan (units, footprints, clocks), the accumulator store, and the frame
in which an op takes its effect (R122 to R128, R147 to R151). -/
namespace Sys2Proof.Machine

/-! ## The plan of a tile (R124 to R126, R148) -/

/-- What a tile occupies and touches: its units, the footprints it reads and writes, the bytes it reads, the intervals that device addresses
name, which R126 row 2 checks (write flag last), its accumulator use, and its clocks. -/
structure Plan where
  array  : Bool := false
  vector : Bool := false
  dma    : Bool := false
  ins    : List (Nat × Nat) := []
  outs   : List (Nat × Nat) := []
  reads  : List (Nat × Nat) := []
  merge  : List (Nat × Nat) := []          -- read and written by design: exempt from the overlap check
  far    : List (Nat × Nat × Bool) := []
  late   : List (Nat × Nat) := []          -- inputs that bytes which the tile reads ask for
  bad    : Bool := false                   -- bytes that the tile reads make it BAD_DESCRIPTOR: known once its hazards are clear
  slots  : List (Nat × Nat × Nat) := []    -- accumulator words read: cell, offset behind the raw view, length (R147)
  clocks : Nat := 0
  deriving DecidableEq, Repr

/-- An interval lies in the scratchpad window of cell c. -/
def inSp (c : Nat) (i : Nat × Nat) : Bool := decide (spAddr c 0 ≤ i.1) && decide (i.1 + i.2 ≤ spAddr c spSize)

/-- The interval begins in the window of cell c. -/
def ownWin (c : Nat) (a : Nat) : Bool := decide (cellWin c ≤ a) && decide (a < cellWin (c + 1))

/-- The footprint of the planes of a memory reference: the smallest interval that covers those in the own window, and the one that covers the
others. The two are kept apart, since the sequencer tracks the own scratchpad only (R125, R165, R166; log entry 88). -/
def foot (c : Nat) (l : List (Nat × Nat)) : List (Nat × Nat) :=
  hull (l.filter (fun i => ownWin c i.1)) ++ hull (l.filter (fun i => !ownWin c i.1))

/-- A device address of the plan names this interval: R126 checks it in row 2, whatever it lies in. -/
def Plan.named (p : Plan) (i : Nat × Nat) : Bool := p.far.any (fun f => decide (f.1 ≤ i.1) && decide (i.1 + i.2 ≤ f.1 + f.2.1))

/-- Check 1 of R126 on footprints and clocks: the footprints of scratchpad addresses lie within the scratchpad, no output meets an input, at
most 60,000 clocks. -/
def Plan.fits (p : Plan) (c : Nat) : Bool :=
  (p.ins ++ p.outs ++ p.merge).all (fun i => !ownWin c i.1 || inSp c i || p.named i) && !anyMeet p.outs p.ins && decide (p.clocks ≤ 60000)

/-- The scratchpad footprints of the own cell: read, then written (R125). -/
def Plan.own (p : Plan) (c : Nat) : List (Nat × Nat) × List (Nat × Nat) :=
  ((p.ins ++ p.late ++ p.merge).filter (fun i => ownWin c i.1), (p.outs ++ p.merge).filter (fun i => ownWin c i.1))

/-- Check 2 of R126: every device address lies in a region of the context or in a window open to it. -/
def Plan.may (p : Plan) (s : State) (x : Nat) : Bool := p.far.all (fun f => mayReach s x f.2.2 (!f.2.2) 258 f.1 (f.1 + f.2.1))

/-- Every window that the plan names is still the context's: it must be at the moment of each access (R547). -/
def Plan.open_ (p : Plan) (s : State) (x : Nat) : Bool :=
  ({ p with far := p.far.filter (fun f => match areaOf s f.1 with | .window _ _ => true | _ => false) } : Plan).may s x

/-- Two tiles are in hazard (R125). -/
def Plan.hazard (p q : Plan) (c : Nat) : Bool :=
  anyMeet (p.own c).2 ((q.own c).1 ++ (q.own c).2) || anyMeet (q.own c).2 ((p.own c).1 ++ (p.own c).2)

/-- Ceiling division. -/
def cdiv (a b : Nat) : Nat := (a + b - 1) / b

/-! ## The running tile -/

/-- The mode of the context that owns a cell. -/
def modeOf (s : State) (x : Nat) : Mode := (s.ctx x).mode

/-- Applies `f` to tile t of the program of cell c. -/
def modTile (c t : Nat) (f : Tile → Tile) (s : State) : State :=
  s.modCell c (fun k => { k with prog := k.prog.map (fun p => { p with tiles := p.tiles.map (fun u => if u.id = t then f u else u) }) })

/-- The tiles of cell c. -/
def tilesOf (s : State) (c : Nat) : List Tile := match (s.cell c).prog with | some p => p.tiles | none => []

/-- Tile t of cell c. -/
def tileAt (s : State) (c t : Nat) : Option Tile := (tilesOf s c).find? (fun u => u.id = t)

/-- The tile of cell c that runs with an op and has not taken its effect. -/
def runningTile (s : State) (c op : Nat) : Option Tile := (tilesOf s c).find? (fun u => u.running && !u.applied && tOp u.desc = op)

/-- The context that a cell's program acts for. -/
def cellCtx (s : State) (c : Nat) : Nat := match (s.cell c).prog with | some p => p.ctx | none => (s.cell c).ctx

/-- What an op leaves: the state, the tile's status, its status words and its quantiser counts. -/
structure Done where
  s     : State
  st    : Nat := 0
  word0 : BitVec 32 := 0
  word1 : BitVec 32 := 0
  q     : QCounts := {}

/-! ## Uncorrectable words (R147) -/

/-- The detail of classes 0x03 and 0x04 (R416). -/
def eccDetail (c store a : Nat) : Bytes := le 1 c ++ le 1 store ++ le 4 a

/-- The SECDED code finds single-bit errors and uncorrectable words among the words a tile reads: the former are corrected, counted
and recorded, the latter stand until they are written whole. The cell whose store it is counts them. -/
def eccFind (c x : Nat) (reads : List (Nat × Nat)) (slots : List (Nat × Nat × Nat)) (hits : List EccHit) (s : State) : State :=
  hits.foldl (fun t h =>
    let k := h.other.getD c
    let a := h.addr / 8 * 8
    let seen := if h.store = 0 then reads.any (meets (spAddr k a, 8)) else h.store = 1 && slots.any (fun e => e.1 = k && meets (a, 8) e.2)
    if !seen then t
    else if h.double then t.modCell k (fun u => { u with bad := if u.bad.contains (h.store, a) then u.bad else (h.store, a) :: u.bad })
    else logError 0x03 (k / 32) k (some x) 0 (eccDetail k h.store a) (t.modCell k (fun u => { u with cor := bump u.cor 1 }))) s

/-- The uncorrectable words that a tile of cell c meets: owner, store, word address. -/
def badMet (s : State) (reads : List (Nat × Nat)) (slots : List (Nat × Nat × Nat)) : List (Nat × Nat × Nat) :=
  (reads.flatMap (fun i => match areaOf s i.1 with
    | .window k off => (badIn s k off i.2).map (fun w => (k, w.1, w.2))
    | _ => []) ++
   slots.flatMap (fun e => ((s.cell e.1).bad.filter (fun w => w.1 = 1 && meets (w.2, 8) e.2)).map (fun w => (e.1, w.1, w.2)))).eraseDups

/-- Each uncorrectable word read is counted and recorded. -/
def eccCount (x : Nat) (ws : List (Nat × Nat × Nat)) (s : State) : State :=
  ws.foldl (fun t w => logError 0x04 (w.1 / 32) w.1 (some x) stMem (eccDetail w.1 w.2.1 w.2.2)
    (t.modCell w.1 (fun k => { k with unc := bump k.unc 1 }))) s

/-- The frame of an op: what the code finds on the words it reads, MEM_UNCORRECTABLE when it meets a word that cannot be read, PERMISSION when a
window it names is the context's no longer (R547), else its effect; the tile keeps what the effect leaves for its record. -/
def applyTile (plan : State → Nat → Nat → Tile → Option Plan) (eff : Nat → Nat → Tile → State → Done) (op c : Nat) (hits : List EccHit)
    (s : State) : State :=
  match runningTile s c op with
  | none => s
  | some t =>
    let x := cellCtx s c
    match plan s c x t with
    | none => s
    | some p =>
      let s := eccFind c x p.reads p.slots hits s
      let bad := badMet s p.reads p.slots
      let d : Done := if !p.open_ s x then { s := s, st := stPerm }
        else if !bad.isEmpty then { s := eccCount x bad s, st := stMem }
        else if anyBad s p.reads then { s := p.reads.foldl (fun u i => notePoison u i.1 i.2) s, st := stMem }
        else eff c x t s
      modTile c t.id (fun u => { u with applied := true, status := d.st, word0 := d.word0, word1 := d.word1, q := d.q }) d.s

/-! ## The accumulator store (R99, R104, R122)

Fast slot j holds its entry e at position 65,536 j + e of the store; Grid slot j holds it at the three positions from
196,608 j + 3 e on (log entry 24). A position is 4 bytes of the raw view; the status store holds 4 bits for each. -/

/-- First position of entry e of a slot. -/
def accPos (grid : Bool) (slot e : Nat) : Nat := if grid then 196608 * slot + 3 * e else 65536 * slot + e

/-- Address of a position in the raw view of cell c. -/
def accAddr (c pos : Nat) : Nat := cellWin c + 0x400000 + 4 * pos

/-- The special-state bits of a position. -/
def accSt (s : State) (c pos : Nat) : BitVec 4 :=
  BitVec.ofNat 4 (ofLe (peek s (cellWin c + 0x580000 + pos / 2) 1) / (if pos % 2 = 1 then 16 else 1))

/-- Writes the special-state bits of a position. -/
def accSetSt (s : State) (c pos : Nat) (st : BitVec 4) : State :=
  let a := cellWin c + 0x580000 + pos / 2
  let b := ofLe (peek s a 1)
  poke s a (le 1 (if pos % 2 = 1 then b % 16 + 16 * st.toNat else b / 16 * 16 + st.toNat))

/-- A Fast entry. -/
def getFast (s : State) (c slot e : Nat) : FastEnt :=
  let p := accPos false slot e
  { p := ofLe (peek s (accAddr c p) 4), st := accSt s c p }

/-- Writes a Fast entry. -/
def putFast (c slot e : Nat) (v : FastEnt) (s : State) : State :=
  let p := accPos false slot e
  accSetSt (poke s (accAddr c p) (le 4 v.p)) c p v.st

/-- A Grid entry; its anchor is the group's. -/
def getGrid (s : State) (c slot e : Nat) (a : Option Int) : Grid :=
  let p := accPos true slot e
  { word := toSigned 96 (ofLe (peek s (accAddr c p) 12)), st := accSt s c p, a := a }

/-- Writes a Grid entry. -/
def putGrid (c slot e : Nat) (v : Grid) (s : State) : State :=
  let p := accPos true slot e
  accSetSt (poke s (accAddr c p) (le 12 (ofSigned 96 v.word))) c p v.st

/-- What the first n entries of a slot of cell c take of the accumulator store and, behind it, of the status store: cell, offset from the
raw view, length. -/
def slotWords (c : Nat) (grid : Bool) (slot n : Nat) : List (Nat × Nat × Nat) :=
  let lo := accPos grid slot 0
  let k := if grid then 3 * n else n
  if n = 0 then [] else [(c, 4 * lo, 4 * k), (c, 0x180000 + lo / 2, (k + 1) / 2)]

/-- Sets every entry of a slot to +0 with no special state, which makes its uncorrectable words correct (R105, R147). -/
def clearSlot (grid : Bool) (c slot : Nat) (s : State) : State :=
  let ws := slotWords c grid slot 65536
  let s := { s with mem := ws.foldl (fun (m : List Host.Cell) (w : Nat × Nat × Nat) => memZero m (cellWin c + 0x400000 + w.2.1) w.2.2) s.mem }
  s.modCell c (fun k => { k with bad := k.bad.filter (fun w => !(w.1 = 1 && ws.any (fun e => meets (w.2, 8) e.2))) })

/-- The group open in a slot of a mode. -/
def groupOf (s : State) (c : Nat) (grid : Bool) (slot : Nat) : Option Group :=
  (((s.cell c).groups.find? (fun g => g.1 = slot && g.2.grid = grid)).map (·.2))

/-- The half of the store that a slot lies in (R104). -/
def halfOf (grid : Bool) (slot : Nat) : Nat := if grid then slot else slot / 3

/-- An open group of the other mode lies in the slot's half (R105). -/
def halfTaken (s : State) (c : Nat) (grid : Bool) (slot : Nat) : Bool :=
  (s.cell c).groups.any (fun g => g.2.grid ≠ grid && halfOf g.2.grid g.1 = halfOf grid slot)

/-- The words of the entries of the group open in a slot. -/
def groupWords (s : State) (c : Nat) (grid : Bool) (slot : Nat) : List (Nat × Nat × Nat) :=
  match groupOf s c grid slot with
  | some g => slotWords c grid slot (g.mLen * g.nLen) ++ (if g.tmode = 1 then slotWords (c + 1) grid slot (g.mLen * g.nLen) else [])
  | none => []

/-- Opens or replaces a group. -/
def putGroup (c : Nat) (slot : Nat) (g : Group) (s : State) : State :=
  s.modCell c (fun k => { k with groups := (k.groups.filter (fun e => !(e.1 = slot && e.2.grid = g.grid))) ++ [(slot, g)] })

/-- Releases a slot. -/
def dropGroup (c : Nat) (grid : Bool) (slot : Nat) (s : State) : State :=
  s.modCell c (fun k => { k with groups := k.groups.filter (fun e => !(e.1 = slot && e.2.grid = grid)) })

/-- The anchor of output (m, n) of a group (R91, R103). -/
def Group.anchorAt (g : Group) (m n : Nat) : Option Int :=
  if g.cbound then some g.anchor
  else match g.ba.getD m none, g.bb.getD n none with
    | some a, some b => some (a + b + 5)
    | some _, none => none
    | none, _ => none

end Sys2Proof.Machine
end

