-- ==== Sys2Proof/Machine/Line.lean ====
section
/-! DEFINITION. Machine/Line.lean: the step line (R234 to R263): phases, votes, the barrier, loss, the scale-ledger header and the
bytes of a ledger record. The rows that move it stand in StepLine. -/
namespace Sys2Proof.Machine

/-! ## The scale-ledger header (R245) -/

/-- The 64 header bytes. -/
def hdr64 (h : ScaleHdr) : Bytes :=
  le 2 (ofSigned 16 h.ls) ++ le 2 (ofSigned 16 h.lsMin) ++ le 2 (ofSigned 16 h.lsMax) ++ [BitVec.ofNat 8 h.lsUp, BitVec.ofNat 8 h.lsDown]
    ++ le 4 h.clean ++ le 4 h.raiseInt ++ [BitVec.ofNat 8 h.xInit, BitVec.ofNat 8 h.gbiWidth] ++ le 2 h.nShares
    ++ le 2 (ofSigned 16 h.lsInit) ++ zeros 2 ++ le 8 h.step ++ le 8 h.breakStep ++ le 8 h.dataPos ++ zeros 16

/-- The header that 64 bytes spell. -/
def hdrOf (b : Bytes) : ScaleHdr :=
  { ls := toSigned 16 (leAt b 0 2), lsMin := toSigned 16 (leAt b 2 2), lsMax := toSigned 16 (leAt b 4 2), lsUp := leAt b 6 1,
    lsDown := leAt b 7 1, clean := leAt b 8 4, raiseInt := leAt b 12 4, xInit := leAt b 16 1, gbiWidth := leAt b 17 1,
    nShares := leAt b 18 2, lsInit := toSigned 16 (leAt b 20 2), step := leAt b 24 8, breakStep := leAt b 32 8, dataPos := leAt b 40 8 }

/-- The header created from the numerics plate of a job, at a step and data position (R245, R264). -/
def hdrNew (j : Job) (step dataPos : Nat) : ScaleHdr :=
  { ls := j.lsInit, lsMin := j.lsMin, lsMax := j.lsMax, lsUp := j.lsUp, lsDown := j.lsDown, clean := 0, raiseInt := j.raiseInt,
    xInit := j.xInit, gbiWidth := j.gbiWidth, nShares := j.nShares, lsInit := j.lsInit, step := step, dataPos := dataPos }

/-- The header with which a context's step line starts: the one that the runtime has loaded for the job, or with none, one created from its numerics
plate at the data position that the runtime supplies (R245, R264, R269; log entry 73). -/
def hdrStart (j : Job) (tag : Nat) : ScaleHdr :=
  match Config.loadedHeader tag j.epoch with
  | some b => hdrOf b
  | none => hdrNew j 0 (Config.dataPos tag)

/-- The loss scale after an outcome (R250): the header, and the flags ls_raised, ls_lowered, ls_floor. -/
def adaptLs (o : Outc) (h : ScaleHdr) : ScaleHdr × Bool × Bool × Bool :=
  match o with
  | .committed =>
    if h.clean + 1 < h.raiseInt then ({ h with clean := h.clean + 1 }, false, false, false)
    else
      let l := min (h.ls + h.lsUp) h.lsMax
      ({ h with ls := l, clean := 0 }, decide (l ≠ h.ls), false, false)
  | .skipped =>
    if h.lsMin < h.ls then ({ h with ls := max (h.ls - h.lsDown) h.lsMin, clean := 0 }, false, true, false)
    else ({ h with clean := 0 }, false, false, true)
  | .rediscovery => ({ h with ls := h.lsInit, clean := 0 }, false, false, false)
  | .abandoned => (h, false, false, false)
  | .verified => (h, false, false, false)

/-- Δ, the shift of every exponent byte (R247, R250). -/
def lsDelta (o : Outc) (h : ScaleHdr) : Int :=
  match o with
  | .committed => (adaptLs o h).1.ls - h.ls
  | .skipped => (adaptLs o h).1.ls - h.ls
  | .rediscovery => 0
  | .abandoned => 0
  | .verified => 0

/-- The header as it stands after step s (R236, R245, R250, R266). -/
def hdrAfter (o : Outc) (s : Nat) (h : ScaleHdr) : ScaleHdr :=
  let n := (adaptLs o h).1
  match o with
  | .committed => { n with step := s, dataPos := h.dataPos + 1 }
  | .skipped => { n with step := s, dataPos := h.dataPos + 1 }
  | .rediscovery => { n with step := s, breakStep := s }
  | .abandoned => h
  | .verified => h

/-- Outcome codes (R236). -/
def outCode : Outc → Nat
  | .committed => 0
  | .skipped => 1
  | .abandoned => 2
  | .rediscovery => 3
  | .verified => 4

/-! ## Slots (R327, R328) -/

/-- The slot size in parameters. -/
def slotSize (j : Job) : Nat := 32 * ((j.pTotal + 131071) / 131072)

/-- Parameters that slot i holds. -/
def slotCount (j : Job) (i : Nat) : Nat := min ((i + 1) * slotSize j) j.pTotal - min (i * slotSize j) j.pTotal

/-- Gradient blocks that slot i holds. -/
def slotBlocks (j : Job) (i : Nat) : Nat := (slotCount j i + 31) / 32

/-- Bytes of a sum (R328). -/
def sumWidth (j : Job) : Nat := if j.gbiWidth = 24 then 5 else 4

/-- The job of a context; the default when it has none. -/
def jobOf (s : State) (x : Nat) : Job := (s.ctx x).job.getD {}

/-- The member index of this device in the job of context x. -/
def myMember (s : State) (x : Nat) : Nat := (memberOf (jobOf s x) s.plate.devIndex).getD 0

/-- The slots that a member holds and that hold parameters, ascending. -/
def slotsOf (j : Job) (m : Nat) : List (Nat × SlotEnt) :=
  j.slots.zipIdx.filterMap (fun e => if e.1.member = m && decide (slotCount j e.2 ≠ 0) then some (e.2, e.1) else none)

/-- Every slot of a member, those without parameters too. -/
def allSlots (j : Job) (m : Nat) : List (Nat × SlotEnt) :=
  j.slots.zipIdx.filterMap (fun e => if e.1.member = m then some (e.2, e.1) else none)

/-- The slots of this device in the job of context x. -/
def mySlots (s : State) (x : Nat) : List (Nat × SlotEnt) := slotsOf (jobOf s x) (myMember s x)

/-- First global block index of slot i. -/
def slotFirst (j : Job) (i : Nat) : Nat := i * (slotSize j / 32)

/-- Address of the flag plane of a slot: directly after its last sum (R328). -/
def flagPlane (j : Job) (i : Nat) (e : SlotEnt) : Nat := e.grad + 32 * sumWidth j * slotBlocks j i

/-- The delivered nibbles of a slot; none where a pair of the plane is poisoned (R241). -/
def slotNibbles (s : State) (j : Job) (i : Nat) (e : SlotEnt) : Option (List Nat) :=
  (readMem s (flagPlane j i e) ((slotBlocks j i + 1) / 2)).map (fun bs =>
    (List.range (slotBlocks j i)).map (fun b => leAt bs (b / 2) 1 / (if b % 2 = 1 then 16 else 1) % 16))

/-- Blocks of this device's slots. -/
def myBlocks (s : State) (x : Nat) : Nat := ((mySlots s x).map (fun e => slotBlocks (jobOf s x) e.1)).sum

/-! ## Phases (R234, R235, R395) -/

/-- Moves the step line to a phase: the clocks of the phase left are counted, and the PHASE trace point is written. -/
def enterPhase (x : Nat) (ph : Phase) (s : State) : State :=
  let sl := s.sl x
  let spent := s.clk - sl.phaseClk
  let old := phaseCode sl.phase
  let s := s.modSl x (fun l => { l with phase := ph, phaseClk := s.clk,
                                        phaseUs := if old ≤ 6 then modAt l.phaseUs (old - 1) (· + spent) else l.phaseUs })
  ffTrace 0x0005 18 (myMember s x) (some x) ([BitVec.ofNat 8 old] ++ le 4 (usOf spent)) s

/-- Raw Grid entry bytes (R106). -/
def gridBytes (g : Grid) : Bytes := le 12 (ofSigned 96 g.word) ++ [BitVec.ofNat 8 g.st.toNat, 0] ++ le 2 (ofSigned 16 (anchorOf g.a))

/-- The Grid entry that 16 bytes spell. -/
def gridOf (b : Bytes) : Grid :=
  { word := toSigned 96 (leAt b 0 12), st := BitVec.ofNat 4 (leAt b 12 1), a := anchorFrom (toSigned 16 (leAt b 14 2)) }

/-! ## The record (R255 to R257) -/

/-- The statistics of one layer: FP32 patterns of G, D, W and the ratio, and the special and valid bits (R257, R262). -/
def layerStats (l : LayerAcc) : Nat × Nat × Nat × Nat × Bool × Bool :=
  let f := fun (g : Grid) => enc32 (resolve false g.st (gridVal g))
  let special := decide (l.g.st ≠ 0) || decide (l.d.st ≠ 0) || decide (l.w.st ≠ 0)
  let valid := !special && vLt vZero (dec32 (f l.w)) && !(dec32 (f l.w)).isNan
  (f l.g, f l.d, f l.w, if valid then sfn 1 (fMul (f l.d) (sfn 0 (f l.w))) else 0, special, valid)

/-- A layer entry (R257); zero but for its identity when the statistics are not valid (R256). -/
def layerBytes (stats : Bool) (l : LayerAcc) : Bytes :=
  let t := layerStats l
  let head := le 2 l.layer
  if stats then
    head ++ le 2 (b2n t.2.2.2.2.2 + 2 * b2n t.2.2.2.2.1 + 4 * b2n l.mixed) ++ le 2 (ofSigned 16 l.aStat) ++ zeros 2
      ++ le 4 t.2.2.2.1 ++ le 4 t.1 ++ le 4 t.2.1 ++ le 4 t.2.2.1 ++ zeros 8
  else zeros 32

/-- The gradient-noise estimate (R263): g2, s, bn. -/
def noiseOf (n batch q gB2 : Nat) : Nat × Nat × Nat :=
  let fN := enc32 (ofInt n 0)
  let fB := enc32 (ofInt batch 0)
  let rb := sfn 0 fB
  let gb2 := fMul (fMul fN (fMul rb rb)) q
  let d := sfn 0 (fSub fN 0x3F800000)
  let g2 := fMul (fSub (fMul fN gB2) gb2) d
  let sv := fMul (fMul fB (fSub gb2 gB2)) d
  (g2, sv, fMul sv (sfn 0 g2))

/-- The highest temperatures of the step by die kind: compute, memory, link, hub, tier (R255). -/
def kindTemps (s : State) : List Int :=
  [[0, 1, 2, 3, 4, 5, 6, 7], [8, 9, 10, 11, 12, 13, 14, 15], [16, 17], [18], [19]].map
    (fun ds => ds.foldl (fun t d => max t (hottest s d)) (-32768))

/-- The context's quantiser counters over every cell (R144, R251). -/
def localCounts (s : State) (x : Nat) : List Nat :=
  let sums := s.cells.map (fun c => let e := c.2.qsum.get (0, 0, 0, 0, 0) x
                                    [e.1.toNat, e.2.1.toNat, e.2.2.1.toNat, e.2.2.2.1.toNat, e.2.2.2.2.toNat])
  sums.foldl (fun a b => List.zipWith (· + ·) a b) [0, 0, 0, 0, 0]

/-- Clears them, as LEDGER does. -/
def clearCounts (x : Nat) (s : State) : State := { s with cells := s.cells.map (fun c => (c.1, { c.2 with qsum := c.2.qsum.erase x })) }

/-- Replaces the bytes from offset i. -/
def patch (bs : Bytes) (i : Nat) (new : Bytes) : Bytes := bs.take i ++ new ++ bs.drop (i + new.length)

/-- The interval K of the job's coded state; 0 without coding groups (R397). -/
def parityK (j : Job) : Nat := match parityEntry j with | some e => e.period | none => 0

/-- The stages that a member runs, in ascending order: member (r, k, q) is rank k, and stage t runs on rank t mod grid_p (R322, R331). -/
def stagesOf (j : Job) (m : Nat) : List Nat :=
  (List.range j.stages.length).filter (fun t => t % max 1 j.gridP = m / max 1 j.gridT % max 1 j.gridP)

/-- The stage to which a tile of a job belongs (R331, R334; log entry 102). -/
def stageOfTile (j : Job) (t : Tile) : Nat := Config.tileStage j.jobTag (tTag t.desc)

/-- A cell of the member runs a tile of the stage (R334). -/
def stageRuns (s : State) (x g : Nat) : Bool :=
  s.cells.any (fun e => cellCtx s e.1 = x && (tilesOf s e.1).any (fun t => t.running && stageOfTile (jobOf s x) t = g))

/-- The bubble of a stage as it stands after a change: it counts while a tile of the stage has started before, none runs and one waits. -/
def Bubble.settle (b : Bubble) (runs : Bool) (clk : Nat) : Bubble :=
  match b.since, b.started && !runs && !b.waiting.isEmpty with
  | none, true => { b with since := some clk }
  | some c, false => { b with since := none, clocks := b.clocks + (clk - c) }
  | _, _ => b

/-- Changes the bubble of a stage of the open step, and settles it (R334). -/
def onBubble (x g : Nat) (f : Bubble → Bubble) (s : State) : State :=
  if (s.ctx x).job.isNone then s
  else s.modSl x (fun l =>
    let b := (f ((l.bubbles.find? (fun b => b.stage = g)).getD { stage := g })).settle (stageRuns s x g) s.clk
    { l with bubbles := b :: l.bubbles.filter (fun b => b.stage ≠ g) })

/-- A tile waits for a unit of its semaphore. -/
def bubbleWait (x c : Nat) (t : Tile) (s : State) : State :=
  onBubble x (stageOfTile (jobOf s x) t) (fun b => { b with waiting := if b.waiting.any (fun w => w.1 = c && w.2.1 = t.id) then b.waiting else b.waiting ++ [(c, t.id, s.clk)] }) s

/-- A tile of a job that has waited for a credit is traced as it starts: stage, share and time (R411). -/
def traceCredit (x c : Nat) (t : Tile) (s : State) : State :=
  let g := stageOfTile (jobOf s x) t
  match ((s.ctx x).job.bind (fun _ => (s.sl x).bubbles.find? (fun b => b.stage = g))).bind (fun b => b.waiting.find? (fun w => w.1 = c && w.2.1 = t.id)),
      Config.creditShare (s.ctx x).jobTag (tTag t.desc) (tWait t.desc) with
  | some w, some share => ffTrace 0x000B (c / 32) g (some x) (le 2 share.toNat ++ le 4 (usOf (s.clk - w.2.2))) s
  | _, _ => s

/-- A tile has started. -/
def bubbleStart (x c : Nat) (t : Tile) (s : State) : State :=
  onBubble x (stageOfTile (jobOf s x) t) (fun b => { b with started := true, waiting := b.waiting.filter (fun w => !(w.1 = c && w.2.1 = t.id)) })
    (traceCredit x c t s)

/-- A tile has completed. -/
def bubbleEnd (x : Nat) (t : Tile) (s : State) : State := onBubble x (stageOfTile (jobOf s x) t) id s

/-- The bubbles field: one entry for each stage of the member, the rest unused (R255, R334). -/
def bubbleBytes (j : Job) (m : Nat) (bs : List Bubble) : Bytes :=
  ((List.range 16).map (fun i => match (stagesOf j m)[i]? with
    | some t => le 2 t ++ zeros 2 ++ le 4 (usOf ((bs.find? (fun b => b.stage = t)).getD { stage := t }).clocks)
    | none => le 2 0xFFFF ++ zeros 6)).flatten

/-- Uniform mode holds for a stage: its policy is the job's strongest, RECOMPUTE before OFFLOAD before KEEP; else its own (R335, R336). -/
def stagePolicy (j : Job) (uniform : Bool) (t : Nat) : Nat := if uniform then j.actPolicy.foldl max 0 else j.actPolicy.getD t 0

/-- The credits of an inter-stage queue: one in uniform mode (R333, R336). -/
def queueCredits (j : Job) (uniform : Bool) (i : Nat) : Nat := if uniform then 1 else j.credits.getD i 1

/-- A record (R255) with outcome and status, its digests, wait and CRC still zero. `stats` is stats_valid. -/
def recordOf (s : State) (x : Nat) (o : Outc) (status : Nat) (stats : Bool) : Bytes :=
  let c := s.ctx x
  let sl := c.sl
  let j := jobOf s x
  let layers : List LayerAcc := sl.table.map (fun t =>
    (sl.layerTot.find? (fun l => l.layer = t.1)).getD { layer := t.1, aStat := t.2 })
  let st := layers.map layerStats
  let shown := stats && decide (o ≠ .verified)
  let addUp := fun (f : Nat × Nat × Nat × Nat × Bool × Bool → Nat) => if shown then st.foldl (fun a t => fAdd a (f t)) 0 else 0
  let gn := addUp (·.1)
  let dn := addUp (·.2.1)
  let wn := addUp (·.2.2.1)
  let tot := if shown then sl.totals.getD {} else {}
  let noise : Nat × Nat × Nat × Bool :=
    match sl.qGrid with
    | none => (0, 0, 0, false)
    | some g =>
      if !shown || j.nShares < 2 then (0, 0, 0, false)
      else
        let r := noiseOf j.nShares sl.batch (enc32 (resolve false g.st (gridVal g))) gn
        let pos := fun (p : Nat) => vLt vZero (dec32 p) && !(dec32 p).isNan
        (r.1, r.2.1, r.2.2, decide (o = .committed) && sl.qStepOk && decide (g.st = 0) && pos r.1 && pos r.2.1)
  let flags := b2n (decide (sl.kind = .rediscovery)) + 2 * b2n j.replay + 4 * b2n sl.thermal
    + 8 * b2n (match sl.lastRecEpoch with | some e => decide (e ≠ sl.epoch) | none => false)
    + 16 * b2n sl.lsRaised + 32 * b2n sl.lsLowered + 64 * b2n sl.lsFloor + 128 * b2n noise.2.2.2 + 256 * b2n stats
    + 1024 * b2n (if stats then sl.fastAll else sl.fastUsed) + 4096 * b2n (if stats then sl.unknownAll else sl.unknownLayer)
  let n := sl.table.length
  let spent := modAt sl.phaseUs (phaseCode sl.phase - 1) (· + (if phaseCode sl.phase ≤ 6 then s.clk - sl.phaseClk else 0))
  let temps := List.zipWith max sl.tMax (kindTemps s)
  le 4 0x524C4659 ++ le 2 1 ++ le 2 n ++ le 4 (1024 + 32 * n) ++ le 4 sl.epoch ++ le 8 sl.step ++ le 8 sl.hdr.dataPos ++ le 4 c.jobTag
    ++ le 2 (myMember s x) ++ [BitVec.ofNat 8 x, BitVec.ofNat 8 (outCode o)] ++ le 4 flags ++ [BitVec.ofNat 8 status, 0, 0, 0]
    ++ zeros 192 ++ le 2 (ofSigned 16 sl.lsPrev) ++ le 2 (ofSigned 16 sl.hdr.ls) ++ le 4 sl.hdr.clean
    ++ le 8 tot.overflow ++ le 8 tot.nonfinite ++ le 8 tot.raised ++ le 8 tot.lowered ++ le 8 tot.zeroSum
    ++ le 4 gn ++ le 4 dn ++ le 4 wn ++ le 4 noise.1 ++ le 4 noise.2.1 ++ le 4 noise.2.2.1
    ++ ((localCounts s x).map (fun v => le 8 v)).flatten
    ++ le 4 (min sl.soldierN 0xFFFFFFFF) ++ le 4 (min sl.soldierBad 0xFFFFFFFF) ++ le 2 (score s.hub)
    ++ [BitVec.ofNat 8 (healthCode s.hub.health), BitVec.ofNat 8 (sl.pcap.toNat ||| pcapNow s)]
    ++ (temps.map (fun t => le 2 (ofSigned 16 t))).flatten ++ zeros 2 ++ le 4 (sl.tStale.toNat ||| staleMask s)
    ++ le 4 sl.gateEv ++ le 4 sl.droopEv ++ (spent.map (fun v => le 4 (usOf v))).flatten ++ zeros 4
    ++ bubbleBytes j (myMember s x) sl.bubbles
    ++ le 8 (if parityK j = 0 then 0xFFFFFFFFFFFFFFFF else sl.parityStep) ++ [BitVec.ofNat 8 (parityK j)] ++ zeros 463 ++ zeros 8
    ++ (layers.map (layerBytes stats)).flatten

/-- The record of the open step is formed and waits to be written; the step line goes IDLE (R235, R254). -/
def closeStep (x : Nat) (o : Outc) (status : Nat) (stats fp : Bool) (s : State) : State :=
  let sl := s.sl x
  let rec_ := recordOf s x o status (stats && !sl.lost)
  let bare := recordOf s x o status false
  let s := enterPhase x .idle (clearCounts x s)
  s.modSl x (fun l => { l with
    isOpen := false, cur := some o, status := status,
    pend := l.pend ++ [{ epoch := sl.epoch, step := sl.step, outcome := o, bytes := rec_, base := (s.ctx x).ledger, cap := sl.capacity,
                         slot := 1024 * ((1024 + 32 * sl.table.length + 1023) / 1024), fp := fp, bare := bare }] })

/-! ## Votes and the barrier (R235, R241 to R243, R313) -/

/-- Completes the commands of the context that are bound to a position and have not completed (R235). -/
def endBound (x epoch step st : Nat) (s : State) : State :=
  s.queues.foldl (fun t e =>
    if e.2.ctx = x then
      e.2.flight.foldl (fun u c =>
        if c.status.isNone && cBound c.bytes && decide (cEpoch c.bytes = epoch) && decide (cStep c.bytes = step) then
          finishCmd e.1 c.idx st 0 0 u else u) t
    else t) s

/-- The barrier command completes with a status and its decision code (R235, R367). -/
def endBarrier (x st code : Nat) (s : State) : State :=
  match (s.sl x).barrierCmd with
  | some (q, k) => finishCmd q k st 0 code (s.modSl x (fun l => { l with barrierCmd := none }))
  | none => s

/-- The step is abandoned (R235, R236, R237): by the barrier, or by a loss before it. -/
def abandonStep (x st : Nat) (byBarrier : Bool) (s : State) : State :=
  let sl := s.sl x
  let s := endBarrier x st (if byBarrier then 3 else 0) s
  let s := if byBarrier then s.modSl x (fun l => { l with decision := some (.abandon st) })
           else endBound x sl.epoch sl.step st s
  let s := s.modSl x (fun l => { l with dead := if byBarrier then l.dead else (sl.epoch, sl.step) :: l.dead })
  closeStep x .abandoned st false false s

/-- UPDATE begins once the barrier has decided to go on, the record of the step before is written, its refresh is complete, and the control block
has been read for the step (R235, R253, R254, R399). -/
def tryUpdate (x : Nat) (s : State) : State :=
  let sl := s.sl x
  if sl.phase ≠ .commit || !sl.pend.isEmpty || !sl.refreshed || !sl.qRead then s
  else match sl.decision with
    | some .update => enterPhase x .update (s.modSl x (fun l => { l with cur := some .committed }))
    | some .skip => enterPhase x .update (s.modSl x (fun l => { l with cur := some .skipped }))
    | some .rediscover => enterPhase x .update (s.modSl x (fun l => { l with cur := some .rediscovery }))
    | some (.abandon _) => s
    | none => s

/-- The decision of a set of votes, in the order of R242. -/
def decideVotes (kind : StepKind) (vs : List Vote) : Decision :=
  match sortBy (fun (a b : Vote) => decide (a.member < b.member)) (vs.filter (fun v => v.vote = 2)) with
  | v :: _ => .abandon v.status
  | [] =>
    if vs.any (fun v => decide (v.check ≠ (vs.head?.map (·.check)).getD [])) then .abandon stInternal
    else if kind = .rediscovery then .rediscover
    else if vs.any (fun v => v.vote = 1) then .skip
    else .update

/-- The code of a decision in completions and events (R367). -/
def decCode : Decision → Nat
  | .update => 0
  | .skip => 1
  | .rediscover => 2
  | .abandon _ => 3

/-- The votes held for the present position. -/
def votesNow (sl : StepLine) : List Vote := sl.votes.filter (fun v => v.epoch = sl.epoch && v.step = sl.step)

/-- The barrier decides when the device holds the vote of every member (R242). -/
def tryDecide (x : Nat) (s : State) : State :=
  let sl := s.sl x
  let vs := votesNow sl
  if sl.phase ≠ .commit || sl.decision.isSome
      || !((List.range (jobOf s x).members.length).all (fun m => vs.any (fun v => v.member = m))) then s
  else
    let d := decideVotes sl.kind vs
    let st := match d with | .abandon st => st | .skip => stFlagged | .update => stOk | .rediscover => stOk
    let s := ffEvent 0x0110 1 18 (myMember s x) (some x) [BitVec.ofNat 8 (decCode d), BitVec.ofNat 8 (if decCode d = 3 then st else 0)] s
    match d with
    | .abandon st => abandonStep x st true s
    | .skip => tryUpdate x (endBarrier x stFlagged 1 (s.modSl x (fun l => { l with decision := some d })))
    | .update => tryUpdate x (endBarrier x stOk 0 (s.modSl x (fun l => { l with decision := some d })))
    | .rediscover => tryUpdate x (endBarrier x stOk 2 (s.modSl x (fun l => { l with decision := some d })))

/-- header_check: bytes 0 to 7 of the SHA-512 of the header (R241). -/
def headerCheck (h : ScaleHdr) : Bytes := (sha512 (hdr64 h)).take 8

/-- The vote of this device and its status (R241, R442): FAIL after a command failure, an unreadable nibble or a soldier verdict;
NONFINITE when a delivered nibble has nonfinite set; else READY. -/
def myVote (s : State) (x : Nat) : Nat × Nat :=
  let sl := s.sl x
  let j := jobOf s x
  match sl.failSt with
  | some st => (2, st)
  | none =>
    if sl.soldierFail then (2, stSdc)
    else if sl.kind = .rediscovery then (0, 0)
    else
      let ns := (mySlots s x).map (fun e => slotNibbles s j e.1 e.2)
      if ns.any Option.isNone then (2, stMem)
      else if ns.any (fun o => (o.getD []).any (fun n => bit n 1)) then (1, 0)
      else (0, 0)

/-- The 32 body bytes of a VOTE (R313). -/
def voteBody (v : Vote) : Bytes :=
  le 4 v.epoch ++ le 8 v.step ++ le 2 v.member ++ [BitVec.ofNat 8 v.vote, BitVec.ofNat 8 v.status] ++ v.check ++ zeros 8

/-- The device sends its vote to every member once nothing holds it back: every sample of the step has a verdict (R442) and the
generation of a refresh step before is COMPLETE (R459). -/
def trySendVote (x : Nat) (s : State) : State :=
  let sl := s.sl x
  if sl.phase ≠ .commit || sl.ownVote || decide (sl.soldierWait ≠ 0) || !sl.refreshed then s
  else
    let vt := myVote s x
    let v : Vote := { member := myMember s x, epoch := sl.epoch, step := sl.step, vote := vt.1, status := vt.2, check := headerCheck sl.hdr }
    let s := s.modSl x (fun l => { l with ownVote := true, votes := v :: l.votes })
    let s := ((jobOf s x).members.filter (fun d => d ≠ s.plate.devIndex)).foldl (fun t d => sendCtl t (some x) d d 1 0 (voteBody v) (.vote x)) s
    tryDecide x s

/-- The hub begins to hold the context for its ring (R253). -/
def beginWait (x : Nat) (s : State) : State :=
  s.modSl x (fun l => { l with waitClk := match l.waitClk with | some c => some c | none => some s.clk })

/-- The hold ends; its clocks count in the next record. -/
def endWait (x : Nat) (s : State) : State :=
  s.modSl x (fun l => { l with waitClk := none, ledgerWait := match l.waitClk with | some c => l.ledgerWait + (s.clk - c) | none => l.ledgerWait })

/-- The ring is out of reach: one INTERNAL record, and the context is held until an access succeeds. -/
def lostRing (x st : Nat) (s : State) : State :=
  let s := if (s.sl x).retrying then s else logInternal 18 (some x) st s
  beginWait x (s.modSl x (fun l => { l with retrying := true }))

/-- q_grid, batch and q_step are read from the control block (R252); while it cannot be read, the next UPDATE is held (R253). -/
def readQ (x : Nat) (s : State) : State :=
  match readFor s x ((s.ctx x).ledger + 0x40) 32 with
  | .ok b => s.modSl x (fun l => { l with qOwn := gridOf (b.take 16), batch := leAt b 16 4, qStep := leAt b 24 8, qRead := true })
  | .error st => lostRing x st (noteRead st ((s.ctx x).ledger + 0x40) 32 s)

/-- Entering COMMIT: the control block is read, and the vote is sent (R235, R241, R252). -/
def enterCommit (x : Nat) (fail : Option Nat) (s : State) : State :=
  tryDecide x (trySendVote x (enterPhase x .commit (readQ x (s.modSl x (fun l => { l with failSt := fail })))))

/-- A command of the context, or a reducing collective of the step, has failed (R235). -/
def failStep (x st : Nat) (s : State) : State :=
  match (s.sl x).phase with
  | .fwd => enterCommit x (some st) s
  | .bwd => enterCommit x (some st) s
  | .reduce => enterCommit x (some st) s
  | .commit => s
  | .update => s
  | .ledger => s
  | .idle => s

/-- Every summed block of the device's slots has been delivered: the device enters COMMIT (R235). -/
def tryCommit (x : Nat) (s : State) : State :=
  let sl := s.sl x
  let got := if sl.kind = .rediscovery then sl.smax.length else sl.summed.length
  if sl.phase = .reduce && decide (got ≥ myBlocks s x) then enterCommit x none s else s

/-! ## The end of LEDGER (R235, R254, R258, R260) -/

/-- The ledger collective has completed or failed: the record's global part is formed and the device goes IDLE. -/
def endLedger (x : Nat) (stats : Bool) (s : State) : State :=
  let sl := s.sl x
  if sl.phase ≠ .ledger then s
  else
    closeStep x (sl.cur.getD .committed) 0 stats (!sl.lost) s

/-- A loss: a member of the job is marked lost, or the barrier times out (R235, R243). -/
def stepLoss (x st : Nat) (s : State) : State :=
  let sl := s.sl x
  match sl.phase with
  | .fwd => abandonStep x st false s
  | .bwd => abandonStep x st false s
  | .reduce => abandonStep x st false s
  | .commit => if sl.decision.isNone then abandonStep x st false s else s
  | .update => s
  | .ledger => endLedger x false (s.modSl x (fun l => { l with lost := true, fpDone := true, digestBad := true }))
  | .idle => if sl.pend.any (·.fp) && !sl.fpDone then s.modSl x (fun l => { l with fpDone := true, digestBad := true }) else s

/-- The contexts of this device whose job has a given device as a member. -/
def ctxsWith (s : State) (dev : Nat) : List Nat :=
  (s.ctxs.filter (fun c => c.2.st ≠ .empty && (match c.2.job with | some j => j.members.contains dev | none => false))).map (·.1)

end Sys2Proof.Machine
end

