-- ==== Sys2Proof/Machine/Matrix.lean ====
section
/-! DEFINITION. Machine/Matrix.lean: MATMUL, BOUND_SCAN, ACC_SPILL, ACC_FILL and ACC_DRAIN: fields, checks, plans and effects
(R77 to R120, R132 to R138, R436 to R440). -/
namespace Sys2Proof.Machine

/-! ## The fields of a matrix tile (R132) -/

/-- The fields of a MATMUL descriptor. -/
structure MatF where
  kTotal : Nat
  kBase  : Nat
  kLen   : Nat
  mLen   : Nat
  nLen   : Nat
  grid   : Bool
  tmode  : Nat
  slot   : Nat
  first  : Bool          -- acc_begin
  last   : Bool          -- acc_end
  cbound : Bool
  redMax : Bool
  redSum : Bool
  boundA : Nat
  boundB : Nat
  anchor : Int
  rsum   : Int
  redAt  : Nat
  q      : Nat
  tab    : Nat
  ofn    : Nat
  ofnAt  : Nat
  deriving DecidableEq, Repr

/-- Reads the fields of R132. In a STRICT_IEEE context acc_mode is ignored (R77). A PACKED_TAIL describes a PACKED sub-tile whatever its
tile_mode says (log entry 89). -/
def matOf (mode : Mode) (d : Bytes) : MatF :=
  { kTotal := fld d 16 10 22, kBase := fld d 17 10 22, kLen := fld d 18 10 22, mLen := fld d 19 24 8 + 1, nLen := fld d 19 16 8 + 1,
    grid := fld d 19 15 1 = 1 && mode ≠ .strictIeee, tmode := if tOp d = 0x15 then 2 else fld d 19 13 2, slot := fld d 19 10 3, first := fld d 19 9 1 = 1,
    last := fld d 19 8 1 = 1, cbound := fld d 19 7 1 = 1, redMax := fld d 19 5 1 = 1, redSum := fld d 19 6 1 = 1,
    boundA := fld d 20 0 22, boundB := fld d 21 0 22, anchor := toSigned 16 (fld d 22 16 16), rsum := toSigned 16 (fld d 22 0 16),
    redAt := fld d 23 0 22, q := w32 d 24, tab := fld d 25 0 22, ofn := w32 d 29, ofnAt := fld d 30 0 22 }

/-- The reserved fields of words 16 to 23. -/
def matZero (d : Bytes) : Bool :=
  fld d 16 0 10 = 0 && fld d 17 0 10 = 0 && fld d 18 0 10 = 0 && fld d 19 0 5 = 0 && fld d 19 13 2 ≠ 3 && fld d 20 22 10 = 0
    && fld d 21 22 10 = 0 && fld d 23 22 10 = 0

/-- The reserved fields of words 24 to 31. -/
def drainZero (d : Bytes) : Bool := fld d 25 22 10 = 0 && fld d 27 16 16 = 0 && fld d 30 22 10 = 0 && fld d 29 0 20 = 0

/-- Row reductions are asked for. -/
def MatF.red (f : MatF) : Bool := f.redMax || f.redSum

/-- Ranges of the fields of a group, in use or not (R77, R118, R117). -/
def groupRange (mode : Mode) (f : MatF) : Bool :=
  decide (1 ≤ f.kTotal) && decide (f.kTotal ≤ 2097152) && decide (f.tmode ≤ 2)
    && decide (f.slot ≤ (if f.grid then 1 else 5))
    && decide (-300 ≤ f.anchor) && decide (f.anchor ≤ 300) && decide (-300 ≤ f.rsum) && decide (f.rsum ≤ 300)
    && f.boundA % 2 = 0 && f.boundB % 2 = 0
    && (match mode with
        | .native => true
        | .strictIeee => f.tmode = 0 && !f.red
        | .kwatil => f.tmode = 0 && !f.grid)

/-- Ranges of the row-sum top and the output function (R77, R134, R141). -/
def outRange (f : MatF) : Bool :=
  decide (-300 ≤ f.rsum) && decide (f.rsum ≤ 300)
    && decide (bits f.ofn 28 4 ≤ 2) && decide (bits f.ofn 24 4 ≤ 2) && !(bits f.ofn 24 4 = 2 && decide (bits f.ofn 20 4 > 0xB))

/-- K range of the tile (R77). -/
def kRange (f : MatF) : Bool :=
  decide (f.kBase < f.kTotal) && f.kBase % 32 = 0 && decide (1 ≤ f.kLen) && decide (f.kBase + f.kLen ≤ f.kTotal)
    && (f.kLen % 32 = 0 || f.kBase + f.kLen = f.kTotal)

/-- Formats of the 8-bit rate on the left (R78). -/
def fmtLeft8 (f : Fmt) : Bool := f = .e4m3 || f = .e5m2 || f = .e4m3b || f = .e5m2b || f = .gbf8
/-- Formats of the 8-bit rate on the right. -/
def fmtRight8 (f : Fmt) : Bool := fmtLeft8 f || f = .gbf4 || f = .e2m1b
/-- Formats of the 16-bit rate. -/
def fmtHalf (f : Fmt) : Bool := f = .bf16 || f = .fp16

/-- Legal operand pairs of a mode (R78, R115, R118). -/
def pairOk (mode : Mode) (a b : Fmt) : Bool :=
  match mode with
  | .native => (fmtLeft8 a && fmtRight8 b) || (fmtHalf a && fmtHalf b)
  | .strictIeee => (a = .fp32 || fmtHalf a) && (b = .fp32 || fmtHalf b)
  | .kwatil => ((fmtLeft8 a && fmtRight8 b) || (fmtHalf a && fmtHalf b)) && !fmtBlocked a && !fmtBlocked b

/-- Positions that a reference covers along K: whole blocks of a blocked format (R81). -/
def kCover (r : Fmt) (k : Nat) : Nat := if fmtBlocked r then alignUp k 32 else k

/-- The operands of a matrix tile on cell c; none is BAD_DESCRIPTOR (R78, R79, R163). -/
def matOperands (c : Nat) (mode : Mode) (d : Bytes) (f : MatF) : Option (TRef × TRef) :=
  match opRef c none false d 16, opRef c none false d 32 with
  | some a, some b =>
    if pairOk mode a.fmt b.fmt && !(fmtBlocked a.fmt && a.cm) && !(fmtBlocked b.fmt && !b.cm)
      && a.shapeOk f.mLen (kCover a.fmt f.kLen) && b.shapeOk (kCover b.fmt f.kLen) f.nLen then some (a, b) else none
  | none, _ => none
  | some _, none => none

/-- The output fields of a tile of cell c: control word and reference, with their ranges but for the shape (R57, R58, R130, R132). `drains`
tells a tile that drains; one that does not may have no pitch in its unused reference. -/
def outFields (c : Nat) (mode : Mode) (d : Bytes) (f : MatF) (drains : Bool) : Option (QCtl × TRef) :=
  match qDecode (mode = .strictIeee) f.q with
  | none => none
  | some q => if outRange f then (opRef c (some q.fmt) (!drains) d 48).map (fun r => (q, r)) else none

/-- The output of a drain on cell c: control word and reference (R57, R58, R132). -/
def matOutput (c : Nat) (mode : Mode) (d : Bytes) (f : MatF) : Option (QCtl × TRef) :=
  (outFields c mode d f true).filter (fun o => o.2.shapeOk f.mLen f.nLen)

/-! ## Plans -/

/-- Clocks of the passes (R148, R168). -/
def passClocks (mode : Mode) (f : MatF) (a b : TRef) : Nat :=
  match mode with
  | .strictIeee => cdiv (f.mLen * f.nLen * f.kLen) 32
  | .native | .kwatil =>
    let p := cdiv f.kLen (if fmtBits a.fmt = 16 then 80 else 160)
    let one := max (if a.aligned then f.mLen else 2 * f.mLen) (if b.aligned then 80 else 160)
    24 + p * (if mode = .kwatil then 16 * one else one)

/-- Clocks of the drain (R148, R168). -/
def drainClocks (m n : Nat) (r : TRef) : Nat :=
  let d := cdiv (m * n * fmtBits r.fmt) 2048
  if r.aligned then d else 2 * d

/-- What a drain reads besides the slot: bias and scale vectors, and the scale table (R132, R134). -/
def drainReads (c : Nat) (f : MatF) (q : QCtl) (r : TRef) (m n : Nat) : List (Nat × Nat) :=
  (match bits f.ofn 28 4 with
   | 1 => [(spAddr c f.ofnAt, 4 * n)]
   | 2 => [(spAddr c f.ofnAt, 4 * n), (spAddr c (f.ofnAt + 1024), 4 * n)]
   | _ => []) ++ (if q.qmode = .agreed then [(spAddr c f.tab, r.blocks m n)] else [])

/-- What a drain writes. -/
def drainWrites (c : Nat) (f : MatF) (r : TRef) (m n : Nat) : List (Nat × Nat) :=
  hull (r.spans m n false) ++ (if f.red then [(spAddr c f.redAt, 32 * m)] else [])

/-- The bound vectors that opening a group reads (R91, R103). -/
def boundReads (c : Nat) (f : MatF) : List (Nat × Nat) :=
  if f.first && f.grid && !f.cbound then [(spAddr c f.boundA, 2 * f.mLen), (spAddr c f.boundB, 2 * f.nLen)] else []

/-- One matrix sub-tile. -/
def subPlan (c : Nat) (mode : Mode) (d : Bytes) : Option (MatF × Plan) :=
  let f := matOf mode d
  if !(tHeadOk d && matZero d && drainZero d && groupRange mode f && kRange f) then none
  else match matOperands c mode d f with
    | none => none
    | some (a, b) =>
      let kx := fun (r : TRef) => kCover r.fmt f.kLen
      let out := if f.last then matOutput c mode d f else none
      if (if f.last then out else outFields c mode d f false).isNone then none
      else
        let dr := match out with | some (q, r) => drainReads c f q r f.mLen f.nLen | none => []
        some (f, {
          array := mode ≠ .strictIeee, vector := mode = .strictIeee,
          ins := hull (a.spans f.mLen (kx a) false) ++ hull (b.spans (kx b) f.nLen false) ++ boundReads c f ++ dr,
          reads := refReads a f.mLen (kx a) false ++ refReads b (kx b) f.nLen false ++ boundReads c f ++ dr,
          outs := match out with | some (_, r) => drainWrites c f r f.mLen f.nLen | none => [],
          slots := if f.first then [] else slotWords c f.grid f.slot (f.mLen * f.nLen),
          clocks := passClocks mode f a b + (match out with | some (_, r) => drainClocks f.mLen f.nLen r | none => 0) })

/-- The cells of a PAIRED tile belong to the context and are present (R108): the odd one is the context's own, or a guest cell that it holds. -/
def pairCells (s : State) (x c : Nat) : Bool :=
  c % 2 = 0 && cellPresent s c && cellPresent s (c + 1)
    && ((s.ctx x).owned.contains (c + 1) || ((s.ctx x).lc && (s.ctx x).guest.contains (c + 1) && (s.cell (c + 1)).ctx = x))

/-- The largest k_total of a PACKED sub-tile, by its own operation (R110). -/
def packedTop (d : Bytes) : Nat := if fld d 4 28 4 = 1 || fld d 4 28 4 = 2 then 32 else 64

/-- The rules of a PACKED pair (R110, R133). -/
def packedOk (h t : MatF) (hd td : Bytes) : Bool :=
  tOp td = 0x15 && tWait td = 0xFFF && tSignal td = 0xFFF && h.mLen = t.mLen && h.grid = t.grid && h.q = t.q && h.ofn = t.ofn
    && decide (h.kTotal ≤ packedTop hd) && decide (t.kTotal ≤ packedTop td) && h.first && h.last && t.first && t.last

/-- The plan of a MATMUL; none is BAD_DESCRIPTOR (R126 row 1). -/
def matPlan (s : State) (c x : Nat) (t : Tile) : Option Plan :=
  let mode := modeOf s x
  match subPlan c mode t.desc with
  | none => none
  | some (f, p) =>
    match f.tmode with
    | 0 => some p
    | 1 => if pairCells s x c then
        some { p with slots := if f.first then [] else p.slots ++ slotWords (c + 1) f.grid f.slot (f.mLen * f.nLen) } else none
    | _ =>
      match subPlan c mode t.tail with
      | none => none
      | some (g, r) =>
        if packedOk f g t.desc t.tail then
          some { p with ins := p.ins ++ r.ins, outs := p.outs ++ r.outs, reads := p.reads ++ r.reads, clocks := max p.clocks r.clocks }
        else none

/-- A group and a tile agree in the fields of R103. -/
def groupFits (g : Group) (f : MatF) : Bool :=
  g.grid = f.grid && g.mLen = f.mLen && g.nLen = f.nLen && g.kTotal = f.kTotal && g.cbound = f.cbound && g.tmode = f.tmode
    && (if f.cbound then g.anchor = f.anchor else g.boundA = f.boundA && g.boundB = f.boundB)

/-- R105 on one cell for one slot. -/
def slotConflict (s : State) (c : Nat) (f : MatF) : Bool :=
  if f.first then (groupOf s c f.grid f.slot).isSome || halfTaken s c f.grid f.slot
  else match groupOf s c f.grid f.slot with
    | none => true
    | some g => !groupFits g f

/-- R105 for a MATMUL. DESIGN CHOICE (log entry 89): the sub-tiles of a PACKED tile that name one slot conflict, since the second would open a
slot with an open group; the spec names no status for it. -/
def matConflict (s : State) (c x : Nat) (t : Tile) : Bool :=
  let mode := modeOf s x
  let f := matOf mode t.desc
  slotConflict s c f || (f.tmode = 1 && slotConflict s (c + 1) f)
    || (f.tmode = 2 && (slotConflict s c (matOf mode t.tail) || (matOf mode t.tail).slot = f.slot))

/-! ## Accumulation -/

/-- The i16 values of a vector as tops. -/
def tops (s : State) (a n : Nat) : List (Option Int) := (List.range n).map (fun i => anchorFrom (toSigned 16 (ofLe (peek s (a + 2 * i) 2))))

/-- The group that a tile opens (R103, R105). -/
def newGroup (s : State) (c : Nat) (f : MatF) : Group :=
  { grid := f.grid, mLen := f.mLen, nLen := f.nLen, kTotal := f.kTotal, cbound := f.cbound, boundA := f.boundA, boundB := f.boundB,
    anchor := f.anchor, tmode := f.tmode,
    ba := if f.grid && !f.cbound then tops s (spAddr c f.boundA) f.mLen else [],
    bb := if f.grid && !f.cbound then tops s (spAddr c f.boundB) f.nLen else [] }

/-- Opens the group of a tile on cell k, from bound vectors of cell c. -/
def openGroup (c k : Nat) (f : MatF) (s : State) : State := putGroup k f.slot (newGroup s c f) (clearSlot f.grid k f.slot s)

/-- The operand positions of local chunk j for output (m, n); positions beyond the tile are +0 (R81). -/
def chunkPairs (s : State) (f : MatF) (a b : TRef) (w j m n : Nat) : List (Val × Val) :=
  (List.range w).map (fun i =>
    let k := w * j + i
    if k < f.kLen then (elemAt s a m k, elemAt s b k n) else (vZero, vZero))

/-- Adds the listed local chunks to one output of a slot of cell k under NATIVE arithmetic; gives the status bits it sets. -/
def addChunks (s0 : State) (f : MatF) (a b : TRef) (g : Group) (k : Nat) (js : List Nat) (m n : Nat) (acc : State × BitVec 32) : State × BitVec 32 :=
  let e := m * f.nLen + n
  if f.grid then
    let anc := g.anchorAt m n
    let r := js.foldl (fun (u : Grid × BitVec 32) j =>
      let ch := chunk (some (anchorOf anc)) (chunkPairs s0 f a b 32 j m n)
      let i := gridChunk u.1 ch
      (i.1, swRounded (swTrunc (swBound u.2 ch.viol) ch.trunc) i.2)) (getGrid acc.1 k f.slot e anc, acc.2)
    (putGrid k f.slot e r.1 acc.1, r.2)
  else
    let r := js.foldl (fun (u : FastEnt × BitVec 32) j =>
      let ch := chunk none (chunkPairs s0 f a b 32 j m n)
      let i := fastChunk u.1 ch
      (i.1, swOverflow (swTrunc u.2 ch.trunc) i.2)) (getFast acc.1 k f.slot e, acc.2)
    (putFast k f.slot e r.1 acc.1, r.2)

/-- An FP16, BF16 or FP32 operand as an FP32 pattern, exactly, a NaN with its sign and payload (R71, R115). -/
def exact32 (v : Val) : Nat :=
  match v with
  | .nan _ neg pay => signPat (layout .fp32) neg (0x7F800000 + pay / 2 ^ 8)
  | .inf neg => enc32 (.inf neg)
  | .fin neg m e => enc32 (.fin neg m e)

/-- The rounding attribute of a STRICT_IEEE tile (R115). -/
def ieeeMode (q : Nat) : RMode :=
  match bits q 24 2 with
  | 0 => .rne
  | 1 => .rtz
  | 2 => .up
  | _ => .down

/-- Adds the tile to one output under STRICT_IEEE (R115). -/
def addIeee (s0 : State) (f : MatF) (a b : TRef) (c m n : Nat) (acc : State × BitVec 32) : State × BitVec 32 :=
  let e := m * f.nLen + n
  let r := (List.range f.kLen).foldl (fun (u : Nat × BitVec 32) k =>
    let i := ieeeFma (ieeeMode f.q) (exact32 (elemAt s0 a m k)) (exact32 (elemAt s0 b k n)) u.1
    (i.1, swIeee u.2 i.2)) ((getFast acc.1 c f.slot e).p, acc.2)
  (putFast c f.slot e { p := r.1 } acc.1, r.2)

/-- Adds the tile to one output under KWATIL, in groups of sixteen positions from k_base (R119). -/
def addKwatil (s0 : State) (f : MatF) (a b : TRef) (c m n : Nat) (acc : State × BitVec 32) : State × BitVec 32 :=
  let e := m * f.nLen + n
  let r := (List.range (cdiv f.kLen 16)).foldl (fun (u : FastEnt × BitVec 32) j =>
    let i := kwatilGroup u.1 (chunkPairs s0 f a b 16 j m n)
    (i.1, swTrunc (swOverflow u.2 i.2.1) i.2.2)) (getFast acc.1 c f.slot e, acc.2)
  (putFast c f.slot e r.1 acc.1, r.2)

/-- Runs a step over every output (m, n) in row-major order. -/
def overOutputs {σ : Type} (m n : Nat) (step : Nat → Nat → σ → σ) (z : σ) : σ :=
  loop m (fun i u => loop n (fun j v => step i j v) u) z

/-- The sticky bits go into the group's status word. -/
def stickGroup (k : Nat) (grid : Bool) (slot : Nat) (w : BitVec 32) (s : State) : State :=
  match groupOf s k grid slot with
  | some g => putGroup k slot { g with word := g.word ||| w } s
  | none => s

/-- Adds the listed chunks of a tile to the group of its slot on cell k (R87, R95, R115, R119). -/
def accumulate (mode : Mode) (f : MatF) (a b : TRef) (k : Nat) (js : List Nat) (s : State) : State :=
  match groupOf s k f.grid f.slot with
  | none => s
  | some g =>
    let r := overOutputs f.mLen f.nLen (fun m n u =>
      match mode with
      | .native => addChunks s f a b g k js m n u
      | .strictIeee => addIeee s f a b k m n u
      | .kwatil => addKwatil s f a b k m n u) (s, (0 : BitVec 32))
    stickGroup k f.grid f.slot r.2 r.1

/-! ## The drain (R96 to R101, R112 to R114, R134) -/

/-- The resolved value of entry e of a slot (R96, R98, R116, R120). -/
def drainVal (s : State) (mode : Mode) (c : Nat) (g : Group) (slot e : Nat) : Val :=
  if mode = .strictIeee then dec32 (getFast s c slot e).p
  else if g.grid then
    let r := getGrid s c slot e (g.anchorAt (e / g.nLen) (e % g.nLen))
    resolve false r.st (gridVal r)
  else
    let r := getFast s c slot e
    resolve (mode = .kwatil) r.st (dec32 r.p)

/-- The output function on one drained value: what the reductions take and what the quantiser takes (R134). DESIGN CHOICE (log entry 90): a NaN
that the function itself makes at a KWATIL drain keeps the code of R140; R120 speaks of what the special-state bits give. -/
def outFn (s : State) (c : Nat) (f : MatF) (n : Nat) (v : Val) : Val × Val :=
  let pre := bits f.ofn 28 4
  let act := bits f.ofn 24 4
  if pre = 0 && act = 0 then (rnd32 v, v)
  else
    let vec := fun off => canon32 (ofLe (peek s (spAddr c (f.ofnAt + off) + 4 * n) 4))
    let x := enc32 v
    let y := match pre with
      | 1 => fAdd x (vec 0)
      | 2 => fFma x (vec 1024) (vec 0)
      | _ => x
    let z := match act with
      | 1 => fMax y 0
      | 2 => sfn (bits f.ofn 20 4) y
      | _ => y
    (dec32 z, dec32 z)

/-- One row record and the status bits its sum sets (R112, R113, R132). DESIGN CHOICE (log entry 90): a NaN sum in a KWATIL context carries code 1,
as every NaN of its drain does (R120); R113 names R98 alone. -/
def rowRecord (kw : Bool) (mx sm : Bool) (rsum : Int) (vs : List Val) : Bytes × BitVec 32 :=
  let m := match vs with | [] => vZero | v :: t => t.foldl vMax v
  let r := vs.foldl (fun (u : Grid × BitVec 32) v =>
    let k := rowAdd u.1 v
    (k.1, swRounded (swBound u.2 k.2.1) k.2.2)) (({ a := some rsum } : Grid), 0)
  (le 4 (if mx then enc32 m else 0)
    ++ (if sm then le 4 (enc32 (resolve kw r.1.st (gridVal r.1))) ++ le 12 (ofSigned 96 r.1.word) ++ [BitVec.ofNat 8 r.1.st.toNat, 0]
          ++ le 2 (ofSigned 16 rsum)
        else zeros 20) ++ zeros 8,
   if sm then r.2 else 0)

/-- Drains the group of a slot of cell c, writes its outputs and row records, and releases the slot. -/
def drainGroup (mode : Mode) (x : Nat) (d : Bytes) (f : MatF) (c : Nat) (s : State) : Done :=
  match groupOf s c f.grid f.slot, matOutput c mode d { f with mLen := ((groupOf s c f.grid f.slot).map (·.mLen)).getD 1, nLen := ((groupOf s c f.grid f.slot).map (·.nLen)).getD 1 } with
  | some g, some (q, r) =>
    let raw := (List.range (g.mLen * g.nLen)).map (drainVal s mode c g f.slot)
    let outs := raw.zipIdx.map (fun e => outFn s c f (e.2 % g.nLen) e.1)
    let row := fun m => ((outs.drop (m * g.nLen)).take g.nLen).map (·.1)
    let recs := if f.red then (List.range g.mLen).map (fun m => rowRecord (mode = .kwatil) f.redMax f.redSum f.rsum (row m)) else []
    let word := recs.foldl (fun w e => w ||| e.2) (swDrain g.word raw)
    let blocks := quantise s q (qRound (mode = .strictIeee) q) r g.mLen g.nLen (spAddr c f.tab) (srKey s x d)
      (fun m n => (outs.getD (m * g.nLen + n) (vZero, vZero)).2)
    let qc := countsOf blocks
    let s := (writeList s (planeWrites r blocks ++ (if f.red then [(spAddr c f.redAt, recs.flatMap (·.1))] else []))).1
    { s := dropGroup c f.grid f.slot s, st := okFlag (swFlags word || qFlags qc), word0 := word, q := qc }
  | none, _ => { s := s, st := stConflict }
  | some _, none => { s := s, st := stBad }

/-- Fills the group of the odd cell of a pair into that of the even one (R106, R108). -/
def mergePair (c : Nat) (grid : Bool) (slot : Nat) (s : State) : State :=
  match groupOf s c grid slot, groupOf s (c + 1) grid slot with
  | some g, some h =>
    let r := loop (g.mLen * g.nLen) (fun e (u : State × BitVec 32) =>
      if grid then
        let a := g.anchorAt (e / g.nLen) (e % g.nLen)
        (putGrid c slot e (gridAdd (getGrid u.1 c slot e a) (getGrid u.1 (c + 1) slot e a)) u.1, u.2)
      else
        let k := fastFill (getFast u.1 c slot e) (getFast u.1 (c + 1) slot e)
        (putFast c slot e k.1 u.1, swOverflow u.2 k.2)) (s, h.word)
    dropGroup (c + 1) grid slot (stickGroup c grid slot r.2 r.1)
  | _, _ => s

/-- Releases a slot; the odd cell's too when its group is PAIRED. -/
def dropWhole (c : Nat) (grid : Bool) (slot : Nat) (s : State) : State :=
  match groupOf s c grid slot with
  | some g => dropGroup c grid slot (if g.tmode = 1 then dropGroup (c + 1) grid slot s else s)
  | none => s

/-! ## Soldier samples (R436 to R440) -/

/-- The witness of a chunk over every output (R438). -/
def chunkWitness (s : State) (f : MatF) (a b : TRef) (g : Group) (j : Nat) : Bytes :=
  le 8 (crc64 ((List.range (f.mLen * f.nLen)).flatMap (fun e =>
    let m := e / f.nLen
    let n := e % f.nLen
    let ch := chunk (if f.grid then some (anchorOf (g.anchorAt m n)) else none) (chunkPairs s f a b 32 j m n)
    le 10 (ofSigned 80 ch.c) ++ le 2 (ofSigned 16 ch.t) ++ le 1 ch.st.toNat ++ zeros 3)))

/-- The sample rate of the work of a context, in ppm (R436). -/
def sampleRate (s : State) (x : Nat) : Nat :=
  if s.hub.health = .probation then 1000000
  else max s.hub.solRate.toNat (if (s.ctx x).jobTag ≠ 0 then (s.sl x).soldierRate else 0)

/-- The draw of a candidate: whether it is sampled, and c (R437). -/
def soldierDraw (s : State) (rate : Nat) (blk : Bytes) : Option Nat :=
  let o := aes256 (keyBytes s.hub.solKey) blk
  if leAt o 0 3 < rate * 2 ^ 24 / 1000000 then some (leAt o 3 2) else none

/-- What a draw brings about: nothing for a candidate that is not sampled (R437). -/
def takeSample (o : Option Nat) (f : Nat → State → State) (s : State) : State :=
  match o with
  | none => s
  | some c => f c s

/-- The present cells of a die, ascending. -/
def dieCells (s : State) (d : Nat) : List Nat := ((List.range 32).map (· + 32 * d)).filter (cellPresent s)

/-- The k-th element of a list, counted cyclically. -/
def pick (l : List Nat) (k d : Nat) : Nat := l.getD (k % max 1 l.length) d

/-- The next present cells after a cell on its die, in cyclic order. -/
def nextCells (s : State) (c : Nat) : List Nat :=
  let l := dieCells s (c / 32)
  (l.filter (fun k => decide (c < k))) ++ (l.filter (fun k => decide (k < c)))

/-- Checker and referee of a matrix sample (R439). -/
def matrixCheckers (s : State) (c cc : Nat) : Nat × Nat :=
  let o := c / 32
  let ds := ((List.range 7).map (fun i => (o + 1 + i) % 8)).filter (fun d => !(dieCells s d).isEmpty)
  let on := fun d => pick (dieCells s d) (cc / 256) c
  match ds with
  | [] => ((nextCells s c).getD 0 c, (nextCells s c).getD 1 c)
  | [d] => (on d, (nextCells s c).getD 0 c)
  | _ => (on (pick ds cc 0), on (pick ds (cc + 1) 0))

/-- Bytes that a matrix sample takes in its buffer: operand slices, scale bytes and side entries, bounds, witness (R438). -/
def sampleSize (f : MatF) (a b : TRef) : Nat :=
  let one := fun (r : TRef) n => n * (r.group + b2n (fmtScaled r.fmt) + 2 * b2n (fmtSided r.fmt))
  one a f.mLen + one b f.nLen + (if f.grid && !f.cbound then 2 * (f.mLen + f.nLen) else 2) + 8

/-- Bytes held in the soldier buffer of a compute die. -/
def bufferUsed (s : State) (d : Nat) : Nat := ((s.cellSamples.filter (fun e => e.unit / 32 = d)).map (·.size)).sum

/-- Bytes of a soldier buffer (R440). -/
def soldierRoom : Nat := 0x800000

/-- A chunk that the draw takes as a sample goes to the die's buffer; one that finds it full is skipped and counted (R438, R440). -/
def soldierSample (x k : Nat) (t : Tile) (d : Bytes) (f : MatF) (a b : TRef) (s : State) (g : Group) (j cc : Nat) (u : State) : State :=
  let jobbed := decide ((u.ctx x).jobTag ≠ 0)
  if bufferUsed u (k / 32) + sampleSize f a b > soldierRoom then u.modHub (fun h => { h with solSkip := bump h.solSkip 1 })
  else
    let w := matrixCheckers u k cc
    let smp : Sample := {
      matrix := true, unit := k, checker := w.1, referee := w.2, ctx := x, jobbed := jobbed, tag := tTag d,
      index := f.kBase / 32 + j, witness := chunkWitness s f a b g j, step := t.step, size := sampleSize f a b }
    let u := ({ u with cellSamples := u.cellSamples ++ [smp] } : State).modHub (fun h =>
      { h with samples := h.samples + 1, recState := recommend { h with samples := h.samples + 1 } })
    if jobbed then u.modSl x (fun l => { l with soldierN := l.soldierN + 1, soldierWait := l.soldierWait + (if l.step = t.step then 1 else 0) })
    else u

/-- The draw of chunk j of a tile that cell k forms (R437). -/
def chunkDraw (x k : Nat) (t : Tile) (j : Nat) (u : State) : Option Nat :=
  soldierDraw u (sampleRate u x) (le 8 (if (u.ctx x).jobTag ≠ 0 then t.step else 0) ++ le 1 k ++ le 3 t.num ++ le 3 j ++ le 1 0xC1)

/-- Draws for chunk j of a tile that cell k forms. -/
def soldierChunk (x k : Nat) (t : Tile) (d : Bytes) (f : MatF) (a b : TRef) (s : State) (g : Group) (u : State) (j : Nat) : State :=
  takeSample (chunkDraw x k t j u) (soldierSample x k t d f a b s g j) u

/-- Draws for every chunk of a tile that cell k forms, and puts the samples in the die's buffer (R436 to R443). -/
def soldierMatrix (x k : Nat) (t : Tile) (d : Bytes) (f : MatF) (a b : TRef) (js : List Nat) (s : State) : State :=
  match groupOf s k f.grid f.slot with
  | none => s
  | some g =>
    js.foldl (soldierChunk x k t d f a b s g) s

/-! ## MATMUL -/

/-- Chunks that the even and the odd cell of a pair run (R108). -/
def pairChunks (f : MatF) : List Nat × List Nat :=
  let c := cdiv f.kLen 32
  (List.range (cdiv c 2), (List.range c).filter (fun j => decide (cdiv c 2 ≤ j)))

/-- One sub-tile of a MATMUL: opens, accumulates, drains (R103, R132). -/
def subTile (mode : Mode) (x c : Nat) (t : Tile) (d : Bytes) (s : State) : Done :=
  let f := matOf mode d
  match matOperands c mode d f with
  | none => { s := s, st := stBad }
  | some (a, b) =>
    let paired := f.tmode = 1
    let js := if paired then pairChunks f else (List.range (cdiv f.kLen 32), [])
    let s1 := if f.first then openGroup c c f s else s
    let s2 := if f.first && paired then openGroup c (c + 1) f s1 else s1
    let s3 := if mode = .native then soldierMatrix x c t d f a b js.1 s2 else s2
    let s4 := if mode = .native && paired then soldierMatrix x (c + 1) t d f a b js.2 s3 else s3
    let s5 := accumulate mode f a b c js.1 s4
    let s6 := if paired then accumulate mode f a b (c + 1) js.2 s5 else s5
    let s7 := if !f.grid && mode = .native && (s6.ctx x).jobTag ≠ 0 then s6.modSl x (fun l => { l with fastUsed := true }) else s6
    if !f.last then { s := s7 }
    else drainGroup mode x d f c (if paired then mergePair c f.grid f.slot s7 else s7)

/-- The first backward tile of a step is the one whose quantiser writes a gradient partial: a GBI block under AGREED exponents, and in
a rediscovery step a GBF8 block under DYNAMIC ones (R97, R235, R265; log entry 27). -/
def isBackward (kind : StepKind) (qw : Nat) : Bool :=
  match qDecode true qw with
  | none => false
  | some q => (q.qmode = .agreed && (q.fmt = .gbi16 || q.fmt = .gbi24)) || (kind = .rediscovery && q.qmode = .dynamic && q.fmt = .gbf8)

/-- The effect of a MATMUL. -/
def matEff (c x : Nat) (t : Tile) (s : State) : Done :=
  let mode := modeOf s x
  let f := matOf mode t.desc
  if matConflict s c x t then { s := s, st := stConflict }
  else
    let h := subTile mode x c t t.desc s
    if f.tmode = 2 then
      let l := subTile mode x c t t.tail h.s
      { s := l.s, st := max h.st l.st, word0 := h.word0, word1 := l.word0, q := addQ h.q l.q }
    else h

/-- Space for every sample that a PROBATION tile may take; without it the tile stalls (R440). -/
def probationStall (s : State) (c x : Nat) (t : Tile) : Bool :=
  let mode := modeOf s x
  let f := matOf mode t.desc
  s.hub.health = .probation && mode = .native &&
    (match matOperands c mode t.desc f with
     | some (a, b) => decide (bufferUsed s (c / 32) + cdiv f.kLen 32 * sampleSize f a b > soldierRoom) && decide (bufferUsed s (c / 32) ≠ 0)
     | none => false)

/-- MATMUL: the running matrix tile of cell c takes its effect. -/
def matmulRow (c : Nat) (hits : List EccHit) (s : State) : State :=
  match runningTile s c 0x10 with
  | none => s
  | some t => if probationStall s c (cellCtx s c) t then s else applyTile matPlan matEff 0x10 c hits s

/-- MATMUL. -/
def execMatmul (c : Nat) (ecc : List EccHit) (s : State) : Host.Outcome State Fault Refusal := serving (matmulRow c ecc) s

/-! ## BOUND_SCAN (R135) -/

/-- Formats whose tops R90 gives. -/
def topFmt (f : Fmt) : Bool :=
  f = .gbf8 || f = .gbf4 || f = .e4m3b || f = .e5m2b || f = .e2m1b || f = .e4m3 || f = .e5m2 || f = .bf16 || f = .fp16

/-- k_len of a scan. -/
def scanLen (d : Bytes) : Nat := fld d 17 10 22
/-- Rows or columns of a scan. -/
def scanCount (d : Bytes) : Nat := fld d 18 24 8 + 1

/-- The operand of a scan, its rows and columns. -/
def scanRef (c : Nat) (d : Bytes) : Option (TRef × Nat × Nat) :=
  match opRef c none false d 16 with
  | none => none
  | some r =>
    let k := kCover r.fmt (scanLen d)
    let n := scanCount d
    let left := fld d 18 23 1 = 0
    if topFmt r.fmt && !(fmtBlocked r.fmt && (r.cm = left)) && r.shapeOk (if left then n else k) (if left then k else n) then
      some (r, if left then n else k, if left then k else n)
    else none

/-- The bytes that a scan reads: the element plane of an element format, the scale plane of a block format. -/
def scanReads (r : TRef) (rows cols : Nat) : List (Nat × Nat) :=
  if fmtScaled r.fmt then (List.range (r.rows rows cols)).map (fun p => (r.aux + r.blockAt p 0, r.extent rows cols / 32))
  else refReads r rows cols false

/-- The plan of a BOUND_SCAN. -/
def scanPlan (_ : State) (c _x : Nat) (t : Tile) : Option Plan :=
  let d := t.desc
  let out := spAddr c (fld d 19 0 22)
  let merge := fld d 18 22 1 = 1
  if !(tHeadOk d && wordsZero d 8 15 && fld d 16 0 10 = 0 && fld d 16 10 22 % 32 = 0 && fld d 17 0 10 = 0 && fld d 18 0 22 = 0
      && fld d 19 22 10 = 0 && wordsZero d 20 31) then none
  else match scanRef c d with
    | none => none
    | some (r, rows, cols) =>
      let n := scanCount d
      let rd := scanReads r rows cols
      let bytes := (rd.map (·.2)).sum
      some { vector := true, ins := hull (r.spans rows cols false), reads := rd ++ (if merge then [(out, 2 * n)] else []),
             outs := [(out, 2 * n)], merge := if merge then [(out, 2 * n)] else [],
             clocks := cdiv ((if r.aligned then bytes else 2 * bytes) + 2 * n) 1024 }

/-- The top of one row or column of a scan (R90, R135). -/
def scanTop (s : State) (r : TRef) (left : Bool) (kLen i : Nat) : Int :=
  (List.range (cdiv kLen 32)).foldl (fun t j =>
    max t (if fmtScaled r.fmt then topScaled r.fmt (scaleAt s r i (32 * j))
           else topOf ((List.range (min 32 (kLen - 32 * j))).map (fun u => if left then elemAt s r i (32 * j + u) else elemAt s r (32 * j + u) i)))) topNone

/-- The effect of a BOUND_SCAN. -/
def scanEff (c _x : Nat) (t : Tile) (s : State) : Done :=
  let d := t.desc
  match scanRef c d with
  | none => { s := s, st := stBad }
  | some (r, _, _) =>
    let out := spAddr c (fld d 19 0 22)
    let left := fld d 18 23 1 = 0
    let one := fun i =>
      let v := scanTop s r left (scanLen d) i
      let old := toSigned 16 (ofLe (peek s (out + 2 * i) 2))
      le 2 (ofSigned 16 (if fld d 18 22 1 = 1 then max old v else v))
    { s := (writeList s [(out, (List.range (scanCount d)).flatMap one)]).1 }

/-- BOUND_SCAN. -/
def execBoundScan (c : Nat) (ecc : List EccHit) (s : State) : Host.Outcome State Fault Refusal :=
  serving (applyTile scanPlan scanEff 0x11 c ecc) s

/-! ## ACC_SPILL (R136) -/

/-- Bytes of a group in raw form (R106). -/
def rawSize (grid : Bool) (n : Nat) : Nat := if grid then 16 * n else 8 * n

/-- The slot and mode that word 16 of a spill names. -/
def spillSlot (mode : Mode) (d : Bytes) : Bool × Nat := (fld d 16 27 1 = 1 && mode ≠ .strictIeee, fld d 16 29 3)

/-- The interval of a spill; empty when no group is open. The spill of a PAIRED group is of the whole group (log entry 91). -/
def spillSpan (s : State) (c : Nat) (mode : Mode) (d : Bytes) : Nat × Nat :=
  let k := spillSlot mode d
  match groupOf s c k.1 k.2 with
  | some g => (leAt d 68 8, rawSize g.grid (g.mLen * g.nLen))
  | none => (leAt d 68 8, 0)

/-- The plan of an ACC_SPILL. -/
def spillPlan (s : State) (c x : Nat) (t : Tile) : Option Plan :=
  let d := t.desc
  let mode := modeOf s x
  let k := spillSlot mode d
  let sp := spillSpan s c mode d
  if !(tHeadOk d && fld d 16 0 27 = 0 && decide (k.2 ≤ (if k.1 then 1 else 5)) && decide (sp.1 < 2 ^ 48)) then none
  else some { array := true, dma := true, outs := [sp], far := [(sp.1, sp.2, true)], slots := groupWords s c k.1 k.2, clocks := cdiv sp.2 256 }

/-- The raw entries of a group, row-major (R106). -/
def rawBytes (s : State) (c slot : Nat) (g : Group) : Bytes :=
  (List.range (g.mLen * g.nLen)).flatMap (fun e =>
    if g.grid then
      let r := getGrid s c slot e (g.anchorAt (e / g.nLen) (e % g.nLen))
      le 12 (ofSigned 96 r.word) ++ [BitVec.ofNat 8 r.st.toNat, 0] ++ le 2 (ofSigned 16 (anchorOf r.a))
    else
      let r := getFast s c slot e
      le 4 r.p ++ [BitVec.ofNat 8 r.st.toNat, 0, 0, 0])

/-- The group of a spill as it goes out, and its entries: of a PAIRED group the odd cell's part is filled into the even cell's, as at a drain
(DESIGN CHOICE, log entry 91). -/
def spillGroup (s : State) (c : Nat) (grid : Bool) (slot : Nat) : Option (Group × Bytes) :=
  match groupOf s c grid slot with
  | none => none
  | some g =>
    let u := if g.tmode = 1 then mergePair c grid slot s else s
    (groupOf u c grid slot).map (fun v => (v, rawBytes u c slot v))

/-- The effect of an ACC_SPILL. -/
def spillEff (c x : Nat) (t : Tile) (s : State) : Done :=
  let d := t.desc
  let k := spillSlot (modeOf s x) d
  match spillGroup s c k.1 k.2 with
  | none => { s := s, st := stConflict }
  | some (g, b) =>
    let w := writeList s [(leAt d 68 8, b)]
    if !w.2 then { s := w.1, st := stMem }
    else if fld d 16 28 1 = 1 then
      { s := dropWhole c k.1 k.2 w.1, word0 := swSticky g.word, st := okFlag (swBit g.word 28 || swBit g.word 27) }
    else { s := w.1 }

/-- ACC_SPILL. -/
def execAccSpill (c : Nat) (ecc : List EccHit) (s : State) : Host.Outcome State Fault Refusal :=
  serving (applyTile spillPlan spillEff 0x12 c ecc) s

/-! ## ACC_FILL (R137) -/

/-- The plan of an ACC_FILL. -/
def fillPlan (s : State) (c x : Nat) (t : Tile) : Option Plan :=
  let d := t.desc
  let mode := modeOf s x
  let f := matOf mode d
  let src := leAt d 96 8
  let n := rawSize f.grid (f.mLen * f.nLen)
  if !(tHeadOk d && matZero d && groupRange mode f && f.kBase = 0 && f.kLen = 0 && !f.red && f.rsum = 0 && f.redAt = 0 && !f.last
      && decide (src < 2 ^ 48) && (f.tmode ≠ 1 || pairCells s x c)) then none
  else some { array := true, dma := true, ins := (src, n) :: boundReads c f, reads := (src, n) :: boundReads c f, far := [(src, n, false)],
              slots := if f.first then [] else slotWords c f.grid f.slot (f.mLen * f.nLen), clocks := cdiv n 256 }

/-- R105 for a fill. -/
def fillConflict (s : State) (c x : Nat) (t : Tile) : Bool :=
  let f := matOf (modeOf s x) t.desc
  slotConflict s c f || (f.tmode = 1 && slotConflict s (c + 1) f)

/-- The effect of an ACC_FILL. -/
def fillEff (c x : Nat) (t : Tile) (s : State) : Done :=
  let d := t.desc
  let mode := modeOf s x
  let f := matOf mode d
  if fillConflict s c x t then { s := s, st := stConflict }
  else
    let g := if f.first then newGroup s c f else (groupOf s c f.grid f.slot).getD (newGroup s c f)
    let src := peek s (leAt d 96 8) (rawSize f.grid (f.mLen * f.nLen))
    let raw := fun e => gridOf (slice src (16 * e) 16)
    let differs := f.grid && (List.range (f.mLen * f.nLen)).any (fun e => decide ((raw e).a ≠ g.anchorAt (e / f.nLen) (e % f.nLen)))
    if differs then { s := s, st := stBad }
    else
      let s1 := if f.first then openGroup c c f s else s
      let s2 := if f.first && f.tmode = 1 then openGroup c (c + 1) f s1 else s1
      let r := loop (f.mLen * f.nLen) (fun e (u : State × BitVec 32) =>
        if f.grid then
          (putGrid c f.slot e (gridAdd (getGrid u.1 c f.slot e (g.anchorAt (e / f.nLen) (e % f.nLen))) (raw e)) u.1, u.2)
        else
          let k := fastFill (getFast u.1 c f.slot e) { p := leAt src (8 * e) 4, st := BitVec.ofNat 4 (leAt src (8 * e + 4) 1) }
          (putFast c f.slot e k.1 u.1, swOverflow u.2 k.2)) (s2, (0 : BitVec 32))
      { s := stickGroup c f.grid f.slot r.2 r.1 }

/-- ACC_FILL. -/
def execAccFill (c : Nat) (ecc : List EccHit) (s : State) : Host.Outcome State Fault Refusal :=
  serving (applyTile fillPlan fillEff 0x13 c ecc) s

/-! ## ACC_DRAIN (R138) -/

/-- The words that a drain does not use are zero. -/
def drainForm (d : Bytes) : Bool :=
  tHeadOk d && wordsZero d 4 11 && wordsZero d 16 18 && fld d 19 16 16 = 0 && fld d 19 13 2 = 0 && fld d 19 7 3 = 0 && fld d 19 0 5 = 0
    && wordsZero d 20 21 && fld d 23 22 10 = 0 && drainZero d

/-- The plan of an ACC_DRAIN. The shape of its output is the open group's; with none open the tile conflicts. -/
def accDrainPlan (s : State) (c x : Nat) (t : Tile) : Option Plan :=
  let d := t.desc
  let mode := modeOf s x
  let f := matOf mode d
  if !(drainForm d && decide (f.slot ≤ (if f.grid then 1 else 5)) && decide (-300 ≤ f.anchor) && decide (f.anchor ≤ 300)
      && !(mode = .strictIeee && f.red) && !(mode = .kwatil && f.grid) && (outFields c mode d f true).isSome) then none
  else match groupOf s c f.grid f.slot with
    | none => some { array := true }
    | some g =>
      match matOutput c mode d { f with mLen := g.mLen, nLen := g.nLen } with
      | none => none
      | some (q, r) =>
        some { array := true, ins := drainReads c f q r g.mLen g.nLen, reads := drainReads c f q r g.mLen g.nLen,
               outs := drainWrites c f r g.mLen g.nLen, slots := groupWords s c f.grid f.slot, clocks := drainClocks g.mLen g.nLen r }

/-- No group is open in a slot, or the odd cell's part of a PAIRED one is not (R105). -/
def groupGone (s : State) (c : Nat) (grid : Bool) (slot : Nat) : Bool :=
  match groupOf s c grid slot with
  | some g => g.tmode = 1 && (groupOf s (c + 1) grid slot).isNone
  | none => true

/-- The effect of an ACC_DRAIN. -/
def accDrainEff (c x : Nat) (t : Tile) (s : State) : Done :=
  let mode := modeOf s x
  let f := matOf mode t.desc
  match groupOf s c f.grid f.slot with
  | none => { s := s, st := stConflict }
  | some g => drainGroup mode x t.desc f c (if g.tmode = 1 then mergePair c f.grid f.slot s else s)

/-- ACC_DRAIN. -/
def execAccDrain (c : Nat) (ecc : List EccHit) (s : State) : Host.Outcome State Fault Refusal :=
  serving (applyTile accDrainPlan accDrainEff 0x14 c ecc) s

end Sys2Proof.Machine
end

