-- ==== Sys2Proof/Machine/Dma.lean ====
section
/-! DEFINITION. Machine/Dma.lean: DMA_COPY, LAYOUT_COPY, WINDOW, GATHER, SCATTER, SCATTER_ADD and its application at an engine
(R170 to R184, R223, R543). -/
namespace Sys2Proof.Machine

/-! ## Fields (R170, R174) -/

/-- rows of a DMA descriptor. -/
def dmaRows (d : Bytes) : Nat := fld d 20 20 12 + 1
/-- cols of a DMA descriptor. -/
def dmaCols (d : Bytes) : Nat := fld d 20 8 12 + 1
/-- oob of a DMA descriptor. -/
def dmaOob (d : Bytes) : Nat := fld d 20 0 2
/-- Address of the index vector. -/
def dmaIdxAt (d : Bytes) : Nat := fld d 21 0 22
/-- idx_limit. -/
def dmaLimit (d : Bytes) : Nat := w32 d 22

/-- The reserved fields common to the five ops that share the layout of R170. -/
def dmaZero (d : Bytes) : Bool :=
  tHeadOk d && fld d 20 2 6 = 0 && fld d 21 22 10 = 0 && w32 d 23 = 0 && fld d 25 22 10 = 0 && fld d 27 16 16 = 0 && wordsZero d 29 30

/-- qctl, scale_tab and gidx are zero. -/
def quantZero (d : Bytes) : Bool := wordsZero d 24 28 && w32 d 31 = 0

/-- The index fields are in range (R170, R177). -/
def idxOk (d : Bytes) : Bool := dmaIdxAt d % 4 = 0 && decide (1 ≤ dmaLimit d) && decide (dmaLimit d < 2 ^ 31)

/-- Entry i of the index vector. -/
def idxAt (s : State) (c : Nat) (d : Bytes) (i : Nat) : Int := toSigned 32 (ofLe (peek s (spAddr c (dmaIdxAt d) + 4 * i) 4))

/-- The index is in range. -/
def idxIn (d : Bytes) (i : Int) : Bool := decide (0 ≤ i) && decide (i < dmaLimit d)

/-! ## Raw blocks -/

/-- The flag nibble of a block of a GBI plane row of extent e (R304); 0 for other formats. -/
def nibbleAt (s : State) (r : TRef) (p e b : Nat) : Nat :=
  if r.gbi then ofLe (peek s (r.base + p * r.pitch + r.elemBytes e + b / 2) 1) / (if b % 2 = 1 then 16 else 1) % 16 else 0

/-- The raw blocks of positions lo to lo + n − 1 of a plane row of extent e: codes, scale bytes, side entries, flag nibbles. -/
def rawBlocks (s : State) (r : TRef) (p e lo n : Nat) : List EncBlock :=
  if fmtBlocked r.fmt then
    (List.range (n / 32)).map (fun b =>
      let j := lo + 32 * b
      { codes := (List.range 32).map (fun i => codeAt s r p (j + i)), scale := if fmtScaled r.fmt then scaleAt s r p j else 0,
        side := sideAt s r p j, nibble := nibbleAt s r p e (j / 32) })
  else [{ codes := (List.range n).map (fun i => codeAt s r p (lo + i)) }]

/-- n positions of +0: element codes 0, scale byte 0x00, zero_block set (R176). DESIGN CHOICE (log entry 28): the flag nibble of a substituted
GBI block says zero_block too. -/
def zeroBlocks (f : Fmt) (n : Nat) : List EncBlock :=
  if fmtBlocked f then
    List.replicate (n / 32) { codes := List.replicate 32 0, side := 0x80, nibble := 4, q := { zeroBlk := 1 } }
  else [{ codes := List.replicate n 0 }]

/-- An unblocked tensor's plane row of codes in another layout (R172). -/
def turned (s : State) (src dst : TRef) (rows cols p : Nat) : List EncBlock :=
  [{ codes := (List.range (dst.extent rows cols)).map (fun j =>
      let row := if dst.cm then j else p
      let col := if dst.cm then p else j
      if src.cm then codeAt s src col row else codeAt s src row col) }]

/-- Clocks of a transfer (R168, R184). -/
def dmaClocks (src dst : TRef) (rd wr : List (Nat × Nat)) : Nat :=
  let n := cdiv (max (rd.map (·.2)).sum (wr.map (·.2)).sum) 256
  if src.aligned && dst.aligned then n else 2 * n

/-- What the device addresses of a reference name: each plane outside the own window, and the footprint in it. -/
def farOf (c : Nat) (l : List (Nat × Nat)) (write : Bool) : List (Nat × Nat × Bool) :=
  (hull (l.filter (fun i => ownWin c i.1)) ++ l.filter (fun i => !ownWin c i.1)).map (fun i => (i.1, i.2, write))

/-- Finishes a write of planes: MEM_UNCORRECTABLE when a part could not be written (R201). -/
def wrote (r : State × Bool) (ok : Nat) (q : QCounts) : Done := { s := r.1, st := if r.2 then ok else stMem, q := q }

/-! ## DMA_COPY (R172, R543) -/

/-- The doorbell copy of R543: queue and register of the destination. -/
def doorbellCopy (s : State) (x : Nat) (d : Bytes) : Option (Nat × Nat) :=
  if dmaRows d = 1 && dmaCols d = 1 && bits (leAt d 40 4) 28 4 = 0 && bits (leAt d 72 4) 28 4 = 0 then
    match queueReg (leAt d 48 8) with
    | some (q, k) => if decide (k ≤ 1) && (s.queue q).defined && (s.queue q).ctx = x then some (q, k) else none
    | none => none
  else none

/-- The references of a copy. -/
def copyRefs (d : Bytes) : Option (TRef × TRef) :=
  match memRef d 16, memRef d 48 with
  | some a, some b =>
    if a.fmt = b.fmt && (a.cm = b.cm || !fmtBlocked a.fmt) && a.shapeOk (dmaRows d) (dmaCols d) && b.shapeOk (dmaRows d) (dmaCols d) then some (a, b) else none
  | none, _ => none
  | some _, none => none

/-- The plan of a DMA_COPY. -/
def copyPlan (s : State) (c x : Nat) (t : Tile) : Option Plan :=
  let d := t.desc
  if !(dmaZero d && quantZero d && wordsZero d 21 22 && dmaOob d = 0) then none
  else match copyRefs d with
    | none => none
    | some (a, b) =>
      let m := dmaRows d
      let n := dmaCols d
      let rd := refReads a m n false
      let wr := refReads b m n false
      some { dma := true, ins := foot c (a.spans m n false), outs := foot c (b.spans m n false), reads := rd,
             far := farOf c (a.spans m n false) false ++ (if (doorbellCopy s x d).isSome then [] else farOf c (b.spans m n false) true),
             clocks := dmaClocks a b rd wr }

/-- The effect of a DMA_COPY: a doorbell write, or the tensor bit for bit. -/
def copyEff (_c x : Nat) (t : Tile) (s : State) : Done :=
  let d := t.desc
  match copyRefs d with
  | none => { s := s, st := stBad }
  | some (a, b) =>
    match doorbellCopy s x d with
    | some (q, k) =>
      let v := ofLe (peek s a.base 4)
      { s := if k = 0 then ringDoorbell q v s else writeCcons q v s }
    | none =>
      let m := dmaRows d
      let n := dmaCols d
      let e := a.extent m n
      let rows := (List.range (b.rows m n)).map (fun p => if a.cm = b.cm then rawBlocks s a p e 0 e else turned s a b m n p)
      wrote (writeList s (planeWrites b rows)) stOk {}

/-- DMA_COPY. -/
def execDmaCopy (c : Nat) (ecc : List EccHit) (s : State) : Host.Outcome State Fault Refusal :=
  serving (applyTile copyPlan copyEff 0x30 c ecc) s

/-! ## LAYOUT_COPY (R173) -/

/-- The references and the control word of a layout copy. -/
def layoutRefs (mode : Mode) (d : Bytes) : Option (TRef × TRef × QCtl) :=
  match memRef d 16, memRef d 48, qDecode (mode = .strictIeee) (w32 d 24) with
  | some a, some b, some q =>
    if b.fmt = q.fmt && a.shapeOk (dmaRows d) (dmaCols d) && b.shapeOk (dmaRows d) (dmaCols d) then some (a, b, q) else none
  | _, _, _ => none

/-- The plan of a LAYOUT_COPY. -/
def layoutPlan (s : State) (c x : Nat) (t : Tile) : Option Plan :=
  let d := t.desc
  if !(dmaZero d && wordsZero d 21 22 && dmaOob d = 0) then none
  else match layoutRefs (modeOf s x) d with
    | none => none
    | some (a, b, q) =>
      let m := dmaRows d
      let n := dmaCols d
      let tab := if q.qmode = .agreed then [(spAddr c (fld d 25 0 22), b.blocks m n)] else []
      let rd := refReads a m n true
      some { dma := true, ins := foot c (a.spans m n true) ++ tab, outs := foot c (b.spans m n false), reads := rd ++ tab,
             far := farOf c (a.spans m n true) false ++ farOf c (b.spans m n false) true,
             clocks := dmaClocks a b rd (refReads b m n false) }

/-- The block-scaled forms whose planes are those of OCP MX (R74). -/
def fmtMx (f : Fmt) : Bool := f = .e4m3b || f = .e5m2b || f = .e2m1b

/-- The effect of a LAYOUT_COPY. Between equal MX forms with the same blocking, import and export copy the planes bit for bit (R74): nothing is
quantised or counted. -/
def layoutEff (c x : Nat) (t : Tile) (s : State) : Done :=
  let d := t.desc
  match layoutRefs (modeOf s x) d with
  | none => { s := s, st := stBad }
  | some (a, b, q) =>
    if fmtMx a.fmt && a.fmt = b.fmt && a.cm = b.cm then
      let e := a.extent (dmaRows d) (dmaCols d)
      wrote (writeList s (planeWrites b ((List.range (b.rows (dmaRows d) (dmaCols d))).map (fun p => rawBlocks s a p e 0 e)))) stOk {}
    else
      let blocks := quantise s q (qRound false q) b (dmaRows d) (dmaCols d) (spAddr c (fld d 25 0 22)) (srKey s x d) (fun i j => elemAt s a i j)
      let qc := countsOf blocks
      wrote (writeList s (planeWrites b blocks)) (okFlag (qFlags qc)) qc

/-- LAYOUT_COPY. -/
def execLayoutCopy (c : Nat) (ecc : List EccHit) (s : State) : Host.Outcome State Fault Refusal :=
  serving (applyTile layoutPlan layoutEff 0x31 c ecc) s

/-! ## WINDOW (R174 to R176) -/

/-- The fields of a WINDOW descriptor. -/
structure WinF where
  rows : Nat
  oob  : Nat
  hh   : Nat
  ww   : Nat
  ch   : Nat
  kh   : Nat
  kw   : Nat
  sh   : Nat
  sw   : Nat
  dh   : Nat
  dw   : Nat
  pt   : Nat
  pl   : Nat
  ow   : Nat
  p0   : Nat
  deriving DecidableEq, Repr

/-- Reads the fields of R174. -/
def winOf (d : Bytes) : WinF :=
  { rows := fld d 20 20 12 + 1, oob := fld d 20 0 2, hh := fld d 21 16 16, ww := fld d 21 0 16, ch := fld d 22 16 16, kh := fld d 22 8 8,
    kw := fld d 22 0 8, sh := fld d 23 28 4, sw := fld d 23 24 4, dh := fld d 23 20 4, dw := fld d 23 16 4, pt := fld d 23 8 8,
    pl := fld d 23 0 8, ow := fld d 29 16 16, p0 := w32 d 30 }

/-- K of the expansion. -/
def WinF.k (f : WinF) : Nat := f.kh * f.kw * f.ch

/-- Reserved fields zero and fields in range (R174). -/
def winForm (d : Bytes) (f : WinF) : Bool :=
  tHeadOk d && fld d 20 2 18 = 0 && decide (f.oob ≤ 1) && quantZero d && fld d 29 0 16 = 0
    && [f.hh, f.ww, f.ch, f.kh, f.kw, f.sh, f.sw, f.dh, f.dw, f.ow].all (fun v => decide (1 ≤ v))

/-- The references of a WINDOW. -/
def winRefs (d : Bytes) (f : WinF) : Option (TRef × TRef) :=
  match memRef d 16, memRef d 48 with
  | some a, some b =>
    if a.fmt = b.fmt && !a.cm && !b.cm && (!fmtBlocked a.fmt || f.ch % 32 = 0) && a.shapeOk (f.hh * f.ww) f.ch && b.shapeOk f.rows f.k then some (a, b) else none
  | none, _ => none
  | some _, none => none

/-- The source pixel of window position (rh, sw) of output row i: its coordinates as i32, before substitution (R175). -/
def winPixel (f : WinF) (i rh sw : Nat) : Int × Int :=
  let p := (f.p0 + i) % 2 ^ 32
  let i32 := fun (plus minus : Nat) => toSigned 32 ((plus + 2 ^ 32 - minus) % 2 ^ 32)
  (i32 (p / f.ow * f.sh + rh * f.dh) f.pt, i32 (p % f.ow * f.sw + sw * f.dw) f.pl)

/-- The pixel lies in the image. -/
def winIn (f : WinF) (h : Int × Int) : Bool := decide (0 ≤ h.1) && decide (h.1 < f.hh) && decide (0 ≤ h.2) && decide (h.2 < f.ww)

/-- The pixel row read under CLAMP (R176). -/
def winRow (f : WinF) (h : Int × Int) : Nat :=
  (max 0 (min ((f.hh : Int) - 1) h.1)).toNat * f.ww + (max 0 (min ((f.ww : Int) - 1) h.2)).toNat

/-- The window positions of one output row, in column order. -/
def winTaps (f : WinF) (i : Nat) : List (Int × Int) :=
  (List.range f.kh).flatMap (fun rh => (List.range f.kw).map (fun sw => winPixel f i rh sw))

/-- The plan of a WINDOW. -/
def winPlan (_s : State) (c _x : Nat) (t : Tile) : Option Plan :=
  let d := t.desc
  let f := winOf d
  if !winForm d f then none
  else match winRefs d f with
    | none => none
    | some (a, b) =>
      let wr := refReads b f.rows f.k false
      some { dma := true, ins := foot c (a.spans (f.hh * f.ww) f.ch false), outs := foot c (b.spans f.rows f.k false),
             reads := (List.range f.rows).flatMap (fun i => (winTaps f i).flatMap (fun h =>
               if winIn f h || f.oob = 0 then rowReads a (winRow f h) f.ch false else [])),
             far := farOf c (a.spans (f.hh * f.ww) f.ch false) false ++ farOf c (b.spans f.rows f.k false) true,
             clocks := dmaClocks a b [] wr }

/-- The effect of a WINDOW. -/
def winEff (c _x : Nat) (t : Tile) (s : State) : Done :=
  let d := t.desc
  let f := winOf d
  match winRefs d f with
  | none => { s := s, st := stBad }
  | some (a, b) =>
    let rows := (List.range f.rows).map (fun i => (winTaps f i).flatMap (fun h =>
      if winIn f h || f.oob = 0 then rawBlocks s a (winRow f h) f.ch 0 f.ch else zeroBlocks a.fmt f.ch))
    let subst := ((List.range f.rows).flatMap (fun i => (winTaps f i).filter (fun h => !winIn f h))).length
    wrote (writeList (s.modCell c (fun k => { k with subst := bump k.subst subst })) (planeWrites b rows)) stOk (countsOf rows)

/-- WINDOW. -/
def execWindow (c : Nat) (ecc : List EccHit) (s : State) : Host.Outcome State Fault Refusal :=
  serving (applyTile winPlan winEff 0x32 c ecc) s

/-! ## GATHER and SCATTER (R177 to R179) -/

/-- The references of a GATHER or SCATTER: one format, both RM, shapes with the indexed side's rows. -/
def indexRefs (d : Bytes) (gather : Bool) : Option (TRef × TRef) :=
  match memRef d 16, memRef d 48 with
  | some a, some b =>
    if a.fmt = b.fmt && !a.cm && !b.cm && a.shapeOk (if gather then dmaLimit d else dmaRows d) (dmaCols d)
      && b.shapeOk (if gather then dmaRows d else dmaLimit d) (dmaCols d) then some (a, b) else none
  | none, _ => none
  | some _, none => none

/-- The source row of a GATHER index under CLAMP. -/
def clampIdx (d : Bytes) (i : Int) : Nat := (max 0 (min ((dmaLimit d : Int) - 1) i)).toNat

/-- The index vector. -/
def idxSpan (c : Nat) (d : Bytes) : Nat × Nat := (spAddr c (dmaIdxAt d), 4 * dmaRows d)

/-- The plan of a GATHER. -/
def gatherPlan (s : State) (c _x : Nat) (t : Tile) : Option Plan :=
  let d := t.desc
  if !(dmaZero d && quantZero d && idxOk d && decide (dmaOob d ≤ 1)) then none
  else match indexRefs d true with
    | none => none
    | some (a, b) =>
      let n := dmaCols d
      let sp := a.spans (dmaLimit d) n false
      let rd := (List.range (dmaRows d)).flatMap (fun i =>
        let k := idxAt s c d i
        if idxIn d k || dmaOob d = 0 then rowReads a (clampIdx d k) n false else [])
      let wr := refReads b (dmaRows d) n false
      some { dma := true, ins := foot c sp ++ [idxSpan c d], outs := foot c (b.spans (dmaRows d) n false), reads := idxSpan c d :: rd,
             far := farOf c sp false ++ farOf c (b.spans (dmaRows d) n false) true,
             clocks := dmaClocks a b (refReads b (dmaRows d) n false) wr }

/-- The effect of a GATHER. -/
def gatherEff (c _x : Nat) (t : Tile) (s : State) : Done :=
  let d := t.desc
  match indexRefs d true with
  | none => { s := s, st := stBad }
  | some (a, b) =>
    let n := dmaCols d
    let idx := (List.range (dmaRows d)).map (idxAt s c d)
    let rows := idx.map (fun i => if idxIn d i || dmaOob d = 0 then rawBlocks s a (clampIdx d i) n 0 n else zeroBlocks a.fmt n)
    let out := (idx.filter (fun i => !idxIn d i)).length
    wrote (writeList (s.modCell c (fun k => { k with subst := bump k.subst out })) (planeWrites b rows)) (okFlag (decide (out ≠ 0))) (countsOf rows)

/-- GATHER. -/
def execGather (c : Nat) (ecc : List EccHit) (s : State) : Host.Outcome State Fault Refusal :=
  serving (applyTile gatherPlan gatherEff 0x33 c ecc) s

/-- The plan of a SCATTER. -/
def scatterPlan (_s : State) (c _x : Nat) (t : Tile) : Option Plan :=
  let d := t.desc
  if !(dmaZero d && quantZero d && idxOk d && dmaOob d = 0) then none
  else match indexRefs d false with
    | none => none
    | some (a, b) =>
      let n := dmaCols d
      let rd := refReads a (dmaRows d) n false
      let sp := b.spans (dmaLimit d) n false
      some { dma := true, ins := foot c (a.spans (dmaRows d) n false) ++ [idxSpan c d], outs := foot c sp, reads := idxSpan c d :: rd,
             far := farOf c (a.spans (dmaRows d) n false) false ++ farOf c sp true, clocks := dmaClocks a b rd [] }

/-- The effect of a SCATTER: rows in ascending i, an out-of-range index drops its row. -/
def scatterEff (c _x : Nat) (t : Tile) (s : State) : Done :=
  let d := t.desc
  match indexRefs d false with
  | none => { s := s, st := stBad }
  | some (a, b) =>
    let n := dmaCols d
    let idx := (List.range (dmaRows d)).map (idxAt s c d)
    let out := (idx.filter (fun i => !idxIn d i)).length
    let s1 := s.modCell c (fun k => { k with dropped := bump k.dropped out })
    let r := idx.zipIdx.foldl (fun (u : State × Bool) e =>
      if idxIn d e.1 then
        let w := writeList u.1 ((rowWrites b e.1.toNat (rawBlocks s a e.2 n 0 n)).flatten)
        (w.1, u.2 && w.2)
      else u) (s1, true)
    wrote r (okFlag (decide (out ≠ 0))) {}

/-- SCATTER. -/
def execScatter (c : Nat) (ecc : List EccHit) (s : State) : Host.Outcome State Fault Refusal :=
  serving (applyTile scatterPlan scatterEff 0x34 c ecc) s

/-! ## SCATTER_ADD (R180 to R183, R223) -/

/-- The source of a scatter-add, and its destination's base and stride. -/
def saddRefs (c : Nat) (d : Bytes) : Option (TRef × Nat × Nat) :=
  match memRef d 16, memRef d 48 with
  | some a, some b =>
    if vecFmt' a.fmt && !a.cm && !b.cm && bits (leAt d 72 4) 28 4 = 0 && b.aux = 0 && b.side = 0
      && a.shapeOk (dmaRows d) (dmaCols d) && decide (dmaRows d * dmaCols d ≤ 262144)
      && !(decide (winBase ≤ b.base) && decide (b.base < csrBase) && !ownWin c b.base) then some (a, b.base, b.pitch) else none
  | none, _ => none
  | some _, none => none
where
  /-- Source formats: those VEC accepts (R139, R180). -/
  vecFmt' (f : Fmt) : Bool :=
    f = .fp32 || f = .fp16 || f = .bf16 || f = .e4m3 || f = .e5m2 || f = .gbf8 || f = .gbf4 || f = .gbi16 || f = .gbi24

/-- The destination's footprint: idx_limit rows of 16-byte entries (R166). -/
def saddSpan (base stride : Nat) (d : Bytes) : Nat × Nat := (base, (dmaLimit d - 1) * stride + 16 * dmaCols d)

/-- The contributions of a tile in order: entry address and FP32 pattern, exact in every source format. -/
def contributions (s : State) (c : Nat) (d : Bytes) (a : TRef) (base stride : Nat) : List (Nat × Nat) :=
  (List.range (dmaRows d)).flatMap (fun i =>
    let k := idxAt s c d i
    if idxIn d k then
      (List.range (dmaCols d)).map (fun j => (base + k.toNat * stride + 16 * j, enc32 (elemAt s a i j)))
    else [])

/-- Adds one contribution to an entry; the flag is a special-state bit or a bound violation (R113, R180). -/
def addEntry (s : State) (at_ v : Nat) : State × Bool × Bool :=
  if unreadable s at_ 16 then (s, false, true)
  else
    let g := gridOf (peek s at_ 16)
    let r := rowAdd g (dec32 v)
    (poke s at_ (le 12 (ofSigned 96 r.1.word) ++ [BitVec.ofNat 8 r.1.st.toNat]), r.2.1 || !(dec32 v).isFin, false)

/-- Applies contributions in order; the flags: some special state or violation, some unreadable entry. -/
def addEntries (s : State) (l : List (Nat × Nat)) : State × Bool × Bool :=
  l.foldl (fun u e => let r := addEntry u.1 e.1 e.2; (r.1, u.2.1 || r.2.1, u.2.2 || r.2.2)) (s, false, false)

/-- The plan of a SCATTER_ADD. -/
def saddPlan (s : State) (c _x : Nat) (t : Tile) : Option Plan :=
  let d := t.desc
  if !(dmaZero d && quantZero d && idxOk d && dmaOob d = 0) then none
  else match saddRefs c d with
    | none => none
    | some (a, base, stride) =>
      let rd := refReads a (dmaRows d) (dmaCols d) true
      let sp := saddSpan base stride d
      let n := cdiv (dmaRows d * dmaCols d) 64
      some { dma := true, ins := foot c (a.spans (dmaRows d) (dmaCols d) true) ++ [idxSpan c d], outs := [sp],
             reads := idxSpan c d :: rd ++ (if ownWin c base then (contributions s c d a base stride).map (fun e => (e.1, 16)) else []),
             far := farOf c (a.spans (dmaRows d) (dmaCols d) true) false ++ farOf c [sp] true,
             clocks := if a.aligned then n else 2 * n }

/-- The holder of an address of context memory. -/
def holderOf (s : State) (a : Nat) : Option Nat :=
  match areaOf s a with
  | .context h => some h
  | .firmware h => some h
  | .carve h => some h
  | .window _ _ => none
  | .csr => none
  | .nowhere => none

/-- Contributions that an engine's staging area holds (R223). -/
def stagedRoom : Nat := 262144

/-- The engines that have applied a tile for its program, and the status each gave (R182). -/
def saddDone (s : State) (c : Nat) (t : Tile) : List (Nat × Nat) :=
  s.holders.filterMap (fun h => (h.2.applied.find? (fun e => e.1 = c && e.2.1 = t.id)).map (fun e => (h.1, e.2.2)))

/-- The parts of a tile's contributions by holder, those that have already been applied left out (R182). -/
def saddParts (s : State) (c : Nat) (t : Tile) (l : List (Nat × Nat)) : List (Nat × List (Nat × Nat)) :=
  (((l.filterMap (fun e => holderOf s e.1)).eraseDups).filter (fun h => !(saddDone s c t).any (fun e => e.1 = h))).map
    (fun h => (h, l.filter (fun e => holderOf s e.1 = some h)))

/-- The parts that a tile sends to engines; none for a destination in the own window. -/
def saddSends (s : State) (c : Nat) (t : Tile) : List (Nat × List (Nat × Nat)) :=
  match saddRefs c t.desc with
  | none => []
  | some (a, base, stride) => if ownWin c base then [] else saddParts s c t (contributions s c t.desc a base stride)

/-- The effect of a SCATTER_ADD: into the own window at once; into device memory as contributions staged at each engine. What an engine
applied before a re-drive counts with the status it gave then (R182). -/
def saddEff (c _x : Nat) (t : Tile) (s : State) : Done :=
  let d := t.desc
  match saddRefs c d with
  | none => { s := s, st := stBad }
  | some (a, base, stride) =>
    let l := contributions s c d a base stride
    let out := ((List.range (dmaRows d)).filter (fun i => !idxIn d (idxAt s c d i))).length
    let s := s.modCell c (fun k => { k with dropped := bump k.dropped out })
    if ownWin c base then
      let r := addEntries s l
      { s := r.1, st := if r.2.2 then stMem else okFlag (r.2.1 || decide (out ≠ 0)) }
    else
      let parts := saddParts s c t l
      let u := parts.foldl (fun u p => u.modHolder p.1 (fun h => { h with staged := h.staged ++ [{ cell := c, tile := t.id, contr := p.2 }] })) s
      { s := modTile c t.id (fun v => { v with staged := parts.map (·.1) }) u,
        st := ((saddDone s c t).map (·.2)).foldl max (okFlag (decide (out ≠ 0))) }

/-- The issuing cell announces the tile's contribution count to each engine (R223). -/
def announceParts (c t : Nat) (parts : List (Nat × List (Nat × Nat))) (s : State) : State :=
  parts.foldl (fun u p => u.modHolder p.1 (fun h =>
    if h.announced.any (fun e => e.1 = c && e.2.1 = t) then h else { h with announced := h.announced ++ [(c, t, p.2.length)] })) s

/-- A tile announces what it sends (R223). -/
def saddAnnounce (c : Nat) (t : Tile) (s : State) : State := announceParts c t.id (saddSends s c t) s

/-- Engine h has reserved the space of a tile: it does so in announcement order, so the tiles announced before it and its own fit (R223). -/
def reserved (s : State) (h c t : Nat) : Bool :=
  let l := (s.holder h).announced
  let before := l.takeWhile (fun e => !(e.1 = c && e.2.1 = t))
  let own := (l.find? (fun e => e.1 = c && e.2.1 = t)).elim 0 (·.2.2)
  decide ((before.map (·.2.2)).sum + own ≤ stagedRoom)

/-- Staging entries reserved: of the announced tiles, oldest first, those that fit (R223). -/
def reservedNow (k : Holder) : Nat :=
  (k.announced.foldl (fun (a : Nat × Bool) e => if a.2 && decide (a.1 + e.2.2 ≤ stagedRoom) then (a.1 + e.2.2, true) else (a.1, false)) (0, true)).1

/-- SCATTER_ADD: the running tile of cell c announces its contributions, and sends them once every engine has reserved their space; or it adds
them in its own scratchpad. -/
def saddRow (c : Nat) (hits : List EccHit) (s : State) : State :=
  match runningTile s c 0x35 with
  | none => s
  | some t =>
    let u := saddAnnounce c t s
    if (saddSends s c t).all (fun p => reserved u p.1 c t.id) then applyTile saddPlan saddEff 0x35 c hits u else u

/-- SCATTER_ADD. -/
def execScatterAdd (c : Nat) (ecc : List EccHit) (s : State) : Host.Outcome State Fault Refusal := serving (saddRow c ecc) s

/-- What the engines hold of tiles is discarded: contributions staged and not applied, and space reserved. -/
def unstage (hit : Nat → Nat → Bool) (s : State) : State :=
  { s with holders := s.holders.map (fun h => (h.1, { h.2 with
      staged := h.2.staged.filter (fun e => !hit e.cell e.tile), announced := h.2.announced.filter (fun e => !hit e.1 e.2.1) })) }

/-- SCATTER_ADD_APPLY: the engine of holder h, to which every contribution of tile t of cell c has come, applies them, records the tile
as applied and acknowledges it (R181, R182). -/
def saddApply (h c t : Nat) (s : State) : State :=
  match (s.holder h).staged.find? (fun e => e.cell = c && e.tile = t) with
  | none => s
  | some g =>
    let r := addEntries s g.contr
    let st := if r.2.2 then stMem else okFlag r.2.1
    let s := r.1.modHolder h (fun k => { k with
      staged := k.staged.filter (fun e => !(e.cell = c && e.tile = t)), announced := k.announced.filter (fun e => !(e.1 = c && e.2.1 = t)),
      applied := k.applied.filter (fun e => !(e.1 = c && e.2.1 = t)) ++ [(c, t, st)] })
    modTile c t (fun u => { u with staged := u.staged.filter (fun k => k ≠ h), status := max u.status st }) s

/-- SCATTER_ADD_APPLY. -/
def execScatterAddApply (h c t : Nat) (s : State) : Host.Outcome State Fault Refusal := serving (saddApply h c t) s

end Sys2Proof.Machine
end

