-- ==== Sys2Proof/Machine/CellCore.lean ====
section
/-! DEFINITION. Machine/CellCore.lean: the cell control core: CORE_CALL, its issue interface, its exit and its faults (R152 to R157). -/
namespace Sys2Proof.Machine

/-- Address of the core's local memory in the window of cell c (R122, R152). -/
def coreMem (c a : Nat) : Nat := cellWin c + 0x600000 + a

/-! ## The core's address map and its issue interface (R152, R155)

The instructions that the runtime's code executes are no commands of the table: what they store into the core's local memory and its scratchpad
port comes by no row (log entry 93). The map and the registers that they would see are stated here. -/

/-- What a core address names; an access to any other raises an access fault (R152). -/
inductive CorePart where
  | firmware (off : Nat)           -- no access in user mode: locked by PMP
  | own (off : Nat)                -- local memory of the running context
  | issue (off : Nat)
  | scratch (off : Nat)
  | fault
  deriving DecidableEq, Repr

/-- The core's address map (R152). -/
def coreMap (a : Nat) : CorePart :=
  if a < 0x4000 then .firmware a
  else if a < 0x10000 then .own a
  else if 0x40000000 ≤ a ∧ a < 0x40000100 then .issue (a - 0x40000000)
  else if 0x80000000 ≤ a ∧ a < 0x80400000 then .scratch (a - 0x80000000)
  else .fault

/-- A register of the issue interface as a read by the core gives it: 0 while no CORE_CALL runs, and from a write-only one or an offset that
names none (log entry 93). -/
def readCore (s : State) (c off : Nat) : Nat :=
  match (s.cell c).core with
  | none => 0
  | some k =>
    if off = 0x84 then k.done
    else if off = 0x88 then k.last.toNat
    else if 0xA0 ≤ off ∧ off < 0xC0 then leAt k.recB (off - 0xA0) 4
    else if 0xC0 ≤ off ∧ off < 0xE0 then (k.args.getD ((off - 0xC0) / 4) 0).toNat
    else if off = 0xE4 then (s.clk - k.start) % 2 ^ 32
    else 0

/-- A word that user-mode code loads; none for an access fault, which ends the CORE_CALL (R152, R153). -/
def coreLoad (s : State) (c a : Nat) : Option Nat :=
  match coreMap a with
  | .firmware _ => none
  | .own o => some (ofLe (peek s (coreMem c o) 4))
  | .issue o => some (readCore s c o)
  | .scratch o => some (ofLe (peek s (spAddr c o) 4))
  | .fault => none

/-- A word that user-mode code stores in memory; none for an access fault. The issue interface takes its stores by the rows CEL_CORE_ISSUE and
CEL_CORE_EXIT. -/
def coreStore (c a v : Nat) (s : State) : Option State :=
  match coreMap a with
  | .firmware _ => none
  | .own o => some (poke s (coreMem c o) (le 4 v))
  | .issue _ => some s
  | .scratch o => some (writeMem s (spAddr c o) (le 4 v)).1
  | .fault => none

/-! ## CORE_CALL (R153, R154) -/

/-- The plan of a CORE_CALL: its code is read from code_addr (R154). -/
def corePlan (_s : State) (_c _x : Nat) (t : Tile) : Option Plan :=
  let d := t.desc
  let a := leAt d 64 8
  let n := w32 d 18
  let e := w32 d 19
  if !(tHeadOk d && decide (a < 2 ^ 48) && n % 4 = 0 && decide (n ≤ 49152) && (a ≠ 0 || n = 0) && decide (0x4000 ≤ e) && decide (e ≤ 0xFFFF)
      && wordsZero d 28 31) then none
  else some { ins := [(a, n)], reads := [(a, n)], far := [(a, n, false)] }

/-- The effect of a CORE_CALL: the code is copied into local memory and the core starts at entry in user mode. -/
def coreEff (c _x : Nat) (t : Tile) (s : State) : Done :=
  let d := t.desc
  let s := poke s (coreMem c 0x4000) (peek s (leAt d 64 8) (w32 d 18))
  { s := s.modCell c (fun k => { k with core := some {
      tile := t.id, args := (List.range 8).map (fun i => BitVec.ofNat 32 (w32 d (20 + i))), entry := w32 d 19, start := s.clk, segStart := s.clk,
      recB := zeros 32, desc := List.replicate 32 0 } }) }

/-- CORE_CALL. -/
def execCoreCall (c : Nat) (s : State) : Host.Outcome State Fault Refusal := serving (applyTile corePlan coreEff 0x40 c []) s

/-- Applies `f` to the running core of cell c. -/
def modCore (c : Nat) (f : CoreRun → CoreRun) (s : State) : State := s.modCell c (fun k => { k with core := k.core.map f })

/-- The program of cell c, or its CORE_CALL, has failed: nothing further starts (R127, R156, R424). -/
def stopped (s : State) (c : Nat) : Bool :=
  (match (s.cell c).prog with | some p => p.fail.isSome || p.stopNew | none => true)
    || (match (s.cell c).core with | some k => k.fail.isSome | none => false)

/-- CEL_CORE_ISSUE: the core stages 32 words and writes the register; 1 passes the descriptor to the sequencer. The write stalls while
four core-issued tiles wait, and is discarded once a core-issued tile has failed (R155, R156). -/
def coreIssue (c : Nat) (desc : List Word) (v : Word) (s : State) : State :=
  match (s.cell c).core, (s.cell c).prog with
  | some k, some p =>
    if k.exit.isSome || (decide (k.waiting ≥ 4) && v = 1) then s
    else
      let words := (desc ++ List.replicate 32 0).take 32
      let s := modCore c (fun k => { k with desc := words, segStart := s.clk }) s
      if v ≠ 1 || stopped s c then s
      else
        let t : Tile := { id := 2 ^ 32 * (k.tile + 1) + k.issued, desc := words.flatMap (fun w => le 4 w.toNat), core := true }
        let s := s.modCell c (fun u => { u with prog := some { p with tiles := p.tiles ++ [t] } })
        modCore c (fun k => { k with issued := k.issued + 1, waiting := k.waiting + 1 }) s
  | _, _ => s

/-- CEL_CORE_ISSUE. -/
def execCelCoreIssue (c : Nat) (desc : List Word) (v : Word) (s : State) : Host.Outcome State Fault Refusal := serving (coreIssue c desc v) s

/-- The CORE_CALL of cell c ends with a status once the tiles it has issued are complete; the first end stands. -/
def coreEnd (c st : Nat) (s : State) : State := modCore c (fun k => { k with exit := if k.exit.isSome then k.exit else some st }) s

/-- The status that a value written to CEL_CORE_EXIT stands for (R155). -/
def exitStatus (v : Nat) : Nat := if v = 0 || v = 1 || v = 0x11 then v else 0x11

/-- CEL_CORE_EXIT. -/
def execCelCoreExit (c : Nat) (v : Word) (s : State) : Host.Outcome State Fault Refusal := serving (coreEnd c (exitStatus v.toNat)) s

/-- CORE_FAULT: an illegal instruction ends the CORE_CALL with BAD_DESCRIPTOR, a PMP or access fault with PERMISSION (R153). -/
def execCoreFault (c : Nat) (illegal : Bool) (s : State) : Host.Outcome State Fault Refusal :=
  serving (coreEnd c (if illegal then stBad else stPerm)) s

end Sys2Proof.Machine
end

