-- ==== Sys2Proof/Machine/Fabric.lean ====
section
/-! DEFINITION. Machine/Fabric.lean: the package fabric: its links, virtual channels and arbiter, the routing tables, and the traversals between
dies (R19, R21 to R26). -/
namespace Sys2Proof.Machine

/-- The four classes of fabric link (R19). -/
inductive LinkClass where
  | memory | ring | chord | edge
  deriving DecidableEq, Repr

/-- The 28 fabric links by class (R19). -/
def linksOf : LinkClass → List (Nat × Nat)
  | .memory => (List.range 8).map (fun n => (n, 8 + n))
  | .ring => (List.range 8).map (fun n => (n, (n + 1) % 8))
  | .chord => (List.range 4).map (fun n => (n, n + 4))
  | .edge => [(8, 16), (9, 16), (10, 18), (11, 18), (12, 17), (13, 17), (14, 19), (15, 19)]

/-- All of them. -/
def fabricLinks : List (Nat × Nat) := linksOf .memory ++ linksOf .ring ++ linksOf .chord ++ linksOf .edge

/-! ## Virtual channels and the port arbiter (R21, R22)

A command of the model is whole before the next begins, so flits never wait on a port in a state, and all of one source arrive in the order sent
(R23, log entry 82). The channels and the arbiter are stated here as the rules give them. -/

/-- The virtual channels (R21). -/
inductive Channel where
  | vc0 | vc1 | vc2
  deriving DecidableEq, Repr

/-- What the fabric carries (R21). -/
inductive Traffic where
  | csr | doorbell | mailbox | hang | power
  | context (lc : Bool)
  | engine | parity | migration
  deriving DecidableEq, Repr

/-- The channel of each kind of traffic (R21). -/
def channelOf : Traffic → Channel
  | .csr => .vc0
  | .doorbell => .vc0
  | .mailbox => .vc0
  | .hang => .vc0
  | .power => .vc0
  | .context lc => if lc then .vc1 else .vc2
  | .engine => .vc2
  | .parity => .vc2
  | .migration => .vc2

/-- The arbiter of a fabric port (R22): slots since VC0 last took one while others waited, and slots shared by VC1 and VC2 so far. -/
structure FabPort where
  sinceVc0 : Nat := 7
  shared   : Nat := 0
  deriving DecidableEq, Repr

/-- The channel that receives the next slot, of those with flits waiting (R22): VC0 at once, but one slot in eight while another waits; of the
slots it leaves, VC1 three in four and VC2 one in four while both wait. -/
def FabPort.grant (p : FabPort) (w0 w1 w2 : Bool) : Option Channel × FabPort :=
  if !w1 && !w2 then (if w0 then some .vc0 else none, { p with sinceVc0 := 7 })
  else if w0 && decide (p.sinceVc0 ≥ 7) then (some .vc0, { p with sinceVc0 := 0 })
  else
    let q := { p with sinceVc0 := p.sinceVc0 + 1 }
    if w1 && w2 then (some (if p.shared = 3 then .vc2 else .vc1), { q with shared := (p.shared + 1) % 4 })
    else (some (if w1 then .vc1 else .vc2), q)

/-! ## Routes (R24 to R26) -/

/-- The link between two dies exists, is up, and neither die is fenced. -/
def linkLive (s : State) (e : Nat × Nat) : Bool :=
  !s.fabDown.any (fun d => (d.1 = e.1 && d.2 = e.2) || (d.1 = e.2 && d.2 = e.1)) && !fenced s e.1 && !fenced s e.2

/-- The links of a list that join a die to another, seen from the die. -/
def endsAt (ls : List (Nat × Nat)) (d : Nat) : List Nat :=
  ls.flatMap (fun e => (if e.1 = d then [e.2] else []) ++ (if e.2 = d then [e.1] else []))

/-- The dies one link of a list away from any of a set. -/
def fabricNext (ls : List (Nat × Nat)) (l : List Nat) : List Nat :=
  ls.flatMap (fun e => (if l.contains e.1 then [e.2] else []) ++ (if l.contains e.2 then [e.1] else []))

/-- The dies within n traversals of a die over some links. -/
def ballOver (ls : List (Nat × Nat)) (d : Nat) : Nat → List Nat
  | 0 => [d]
  | n + 1 => let l := ballOver ls d n; (l ++ fabricNext ls l).eraseDups

/-- The dies within n traversals of a die over the live links. -/
def fabricBall (s : State) (d n : Nat) : List Nat := ballOver (fabricLinks.filter (linkLive s)) d n

/-- Distances from a die over some links, to at most 19 traversals. -/
def distances (ls : List (Nat × Nat)) (d : Nat) : List (Nat × Nat) :=
  (List.range 20).flatMap (fun n => if n = 0 then [(d, 0)] else
    ((ballOver ls d n).filter (fun k => !(ballOver ls d (n - 1)).contains k)).map (fun k => (k, n)))

/-- The next die of the route from a die to one whose distances are given (R24): a neighbour one traversal nearer, over a link that is no chord
before one over a chord, and the lower-numbered before the higher-numbered. The order is settled die by die (log entry 82). -/
def nextHop (ls : List (Nat × Nat)) (dist : List (Nat × Nat)) (a : Nat) : Option Nat :=
  match getKey dist a with
  | none => none
  | some n =>
    let near := fun (chord : Bool) =>
      (List.range 20).find? (fun k => (endsAt (ls.filter (fun e => (linksOf .chord).contains e = chord)) a).contains k
        && getKey dist k = some (n - 1) && decide (0 < n))
    (near false).orElse (fun _ => near true)

/-- The firmware writes the routing tables: for every pair of dies that a route joins, the next die on it (R24, R25). -/
def writeRoutes (s : State) : State :=
  let ls := fabricLinks.filter (linkLive s)
  { s with fabRoutes := (List.range 20).flatMap (fun b =>
      let dist := distances ls b
      (List.range 20).filterMap (fun a => (nextHop ls dist a).map (fun n => (a, b, n)))) }

/-- The next die on the route from one die to another, by the tables in force. -/
def routeNext (s : State) (a b : Nat) : Option Nat := (s.fabRoutes.find? (fun r => r.1 = a && r.2.1 = b)).map (·.2.2)

/-- Traversals of the route from a die to another, in at most n. -/
def routeLen (s : State) (b : Nat) : Nat → Nat → Option Nat
  | 0, a => if a = b then some 0 else none
  | n + 1, a => if a = b then some 0 else
    match routeNext s a b with
    | some k => (routeLen s b n k).map (· + 1)
    | none => none

/-- Traversals of the route between two dies; 20 when there is none (R24). -/
def traversals (s : State) (a b : Nat) : Nat := (routeLen s b 19 a).getD 20

/-- The die that holds an address. -/
def dieOf (s : State) (a : Nat) : Option Nat :=
  match areaOf s a with
  | .context h => some h
  | .firmware h => some h
  | .carve h => some h
  | .window c _ => some (c / 32)
  | .csr => none
  | .nowhere => none

/-- The cells that are fenced, or whose die is, are shown so: nothing runs there, and they hold nothing (R514). -/
def fenceCells (s : State) : State :=
  (List.range 256).foldl (fun t c => if cellPresent t c then t else t.modCell c (fun _ => { st := .fenced })) s

end Sys2Proof.Machine
end

