-- ==== Sys2Proof/Machine/Cells.lean ====
section
/-! DEFINITION. Machine/Cells.lean: cells and contexts: placement, clearing, saving and restoring a cell, the start and the end of a
program (R127, R187, R189, R376 to R379, R487). -/
namespace Sys2Proof.Machine

/-! ## Clearing, saving, restoring -/

/-- Copies n bytes of memory from src to dst. -/
def memCopy (m : List Host.Cell) (src dst n : Nat) : List Host.Cell :=
  (m.filter (fun c => decide (src ≤ c.1) && decide (c.1 < src + n))).foldl (fun t c => Tab.set t (c.1 - src + dst) c.2) (memZero m dst n)

/-- The cell zeroes its scratchpad, accumulator and status stores, and the user part of core memory is cleared (R152, R487). -/
def clearCell (c : Nat) (s : State) : State :=
  ({ s with mem := memZero (memZero s.mem (cellWin c) 0x5B0000) (coreMem c 0x4000) 0xC000 } : State).modCell c (fun k => { k with groups := [], bad := [], core := none })

/-- The base of the save area of compute die n: in its stack, or at the top of context memory of the stack that received it, the sets of
several dies standing from the top down in ascending order of die (R187, R189; log entry 25). -/
def saveBase (s : State) (n : Nat) : Nat :=
  if !fenced s (8 + n) then n * stackSize + 0xB30000000
  else match relocTo s n with
    | none => 0
    | some k =>
      let before := ((List.range n).filter (fun m => fenced s (8 + m) && !fenced s m && relocTo s m = some k)).length
      k * stackSize + 0xB30000000 - (before + 1) * 0xD000000

/-- The crash slot of cell c: 324 KiB each, behind the firmware parts of the saves (R187, R409). -/
def crashSlot (s : State) (c : Nat) : Nat := saveBase s (c / 32) + 0xB800000 + c % 32 * 0x51000

/-- The profile buffer: the last 16 MiB of the firmware tables of the lowest present stack (R187, R412; log entry 48). -/
def profBase (s : State) : Nat := ((presentStacks s).head?.getD 0) * stackSize + 0xB3F000000

/-- The save area of cell c, and its part of the compute-die tables. -/
def saveArea (s : State) (c : Nat) : Nat × Nat :=
  (saveBase s (c / 32) + c % 32 * 0x580000, saveBase s (c / 32) + 0xB000000 + c % 32 * 0x40000)

/-- Writes the save image of cell c (R379) and zeroes the stores behind it. -/
def saveImage (c : Nat) (s : State) : State :=
  let a := saveArea s c
  let k := s.cell c
  let m := memCopy (memCopy (memCopy s.mem (cellWin c) a.1 0x580000) (cellWin c + 0x580000) a.2 0x30000) (coreMem c 0x4000) (a.2 + 0x30000) 0xC000
  (clearCell c { s with mem := m }).modCell c (fun u => { u with
    saved := some { ctx := k.ctx, prog := k.prog, groups := k.groups, core := k.core, bad := k.bad }, prog := none })

/-- Restores the image of cell c: every store, every group, the program at its next tile (R377, R379). -/
def restoreImage (c : Nat) (s : State) : State :=
  match (s.cell c).saved with
  | none => s
  | some v =>
    let a := saveArea s c
    let s := clearCell c s
    let m := memCopy (memCopy (memCopy s.mem a.1 (cellWin c) 0x580000) a.2 (cellWin c + 0x580000) 0x30000) (a.2 + 0x30000) (coreMem c 0x4000) 0xC000
    ({ s with mem := m } : State).modCell c (fun u => { u with
      ctx := v.ctx, prog := v.prog, groups := v.groups, core := v.core, bad := v.bad, saved := none, restoring := false,
      st := if v.prog.isSome then .running else .idle })

/-! ## Placement (R376) -/

/-- The cells a context may run on. -/
def candidates (s : State) (x : Nat) : List Nat :=
  let c := s.ctx x
  (c.owned ++ (if c.lc then c.guest else [])).filter (cellPresent s)

/-- A cell holds the odd half of PAIRED groups (R108). -/
def Cell.halves (k : Cell) : Bool := k.groups.any (fun g => g.2.tmode = 1)

/-- A cell is free for a context: idle, in service, with no image that a restore must write back first (a pre-empted owner's
image stays saved, R380), and with no half of another context's PAIRED group. -/
def cellFree (s : State) (x c : Nat) : Bool :=
  let k := s.cell c
  cellPresent s c && k.st = .idle && k.prog.isNone && !k.parked && !k.restoring && (k.ctx = x || !k.halves)
    && (match k.saved with | none => true | some v => decide (k.ctx = x ∧ x ≠ v.ctx) || (decide (x ≠ v.ctx) && (s.ctx v.ctx).st = .preempted))

/-- The rank of a candidate: traversals to the affinity address, owned before guest for an LC context, flat index. -/
def cellRank (s : State) (x aff c : Nat) : Nat :=
  let t := if aff = 0 then 0 else match dieOf s aff with | some h => traversals s (c / 32) h | none => 0
  t * 100000 + (if (s.ctx x).lc && !(s.ctx x).owned.contains c then 1000 else 0) + c

/-- The best of some cells. -/
def bestCell (s : State) (x aff : Nat) (l : List Nat) : Option Nat :=
  (sortBy (fun a b => decide (cellRank s x aff a < cellRank s x aff b)) l).head?

/-- A guest cell that an LC context may borrow: it runs BE work of its owner, or holds a half of it, and no launch is borrowing it yet. -/
def borrowable (s : State) (x c : Nat) : Bool :=
  let k := s.cell c
  (s.ctx x).lc && (s.ctx x).guest.contains c && cellPresent s c && !k.parked
    && (match k.prog with
        | some p => k.st = .running && decide (p.ctx ≠ x) && !(s.ctx p.ctx).lc
        | none => k.st = .idle && !k.restoring && k.saved.isNone && k.halves && decide (k.ctx ≠ x) && !(s.ctx k.ctx).lc)

/-- Where a launch goes: the named cell, or the best free candidate; or the guest cell to borrow. -/
inductive Placed where
  | free (c : Nat)
  | borrow (c : Nat)
  | wait
  deriving DecidableEq, Repr

/-- The cells among which a launch of context x is placed: the candidates, or the one it names. -/
def cellsFor (s : State) (x cell : Nat) : List Nat := if cell = 0xFFFF then candidates s x else [cell]

/-- An LC launch that waits would take cell c now (R375). -/
def lcTakes (s : State) (c : Nat) : Bool :=
  s.queues.any (fun e => (s.ctx e.2.ctx).lc && e.2.flight.any (fun m =>
    decide (cOp m.bytes = 0x20) && m.waiting && m.counted && m.status.isNone && m.borrow.isNone
      && bestCell s e.2.ctx (leAt m.bytes 48 8) ((cellsFor s e.2.ctx (leAt m.bytes 24 2)).filter (cellFree s e.2.ctx)) = some c))

/-- Places a launch of context x. A BE launch leaves a free cell to an LC launch that waits for it: LC work is served first (R375). -/
def placeOf (s : State) (x cell aff : Nat) : Placed :=
  let l := cellsFor s x cell
  match bestCell s x aff (l.filter (fun c => cellFree s x c && ((s.ctx x).lc || !lcTakes s c))) with
  | some c => .free c
  | none => match bestCell s x aff (l.filter (borrowable s x)) with
    | some c => .borrow c
    | none => .wait

/-! ## The start of a program -/

/-- A launch's command starts its program on cell c: the cell takes the context, cleared when that changes its owner (R376, R377, R487). -/
def startProgram (q k c : Nat) (s : State) : State :=
  match findCmd s q k with
  | none => s
  | some m =>
    let x := (s.queue q).ctx
    let b := m.bytes
    let base := if bit (leAt b 28 1) 0 then ((s.ctx x).epochs.find? (fun e => e.num = m.epoch)).elim 0 (·.progBase) else 0
    let s := if (s.cell c).ctx = x then s else clearCell c s
    let p : Program := {
      queue := q, cmd := k, ctx := x, prog := base + leAt b 32 8, recAt := leAt b 40 8, seq := m.seq, epoch := if m.pinned then some m.epoch else none }
    let s := s.modCell c (fun u => { u with st := .running, ctx := x, prog := some p, stopFor := none })
    let s := ffTrace 0x0003 (c / 32) c (some x) (le 2 q ++ le 4 k) s
    modCmd s q k (fun u => { u with waiting := false, borrow := none, pinned := false, seq := none })

/-- The cell is at a boundary: no tile, no CORE_CALL and no tile of a pair whose odd cell it is runs on it (R108, R151, R377). -/
def atBoundary (s : State) (c : Nat) : Bool :=
  (s.cell c).core.isNone && !(tilesOf s c).any (fun t => t.running) && !(c % 2 = 1 && (tilesOf s (c - 1)).any (fun t => t.running && t.odd))

/-- A cell that is asked to stop and has reached a boundary: its image is saved, or, with nothing to save, the borrowing launch starts. -/
def reachBoundary (c : Nat) (s : State) : State :=
  let k := s.cell c
  if k.st ≠ .stopping || !atBoundary s c then s
  else if k.prog.isSome || k.halves then s.modCell c (fun u => { u with st := .saving })
  else match k.stopFor with
    | some (q, m) =>
      let s := s.modCell c (fun u => { u with st := .idle, stopFor := none })
      if (findCmd s q m).any (fun e => e.status.isNone) then startProgram q m c s else s
    | none => s.modCell c (fun u => { u with st := .idle })

/-! ## The end of a program (R127, R367, R383) -/

/-- A sequence's launch has completed. -/
def seqDone (t : Nat) (s : State) : State := s.modSeq t (fun e => { e with inFlight := e.inFlight - 1 })

/-- The progress counter of SEQ_CLOSE: launches of the sequence completed (R422). -/
def seqProgress (t : Nat) (s : State) : State :=
  { s with queues := s.queues.map (fun e => (e.1, { e.2 with flight := e.2.flight.map (fun c =>
      if cOp c.bytes = 0x24 && leAt c.bytes 24 2 = t && c.status.isNone then { c with progress := c.progress + 1 } else c) })) }

/-- The program of cell c ends: its launch completes TIMEOUT when it was found hung (R424), with the status of the
earliest failing tile, else OK_FLAGGED or OK, and the cell is
free, or goes to the launch that waits to borrow it. -/
def endProgram (c : Nat) (s : State) : State :=
  match (s.cell c).prog with
  | none => s
  | some p =>
    let st := if p.stopNew then stTimeout else match p.fail with | some f => f.2 | none => okFlag p.flagged
    let d1 := if p.stopNew then p.next else match p.fail with | some f => f.1 % 2 ^ 32 | none => p.written
    let s := finishCmd p.queue p.cmd st d1 c s
    let s := match p.seq with | some t => seqProgress t (seqDone t s) | none => s
    let s := match p.epoch with | some e => unpinEpoch p.ctx e s | none => s
    let s : State := { s with holders := s.holders.map (fun h => (h.1, { h.2 with applied := h.2.applied.filter (fun e => e.1 ≠ c) })) }
    let s := s.modCell c (fun k => { k with prog := none, core := none, st := if k.st = .running then .idle else k.st })
    let s := ffTrace 0x0004 (c / 32) c (some p.ctx) (le 1 st ++ le 4 p.written ++ le 8 p.busy) s
    reachBoundary c (pollCtx p.ctx s)

/-- The program has fetched END or failed, and nothing of it is left to run or to record. -/
def tryEnd (c : Nat) (s : State) : State :=
  match (s.cell c).prog with
  | none => s
  | some p => if (p.ended || p.fail.isSome || p.stopNew) && p.tiles.isEmpty then endProgram c s else s

end Sys2Proof.Machine
end

