-- ==== Sys2Proof/Machine/Vector.lean ====
section
/-! DEFINITION. Machine/Vector.lean: VEC (R139 to R141, R143). -/
namespace Sys2Proof.Machine

/-- The fields of a VEC descriptor (R139). -/
structure VecF where
  progAt  : Nat
  progLen : Nat
  nIn     : Nat
  redMax  : Bool
  redSum  : Bool
  constAt : Nat
  rows    : Nat
  cols    : Nat
  q       : Nat
  tab     : Nat
  rsum    : Int
  redAt   : Nat
  deriving DecidableEq, Repr

/-- Reads the fields of R139. -/
def vecOf (d : Bytes) : VecF :=
  { progAt := fld d 20 0 22, progLen := fld d 21 28 4 + 1, nIn := fld d 21 26 2, redMax := fld d 21 24 1 = 1, redSum := fld d 21 25 1 = 1,
    constAt := fld d 21 0 22, rows := fld d 22 20 12 + 1, cols := fld d 22 8 12 + 1, q := w32 d 24, tab := fld d 25 0 22,
    rsum := toSigned 16 (fld d 29 16 16), redAt := fld d 30 0 22 }

/-- Reserved fields are zero and fields in range. -/
def vecForm (d : Bytes) (f : VecF) : Bool :=
  tHeadOk d && fld d 20 22 10 = 0 && f.progAt % 4 = 0 && fld d 21 22 2 = 0 && fld d 22 0 8 = 0 && w32 d 23 = 0 && fld d 25 22 10 = 0
    && fld d 27 16 16 = 0 && fld d 29 0 16 = 0 && fld d 30 22 10 = 0
    && decide (-300 ≤ f.rsum) && decide (f.rsum ≤ 300)

/-- Input formats: those that convert exactly to FP32 (R71, R139). -/
def vecFmt (f : Fmt) : Bool :=
  f = .fp32 || f = .fp16 || f = .bf16 || f = .e4m3 || f = .e5m2 || f = .gbf8 || f = .gbf4 || f = .gbi16 || f = .gbi24

/-- The byte offsets of X, Y and Z. -/
def vecAt (i : Nat) : Nat := [16, 32, 64].getD i 64

/-- The inputs in order; none when one is malformed or an unused one is not zero. -/
def vecIns (c : Nat) (d : Bytes) (f : VecF) : Option (List TRef) :=
  (List.range 3).foldr (fun i acc =>
    match acc with
    | none => none
    | some l =>
      if i < f.nIn then
        match opRef c none true d (vecAt i) with
        | none => none
        | some r => if vecFmt r.fmt && r.shapeOk f.rows f.cols then some (r :: l) else none
      else if (slice d (vecAt i) 16).all (· = 0) then some l else none) (some [])

/-- The output: control word and reference; cols is a multiple of 32 for a block target. -/
def vecOut (c : Nat) (mode : Mode) (d : Bytes) (f : VecF) : Option (QCtl × TRef) :=
  match qDecode (mode = .strictIeee) f.q with
  | none => none
  | some q =>
    match opRef c (some q.fmt) false d 48 with
    | none => none
    | some r => if r.shapeOk f.rows f.cols && (!fmtBlocked r.fmt || f.cols % 32 = 0) then some (q, r) else none

/-- The micro-operations of a tile. -/
def vecProg (s : State) (c : Nat) (f : VecF) : List MicroOp :=
  (List.range f.progLen).map (fun i => microOf (ofLe (peek s (spAddr c f.progAt + 4 * i) 4)))

/-- Bytes of a list of intervals, doubled when a reference is not aligned (R168). -/
def traffic (r : TRef) (l : List (Nat × Nat)) : Nat :=
  let n := (l.map (·.2)).sum
  if r.aligned then n else 2 * n

/-- The plan of a VEC tile. What depends on the program's bytes (their legality, the constants, the lane slots) counts once no earlier tile that
may write them is running (R125, R126). DESIGN CHOICE (log entry 90): red_en of a VEC tile is no fused reduction of a matrix tile, so a
STRICT_IEEE context may use it (R117). -/
def vecPlan (s : State) (c x : Nat) (t : Tile) : Option Plan :=
  let d := t.desc
  let f := vecOf d
  if !vecForm d f then none
  else match vecIns c d f, vecOut c (modeOf s x) d f with
    | some ins, some (q, r) =>
      let prog := vecProg s c f
      let const := if prog.any (fun o => o.vop = 0x0A) then [(spAddr c f.constAt, 64)] else []
      let outs := hull (r.spans f.rows f.cols false) ++ (if f.redMax || f.redSum then [(spAddr c f.redAt, 32 * f.rows)] else [])
      let fixed := [(spAddr c f.progAt, 4 * f.progLen)]
        ++ (if q.qmode = .agreed then [(spAddr c f.tab, r.blocks f.rows f.cols)] else [])
      let slots := (prog.map microSlots).sum
      let bytes := (ins.map (fun i => traffic i (refReads i f.rows f.cols true))).sum + traffic r (refReads r f.rows f.cols false)
      some { vector := true,
             ins := ins.flatMap (fun i => hull (i.spans f.rows f.cols true)) ++ fixed,
             reads := ins.flatMap (fun i => refReads i f.rows f.cols true) ++ fixed ++ const, outs := outs, late := const,
             bad := !prog.all microLegal || !const.all (inSp c) || anyMeet outs const || decide (cdiv (f.rows * f.cols * slots) 1024 > 60000),
             clocks := cdiv bytes 1024 }
    | none, _ => none
    | some _, none => none

/-- v15 of the element at (row, col) after the program (R139, R140). -/
def vecElem (s : State) (c : Nat) (f : VecF) (ins : List TRef) (prog : List MicroOp) (key : SrKey) (i j : Nat) : Nat :=
  let v0 := ins.map (fun r => enc32 (elemAt s r i j))
  let rand := fun n => drawWith key.keys key.step (key.gidx i j) n
  let const := fun n => ofLe (peek s (spAddr c f.constAt + 4 * n) 4)
  (microRun const rand prog (v0 ++ List.replicate (16 - v0.length) 0)).getD 15 0

/-- The effect of a VEC tile. -/
def vecEff (c x : Nat) (t : Tile) (s : State) : Done :=
  let d := t.desc
  let f := vecOf d
  match vecIns c d f, vecOut c (modeOf s x) d f with
  | some ins, some (q, r) =>
    let prog := vecProg s c f
    let key := srKey s x d
    let vals := (List.range f.rows).map (fun i => (List.range f.cols).map (fun j => dec32 (vecElem s c f ins prog key i j)))
    let blocks := quantise s q (qRound false q) r f.rows f.cols (spAddr c f.tab) key (fun i j => (vals.getD i []).getD j vZero)
    let qc := countsOf blocks
    let recs := if f.redMax || f.redSum then [(spAddr c f.redAt, vals.flatMap (fun v => (rowRecord false f.redMax f.redSum f.rsum v).1))] else []
    { s := (writeList s (planeWrites r blocks ++ recs)).1, st := okFlag (qFlags qc), q := qc }
  | none, _ => { s := s, st := stBad }
  | some _, none => { s := s, st := stBad }

/-- VEC. -/
def execVec (c : Nat) (ecc : List EccHit) (s : State) : Host.Outcome State Fault Refusal :=
  serving (applyTile vecPlan vecEff 0x20 c ecc) s

end Sys2Proof.Machine
end

