-- ==== Sys2Proof/Machine/Sequencer.lean ====
section
/-! DEFINITION. Machine/Sequencer.lean: the sequencer of a cell: fetch, validation and start of tiles, their completion, records and
watchdog, and the end of a program (R123 to R129, R149 to R151, R156, R157). -/
namespace Sys2Proof.Machine

/-! ## Plans and conflicts by op (R126, R131) -/

/-- The plan of a tile; none is BAD_DESCRIPTOR. END and CORE_CALL are no tiles that the control core can issue (log entry 29). -/
def planOf (s : State) (c x : Nat) (t : Tile) : Option Plan :=
  match tOp t.desc with
  | 0x01 => if tHeadOk t.desc then some {} else none
  | 0x10 => matPlan s c x t
  | 0x11 => scanPlan s c x t
  | 0x12 => spillPlan s c x t
  | 0x13 => fillPlan s c x t
  | 0x14 => accDrainPlan s c x t
  | 0x20 => vecPlan s c x t
  | 0x30 => copyPlan s c x t
  | 0x31 => layoutPlan s c x t
  | 0x32 => winPlan s c x t
  | 0x33 => gatherPlan s c x t
  | 0x34 => scatterPlan s c x t
  | 0x35 => saddPlan s c x t
  | 0x40 => if t.core then none else corePlan s c x t
  | _ => none

/-- Check 3 of R126: the tile's accumulator use conflicts with the store (R105, R136 to R138). -/
def conflictOf (s : State) (c x : Nat) (t : Tile) : Bool :=
  match tOp t.desc with
  | 0x10 => matConflict s c x t
  | 0x12 => let k := spillSlot (modeOf s x) t.desc; groupGone s c k.1 k.2
  | 0x13 => fillConflict s c x t
  | 0x14 => let f := matOf (modeOf s x) t.desc; groupGone s c f.grid f.slot
  | _ => false

/-! ## Fetch (R123) -/

/-- What the sequencer finds next: nothing it may start, END, a tile with the descriptors it takes, or an unreadable descriptor. -/
inductive Fetched where
  | nothing
  | stop
  | tile (t : Tile) (takes : Nat)
  | failed (st : Nat)
  deriving DecidableEq, Repr

/-- The descriptor at a program index. -/
def descAt (s : State) (p : Program) (i : Nat) : Except Nat Bytes := readFor s p.ctx (p.prog + 128 * i) 128

/-- A matrix tile with tile_mode PACKED. -/
def isPacked (d : Bytes) : Bool := tOp d = 0x10 && fld d 19 13 2 = 2

/-- The next core-issued tile: the oldest not started; a PACKED one takes the PACKED_TAIL issued after it. -/
def nextCore (s : State) (c : Nat) : Fetched :=
  match (tilesOf s c).filter (fun t => t.core && !t.running && !t.done) with
  | [] => .nothing
  | [t] => if isPacked t.desc && (match (s.cell c).core with | some k => k.exit.isNone | none => false) then .nothing else .tile t 0
  | t :: u :: _ => if isPacked t.desc && tOp u.desc = 0x15 then .tile { t with tail := u.desc } 1 else .tile t 0

/-- The sequencer fetches descriptor i: up to four ahead of the oldest unfinished tile (R123). -/
def inReach (p : Program) (i : Nat) : Bool :=
  match p.tiles.find? (fun t => !t.core && !t.done) with
  | some t => decide (i ≤ t.id + 4)
  | none => true

/-- The next descriptor of the program; none while a CORE_CALL has not completed. -/
def nextProg (s : State) (p : Program) : Fetched :=
  if p.ended || p.tiles.any (fun t => !t.core && !t.done && tOp t.desc = 0x40) || !inReach p p.next then .nothing
  else match descAt s p p.next with
    | .error st => .failed st
    | .ok d =>
      let t : Tile := { id := p.next, desc := d, rerun := decide (p.written + (p.tiles.filter (fun u => !u.core)).length < p.skip) }
      if tOp d = 0 && tHeadOk d then .stop
      else if isPacked d then
        if !inReach p (p.next + 1) then .nothing
        else match descAt s p (p.next + 1) with
        | .ok e => if tOp e = 0x15 then .tile { t with tail := e } 2 else .tile t 1
        | .error _ => .tile t 1
      else .tile t 1

/-- What the sequencer of cell c may take up: nothing after a failure, and only tiles of the running CORE_CALL once it is asked to stop. -/
def fetch (s : State) (c : Nat) : Fetched :=
  match (s.cell c).prog with
  | none => .nothing
  | some p =>
    if stopped s c then .nothing
    else if (s.cell c).core.isSome then (if (s.cell c).st = .running || (s.cell c).st = .stopping then nextCore s c else .nothing)
    else if (s.cell c).st = .running then nextProg s p else .nothing

/-! ## The completion of core-issued tiles (R156) -/

/-- Counters of a tile, for CORE_CALL sums. -/
def tileRec (t : Tile) : Bytes := recordBytes t.status (tOp t.desc) (tTag t.desc) t.word0 t.word1 t.q t.busy t.stall t.late

/-- A core-issued tile has completed: the issue interface shows it, and it signals its semaphore. -/
def coreTileDone (c : Nat) (t : Tile) (s : State) : State :=
  let s := s.modCell c (fun k => { k with
    prog := k.prog.map (fun p => { p with tiles := p.tiles.filter (fun u => u.id ≠ t.id) }),
    core := k.core.map (fun r => { r with
      waiting := r.waiting - 1, done := r.done + 1,
      last := BitVec.ofNat 32 (t.status * 2 ^ 24 + tOp t.desc * 2 ^ 16 + tTag t.desc), recB := tileRec t, q := addQ r.q t.q,
      fail := if r.fail.isSome || decide (t.status < 0x10) then r.fail else some t.status }) })
  if t.status < 0x10 then semSignal (cellCtx s c) (tSignal t.desc) s else s

/-- The earliest failing tile of a program (R127). -/
def noteFail (i st : Nat) (f : Option (Nat × Nat)) : Option (Nat × Nat) :=
  if st < 0x10 then f
  else match f with
    | none => some (i, st)
    | some (j, e) => if i < j then some (i, st) else some (j, e)

/-! ## TILE_START (R124, R126) -/

/-- Takes descriptors from the program, or the tail of a core-issued pair. -/
def takeDescs (c : Nat) (t : Tile) (n : Nat) (s : State) : State :=
  s.modCell c (fun k => { k with
    prog := k.prog.map (fun p =>
      if t.core then
        let rest := p.tiles.filter (fun u => u.id ≠ t.id)
        { p with tiles := (if n = 1 then rest.filter (fun u => u.id ≠ t.id + 1) else rest) ++ [t] }
      else { p with tiles := p.tiles ++ [t], next := p.next + n }),
    core := if t.core && n = 1 then k.core.map (fun r => { r with waiting := r.waiting - 1 }) else k.core })

/-- A tile fails validation: its record is written, and the program ends with its status. -/
def failTile (c : Nat) (t : Tile) (n st : Nat) (s : State) : State :=
  let t := { t with done := true, applied := true, status := st }
  let s := takeDescs c t n s
  if t.core then coreTileDone c t s
  else s.modCell c (fun k => { k with prog := k.prog.map (fun p => { p with fail := noteFail t.id st p.fail }) })

/-- A unit of the plan is busy with a running tile. -/
def unitsBusy (s : State) (c : Nat) (p : Plan) : Bool :=
  let r := (tilesOf s c).filter (·.running)
  (p.array && (r.any (·.array) || (c % 2 = 1 && (tilesOf s (c - 1)).any (fun t => t.running && t.odd))))
    || (p.vector && r.any (·.vector)) || (p.dma && r.any (·.dma))

/-- The plan is in hazard with a running tile (R125). -/
def inHazard (s : State) (c : Nat) (p : Plan) : Bool :=
  (tilesOf s c).any (fun t => t.running && (anyMeet (p.own c).2 (t.rd ++ t.wr) || anyMeet t.wr ((p.own c).1 ++ (p.own c).2)))

/-- The tile is a PAIRED matrix tile. -/
def isPaired (d : Bytes) : Bool := tOp d = 0x10 && fld d 19 13 2 = 1

/-- The tile uses the odd cell's part of a PAIRED group (R106, R108). -/
def usesOdd (s : State) (c x : Nat) (t : Tile) : Bool :=
  let pairedIn := fun (grid : Bool) slot => (groupOf s c grid slot).any (fun g => g.tmode = 1)
  match tOp t.desc with
  | 0x10 => isPaired t.desc
  | 0x12 => let k := spillSlot (modeOf s x) t.desc; pairedIn k.1 k.2
  | 0x13 => (matOf (modeOf s x) t.desc).tmode = 1
  | 0x14 => let f := matOf (modeOf s x) t.desc; pairedIn f.grid f.slot
  | _ => false

/-- The odd cell is with another context, or on its way back from it, and the tile waits for it. -/
def oddAway (s : State) (c x : Nat) : Bool :=
  let k := s.cell (c + 1)
  k.restoring || !(k.st = .idle || k.st = .running) || k.saved.any (fun v => v.ctx = x) || (k.ctx ≠ x && !cellFree s x (c + 1))

/-- The odd cell takes the context with its first PAIRED tile there, cleared when that changes its owner (R108, R487). -/
def takeOdd (c x : Nat) (s : State) : State :=
  if (s.cell (c + 1)).ctx = x then s else (clearCell (c + 1) s).modCell (c + 1) (fun k => { k with ctx := x })

/-- The tile's op may write gradient partials (R235; log entry 27). -/
def opensBwd (s : State) (x : Nat) (t : Tile) : Bool :=
  (tOp t.desc = 0x10 || tOp t.desc = 0x20 || tOp t.desc = 0x31 || tOp t.desc = 0x14) && isBackward (s.sl x).kind (w32 t.desc 24)
    && (!(tOp t.desc = 0x10) || fld t.desc 19 8 1 = 1)

/-- Under an active power cap the shell may gate issue at the tile boundary: time only, and the event is counted (R29). -/
def gateIssue (c x : Nat) (p : Plan) (s : State) : State :=
  if pcapNow s = 0 || !(p.array || p.vector) then s
  else
    let b := takeBool s
    if !b.1 then b.2
    else
      let s : State := { b.2 with pwr := { b.2.pwr with gate := b.2.pwr.gate + 1, gateAt := (s.clk :: b.2.pwr.gateAt).filter (fun k => decide (s.clk - k < clkMs)) } }
      let s := if (s.ctx x).jobTag ≠ 0 then s.modSl x (fun l => { l with gateEv := l.gateEv + 1 }) else s
      ffTrace 0x000C (c / 32) (c / 32) none (le 4 s.pwr.gateAt.length ++ le 4 s.pwr.droopAt.length) s

/-- The tile starts. -/
def runTile (c x : Nat) (t : Tile) (n : Nat) (p : Plan) (s : State) : State :=
  let s := if t.rerun then s else semTake x (tWait t.desc) s
  let s := gateIssue c x p s
  let s := if usesOdd s c x t then takeOdd c x s else s
  let k := s.cell c
  let s := takeDescs c { t with
    running := true, start := s.clk, step := (s.sl x).step, num := k.nTiles, odd := isPaired t.desc, array := p.array, vector := p.vector,
    dma := p.dma, rd := (p.own c).1, wr := (p.own c).2 ++ p.far.filterMap (fun f => if f.2.2 then some (f.1, f.2.1) else none) } n s
  let s := s.modCell c (fun u => { u with nTiles := u.nTiles + 1, tileIdx := BitVec.ofNat 16 t.id })
  let s := if isPaired t.desc then s.modCell (c + 1) (fun u => { u with nTiles := u.nTiles + 1 }) else s
  let s := bubbleStart x c t s
  if (s.ctx x).jobTag ≠ 0 && (s.sl x).phase = .fwd && opensBwd s x t then enterPhase x .bwd s else s

/-- The descriptor that could not be fetched. DESIGN CHOICE (log entry 90): its record carries op 0 and tile_tag 0, since no header has been read
(R128). -/
def noDesc : Bytes := zeros 128

/-- The wait of a tile for a unit of its semaphore. -/
def tileWait (s : State) (c : Nat) (t : Tile) : Nat × Nat × Nat × Nat :=
  (tWait t.desc, 16384 + c, (match (s.cell c).prog with | some p => p.cmd | none => 0), t.id)

/-- TILE_START: the sequencer of cell c validates its next descriptor and starts the tile when its units are free, no hazard stands and its
wait semaphore is satisfied. Tiles start in program order. -/
def tileStart (c : Nat) (s : State) : State :=
  match fetch s c with
  | .nothing => s
  | .stop => s
  | .failed st =>
    let i := match (s.cell c).prog with | some p => p.next | none => 0
    let a := match (s.cell c).prog with | some p => p.prog + 128 * p.next | none => 0
    failTile c { id := i, desc := noDesc } 1 st (noteRead st a 128 s)
  | .tile t n =>
    let x := cellCtx s c
    match planOf s c x t with
    | none => failTile c t n stBad s
    | some p =>
      if !p.fits c then failTile c t n stBad s
      else if !p.may s x then failTile c t n stPerm s
      else if unitsBusy s c p || inHazard s c p || (isPaired t.desc && unitsBusy s (c + 1) p) || (usesOdd s c x t && oddAway s c x) then s
      else if p.bad then failTile c t n stBad s
      else if conflictOf s c x t then failTile c t n stConflict s
      else if !(t.rerun || semTurn s x (tileWait s c t)) then bubbleWait x c t (semWait x (tileWait s c t) s)
      else runTile c x t n p s

/-- TILE_START. -/
def execTileStart (c : Nat) (s : State) : Host.Outcome State Fault Refusal := serving (tileStart c) s

/-- END: the program has no further tile; it ends once everything before has its record (R123, R127). -/
def tileEnd (c : Nat) (s : State) : State :=
  match fetch s c with
  | .stop => tryEnd c (s.modCell c (fun k => { k with prog := k.prog.map (fun p => { p with ended := true }) }))
  | .nothing => s
  | .tile _ _ => s
  | .failed _ => s

/-- END. -/
def execTileEnd (c : Nat) (s : State) : Host.Outcome State Fault Refusal := serving (tileEnd c) s

/-- NOP: no effect but its semaphores (R131). -/
def execTileNop (c : Nat) (s : State) : Host.Outcome State Fault Refusal :=
  serving (applyTile planOf (fun _ _ _ t => { s := t }) 0x01 c []) s

/-! ## TILE_COMPLETE (R127, R151, R156) -/

/-- The CORE_CALL of a tile has ended and the tiles it issued are complete, or will not start any more. -/
def coreOver (s : State) (c : Nat) (t : Tile) : Bool :=
  match (s.cell c).core with
  | none => true
  | some k =>
    k.tile ≠ t.id || (k.exit.isSome && !(tilesOf s c).any (fun u => u.core && u.running)
      && (stopped s c || !(tilesOf s c).any (fun u => u.core && !u.done)))

/-- What a CORE_CALL's record carries: its status and the sums of its tiles' counters. -/
def coreResult (s : State) (c : Nat) (t : Tile) : Tile :=
  match (s.cell c).core with
  | some k => if k.tile = t.id then { t with status := k.fail.getD (k.exit.getD stInternal), q := k.q } else t
  | none => t

/-- A tile that ran past 100 µs completes OK_FLAGGED (R143). -/
def lateStatus (t : Tile) : Nat := if t.status = 0 && t.late then stFlagged else t.status

/-- TILE_COMPLETE: tile t of cell c, its effect done and every engine's acknowledgement there, finishes; the cell may reach a boundary. -/
def tileComplete (c t : Nat) (s : State) : State :=
  match tileAt s c t with
  | none => s
  | some u =>
    let call := tOp u.desc = 0x40
    if !u.running || !u.applied || !u.staged.isEmpty || (call && !coreOver s c u) then s
    else
      let w := takeWord s
      let u := if call then coreResult w.2 c u else u
      let u := { u with running := false, done := true, status := lateStatus u, busy := s.clk - u.start, stall := w.1 % 65536 }
      let s := w.2.modCell c (fun k => { k with
        prog := k.prog.map (fun p => { p with
          tiles := (if call then p.tiles.filter (fun v => !v.core) else p.tiles).map (fun v => if v.id = t then u else v),
          fail := if u.core then p.fail else noteFail u.id u.status p.fail, busy := p.busy + u.busy }),
        core := if call && (match k.core with | some r => decide (r.tile = t) | none => false) then none else k.core })
      let s := match (s.cell c).prog with | some p => progressCmd p.queue p.cmd 1 s | none => s
      let s := bubbleEnd (cellCtx s c) u (if u.core then coreTileDone c u s else s)
      reachBoundary c (if u.odd then reachBoundary (c + 1) s else s)

/-- TILE_COMPLETE. -/
def execTileComplete (c t : Nat) (s : State) : Host.Outcome State Fault Refusal := serving (tileComplete c t) s

/-! ## TILE_RECORD_WRITE (R128, R142, R144, R545) -/

/-- Adds a tile's counts to the counter set of its context. -/
def addQsum (c x : Nat) (q : QCounts) (s : State) : State :=
  s.modCell c (fun k =>
    let e := k.qsum.get (0, 0, 0, 0, 0) x
    { k with qsum := k.qsum.set x (bump e.1 q.crushed, bump e.2.1 q.crushBlk, bump e.2.2.1 q.zeroBlk, bump e.2.2.2.1 q.clampBlk,
        bump e.2.2.2.2 q.specialBlk) })

/-- TILE_RECORD_WRITE: the record of the oldest tile without one is written, its counts are added, its semaphore is signalled, and the
program ends when nothing of it is left. -/
def tileRecordWrite (c : Nat) (s : State) : State :=
  match (s.cell c).prog with
  | none => s
  | some p =>
    match p.tiles.filter (fun t => !t.core) with
    | [] => tryEnd c s
    | t :: _ =>
      if !t.done then s
      else
        let r := if t.rerun then (s, stOk) else writeFor s p.ctx (p.recAt + 32 * p.written) (tileRec t)
        let s := logFailed (c / 32) (some p.ctx) r.2 r.1
        let s := if t.rerun then s else addQsum c p.ctx t.q s
        let s := s.modCell c (fun k => { k with
          recs := (tileRec t :: k.recs).take 8,
          prog := k.prog.map (fun p => { p with
            tiles := p.tiles.filter (fun u => u.id ≠ t.id), written := p.written + 1, fail := noteFail t.id r.2 p.fail,
            flagged := p.flagged || t.status = stFlagged }) })
        let s := if r.2 = stOk && decide (t.status < 0x10) && !t.rerun then semSignal p.ctx (tSignal t.desc) s else s
        tryEnd c s

/-- TILE_RECORD_WRITE. -/
def execTileRecordWrite (c : Nat) (s : State) : Host.Outcome State Fault Refusal := serving (tileRecordWrite c) s

/-! ## The watchdog (R150, R157) -/

/-- TILE_LATE: a tile, or a segment of the control core, has run past 100 µs; it goes on. A segment is named by its CORE_CALL tile and may
be late again in each segment. -/
def tileLate (c t : Nat) (s : State) : State :=
  match tileAt s c t with
  | none => s
  | some u =>
    if !u.running || (u.late && tOp u.desc ≠ 0x40) then s
    else
      let s := modTile c t (fun v => { v with late := true }) (s.modCell c (fun k => { k with lateN := bump k.lateN 1 }))
      ffEvent 0x0140 2 (c / 32) c (some (cellCtx s c)) (le 4 t ++ le 1 (tOp u.desc)) s

/-- TILE_LATE. -/
def execTileLate (c t : Nat) (s : State) : Host.Outcome State Fault Refusal := serving (tileLate c t) s

/-- Fills intervals with undefined bytes (R150). -/
def scramble (l : List (Nat × Nat)) (s : State) : State :=
  l.foldl (fun u i => let r := takeBytes i.2 u; poke r.2 i.1 r.1) s

/-- The accumulation groups that a tile had opened or was adding to are discarded; one that it was draining or writing out stays. -/
def discardGroups (c x : Nat) (t : Tile) (s : State) : State :=
  let mode := modeOf s x
  let drop := fun k d u => let f := matOf mode d; dropGroup k f.grid f.slot u
  match tOp t.desc with
  | 0x10 =>
    let s := drop c t.desc s
    let s := if t.odd then drop (c + 1) t.desc s else s
    if t.tail.isEmpty then s else drop c t.tail s
  | 0x13 => drop c t.desc (if (matOf mode t.desc).tmode = 1 then drop (c + 1) t.desc s else s)
  | _ => s

/-- TILE_ABORT: a tile, or a segment, has run past 1 ms: it is stopped and completes with TIMEOUT, its groups are discarded, its output
footprints are undefined, and the hub's hang detector learns of it. An aborted segment ends its CORE_CALL with TIMEOUT. -/
def tileAbort (c t : Nat) (s : State) : State :=
  match tileAt s c t, (s.cell c).prog with
  | some u, some p =>
    if !u.running then s
    else
      let call := tOp u.desc = 0x40 && u.applied
      let s := setHang 5 p.ctx p.queue s
      let s := s.modCell c (fun k => { k with abort := bump k.abort 1 })
      let s := ffEvent 0x0141 4 (c / 32) c (some p.ctx) (le 4 t ++ le 1 (tOp u.desc)) s
      let s := logError 0x08 (c / 32) c (some p.ctx) stTimeout (le 2 p.queue ++ le 4 p.cmd ++ le 4 t ++ le 1 (tOp u.desc)) s
      if call then coreEnd c stTimeout s
      else
        let s := scramble u.wr (discardGroups c p.ctx u s)
        let s := unstage (fun k i => k = c && i = t) s
        modTile c t (fun v => { v with applied := true, status := stTimeout, staged := [], word0 := 0, word1 := 0, q := {} }) s
  | _, _ => s

/-- TILE_ABORT. -/
def execTileAbort (c t : Nat) (s : State) : Host.Outcome State Fault Refusal := serving (tileAbort c t) s

end Sys2Proof.Machine
end

