-- ==== Sys2Proof/Machine/Launch.lean ====
section
/-! DEFINITION. Machine/Launch.lean: LAUNCH, borrowing, saving and restoring of cells, and pre-emption of contexts (R364, R371, R376 to
R380, R383, R384, R400). -/
namespace Sys2Proof.Machine

/-! ## LAUNCH -/

/-- The weight epoch a launch runs on: its sequence's, else the CURRENT one. -/
def launchEpoch (s : State) (x : Nat) (b : Bytes) : Option EpochEntry :=
  let t := leAt b 26 2
  if t ≠ 0xFFFF then (if (s.seq t).isOpen then (s.ctx x).epochs.find? (fun e => e.num = (s.seq t).epoch) else none) else currentEpoch s x

/-- Failures of a LAUNCH at its start (R371, R376, R383, R384, R123). -/
def launchStatus (s : State) (q : Nat) (b : Bytes) : Nat :=
  let x := (s.queue q).ctx
  let c := s.ctx x
  let cell := leAt b 24 2
  let t := leAt b 26 2
  let rel := bit (leAt b 28 1) 0
  let e := launchEpoch s x b
  let prog := leAt b 32 8 + (if rel then (match e with | some v => v.progBase | none => 0) else 0)
  firstOf [
    (cell ≠ 0xFFFF && !(c.owned.contains cell || (c.lc && c.guest.contains cell)), stPerm),
    (t ≠ 0xFFFF && !seqOwned s x t, stPerm),
    (cell ≠ 0xFFFF && !cellPresent s cell, stOff),
    (rel && t = 0xFFFF && e.isNone, stBad),
    (decide (prog % 128 ≠ 0), stBad),
    (t ≠ 0xFFFF && !((s.seq t).isOpen && (s.seq t).ctx = x), stConflict),
    (workConflict s x false, stConflict)]

/-- An accepted LAUNCH goes to its cell, borrows one, or waits. -/
def goLaunch (q k : Nat) (b : Bytes) (s : State) : State :=
  let x := (s.queue q).ctx
  match findCmd s q k with
  | none => s
  | some m =>
    let held := (m.pinned || m.seq.isSome) && (match (s.ctx x).epochs.find? (fun e => e.num = m.epoch) with | some e => e.restoring | none => false)
    if held || m.borrow.isSome then holdCmd q k s
    else match placeOf s x (leAt b 24 2) (leAt b 48 8) with
      | .free c => startProgram q k c s
      | .borrow c =>
        reachBoundary c (modCmd (s.modCell c (fun u => { u with st := .stopping, stopFor := some (q, k) })) q k
          (fun u => { u with borrow := some c, waiting := true }))
      | .wait => holdCmd q k s

/-- LAUNCH's effect: while the context admits no new request one without a sequence waits (R350); its checks, then the pin of its weight epoch (R383), then its placement. -/
def launchAct (q k : Nat) (b : Bytes) (s : State) : State :=
  match findCmd s q k with
  | none => s
  | some m =>
    if m.counted then goLaunch q k b s
    else if !(s.ctx (s.queue q).ctx).admits && leAt b 26 2 = 0xFFFF then holdCmd q k s
    else
      let st := launchStatus s q b
      if st ≠ stOk then finishCmd q k st 0 0 s
      else
        let x := (s.queue q).ctx
        let t := leAt b 26 2
        let s := acceptCmd q k s
        let s := match launchEpoch s x b with
          | none => s
          | some e =>
            if t ≠ 0xFFFF then modCmd (s.modSeq t (fun v => { v with inFlight := v.inFlight + 1 })) q k (fun u => { u with seq := some t, epoch := e.num })
            else modCmd (pinEpoch x e.num s) q k (fun u => { u with pinned := true, epoch := e.num })
        goLaunch q k b s

/-- A waiting LAUNCH can go on. -/
def launchReady (s : State) (q : Nat) (m : Cmd) : Bool :=
  let x := (s.queue q).ctx
  !m.counted || (m.borrow.isNone && decide (placeOf s x (leAt m.bytes 24 2) (leAt m.bytes 48 8) ≠ .wait)
    && !((m.pinned || m.seq.isSome) && (s.ctx x).epochs.any (fun e => e.num = m.epoch && e.restoring)))

/-- LAUNCH. -/
def execLaunch (q : Nat) (s : State) : Host.Outcome State Fault Refusal :=
  serving (fun t => startRow (fun b => cOp b = 0x20) launchAct q t launchReady) s

/-! ## Save and restore (R377, R379, R380) -/

/-- The command is still a waiting launch. -/
def stillWaits (s : State) (q k : Nat) : Bool := match findCmd s q k with | some m => m.status.isNone | none => false

/-- Asks for the restore of a cell's image. -/
def beginRestore (c : Nat) (s : State) : State := s.modCell c (fun k => { k with restoring := true, st := .running, stopFor := none })

/-- SAVE_COMPLETE: the image of a cell in SAVING is written, the stores are zeroed behind it, and the borrowing launch starts. -/
def saveComplete (c : Nat) (s : State) : State :=
  let k := s.cell c
  if k.st ≠ .saving then s
  else
    let s := (saveImage c s).modCell c (fun u => { u with st := .idle, stopPre := false })
    match k.stopFor with
    | some (q, m) =>
      if stillWaits s q m then
        let w := takeWord s
        startProgram q m c (ffTrace 0x0008 (c / 32) c (some k.ctx) (le 1 (s.queue q).ctx ++ le 4 w.1) w.2)
      else if k.stopPre then pollCtx k.ctx (s.modCell c (fun u => { u with stopFor := none }))
      else beginRestore c s
    | none => pollCtx k.ctx s

/-- SAVE_COMPLETE. -/
def execSaveComplete (c : Nat) (s : State) : Host.Outcome State Fault Refusal := serving (saveComplete c) s

/-- BORROW_HOLD_EXPIRY: the LC context has run no tile on a borrowed cell for hold_us: the restore begins. The image of a pre-empted
owner stays saved. -/
def borrowHoldExpiry (c : Nat) (s : State) : State :=
  let k := s.cell c
  match k.saved with
  | none => s
  | some v =>
    if k.st ≠ .idle || k.prog.isSome || k.ctx = v.ctx || (s.ctx v.ctx).st = .preempted || (s.ctx v.ctx).preReq = 1 then s
    else beginRestore c s

/-- BORROW_HOLD_EXPIRY. -/
def execBorrowHoldExpiry (c : Nat) (s : State) : Host.Outcome State Fault Refusal := serving (borrowHoldExpiry c) s

/-- A resumption ends once the image of no cell of the context is on its way back: the context is READY (R357, R380). -/
def tryResumed (x : Nat) (s : State) : State :=
  if (s.ctx x).preReq = 3 && !(s.cells.map (·.1)).any (fun c =>
      (s.cell c).restoring && (match (s.cell c).saved with | some v => decide (v.ctx = x) | none => false)) then
    s.modCtx x (fun c => { c with preReq := 0, st := if c.st = .preempted then .ready else c.st })
  else s

/-- RESTORE_COMPLETE: the image is back and the owner's program goes on at its next tile. -/
def restoreComplete (c : Nat) (s : State) : State :=
  if !(s.cell c).restoring then s
  else
    let w := takeWord s
    let s := restoreImage c w.2
    tryResumed (s.cell c).ctx (ffTrace 0x0009 (c / 32) c (some (s.cell c).ctx) (le 4 w.1) s)

/-- RESTORE_COMPLETE. -/
def execRestoreComplete (c : Nat) (s : State) : Host.Outcome State Fault Refusal := serving (restoreComplete c) s

/-! ## Pre-emption of a context (R380, R400) -/

/-- Pre-emption begins: no command of the context starts, and its cells stop at their next boundary. -/
def preemptNow (x : Nat) (win : Option Nat) (s : State) : State :=
  let s := s.modCtx x (fun c => { c with preReq := 1, preWin := win })
  let cs := (s.cells.filter (fun c => match c.2.prog with
    | some p => p.ctx = x && (c.2.st = .running || c.2.st = .stopping) && !c.2.restoring
    | none => c.2.ctx = x && c.2.st = .idle && c.2.halves)).map (·.1)
  tryPreempted x (cs.foldl (fun t c => reachBoundary c (t.modCell c (fun k => { k with st := .stopping, stopPre := true }))) s)

/-- The context goes on: its saved cells are restored, and then it is READY (R357, R380). -/
def resumeCtx (x : Nat) (s : State) : State :=
  let s := s.modCtx x (fun c => { c with preWin := none, preReq := 3 })
  let cs := (s.cells.filter (fun c => match c.2.saved with | some v => v.ctx = x && c.2.prog.isNone && c.2.st = .idle | none => false)).map (·.1)
  tryResumed x (cs.foldl (fun t c => beginRestore c t) s)

/-- A pre-emption request of the fleet manager: refused without operator authority, and for an LC context or one with no work to stop. -/
def preemptStatus (s : State) (session x : Nat) : Nat :=
  let c := s.ctx x
  firstOf [(!isOperator s session, stPerm), (!c.defined || c.lc || !(c.st = .ready || c.st = .running) || c.preReq = 1, stConflict)]

/-- CONTEXT_PREEMPT: IMMEDIATE. -/
def contextPreempt (session x : Nat) (s : State) : State :=
  let st := preemptStatus s session x
  answer 400 st [] (if st = stOk then preemptNow x none s else s)

/-- CONTEXT_PREEMPT. -/
def execContextPreempt (session x : Nat) (s : State) : Host.Outcome State Fault Refusal := serving (contextPreempt session x) s

/-- PREEMPT_WINDOWED: the request waits for the context's next PREEMPT_WINDOW. -/
def preemptWindowed (session x : Nat) (s : State) : State :=
  let st := preemptStatus s session x
  answer 400 st [] (if st = stOk then s.modCtx x (fun c => { c with preReq := 2 }) else s)

/-- PREEMPT_WINDOWED. -/
def execPreemptWindowed (session x : Nat) (s : State) : Host.Outcome State Fault Refusal := serving (preemptWindowed session x) s

/-- PREEMPT_RELEASE: the fleet manager releases a pre-empted context, or withdraws a WINDOWED request that still waits. -/
def preemptRelease (session x : Nat) (s : State) : State :=
  let c := s.ctx x
  let st := firstOf [(!isOperator s session, stPerm), ((c.st ≠ .preempted || c.preReq = 3) && c.preReq ≠ 2, stConflict)]
  answer 400 st [] (if st ≠ stOk then s else if c.st = .preempted then resumeCtx x s else s.modCtx x (fun k => { k with preReq := 0 }))

/-- PREEMPT_RELEASE. -/
def execPreemptRelease (session x : Nat) (s : State) : Host.Outcome State Fault Refusal := serving (preemptRelease session x) s

/-- PREEMPT_WINDOW_EXPIRY: the longest stay of the window that pre-empted the context has passed. -/
def preemptWindowExpiry (x : Nat) (s : State) : State :=
  if (s.ctx x).st = .preempted && (s.ctx x).preReq ≠ 3 && (s.ctx x).preWin.isSome then resumeCtx x s else s

/-- PREEMPT_WINDOW_EXPIRY. -/
def execPreemptWindowExpiry (x : Nat) (s : State) : Host.Outcome State Fault Refusal := serving (preemptWindowExpiry x) s

end Sys2Proof.Machine
end

