-- ==== Sys2Proof/Machine/Engine.lean ====
section
/-! DEFINITION. Machine/Engine.lean: the beside-memory engine: job descriptors, streams, the checks of R207, the per-element programs,
and the programs that move, digest and combine bytes (R204 to R222, R231, R233, R436 to R440, R544). -/
namespace Sys2Proof.Machine

/-! ## Descriptors and streams (R205, R206) -/

/-- prog. -/
def jProg (d : Bytes) : Nat := leAt d 3 1
/-- job_tag. -/
def jTag (d : Bytes) : Nat := leAt d 0 2
/-- count. -/
def jCount (d : Bytes) : Nat := leAt d 4 4
/-- gidx_base. -/
def jGidx (d : Bytes) : Nat := leAt d 8 8
/-- param_addr. -/
def jParam (d : Bytes) : Nat := leAt d 16 8
/-- layer_id. -/
def jLayer (d : Bytes) : Nat := leAt d 24 2
/-- a_stat. -/
def jStat (d : Bytes) : Int := toSigned 16 (leAt d 26 2)
/-- qctl. -/
def jQctl (d : Bytes) : Nat := leAt d 28 4
/-- Base of stream slot k. -/
def sBase (d : Bytes) (k : Nat) : Nat := leAt d (32 + 16 * k) 8
/-- fmt code of stream slot k. -/
def sFmt (d : Bytes) (k : Nat) : Nat := bits (leAt d (40 + 16 * k) 8) 60 4
/-- dir of stream slot k. -/
def sDir (d : Bytes) (k : Nat) : Nat := bits (leAt d (40 + 16 * k) 8) 58 2
/-- aux of stream slot k. -/
def sAux (d : Bytes) (k : Nat) : Nat := bits (leAt d (40 + 16 * k) 8) 0 48
/-- Reserved bits of stream slot k are zero. -/
def sClean (d : Bytes) (k : Nat) : Bool := bits (leAt d (40 + 16 * k) 8) 48 10 = 0 && decide (sBase d k < 2 ^ 48)

/-- A stream of elements: its planes, its direction, and the companion plane of the next slot (R206). -/
structure Stream where
  slot  : Nat
  base  : Nat
  fmt   : Fmt
  dir   : Nat
  aux   : Nat
  extra : Nat := 0                  -- base of the companion slot: side-plane of GBF, flag nibbles of a GBS input
  deriving DecidableEq, Repr

/-- The stream is read. -/
def Stream.reads (r : Stream) : Bool := bit r.dir 0
/-- The stream is written. -/
def Stream.writes (r : Stream) : Bool := bit r.dir 1
/-- The stream is a sum form (a gradient stream when it is read). -/
def Stream.gbs (r : Stream) : Bool := r.fmt = .gbs32 || r.fmt = .gbs40
/-- The stream takes two slots. -/
def Stream.pair (r : Stream) : Bool := fmtSided r.fmt || (r.gbs && r.reads)

/-- What R212 lets a slot hold. -/
inductive Role where
  | unused        -- no stream; it may carry the companion of the stream before it
  | gradient      -- GBS32 or GBS40, input
  | master        -- FP40, input and output
  | moment        -- FP32, input and output
  | work          -- output, optional
  | out           -- output
  | stateIn       -- input of any format
  | stateOpt      -- input of any format, optional
  | any           -- MICRO
  | bytesIn | bytesOpt | bytesOut | bytesOutOpt | bytesAcc   -- streams of bytes: read, read when given, written, written when given, read and written
  deriving DecidableEq, Repr

/-- The slots of a program (R212); none for a program that R212 does not define. -/
def rolesOf (prog : Nat) : Option (List Role) :=
  match prog with
  | 0x01 => some [.gradient, .unused, .master, .moment, .unused, .work, .unused, .unused]
  | 0x02 => some [.gradient, .unused, .master, .moment, .moment, .work, .unused, .unused]
  | 0x10 => some [.gradient, .unused, .out, .unused, .unused, .unused, .unused, .unused]
  | 0x20 => some [.stateIn, .stateOpt, .stateOpt, .unused, .unused, .unused, .unused, .bytesOut]
  | 0x21 => some [.bytesIn, .unused, .unused, .unused, .unused, .unused, .bytesOpt, .bytesOutOpt]
  | 0x30 => some [.bytesOpt, .bytesOpt, .bytesOpt, .bytesOpt, .bytesOpt, .bytesOpt, .unused, .bytesAcc]
  | 0x40 => some [.bytesIn, .bytesIn, .unused, .unused, .unused, .unused, .unused, .bytesOut]
  | 0x50 => some [.unused, .unused, .unused, .unused, .unused, .unused, .unused, .bytesOut]
  | 0x51 => some [.bytesIn, .unused, .unused, .unused, .unused, .unused, .unused, .bytesOut]
  | 0x60 => some [.unused, .unused, .unused, .unused, .unused, .unused, .unused, .bytesOut]
  | 0x80 => some (List.replicate 8 .any)
  | _ => none

/-- Directions a role allows. -/
def Role.dirs : Role → List Nat
  | .unused => [0] | .gradient => [1] | .master => [3] | .moment => [3] | .work => [0, 2] | .out => [2] | .stateIn => [1]
  | .stateOpt => [0, 1] | .any => [0, 1, 2, 3] | .bytesIn => [1] | .bytesOpt => [0, 1] | .bytesOut => [2] | .bytesOutOpt => [0, 2]
  | .bytesAcc => [2, 3]

/-- The role is a stream of plain bytes, to which formats mean nothing. -/
def Role.isBytes : Role → Bool
  | .bytesIn | .bytesOpt | .bytesOut | .bytesOutOpt | .bytesAcc => true
  | .unused | .gradient | .master | .moment | .work | .out | .stateIn | .stateOpt | .any => false

/-- Formats a role allows. -/
def Role.fits (r : Role) (f : Fmt) : Bool :=
  match r with
  | .gradient => f = .gbs32 || f = .gbs40
  | .master => f = .fp40
  | .moment => f = .fp32
  | _ => true

/-- The stream of slot k under a role: `none` when it breaks R206 or R212, `some none` when the slot is unused. -/
def slotStream (d : Bytes) (q : QCtl) (k : Nat) (role : Role) : Option (Option Stream) :=
  let dir := sDir d k
  if !role.dirs.contains dir then none
  else match fmtOf (sFmt d k) with
    | none => none
    | some f =>
      if dir = 0 then some none
      else
      let r : Stream := { slot := k, base := sBase d k, fmt := f, dir := dir, aux := sAux d k, extra := sBase d (k + 1) }
      if bit dir 1 && f ≠ .fp32 && !(f = .fp40 && dir = 3) && f ≠ q.fmt then none
      else if role.isBytes then (if r.aux = 0 then some (some { r with extra := 0 }) else none)
      else if !role.fits f || (fmtBlocked f && jCount d % 32 ≠ 0) || (!fmtScaled f && !fmtAgreed f && f ≠ .fp40 && r.aux ≠ 0) then none
      else if r.pair && (k = 7 || sFmt d (k + 1) ≠ 0 || sDir d (k + 1) ≠ 0 || sAux d (k + 1) ≠ 0) then none
      else some (some { r with extra := if r.pair then r.extra else 0 })

/-- The streams of a job by slot; a slot that a companion takes holds none (R206, R212). -/
def streamsFrom (d : Bytes) (q : QCtl) : Nat → List Role → Bool → Option (List Stream)
  | _, [], _ => some []
  | k, role :: rest, taken =>
    if taken then
      if role = .unused || role = .work || role = .stateOpt || role = .any then streamsFrom d q (k + 1) rest false else none
    else match slotStream d q k role with
      | none => none
      | some none => streamsFrom d q (k + 1) rest false
      | some (some r) => (streamsFrom d q (k + 1) rest (!role.isBytes && r.pair)).map (fun l => r :: l)

/-- The stream of slot k. -/
def streamAt (l : List Stream) (k : Nat) : Option Stream := l.find? (fun r => r.slot = k)

/-- Check 1 of R207: the streams and the control word, or BAD_DESCRIPTOR. -/
def jobForm (mode : Mode) (d : Bytes) : Option (List Stream × QCtl) :=
  match rolesOf (jProg d), qDecode (mode = .strictIeee) (jQctl d) with
  | some roles, some q =>
    if leAt d 2 1 ≠ 0 || !(decide (1 ≤ jCount d) && decide (jCount d ≤ 268435456)) || decide (jGidx d ≥ 2 ^ 48) || jParam d % 64 ≠ 0
        || !(decide (-300 ≤ jStat d) && decide (jStat d ≤ 300)) || !(List.range 8).all (sClean d) then none
    else (streamsFrom d q 0 roles false).map (fun l => (l, q))
  | none, _ => none
  | some _, none => none

/-! ## Protection (R190, R207, R222) -/

/-- Every 2 MiB granule of an interval lies in a region of the context that grants an engine its access, in context memory of one holder. -/
def engMay (s : State) (x a n : Nat) (write read eng : Bool) (h : Option Nat) : Bool :=
  n = 0 ||
  (match areaOf s a, areaOf s (a + n - 1) with
   | .context i, .context j => i = j && !fenced s i && (match h with | some k => i = k | none => true)
   | _, _ => false) &&
  (List.range (n / 0x200000 + 2)).all (fun i =>
    let lo := max a ((a / 0x200000 + i) * 0x200000)
    let hi := min (a + n) ((a / 0x200000 + i + 1) * 0x200000)
    decide (hi ≤ lo) || (s.ctx x).grants lo (hi - lo) write read eng false)

/-- The planes of an element stream with what they need: address, length, write, read. -/
def streamSpans (r : Stream) (count : Nat) : List (Nat × Nat × Bool × Bool) :=
  let nb := count / 32
  let w := r.writes
  let rd := r.reads
  if r.fmt = .fp40 then [(r.base, 4 * count, w, rd), (r.aux, count, w, rd)]
  else (r.base, (count * fmtBits r.fmt + 7) / 8, w, rd)
    :: ((if fmtScaled r.fmt then [(r.aux, nb, w, rd)] else []) ++ (if fmtAgreed r.fmt then [(r.aux, nb, false, true)] else [])
      ++ (if fmtSided r.fmt then [(r.extra, 2 * nb, w, rd)] else []) ++ (if r.gbs && rd then [(r.extra, (nb + 1) / 2, false, true)] else []))

/-- Bytes of the CRCs of n bytes: one for each 4 MiB chunk (R219). -/
def crcChunks (n : Nat) : Nat := (n + 0x3FFFFF) / 0x400000

/-- The planes of a byte stream of a program; the destinations of R222 and what depends on the parameter block are left out. -/
def byteSpans (prog count : Nat) (r : Stream) : List (Nat × Nat × Bool × Bool) :=
  match prog, r.slot with
  | 0x20, _ => [(r.base, 64, true, false)]
  | 0x21, 0 => [(r.base, count, false, true)]
  | 0x21, 6 => [(r.base, 8 * crcChunks count, false, true)]
  | 0x21, _ => [(r.base, 8 * crcChunks count, true, false)]
  | 0x30, _ => [(r.base, count, r.writes, r.reads)]
  | 0x40, 1 => [(r.base, 4 * count, false, true)]
  | 0x50, _ => [(r.base, count, true, false)]
  | 0x51, 0 => [(r.base, count, false, true)]
  | 0x60, _ => [(r.base, count, true, false)]
  | _, _ => []

/-- The program of slot k has a byte role. -/
def byteSlot (prog k : Nat) : Bool := match rolesOf prog with | some l => (l.getD k .any).isBytes | none => false

/-- Bytes of the parameter block. -/
def paramLen (prog : Nat) : Nat := if prog = 0x80 then 320 else if prog = 0x60 then 128 else 256

/-- Check 2 of R207. -/
def jobMay (s : State) (x h : Nat) (d : Bytes) (l : List Stream) : Bool :=
  let spans := l.flatMap (fun r => if byteSlot (jProg d) r.slot then byteSpans (jProg d) (jCount d) r else streamSpans r (jCount d))
  engMay s x (jParam d) (paramLen (jProg d)) false true true (some h)
    && spans.all (fun p => engMay s x p.1 p.2.1 p.2.2.1 p.2.2.2 true (some h))

/-! ## Per-element programs (R208 to R218) -/

/-- A micro-operation. -/
def uop (vop vd va vb vc imm : Nat) : MicroOp := { vop := vop, vd := vd, va := va, vb := vb, vc := vc, imm := imm }
/-- ed ← element of stream k. -/
def uLd (d k : Nat) : MicroOp := uop 0x20 d 0 0 0 k
/-- Stream k ← ea. -/
def uSt (a k : Nat) : MicroOp := uop 0x21 0 a 0 0 k
/-- ed ← parameter word k. -/
def uPar (d k : Nat) : MicroOp := uop 0x22 d 0 0 0 k
/-- Statistic k counts ea. -/
def uStat (a k : Nat) : MicroOp := uop 0x23 0 a 0 0 k
/-- Master stream k loses ea. -/
def uWadd (a k : Nat) : MicroOp := uop 0x24 0 a 0 0 k
/-- ed ← ea × eb. -/
def uMul (d a b : Nat) : MicroOp := uop 0x03 d a b 0 0
/-- ed ← ea × eb + ec. -/
def uFma (d a b c : Nat) : MicroOp := uop 0x04 d a b c 0

/-- g = MUL(LD S0, rb), in e0 (R214). -/
def progG : List MicroOp := [uLd 0 0, uPar 1 10, uMul 0 0 1]
/-- u = FMA(wd, w, ec) with w = LD S2 in e4, dl = MUL(lr, u) in e6, the statistics, ST S3 of m, which comes in e2 (R214, R215). -/
def progTail (c : Nat) : List MicroOp :=
  [uLd 4 2, uPar 1 7, uFma 5 1 4 c, uPar 1 1, uMul 6 1 5, uStat 0 0, uStat 6 1, uStat 4 2, uSt 2 3]
/-- ADAMW (R214). -/
def progAdamw : List MicroOp :=
  progG ++ [uPar 1 3, uMul 7 1 0, uLd 2 3, uPar 1 2, uFma 2 1 2 7,
            uMul 7 0 0, uPar 1 5, uMul 7 1 7, uLd 3 4, uPar 1 4, uFma 3 1 3 7,
            uPar 1 9, uMul 7 3 1, uop 0x09 7 7 0 0 1, uPar 1 6, uop 0x01 7 7 1 0 0,
            uPar 1 8, uMul 5 2 1, uop 0x09 7 7 0 0 0, uMul 5 5 7] ++ progTail 5 ++ [uSt 3 4, uWadd 6 2]
/-- SGD_MOM (R215). -/
def progSgd : List MicroOp := progG ++ [uLd 2 3, uPar 1 2, uFma 2 1 2 0] ++ progTail 2 ++ [uWadd 6 2]
/-- GRAD_FINAL (R215). -/
def progGrad : List MicroOp := progG ++ [uSt 0 2]

/-- The micro-program of a per-element job: the built-in ones with their optional working copy, or the block's of MICRO. -/
def jobProg (d : Bytes) (l : List Stream) (words : List Nat) : List MicroOp :=
  let copy := if (streamAt l 5).isSome then [uSt 15 5] else []
  match jProg d with
  | 0x01 => progSgd ++ copy
  | 0x02 => progAdamw ++ copy
  | 0x10 => progGrad
  | _ => ((words.drop 16).take (words.getD 15 0 % 64 + 1)).map microOf

/-- A micro-operation of a MICRO job is legal (R208, R140, R141): defined, not CONST, its stream one that it can use, its parameter and
statistic in range. -/
def engOpOk (l : List Stream) (q : QCtl) (o : MicroOp) : Bool :=
  let st := streamAt l (o.imm % 8)
  match o.vop with
  | 0x20 => (match st with
    | some r => r.reads && !(r.fmt = .e4m3b || r.fmt = .e5m2b || r.fmt = .e2m1b)
    | none => false)
  | 0x21 => (match st with | some r => r.writes && (r.fmt = .fp32 || r.fmt = q.fmt) | none => false)
  | 0x22 => decide (1 ≤ o.imm % 64) && decide (o.imm % 64 ≤ 14)
  | 0x23 => decide (o.imm % 4 ≤ 2)
  | 0x24 => (match st with | some r => r.fmt = .fp40 && r.dir = 3 | none => false)
  | _ => microLegal o && o.vop ≠ 0x0A

/-- The ls of parameter word 0 (R213). -/
def parLs (words : List Nat) : Int := toSigned 16 (words.getD 0 0 % 65536)

/-- What a per-element job works with. -/
structure Elem where
  l     : List Stream
  q     : QCtl
  words : List Nat
  prog  : List MicroOp
  keys  : List (List Nat)
  step  : Nat
  gidx  : Nat
  count : Nat

/-- A per-element job part way. -/
structure Run where
  s      : State
  regs   : List Nat := List.replicate 16 0
  grids  : List Grid
  flag   : Bool := false
  stored : List (Nat × Nat × Nat) := []   -- slot, element, FP32 pattern: elements of open blocks
  bad    : Option (Nat × Nat) := none     -- the interval at which MEM_UNCORRECTABLE was met

/-- Reads through a run: an unreadable interval marks it. -/
def Run.read (u : Run) (a n : Nat) (k : Nat → Run) : Run :=
  if u.bad.isSome then u else match readMem u.s a n with
    | none => { u with bad := some (a, n) }
    | some b => k (ofLe b)

/-- Writes through a run. -/
def Run.write (u : Run) (a : Nat) (b : Bytes) : Run :=
  if u.bad.isSome then u
  else
    let r := writeMem u.s a b
    { u with s := r.1, bad := if r.2 then none else some (a, b.length) }

/-- The code of element i of a stream, in bits as stored. -/
def Run.code (u : Run) (r : Stream) (i : Nat) (k : Nat → Run) : Run :=
  if r.fmt = .fp40 then u.read (r.base + 4 * i) 4 (fun hi => u.read (r.aux + i) 1 (fun lo => k (256 * hi + lo)))
  else if fmtBits r.fmt = 4 then u.read (r.base + i / 2) 1 (fun b => k (b / (if i % 2 = 1 then 16 else 1) % 16))
  else u.read (r.base + fmtBits r.fmt / 8 * i) (fmtBits r.fmt / 8) k

/-- The value of element i of a stream as LD loads it, before its rounding to FP32 (R208, R213). -/
def Run.value (u : Run) (e : Elem) (r : Stream) (i : Nat) (k : Val → Run) : Run :=
  if r.fmt = .fp40 then u.read (r.base + 4 * i) 4 (fun hi => k (dec32 hi))
  else if fmtAgreed r.fmt then
    u.code r i (fun c => u.read (r.aux + i / 32) 1 (fun x =>
      k (if r.gbs then vScale (-(parLs e.words)) (decElem r.fmt x 0 (i % 32) c) else decElem r.fmt x 0 (i % 32) c)))
  else if fmtSided r.fmt then
    u.code r i (fun c => u.read (r.aux + i / 32) 1 (fun x => u.read (r.extra + 2 * (i / 32)) 2 (fun sd => k (decElem r.fmt x sd (i % 32) c))))
  else u.code r i (fun c => k (decElem r.fmt 0 0 (i % 32) c))

/-- The draw n of element i (R217). -/
def Elem.rand (e : Elem) (i n : Nat) : Nat := drawWith e.keys e.step (e.gidx + i) n

/-- The bytes of FP40 code c: high plane, low plane. -/
def Run.put40 (u : Run) (r : Stream) (i c : Nat) : Run := (u.write (r.base + 4 * i) (le 4 (c / 256))).write (r.aux + i) (le 1 c)

/-- WADD: the master of element i less the operand, rounded once (R216); e15 takes the new high plane. -/
def Run.wadd (u : Run) (e : Elem) (r : Stream) (i v : Nat) : Run :=
  u.code r i (fun c =>
    let m := decElem .fp40 0 0 0 c
    let o := vNeg (dec32 v)
    let x := (nanOf [m, o]).getD (sumV m o)
    let x := if x.isZero then vZero else x
    let n := (encFloat (layout .fp40) .sr false e.q.strict (e.rand i 0) x).1
    let w := u.put40 r i n
    { w with regs := w.regs.set 15 (n / 256 % 2 ^ 32) })

/-- STAT: the square of an operand added to a grid (R218). -/
def Run.stat (u : Run) (k v : Nat) : Run :=
  let x := dec32 v
  let r := rowAdd (u.grids.getD k {}) (if x.isNan then x else mulV x x)
  { u with grids := u.grids.set k r.1, flag := u.flag || r.2.1 || !x.isFin }

/-- ST of an operand to a stream: FP32 exactly, an unblocked format through the quantiser, a block format into its open block. -/
def Run.store (u : Run) (e : Elem) (r : Stream) (i v : Nat) : Run :=
  if r.fmt = .fp32 then u.write (r.base + 4 * i) (le 4 v)
  else if fmtBlocked r.fmt then { u with stored := (r.slot, i, v) :: u.stored.filter (fun b => !(b.1 = r.slot && b.2.1 = i)) }
  else
    let c := encPlain e.q (qRound false e.q) (e.rand i 0) (dec32 v)
    if r.fmt = .fp40 then u.put40 r i c else u.write (r.base + fmtBits r.fmt / 8 * i) (le (fmtBits r.fmt / 8) c)

/-- Runs one micro-operation of element i. -/
def Run.op (u : Run) (e : Elem) (i : Nat) (o : MicroOp) : Run :=
  if u.bad.isSome then u
  else
    let a := u.regs.getD o.va 0
    match o.vop with
    | 0x20 => (match streamAt e.l (o.imm % 8) with
      | some r => u.value e r i (fun v => { u with regs := u.regs.set o.vd (enc32 v) })
      | none => u)
    | 0x21 => (match streamAt e.l (o.imm % 8) with | some r => u.store e r i a | none => u)
    | 0x22 => { u with regs := u.regs.set o.vd (canon32 (e.words.getD (o.imm % 64) 0)) }
    | 0x23 => u.stat (o.imm % 4) a
    | 0x24 => (match streamAt e.l (o.imm % 8) with | some r => u.wadd e r i a | none => u)
    | _ => { u with regs := microStep (fun _ => 0) (e.rand i) o u.regs }

/-- Writes block b of a stream once ST has computed all of its elements (R208). -/
def Run.block (u : Run) (e : Elem) (r : Stream) (b : Nat) : Run :=
  let mine := u.stored.filter (fun p => p.1 = r.slot && p.2.1 / 32 = b)
  if u.bad.isSome || decide (mine.length < 32) then u
  else
    let vs := (List.range 32).map (fun j => dec32 ((mine.find? (fun p => p.2.1 = 32 * b + j)).map (·.2.2) |>.getD 0))
    let go := fun (x : Nat) =>
      let k := quantBlock e.q (qRound false e.q) x (fun j => e.rand (32 * b + j) 0) vs
      let u := u.write (r.base + 4 * fmtBits r.fmt * b) (packCodes (fmtBits r.fmt) k.codes)
      let u := if fmtScaled r.fmt then u.write (r.aux + b) (le 1 k.scale) else u
      if fmtSided r.fmt then u.write (r.extra + 2 * b) (le 2 k.side) else u
    if fmtAgreed r.fmt || e.q.qmode = .agreed then u.read (r.aux + b) 1 go else go 0

/-- Some gradient block of the elements of block b is held back (R211); an unreadable nibble marks the run. -/
def Run.held (u : Run) (e : Elem) (b : Nat) (k : Bool → Run) : Run :=
  (e.l.filter (fun r => r.gbs && r.reads)).foldr (fun r go => fun h =>
    u.read (r.extra + b / 2) 1 (fun n => let n := n / (if b % 2 = 1 then 16 else 1) % 16; go (h || bit n 3 || bit n 1))) k false

/-- One element (R210, R211): it is held back, or its program runs whole, or nothing of it stands. -/
def elemStep (e : Elem) (i : Nat) (u : Run) : Run :=
  if u.bad.isSome then u
  else
    let v := u.held e (i / 32) (fun h =>
      if h then u
      else
        let w := e.prog.foldl (fun w o => w.op e i o) { u with regs := List.replicate 16 0 }
        if i % 32 = 31 then (e.l.filter (fun r => r.writes && fmtBlocked r.fmt)).foldl (fun w r => w.block e r (i / 32)) w else w)
    match v.bad with
    | none => { v with stored := if i % 32 = 31 then [] else v.stored }
    | some b => { u with s := notePoison u.s b.1 b.2, bad := some b }

/-- Runs the elements in ascending order: the run and the number of elements before the failing one. -/
def elemsFrom (e : Elem) : Nat → Nat → Run → Run × Nat
  | 0, i, u => (u, i)
  | n + 1, i, u =>
    let v := elemStep e i u
    if v.bad.isSome then (v, i) else elemsFrom e n (i + 1) v

/-- The elements of the first n that are held back, as their blocks. -/
def heldBlocks (s : State) (e : Elem) (n : Nat) : List Nat :=
  (List.range ((n + 31) / 32)).filter (fun b => (e.l.filter (fun r => r.gbs && r.reads)).any (fun r =>
    let v := leAt (peek s (r.extra + b / 2) 1) 0 1 / (if b % 2 = 1 then 16 else 1) % 16
    bit v 3 || bit v 1))

/-! ## What a job leaves -/

/-- The end of a job: its state, status and record fields (R233). -/
structure JobEnd where
  s       : State
  st      : Nat := 0
  fail    : Nat := 0
  held    : Nat := 0
  written : Nat := 0
  grids   : List Grid := []          -- empty for a program that keeps no statistics

/-- The job is an update job of a context with a job (R238). -/
def isUpdate (s : State) (x : Nat) (d : Bytes) (l : List Stream) : Bool :=
  decide ((s.ctx x).jobTag ≠ 0) && (jProg d = 0x01 || jProg d = 0x02 || jProg d = 0x10 || (jProg d = 0x80 && l.any Stream.gbs))

/-! ## Soldier samples of update jobs (R436 to R440) -/

/-- The holders present, in ascending die index. -/
def presentHolders (s : State) : List Nat := [8, 9, 10, 11, 12, 13, 14, 15, 19].filter (fun h => !fenced s h)

/-- Checker and referee of an update sample: the next two present holders after the original; none with a single one. -/
def updateCheckers (s : State) (h : Nat) : Option (Nat × Nat) :=
  let l := presentHolders s
  let o := (l.filter (fun k => decide (h < k))) ++ (l.filter (fun k => decide (k < h)))
  match o with
  | [] => none
  | a :: rest => some (a, rest.headD h)

/-- The bytes an element stream's block b occupies. -/
def blockSpans (r : Stream) (b : Nat) : List (Nat × Nat) :=
  if r.fmt = .fp40 then [(r.base + 128 * b, 128), (r.aux + 32 * b, 32)]
  else (r.base + 4 * fmtBits r.fmt * b, 4 * fmtBits r.fmt)
    :: ((if fmtScaled r.fmt then [(r.aux + b, 1)] else []) ++ (if fmtSided r.fmt then [(r.extra + 2 * b, 2)] else []))

/-- Bytes a sample takes: every stream's input values, the parameter block, the outputs and the three STAT contributions (R438). -/
def updateSize (l : List Stream) : Nat :=
  ((l.filter Stream.reads).flatMap (fun r => (blockSpans r 0).map (·.2))).sum + 320
    + ((l.filter Stream.writes).flatMap (fun r => (blockSpans r 0).map (·.2))).sum + 48

/-- Bytes held in the soldier buffer of a holder. -/
def engineUsed (s : State) (h : Nat) : Nat := ((s.holder h).samples.map (·.size)).sum

/-- The candidate blocks of a job: those of 32 consecutive global indices that lie wholly within it, by first element (R436). -/
def candidateBlocks (gidx count : Nat) : List Nat :=
  let first := (32 - gidx % 32) % 32
  (List.range ((count - first) / 32)).map (fun j => first + 32 * j)

/-- An update block that the draw takes as a sample goes to the holder's buffer; one that finds it full is skipped and counted (R438, R440). -/
def sampleBlock (h x : Nat) (d : Bytes) (l : List Stream) (ck rf step i : Nat) (u : State) : State :=
  let g := (jGidx d + i) / 32
  if engineUsed u h + updateSize l > soldierRoom then u.modHub (fun k => { k with solSkip := bump k.solSkip 1 })
  else
    let outs := (l.filter Stream.writes).flatMap (fun r => blockSpans r (i / 32))
    let smp : Sample := { matrix := false, unit := h, checker := ck, referee := rf, ctx := x, jobbed := true, tag := jTag d, index := g,
                          witness := outs.flatMap (fun o => peek u o.1 o.2), outAt := outs, step := step, size := updateSize l }
    (u.modHolder h (fun k => { k with samples := k.samples ++ [smp] })).modSl x (fun w => { w with soldierN := w.soldierN + 32 })

/-- The draw of an update block (R437). -/
def blockDraw (h x : Nat) (d : Bytes) (step i : Nat) (u : State) : Option Nat :=
  soldierDraw u (sampleRate u x) (le 8 step ++ le 1 h ++ le 6 ((jGidx d + i) / 32) ++ le 1 0xC2)

/-- Draws for update block i of a job. -/
def soldierBlock (h x : Nat) (d : Bytes) (l : List Stream) (ck rf step : Nat) (u : State) (i : Nat) : State :=
  takeSample (blockDraw h x d step i u) (fun _ => sampleBlock h x d l ck rf step i) u

/-- Draws for every block that the job updated and puts the samples in the holder's buffer. -/
def soldierUpdate (h x : Nat) (d : Bytes) (l : List Stream) (done : Nat) (held : List Nat) (s : State) : State :=
  match updateCheckers s h with
  | none => s
  | some (ck, rf) =>
    let step := (s.sl x).step
    ((candidateBlocks (jGidx d) (jCount d)).filter (fun i => decide (i + 32 ≤ done) && !held.contains (i / 32) && !held.contains ((i + 31) / 32))).foldl
      (soldierBlock h x d l ck rf step) s

/-- A job that samples wholly in PROBATION finds too little space in its buffer: it stalls (R440). -/
def updateStall (s : State) (h x : Nat) (d : Bytes) (l : List Stream) : Bool :=
  s.hub.health = .probation && isUpdate s x d l && decide (engineUsed s h ≠ 0) && decide (engineUsed s h + jCount d / 32 * updateSize l > soldierRoom)

/-! ## The per-element programs as jobs -/

/-- The words of a parameter block. -/
def wordsOf (b : Bytes) : List Nat := (List.range (b.length / 4)).map (fun i => leAt b (4 * i) 4)

/-- Check 3 of R207 for a per-element program. -/
def progOk (d : Bytes) (l : List Stream) (q : QCtl) (words : List Nat) (prog : List MicroOp) : Bool :=
  jProg d ≠ 0x80 || ((words.drop (16 + prog.length)).all (· = 0) && prog.all (engOpOk l q))

/-- The gate of R238 is open: the barrier of the job's step has decided UPDATE, its UPDATE phase lasts, and ls is the header's. -/
def gateOpen (s : State) (x : Nat) (bound : Option (Nat × Nat)) (words : List Nat) : Bool :=
  let sl := s.sl x
  let step := match bound with | some (_, n) => n | none => sl.step
  step = sl.step && sl.phase = .update && sl.cur = some .committed && !sl.updateEnd && parLs words = sl.hdr.ls

/-- The program keeps statistics. -/
def keepsStats (prog : List MicroOp) : Bool := prog.any (fun o => o.vop = 0x23)

/-- A per-element job after its checks. -/
def runElems (h : Nat) (j : EngJob) (l : List Stream) (q : QCtl) (words : List Nat) (s : State) : JobEnd :=
  let d := j.desc
  let prog := jobProg d l words
  let e : Elem := { l := l, q := q, words := words, prog := prog, keys := aesKeys (nats (keyBytes (s.ctx j.ctx).jobSeed)),
                    step := (s.sl j.ctx).step, gidx := jGidx d, count := jCount d }
  let g : Grid := { a := some (jStat d) }
  let r := elemsFrom e (jCount d) 0 { s := s, grids := [g, g, g] }
  let held := heldBlocks s e r.2
  let n := r.2 - (held.map (fun b => min 32 (r.2 - 32 * b))).sum
  let s1 := if isUpdate s j.ctx d l then soldierUpdate h j.ctx d l r.2 held r.1.s else r.1.s
  { s := s1, st := if r.1.bad.isSome then stMem else okFlag (r.1.flag || !held.isEmpty), fail := if r.1.bad.isSome then r.2 else 0,
    held := held.length, written := n, grids := if keepsStats prog then r.1.grids else [] }

/-! ## DIGEST, CRC, PARITY, GATHER, ZERO (R219 to R222) -/

/-- The bytes that element unit b of a stream gives to DIGEST: one element, or one block of 32 (R219). -/
def digestUnit (s : State) (r : Stream) (b : Nat) : Option Bytes :=
  if fmtBlocked r.fmt then
    match readMem s (r.base + 4 * fmtBits r.fmt * b) (4 * fmtBits r.fmt), readMem s (r.aux + b) 1,
        (if fmtSided r.fmt then readMem s (r.extra + 2 * b) 2 else some []) with
    | some c, some x, some e => some (c ++ x ++ e)
    | _, _, _ => none
  else if r.fmt = .fp40 then
    match readMem s (r.base + 4 * b) 4, readMem s (r.aux + b) 1 with
    | some hi, some lo => some (lo ++ hi)
    | _, _ => none
  else readMem s (r.base + fmtBits r.fmt / 8 * b) (fmtBits r.fmt / 8)

/-- Units of a stream of `count` elements, and elements in a unit. -/
def digestUnits (r : Stream) (count : Nat) : Nat × Nat := if fmtBlocked r.fmt then (count / 32, 32) else (count, 1)

/-- The first unit of a stream that cannot be read. -/
def digestFail (s : State) (r : Stream) (count : Nat) : Option Nat :=
  (List.range (digestUnits r count).1).find? (fun b => (digestUnit s r b).isNone)

/-- Names the poisoned pair that a unit of a stream meets (R232). -/
def noteUnit (r : Stream) (b : Nat) (s : State) : State :=
  match (if r.fmt = .fp40 then [(r.base + 4 * b, 4), (r.aux + b, 1)]
         else if fmtBlocked r.fmt then (r.base + 4 * fmtBits r.fmt * b, 4 * fmtBits r.fmt) :: (r.aux + b, 1) :: (if fmtSided r.fmt then [(r.extra + 2 * b, 2)] else [])
         else [(r.base + fmtBits r.fmt / 8 * b, fmtBits r.fmt / 8)]).find? (fun p => unreadable s p.1 p.2) with
  | some p => notePoison s p.1 p.2
  | none => s

/-- DIGEST (R219). -/
def runDigest (j : EngJob) (l : List Stream) (s : State) : JobEnd :=
  let n := jCount j.desc
  let ins := l.filter (fun r => decide (r.slot ≤ 2))
  match ins.findSome? (fun r => (digestFail s r n).map (fun b => (r, b))) with
  | some f => { s := noteUnit f.1 f.2 s, st := stMem, fail := f.2 * (digestUnits f.1 n).2 }
  | none =>
    let dg := sha512 (ins.flatMap (fun r => (List.range (digestUnits r n).1).flatMap (fun b => (digestUnit s r b).getD [])))
    match streamAt l 7 with
    | none => { s := s }
    | some o =>
      let w := writeMem s o.base dg
      if w.2 then { s := w.1, written := n } else { s := w.1, st := stMem, fail := n }

/-- CRC over chunks from k on: the first that cannot be read, differs, or whose result cannot be written, ends the job (R219). -/
def crcFrom (base count : Nat) (want out : Option Nat) : Nat → Nat → State → JobEnd
  | 0, _, s => { s := s, written := count }
  | n + 1, k, s =>
    let a := base + 0x400000 * k
    let len := min 0x400000 (count - 0x400000 * k)
    let stop := fun (t : State) (st : Nat) => ({ s := t, st := st, fail := k, written := 0x400000 * k } : JobEnd)
    match readMem s a len with
    | none => stop (notePoison s a len) stMem
    | some b =>
      let c := le 8 (crc64 b)
      match want with
      | none =>
        (match out with
         | none => crcFrom base count want out n (k + 1) s
         | some o => let w := writeMem s (o + 8 * k) c
                     if w.2 then crcFrom base count want out n (k + 1) w.1 else stop w.1 stMem)
      | some e =>
        (match readMem s (e + 8 * k) 8 with
         | none => stop (notePoison s (e + 8 * k) 8) stMem
         | some v =>
           if v ≠ c then stop s stDigest
           else match out with
             | none => crcFrom base count want out n (k + 1) s
             | some o => let w := writeMem s (o + 8 * k) c
                         if w.2 then crcFrom base count want out n (k + 1) w.1 else stop w.1 stMem)

/-- CRC. -/
def runCrc (j : EngJob) (l : List Stream) (s : State) : JobEnd :=
  match streamAt l 0 with
  | none => { s := s }
  | some r => crcFrom r.base (jCount j.desc) ((streamAt l 6).map (·.base)) ((streamAt l 7).map (·.base)) (crcChunks (jCount j.desc)) 0 s

/-- The first byte of an interval that lies in a poisoned pair; its length when there is none. -/
def readTo (s : State) (a n : Nat) : Nat :=
  match (pairsOf a n).find? (fun p => s.poison.contains p) with
  | none => n
  | some p => max a (128 * p) - a

/-- The bytes of an interval that can be written in ascending order before a write meets a poisoned pair that it covers in part (R201). -/
def writeTo (s : State) (a n : Nat) : Nat :=
  match (partPoison s a n) with
  | [] => n
  | p :: _ => max a (128 * p) - a

/-- Writes bytes in ascending order as far as memory takes them (R210): the status and index of the first that fails. -/
def writeRun (s : State) (a : Nat) (bs : Bytes) (n total : Nat) : JobEnd :=
  let m := writeTo s a n
  let s1 := (writeMem s a (bs.take m)).1
  if m < total then { s := notePoison s1 (a + m) 1, st := stMem, fail := m, written := m } else { s := s1, written := m }

/-- PARITY (R220). -/
def runParity (j : EngJob) (l : List Stream) (par : Bytes) (s : State) : JobEnd :=
  match streamAt l 7 with
  | none => { s := s }
  | some o =>
    let n := jCount j.desc
    let ins := l.filter (fun r => decide (r.slot ≤ 5))
    let m := ((if o.reads then [o.base] else []) ++ ins.map (·.base)).foldl (fun t a => min t (readTo s a n)) n
    let p0 := if o.reads then peek s o.base m else zeros m
    let p := ins.foldl (fun acc r => List.zipWith (fun x y => x ^^^ BitVec.ofNat 8 (gfMul (leAt par (4 + r.slot) 1) y.toNat)) acc (peek s r.base m)) p0
    let u := (ins.filter (fun r => readTo s r.base n = m)).foldl (fun t r => notePoison t (r.base + m) 1) s
    writeRun (if m < n then u else s) o.base p m n

/-- ZERO (R221). -/
def runZero (j : EngJob) (l : List Stream) (s : State) : JobEnd :=
  match streamAt l 7 with
  | none => { s := s }
  | some o =>
    let n := jCount j.desc
    let m := writeTo s o.base n
    let s1 := zeroBytes s o.base m
    if m < n then { s := notePoison s1 (o.base + m) 1, st := stMem, fail := m, written := m } else { s := s1, written := n }
where
  /-- Zeros over an interval whose partly covered pairs are sound. -/
  zeroBytes (s : State) (a n : Nat) : State :=
    { s with mem := memZero s.mem a n, poison := s.poison.filter (fun p => !(decide (a ≤ 128 * p) && decide (128 * p + 128 ≤ a + n))) }

/-- The destination of GATHER may take its rows at job start (R222): a region with w, or the window of a cell of the context. -/
def gatherMay (s : State) (x a n : Nat) : Bool :=
  match areaOf s a with
  | .window c off => decide (off + n ≤ spSize) && cellPresent s c && (s.cell c).ctx = x
  | _ => engMay s x a n true false false none

/-- One row of GATHER arrives: at a window its owner is checked again (R222). -/
def gatherPut (s : State) (x a : Nat) (b : Bytes) : State × Nat :=
  match areaOf s a with
  | .window c _ => if (s.cell c).ctx = x then ((writeMem s a b).1, 0) else (s, stPerm)
  | _ => let w := writeMem s a b; if w.2 then (w.1, 0) else (s, stMem)

/-- GATHER over rows from i on. -/
def gatherFrom (x src idx dst len rows : Nat) : Nat → Nat → Bool → State → JobEnd
  | 0, i, flag, s => { s := s, st := okFlag flag, written := i }
  | n + 1, i, flag, s =>
    let stop := fun (t : State) (st : Nat) => ({ s := t, st := st, fail := i, written := i } : JobEnd)
    match readMem s (idx + 4 * i) 4 with
    | none => stop (notePoison s (idx + 4 * i) 4) stMem
    | some w =>
      let k := toSigned 32 (ofLe w)
      let ok := decide (0 ≤ k) && decide (k < rows)
      match (if ok then readMem s (src + k.toNat * len) len else some (zeros len)) with
      | none => stop (notePoison s (src + k.toNat * len) len) stMem
      | some b =>
        let r := gatherPut s x (dst + i * len) b
        if r.2 ≠ 0 then stop r.1 r.2 else gatherFrom x src idx dst len rows n (i + 1) (flag || !ok) r.1

/-- GATHER (R221, R222). -/
def runGather (h : Nat) (j : EngJob) (l : List Stream) (words : List Nat) (s : State) : JobEnd :=
  match streamAt l 0, streamAt l 1, streamAt l 7 with
  | some t, some i, some o =>
    let len := words.getD 1 0
    let rows := words.getD 2 0
    if !(engMay s j.ctx t.base (len * rows) false true true (some h) && gatherMay s j.ctx o.base (len * jCount j.desc)) then { s := s, st := stPerm }
    else gatherFrom j.ctx t.base i.base o.base len rows (jCount j.desc) 0 false s
  | _, _, _ => { s := s, st := stBad }

/-! ## The life of a job -/

/-- The 64 bytes of a job record (R233). -/
def jobRecord (d : Bytes) (e : JobEnd) : Bytes :=
  le 2 (jTag d) ++ le 1 (jProg d) ++ le 1 e.st ++ le 4 e.fail ++ le 4 e.held ++ le 4 e.written
    ++ (if e.grids.isEmpty then zeros 48 else e.grids.flatMap gridBytes)

/-- Adds a job's statistics to its layer (R218, R256, R257, R258). -/
def addStats (x : Nat) (d : Bytes) (gs : List Grid) (s : State) : State :=
  match gs with
  | [g, w, v] =>
    s.modSl x (fun sl =>
      match sl.table.find? (fun t => t.1 = jLayer d) with
      | none => { sl with unknownLayer := true }
      | some t =>
        let old := (sl.layers.find? (fun a => a.layer = t.1)).getD
          { layer := t.1, aStat := t.2, g := { a := some t.2 }, d := { a := some t.2 }, w := { a := some t.2 } }
        let new := if jStat d ≠ t.2 then { old with mixed := true }
                   else { old with g := gridAdd old.g g, d := gridAdd old.d w, w := gridAdd old.w v }
        { sl with layers := new :: sl.layers.filter (fun a => a.layer ≠ t.1) })
  | _ => s

/-- A job ends: its record is written, its command gets its status, and what waits for it goes on (R204, R233, R545). -/
def endJob (h : Nat) (j : EngJob) (e : JobEnd) : State :=
  let s := e.s.modHolder h (fun k => { k with running := none, load := none })
  let r := writeFor s j.ctx j.recAt (jobRecord j.desc e)
  let s := logFailed h (some j.ctx) r.2 r.1
  let st := if r.2 = stOk then e.st else r.2
  let s := ffTrace 0x0006 h h (some j.ctx) (le 1 (jProg j.desc) ++ le 2 (jTag j.desc) ++ le 1 st ++ le 4 e.written) s
  pollCtx j.ctx (finishCmd j.queue j.cmd st e.fail 0 s)

/-- The job that a holder starts next: the oldest of a latency-critical context, else the oldest (R204). -/
def nextJob (k : Holder) : Option EngJob := (k.queue.find? (fun j => j.lc)).orElse (fun _ => k.queue.head?)

/-- The job leaves the queue and runs. -/
def startJob (h : Nat) (j : EngJob) (s : State) : State :=
  progressCmd j.queue j.cmd 1 (s.modHolder h (fun k => { k with queue := k.queue.erase j, running := some j }))

/-- A job's checks 1 to 3 and its parameter block; the status of the first that fails. -/
def jobChecks (s : State) (h : Nat) (j : EngJob) : Except Nat (List Stream × QCtl × Bytes) :=
  match jobForm (modeOf s j.ctx) j.desc with
  | none => .error stBad
  | some (l, q) =>
    if !jobMay s j.ctx h j.desc l then .error stPerm
    else match readMem s (jParam j.desc) (paramLen (jProg j.desc)) with
      | none => .error stMem
      | some b => .ok (l, q, b)

/-- The engine stalls for its soldier buffer, or goes on (R232, R440). -/
def setStall (h : Nat) (b : Bool) (s : State) : State := if (s.holder h).stalled = b then s else s.modHolder h (fun k => { k with stalled := b })

/-- The row of a program: the holder's next job, when it is of the program, starts, has its checks, its effect and its end. `run` takes the
streams, the control word and the parameter block. The MICRO row takes jobs of programs that R212 does not define too. -/
def engineRow (mine : Nat → Bool) (run : EngJob → List Stream → QCtl → Bytes → State → JobEnd)
    (stall : State → EngJob → List Stream → Bool) (h : Nat) (s : State) : State :=
  let k := s.holder h
  if k.resetting || k.running.isSome || fenced s h then s
  else match nextJob k with
    | none => s
    | some j =>
      if !mine (jProg j.desc) then s
      else match jobChecks s h j with
        | .error st => endJob h j { s := noteRead st (jParam j.desc) (paramLen (jProg j.desc)) (startJob h j s), st := st }
        | .ok (l, q, b) =>
          if stall s j l then setStall h true s else endJob h j (run j l q b (startJob h j (setStall h false s)))

/-- Per-element programs: check 3, the gate, the elements, and the statistics of an update job. -/
def elemRun (h : Nat) (j : EngJob) (l : List Stream) (q : QCtl) (b : Bytes) (s : State) : JobEnd :=
  let words := wordsOf b
  let prog := jobProg j.desc l words
  if !progOk j.desc l q words prog then { s := s, st := stBad }
  else if isUpdate s j.ctx j.desc l && !gateOpen s j.ctx j.bound words then { s := s, st := stConflict }
  else
    let e := runElems h j l q words s
    if isUpdate s j.ctx j.desc l then { e with s := addStats j.ctx j.desc e.grids e.s } else e

/-- A row of a per-element program. -/
def elemRow (mine : Nat → Bool) (h : Nat) (s : State) : State :=
  engineRow mine (elemRun h) (fun t j l => updateStall t h j.ctx j.desc l) h s

/-- SGD_MOM. -/
def execSgdMom (h : Nat) (s : State) : Host.Outcome State Fault Refusal := serving (elemRow (· = 0x01) h) s
/-- ADAMW. -/
def execAdamw (h : Nat) (s : State) : Host.Outcome State Fault Refusal := serving (elemRow (· = 0x02) h) s
/-- GRAD_FINAL. -/
def execGradFinal (h : Nat) (s : State) : Host.Outcome State Fault Refusal := serving (elemRow (· = 0x10) h) s
/-- MICRO; this row takes the programs that R212 does not define too, which end BAD_DESCRIPTOR. -/
def execMicro (h : Nat) (s : State) : Host.Outcome State Fault Refusal :=
  serving (elemRow (fun p => p = 0x80 || (rolesOf p).isNone) h) s
/-- DIGEST. -/
def execDigest (h : Nat) (s : State) : Host.Outcome State Fault Refusal :=
  serving (engineRow (· = 0x20) (fun j l _ _ t => runDigest j l t) (fun _ _ _ => false) h) s
/-- CRC. -/
def execCrc (h : Nat) (s : State) : Host.Outcome State Fault Refusal :=
  serving (engineRow (· = 0x21) (fun j l _ _ t => runCrc j l t) (fun _ _ _ => false) h) s
/-- PARITY. -/
def execParity (h : Nat) (s : State) : Host.Outcome State Fault Refusal :=
  serving (engineRow (· = 0x30) (fun j l _ b t => runParity j l b t) (fun _ _ _ => false) h) s
/-- GATHER. -/
def execEngineGather (h : Nat) (s : State) : Host.Outcome State Fault Refusal :=
  serving (engineRow (· = 0x40) (fun j l _ b t => runGather h j l (wordsOf b) t) (fun _ _ _ => false) h) s
/-- ZERO. -/
def execZero (h : Nat) (s : State) : Host.Outcome State Fault Refusal :=
  serving (engineRow (· = 0x50) (fun j l _ _ t => runZero j l t) (fun _ _ _ => false) h) s

end Sys2Proof.Machine
end

