-- ==== Sys2Proof/Machine/Shard.lean ====
section
/-! DEFINITION. Machine/Shard.lean: MIGRATE and the loading of weight shards: requests, arrivals, refetches, the whole digest, and the
restoration of a chunk whose re-check failed (R203, R222, R224 to R226, R230). -/
namespace Sys2Proof.Machine

/-- Bytes of a chunk. -/
def chunkSize : Nat := 0x400000

/-- The bytes of an interval can be read and have a CRC. -/
def crcIs (s : State) (a n crc : Nat) : Bool := !unreadable s a n && decide (crc64 (peek s a n) = crc)

/-! ## MIGRATE (R222) -/

/-- Sends the job's bytes to the peer as one message; what comes before a byte that cannot be read is sent and the job ends there. -/
def runMigrate (h : Nat) (j : EngJob) (l : List Stream) (par : Bytes) (s : State) : State :=
  match streamAt l 0, streamAt l 7 with
  | some a, some b =>
    let n := jCount j.desc
    let m := readTo s a.base n
    let dev := Config.migrateDev j.desc par
    let budget := (s.queue j.queue).budget
    if m < n then
      endJob h j { s := sendWrite (notePoison s (a.base + m) 1) (some j.ctx) 2 dev b.base (peek s a.base m) .none budget,
                   st := stMem, fail := m, written := m }
    else sendWrite s (some j.ctx) 2 dev b.base (peek s a.base n) (.migrate h) budget
  | _, _ => endJob h j { s := s, st := stBad }

/-- The message of a MIGRATE job has ended. -/
def migrateEnded (h st : Nat) (s : State) : State :=
  match (s.holder h).running with
  | some j => if jProg j.desc = 0x51 then endJob h j { s := s, st := st, written := if st = stOk then jCount j.desc else 0 } else s
  | none => s

/-! ## The manifest (R224) -/

/-- The sources of a manifest. -/
def manSrcs (b : Bytes) : List (Nat × Nat) := (List.range (leAt b 76 1)).map (fun i => (leAt b (80 + 12 * i) 2, leAt b (84 + 12 * i) 8))

/-- Chunks of a shard of n bytes. -/
def chunkCount (n : Nat) : Nat := (n + chunkSize - 1) / chunkSize

/-- The first 128 bytes of a manifest are legal for a destination of `max` bytes. -/
def manOk (b : Bytes) (max : Nat) : Bool :=
  decide (1 ≤ leAt b 64 8) && decide (leAt b 64 8 ≤ max) && decide (leAt b 72 4 ≤ 600) && decide (1 ≤ leAt b 76 1) && decide (leAt b 76 1 ≤ 4)
    && decide (leAt b 77 3 = 0)
    && (List.range 4).all (fun i => decide (leAt b (82 + 12 * i) 2 = 0) && (decide (i < leAt b 76 1) || (slice b (80 + 12 * i) 12).all (· = 0)))

/-! ## Requests and arrivals (R225) -/

/-- Applies `f` to the load of holder h. -/
def modLoad (h : Nat) (f : ShardLoad → ShardLoad) (s : State) : State := s.modHolder h (fun k => { k with load := k.load.map f })

/-- Bytes of chunk i of a load. -/
def ShardLoad.lenOf (v : ShardLoad) (i : Nat) : Nat := min chunkSize (v.len - chunkSize * i)

/-- The next source in rotation after position p that is still used. -/
def ShardLoad.after (v : ShardLoad) (p : Nat) : Option Nat :=
  ((List.range v.srcs.length).map (fun i => (p + 1 + i) % v.srcs.length)).find? (fun q => !v.dropped.contains q)

/-- The source that chunk i is asked from first. -/
def ShardLoad.first (v : ShardLoad) (i : Nat) : Option Nat := v.after (i + b2n v.second + v.srcs.length - 1)

/-- The load's job ends. -/
def endLoad (h st fail : Nat) (s : State) : State :=
  match (s.holder h).load with
  | none => s
  | some v => endJob h v.job { s := s, st := st, fail := fail, written := (v.passed.map v.lenOf).sum }

/-- The chunks of a finished load are registered for the re-check (R203, R224). -/
def registerChunks (h : Nat) (v : ShardLoad) (s : State) : State :=
  let cs : List Chunk := v.crcs.zipIdx.map (fun e =>
    { ctx := v.job.ctx, addr := v.base + chunkSize * e.2, len := v.lenOf e.2, crc := e.1, idx := e.2,
      srcs := v.srcs.map (fun q => (q.1, q.2 + chunkSize * e.2)) })
  s.modHolder h (fun k => { k with chunks := k.chunks.filter (fun c => !cs.any (fun d => d.addr = c.addr)) ++ cs })

/-- A DIGEST record of a chunk (R416). -/
def digestRecord (src chunk h penalty x st : Nat) (s : State) : State :=
  logErrorP penalty 0x0C h h (some x) st (le 1 src ++ le 4 chunk ++ le 1 h) s

/-- Every chunk has passed: the whole shard is checked; a wrong one is fetched once more (R225). -/
def wholeShard (h : Nat) (s : State) : State :=
  match (s.holder h).load with
  | none => s
  | some v =>
    if v.passed.length < v.crcs.length then s
    else if !unreadable s v.base v.len && decide (sha512 (peek s v.base v.len) = v.digest) then endLoad h stOk 0 (registerChunks h v s)
    else
      let s := digestRecord 0 0 h 0 v.job.ctx stDigest s
      if v.second then endLoad h stDigest 0 s
      else modLoad h (fun w => { w with second := true, passed := [], asked := [], refetch := [] }) s

/-- Asks for chunk i at source position p. The device's own memory answers at once (R224); `arrive` then takes the chunk. -/
def askAt (h i p : Nat) (v : ShardLoad) (s : State) : State × Option Nat :=
  let src := v.srcs.getD p (0, 0)
  let a := src.2 + chunkSize * i
  let s := modLoad h (fun w => { w with asked := putKey w.asked i p }) s
  let x := v.job.ctx
  if src.1 = s.plate.devIndex then
    match readFor s x a (v.lenOf i) with
    | .error st => (noteRead st a (v.lenOf i) s, some st)
    | .ok b => let w := writeMem s (v.base + chunkSize * i) b; (w.1, some (if w.2 then stOk else stMem))
  else (sendRead s (some x) 2 src.1 a (v.base + chunkSize * i) (v.lenOf i) (.shard h i) (s.queue v.job.queue).budget, none)

/-- Chunk i is asked for at source position p, and at the next ones while own memory refuses it. With no source left it stays absent. -/
def askChunk : Nat → Nat → Nat → Option Nat → State → State
  | 0, _, _, _, s => s
  | n + 1, h, i, p, s =>
    match (s.holder h).load, p with
    | some v, some p =>
      let r := askAt h i p v s
      (match r.2 with
       | none => r.1
       | some st =>
         if st = stOk then
           if crcIs r.1 (v.base + chunkSize * i) (v.lenOf i) (v.crcs.getD i 0) then
             modLoad h (fun w => { w with asked := w.asked.filter (fun e => e.1 ≠ i), passed := i :: w.passed }) r.1
           else
             let k := (getKey v.refetch i).getD 0
             let s := digestRecord 0 i h 0 v.job.ctx 0 r.1
             if k ≥ 3 then endLoad h stDigest i s
             else askChunk n h i (v.after p) (modLoad h (fun w => { w with refetch := putKey w.refetch i (k + 1) }) s)
         else
           let drop := decide (st = stPerm)
           let s := modLoad h (fun w => { w with dropped := if drop then p :: w.dropped else w.dropped, asked := w.asked.filter (fun e => e.1 ≠ i) }) r.1
           match (s.holder h).load with
           | some w => askChunk n h i (if drop then w.after p else if w.srcs.length ≤ 1 then none else w.after p) s
           | none => s)
    | some _, none => modLoad h (fun w => { w with asked := w.asked.filter (fun e => e.1 ≠ i) }) s
    | none, _ => s

/-- The lowest chunk that has not passed and is not asked for, and that some source may still give. -/
def ShardLoad.want (v : ShardLoad) : Option Nat :=
  if v.asked.length ≥ 16 || (v.after 0).isNone then none
  else (List.range v.crcs.length).find? (fun i => !v.passed.contains i && !v.asked.any (fun e => e.1 = i))

/-- Asks for chunks, at most 16 at once, in ascending order; own memory answers as they are asked. -/
def fillLoad : Nat → Nat → State → State
  | 0, _, s => s
  | n + 1, h, s =>
    match (s.holder h).load with
    | none => s
    | some v =>
      match v.want with
      | none => s
      | some i => fillLoad n h (askChunk 8 h i (v.first i) s)

/-- A load goes on: more chunks are asked for, and a whole shard is checked. -/
def pushLoad (h : Nat) (s : State) : State :=
  let n := match (s.holder h).load with | some v => v.crcs.length + 1 | none => 0
  let t := wholeShard h (fillLoad n h s)
  match (s.holder h).load, (t.holder h).load with
  | some a, some b => if a.second = b.second then t else wholeShard h (fillLoad n h t)
  | _, _ => t

/-- The chunk's CRC is checked as it arrives: it passes, or is asked for again from the next source, or ends the job (R225). -/
def chunkArrived (h i : Nat) (s : State) : State :=
  match (s.holder h).load with
  | none => s
  | some v =>
    match getKey v.asked i with
    | none => s
    | some p =>
      let s := match v.job with | j => progressCmd j.queue j.cmd 1 s
      if crcIs s (v.base + chunkSize * i) (v.lenOf i) (v.crcs.getD i 0) then
        pushLoad h (modLoad h (fun w => { w with asked := w.asked.filter (fun e => e.1 ≠ i), passed := i :: w.passed }) s)
      else
        let k := (getKey v.refetch i).getD 0
        let s := digestRecord 0 i h 0 v.job.ctx 0 s
        if k ≥ 3 then endLoad h stDigest i s
        else pushLoad h (askChunk 8 h i (v.after p) (modLoad h (fun w => { w with refetch := putKey w.refetch i (k + 1) }) s))

/-- A request has ended with an error status: the next source is asked at once; one that answered PEER_LOST or PERMISSION is dropped. -/
def chunkFailed (h i st : Nat) (s : State) : State :=
  if st = stOk then s
  else match (s.holder h).load with
    | none => s
    | some v =>
      match getKey v.asked i with
      | none => s
      | some p =>
        let v' := { v with dropped := if st = stPeerLost || st = stPerm then p :: v.dropped else v.dropped }
        pushLoad h (askChunk 8 h i (v'.after p) (modLoad h (fun _ => v') s))

/-- The chunk place of a running load of a context that a written interval fills. -/
def loadPlace (s : State) (x a : Nat) : Option (Nat × Nat) :=
  s.holders.findSome? (fun e => match e.2.load with
    | some v => if v.job.ctx = x && decide (v.base ≤ a) && decide (a < v.base + v.len) then some (e.1, (a - v.base) / chunkSize) else none
    | none => none)

/-- A second copy of a chunk that has passed: its bytes are discarded (R225). -/
def copyPassed (s : State) (x a : Nat) : Bool :=
  match loadPlace s x a with
  | some (h, i) => (match (s.holder h).load with | some v => v.passed.contains i | none => false)
  | none => false

/-- The job may read its chunk list, and every granule of its destination grants engine and remote writes (R207, R224). -/
def loadMay (s : State) (h : Nat) (j : EngJob) (man : Bytes) (o : Stream) : Bool :=
  let len := leAt man 64 8
  engMay s j.ctx (jParam j.desc + 128) (8 * chunkCount len) false true true (some h)
    && (List.range (len / 0x200000 + 2)).all (fun i =>
      let lo := max o.base ((o.base / 0x200000 + i) * 0x200000)
      let hi := min (o.base + len) ((o.base / 0x200000 + i + 1) * 0x200000)
      decide (hi ≤ lo) || (s.ctx j.ctx).grants lo (hi - lo) true false true true)

/-- Begins a LOAD_SHARD job after its first two checks; the manifest is its parameter block. `go` begins the work on the load itself. -/
def runLoad (go : Nat → State → State) (h : Nat) (j : EngJob) (l : List Stream) (man : Bytes) (s : State) : State :=
  match streamAt l 7 with
  | none => endJob h j { s := s, st := stBad }
  | some o =>
    let len := leAt man 64 8
    let n := chunkCount len
    if !manOk man (jCount j.desc) then endJob h j { s := s, st := stBad }
    else if !loadMay s h j man o then endJob h j { s := s, st := stPerm }
    else match readMem s (jParam j.desc + 128) (8 * n) with
      | none => endJob h j { s := notePoison s (jParam j.desc + 128) (8 * n), st := stMem }
      | some cs =>
        let t := leAt man 72 4
        let v : ShardLoad := { job := j, base := o.base, len := len, digest := slice man 0 64, crcs := (List.range n).map (fun i => leAt cs (8 * i) 8),
                               srcs := manSrcs man, timeout := if t = 0 then s.plate.shardTo else t }
        go h (s.modHolder h (fun k => { k with load := some v }))

/-- SHARD_TIMEOUT: a chunk is still absent (R226). -/
def shardTimeout (h : Nat) (s : State) : State :=
  match (s.holder h).load with
  | none => s
  | some v => endLoad h stShard (((List.range v.crcs.length).find? (fun i => !v.passed.contains i)).getD 0) s

/-! ## Restoration of a chunk (R203, R230) -/

/-- The epochs of a context whose regions hold a chunk. -/
def chunkEpochs (s : State) (c : Chunk) : List Nat :=
  ((s.ctx c.ctx).epochs.filter (fun e => ((s.ctx c.ctx).regionsAt c.addr 1).any (fun i => bit e.mask i))).map (·.num)

/-- Marks the epochs that hold chunks being restored. -/
def markRestoring (x : Nat) (s : State) : State :=
  let hot := s.holders.flatMap (fun e => (e.2.restores.filter (fun r => r.chunk.ctx = x)).flatMap (fun r => chunkEpochs s r.chunk))
  s.modCtx x (fun c => { c with epochs := c.epochs.map (fun e => { e with restoring := hot.contains e.num }) })

/-- Applies `f` to the restoration of the chunk at an address. -/
def modRestore (h a : Nat) (f : Restore → Restore) (s : State) : State :=
  s.modHolder h (fun k => { k with restores := k.restores.map (fun q => if q.chunk.addr = a then f q else q) })

/-- The chunk of a restoration is what its manifest says: the launches that wait for it go on. -/
def restored (h a x : Nat) (s : State) : State :=
  markRestoring x (s.modHolder h (fun k => { k with restores := k.restores.filter (fun q => q.chunk.addr ≠ a) }))

/-- The restoration has failed: the context is FAULTED and every launch that waits for it completes DIGEST_MISMATCH (R230, R467). -/
def restoreFails (h a : Nat) (s : State) : State :=
  match (s.holder h).restores.find? (fun r => r.chunk.addr = a) with
  | none => s
  | some r =>
    let x := r.chunk.ctx
    let ns := chunkEpochs s r.chunk
    let s := s.modHolder h (fun k => { k with restores := k.restores.filter (fun q => q.chunk.addr ≠ a) })
    let s := s.queues.foldl (fun t e => if e.2.ctx = x then
        e.2.flight.foldl (fun u c => if c.waiting && c.status.isNone && cOp c.bytes = 0x20 && ns.contains c.epoch && (c.pinned || c.seq.isSome)
          then finishCmd e.1 c.idx stDigest 0 0 u else u) t else t) s
    faultCtx x stDigest s

/-- Asks a source for the chunk of a restoration, at once where it is own memory. A chunk whose CRC is wrong counts a refetch, and the third
ends the restoration; a source that may not be read is dropped; with every source dropped nothing can give the chunk, and the restoration
ends as if its last refetch had failed (R225, R230; log entry 95). -/
def askRestore : Nat → Nat → Nat → State → State
  | 0, _, _, s => s
  | n + 1, h, a, s =>
    match (s.holder h).restores.find? (fun r => r.chunk.addr = a) with
    | none => s
    | some r =>
      let c := r.chunk
      let next := ((List.range c.srcs.length).map (fun i => (r.pos + i) % c.srcs.length)).find? (fun q => !r.dropped.contains q)
      match next with
      | none => restoreFails h a s
      | some p =>
        let src := c.srcs.getD p (0, 0)
        let s := modRestore h a (fun q => { q with pos := p }) s
        if src.1 ≠ s.plate.devIndex then sendRead s (some c.ctx) 2 src.1 src.2 a c.len (.restore h a)
        else match readFor s c.ctx src.2 c.len with
          | .error st =>
            let away := decide (st = stPerm) || decide (c.srcs.length ≤ 1)
            askRestore n h a (modRestore h a (fun q => { q with dropped := if away then p :: q.dropped else q.dropped, pos := p + 1 }) (noteRead st src.2 c.len s))
          | .ok b =>
            let w := writeMem s a b
            if crc64 b = c.crc && w.2 then restored h a c.ctx w.1
            else if r.tries ≥ 3 then restoreFails h a w.1
            else askRestore n h a (modRestore h a (fun q => { q with tries := q.tries + 1, pos := p + 1 }) w.1)

/-- The chunk of a restoration has arrived. -/
def restoreArrived (h a : Nat) (s : State) : State :=
  match (s.holder h).restores.find? (fun r => r.chunk.addr = a) with
  | none => s
  | some r =>
    if crcIs s a r.chunk.len r.chunk.crc then
      restored h a r.chunk.ctx s
    else if r.tries ≥ 3 then restoreFails h a s
    else askRestore 8 h a (modRestore h a (fun q => { q with tries := q.tries + 1, pos := q.pos + 1 }) s)

/-- A restoration's request has ended with an error status. -/
def restoreFailed (h a st : Nat) (s : State) : State :=
  if st = stOk then s
  else askRestore 8 h a (modRestore h a (fun q =>
    { q with dropped := if st = stPeerLost || st = stPerm then q.pos :: q.dropped else q.dropped, pos := q.pos + 1 }) s)

/-- SHARD_RECHECK: the CRC of registered chunk i is computed anew; one that differs is recorded and refetched, and launches that pin its
epoch wait (R203, R230). `go` begins the restoration. A chunk whose memory the context no longer holds is no longer resident. -/
def shardRecheck (go : Nat → Nat → State → State) (h i : Nat) (s : State) : State :=
  match (s.holder h).chunks[i]? with
  | none => s
  | some c =>
    if !engMay s c.ctx c.addr c.len false false false (some h) then s.modHolder h (fun k => { k with chunks := k.chunks.erase c })
    else if (s.holder h).restores.any (fun r => r.chunk.addr = c.addr) then s
    else match readMem s c.addr c.len with
      | some b => if crc64 b = c.crc then s else bad c s
      | none => bad c (notePoison s c.addr c.len)
where
  /-- The chunk is not what the manifest says. -/
  bad (c : Chunk) (s : State) : State :=
    let s := digestRecord 1 c.idx h 50 c.ctx 0 s
    let s := s.modHolder h (fun k => { k with restores := k.restores ++ [{ chunk := c, pos := if c.srcs.isEmpty then 0 else c.idx % c.srcs.length }] })
    go h c.addr (markRestoring c.ctx s)

end Sys2Proof.Machine
end

