-- ==== Sys2Proof/Machine/Tags.lean ====
section
/-! DEFINITION. Machine/Tags.lean: lines as a holder keeps them: ciphertext, tags, the stored word of a pair and where it lies, and what the check of
a pair finds (R188, R196 to R200). State holds the plain bytes and which pairs are poisoned; what a holder stores follows from them. -/
namespace Sys2Proof.Machine

/-! ## Keys and ciphertext (R196) -/

/-- The key slot of a line: that of the region that holds it; slot 0 for save areas, firmware tables and private tables (R196). Context memory that no
region holds is taken to stand under slot 0 (log entry 101). -/
def keySlotAt (s : State) (a : Nat) : Nat :=
  match areaOf s a with
  | .context _ =>
    (s.ctxs.findSome? (fun e => (e.2.regions.find? (fun r => r.2.valid && decide (r.2.base ≤ a) && decide (a < r.2.base + r.2.size * 0x200000))).map
      (fun r => r.2.keySlot))).getD 0
  | _ => 0

/-- The two XTS keys and the MAC key of a line. -/
def lineKeys (s : State) (a : Nat) : BitVec 256 × BitVec 256 × BitVec 256 := s.sec.slotKeys.get (0, 0, 0) (keySlotAt s a)

/-- The 64 ciphertext bytes of the line at an address: its tweak is the device address shifted right by 6 (R196). -/
def lineCipher (s : State) (a : Nat) : Bytes :=
  let k := lineKeys s a
  xts (keyBytes k.1) (keyBytes k.2.1) (a / 64) (peek s a 64)

/-! ## Tags and stored words (R197, R198) -/

/-- The tag of a line with given ciphertext: the first 64 bits of CMAC under the MAC key, over the address and the ciphertext. -/
def lineTag (s : State) (a : Nat) (c : Bytes) : Nat := ofLe ((cmac (keyBytes (lineKeys s a).2.2) (le 8 a ++ c)).take 8)

/-- The XOR of the tags of a pair with given ciphertext, the lines in order. -/
def pairTag (s : State) (p : Nat) (c : Bytes) : Nat := lineTag s (128 * p) (c.take 64) ^^^ lineTag s (128 * p + 64) (c.drop 64)

/-- What marks a poisoned pair. -/
def poisonMark : Nat := 0x5AA55AA55AA55AA5

/-- The 128 ciphertext bytes of a pair. -/
def pairCipher (s : State) (p : Nat) : Bytes := lineCipher s (128 * p) ++ lineCipher s (128 * p + 64)

/-- The stored word of a pair: the XOR of its two tags, and the mark of poison on it when the pair is poisoned. -/
def storedWord (s : State) (p : Nat) : Nat := pairTag s p (pairCipher s p) ^^^ (if s.poison.contains p then poisonMark else 0)

/-- Where the stored word of a pair lies (R198): in the tag area, or in the private tag area for a private table. -/
def tagWordAt (p : Nat) : Option Nat :=
  let a := 128 * p
  if a < 8 * stackSize then
    let b := a / stackSize * stackSize
    let o := a % stackSize
    if o < 0xB40000000 then some (b + 0xB40000000 + o / 16)
    else if 0xBF4C00000 ≤ o then some (b + 0xBF4000000 + (o - 0xBF4C00000) / 16)
    else none
  else if tierBase ≤ a ∧ a < 0x03E000000000 then some (0x03E000000000 + (a - tierBase) / 16)
  else if 0x03FE20000000 ≤ a ∧ a < 0x040000000000 then some (0x03FE00000000 + (a - 0x03FE20000000) / 16)
  else none

/-- The package of the tier, and with it the channel of T, that holds an address of its context memory (R188). -/
def tierPackage (a : Nat) : Nat := (a - tierBase) / 4096 % 32

/-! ## The check of a pair (R200) -/

/-- The bits of a byte string, least significant first, with some flipped. -/
def flipBits (b : Bytes) (l : List Nat) : Bytes :=
  l.foldl (fun c i => c.modify (i / 8) (fun v => v ^^^ BitVec.ofNat 8 (2 ^ (i % 8)))) b

/-- A pair as it is read: 128 ciphertext bytes, then the 8 of its stored word. -/
def pairImage (s : State) (p : Nat) : Bytes := pairCipher s p ++ le 8 (storedWord s p)

/-- The image's word is the XOR of its tags, and of a mark. -/
def imageHolds (s : State) (p mark : Nat) (b : Bytes) : Bool := decide (leAt b 128 8 = pairTag s p (b.take 128) ^^^ mark)

/-- The rows of R200, before them the pair whose tags agree. -/
inductive TagRow where
  | agrees
  | poisoned      -- row 1
  | transient     -- row 2
  | corrected     -- row 3
  | lost          -- row 4
  deriving DecidableEq, Repr

/-- The row that the reads of a pair meet, by the tags themselves. -/
def tagSearch (s : State) (p : Nat) (t : TagRead) : TagRow :=
  let first := flipBits (pairImage s p) t.first
  let again := flipBits (pairImage s p) t.again
  if imageHolds s p 0 first then .agrees
  else if imageHolds s p poisonMark first then .poisoned
  else if imageHolds s p 0 again then .transient
  else if ((List.range 1088).filter (fun i => imageHolds s p 0 (flipBits again [i]))).length = 1 then .corrected
  else .lost

/-- The row that the reads of a pair meet (R200). Reads with no bit flipped find the word as R197 gives it. -/
def tagRow (s : State) (p : Nat) (t : TagRead) : TagRow :=
  if t.first.isEmpty then (if s.poison.contains p then .poisoned else .agrees) else tagSearch s p t

end Sys2Proof.Machine
end

