-- ==== Sys2Proof/Machine/Holder.lean ====
section
/-! DEFINITION. Machine/Holder.lean: ENGINE_JOB, memory requests at a holder, tag mismatches, the patrol (R190, R199 to R204, R371, R547). -/
namespace Sys2Proof.Machine

/-! ## ENGINE_JOB (R204, R364, R371, R527) -/

/-- ENGINE_JOB's effect: the descriptor is read and handed to the engine queue of its holder. -/
def engineJobAct (q k : Nat) (b : Bytes) (s : State) : State :=
  let x := (s.queue q).ctx
  let h := leAt b 24 1
  let d := readFor s x (leAt b 32 8) 160
  let prog := match d with | .ok d => jProg d | .error _ => 0
  let st := firstOf [(fenced s h, stOff), (match d with | .error e => (true, e) | .ok _ => (false, stOk)),
    (workConflict s x (prog = 0x60 || prog = 0x50 || prog = 0x21), stConflict)]
  match d with
  | .error e => finishCmd q k (if st = stOk then e else st) 0 0 (noteRead e (leAt b 32 8) 160 s)
  | .ok d =>
    if st ≠ stOk then finishCmd q k st 0 0 s
    else
      let j : EngJob := { queue := q, cmd := k, ctx := x, desc := d, recAt := leAt b 40 8,
                          bound := if cBound b then some (cEpoch b, cStep b) else none, lc := (s.ctx x).lc }
      (acceptCmd q k s).modHolder h (fun w => { w with queue := w.queue ++ [j] })

/-- ENGINE_JOB. -/
def execEngineJob (q : Nat) (s : State) : Host.Outcome State Fault Refusal := serving (startRow (fun b => cOp b = 0x21) engineJobAct q) s

/-! ## Tag mismatches (R200) -/

/-- The holder of a pair, whatever area it lies in. -/
def pairHolder (s : State) (p : Nat) : Option Nat := holderOf s (128 * p)

/-- An UNCORRECTED error in the firmware-table entries of a context: it enters FAULTED (R467). -/
def tableFault (p : Nat) (s : State) : State :=
  match areaOf s (128 * p), Config.tableCtx p with
  | .firmware _, some x => if (s.ctx x.toNat).defined && decide ((s.ctx x.toNat).st ≠ .empty) then faultCtx x.toNat stMem s else s
  | _, _ => s

/-- What a holder does in the row that the reads of a pair meet (R200): a poisoned pair is left as it is, a transient read is counted, a single bit
is corrected, and anything else poisons the pair, which faults a context whose table entries it holds. -/
def tagCheck (p : Nat) (x : Option Nat) (t : TagRead) (s : State) : State :=
  match pairHolder s p with
  | none => s
  | some h =>
    let a := 128 * p
    match tagRow s p t with
    | .agrees => s
    | .poisoned => s
    | .transient => s.modHolder h (fun k => { k with transient := bump k.transient 1 })
    | .corrected =>
      ffEvent 0x0130 2 h h x (le 8 a) (logError 0x01 h h x 0 (le 8 a)
        (s.modHolder h (fun k => { k with corrected := bump k.corrected 1, errAddr := BitVec.ofNat 48 a, errKind := 1 })))
    | .lost =>
      let s := { s with poison := (s.poison.filter (fun q => decide (q < p))) ++ p :: s.poison.filter (fun q => decide (p < q)) }
      tableFault p (ffEvent 0x0131 4 h h x (le 8 a) (logError 0x02 h h x stMem (le 8 a)
        (s.modHolder h (fun k => { k with poisoned := bump k.poisoned 1, errAddr := BitVec.ofNat 48 a, errKind := 2 }))))

/-! ## Requests (R190, R488, R547) -/

/-- The interval lies in the crash area of a compute die or in the profile buffer: firmware tables that the operator may read (R8, R413). -/
def operatorTables (s : State) (a n : Nat) : Bool :=
  (List.range 8).any (fun d => decide (crashSlot s (32 * d) ≤ a) && decide (a + n ≤ crashSlot s (32 * d) + 32 * 0x51000))
    || (decide (profBase s ≤ a) && decide (a + n ≤ profBase s + 0x1000000))

/-- What a requester may do at an address: PERMISSION, or OK with the debug bit that the access is logged under. -/
def requestStatus (s : State) (r : Requester) (write : Bool) (a n : Nat) : Nat × Option Nat :=
  let no := (stPerm, none)
  let whole := match areaOf s a, areaOf s (a + n - 1) with
    | .context i, .context j => i = j
    | .firmware i, .firmware j => i = j
    | .window c _, .window d _ => c = d
    | _, _ => false
  if n = 0 || !whole then no
  else match areaOf s a with
    | .context h =>
      if fenced s h then no
      else (match r with
        | .firmware => (stOk, none)
        | .operator => if write then no else (stOk, some 0)
        | .unit x => (if mayAccess s x a n write (!write) then stOk else stPerm, none)
        | .peer _ => no
        | .other => no)
    | .firmware h => if !fenced s h && (r = .firmware || (r = .operator && !write && operatorTables s a n)) then (stOk, none) else no
    | .window c off =>
      if !cellPresent s c then no
      else (match r with
        | .unit x => (if mayAccess s x a n write (!write) then stOk else stPerm, none)
        | .operator =>
          if write then no
          else if off + n ≤ spSize then (stOk, some 0)
          else if decide (0x400000 ≤ off) && decide (off + n ≤ 0x580000) then (stOk, some 1)
          else if decide (0x580000 ≤ off) && decide (off + n ≤ 0x5B0000) then (stOk, some 1)
          else if decide (0x600000 ≤ off) && decide (off + n ≤ 0x610000) then (stOk, some 1)
          else no
        | .firmware => if write || decide (off + n > 0x5B0000) then no else (stOk, none)
        | .peer _ => no
        | .other => no)
    | .carve _ => no
    | .csr => no
    | .nowhere => no

/-- The pairs of a request that the holder checks: every pair of a read, the partly covered pairs of a write (R199). -/
def checkedPairs (s : State) (write : Bool) (a n : Nat) : List Nat :=
  match areaOf s a with
  | .window _ _ => []
  | _ => if write then (pairsOf a n).filter (fun p => !(decide (a ≤ 128 * p) && decide (128 * p + 128 ≤ a + n))) else pairsOf a n

/-- A memory request (R190, R199 to R201): its right, the tag check of its first pair that is not poisoned, its data. -/
def holderAccess (r : Requester) (write : Bool) (a len : Nat) (data : Bytes) (tag : TagRead) (s : State) : State :=
  let n := if write then data.length else len
  let x := match r with | .unit x => some x | _ => none
  let p := requestStatus s r write a n
  if p.1 ≠ stOk then s.emit (.data r a p.1 [])
  else
    let s := match p.2 with | some b => logDebug b s | none => s
    let s := match (checkedPairs s write a n).find? (fun q => !s.poison.contains q) with
      | some q => tagCheck q x tag s
      | none => s
    if write then
      let w := writeMem s a data
      (if w.2 then w.1 else notePoison w.1 a n).emit (.data r a (if w.2 then stOk else stMem) [])
    else match readMem s a n with
      | some b => s.emit (.data r a stOk b)
      | none => (notePoison s a n).emit (.data r a stMem [])

/-- HOLDER_ACCESS. -/
def execHolderAccess (r : Requester) (write : Bool) (addr len : Nat) (data : Bytes) (tag : TagRead) (s : State) :
    Host.Outcome State Fault Refusal := serving (holderAccess r write addr len data tag) s

/-! ## The patrol (R202) -/

/-- Pairs of the protected memory and of the private tables of a holder. -/
def patrolCounts (h : Nat) : Nat × Nat := if h = 19 then (0x3C0000000, 0x3C00000) else (0x16800000, 0x168000)

/-- The pair that stands at place i of a holder's patrol, by address / 128. -/
def patrolPair (h i : Nat) : Nat :=
  let c := patrolCounts h
  if h = 19 then (if i < c.1 then tierBase / 128 + i else 0x03FE20000000 / 128 + (i - c.1))
  else (if i < c.1 then ((h - 8) * stackSize) / 128 + i else ((h - 8) * stackSize + 0xBF4C00000) / 128 + (i - c.1))

/-- SCRUB_PATROL: the next pair is checked; the last of a pass counts it. A poisoned pair is counted and makes no record. -/
def scrubPatrol (h : Nat) (tag : TagRead) (s : State) : State :=
  let k := s.holder h
  if !k.patrolEn || fenced s h || k.resetting || !((8 ≤ h ∧ h ≤ 15) ∨ h = 19) then s
  else
    let p := patrolPair h k.nextPair
    let s := if s.poison.contains p then
        (notePoison s (128 * p) 128).modHolder h (fun w => { w with poisoned := bump w.poisoned 1 })
      else tagCheck p none tag s
    let c := patrolCounts h
    if k.nextPair + 1 < c.1 + c.2 then s.modHolder h (fun w => { w with nextPair := k.nextPair + 1 })
    else
      let s := s.modHolder h (fun w => { w with nextPair := 0, passes := bump w.passes 1 })
      ffEvent 0x0132 1 h h none (le 2 (s.holder h).passes.toNat) s

/-- SCRUB_PATROL. -/
def execScrubPatrol (h : Nat) (tag : TagRead) (s : State) : Host.Outcome State Fault Refusal := serving (scrubPatrol h tag) s

end Sys2Proof.Machine
end

