-- ==== Sys2Proof/Machine/Coll.lean ====
section
/-! DEFINITION. Machine/Coll.lean: the collective engines: descriptors, contributions, the reduction store, delivery, the exchange of
rows, and the end of a collective (R302 to R310, R339, R546). -/
namespace Sys2Proof.Machine

/-! ## Groups, blocks and nibbles -/

/-- The devices of a group of context x, in its order (R339, R342); none when the epoch does not define it. -/
def collGroup (s : State) (x g : Nat) : Option (List Nat) :=
  let c := s.ctx x
  match c.job with
  | none => none
  | some j =>
    if g = 0 then some j.members
    else if g = 1023 then (if c.molt.phase = .none then none else some c.molt.group)
    else (getKey j.groups g).map (fun l => l.filterMap (fun m => j.members[m]?))

/-- The instance number that the next collective of a group and op takes (R546). -/
def nextInst (s : State) (x g op : Nat) : Nat :=
  match (s.ctx x).instNo.find? (fun e => e.1 = g && e.2.1 = op) with
  | some e => e.2.2
  | none => 0

/-- Counts one collective of a group and op. -/
def bumpInst (x g op : Nat) (s : State) : State :=
  let n := nextInst s x g op
  s.modCtx x (fun c => { c with instNo := (g, op, n + 1) :: c.instNo.filter (fun e => !(e.1 = g && e.2.1 = op)) })

/-- Gradient blocks of a job. -/
def jobBlocks (j : Job) : Nat := (j.pTotal + 31) / 32

/-- The slot of a gradient block. -/
def slotOf (j : Job) (b : Nat) : Nat := b / (slotSize j / 32)

/-- A quantiser's nibble as it enters the wire (R306): bit 0 becomes lowz. -/
def nibEnter (n : Nat) : Nat := n / 2 % 8 * 2 + b2n (bit n 0 || bit n 2)

/-- Two wire nibbles combined (R306). -/
def nibJoin (a b : Nat) : Nat :=
  8 * b2n (bit a 3 || bit b 3) + 4 * b2n (bit a 2 && bit b 2) + 2 * b2n (bit a 1 || bit b 1) + b2n (bit a 0 && bit b 0)

/-- The nibble delivered (R306). -/
def nibOut (n : Nat) : Nat := n / 2 % 8 * 2 + b2n (bit n 0 && !bit n 2)

/-- Nibble i of a plane of packed nibbles. -/
def nibAt (bs : Bytes) (i : Nat) : Nat := leAt bs (i / 2) 1 / (if i % 2 = 1 then 16 else 1) % 16

/-- Writes nibble i of a plane of `count` nibbles; a trailing high nibble is zero (R304). -/
def putNib (s : State) (plane i n count : Nat) : State × Bool :=
  let old := ofLe (peek s (plane + i / 2) 1)
  writeMem s (plane + i / 2) [BitVec.ofNat 8 (if i % 2 = 1 then old % 16 + 16 * n else if i + 1 = count then n else old / 16 * 16 + n)]

/-- Bytes of one element of a GBI or GBS format in a payload; 0 for any other. -/
def wireWidth (fmt : Nat) : Nat := if fmt = 10 then 2 else if fmt = 11 then 3 else if fmt = 13 then 4 else if fmt = 14 then 5 else 0

/-- The element that w bytes spell, and whether it is the non-finite marker (R54, R56). -/
def wireElem (w : Nat) (b : Bytes) : Int × Bool :=
  let i := toSigned (8 * w) (ofLe b)
  (i, decide (i = -(2 : Int) ^ (8 * w - 1)))

/-- The 32 elements of block i of a payload. -/
def wireBlock (w : Nat) (payload : Bytes) (i : Nat) : List (Int × Bool) :=
  (List.range 32).map (fun j => wireElem w (slice payload (32 * w * i + w * j) w))

/-- The bytes of 32 sums of a sum form of w bytes (R56). -/
def sumBytes (w : Nat) (sums : List Int) (bad : List Bool) : Bytes :=
  (sums.zip bad).flatMap (fun e => le w (if e.2 then 2 ^ (8 * w - 1) else ofSigned (8 * w) e.1))

/-- Blocks, elements or rows that a message of a format carries at most (R305). -/
def perMsg (fmt : Nat) : Nat := if fmt = 10 then 120 else if fmt = 11 then 80 else if fmt = 13 then 60 else 48

/-! ## Descriptors (R302, R303) -/

/-- op. -/
def kOp (d : Bytes) : Nat := leAt d 0 1
/-- group. -/
def kGroup (d : Bytes) : Nat := leAt d 2 2
/-- share_count. -/
def kShare (d : Bytes) : Nat := leAt d 4 2
/-- root. -/
def kRoot (d : Bytes) : Nat := leAt d 6 2
/-- rows. -/
def kRows (d : Bytes) : Nat := leAt d 8 4
/-- cols. -/
def kCols (d : Bytes) : Nat := leAt d 12 4
/-- first. -/
def kFirst (d : Bytes) : Nat := leAt d 80 8
/-- row_step. -/
def kStep (d : Bytes) : Nat := leAt d 88 4
/-- recv_cap. -/
def kCap (d : Bytes) : Nat := leAt d 92 4
/-- aux0. -/
def kAux0 (d : Bytes) : Nat := leAt d 96 8
/-- aux1. -/
def kAux1 (d : Bytes) : Nat := leAt d 104 8

/-- Bytes of a unit of an op that moves units: i16, scale byte, u64, Grid entry, digests of a slot, else a byte. -/
def unitBytes (op : Nat) : Nat := if op = 5 then 2 else if op = 7 then 8 else if op = 8 then 16 else if op = 9 then 192 else 1

/-- The op has a destination. -/
def hasDst (op : Nat) : Bool := decide (op ≠ 1) && decide (op ≠ 6)

/-- Spans of n rows of `len` bytes at a pitch. -/
def rowSpans (r : TRef) (n len : Nat) : List (Nat × Nat) := if n = 0 then [] else [(r.base, (n - 1) * r.pitch + len)]

/-- The route record of a group. -/
def routeOf (s : State) (x g : Nat) : Option RouteRec := s.routes.find? (fun r => r.x = x && r.group = g)

/-- Destination member and key of row i of a route table. -/
def routeRow (t : Bytes) (i : Nat) : Nat × Nat := (leAt t (16 * i) 8, leAt t (16 * i + 8) 2)

/-- The form of a descriptor of context x (R302 to R304, R339): none is BAD_DESCRIPTOR; else what it reads and what it writes. DESIGN CHOICE (log
entry 98): the ops of bytes, i16, u64, Grid entries and rows move their rows one after the other, so a reference of theirs must be RM; no
format code names those units, so its format says nothing. -/
def collForm (s : State) (x : Nat) (d : Bytes) : Option (List (Nat × Nat) × List (Nat × Nat)) :=
  let op := kOp d
  let j := jobOf s x
  let rows := kRows d
  let cols := kCols d
  let len := cols * unitBytes op
  let gbi := op = 1 || op = 2
  let mine := if op = 4 then decide (memberOf j s.plate.devIndex = some (kRoot d)) else true
  match collGroup s x (kGroup d), (if mine then memRef d 16 else some { fmt := .fp32, cm := false, base := 0, pitch := 16 }),
      (if hasDst op then memRef d 48 else some { fmt := .fp32, cm := false, base := 0, pitch := 16 }) with
  | some g, some a, some b =>
    if op = 0 || decide (op > 0x0B) || leAt d 1 1 ≠ 0 || !g.contains s.plate.devIndex || rows = 0 || decide (rows > 2 ^ 20) || cols = 0
        || kShare d = 0 || decide (kShare d > 16384) || (decide (op ≠ 4) && kRoot d ≠ 0)
        || (op = 4 && !(match j.members[kRoot d]? with | some m => g.contains m | none => false))
        || (decide (op ≠ 0x0A) && kCap d ≠ 0) || (decide (op ≠ 0x0A) && kAux1 d ≠ 0)
        || (decide (op ≠ 2) && decide (op ≠ 0x0A) && decide (op ≠ 0x0B) && kAux0 d ≠ 0) then none
    else if gbi then
      let w := if j.gbiWidth = 24 then 3 else 2
      let nb := cols / 32
      if decide (cols % 32 ≠ 0) || a.fmt ≠ (if w = 3 then Fmt.gbi24 else .gbi16) || a.cm || !a.shapeOk rows cols
          || !((List.range rows).all (fun r => decide (kFirst d + r * kStep d + nb ≤ jobBlocks j)))
          || (op = 2 && (b.fmt ≠ (if w = 3 then Fmt.gbs40 else .gbs32) || b.cm || !b.shapeOk rows cols)) then none
      else some (rowSpans a rows (cols * w + (cols + 63) / 64),
                 if op = 2 then rowSpans b rows (cols * (w + 2)) ++ [(kAux0 d, (rows * nb + 1) / 2)] else [])
    else if a.cm || (hasDst op && b.cm) then none
    else if op = 6 then
      if (List.range rows).all (fun r => decide (kFirst d + r * kStep d + cols ≤ jobBlocks j)) then some (rowSpans a rows cols, []) else none
    else if op = 3 then some (rowSpans a rows cols, (List.range rows).map (fun r => (b.base + kFirst d + r * kStep d, cols)))
    else if op = 0x0A then some ((kAux0 d, 16 * rows) :: rowSpans a rows cols, rowSpans b (kCap d) cols ++ [(kAux1 d, 8 * kCap d)])
    else if op = 0x0B then
      match routeOf s x (kGroup d) with
      | none => none
      | some r =>
        if decide (r.keys.length > rows) then none
        else some ((kAux0 d, 16 * r.rows) :: rowSpans a r.keys.length cols, rowSpans b r.rows cols)
    else some (if mine then rowSpans a rows len else [], rowSpans b rows len)
  | _, _, _ => none

/-! ## Messages (R305) -/

/-- A DATA packet of the class COLLECTIVE as its fields (R305). -/
structure CData where
  op      : Nat
  fmt     : Nat
  group   : Nat
  share   : Nat
  n       : Nat
  first   : Nat
  inst    : Nat
  rows    : Nat
  cols    : Nat
  src     : Nat
  die     : Nat := 16                 -- link die whose engine takes it: that of its flow
  seq     : Nat := 0                  -- number of its message in the flow
  payload : Bytes
  deriving DecidableEq, Repr

/-- The fields of a packet. -/
def cdataOf (p : FjPkt) : CData :=
  let e := p.ext
  { op := leAt e 0 1, fmt := leAt e 1 1, group := leAt e 2 2, share := leAt e 4 2, n := leAt e 6 2, first := leAt e 8 8, inst := leAt e 16 4,
    rows := leAt e 20 4, cols := leAt e 24 4, src := p.hdr.src, die := if p.hdr.flow = 1 then 17 else 16, seq := p.hdr.msgSeq, payload := p.payload }

/-- The extension bytes (R305). -/
def cdataExt (c : CData) : Bytes :=
  [BitVec.ofNat 8 c.op, BitVec.ofNat 8 c.fmt] ++ le 2 c.group ++ le 2 c.share ++ le 2 c.n ++ le 8 c.first ++ le 4 c.inst ++ le 4 c.rows
    ++ le 4 c.cols ++ zeros 4

/-- Applies `f` to the collective of context x with an op, group and instance. -/
def modColl (x op g n : Nat) (f : Coll → Coll) (s : State) : State :=
  { s with colls := s.colls.map (fun k => if k.x = x && k.op = op && k.group = g && k.num = n then f k else k) }

/-- The collective of context x with an op, group and instance. -/
def findColl (s : State) (x op g n : Nat) : Option Coll :=
  s.colls.find? (fun k => k.x = x && k.op = op && k.group = g && k.num = n)

/-- Sends one message of a collective to a member; the collective waits for its acknowledgement. -/
def sendColl (k : Coll) (dst : Nat) (c : CData) (s : State) : State :=
  let s := modColl k.x k.op k.group k.num (fun k => { k with unacked := k.unacked + 1 }) s
  let key := collFlow dst k.die
  let budget := match k.queue with | some (q, _) => (s.queue q).budget | none => 0
  sendMsg s key (.collective k.x k.op k.group k.num) budget
    [{ hdr := ctxHdr s (some k.x) key 1, ext := cdataExt c, payload := c.payload }]

/-- A message of a collective before its units are known. -/
def msgOf (k : Coll) (s : State) (fmt share n first : Nat) (payload : Bytes) : CData :=
  { op := k.op, fmt := fmt, group := k.group, share := share, n := n, first := first, inst := k.num, rows := kRows k.desc, cols := kCols k.desc,
    src := s.plate.devIndex, die := k.die, payload := payload }

/-- Cuts bytes into pieces of at most n. -/
def cut (n : Nat) : Nat → Bytes → List Bytes
  | 0, _ => []
  | f + 1, b => if b.isEmpty then [] else b.take n :: cut n f (b.drop n)

/-- Pieces of a run of bytes that a message carries: at most 7,680 bytes. -/
def cutMsg (b : Bytes) : List Bytes := cut 7680 (b.length / 7680 + 1) b

/-! ## The end of a collective (R302, R307, R545) -/

/-- Totals of the ledger collective (R258): lanes of the contribution of one member. -/
def ledgerLanes (s : State) (x : Nat) : List Nat :=
  let sl := s.sl x
  let limbs := fun (g : Grid) => [g.st.toNat, bits (ofSigned 96 g.word) 0 32, bits (ofSigned 96 g.word) 32 32, bits (ofSigned 96 g.word) 64 32]
  [sl.counts.overflow, sl.counts.nonfinite, sl.counts.raised, sl.counts.lowered, sl.counts.zeroSum, b2n sl.fastUsed, b2n sl.unknownLayer,
    sl.qStep, ofSigned 16 (anchorOf sl.qOwn.a)] ++ limbs sl.qOwn
    ++ sl.table.flatMap (fun t =>
      let l := (sl.layers.find? (fun l => l.layer = t.1)).getD { layer := t.1, aStat := t.2 }
      [b2n l.mixed] ++ limbs l.g ++ limbs l.d ++ limbs l.w)

/-- A Grid sum from the lanes of every member at offset i: words added as integers, special-state bits ORed (R107, R258). -/
def gridOfLanes (cs : List (List Nat)) (i : Nat) (a : Option Int) : Grid :=
  { word := wrap96 ((cs.map (fun c => toSigned 96 (c.getD (i + 1) 0 + 2 ^ 32 * c.getD (i + 2) 0 + 2 ^ 64 * c.getD (i + 3) 0))).foldl (· + ·) 0),
    st := cs.foldl (fun t c => t ||| BitVec.ofNat 4 (c.getD i 0)) 0, a := a }

/-- What the ledger collective gives every member (R258). Of a layer with a job of another a_stat, the grids of that job alone are absent (R257). -/
def takeLedger (x : Nat) (cs : List (List Nat)) (s : State) : State :=
  let sl := s.sl x
  let sum := fun (i : Nat) => (cs.map (fun c => c.getD i 0)).sum
  let anchors := cs.map (fun c => c.getD 8 0)
  let same := anchors.all (fun a => a = anchors.headD 0)
  s.modSl x (fun l => { l with
    totals := some { overflow := sum 0, nonfinite := sum 1, raised := sum 2, lowered := sum 3, zeroSum := sum 4 },
    fastAll := decide (sum 5 ≠ 0), unknownAll := decide (sum 6 ≠ 0),
    qStepOk := cs.all (fun c => c.getD 7 0 = sl.step),
    qGrid := if same then some (gridOfLanes cs 9 (anchorFrom (toSigned 16 (anchors.headD 0)))) else none,
    layerTot := sl.table.zipIdx.map (fun e =>
      let o := 13 + 13 * e.2
      let mixed := cs.any (fun c => c.getD o 0 ≠ 0)
      { layer := e.1.1, aStat := e.1.2, mixed := mixed, g := gridOfLanes cs (o + 1) (some e.1.2), d := gridOfLanes cs (o + 5) (some e.1.2),
        w := gridOfLanes cs (o + 9) (some e.1.2) }) })

/-- The lanes of a contribution of u64 values. -/
def lanesOf (b : Bytes) : List Nat := (List.range (b.length / 8)).map (fun i => leAt b (8 * i) 8)

/-- All that one source has sent to a collective, in order. -/
def Coll.from (k : Coll) (dev : Nat) : Bytes := (k.parts.filter (fun p => p.1 = dev)).flatMap (·.2.2)

/-- The fingerprint exchange of a step has ended (R260): duplicates and gaps, or a failure, leave fingerprint_valid 0. -/
def endDigests (k : Coll) (st : Nat) (s : State) : State :=
  let ds := k.parts.map (fun p => (p.2.1, p.2.2.take 64, slice p.2.2 64 64, slice p.2.2 128 64))
  let full := (List.range 4096).all (fun i => decide ((ds.filter (fun d => d.1 = i)).length = 1))
  let bad := decide (st ≠ stOk) || !full
  let s := if st = stOk && bad then logInternal 18 (some k.x) stInternal s else s
  match (s.ctx k.x).molt.phase with
  | .verify => s.modCtx k.x (fun c => { c with molt := { c.molt with flag := c.molt.flag || bad, needDig := false }, sl := { c.sl with digests := ds } })
  | _ => s.modSl k.x (fun l => { l with digests := ds, digestBad := l.digestBad || bad, fpDone := true })

/-- A collective that a molt or recovery issued over its group has ended: an agreement, the RECOVER gather, or a broadcast of the
scale-ledger header or of a record (R342, R464). A failure of the latter three is the member's failure flag. -/
def endMolt (k : Coll) (st : Nat) (s : State) : State :=
  let put := fun (f : Molt → Molt) => s.modCtx k.x (fun c => { c with molt := f c.molt })
  if k.op = 7 then
    let sum := fun (i : Nat) => (k.members.map (fun m => (lanesOf (k.from m)).getD i 0)).sum
    put (fun m => { m with agree := some (st, sum 0, sum 1) })
  else if st ≠ stOk then put (fun m => { m with flag := true, why := st, needHdr := false, needRec := false })
  else if k.op = 3 then
    put (fun m => { m with entries := k.parts.map (fun p =>
      { dev := p.1, step := leAt p.2.2 8 8, gens := [(leAt p.2.2 16 8, leAt p.2.2 2 1), (leAt p.2.2 24 8, leAt p.2.2 3 1)] }) })
  else
    let b := k.parts.flatMap (·.2.2)
    if b.length = 64 then
      (s.modSl k.x (fun l => { l with hdr := hdrOf b })).modCtx k.x (fun c => { c with molt := { c.molt with needHdr := false } })
    else put (fun m => { m with ref := b, needRec := false })

/-- A hub collective has ended. -/
def endHub (k : Coll) (st : Nat) (s : State) : State :=
  if k.op = 9 then endDigests k st s
  else if k.group = 1023 then endMolt k st s
  else if decide ((s.sl k.x).phase = .ledger) then
    if st = stOk then endLedger k.x true (takeLedger k.x (k.members.map (fun m => lanesOf (k.from m))) s) else endLedger k.x false s
  else s

/-- Writes bytes 112 to 127 of a descriptor, by which its command completes (R302, R364); a write that fails gives its own status (R545). -/
def writeEnd (x at_ die st received dropped : Nat) (s : State) : State × Nat :=
  let w := writeFor s x (at_ + 112) (le 1 st ++ zeros 3 ++ le 4 received ++ le 4 dropped ++ zeros 4)
  (logFailed die (some x) w.2 w.1, if w.2 = stOk then st else w.2)

/-- A collective ends with a status: its descriptor is written, its command completes, and a failed reduction fails the step (R235). -/
def endColl (k : Coll) (st : Nat) (s : State) : State :=
  let s := { s with colls := s.colls.filter (fun c => !(c.x = k.x && c.op = k.op && c.group = k.group && c.num = k.num)),
                    red := if st ≥ 0x10 then s.red.filter (fun r => !(r.x = k.x && r.op = k.op && r.group = k.group && r.num = k.num)) else s.red }
  match k.queue with
  | none => endHub k st s
  | some (q, n) =>
    let w := writeEnd k.x k.descAt k.die st k.received k.dropped s
    let fin := w.2
    let s := w.1
    let s := ffTrace 0x0007 k.die k.die (some k.x) (le 1 k.op ++ le 2 k.group ++ le 1 fin ++ le 4 (usOf (s.clk - k.since))) s
    let s := pollCtx k.x (finishCmd q n fin k.received 0 s)
    if decide (fin ≥ 0x10) && (k.op = 1 || k.op = 2 || k.op = 6) then failStep k.x fin s else s

/-! ## The reduction store (R307, R308) -/

/-- Bytes of an entry. -/
def redSize (j : Job) : Nat := if j.gbiWidth = 24 then 168 else 136

/-- The open blocks of an instance. -/
def redOpen (s : State) (x op g n : Nat) : List Nat :=
  (s.red.filter (fun r => r.x = x && r.op = op && r.group = g && r.num = n)).map (·.block)

/-- The engine admits the blocks of a contribution: below W + 2^18, free entries for the new ones, and a
holder that is not in reset (R429). -/
def redRoom (s : State) (x : Nat) (c : CData) : Bool :=
  let held := redOpen s x c.op c.group c.inst
  let w := match held with | [] => c.first | b :: t => t.foldl min b
  let new := ((List.range c.n).filter (fun i => !held.contains (c.first + i))).length
  let held := match (jobOf s x).slots[slotOf (jobOf s x) c.first]? with | some e => decide (c.op = 1) && (s.holder e.holder).resetting | none => false
  !held && decide (c.first + c.n ≤ w + 2 ^ 18) && decide (((s.red.filter (fun r => r.die = c.die)).map (fun r => redSize (jobOf s r.x))).sum + new * redSize (jobOf s x) ≤ 0x4000000)

/-- This device holds the slot of a block. -/
def ownsBlock (s : State) (x b : Nat) : Bool :=
  let j := jobOf s x
  match j.slots[slotOf j b]? with
  | some e => e.member = myMember s x && decide ((memberOf j s.plate.devIndex).isSome)
  | none => false

/-- This device reduces a block of an instance (R307, R339). -/
def reducesHere (s : State) (x op g b : Nat) : Bool :=
  if op = 2 then
    match collGroup s x g with
    | some l => l[b % max 1 l.length]? = some s.plate.devIndex
    | none => false
  else ownsBlock s x b

/-- A collective has everything that it waits for, for the reducing ops (R546): its result, for ALLREDUCE_GBI; else its contributions admitted and
its held blocks delivered: those it contributed and those of which a contribution has come (DEDUCED, log entry 99). -/
def checkRed (x op g n : Nat) (s : State) : State :=
  match findColl s x op g n with
  | none => s
  | some k =>
    if k.want.isEmpty && (op = 2 || (k.unacked = 0 && k.own.isEmpty && (redOpen s x op g n).isEmpty)) then endColl k stOk s else s

/-- A block of REDUCE_GBI or MAX_SCALE has been delivered to this device as the holder of its slot. -/
def tookBlock (x op g n b : Nat) (s : State) : State :=
  let s := modColl x op g n (fun k => { k with received := k.received + 1, want := k.want.erase b }) s
  let s := match findColl s x op g n with
    | some k => (match k.queue with | some (q, c) => progressCmd q c 1 s | none => s)
    | none => s
  tryCommit x (checkRed x op g n s)

/-- A reducing collective fails on this device with a status. -/
def redFails (x op g n st : Nat) (s : State) : State :=
  match findColl s x op g n with
  | some k => endColl k st s
  | none => failStep x st (if st = stInternal then logInternal 16 (some x) st s else s)

/-- Writes a summed block at the holder of its slot: sums and delivered nibble, or neither when a pair on the way is poisoned (R307, R328). -/
def deliverBlock (r : RedEntry) (s : State) : State :=
  let j := jobOf s r.x
  let i := slotOf j r.block
  let e := (j.slots[i]?).getD {}
  let w := sumWidth j
  let o := r.block - slotFirst j i
  let a := e.grad + 32 * w * o
  let f := flagPlane j i e
  if !(partPoison s a (32 * w)).isEmpty || !(partPoison s (f + o / 2) 1).isEmpty then redFails r.x r.op r.group r.num stMem s
  else
    let s := (writeMem s a (sumBytes w r.sums r.bad)).1
    let s := (putNib s f o (nibOut r.nibble.toNat) (slotBlocks j i)).1
    let s := s.modSl r.x (fun l => { l with summed := putKey l.summed r.block (nibOut r.nibble.toNat) })
    tookBlock r.x r.op r.group r.num r.block s

/-- A result block of ALLREDUCE_GBI at this member: DST and the flag plane (R303). The status is that of the writes. -/
def putResult (k : Coll) (b : Nat) (sums nib : Bytes) (s : State) : State × Nat :=
  let nb := kCols k.desc / 32
  match (List.range (kRows k.desc)).find? (fun r => decide (kFirst k.desc + r * kStep k.desc ≤ b) && decide (b < kFirst k.desc + r * kStep k.desc + nb)),
      memRef k.desc 48 with
  | some r, some d =>
    let o := b - (kFirst k.desc + r * kStep k.desc)
    let w := writeFor s k.x (d.base + r * d.pitch + o * sums.length) sums
    if w.2 ≠ stOk then w
    else if !mayAccess w.1 k.x (kAux0 k.desc + (r * nb + o) / 2) 1 true false then (w.1, stPerm)
    else
      let f := putNib w.1 (kAux0 k.desc) (r * nb + o) (nibOut (leAt nib 0 1)) (kRows k.desc * nb)
      (f.1, if f.2 then stOk else stMem)
  | _, _ => (s, stOk)

/-- Takes result blocks of ALLREDUCE_GBI. -/
def takeResults (c : CData) (x : Nat) (s : State) : State :=
  let w := wireWidth c.fmt
  (List.range c.n).foldl (fun t i =>
    match findColl t x c.op c.group c.inst with
    | none => t
    | some k =>
      if !k.want.contains (c.first + i) then t
      else
        let r := putResult k (c.first + i) (slice c.payload (32 * w * i) (32 * w)) (le 1 (nibAt (c.payload.drop (32 * w * c.n)) i)) t
        if r.2 ≠ stOk then endColl k r.2 r.1 else tookBlock x c.op c.group c.inst (c.first + i) r.1) s

/-- A block of ALLREDUCE_GBI is summed at its reducing member, whose own collective k has started: every member of the group gets it (R307). -/
def shareResult (k : Coll) (r : RedEntry) (s : State) : State :=
  let j := jobOf s r.x
  let w := sumWidth j
  let c : CData := { op := 2, fmt := if w = 5 then 14 else 13, group := r.group, share := j.nShares, n := 1, first := r.block, inst := r.num,
                     rows := kRows k.desc, cols := kCols k.desc, src := s.plate.devIndex, payload := sumBytes w r.sums r.bad ++ [BitVec.ofNat 8 r.nibble.toNat] ++ zeros 3 }
  let s := (((collGroup s r.x r.group).getD []).filter (fun d => d ≠ s.plate.devIndex)).foldl (fun t d =>
    let key := collFlow d k.die
    sendMsg t key .reply 0 [{ hdr := ctxHdr t (some r.x) key 1, ext := cdataExt c, payload := c.payload }]) s
  takeResults c r.x s

/-- Adds one block of a contribution to its entry; a block that reaches n_shares leaves the store, one that passes it is an
error (R307). A sum of ALLREDUCE_GBI stays there until this member's own collective has started. -/
def redAdd (x : Nat) (c : CData) (i : Nat) (s : State) : State :=
  let j := jobOf s x
  let b := c.first + i
  let w := wireWidth c.fmt
  let vals := if c.op = 6 then [((leAt c.payload i 1 : Int), false)] else wireBlock w c.payload i
  let nib := if c.op = 6 then 0 else nibAt (c.payload.drop (32 * w * c.n)) i
  let same := fun (r : RedEntry) => r.x = x && r.op = c.op && r.group = c.group && r.num = c.inst && r.block = b
  let e : RedEntry := match s.red.find? same with
    | none => { x := x, epoch := (s.sl x).epoch, step := (s.sl x).step, op := c.op, group := c.group, num := c.inst, die := c.die, block := b,
                rows := c.rows, cols := c.cols, share := c.share, sums := vals.map (·.1), bad := vals.map (·.2), nibble := BitVec.ofNat 4 nib }
    | some r => { r with share := r.share + c.share,
                         sums := List.zipWith (fun u v => if c.op = 6 then max u v.1 else u + v.1) r.sums vals,
                         bad := List.zipWith (fun u v => u || v.2) r.bad vals, nibble := BitVec.ofNat 4 (nibJoin r.nibble.toNat nib) }
  let rest := s.red.filter (fun r => !same r)
  if e.share > j.nShares then redFails x c.op c.group c.inst stInternal { s with red := rest }
  else if e.share < j.nShares then { s with red := rest ++ [e] }
  else
    let s := { s with red := rest }
    if c.op = 1 then deliverBlock e s
    else if c.op = 2 then
      match findColl s x 2 c.group c.inst with
      | some k => shareResult k e s
      | none => { s with red := s.red ++ [e] }
    else tookBlock x 6 c.group c.inst b (s.modSl x (fun l => { l with smax := putKey l.smax b (e.sums.headD 0).toNat }))

/-- Every block of a contribution goes to the store. -/
def redTake (x : Nat) (c : CData) (s : State) : State := (List.range c.n).foldl (fun t i => redAdd x c i t) s

/-- The format of the contributions of a collective: the partials as they stand, or the sum form where shares are summed first (R307). -/
def ownFmt (s : State) (k : Coll) : Nat :=
  if k.op = 6 then 0 else if (jobOf s k.x).gbiWidth = 24 then (if k.summed then 14 else 11) else if k.summed then 13 else 10

/-- Offers the held contributions of a collective to this device's own engine, in order, while it has room (R308). -/
def offerOwn : Nat → Nat → Nat → Nat → Nat → State → State
  | 0, _, _, _, _, s => s
  | f + 1, x, op, g, n, s =>
    match findColl s x op g n with
    | none => s
    | some k =>
      match k.own with
      | [] => checkRed x op g n s
      | o :: rest =>
        let c := msgOf k s (ownFmt s k) (kShare k.desc) o.2.1 o.1 o.2.2
        if redRoom s x c then offerOwn f x op g n (redTake x c (modColl x op g n (fun k => { k with own := rest }) s)) else s

/-- Every collective offers again what its own engine had no room for. -/
def offerAll (s : State) : State :=
  (s.colls.filter (fun k => !k.own.isEmpty)).foldl (fun t k => offerOwn (k.own.length + 1) k.x k.op k.group k.num t) s

/-! ## Starting the reducing ops (R303, R306 to R308) -/

/-- The blocks of the source: index, bytes, wire nibble. -/
def srcBlocks (s : State) (k : Coll) (a : TRef) : List (Nat × Bytes × Nat) :=
  let cols := kCols k.desc
  let rows := (List.range (kRows k.desc))
  if k.op = 6 then
    rows.flatMap (fun r => let b := peek s (a.base + r * a.pitch) cols
                           (List.range cols).map (fun c => (kFirst k.desc + r * kStep k.desc + c, slice b c 1, 0)))
  else
    let w := if (jobOf s k.x).gbiWidth = 24 then 3 else 2
    rows.flatMap (fun r =>
      let b := peek s (a.base + r * a.pitch) (cols * w + (cols + 63) / 64)
      (List.range (cols / 32)).map (fun c => (kFirst k.desc + r * kStep k.desc + c, slice b (32 * w * c) (32 * w), nibEnter (nibAt (b.drop (cols * w)) c))))

/-- Several partials of one block, summed by the engine of their own device before they leave (R307): elements as sums with the absorbing marker,
nibbles joined; scale bytes by their maximum. -/
def preSum (op w : Nat) (l : List (Nat × Bytes × Nat)) : Bytes × Nat :=
  let nib := match l.map (·.2.2) with | [] => 0 | n :: t => t.foldl nibJoin n
  if op = 6 then (le 1 ((l.map (fun b => leAt b.2.1 0 1)).foldl max 0), nib)
  else
    let e := l.map (fun b => wireBlock w b.2.1 0)
    let at_ := fun (i : Nat) => e.map (fun r => (r[i]?).getD (0, false))
    (sumBytes (w + 2) ((List.range 32).map (fun i => ((at_ i).map (·.1)).sum)) ((List.range 32).map (fun i => (at_ i).any (·.2))), nib)

/-- The contributions of a source: one for each block, in ascending index, and whether they are sums. -/
def redContribs (op w : Nat) (bs : List (Nat × Bytes × Nat)) : List (Nat × Bytes × Nat) × Bool :=
  let bs := sortBy (fun (u v : Nat × Bytes × Nat) => decide (u.1 < v.1)) bs
  let ids := (bs.map (·.1)).eraseDups
  if ids.length = bs.length then (bs, false)
  else (ids.map (fun b => (b, preSum op w (bs.filter (fun e => e.1 = b)))), true)

/-- Joins blocks with ascending consecutive indices into runs of at most n. -/
def runsOf (n : Nat) : List (Nat × Bytes × Nat) → List (List (Nat × Bytes × Nat))
  | [] => []
  | b :: t =>
    match runsOf n t with
    | [] => [[b]]
    | r :: u =>
      match r with
      | [] => [b] :: u
      | c :: _ => if b.1 + 1 = c.1 && decide (r.length < n) then (b :: r) :: u else [b] :: r :: u

/-- The payload of a run: blocks, then packed nibbles padded to 4 bytes (R305). -/
def runPayload (op : Nat) (r : List (Nat × Bytes × Nat)) : Bytes :=
  let e := r.flatMap (·.2.1)
  if op = 6 then e
  else
    let n := packCodes 4 (r.map (·.2.2))
    e ++ n ++ zeros (alignUp n.length 4 - n.length)

/-- The device that reduces a block. -/
def reducerOf (s : State) (k : Coll) (b : Nat) : Nat :=
  if k.op = 2 then (k.members[b % max 1 k.members.length]?).getD 0
  else
    let j := jobOf s k.x
    match j.slots[slotOf j b]? with
    | some e => (j.members[e.member]?).getD 0
    | none => 0

/-- The contributions of a collective do not agree: this member tells every other one and ends BAD_DESCRIPTOR itself (R309). The message is one
without units and without shares (DESIGN CHOICE, log entry 100). -/
def failAll (k : Coll) (s : State) : State :=
  let s := (k.members.filter (fun d => d ≠ s.plate.devIndex)).foldl (fun t d => sendColl k d (msgOf k t 0 0 0 0 []) t) s
  endColl k stBad s

/-- The message says that the contributions of its collective do not agree. -/
def CData.fails (c : CData) : Bool := decide (5 ≤ c.op) && decide (c.op ≤ 8) && c.n = 0 && c.share = 0

/-- Hands the partials of a reducing collective to the engines: every block to its reducing device in ascending order (R308). -/
def startReduce (k : Coll) (a : TRef) (s : State) : State :=
  let cs := redContribs k.op (if (jobOf s k.x).gbiWidth = 24 then 3 else 2) (srcBlocks s k a)
  let bs := cs.1
  let k := { k with summed := cs.2 }
  let here := fun (b : Nat × Bytes × Nat) => reducerOf s k b.1 = s.plate.devIndex
  let fmt := ownFmt s k
  let per := if k.op = 6 then 7680 else perMsg fmt
  let own := (runsOf per (bs.filter here)).map (fun r => ((r.headD (0, [], 0)).1, r.length, runPayload k.op r))
  let want := ((if k.op = 2 then bs else bs.filter here).map (·.1)).eraseDups
  let s := { s with colls := s.colls ++ [{ k with own := own, want := want }] }
  let away := ((bs.filter (fun b => !here b)).map (fun b => reducerOf s k b.1)).eraseDups
  let s := away.foldl (fun t d =>
    (runsOf per (bs.filter (fun b => reducerOf s k b.1 = d))).foldl (fun u r =>
      sendColl k d (msgOf k s fmt (kShare k.desc) r.length (r.headD (0, [], 0)).1 (runPayload k.op r)) u) t) s
  let s := offerOwn (own.length + 1) k.x k.op k.group k.num s
  let mine := s.red.filter (fun r => r.x = k.x && r.op = k.op && r.group = k.group && r.num = k.num)
  if k.op = 6 && mine.any (fun r => r.rows ≠ kRows k.desc || r.cols ≠ kCols k.desc) then failAll k s
  else
    (mine.filter (fun r => k.op = 2 && decide (r.share = (jobOf s k.x).nShares))).foldl (fun t r =>
      shareResult k r { t with red := t.red.filter (fun e => decide (e ≠ r)) }) s

/-! ## The ops that every member combines for itself (R303, R309, R310) -/

/-- The bytes that a source must send before the collective can end; none while it has announced nothing. -/
def Coll.due (k : Coll) (dev : Nat) : Option Nat :=
  match getKey k.counts dev with
  | none => none
  | some n => some (if k.op = 0x0A || k.op = 0x0B then n * kCols k.desc else if k.op = 9 then 192 * n else n)

/-- The members whose contributions a collective needs at this member. -/
def Coll.needs (j : Job) (k : Coll) : List Nat :=
  if k.op = 4 then (j.members[kRoot k.desc]?).toList else k.members

/-- Every contribution is here. -/
def Coll.whole (j : Job) (k : Coll) : Bool := (k.needs j).all (fun d => k.due d = some (k.from d).length)

/-- Writes rows of `len` bytes at the destination; the status of the first write that fails. -/
def putRows (x base pitch : Nat) (rows : List (Nat × Bytes)) (s : State) : State × Nat :=
  rows.foldl (fun t r => if t.2 ≠ stOk then t else writeFor t.1 x (base + r.1 * pitch) r.2) (s, stOk)

/-- One unit combined over the contributions (R303, R309). -/
def joinUnit (op : Nat) (us : List Bytes) : Bytes :=
  if op = 5 then le 2 (ofSigned 16 ((us.map (fun b => toSigned 16 (ofLe b))).foldl max (-32768)))
  else if op = 7 then le 8 ((us.map ofLe).sum)
  else
    match us.map gridOf with
    | [] => []
    | g :: t => gridBytes (t.foldl gridAdd g)

/-- The anchors of every unit agree (R107, R309). -/
def anchorsAgree (n : Nat) (cs : List Bytes) : Bool :=
  (List.range n).all (fun i => cs.all (fun c => decide (slice c (16 * i + 14) 2 = slice (cs.headD []) (16 * i + 14) 2)))

/-- The element-wise ops have every contribution: DST is written (R303, R309). -/
def endElems (k : Coll) (s : State) : State :=
  let u := unitBytes k.op
  let n := kRows k.desc * kCols k.desc
  let cs := k.members.map k.from
  match memRef k.desc 48 with
  | none => endColl k stBad s
  | some d =>
    if k.op = 8 && !anchorsAgree n cs then failAll k s
    else
      let units := (List.range n).map (fun i => joinUnit k.op (cs.map (fun c => slice c (u * i) u)))
      let rows := (List.range (kRows k.desc)).map (fun r => (r, ((units.drop (r * kCols k.desc)).take (kCols k.desc)).flatten))
      let w := putRows k.x d.base d.pitch rows s
      endColl { k with received := if w.2 = stOk then n else 0 } w.2 w.1

/-- The rows that have arrived: key, source, bytes. -/
def Coll.rowsIn (k : Coll) : List (Nat × Nat × Bytes) :=
  ((k.parts.map (fun p => (p.2.1, p.1))).eraseDups).map (fun e =>
    (e.1, e.2, (k.parts.filter (fun p => p.1 = e.2 && p.2.1 = e.1)).flatMap (·.2.2)))

/-- ALL_TO_ALL has every row: those that the capacity admits are placed in ascending key, and the route record is kept (R310). -/
def endRows (k : Coll) (s : State) : State :=
  match memRef k.desc 48 with
  | none => endColl k stBad s
  | some d =>
    let all := k.rowsIn
    let once := all.filter (fun r => (all.filter (fun t => t.1 = r.1)).length = 1)
    let keep := (sortBy (fun (a b : Nat × Nat × Bytes) => decide (a.1 < b.1)) once).take (kCap k.desc)
    let w := putRows k.x d.base d.pitch (keep.zipIdx.map (fun e => (e.2, e.1.2.2))) s
    let v := if w.2 = stOk then writeFor w.1 k.x (kAux1 k.desc) (keep.flatMap (fun r => le 8 r.1)) else w
    let rec_ : RouteRec := { x := k.x, group := k.group, rows := kRows k.desc, keys := keep.map (fun r => (r.1, r.2.1)) }
    let s := { v.1 with routes := rec_ :: v.1.routes.filter (fun r => !(r.x = k.x && r.group = k.group)) }
    let st := if v.2 ≠ stOk then v.2 else if once.length < all.length then stBad else if keep.length < once.length then stFlagged else stOk
    endColl { k with received := keep.length, dropped := all.length - keep.length } st s

/-- COMBINE has every row: each is written at the place of its key in the origin's route table (R310). -/
def endCombine (k : Coll) (s : State) : State :=
  match memRef k.desc 48, routeOf s k.x k.group with
  | some d, some rec_ =>
    match readFor s k.x (kAux0 k.desc) (16 * rec_.rows) with
    | .error st => endColl k st (noteRead st (kAux0 k.desc) (16 * rec_.rows) s)
    | .ok t =>
      let j := jobOf s k.x
      let place := fun (r : Nat × Nat × Bytes) => (List.range rec_.rows).find? (fun i => decide (routeRow t i = (r.1, (memberOf j r.2.1).getD 0xFFFF)))
      let rows := k.rowsIn.map (fun r => (place r, r.2.2))
      if rows.any (fun r => r.1.isNone) then endColl k stBad s
      else
        let w := putRows k.x d.base d.pitch (rows.map (fun r => (r.1.getD 0, r.2))) s
        endColl { k with received := if w.2 = stOk then rows.length else 0 } w.2 w.1
  | _, _ => endColl k stBad s

/-- A collective of these ops ends once every contribution has arrived; a hub collective hands over what it holds. -/
def checkWhole (x op g n : Nat) (s : State) : State :=
  match findColl s x op g n with
  | none => s
  | some k =>
    if !k.whole (jobOf s x) then s
    else if k.queue.isNone then endColl k stOk s
    else if op = 3 || op = 4 then endColl k stOk s
    else if op = 0x0A then endRows k s
    else if op = 0x0B then endCombine k s
    else endElems k s

/-- Bytes of ALLGATHER and BROADCAST go to DST as they arrive: at their byte offset, or row by row. The status is the writes'. -/
def putBytes (k : Coll) (c : CData) (s : State) : State × Nat :=
  match memRef k.desc 48 with
  | none => (s, stBad)
  | some d =>
    if k.op = 3 then writeFor s k.x (d.base + c.first) c.payload
    else
      let w := max 1 (kCols k.desc)
      let o := c.first
      let e := o + c.payload.length
      (List.range ((e + w - 1) / w - o / w)).foldl (fun t i =>
        if t.2 ≠ stOk then t
        else
          let lo := max o ((o / w + i) * w)
          let hi := min e ((o / w + i + 1) * w)
          writeFor t.1 k.x (d.base + (o / w + i) * d.pitch + lo % w) ((c.payload.drop (lo - o)).take (hi - lo))) (s, stOk)

/-- What a contribution announces of its sender: rows or digests counted by a message without units, else its bytes by rows and cols. -/
def announce (c : CData) (k : Coll) : Coll :=
  if c.op = 9 || c.op = 0x0A || c.op = 0x0B then (if c.n = 0 then { k with counts := putKey k.counts c.src c.first } else k)
  else { k with counts := putKey k.counts c.src (c.rows * c.cols * unitBytes c.op) }

/-- Takes one message of these ops at a member whose collective has started. -/
def takePart (x : Nat) (c : CData) (s : State) : State :=
  match findColl s x c.op c.group c.inst with
  | none => s
  | some k =>
    let differ := if 5 ≤ c.op ∧ c.op ≤ 8 then c.rows ≠ kRows k.desc || c.cols ≠ kCols k.desc
                  else if c.op = 0x0A || c.op = 0x0B then c.cols ≠ kCols k.desc else false
    if c.fails then endColl k stBad s
    else if differ then (if c.op ≤ 8 then failAll k s else endColl k stBad s)
    else
      let put := if k.queue.isSome && (c.op = 3 || c.op = 4) then putBytes k c s else (s, stOk)
      if put.2 ≠ stOk then endColl k put.2 put.1
      else
        let s := modColl x c.op c.group c.inst (fun k =>
          let k := announce c k
          if c.n = 0 then k
          else
            let at_ := ((k.parts.zip k.seqs).takeWhile (fun e => !(e.1.1 = c.src && serLt c.seq e.2))).length
            { k with parts := k.parts.take at_ ++ (c.src, c.first, c.payload) :: k.parts.drop at_, seqs := k.seqs.take at_ ++ c.seq :: k.seqs.drop at_,
                        received := if c.op = 3 || c.op = 4 then k.received + c.payload.length else k.received }) put.1
        let s := match k.queue with | some (q, n) => progressCmd q n c.n s | none => s
        checkWhole x c.op c.group c.inst s

/-- Sends one message to every other member and takes it here. -/
def toAll (k : Coll) (c : CData) (s : State) : State :=
  takePart k.x c ((k.members.filter (fun d => d ≠ s.plate.devIndex)).foldl (fun t d => sendColl k d c t) s)

/-- Sends one message to a member, this one included. -/
def toOne (k : Coll) (d : Nat) (c : CData) (s : State) : State :=
  if d = s.plate.devIndex then takePart k.x c s else sendColl k d c s

/-- Contributes rows of bytes to every member: ALLGATHER, BROADCAST and the element-wise ops. -/
def giveRows (k : Coll) (rows : List Bytes) (s : State) : State :=
  let u := unitBytes k.op
  rows.zipIdx.foldl (fun t r =>
    (cutMsg r.1).zipIdx.foldl (fun v p =>
      let off := 7680 * p.2
      let first := if k.op = 4 then r.2 * kCols k.desc + off else kFirst k.desc + r.2 * kStep k.desc + off / u
      toAll k (msgOf k s 0 (kShare k.desc) (p.1.length / u) first p.1) v) t) s

/-- Exchanges rows with keys: counts first, then the rows in ascending key (R310). -/
def giveKeyed (k : Coll) (rows : List (Nat × Nat × Bytes)) (s : State) : State :=
  let s := k.members.foldl (fun t d => toOne k d (msgOf k s 0 (kShare k.desc) 0 (rows.filter (fun r => r.2.1 = d)).length []) t) s
  rows.foldl (fun t r => (cutMsg r.2.2).foldl (fun v p => toOne k r.2.1 (msgOf k s 0 (kShare k.desc) p.length r.1 p) v) t) s

/-- Starts an op of these kinds after its checks. -/
def startAll (k : Coll) (s : State) : State :=
  let a := (memRef k.desc 16).getD { fmt := .fp32, cm := false, base := 0, pitch := 16 }
  let j := jobOf s k.x
  let cols := kCols k.desc
  let row := fun (n i : Nat) => peek s (a.base + i * a.pitch) n
  let s := { s with colls := s.colls ++ [k] }
  if k.op = 0x0A then
    let t := peek s (kAux0 k.desc) (16 * kRows k.desc)
    let rows := (List.range (kRows k.desc)).map (fun i => ((routeRow t i).1, (j.members[(routeRow t i).2]?).getD 0xFFFF, row cols i))
    if rows.any (fun r => !k.members.contains r.2.1)
        || !((List.range rows.length).all (fun i => (List.range i).all (fun h =>
          match rows[h]?, rows[i]? with | some p, some q => p.2.1 ≠ q.2.1 || decide (p.1 < q.1) | _, _ => true))) then endColl k stBad s
    else giveKeyed k rows s
  else if k.op = 0x0B then
    match routeOf s k.x k.group with
    | none => endColl k stBad s
    | some r => giveKeyed k (r.keys.zipIdx.map (fun e => (e.1.1, e.1.2, row cols e.2))) s
  else if k.op = 4 && decide (memberOf j s.plate.devIndex ≠ some (kRoot k.desc)) then s
  else giveRows k ((List.range (kRows k.desc)).map (row (cols * unitBytes k.op))) s

/-- A collective starts: it takes its instance number, and its engine begins. -/
def beginColl (x : Nat) (queue : Option (Nat × Nat)) (d : Bytes) (descAt die : Nat) (s : State) : State :=
  let g := kGroup d
  let k : Coll := { x := x, queue := queue, desc := d, descAt := descAt, op := kOp d, group := g, num := nextInst s x g (kOp d),
                    epoch := (s.sl x).epoch, die := die, members := (collGroup s x g).getD [], since := s.clk }
  let s := bumpInst x g (kOp d) s
  if k.op = 1 || k.op = 2 || k.op = 6 then
    match memRef d 16 with
    | some a => startReduce k a s
    | none => s
  else startAll k s

/-- The link die that carries a collective: the one named, or the lowest present one (R364). -/
def collDie (s : State) (d : Nat) : Nat := if d = 0xFF then (if fenced s 16 then 17 else 16) else d

/-- COLLECTIVE's effect. One that fails its checks completes by the write of its status too (R302, R364), but DIGEST_EXCHANGE, which has no
effect (R303). -/
def collectiveAct (q n : Nat) (b : Bytes) (s : State) : State :=
  let x := (s.queue q).ctx
  let die := collDie s (leAt b 24 1)
  let at_ := leAt b 32 8
  match readFor s x at_ 128 with
  | .error e => finishCmd q n (firstOf [(fenced s die, stOff), (true, e), (workConflict s x false, stConflict)]) 0 0 (noteRead e at_ 128 s)
  | .ok d =>
    let f := collForm s x d
    let r := f.getD ([], [])
    let st := firstOf [(fenced s die, stOff), (kOp d = 9, stPerm), (f.isNone, stBad), (workConflict s x false, stConflict),
      (!(mayAll s x false true r.1 && mayAll s x true false r.2), stPerm), (anyBad s r.1, stMem)]
    if st ≠ stOk then finishCmd q n st 0 0 (if kOp d = 9 then s else (writeEnd x at_ die st 0 0 s).1) else beginColl x (some (q, n)) d at_ die (acceptCmd q n s)

/-! ## The hub's own collectives (R258, R260) -/

/-- A descriptor of a collective that the hub issues: one row. -/
def hubDesc (op group root cols : Nat) : Bytes :=
  le 1 op ++ zeros 1 ++ le 2 group ++ le 2 1 ++ le 2 root ++ le 4 1 ++ le 4 cols ++ zeros 112

/-- A collective that the hub issues, before its contributions. -/
def hubColl (x op group root cols : Nat) (s : State) : State × Coll :=
  let k : Coll := { x := x, queue := none, desc := hubDesc op group root cols, op := op, group := group, num := nextInst s x group op,
                    epoch := (s.sl x).epoch, die := collDie s 0xFF, members := (collGroup s x group).getD [], since := s.clk }
  let s := bumpInst x group op s
  ({ s with colls := s.colls ++ [k] }, k)

/-- The ledger collective starts (R258). -/
def startLedger (x : Nat) (s : State) : State :=
  let lanes := ledgerLanes s x
  let r := hubColl x 7 0 0 lanes.length s
  giveRows r.2 [lanes.flatMap (le 8)] r.1

/-- The fingerprint exchange starts with the digests of this device's slots (R260). -/
def startDigests (x : Nat) (ds : List (Nat × Bytes)) (s : State) : State :=
  let r := hubColl x 9 0 0 0 s
  let s := toAll r.2 (msgOf r.2 r.1 0 1 0 ds.length []) r.1
  ds.foldl (fun t d => toAll r.2 (msgOf r.2 r.1 0 1 1 d.1 d.2) t) s

/-! ## COLLECTIVE DATA (R305, R307, R308, R546) -/

/-- The payload has the length and format that its op and units ask for. -/
def cdataOk (s : State) (x : Nat) (c : CData) : Bool :=
  let w := wireWidth c.fmt
  let j := jobOf s x
  let fmtOk := if j.gbiWidth = 24 then c.fmt = 11 || c.fmt = 14 else c.fmt = 10 || c.fmt = 13
  if c.op = 1 || c.op = 2 then
    fmtOk && decide (1 ≤ c.n) && decide (c.n ≤ perMsg c.fmt) && decide (c.payload.length = 32 * w * c.n + alignUp ((c.n + 1) / 2) 4)
      && decide (1 ≤ c.share) && decide (c.first + c.n ≤ jobBlocks j)
  else if c.fails then c.payload.isEmpty
  else if c.op = 6 then decide (1 ≤ c.n) && decide (c.payload.length = c.n) && decide (1 ≤ c.share) && decide (c.first + c.n ≤ jobBlocks j)
  else decide (3 ≤ c.op) && decide (c.op ≤ 0x0B) && decide (c.payload.length = c.n * unitBytes c.op)

/-- The collective has not yet started on this member. -/
def notYet (s : State) (x : Nat) (c : CData) : Bool := decide (nextInst s x c.group c.op ≤ c.inst)

/-- A COLLECTIVE DATA packet takes effect: contributions to the reduction store, results, or units for this member's collective. One that
this device cannot place is refused: BAD_HEADER, or NO_BUFFER while there is no room or the collective has not started here. -/
def collectiveData (p : FjPkt) (s : State) : State :=
  let s := takeRx s p
  let c := cdataOf p
  let x := p.hdr.ctx
  if decide (p.hdr.cls ≠ 1) || decide (p.hdr.ty ≠ 1) then s
  else if let some e := pktRefusal s p then refuse s p e
  else if (collGroup s x c.group).isNone || !cdataOk s x c then sendNack s p 6
  else
    let red := c.op = 1 || c.op = 2 || c.op = 6
    let here := (List.range c.n).all (fun i => reducesHere s x c.op c.group (c.first + i))
    if c.fails then (if notYet s x c then refuseForNow s p 4 else takePart x c s)
    else if red && here then
      if !notYet s x c && (findColl s x c.op c.group c.inst).isNone then s
      else if (match findColl s x c.op c.group c.inst with
          | some k => c.op = 6 && (c.rows ≠ kRows k.desc || c.cols ≠ kCols k.desc)
          | none => false) then
        match findColl s x c.op c.group c.inst with | some k => failAll k s | none => s
      else if redRoom s x c then offerAll (redTake x c s) else refuseForNow s p 4
    else if red && decide (c.op ≠ 2) then sendNack s p 6
    else if c.op = 2 && c.fmt < 13 then sendNack s p 6
    else if notYet s x c then refuseForNow s p 4
    else if c.op = 2 then takeResults c x s
    else takePart x c s

/-- A message of a collective has been acknowledged, or has failed. -/
def collMsgEnded (x op g n st : Nat) (s : State) : State :=
  match findColl s x op g n with
  | none => s
  | some k =>
    if st ≠ stOk then endColl k st s
    else
      let s := modColl x op g n (fun k => { k with unacked := k.unacked - 1 }) s
      let s := match k.queue with | some (q, m) => progressCmd q m 1 s | none => s
      if op = 1 || op = 2 || op = 6 then checkRed x op g n s else s

/-- A device of their groups is lost: the collectives complete PEER_LOST (R293, R295). -/
def collsLoss (dev : Nat) (s : State) : State :=
  (s.colls.filter (fun k => k.members.contains dev)).foldl (fun t k =>
    match findColl t k.x k.op k.group k.num with
    | some c => endColl c stPeerLost t
    | none => t) s

end Sys2Proof.Machine
end

