-- ==== Sys2Proof/Machine/Parity.lean ====
section
/-! DEFINITION. Machine/Parity.lean: the coded state: coding groups, protected strings, generations, the refresh and the rebuilding of
lost strings (R454 to R462). -/
namespace Sys2Proof.Machine

/-! ## Groups and strings (R454 to R457) -/

/-- The coding group of member m of a job: first member, size (R454); none without coding groups. -/
def codeGroup (j : Job) (m : Nat) : Option (Nat × Nat) :=
  let n := j.members.length
  if (parityEntry j).isNone then none
  else
    let g := (n + 7) / 8
    let q := n / g
    let big := n % g
    if m < big * (q + 1) then some (m / (q + 1) * (q + 1), q + 1)
    else some (big * (q + 1) + (m - big * (q + 1)) / q * q, q)

/-- The planes of a slot in the order of the string: address and length (R455). -/
def slotPlanes (j : Job) (i : Nat) (e : SlotEnt) : List (Nat × Nat) :=
  let q := slotCount j i
  [(e.hi, 4 * q), (e.lo, q), (e.m1, 4 * q)] ++ (if e.m2 = 0 then [] else [(e.m2, 4 * q)])
    ++ [(e.expP, slotBlocks j i), (e.streakP, slotBlocks j i)]

/-- The planes of a member's string with their offsets: slot, address, offset, length. -/
def stringPlanes (j : Job) (m : Nat) : List (Nat × Nat × Nat × Nat) :=
  ((slotsOf j m).flatMap (fun e => (slotPlanes j e.1 e.2).map (fun p => (e.1, p)))).foldl
    (fun acc p => acc ++ [(p.1, p.2.1, (match acc.getLast? with | some l => l.2.2.1 + l.2.2.2 | none => 0), p.2.2)]) []

/-- Bytes of a member's string without the header. -/
def planesLen (j : Job) (m : Nat) : Nat := match (stringPlanes j m).getLast? with | some l => l.2.2.1 + l.2.2.2 | none => 0

/-- Bytes of a member's string. -/
def stringLen (j : Job) (m : Nat) : Nat := planesLen j m + 64

/-- L of a coding group: the longest string, rounded up to a multiple of D × 16 MiB (R455). -/
def codeLen (j : Job) (g : Nat × Nat) : Nat :=
  alignUp (((List.range g.2).map (fun i => stringLen j (g.1 + i))).foldl max 0) ((g.2 - 2) * 0x1000000)

/-- The base of the parity area of context x; none when its region is not there (R457). -/
def parityBase (s : State) (x : Nat) : Option Nat :=
  let r := (s.ctx x).regions.get {} (s.plate.parityReg.getD x 255)
  if r.valid then some r.base else none

/-- The base of generation g in a parity area. -/
def genBase (base g len d : Nat) : Nat := base + 0x8000 + 0x18000000 + g * (len + 2 * (len / d))

/-- The staging place of a piece: the parity holder's rotation (0 for P0, 1 for P1), row and piece (R457). -/
def stageAt (base which row k : Nat) : Nat := base + 0x8000 + ((which * 2 + row % 2) * 6 + k) * 0x1000000

/-- Bytes of a chunk row's piece. -/
def rowSize : Nat := 0x1000000

/-- Everything of the coded state that a member needs: group, position, L, D, base. -/
structure Code where
  first : Nat
  size  : Nat
  pos   : Nat
  len   : Nat
  d     : Nat
  base  : Nat
  deriving DecidableEq, Repr

/-- The coded state of this device in context x; none without coding groups or without a parity area. -/
def codeOf (s : State) (x : Nat) : Option Code :=
  let j := jobOf s x
  let m := myMember s x
  match codeGroup j m, parityBase s x with
  | some g, some b => some { first := g.1, size := g.2, pos := m - g.1, len := codeLen j g, d := g.2 - 2, base := b }
  | _, _ => none

/-- Chunk rows of a piece. -/
def Code.rows (c : Code) : Nat := c.len / c.d / rowSize

/-- Which of its two rotations a parity holder forms: 0 for P0 of its own position, 1 for P1 of the position before (R456). -/
def Code.which (c : Code) (rot : Nat) : Option Nat :=
  if rot = c.pos then some 0 else if rot = (c.pos + c.size - 1) % c.size then some 1 else none

/-- The piece that a position holds of a rotation (R456). -/
def pieceOf (size rot pos : Nat) : Nat := (pos + 2 * size - rot - 2) % size

/-- Writes the header of a generation (R457). Its layout is the model's: step, state, G, position, L, the slots (log entry 33). -/
def putGenHdr (x g : Nat) (c : Code) (s : State) : State :=
  let k := ((s.ctx x).gens[g]?).getD {}
  let b := le 8 k.step ++ le 1 k.st ++ le 1 c.size ++ le 1 c.pos ++ zeros 5 ++ le 8 c.len ++ le 4 (mySlots s x).length
    ++ (mySlots s x).flatMap (fun e => le 2 e.1)
  (writeMem s (c.base + 0x4000 * g) (b ++ zeros (0x4000 - b.length))).1

/-- Applies `f` to generation g and writes its header. -/
def modGen (x g : Nat) (c : Code) (f : Gen → Gen) (s : State) : State :=
  putGenHdr x g c (s.modCtx x (fun k => { k with gens := modAt k.gens g f }))

/-- The newest COMPLETE generation. -/
def newestGen (gs : List Gen) : Option Nat :=
  match gs with
  | [a, b] =>
    if a.st = 2 ∧ b.st = 2 then some (if a.step < b.step then 1 else 0)
    else if a.st = 2 then some 0 else if b.st = 2 then some 1 else none
  | _ => none

/-- The generation that a refresh builds. -/
def nextGen (gs : List Gen) : Nat := match newestGen gs with | some 0 => 1 | _ => 0

/-- The generation that is being built. -/
def buildingGen (gs : List Gen) : Option Nat :=
  (List.range gs.length).find? (fun i => match gs[i]? with | some g => g.st = 1 | none => false)

/-- Copies this device's string into a snapshot (R455, R458); false where a plane cannot be read whole. -/
def takeSnapshot (x a : Nat) (c : Code) (s : State) : State × Bool :=
  let j := jobOf s x
  let ps := stringPlanes j (myMember s x)
  let ok := ps.all (fun p => !unreadable s p.2.1 p.2.2.2)
  let s := zeroRange a c.len s
  let s := ps.foldl (fun t p => { t with mem := memCopy t.mem p.2.1 (a + p.2.2.1) p.2.2.2 }) s
  (poke s (a + planesLen j (myMember s x)) (hdr64 (s.sl x).hdr), ok)

/-! ## The refresh (R458, R459) -/

/-- A generation whose snapshot and both parity pieces are written is COMPLETE, and what waits for it goes on (R399, R458, R459). -/
def tryComplete (x g : Nat) (c : Code) (s : State) : State :=
  let k := ((s.ctx x).gens[g]?).getD {}
  if k.st = 1 && k.snap && decide (k.rows.length = 2 * c.rows) then
    let s := modGen x g c (fun k => { k with st := 2 }) s
    let s := s.modSl x (fun l => { l with refreshed := true, parityStep := k.step })
    tryUpdate x (trySendVote x s)
  else s

/-- Forms the parity of a chunk row: one PARITY job over its D pieces (R458). -/
def parityRow (x g which rot row : Nat) (c : Code) (s : State) : State :=
  let n := rowSize
  let at_ := fun k => stageAt c.base which row k
  let bs := (List.range c.d).foldl (fun acc k =>
    List.zipWith (fun a b => a ^^^ BitVec.ofNat 8 (gfMul (if which = 0 then 1 else 2 ^ k) b.toNat)) acc (peek s (at_ k) n)) (zeros n)
  let dst := genBase c.base g c.len c.d + c.len + which * (c.len / c.d) + row * n
  let s := (writeMem s dst bs).1
  let s := s.modCtx x (fun k => { k with parIn := k.parIn.filter (fun p => !(p.1 = rot && p.2.1 = row)) })
  modGen x g c (fun k => { k with rows := (rot, row) :: k.rows }) s

/-- Runs the PARITY jobs of the chunk rows whose pieces are all here, in ascending row of each rotation. -/
def parityRows (x : Nat) (s : State) : State :=
  match codeOf s x, buildingGen (s.ctx x).gens with
  | some c, some g =>
    let rots := [(0, c.pos), (1, (c.pos + c.size - 1) % c.size)]
    let s := rots.foldl (fun t w => (List.range c.rows).foldl (fun u row =>
      if (List.range c.d).all (fun k => (u.ctx x).parIn.contains (w.2, row, k)) && !(((u.ctx x).gens[g]?).getD {}).rows.contains (w.2, row) then
        parityRow x g w.1 w.2 row c u else u) t) s
    tryComplete x g c s
  | _, _ => s

/-- Sends the piece of a rotation from a snapshot to the rotation's two parity holders, chunk by chunk (R458). -/
def sendPiece (x rot snap : Nat) (c : Code) (s : State) : State :=
  let j := jobOf s x
  let k := pieceOf c.size rot c.pos
  if k ≥ c.d then s
  else (List.range c.rows).foldl (fun t row =>
    [(0, rot), (1, (rot + 1) % c.size)].foldl (fun u h =>
      let dev := (j.members[c.first + h.2]?).getD 0
      sendWrite u (some x) 3 dev (stageAt c.base h.1 row k) (peek u (snap + k * (c.len / c.d) + row * rowSize) rowSize) (.parity x)) t) s

/-- A refresh of step t builds the other generation (R458). The parity area is taken to stand at the same address on every member
(log entry 33). -/
def startRefresh (x t : Nat) (s : State) : State :=
  match codeOf s x with
  | none => s
  | some c =>
    let g := nextGen (s.ctx x).gens
    let s := modGen x g c (fun _ => { step := t, st := 1 }) s
    let snap := genBase c.base g c.len c.d
    let r := takeSnapshot x snap c s
    let s := modGen x g c (fun k => { k with snap := r.2 }) r.1
    let s := s.modSl x (fun l => { l with refreshed := false })
    parityRows x ((List.range c.size).foldl (fun u rot => sendPiece x rot snap c u) s)

/-- The staging place that an address names: context, which rotation, row parity and piece. -/
def stagePlace (s : State) (x a : Nat) : Option (Nat × Nat × Nat) :=
  match codeOf s x with
  | none => none
  | some c =>
    let o := a - (c.base + 0x8000)
    if a < c.base + 0x8000 || decide (o ≥ 24 * rowSize) then none
    else
      let i := o / rowSize
      some (i / 12, i / 6 % 2, i % 6)

/-- The chunk row that the next message to a staging place carries: the lowest one of that parity not formed and not yet there. -/
def stageRow (s : State) (x : Nat) (p : Nat × Nat × Nat) : Option (Nat × Nat) :=
  match codeOf s x with
  | none => none
  | some c =>
    let rot := if p.1 = 0 then c.pos else (c.pos + c.size - 1) % c.size
    let done := fun (row : Nat) => match buildingGen (s.ctx x).gens with
      | some g => (((s.ctx x).gens[g]?).getD {}).rows.contains (rot, row)
      | none => false
    ((List.range c.rows).find? (fun row => row % 2 = p.2.1 && !done row)).map (fun row => (rot, row))

/-- A piece may be staged: its place does not still hold the row before it (R458). -/
def stageFree (s : State) (x : Nat) (p : Nat × Nat × Nat) : Bool :=
  match stageRow s x p with
  | some (rot, row) => !(s.ctx x).parIn.contains (rot, row, p.2.2)
  | none => false

/-- A whole piece of a chunk row has arrived in the staging. -/
def pieceArrived (x : Nat) (p : Nat × Nat × Nat) (s : State) : State :=
  match stageRow s x p with
  | some (rot, row) => parityRows x (s.modCtx x (fun k => { k with parIn := (rot, row, p.2.2) :: k.parIn }))
  | none => s

/-! ## Rebuilding a lost string (R460, R461) -/

/-- The newest step that every survivor of every group holds COMPLETE, with every group short of at most two members (R460). -/
def recoverStep (j : Job) (es : List RecoverEnt) : Option Nat :=
  let groups := ((List.range j.members.length).filterMap (fun m => codeGroup j m)).eraseDups
  let ents := fun (g : Nat × Nat) => (List.range g.2).filterMap (fun i => es.find? (fun e => some e.dev = j.members[g.1 + i]?))
  let steps := es.flatMap (fun e => (e.gens.filter (fun g => g.2 = 2)).map (·.1))
  let ok := fun (p : Nat) => groups.all (fun g => decide (g.2 ≤ (ents g).length + 2) && (ents g).all (fun e => e.gens.any (fun k => k.1 = p && k.2 = 2)))
  if groups.isEmpty then none else (steps.filter ok).foldl (fun m p => some (match m with | some q => max p q | none => p)) none

/-- The coefficients of the surviving pieces that give data piece `want` of a rotation of length D + 2 (R461): data pieces by index,
then D for P0 and D + 1 for P1. `miss` lists the missing ones of them all. -/
def rebuildCoef (d want : Nat) (miss : List Nat) : List (Nat × Nat) :=
  let pw := fun (n : Nat) => gfMul 1 (2 ^ n)
  let rest := (List.range d).filter (fun i => !miss.contains i)
  match (miss.filter (fun i => decide (i < d) && decide (i ≠ want))) with
  | b :: _ =>
    let c := gfInv (pw want ^^^ pw b)
    rest.map (fun i => (i, gfMul c (pw i ^^^ pw b))) ++ [(d, gfMul c (pw b)), (d + 1, c)]
  | [] =>
    if miss.contains d then
      let c := gfInv (pw want)
      rest.map (fun i => (i, gfMul c (pw i))) ++ [(d + 1, c)]
    else rest.map (fun i => (i, 1)) ++ [(d, 1)]

/-- The position in a group that holds piece i of a rotation (R456). -/
def holderPos (size rot i : Nat) : Nat :=
  let d := size - 2
  if i = d then rot else if i = d + 1 then (rot + 1) % size else (rot + 2 + i) % size

end Sys2Proof.Machine
end

