-- ==== Sys2Proof/Machine/Molt.lean ====
section
/-! DEFINITION. Machine/Molt.lean: the slot map, molts and recoveries: holding, transfer, verification, parity, switch, agreements and
failures (R327 to R329, R340 to R347, R463 to R465). -/
namespace Sys2Proof.Machine

/-! ## The default slot map (R329) -/

/-- The holders that a carapace gives a member, ascending. -/
def planeHolders (j : Job) (m : Nat) : List (Nat × Nat) :=
  sortBy (fun a b => decide (a.1 < b.1)) ((j.slotPlanes.filter (fun p => p.1 = m)).map (·.2))

/-- One slot packed from an address on: its entry, and the address after it. Each plane starts at a 4 KiB boundary. -/
def packSlot (j : Job) (m h i a : Nat) : SlotEnt × Nat :=
  let q := slotCount j i
  let hi := alignUp a 4096
  let lo := alignUp (hi + 4 * q) 4096
  let m1 := alignUp (lo + q) 4096
  let m2 := alignUp (m1 + 4 * q) 4096
  let ex := if j.nMoments = 2 then alignUp (m2 + 4 * q) 4096 else m2
  let st := alignUp (ex + slotBlocks j i) 4096
  let gr := alignUp (st + slotBlocks j i) 4096
  ({ member := m, holder := h, hi := hi, lo := lo, m1 := m1, m2 := if j.nMoments = 2 then m2 else 0, expP := ex, streakP := st, grad := gr },
   gr + 32 * slotBlocks j i * sumWidth j + (slotBlocks j i + 1) / 2)

/-- The slots of one member dealt in turn over its holders and packed; slots that hold no parameters have zero addresses. -/
def packMember (j : Job) (m : Nat) (slots : List Nat) : List (Nat × SlotEnt) :=
  let hs := planeHolders j m
  let step := fun (acc : List (Nat × SlotEnt) × List (Nat × Nat)) (e : Nat × Nat) =>
    let h := (hs[e.2 % max 1 hs.length]?).getD (8, 0)
    if slotCount j e.1 = 0 then (acc.1 ++ [(e.1, { member := m, holder := h.1 })], acc.2)
    else
      let a := (getKey acc.2 h.1).getD h.2
      let r := packSlot j m h.1 e.1 a
      (acc.1 ++ [(e.1, r.1)], putKey acc.2 h.1 r.2)
  (slots.zipIdx.foldl step ([], [])).1

/-- The entries of a default map, given the member of every slot. -/
def packSlots (j : Job) (member : Nat → Nat) : List SlotEnt :=
  let n := j.members.length
  let all := (List.range n).flatMap (fun m => packMember j m ((List.range 4096).filter (fun i => member i = m)))
  (sortBy (fun (a b : Nat × SlotEnt) => decide (a.1 < b.1)) all).map (·.2)

/-- Slot to member at job creation. -/
def createMember (n i : Nat) : Nat := i * n / 4096

/-- Slot to member at a molt: members that stay keep their lowest slots up to their target; the surplus and the slots of leaving members
fill the members below target in ascending order. -/
def moltMembers (old new : Job) : List Nat :=
  let n := new.members.length
  let target := fun (m : Nat) => 4096 / n + (if m < 4096 % n then 1 else 0)
  let was := old.slots.map (fun e => (old.members[e.member]?).bind (memberOf new))
  let kept := was.zipIdx.map (fun e => match e.1 with
    | some m => if decide (((was.take e.2).filter (fun w => w = some m)).length < target m) then some m else none
    | none => none)
  let room := (List.range n).flatMap (fun m => List.replicate (target m - (kept.filter (fun w => w = some m)).length) m)
  (kept.foldl (fun (acc : List Nat × List Nat) k => match k with
    | some m => (acc.1 ++ [m], acc.2)
    | none => (acc.1 ++ [acc.2.headD 0], acc.2.tail)) ([], room)).1

/-- The share map by default (R326). -/
def defaultShares (j : Job) : List Nat := (List.range j.nShares).map (fun i => i * j.gridR / j.nShares)

/-! ## Announcing and holding (R340 to R342) -/

/-- Applies `f` to the molt of context x. -/
def modMolt (x : Nat) (f : Molt → Molt) (s : State) : State := s.modCtx x (fun c => { c with molt := f c.molt })

/-- Phase codes of FW_MOLT_STAT (R346). -/
def moltCode : MoltPh → Nat
  | .none => 0
  | .announce => 1
  | .hold => 2
  | .transfer => 3
  | .verify => 4
  | .parity => 5
  | .switch => 6

/-- The molt enters a phase: nothing of it is begun or agreed, and an event says so. -/
def moltPhase (x : Nat) (ph : MoltPh) (s : State) : State :=
  let s := modMolt x (fun m => { m with phase := ph, begun := false, agreed := false, agree := none }) s
  ffEvent 0x0113 1 18 (myMember s x) (some x) (le 1 (moltCode ph) ++ le 1 (s.ctx x).molt.status) s

/-- A molt or recovery of the context is under way (R344). -/
def moltOn (c : Ctx) : Bool := decide (c.molt.phase ≠ .none)

/-- The devices of the old and the new carapace in ascending order (R342). -/
def moltGroup (old : Option Job) (new : Job) : List Nat :=
  sortBy (fun a b => decide (a < b)) (((match old with | some j => j.members | none => []) ++ new.members).eraseDups)

/-- A member that stands at its boundary holds (R341): idle, its records written, the step before s_min done, or a step abandoned on the way. -/
def tryHold (x : Nat) (s : State) : State :=
  let c := s.ctx x
  if c.molt.phase ≠ .announce || c.sl.phase ≠ .idle || !c.sl.pend.isEmpty then s
  else if c.molt.fresh || decide (c.molt.sMin ≤ c.sl.hdr.step + 1) || c.sl.dead.contains (c.sl.epoch, c.sl.hdr.step + 1) || c.sl.cur = some .abandoned then
    moltPhase x .hold (s.modCtx x (fun c => { c with st := .molting }))
  else s

/-- A verified amendment starts its molt: what the member does where it stands (R341). -/
def announceMolt (x : Nat) (m : Molt) (s : State) : State :=
  let s := moltPhase x .announce (s.modCtx x (fun c => { c with molt := m }))
  let sl := s.sl x
  if sl.isOpen && decide (m.sMin ≤ sl.step) && !sl.ownVote && decide (sl.phase ≠ .update) && decide (sl.phase ≠ .ledger) then
    let s := endBound x sl.epoch sl.step stConflict s
    match sl.phase with
    | .commit => trySendVote x (s.modSl x (fun l => { l with failSt := some stConflict }))
    | _ => failStep x stConflict s
  else tryHold x s

/-- The device clears LOST for the members of the new epoch (R295, R342). -/
def clearLost (j : Job) (s : State) : State :=
  j.members.foldl (fun t d => if (t.peer d).st = .lost then t.modPeer d (fun p => { p with st := .unknown, readmit := none }) else t) s

/-- The entry that a survivor adds to the RECOVER gather (R464): its 32 bytes are laid out by the model (log entry 34). -/
def recoverEntry (s : State) (x : Nat) : Bytes :=
  let c := s.ctx x
  let g := fun (i : Nat) => (c.gens[i]?).getD {}
  le 2 (myMember s x) ++ le 1 (g 0).st ++ le 1 (g 1).st ++ zeros 4 ++ le 8 c.sl.hdr.step ++ le 8 (g 0).step ++ le 8 (g 1).step

/-- The member adopts the new epoch and carapace; what is left of a step of the old epoch ends with it (R341, R342). -/
def adoptEpoch (x : Nat) (j : Job) (s : State) : State :=
  s.modCtx x (fun k => { k with
    job := some j, left := none, instNo := [], parIn := [],
    sl := { k.sl with epoch := j.epoch, votes := k.sl.votes.filter (fun v => v.epoch ≥ j.epoch), cur := none, uniform := true, refreshed := true } })

/-- MOLT_HOLD: tiles, jobs and collectives are done: the member closes the job's flows, adopts the new epoch and carapace, and its context is
LOADING (R342). In the context of a device new to the job no record has been written, and its first one is that of an epoch that changed
(R256, R345). -/
def moltHold (x : Nat) (s : State) : State :=
  let c := s.ctx x
  match c.molt.phase, c.molt.job with
  | .hold, some j =>
    if workRuns s x || decide (c.started ≠ 0) || s.colls.any (fun k => k.x = x) then s
    else
      let seed := takeBytes 32 s
      let s := if c.molt.fresh then
          seed.2.modCtx x (fun k => { k with
            jobTag := j.jobTag, jobSeed := (c.molt.desc.map (·.1)).getD (BitVec.ofNat 256 (ofLe seed.1)), ledger := (c.molt.desc.map (·.2)).getD 0, sems := [], semQ := [], semOvf := false, started := 0, admits := true })
        else s
      let entry := recoverEntry s x
      let s := { s with red := s.red.filter (fun r => r.x ≠ x), routes := s.routes.filter (fun r => r.x ≠ x),
                        rxq := s.rxq.filter (fun p => !(p.hdr.ctx = x && decide (p.hdr.jobTag = j.jobTag) && decide (p.hdr.epoch < j.epoch))) }
      let s := (adoptEpoch x j (closeJobFlows c.molt.group s)).modCtx x (fun k => { k with
        st := .loading, sl := if c.molt.fresh then { k.sl with hdr := hdrStart j j.jobTag, lastRecEpoch := some (j.epoch - 1) } else k.sl })
      let s := moltPhase x .transfer (clearLost j s)
      if c.molt.recover && !c.molt.checkpoint then
        let r := hubColl x 3 1023 0 32 s
        giveRows r.2 [entry] r.1
      else s
  | _, _ => s

/-! ## Transfer (R342, R343) -/

/-- The device of a slot in a carapace. -/
def slotDev (j : Job) (e : SlotEnt) : Nat := (j.members[e.member]?).getD 0xFFFF

/-- The planes of a slot in the old and the new map, pairwise: old address, new address, bytes. -/
def planePairs (j : Job) (i : Nat) (a b : SlotEnt) : List (Nat × Nat × Nat) :=
  (List.zipWith (fun p q => (p.1, q.1, p.2)) (slotPlanes j i a) (slotPlanes j i b)).filter (fun p => decide (p.2.2 ≠ 0))

/-- The bytes of a plane that a molt sends: the plane itself, or where it cannot be read the snapshot of a current generation (R343). -/
def planeBytes (s : State) (x : Nat) (a n : Nat) : Option Bytes :=
  match readMem s a n with
  | some b => some b
  | none =>
    let c := s.ctx x
    match c.molt.old, newestGen c.gens, parityBase s x with
    | some j, some g, some base =>
      let m := (memberOf j s.plate.devIndex).getD 0
      (match codeGroup j m, (stringPlanes j m).find? (fun p => p.2.1 = a) with
       | some k, some p =>
         if ((c.gens[g]?).getD {}).step = c.sl.hdr.step then readMem s (genBase base g (codeLen j k) (k.2 - 2) + p.2.2.1) n else none
       | _, _ => none)
    | _, _, _ => none

/-- Moves one slot of the old map to the new one, as far as this member sends, receives or copies it (R342). `from_` is the device that has
its state now, and `src` the state before anything moved, so that a new place never covers what is still to be moved. A slot that cannot be
read is noted. -/
def moveSlot (src : State) (x i from_ : Nat) (j : Job) (a b : SlotEnt) (s : State) : State :=
  let me := s.plate.devIndex
  let dst := slotDev j b
  let lacks := modMolt x (fun m => { m with need := if m.need.contains i then m.need else m.need ++ [i] })
  if from_ = me && decide (dst = me) then
    (planePairs j i a b).foldl (fun t p => if p.1 = p.2.1 then t else
      match planeBytes src x p.1 p.2.2 with
      | some d => (writeMem t p.2.1 d).1
      | none => lacks (notePoison t p.1 p.2.2)) s
  else if from_ = me then
    (planePairs j i a b).foldl (fun t p =>
      match planeBytes src x p.1 p.2.2 with
      | some d => sendWrite (modMolt x (fun m => { m with sends := i :: m.sends }) t) (some x) 2 dst p.2.1 d (.molt x i)
      | none => lacks (notePoison t p.1 p.2.2)) s
  else if dst = me then
    modMolt x (fun m => { m with recvs := m.recvs ++ (planePairs j i a b).map (fun p => (i, p.2.1, p.2.2, p.2.2)) }) s
  else s

/-- The slots whose holder or place changes: index, old entry, new entry. -/
def movedSlots (old new : Job) : List (Nat × SlotEnt × SlotEnt) :=
  ((List.zip old.slots new.slots).zipIdx.map (fun e => (e.2, e.1.1, e.1.2))).filter (fun e =>
    decide (slotCount new e.1 ≠ 0) && (decide (slotDev old e.2.1 ≠ slotDev new e.2.2)
      || decide ({ e.2.1 with member := 0, grad := 0 } ≠ ({ e.2.2 with member := 0, grad := 0 } : SlotEnt))))

/-- The lowest-indexed old member that stays, as a device (R342). -/
def stayer (old new : Job) : Option Nat := old.members.find? (fun d => new.members.contains d)

/-- Broadcasts bytes from the lowest-indexed old member that stays to the molt group; every member takes part. -/
def moltCast (x cols : Nat) (data : State → Option Bytes) (s : State) : State :=
  let c := s.ctx x
  match c.molt.old, c.job with
  | some old, some new =>
    match stayer old new with
    | none => s
    | some d =>
      let r := hubColl x 4 1023 ((memberOf new d).getD 0) cols s
      if d ≠ s.plate.devIndex then r.1
      else match data s with
        | some b => giveRows r.2 [b] r.1
        | none => giveRows r.2 [zeros cols] (modMolt x (fun m => { m with flag := true, why := stDigest }) r.1)
  | _, _ => s

/-- The scale-ledger header goes to the devices new to the job (R342). -/
def castHdr (x : Nat) (s : State) : State :=
  let c := s.ctx x
  match c.molt.old, c.job with
  | some old, some new =>
    if new.members.all (fun d => old.members.contains d) then s
    else moltCast x 64 (fun t => some (hdr64 (t.sl x).hdr)) (modMolt x (fun m => { m with needHdr := c.molt.fresh }) s)
  | _, _ => s

/-- This member's part of an agreement: one u64 of 1, and its failure flag (R342). -/
def startAgree (x : Nat) (s : State) : State :=
  let m := (s.ctx x).molt
  let s := modMolt x (fun m => { m with agreed := true }) s
  let r := hubColl x 7 1023 0 2 s
  giveRows r.2 [le 8 1 ++ le 8 (b2n m.flag)] r.1

/-! ## Verification (R259 to R261, R342, R464) -/

/-- SHA-512 of the planes of a slot as DIGEST takes them (R219, R259): masters as 5-byte elements, the moments, the planes of the scale
ledger; none where a byte cannot be read. -/
def slotDigests (s : State) (j : Job) (i : Nat) (e : SlotEnt) : Option Bytes :=
  let q := slotCount j i
  match readMem s e.hi (4 * q), readMem s e.lo q, readMem s e.m1 (4 * q), (if e.m2 = 0 then some [] else readMem s e.m2 (4 * q)),
      readMem s e.expP (slotBlocks j i), readMem s e.streakP (slotBlocks j i) with
  | some hi, some lo, some m1, some m2, some ex, some st =>
    some (sha512 ((List.range q).flatMap (fun k => slice lo k 1 ++ slice hi (4 * k) 4)) ++ sha512 (m1 ++ m2) ++ sha512 (ex ++ st))
  | _, _, _, _, _, _ => none

/-- The digests of this device's slots, those apart that a holder may not form (R246). A slot without parameters has those of the empty string
(R259), and its holder sends them like any other (R260). -/
def ownDigests (s : State) (x : Nat) : List (Nat × Bytes) :=
  let j := jobOf s x
  (allSlots j (myMember s x)).filterMap (fun e => if (s.sl x).badSlots.contains e.1 then none else (slotDigests s j e.1 e.2).map (fun d => (e.1, d)))

/-- The three global digests of a set of slot digests (R261): fingerprint, scale_digest, opt_digest. -/
def globalDigests (ds : List (Nat × Bytes × Bytes × Bytes)) (h : ScaleHdr) : Bytes × Bytes × Bytes :=
  let none_ := sha512 []
  let at_ := fun (f : Nat × Bytes × Bytes × Bytes → Bytes) (i : Nat) => match ds.find? (fun d => d.1 = i) with | some d => f d | none => none_
  let cat := fun (f : Nat × Bytes × Bytes × Bytes → Bytes) => (List.range 4096).flatMap (at_ f)
  (sha512 (cat (·.2.1)), sha512 (cat (·.2.2.2) ++ hdr64 h), sha512 (cat (·.2.2.1)))

/-- The record of a step in the ledger ring: the newest one of that step that was not abandoned (R252, R255). -/
def findRecord (s : State) (x step : Nat) : Option Bytes :=
  let base := (s.ctx x).ledger
  match readFor s x base 0x20 with
  | .error _ => none
  | .ok c =>
    let prod := leAt c 0 8
    let cap := leAt c 16 4
    let slot := leAt c 20 4
    (List.range (min prod cap)).findSome? (fun i =>
      match readFor s x (base + 0x8000 + ((prod - 1 - i) % cap) * slot) slot with
      | .ok b => if leAt b 0 4 = 0x524C4659 && leAt b 16 8 = step && leAt b 39 1 ≠ 2 then some b else none
      | .error _ => none)

/-- VERIFY begins: the digests are formed and exchanged, and the record of header.step is broadcast (R342). A member that leaves only agrees. -/
def startVerify (x : Nat) (s : State) : State :=
  let mine := (memberOf (jobOf s x) s.plate.devIndex).isSome
  let s := modMolt x (fun m => { m with begun := true, needRec := true, needDig := mine }) s
  let s := if mine then startDigests x (ownDigests s x) s else s
  moltCast x 1024 (fun t => (findRecord t x (t.sl x).hdr.step).map (·.take 1024)) s

/-- The member's digests differ from those of the record. -/
def verifyFails (s : State) (x : Nat) : Bool :=
  let m := (s.ctx x).molt
  if !(memberOf (jobOf s x) s.plate.devIndex).isSome then false
  else
    let g := globalDigests (s.sl x).digests (s.sl x).hdr
    decide (slice m.ref 48 64 ≠ g.1) || decide (slice m.ref 112 64 ≠ g.2.1) || decide (slice m.ref 176 64 ≠ g.2.2)

/-- PARITY begins: the coding groups are formed anew and refreshed in full at header.step; without coding groups there is no work (R342, R454). -/
def startParity (x : Nat) (s : State) : State :=
  let s := modMolt x (fun m => { m with begun := true }) (s.modCtx x (fun c => { c with gens := [{}, {}], parIn := [] }))
  startRefresh x (s.sl x).hdr.step s

/-- The phase's work is done on this member: it contributes to the agreement. -/
def checkMolt (x : Nat) (s : State) : State :=
  let m := (s.ctx x).molt
  if !m.begun || m.agreed then s
  else match m.phase with
    | .transfer => if m.sends.isEmpty && m.recvs.isEmpty && !m.needHdr && m.rebuild.isEmpty then startAgree x s else s
    | .verify =>
      if m.needRec || m.needDig then s
      else startAgree x (if verifyFails s x then modMolt x (fun m => { m with flag := true, why := stDigest }) s else s)
    | .parity => if (s.sl x).refreshed then startAgree x s else s
    | .none => s
    | .announce => s
    | .hold => s
    | .switch => s

/-! ## Recovery (R460, R461, R464) -/

/-- The coded state of the old carapace, as this device sees it for a lost member's group. -/
def oldCode (s : State) (x lost : Nat) : Option (Job × Code) :=
  let c := s.ctx x
  match c.molt.old, parityBase s x with
  | some j, some b => (codeGroup j lost).map (fun g => (j, { first := g.1, size := g.2, pos := lost - g.1, len := codeLen j g, d := g.2 - 2, base := b }))
  | _, _ => none

/-- The generation in which a survivor holds step p. -/
def genOf (m : Molt) (dev : Nat) : Nat :=
  match m.entries.find? (fun e => e.dev = dev) with
  | some e => (List.range e.gens.length).find? (fun i => match e.gens[i]? with | some g => decide (some g.1 = m.p) && decide (g.2 = 2) | none => false) |>.getD 0
  | none => 0

/-- Where the pieces for a rebuilt chunk row stand: piece, coefficient, device, address. -/
def rebuildSrcs (j : Job) (c : Code) (m : Molt) (r : Rebuild) : List (Nat × Nat × Nat × Nat) :=
  let dev := fun (i : Nat) => (j.members[c.first + holderPos c.size r.rot i]?).getD 0xFFFF
  let miss := (List.range c.size).filter (fun i => !m.entries.any (fun e => e.dev = dev i))
  (rebuildCoef c.d (pieceOf c.size r.rot c.pos) miss).map (fun k =>
    let g := genBase c.base (genOf m (dev k.1)) c.len c.d
    let q := c.len / c.d
    let a := if k.1 < c.d then g + k.1 * q else if k.1 = c.d then g + c.len else g + c.len + q
    (k.1, k.2, dev k.1, a + r.row * rowSize))

/-- The rebuilt chunk's bytes go to the planes of the lost member's slots at their new holders (R461, R464); outside a recovery, to the places
of the slots that this member could not read (R226, R343). -/
def placeChunk (x off : Nat) (bs : Bytes) (lost : Nat) (s : State) : State :=
  let c := s.ctx x
  match c.molt.old, c.job with
  | some old, some new =>
    (stringPlanes old lost).foldl (fun t p =>
      let lo := max off p.2.2.1
      let hi := min (off + bs.length) (p.2.2.1 + p.2.2.2)
      if decide (hi ≤ lo) || (!c.molt.recover && !c.molt.need.contains p.1) then t
      else
        match old.slots[p.1]?, new.slots[p.1]? with
        | some a, some b =>
          match (planePairs new p.1 a b).find? (fun q => q.1 = p.2.1) with
          | none => t
          | some q =>
            let d := (bs.drop (lo - off)).take (hi - lo)
            let at_ := q.2.1 + (lo - p.2.2.1)
            if slotDev new b = t.plate.devIndex then (writeMem t at_ d).1
            else sendWrite (modMolt x (fun m => { m with sends := p.1 :: m.sends }) t) (some x) 2 (slotDev new b) at_ d (.molt x p.1)
        | _, _ => t) s
  | _, _ => s

/-- The rebuilding of what this member could not read has ended: the loads and restorations that wait for it have their bytes, and ask their
sources only when those are not what their manifests say (R226, R230); a molt goes on (R343). -/
def rebuilt (x : Nat) (s : State) : State :=
  if (s.ctx x).molt.need.isEmpty || decide ((s.ctx x).molt.phase ≠ .none) then checkMolt x s
  else
    let s := modMolt x (fun m => { m with need := [], entries := [], p := none, old := none }) s
    s.holders.foldl (fun t e =>
      let t := match e.2.load with
        | some v => if v.heal && decide (v.job.ctx = x) then healed e.1 v (modLoad e.1 (fun w => { w with heal := false }) t) else t
        | none => t
      (e.2.restores.filter (fun r => r.heal && decide (r.chunk.ctx = x))).foldl (fun u r =>
        let u := modRestore e.1 r.chunk.addr (fun q => { q with heal := false }) u
        if crcIs u r.chunk.addr r.chunk.len r.chunk.crc then restored e.1 r.chunk.addr x u else askRestore 8 e.1 r.chunk.addr u) t) s
where
  /-- A load whose bytes have been rebuilt. -/
  healed (h : Nat) (v : ShardLoad) (s : State) : State :=
    if !unreadable s v.base v.len && decide (sha512 (peek s v.base v.len) = v.digest) then
      endJob h v.job { s := registerChunks h v s, st := stOk, written := v.len }
    else pushLoad h s

/-- Asks for the pieces of the first chunk row to rebuild; once all are here the chunk is formed by one PARITY job and placed (R461). -/
def driveRebuild : Nat → Nat → State → State
  | 0, _, s => s
  | n + 1, x, s =>
    let m := (s.ctx x).molt
    match m.rebuild with
    | [] => rebuilt x s
    | r :: rest =>
      match oldCode s x r.lost with
      | none => s
      | some (j, c) =>
        let srcs := rebuildSrcs j c m r
        if srcs.all (fun q => r.got.contains q.1 || decide (q.2.2.1 = s.plate.devIndex)) then
          let bs := srcs.zipIdx.foldl (fun acc e =>
            let a := if e.1.2.2.1 = s.plate.devIndex then e.1.2.2.2 else stageAt c.base 0 0 e.2
            List.zipWith (fun u v => u ^^^ BitVec.ofNat 8 (gfMul e.1.2.1 v.toNat)) acc (peek s a rowSize)) (zeros rowSize)
          let off := pieceOf c.size r.rot c.pos * (c.len / c.d) + r.row * rowSize
          driveRebuild n x (placeChunk x off bs r.lost (modMolt x (fun m => { m with rebuild := rest }) s))
        else
          srcs.zipIdx.foldl (fun t e =>
            if e.1.2.2.1 = t.plate.devIndex || r.got.contains e.1.1 then t
            else sendRead t (some x) 2 e.1.2.2.1 e.1.2.2.2 (stageAt c.base 0 0 e.2) rowSize (.rebuild x)) s

/-- A piece for a rebuild has arrived whole in the staging: the i-th of its row. -/
def rebuildArrived (x i : Nat) (s : State) : State :=
  let m := (s.ctx x).molt
  match m.rebuild with
  | [] => s
  | r :: rest =>
    match oldCode s x r.lost with
    | none => s
    | some (j, c) =>
      match (rebuildSrcs j c m r)[i]? with
      | none => s
      | some q =>
        let s := modMolt x (fun m => { m with rebuild := { r with got := q.1 :: r.got } :: rest }) s
        let srcs := rebuildSrcs j c m r
        if srcs.all (fun k => decide (k.1 = q.1) || r.got.contains k.1 || decide (k.2.2.1 = s.plate.devIndex)) then
          driveRebuild (m.rebuild.length + 1) x s
        else s

/-- The chunk rows of a member's string that hold any plane of some of its slots, to be rebuilt (R461). -/
def rebuildRows (s : State) (x lost : Nat) (only : Option (List Nat)) : List Rebuild :=
  match oldCode s x lost with
  | none => []
  | some (j, k) =>
    (List.range k.d).flatMap (fun piece => ((List.range k.rows).filter (fun row =>
        let o := piece * (k.len / k.d) + row * rowSize
        match only with
        | none => true
        | some l => (stringPlanes j lost).any (fun p => l.contains p.1 && decide (o < p.2.2.1 + p.2.2.2) && decide (p.2.2.1 < o + rowSize)))).map
      (fun row => ({ lost := lost, rot := (k.pos + 2 * k.size - 2 - piece) % k.size, row := row } : Rebuild)))

/-- The coded state of the job is current: its newest COMPLETE generation is that of the header's step. -/
def codeCurrent (s : State) (x : Nat) : Bool :=
  match codeOf s x, newestGen (s.ctx x).gens with
  | some _, some g => decide ((((s.ctx x).gens[g]?).getD {}).step = (s.sl x).hdr.step)
  | _, _ => false

/-- This member's own lost slots are rebuilt from the pieces of its coding group (R226, R343, R461). Every member is taken to hold the
generation under the number it has here, as R458 leaves it (log entry 97). -/
def rebuildOwn (x : Nat) (j : Job) (s : State) : State :=
  let me := s.plate.devIndex
  let step := (s.sl x).hdr.step
  let gens := (s.ctx x).gens.map (fun g => (g.step, g.st))
  let s := modMolt x (fun m => { m with
    old := some j, p := some step, entries := (j.members.filter (fun d => d ≠ me)).map (fun d => { dev := d, step := step, gens := gens }) }) s
  let work := rebuildRows s x ((memberOf j me).getD 0) (some (s.ctx x).molt.need)
  driveRebuild (work.length + 1) x (modMolt x (fun m => { m with rebuild := work }) s)

/-- Slots of this member whose protected state an interval holds (R226). -/
def slotsIn (s : State) (x a n : Nat) : List Nat :=
  ((mySlots s x).filter (fun e => (slotPlanes (jobOf s x) e.1 e.2).any (fun p => decide (p.2 ≠ 0) && decide (p.1 < a + n) && decide (a < p.1 + p.2)))).map (·.1)

/-- An interval holds protected state of a coding group whose parity is current, and nothing else is being rebuilt (R226). -/
def canHeal (s : State) (x a n : Nat) : Bool :=
  decide ((s.ctx x).jobTag ≠ 0) && decide ((s.ctx x).molt.phase = .none) && (s.ctx x).molt.need.isEmpty && codeCurrent s x && !(slotsIn s x a n).isEmpty

/-- Rebuilds an interval from parity. -/
def heal (x a n : Nat) (s : State) : State := rebuildOwn x (jobOf s x) (modMolt x (fun m => { m with need := slotsIn s x a n }) s)

/-- A load begins: from parity where its shard holds protected state and the parity is current, else from its sources (R225, R226). -/
def startLoad (h : Nat) (s : State) : State :=
  match (s.holder h).load with
  | none => s
  | some v => if canHeal s v.job.ctx v.base v.len then heal v.job.ctx v.base v.len (modLoad h (fun w => { w with heal := true }) s) else pushLoad h s

/-- A restoration begins, in the same way (R230). -/
def startRestore (h a : Nat) (s : State) : State :=
  match (s.holder h).restores.find? (fun r => r.chunk.addr = a) with
  | none => s
  | some r =>
    if canHeal s r.chunk.ctx a r.chunk.len then heal r.chunk.ctx a r.chunk.len (modRestore h a (fun q => { q with heal := true }) s)
    else askRestore 8 h a s

/-- What this member could not read of a transfer is rebuilt from parity when the coded state is current; otherwise its failure flag is set (R343). -/
def mendTransfer (x : Nat) (o : Job) (s : State) : State :=
  let c := s.ctx x
  if c.molt.need.isEmpty then s
  else
    let code := match codeOf { s with ctxs := s.ctxs.set x { c with job := some o } } x, newestGen c.gens with
      | some _, some g => decide (((c.gens[g]?).getD {}).step = c.sl.hdr.step)
      | _, _ => false
    if code && !c.molt.recover then rebuildOwn x o s
    else modMolt x (fun m => { m with need := [], flag := true, why := stMem }) s

/-- The working weights of stages that change rank: stage, replica and way of the member that runs it now, and that of each member that ran it
not. The oldest member of the same way that ran the stage sends them (R342; log entry 96). -/
def stageMoves (old new : Job) : List (Nat × Nat × Nat) :=
  let at_ := fun (j : Job) (t m : Nat) => decide (m / j.gridT % j.gridP = t % j.gridP)
  (List.range new.stages.length).flatMap (fun t =>
    (List.range new.members.length).filterMap (fun m =>
      let dev := (new.members[m]?).getD 0xFFFF
      let had := match memberOf old dev with | some k => at_ old t k | none => false
      if !at_ new t m || had then none
      else ((List.range old.members.length).find? (fun k => at_ old t k && decide (k % old.gridT = m % new.gridT))).map (fun k =>
        (t, (old.members[k]?).getD 0xFFFF, dev))))

/-- Sends and awaits the working weights that move; 4,096 + t stands for stage t among the pieces that travel. -/
def moveStages (x : Nat) (old new : Job) (s : State) : State :=
  (stageMoves old new).foldl (fun t e =>
    let a := Config.stageWeights old.jobTag old.epoch e.2.1 e.1
    let b := Config.stageWeights new.jobTag new.epoch e.2.2 e.1
    if e.2.1 = t.plate.devIndex then
      match readMem t a.1 a.2 with
      | some d => sendWrite (modMolt x (fun m => { m with sends := (4096 + e.1) :: m.sends }) t) (some x) 2 e.2.2 b.1 d (.molt x (4096 + e.1))
      | none => modMolt x (fun m => { m with flag := true, why := stMem }) (notePoison t a.1 a.2)
    else if e.2.2 = t.plate.devIndex then modMolt x (fun m => { m with recvs := m.recvs ++ [(4096 + e.1, b.1, a.2, a.2)] }) t
    else t) s

/-- MOLT_TRANSFER: every slot whose holder changes is sent, awaited or copied, and the working weights of stages that change rank (R342). -/
def moltTransfer (x : Nat) (s : State) : State :=
  let c := s.ctx x
  match c.molt.phase, c.molt.old, c.job with
  | .transfer, old, some new =>
    if c.molt.begun || c.molt.recover then s
    else
      let s := modMolt x (fun m => { m with begun := true }) s
      let o := old.getD new
      let s := moveStages x o new ((movedSlots o new).foldl (fun t e => moveSlot s x e.1 (slotDev o e.2.1) new e.2.1 e.2.2 t) s)
      checkMolt x (castHdr x (mendTransfer x o s))
  | _, _, _ => s

/-- The survivor's live planes and header become those of its snapshot of p (R464). -/
def restoreSnapshot (x : Nat) (s : State) : State :=
  let c := s.ctx x
  match c.molt.old with
  | none => s
  | some j =>
    match memberOf j s.plate.devIndex with
    | none => s
    | some me =>
      match oldCode s x me with
      | none => s
      | some (_, k) =>
        let a := genBase k.base (genOf c.molt s.plate.devIndex) k.len k.d
        let s := (stringPlanes j me).foldl (fun t p => (writeMem t p.2.1 (peek t (a + p.2.2.1) p.2.2.2)).1) s
        s.modSl x (fun l => { l with hdr := hdrOf (peek s (a + planesLen j me) 64) })

/-- The molt completes with a status: posted on the control queue, latched in FW_MOLT_STAT (R340, R346). -/
def endMoltWith (x st result : Nat) (s : State) : State :=
  let s := modMolt x (fun m => { m with status := st, result := BitVec.ofNat 2 result }) s
  let s := moltPhase x .none s
  postMolt x st (modMolt x (fun m => { phase := .none, result := m.result, status := m.status, epoch := m.epoch, tStar := m.tStar, recover := m.recover }) s)

/-- RECOVER_RESTORE: the survivors restore generation p, heirs begin to rebuild, and slots move to their new holders (R464). Without a usable
coded state the context is FAULTED (R467). -/
def recoverRestore (x : Nat) (s : State) : State :=
  let c := s.ctx x
  match c.molt.phase, c.molt.old, c.job with
  | .transfer, some old, some new =>
    if !c.molt.recover || c.molt.begun then s
    else if c.molt.checkpoint then
      checkMolt x (modMolt x (fun m => { m with begun := true }) (s.modSl x (fun l => { l with hdr := hdrStart new new.jobTag })))
    else if c.molt.entries.isEmpty then s
    else
      let es := c.molt.entries.filter (fun e => old.members.contains e.dev)
      match recoverStep old es with
      | none => faultCtx x stMem (endMoltWith x stMem 3 s)
      | some p =>
        let t := (es.map (·.step)).foldl max 0
        let s := modMolt x (fun m => { m with begun := true, p := some p, tStar := t, entries := es }) s
        let s := restoreSnapshot x s
        let lostOf := fun (e : SlotEnt) => !es.any (fun k => k.dev = slotDev old e)
        let heirOf := fun (e : SlotEnt) => (getKey c.molt.heirs e.member).getD 0xFFFF
        let s := ((List.zip old.slots new.slots).zipIdx).foldl (fun u e =>
          if slotCount new e.2 = 0 then u
          else if !lostOf e.1.1 then moveSlot s x e.2 (slotDev old e.1.1) new e.1.1 e.1.2 u
          else if slotDev new e.1.2 = u.plate.devIndex && decide (heirOf e.1.1 ≠ u.plate.devIndex) then
            moveSlot s x e.2 (heirOf e.1.1) new e.1.1 e.1.2 u
          else u) s
        let s := mendTransfer x old s
        let mine := (c.molt.heirs.filter (fun h => h.2 = s.plate.devIndex)).map (·.1)
        let work := mine.flatMap (fun l => rebuildRows s x l none)
        let s := modMolt x (fun m => { m with rebuild := work }) s
        driveRebuild (work.length + 1) x (castHdr x s)
  | _, _, _ => s

/-! ## Arrivals and acknowledgements -/

/-- Bytes of a moving plane have arrived whole as one message. -/
def moltArrived (x a n : Nat) (s : State) : State :=
  let hit := fun (r : Nat × Nat × Nat × Nat) => decide (r.2.1 ≤ a) && decide (a < r.2.1 + r.2.2.1)
  if !(s.ctx x).molt.recvs.any hit then s
  else checkMolt x (modMolt x (fun m => { m with recvs :=
    (m.recvs.map (fun r => if hit r then (r.1, r.2.1, r.2.2.1, r.2.2.2 - n) else r)).filter (fun r => decide (r.2.2.2 ≠ 0)) }) s)

/-- A message of a molt has ended: a slot's plane is delivered, or the member's failure flag is set. -/
def moltMsgEnded (x slot st : Nat) (s : State) : State :=
  checkMolt x (modMolt x (fun m => { m with sends := m.sends.erase slot, flag := m.flag || decide (st ≠ stOk),
                                            why := if st ≠ stOk then st else m.why }) s)

/-- A read of a rebuild has failed: the rebuilding stops; in a molt the member's failure flag is set, and a shard is fetched (R226). -/
def rebuildEnded (x st : Nat) (s : State) : State :=
  if st = stOk then s
  else if (s.ctx x).molt.phase = .none then rebuilt x (modMolt x (fun m => { m with rebuild := [] }) s)
  else checkMolt x (modMolt x (fun m => { m with flag := true, why := st, rebuild := [] }) s)

/-! ## Agreements, the switch, failures (R342, R343, R464) -/

/-- Slots that this member still has to send or receive (R346). -/
def slotsPending (m : Molt) : Nat := ((m.sends ++ m.recvs.map (·.1)).filter (fun i => decide (i < 4096))).eraseDups.length

/-- SWITCH: regions that held only planes of slots given up are revoked (R342). -/
def dropRegions (x : Nat) (s : State) : State :=
  let c := s.ctx x
  match c.molt.old, c.job with
  | some old, some new =>
    let planes : Job → List Nat := fun j => match memberOf j s.plate.devIndex with
      | some m => (slotsOf j m).flatMap (fun e => (slotPlanes j e.1 e.2).map (·.1))
      | none => []
    let keep := (planes new).flatMap (fun a => c.regionsAt a 1)
    let gone := ((planes old).flatMap (fun a => c.regionsAt a 1)).eraseDups.filter (fun i => !keep.contains i)
    gone.foldl (fun t i => askChange x { index := i, grant := false, entry := {}, queue := none } t) s
  | _, _ => s

/-- The context of a job that this device leaves is deleted: its regions are revoked and it is EMPTY (R342, R343). -/
def leaveJob (x : Nat) (s : State) : State :=
  let s := { s with red := s.red.filter (fun r => r.x ≠ x), routes := s.routes.filter (fun r => r.x ≠ x),
                    colls := s.colls.filter (fun k => k.x ≠ x) }
  (emptyCtx x s).modCtx x (fun c => { c with job := none, left := c.job })

/-- SWITCH completes: the molt is OK, the context READY, and a leaving device deletes it. -/
def finishSwitch (x : Nat) (s : State) : State :=
  let s := dropRegions x s
  let stays := (memberOf (jobOf s x) s.plate.devIndex).isSome
  let s := s.modCtx x (fun c => { c with st := .ready, declared := if c.molt.edge.isSome then c.declared else none,
                                         sl := { c.sl with parityStep := if parityK (jobOf s x) = 0 then 0xFFFFFFFFFFFFFFFF else c.sl.hdr.step } })
  let s := endMoltWith x stOk 1 s
  if stays then s else leaveJob x s

/-- The lending edge of the molt has come, by this device's fabric time (R403). -/
def edgeReached (s : State) (x : Nat) : Bool := match (s.ctx x).molt.edge with | some t => decide (t ≤ fabricNs s) | none => true

/-- The coordinator of a job: its member of lowest index (R402). -/
def coordinator (j : Job) : Option Nat := j.members.head?

/-- A molt is reverted: the old carapace stays in force under the new epoch (R343). -/
def revertMolt (x st : Nat) (s : State) : State :=
  let c := s.ctx x
  if c.molt.fresh then leaveJob x (endMoltWith x st 2 s)
  else
    let j := (c.molt.old.getD (jobOf s x))
    let s := s.modCtx x (fun k => { k with job := some { j with epoch := c.molt.epoch }, st := .ready })
    endMoltWith x st 2 s

/-- A molt fails with a status (R343, R464): a failed recovery is not reverted; a loss or a timeout hands the job to recovery,
under the new epoch also on a member that still held. -/
def failMolt (x st : Nat) (s : State) : State :=
  let c := s.ctx x
  let s := { s with colls := s.colls.filter (fun k => !(k.x = x && k.queue.isNone)) }
  if c.molt.phase = .announce || c.molt.phase = .none then s
  else if c.molt.recover || st = stPeerLost || st = stTimeout then
    let s := match c.molt.phase, c.molt.job with
      | .hold, some j => adoptEpoch x j s
      | _, _ => s
    endMoltWith x st 3 (s.modCtx x (fun k => { k with st := .loading }))
  else revertMolt x st s

/-- MOLT_AGREEMENT: the agreement of the phase is complete: the next phase begins, or the molt fails. -/
def moltAgreement (x : Nat) (s : State) : State :=
  let c := s.ctx x
  match c.molt.agree with
  | none => s
  | some (st, ok, bad) =>
    if st ≠ stOk then failMolt x st s
    else if ok ≠ c.molt.group.length then failMolt x stPeerLost s
    else if bad ≠ 0 then
      failMolt x (if c.molt.phase = .verify then stDigest else if c.molt.phase = .transfer then stMem else stTimeout) s
    else match c.molt.phase with
      | .transfer => checkMolt x (startVerify x (moltPhase x .verify s))
      | .verify => checkMolt x (startParity x (moltPhase x .parity s))
      | .parity =>
        let s := moltPhase x .switch s
        if edgeReached s x then finishSwitch x s else modMolt x (fun m => { m with waits := true }) s
      | .none => s
      | .announce => s
      | .hold => s
      | .switch => s

/-- MOLT_TIMEOUT: molt_timeout has passed since the member entered HOLD (R343). -/
def moltTimeout (x : Nat) (s : State) : State :=
  match (s.ctx x).molt.phase with
  | .hold => failMolt x stTimeout s
  | .transfer => failMolt x stTimeout s
  | .verify => failMolt x stTimeout s
  | .parity => failMolt x stTimeout s
  | .none => s
  | .announce => s
  | .switch => s

/-- LEND_SWITCH_WAIT: the coordinator's fabric time has reached the edge, and the waiting SWITCH completes (R403). -/
def lendSwitchWait (x : Nat) (s : State) : State :=
  if (s.ctx x).molt.phase = .switch && (s.ctx x).molt.waits then finishSwitch x s else s

end Sys2Proof.Machine
end

