-- ==== Sys2Proof/Machine/Lend.lean ====
section
/-! DEFINITION. Machine/Lend.lean: lending windows: the coordinator's conversion of an edge, the amendment that every recipient derives,
the cells that pass to a serving context and come back (R348 to R350, R402 to R405). -/
namespace Sys2Proof.Machine

/-! ## The derived carapace (R403) -/

/-- The carapace over the given members, in their order: the carapace in force when the window was declared, less what names no member,
with the default slot map, dealt from the map of the carapace `cur` in force (R329, R403). The grid keeps its pipeline and tensor ways. -/
def deriveJob (base cur : Job) (ms : List Nat) (epoch : Nat) : Job :=
  let idx := fun (m : Nat) => (base.members[m]?).bind (fun d => if ms.contains d then some (ms.idxOf d) else none)
  let j : Job := { base with
    epoch := epoch, members := ms, gridR := max 1 (ms.length / max 1 (base.gridP * base.gridT)), slotsDefault := true, slots := [],
    slotPlanes := base.slotPlanes.filterMap (fun p => (idx p.1).map (fun m => (m, p.2))),
    groups := base.groups.map (fun g => (g.1, g.2.filterMap idx)), experts := base.experts.map (fun e => e.filterMap idx), lend := cur.lend }
  let dest := moltMembers cur j
  let j := { j with slots := packSlots j (fun i => dest.getD i 0) }
  { j with shareMap := if ms = base.members then base.shareMap else defaultShares j }

/-- Marks the progress of window w of a job. -/
def modLend (w : Nat) (f : Lend → Lend) (j : Job) : Job := { j with lend := modAt j.lend w f }

/-- FW_LEND_STAT of window w (R414). -/
def putLendStat (w st : Nat) (unc : Bool) (s : State) : State :=
  if w < 16 then s.modHub (fun h => { h with lendStat := h.lendStat.set w (BitVec.ofNat 2 st, unc) }) else s

/-- A carapace in force declares its windows. -/
def declareLends (j : Job) (s : State) : State :=
  j.lend.zipIdx.foldl (fun t e => if e.1.startConv then t else putLendStat e.2 1 false t) s

/-! ## CONVERT (R402, R403, R405) -/

/-- The 32 data bytes of a CONVERT. -/
def convertData (tag w : Nat) (stop unc : Bool) (sMin epoch now : Nat) : Bytes :=
  le 4 tag ++ [BitVec.ofNat 8 w, BitVec.ofNat 8 (b2n stop), BitVec.ofNat 8 (b2n unc), 0] ++ le 8 sMin ++ le 4 epoch ++ zeros 4 ++ le 8 now

/-- The LEND event: CONVERT bytes 0 to 19 and 24 to 31. -/
def lendEvent (x w : Nat) (d : Bytes) (s : State) : State := ffEvent 0x0114 1 18 w (some x) (slice d 0 20 ++ slice d 24 8) s

/-- The carapace that this device knows of a context's job: the one in force, or the one under which it left. -/
def knownJob (c : Ctx) : Option Job := match c.job with | some j => some j | none => c.left

/-- A job names a device: as a member or in a DEVICE window. -/
def jobNames (j : Job) (dev : Nat) : Bool := j.members.contains dev || j.lend.any (fun l => !l.cells && l.devices.contains dev)

/-- The context whose job a CONVERT names. -/
def convertCtx (s : State) (tag : Nat) : Option Nat :=
  (s.ctxs.find? (fun e => match knownJob e.2 with
    | some j => j.jobTag = tag && jobNames j s.plate.devIndex && j.lend.any (fun l => !l.cells)
    | none => false)).map (·.1)

/-- The devices of a derived carapace: at the start edge the members less the lent ones, at the end edge those and the lent ones, in the
order of the carapace of the declaration. -/
def convertMembers (base cur : Job) (l : Lend) (stop : Bool) : List Nat :=
  if stop then base.members.filter (fun d => cur.members.contains d || l.devices.contains d)
  else cur.members.filter (fun d => !l.devices.contains d)

/-- A CONVERT that its coordinator sent takes effect: the amendment is derived and its molt starts; one that the job's state does not
accepts completes STATE_CONFLICT, one that names no edge to convert BAD_DESCRIPTOR. -/
def convertEdge (x : Nat) (cur : Job) (d : Bytes) (s : State) : State :=
  let c := s.ctx x
  let w := leAt d 4 1
  let stop := decide (leAt d 5 1 = 1)
  let unc := bit (leAt d 6 1) 0
  let epoch := leAt d 16 4
  let base := c.declared.getD cur
  match cur.lend[w]? with
  | none => postMolt x stBad s
  | some l =>
    if moltOn c then postMolt x stConflict s
    else if l.cells || decide (epoch ≤ cur.epoch) || (if stop then !l.startConv || l.endConv else l.startConv) then postMolt x stBad s
    else
      let cur := modLend w (fun l => { l with startConv := true, endConv := stop, st := if stop then 3 else 2, uncertain := unc }) cur
      let new := deriveJob base cur (convertMembers base cur l stop) epoch
      let s := s.modCtx x (fun c => { c with job := c.job.map (fun _ => cur), left := c.left.map (fun _ => cur), declared := some base })
      let s := putLendStat w (if stop then 3 else 2) unc (lendEvent x w d s)
      announceMolt x {
        epoch := epoch, job := some new, old := some cur, sMin := leAt d 8 8, group := moltGroup (some cur) new, uncertain := unc,
        fresh := !cur.members.contains s.plate.devIndex, edge := some (if stop then l.tEnd else l.tStart) } s

/-- A mailbox message on channel 63 from a device: its effect, and PERMISSION unless it is a CONVERT of the job's coordinator (R403). -/
def convertMsg (dev : Nat) (msg : Bytes) (s : State) : State × Nat :=
  let d := msg.drop 8
  if leAt msg 0 1 ≠ 0x10 || leAt msg 2 2 ≠ 32 || decide (d.length < 32) then (s, stPerm)
  else match convertCtx s (leAt d 0 4) with
    | none => (s, stPerm)
    | some x =>
      match knownJob (s.ctx x) with
      | none => (s, stPerm)
      | some cur => if coordinator cur = some dev then (convertEdge x cur d s, stOk) else (s, stPerm)

/-- On entering LEDGER the coordinator converts the first edge that is due (R402); while a molt is under way an edge waits (R344). -/
def convertDue (x : Nat) (s : State) : State :=
  let c := s.ctx x
  match c.job with
  | none => s
  | some j =>
    if coordinator j ≠ some s.plate.devIndex || moltOn c then s
    else
      let now := fabricNs s
      let d := (s.clk - c.sl.openClk) * 5 / 3
      let due := fun (l : Lend) => !l.cells && (if l.startConv then !l.endConv && decide (l.tEnd ≤ now + d) else decide (l.tStart ≤ now + d))
      match j.lend.zipIdx.find? (fun e => due e.1) with
      | none => s
      | some (l, w) =>
        let unc := timeUncertain s
        let data := convertData j.jobTag w l.startConv unc (c.sl.step + 2) (j.epoch + 1) now
        let msg := [0x10, 0] ++ le 2 32 ++ le 4 0 ++ data
        let base := c.declared.getD j
        let devs := (j.members ++ convertMembers base j l l.startConv).eraseDups
        let s := (devs.filter (fun d => d ≠ s.plate.devIndex)).foldl (fun t dev => sendCtl t (some x) dev dev 3 0 ([63] ++ msg)) s
        (convertMsg s.plate.devIndex msg s).1

/-- CONVERT: a lending message arrives from a device; one that the channel does not take is refused (R372, R403). -/
def convert (dev : Nat) (msg : Bytes) (s : State) : State := (convertMsg dev msg s).1

/-- CONVERT. -/
def execConvert (dev : Nat) (msg : Bytes) (s : State) : Host.Outcome State Fault Refusal := serving (convert dev msg) s

/-! ## Lent cells (R349, R350, R404) -/

/-- The cells of this device that a CELLS window lends. -/
def lentCells (s : State) (l : Lend) : List Nat := setBits ((getKey l.masks s.plate.devIndex).getD 0) 256

/-- Window w of the job of context x. -/
def windowOf (s : State) (x w : Nat) : Option Lend := ((s.ctx x).job).bind (fun j => j.lend[w]?)

/-- Applies `f` to window w of the job of context x. -/
def modWindow (x w : Nat) (f : Lend → Lend) (s : State) : State := s.modCtx x (fun c => { c with job := c.job.map (modLend w f) })

/-- The LEND event of an edge of a CELLS window, in the form of a CONVERT. -/
def cellsEvent (x w : Nat) (stop unc : Bool) (s : State) : State :=
  lendEvent x w (convertData (s.ctx x).jobTag w stop unc ((s.ctx x).sl.hdr.step + 1) (s.ctx x).sl.epoch (fabricNs s)) s

/-- The lent cells pass to the serving context (R349, R404). -/
def giveCells (x w : Nat) (s : State) : State :=
  match windowOf s x w with
  | none => s
  | some l =>
    if !l.cells || l.startConv || moltOn (s.ctx x) then s
    else
      let unc := timeUncertain s
      let cs := (lentCells s l).filter (fun c => (s.ctx x).owned.contains c)
      let s := s.modCtx x (fun c => { c with owned := c.owned.filter (fun k => !cs.contains k) })
      let s := s.modCtx l.serveCtx (fun c => { c with owned := c.owned ++ cs })
      let s := modWindow x w (fun l => { l with startConv := true, st := 2, uncertain := unc }) s
      cellsEvent x w false unc (putLendStat w 2 unc s)

/-- The serving context has drained: no launch of it is under way and no program of it is on a lent cell. -/
def drained (s : State) (l : Lend) : Bool :=
  !s.queues.any (fun q => q.2.ctx = l.serveCtx && q.2.flight.any (fun c => c.counted && c.status.isNone && cOp c.bytes = 0x20)) &&
    (lentCells s l).all (fun c => match (s.cell c).prog with | some p => decide (p.ctx ≠ l.serveCtx) | none => true)

/-- The lent cells come back to the job, and the serving context admits requests again on the cells that are its own (R350). -/
def takeBack (x w : Nat) (s : State) : State :=
  match windowOf s x w with
  | none => s
  | some l =>
    if !l.cells || !l.draining || l.endConv || !drained s l || moltOn (s.ctx x) then s
    else
      let unc := timeUncertain s
      let cs := (lentCells s l).filter (fun c => (s.ctx l.serveCtx).owned.contains c)
      let s := s.modCtx l.serveCtx (fun c => { c with owned := c.owned.filter (fun k => !cs.contains k), admits := true })
      let s := s.modCtx x (fun c => { c with owned := sortBy (fun a b => decide (a < b)) (c.owned ++ cs) })
      let s := modWindow x w (fun l => { l with endConv := true, draining := false, st := 3, uncertain := unc }) s
      cellsEvent x w true unc (putLendStat w 3 unc s)

/-- What a step boundary brings about for the CELLS windows of a job: those whose start has come pass, those that have drained come back. -/
def cellsBoundary (x : Nat) (s : State) : State :=
  match (s.ctx x).job with
  | none => s
  | some j =>
    (List.range j.lend.length).foldl (fun t w =>
      match windowOf t x w with
      | none => t
      | some l => if l.startConv then takeBack x w t else if decide (l.tStart ≤ fabricNs t) then giveCells x w t else t) s

/-- The context stands at a step boundary with no step open. -/
def atIdle (s : State) (x : Nat) : Bool := (s.sl x).phase = .idle && !(s.sl x).isOpen

/-- LENDING_WINDOW_START: fabric time reaches t_start of a CELLS window while the job's context is IDLE (R404). -/
def lendingWindowStart (x w : Nat) (s : State) : State := if atIdle s x then giveCells x w s else s

/-- LENDING_WINDOW_START. -/
def execLendingWindowStart (x w : Nat) (s : State) : Host.Outcome State Fault Refusal := serving (lendingWindowStart x w) s

/-- LEND_END: t_end of a CELLS window that has started: the serving context admits no new request (R350). -/
def lendEnd (x w : Nat) (s : State) : State :=
  match windowOf s x w with
  | none => s
  | some l =>
    if !l.cells || !l.startConv || l.endConv || l.draining then s
    else
      let s := s.modCtx l.serveCtx (fun c => { c with admits := false })
      let s := modWindow x w (fun l => { l with draining := true }) s
      if atIdle s x then takeBack x w s else s

/-- LEND_END. -/
def execLendEnd (x w : Nat) (s : State) : Host.Outcome State Fault Refusal := serving (lendEnd x w) s

/-- The program of a launch starts no further tile. -/
def stopProgram (q k : Nat) (s : State) : State :=
  s.cells.foldl (fun t e => match e.2.prog with
    | some p => if p.queue = q && p.cmd = k then tryEnd e.1 (t.modCell e.1 (fun c => { c with prog := c.prog.map (fun p => { p with stopNew := true }) })) else t
    | none => t) s

/-- DRAIN_LIMIT: drain_limit has passed since t_end: launches of the serving context that still run complete PREEMPTED (R350). -/
def drainLimit (x w : Nat) (s : State) : State :=
  match windowOf s x w with
  | none => s
  | some l =>
    if !l.draining then s
    else
      let s := s.queues.foldl (fun t q =>
        if q.2.ctx = l.serveCtx then
          q.2.flight.foldl (fun u c => if c.counted && c.status.isNone && cOp c.bytes = 0x20 then
            stopProgram q.1 c.idx (finishCmd q.1 c.idx stPreempted 0 0 u) else u) t
        else t) s
      if atIdle s x then takeBack x w s else s

/-- DRAIN_LIMIT. -/
def execDrainLimit (x w : Nat) (s : State) : Host.Outcome State Fault Refusal := serving (drainLimit x w) s

end Sys2Proof.Machine
end

