-- ==== Sys2Proof/Machine/Deliver.lean ====
section
/-! DEFINITION. Machine/Deliver.lean: what the end of a sent message brings about, the frame of the commands that send, and the rows of
collectives, MIGRATE, LOAD_SHARD and molts (R222 to R226, R302 to R310, R340 to R347). -/
namespace Sys2Proof.Machine

/-- The end of one message reaches the work that waits for it. -/
def deliverOne (u : MsgUse) (st : Nat) (s : State) : State :=
  match u with
  | .none => s
  | .collective x op g n => collMsgEnded x op g n st s
  | .migrate h => migrateEnded h st s
  | .shard h i => chunkFailed h i st s
  | .restore h a => restoreFailed h a st s
  | .molt x slot => moltMsgEnded x slot st s
  | .rebuild x => rebuildEnded x st s
  | .parity _ => s
  | .vote _ => s
  | .relay host tag => if st = stOk then s else sendCtl s none host host 8 tag (le 4 tag ++ le 1 st)
  | .reply => s

/-- Delivers the ends of messages until none is left. -/
def deliver : Nat → State → State
  | 0, s => s
  | n + 1, s =>
    match s.ended with
    | [] => s
    | e :: rest => deliver n (deliverOne e.1 e.2 { s with ended := rest })

/-- The frame of a command of a device in service that may send messages, or end them. -/
def net (f : State → State) (s : State) : Host.Outcome State Fault Refusal := serving (fun t => deliver 65536 (f t)) s

/-! ## Collectives -/

/-- COLLECTIVE. -/
def execCollective (q : Nat) (s : State) : Host.Outcome State Fault Refusal := net (startRow (fun b => cOp b = 0x22) collectiveAct q) s

/-- COLLECTIVE DATA. -/
def execCollectiveData (p : FjPkt) (s : State) : Host.Outcome State Fault Refusal := net (collectiveData p) s

/-! ## Jobs that send -/

/-- A row of a program whose end comes with a message: the holder's next job, when it is of the program, starts and has its checks. -/
def sendRow (prog : Nat) (run : EngJob → List Stream → Bytes → State → State) (h : Nat) (s : State) : State :=
  let k := s.holder h
  if k.resetting || k.running.isSome || fenced s h then s
  else match nextJob k with
    | none => s
    | some j =>
      if jProg j.desc ≠ prog then s
      else match jobChecks s h j with
        | .error st => endJob h j { s := noteRead st (jParam j.desc) (paramLen (jProg j.desc)) (startJob h j s), st := st }
        | .ok (l, _, b) => run j l b (startJob h j s)

/-- MIGRATE. -/
def execMigrate (h : Nat) (s : State) : Host.Outcome State Fault Refusal := net (sendRow 0x51 (runMigrate h) h) s

/-- LOAD_SHARD. -/
def execLoadShard (h : Nat) (s : State) : Host.Outcome State Fault Refusal := net (sendRow 0x60 (runLoad startLoad h) h) s

/-- SHARD_TIMEOUT. -/
def execShardTimeout (h : Nat) (s : State) : Host.Outcome State Fault Refusal := net (shardTimeout h) s

/-- SHARD_RECHECK. -/
def execShardRecheck (h i : Nat) (s : State) : Host.Outcome State Fault Refusal := net (shardRecheck startRestore h i) s

/-! ## Molts -/

/-- MOLT_HOLD. -/
def execMoltHold (x : Nat) (s : State) : Host.Outcome State Fault Refusal := net (moltHold x) s
/-- MOLT_TRANSFER. -/
def execMoltTransfer (x : Nat) (s : State) : Host.Outcome State Fault Refusal := net (moltTransfer x) s
/-- RECOVER_RESTORE. -/
def execRecoverRestore (x : Nat) (s : State) : Host.Outcome State Fault Refusal := net (recoverRestore x) s
/-- MOLT_AGREEMENT. -/
def execMoltAgreement (x : Nat) (s : State) : Host.Outcome State Fault Refusal := net (moltAgreement x) s
/-- MOLT_TIMEOUT. -/
def execMoltTimeout (x : Nat) (s : State) : Host.Outcome State Fault Refusal := net (moltTimeout x) s
/-- LEND_SWITCH_WAIT. -/
def execLendSwitchWait (x : Nat) (s : State) : Host.Outcome State Fault Refusal := net (lendSwitchWait x) s

end Sys2Proof.Machine
end

