-- ==== Sys2Proof/Machine/StepLine.lean ====
section
/-! DEFINITION. Machine/StepLine.lean: the commands and events that move the step line: opening, votes, the barrier, the adaptation pass,
the ledger, its records and the schedule (R234 to R267, R364, R371, R395 to R404). -/
namespace Sys2Proof.Machine

/-! ## The control block of the ledger ring (R252, R253) -/

/-- What STEP_OPEN reads of the control block: producer, consumer, capacity, entries of the layer table. -/
structure RingCtl where
  producer : Nat
  consumer : Nat
  capacity : Nat
  layers   : Nat
  deriving DecidableEq, Repr

/-- The control block of a context's ring; none while it cannot be read. -/
def ringCtl (s : State) (x : Nat) : Option RingCtl :=
  match readFor s x (s.ctx x).ledger 0x1A with
  | .ok b => some { producer := leAt b 0 8, consumer := leAt b 8 8, capacity := leAt b 16 4, layers := leAt b 24 2 }
  | .error _ => none

/-- The layer table: layer_id and a_stat; none while it cannot be read. -/
def layerTable (s : State) (x n : Nat) : Option (List (Nat × Int)) :=
  if n = 0 then some []
  else match readFor s x ((s.ctx x).ledger + 0x100) (4 * n) with
    | .ok b => some ((List.range n).map (fun i => (leAt b (4 * i) 2, toSigned 16 (leAt b (4 * i + 2) 2))))
    | .error _ => none

/-- The layer_id values ascend strictly. -/
def ascending : List (Nat × Int) → Bool
  | [] => true
  | [_] => true
  | a :: b :: t => decide (a.1 < b.1) && ascending (b :: t)

/-- The capacity is a power of two from 16 to 65,536. -/
def capacityOk (c : Nat) : Bool := (List.range 13).any (fun i => c = 16 * 2 ^ i)

/-- The ring is full. -/
def RingCtl.full (r : RingCtl) : Bool := decide ((r.producer + 2 ^ 64 - r.consumer) % 2 ^ 64 ≥ r.capacity)

/-! ## STEP_OPEN (R235, R252, R253, R341, R364, R371, R446) -/

/-- The step is the first of the setpoint in force of a thermal replay, which the die has not yet held (R446). -/
def setpointWaits (s : State) (x step : Nat) : Bool :=
  match s.hub.replay with
  | some r => r.x = x && !r.held && (match r.points[r.at_]? with | some p => decide (p.2.1 = step) | none => false)
  | none => false

/-- The step runs under a setpoint that is held. -/
def underReplay (s : State) (x step : Nat) : Bool :=
  match s.hub.replay with
  | some r => r.x = x && r.held && (match r.points[r.at_]? with | some p => decide (p.2.1 ≤ step) && decide (step ≤ p.2.2) | none => false)
  | none => false

/-- The highest rate of the SOLDIER entries that fire at a step (R398). -/
def soldierAt (j : Job) (step : Nat) : Nat := ((j.sched.filter (fun e => e.kind = 2 && fires e step)).map (·.arg)).foldl max 0

/-- Uniform mode holds for the step (R336). -/
def uniformAt (c : Ctx) (j : Job) (step : Nat) (thermal : Bool) : Bool :=
  decide (c.sl.lastRecEpoch ≠ some c.sl.epoch) || j.replay || thermal || (c.molt.recover && decide (step ≤ c.molt.tStar))

/-- The step line of an opened step: everything that belongs to one step is fresh. -/
def openLine (l : StepLine) (kind : StepKind) (step cap clk rate : Nat) (table : List (Nat × Int)) (uniform thermal : Bool) : StepLine :=
  { epoch := l.epoch, step := step, phase := l.phase, phaseClk := l.phaseClk, outcome := l.outcome, isOpen := true, kind := kind, dead := l.dead,
    votes := l.votes.filter (fun v => decide (l.epoch < v.epoch) || (v.epoch = l.epoch && decide (step ≤ v.step))),
    hdr := l.hdr, lsPrev := l.hdr.ls, digests := l.digests, digestBad := l.digestBad, fpDone := l.fpDone, waitClk := l.waitClk,
    ledgerWait := l.ledgerWait, pend := l.pend, table := table, retrying := l.retrying, lastRecEpoch := l.lastRecEpoch,
    lastRecord := l.lastRecord, refreshed := l.refreshed, parityStep := l.parityStep, capacity := cap, openClk := clk, soldierRate := rate,
    uniform := uniform, thermal := thermal, cur := if kind = .verify then some .verified else none }

/-- LEDGER begins: the digests of the device's slots are exchanged and the ledger collective runs (R258, R260). -/
def beginLedger (x : Nat) (s : State) : State :=
  let ds := ownDigests s x
  let s := s.modSl x (fun l => { l with fpDone := false, digestBad := false, badSlots := [], digests := [] })
  convertDue x (startLedger x (startDigests x ds (enterPhase x .ledger s)))

/-- The step opens. -/
def openStep (q k x step : Nat) (kind : StepKind) (cap : Nat) (table : List (Nat × Int)) (s : State) : State :=
  let c := s.ctx x
  let j := jobOf s x
  let thermal := underReplay s x step
  let s := endWait x s
  let s := s.modSl x (fun l => openLine { l with retrying := false } kind step cap s.clk (if kind = .verify then 0 else soldierAt j step) table
    (uniformAt c j step thermal) thermal)
  let s := if kind = .rediscovery && c.sl.lastRecEpoch.isNone then s.modSl x (fun l => { l with hdr := hdrNew j c.sl.hdr.step c.sl.hdr.dataPos, lsPrev := j.lsInit }) else s
  let s := finishCmd q k stOk 0 0 s
  if kind = .verify then beginLedger x s else enterPhase x .fwd s

/-- A WINDOWED request is about to be served at the PREEMPT_WINDOW of a step whose record is not yet written: STEP_OPEN of the next step comes after it
(R400, R401). -/
def windowDue (s : State) (x : Nat) : Bool :=
  (s.ctx x).preReq = 2 && !moltOn (s.ctx x) &&
    (s.sl x).pend.any (fun r => r.outcome ≠ .verified && (jobOf s x).sched.any (fun e => e.kind = 3 && fires e r.step))

/-- The step has been abandoned in the present epoch: it runs again only under a higher one (R236, R237). -/
def abandonedHere (sl : StepLine) (step : Nat) : Bool := sl.cur = some .abandoned && decide (sl.step = step)

/-- STEP_OPEN's effect. -/
def stepOpenAct (q k : Nat) (b : Bytes) (s : State) : State :=
  let x := (s.queue q).ctx
  let c := s.ctx x
  let kind : StepKind := if leAt b 24 1 = 1 then .rediscovery else if leAt b 24 1 = 2 then .verify else .normal
  let step := cStep b
  if c.jobTag = 0 || c.job.isNone || c.sl.isOpen || abandonedHere c.sl step || decide (step ≠ if kind = .verify then c.sl.hdr.step else c.sl.hdr.step + 1) then
    finishCmd q k stConflict 0 0 s
  else if moltOn c && (c.molt.phase ≠ .announce || decide (c.molt.sMin ≤ step)) then holdCmd q k s
  else if setpointWaits s x step || windowDue s x then holdCmd q k s
  else match ringCtl s x with
    | none => holdCmd q k (lostRing x stMem (notePoison s c.ledger 0x1A))
    | some r =>
      if !capacityOk r.capacity || decide (r.layers > 4096) then finishCmd q k stBad 0 0 s
      else match layerTable s x r.layers with
        | none => holdCmd q k (lostRing x stMem (notePoison s (c.ledger + 0x100) (4 * r.layers)))
        | some t =>
          if !ascending t then finishCmd q k stBad 0 0 s
          else if r.full then holdCmd q k (beginWait x s)
          else
            let w := writeFor s x (c.ledger + 0x14) (le 4 (1024 * ((1024 + 32 * r.layers + 1023) / 1024)))
            if w.2 ≠ stOk then holdCmd q k (lostRing x w.2 w.1) else openStep q k x step kind r.capacity t (cellsBoundary x w.1)

/-- A STEP_OPEN row takes its kind; the first one the kinds that R364 does not define too. -/
def rowOpen (kind : Nat) (b : Bytes) : Bool := cOp b = 0x10 && (leAt b 24 1 = kind || (kind = 0 && decide (leAt b 24 1 > 2)))

/-- A waiting STEP_OPEN is tried again unless the ring is out of reach: that is LEDGER_RETRY's part. -/
def openReady (s : State) (q : Nat) (_ : Cmd) : Bool := !(s.sl (s.queue q).ctx).retrying

/-- STEP_OPEN. -/
def execStepOpen (q : Nat) (s : State) : Host.Outcome State Fault Refusal := net (fun t => startRow (rowOpen 0) stepOpenAct q t openReady) s
/-- STEP_OPEN of a rediscovery step. -/
def execStepOpenRediscovery (q : Nat) (s : State) : Host.Outcome State Fault Refusal :=
  net (fun t => startRow (rowOpen 1) stepOpenAct q t openReady) s
/-- STEP_OPEN of a verify step. -/
def execStepOpenVerify (q : Nat) (s : State) : Host.Outcome State Fault Refusal := net (fun t => startRow (rowOpen 2) stepOpenAct q t openReady) s

/-! ## The barrier (R235, R241 to R243, R313, R371) -/

/-- Status and detail2 of a barrier command under a decision (R235, R367). -/
def barrierAnswer : Decision → Nat × Nat
  | .update => (stOk, 0)
  | .skip => (stFlagged, 1)
  | .rediscover => (stOk, 2)
  | .abandon st => (st, 3)

/-- STEP_BARRIER's effect: it completes with the decision. -/
def stepBarrierAct (q k : Nat) (b : Bytes) (s : State) : State :=
  let x := (s.queue q).ctx
  let sl := s.sl x
  if !(sl.phase = .reduce || sl.phase = .commit) || sl.step ≠ cStep b then finishCmd q k stConflict 0 0 s
  else match sl.decision with
    | some d => finishCmd q k (barrierAnswer d).1 0 (barrierAnswer d).2 s
    | none =>
      match sl.barrierCmd with
      | none => s.modSl x (fun l => { l with barrierCmd := some (q, k) })
      | some _ => holdCmd q k s

/-- STEP_BARRIER. -/
def execStepBarrier (q : Nat) (s : State) : Host.Outcome State Fault Refusal := net (startRow (fun b => cOp b = 0x11) stepBarrierAct q) s

/-- STEP_UPDATE_END's effect: it is the end-of-update marker. -/
def stepUpdateEndAct (q k : Nat) (b : Bytes) (s : State) : State :=
  let x := (s.queue q).ctx
  let sl := s.sl x
  if sl.step ≠ cStep b || sl.decision.isNone then finishCmd q k stConflict 0 0 s
  else finishCmd q k stOk 0 0 (if sl.isOpen then s.modSl x (fun l => { l with updateEnd := true }) else s)

/-- STEP_UPDATE_END. -/
def execStepUpdateEnd (q : Nat) (s : State) : Host.Outcome State Fault Refusal := serving (startRow (fun b => cOp b = 0x12) stepUpdateEndAct q) s

/-- PARTIALS_HANDED: every partial of the device's shares has been handed to the link dies (R235). A device whose step has had no backward
tile passes through BWD. -/
def partialsHanded (x : Nat) (s : State) : State :=
  let ph := (s.sl x).phase
  if s.colls.any (fun k => k.x = x && !k.own.isEmpty) then s
  else if ph = .bwd then tryCommit x (enterPhase x .reduce s)
  else if ph = .fwd then tryCommit x (enterPhase x .reduce (enterPhase x .bwd s))
  else s

/-- PARTIALS_HANDED. -/
def execPartialsHanded (x : Nat) (s : State) : Host.Outcome State Fault Refusal := net (partialsHanded x) s

/-- A frame or packet is dropped and counted at a link die (R319). -/
def countDrop (d why : Nat) (s : State) : State := s.modLink d (fun l => { l with dropWhy := BitVec.ofNat 8 why, dropN := bump l.dropN 1 })

/-- The link die on which a peer's packets come. -/
def peerDie (s : State) (dev : Nat) : Nat :=
  match pathOf s dev 0 with
  | some (_, l) => dieOfLane l
  | none => 16

/-- A VOTE whose body and header positions differ, whose header phase is not COMMIT, or whose body is not as R313 lays it out. -/
def badVote (p : FjPkt) (v : Vote) : Bool :=
  p.hdr.epoch ≠ v.epoch || p.hdr.step ≠ v.step || p.hdr.phase ≠ 4 || decide (p.payload.length < 40) || decide (v.vote > 2)
    || (slice p.payload 32 8).any (· ≠ 0)

/-- VOTE: held until the device is in COMMIT of its step; one of an earlier epoch is answered STALE_EPOCH (R313). -/
def takeVote (p : FjPkt) (s : State) : State :=
  let s := takeRx s p
  let x := p.hdr.ctx
  let b := p.payload.drop 8
  let v : Vote := { member := leAt b 12 2, epoch := leAt b 0 4, step := leAt b 4 8, vote := leAt b 14 1, status := leAt b 15 1, check := slice b 16 8 }
  let j := jobOf s x
  if p.hdr.cls ≠ 0 || p.hdr.ty ≠ 1 || leAt p.payload 0 2 ≠ 1 then s
  else if badVote p v then countDrop (peerDie s p.hdr.src) 4 s
  else if let some e := pktRefusal s p then refuse s p e
  else if (s.ctx x).job.isNone || j.members[v.member]? ≠ some p.hdr.src then sendNack s p 5
  else if decide (v.epoch = (s.sl x).epoch) && decide (v.step < (s.sl x).step) then s
  else tryDecide x (s.modSl x (fun l => { l with votes := v :: l.votes.filter (fun w => !(w.member = v.member && w.epoch = v.epoch && w.step = v.step)) }))

/-- VOTE. -/
def execVote (p : FjPkt) (s : State) : Host.Outcome State Fault Refusal := net (takeVote p) s

/-- COMMIT_TIMEOUT: the commit timeout has passed since the device entered COMMIT and the barrier has not decided (R243). -/
def commitTimeout (x : Nat) (s : State) : State :=
  if (s.sl x).phase = .commit && (s.sl x).decision.isNone then stepLoss x stTimeout s else s

/-- COMMIT_TIMEOUT. -/
def execCommitTimeout (x : Nat) (s : State) : Host.Outcome State Fault Refusal := net (commitTimeout x) s

/-! ## The adaptation pass (R246, R247, R266) -/

/-- An exponent byte shifted and clamped. -/
def shiftExp (x : Nat) (d : Int) : Nat := (min 0xFE (max 1 ((x : Int) + d))).toNat

/-- Exponent and streak of a block after a committed step, and whether a rule raised or lowered it (R246). -/
def adaptBlock (nib x streak : Nat) : Nat × Nat × Bool × Bool :=
  if bit nib 3 then (min (x + 1) 0xFE, 0, true, false)
  else if bit nib 2 then (x, streak, false, false)
  else if bit nib 0 && streak = 255 then (max (x - 1) 1, 0, false, true)
  else if bit nib 0 then (x, streak + 1, false, false)
  else (x, 0, false, false)

/-- Exponent of a block after a rediscovery step (R266). -/
def rediscoverExp (xInit smax : Nat) : Nat := if smax = 0 || smax = 0xFF then xInit else min (smax + 2) 0xFE

/-- The pass over one slot: blocks whose pairs cannot be read stay as they are, and the slot then forms no digests. -/
def adaptSlot (x i : Nat) (e : SlotEnt) (s : State) : State :=
  let j := jobOf s x
  let sl := s.sl x
  let n := slotBlocks j i
  let o := sl.cur.getD .committed
  let delta := lsDelta o sl.hdr
  let nibs := (slotNibbles s j i e).getD []
  let bad := fun (b : Nat) => unreadable s (e.expP + b) 1 || unreadable s (e.streakP + b) 1
  let xs := peek s e.expP n
  let ks := peek s e.streakP n
  let new : List (Nat × Nat × Bool × Bool) := (List.range n).map (fun b =>
    let x0 := leAt xs b 1
    let k0 := leAt ks b 1
    if bad b then (x0, k0, false, false)
    else match o with
      | .committed => let r := adaptBlock (nibs.getD b 0) x0 k0; (shiftExp r.1 delta, r.2)
      | .skipped => (shiftExp x0 delta, k0, false, false)
      | .rediscovery => (rediscoverExp sl.hdr.xInit ((getKey sl.smax (slotFirst j i + b)).getD 0), 0, false, false)
      | .abandoned => (x0, k0, false, false)
      | .verified => (x0, k0, false, false))
  let s := poke (poke s e.expP (new.map (fun r => BitVec.ofNat 8 r.1))) e.streakP (new.map (fun r => BitVec.ofNat 8 r.2.1))
  let s := s.modSl x (fun l => { l with counts := { l.counts with
    raised := l.counts.raised + (new.filter (·.2.2.1)).length, lowered := l.counts.lowered + (new.filter (·.2.2.2)).length } })
  if (List.range n).any bad then
    notePoison (notePoison (s.modSl x (fun l => { l with badSlots := i :: l.badSlots })) e.streakP n) e.expP n
  else s

/-- A holder runs or will run an update job of the context. -/
def updateOn (s : State) (x h : Nat) : Bool :=
  (s.holder h).jobs.any (fun j => j.ctx = x && (match jobForm (modeOf s x) j.desc with | some (l, _) => isUpdate s x j.desc l | none => false))

/-- The holders of this device's slots. -/
def slotHolders (s : State) (x : Nat) : List Nat := ((mySlots s x).map (fun e => e.2.holder)).eraseDups

/-- ADAPTATION_PASS: in UPDATE, after the update jobs of the step on the holder (R246). -/
def adaptationPass (h x : Nat) (s : State) : State :=
  let sl := s.sl x
  if sl.phase ≠ .update || !sl.updateEnd || sl.adapted.contains h || !(slotHolders s x).contains h || updateOn s x h then s
  else
    let s := ((mySlots s x).filter (fun e => e.2.holder = h)).foldl (fun t e => adaptSlot x e.1 e.2 t) s
    s.modSl x (fun l => { l with adapted := h :: l.adapted })

/-- ADAPTATION_PASS. -/
def execAdaptationPass (h x : Nat) (s : State) : Host.Outcome State Fault Refusal := serving (adaptationPass h x) s

/-! ## LEDGER (R235, R250, R251, R258, R260, R402) -/

/-- LEDGER_ENTER: the marker has completed, the update jobs of the step are done, and the pass has run on every holder. -/
def ledgerEnter (x : Nat) (s : State) : State :=
  let sl := s.sl x
  if sl.phase ≠ .update || !sl.updateEnd || (slotHolders s x).any (fun h => !sl.adapted.contains h || updateOn s x h)
      || s.holders.any (fun h => h.2.samples.any (fun e => e.ctx = x && e.step = sl.step)) then s
  else
    let o := sl.cur.getD .committed
    let a := adaptLs o sl.hdr
    let n := fun (i : Nat) => (sl.summed.filter (fun b => bit b.2 i)).length
    let s := s.modSl x (fun l => { l with
      hdr := hdrAfter o l.step l.hdr, lsRaised := a.2.1, lsLowered := a.2.2.1, lsFloor := a.2.2.2,
      counts := { l.counts with overflow := n 3, nonfinite := n 1, zeroSum := n 2 } })
    beginLedger x s

/-- LEDGER_ENTER. -/
def execLedgerEnter (x : Nat) (s : State) : Host.Outcome State Fault Refusal := net (ledgerEnter x) s

/-! ## Records (R253 to R256, R397 to R401, R447) -/

/-- The record as it is written: digests, fingerprint_valid, ledger_wait, ledger_wait_us, crc. -/
def finalRecord (sl : StepLine) (r : PendRec) : Bytes :=
  let valid := r.fp && !sl.digestBad
  let g := if valid then globalDigests sl.digests sl.hdr else (zeros 64, zeros 64, zeros 64)
  let flags := leAt r.bytes 40 4 + 512 * b2n valid + 2048 * b2n (decide (sl.ledgerWait ≠ 0))
  let b := patch (patch (patch r.bytes 40 (le 4 flags)) 48 (g.1 ++ g.2.1 ++ g.2.2)) 412 (le 4 (usOf sl.ledgerWait))
  patch b 1016 (le 8 (crc64 (b.take 1016 ++ b.drop 1024)))

/-- An event of the schedule is skipped (R401); no rule gives the reason a code (log entry 5). -/
def schedSkip (x kind step : Nat) (s : State) : State :=
  let w := takeBytes 1 s
  ffEvent 0x0115 2 18 kind (some x) (le 8 step ++ w.1) w.2

/-- The compartment cannot work: it is being restarted, or has failed (R391, R392). -/
def compDown (s : State) (i : Nat) : Bool :=
  match s.hub.comps[i]? with
  | some c => c.st = 2 || c.st = 3
  | none => false

/-- The global fields of a record (R255). -/
def globalFields (b : Bytes) : Bytes :=
  slice b 4 20 ++ slice b 32 4 ++ slice b 40 4 ++ slice b 48 264 ++ slice b 544 9 ++ b.drop 1024

/-- The entries of the schedule that fire as a record is written (R398, R399, R401). -/
def ledgerEvents (x step : Nat) (o : Outc) (rec_ : Bytes) (s : State) : State :=
  let j := jobOf s x
  if !(o = .committed || o = .skipped || o = .rediscovery) then s
  else
    let s := match parityEntry j with
      | some e =>
        if !fires e step then s
        else if moltOn (s.ctx x) && decide ((s.ctx x).molt.sMin ≤ (s.sl x).hdr.step + 1) then schedSkip x 1 step s
        else startRefresh x step s
      | none => s
    if j.sched.any (fun e => e.kind = 4 && fires e step) then
      if compDown s 3 then schedSkip x 4 step s else s.emit (.mgmt 401 stOk (globalFields rec_))
    else s

/-- A PREEMPT_WINDOW that fires at a step opens after its record (R398, R400, R401). -/
def windowEvents (x step : Nat) (o : Outc) (s : State) : State :=
  let j := jobOf s x
  let ws := if o = .verified then [] else j.sched.filter (fun e => e.kind = 3 && fires e step)
  if ws.isEmpty || (s.sl x).isOpen then s
  else if moltOn (s.ctx x) then schedSkip x 3 step s
  else if (s.ctx x).preReq = 2 then preemptNow x (some ((ws.map (·.arg)).foldl max 0)) s
  else s

/-- The fields of each row of R270: byte ranges of the record, and byte ranges of every layer entry. -/
def replayRows : List (List (Nat × Nat) × List (Nat × Nat)) :=
  [([(39, 1), (256, 8)], []), ([(248, 8), (264, 24)], []), ([(288, 4)], [(12, 4)]), ([(292, 4)], [(16, 4), (8, 4)]), ([(176, 64)], []),
    ([(48, 64)], []), ([(112, 64)], [])]

/-- The 1-based row of R270 in which two records differ first; none when no row differs. -/
def firstDiff (a b : Bytes) : Option Nat :=
  let n := leAt a 4 2
  ((List.range replayRows.length).find? (fun i => match replayRows[i]? with
    | some r => r.1.any (fun f => decide (slice a f.1 f.2 ≠ slice b f.1 f.2))
        || (List.range n).any (fun l => r.2.any (fun f => decide (slice a (1024 + 32 * l + f.1) f.2 ≠ slice b (1024 + 32 * l + f.1) f.2)))
    | none => false)).map (· + 1)

/-- The reference record of a replayed step: the records stand at ref_addr in the order of the setpoints' steps, each in a slot of the ring's
size (log entry 45). -/
def refRecord (s : State) (r : Replay) (slot step : Nat) : Option Bytes :=
  let before := ((r.points.take r.at_).map (fun p => p.2.2 + 1 - p.2.1)).sum
  match r.points[r.at_]? with
  | none => none
  | some p => match readFor s r.x (r.refAddr + slot * (before + (step - p.2.1))) slot with
    | .ok b => some b
    | .error _ => none

/-- The setpoint in force ends with a result; after the last one the request is answered (R447). -/
def endSetpoint (res : Nat) (s : State) : State :=
  match s.hub.replay with
  | none => s
  | some r =>
    let r := { r with result := r.result ++ [res], at_ := r.at_ + 1, held := false }
    if r.at_ < r.points.length then s.modHub (fun h => { h with replay := some r })
    else answer 445 stOk (r.result.map (BitVec.ofNat 8)) ({ s with pwr := { s.pwr with repCap := false } }.modHub (fun h => { h with replay := none }))

/-- A record written under a thermal replay is compared with its reference (R447). -/
def compareReplay (x step slot : Nat) (rec_ : Bytes) (s : State) : State :=
  match s.hub.replay with
  | none => s
  | some r =>
    if r.x ≠ x || !underReplay s x step then s
    else
      let diff := match refRecord s r slot step with
        | some b => firstDiff rec_ b
        | none => some 1
      match r.points[r.at_]? with
      | none => s
      | some p =>
        let s := match diff with
          | some f =>
            (logError 0x11 r.die r.die (some x) 0 (le 1 r.die ++ le 2 (ofSigned 16 p.1) ++ le 8 step ++ le 1 f) s).modHub
              (fun h => { h with replay := some { r with bad := true } })
          | none => s
        let bad := match s.hub.replay with | some q => q.bad | none => false
        if step = p.2.2 then
          endSetpoint (b2n bad) (s.modHub (fun h => { h with replay := h.replay.map (fun q => { q with bad := false }) }))
        else s

/-- The record at the head of the line is written when its exchange has ended and the ring has room (R253, R254). -/
def writeRecord (x : Nat) (r : PendRec) (rest : List PendRec) (s : State) : State :=
  match ringCtl s x with
  | none => lostRing x stMem (notePoison s (s.ctx x).ledger 0x1A)
  | some c =>
    if decide ((c.producer + 2 ^ 64 - c.consumer) % 2 ^ 64 ≥ r.cap) then beginWait x s
    else
      let s1 := endWait x s
      let sl := s1.sl x
      let bytes := finalRecord sl r
      let w := writeFor s1 x (r.base + 0x8000 + (c.producer % max 1 r.cap) * r.slot) bytes
      if w.2 ≠ stOk then lostRing x w.2 s
      else
        let v := writeFor w.1 x r.base (le 8 (c.producer + 1))
        if v.2 ≠ stOk then lostRing x v.2 s
        else
          let s := v.1.modSl x (fun l => { l with pend := rest, outcome := r.outcome, lastRecEpoch := some r.epoch, lastRecord := bytes, ledgerWait := 0, retrying := false })
          let s := ffEvent 0x0111 1 18 (myMember s x) (some x) (le 1 (outCode r.outcome) ++ slice bytes 48 8) s
          let s := if sl.ledgerWait = 0 then s else ffEvent 0x0112 3 18 (myMember s x) (some x) (le 4 (usOf sl.ledgerWait)) s
          let s := compareReplay x r.step r.slot bytes s
          let s := ledgerEvents x r.step r.outcome bytes s
          let s := cellsBoundary x s
          tryUpdate x (tryHold x (windowEvents x r.step r.outcome s))

/-- LEDGER_RECORD_WRITE. -/
def ledgerRecordWrite (x : Nat) (s : State) : State :=
  let sl := s.sl x
  match sl.pend with
  | [] => s
  | r :: rest => if (r.fp && !sl.fpDone) || sl.retrying then s else writeRecord x r rest s

/-- LEDGER_RECORD_WRITE. -/
def execLedgerRecordWrite (x : Nat) (s : State) : Host.Outcome State Fault Refusal := net (ledgerRecordWrite x) s

/-- The ring of a context can be read and its next slot size written, as a step's opening does (R252, R253). -/
def ringOpen (s : State) (x : Nat) : Bool :=
  match ringCtl s x with
  | none => false
  | some r =>
    !capacityOk r.capacity || decide (r.layers > 4096) ||
      (match layerTable s x r.layers with
       | none => false
       | some t => !ascending t || (writeFor s x ((s.ctx x).ledger + 0x14) (le 4 (1024 * ((1024 + 32 * r.layers + 1023) / 1024)))).2 = stOk)

/-- LEDGER_RETRY: 1 ms later the hub tries again what it could not reach (R253). -/
def ledgerRetry (x : Nat) (s : State) : State :=
  let sl := s.sl x
  if !sl.retrying then s
  else match sl.pend with
    | r :: rest => if r.fp && !sl.fpDone then s else writeRecord x r rest s
    | [] =>
      if sl.phase = .commit && !sl.qRead then
        let t := readQ x s
        if (t.sl x).qRead then tryUpdate x (endWait x (t.modSl x (fun l => { l with retrying := false }))) else t
      else if ringOpen s x then s.modSl x (fun l => { l with retrying := false }) else s

/-- LEDGER_RETRY. -/
def execLedgerRetry (x : Nat) (s : State) : Host.Outcome State Fault Refusal := net (ledgerRetry x) s

end Sys2Proof.Machine
end

