-- ==== Sys2Proof/Machine/Mailbox.lean ====
section
/-! DEFINITION. Machine/Mailbox.lean: doorbells, mailbox channels and their messages, the relay of host messages by a bridge, and the queue
registers (R312 to R317, R361, R372 to R374, R385, R387, R486, R540). -/
namespace Sys2Proof.Machine

/-! ## CSR answers (R540) -/

/-- Answers a CSR access. -/
def csrAnswer (r : Requester) (a st : Nat) (v : Word) (s : State) : State := s.emit (.csr r a st v)

/-- The requester is the firmware or has operator authority (R540 row 3). -/
def csrRight (r : Requester) : Bool :=
  match r with
  | .firmware => true
  | .operator => true
  | .unit _ => false
  | .peer _ => false
  | .other => false

/-- Address of a register of queue q. -/
def queueRegAt (q i : Nat) : Nat := csrBase + 0x100000 + 0x10 * q + 4 * i

/-- The requester may write HUB_Q_DB and HUB_Q_CCONS of a queue (R361, R540). -/
def queueRight (s : State) (r : Requester) (q : Nat) : Bool :=
  csrRight r || (match r with | .unit x => (s.queue q).defined && (s.queue q).ctx = x | _ => false)

/-- HUB_Q_DB: a write by a unit of the owning context, the firmware or the operator; any other is ignored and answered PERMISSION. -/
def hubQDb (r : Requester) (q : Nat) (v : Word) (s : State) : State :=
  if q < 16384 && queueRight s r q then csrAnswer r (queueRegAt q 0) stOk 0 (ringDoorbell q v.toNat s)
  else csrAnswer r (queueRegAt q 0) stPerm 0 s

/-- HUB_Q_DB. -/
def execHubQDb (r : Requester) (q : Nat) (v : Word) (s : State) : Host.Outcome State Fault Refusal := serving (hubQDb r q v) s

/-- HUB_Q_CCONS: C moves to the value unless that moves it backward or past Q. -/
def hubQCcons (r : Requester) (q : Nat) (v : Word) (s : State) : State :=
  if q < 16384 && queueRight s r q then csrAnswer r (queueRegAt q 1) stOk 0 (writeCcons q v.toNat s)
  else csrAnswer r (queueRegAt q 1) stPerm 0 s

/-- HUB_Q_CCONS. -/
def execHubQCcons (r : Requester) (q : Nat) (v : Word) (s : State) : Host.Outcome State Fault Refusal := serving (hubQCcons r q v) s

/-! ## Doorbells over Fjorum (R312, R361, R370, R486) -/

/-- Commands of a bound context that come through a host come in a session bound to it (R486). -/
def boundOk (s : State) (x : Nat) (viaHost : Bool) (session : Option Nat) : Bool :=
  !viaHost || (s.ctx x).tenant.isEmpty || (match session with | some n => sessAuth s n = .tenant x | none => false)

/-- The packet is a control message with an opcode. -/
def isCtl (p : FjPkt) (op : Nat) : Bool := p.hdr.cls = 0 && p.hdr.ty = 1 && leAt p.payload 0 2 = op

/-- The control message is for this device: a bridge relays any other (R312, R315). -/
def forMe (s : State) (p : FjPkt) : Bool := decide (leAt p.payload 2 2 = s.plate.devIndex)

/-- DOORBELL of a queue. -/
def doorbell (p : FjPkt) (session : Option Nat) (s : State) : State :=
  let b := p.payload.drop 8
  let f := leAt b 0 2
  let q := f % 16384
  if !isCtl p 2 || f / 16384 = 2 || !forMe s p then s
  else
    let s := takeRx s p
    if f / 16384 ≠ 0 || decide (p.payload.length ≠ 16) || leAt b 2 2 ≠ 0 then sendNack s p 6
    else match pktRefusal s p with
      | some e => refuse s p e
      | none =>
        if !(s.queue q).defined || (s.queue q).ctx ≠ p.hdr.ctx || !boundOk s p.hdr.ctx (viaHost s p) session then sendNack s p 5
        else ringDoorbell q (leAt b 4 4) s

/-- DOORBELL. -/
def execDoorbell (p : FjPkt) (session : Option Nat) (s : State) : Host.Outcome State Fault Refusal := serving (doorbell p session) s

/-- DOORBELL of a semaphore. -/
def semaphoreDoorbell (p : FjPkt) (s : State) : State :=
  let b := p.payload.drop 8
  let f := leAt b 0 2
  if !isCtl p 2 || f / 16384 ≠ 2 || !forMe s p then s
  else
    let s := takeRx s p
    if decide (p.payload.length ≠ 16) || leAt b 2 2 ≠ 0 || f % 16384 ≥ 4095 then sendNack s p 6
    else match pktRefusal s p with
      | some e => refuse s p e
      | none => semAdd p.hdr.ctx (f % 16384) (leAt b 4 4) s

/-- SEMAPHORE_DOORBELL. A semaphore is no command of a queue: no bound session is asked for. -/
def execSemaphoreDoorbell (p : FjPkt) (_session : Option Nat) (s : State) : Host.Outcome State Fault Refusal := serving (semaphoreDoorbell p) s

/-! ## Mailboxes (R372 to R374, R387) -/

/-- The device is named by a job with a DEVICE lending window: channel 63 is its lending channel (R403). -/
def lendingChannel (s : State) : Bool :=
  s.ctxs.any (fun e => match knownJob e.2 with
    | some j => j.lend.any (fun l => !l.cells) && jobNames j s.plate.devIndex
    | none => false)

/-- The sender of a channel, as the queue plate names it (R372). -/
def isSender (s : State) (ch : Nat) (f : MboxFrom) : Bool :=
  let m := s.mbox ch
  match f with
  | .fleet => m.kind = 1
  | .host => m.kind = 2
  | .peer d => m.kind = 3 && m.sender = d
  | .operator => m.kind = 4

/-- The device whose Fjorum message carries a mailbox access; none over MGMT or by register. -/
def mboxDev (s : State) (f : MboxFrom) : Option Nat :=
  match f with
  | .fleet => none
  | .host => some (if s.plate.bridge = s.plate.devIndex then hostDev s else s.plate.bridge)
  | .peer d => some d
  | .operator => none

/-- The code of a sender in the channel's state. -/
def mboxCode (s : State) (f : MboxFrom) : Nat :=
  match f with
  | .fleet => 0x8000
  | .host => hostDev s
  | .peer d => d
  | .operator => 0x8001

/-- The packet of a mailbox access over Fjorum: the one that was received, or the form that it has. -/
def mboxPkt (s : State) (dev op : Nat) (body : Bytes) : FjPkt :=
  match s.rxq.find? (fun p => isCtl p op && forMe s p && p.hdr.src = dev && p.payload.drop 8 = body) with
  | some p => p
  | none => { hdr := { cls := 0, ty := 1, src := dev, dst := s.plate.devIndex }, payload := le 2 op ++ le 2 s.plate.devIndex ++ le 4 0 ++ body }

/-- A mailbox access is refused: a NACK over Fjorum, a status over MGMT. -/
def mboxRefuse (f : MboxFrom) (op nack st : Nat) (body : Bytes) (s : State) : State :=
  match mboxDev s f with
  | some d => sendNack s (mboxPkt s d op body) nack
  | none => answer 372 st [] s

/-- The receiver of a channel has no power (R374, R527). -/
def mboxOff (s : State) (ch : Nat) : Bool := let d := (s.mbox ch).rdie; decide (d ≠ 18) && (fenced s d || !(s.die d).on)

/-- A message enters the inbound slot. -/
def postInbound (ch : Nat) (f : MboxFrom) (msg : Bytes) (session : Option Nat) (s : State) : State :=
  s.modMbox ch (fun m => { m with inb := slice msg 0 256, inFull := true, src := mboxCode s f, session := session })

/-- MBOX_WRITE by the fleet manager or over Fjorum: refused unless its writer is the channel's sender; a message to a full slot is dropped,
over Fjorum with NACK NO_BUFFER. On a lending channel a CONVERT takes effect as it arrives (R403). -/
def mboxWrite (f : MboxFrom) (ch : Nat) (msg : Bytes) (session : Option Nat) (s : State) : State :=
  let body := BitVec.ofNat 8 ch :: msg
  let s := match mboxDev s f with | some d => takeRx s (mboxPkt s d 3 body) | none => s
  if ch = 63 && lendingChannel s then
    match f with
    | .peer d =>
      let r := convertMsg d msg s
      if r.2 = stOk then r.1 else mboxRefuse f 3 5 stPerm body s
    | _ => mboxRefuse f 3 5 stPerm body s
  else if decide (ch ≥ 64) || !isSender s ch f then mboxRefuse f 3 5 stPerm body s
  else if decide (msg.length < 8) || decide (msg.length > 256) || decide (leAt msg 2 2 > 248) then mboxRefuse f 3 6 stBad body s
  else if mboxOff s ch then mboxRefuse f 3 9 stOff body s
  else if (s.mbox ch).inFull then
    match mboxDev s f with
    | some d => refuseForNow s (mboxPkt s d 3 body) 4
    | none => s
  else postInbound ch f msg session s

/-- MBOX_WRITE. -/
def execMboxWrite (src : MboxFrom) (ch : Nat) (msg : Bytes) (session : Option Nat) (s : State) : Host.Outcome State Fault Refusal :=
  net (mboxWrite src ch msg session) s

/-- The message that a read of the outbound slot gives: its bytes, or a header with len 0. -/
def outMessage (s : State) (ch : Nat) : Bytes :=
  let m := s.mbox ch
  if m.outFull then m.outb.take (8 + leAt m.outb 2 2) else zeros 8

/-- MBOX_READ: the reply is read and the outbound full flag clears (R374). -/
def mboxRead (f : MboxFrom) (ch : Nat) (s : State) : State :=
  let body := [BitVec.ofNat 8 ch]
  let tag := match mboxDev s f with | some d => leAt (mboxPkt s d 4 body).payload 4 4 | none => 0
  let s := match mboxDev s f with | some d => takeRx s (mboxPkt s d 4 body) | none => s
  if decide (ch ≥ 64) || !isSender s ch f || (ch = 63 && lendingChannel s) then mboxRefuse f 4 5 stPerm body s
  else if mboxOff s ch then mboxRefuse f 4 9 stOff body s
  else
    let out := outMessage s ch
    let s := s.modMbox ch (fun m => { m with outFull := false })
    match f with
    | .fleet => answer 374 stOk out s
    | .operator => answer 374 stOk out s
    | .peer d => sendCtl s none d d 5 tag (body ++ out)
    | .host => sendTo (hostDev s) 5 tag (body ++ out) none s

/-- MBOX_READ. -/
def execMboxRead (src : MboxFrom) (ch : Nat) (s : State) : Host.Outcome State Fault Refusal := net (mboxRead src ch) s

/-- The code of an inbound message's writer is a host's. -/
def fromHost (m : Mbox) : Bool := m.kind = 2

/-- The channel's sender is entitled to the context of a queue (R373, R486): a peer to the contexts of the jobs it is a member of. -/
def entitled (s : State) (m : Mbox) (q : Nat) : Bool :=
  let k := s.queue q
  k.defined && boundOk s k.ctx (fromHost m) m.session &&
    (m.kind ≠ 3 || (match (s.ctx k.ctx).job with | some j => j.members.contains m.sender | none => false))

/-- The reply is posted in the outbound slot and the inbound slot is free. -/
def postReply (ch st : Nat) (cpls : Bytes) (s : State) : State :=
  s.modMbox ch (fun m => { m with
    inFull := false, outFull := true, outb := [0x80, 0] ++ le 2 (4 + cpls.length) ++ slice m.inb 4 4 ++ le 1 st ++ zeros 3 ++ cpls })

/-- The receiver of a channel, hub firmware or the local controller of a die, reads the inbound slot, whose message is of a type. -/
def readsNow (s : State) (ch ty : Nat) : Bool := (s.mbox ch).inFull && !mboxOff s ch && leAt (s.mbox ch).inb 0 1 = ty

/-- The commands of a RING_PUT message, written at slots P on of a queue; the flag says that every byte was written. -/
def ringWrites (s : State) (ch q n : Nat) : State × Bool :=
  let k := s.queue q
  (List.range n).foldl (fun (t : State × Bool) i =>
    let w := writeMem t.1 (cmdAt k (k.p.toNat + i)) (slice ((s.mbox ch).inb.drop 8) (8 + 64 * i) 64)
    (w.1, t.2 && w.2)) (s, true)

/-- The message of a channel is of no type that R373 defines for a sender. -/
def strangeNow (s : State) (ch : Nat) : Bool := (s.mbox ch).inFull && !mboxOff s ch && !(readsNow s ch 1 || readsNow s ch 2)

/-- RING_PUT: the firmware writes the commands at slots P on and rings the doorbell (R373). This row answers a message of an undefined type too:
BAD_DESCRIPTOR (log entry 113). -/
def ringPut (ch : Nat) (s : State) : State :=
  if strangeNow s ch then postReply ch stBad [] s
  else if !readsNow s ch 1 then s
  else
    let m := s.mbox ch
    let d := m.inb.drop 8
    let q := leAt d 0 2
    let n := leAt d 2 1
    let k := s.queue q
    if n = 0 || decide (n > 3) || leAt m.inb 2 2 ≠ 8 + 64 * n || leAt m.inb 1 1 ≠ 0 || leAt d 3 5 ≠ 0 then postReply ch stBad [] s
    else if !entitled s m q then postReply ch stPerm [] s
    else if (k.p - k.n).toNat + n > k.size then postReply ch stConflict [] s
    else if !(List.range n).all (fun i => qMay s q (cmdAt k (k.p.toNat + i)) 64 true false) then postReply ch stPerm [] s
    else
      let r := ringWrites s ch q n
      if !r.2 then postReply ch stMem [] r.1
      else
        let s := if ch = 0 then r.1.modQueue q (fun w => { w with viaFleet := w.viaFleet ++ (List.range n).map (fun i => (k.p.toNat + i) % 2 ^ 32) }) else r.1
        postReply ch stOk [] (ringDoorbell q ((k.p.toNat + n) % 2 ^ 32) s)

/-- RING_PUT. -/
def execRingPut (ch : Nat) (s : State) : Host.Outcome State Fault Refusal := serving (ringPut ch) s

/-- READ_CPL: the reply carries completions of a queue (R373). -/
def readCpl (ch : Nat) (s : State) : State :=
  if !readsNow s ch 2 then s
  else
    let m := s.mbox ch
    let d := m.inb.drop 8
    let q := leAt d 0 2
    let n := leAt d 2 1
    let start := leAt d 4 4
    let k := s.queue q
    if n = 0 || decide (n > 15) || leAt m.inb 2 2 ≠ 8 || leAt m.inb 1 1 ≠ 0 || leAt d 3 1 ≠ 0 then postReply ch stBad [] s
    else if !entitled s m q then postReply ch stPerm [] s
    else
      let rs := (List.range n).map (fun i => qRead s q (k.cpl + 16 * ((start + i) % k.size)) 16)
      let bad := rs.filterMap (fun r => match r with | .error e => some e | .ok _ => none)
      match bad with
      | e :: _ => postReply ch e [] s
      | [] => postReply ch stOk (rs.flatMap (fun r => match r with | .ok b => b | .error _ => [])) s

/-- READ_CPL. -/
def execReadCpl (ch : Nat) (s : State) : Host.Outcome State Fault Refusal := serving (readCpl ch) s

/-! ## Mailbox registers (R387) -/

/-- Address of a register of channel c. -/
def mboxRegAt (c o : Nat) : Nat := csrBase + 0x20000 + 0x400 * c + o

/-- A requester may use the registers of a channel: the firmware, or the operator on an operator's channel (R372, R540). -/
def mboxRight (s : State) (r : Requester) (ch : Nat) : Bool :=
  match r with
  | .firmware => true
  | .operator => decide ((s.mbox ch).kind = 4) && !(ch = 63 && lendingChannel s)
  | .unit _ => false
  | .peer _ => false
  | .other => false

/-- HUB_MBOX_SEND: posts the inbound message; a full slot sets overrun. -/
def hubMboxSend (r : Requester) (ch : Nat) (s : State) : State :=
  let a := mboxRegAt ch 0x204
  if decide (ch ≥ 64) || !mboxRight s r ch then csrAnswer r a stPerm 0 s
  else if mboxOff s ch then csrAnswer r a stOff 0 s
  else if (s.mbox ch).inFull then
    csrAnswer r a stOk 0 (ffEvent 0x0103 2 18 ch none (le 2 (mboxCode s .operator)) (s.modMbox ch (fun m => { m with overrun := true })))
  else csrAnswer r a stOk 0 (postInbound ch .operator (s.mbox ch).inb none s)

/-- HUB_MBOX_SEND. -/
def execHubMboxSend (r : Requester) (ch : Nat) (s : State) : Host.Outcome State Fault Refusal := serving (hubMboxSend r ch) s

/-- HUB_MBOX_TAKE: the length of the reply; the read clears out_full. -/
def hubMboxTake (r : Requester) (ch : Nat) (s : State) : State :=
  let a := mboxRegAt ch 0x208
  if decide (ch ≥ 64) || !mboxRight s r ch then csrAnswer r a stPerm 0 s
  else if mboxOff s ch then csrAnswer r a stOff 0 s
  else
    let n := if (s.mbox ch).outFull then leAt (s.mbox ch).outb 2 2 else 0
    csrAnswer r a stOk (BitVec.ofNat 32 n) (s.modMbox ch (fun m => { m with outFull := false }))

/-- HUB_MBOX_TAKE. -/
def execHubMboxTake (r : Requester) (ch : Nat) (s : State) : Host.Outcome State Fault Refusal := serving (hubMboxTake r ch) s

/-! ## The relay (R314 to R317) -/

/-- Sends a received control message on, body unchanged. -/
def relayOn (p : FjPkt) (dst : Nat) (use : MsgUse) (s : State) : State :=
  let k : FlowKey := { peer := dst, cls := 0, flow := 0 }
  sendMsg s k use 0 [{ p with hdr := { p.hdr with src := s.plate.devIndex, dst := dst, flow := 0, psn := 0, ackPsn := revAck s k, retx := false, ece := false } }]

/-- RELAY: the bridge sends a message of its colony's host on to its target, and a member's message to the host. A target outside the colony
is refused with a RELAY_STATUS. -/
def relay (p : FjPkt) (s : State) : State :=
  let target := leAt p.payload 2 2
  let tag := leAt p.payload 4 4
  let op := leAt p.payload 0 2
  if p.hdr.cls ≠ 0 || p.hdr.ty ≠ 1 || target = s.plate.devIndex || s.plate.bridge ≠ s.plate.devIndex then s
  else
    let s := takeRx s p
    let col := s.plate.devIndex / 64
    if isHost p.hdr.src then
      if p.hdr.src ≠ hostDev s then sendNack s p 5
      else if isHost target || target / 64 ≠ col then sendCtl s none p.hdr.src p.hdr.src 8 tag (le 4 tag ++ le 1 stPerm)
      else relayOn p target (.relay p.hdr.src tag) s
    else if target = hostDev s && p.hdr.src / 64 = col && (op = 5 || op = 6 || op = 7) then relayOn p target .none s
    else sendNack s p 5

/-- RELAY. -/
def execRelay (p : FjPkt) (s : State) : Host.Outcome State Fault Refusal := net (relay p) s

end Sys2Proof.Machine
end

