-- ==== Sys2Proof/Machine/Csr.lean ====
section
/-! DEFINITION. Machine/Csr.lean: the register space: what each register reads as, what a read clears, what a write does (R13, R37, R144,
R158, R159, R185, R232, R319, R346, R347, R385 to R387, R414, R468 to R470, R490, R519, R534, R539 to R541). -/
namespace Sys2Proof.Machine

/-! ## Where a register lies (R539, R541) -/

/-- The block that holds a register, with its instance, and the offset in it. -/
inductive Block where
  | hub | fw | boot | sec | pwr
  | lnk (d : Nat)      -- die index 16 or 17
  | mem (h : Nat)      -- die index 8 to 15, or 19
  | cel (c : Nat)
  deriving DecidableEq, Repr

/-- The block and offset of an address (R539). -/
def blockOf (a : Nat) : Option (Block × Nat) :=
  if a < csrBase then none
  else
    let o := a - csrBase
    if o < 0x200000 then some (.hub, o)
    else if o < 0x400000 then some (.fw, o - 0x200000)
    else if o < 0x401000 then some (.boot, o - 0x400000)
    else if o < 0x402000 then some (.sec, o - 0x401000)
    else if o < 0x403000 then some (.pwr, o - 0x402000)
    else if 0x800000 ≤ o ∧ o < 0x900000 then some (.lnk (16 + (o - 0x800000) / 0x80000), (o - 0x800000) % 0x80000)
    else if 0x900000 ≤ o ∧ o < 0x980000 then some (.mem (8 + (o - 0x900000) / 0x10000), (o - 0x900000) % 0x10000)
    else if 0x980000 ≤ o ∧ o < 0x990000 then some (.mem 19, o - 0x980000)
    else if 0x1000000 ≤ o ∧ o < 0x2000000 then some (.cel ((o - 0x1000000) / 0x10000), (o - 0x1000000) % 0x10000)
    else none

/-- The domain of a die is on (R527). -/
def dieOn (s : State) (d : Nat) : Bool := !fenced s d && (s.die d).on

/-- The die of a block whose domain R540 asks for; none for the blocks of the hub and of the power shell. -/
def blockDie : Block → Option Nat
  | .lnk d => some d
  | .mem h => some h
  | .cel c => some (c / 32)
  | .hub => none
  | .fw => none
  | .boot => none
  | .sec => none
  | .pwr => none

/-- What R540 decides before the register's own map: a status, or a value that the hub answers. -/
inductive Access where
  | deny (st : Nat)
  | fencedValue (v : Nat)
  | go (b : Block) (o : Nat)
  deriving DecidableEq, Repr

/-- A unit acting for the owning context may reach its HUB_Q_DB and HUB_Q_CCONS (R540 row 3). -/
def unitQueue (s : State) (r : Requester) (a : Nat) : Bool :=
  match queueReg a with
  | some (q, i) => decide (i < 2) && queueRight s r q
  | none => false

/-- Rows 1 to 5 of R540. -/
def csrCheck (s : State) (r : Requester) (a size : Nat) : Access :=
  if size ≠ 4 || a % 4 ≠ 0 then .deny stPerm
  else match blockOf a with
    | none => .deny stPerm
    | some (b, o) =>
      if !csrRight r && !unitQueue s r a then .deny stPerm
      else match blockDie b with
        | none => .go b o
        | some d =>
          if dieOn s d then .go b o
          else match b with
            | .cel _ => if o = 0 then .fencedValue (5 * 2 ^ 29) else .deny stOff
            | .mem _ => if o = 0x20 then .fencedValue (3 * 2 ^ 30) else .deny stOff
            | _ => .deny stOff

/-! ## What registers read as -/

/-- A word of named fields: lowest bit and value. -/
def word (fs : List (Nat × Nat)) : Nat := fs.foldl (fun acc f => acc + f.2 * 2 ^ f.1) 0

/-- A signed number as the low n bits. -/
def sbits (n : Nat) (i : Int) : Nat := ofSigned n i

/-- CEL_STATE.state (R158). -/
def cellCode : CellSt → Nat
  | .idle => 0
  | .running => 1
  | .stopping => 2
  | .saving => 3
  | .resetting => 4
  | .fenced => 5

/-- Registers of a cell. -/
def readCel (s : State) (c o : Nat) : Nat :=
  let k := s.cell c
  let ts : List Tile := match k.prog with | some p => p.tiles.filter (fun t => t.running) | none => []
  if o = 0 then word [(29, if cellPresent s c then cellCode k.st else 5), (23, k.ctx), (22, b2n (ts.any (·.array))), (21, b2n (ts.any (·.vector))),
    (20, b2n (ts.any (·.dma))), (19, b2n k.core.isSome), (18, b2n (ts.any (·.late))), (0, k.tileIdx.toNat)]
  else if o = 4 then word [(16, k.abort.toNat), (0, k.lateN.toNat)]
  else if o = 8 then word [(16, k.unc.toNat), (0, k.cor.toNat)]
  else if o = 12 then word [(16, k.dropped.toNat), (0, k.subst.toNat)]
  else if 0x2000 ≤ o ∧ o < 0x2800 then
    let e := k.qsum.get (0, 0, 0, 0, 0) ((o - 0x2000) / 0x20)
    (match o % 0x20 / 4 with
     | 0 => e.1.toNat
     | 1 => e.2.1.toNat
     | 2 => e.2.2.1.toNat
     | 3 => e.2.2.2.1.toNat
     | 4 => e.2.2.2.2.toNat
     | _ => 0)
  else 0

/-- Percentage of the patrol that is done. -/
def patrolPct (h : Nat) (k : Holder) : Nat := let c := patrolCounts h; k.nextPair * 100 / max 1 (c.1 + c.2)

/-- Registers of a holder (R232). -/
def readMemReg (s : State) (h o : Nat) : Nat :=
  let k := s.holder h
  if o = 0 then word [(16, k.poisoned.toNat), (0, k.corrected.toNat)]
  else if o = 4 then word [(0, k.errAddr.toNat % 2 ^ 32 / 128 * 128), (0, k.errKind.toNat)]
  else if o = 8 then word [(16, k.transient.toNat), (0, k.errAddr.toNat / 2 ^ 32)]
  else if o = 0x10 then word [(24, k.patrolH.toNat), (16, k.recheckH.toNat), (0, b2n k.patrolEn)]
  else if o = 0x14 then word [(16, k.passes.toNat), (8, patrolPct h k)]
  else if o = 0x20 then
    (match k.running with
     | some j => word [(30, 1), (24, j.ctx), (16, jProg j.desc), (0, jTag j.desc)]
     | none =>
       (match (if k.stalled then nextJob k else none) with
        | some j => word [(30, 2), (24, j.ctx), (16, jProg j.desc), (0, jTag j.desc)]
        | none => 0))
  else if o = 0x24 then reservedNow k
  else 0

/-- PTP state codes (R319). -/
def ptpCode : PtpSt → Nat
  | .initializing => 0
  | .faulty => 1
  | .disabled => 2
  | .listening => 3
  | .uncalibrated => 4
  | .slave => 5
  | .holdover => 6

/-- The sub-port that a link die's PTP runs on (R281). -/
def ptpPort (s : State) (d l : Nat) : Bool := (s.link d).ptpLane.toNat = l && dieOfLane l = d

/-- Registers of a link die (R319). -/
def readLnk (s : State) (d o : Nat) : Nat :=
  let k := s.link d
  if o = 0 then word [(24, k.dropWhy.toNat), (0, k.dropN.toNat)]
  else if o = 4 then (s.peers.filter (fun p => p.2.st = .up || p.2.st = .suspect)).length
  else if o = 8 then k.lost.toNat
  else if o = 12 then k.retx.toNat
  else if o = 16 then word [(16, k.ceRx.toNat), (0, k.eceRx.toNat)]
  else if o = 0x20 then word [(29, ptpCode k.ptp), (28, b2n k.ppsPres), (27, b2n k.ppsMis), (20, k.ptpLane.toNat), (19, b2n k.uncertain),
    (0, sbits 19 (max (-262144) (min 262143 k.offset)))]
  else if o = 0x24 then fabricNs s % 1000000000
  else if o = 0x28 then k.secLatch.toNat % 2 ^ 32
  else if o = 0x2C then k.secLatch.toNat / 2 ^ 32
  else if 0x100 ≤ o ∧ o < 0x100 + 4 * 36 then
    let l := (if d = 17 then 36 else 0) + (o - 0x100) / 4
    let p := s.port l
    if !p.present then 0
    else word [(31, 1), (30, b2n p.linkUp), (29, b2n (secureUp s l)), (28, b2n (ptpPort s d l)), (24, p.lanes),
      (16, ofBits ((List.range 8).filter (fun i => match p.pris[i]? with | some q => q.paused | none => false))), (8, p.wdog.toNat), (0, p.los.toNat)]
  else 0

/-- HUB_CTX_STATE (R386). -/
def readCtx (s : State) (x : Nat) : Nat :=
  let c := s.ctx x
  let code := match c.st with | .empty => 0 | .loading => 1 | .ready => 2 | .running => 3 | .preempted => 4 | .molting => 5 | .faulted => 6
  let mode := match c.mode with | .native => 0 | .strictIeee => 1 | .kwatil => 2
  word [(29, code), (28, b2n c.lc), (26, mode), (25, b2n c.semOvf),
    (16, (s.cells.filter (fun k => match k.2.saved with | some v => v.ctx = x | none => false)).length), (0, seqOpenCount s x)]

/-- Registers of the hub. -/
def readHub (s : State) (o : Nat) : Nat :=
  let h := s.hub
  if 0x800 ≤ o ∧ o < 0x900 then readCtx s ((o - 0x800) / 4)
  else if o = 0xC00 then word [(31, b2n h.hangValid), (28, h.hangCause.toNat), (22, h.hangCtx.toNat), (8, h.hangQueue.toNat)]
  else if o = 0xC04 then word [(16, h.cycleHold.toNat), (0, h.crossHold.toNat)]
  else if o = 0xC08 then word [(16, h.hung.toNat), (0, h.rearms.toNat)]
  else if o = 0xC10 then h.errNext.toNat
  else if o = 0xC20 then
    word [(22, if h.scored then score h else 0), (20, if h.scored then confidence h else 0), (18, healthCode h.health), (16, healthCode h.recState),
      (15, b2n h.stPass), (14, b2n h.stRun), (12, h.cmdResult.toNat), (0, h.lastClass.toNat)]
  else if o = 0xC30 then word [(12, h.solRate.toNat)]
  else if o = 0xC34 then word [(16, h.solMis.toNat), (0, h.solSkip.toNat)]
  else if o = 0xC40 then word [(28, h.rstDomain.toNat), (23, h.rstDie.toNat), (15, h.rstCell.toNat), (8, h.rstTrig.toNat), (7, b2n h.rstCellV)]
  else if o = 0xC44 then word [(16, h.rstCount.toNat), (0, h.redrives.toNat)]
  else if 0x20000 ≤ o ∧ o < 0x30000 then
    let m := s.mbox ((o - 0x20000) / 0x400)
    let i := (o - 0x20000) % 0x400
    if 0x100 ≤ i ∧ i < 0x200 then leAt m.outb (i - 0x100) 4
    else if i = 0x200 then word [(31, b2n m.inFull), (30, b2n m.outFull), (29, b2n m.overrun)]
    else if i = 0x208 then (if m.outFull then leAt m.outb 2 2 else 0)
    else 0
  else if 0x100000 ≤ o ∧ o < 0x140000 then
    let q := (o - 0x100000) / 16
    let k := s.queue q
    (match o % 16 / 4 with
     | 1 => k.c.toNat
     | 2 => word [(30, k.code), (24, k.ctx), (16, k.haltSt.toNat), (0, k.n.toNat % 65536)]
     | 3 => k.q.toNat
     | _ => 0)
  else 0

/-- Registers of the firmware (R346, R347, R414). -/
def readFw (s : State) (o : Nat) : Nat :=
  let h := s.hub
  if o < 0x14 then
    (match h.comps[o / 4]? with
     | some c => word [(30, c.st), (28, c.core), (20, c.restarts.toNat), (16, c.cause.toNat)]
     | none => 0)
  else if o = 0x20 then h.beat.toNat
  else if o = 0x100 then word [(29, h.minSev.toNat)]
  else if o = 0x104 then word [(16, h.ffDropped.toNat), (0, h.ffOver.toNat)]
  else if o = 0x108 then word [(16, h.evNext), (0, h.trNext)]
  else if 0x120 ≤ o ∧ o < 0x130 then bits h.traceEn.toNat (32 * ((o - 0x120) / 4)) 32
  else if 0x400 ≤ o ∧ o < 0x500 then
    let m := (s.ctx ((o - 0x400) / 4)).molt
    word [(28, moltCode m.phase), (26, m.result.toNat), (18, m.status), (0, min 4096 (slotsPending m))]
  else if 0x500 ≤ o ∧ o < 0x600 then (s.ctx ((o - 0x500) / 4)).molt.epoch
  else if 0x600 ≤ o ∧ o < 0xA00 then
    let sl := s.sl ((o - 0x600) / 16)
    (match o % 16 / 4 with
     | 0 => sl.epoch
     | 1 => sl.step % 2 ^ 32
     | 2 => sl.step / 2 ^ 32
     | _ => word [(24, phaseCode sl.phase), (16, outCode sl.outcome)])
  else if o = 0xA00 then word [(31, b2n h.profEn), (0, h.profPer.toNat)]
  else if o = 0xA04 then h.profPos.toNat
  else if 0xB00 ≤ o ∧ o < 0xB40 then
    let e := h.lendStat.get (0, false) ((o - 0xB00) / 4)
    word [(30, e.1.toNat), (29, b2n e.2)]
  else if 0x100000 ≤ o ∧ o < 0x1C0000 then
    (match h.evRing.get none ((o - 0x100000) / 64) with | some r => leAt (ffBytes r) (o % 64) 4 | none => 0)
  else if 0x1C0000 ≤ o ∧ o < 0x200000 then
    (match h.trRing.get none ((o - 0x1C0000) / 64) with | some r => leAt (ffBytes r) (o % 64) 4 | none => 0)
  else 0

/-- Stage codes (R492, R519). -/
def stageCode : Stage → Nat
  | .fuse => 0
  | .image => 1
  | .carapace => 2
  | .trainLinks => 3
  | .release => 4
  | .released => 5
  | .pupa => 6

/-- The count of consecutive failed starts (R496, R499): F − B; three when neither copy of B passes its CRC; with the fuses exhausted, the
failed starts of the history since the last release. -/
def failedStarts (b : Boot) : Nat :=
  if b.fuses = 1024 then (b.history.takeWhile (fun h => !h.ok)).length
  else match b.base with
    | some v => b.fuses - v
    | none => 3

/-- Registers of the boot controller (R519). -/
def readBoot (s : State) (o : Nat) : Nat :=
  let b := s.boot
  if o = 0 then word [(29, stageCode b.stage), (21, b.reason.toNat), (0, b.detail.toNat)]
  else if o = 4 then word [(21, b.fuses), (19, min 3 (failedStarts b)), (18, b2n (decide (b.fuses = 1024))), (17, b2n b.trial), (16, b2n b.armed),
    (0, b.starts.toNat)]
  else if o = 8 then b.stepping.toNat
  else if 0x10 ≤ o ∧ o < 0x24 then (b.ends.getD ((o - 0x10) / 4) 0).toNat
  else if o = 0x34 then word [(29, b.fetchSt.toNat), (21, b.fetchWhy.toNat), (0, b.fetchPct.toNat)]
  else 0

/-- The active owner slot: the lowest one that is written and not revoked (R474). -/
def ownerSlot (x : Sec) : Option Nat := (List.range x.owners.length).find? (fun k => !bit x.ownerRev.toNat k)

/-- Registers of the root of trust (R490): zero until the fuses have been read. -/
def readSec (s : State) (o : Nat) : Nat :=
  let x := s.sec
  if !x.public_ then 0
  else if o = 0 then word [(29, x.lifecycle), (27, (ownerSlot x).getD 0), (26, b2n (ownerSlot x).isSome), (25, b2n x.ownerNew.isSome), (21, x.debugSt.toNat),
    (16, min 16 x.sessions.length), (0, ofBits ((List.range 16).filter (fun n => !(x.caks.get [] n).isEmpty)))]
  else if o = 4 then Config.serial.toNat % 2 ^ 32
  else if o = 8 then Config.serial.toNat / 2 ^ 32
  else if 0x10 ≤ o ∧ o < 0x20 then bits x.slotLive.toNat (32 * ((o - 0x10) / 4)) 32
  else if o = 0x20 then x.reports % 2 ^ 32
  else 0

/-- Codes of PWR_STATE.state (R534). -/
def pwrCode : PwrSt → Nat
  | .off => 0
  | .starting => 1
  | .on => 2
  | .pupa => 3
  | .halted => 4
  | .shutdown => 5

/-- Registers of the power shell (R37, R534). -/
def readPwr (s : State) (o : Nat) : Nat :=
  let p := s.pwr
  if o = 0 then word [(29, pwrCode p.st), (28, b2n p.pwrEn), (27, b2n p.faultN), (24, p.lastShut.toNat),
    (0, ofBits ((List.range 20).filter (fun d => (s.die d).on)))]
  else if o = 4 then word [(16, p.volts.toNat), (0, p.amps.toNat)]
  else if o = 8 then word [(16, p.watts.toNat), (0, p.peak.toNat)]
  else if o = 0x10 then p.capW.toNat
  else if o = 0x14 then word [(24, pcapNow s), (0, p.cappedMs.toNat)]
  else if o = 0x18 then word [(16, sbits 16 p.inlet), (0, sbits 16 p.outlet)]
  else if 0x100 ≤ o ∧ o < 0x150 then
    let d := (o - 0x100) / 4
    let k := s.die d
    word [(31, b2n k.calValid), (30, b2n k.trim), (29, b2n k.drift), (28, b2n (bit s.plate.dieFence.toNat d || k.fenced || k.isolated)),
      (16, k.failMask.toNat), (0, k.recal.toNat)]
  else if 0x200 ≤ o ∧ o < 0x480 then
    (match (s.die ((o - 0x200) / 0x20)).sensors[(o - 0x200) % 0x20 / 4]? with
     | some t => word [(31, b2n t.valid), (30, b2n t.stale), (0, sbits 16 t.temp)]
     | none => 0)
  else if 0x500 ≤ o ∧ o < 0x520 then word [(16, (s.die ((o - 0x500) / 4)).droop.toNat)]
  else if 0x600 ≤ o ∧ o < 0x650 then
    let k := s.die ((o - 0x600) / 4)
    word [(16, sbits 16 k.capLim), (0, sbits 16 k.shutLim)]
  else 0

/-- What the register at an offset of a block reads as; zero where no register lies (R540 row 6). -/
def readReg (s : State) (b : Block) (o : Nat) : Nat :=
  match b with
  | .hub => readHub s o
  | .fw => readFw s o
  | .boot => readBoot s o
  | .sec => readSec s o
  | .pwr => readPwr s o
  | .lnk d => readLnk s d o
  | .mem h => readMemReg s h o
  | .cel c => readCel s c o

/-! ## What a read clears (R13) -/

/-- Clears one counter of a context's set. -/
def clearQsum (x i : Nat) (k : Cell) : Cell :=
  let e := k.qsum.get (0, 0, 0, 0, 0) x
  let n := if i = 0 then (0, e.2) else if i = 1 then (e.1, 0, e.2.2) else if i = 2 then (e.1, e.2.1, 0, e.2.2.2)
    else if i = 3 then (e.1, e.2.1, e.2.2.1, 0, e.2.2.2.2) else if i = 4 then (e.1, e.2.1, e.2.2.1, e.2.2.2.1, 0) else e
  { k with qsum := k.qsum.set x n }

/-- The RC fields of a register are cleared by the read. -/
def clearReg (b : Block) (o : Nat) (s : State) : State :=
  match b with
  | .hub =>
    if o = 0xC08 then s.modHub (fun h => { h with hung := 0, rearms := 0 })
    else if o = 0xC34 then s.modHub (fun h => { h with solMis := 0, solSkip := 0 })
    else if o = 0xC44 then s.modHub (fun h => { h with rstCount := 0, redrives := 0 })
    else if 0x20000 ≤ o ∧ o < 0x30000 ∧ (o - 0x20000) % 0x400 = 0x208 then s.modMbox ((o - 0x20000) / 0x400) (fun m => { m with outFull := false })
    else s
  | .fw => if o = 0x104 then s.modHub (fun h => { h with ffDropped := 0, ffOver := 0 }) else s
  | .boot => s
  | .sec => s
  | .pwr =>
    if o = 8 then { s with pwr := { s.pwr with peak := 0 } }
    else if o = 0x14 then { s with pwr := { s.pwr with cappedMs := 0 } }
    else if 0x500 ≤ o ∧ o < 0x520 then s.modDie ((o - 0x500) / 4) (fun d => { d with droop := 0 })
    else s
  | .lnk d =>
    if o = 0 then s.modLink d (fun l => { l with dropN := 0 })
    else if o = 8 then s.modLink d (fun l => { l with lost := 0 })
    else if o = 12 then s.modLink d (fun l => { l with retx := 0 })
    else if o = 16 then s.modLink d (fun l => { l with ceRx := 0, eceRx := 0 })
    else if 0x100 ≤ o ∧ o < 0x100 + 4 * 36 then
      s.modPort ((if d = 17 then 36 else 0) + (o - 0x100) / 4) (fun p => { p with wdog := 0, los := 0 })
    else s
  | .mem h =>
    if o = 0 then s.modHolder h (fun k => { k with poisoned := 0, corrected := 0 })
    else if o = 8 then s.modHolder h (fun k => { k with transient := 0 })
    else s
  | .cel c =>
    if o = 4 then s.modCell c (fun k => { k with abort := 0, lateN := 0 })
    else if o = 8 then s.modCell c (fun k => { k with unc := 0, cor := 0 })
    else if o = 12 then s.modCell c (fun k => { k with dropped := 0, subst := 0 })
    else if 0x2000 ≤ o ∧ o < 0x2800 then s.modCell c (clearQsum ((o - 0x2000) / 0x20) (o % 0x20 / 4))
    else s

/-- A read of LNK_TIME_NS latches the seconds (R319). -/
def latchSec (d : Nat) (s : State) : State := s.modLink d (fun l => { l with secLatch := BitVec.ofNat 48 (fabricNs s / 1000000000) })

/-- The registers that only the operator may read: a mailbox that is not the operator's stays closed to it (R372). -/
def readShut (s : State) (r : Requester) (b : Block) (o : Nat) : Bool :=
  match b with
  | .hub => decide (0x20000 ≤ o) && decide (o < 0x30000) && !mboxRight s r ((o - 0x20000) / 0x400)
  | _ => false

/-- REGISTER_READ_CLEAR: a CSR read answers the value and clears the RC fields. -/
def registerReadClear (r : Requester) (a size : Nat) (s : State) : State :=
  match csrCheck s r a size with
  | .deny st => csrAnswer r a st 0 s
  | .fencedValue v => csrAnswer r a stOk (BitVec.ofNat 32 v) s
  | .go b o =>
    if readShut s r b o then csrAnswer r a stPerm 0 s
    else
      let v := readReg s b o
      let s := clearReg b o s
      let s := match b with | .lnk d => if o = 0x24 then latchSec d s else s | _ => s
      csrAnswer r a stOk (BitVec.ofNat 32 v) s

/-- REGISTER_READ_CLEAR. -/
def execRegisterReadClear (r : Requester) (addr size : Nat) (s : State) : Host.Outcome State Fault Refusal :=
  powered (registerReadClear r addr size) s

/-- LNK_TIME_NS_READ: the nanoseconds of link die l (0 for L0, 1 for L1); the seconds are latched. -/
def execLnkTimeNsRead (r : Requester) (l : Nat) (s : State) : Host.Outcome State Fault Refusal :=
  powered (registerReadClear r (csrBase + 0x800000 + 0x80000 * (l % 2) + 0x24) 4) s

/-! ## What a write does -/

/-- A write of the hub's registers, those with a row of their own apart. -/
def writeHub (r : Requester) (o : Nat) (v : Word) (s : State) : State :=
  let n := v.toNat
  if 0x800 ≤ o ∧ o < 0x900 then (if bit n 25 then s.modCtx ((o - 0x800) / 4) (fun c => { c with semOvf := false }) else s)
  else if o = 0xC00 then (if bit n 31 then s.modHub (fun h => { h with hangValid := false }) else s)
  else if o = 0xC04 then
    let c := n / 65536
    let x := n % 65536
    let s := if 1 ≤ c ∧ c ≤ 60000 then s.modHub (fun h => { h with cycleHold := BitVec.ofNat 16 c }) else s
    if 1 ≤ x ∧ x ≤ 60000 then s.modHub (fun h => { h with crossHold := BitVec.ofNat 16 x }) else s
  else if o = 0xC30 then (if n / 4096 ≤ 1000000 then s.modHub (fun h => { h with solRate := BitVec.ofNat 20 (n / 4096) }) else s)
  else if 0x20000 ≤ o ∧ o < 0x30000 then
    let c := (o - 0x20000) / 0x400
    let i := (o - 0x20000) % 0x400
    if !mboxRight s r c then s
    else if i < 0x100 then s.modMbox c (fun m => { m with inb := patch (slice m.inb 0 256) i (le 4 n) })
    else if i = 0x200 then (if bit n 29 then s.modMbox c (fun m => { m with overrun := false }) else s)
    else s
  else s

/-- A write of the firmware's registers. -/
def writeFw (o : Nat) (v : Word) (s : State) : State :=
  let n := v.toNat
  if o = 0x100 then (if 1 ≤ n / 2 ^ 29 ∧ n / 2 ^ 29 ≤ 4 then s.modHub (fun h => { h with minSev := BitVec.ofNat 3 (n / 2 ^ 29) }) else s)
  else if 0x120 ≤ o ∧ o < 0x130 then
    let i := (o - 0x120) / 4
    s.modHub (fun h => { h with traceEn := BitVec.ofNat 128 (h.traceEn.toNat - bits h.traceEn.toNat (32 * i) 32 * 2 ^ (32 * i) + n * 2 ^ (32 * i)) })
  else if 0x400 ≤ o ∧ o < 0x500 then
    modMolt ((o - 0x400) / 4) (fun m => { m with result := BitVec.ofNat 2 (m.result.toNat &&& (3 - bits n 26 2)) }) s
  else if o = 0xA00 then
    let p := n % 16384
    s.modHub (fun h => { h with profEn := bit n 31, profPer := if 10 ≤ p ∧ p ≤ 10000 then BitVec.ofNat 14 p else h.profPer })
  else s

/-- A write of a link die's registers. -/
def writeLnk (d o : Nat) (v : Word) (s : State) : State :=
  if o = 0x20 ∧ bit v.toNat 27 then s.modLink d (fun l => { l with ppsMis := false }) else s

/-- A write of a holder's registers. -/
def writeMemReg (h o : Nat) (v : Word) (s : State) : State :=
  let n := v.toNat
  let ok := fun (i : Nat) => decide (1 ≤ i) && decide (i ≤ 168)
  if o = 0x10 then
    s.modHolder h (fun k => { k with
      patrolH := if ok (n / 2 ^ 24) then BitVec.ofNat 8 (n / 2 ^ 24) else k.patrolH,
      recheckH := if ok (bits n 16 8) then BitVec.ofNat 8 (bits n 16 8) else k.recheckH, patrolEn := bit n 0 })
  else s

/-- A write of the power shell's registers: PWR_CAP by the operator, and drift_alarm (R37, R534). -/
def writePwr (r : Requester) (o : Nat) (v : Word) (s : State) : State :=
  let n := v.toNat
  if o = 0x10 then
    (if r = .operator ∧ 1000 ≤ n % 65536 ∧ n % 65536 ≤ 3200 then { s with pwr := { s.pwr with capW := BitVec.ofNat 16 (n % 65536) } } else s)
  else if 0x100 ≤ o ∧ o < 0x150 then (if bit n 29 then s.modDie ((o - 0x100) / 4) (fun d => { d with drift := false }) else s)
  else s

/-- A write right that a defining rule keeps for the operator is answered PERMISSION for anyone else (R540 row 7). -/
def writeShut (s : State) (r : Requester) (b : Block) (o : Nat) : Bool :=
  match b with
  | .hub => decide (0x20000 ≤ o) && decide (o < 0x30000) && !mboxRight s r ((o - 0x20000) / 0x400)
  | .pwr => o = 0x10 && decide (r ≠ .operator)
  | .boot => o = 0x30 && decide (r ≠ .operator)
  | _ => false

/-- The register has a row of its own: HUB_Q_DB, HUB_Q_CCONS, HUB_MBOX_SEND, HUB_HEALTH_CMD, BOOT_CTL. -/
def ownRow (b : Block) (o : Nat) : Bool :=
  match b with
  | .hub => o = 0xC24 || (decide (0x100000 ≤ o) && decide (o < 0x140000) && decide (o % 16 < 8))
      || (decide (0x20000 ≤ o) && decide (o < 0x30000) && decide ((o - 0x20000) % 0x400 = 0x204))
  | .boot => o = 0x30
  | _ => false

/-- REGISTER_WRITE: a write of a register without a row of its own. -/
def registerWrite (r : Requester) (a size : Nat) (v : Word) (s : State) : State :=
  match csrCheck s r a size with
  | .deny st => csrAnswer r a st 0 s
  | .fencedValue _ => csrAnswer r a stOk 0 s
  | .go b o =>
    if ownRow b o then s
    else if writeShut s r b o then csrAnswer r a stPerm 0 s
    else
      csrAnswer r a stOk 0 (match b with
        | .hub => writeHub r o v s
        | .fw => writeFw o v s
        | .boot => s
        | .sec => s
        | .pwr => writePwr r o v s
        | .lnk d => writeLnk d o v s
        | .mem h => writeMemReg h o v s
        | .cel _ => s)

/-- REGISTER_WRITE. -/
def execRegisterWrite (r : Requester) (addr size : Nat) (v : Word) (s : State) : Host.Outcome State Fault Refusal :=
  powered (registerWrite r addr size v) s

end Sys2Proof.Machine
end

