-- ==== Sys2Proof/Machine/Fjorum.lean ====
section
/-! DEFINITION. Machine/Fjorum.lean: the packets and the timers of Fjorum: WRITE and READ_REQ, acknowledgement, refusal, flows opening and
closing, peers coming and going, re-admission (R291 to R301, R353 to R355). -/
namespace Sys2Proof.Machine

/-! ## WRITE and READ_REQ (R290 to R292, R296) -/

/-- One region of a context grants the whole range with remote and w, or remote and r (R291). -/
def remoteMay (s : State) (x a n : Nat) (write : Bool) : Bool :=
  match areaOf s a with
  | .context _ => (s.ctx x).grants a n write (!write) false true
  | _ => false

/-- The die whose memory an address names has no power (R527). -/
def memOff (s : State) (a : Nat) : Bool :=
  match areaOf s a with
  | .context h => fenced s h || !(s.die h).on
  | _ => false

/-- The packet carries a BULK or PARITY message of an op. -/
def isBulk (p : FjPkt) (op : Nat) : Bool := decide (2 ≤ p.hdr.cls) && p.hdr.ty = 1 && leAt p.ext 0 1 = op

/-- An earlier packet of the flow is still to come again, so that a message that ends with this one is not delivered yet (R292). -/
def earlierOpen (s : State) (p : FjPkt) : Bool := (rcvFlow s (keyOf p)).reoffer.any (fun q => serLt q p.hdr.psn)

/-- A WRITE message is delivered: what waits for its bytes learns of it (R225, R230, R342, R458, R461). -/
def writeDelivered (x a n : Nat) (s : State) : State :=
  match loadPlace s x a with
  | some (h, i) => chunkArrived h i s
  | none =>
    match s.holders.find? (fun e => e.2.restores.any (fun r => r.chunk.ctx = x && r.chunk.addr = a)) with
    | some e => restoreArrived e.1 a s
    | none =>
      match stagePlace s x a with
      | some p => if (s.ctx x).molt.rebuild.isEmpty then checkMolt x (pieceArrived x p s) else rebuildArrived x p.2.2 s
      | none => moltArrived x a n s

/-- A packet of a WRITE message is refused: for good, the message is not delivered whatever else of it arrives (R292, R296). -/
def rejectWrite (s : State) (p : FjPkt) (code : Nat) : State :=
  if code = 3 || code = 4 then refuse s p code
  else
    let f := rcvFlow s (keyOf p)
    let left := f.broken.filter (fun m => m ≠ p.hdr.msgSeq)
    sendNack (putRcv s (keyOf p) { f with broken := if p.hdr.last then left else left ++ [p.hdr.msgSeq] }) p code

/-- The last packet of a WRITE message has been written: the message is delivered, unless one of its packets was refused (R292). -/
def endWrite (p : FjPkt) (x a n : Nat) (s : State) : State :=
  let f := rcvFlow s (keyOf p)
  if f.broken.contains p.hdr.msgSeq then putRcv s (keyOf p) { f with broken := f.broken.filter (fun m => m ≠ p.hdr.msgSeq) }
  else writeDelivered x a n s

/-- BULK WRITE: a packet of a BULK or PARITY WRITE is checked and its payload written. A payload that a second copy brings is discarded (R225),
and a piece whose staging place still holds the row before it is refused until the place is free (R458). -/
def bulkWrite (p : FjPkt) (s : State) : State :=
  let x := p.hdr.ctx
  let a := leAt p.ext 8 8
  let n := leAt p.ext 4 4
  let o := p.hdr.msgOff
  if !isBulk p 0 then s
  else
    let s := takeRx s p
    if let some e := pktRefusal s p then rejectWrite s p e
    else if decide (o + p.payload.length > n) || (p.hdr.last && o + p.payload.length ≠ n) then rejectWrite s p 6
    else if memOff s a then rejectWrite s p 9
    else if !remoteMay s x a n true then rejectWrite s p 5
    else if p.hdr.last && earlierOpen s p then refuse s p 4
    else
      let staged := match stagePlace s x a with
        | some pl => (s.ctx x).molt.rebuild.isEmpty && !stageFree s x pl
        | none => false
      if staged then refuse s p 4
      else if copyPassed s x a then s
      else
        let w := writeMem s (a + o) p.payload
        if !w.2 then rejectWrite w.1 p 8
        else if p.hdr.last then endWrite p x a n w.1
        else w.1

/-- BULK_WRITE. -/
def execBulkWrite (p : FjPkt) (s : State) : Host.Outcome State Fault Refusal := net (bulkWrite p) s

/-- READ_REQ: the requested bytes go back by a WRITE on the receiver's own flow; a range with a poisoned pair is refused POISONED. -/
def readReq (p : FjPkt) (s : State) : State :=
  let x := p.hdr.ctx
  let a := leAt p.ext 8 8
  let n := leAt p.ext 4 4
  if !isBulk p 1 then s
  else
    let s := takeRx s p
    if let some e := pktRefusal s p then refuse s p e
    else if !p.payload.isEmpty then sendNack s p 6
    else if memOff s a then sendNack s p 9
    else if !remoteMay s x a n false then sendNack s p 5
    else match readMem s a n with
      | none => sendNack (notePoison s a n) p 8
      | some b => sendWrite s (some x) p.hdr.cls p.hdr.src (leAt p.ext 16 8) b .reply

/-- READ_REQ. -/
def execReadReq (p : FjPkt) (s : State) : Host.Outcome State Fault Refusal := net (readReq p) s

/-! ## Peers (R293 to R295, R317, R353, R354) -/

/-- A device is lost: its flows, the collectives with it, the steps, molts and shard requests that need it, an error record (R235, R293,
R295, R343, R416). -/
def peerDown (dev : Nat) (s : State) : State :=
  if (s.peer dev).st = .lost then s
  else
    let d := peerDie s dev
    let inc := (s.peer dev).inc
    let s := losePeer s dev
    let s := logError 0x13 d 0 none stPeerLost (le 2 dev ++ le 4 inc) s
    let s := deliver 65536 (collsLoss dev s)
    let s := (ctxsWith s dev).foldl (fun t x => stepLoss x stPeerLost t) s
    let s := (s.ctxs.filter (fun c => c.2.molt.group.contains dev)).foldl (fun t c => failMolt c.1 stPeerLost t) s
    let s := s.holders.foldl (fun t e => match e.2.load with
      | some v => (v.asked.filter (fun q => (v.srcs.getD q.2 (0xFFFF, 0)).1 = dev)).foldl (fun u q => chunkFailed e.1 q.1 stPeerLost u) t
      | none => t) s
    s.holders.foldl (fun t e => (e.2.restores.filter (fun r => (r.chunk.srcs.getD r.pos (0xFFFF, 0)).1 = dev)).foldl
      (fun u r => restoreFailed e.1 r.chunk.addr stPeerLost u) t) s

/-- A run of re-admission ends without admission: the peer stays LOST (R354). -/
def endReadmit (dev result : Nat) (s : State) : State :=
  match (s.peer dev).readmit with
  | none => s
  | some (_, inc) =>
    ffEvent 0x0125 2 (peerDie s dev) dev none (le 4 inc ++ le 1 result) (s.modPeer dev (fun p => { p with readmit := none }))

/-- Re-admission of a lost peer starts, or starts anew, for an incarnation: step 1 sends GET_VERSION (R353, R354). -/
def startReadmit (dev inc : Nat) (s : State) : State :=
  sendSpdm (s.modPeer dev (fun p => { p with readmit := some (1, inc), tried := inc, nonce := [] })) dev 0x84 [] []

/-- An OPEN, OPEN_ACK or HEARTBEAT with an incarnation from a peer held LOST: it is answered LOST_PEER, and an incarnation higher than the
recorded one and than that of the latest run starts re-admission (R295, R353, R354). -/
def fromLost (p : FjPkt) (inc : Nat) (s : State) : State :=
  let dev := p.hdr.src
  let r := s.peer dev
  let s := sendNack s p 0xA
  if decide (inc > r.inc) && decide (inc > r.tried) then startReadmit dev inc s else s

/-- A packet that carries an incarnation: one below the recorded incarnation is dropped (R294), one above it, from a peer in service, marks
the peer LOST; otherwise the peer is UP and the packet takes effect. -/
def withInc (p : FjPkt) (inc : Nat) (f : State → State) (s : State) : State :=
  let dev := p.hdr.src
  let r := s.peer dev
  if decide (inc < r.inc) then (if r.st = .lost then sendNack s p 0xA else countDrop (peerDie s dev) 8 s)
  else if r.st = .lost then fromLost p inc s
  else if r.st ≠ .unknown && decide (inc > r.inc) then fromLost p inc (peerDown dev s)
  else f (s.modPeer dev (fun q => { q with st := .up, inc := inc, seen := s.clk }))

/-- A valid packet from a peer: its time of silence starts anew, and a SUSPECT peer is UP (R295). -/
def heard (dev : Nat) (s : State) : State :=
  s.modPeer dev (fun p => { p with seen := s.clk, st := if p.st = .suspect then .up else p.st })

/-- A packet from a peer held LOST is answered LOST_PEER; any other takes effect (R295). -/
def fromPeer (p : FjPkt) (f : State → State) (s : State) : State :=
  if (s.peer p.hdr.src).st = .lost then sendNack s p 0xA else f (heard p.hdr.src s)

/-- The link die of the path on which this device answers a flow holds 65,536 receiving flows already (R293). -/
def rcvFull (s : State) (k : FlowKey) : Bool :=
  let d := flowDie s k { path := firstPath s k }
  decide (65536 ≤ s.rcv.length) && !(rcvFlow s k).isOpen
    && decide (65536 ≤ (s.rcv.filter (fun e => e.2.isOpen && flowDie s e.1 { path := firstPath s e.1 } = d)).length)

/-- OPEN: a receiving flow opens, bound to the sender's incarnation, and OPEN_ACK is sent (R293, R294). One that a host may not open is refused
(R314), and one for which there is no room is answered NO_BUFFER (R296). -/
def fjOpen (p : FjPkt) (s : State) : State :=
  if p.hdr.ty ≠ 4 then s
  else if let some e := hostRefusal s p then sendNack (takeRx s p) p e
  else if rcvFull s (keyOf p) then sendNack (takeRx s p) p 4
  else
    let inc := leAt p.ext 0 4
    withInc p inc (fun s => sendBare (putRcv s (keyOf p) { isOpen := true, inc := inc }) (keyOf p) 5 (incExt s) []) (takeRx s p)

/-- OPEN. -/
def execFjOpen (p : FjPkt) (s : State) : Host.Outcome State Fault Refusal := net (fjOpen p) s

/-- OPEN_ACK: an OPENING flow is OPEN and its queued messages go. -/
def openAck (p : FjPkt) (s : State) : State :=
  if p.hdr.ty ≠ 5 then s
  else withInc p (leAt p.ext 0 4) (fun s =>
    let k := keyOf p
    let f := sndFlow s k
    if f.st = .opening then pumpAll (putSnd s k { f with st := .isOpen, held := false, retries := 0 }) k else s) (takeRx s p)

/-- OPEN_ACK. -/
def execOpenAck (p : FjPkt) (s : State) : Host.Outcome State Fault Refusal := net (openAck p) s

/-- CLOSE: the receiving flow is closed and CLOSE_ACK is sent; with no flow, NACK NO_FLOW. -/
def fjClose (p : FjPkt) (s : State) : State :=
  if p.hdr.ty ≠ 6 then s
  else fromPeer p (fun s =>
    if (rcvFlow s (keyOf p)).isOpen then sendBare (putRcv s (keyOf p) {}) (keyOf p) 7 [] [] else sendNack s p 1) (takeRx s p)

/-- CLOSE. -/
def execFjClose (p : FjPkt) (s : State) : Host.Outcome State Fault Refusal := net (fjClose p) s

/-- CLOSE_ACK: a DRAINING flow is CLOSED. Messages queued for it meanwhile open it again. -/
def closeAck (p : FjPkt) (s : State) : State :=
  if p.hdr.ty ≠ 7 then s
  else fromPeer p (fun s =>
    let k := keyOf p
    let f := sndFlow s k
    if f.st ≠ .draining || !f.una.isEmpty then s
    else if f.unsent.isEmpty then putSnd s k { f with st := .closed }
    else
      let g := { f with
        st := .opening, psn := 0, path := firstPath s k, retries := 0, srtt := none, rto := s.plate.rtoInit * 1000, alpha := 0xFFFF,
        inc := 0, lastCut := 0, sentAt := [], refused := [], budget := [], tried := [], sacked := [] }
      sendBare (putSnd s k { g with rate := flowSubRate s k g }) k 4 (incExt s) []) (takeRx s p)

/-- CLOSE_ACK. -/
def execCloseAck (p : FjPkt) (s : State) : Host.Outcome State Fault Refusal := net (closeAck p) s

/-- FLOW_CLOSE. -/
def execFlowClose (f : FlowKey) (s : State) : Host.Outcome State Fault Refusal := net (flowClose f) s

/-- OPEN_RETRY: 10 ms without an OPEN_ACK: OPEN is sent again, and after five retries the queued messages complete TIMEOUT (R293). A flow held
in OPENING does not count retries (R353). -/
def openRetry (k : FlowKey) (s : State) : State :=
  let f := sndFlow s k
  if f.st ≠ .opening then s
  else if f.held then sendBare s k 4 (incExt s) []
  else if f.retries ≥ 5 then failFlow s k stTimeout
  else sendBare (putSnd s k { f with retries := f.retries + 1 }) k 4 (incExt s) []

/-- OPEN_RETRY. -/
def execOpenRetry (f : FlowKey) (s : State) : Host.Outcome State Fault Refusal := net (openRetry f) s

/-- OPENING_WAIT_TIMEOUT: 10 s in OPENING held by LOST_PEER (R353). -/
def openingWait (k : FlowKey) (s : State) : State :=
  if (sndFlow s k).st = .opening && (sndFlow s k).held then failFlow s k stTimeout else s

/-- OPENING_WAIT_TIMEOUT. -/
def execOpeningWaitTimeout (f : FlowKey) (s : State) : Host.Outcome State Fault Refusal := net (openingWait f) s

/-- PEER_SUSPECT: three heartbeat intervals without a valid packet (R295). -/
def peerSuspect (dev : Nat) (s : State) : State :=
  let r := s.peer dev
  if r.st ≠ .up then s
  else ffEvent 0x0120 2 (peerDie s dev) dev none (le 4 (usOf (s.clk - r.seen))) (s.modPeer dev (fun p => { p with st := .suspect }))

/-- PEER_SUSPECT. -/
def execPeerSuspect (dev : Nat) (s : State) : Host.Outcome State Fault Refusal := serving (peerSuspect dev) s

/-- PEER_LOST: peer_timeout without a valid packet (R295). -/
def peerLost (dev : Nat) (s : State) : State :=
  if (s.peer dev).st = .up || (s.peer dev).st = .suspect then peerDown dev s else s

/-- PEER_LOST. -/
def execPeerLost (dev : Nat) (s : State) : Host.Outcome State Fault Refusal := net (peerLost dev) s

/-- READMISSION_TIMEOUT: the run passes 10 s, or a step gets no answer in 2 s (R354). -/
def execReadmissionTimeout (dev : Nat) (s : State) : Host.Outcome State Fault Refusal := serving (endReadmit dev 3) s

/-- READMISSION_REQUEST: the operator asks for a new run for a peer held LOST (R354). -/
def readmissionRequest (session dev : Nat) (s : State) : State :=
  let r := s.peer dev
  if !isOperator s session then answer 354 stPerm [] s
  else if r.st ≠ .lost || r.readmit.isSome then answer 354 stConflict [] s
  else answer 354 stOk [] (startReadmit dev (max r.inc r.tried) s)

/-- READMISSION_REQUEST. -/
def execReadmissionRequest (session dev : Nat) (s : State) : Host.Outcome State Fault Refusal := serving (readmissionRequest session dev) s

/-! ## Heartbeats (R297, R426) -/

/-- Waits of this device on another one: the clock at which they began, and the marker (R426). A collective waits on the first member from
which nothing has come, a barrier on the first member whose vote has not come. -/
def waits (s : State) : List (Nat × Marker) :=
  let me := s.plate.devIndex
  let colls := s.colls.filterMap (fun k =>
    let c := s.ctx k.x
    (k.members.find? (fun d => d ≠ me && !k.parts.any (fun e => e.1 = d) && !k.counts.any (fun e => e.1 = d))).map (fun d =>
      (k.since, ({ jobTag := c.jobTag, dev := d, cls := 1, phase := phaseCode c.sl.phase, step := c.sl.step } : Marker))))
  let votes := s.ctxs.filterMap (fun e =>
    let sl := e.2.sl
    if sl.phase ≠ .commit || sl.decision.isSome then none
    else match e.2.job with
      | none => none
      | some j =>
        (j.members.zipIdx.find? (fun m => m.1 ≠ me && !(votesNow sl).any (fun v => v.member = m.2))).map (fun m =>
          (sl.phaseClk, ({ jobTag := e.2.jobTag, dev := m.1, cls := 0, phase := phaseCode sl.phase, step := sl.step } : Marker))))
  sortBy (fun a b => decide (a.1 < b.1)) (colls ++ votes)

/-- The 16 bytes of a marker. -/
def markerBytes (m : Marker) : Bytes := le 4 m.jobTag ++ le 2 m.dev ++ le 1 m.cls ++ le 1 m.phase ++ le 8 m.step

/-- hub_stalled: hub_beat has not advanced for 10 ms. -/
def hubStalled (s : State) : Bool := decide (s.clk - s.hub.beatClk ≥ 10 * clkMs)

/-- The 48 bytes of a heartbeat. -/
def beatBytes (s : State) : Bytes :=
  let ms := ((waits s).take 2).flatMap (fun w => markerBytes w.2)
  le 4 s.boot.incarn ++ le 2 (score s.hub) ++ le 1 (healthCode s.hub.health) ++ le 1 (b2n (hubStalled s)) ++ le 4 s.hub.beat.toNat ++ zeros 4
    ++ ms ++ zeros (32 - ms.length)

/-- HEARTBEAT_TIMER: nothing has gone to an UP or SUSPECT peer for heartbeat_int. -/
def heartbeatTimer (dev : Nat) (s : State) : State :=
  if (s.peer dev).st = .up || (s.peer dev).st = .suspect then sendBare s { peer := dev, cls := 0, flow := 0 } 8 [] (beatBytes s) else s

/-- HEARTBEAT_TIMER. -/
def execHeartbeatTimer (dev : Nat) (s : State) : Host.Outcome State Fault Refusal := serving (heartbeatTimer dev) s

/-- The marker in 16 bytes of a heartbeat. -/
def markerOf (b : Bytes) : Marker := { jobTag := leAt b 0 4, dev := leAt b 4 2, cls := leAt b 6 1, phase := leAt b 7 1, step := leAt b 8 8 }

/-- HEARTBEAT: the peer is UP and its health, beat and markers are recorded. -/
def heartbeat (p : FjPkt) (s : State) : State :=
  let b := p.payload
  if p.hdr.ty ≠ 8 then s
  else withInc p (leAt b 0 4) (fun s =>
    s.modPeer p.hdr.src (fun q => { q with
      health := leAt b 4 2, hstate := leAt b 6 1, stalled := bit (leAt b 7 1) 0, beat := leAt b 8 4,
      markers := [markerOf (slice b 16 16), markerOf (slice b 32 16)].filter (fun m => m.jobTag ≠ 0) })) (takeRx s p)

/-- HEARTBEAT. -/
def execHeartbeat (p : FjPkt) (s : State) : Host.Outcome State Fault Refusal := net (heartbeat p) s

/-! ## Acknowledgement and congestion (R298, R299) -/

/-- Clocks as nanoseconds. -/
def nsOf (c : Nat) : Nat := c * 5 / 3

/-- The new smoothed round-trip time. -/
def smooth (old : Option Nat) (sample : Nat) : Nat :=
  match old with
  | none => sample
  | some r => if r ≤ sample then r + (sample - r) / 8 else r - (r - sample) / 8

/-- The retransmission timeout of a round-trip time. -/
def rtoOf (s : State) (srtt : Nat) : Nat := max (s.plate.rtoMin * 1000) (min (2 * srtt) (s.plate.rtoMax * 1000))

/-- The response to an ACK with ece. -/
def cutRate (s : State) (f : SndFlow) : SndFlow :=
  let alpha := min (f.alpha - f.alpha / 16 + 0x1000) 0xFFFF
  let f := { f with alpha := alpha, eceSeen := true }
  if nsOf s.clk - f.lastCut ≥ f.srtt.getD 0 then
    { f with rate := max (f.rate - f.rate * alpha / 2 ^ 17) s.plate.rateMin, lastCut := nsOf s.clk, inc := 0 }
  else f

/-- Retires the packets of a flow below `low` and marks those of the SACK list as received; gives the PSNs that are new among both. A packet
that a SACK shows stays with the sender until ack_psn passes it, since the receiver may still refuse it (R289, R296). -/
def retire (k : FlowKey) (low : Nat) (sack : List Nat) (s : State) : State × List Nat :=
  let f := sndFlow s k
  let hit := fun (q : Nat) => serLt q low || sack.contains q
  let new := (f.una.filter (fun p => hit p.hdr.psn && !f.sacked.contains p.hdr.psn)).map (fun p => p.hdr.psn)
  (putSnd s k { f with
    una := f.una.filter (fun p => !serLt p.hdr.psn low), refused := f.refused.filter (fun q => !hit q),
    sacked := (f.sacked ++ new.filter (fun q => !f.sacked.contains q)).filter (fun q => !serLt q low),
    budget := f.budget.filter (fun e => !hit e.1), sentAt := f.sentAt.filter (fun e => !serLt e.1 low),
    tried := f.tried.filter (fun e => !hit e.1) }, new)

/-- The PSNs of a SACK bitmap. -/
def sackOf (p : FjPkt) : List Nat := (setBits (leAt p.ext 0 8) 64).map (fun i => (p.hdr.ackPsn + 1 + i) % 2 ^ 32)

/-- ACK: packets are retired, the timeout follows the round-trip time, ece cuts the rate, a packet with three later ones received is sent
again, and the window moves (R298, R299). -/
def ack (p : FjPkt) (s : State) : State :=
  if p.hdr.ty ≠ 2 then s
  else fromPeer p (fun s =>
    let k := keyOf p
    let f := sndFlow s k
    if f.st = .closed then sendNack s p 1
    else
      let busy := !f.una.isEmpty
      let sack := sackOf p
      let r := retire k p.hdr.ackPsn sack s
      let s := r.1
      let sent := r.2.filterMap (fun q => getKey f.sentAt q)
      let g := sndFlow s k
      let g := if sent.isEmpty then g else
        let rtt := smooth g.srtt (nsOf (s.clk - sent.foldl max 0))
        { g with srtt := some rtt, rto := rtoOf s rtt }
      let s := if p.hdr.ece then (putSnd s k (cutRate s g)).modLink (peerDie s p.hdr.src) (fun l => { l with eceRx := bump l.eceRx 1 }) else putSnd s k g
      let late := g.una.filter (fun q => !g.refused.contains q.hdr.psn && !g.sacked.contains q.hdr.psn && decide (3 ≤ (sack.filter (fun n =>
        serLt q.hdr.psn n && decide ((getKey g.sentAt q.hdr.psn).getD 0 ≤ (getKey g.sentAt n).getD 0))).length))
      let s := late.foldl (fun t q => resend t k q.hdr.psn) s
      let s := reapMsgs s k
      if busy then closeIfDone k (pumpAll s k) else s) (takeRx s p)

/-- ACK. -/
def execAck (p : FjPkt) (s : State) : Host.Outcome State Fault Refusal := net (ack p) s

/-- The status with which a message ends when it is refused with a code (R296). -/
def nackStatus : Nat → Nat
  | 2 => stConflict
  | 5 => stPerm
  | 6 => stBad
  | 7 => stConflict
  | 8 => stMem
  | 9 => stOff
  | _ => stOk

/-- NACK: acted on by its code (R296, R353). -/
def nack (p : FjPkt) (s : State) : State :=
  if p.hdr.ty ≠ 3 then s
  else fromPeer p (fun s =>
    let k := keyOf p
    let f := sndFlow s k
    let code := leAt p.ext 0 1
    let up := (s.peer p.hdr.src).st = .up || (s.peer p.hdr.src).st = .suspect
    if code = 1 || code = 0xA then
      if up then peerDown p.hdr.src s
      else if code = 0xA && f.st = .opening then putSnd s k { f with held := true } else s
    else if code = 3 || code = 4 then
      if f.una.any (fun q => q.hdr.psn = p.hdr.psn) && !f.refused.contains p.hdr.psn then
        putSnd s k { f with refused := f.refused ++ [p.hdr.psn], sacked := f.sacked.filter (fun q => q ≠ p.hdr.psn) } else s
    else if nackStatus code = stOk then s
    else match f.una.find? (fun q => q.hdr.psn = p.hdr.psn) with
      | some q => dropMsg s k q.hdr.msgSeq (nackStatus code)
      | none => dropMsg s k p.hdr.msgSeq (nackStatus code)) (takeRx s p)

/-- NACK. -/
def execNack (p : FjPkt) (s : State) : Host.Outcome State Fault Refusal := net (nack p) s

/-- NACK_RESEND: the refused packets of a message are sent again after their delay, outside the budget (R296). -/
def nackResend (k : FlowKey) (seq : Nat) (s : State) : State :=
  let f := sndFlow s k
  let qs := (f.una.filter (fun q => q.hdr.msgSeq = seq && f.refused.contains q.hdr.psn)).map (fun q => q.hdr.psn)
  qs.foldl (fun t n => resendFree t k n)
    (putSnd s k { f with refused := f.refused.filter (fun q => !qs.contains q), sentAt := qs.foldl (fun l n => putKey l n s.clk) f.sentAt })

/-- NACK_RESEND. -/
def execNackResend (f : FlowKey) (msgSeq : Nat) (s : State) : Host.Outcome State Fault Refusal := net (nackResend f msgSeq) s

/-- RETRANSMISSION_TIMEOUT: the rate halves, the timeout doubles and the packet is sent again. A packet that waits for a resend after a refusal
(R296), or that a SACK shows as received (R298), has no timer. -/
def retxTimeout (k : FlowKey) (psn : Nat) (s : State) : State :=
  let f := sndFlow s k
  if !f.una.any (fun q => q.hdr.psn = psn) || f.refused.contains psn || f.sacked.contains psn then s
  else resend (putSnd s k { f with rto := min (2 * f.rto) (s.plate.rtoMax * 1000), rate := max (f.rate / 2) s.plate.rateMin, inc := 0 }) k psn

/-- RETRANSMISSION_TIMEOUT. -/
def execRetransmissionTimeout (f : FlowKey) (psn : Nat) (s : State) : Host.Outcome State Fault Refusal := net (retxTimeout f psn) s

/-- ACK_TIMER: 8 µs after an unacknowledged packet. -/
def ackTimer (k : FlowKey) (s : State) : State := if decide (0 < (rcvFlow s k).unacked) then sendAck s k else s

/-- ACK_TIMER. -/
def execAckTimer (f : FlowKey) (s : State) : Host.Outcome State Fault Refusal := serving (ackTimer f) s

/-- RATE_INCREASE: t_inc has passed; without an ACK with ece in it, alpha decays and the rate rises (R299). -/
def rateIncrease (k : FlowKey) (s : State) : State :=
  let f := sndFlow s k
  if f.st = .closed then s
  else if f.eceSeen then putSnd s k { f with eceSeen := false }
  else
    let inc := min (f.inc + 1) 255
    putSnd s k { f with
      alpha := f.alpha - f.alpha / 16, inc := inc,
      rate := min (f.rate + if inc > 5 then 5 * s.plate.ai else s.plate.ai) (flowSubRate s k f) }

/-- RATE_INCREASE. -/
def execRateIncrease (f : FlowKey) (s : State) : Host.Outcome State Fault Refusal := serving (rateIncrease f) s

/-! ## Packets that arrive (R275, R288, R289, R292, R294, R298, R314) -/

/-- A field is out of range for the class: NACK BAD_HEADER (R288, R290, R296, R312). The target of a control message differs from the device
only in what a bridge relays. -/
def outOfRange (s : State) (p : FjPkt) : Bool :=
  decide (p.hdr.flow ≥ 4096) ||
  (decide (p.hdr.cls < 2) && (p.hdr.msgOff ≠ 0 || !p.hdr.first || !p.hdr.last)) ||
  (decide (2 ≤ p.hdr.cls) && decide (leAt p.ext 0 1 > 1)) ||
  (p.hdr.cls = 0 && (leAt p.payload 0 2 = 0 || decide (leAt p.payload 0 2 > 8)
    || (leAt p.payload 2 2 ≠ s.plate.devIndex && s.plate.bridge ≠ s.plate.devIndex)))

/-- Delivers the packets buffered in order. -/
def release : Nat → FlowKey → State → State
  | 0, _, s => s
  | n + 1, k, s =>
    let f := rcvFlow s k
    match f.buffer.find? (fun p => p.hdr.psn = f.ackPsn) with
    | none => s
    | some p => release n k (putRcv { s with rxq := s.rxq ++ [p] } k
        { f with ackPsn := serNext f.ackPsn, got := f.got.filter (fun q => q ≠ f.ackPsn), buffer := f.buffer.erase p })

/-- An ACK after every fourth packet and on a packet with ack_req. -/
def countArrival (p : FjPkt) (k : FlowKey) (s : State) : State :=
  let f := rcvFlow s k
  let s := putRcv s k { f with unacked := f.unacked + 1 }
  if decide (4 ≤ f.unacked + 1) || p.hdr.ackReq then sendAck s k else s

/-- A DATA packet with CE is counted, and the next ACK of its flow carries ece (R279). -/
def noteCe (p : FjPkt) (ce : Bool) (l : Nat) (s : State) : State :=
  if !ce || p.hdr.ty ≠ 1 then s
  else
    let s := s.modLink (dieOfLane l) (fun d => { d with ceRx := bump d.ceRx 1 })
    if (rcvFlow s (keyOf p)).isOpen then putRcv s (keyOf p) { rcvFlow s (keyOf p) with ece := true } else s

/-- A DATA packet of an open flow: duplicates are acknowledged again, packets up to 256 ahead are buffered, and those in order are delivered. -/
def dataArrives (p : FjPkt) (s : State) : State :=
  let k := keyOf p
  let f := rcvFlow s k
  let n := p.hdr.psn
  if f.reoffer.contains n then countArrival p k (putRcv { s with rxq := s.rxq ++ [p] } k { f with reoffer := f.reoffer.erase n })
  else if serLt n f.ackPsn || f.got.contains n then sendAck (putRcv s k f) k
  else if (n + 2 ^ 32 - f.ackPsn) % 2 ^ 32 > 256 then putRcv s k f
  else countArrival p k (release 257 k (putRcv s k { f with got := f.got ++ [n], buffer := f.buffer ++ [p] }))

/-- An SPDM message of a peer held LOST whose re-admission runs (R354, log entry 103). -/
def fromReadmit (s : State) (p : FjPkt) : Bool := (s.peer p.hdr.src).st = .lost && (s.peer p.hdr.src).readmit.isSome && isCtl p 7

/-- A Fjorum packet arrives on a sub-port of a device in service. -/
def packetArrives (b : Bytes) (ce : Bool) (l : Nat) (s : State) : State :=
  match pktOf b with
  | none => countDrop (dieOfLane l) 4 s
  | some p =>
    if p.hdr.dst ≠ s.plate.devIndex || !extFits p || !extClean p then countDrop (dieOfLane l) 4 s
    else if p.hdr.ty ≠ 1 || fromReadmit s p then { s with rxq := s.rxq ++ [p] }
    else fromPeer p (fun s =>
      let k := keyOf p
      if let some e := hostRefusal s p then sendNack s p e
      else if !(rcvFlow s k).isOpen then sendNack s p 1
      else if outOfRange s p then
        let s := sendNack s p 6
        let q := rcvFlow s k
        if p.hdr.psn = q.ackPsn then release 257 k (putRcv s k { q with ackPsn := serNext q.ackPsn }) else s
      else
        let busy := !(sndFlow s k).una.isEmpty
        let s := (retire k p.hdr.ackPsn [] s).1
        let s := if busy then closeIfDone k (pumpAll (reapMsgs s k) k) else s
        dataArrives p s) (noteCe p ce l s)

end Sys2Proof.Machine
end

