-- ==== Sys2Proof/Machine/Ether.lean ====
section
/-! DEFINITION. Machine/Ether.lean: the sub-ports: received frames, priority flow control, ARP, Neighbor Discovery and ICMP, MACsec with its key
agreement, PTP and 1PPS, and links that come and go (R25, R26, R271 to R287, R301). -/
namespace Sys2Proof.Machine

/-! ## Received frames (R275, R277, R283, R285, R287) -/

/-- What MACsec lets through: nothing, or the drop reason; `none` lets the frame in (R284 to R287). A frame without protection on a sub-port
that secures everything, and one under an association number that has no key, fail the ICV check. -/
def secDrop (s : State) (l : Nat) (fr : Frame) : Option Nat :=
  let p := s.port l
  match fr.body with
  | .mka => none
  | .macControl => none
  | _ =>
    match fr.sec with
    | .unsecured => if s.plate.macsec = 0 || (s.plate.macsec = 1 && !p.secured) then none else some 2
    | .secured an icv fresh =>
      if s.plate.macsec = 0 || !((p.sa.map (·.an) = some an) || (p.oldSa.map (·.an) = some an)) then some 2
      else if !icv then some 2
      else if !fresh then some 3
      else none

/-- The first frame under a new secure association has arrived: the old one will age out (R286). -/
def noteSa (l : Nat) (fr : Frame) (s : State) : State :=
  match fr.sec with
  | .secured an _ _ => s.modPort l (fun p => if p.oldSa.isSome && p.sa.map (·.an) = some an then { p with newSeen := true } else p)
  | .unsecured => s

/-- Sends a PFC frame for one priority (R278). -/
def sendPfc (l pri quanta : Nat) (s : State) : State := s.emit (.frame l 1 [2 ^ pri, quanta] [])

/-- Whether the receive buffer of a lossless priority has passed its XOFF threshold is the n-th free choice (log entry 46): XOFF goes out. -/
def maybeXoff (l pri : Nat) (s : State) : State :=
  let r := ((s.port l).pris[pri]?).getD {}
  if !bit s.plate.pfcMask.toNat pri || r.xoff then s
  else
    let c := takeBool s
    if c.1 then sendPfc l pri 0xFFFF (c.2.modPort l (fun k => { k with pris := modAt k.pris pri (fun q => { q with xoff := true }) })) else c.2

/-- The priority by which a received frame is classified (R277). -/
def classOf (s : State) (fr : Frame) : Nat :=
  if s.plate.vlanEn then fr.pcp.getD 0
  else if fr.dscp = 56 then 7 else if fr.dscp = 48 then 6 else if fr.dscp = 26 then 3 else if fr.dscp = 18 then 2 else if fr.dscp = 10 then 1 else 0

/-- FRAME_RECEIVE: a frame is checked, classified, and delivered or dropped. The frames that have rows of their own take effect there. -/
def frameReceive (l : Nat) (fr : Frame) (s : State) : State :=
  let p := s.port l
  let d := dieOfLane l
  if !p.present || !p.linkUp || fenced s d || (s.link d).resetting then s
  else if !fr.fcsOk || decide (fr.len > 9216) then countDrop d 1 s
  else match secDrop s l fr with
    | some why => countDrop d why s
    | none =>
      let s := noteSa l fr s
      match fr.body with
      | .macControl => s
      | .mka => s
      | _ =>
        let s := maybeXoff l (classOf s fr) s
        match fr.body with
        | .ipFragment => countDrop d 6 s
        | .udpOther ok => if ok then s else countDrop d 5 s
        | .ptp _ => if (s.link d).ptpLane.toNat = l then s else countDrop d 9 s
        | .fjorum ok ce b =>
          if !ok then countDrop d 5 s
          else if s.pwr.st = .on then packetArrives b ce l s else s
        | _ => s

/-- FRAME_RECEIVE. -/
def execFrameReceive (l : Nat) (fr : Frame) (s : State) : Host.Outcome State Fault Refusal :=
  powered (fun t => deliver 65536 (frameReceive l fr t)) s

/-! ## Priority flow control (R278) -/

/-- Applies `f` to a priority of a sub-port. -/
def modPri (l pri : Nat) (f : Pri → Pri) (s : State) : State := s.modPort l (fun k => { k with pris := modAt k.pris pri f })

/-- Priority i of a sub-port. -/
def priOf (s : State) (l pri : Nat) : Pri := ((s.port l).pris[pri]?).getD {}

/-- Traffic of a latency-critical context (R300). -/
def OutMsg.isLc : OutMsg → Bool
  | .packet _ _ _ p => p.hdr.lc
  | _ => false

/-- The bytes that a waiting frame counts in the deficit round robin: those of its packet (log entry 87). -/
def OutMsg.size : OutMsg → Nat
  | .packet _ _ _ p => (pktBytes p).length
  | _ => 64

/-- The frames of a class that its deficit lets go, in order, and what then remains: frames and deficit. -/
def takeDeficit : Nat → List OutMsg → List OutMsg × List OutMsg × Nat
  | d, [] => ([], [], d)
  | d, m :: r =>
    if m.size ≤ d then
      let t := takeDeficit (d - m.size) r
      (m :: t.1, t.2.1, t.2.2)
    else ([], m :: r, d)

/-- One turn of every class in order, each with its weight's quantum of 9,216 bytes (log entry 87): the frames that leave with their priority, and
the classes with what remains to them. A class with nothing left loses its deficit. -/
def drrTurn : List (Nat × Nat × Nat × List OutMsg) → List (Nat × OutMsg) × List (Nat × Nat × Nat × List OutMsg)
  | [] => ([], [])
  | (pri, w, d, q) :: r =>
    let t := takeDeficit (d + 9216 * w) q
    let u := drrTurn r
    (t.1.map (fun m => (pri, m)) ++ u.1, (pri, w, if t.2.1.isEmpty then 0 else t.2.2, t.2.1) :: u.2)

/-- Deficit weighted round robin until nothing waits (R300). -/
def drr : Nat → List (Nat × Nat × Nat × List OutMsg) → List (Nat × OutMsg)
  | 0, _ => []
  | n + 1, cs => if cs.all (fun c => c.2.2.2.isEmpty) then [] else let t := drrTurn cs; t.1 ++ drr n t.2

/-- The order in which frames that wait on a sub-port leave (R300): PTP, then CONTROL and the frames of its priority, strictly, then COLLECTIVE,
BULK and PARITY by deficit weighted round robin with the dwrr weights, then any other priority; within a class those of latency-critical contexts
first. -/
def serveOrder (s : State) (waiting : Nat → List OutMsg) : List (Nat × OutMsg) :=
  let q := fun (i : Nat) => (waiting i).filter (·.isLc) ++ (waiting i).filter (fun m => !m.isLc)
  let all := fun (i : Nat) => (q i).map (fun m => (i, m))
  all 7 ++ all 6
    ++ drr ((q 3).length + (q 2).length + (q 1).length)
        ([3, 2, 1].zipIdx.map (fun e => (e.1, (s.plate.dwrr[e.2]?).getD 1, 0, q e.1)))
    ++ all 5 ++ all 4 ++ all 0

/-- Priorities are no longer paused: the frames that waited leave, in the order in which the sub-port serves its classes (R300). -/
def unpauseAll (l : Nat) (pris : List Nat) (s : State) : State :=
  (serveOrder s (fun i => if pris.contains i then (priOf s l i).held else [])).foldl (fun t e => sendFrame l e.1 e.2 t)
    (pris.foldl (fun t i => modPri l i (fun q => { q with paused := false, quanta := 0, held := [] }) t) s)

/-- A priority is no longer paused. -/
def unpause (l pri : Nat) (s : State) : State := unpauseAll l [pri] s

/-- PFC_XON: below the XON threshold quanta 0 are sent. -/
def pfcXon (l pri : Nat) (s : State) : State :=
  if (priOf s l pri).xoff then sendPfc l pri 0 (modPri l pri (fun q => { q with xoff := false }) s) else s

/-- PFC_XON. -/
def execPfcXon (l pri : Nat) (s : State) : Host.Outcome State Fault Refusal := powered (pfcXon l pri) s

/-- PFC_REFRESH: an XOFF in force is sent again. -/
def pfcRefresh (l pri : Nat) (s : State) : State := if (priOf s l pri).xoff then sendPfc l pri 0xFFFF s else s

/-- PFC_REFRESH. -/
def execPfcRefresh (l pri : Nat) (s : State) : Host.Outcome State Fault Refusal := powered (pfcRefresh l pri) s

/-- PFC_FRAME: each lossless priority named is paused for its quanta, or no longer paused with quanta 0. Priorities that the watchdog does
not honour stay as they are. -/
def pfcFrame (l mask : Nat) (quanta : List Nat) (s : State) : State :=
  if !(s.port l).linkUp then s
  else
    let named := (List.range 8).filter (fun i => bit mask i && bit s.plate.pfcMask.toNat i)
    unpauseAll l (named.filter (fun i => quanta.getD i 0 = 0))
      ((named.filter (fun i => quanta.getD i 0 ≠ 0)).foldl (fun t i => modPri l i (fun r => { r with paused := true, quanta := quanta.getD i 0 }) t) s)

/-- PFC_FRAME. -/
def execPfcFrame (l mask : Nat) (quanta : List Nat) (s : State) : Host.Outcome State Fault Refusal := powered (pfcFrame l mask quanta) s

/-- PAUSE_EXPIRY: the quanta have run out. -/
def pauseExpiry (l pri : Nat) (s : State) : State := if (priOf s l pri).paused then unpause l pri s else s

/-- PAUSE_EXPIRY. -/
def execPauseExpiry (l pri : Nat) (s : State) : Host.Outcome State Fault Refusal := powered (pauseExpiry l pri) s

/-- PFC_WDOG: a priority paused for pfc_wdog: PAUSE is not honoured for the next pfc_wdog, and the frames held are dropped and counted. -/
def pfcWdog (l pri : Nat) (s : State) : State :=
  let r := priOf s l pri
  let d := dieOfLane l
  if !r.paused then s
  else
    let s := modPri l pri (fun q => { q with ignoreAt := some s.clk, held := [], wdropped := q.wdropped + q.held.length }) s
    let s := s.modPort l (fun k => { k with wdog := bump k.wdog 1 })
    let s := if r.held.isEmpty then s else s.modLink d (fun k => { k with dropWhy := 7, dropN := bump k.dropN r.held.length })
    ffEvent 0x0124 3 d l none (le 1 pri) s

/-- PFC_WDOG. -/
def execPfcWdog (l pri : Nat) (s : State) : Host.Outcome State Fault Refusal := powered (pfcWdog l pri) s

/-! ## ARP, Neighbor Discovery, ICMP (R276) -/

/-- The sub-port may carry frames that are secured (R285). -/
def mayTalk (s : State) (l : Nat) : Bool :=
  (s.port l).present && (s.port l).linkUp && (!needsSa s l || (s.port l).sa.isSome)

/-- An address is one of a sub-port's own. -/
def ownAddr (s : State) (l : Nat) (a : Bytes) : Bool := s.plate.addrs.any (fun e => e.1 = l && e.2 = a)

/-- ARP_REQUEST for an IPv4 address: answered to the asker. -/
def arpRequest (l ip mac : Nat) (s : State) : State :=
  if mayTalk s l && ownAddr s l (be 4 ip) then sendFrame l 6 (.frame l 2 [ip, mac] []) s else s

/-- ARP_REQUEST. -/
def execArpRequest (l ip mac : Nat) (s : State) : Host.Outcome State Fault Refusal := powered (arpRequest l ip mac) s

/-- NEIGHBOR_SOLICITATION for an IPv6 address: answered to the asker. -/
def neighborSolicitation (l ip mac : Nat) (s : State) : State :=
  if mayTalk s l && ownAddr s l (be 16 ip) then sendFrame l 6 (.frame l 3 [ip, mac] []) s else s

/-- NEIGHBOR_SOLICITATION. -/
def execNeighborSolicitation (l ip mac : Nat) (s : State) : Host.Outcome State Fault Refusal := powered (neighborSolicitation l ip mac) s

/-- ECHO_REQUEST to an address of the sub-port: answered with the same data, at most 100 times a second. -/
def echoRequest (l : Nat) (v6 : Bool) (ip : Nat) (data : Bytes) (s : State) : State :=
  let p := s.port l
  let sec := s.clk / clkS
  let n := if p.echoSec = sec then p.echoes else 0
  if !mayTalk s l || !ownAddr s l (be (if v6 then 16 else 4) ip) || decide (n ≥ 100) then s
  else sendFrame l 6 (.frame l 4 [b2n v6, ip] data) (s.modPort l (fun k => { k with echoes := n + 1, echoSec := sec }))

/-- ECHO_REQUEST. -/
def execEchoRequest (l : Nat) (v6 : Bool) (ip : Nat) (data : Bytes) (s : State) : Host.Outcome State Fault Refusal :=
  powered (echoRequest l v6 ip data) s

/-! ## MACsec key agreement (R284 to R286, R489) -/

/-- The CAK of a sub-port; none when its slot is empty (R489). -/
def cakOf (s : State) (l : Nat) : Option Bytes :=
  match s.sec.caks.get [] (s.plate.cakSlot.getD l 0) with
  | [] => none
  | k => some k

/-- Installs a secure association: the one in use stays acceptable until it ages out. -/
def installSa (l an key : Nat) (s : State) : State :=
  s.modPort l (fun p => if p.sa.map (·.key) = some key then p else { p with oldSa := p.sa, sa := some { an := an, key := key }, newSeen := false, secured := true })

/-- An MKA message goes out (EtherType 0x888E, never secured) under priority 6 (R277, R284). -/
def sendMka (l : Nat) (fields : List Nat) (s : State) : State := sendFrame l 6 (.frame l 5 fields []) s

/-- The key server draws a SAK, sends it and installs it under the next association number. -/
def newSak (l : Nat) (s : State) : State :=
  let d := takeDraw s
  let an := match (s.port l).sa with | some a => (a.an + 1) % 4 | none => 0
  sendMka l [1, an, d.1.toNat] (installSa l an d.1.toNat d.2)

/-- Frames held back for want of a secure association can go on other paths: flows on a sub-port that cannot carry them change path (R301). -/
def movePaths (l why : Nat) (s : State) : State :=
  s.snd.foldl (fun t e =>
    let k := e.1
    let f := sndFlow t k
    match (pathSet t k.peer)[f.path]? with
    | some (m, _) =>
      if m = l && f.st ≠ .closed then
        match pathOf t k.peer f.path with
        | some (i, _) =>
          if i = f.path then t
          else ffTrace 0x000A (dieOfLane l) k.peer none [BitVec.ofNat 8 f.path, BitVec.ofNat 8 i, BitVec.ofNat 8 why]
            (putSnd t k { f with path := i, budget := [], tried := [] })
        | none => t
      else t
    | none => t) s

/-- MKA_FRAME: a message that verifies under the sub-port's CAK keeps the partner live; a SAK from the key server is installed, and this
device, elected key server, sends the first one. -/
def mkaFrame (l : Nat) (m : MkaMsg) (s : State) : State :=
  let p := s.port l
  if !p.linkUp || s.plate.macsec = 0 || (cakOf s l).isNone || !m.icvOk then s
  else
    let s := s.modPort l (fun k => { k with mkaPeer := if m.live then some m.peerMi else k.mkaPeer, mkaClk := s.clk, server := m.live && !m.keyServer })
    match m.sak with
    | some (an, key) => if m.keyServer && m.live then installSa l an key s else s
    | none => if m.live && !m.keyServer && p.sa.isNone then newSak l s else s

/-- MKA_FRAME. -/
def execMkaFrame (l : Nat) (m : MkaMsg) (s : State) : Host.Outcome State Fault Refusal := powered (mkaFrame l m) s

/-- The packet number at which the key server renews the SAK, by cipher suite (R286). -/
def renewAt (s : State) : Nat := if s.plate.cipher = 0 then 0xC0000000 else 2 ^ 62

/-- SAK_DISTRIBUTION: the packet number of the association has reached its threshold: the key server sends a new SAK (R286). -/
def sakDistribution (l : Nat) (s : State) : State :=
  let p := s.port l
  if p.linkUp && p.server && p.sa.any (fun a => decide (renewAt s ≤ a.pn)) && p.mkaPeer.isSome then newSak l s else s

/-- SAK_DISTRIBUTION. -/
def execSakDistribution (l : Nat) (s : State) : Host.Outcome State Fault Refusal := powered (sakDistribution l) s

/-- SA_AGE_OUT: 1 s after the first frame under the new association. -/
def saAgeOut (l : Nat) (s : State) : State :=
  if (s.port l).newSeen then s.modPort l (fun p => { p with oldSa := none, newSeen := false }) else s

/-- SA_AGE_OUT. -/
def execSaAgeOut (l : Nat) (s : State) : Host.Outcome State Fault Refusal := powered (saAgeOut l) s

/-- MKA_HELLO: every Hello Time an MKA message goes out. -/
def mkaHello (l : Nat) (s : State) : State :=
  let p := s.port l
  if p.linkUp && s.plate.macsec ≠ 0 && (cakOf s l).isSome then sendMka l [0, p.mkaPeer.getD 0, b2n p.server] s else s

/-- MKA_HELLO. -/
def execMkaHello (l : Nat) (s : State) : Host.Outcome State Fault Refusal := powered (mkaHello l) s

/-- MKA_LIFE_EXPIRY: Life Time without a message of the partner: it is no longer live, and the keys agreed with it are given up. -/
def mkaLifeExpiry (l : Nat) (s : State) : State :=
  if (s.port l).mkaPeer.isNone then s
  else
    let s := s.modPort l (fun p => { p with mkaPeer := none, server := false, sa := none, oldSa := none, newSeen := false })
    if needsSa s l then movePaths l 3 s else s

/-- MKA_LIFE_EXPIRY. -/
def execMkaLifeExpiry (l : Nat) (s : State) : Host.Outcome State Fault Refusal := powered (mkaLifeExpiry l) s

/-! ## PTP and 1PPS (R280 to R283, R287) -/

/-- The PTP state moves; every change writes an event (R411). -/
def ptpTo (d : Nat) (st : PtpSt) (s : State) : State :=
  let k := s.link d
  if k.ptp = st then s
  else
    let code := match st with
      | .initializing => 0 | .faulty => 1 | .disabled => 2 | .listening => 3 | .uncalibrated => 4 | .slave => 5 | .holdover => 6
    ffEvent 0x0122 2 d k.ptpLane.toNat none (le 1 code ++ le 4 (ofSigned 32 k.offset)) (s.modLink d (fun l => { l with ptp := st }))

/-- The sub-port is the active PTP sub-port; a PTP message on any other one is dropped and counted (R283). A sub-port that must secure its
frames and has no SAK accepts none (R285). -/
def onPtp (l : Nat) (f : Nat → State → State) (s : State) : State :=
  let d := dieOfLane l
  if !(s.port l).linkUp then s
  else if needsSa s l && (s.port l).sa.isNone then countDrop d 2 s
  else if (s.link d).ptpLane.toNat = l then f d s else countDrop d 9 s

/-- ANNOUNCE: in LISTENING with a master chosen, and in HOLDOVER whatever master announces itself, the servo starts (R281). -/
def announcePtp (m : PtpMsg) (d : Nat) (s : State) : State :=
  let k := s.link d
  if (m.better && k.ptp = .listening) || k.ptp = .holdover then
    ptpTo d .uncalibrated (s.modLink d (fun l => { l with good := 0, syncWait := none, delayReq := none }))
  else s

/-- ANNOUNCE. -/
def execAnnounce (l : Nat) (m : PtpMsg) (s : State) : Host.Outcome State Fault Refusal := powered (onPtp l (announcePtp m)) s

/-- i as an i19, saturated (R319). -/
def sat19 (i : Int) : Int := max (-262144) (min i 262143)

/-- A second in units of 1/16 ns, the resolution of the timestamps (R280). -/
def tickS : Int := 16000000000

/-- The whole seconds of an offset in 1/16 ns, to the nearest. -/
def wholeS (i : Int) : Int := (i + 8000000000) / tickS

/-- A Sync is complete: the offset is known, the clock follows, and a Delay_Req goes out. Below 100 ns for 16 Syncs the servo is locked. While
1PPS governs, PTP gives the seconds only. -/
def applySync (d : Nat) (t1 : Int) (t2 : Nat) (s : State) : State :=
  let k := s.link d
  if k.ptp ≠ .uncalibrated && k.ptp ≠ .slave then s
  else
    let off := (t2 : Int) - t1 - k.delay
    let pps := s.plate.ppsEn && k.ppsPres
    let part := off - wholeS off * tickS
    let mis := pps && (decide (part > 16000) || decide (part < -16000))
    let good := if decide (-1600 < off) && decide (off < 1600) then k.good + 1 else 0
    let s := s.modLink d (fun l => { l with
      offset := sat19 (off / 16), good := good, t1 := t1, t2 := t2, timeOff := l.timeOff - (if pps then wholeS off * tickS else off),
      ppsMis := l.ppsMis || mis, delayReq := some l.reqSeq, t3 := fabricStamp s, reqSeq := (l.reqSeq + 1) % 65536 })
    let s := if mis then ffEvent 0x0123 3 d k.ptpLane.toNat none (le 4 (ofSigned 32 (part / 16))) s else s
    let s := sendFrame k.ptpLane.toNat 7 (.frame k.ptpLane.toNat 6 [k.reqSeq] []) s
    if k.ptp = .uncalibrated && decide (good ≥ 16) then
      ptpTo d .slave (s.modLink d (fun l => { l with locked := true, uncertain := false }))
    else s

/-- The origin timestamp with the correction, in 1/16 ns (R287). -/
def ptpSent (m : PtpMsg) : Int := 16 * (m.origin : Int) + m.correction

/-- SYNC: a one-step Sync is used as received; a two-step one waits for its Follow_Up (R287). -/
def syncPtp (m : PtpMsg) (d : Nat) (s : State) : State :=
  if m.twoStep then s.modLink d (fun l => { l with syncWait := some (m.seqId, m.ingress) })
  else applySync d (ptpSent m) m.ingress s

/-- SYNC. -/
def execSync (l : Nat) (m : PtpMsg) (s : State) : Host.Outcome State Fault Refusal := powered (onPtp l (syncPtp m)) s

/-- FOLLOW_UP of the Sync that waits for it. -/
def followUpPtp (m : PtpMsg) (d : Nat) (s : State) : State :=
  match (s.link d).syncWait with
  | some (q, t2) => if q = m.seqId then applySync d (ptpSent m) t2 (s.modLink d (fun l => { l with syncWait := none })) else s
  | none => s

/-- FOLLOW_UP. -/
def execFollowUp (l : Nat) (m : PtpMsg) (s : State) : Host.Outcome State Fault Refusal := powered (onPtp l (followUpPtp m)) s

/-- DELAY_RESP: the mean path delay of the default profile's delay request-response mechanism. -/
def delayRespPtp (m : PtpMsg) (d : Nat) (s : State) : State :=
  let k := s.link d
  if k.delayReq ≠ some m.seqId then s
  else s.modLink d (fun l => { l with delayReq := none, delay := (((l.t2 : Int) - l.t1) + (16 * (m.origin : Int) - m.correction - l.t3)) / 2 })

/-- DELAY_RESP. -/
def execDelayResp (l : Nat) (m : PtpMsg) (s : State) : Host.Outcome State Fault Refusal := powered (onPtp l (delayRespPtp m)) s

/-- A SLAVE loses its master: it holds the last frequency, and the standby sub-port becomes the active one when it is set (R281). -/
def enterHoldover (d : Nat) (s : State) : State :=
  if (s.link d).ptp ≠ .slave then s
  else
    let s := ptpTo d .holdover s
    let b := s.plate.ptpStand
    if b = 0x7F then s
    else
      let e := dieOfLane b
      if e = d then s.modLink d (fun l => { l with ptpLane := BitVec.ofNat 7 b })
      else
        let k := s.link d
        let s := s.modLink d (fun l => { l with ptpLane := 0x7F, ptp := .listening })
        s.modLink e (fun l => { l with
          ptpLane := BitVec.ofNat 7 b, ptp := .holdover, locked := k.locked, timeOff := k.timeOff, uncertain := k.uncertain, offset := k.offset })

/-- ANNOUNCE_RECEIPT_TIMEOUT. -/
def execAnnounceReceiptTimeout (l : Nat) (s : State) : Host.Outcome State Fault Refusal :=
  powered (fun t => if (t.link (dieOfLane l)).ptpLane.toNat = l then enterHoldover (dieOfLane l) t else t) s

/-- HOLDOVER_UNCERTAIN: 1 s in HOLDOVER. -/
def execHoldoverUncertain (d : Nat) (s : State) : Host.Outcome State Fault Refusal :=
  powered (fun t => if (t.link d).ptp = .holdover then t.modLink d (fun l => { l with uncertain := true }) else t) s

/-- PTP_FAULT: a fault in the timestamp unit: an error record, and FAULTY. -/
def ptpFault (d : Nat) (s : State) : State :=
  if (d ≠ 16 && d ≠ 17) || fenced s d then s else ptpTo d .faulty (logInternal d none 0 s)

/-- PTP_FAULT. -/
def execPtpFault (d : Nat) (s : State) : Host.Outcome State Fault Refusal := powered (ptpFault d) s

/-- The distance of a count of ns from the nearest whole second. -/
def offSecond (ns : Nat) : Int := (ns : Int) - ((ns : Int) + 500000000) / 1000000000 * 1000000000

/-- PPS_EDGE: the edge marks a whole second: the clock, which stood at `ns`, takes its phase from it (R282). -/
def ppsEdge (ns : Nat) (s : State) : State :=
  if !s.plate.ppsEn then s
  else
    let d := clockDie s
    let diff := offSecond ns
    let mis := decide (diff > 1000) || decide (diff < -1000)
    let s := [16, 17].foldl (fun t e => if fenced t e then t else t.modLink e (fun l => { l with ppsPres := true, timeOff := l.timeOff - 16 * diff })) s
    if mis then ffEvent 0x0123 3 d (s.link d).ptpLane.toNat none (le 4 (ofSigned 32 diff)) (s.modLink d (fun l => { l with ppsMis := true })) else s

/-- PPS_EDGE. -/
def execPpsEdge (ns : Nat) (s : State) : Host.Outcome State Fault Refusal := powered (ppsEdge ns) s

/-- PPS_LOSS: 2 s without an edge. -/
def ppsLoss (s : State) : State :=
  if !s.plate.ppsEn then s else [16, 17].foldl (fun t e => t.modLink e (fun l => { l with ppsPres := false })) s

/-- PPS_LOSS. -/
def execPpsLoss (s : State) : Host.Outcome State Fault Refusal := powered ppsLoss s

/-! ## Links (R25, R26, R301, R416) -/

/-- A sub-port goes down: its keys and the frames it holds are lost, it trains again, and flows take other paths. -/
def portDown (l : Nat) (s : State) : State :=
  if !(s.port l).linkUp then s
  else
    let s := s.modPort l (fun p => { p with
      linkUp := false, training := true, sa := none, oldSa := none, newSeen := false, secured := false, mkaPeer := none, server := false,
      pris := p.pris.map (fun _ => {}) })
    let s := movePaths l 2 s
    if (s.link (dieOfLane l)).ptpLane.toNat = l then enterHoldover (dieOfLane l) s else s

/-- SUBPORT_DOWN. -/
def execSubportDown (l : Nat) (s : State) : Host.Outcome State Fault Refusal := powered (portDown l) s

/-- The sub-port of a lane. -/
def portOfLane (s : State) (lane : Nat) : Option Nat :=
  (s.ports.find? (fun e => e.2.present && decide (e.1 ≤ lane) && decide (lane < e.1 + e.2.lanes))).map (·.1)

/-- LOSS_OF_SIGNAL: a lane loses its signal, or its FEC fails, while its sub-port is up (R416). -/
def lossOfSignal (lane : Nat) (fec : Bool) (s : State) : State :=
  match portOfLane s lane with
  | none => s
  | some l =>
    if !(s.port l).linkUp then s
    else
      let s := if fec then s else s.modPort l (fun p => { p with los := bump p.los 1 })
      logError 0x07 (dieOfLane lane) lane none 0 (le 1 lane ++ le 1 (if fec then 2 else 1)) s

/-- LOSS_OF_SIGNAL. -/
def execLossOfSignal (lane : Nat) (fec : Bool) (s : State) : Host.Outcome State Fault Refusal := powered (lossOfSignal lane fec) s

/-- The sub-ports of an isolated link die no longer exist: flows take other paths (R301, R514). -/
def dropPorts (d : Nat) (s : State) : State :=
  ((s.ports.map (·.1)).filter (fun l => dieOfLane l = d)).foldl (fun t l => (portDown l t).modPort l (fun _ => {})) s

/-- A die that no route reaches any more is treated as fenced and reported (R26). DEDUCED (log entry 82): the routes meant are those to the hub,
die 18, whose firmware does both; a die that keeps routes only to others cut off with it is isolated too. -/
def isolate (s : State) : State :=
  let ball := fabricBall s 18 19
  let lost := (List.range 20).filter (fun d => !fenced s d && !ball.contains d)
  let t := lost.foldl (fun t d => logError 0x06 d 0 none 0 (le 1 d) (t.modDie d (fun k => { k with isolated := true }))) s
  (lost.filter (fun d => d = 16 || d = 17)).foldl (fun t d => dropPorts d t) (if lost.any (· < 8) then fenceCells t else t)

/-- FABRIC_LINK_DOWN: a flit fails eight replays in a row: the sending die a takes the link down until the next warm reset and records it, and
the firmware recomputes the routing tables (R25). -/
def fabricLinkDown (a b : Nat) (s : State) : State :=
  if !(fabricLinks.contains (a, b) || fabricLinks.contains (b, a)) || !(linkLive s (a, b)) then s
  else writeRoutes (isolate (logError 0x05 a 0 none 0 (le 1 a ++ le 1 b) { s with fabDown := s.fabDown ++ [(a, b)] }))

/-- FABRIC_LINK_DOWN. -/
def execFabricLinkDown (a b : Nat) (s : State) : Host.Outcome State Fault Refusal := powered (fabricLinkDown a b) s

end Sys2Proof.Machine
end

