-- ==== Sys2Proof/Machine/Power.lean ====
section
/-! DEFINITION. Machine/Power.lean: the power states, the device warm reset, the caps and the sensors (R28, R29, R34 to R36, R429, R433 to R435,
R523 to R534). -/
namespace Sys2Proof.Machine

/-! ## Starts and resets (R429, R491, R493, R495, R526) -/

/-- A start that ends before BOOT_RELEASE has failed: its outcome joins the history of the last 16 (R491, R495). Failures with a reason have
been written already by `failStart`. -/
def noteUnfinished (s : State) : State :=
  if s.pwr.st = .starting && s.boot.active then
    let r : StartRec := { ok := false, stage := stageCode s.boot.stage, reason := s.boot.reason.toNat, detail := s.boot.detail.toNat }
    { s with boot := { s.boot with history := (r :: s.boot.history).take 16 } }
  else s

/-- The root of trust counts the start: with the armed marker present and fewer than three failures counted, one more start fuse is blown;
then the marker is written (R496). -/
def countStart (b : Boot) : Boot :=
  { b with fuses := if b.armed && decide (failedStarts b < 3) then min 1024 (b.fuses + 1) else b.fuses, armed := true, starts := bump b.starts 1 }

/-- The start that comes next ends in Pupa mode by its count or by the lifecycle (R497). -/
def pupaComes (s : State) : Bool := (decide (failedStarts (countStart s.boot) ≥ 3) && !s.boot.trialMark) || decide (s.sec.lifecycle ≥ 3)

/-- The rails stay, everything volatile is lost, and BOOT_FUSE begins (R429 domain 6). FAULT_N is low when the reset leads into Pupa mode (R533). -/
def warmReset (s : State) : State :=
  if s.pwr.st = .on || s.pwr.st = .pupa || s.pwr.st = .starting then
    let t := (noteUnfinished s).dark
    { t with pwr := { t.pwr with st := .starting, faultN := !pupaComes t },
             boot := { t.boot with stage := .fuse, active := true, fuseClk := s.clk },
             hub := { rstDomain := 6, rstTrig := 5 } }
  else s

/-- The rails go off: the module is OFF, or SHUTDOWN with its cause latched in the AUX domain and FAULT_N low. -/
def railsOff (cause : Option Nat) (s : State) : State :=
  let t := noteUnfinished s
  match cause with
  | none => { t with pwr := { t.pwr with st := .off } }
  | some c => { t with pwr := { t.pwr with st := .shutdown, faultN := false, lastShut := BitVec.ofNat 3 c } }

/-- POWER_ON: the input has stayed between 45 V and 64 V for 10 ms with PWR_EN high: soft start, and BOOT_FUSE begins. -/
def powerOn (cv : Nat) (s : State) : State :=
  if s.pwr.st ≠ .off || decide (cv < 4500) || decide (cv > 6400) then s
  else { s.dark with
    pwr := { s.pwr.kept with st := .starting, pwrEn := true, volts := BitVec.ofNat 16 cv },
    boot := { s.boot.kept with stage := .fuse, active := true, fuseClk := s.clk } }

/-- POWER_ON. -/
def execPowerOn (centivolts : Nat) (s : State) : Host.Outcome State Fault Refusal := always (powerOn centivolts) s

/-- The rails go off for want of input: a module in HALTED or SHUTDOWN keeps its state (R526). -/
def inputLost (s : State) : State :=
  if s.pwr.st = .off || s.pwr.st = .halted || s.pwr.st = .shutdown then s else railsOff none s

/-- UNDERVOLTAGE_TRIP. -/
def execUndervoltageTrip (s : State) : Host.Outcome State Fault Refusal := always inputLost s

/-- VIN_SENSE_OPEN. -/
def execVinSenseOpen (s : State) : Host.Outcome State Fault Refusal := always inputLost s

/-- PWR_EN_LOW. -/
def execPwrEnLow (s : State) : Host.Outcome State Fault Refusal :=
  always (fun t => let u := inputLost t; { u with pwr := { u.pwr with pwrEn := false } }) s

/-- A trip that shuts the module down: any state but OFF (R526). -/
def shutDown (cause : Nat) (s : State) : State := if s.pwr.st = .off then s else railsOff (some cause) s

/-- OVERVOLTAGE_TRIP. -/
def execOvervoltageTrip (s : State) : Host.Outcome State Fault Refusal := always (shutDown 1) s

/-- CONVERSION_FAULT. -/
def execConversionFault (s : State) : Host.Outcome State Fault Refusal := always (shutDown 2) s

/-- FAULT_RELEASE: PWR_EN low for 100 ms, or AUX removed, which also loses the latched cause. -/
def faultRelease (aux : Bool) (s : State) : State :=
  if s.pwr.st = .halted || s.pwr.st = .shutdown then
    { s with pwr := { s.pwr with st := .off, faultN := true, pwrEn := aux && s.pwr.pwrEn, lastShut := if aux then 0 else s.pwr.lastShut } }
  else s

/-- FAULT_RELEASE. -/
def execFaultRelease (auxRemoved : Bool) (s : State) : Host.Outcome State Fault Refusal := always (faultRelease auxRemoved) s

/-- RESET_N: a device warm reset at the rising edge (R523). -/
def execResetN (s : State) : Host.Outcome State Fault Refusal := always warmReset s

/-! ## Caps and gating (R29, R525, R528 to R532) -/

/-- The contexts whose step is open. -/
def openSteps (s : State) : List Nat := (s.ctxs.filter (fun e => e.2.sl.isOpen)).map (·.1)

/-- The caps now active join the power-cap state of every open step (R530). -/
def noteCaps (s : State) : State :=
  (openSteps s).foldl (fun t x => t.modSl x (fun l => { l with pcap := l.pcap ||| BitVec.ofNat 8 (pcapNow t) })) s

/-- Clocks of the last 1 ms. -/
def within (s : State) (l : List Nat) : List Nat := l.filter (fun c => decide (s.clk - c < clkMs))

/-- A gating event is counted in the load signatures and in every open step (R29, R419), and traced (R411). `droop` is a droop event. -/
def gateEvent (die : Nat) (droop : Bool) (s : State) : State :=
  let s := { s with pwr := if droop then { s.pwr with droopAt := s.clk :: within s s.pwr.droopAt }
                           else { s.pwr with gate := s.pwr.gate + 1, gateAt := s.clk :: within s s.pwr.gateAt } }
  let s := (openSteps s).foldl (fun t x => t.modSl x (fun l => if droop then { l with droopEv := l.droopEv + 1 } else { l with gateEv := l.gateEv + 1 })) s
  ffTrace 0x000C die die none (le 4 (recent s s.pwr.gateAt) ++ le 4 (recent s s.pwr.droopAt)) s

/-- Any cap is active. -/
def anyCap (s : State) : Bool := pcapNow s ≠ 0

/-- INPUT_CAP: a reading of the input: between 42 V and 45 V, or above 72 A, issue is gated so that the current stays at 72 A (R525). The
readings come every 1 ms (R34); each counts in capped_ms while a cap is active. -/
def inputCap (cv ca w : Nat) (s : State) : State :=
  let cap := (decide (4200 ≤ cv) && decide (cv < 4500)) || decide (ca > 7200)
  let was := s.pwr.inCap
  let s := { s with pwr := { s.pwr with
    volts := BitVec.ofNat 16 cv, amps := BitVec.ofNat 16 (min ca 7200), watts := BitVec.ofNat 16 w,
    peak := BitVec.ofNat 16 (max s.pwr.peak.toNat (w % 65536)), inCap := cap } }
  let s := if cap && !was then gateEvent 18 false s else s
  let s := if anyCap s then { s with pwr := { s.pwr with cappedMs := bump s.pwr.cappedMs 1 } } else s
  noteCaps s

/-- INPUT_CAP. -/
def execInputCap (centivolts centiamps watts : Nat) (s : State) : Host.Outcome State Fault Refusal := powered (inputCap centivolts centiamps watts) s

/-- Sensors of a die (R34): eight on a compute die, two elsewhere. -/
def sensorCount (d : Nat) : Nat := if d < 8 then 8 else 2

/-- A sensor of a powered die is read: one that is being recalibrated keeps its last value (R35). The reading counts in the highest temperatures of
every open step (R255). -/
def readSensor (d i : Nat) (temp : Int) (s : State) : State :=
  let s := s.modDie d (fun k => { k with sensors := k.sensors.modify i (fun q => if q.stale then q else { q with valid := true, temp := temp }) })
  (openSteps s).foldl (fun t x => t.modSl x (fun l => { l with tMax := List.zipWith max l.tMax (kindTemps t), tStale := l.tStale ||| BitVec.ofNat 20 (staleMask t) })) s

/-- The die answers: present, powered, and with the sensor. -/
def hasSensor (s : State) (d i : Nat) : Bool := !fenced s d && (s.die d).on && decide (i < (s.die d).sensors.length)

/-- THERMAL_CAP: the hottest sensor reaches the cap limit: issue on the die is gated (R528). -/
def thermalCap (d i : Nat) (temp : Int) (s : State) : State :=
  if !hasSensor s d i then s
  else
    let s := readSensor d i temp s
    if (s.die d).capped || hottest s d < (s.die d).capLim then s
    else
      let s := s.modDie d (fun k => { k with capped := true })
      let s := logError 0x10 d 0 none 0 (le 1 d ++ le 2 (ofSigned 16 temp)) (gateEvent d false s)
      noteCaps s

/-- THERMAL_CAP. -/
def execThermalCap (d i : Nat) (temp : Int) (s : State) : Host.Outcome State Fault Refusal := powered (thermalCap d i temp) s

/-- THERMAL_CAP_RELEASE: the hottest sensor has fallen 3 °C below the cap limit. -/
def thermalCapRelease (d i : Nat) (temp : Int) (s : State) : State :=
  if !hasSensor s d i then s
  else
    let s := readSensor d i temp s
    if (s.die d).capped && decide (hottest s d ≤ (s.die d).capLim - 48) then s.modDie d (fun k => { k with capped := false }) else s

/-- THERMAL_CAP_RELEASE. -/
def execThermalCapRelease (d i : Nat) (temp : Int) (s : State) : Host.Outcome State Fault Refusal := powered (thermalCapRelease d i temp) s

/-- THERMAL_SHUTDOWN: a sensor has stood at or above the shutdown limit for 10 ms. -/
def thermalShutdown (d i : Nat) (temp : Int) (s : State) : State :=
  if !hasSensor s d i then s
  else
    let s := readSensor d i temp s
    if ((s.die d).sensors.getD i {}).temp ≥ (s.die d).shutLim then shutDown 3 s else s

/-- THERMAL_SHUTDOWN. -/
def execThermalShutdown (d i : Nat) (temp : Int) (s : State) : Host.Outcome State Fault Refusal := powered (thermalShutdown d i temp) s

/-- COOLANT_CAP: the inlet and outlet are read; above 40 °C the input power is limited by 128 W for each whole °C (R532). -/
def coolantCap (inlet outlet : Int) (s : State) : State :=
  let hot := decide (inlet > 640)
  let was := s.pwr.coolCap
  let s := { s with pwr := { s.pwr with
    inlet := inlet, outlet := outlet, coolCap := hot, coolLim := if hot then 3200 - 128 * ((inlet - 640) / 16).toNat else 3200 } }
  noteCaps (if hot && !was then gateEvent 18 false s else s)

/-- COOLANT_CAP. -/
def execCoolantCap (inlet outlet : Int) (s : State) : Host.Outcome State Fault Refusal := powered (coolantCap inlet outlet) s

/-- DROOP_EVENT: array issue on a compute die is gated for 16 clocks (R29). -/
def droopEvent (d : Nat) (s : State) : State :=
  if decide (d ≥ 8) || fenced s d || !(s.die d).on then s
  else gateEvent d true (s.modDie d (fun k => { k with droop := bump k.droop 1 }))

/-- DROOP_EVENT. -/
def execDroopEvent (d : Nat) (s : State) : Host.Outcome State Fault Refusal := powered (droopEvent d) s

/-- A recalibration in service has ended: drift beyond the fused limit sets drift_alarm, and the die stays in service (R36). -/
def recalDone (d drift : Nat) (s : State) : State :=
  let s := s.modDie d (fun k => { k with recal := bump k.recal 1, drift := k.drift || decide (drift ≠ 0) })
  if drift = 0 then s
  else ffEvent 0x0150 3 d d none (le 1 drift) (logError 0x0D d 0 none 0 (le 1 drift) s)

/-- A sensor is being recalibrated: the shell recalibrates one at a time (R35). -/
def recalBusy (s : State) : Bool := staleMask s ≠ 0 || (List.range 8).any (fun d => (s.die d).droopBusy.isSome)

/-- SENSOR_RECALIBRATION: a sensor's recalibration begins unless another one is being recalibrated; at its end a thermal sensor shows its reading
(R35; log entry 47). Droop sensors, 8 to 11 of a compute die, show no reading. -/
def recalibrate (d i : Nat) (temp : Int) (drift : Nat) (s : State) : State :=
  if fenced s d || !(s.die d).on then s
  else if decide (d < 8) && decide (8 ≤ i) && decide (i < 12) then
    if (s.die d).droopBusy = some i then recalDone d drift (s.modDie d (fun k => { k with droopBusy := none }))
    else if recalBusy s then s
    else s.modDie d (fun k => { k with droopBusy := some i })
  else match (s.die d).sensors[i]? with
    | none => s
    | some q =>
      if q.stale then recalDone d drift (readSensor d i temp (s.modDie d (fun k => { k with sensors := k.sensors.modify i (fun r => { r with stale := false }) })))
      else if recalBusy s then s
      else
        let s := s.modDie d (fun k => { k with sensors := k.sensors.modify i (fun r => { r with stale := true }) })
        (openSteps s).foldl (fun t x => t.modSl x (fun l => { l with tStale := l.tStale ||| BitVec.ofNat 20 (staleMask t) })) s

/-- SENSOR_RECALIBRATION. -/
def execSensorRecalibration (d i : Nat) (temp : Int) (drift : Nat) (s : State) : Host.Outcome State Fault Refusal :=
  powered (recalibrate d i temp drift) s

end Sys2Proof.Machine
end

