-- ==== Sys2Proof/Machine/Firmware.lean ====
section
/-! DEFINITION. Machine/Firmware.lean: the hub firmware as the outside sees it: its beat, compartments that fail and restart, gates, profiling,
and the health of the module (R388 to R393, R412, R434, R448 to R453). -/
namespace Sys2Proof.Machine

/-! ## Cores and compartments (R388 to R392) -/

/-- The hub cores that the die plate leaves in service; one in Pupa mode (R500). -/
def hubCores (s : State) : Nat := if s.pwr.st = .pupa then 1 else ((List.range 4).filter (fun i => !bit s.plate.coreFence.toNat i)).length

/-- The core, among the present ones, that runs a compartment (R388). -/
def compCore (n c : Nat) : Nat :=
  let row := match c with
    | 0 => [0, 0, 0, 0]
    | 1 => [1, 1, 0, 0]
    | 2 => [2, 2, 1, 0]
    | 3 => [3, 2, 1, 0]
    | _ => [3, 2, 1, 0]
  row.getD (4 - min 4 n) 0

/-- Applies `f` to compartment c. -/
def modComp (c : Nat) (f : Comp → Comp) (s : State) : State := s.modHub (fun h => { h with comps := h.comps.modify c f })

/-- Compartment c. -/
def compOf (s : State) (c : Nat) : Comp := (s.hub.comps[c]?).getD {}

/-- HUB_BEAT: the kernel of a core pets its watchdog and hands waiting gate messages to the running compartments of the core; that of core 0
advances hub_beat while no compartment is FAILED. A core in reset does neither. -/
def hubBeat (core : Nat) (s : State) : State :=
  if s.hub.coreReset.contains core || decide (core ≥ hubCores s) then s
  else
    let s := s.modHub (fun h => { h with comps := h.comps.map (fun c => if c.st = 1 && c.core = core then { c with gate := [] } else c) })
    if core = 0 && !s.hub.comps.any (fun c => c.st = 3) then s.modHub (fun h => { h with beat := h.beat + 1, beatClk := s.clk }) else s

/-- HUB_BEAT. -/
def execHubBeat (core : Nat) (s : State) : Host.Outcome State Fault Refusal := powered (hubBeat core) s

/-- QSCHED restarts: control commands in progress complete INTERNAL; those of the step line are STEPLINE's (R391, R394). -/
def restartQsched (s : State) : State :=
  let s := s.queues.foldl (fun t e => (e.2.flight.filter (fun c => c.started && c.status.isNone && isControl (cOp c.bytes) && decide (cOp c.bytes < 0x10))).foldl
    (fun u c => finishCmd e.1 c.idx stInternal 0 0 u) t) s
  { s with ctxs := s.ctxs.map (fun e => (e.1, { e.2 with closing := none, changes := e.2.changes.map (fun r => { r with queue := none }) })) }

/-- STEPLINE restarts: before its vote the device votes FAIL with INTERNAL; after the decision records go out without statistics and
fingerprint; a molt fails its next agreement (R391). -/
def restartLine (x : Nat) (s : State) : State :=
  let sl := s.sl x
  let s := s.modSl x (fun l => { l with pend := l.pend.map (fun p => { p with bytes := p.bare, fp := false }) })
  let s := if (s.ctx x).molt.phase ≠ .none then modMolt x (fun m => { m with flag := true, why := stInternal }) s else s
  match sl.phase with
  | .fwd => failStep x stInternal s
  | .bwd => failStep x stInternal s
  | .reduce => failStep x stInternal s
  | .commit =>
    if !sl.ownVote then trySendVote x (s.modSl x (fun l => { l with failSt := some (l.failSt.getD stInternal) }))
    else if sl.decision.isSome then s.modSl x (fun l => { l with lost := true }) else s
  | .update => s.modSl x (fun l => { l with lost := true })
  | .ledger => endLedger x false (s.modSl x (fun l => { l with lost := true, fpDone := true, digestBad := true }))
  | .idle => s

/-- The work in progress in a compartment at its restart ends (R391). -/
def restartWork (c : Nat) (s : State) : State :=
  match c with
  | 0 => restartQsched s
  | 1 => s.ctxs.foldl (fun t e => restartLine e.1 t) s
  | 3 =>
    let s := { s with sec := { s.sec with sessions := s.sec.sessions.filter (fun e => e.path ≠ SpdmPath.mgmt) } }
    let s := if s.boot.fetchSt.toNat = 1 then { s with boot := { s.boot with fetchPct := 0 } } else s
    match s.hub.replay with
    | some _ => answer 445 stInternal [] (s.modHub (fun h => { h with replay := none }))
    | none => s
  | _ => s

/-- A compartment is reloaded and restarted with its work ended, or, the third time within 60 s, left FAILED; QSCHED, STEPLINE or FAULT in
FAILED starts a device warm reset (R391, R392, R434). Cause 0 is a hub core reset, which leaves the last cause. -/
def restartComp (c cause : Nat) (s : State) : State :=
  let k := compOf s c
  let times := k.times.filter (fun t => decide (s.clk - t < 60 * clkS))
  let why := if cause = 0 then k.cause else BitVec.ofNat 4 cause
  if times.length ≥ 2 then
    let s := modComp c (fun k => { k with st := 3, cause := why, times := s.clk :: times }) s
    let s := logError 0x0F 18 c none 0 (le 1 c ++ le 1 cause) (ffEvent 0x0161 5 18 c none (le 1 cause) s)
    if c < 3 then warmReset s else s
  else
    let n := bump k.restarts 1
    let s := modComp c (fun k => { k with st := 1, cause := why, restarts := n, times := s.clk :: times, gate := [] }) s
    let s := ffEvent 0x0160 4 18 c none (le 1 cause ++ le 1 n.toNat) s
    restartWork c (logError 0x0E 18 c none 0 (le 1 c ++ le 1 cause) s)

/-- A running compartment faults (R391). Causes: 1 access fault, 2 illegal instruction, 3 slice overrun, 4 gate fault. -/
def compFault (c cause : Nat) (s : State) : State := if (compOf s c).st ≠ 1 then s else restartComp c cause s

/-- SLICE_OVERRUN: a compartment has run 2 ms without returning to the kernel (R390). -/
def execSliceOverrun (comp : Nat) (s : State) : Host.Outcome State Fault Refusal := powered (fun t => deliver 65536 (compFault comp 3 t)) s

/-- COMPARTMENT_FAULT: an access fault, an illegal instruction or a gate fault (R391). -/
def compartmentFault (comp cause : Nat) (s : State) : State :=
  if cause = 1 || cause = 2 || cause = 4 then deliver 65536 (compFault comp cause s) else s

/-- COMPARTMENT_FAULT. -/
def execCompartmentFault (comp cause : Nat) (s : State) : Host.Outcome State Fault Refusal := powered (compartmentFault comp cause) s

/-- GATE_CALL: a message of up to 256 bytes waits at the receiver in the order sent; a full gate, or a longer message, faults the sender
(R389). -/
def gateCall (src dst : Nat) (msg : Bytes) (s : State) : State :=
  if (compOf s src).st ≠ 1 || decide (dst ≥ 5) then s
  else if decide (msg.length > 256) || decide ((compOf s dst).gate.length ≥ 64) then deliver 65536 (compFault src 4 s)
  else modComp dst (fun k => { k with gate := k.gate ++ [(src, msg)] }) s

/-- GATE_CALL. -/
def execGateCall (src dst : Nat) (msg : Bytes) (s : State) : Host.Outcome State Fault Refusal := powered (gateCall src dst msg) s

/-! ## Profiling (R412) -/

/-- The 16 bytes of a sample of a cell. -/
def profBytes (s : State) (c : Nat) : Bytes :=
  let k := s.cell c
  let tag := match k.prog with
    | some p => (match p.tiles.find? (fun t => t.running) with | some t => tTag t.desc | none => 0)
    | none => 0
  le 1 c ++ le 1 k.ctx ++ le 2 (readCel s c 0 / 65536) ++ le 2 tag ++ le 2 k.tileIdx.toNat ++ le 8 (fabricNs s)

/-- PROFILE_SAMPLE: every present cell is sampled into the circular buffer. -/
def profileSample (s : State) : State :=
  if !s.hub.profEn || compDown s 4 then s
  else
    ((List.range 256).filter (cellPresent s)).foldl (fun t c =>
      let o := t.hub.profPos.toNat
      (poke t (profBase t + o) (profBytes t c)).modHub (fun h => { h with profPos := BitVec.ofNat 24 (o + 16) })) s

/-- PROFILE_SAMPLE. -/
def execProfileSample (s : State) : Host.Outcome State Fault Refusal := serving profileSample s

/-! ## Health (R448 to R453) -/

/-- Pools and states go to the boot flash (R449). -/
def saveHealth (s : State) : State :=
  { s with boot := { s.boot with poolC := s.hub.poolC, poolO := s.hub.poolO, hState := s.hub.health, hRec := s.hub.recState } }

/-- HEALTH_DECAY: each pool loses a sixteenth, and health is saved. -/
def healthDecay (s : State) : State :=
  saveHealth (s.modHub (fun h =>
    let h := { h with poolC := h.poolC - h.poolC / 16, poolO := h.poolO - h.poolO / 16 }
    { h with recState := recommend h }))

/-- HEALTH_DECAY. -/
def execHealthDecay (s : State) : Host.Outcome State Fault Refusal := serving healthDecay s

/-- The health state that HUB_HEALTH_CMD.target names. -/
def healthOf : Nat → Option Health
  | 0 => some .service
  | 1 => some .probation
  | 2 => some .quarantine
  | _ => none

/-- The request of R452 is accepted. -/
def healthOk (s : State) (to_ : Health) (force : Bool) : Bool :=
  match s.hub.health, to_ with
  | .service, .probation => true
  | .service, .quarantine => s.ctxs.all (fun e => e.2.st = .empty)
  | .probation, .quarantine => s.ctxs.all (fun e => e.2.st = .empty)
  | .probation, .service => (confidence s.hub = 3 && decide (800 ≤ score s.hub)) || s.hub.stPass || force
  | .quarantine, .probation => s.hub.stPass || force
  | .quarantine, .service => s.hub.stPass || force
  | _, _ => false

/-- Reports the result of a health command. -/
def cmdResult (n : Nat) (s : State) : State := s.modHub (fun h => { h with cmdResult := BitVec.ofNat 2 n })

/-- The write of HUB_HEALTH_CMD is the operator's or the firmware's, and its reserved bits are zero. Results: 1 accepted, 2 STATE_CONFLICT,
3 PERMISSION. -/
def healthWrite (r : Requester) (v : Word) (f : State → State) (s : State) : State :=
  let a := csrBase + 0xC24
  match csrCheck s r a 4 with
  | .deny st => csrAnswer r a st 0 (if st = stPerm then cmdResult 3 s else s)
  | .fencedValue _ => csrAnswer r a stOk 0 s
  | .go _ _ => csrAnswer r a stOk 0 (if bits v.toNat 0 28 ≠ 0 then s else f s)

/-- HEALTH_CMD_TARGET: a change of the health state is requested (R452). A change counts samples anew, clears self_test_pass and is saved. The
override of force is the operator's. -/
def healthCmdTarget (r : Requester) (v : Word) (s : State) : State :=
  healthWrite r v (fun s =>
    match healthOf (v.toNat / 2 ^ 30) with
    | none => s
    | some h =>
      let force := bit v.toNat 29
      if force && decide (r ≠ .operator) then cmdResult 3 s
      else if !healthOk s h force then cmdResult 2 s
      else
        saveHealth (cmdResult 1 (s.modHub (fun k =>
          let k := { k with health := h, samples := 0, stPass := false }
          { k with recState := recommend k })))) s

/-- HEALTH_CMD_TARGET. -/
def execHealthCmdTarget (r : Requester) (v : Word) (s : State) : Host.Outcome State Fault Refusal := serving (healthCmdTarget r v) s

/-- SELF_TEST: the re-admission self-test starts, in QUARANTINE only (R453). -/
def selfTest (r : Requester) (v : Word) (s : State) : State :=
  healthWrite r v (fun s =>
    if !bit v.toNat 28 then s
    else if s.hub.health ≠ .quarantine || s.hub.stRun then cmdResult 2 s
    else cmdResult 1 (s.modHub (fun h => { h with stRun := true }))) s

/-- SELF_TEST. -/
def execSelfTest (r : Requester) (v : Word) (s : State) : Host.Outcome State Fault Refusal := serving (selfTest r v) s

/-- SELF_TEST_DONE: the test has ended and sets or clears self_test_pass. -/
def selfTestDone (pass : Bool) (s : State) : State :=
  if !s.hub.stRun then s
  else s.modHub (fun h =>
    let h := { h with stRun := false, stPass := pass && decide (h.health = Health.quarantine) }
    { h with recState := recommend h })

/-- SELF_TEST_DONE. -/
def execSelfTestDone (pass : Bool) (s : State) : Host.Outcome State Fault Refusal := serving (selfTestDone pass) s

end Sys2Proof.Machine
end

