-- ==== Sys2Proof/Machine/Hang.lean ====
section
/-! DEFINITION. Machine/Hang.lean: commands that are slow or hung, wait-for cycles on this device and across devices (R363, R366, R422 to R427,
R468). -/
namespace Sys2Proof.Machine

/-! ## Command timeouts (R366, R423, R424) -/

/-- Command N of a queue completes TIMEOUT without having started: it consumes nothing and signals nothing (R363). -/
def headTimeout (q : Nat) (b : Bytes) (s : State) : State :=
  s.modQueue q (fun w => { w with
    n := w.n + 1,
    flight := w.flight ++ [{ idx := w.n.toNat, bytes := b, started := false, status := some stTimeout, since := s.clk }] })

/-- Applies `f` to the program of a launch, on its cell or in a saved image. -/
def modProgram (q k : Nat) (f : Program → Program) (s : State) : State :=
  let g := fun (p : Program) => if p.queue = q && p.cmd = k then f p else p
  { s with cells := s.cells.map (fun e => (e.1, { e.2 with
      prog := e.2.prog.map g, saved := e.2.saved.map (fun v => { v with prog := v.prog.map g }),
      redrive := e.2.redrive.map g })) }

/-- The launch has a program, running, saved, or waiting for its re-drive. -/
def hasProgram (s : State) (q k : Nat) : Bool :=
  let is := fun (p : Program) => p.queue = q && p.cmd = k
  s.cells.any (fun e => e.2.prog.any is || e.2.redrive.any is || (match e.2.saved with | some v => v.prog.any is | none => false))

/-- A LAUNCH ends TIMEOUT: no further tile starts, and it completes when its running tiles have (R424). -/
def stopLaunch (q k : Nat) (s : State) : State :=
  if !hasProgram s q k then finishCmd q k stTimeout 0 0 s
  else
    let s := modProgram q k (fun p => { p with stopNew := true }) (modCmd s q k (fun c => { c with hung := true }))
    s.cells.foldl (fun t e => if e.2.prog.any (fun p => p.queue = q && p.cmd = k) then tryEnd e.1 t else t) s

/-- A COLLECTIVE ends TIMEOUT: its entries leave the reduction store and its unacknowledged messages are closed (R424). -/
def stopCollective (q k : Nat) (s : State) : State :=
  match s.colls.find? (fun c => c.queue = some (q, k)) with
  | none => finishCmd q k stTimeout 0 0 s
  | some c =>
    let s := endColl c stTimeout s
    let use := MsgUse.collective c.x c.op c.group c.num
    s.snd.foldl (fun t e => (e.2.msgs.filter (fun m => m.use = use)).foldl (fun u m => dropMsg u e.1 m.seq stTimeout) t) s

/-- A job of this command has been handed to its engine. -/
def handedOver (s : State) (q k : Nat) : Bool := s.holders.any (fun h => h.2.jobs.any (fun j => j.queue = q && j.cmd = k))

/-- The effect of R424 on a started command. An ENGINE_JOB that its engine has completes after the holder reset. -/
def stopCommand (q : Nat) (c : Cmd) (s : State) : State :=
  match cOp c.bytes with
  | 0x20 => stopLaunch q c.idx s
  | 0x21 => if handedOver s q c.idx then modCmd s q c.idx (fun e => { e with hung := true }) else finishCmd q c.idx stTimeout 0 0 s
  | 0x22 => stopCollective q c.idx s
  | 0x03 => finishCmd q c.idx stTimeout 0 0 (s.modCtx (s.queue q).ctx (fun x => { x with closing := none }))
  | _ => finishCmd q c.idx stTimeout 0 0 s

/-- The record and the registers of a hung command (R416, R424, R468). -/
def noteHung (q k op progress rearms : Nat) (s : State) : State :=
  let x := (s.queue q).ctx
  let s := logError 0x09 18 q (some x) stTimeout (le 2 q ++ le 4 k ++ le 1 op ++ le 4 progress ++ le 1 rearms) s
  (setHang 1 x q s).modHub (fun h => { h with hung := bump h.hung 1 })

/-- The timer of command N of a queue runs: the queue could start it but for its waits; a halted or disabled queue starts nothing, and
the context is not PREEMPTED. -/
def headRuns (s : State) (q : Nat) : Bool :=
  let k := s.queue q
  k.defined && k.enabled && !k.halted && decide (k.n ≠ k.p) && decide ((s.ctx k.ctx).st ≠ .preempted)

/-- COMMAND_TIMEOUT: the timeout of command k of queue q expires. Progress since the timer was armed re-arms it, fifteen times at most;
else the command is hung. STEP_BARRIER has no timeout. -/
def commandTimeout (q k : Nat) (s : State) : State :=
  let w := s.queue q
  if (s.ctx w.ctx).st = .preempted then s
  else match findCmd s q k with
    | some c =>
      if c.status.isSome || c.hung || cOp c.bytes = 0x11 then s
      else if decide (c.armed < c.progress) && decide (c.rearms + 1 < 16) then
        (modCmd s q k (fun e => { e with armed := e.progress, rearms := e.rearms + 1 })).modHub (fun h => { h with rearms := bump h.rearms 1 })
      else stopCommand q c (noteHung q k (cOp c.bytes) c.progress c.rearms s)
    | none =>
      if !headRuns s q || decide (w.n.toNat ≠ k) then s
      else match nextCmd s q with
        | .error _ => s
        | .ok b => if cOp b = 0x11 then s else headTimeout q b (noteHung q k (cOp b) 0 0 s)

/-- COMMAND_TIMEOUT. -/
def execCommandTimeout (q k : Nat) (s : State) : Host.Outcome State Fault Refusal := net (commandTimeout q k) s

/-! ## Local wait-for cycles (R425, R427) -/

/-- The programs that a queue has on cells. -/
def programsOf (s : State) (q : Nat) : List (Nat × Program) :=
  s.cells.filterMap (fun e => match e.2.prog with | some p => if p.queue = q then some (e.1, p) else none | none => none)

/-- The tile that a program has fetched and not started: the one its sequencer takes up next. -/
def fetchedTile (s : State) (c : Nat) : Option Tile :=
  match fetch s c with
  | .tile t _ => some t
  | .nothing => none
  | .stop => none
  | .failed _ => none

/-- The command N that waits on a semaphore, and that semaphore. -/
def headWait (s : State) (q : Nat) : Option (Nat × Bytes) :=
  if !headRuns s q then none
  else match nextCmd s q with
    | .error _ => none
    | .ok b => if semReady (s.queue q).ctx (cWait b) s then none else some (cWait b, b)

/-- The cells on which a fetched tile of the queue's programs waits on a semaphore, with that semaphore. -/
def tileWaits (s : State) (q : Nat) : List (Nat × Nat) :=
  (programsOf s q).filterMap (fun e => match fetchedTile s e.1 with
    | some t => if semReady e.2.ctx (tWait t.desc) s then none else some (e.1, tWait t.desc)
    | none => none)

/-- The semaphores on which a queue waits. -/
def waitSems (s : State) (q : Nat) : List Nat := (headWait s q).toList.map (·.1) ++ (tileWaits s q).map (·.2)

/-- A queue holds a command between N and P − 1, or a fetched tile, that signals a semaphore. -/
def signals (s : State) (q x : Nat) : Bool :=
  let k := s.queue q
  (List.range ((k.p - k.n).toNat)).any (fun i => match qRead s q (cmdAt k ((k.n.toNat + i) % 2 ^ 32)) 64 with
      | .ok b => cSignal b = x
      | .error _ => false)
    || (programsOf s q).any (fun e => (match fetchedTile s e.1 with | some t => tSignal t.desc = x | none => false)
          || e.2.tiles.any (fun t => tSignal t.desc = x))

/-- An edge of the wait-for graph (R425). -/
def waitsFor (s : State) (a b : Nat) : Bool := (s.queue a).ctx = (s.queue b).ctx && (waitSems s a).any (fun x => signals s b x)

/-- The queues form a cycle, each waiting for the next and the last for the first. -/
def isCycle (s : State) (qs : List Nat) : Bool :=
  match qs with
  | [] => false
  | q :: rest => qs.zip (rest ++ [q]) |>.all (fun e => waitsFor s e.1 e.2)

/-- Everything of a queue that waits in the cycle completes TIMEOUT: its command N, and the launches whose fetched tile waits. -/
def breakQueue (q : Nat) (s : State) : State :=
  let t := (tileWaits s q).foldl (fun u e => match (u.cell e.1).prog with | some p => stopLaunch p.queue p.cmd u | none => u) s
  match headWait s q with
  | some (_, b) => headTimeout q b t
  | none => t

/-- The detail of a HANG_CYCLE record: four queues, 0xFFFF for none, and the peer. -/
def cycleDetail (qs : List Nat) (peer : Nat) : Bytes := ((qs ++ List.replicate 4 0xFFFF).take 4).flatMap (le 2) ++ le 2 peer

/-- HANG_CYCLE: the vertices of a local cycle have been unchanged for cycle_hold. -/
def hangCycle (qs : List Nat) (s : State) : State :=
  if !isCycle s qs then s
  else
    let q := qs.headD 0
    let x := (s.queue q).ctx
    let s := qs.foldl (fun t q => breakQueue q t) s
    logError 0x0A 18 q (some x) stTimeout (cycleDetail qs 0xFFFF) (setHang 2 x q s)

/-- HANG_CYCLE. -/
def execHangCycle (queues : List Nat) (s : State) : Host.Outcome State Fault Refusal := net (hangCycle queues) s

/-! ## Hangs across devices (R426, R427) -/

/-- The context that runs a job. -/
def ctxOfTag (s : State) (tag : Nat) : Option Nat := (s.ctxs.find? (fun e => e.2.jobTag = tag && e.2.st ≠ .empty)).map (·.1)

/-- Both devices name each other for the job: this one among its two oldest waits, the peer in its last heartbeat. -/
def mutualWait (s : State) (peer tag : Nat) : Bool :=
  ((waits s).take 2).any (fun w => w.2.dev = peer && w.2.jobTag = tag)
    && (s.peer peer).markers.any (fun m => m.jobTag = tag && m.dev = s.plate.devIndex)

/-- CROSS_DEVICE_HANG: the two markers have stood for cross_hold: this device's waits on the peer for the job complete TIMEOUT. A barrier's
wait ends its step as a commit timeout does. -/
def crossHang (peer tag : Nat) (s : State) : State :=
  if !mutualWait s peer tag then s
  else match ctxOfTag s tag with
    | none => s
    | some x =>
      let mine := (waits s).filter (fun w => w.2.dev = peer && w.2.jobTag = tag)
      let s := if mine.any (fun w => w.2.cls = 0) then stepLoss x stTimeout s else s
      let cs := s.colls.filter (fun k => k.x = x && k.members.contains peer && !k.parts.any (fun e => e.1 = peer) && !k.counts.any (fun e => e.1 = peer))
      let s := if mine.any (fun w => w.2.cls = 1) then
          cs.foldl (fun t k => match k.queue with
            | some (q, n) => stopCollective q n t
            | none => endColl k stTimeout t) s
        else s
      logError 0x0A 18 0xFFFF (some x) stTimeout (cycleDetail [] peer) (setHang 3 x 0 s)

/-- CROSS_DEVICE_HANG. -/
def execCrossDeviceHang (peer jobTag : Nat) (s : State) : Host.Outcome State Fault Refusal := net (crossHang peer jobTag) s

end Sys2Proof.Machine
end

