-- ==== Sys2Proof/Machine/Reset.lean ====
section
/-! DEFINITION. Machine/Reset.lean: the reset domains of the device, crash sampling and summaries, re-driving (R428 to R435, R409, R410). -/
namespace Sys2Proof.Machine

/-! ## Crash sampling (R409, R410, R435) -/

/-- The tile status word of one of the six slots of the store: that of the group open there, Grid slot g lying on Fast slots 3g to 3g + 2; zero with none
open (R101, R409). -/
def slotWord (s : State) (c i : Nat) : Nat :=
  match groupOf s c false i, groupOf s c true (i / 3) with
  | some g, _ => g.word.toNat
  | none, some g => g.word.toNat
  | none, none => 0

/-- The first 4 KiB of a slot: the header, then status words, groups, position and records. R409 gives their order and no offsets (log
entry 50). -/
def crashHead (s : State) (c trigger seq time : Nat) : Bytes :=
  let k := s.cell c
  let sl := s.sl k.ctx
  let head := le 4 0x46464359 ++ le 2 c ++ le 1 k.ctx ++ le 1 trigger ++ le 8 seq ++ le 8 time ++ le 4 sl.epoch ++ le 8 sl.step
    ++ le 4 (phaseCode sl.phase) ++ le 4 (readCel s c 0) ++ le 4 (k.abort.toNat * 65536 + k.lateN.toNat) ++ zeros 16
  let words := (List.range 6).flatMap (fun i => le 4 (slotWord s c i)) ++ k.groups.flatMap (fun e => le 4 e.2.word.toNat)
  let groups := k.groups.flatMap (fun e => le 2 e.1 ++ le 2 e.2.mLen ++ le 2 e.2.nLen ++ le 4 e.2.kTotal ++ le 1 (b2n e.2.grid) ++ le 1 e.2.tmode)
  let pos := le 4 (match k.prog with | some p => p.next | none => 0)
  let body := (words ++ groups ++ pos ++ k.recs.flatten).take 4032
  head ++ body ++ zeros (4032 - body.length)

/-- Fills the crash slot of a cell: header, status store, and the two ends of the scratchpad. -/
def sampleCell (c trigger seq time : Nat) (s : State) : State :=
  let a := crashSlot s c
  let m := memWrite memFill s.mem a (crashHead s c trigger seq time)
  let m := memCopy m (cellWin c + 0x580000) (a + 0x1000) 0x30000
  let m := memCopy m (cellWin c) (a + 0x31000) 0x10000
  { s with mem := memCopy m (cellWin c + 0x3F0000) (a + 0x41000) 0x10000 }

/-- Samples the affected cells of one die that are neither IDLE nor FENCED, after the CRASH_SAMPLED event. -/
def sampleDie (d trigger : Nat) (cs : List Nat) (s : State) : State :=
  let hit := cs.filter (fun c => c / 32 = d && cellPresent s c && decide ((s.cell c).st ≠ .idle) && decide ((s.cell c).st ≠ .fenced))
  if hit.isEmpty then s
  else
    let seq := s.hub.ffSeq
    let time := fabricNs s
    let s := ffEvent 0x0162 4 18 d none (le 4 (ofBits (hit.map (· % 32))) ++ le 1 trigger) s
    let s := hit.foldl (fun t c => sampleCell c trigger seq time t) s
    s.modHub (fun h => { h with crashInfo := some (seq, time, trigger, (match h.crashInfo with | some i => if i.2.1 = time then i.2.2.2 else [] | none => []) ++ hit) })

/-- FAULT samples cells, die by die (R435). -/
def sampleCells (trigger : Nat) (cs : List Nat) (s : State) : State := (List.range 8).foldl (fun t d => sampleDie d trigger cs t) s

/-- CRASH_SAMPLE_REQUEST: the operator asks for a sampling. -/
def crashRequest (r : Requester) (cells : List Nat) (s : State) : State :=
  if r ≠ .operator then answer 435 stPerm [] s
  else if compDown s 2 then answer 435 stInternal [] s
  else answer 435 stOk [] (sampleCells 6 (sortBy (fun a b => decide (a < b)) cells.eraseDups) s)

/-- CRASH_SAMPLE_REQUEST. -/
def execCrashSampleRequest (r : Requester) (cells : List Nat) (s : State) : Host.Outcome State Fault Refusal := serving (crashRequest r cells) s

/-- The last 256 records of the event partition, oldest first. -/
def lastEvents (s : State) : Bytes :=
  (List.range 256).flatMap (fun i =>
    match s.hub.evRing.get none ((s.hub.evNext + 12288 - 256 + i) % 12288) with
    | some r => ffBytes r
    | none => [])

/-- The summary of the latest sampling. Its CRC covers it with the field as zero. -/
def crashBody (s : State) (i : Nat × Nat × Nat × List Nat) : Bytes :=
  let ev := lastEvents s
  let head := fun (crc : Nat) => le 4 0x53464359 ++ le 2 i.2.2.2.length ++ le 8 i.1 ++ le 8 i.2.1 ++ le 1 i.2.2.1 ++ le 8 crc ++ zeros 4065
  let rest := i.2.2.2.flatMap (fun c => peek s (crashSlot s c) 4096) ++ ev ++ zeros (16384 - ev.length)
  head (crc64 (head 0 ++ rest)) ++ rest

/-- ASCII characters as bytes. -/
def ascii (t : String) : Bytes := t.toList.map (fun c => BitVec.ofNat 8 c.toNat)

/-- The flash key (R475). -/
def flashKey : Bytes := hkdf (keyBytes Config.uds) [] (ascii "YF-FLASH") 32

/-- CRASH_SUMMARY: FAULT writes the summary of the latest sampling into the next of the four flash slots, whose bytes beyond it stay erased.
It is written under the flash key (R475). -/
def crashSummary (s : State) : State :=
  match s.hub.crashInfo with
  | none => s
  | some i =>
    let a := 0x100000 + 0x200000 * (s.boot.crashIdx % 4)
    let fl := s.flash.filter (fun c => !(decide (a ≤ c.1) && decide (c.1 < a + 0x200000)))
    { s with flash := memWrite flashFill fl a (Config.flashSeal flashKey (crashBody s i)),
             boot := { s.boot with crashIdx := (s.boot.crashIdx + 1) % 4 },
             hub := { s.hub with crashInfo := none } }

/-- CRASH_SUMMARY. -/
def execCrashSummary (s : State) : Host.Outcome State Fault Refusal := serving crashSummary s

/-! ## What every reset writes (R428, R429, R470) -/

/-- A fault-triggered reset of a domain: its record, and HUB_RESET_LAST and HUB_RESET_CNT; an unresponsive unit is named in HUB_HANG_CTX. -/
def noteReset (domain die unit trigger : Nat) (cell : Option Nat) (x : Nat) (s : State) : State :=
  let s := logError 0x12 die unit none 0 (le 1 domain ++ le 1 trigger ++ le 1 (cell.getD 0) ++ le 1 (b2n cell.isSome)) s
  (setHang 4 x 0 s).modHub (fun h => { h with
    rstDomain := BitVec.ofNat 4 domain, rstDie := BitVec.ofNat 5 die, rstCell := BitVec.ofNat 8 (cell.getD 0), rstTrig := BitVec.ofNat 7 trigger,
    rstCellV := cell.isSome, rstCount := bump h.rstCount 1 })

/-! ## Cells (R428, R429, R433) -/

/-- The stores and the sequencer of one cell are lost; its program waits for the re-drive. What it had staged at engines is gone. -/
def dropOne (c : Nat) (s : State) : State :=
  (unstage (fun k _ => k = c) (clearCell c s)).modCell c (fun k => { k with
    st := .resetting, tileIdx := 0, recs := [], prog := none, redrive := (match k.prog with | some p => some p | none => k.redrive) })

/-- The PAIRED groups of a cell are released. -/
def dropHalves (c : Nat) (s : State) : State := s.modCell c (fun k => { k with groups := k.groups.filter (fun g => g.2.tmode ≠ 1) })

/-- A cell is lost with what a pair holds in common (R108, R121): the odd halves of an even cell's PAIRED groups go with it, and an even cell
whose odd half is lost is reset and re-driven too, so that no drain ever gives one half for the whole. -/
def dropCell (c : Nat) (s : State) : State :=
  if !(s.cell c).halves then dropOne c s
  else if c % 2 = 0 then dropOne c (dropHalves (c + 1) s)
  else dropOne c (dropOne (c - 1) s)

/-- A program ends INTERNAL on its cell: the first tile without a record fails. -/
def killProgram (c : Nat) (p : Program) (s : State) : State :=
  endProgram c (s.modCell c (fun k => { k with prog := some { p with tiles := [], fail := some (p.written, stInternal) } }))

/-- A parked cell: its programs, the saved one too, complete INTERNAL, and a launch that waits to borrow it is placed anew. -/
def parkCell (c : Nat) (s : State) : State :=
  let k := s.cell c
  let s := s.modCell c (fun u => { u with parked := true, redrive := none, saved := none, stopFor := none, stopPre := false, restoring := false })
  let s := match k.stopFor with | some (q, m) => modCmd s q m (fun u => { u with borrow := none }) | none => s
  let s := match k.redrive with | some p => killProgram c p s | none => s
  match k.saved.bind (·.prog) with
  | some p => killProgram c p s
  | none => s

/-- CELL_RESET: a cell whose abort has not ended, or that has another fault, is sampled and reset; the third time within 60 s it is parked. -/
def cellReset (c trigger : Nat) (s : State) : State :=
  let k := s.cell c
  if !cellPresent s c || k.st = .resetting || !(decide (1 ≤ trigger) && decide (trigger ≤ 3)) then s
  else
    let s := sampleCells trigger [c] s
    let s := noteReset 1 (c / 32) c trigger (some c) k.ctx s
    let times := k.resets.filter (fun t => decide (s.clk - t < 60 * clkS))
    let s := (dropCell c s).modCell c (fun u => { u with resets := s.clk :: times })
    if times.length ≥ 2 then parkCell c s else s

/-- CELL_RESET. -/
def execCellReset (c trigger : Nat) (s : State) : Host.Outcome State Fault Refusal := serving (cellReset c trigger) s

/-- COMPUTE_DIE_RESET: the die's cells are sampled and reset together with its crossbar. -/
def dieReset (d : Nat) (s : State) : State :=
  if decide (d ≥ 8) || fenced s d then s
  else
    let cs := ((List.range 32).map (· + 32 * d)).filter (fun c => cellPresent s c && decide ((s.cell c).st ≠ .resetting))
    let s := sampleCells 4 cs s
    cs.foldl (fun t c => dropCell c t) (noteReset 2 d d 4 none 0 s)

/-- COMPUTE_DIE_RESET. -/
def execComputeDieReset (d : Nat) (s : State) : Host.Outcome State Fault Refusal := serving (dieReset d) s

/-- A program from its first tile again: records already written are not written again (R431). -/
def Program.again (p : Program) : Program :=
  { p with next := 0, tiles := [], skip := max p.skip p.written, written := 0, ended := false, fail := none }

/-- REDRIVE: the reset of a cell ends, and its program restarts from its first tile on the same cell (R431). A restore that the reset broke
off begins again, and a request to stop still stands. -/
def redrive (c : Nat) (s : State) : State :=
  let k := s.cell c
  if k.st ≠ .resetting || k.parked then s
  else
    let s := s.modCell c (fun u => { u with
      st := if k.redrive.isSome || k.restoring then .running else .idle, prog := k.redrive.map Program.again, redrive := none })
    let s := if k.redrive.isSome then s.modHub (fun h => { h with redrives := bump h.redrives 1 }) else s
    let s := if k.stopFor.isSome || k.stopPre then reachBoundary c (s.modCell c (fun u => { u with st := .stopping })) else s
    tryEnd c s

/-- REDRIVE. -/
def execRedrive (c : Nat) (s : State) : Host.Outcome State Fault Refusal := serving (redrive c) s

/-! ## Holders (R428, R429) -/

/-- HOLDER_RESET: the jobs of the engine complete INTERNAL, and staging and the soldier buffer are lost; memory is kept. Update jobs are
single commands of this model, so none is broken off midway (log entry 51). -/
def holderReset (h : Nat) (s : State) : State :=
  let k := s.holder h
  if !(presentHolders s).contains h || k.resetting then s
  else
    let s := noteReset 3 h h 0 none 0 s
    let s := match k.load, k.running with
      | some _, _ => endLoad h stInternal ((k.load.elim 0 (fun v => (v.passed.map v.lenOf).sum))) s
      | none, some j => endJob h j { s := s, st := stInternal }
      | none, none => s
    let s := k.queue.foldl (fun t j => endJob h j { s := t, st := stInternal }) s
    s.modHolder h (fun u => { u with queue := [], running := none, load := none, staged := [], announced := [], samples := [], stalled := false, resetting := true })

/-- HOLDER_RESET. -/
def execHolderReset (h : Nat) (s : State) : Host.Outcome State Fault Refusal := net (holderReset h) s

/-- HOLDER_RESET_END: the engine returns to service; commands in rings start by their own rows, and held contributions are offered again. -/
def holderResetEnd (h : Nat) (s : State) : State :=
  if !(s.holder h).resetting then s else offerAll (s.modHolder h (fun u => { u with resetting := false }))

/-- HOLDER_RESET_END. -/
def execHolderResetEnd (h : Nat) (s : State) : Host.Outcome State Fault Refusal := net (holderResetEnd h) s

/-! ## Link dies (R428, R429) -/

/-- LINK_DIE_RESET: the sub-ports of the die go down with their keys, its reduction store is lost, and the collectives that use it complete
INTERNAL. It ends when a sub-port of the die is up again. -/
def linkDieReset (d : Nat) (s : State) : State :=
  if (d ≠ 16 && d ≠ 17) || fenced s d || (s.link d).resetting then s
  else
    let s := noteReset 4 d d 0 none 0 s
    let s := (s.ports.filter (fun e => e.2.present && dieOfLane e.1 = d)).foldl (fun t e => portDown e.1 t) s
    let s : State := { s with red := s.red.filter (fun r => r.die ≠ d) }
    let s := s.modLink d (fun l => { l with resetting := true })
    (s.colls.filter (fun k => k.die = d)).foldl (fun t k =>
      match findColl t k.x k.op k.group k.num with
      | some c => endColl c stInternal t
      | none => t) s

/-- LINK_DIE_RESET. -/
def execLinkDieReset (d : Nat) (s : State) : Host.Outcome State Fault Refusal := net (linkDieReset d) s

/-! ## Hub cores (R390, R391, R428, R429, R434) -/

/-- HUB_CORE_RESET: the watchdog of a hub core expires: its compartments stop; the third such reset within 60 s starts a device warm
reset. -/
def hubCoreReset (core : Nat) (s : State) : State :=
  if decide (core ≥ hubCores s) || s.hub.coreReset.contains core then s
  else
    let s := noteReset 5 18 core 0 none 0 s
    let times := s.hub.coreResets.filter (fun t => decide (s.clk - t < 60 * clkS))
    let s := s.modHub (fun h => { h with
      coreReset := h.coreReset ++ [core], coreResets := s.clk :: times,
      comps := h.comps.map (fun c => if c.core = core && c.st = 1 then { c with st := 2 } else c) })
    if times.length ≥ 2 then warmReset s else s

/-- HUB_CORE_RESET. -/
def execHubCoreReset (core : Nat) (s : State) : Host.Outcome State Fault Refusal := powered (hubCoreReset core) s

/-- HUB_CORE_RESET_END: the core is back, and its compartments restart. -/
def hubCoreResetEnd (core : Nat) (s : State) : State :=
  if !s.hub.coreReset.contains core then s
  else
    let s := s.modHub (fun h => { h with coreReset := h.coreReset.filter (· ≠ core) })
    (List.range 5).foldl (fun t c => if (compOf t c).st = 2 && (compOf t c).core = core then restartComp c 0 t else t) s

/-- HUB_CORE_RESET_END. -/
def execHubCoreResetEnd (core : Nat) (s : State) : Host.Outcome State Fault Refusal :=
  powered (fun t => deliver 65536 (hubCoreResetEnd core t)) s

/-! ## The whole device (R429, R434, R472) -/

/-- ROT_FAULT: a fault of the root of trust, or its watchdog, starts a device warm reset (R472). -/
def execRotFault (s : State) : Host.Outcome State Fault Refusal := powered warmReset s

/-- RESET_ESCALATION: a domain reset that has not ended in ten times its duration, or MGMT left FAILED for 60 s, starts a device warm reset. -/
def escalate (s : State) : State :=
  if s.holders.any (fun e => e.2.resetting) || s.links.any (fun e => e.2.resetting) || s.cells.any (fun e => e.2.st = .resetting && !e.2.parked)
      || (compOf s 3).st = 3 then warmReset s else s

/-- RESET_ESCALATION. -/
def execResetEscalation (s : State) : Host.Outcome State Fault Refusal := powered escalate s

/-- DEVICE_WARM_RESET: the operator, whose authority the fleet manager acts with, asks for a device warm reset. -/
def warmRequest (r : Requester) (s : State) : State := if r = .operator then warmReset s else answer 434 stPerm [] s

/-- DEVICE_WARM_RESET. -/
def execDeviceWarmReset (r : Requester) (s : State) : Host.Outcome State Fault Refusal := powered (warmRequest r) s

end Sys2Proof.Machine
end

