-- ==== Sys2Proof/Machine/Soldier.lean ====
section
/-! DEFINITION. Machine/Soldier.lean: soldier checks and their verdicts, and thermal replay (R439 to R447). The checker's and the referee's
results come with the command: they are what a unit that may be faulty computed. -/
namespace Sys2Proof.Machine

/-! ## Soldier checks (R440 to R443) -/

/-- The samples in the buffer of a compute die (0 to 7) or of a holder, oldest first. -/
def samplesOf (s : State) (d : Nat) : List Sample :=
  if d < 8 then s.cellSamples.filter (fun e => e.unit / 32 = d) else (s.holder d).samples

/-- Puts `new` in the place of a sample, or takes it out. -/
def putSample (d : Nat) (old : Sample) (new : Option Sample) (s : State) : State :=
  let f := fun (l : List Sample) => match new with
    | some n => l.map (fun e => if e = old then n else e)
    | none => l.erase old
  if d < 8 then { s with cellSamples := f s.cellSamples } else s.modHolder d (fun k => { k with samples := f k.samples })

/-- A sample of the open step has its verdict: the vote may go (R442). -/
def sampleDone (e : Sample) (s : State) : State :=
  if e.matrix && e.jobbed && (s.sl e.ctx).step = e.step then
    trySendVote e.ctx (s.modSl e.ctx (fun l => { l with soldierWait := l.soldierWait - 1 }))
  else s

/-- SOLDIER_CHECK: the checker has computed the oldest sample of a buffer that has no result yet; one equal to the original's passes. -/
def soldierCheck (d : Nat) (result : Bytes) (s : State) : State :=
  match (samplesOf s d).find? (fun e => e.check.isNone) with
  | none => s
  | some e =>
    if result = e.witness then sampleDone e (putSample d e none s)
    else putSample d e (some { e with check := some result }) s

/-- SOLDIER_CHECK. -/
def execSoldierCheck (h : Nat) (result : Bytes) (s : State) : Host.Outcome State Fault Refusal := net (soldierCheck h result) s

/-- The u64 that stands for a result in a record: a witness as it is, output bytes by their CRC (log entry 52). -/
def witness64 (e : Sample) (b : Bytes) : Bytes := if e.matrix then (b ++ zeros 8).take 8 else le 8 (crc64 b)

/-- The verdict (R441): 1 CHECKER_FAULT, 2 ORIGINAL_FAULT, 3 UNRESOLVED. -/
def verdictOf (e : Sample) (check referee : Bytes) : Nat := if referee = e.witness then 1 else if referee = check then 2 else 3

/-- Writes bytes over a list of places, in order. -/
def pokeOver (at_ : List (Nat × Nat)) (b : Bytes) (s : State) : State :=
  (at_.foldl (fun (r : State × Bytes) o => (poke r.1 o.1 (r.2.take o.2), r.2.drop o.2)) (s, b)).1

/-- What the device does on a verdict that blames the original or nobody (R442). -/
def actOnVerdict (e : Sample) (check : Bytes) (s : State) : State :=
  if !e.matrix then pokeOver e.outAt check s
  else if e.jobbed && (s.sl e.ctx).step = e.step then s.modSl e.ctx (fun l => { l with soldierFail := true })
  else s

/-- SOLDIER_REFEREE: the referee has computed the oldest sample whose results differ: the verdict is recorded and acted on. -/
def soldierReferee (d : Nat) (result : Bytes) (s : State) : State :=
  match (samplesOf s d).find? (fun e => e.check.isSome) with
  | none => s
  | some e =>
    let check := e.check.getD []
    let v := verdictOf e check result
    let die := if e.matrix then e.unit / 32 else e.unit
    let detail := le 1 (if e.matrix then 0 else 1) ++ le 1 v ++ le 2 e.unit ++ le 2 e.checker ++ le 2 e.referee ++ le 1 e.ctx ++ le 2 e.tag
      ++ le 8 e.index ++ witness64 e e.witness ++ witness64 e check
    let s := logErrorP (if v = 3 then 250 else 150) 0x0B die e.unit (some e.ctx) stSdc detail s
    let s := s.modHub (fun h => { h with solMis := bump h.solMis 1 })
    let s := if e.jobbed && (s.sl e.ctx).step = e.step then s.modSl e.ctx (fun l => { l with soldierBad := l.soldierBad + 1 }) else s
    let s := if v = 1 then s else actOnVerdict e check s
    sampleDone e (putSample d e none s)

/-- SOLDIER_REFEREE. -/
def execSoldierReferee (h : Nat) (result : Bytes) (s : State) : Host.Outcome State Fault Refusal := net (soldierReferee h result) s

/-! ## Thermal replay (R445 to R447) -/

/-- The fields of a request are in range. -/
def replayOk (d : Nat) (sp : List (Int × Nat × Nat)) (tol occ memClass holdS : Nat) : Bool :=
  decide (d < 20) && decide (1 ≤ sp.length) && decide (sp.length ≤ 8)
    && sp.all (fun p => decide (-32768 ≤ p.1) && decide (p.1 ≤ 32767) && decide (p.2.1 ≤ p.2.2))
    && decide (8 ≤ tol) && decide (tol ≤ 160) && decide (occ ≤ 100) && (decide (d < 8) || decide (occ = 0)) && decide (memClass ≤ 15)
    && ((decide (8 ≤ d) && decide (d ≠ 16) && decide (d ≠ 17) && decide (d ≠ 18)) || decide (memClass = 0)) && decide (1 ≤ holdS) && decide (holdS ≤ 600)

/-- The status of a request (R445): operator authority, a context opened with the replay bit, a present die, one replay at a time. -/
def replayStatus (s : State) (session x d : Nat) (sp : List (Int × Nat × Nat)) (tol occ memClass holdS refAddr : Nat) : Nat :=
  firstOf [(!isOperator s session, stPerm), (!replayOk d sp tol occ memClass holdS, stBad), (decide (d < 20) && fenced s d, stOff),
    (!mayAccess s x refAddr 1024 false true, stPerm),
    (s.hub.replay.isSome || (s.ctx x).st = .empty || !(match (s.ctx x).job with | some j => j.replay | none => false), stConflict)]

/-- THERMAL_REPLAY: an accepted request is answered when its last setpoint has ended. -/
def thermalReplay (session x d : Nat) (sp : List (Int × Nat × Nat)) (tol occ memClass holdS refAddr : Nat) (s : State) : State :=
  let st := replayStatus s session x d sp tol occ memClass holdS refAddr
  if st ≠ stOk then answer 445 st [] s
  else
    let s := s.modHub (fun h => { h with replay := some {
      x := x, die := d, points := sp, tol := tol, occ := occ, memClass := memClass, holdS := holdS, refAddr := refAddr } })
    noteCaps { s with pwr := { s.pwr with repCap := true } }

/-- THERMAL_REPLAY. -/
def execThermalReplay (session x d : Nat) (setpoints : List (Int × Nat × Nat)) (tol occ memClass holdS refAddr : Nat) (s : State) :
    Host.Outcome State Fault Refusal := serving (thermalReplay session x d setpoints tol occ memClass holdS refAddr) s

/-- SETPOINT_HOLD: the die has stayed within tolerance for hold_s: the setpoint's first step may open (R446). -/
def setpointHold (s : State) : State :=
  match s.hub.replay with
  | none => s
  | some r => s.modHub (fun h => { h with replay := some { r with held := true } })

/-- SETPOINT_HOLD. -/
def execSetpointHold (s : State) : Host.Outcome State Fault Refusal := serving setpointHold s

/-- SETPOINT_SKIP: a setpoint not reached within 600 s is skipped, with a THERMAL_LIMIT record. -/
def setpointSkip (s : State) : State :=
  match s.hub.replay with
  | none => s
  | some r =>
    if r.held then s
    else endSetpoint 2 (logError 0x10 r.die 0 none 0 (le 1 r.die ++ le 2 (ofSigned 16 (hottest s r.die))) s)

/-- SETPOINT_SKIP. -/
def execSetpointSkip (s : State) : Host.Outcome State Fault Refusal := serving setpointSkip s

end Sys2Proof.Machine
end

