-- ==== Sys2Proof/Machine/Stream.lean ====
section
/-! DEFINITION. Machine/Stream.lean: the Carapace stream as bytes: envelope, plates, fields, ranges, shapes (R507 to R513, R272, R274, R322 to
R339, R348, R397). R510 gives the job fields their ids and R274 its rows, and neither gives the widths of the values: the encodings below
are the model's (log entry 54). -/
namespace Sys2Proof.Machine

/-! ## Envelope and plates (R507, R508) -/

/-- Fields of the 64 header bytes. -/
structure Envelope where
  shape   : Nat
  seq     : Nat
  serial  : Nat
  length  : Nat
  count   : Nat
  signer  : Nat
  kind    : Nat
  baseSeq : Nat
  deriving DecidableEq, Repr

/-- The envelope of a stream; none for another magic, version, reserved byte, code or length. -/
def envelopeOf (b : Bytes) : Option Envelope :=
  let len := leAt b 24 4
  if decide (leAt b 0 4 ≠ 0x53434659) || decide (leAt b 4 2 ≠ 1) || decide (len ≠ b.length) || decide (leAt b 30 1 > 3) || decide (leAt b 31 1 > 1)
      || (slice b 40 24).any (· ≠ 0) || decide (leAt b 6 2 > 3 ∧ leAt b 31 1 = 0) || decide (leAt b 31 1 = 1 ∧ leAt b 8 8 ≠ 0) then none
  else some { shape := leAt b 6 2, seq := leAt b 8 8, serial := leAt b 16 8, length := len, count := leAt b 28 2, signer := leAt b 30 1,
              kind := leAt b 31 1, baseSeq := leAt b 32 8 }

/-- Bytes of the signer block and the signatures. -/
def tailLen (e : Envelope) : Nat := if e.signer = 3 then 0 else 512 + 2592 + 512 + 4627

/-- A field record: its id and value. -/
abbrev Field := Nat × Bytes

/-- The field records of a plate body; none when one does not fit or its padding or reserved byte is not zero. -/
def fieldsOf : Nat → Bytes → Option (List Field)
  | 0, _ => none
  | n + 1, b =>
    if b.isEmpty then some []
    else
      let len := leAt b 2 2
      let all := alignUp (4 + len) 8
      if b.length < all || decide (leAt b 1 1 ≠ 0) || (slice b (4 + len) (all - 4 - len)).any (· ≠ 0) then none
      else (fieldsOf n (b.drop all)).map ((leAt b 0 1, slice b 4 len) :: ·)

/-- The plates of a stream, type and body; none when they do not fit. -/
def platesOf : Nat → Bytes → Option (List (Nat × Bytes))
  | 0, b => if b.isEmpty then some [] else none
  | n + 1, b =>
    let len := 8 * leAt b 2 2
    if decide (b.length < 4 + len) || decide (leAt b 1 1 ≠ 0) then none
    else (platesOf n (b.drop (4 + len))).map ((leAt b 0 1, slice b 4 len) :: ·)

/-- A fault of R508: 0x22 PLATE_FORMAT or 0x23 PLATE_RANGE, with the detail of R494. -/
abbrev PlateErr := Nat × Nat

/-- PLATE_FORMAT for a field. -/
def badForm (t i : Nat) : PlateErr := (0x22, 256 * t + i)
/-- PLATE_RANGE for a field. -/
def badRange (t i : Nat) : PlateErr := (0x23, 256 * t + i)

/-- A field of a plate type: whether it may repeat, and the lengths it may have; none for an unknown id. -/
def fieldForm (t i : Nat) : Option (Bool × (Nat → Bool)) :=
  let one := fun (n : Nat) => some (false, fun l => decide (l = n))
  let each := fun (n : Nat) => some (false, fun l => decide (l % n = 0))
  let many := fun (n : Nat) => some (true, fun l => decide (l = n))
  match t with
  | 0x01 => (match i with
    | 1 => one 2 | 2 => some (false, fun l => l = 16 || l = 20) | 3 => one 6 | 4 => one 2 | 5 => some (false, fun l => l = 16 || l = 4) | _ => none)
  | 0x02 => (match i with | 1 => one 4 | 2 => one 32 | 3 => one 1 | _ => none)
  | 0x03 => (match i with | 1 => many 200 | 2 => one 2 | _ => none)
  | 0x04 => (match i with | 1 => one 8 | 2 => one 2 | 3 => one 64 | 4 => one 2 | _ => none)
  | 0x05 => (match i with
    | 1 => one 9 | 2 => each 24 | 3 => each 8 | 4 => some (false, fun _ => true) | 5 => one 2 | 6 => one 3 | 7 => one 1 | 8 => one 2 | 9 => one 3
    | 10 => one 4 | 11 => one 4 | 12 => one 6 | 13 => one 1 | 14 => one 4 | 15 => one 2 | 16 => one 1 | 17 => one 1 | 18 => one 2 | 19 => one 1
    | 0x20 => one 2 | 0x21 => one 72 | 0x22 => one 2 | _ => none)
  | 0x06 => (match i with | 1 => many 36 | 2 => many 6 | 3 => many 5 | _ => none)
  | 0x08 => (match i with | 1 => one 64 | _ => none)
  | 0x10 => (match i with
    | 1 => one 1 | 2 => one 4 | 3 => one 4 | 4 => each 2 | 5 => one 6 | 6 => each 2 | 7 => one 8
    | 8 => some (true, fun l => decide (l ≥ 8) && decide ((l - 8) % 64 = 0)) | 9 => each 4 | 10 => each 1 | 11 => each 1
    | 12 => some (true, fun l => decide (l ≥ 4) && l % 2 = 0) | 13 => some (true, fun l => decide (l ≥ 2) && l % 2 = 0) | 14 => one 2
    | 15 => some (true, fun l => decide (l ≥ 24)) | 16 => some (false, fun l => decide (l ≥ 8) && l % 8 = 0)
    | 0x70 => one 8 | 0x71 => some (false, fun l => decide (l ≥ 4) && l % 4 = 0) | 0x72 => one 128
    | 0x73 => some (false, fun l => decide (l ≥ 2) && l % 2 = 0)
    | 0x74 => some (true, fun l => decide (l ≥ 8) && decide ((l - 8) % 64 = 0)) | 0x7E => each 8 | 0x7F => each 8 | _ => none)
  | _ => none

/-- The fields of the plates nested in a carapace section: numerics (R510) and schedule (R397). -/
def nestedForm (t i : Nat) : Option (Bool × (Nat → Bool)) :=
  if t = 8 then (match i with
    | 0x10 => some (false, (· = 2)) | 0x11 => some (false, (· = 2)) | 0x12 => some (false, (· = 1)) | 0x13 => some (false, (· = 1))
    | 0x14 => some (false, (· = 4)) | 0x15 => some (false, (· = 1)) | 0x16 => some (false, (· = 1)) | 0x17 => some (false, (· = 2))
    | 0x18 => some (false, (· = 2)) | 0x19 => some (false, (· = 4)) | 0x1A => some (false, (· = 1)) | _ => none)
  else if i = 1 then some (true, (· = 24)) else none

/-- Ids in order, known, of a right length, and repeated only where R508 allows it; the first that is not. -/
def checkFields (t : Nat) (form : Nat → Nat → Option (Bool × (Nat → Bool))) : Option Nat → List Field → Option PlateErr
  | _, [] => none
  | prev, (i, v) :: rest =>
    match form t i with
    | none => some (badForm t i)
    | some (rep, ok) =>
      if !ok v.length then some (badForm t i)
      else match prev with
        | some p => if i < p || (i = p && !rep) then some (badForm t i) else checkFields t form (some i) rest
        | none => checkFields t form (some i) rest

/-- Plates with their fields: ascending types, device-level types once, fields in form. -/
def readPlates : Option Nat → List (Nat × Bytes) → Except PlateErr (List (Nat × List Field))
  | _, [] => .ok []
  | prev, (t, body) :: rest =>
    let known := [1, 2, 3, 4, 5, 6, 8, 0x10].contains t
    let order := match prev with | some p => decide (p < t) || (p = t && t = 0x10) | none => true
    if !known || !order then .error (badForm t 0)
    else match fieldsOf (body.length + 1) body with
      | none => .error (badForm t 0)
      | some fs =>
        match checkFields t fieldForm none fs with
        | some e => .error e
        | none => match readPlates (some t) rest with
          | .error e => .error e
          | .ok l => .ok ((t, fs) :: l)

/-- The plates of a stream; PLATE_FORMAT when count or lengths do not fit. -/
def streamPlates (e : Envelope) (b : Bytes) : Except PlateErr (List (Nat × List Field)) :=
  match platesOf e.count (slice b 64 (e.length - 64 - tailLen e)) with
  | none => .error (badForm 0 0)
  | some l =>
    if (l.filter (fun p => p.1 = 0x10)).length > 64 then .error (badForm 0x10 0) else readPlates none l

/-! ## The configuration that a stream gives -/

/-- A context of the partition plate (R511). -/
structure CtxPl where
  ctx   : Nat
  lc    : Bool
  owned : Nat
  guest : Nat := 0
  rsa   : Bytes := []
  mldsa : Bytes := []
  deriving DecidableEq, Repr

/-- A queue range (R511). -/
structure QRange where
  first   : Nat
  count   : Nat
  ctx     : Nat
  log2    : Nat := 8
  halt    : Nat := 0xFF
  timeout : Nat := 0
  ring    : Nat := 0
  cpl     : Nat := 0
  stride  : Nat := 0
  deriving DecidableEq, Repr

/-- What an amendment says about the molt of a carapace section, beside the carapace: ids 0x70 to 0x74 of the model (log entry 54). -/
structure MoltAsk where
  sMin       : Nat := 0
  recover    : Bool := false
  checkpoint : Bool := false
  heirs      : List (Nat × Nat) := []
  desc       : Option Bytes := none      -- the 128 bytes of R358 for a context that the molt creates
  members    : List Nat := []            -- the carapace before, for a device new to the job
  slots      : List SlotEnt := []
  deriving DecidableEq, Repr

/-- Everything that a stream configures. -/
structure Conf where
  plate    : Plate := {}
  ctxs     : List CtxPl := []
  explicit : Bool := false               -- the contexts stand in the stream, not in the shape
  queues   : List QRange := []
  seqs     : List (Nat × Nat × Nat) := []
  chans    : List (Nat × Nat × Nat × Nat) := [(0, 1, 0, 18), (1, 2, 0, 18)]
  modes    : List Nat := List.replicate 64 0
  scrub    : Nat × Nat := (24, 6)
  jobs     : List (Job × MoltAsk) := []
  deriving DecidableEq, Repr

/-- The cells from lo to hi − 1 as a mask. -/
def cellMask (lo hi : Nat) : Nat := 2 ^ hi - 2 ^ lo

/-- Contexts, queues and sequence tags of a shape (R513). -/
def shapeConf (shape : Nat) : Conf :=
  let split := if shape = 0 then [0, 0, 0, 0, 0, 0, 0, 0, 0] else [1, 1, 1, 1, 2, 1, 1, 1, 1]
  let c : Conf := { plate := { shape := shape, split := split, parityReg := List.replicate 64 255, cakSlot := List.replicate 72 0,
                               mgmtAddr := [0xFE, 0x80, 0, 0, 0, 0, 0, 0] ++ be 8 Config.serial.toNat } }
  match shape with
  | 1 => { c with ctxs := [{ ctx := 1, lc := false, owned := cellMask 0 256 }], queues := [{ first := 64, count := 16320, ctx := 1 }] }
  | 2 => { c with
      ctxs := [{ ctx := 1, lc := false, owned := cellMask 0 192 }, { ctx := 5, lc := true, owned := cellMask 192 256, guest := cellMask 64 72 }],
      queues := [{ first := 64, count := 8160, ctx := 1 }, { first := 8224, count := 8160, ctx := 5 }], seqs := [(5, 0, 1024)] }
  | 3 => { c with
      ctxs := (List.range 4).map (fun i => { ctx := 5 + i, lc := true, owned := cellMask (64 * i) (64 * i + 64) }),
      queues := (List.range 4).map (fun i => { first := 64 + 4080 * i, count := 4080, ctx := 5 + i }),
      seqs := (List.range 4).map (fun i => (5 + i, 256 * i, 256)) }
  | _ => c

/-! ## Device-level fields (R274, R511) -/

/-- Splits bytes into pieces of n. -/
def chop (n : Nat) (b : Bytes) : List Bytes := (List.range (b.length / max 1 n)).map (fun i => slice b (n * i) n)

/-- Little-endian u16 values. -/
def u16s (b : Bytes) : List Nat := (chop 2 b).map ofLe

/-- An optional value from a check. -/
def whenOk {α : Type} (ok : Bool) (a : α) : Option α := if ok then some a else none

/-- The peer table: device u16, count u8, zero u8, then addresses of 16 bytes. -/
def peersOf : Nat → Bytes → Option (List (Nat × List Bytes))
  | 0, _ => none
  | n + 1, b =>
    if b.isEmpty then some []
    else
      let c := leAt b 2 1
      if decide (b.length < 4 + 16 * c) || decide (c > 16) || decide (leAt b 0 2 ≥ 0x4000) then none
      else (peersOf n (b.drop (4 + 16 * c))).map ((leAt b 0 2, chop 16 (slice b 4 (16 * c))) :: ·)

/-- Local addresses: first lane u8, a flag u8 that an IPv4 address is there, two zero bytes, IPv4, IPv6. -/
def addrsOf (b : Bytes) : List (Nat × Bytes) :=
  (chop 24 b).flatMap (fun e => (leAt e 0 1, slice e 8 16) :: (if bit (leAt e 1 1) 0 then [(leAt e 0 1, slice e 4 4)] else []))

/-- A field of the link plate. -/
def linkField (i : Nat) (v : Bytes) (p : Plate) : Option Plate :=
  let a := fun (k : Nat) => leAt v k 1
  let w := fun (k : Nat) => leAt v k 2
  let d := fun (k : Nat) => leAt v k 4
  match i with
  | 1 => whenOk (v.all (fun x => decide (x.toNat ≤ 4)) && decide (a 4 ≠ 1)) { p with split := v.map BitVec.toNat }
  | 2 => whenOk ((chop 24 v).all (fun e => decide (leAt e 0 1 < 72) && decide (leAt e 1 1 ≤ 1) && leAt e 2 2 = 0)) { p with addrs := addrsOf v }
  | 3 => whenOk ((chop 8 v).all (fun e => decide (leAt e 0 1 < 72))) { p with nexthop := (chop 8 v).map (fun e => (leAt e 0 1, leAt e 2 6)) }
  | 4 => (peersOf (v.length + 1) v).bind (fun l => whenOk (decide (l.length ≤ 16384)) { p with peerTab := l })
  | 5 => whenOk (decide (1024 ≤ w 0)) { p with udpPort := w 0 }
  | 6 => whenOk (decide (a 0 ≤ 1) && decide (1 ≤ w 1) && decide (w 1 ≤ 4094)) { p with vlanEn := decide (a 0 = 1), vid := w 1 }
  | 7 => some { p with pfcMask := BitVec.ofNat 8 (a 0) }
  | 8 => whenOk (decide (10 ≤ w 0) && decide (w 0 ≤ 1000)) { p with pfcWdog := w 0 }
  | 9 => whenOk (v.all (fun x => decide (1 ≤ x.toNat) && decide (x.toNat ≤ 63))) { p with dwrr := v.map BitVec.toNat }
  | 10 => whenOk (decide (20 ≤ d 0) && decide (d 0 ≤ 10000)) { p with hbInt := d 0 }
  | 11 => whenOk (decide (200 ≤ d 0) && decide (d 0 ≤ 1000000)) { p with peerTo := d 0 }
  | 12 => whenOk (decide (10 ≤ w 2) && decide (w 2 ≤ w 0) && decide (w 0 ≤ w 4) && decide (w 4 ≤ 10000)) { p with rtoInit := w 0, rtoMin := w 2, rtoMax := w 4 }
  | 13 => whenOk (decide (1 ≤ a 0) && decide (a 0 ≤ 64)) { p with retx := a 0 }
  | 14 => whenOk (decide (100 ≤ w 0) && decide (w 0 ≤ 50000) && decide (100 ≤ w 2) && decide (w 2 ≤ 50000)) { p with ai := w 0, rateMin := w 2 }
  | 15 => whenOk (decide (10 ≤ w 0) && decide (w 0 ≤ 1000)) { p with tInc := w 0 }
  | 16 => whenOk (decide (a 0 ≤ 2)) { p with macsec := a 0 }
  | 17 => whenOk (decide (a 0 ≤ 1)) { p with cipher := a 0 }
  | 18 => whenOk ((decide (a 0 < 72) || a 0 = 0x7F) && (decide (a 1 < 72) || a 1 = 0x7F)) { p with ptpLane := a 0, ptpStand := a 1 }
  | 19 => whenOk (decide (a 0 ≤ 1)) { p with ppsEn := decide (a 0 = 1) }
  | 0x20 => whenOk (decide (w 0 < 0x4000) || w 0 = 0xFFFF) { p with bridge := w 0 }
  | 0x21 => whenOk (v.all (fun x => decide (x.toNat ≤ 15) || x.toNat = 0xFF)) { p with cakSlot := v.map BitVec.toNat }
  | 0x22 => whenOk (decide (100 ≤ w 0) && decide (w 0 ≤ 10000)) { p with trainWait := w 0 }
  | _ => none

/-- A context of the partition plate. -/
def ctxField (v : Bytes) : Option CtxPl :=
  let z := fun (b : Bytes) => if b.all (· = 0) then [] else b
  let c : CtxPl := { ctx := leAt v 0 1, lc := decide (leAt v 1 1 = 1), owned := leAt v 8 32, guest := leAt v 40 32, rsa := z (slice v 72 64),
                     mldsa := z (slice v 136 64) }
  whenOk (decide (c.ctx < 64) && decide (leAt v 1 1 ≤ 1) && leAt v 2 6 = 0 && (c.lc || c.guest = 0)) c

/-- A queue range of the queue plate. -/
def queueField (v : Bytes) : Option QRange :=
  let r : QRange := { first := leAt v 0 2, count := leAt v 2 2, ctx := leAt v 4 1, log2 := leAt v 5 1, halt := leAt v 6 1, timeout := leAt v 8 4,
                      ring := leAt v 12 8, cpl := leAt v 20 8, stride := leAt v 28 4 }
  whenOk (decide (64 ≤ r.first) && decide (r.first + r.count ≤ 16384) && decide (r.ctx < 64) && decide (4 ≤ r.log2) && decide (r.log2 ≤ 16)
    && (decide (r.halt ≤ 1) || r.halt = 0xFF) && leAt v 7 1 = 0 && decide (r.timeout ≤ 60000) && r.ring % 4096 = 0 && r.cpl % 4096 = 0
    && r.stride % 4096 = 0 && leAt v 32 4 = 0) r

/-- One device-level field applied to a configuration; none when its value is out of range. -/
def confField (t i : Nat) (v : Bytes) (c : Conf) : Option Conf :=
  let w := leAt v 0 2
  let p := c.plate
  match t, i with
  | 1, 1 => whenOk (decide (w < 0x4000)) { c with plate := { p with devIndex := w } }
  | 1, 2 => some { c with plate := { p with mgmtAddr := v } }
  | 1, 3 => some { c with plate := { p with mgmtHop := leAt v 0 6 } }
  | 1, 4 => whenOk (decide (1024 ≤ w)) { c with plate := { p with spdmPort := w } }
  | 1, 5 => some { c with plate := { p with fmAddr := some v } }
  | 2, 1 => whenOk (decide (leAt v 0 4 < 2 ^ 20) && !bit (leAt v 0 4) 18) { c with plate := { p with dieFence := BitVec.ofNat 20 (leAt v 0 4) } }
  | 2, 2 => some { c with plate := { p with cellFence := BitVec.ofNat 256 (ofLe v) } }
  | 2, 3 => whenOk (decide (leAt v 0 1 < 15)) { c with plate := { p with coreFence := BitVec.ofNat 4 (leAt v 0 1) } }
  | 3, 1 => (ctxField v).map (fun e => { c with ctxs := c.ctxs ++ [e], explicit := true })
  | 3, 2 => whenOk (decide (w ≤ 10000)) { c with plate := { p with holdUs := w } }
  | 4, 1 => whenOk (v.zipIdx.all (fun e => match e.2 with
      | 4 => e.1.toNat = 0 || e.1.toNat = 2
      | 5 => e.1.toNat = 0 || e.1.toNat = 1
      | 7 => decide (e.1.toNat ≤ 3)
      | _ => decide (e.1.toNat ≤ 2))) { c with plate := { p with placement := v.map BitVec.toNat } }
  | 4, 2 => whenOk (decide (1 ≤ w) && decide (w ≤ 600)) { c with plate := { p with shardTo := w } }
  | 4, 3 => some { c with plate := { p with parityReg := v.map BitVec.toNat } }
  | 4, 4 => whenOk (v.all (fun x => decide (1 ≤ x.toNat) && decide (x.toNat ≤ 168))) { c with scrub := (leAt v 0 1, leAt v 1 1) }
  | 5, _ => (linkField i v p).map (fun q => { c with plate := q })
  | 6, 1 => (queueField v).map (fun e => { c with queues := c.queues ++ [e] })
  | 6, 2 => whenOk (decide (leAt v 0 1 < 64) && leAt v 1 1 = 0 && decide (leAt v 2 2 + leAt v 4 2 ≤ 1024)) { c with seqs := c.seqs ++ [(leAt v 0 1, leAt v 2 2, leAt v 4 2)] }
  | 6, 3 => whenOk (decide (leAt v 0 1 < 64) && decide (leAt v 1 1 ≤ 4) && decide (leAt v 4 1 < 20))
      { c with chans := putKey c.chans (leAt v 0 1) (leAt v 1 1, leAt v 2 2, leAt v 4 1) }
  | 8, 1 => whenOk (v.all (fun x => decide (x.toNat ≤ 2))) { c with modes := v.map BitVec.toNat }
  | _, _ => none

/-- A repeated field that a plate gives replaces every entry that stood there (log entry 54). -/
def clearRepeated (t : Nat) (fs : List Field) (c : Conf) : Conf :=
  let has := fun (i : Nat) => fs.any (fun f => f.1 = i)
  let c := if t = 3 && has 1 then { c with ctxs := [] } else c
  let c := if t = 6 && has 1 then { c with queues := [] } else c
  if t = 6 && has 2 then { c with seqs := [] } else c

/-- The fields of one device-level plate, in order. -/
def confFields (t : Nat) : List Field → Conf → Except PlateErr Conf
  | [], c => .ok c
  | (i, v) :: rest, c =>
    match confField t i v c with
    | none => .error (badRange t i)
    | some c => confFields t rest c

/-! ## Carapace sections (R322 to R339, R348, R397, R510) -/

/-- A slot-map entry (R328); none when a reserved bit is set or the holder is none. -/
def slotEntOf (b : Bytes) : Option SlotEnt :=
  let e : SlotEnt := { member := leAt b 0 2, holder := leAt b 2 1, hi := leAt b 8 8, lo := leAt b 16 8, m1 := leAt b 24 8, m2 := leAt b 32 8,
                       expP := leAt b 40 8, streakP := leAt b 48 8, grad := leAt b 56 8 }
  whenOk (((decide (8 ≤ e.holder) && decide (e.holder ≤ 15)) || e.holder = 19) && leAt b 3 5 = 0
    && [e.hi, e.lo, e.m1, e.m2, e.expP, e.streakP, e.grad].all (fun a => decide (a < 2 ^ 48))) e

/-- The slot map that repeated fields give: the first slot u16, six zero bytes, then entries. -/
def slotMapOf (id : Nat) (fs : List Field) : Option (List SlotEnt) :=
  let parts := (fs.filter (fun f => f.1 = id)).map (·.2)
  parts.foldl (fun acc v => acc.bind (fun l =>
    if leAt v 0 2 ≠ l.length || decide (leAt v 2 6 ≠ 0) then none
    else ((chop 64 (v.drop 8)).mapM slotEntOf).map (l ++ ·))) (some [])

/-- A lending window: kind u8, serve_ctx u8, drain u16, four zero bytes, t_start u64, t_end u64, then devices u16, or device u16 with six
zero bytes and a mask of 32 bytes. -/
def lendOf (v : Bytes) : Option Lend :=
  let cells := decide (leAt v 0 1 = 1)
  let tail := v.drop 24
  let l : Lend := { cells := cells, devices := if cells then [] else u16s tail,
                    masks := if cells then (chop 40 tail).map (fun e => (leAt e 0 2, leAt e 8 32)) else [], serveCtx := leAt v 1 1,
                    tStart := leAt v 8 8, tEnd := leAt v 16 8, drainLimit := if leAt v 2 2 = 0 then 100 else leAt v 2 2 }
  whenOk (decide (leAt v 0 1 ≤ 1) && decide (l.serveCtx < 64) && decide (l.tStart < l.tEnd) && decide (l.drainLimit ≤ 1000) && leAt v 4 4 = 0
    && (if cells then tail.length % 40 = 0 else tail.length % 2 = 0)) l

/-- A schedule entry (R397). -/
def schedOf (v : Bytes) : Sched := { kind := leAt v 0 1, phase := leAt v 1 1, period := leAt v 4 4, arg := leAt v 8 4, first := leAt v 16 8 }

/-- A schedule entry obeys the table of kinds. -/
def schedOk (commitMs : Nat) (v : Bytes) : Bool :=
  let e := schedOf v
  leAt v 2 2 = 0 && leAt v 12 4 = 0 &&
    (match e.kind with
     | 1 => e.phase = 6 && e.arg = 0 && decide (1 ≤ e.period) && decide (e.period ≤ 64)
     | 2 => e.phase = 1 && decide (e.arg ≤ 1000000)
     | 3 => e.phase = 7 && decide (1 ≤ e.arg) && decide (e.arg ≤ 60000) && decide (e.arg < commitMs)
     | 4 => e.phase = 6 && e.arg = 0
     | _ => false)

/-- The default entries of a training shape (R397, R513). -/
def defaultSched : List Sched := [{ kind := 1, phase := 6, period := 4, arg := 0, first := 0 }, { kind := 2, phase := 1, period := 1, arg := 5000, first := 0 }]

/-- The nested numerics fields applied to a job, with their ranges (R245, R510). -/
def numericsField (i : Nat) (v : Bytes) (j : Job) : Option Job :=
  let n := ofLe v
  let i16 := toSigned 16 n
  match i with
  | 0x10 => whenOk (decide (-32 ≤ i16) && decide (i16 ≤ 64)) { j with lsMin := i16 }
  | 0x11 => whenOk (decide (-32 ≤ i16) && decide (i16 ≤ 64)) { j with lsMax := i16 }
  | 0x12 => whenOk (decide (1 ≤ n) && decide (n ≤ 8)) { j with lsUp := n }
  | 0x13 => whenOk (decide (1 ≤ n) && decide (n ≤ 8)) { j with lsDown := n }
  | 0x14 => whenOk (decide (1 ≤ n) && decide (n ≤ 1000000)) { j with raiseInt := n }
  | 0x15 => whenOk (decide (1 ≤ n) && decide (n ≤ 0xFE)) { j with xInit := n }
  | 0x16 => whenOk (n = 16 || n = 24) { j with gbiWidth := n }
  | 0x17 => whenOk (decide (1 ≤ n) && decide (n ≤ 16384)) { j with nShares := n }
  | 0x18 => whenOk (decide (-32 ≤ i16) && decide (i16 ≤ 64)) { j with lsInit := i16 }
  | 0x19 => whenOk (decide (10 ≤ n) && decide (n ≤ 600000)) { j with commitMs := n }
  | 0x1A => whenOk (decide (n ≤ 1)) { j with replay := decide (n = 1) }
  | _ => none

/-- A whole nested plate body: its fields in form, then folded. -/
def nestedFold (t : Nat) (b : Bytes) (f : Nat → Bytes → Job → Option Job) (j : Job) : Except PlateErr Job :=
  match fieldsOf (b.length + 1) b with
  | none => .error (badForm t 0)
  | some fs =>
    match checkFields t nestedForm none fs with
    | some e => .error e
    | none => fs.foldl (fun (acc : Except PlateErr Job) e => match acc with
        | .error x => .error x
        | .ok k => match f e.1 e.2 k with
          | some k => .ok k
          | none => .error (badRange t e.1)) (.ok j)

/-- One job field (R322, R510). -/
def jobField (i : Nat) (v : Bytes) (a : Job × MoltAsk) : Except PlateErr (Job × MoltAsk) :=
  let j := a.1
  let m := a.2
  let n := ofLe v
  let put := fun (ok : Bool) (j : Job) => if ok then Except.ok (j, m) else Except.error (badRange 0x10 i)
  match i with
  | 0x01 => put (decide (n < 64)) { j with ctx := n }
  | 0x02 => put (decide (1 ≤ n)) { j with jobTag := n }
  | 0x03 => put true { j with epoch := n }
  | 0x04 => put (decide (1 ≤ (u16s v).length) && decide ((u16s v).length ≤ 16384) && (u16s v).all (fun d => decide (d < 0x4000)) && decide ((u16s v).Nodup))
      { j with members := u16s v, gridR := (u16s v).length, gridP := 1, gridT := 1 }
  | 0x05 => put true { j with gridR := leAt v 0 2, gridP := leAt v 2 2, gridT := leAt v 4 2 }
  | 0x06 => put true { j with shareMap := u16s v }
  | 0x07 => put (decide (32 ≤ n) && decide (n ≤ 2 ^ 48)) { j with pTotal := n }
  | 0x08 => put true { j with slotsDefault := false }
  | 0x09 => put (decide (1 ≤ v.length / 4) && decide (v.length / 4 ≤ 4096) && (chop 4 v).all (fun e => decide (leAt e 0 2 ≤ leAt e 2 2)))
      { j with stages := (chop 4 v).map (fun e => (leAt e 0 2, leAt e 2 2)) }
  | 0x0A => put (v.all (fun x => decide (x.toNat ≤ 2))) { j with actPolicy := v.map BitVec.toNat }
  | 0x0B => put (v.all (fun x => decide (1 ≤ x.toNat) && decide (x.toNat ≤ 64))) { j with credits := v.map BitVec.toNat }
  | 0x0C => put (leAt v 0 4 = j.experts.length && decide (j.experts.length < 65536)) { j with experts := j.experts ++ [u16s (v.drop 4)] }
  | 0x0D => put (decide (1 ≤ leAt v 0 2) && decide (leAt v 0 2 ≤ 1022)) { j with groups := j.groups ++ [(leAt v 0 2, u16s (v.drop 2))] }
  | 0x0E => put (decide (1 ≤ n) && decide (n ≤ 3600)) { j with moltTimeout := n }
  | 0x0F => (match lendOf v with | some l => put true { j with lend := j.lend ++ [l] } | none => .error (badRange 0x10 i))
  | 0x10 => put ((leAt v 0 1 = 1 || leAt v 0 1 = 2) && leAt v 1 7 = 0 && decide ((v.length - 8) % 16 = 0))
      { j with nMoments := leAt v 0 1, slotPlanes := (chop 16 (v.drop 8)).map (fun e => (leAt e 0 2, leAt e 2 1, leAt e 8 8)) }
  | 0x70 => .ok (j, { m with sMin := n })
  | 0x71 => if leAt v 0 4 < 4 then
        .ok (j, { m with recover := bit (leAt v 0 4) 0, checkpoint := bit (leAt v 0 4) 1,
                         heirs := (chop 4 (v.drop 4)).map (fun e => (leAt e 0 2, leAt e 2 2)) })
      else .error (badRange 0x10 i)
  | 0x72 => .ok (j, { m with desc := some v })
  | 0x73 => .ok (j, { m with members := u16s v })
  | 0x74 => .ok (j, m)
  | 0x7E => (match nestedFold 8 v numericsField j with
    | .ok j => if decide (j.lsMax < j.lsMin) then .error (badRange 8 0x11)
               else if decide (j.lsInit < j.lsMin) || decide (j.lsMax < j.lsInit) then .error (badRange 8 0x18) else .ok (j, m)
    | .error e => .error e)
  | 0x7F => (match nestedFold 7 v (fun _ e k => whenOk (schedOk k.commitMs e) { k with sched := k.sched ++ [schedOf e], schedDefault := false })
        { j with sched := [] } with | .ok j => .ok (j, m) | .error e => .error e)
  | _ => .error (badForm 0x10 i)

/-- The fields of a carapace section, in order. -/
def jobFields : List Field → Job × MoltAsk → Except PlateErr (Job × MoltAsk)
  | [], a => .ok a
  | (i, v) :: rest, a => match jobField i v a with
    | .error e => .error e
    | .ok a => jobFields rest a

/-- The thin stages of a rank (R331). -/
def thin (j : Job) : Nat := j.stages.length / max 1 j.gridP

/-- The inter-stage queues of a replica: a forward and a backward one at each stage boundary (R333). -/
def queuesOf (j : Job) : Nat := 2 * (j.stages.length - 1)

/-- What a section leaves absent takes the shape's value or its default (R322, R326, R333, R335, R513). A job of a carapace `old` keeps its
numerics. Without the tier die, OFFLOAD becomes RECOMPUTE (R514). -/
def jobDefaults (shape : Nat) (tier : Bool) (ids : List Nat) (old : Option Job) (j : Job) : Job :=
  let given := fun (i : Nat) => ids.contains i
  let train := shape = 1 || shape = 2
  let j := match old with
    | some o => if given 0x7E then j else { j with
        lsMin := o.lsMin, lsMax := o.lsMax, lsUp := o.lsUp, lsDown := o.lsDown, raiseInt := o.raiseInt, xInit := o.xInit, gbiWidth := o.gbiWidth,
        nShares := o.nShares, lsInit := o.lsInit, commitMs := o.commitMs, replay := o.replay }
    | none => j
  let j := if j.nShares = 0 then { j with nShares := j.members.length } else j
  let j := if given 0x06 then j else { j with shareMap := defaultShares j }
  let j := if given 0x09 then j else { j with stages := [(0, 0xFFFF)] }
  let j := if given 0x0A then j else { j with actPolicy := List.replicate j.stages.length (if train then 1 else 2) }
  let j := if tier then { j with actPolicy := j.actPolicy.map (fun v => if v = 1 then 2 else v) } else j
  let j := if given 0x0B then j else { j with credits := List.replicate (queuesOf j) (thin j + 1) }
  if given 0x7F then j else if train then { j with sched := defaultSched, schedDefault := true } else { j with sched := [], schedDefault := true }

/-- An interval lies in the context memory of a holder as R187 and R188 lay it out, whatever is fenced. -/
def inHolder (h a n : Nat) : Bool :=
  n = 0 || (if h = 19 then decide (tierBase ≤ a) && decide (a + n ≤ 0x03E000000000)
            else decide ((h - 8) * stackSize ≤ a) && decide (a + n ≤ (h - 8) * stackSize + 0xB30000000))

/-- The planes of a slot: address and bytes (R328). -/
def planesOf (j : Job) (i : Nat) (e : SlotEnt) : List (Nat × Nat) :=
  let q := slotCount j i
  [(e.hi, 4 * q), (e.lo, q), (e.m1, 4 * q), (e.m2, if e.m2 = 0 then 0 else 4 * q), (e.expP, slotBlocks j i), (e.streakP, slotBlocks j i),
    (e.grad, 32 * slotBlocks j i * sumWidth j + (slotBlocks j i + 1) / 2)]

/-- A plane of this device lies in context memory as it stands now, and, once the context has regions, in one of them with eng and remote
(R328; log entry 104). -/
def planeHere (s : State) (x : Nat) (p : Nat × Nat) : Bool :=
  p.2 = 0 || ((match areaOf s p.1, areaOf s (p.1 + p.2 - 1) with | .context k, .context l => k = l && !fenced s k | _, _ => false)
    && ((s.ctx x).st = .empty || (s.ctx x).grants p.1 p.2 false false true true))

/-- The entry of slot i: its planes are complete and lie in the one holder it names, on every device; this device's own where it can use them
(R195, R328). -/
def slotOk (s : State) (j : Job) (i : Nat) (e : SlotEnt) : Bool :=
  decide (e.member < j.members.length) &&
    (if slotCount j i = 0 then [e.hi, e.lo, e.m1, e.m2, e.expP, e.streakP, e.grad].all (· = 0)
     else
       [e.hi, e.lo, e.m1, e.expP, e.streakP, e.grad].all (· ≠ 0)
       && (planesOf j i e).all (fun p => inHolder e.holder p.1 p.2)
       && (decide (memberOf j s.plate.devIndex ≠ some e.member) || (planesOf j i e).all (planeHere s j.ctx)))

/-- The placement of a state class, in the row order of R194: 1 HBM3E, 2 LPDDR5X, 3 HBM3E spilling to LPDDR5X; the plate's, else the shape's, HBM3E where
that names an absent tier (R514); 0 where neither gives one. -/
def placementOf (p : Plate) (cls : Nat) : Nat :=
  let own := p.placement.getD cls 0
  let shape := match p.shape with
    | 1 => [1, 1, 1, 1, 2, 1, 2, 0].getD cls 0
    | 2 => [1, 2, 1, 1, 2, 1, 2, 3].getD cls 0
    | 3 => [0, 0, 0, 1, 0, 0, 0, 3].getD cls 0
    | _ => 0
  if own ≠ 0 then own else if bit p.dieFence.toNat 19 && decide (shape ≥ 2) then 1 else shape

/-- The holders of this device that the memory plate allows for master weights, ascending; every present one where neither plate nor shape places
them (R194, R329). -/
def masterHolders (s : State) : List Nat :=
  (presentHolders s).filter (fun h => match placementOf s.plate 0 with | 1 => decide (h ≠ 19) | 2 => h = 19 | _ => true)

/-- The default slot map packs this member's slots over the holders that its memory plate allows, and each holder's packed range lies in one region with
eng and remote once the context has regions (R329). -/
def packingOk (s : State) (j : Job) : Bool :=
  match memberOf j s.plate.devIndex with
  | none => true
  | some m =>
    (planeHolders j m).map (·.1) = masterHolders s
      && ((s.ctx j.ctx).st = .empty || (planeHolders j m).all (fun h =>
            let ps := ((j.slots.zipIdx).filter (fun e => e.1.member = m && e.1.holder = h.1)).flatMap (fun e => (planesOf j e.2 e.1).filter (fun p => decide (p.2 ≠ 0)))
            (hull ps).all (fun p => (s.ctx j.ctx).grants p.1 p.2 false false true true)))

/-- The stages cover the layer table: contiguous ranges, and every layer of the table, once the control block can be read, in one of them, so that every
block has its one producer in each share (R324, R331). -/
def stagesCover (s : State) (j : Job) : Bool :=
  (j.stages.zip (j.stages.drop 1)).all (fun e => decide (e.1.2 + 1 = e.2.1)) &&
    (if (s.ctx j.ctx).st = .empty || (s.ctx j.ctx).ledger = 0 then true
     else match ringCtl s j.ctx with
      | none => true
      | some r => match layerTable s j.ctx (min r.layers 4096) with
        | none => true
        | some t => t.all (fun l => j.stages.any (fun e => decide (e.1 ≤ l.1) && decide (l.1 ≤ e.2))))

/-- The member of replica r that holds an expert is a member of that replica (R321, R337). -/
def expertsOk (j : Job) : Bool :=
  j.experts.all (fun e => decide (e.length = j.gridR) &&
    e.zipIdx.all (fun m => decide (m.1 < j.members.length) && m.1 / max 1 (j.gridP * j.gridT) = m.2))

/-- The rules of a carapace beside the ranges of its fields (R321 to R339, R348, R454). -/
def jobOk (s : State) (j : Job) : Bool :=
  let n := j.members.length
  decide (1 ≤ j.jobTag) && decide (1 ≤ n) && decide (j.gridR * j.gridP * j.gridT = n) && decide (j.gridR ≤ j.nShares)
    && decide (j.shareMap.length = j.nShares) && j.shareMap.all (fun r => decide (r < j.gridR))
    && decide (j.stages.length % j.gridP = 0) && decide (thin j ≤ 16) && decide (1 ≤ thin j)
    && stagesCover s j && decide (j.actPolicy.length = j.stages.length) && decide (j.credits.length = queuesOf j) && expertsOk j
    && j.groups.all (fun g => g.2.all (fun m => decide (m < n)) && decide (g.2.Nodup) && decide (1 ≤ g.2.length))
    && decide ((j.groups.map (·.1)).Nodup)
    && j.lend.all (fun l => l.devices.all (fun d => decide (d < 0x4000)) && l.masks.all (fun m => decide (m.1 < 0x4000)))
    && (!j.slotsDefault || (decide (j.slotPlanes ≠ []) && packingOk s j))
    && decide (j.slots.length = 4096) && (j.slots.zipIdx).all (fun e => slotOk s j e.2 e.1)
    && decide ((j.sched.filter (fun e => e.kind = 1)).length ≤ 1) && decide (j.sched.length ≤ 64)
    && (j.schedDefault || decide (3 ≤ n) || !(j.sched.any (fun e => e.kind = 1)))

/-- A carapace section: the carapace and what its amendment asks. `old` is the carapace before it, when the device has one. -/
def sectionOf (s : State) (c : Conf) (old : Option Job) (fs : List Field) : Except PlateErr (Job × MoltAsk) :=
  match jobFields fs ({ nShares := 0, slots := [], slotsDefault := true }, {}) with
  | .error e => .error e
  | .ok (j, m) =>
   match [1, 2, 3, 4, 7].find? (fun i => !(fs.map (·.1)).contains i) with
   | some i => .error (badRange 0x10 i)
   | none =>
    let tier := bit c.plate.dieFence.toNat 19
    match slotMapOf 0x74 fs, slotMapOf 0x08 fs with
    | some prev, some given =>
      let m := { m with slots := prev }
      let j := jobDefaults c.plate.shape tier (fs.map (·.1)) old j
      let before : Option Job := match old with
        | some o => some o
        | none => if m.members.isEmpty then none else some { j with members := m.members, slots := prev }
      let dest := match before with | some o => moltMembers o j | none => []
      let j := if j.slotsDefault then { j with slots := packSlots j (fun i => match before with | some _ => dest.getD i 0 | none => createMember j.members.length i) }
               else { j with slots := given }
      if jobOk s j then .ok (j, m) else .error (badRange 0x10 0)
    | _, _ => .error (badRange 0x10 8)

/-! ## Rules over the whole configuration (R403, R512, R514) -/

/-- The fenced cells of a configuration. -/
def Conf.fencedCells (c : Conf) : Nat :=
  c.plate.cellFence.toNat ||| (List.range 8).foldl (fun a d => if bit c.plate.dieFence.toNat d then a ||| cellMask (32 * d) (32 * d + 32) else a) 0

/-- Lists of masks without a common cell. -/
def masksApart : List Nat → Bool
  | [] => true
  | a :: l => l.all (fun b => a &&& b = 0) && masksApart l

/-- Intervals without a common point. -/
def spansApart : List (Nat × Nat) → Bool
  | [] => true
  | a :: l => l.all (fun b => decide (a.1 + a.2 ≤ b.1) || decide (b.1 + b.2 ≤ a.1) || a.2 = 0 || b.2 = 0) && spansApart l

/-- A shape drops fenced cells from its masks (R514). -/
def Conf.trim (c : Conf) : Conf :=
  if c.explicit then c
  else { c with ctxs := c.ctxs.map (fun e =>
    { e with owned := e.owned - (e.owned &&& c.fencedCells), guest := e.guest - (e.guest &&& c.fencedCells) }) }

/-- The device is named by a DEVICE window of a job of the configuration (R403). -/
def Conf.lendsDevice (c : Conf) : Bool :=
  c.jobs.any (fun j => j.1.lend.any (fun l => !l.cells) && jobNames j.1 c.plate.devIndex)

/-- Lanes of each sub-port of a split code (R272). -/
def splitLanes (code : Nat) : Nat := match code with | 1 => 8 | 2 => 4 | 3 => 2 | 4 => 1 | _ => 0

/-- A PTP lane of the link plate is the first lane of a sub-port, or none (R274). A lane of a port that is off is taken as its default is: lane 0
stands on a port that SHAPE_CUSTOM leaves off. -/
def portLane (p : Plate) (l : Nat) : Bool :=
  let w := splitLanes (p.split.getD (l / 8) 0)
  l = 0x7F || l = 0 || (decide (l < 72) && decide (0 < w) && l % w = 0)

/-- The rules of R274, R512 and R514 that join fields; the first plate and field that breaks one. -/
def Conf.check (c : Conf) : Option PlateErr :=
  let f := c.fencedCells
  let beOwned := ((c.ctxs.filter (fun e => !e.lc)).map (·.owned)).foldl (· ||| ·) 0
  if !masksApart (c.ctxs.map (·.owned)) then some (badRange 3 1)
  else if c.ctxs.any (fun e => decide (e.guest &&& beOwned ≠ e.guest)) then some (badRange 3 1)
  else if c.explicit && c.ctxs.any (fun e => decide ((e.owned ||| e.guest) &&& f ≠ 0)) then some (badRange 3 1)
  else if decide (¬ (c.ctxs.map (·.ctx)).Nodup) then some (badRange 3 1)
  else if bit c.plate.dieFence.toNat 19 && c.plate.placement.any (fun v => v = 2 || v = 3) then some (badRange 4 1)
  else if !spansApart (c.queues.map (fun r => (r.first, r.count))) then some (badRange 6 1)
  else if !spansApart (c.seqs.map (fun r => (r.2.1, r.2.2))) then some (badRange 6 2)
  else if decide (c.plate.peerTo < 3 * c.plate.hbInt) then some (badRange 5 11)
  else if !portLane c.plate c.plate.ptpLane || !portLane c.plate c.plate.ptpStand then some (badRange 5 18)
  else if c.lendsDevice && (match getKey c.chans 63 with | some k => decide (k.1 ≠ 0) | none => false) then some (badRange 6 3)
  else none

/-- Applies the plates of one stream. `amend` marks an amendment, whose carapace sections replace those of their context. -/
def confPlates (s : State) (olds : Nat → Option Job) : List (Nat × List Field) → Conf → Except PlateErr Conf
  | [], c => .ok c
  | (t, fs) :: rest, c =>
    if t = 0x10 then
      let x := match fs.find? (fun f => f.1 = 1) with | some f => ofLe f.2 | none => 64
      match sectionOf { s with plate := c.plate } c (olds x) fs with
      | .error e => .error e
      | .ok j => confPlates s olds rest { c with jobs := c.jobs.filter (fun e => e.1.ctx ≠ j.1.ctx) ++ [j] }
    else match confFields t fs (clearRepeated t fs c) with
      | .error e => .error e
      | .ok c => confPlates s olds rest c

end Sys2Proof.Machine
end

