-- ==== Sys2Proof/Machine/Boot.lean ====
section
/-! DEFINITION. Machine/Boot.lean: the boot stages, the counting of failed starts, Pupa mode, the image, the base stream and what it
configures, the boot controller (R491 to R507, R509, R513 to R516, R518, R519). -/
namespace Sys2Proof.Machine

/-! ## Stages and failures (R492 to R495) -/

/-- Bytes of the boot flash. -/
def flashRead (s : State) (a n : Nat) : Bytes := memRead flashFill s.flash a n

/-- The module runs the stage. -/
def inStage (s : State) (g : Stage) : Bool := s.pwr.st = .starting && s.boot.active && s.boot.stage = g

/-- A stage ends and the next begins: BOOT_T_ takes the time, in µs since BOOT_FUSE began (R519). -/
def endStage (next : Stage) (s : State) : State :=
  let t := BitVec.ofNat 32 (usOf (s.clk - s.boot.fuseClk))
  { s with boot := { s.boot with ends := s.boot.ends.set (stageCode s.boot.stage) t, stage := next } }

/-- A start fails: stage, reason and detail go into BOOT_STATUS and the history, the device loses everything volatile, and the next start
waits for its 1 s (R493). -/
def failStart (reason detail : Nat) (s : State) : State :=
  let r : StartRec := { ok := false, stage := stageCode s.boot.stage, reason := reason, detail := detail % 65536 }
  let t := s.dark
  { t with boot := { t.boot with
      stage := s.boot.stage, reason := BitVec.ofNat 8 reason, detail := BitVec.ofNat 16 detail, history := (r :: s.boot.history).take 16, retry := true } }

/-- STAGE_TIMEOUT: the stage in progress passes its limit. -/
def stageTimeout (s : State) : State :=
  if s.pwr.st = .starting && s.boot.active then failStart 0x7E (stageCode s.boot.stage) s else s

/-- STAGE_TIMEOUT. -/
def execStageTimeout (s : State) : Host.Outcome State Fault Refusal := powered stageTimeout s

/-- BOOT_RETRY: 1 s after a failed start the next one begins. -/
def bootRetry (s : State) : State := if s.pwr.st = .starting && s.boot.retry then warmReset s else s

/-- BOOT_RETRY. -/
def execBootRetry (s : State) : Host.Outcome State Fault Refusal := powered bootRetry s

/-! ## The image (R503, R504) -/

/-- Bytes of the image slot. -/
def imgRead (s : State) (o n : Nat) : Bytes := flashRead s (0x1000000 + o) n

/-- A component entry: type, offset, length, digest. -/
def imgEntries (h : Bytes) : List (Nat × Nat × Nat × Bytes) :=
  (List.range (min 8 (leAt h 24 4))).map (fun i =>
    let o := 64 + 80 * i
    (leAt h o 1, leAt h (o + 4) 4, leAt h (o + 8) 4, slice h (o + 16) 64))

/-- The digest of the component of a type, as its entry gives it. -/
def imgDigest (h : Bytes) (t : Nat) : Bytes := match (imgEntries h).find? (fun e => e.1 = t) with | some e => e.2.2.2 | none => []

/-- The first type of a list that stands in it twice. -/
def firstTwice : List Nat → Option Nat
  | [] => none
  | a :: l => if l.contains a then some a else firstTwice l

/-- The format of an image header; the detail of IMAGE_FORMAT when it is wrong. -/
def imgFormat (h : Bytes) : Option Nat :=
  let es := imgEntries h
  if leAt h 4 2 ≠ 1 then some 4
  else if leAt h 12 4 > 0x8000000 then some 12
  else if leAt h 24 4 < 4 || leAt h 24 4 > 8 then some 24
  else match es.find? (fun e => decide (e.2.1 + e.2.2.1 > leAt h 12 4)) with
    | some e => some e.1
    | none => match firstTwice (es.map (·.1)) with
      | some t => some t
      | none => [1, 2, 3, 4].find? (fun t => !(es.map (·.1)).contains t)

/-- The root generation, revoked or not, whose hashes a pair of keys has. -/
def rootGen (rsa mldsa : Bytes) : Option Nat :=
  [0, 1].find? (fun g => decide (sha512 rsa = Config.rootHash g false) && decide (sha512 mldsa = Config.rootHash g true))

/-- The checks of R504 in order, over the image in the slot: the reason and detail of the first that fails. The detail of ROOT_KEY when no
generation is found is unstated (log entry 5). -/
def imageCheck (s : State) : Option (Nat × Nat) :=
  let h := imgRead s 0 36864
  if leAt h 0 4 ≠ 0x4D494659 then some (0x10, 0)
  else match imgFormat h with
    | some d => some (0x11, d)
    | none =>
      let rsa := slice h 704 512
      let mldsa := slice h 1216 2592
      let free := (Config.freeWord s.freeCtr).toNat
      let gen := rootGen rsa mldsa
      if !(match gen with | some g => !bit s.sec.rootRev.toNat g | none => false) then some (0x14, gen.getD free)
      else
        let n := leAt h 4096 4
        let m := leAt h (4100 + n) 4
        let sig := imgRead s 36864 5139
        match Config.certVerify rsa (slice h 4100 n) with
        | none => some (0x12, 0)
        | some k =>
          if !Config.rsaVerify k h (slice sig 0 512) then some (0x12, 1)
          else match Config.certVerify mldsa (slice h (4104 + n) m) with
            | none => some (0x13, 0)
            | some q =>
              if !Config.mldsaVerify q h (slice sig 512 4627) then some (0x13, 1)
              else if leAt h 8 4 < s.sec.svn then some (0x15, leAt h 8 4)
              else match (imgEntries h).find? (fun e => decide (sha512 (imgRead s e.2.1 e.2.2.1) ≠ e.2.2.2)) with
                | some e => some (0x16, e.1)
                | none => none

/-! ## BOOT_FUSE (R34, R36, R473, R474, R482, R492, R496 to R500, R528) -/

/-- A pending change of ownership: the next owner slot is written and the current one revoked (R474). -/
def blowOwner (x : Sec) : Sec :=
  match x.ownerNew with
  | none => x
  | some k =>
    { x with owners := (x.owners ++ [k]).take 4, ownerNew := none,
             ownerRev := match ownerSlot x with | some i => x.ownerRev ||| BitVec.ofNat 4 (2 ^ i) | none => x.ownerRev }

/-- The fused security configuration that measurement 4 covers (R482). -/
def fuseConfig (x : Sec) : Bytes :=
  le 1 x.lifecycle ++ le 1 ((ownerSlot x).getD 0xFF) ++ le 1 x.svn ++ le 1 x.rootRev.toNat ++ le 1 x.ownerRev.toNat

/-- The calibration findings of a die. -/
def calMask (cal : List CalFinding) (d : Nat) : Nat := (cal.filter (fun f => f.die = d)).foldl (fun a f => a ||| f.mask) 0 % 128

/-- Fused temperature limits in °C: cap and shutdown (R528). -/
def tempLimits (d : Nat) : Int × Int :=
  if d < 8 || d = 19 then (95, 105) else if d < 16 then (90, 100) else (100, 110)

/-- A die after BOOT_FUSE: the SerDes of a link die are still to be calibrated (R34, R37). -/
def bootDie (mask d : Nat) : Die :=
  { calValid := decide (mask = 0) && decide (d ≠ 16) && decide (d ≠ 17), trim := true, failMask := BitVec.ofNat 8 mask, on := true, sensors := List.replicate (sensorCount d) {},
    capLim := 16 * (tempLimits d).1, shutLim := 16 * (tempLimits d).2 }

/-- Compartment c runs on core k. -/
def startComp (c k : Nat) (s : State) : State := modComp c (fun u => { u with st := 1, core := k }) s

/-- The measurements and keys of a start in Pupa mode: measurement 3 is the digest of the image as found, and Alias comes from the root-of-trust
firmware of the slot when that verifies, else from the measurement of the ROM (R501). -/
def pupaSec (s : State) : Sec :=
  let h := imgRead s 0 36864
  let found := match imageCheck s with | none => true | some f => decide (f.1 = 0x16)
  let rot := found && (imgEntries h).any (fun e => e.1 = 1 && decide (sha512 (imgRead s e.2.1 e.2.2.1) = e.2.2.2))
  let m3 := if found then sha512 (imgRead s 0 (leAt h 12 4)) else zeros 64
  let cdi := hmac512 (keyBytes Config.uds) (if rot then sha512 (imgDigest h 1 ++ m3 ++ s.sec.meas4) else Config.measurement 1 [])
  { s.sec with meas2 := if rot then imgDigest h 1 else [], meas3 := m3, cdi := cdi, aliasSeed := hkdf cdi [] (ascii "YF-ALIAS") 64 }

/-- Pupa mode: only the hub keeps power, and MGMT, FAULT and TRACE of the Pupa build run on one core (R500, R526). The start is not counted:
its armed marker goes (R495). -/
def enterPupa (reason detail : Nat) (s : State) : State :=
  let s : State := { s with
    pwr := { s.pwr with st := .pupa, faultN := false },
    boot := { s.boot with stage := .pupa, active := false, reason := BitVec.ofNat 8 reason, detail := BitVec.ofNat 16 detail, armed := false },
    hub := { s.hub with health := .pupa },
    sec := pupaSec s }
  let s := (List.range 20).foldl (fun t d => if d = 18 then t else t.modDie d (fun k => { k with on := false })) s
  startComp 4 0 (startComp 3 0 (startComp 2 0 s))

/-- The reason for which the start ends in Pupa mode (R497). -/
def pupaReason (s : State) : Option (Nat × Nat) :=
  if decide (failedStarts s.boot ≥ 3) && !s.boot.trial then some (0x80, failedStarts s.boot)
  else if s.boot.pupaReq then some (0x81, 0)
  else if s.sec.lifecycle ≥ 3 then some (0x82, s.sec.lifecycle)
  else none

/-- A failing unit of the Pupa set holds the module: every die in reset, FAULT_N low, no further attempt (R493, R526). The history takes the
failure unless the root of trust or the flash cannot write it. -/
def haltModule (detail : Nat) (s : State) : State :=
  let r : StartRec := { ok := false, stage := 0, reason := 2, detail := detail }
  let s := if detail = 1 || detail = 3 then s else { s with boot := { s.boot with history := (r :: s.boot.history).take 16 } }
  { s with pwr := { s.pwr with st := .halted, faultN := false } }

/-- BOOT_FUSE: fuses and trims are read, the start is counted, the analogue blocks are calibrated, and a normal start or Pupa mode is
chosen. `bad` is a failure of the stage: 1 a fuse word, 2 a unit of the Pupa set, 3 the conversion stages. -/
def bootFuse (cal : List CalFinding) (bad : Option (Nat × Nat)) (s : State) : State :=
  if !inStage s .fuse then s
  else match bad with
    | some (1, w) => failStart 0x01 w s
    | some (2, w) => haltModule w (if w = 1 || w = 3 then s else { s with boot := countStart s.boot })
    | _ =>
      let x := blowOwner s.sec
      let b := countStart s.boot
      let s : State := { s with
        sec := { x with public_ := true, meas4 := Config.measurement 4 [fuseConfig x] },
        boot := { b with trial := b.trialMark, trialMark := false, stepping := Config.stepping } }
      let s := (List.range 20).foldl (fun t d => { t with dies := t.dies.set d (bootDie (calMask cal d) d) }) s
      match bad with
      | some (3, w) => failStart 0x03 w (s.modDie 18 (fun k => { k with calValid := false, failMask := k.failMask ||| 0x40 }))
      | _ =>
        match pupaReason s with
        | some r => enterPupa r.1 r.2 (endStage .pupa s)
        | none => endStage .image s

/-- BOOT_FUSE. -/
def execBootFuse (cal : List CalFinding) (bad : Option (Nat × Nat)) (s : State) : Host.Outcome State Fault Refusal := powered (bootFuse cal bad) s

/-! ## BOOT_IMAGE (R475 to R477, R504, R505) -/

/-- The measurements of a verified image and the keys that come from them (R475 to R477). -/
def imageSec (s : State) : Sec :=
  let h := imgRead s 0 36864
  let m2 := imgDigest h 1
  let m3 := sha512 (imgDigest h 2 ++ imgDigest h 3 ++ imgDigest h 4)
  let cdi := hmac512 (keyBytes Config.uds) (sha512 (m2 ++ m3 ++ s.sec.meas4))
  { s.sec with meas2 := m2, meas3 := m3, cdi := cdi, aliasSeed := hkdf cdi [] (ascii "YF-ALIAS") 64, imageSvn := leAt h 8 4 }

/-- BOOT_IMAGE: the image is verified and loaded, CDI and the Alias keys are derived, and MGMT starts (R475 to R477, R505). -/
def bootImage (s : State) : State :=
  if !inStage s .image then s
  else match imageCheck s with
    | some f => failStart f.1 f.2 { s with freeCtr := s.freeCtr + 1 }
    | none =>
      let x := imageSec s
      let s : State := { s with
        sec := x,
        boot := { s.boot with keyCache := sha512 x.aliasSeed, commitSvn := bit (leAt (imgRead s 0 36864) 6 1) 0 } }
      endStage .carapace (startComp 3 (compCore 4 3) s)

/-- BOOT_IMAGE. -/
def execBootImage (s : State) : Host.Outcome State Fault Refusal := powered bootImage s

/-! ## Signatures of a stream (R509) -/

/-- The keys of the signer block. -/
def signerKeys (e : Envelope) (b : Bytes) : Bytes × Bytes :=
  let o := e.length - tailLen e
  (slice b o 512, slice b (o + 512) 2592)

/-- The signer block carries the key pair with two given hashes. -/
def keysAre (k : Bytes × Bytes) (rsa mldsa : Bytes) : Bool := decide (sha512 k.1 = rsa) && decide (sha512 k.2 = mldsa)

/-- The active owner's hashes (R474). -/
def ownerHashes (x : Sec) : Option (Bytes × Bytes) := (ownerSlot x).bind (fun i => x.owners[i]?)

/-- The keys of a stream are those of its signer code: an unrevoked root generation while no owner slot is active, or the active owner
slot. -/
def keysFit (s : State) (e : Envelope) (b : Bytes) : Bool :=
  let k := signerKeys e b
  match e.signer, ownerHashes s.sec with
  | 0, none => (match rootGen k.1 k.2 with | some g => !bit s.sec.rootRev.toNat g | none => false)
  | 1, some o => keysAre k o.1 o.2
  | _, _ => false

/-- Both signatures over every byte before sig_rsa: the index of the one that fails. -/
def sigFault (e : Envelope) (b : Bytes) : Option Nat :=
  let k := signerKeys e b
  let n := e.length - 512 - 4627
  if !Config.rsaVerify k.1 (b.take n) (slice b n 512) then some 0
  else if !Config.mldsaVerify k.2 (b.take n) (slice b (n + 512) 4627) then some 1
  else none

/-- What is wrong with the signatures of a base: the detail of STREAM_SIG. -/
def baseFault (s : State) (e : Envelope) (b : Bytes) : Option Nat :=
  if !keysFit s e b then some 2 else sigFault e b

/-! ## The stream in force (R507, R516) -/

/-- A base copy: A at 0, B at 1, with its envelope; none when it is no base for this device. -/
def baseCopy (s : State) (i : Nat) : Option (Envelope × Bytes) :=
  let a := 0x9000000 + 0x800000 * i
  let n := leAt (flashRead s a 64) 24 4
  if decide (n > 0x800000) || decide (n < 64) then none
  else
    let b := flashRead s a n
    match envelopeOf b with
    | none => none
    | some e => if e.kind = 0 && (e.serial = 0 || e.serial = Config.serial.toNat) then some (e, b) else none

/-- The newer of the copies that verify, A on a tie, with its number. -/
def newerBase (s : State) : Option (Nat × Envelope × Bytes) :=
  let good := [0, 1].filterMap (fun i => (baseCopy s i).bind (fun c => if (baseFault s c.1 c.2).isNone then some (i, c) else none))
  match good with
  | [] => none
  | [c] => some c
  | c :: d :: _ => if c.2.1.seq < d.2.1.seq then some d else some c

/-- The base of a start, or the reason that there is none. -/
def chooseBase (s : State) : Except (Nat × Nat) (Envelope × Bytes) :=
  match newerBase s with
  | some c => .ok c.2
  | none =>
    match [1, 0].findSome? (fun i => (baseCopy s i).bind (fun c => baseFault s c.1 c.2)) with
    | some d => .error (0x21, d)
    | none => .error (0x20, 0)

/-- The carapace of a context in a configuration. -/
def jobIn (c : Conf) (x : Nat) : Option Job := (c.jobs.find? (fun j => j.1.ctx = x)).map (·.1)

/-- The contexts that the sections of a stream name. -/
def sectionCtxs (l : List (Nat × List Field)) : List Nat :=
  (l.filter (fun p => p.1 = 0x10)).map (fun p => match p.2.find? (fun f => f.1 = 1) with | some f => ofLe f.2 | none => 64)

/-- The plates of a stream applied to a configuration, and the rules of R512 and R514. -/
def addStream (s : State) (e : Envelope) (b : Bytes) (c : Conf) : Except PlateErr Conf :=
  match streamPlates e b with
  | .error x => .error x
  | .ok l =>
    if decide (¬ (sectionCtxs l).Nodup) then .error (badForm 0x10 1)
    else match confPlates s (jobIn c) l c with
      | .error x => .error x
      | .ok c => match c.trim.check with
        | some x => .error x
        | none => .ok c

/-- A base with its amendments, in order. An amendment of another base does not apply. -/
def addAmends (s : State) (seq : Nat) : List Bytes → Conf → Except PlateErr Conf
  | [], c => .ok c
  | b :: rest, c =>
    match envelopeOf b with
    | none => addAmends s seq rest c
    | some e =>
      if e.baseSeq ≠ seq then addAmends s seq rest c
      else match addStream s e b c with
        | .error x => .error x
        | .ok c => addAmends s seq rest c

/-- The configuration of a base stream and its amendments. -/
def confOf (s : State) (b : Bytes) (amends : List Bytes) : Except PlateErr Conf :=
  match envelopeOf b with
  | none => .error (badForm 0 0)
  | some e =>
    match addStream s e b (shapeConf e.shape) with
    | .error x => .error x
    | .ok c => addAmends s e.seq amends c

/-- The configuration in force. -/
def confNow (s : State) : Conf := match confOf s s.boot.stream s.boot.applied with | .ok c => c.trim | .error _ => {}

/-! ## The authority behind an amendment (R509) -/

/-- Every carapace section of an amendment, and nothing else, is of contexts that satisfy `ok`. -/
def onlySections (l : List (Nat × List Field)) (ok : Nat → Bool) : Bool :=
  l.all (fun p => p.1 = 0x10) && (sectionCtxs l).all ok && !l.isEmpty

/-- The tenant hashes of a context in a configuration; none without a tenant_key. -/
def tenantIn (c : Conf) (x : Nat) : Option (Bytes × Bytes) :=
  match c.ctxs.find? (fun e => e.ctx = x) with
  | some e => if e.rsa.isEmpty && e.mldsa.isEmpty then none else some (e.rsa, e.mldsa)
  | none => none

/-- The signer of an amendment fits its content, under the configuration before it. -/
def amendSigned (s : State) (c : Conf) (e : Envelope) (b : Bytes) (l : List (Nat × List Field)) : Bool :=
  match e.signer with
  | 1 => keysFit s e b && (sigFault e b).isNone
  | 2 => onlySections l (fun x => match tenantIn c x with | some t => keysAre (signerKeys e b) t.1 t.2 | none => false) && (sigFault e b).isNone
  | 3 => onlySections l (fun x => (tenantIn c x).isNone)
  | _ => false

/-- The amendments of the log that a base takes, with the check of their signers at a start. -/
def logAmends (s : State) (seq : Nat) : List Bytes → Conf → Except (Nat × Nat) Conf
  | [], c => .ok c
  | b :: rest, c =>
    match envelopeOf b with
    | none => logAmends s seq rest c
    | some e =>
      if e.baseSeq ≠ seq then logAmends s seq rest c
      else match streamPlates e b with
        | .error x => .error x
        | .ok l =>
          if !amendSigned s c e b l then .error (0x21, 2)
          else match addStream s e b c with
            | .error x => .error x
            | .ok c => logAmends s seq rest c

/-! ## BOOT_CARAPACE (R24, R492, R514, R515) -/

/-- The first die of a list of findings. -/
def firstDie (ds : List Nat) (bad : Nat → Bool) : Option Nat := ds.find? bad

/-- The kinds of unit of which no die is left: bit 0 compute, bit 1 memory, bit 2 link (R502). -/
def missingKinds (s : State) : Nat :=
  let none_ := fun (lo n : Nat) => ((List.range n).map (· + lo)).all (fun d => fenced s d)
  b2n (none_ 0 8) + 2 * b2n (none_ 8 8) + 4 * b2n (none_ 16 2)

/-- The dies that the plate fences lose their power, and those and the cells that it fences are shown so. -/
def fenceDies (s : State) : State :=
  fenceCells ((List.range 20).foldl (fun t d => if bit t.plate.dieFence.toNat d then t.modDie d (fun k => { k with fenced := true, on := false }) else t) s)

/-- BOOT_CARAPACE: the stream is chosen, verified and applied, the present units are checked, the fenced dies lose their power, the memory
is trained, and the keys of slot 0 are drawn. Memory holds zeros (R429). `cal` names the holders whose training fails. -/
def bootCarapace (cal : List CalFinding) (s : State) : State :=
  if !inStage s .carapace then s
  else match chooseBase s with
    | .error f => failStart f.1 f.2 s
    | .ok (e, b) =>
      match addStream s e b (shapeConf e.shape) with
      | .error f => failStart f.1 f.2 s
      | .ok c =>
        match logAmends s e.seq s.boot.amends c with
        | .error f => failStart f.1 f.2 s
        | .ok c =>
          let applied := s.boot.amends.filter (fun a => match envelopeOf a with | some k => k.baseSeq = e.seq | none => false)
          let s : State := { s with
            plate := c.plate
            boot := { s.boot with stream := b, applied := applied, caraSeen := max s.boot.caraSeen (e.seq + 1) } }
          match firstDie (List.range 20) (fun d => !fenced s d && decide ((s.die d).failMask ≠ 0)) with
          | some d => failStart 0x24 (256 * d + (s.die d).failMask.toNat) s
          | none =>
            if missingKinds s ≠ 0 then failStart 0x25 (missingKinds s) s
            else
              let s := writeRoutes (isolate (fenceDies s))
              match firstDie ([8, 9, 10, 11, 12, 13, 14, 15, 19]) (fun d => !fenced s d && decide (calMask cal d ≠ 0)) with
              | some d => failStart 0x26 d s
              | none => endStage .trainLinks (drawKeys 0 s)

/-- BOOT_CARAPACE. -/
def execBootCarapace (cal : List CalFinding) (s : State) : Host.Outcome State Fault Refusal := powered (bootCarapace cal) s

/-! ## BOOT_TRAIN_LINKS (R272, R273, R294, R492) -/

/-- The sub-ports of a split plate: first lane and lanes, without those of fenced link dies. -/
def portsOf (s : State) (split : List Nat) : List (Nat × Nat) :=
  ((List.range 9).flatMap (fun n =>
    let w := splitLanes (split.getD n 0)
    if w = 0 then [] else (List.range (8 / w)).map (fun k => (8 * n + k * w, w)))).filter (fun p => !fenced s (dieOfLane p.1))

/-- A sub-port that begins to train. -/
def newPort (p : Nat × Nat) (s : State) : State := { s with ports := s.ports.set p.1 { present := true, lanes := p.2, training := true } }

/-- The active PTP sub-port of the plate goes to its link die (R281). -/
def setPtpLane (s : State) : State :=
  let l := s.plate.ptpLane
  [16, 17].foldl (fun t d => if fenced t d then t else t.modLink d (fun k => { k with
    ptpLane := BitVec.ofNat 7 (if decide (l < 72) && decide (dieOfLane l = d) then l else 0x7F) })) s

/-- Every sub-port whose split is not off is up. -/
def portsUp (s : State) : Bool := s.ports.all (fun e => !e.2.present || e.2.linkUp)

/-- BOOT_TRAIN_LINKS ends when its training is done. -/
def trainEnd (s : State) : State := if inStage s .trainLinks && s.boot.training && portsUp s then endStage .release s else s

/-- The SerDes of the present link dies are calibrated: with every other block of the die calibrated, its calibration is whole (R34, R37). -/
def calLinks (s : State) : State :=
  [16, 17].foldl (fun t d => if fenced t d then t else t.modDie d (fun k => { k with calValid := decide (k.failMask = 0) })) s

/-- BOOT_TRAIN_LINKS: the incarnation rises, lanes are calibrated, and every sub-port trains. `bad` is a lane that fails calibration. -/
def bootTrainLinks (bad : Option Nat) (s : State) : State :=
  if !inStage s .trainLinks || s.boot.training then s
  else
    let s : State := { s with boot := { s.boot with incarn := (s.boot.incarn + 1) % 2 ^ 32 } }
    let ps := portsOf s s.plate.split
    match bad.filter (fun l => ps.any (fun p => decide (p.1 ≤ l) && decide (l < p.1 + p.2))) with
    | some l => failStart 0x30 l (s.modDie (dieOfLane l) (fun k => { k with failMask := k.failMask ||| 0x08 }))
    | none =>
      let s := setPtpLane (ps.foldl (fun t p => newPort p t) (calLinks s))
      trainEnd { s with boot := { s.boot with training := true } }

/-- BOOT_TRAIN_LINKS. -/
def execBootTrainLinks (bad : Option Nat) (s : State) : Host.Outcome State Fault Refusal := powered (bootTrainLinks bad) s

/-- LINK_UP: a sub-port's PCS aligns: the link is up, and a reset of its die ends with it (R429). The PTP sub-port begins to listen. -/
def linkUp (l : Nat) (s : State) : State :=
  let d := dieOfLane l
  if !(s.port l).present || !(s.port l).training || fenced s d then s
  else
    let s := (s.modPort l (fun p => { p with linkUp := true, training := false })).modLink d (fun k => { k with resetting := false })
    let s := if (s.link d).ptpLane.toNat = l && (s.link d).ptp = .initializing then ptpTo d .listening s else s
    trainEnd s

/-- LINK_UP. -/
def execLinkUp (l : Nat) (s : State) : Host.Outcome State Fault Refusal := powered (linkUp l) s

/-- TRAIN_WAIT: the stage ends, and sub-ports that are down keep training. -/
def trainWait (s : State) : State := if inStage s .trainLinks && s.boot.training then endStage .release s else s

/-- TRAIN_WAIT. -/
def execTrainWait (s : State) : Host.Outcome State Fault Refusal := powered trainWait s

/-! ## The tables of a configuration (R356, R359, R372, R381, R403, R457, R511) -/

/-- A mask as the list of its bits. -/
def maskList (m : Nat) : List Nat := (List.range 256).filter (bit m)

/-- The bytes of a context's entry in the partition plate. -/
def ctxBytes (e : CtxPl) : Bytes := le 1 e.ctx ++ le 1 (b2n e.lc) ++ zeros 6 ++ le 32 e.owned ++ le 32 e.guest ++ (e.rsa ++ zeros 64).take 64 ++ (e.mldsa ++ zeros 64).take 64

/-- The key slots from 1 to 127 assigned to a context (R479; log entry 49). -/
def slotsOfCtx (e : CtxPl) : Nat := let m := (Config.slotMask (ctxBytes e) e.ctx).toNat; m - m % 2

/-- The numerics mode of a code (R77). -/
def modeOfCode (n : Nat) : Mode := if n = 1 then .strictIeee else if n = 2 then .kwatil else .native

/-- The static part of a context. -/
def newCtx (c : Conf) (e : CtxPl) : Ctx :=
  let q := ((c.seqs.filter (fun r => r.1 = e.ctx)).getLast?).getD (0, 0, 0)
  { defined := true, lc := e.lc, mode := modeOfCode (c.modes.getD e.ctx 0), owned := maskList e.owned, guest := maskList e.guest,
    slotMask := slotsOfCtx e, tenant := if e.rsa.isEmpty && e.mldsa.isEmpty then [] else (e.rsa ++ zeros 64).take 64 ++ (e.mldsa ++ zeros 64).take 64,
    seqBase := q.2.1, seqCount := q.2.2 }

/-- The control queue of a context (log entry 53), with the defaults of its class. -/
def ctlQueue (e : CtxPl) : Queue :=
  { ctx := e.ctx, defined := true, ring := (Config.ctlRings e.ctx).1, cpl := (Config.ctlRings e.ctx).2, halt := !e.lc, timeout := if e.lc then 100 else 10000 }

/-- Queue i of a range. -/
def rangeQueue (lc : Bool) (r : QRange) (i : Nat) : Queue :=
  { ctx := r.ctx, defined := true, ring := r.ring + i * r.stride, cpl := r.cpl + i * r.stride, log2 := r.log2,
    halt := if r.halt = 0xFF then !lc else decide (r.halt = 1), timeout := if r.timeout = 0 then (if lc then 100 else 10000) else r.timeout }

/-- The class of a context in a configuration. -/
def lcIn (c : Conf) (x : Nat) : Bool := match c.ctxs.find? (fun e => e.ctx = x) with | some e => e.lc | none => false

/-- A carapace comes into force for a context that has none: a member runs its job, a device that only a window names knows it (R321, R403). -/
def putJob (j : Job) (s : State) : State :=
  let dev := s.plate.devIndex
  if j.members.contains dev then declareLends j (s.modCtx j.ctx (fun c => { c with job := some j, left := none, declared := none }))
  else if jobNames j dev then declareLends j (s.modCtx j.ctx (fun c => { c with job := none, left := some j, declared := none }))
  else s.modCtx j.ctx (fun c => { c with job := none, left := none })

/-- A mailbox channel of the plate. -/
def newMbox (e : Nat × Nat × Nat × Nat) : Mbox := { kind := e.2.1, sender := e.2.2.1, rdie := e.2.2.2 }

/-- The mailbox table of a configuration; channel 63 is the lending channel of a device that a DEVICE window concerns (R403). -/
def mboxTable (c : Conf) : Tab Mbox :=
  let t := c.chans.foldl (fun (acc : Tab Mbox) e => acc.set e.1 (newMbox e)) []
  if c.lendsDevice then t.set 63 { kind := 5 } else t

/-- The scrub periods go to the present holders (R202, R203). -/
def putScrub (c : Conf) (s : State) : State :=
  (presentHolders s).foldl (fun t h => t.modHolder h (fun k => { k with patrolH := BitVec.ofNat 8 c.scrub.1, recheckH := BitVec.ofNat 8 c.scrub.2 })) s

/-- The queue, mailbox and context tables of a configuration; every context is EMPTY (R492, R518). -/
def buildTables (c : Conf) (s : State) : State :=
  let s : State := { s with ctxs := [], queues := [], hub := { s.hub with mboxes := mboxTable c } }
  let s := c.ctxs.foldl (fun t e => { t with ctxs := t.ctxs.set e.ctx (newCtx c e), queues := t.queues.set e.ctx (ctlQueue e) }) s
  let s := c.queues.foldl (fun t r => (List.range r.count).foldl (fun u i => { u with queues := u.queues.set (r.first + i) (rangeQueue (lcIn c r.ctx) r i) }) t) s
  putScrub c (c.jobs.foldl (fun t j => if (t.ctx j.1.ctx).defined then putJob j.1 t else t) s)

/-! ## BOOT_RELEASE (R437, R449, R452, R475, R492, R496, R505) -/

/-- Every compartment starts on its core (R388). -/
def startComps (s : State) : State := (List.range 5).foldl (fun t c => startComp c (compCore (hubCores t) c) t) s

/-- BOOT_RELEASE: health is restored, the soldier key drawn, the tables built, svn committed, the baseline written and the markers erased;
every compartment starts, and the module is ON. -/
def bootRelease (s : State) : State :=
  if !inStage s .release then s
  else
    let k := takeDraw (buildTables (confNow s) s)
    let s := endStage .released k.2
    let ok : StartRec := { ok := true, stage := 4, reason := 0, detail := 0 }
    let s : State := { s with
      hub := { s.hub with poolC := s.boot.poolC, poolO := s.boot.poolO, health := s.boot.hState, recState := s.boot.hRec, scored := true, solKey := k.1 },
      sec := { s.sec with svn := if s.boot.commitSvn then max s.sec.svn s.sec.imageSvn else s.sec.svn },
      boot := { s.boot with active := false, base := some s.boot.fuses, armed := false, trialMark := false, history := (ok :: s.boot.history).take 16 },
      pwr := { s.pwr with st := .on } }
    startComps s

/-- BOOT_RELEASE. -/
def execBootRelease (s : State) : Host.Outcome State Fault Refusal := powered bootRelease s

/-! ## BOOT_CTL (R497, R498, R501, R519) -/

/-- A write of BOOT_CTL by the operator, with its reserved bits zero. -/
def bootCtl (r : Requester) (v : Word) (f : State → State) (s : State) : State :=
  let a := csrBase + 0x400030
  match csrCheck s r a 4 with
  | .deny st => csrAnswer r a st 0 s
  | .fencedValue _ => csrAnswer r a stOk 0 s
  | .go _ _ =>
    if r ≠ .operator then csrAnswer r a stPerm 0 s
    else
      let s := csrAnswer r a stOk 0 s
      if bits v.toNat 0 24 ≠ 0 then s else f s

/-- BOOT_CTL_RESTART: a warm reset; from Pupa mode the trial marker is written first (R498). -/
def bootCtlRestart (r : Requester) (v : Word) (s : State) : State :=
  bootCtl r v (fun s =>
    if !bit v.toNat 31 || bit v.toNat 30 then s
    else warmReset (if s.pwr.st = .pupa then { s with boot := { s.boot with trialMark := true } } else s)) s

/-- BOOT_CTL_RESTART. -/
def execBootCtlRestart (r : Requester) (v : Word) (s : State) : Host.Outcome State Fault Refusal := powered (bootCtlRestart r v) s

/-- BOOT_CTL_ENTER_PUPA: a warm reset whose start ends in Pupa mode; FAULT_N falls with it (R497, R533). -/
def bootCtlEnterPupa (r : Requester) (v : Word) (s : State) : State :=
  bootCtl r v (fun s =>
    if !bit v.toNat 30 then s
    else
      let t := warmReset s
      { t with boot := { t.boot with pupaReq := true }, pwr := { t.pwr with faultN := false } }) s

/-- BOOT_CTL_ENTER_PUPA. -/
def execBootCtlEnterPupa (r : Requester) (v : Word) (s : State) : Host.Outcome State Fault Refusal := powered (bootCtlEnterPupa r v) s

/-- DIE_SELF_TEST: in Pupa mode a die runs its own self-test, whose result comes back over MGMT. -/
def dieSelfTest (r : Requester) (v : Word) (mask : Nat) (s : State) : State :=
  bootCtl r v (fun s =>
    let d := bits v.toNat 24 5
    if !bit v.toNat 29 || s.pwr.st ≠ .pupa || decide (d ≥ 20) then s
    else answer 501 stOk (le 1 d ++ le 1 mask) s) s

/-- DIE_SELF_TEST. -/
def execDieSelfTest (r : Requester) (v : Word) (mask : Nat) (s : State) : Host.Outcome State Fault Refusal := powered (dieSelfTest r v mask) s

/-! ## Readouts in Pupa mode (R501) -/

/-- An operator request over MGMT. -/
def asOperator (path : ReqPath) (code : Nat) (f : State → State) (s : State) : State :=
  match path with
  | .control _ => s
  | .mgmt n => if !isOperator s n then answer code stPerm [] s else if compDown s 3 then answer code stInternal [] s else f s

/-- Bytes of a start outcome. -/
def startBytes (r : StartRec) : Bytes := le 1 (b2n r.ok) ++ le 1 r.stage ++ le 1 r.reason ++ le 2 r.detail

/-- LOG_READOUT: BOOT_STATUS, the start history, the Firefly ring and the crash summaries. -/
def logReadout (path : ReqPath) (s : State) : State :=
  if s.pwr.st ≠ .pupa then s
  else asOperator path 501 (fun s =>
    let ring := ((List.range 12288).filterMap (s.hub.evRing.get none)) ++ ((List.range 4096).filterMap (s.hub.trRing.get none))
    answer 501 stOk (le 4 (readBoot s 0) ++ s.boot.history.flatMap startBytes ++ ring.flatMap ffBytes ++ flashRead s 0x100000 0x800000) s) s

/-- LOG_READOUT. -/
def execLogReadout (path : ReqPath) (s : State) : Host.Outcome State Fault Refusal := powered (logReadout path) s

/-- The fields of R473 that anyone may read. -/
def fuseBytes (x : Sec) : Bytes :=
  le 8 Config.serial.toNat ++ le 1 x.lifecycle
    ++ Config.rootHash 0 false ++ Config.rootHash 1 false ++ Config.rootHash 0 true ++ Config.rootHash 1 true ++ le 1 x.rootRev.toNat
    ++ x.owners.flatMap (fun o => o.1 ++ o.2) ++ le 1 x.ownerRev.toNat ++ le 8 (2 ^ x.svn - 1)

/-- FUSE_READOUT: the readable fields of R473, the trims, whose values no rule states, and the start fuses. -/
def fuseReadout (path : ReqPath) (s : State) : State :=
  if s.pwr.st ≠ .pupa then s
  else asOperator path 501 (fun s =>
    let t := takeBytes 80 s
    answer 501 stOk (fuseBytes s.sec ++ t.1 ++ le 2 s.boot.fuses) t.2) s

/-- FUSE_READOUT. -/
def execFuseReadout (path : ReqPath) (s : State) : Host.Outcome State Fault Refusal := powered (fuseReadout path) s

/-! ## Fetches (R506) -/

/-- Where a fetched Carapace base goes: the copy that is not newer. -/
def fetchBase (s : State) : Nat := 0x9000000 + 0x800000 * (match newerBase s with | some c => 1 - c.1 | none => 0)

/-- IMAGE_FETCH: the operator asks for `len` bytes from a server; `data` has arrived over the connection and is programmed. -/
def imageFetch (path : ReqPath) (cara : Bool) (len : Nat) (data : Bytes) (s : State) : State :=
  if s.pwr.st ≠ .on && s.pwr.st ≠ .pupa then s
  else asOperator path 506 (fun s =>
    if len = 0 || decide (len > (if cara then 0x800000 else 0x8000000)) then answer 506 stBad [] s
    else if s.boot.fetchSt = 1 || s.boot.fetchSt = 2 then answer 506 stConflict [] s
    else
      let d := data.take len
      let a := if cara then fetchBase s else 0x1000000
      answer 506 stOk [] { s with
        flash := memWrite flashFill s.flash a d,
        boot := { s.boot with fetchSt := 1, fetchWhy := 0, fetchPct := BitVec.ofNat 7 (d.length * 100 / len), fetchCara := cara, fetchAt := a, fetchLen := len } }) s

/-- IMAGE_FETCH. -/
def execImageFetch (path : ReqPath) (carapace : Bool) (len : Nat) (data : Bytes) (s : State) : Host.Outcome State Fault Refusal :=
  powered (imageFetch path carapace len data) s

/-- What a fetched base lacks: it is no base of that length for this device, its sequence number is not above those accepted, or a
signature fails (R507, R509). -/
def fetchedFault (s : State) : Option Nat :=
  match baseCopy s ((s.boot.fetchAt - 0x9000000) / 0x800000) with
  | none => some 0x20
  | some c =>
    if c.1.length ≠ s.boot.fetchLen then some 0x20
    else if (baseFault s c.1 c.2).isSome || decide (c.1.seq < s.boot.caraSeen) then some 0x21 else none

/-- FETCH_VERIFY: programming has ended, and the object is verified: ready, or failed with the reason; a fetch cut short has failed. A new base
is accepted with its sequence number and empties the amendment log (R516). -/
def fetchVerify (s : State) : State :=
  if (s.pwr.st ≠ .on && s.pwr.st ≠ .pupa) || s.boot.fetchSt ≠ 1 then s
  else
    let why := if s.boot.fetchCara then fetchedFault s else (imageCheck s).map (·.1)
    if why.isSome || decide (s.boot.fetchPct.toNat < 100) then
      { s with boot := { s.boot with fetchSt := 4, fetchWhy := BitVec.ofNat 8 (why.getD 0) } }
    else if !s.boot.fetchCara then { s with boot := { s.boot with fetchSt := 3 } }
    else
      let seq := leAt (flashRead s s.boot.fetchAt 64) 8 8
      { s with boot := { s.boot with fetchSt := 3, caraSeen := max s.boot.caraSeen (seq + 1), amends := [] } }

/-- FETCH_VERIFY. -/
def execFetchVerify (s : State) : Host.Outcome State Fault Refusal := powered fetchVerify s

end Sys2Proof.Machine
end

