-- ==== Sys2Proof/Machine/Queue.lean ====
section
/-! DEFINITION. Machine/Queue.lean: the commands of queues that QSCHED carries out, and the writing of completions (R357 to R384, R545). -/
namespace Sys2Proof.Machine

/-! ## NOP (R364) -/

/-- NOP, and every command whose opcode R364 does not define. -/
def rowNop (b : Bytes) : Bool := cOp b = 0 || (bodyUsed (cOp b)).isNone

/-- NOP completes when it has started; a command whose ring slot cannot be read completes with the read's status (log entry 16). -/
def nopStart (q : Nat) (s : State) : State :=
  match nextCmd s q with
  | .ok _ => startRow rowNop (fun q k _ t => finishCmd q k stOk 0 0 t) q s
  | .error st =>
    if queueOpen s q && inTurn s q then
      finishCmd q (s.queue q).n.toNat st 0 0 (beginCmd q (zeros 4 ++ le 4 0xFFFFFF00 ++ zeros 56) (noteRead st (cmdAt (s.queue q) (s.queue q).n.toNat) 64 s))
    else s

/-- NOP. -/
def execNop (q : Nat) (s : State) : Host.Outcome State Fault Refusal := serving (nopStart q) s

/-! ## Contexts (R357, R358, R371) -/

/-- The context descriptor breaks R358. -/
def ctxDescBad (lc : Bool) (d : Bytes) : Bool :=
  decide (leAt d 4 4 ≠ 0) || (slice d 48 80).any (· ≠ 0) || (lc && decide (leAt d 40 8 ≠ 0))
    || (!lc && decide (leAt d 0 4 ≠ 0) && decide (leAt d 40 8 = 0))

/-- Loads the fields of a context descriptor (R358); the scale-ledger header of a job is the one loaded with it, or is created from its
numerics plate (R245, R264, R269). -/
def loadCtx (x : Nat) (d : Bytes) (s : State) : State :=
  s.modCtx x (fun c =>
    let j := c.job.getD {}
    { c with st := .loading, jobTag := leAt d 0 4, jobSeed := BitVec.ofNat 256 (leAt d 8 32), ledger := leAt d 40 8, sems := [],
             semQ := [], semOvf := false, started := 0, admits := true, instNo := [],
             sl := { epoch := j.epoch, hdr := hdrStart j (leAt d 0 4), uniform := true } })

/-- CTX_OPEN's effect. -/
def ctxOpenAct (q k : Nat) (b : Bytes) (s : State) : State :=
  let x := (s.queue q).ctx
  match qRead s q (leAt b 32 8) 128 with
  | .error st => finishCmd q k st 0 0 (noteRead st (leAt b 32 8) 128 s)
  | .ok d =>
    let st := firstOf [(decide (s.hub.health = .quarantine) && !(s.queue q).viaFleet.contains k, stPerm), (ctxDescBad (s.ctx x).lc d, stBad),
      (decide ((s.ctx x).st ≠ .empty), stConflict)]
    if st ≠ stOk then finishCmd q k st 0 0 s else finishCmd q k stOk 0 0 (loadCtx x d s)

/-- CTX_OPEN. -/
def execCtxOpen (q : Nat) (s : State) : Host.Outcome State Fault Refusal := serving (startRow (fun b => cOp b = 1) ctxOpenAct q) s

/-- CTX_READY's effect: completes once no LOAD_SHARD job is pending. -/
def ctxReadyAct (q k : Nat) (_ : Bytes) (s : State) : State :=
  if (s.ctx (s.queue q).ctx).st ≠ .loading then finishCmd q k stConflict 0 0 s else pollWaits q s

/-- CTX_READY. -/
def execCtxReady (q : Nat) (s : State) : Host.Outcome State Fault Refusal := serving (startRow (fun b => cOp b = 2) ctxReadyAct q) s

/-- CTX_CLOSE's effect: the context starts nothing more, its regions are revoked, and it is EMPTY once its started work is done. -/
def ctxCloseAct (q k : Nat) (_ : Bytes) (s : State) : State :=
  let x := (s.queue q).ctx
  if (s.ctx x).st = .molting || (s.ctx x).st = .empty then finishCmd q k stConflict 0 0 s
  else pollWaits q (s.modCtx x (fun c => { c with closing := some (q, k) }))

/-- CTX_CLOSE. -/
def execCtxClose (q : Nat) (s : State) : Host.Outcome State Fault Refusal := serving (startRow (fun b => cOp b = 3) ctxCloseAct q) s

/-! ## Regions (R193) -/

/-- REGION_SET's effect. -/
def regionSetAct (q k : Nat) (b : Bytes) (s : State) : State :=
  let e := slice b 32 16
  if bits (leAt e 12 4) 5 19 ≠ 0 then finishCmd q k stBad 0 0 s
  else
    let r := regionOf e
    askChange (s.queue q).ctx { index := leAt b 24 1, grant := r.valid, entry := r, queue := some (q, k) } s

/-- REGION_SET. -/
def execRegionSet (q : Nat) (s : State) : Host.Outcome State Fault Refusal := serving (startRow (fun b => cOp b = 4) regionSetAct q) s

/-- The zeroing of the grant at the head of the context's changes ends: the region reads zero and the entry is in force. -/
def regionZeroed (x : Nat) (s : State) : State :=
  match (s.ctx x).changes with
  | [] => s
  | ch :: _ =>
    if !ch.grant then s
    else endChange x ((zeroRange ch.entry.base (ch.entry.size * 0x200000) s).modCtx x
      (fun c => { c with regions := c.regions.set ch.index ch.entry }))

/-- REGION_ZEROED. -/
def execRegionZeroed (x : Nat) (s : State) : Host.Outcome State Fault Refusal := serving (regionZeroed x) s

/-- The revocation at the head completes once the work validated before it has completed (log entry 17). -/
def regionRevoked (x : Nat) (s : State) : State :=
  match (s.ctx x).changes with
  | [] => s
  | ch :: _ => if ch.grant || workRuns s x then s else endChange x s

/-- REGION_REVOKED. -/
def execRegionRevoked (x : Nat) (s : State) : Host.Outcome State Fault Refusal := serving (regionRevoked x) s

/-! ## QUEUE_CTL (R359, R362) -/

/-- A QUEUE_CTL row: the action it stands for; the first row takes the undefined actions too. -/
def rowCtl (act : Nat) (b : Bytes) : Bool := cOp b = 5 && (leAt b 26 1 = act || (act = 0 && decide (leAt b 26 1 > 7)))

/-- A QUEUE_CTL action on a queue of the same context; another context's queue is refused with PERMISSION (log entry 18). -/
def ctlAct (f : Nat → Nat → State → State × Nat) (q k : Nat) (b : Bytes) (s : State) : State :=
  let t := leAt b 24 2
  if !(s.queue t).defined || (s.queue t).ctx ≠ (s.queue q).ctx then finishCmd q k stPerm 0 0 s
  else
    let r := f t (leAt b 28 4) s
    finishCmd q k r.2 0 0 r.1

/-- RESUME. -/
def ctlResume (t _v : Nat) (s : State) : State × Nat :=
  if (s.queue t).halted then (s.modQueue t (fun w => { w with halted := false }), stOk) else (s, stConflict)

/-- FLUSH: every command from N to P − 1 completes STATE_CONFLICT with flushed set. -/
def ctlFlush (t _v : Nat) (s : State) : State × Nat :=
  let w := s.queue t
  if !w.halted then (s, stConflict)
  else
    let n := (w.p - w.n).toNat
    let cs := (List.range n).map (fun i =>
      let k := (w.n.toNat + i) % 2 ^ 32
      let b := match qRead s t (cmdAt w k) 64 with | .ok b => b | .error _ => zeros 64
      ({ idx := k, bytes := b, started := false, status := some stConflict, flushed := true, since := s.clk } : Cmd))
    (s.modQueue t (fun w => { w with halted := false, n := w.p, flight := w.flight ++ cs }), stOk)

/-- TIMEOUT, in ms. -/
def ctlTimeout (t v : Nat) (s : State) : State × Nat := (s.modQueue t (fun w => { w with timeout := v }), stOk)
/-- BUDGET. -/
def ctlBudget (t v : Nat) (s : State) : State × Nat := (s.modQueue t (fun w => { w with budget := v }), stOk)
/-- HALT. -/
def ctlHalt (t v : Nat) (s : State) : State × Nat := (s.modQueue t (fun w => { w with halt := decide (v = 1) }), stOk)
/-- DISABLE. -/
def ctlDisable (t _v : Nat) (s : State) : State × Nat := (s.modQueue t (fun w => { w with enabled := false }), stOk)
/-- ENABLE. -/
def ctlEnable (t _v : Nat) (s : State) : State × Nat := (s.modQueue t (fun w => { w with enabled := true }), stOk)
/-- EVENT_DEV. -/
def ctlEventDev (t v : Nat) (s : State) : State × Nat := (s.modQueue t (fun w => { w with eventDev := v }), stOk)

/-- QUEUE_CTL RESUME. -/
def execQueueCtlResume (q : Nat) (s : State) : Host.Outcome State Fault Refusal := serving (startRow (rowCtl 0) (ctlAct ctlResume) q) s
/-- QUEUE_CTL FLUSH. -/
def execQueueCtlFlush (q : Nat) (s : State) : Host.Outcome State Fault Refusal := serving (startRow (rowCtl 1) (ctlAct ctlFlush) q) s
/-- QUEUE_CTL TIMEOUT. -/
def execQueueCtlTimeout (q : Nat) (s : State) : Host.Outcome State Fault Refusal := serving (startRow (rowCtl 2) (ctlAct ctlTimeout) q) s
/-- QUEUE_CTL BUDGET. -/
def execQueueCtlBudget (q : Nat) (s : State) : Host.Outcome State Fault Refusal := serving (startRow (rowCtl 3) (ctlAct ctlBudget) q) s
/-- QUEUE_CTL HALT. -/
def execQueueCtlHalt (q : Nat) (s : State) : Host.Outcome State Fault Refusal := serving (startRow (rowCtl 4) (ctlAct ctlHalt) q) s
/-- QUEUE_CTL DISABLE. -/
def execQueueCtlDisable (q : Nat) (s : State) : Host.Outcome State Fault Refusal := serving (startRow (rowCtl 5) (ctlAct ctlDisable) q) s
/-- QUEUE_CTL ENABLE. -/
def execQueueCtlEnable (q : Nat) (s : State) : Host.Outcome State Fault Refusal := serving (startRow (rowCtl 6) (ctlAct ctlEnable) q) s
/-- QUEUE_CTL EVENT_DEV. -/
def execQueueCtlEventDev (q : Nat) (s : State) : Host.Outcome State Fault Refusal := serving (startRow (rowCtl 7) (ctlAct ctlEventDev) q) s

/-! ## SEM_OP (R370) -/

/-- SEM_OP ADD's effect. -/
def semAddAct (q k : Nat) (b : Bytes) (s : State) : State :=
  finishCmd q k stOk 0 0 (semAdd (s.queue q).ctx (leAt b 24 2) (leAt b 28 4) s)
/-- SEM_OP SET's effect. -/
def semSetAct (q k : Nat) (b : Bytes) (s : State) : State :=
  finishCmd q k stOk 0 0 (s.modCtx (s.queue q).ctx (fun c => { c with sems := c.sems.set (leAt b 24 2) (leAt b 28 4) }))

/-- SEM_OP ADD; this row takes the undefined ops too. -/
def execSemOpAdd (q : Nat) (s : State) : Host.Outcome State Fault Refusal :=
  serving (startRow (fun b => cOp b = 6 && leAt b 26 1 ≠ 1) semAddAct q) s
/-- SEM_OP SET. -/
def execSemOpSet (q : Nat) (s : State) : Host.Outcome State Fault Refusal :=
  serving (startRow (fun b => cOp b = 6 && leAt b 26 1 = 1) semSetAct q) s

/-! ## Weight epochs (R227 to R229, R371, R382) -/

/-- The region mask that a publication names. -/
def epochMask (s : State) (x : Nat) (b : Bytes) : Except Nat Nat :=
  match readFor s x (leAt b 40 8) 32 with
  | .ok m => .ok (ofLe m)
  | .error st => .error st

/-- EPOCH_PUBLISH LOAD's effect: an entry in state LOADING. -/
def publishLoad (q k : Nat) (b : Bytes) (s : State) : State :=
  let x := (s.queue q).ctx
  let es := (s.ctx x).epochs
  match epochMask s x b with
  | .error st => finishCmd q k st 0 0 (noteRead st (leAt b 40 8) 32 s)
  | .ok m =>
    if decide (es.length ≥ 4) || es.any (fun e => e.num = leAt b 24 4) then finishCmd q k stConflict 0 0 s
    else finishCmd q k stOk 0 0 (s.modCtx x (fun c => { c with epochs := c.epochs ++ [{ num := leAt b 24 4, st := .loading, mask := m, progBase := leAt b 32 8 }] }))

/-- The named entry becomes CURRENT and the previous CURRENT entry is superseded, and released when nothing refers to it (R228). -/
def makeCurrent (x n : Nat) (s : State) : State :=
  releaseEpochs x (s.modCtx x (fun c => { c with epochs := c.epochs.map (fun e =>
    if e.num = n then { e with st := .current } else if e.st = .current then { e with st := .superseded } else e) }))

/-- EPOCH_PUBLISH CURRENT's effect. It creates the entry when it is absent, so all four in use conflict only then: with the named LOADING entry
in the table nothing more is put in use (R229, R382; log entry 94). -/
def publishCurrent (q k : Nat) (b : Bytes) (s : State) : State :=
  let x := (s.queue q).ctx
  let n := leAt b 24 4
  match (s.ctx x).epochs.find? (fun e => e.num = n) with
  | some e =>
    if e.st ≠ .loading || epochLoads s x e then finishCmd q k stConflict 0 0 s
    else finishCmd q k stOk 0 0 (makeCurrent x n s)
  | none =>
    match epochMask s x b with
    | .error st => finishCmd q k st 0 0 (noteRead st (leAt b 40 8) 32 s)
    | .ok m =>
      if (s.ctx x).epochs.length ≥ 4 then finishCmd q k stConflict 0 0 s
      else finishCmd q k stOk 0 0 (makeCurrent x n (s.modCtx x (fun c => { c with epochs := c.epochs ++ [{ num := n, st := .loading, mask := m, progBase := leAt b 32 8 }] })))

/-- EPOCH_RETIRE's effect: frees an entry that is not CURRENT and has no reference (R229). -/
def epochRetire (q k : Nat) (b : Bytes) (s : State) : State :=
  let x := (s.queue q).ctx
  let n := leAt b 24 4
  match (s.ctx x).epochs.find? (fun e => e.num = n) with
  | none => finishCmd q k stConflict 0 0 s
  | some e =>
    if e.st = .current || e.refs > 0 || e.releasing then finishCmd q k stConflict 0 0 s
    else finishCmd q k stOk 0 0 (s.modCtx x (fun c => { c with epochs := c.epochs.filter (fun f => f.num ≠ n) }))

/-- EPOCH_PUBLISH LOAD; this row takes the undefined modes too. -/
def execEpochPublishLoad (q : Nat) (s : State) : Host.Outcome State Fault Refusal :=
  serving (startRow (fun b => cOp b = 8 && leAt b 28 1 ≠ 1) publishLoad q) s
/-- EPOCH_PUBLISH CURRENT. -/
def execEpochPublishCurrent (q : Nat) (s : State) : Host.Outcome State Fault Refusal :=
  serving (startRow (fun b => cOp b = 8 && leAt b 28 1 = 1) publishCurrent q) s
/-- EPOCH_RETIRE. -/
def execEpochRetire (q : Nat) (s : State) : Host.Outcome State Fault Refusal := serving (startRow (fun b => cOp b = 9) epochRetire q) s

/-! ## Sequences (R381, R383) -/

/-- SEQ_OPEN's effect: pins the CURRENT epoch. It waits while the context admits no new request (R350). -/
def seqOpenAct (q k : Nat) (b : Bytes) (s : State) : State :=
  let x := (s.queue q).ctx
  let t := leAt b 24 2
  if !seqOwned s x t then finishCmd q k stPerm 0 0 s
  else if !(s.ctx x).admits then holdCmd q k s
  else match currentEpoch s x with
    | none => finishCmd q k stConflict 0 0 s
    | some e =>
      if (s.seq t).isOpen then finishCmd q k stConflict 0 0 s
      else finishCmd q k stOk 0 0 (pinEpoch x e.num (s.modSeq t (fun _ => { isOpen := true, ctx := x, epoch := e.num })))

/-- SEQ_CLOSE's effect: waits for the launches of the sequence, then releases its pin. -/
def seqCloseAct (q k : Nat) (b : Bytes) (s : State) : State :=
  let x := (s.queue q).ctx
  let t := leAt b 24 2
  if !seqOwned s x t then finishCmd q k stPerm 0 0 s
  else if !(s.seq t).isOpen || (s.seq t).ctx ≠ x then finishCmd q k stConflict 0 0 s
  else pollWaits q s

/-- SEQ_OPEN. -/
def execSeqOpen (q : Nat) (s : State) : Host.Outcome State Fault Refusal := serving (startRow (fun b => cOp b = 0x23) seqOpenAct q) s
/-- SEQ_CLOSE. -/
def execSeqClose (q : Nat) (s : State) : Host.Outcome State Fault Refusal := serving (startRow (fun b => cOp b = 0x24) seqCloseAct q) s

/-! ## Completions (R362, R363, R367 to R369, R545) -/

/-- The phase bit of the completion slot that Q names. -/
def phaseBit (k : Queue) : Nat := if (k.q.toNat / k.size) % 2 = 0 then 1 else 0

/-- The status a command completes with: after PEER_LOST or TIMEOUT at a position, OK becomes STATE_CONFLICT there (R237). -/
def finalStatus (s : State) (x : Nat) (c : Cmd) : Nat :=
  let st := c.status.getD stOk
  if decide (st < 0x10) && cBound c.bytes && (s.sl x).dead.contains (cEpoch c.bytes, cStep c.bytes) then stConflict else st

/-- A completion halts the queue: halt_on_error, and a status of 0x10 or above (R362). -/
def haltsNow (k : Queue) (c : Cmd) (st : Nat) : Bool := k.halt && decide (st ≥ 0x10) && !c.flushed && decide (c.idx < 2 ^ 32) && !k.halted

/-- The 16 bytes of a command's completion (R367). -/
def cplBytes (k : Queue) (c : Cmd) (st : Nat) : Bytes :=
  le 4 (if c.idx < 2 ^ 32 then c.idx else 0) ++ [BitVec.ofNat 8 st, BitVec.ofNat 8 (cOp c.bytes)] ++ le 2 (cTag c.bytes) ++ le 4 c.detail
    ++ le 2 c.detail2 ++ [0, BitVec.ofNat 8 (phaseBit k + 2 * b2n (haltsNow k c st) + 8 * b2n c.flushed)]

/-- The 16 bytes of an epoch-release notice (R367, R369). -/
def noticeBytes (k : Queue) (n : Nat) : Bytes :=
  le 4 0 ++ [0, 0x0B] ++ le 2 0 ++ le 4 n ++ le 2 0 ++ [0, BitVec.ofNat 8 (phaseBit k + 4)]

/-- Writes an entry at the slot of Q: on success Q advances; a failed write halts the queue and leaves the entry pending (R545). -/
def putEntry (q : Nat) (e : Bytes) (s : State) : State × Bool :=
  let k := s.queue q
  let a := k.cpl + 16 * (k.q.toNat % k.size)
  let fail := fun (st : Nat) =>
    (logInternal 18 (some k.ctx) st (s.modQueue q (fun w => { w with halted := true, haltSt := BitVec.ofNat 8 st, unwritten := some e })), false)
  if !qMay s q a 16 true false then fail stPerm
  else
    let r := writeMem s a e
    if r.2 then (r.1.modQueue q (fun w => { w with q := w.q + 1, unwritten := none }), true) else fail stMem

/-- What the completion of a command brings about once it is written: the queue halts, the position dies, pins are released, the
semaphore is signalled, the EVENT is sent (R235, R237, R362, R363, R383). -/
def afterCpl (q : Nat) (c : Cmd) (st : Nat) (s : State) : State :=
  let k := s.queue q
  let x := k.ctx
  let halts := haltsNow k c st
  let s := if halts then s.modQueue q (fun w => { w with halted := true, haltSt := BitVec.ofNat 8 st }) else s
  let s := if cBound c.bytes && (st = stPeerLost || st = stTimeout) then
      s.modSl x (fun l => { l with dead := (cEpoch c.bytes, cStep c.bytes) :: l.dead }) else s
  let s := if c.pinned then unpinEpoch x c.epoch s else s
  let s := match c.seq with
    | some t => s.modSeq t (fun e => { e with inFlight := e.inFlight - 1 })
    | none => s
  let s := if halts && decide ((s.ctx x).jobTag ≠ 0) then failStep x st s else s
  let s := if c.started then semSignal x (cSignal c.bytes) s else s
  let s := ffTrace 0x0002 18 q (some x) (le 4 c.idx ++ [BitVec.ofNat 8 st] ++ le 4 (usOf (s.clk - c.since))) s
  if cNotify c.bytes then sendTo k.eventDev 6 0 (le 2 q ++ zeros 2 ++ le 4 c.idx) (some x) s else s

/-- The entry that could not be written is the completion of the oldest command: it goes before any notice that has come since (R545). -/
def pendingCpl (k : Queue) : Bool := match k.unwritten with | some e => !bit (leAt e 15 1) 2 | none => false

/-- Writes the next entry of the completion ring: one that could not be written before, a notice that waits, or the completion of the oldest
command once it has its status. -/
def completionWrite (q : Nat) (s : State) : State :=
  let s := pollWaits q s
  let k := s.queue q
  if !k.defined || (k.halted && k.unwritten.isSome) || !slotFree k 0 then s
  else match (if pendingCpl k then [] else k.notices) with
    | n :: rest =>
      let r := putEntry q (noticeBytes k n) s
      if r.2 then r.1.modQueue q (fun w => { w with notices := rest }) else r.1
    | [] =>
      match k.flight with
      | [] => s
      | c :: rest =>
        match c.status with
        | none => s
        | some _ =>
          let st := finalStatus s k.ctx c
          let r := putEntry q (cplBytes k c st) s
          if r.2 then afterCpl q c st (r.1.modQueue q (fun w => { w with flight := rest })) else r.1

/-- COMPLETION_WRITE. -/
def execCompletionWrite (q : Nat) (s : State) : Host.Outcome State Fault Refusal := serving (completionWrite q) s

end Sys2Proof.Machine
end

