-- ==== Sys2Proof/Machine/Amend.lean ====
section
/-! DEFINITION. Machine/Amend.lean: amendments of the Carapace stream: the path and the signer, the log, the conflicts of each plate, and what
takes effect at once (R340, R342, R344, R464, R485, R507 to R509, R516, R517). -/
namespace Sys2Proof.Machine

/-! ## The log (R516) -/

/-- Bytes that an amendment takes in the log: with its length and CRC-64, from one 4 KiB boundary to the next. -/
def logBytes (b : Bytes) : Nat := alignUp (b.length + 12) 4096

/-- Bytes of the log in use. -/
def logUsed (l : List Bytes) : Nat := (l.map logBytes).sum

/-- The log cannot take an amendment. -/
def logFull (l : List Bytes) (b : Bytes) : Bool := decide (l.length ≥ 4096) || decide (logUsed l + logBytes b > 0x6000000)

/-- The log is nearly full. -/
def logNear (l : List Bytes) : Bool := decide (l.length ≥ 3840) || decide (0x6000000 - logUsed l < 0x800000)

/-- An amendment is stored; as the log becomes nearly full a WARN event is written, whose code no rule gives (log entry 5). -/
def storeAmend (b : Bytes) (s : State) : State :=
  let was := logNear s.boot.amends
  let s : State := { s with boot := { s.boot with amends := s.boot.amends ++ [b], applied := s.boot.applied ++ [b] },
                            sec := { s.sec with caraSeq := s.sec.caraSeq + 1 } }
  if logNear s.boot.amends && !was then
    let w := takeWord s
    ffEvent (w.1 % 65536) 3 18 0 none [] w.2
  else s

/-! ## The path (R485, R486, R509) -/

/-- The path carries the authority that the signer claims: the operator's session for the owner; the session or the control queue of the
context of every section for its tenant; that control queue for no signer. -/
def pathFits (s : State) (path : ReqPath) (signer : Nat) (xs : List Nat) : Bool :=
  match path with
  | .mgmt n => (match mgmtAuth s n with
    | .operator => signer = 1
    | .tenant x => signer = 2 && xs.all (· = x)
    | .none => false)
  | .control x => (signer = 2 || signer = 3) && (s.ctx x).defined && xs.all (· = x)

/-- The answer to an amendment goes back on its path. -/
def amendAnswer (path : ReqPath) (st : Nat) (s : State) : State :=
  match path with
  | .mgmt _ => answer 509 st [] s
  | .control x => postMolt x st s

/-! ## Conflicts (R517) -/

/-- The context is in use. -/
def inUse (s : State) (x : Nat) : Bool := decide ((s.ctx x).st ≠ .empty)

/-- The cells that a change of configuration fences. -/
def newlyFenced (s : State) (new : Conf) : List Nat := (maskList new.fencedCells).filter (cellPresent s)

/-- The dies that it fences. -/
def newDies (s : State) (new : Conf) : List Nat := (List.range 20).filter (fun d => bit new.plate.dieFence.toNat d && !fenced s d)

/-- A context in use owns or borrows a cell to be fenced, or holds a region in a holder to be fenced. -/
def dieConflict (s : State) (new : Conf) : Bool :=
  let cs := newlyFenced s new
  let ds := newDies s new
  s.ctxs.any (fun e => decide (e.2.st ≠ .empty) &&
    (cs.any (fun c => e.2.owned.contains c || decide ((s.cell c).ctx = e.1 ∧ (s.cell c).st ≠ .idle))
      || e.2.regions.any (fun r => r.2.valid && (match areaOf s r.2.base with | .context h => ds.contains h | _ => false))))

/-- The entry of a context in the partition plate and the parity region of the memory plate. -/
def ctxEntry (c : Conf) (x : Nat) : Option CtxPl × Nat := (c.ctxs.find? (fun e => e.ctx = x), c.plate.parityReg.getD x 255)

/-- The ranges that one configuration has and the other has not. -/
def rangesGone (a b : Conf) : List QRange := a.queues.filter (fun r => !b.queues.contains r)

/-- A context in use whose entry, queues or mode change. -/
def tableConflict (s : State) (old new : Conf) : Bool :=
  (List.range 64).any (fun x => inUse s x &&
    (decide (ctxEntry old x ≠ ctxEntry new x) || decide (old.modes.getD x 0 ≠ new.modes.getD x 0)
      || (rangesGone old new ++ rangesGone new old).any (fun r => r.ctx = x)))

/-! ## Carapace sections (R322, R340, R342, R344, R464, R517, R518) -/

/-- The nested numerics fields of two carapaces are the same. -/
def sameNumerics (a b : Job) : Bool :=
  a.lsMin = b.lsMin && a.lsMax = b.lsMax && a.lsUp = b.lsUp && a.lsDown = b.lsDown && a.raiseInt = b.raiseInt && a.xInit = b.xInit
    && a.gbiWidth = b.gbiWidth && a.nShares = b.nShares && a.lsInit = b.lsInit && a.commitMs = b.commitMs && a.replay = b.replay

/-- The lost members of a RECOVER amendment: those of the old carapace that are absent from the new one. -/
def lostMembers (old new : Job) : List Nat := (old.members.zipIdx.filter (fun d => !new.members.contains d.1)).map (·.2)

/-- Without a checkpoint, more than two members of a coding group are lost, or a lost member has no heir among the new members. -/
def lostTooMany (old new : Job) (m : MoltAsk) : Bool :=
  let lost := lostMembers old new
  m.recover && !m.checkpoint &&
    (lost.any (fun i => match codeGroup old i with
        | some g => decide ((lost.filter (fun k => decide (g.1 ≤ k) && decide (k < g.1 + g.2))).length > 2)
        | none => false)
      || lost.any (fun i => match getKey m.heirs i with | some d => !new.members.contains d | none => true))

/-- The carapace before the amendment: the one in force, or, for a device new to the job, the one that the amendment describes. -/
def oldJob (c : Ctx) (j : Job) (m : MoltAsk) : Option Job :=
  if c.st = .empty then (if m.members.isEmpty then none else some { j with members := m.members, slots := m.slots }) else c.job

/-- The amendment does not give a context that its molt creates the fields of R358, or gives them against that rule. -/
def freshBad (c : Ctx) (j : Job) (m : MoltAsk) : Bool :=
  match m.desc with
  | none => true
  | some d => ctxDescBad c.lc d || decide (leAt d 0 4 ≠ j.jobTag)

/-- What a section asks of its context: a status of refusal, the structure of an EMPTY context, a molt, or, on a device of neither
carapace, nothing more than to know the job. -/
def sectionStatus (s : State) (j : Job) (m : MoltAsk) : Nat :=
  let c := s.ctx j.ctx
  let dev := s.plate.devIndex
  if !c.defined then stBad
  else if moltOn c then stConflict
  else match oldJob c j m with
    | none => if c.st = .empty then stOk else stConflict
    | some o =>
      if c.st = .empty && o.members.contains dev then stConflict
      else if c.st = .faulted || c.st = .molting then stConflict
      else if (!o.members.contains dev && j.members.contains dev && freshBad c j m) || o.jobTag ≠ j.jobTag || decide (j.epoch ≤ (if c.st = .empty then 0 else o.epoch)) || o.pTotal ≠ j.pTotal || !sameNumerics o j || lostTooMany o j m then stBad
      else stOk

/-- A section that its checks have passed: the molt or recovery is announced, or the structure put into force. -/
def applySection (j : Job) (m : MoltAsk) (s : State) : State :=
  let x := j.ctx
  let c := s.ctx x
  let dev := s.plate.devIndex
  match oldJob c j m with
  | none => putJob j s
  | some o =>
    if !o.members.contains dev && !j.members.contains dev then putJob j s
    else
      announceMolt x {
        epoch := j.epoch, job := some j, old := some o, sMin := m.sMin, recover := m.recover, checkpoint := m.checkpoint, heirs := m.heirs,
        group := moltGroup (some o) j, desc := m.desc.map (fun d => (BitVec.ofNat 256 (leAt d 8 32), leAt d 40 8)), fresh := !o.members.contains dev } (declareLends j s)

/-! ## What takes effect at once (R517) -/

/-- The plates as they are in force after an amendment: identity waits for the next warm reset, and so does unfencing. -/
def nextPlate (old new : Plate) : Plate :=
  { new with
    devIndex := old.devIndex, mgmtAddr := old.mgmtAddr, mgmtHop := old.mgmtHop, spdmPort := old.spdmPort, fmAddr := old.fmAddr,
    dieFence := old.dieFence ||| new.dieFence, cellFence := old.cellFence ||| new.cellFence, coreFence := old.coreFence ||| new.coreFence }

/-- The static part of the contexts whose entries change, and their control queues. -/
def applyCtxs (old new : Conf) (s : State) : State :=
  let changed := (List.range 64).filter (fun x => decide (ctxEntry old x ≠ ctxEntry new x) || decide (old.modes.getD x 0 ≠ new.modes.getD x 0))
  let s := changed.foldl (fun t x => match new.ctxs.find? (fun e => e.ctx = x) with
    | some e => { t with ctxs := t.ctxs.set x { newCtx new e with job := (t.ctx x).job, left := (t.ctx x).left, declared := (t.ctx x).declared },
                         queues := if (t.queue x).defined then t.queues else t.queues.set x (ctlQueue e) }
    | none => { t with ctxs := t.ctxs.erase x, queues := t.queues.erase x }) s
  new.ctxs.foldl (fun t e => t.modCtx e.ctx (fun c => { c with seqBase := (newCtx new e).seqBase, seqCount := (newCtx new e).seqCount })) s

/-- The queues of ranges that go, and those of ranges that come. -/
def applyQueues (old new : Conf) (s : State) : State :=
  let s := (rangesGone old new).foldl (fun t r => { t with queues := t.queues.filter (fun e => !(decide (r.first ≤ e.1) && decide (e.1 < r.first + r.count))) }) s
  let s := (rangesGone new old).foldl (fun t r => (List.range r.count).foldl (fun u i =>
    { u with queues := u.queues.set (r.first + i) (rangeQueue (lcIn new r.ctx) r i) }) t) s
  let a := mboxTable old
  let b := mboxTable new
  (List.range 64).foldl (fun t i => if a.get {} i = b.get {} i then t else t.modMbox i (fun _ => b.get {} i)) s

/-- Sub-ports whose split changes, or whose link die goes, lose their link; the new ones train. -/
def applyPorts (s0 : State) (s : State) : State :=
  let old := portsOf s0 s0.plate.split
  let new := portsOf s s.plate.split
  let s := (old.filter (fun p => !new.contains p)).foldl (fun t p => { portDown p.1 t with ports := (portDown p.1 t).ports.erase p.1 }) s
  (new.filter (fun p => !old.contains p)).foldl (fun t p => newPort p t) s

/-- A change of ptp_lane moves the servo to the new sub-port. -/
def applyPtp (s0 : State) (s : State) : State :=
  if s0.plate.ptpLane = s.plate.ptpLane then s
  else
    let l := s.plate.ptpLane
    let s := setPtpLane s
    if decide (l ≥ 72) || fenced s (dieOfLane l) then s
    else ptpTo (dieOfLane l) (if (s.port l).linkUp then .listening else .initializing) s

/-- The compartments that run move to the cores left in service (R388). -/
def applyCores (s : State) : State :=
  (List.range 5).foldl (fun t c => modComp c (fun u => { u with core := compCore (hubCores t) c }) t) s

/-- The device-level plates of an amendment take effect. -/
def applyPlates (old new : Conf) (s : State) : State :=
  let t := applyQueues old new (applyCtxs old new { s with plate := nextPlate s.plate new.plate })
  let t := if s.plate.dieFence = t.plate.dieFence && s.plate.cellFence = t.plate.cellFence then t else writeRoutes (isolate (fenceDies t))
  let t := if s.plate.coreFence = t.plate.coreFence then t else applyCores t
  let t := if old.scrub = new.scrub then t else putScrub new t
  applyPtp s (applyPorts s t)

/-! ## AMENDMENT -/

/-- The status with which a verified amendment is refused, OK when it takes effect: first the sections, each with its own rules, then the
device-level plates. -/
def amendStatus (s : State) (old new : Conf) (xs : List Nat) : Nat :=
  let sts := xs.map (fun x => match new.jobs.find? (fun j => j.1.ctx = x) with | some j => sectionStatus s j.1 j.2 | none => stBad)
  match sts.find? (fun st => st ≠ stOk) with
  | some st => st
  | none => if dieConflict s new || tableConflict s old new then stConflict else stOk

/-- An authentic amendment is refused: it is answered on its path, and a molt that it asked for over MGMT also on the control queue of each context in use
(R340). -/
def refuseAmend (path : ReqPath) (xs : List Nat) (st : Nat) (s : State) : State :=
  match path with
  | .mgmt _ => (xs.filter (fun x => inUse s x)).foldl (fun t x => postMolt x st t) (amendAnswer path st s)
  | .control _ => amendAnswer path st s

/-- AMENDMENT: an amendment arrives over MGMT or on a control queue. It is checked, stored in the log, and takes effect; a refused one
has no effect and is not stored. -/
def amendment (path : ReqPath) (b : Bytes) (s : State) : State :=
  let no := fun (st : Nat) => amendAnswer path st s
  if (match path with | .mgmt _ => compDown s 3 | .control _ => false) then no stInternal
  else if decide (b.length > 0x800000) then no stBad
  else match envelopeOf b with
    | none => no stBad
    | some e =>
      if e.kind ≠ 1 || (e.serial ≠ 0 && e.serial ≠ Config.serial.toNat) then no stBad
      else match streamPlates e b with
        | .error _ => no stBad
        | .ok l =>
          let xs := sectionCtxs l
          let old := confNow s
          if !amendSigned s old e b l || !pathFits s path e.signer xs then no stPerm
          else if (match envelopeOf s.boot.stream with | some k => decide (k.seq ≠ e.baseSeq) | none => true) then refuseAmend path xs stConflict s
          else if logFull s.boot.amends b then refuseAmend path xs stConflict s
          else match confOf s s.boot.stream (s.boot.applied ++ [b]) with
            | .error _ => refuseAmend path xs stBad s
            | .ok c =>
              let new := c.trim
              let st := amendStatus s old new xs
              if st ≠ stOk then refuseAmend path xs st s
              else
                let s := applyPlates old new (storeAmend b s)
                let s := xs.foldl (fun t x => match new.jobs.find? (fun j => j.1.ctx = x) with | some j => applySection j.1 j.2 t | none => t) s
                match path with
                | .mgmt _ => amendAnswer path stOk s
                | .control x => if moltOn (s.ctx x) then s else amendAnswer path stOk s

/-- AMENDMENT. -/
def execAmendment (path : ReqPath) (bytes : Bytes) (s : State) : Host.Outcome State Fault Refusal :=
  net (amendment path bytes) s

end Sys2Proof.Machine
end

