-- ==== Sys2Proof/Machine/Security.lean ====
section
/-! DEFINITION. Machine/Security.lean: ownership, CAKs, RMA, debug grants, and SPDM as responder and, in re-admission, as requester (R353,
R354, R471 to R489). The layouts of SPDM messages are those of DSP0274 (log entry 8). -/
namespace Sys2Proof.Machine

/-! ## Requests of the operator (R474, R488, R489) -/

/-- Every context is EMPTY. -/
def allEmpty (s : State) : Bool := s.ctxs.all (fun e => e.2.st = .empty)

/-- OWNERSHIP_CHANGE: signed by the current and by the new owner, with every context EMPTY and an owner slot left; it takes effect at the next
start (R474). -/
def ownershipChange (session : Nat) (rsa mldsa sigOld sigNew : Bytes) (s : State) : State :=
  match ownerHashes s.sec with
  | none => answer 474 stPerm [] s
  | some o =>
    if !isOperator s session || !Config.hashSigned o.1 (rsa ++ mldsa) sigOld || !Config.hashSigned rsa (rsa ++ mldsa) sigNew then answer 474 stPerm [] s
    else if compDown s 3 then answer 474 stInternal [] s
    else if !allEmpty s || decide (s.sec.owners.length ≥ 4) || s.sec.ownerNew.isSome then answer 474 stConflict [] s
    else answer 474 stOk [] { s with sec := { s.sec with ownerNew := some (rsa, mldsa) } }

/-- OWNERSHIP_CHANGE. -/
def execOwnershipChange (session : Nat) (rsaHash mldsaHash sigOld sigNew : Bytes) (s : State) : Host.Outcome State Fault Refusal :=
  serving (ownershipChange session rsaHash mldsaHash sigOld sigNew) s

/-- CAK_INSTALL: the key of slot n is stored; sub-ports use it from their next key server election (R489). -/
def cakInstall (session n : Nat) (key : Bytes) (s : State) : State :=
  if !isOperator s session then answer 489 stPerm [] s
  else if compDown s 3 then answer 489 stInternal [] s
  else if decide (n ≥ 16) || key.isEmpty then answer 489 stBad [] s
  else answer 489 stOk [] { s with sec := { s.sec with caks := s.sec.caks.set n key } }

/-- CAK_INSTALL. -/
def execCakInstall (session n : Nat) (key : Bytes) (s : State) : Host.Outcome State Fault Refusal := serving (cakInstall session n key) s

/-- A request of Onaov: signed under an unrevoked root generation. -/
def onaovSigned (s : State) (msg sig : Bytes) : Bool :=
  [0, 1].any (fun g => !bit s.sec.rootRev.toNat g && Config.hashSigned (Config.rootHash g false) msg sig)

/-- ENTER_RMA: signed by owner and Onaov, with every context EMPTY: the slots are destroyed, the CAK store erased, and the device enters a
warm reset that ends in Pupa mode (R488, R497). -/
def enterRma (session : Nat) (sigOwner sigOnaov : Bytes) (s : State) : State :=
  match ownerHashes s.sec with
  | none => answer 488 stPerm [] s
  | some o =>
    if !isOperator s session || !Config.hashSigned o.1 (ascii "RMA") sigOwner || !onaovSigned s (ascii "RMA") sigOnaov then answer 488 stPerm [] s
    else if compDown s 3 then answer 488 stInternal [] s
    else if !allEmpty s then answer 488 stConflict [] s
    else
      warmReset (answer 488 stOk [] { s with sec := { s.sec with lifecycle := max s.sec.lifecycle 3, slotLive := 0, slotKeys := [], caks := [] } })

/-- ENTER_RMA. -/
def execEnterRma (session : Nat) (sigOwner sigOnaov : Bytes) (s : State) : Host.Outcome State Fault Refusal :=
  serving (enterRma session sigOwner sigOnaov) s

/-- The records of the Firefly ring and the crash summaries of the boot flash (R413, R501). -/
def ringAndCrashes (s : State) : Bytes :=
  let ring := ((List.range 12288).filterMap (s.hub.evRing.get none)) ++ ((List.range 4096).filterMap (s.hub.trRing.get none))
  ring.flatMap ffBytes ++ flashRead s 0x100000 0x800000

/-- The error log, oldest record first (R417, R418). -/
def errLogBytes (s : State) : Bytes := s.hub.errLog.reverse.flatMap errBytes

/-- DEBUG_GRANT: kind 0 reads context memory or a scratchpad, kind 1 the raw accumulator view or core memory, kind 2 halts, steps or reads a hub
control core: measurement 6 takes an event, and the bit of debug_state is set. Kind 3 reads the crash area or the profile buffer, kind 4 the Firefly ring
and the crash summaries, kind 5 the error log: these are not logged (R8, R413, R417, R488; log entry 109). -/
def debugGrant (session kind addr len : Nat) (s : State) : State :=
  if !isOperator s session then answer 488 stPerm [] s
  else if kind = 2 then answer 488 stOk [] (logDebug 2 s)
  else if kind = 4 then answer 488 stOk (ringAndCrashes s) s
  else if kind = 5 then answer 488 stOk (errLogBytes s) s
  else
    let p := requestStatus s .operator false addr len
    if p.1 ≠ stOk || p.2 ≠ (if kind = 3 then none else some kind) then answer 488 stPerm [] s
    else
      let s := if kind = 3 then s else logDebug kind s
      match readMem s addr len with
      | some b => answer 488 stOk b s
      | none => answer 488 stMem [] (notePoison s addr len)

/-- DEBUG_GRANT. -/
def execDebugGrant (session kind addr len : Nat) (s : State) : Host.Outcome State Fault Refusal := serving (debugGrant session kind addr len) s

/-! ## Measurements and the attestation report (R482 to R484) -/

/-- A byte string cut or padded with zeros to n bytes. -/
def fixLen (n : Nat) (b : Bytes) : Bytes := (b ++ zeros n).take n

/-- The hash chain of the debug log, from 64 zero bytes. -/
def debugChain (l : List Bytes) : Bytes := l.foldl (fun h e => sha512 (h ++ e)) (zeros 64)

/-- The digest of measurement i, from 1 to 6. -/
def measDigest (s : State) (i : Nat) : Bytes :=
  match i with
  | 1 => fixLen 64 (Config.measurement 1 [])
  | 2 => fixLen 64 s.sec.meas2
  | 3 => fixLen 64 s.sec.meas3
  | 4 => fixLen 64 s.sec.meas4
  | 5 => fixLen 64 (Config.measurement 5 (s.boot.stream :: s.boot.applied))
  | _ => debugChain s.sec.debugLog

/-- The first 768 bytes of a report in a scope. -/
def reportHead (s : State) (nonce : Bytes) (scope : Option Nat) : Bytes :=
  let c := match scope with | some x => s.ctx x | none => {}
  let o := (ownerHashes s.sec).getD ([], [])
  le 4 0x52414659 ++ le 2 1 ++ le 2 s.boot.stepping.toNat ++ le 8 Config.serial.toNat ++ le 4 s.boot.incarn ++ le 4 s.sec.reports
    ++ fixLen 32 nonce ++ le 8 (fabricNs s) ++ le 1 s.sec.lifecycle ++ le 1 (s.sec.debugSt.toNat % 8 + 8 * b2n (timeUncertain s))
    ++ le 1 (healthCode s.hub.health) ++ le 1 ((ownerSlot s.sec).getD 0xFF) ++ le 4 s.sec.imageSvn ++ le 4 s.sec.caraSeq
    ++ le 1 (scope.getD 0xFF) ++ zeros 3 ++ le 4 c.jobTag ++ zeros 4 ++ le 16 c.slotMask
    ++ (match scope with | some _ => (sha512 (keyBytes c.jobSeed)).take 32 | none => zeros 32)
    ++ (List.range 6).flatMap (fun i => measDigest s (i + 1)) ++ fixLen 64 o.1 ++ fixLen 64 o.2 ++ zeros 120

/-- The attestation report: 5,907 bytes, signed by both Alias keys over its first 768. -/
def reportBytes (s : State) (nonce : Bytes) (scope : Option Nat) : Bytes :=
  let h := reportHead s nonce scope
  h ++ fixLen 512 (Config.rsaSign s.sec.aliasSeed h) ++ fixLen 4627 (Config.mldsaSign s.sec.aliasSeed h)

/-- A measurement block of DMTF form: index, specification, size, value type, value size, value. -/
def measBlock (i ty : Nat) (v : Bytes) : Bytes := le 1 i ++ le 1 1 ++ le 2 (v.length + 3) ++ le 1 ty ++ le 2 v.length ++ v

/-- The DMTF value type of a block: ROM, mutable firmware, hardware or firmware configuration; bit 7 marks a raw bit stream. -/
def measType (i : Nat) : Nat := match i with | 1 => 0 | 2 => 1 | 3 => 1 | 4 => 2 | 5 => 3 | 6 => 4 | _ => 0x84

/-- The value of a block. -/
def measValue (s : State) (i : Nat) (nonce : Bytes) (scope : Option Nat) : Bytes :=
  if i = 0xF0 then reportBytes s nonce scope else if i = 0xF1 then Config.certChain true else measDigest s i

/-! ## SPDM as responder (R481, R485) -/

/-- The MGMT compartment runs, and the transport carries SPDM: MGMT from BOOT_IMAGE on and in Pupa mode, Fjorum in service while the hub firmware is
not stalled (R318, R492). -/
def spdmUp (s : State) (p : SpdmPath) : Bool :=
  (compOf s 3).st = 1 && (match p with | .mgmt => true | .fjorum _ => s.pwr.st = .on && !hubStalled s)

/-- The SPDM message of a peer that waits in a control message is taken: its row acts on it (R312). -/
def takeSpdm (p : SpdmPath) (s : State) : State :=
  match p with
  | .mgmt => s
  | .fjorum dev => match s.rxq.find? (fun q => q.hdr.src = dev && isCtl q 7) with
    | some q => takeRx s q
    | none => s

/-- An SPDM message leaves: over MGMT, or in a Fjorum control message (R312). -/
def spdmSend (p : SpdmPath) (code : Nat) (fields : List Nat) (data : Bytes) (s : State) : State :=
  match p with
  | .mgmt => s.emit (.spdm .mgmt code fields data)
  | .fjorum dev => sendSpdm s dev code fields data

/-- A request is answered: its message is taken, and the answer leaves. -/
def spdmReply (p : SpdmPath) (code : Nat) (fields : List Nat) (data : Bytes) (s : State) : State := spdmSend p code fields data (takeSpdm p s)

/-- An SPDM ERROR with its code. -/
def spdmError (p : SpdmPath) (why : Nat) (s : State) : State := spdmReply p 0x7F [why] [] s

/-- Error codes of DSP0274: InvalidRequest, UnexpectedRequest, DecryptError, SessionLimitExceeded. -/
def erInvalid : Nat := 0x01
/-- UnexpectedRequest. -/
def erUnexpected : Nat := 0x04
/-- DecryptError. -/
def erDecrypt : Nat := 0x06
/-- SessionLimitExceeded. -/
def erSessions : Nat := 0x0A

/-- GET_VERSION: 1.2 and 1.3; what the transport had negotiated is void. -/
def getVersion (p : SpdmPath) (s : State) : State :=
  if !spdmUp s p then s
  else spdmReply p 0x04 [0x12, 0x13] [] { s with sec := { s.sec with
    versioned := p :: s.sec.versioned.filter (· ≠ p), negotiated := s.sec.negotiated.filter (· ≠ p) } }

/-- GET_VERSION. -/
def execGetVersion (p : SpdmPath) (s : State) : Host.Outcome State Fault Refusal := powered (getVersion p) s

/-- The capability flags of R481 in the positions of DSP0274: CERT 1, CHAL 2, MEAS with signature 4:3 = 2, ENCRYPT 6, MAC 7, MUT_AUTH 8, KEY_EX 9,
HBEAT 13, KEY_UPD 14, CHUNK 17. -/
def spdmCaps : Nat := 0x263D6

/-- GET_CAPABILITIES. -/
def getCapabilities (p : SpdmPath) (_flags : Nat) (s : State) : State :=
  if !spdmUp s p then s
  else if !s.sec.versioned.contains p then spdmError p erUnexpected s
  else spdmReply p 0x61 [spdmCaps] [] s

/-- GET_CAPABILITIES. -/
def execGetCapabilities (p : SpdmPath) (flags : Nat) (s : State) : Host.Outcome State Fault Refusal := powered (getCapabilities p flags) s

/-- NEGOTIATE_ALGORITHMS: the algorithms of R481, when the offer holds them: RSAPSS_4096 is bit 6 of BaseAsymAlgo, SHA_512 bit 2 of
BaseHashAlgo. -/
def negotiate (p : SpdmPath) (offer : Bytes) (s : State) : State :=
  if !spdmUp s p then s
  else if !s.sec.versioned.contains p then spdmError p erUnexpected s
  else
    let asym := bit (leAt offer 8 4) 6
    let hash := bit (leAt offer 12 4) 2
    let s := if asym && hash then { s with sec := { s.sec with negotiated := p :: s.sec.negotiated.filter (· ≠ p) } } else s
    spdmReply p 0x63 [b2n asym * 64, b2n hash * 4] (Config.spdmBody 0x63 [] offer) s

/-- NEGOTIATE_ALGORITHMS. -/
def execNegotiateAlgorithms (p : SpdmPath) (offer : Bytes) (s : State) : Host.Outcome State Fault Refusal := powered (negotiate p offer) s

/-- A request that needs negotiated algorithms. -/
def negotiated (p : SpdmPath) (f : State → State) (s : State) : State :=
  if !spdmUp s p then s else if !s.sec.negotiated.contains p then spdmError p erUnexpected s else f s

/-- GET_CERTIFICATE: a portion of the RSA chain of slot 0. -/
def getCertificate (p : SpdmPath) (slot off len : Nat) (s : State) : State :=
  negotiated p (fun s =>
    let chain := Config.certChain false
    if slot ≠ 0 || decide (off ≥ chain.length) then spdmError p erInvalid s
    else
      let part := slice chain off (min len (chain.length - off))
      spdmReply p 0x02 [slot, part.length, chain.length - off - part.length] part s) s

/-- GET_CERTIFICATE. -/
def execGetCertificate (p : SpdmPath) (slot off len : Nat) (s : State) : Host.Outcome State Fault Refusal :=
  powered (getCertificate p slot off len) s

/-- The blocks that an index names: all for 0xFF, none of which does not exist. -/
def measIndices (i : Nat) : List Nat :=
  if i = 0xFF then [1, 2, 3, 4, 5, 6, 0xF0, 0xF1] else if (decide (1 ≤ i) && decide (i ≤ 6)) || i = 0xF0 || i = 0xF1 then [i] else []

/-- The scope of a report: the context to which the session is bound, else the device (R483). -/
def reportScope (s : State) (session : Option Nat) : Option Nat :=
  match session with
  | some n => (match sessAuth s n with | .tenant x => some x | .operator => none | .none => none)
  | none => none

/-- GET_MEASUREMENTS: blocks with the signature of the Alias key over them and the nonce; index 0 asks their number. A report counts. -/
def getMeasurements (p : SpdmPath) (session : Option Nat) (index : Nat) (nonce : Bytes) (s : State) : State :=
  negotiated p (fun s =>
    let is := measIndices index
    if index = 0 then spdmReply p 0x60 [8] [] s
    else if is.isEmpty || nonce.length ≠ 32 then spdmError p erInvalid s
    else
      let s := if is.contains 0xF0 then { s with sec := { s.sec with reports := s.sec.reports + 1 } } else s
      let r := is.flatMap (fun i => measBlock i (measType i) (measValue s i nonce (reportScope s session)))
      spdmReply p 0x60 [is.length, r.length] (r ++ nonce ++ fixLen 512 (Config.rsaSign s.sec.aliasSeed (r ++ nonce))) s) s

/-- GET_MEASUREMENTS. -/
def execGetMeasurements (p : SpdmPath) (session : Option Nat) (index : Nat) (nonce : Bytes) (s : State) : Host.Outcome State Fault Refusal :=
  powered (getMeasurements p session index nonce) s

/-- KEY_EXCHANGE: a session opens, at most sixteen over both transports. -/
def keyExchange (p : SpdmPath) (slot : Nat) (exch : Bytes) (s : State) : State :=
  negotiated p (fun s =>
    if slot ≠ 0 then spdmError p erInvalid s
    else if s.sec.sessions.length ≥ 16 then spdmError p erSessions s
    else
      let d := takeDraw s
      let s := d.2
      let n := s.sec.nextSid
      let s : State := { s with sec := { s.sec with sessions := s.sec.sessions ++ [{ id := n, path := p, clk := s.clk }], nextSid := n + 1 } }
      spdmReply p 0x64 [n] (Config.spdmBody 0x64 [n] (exch ++ keyBytes d.1)) s) s

/-- KEY_EXCHANGE. -/
def execKeyExchange (p : SpdmPath) (slot : Nat) (exch : Bytes) (s : State) : Host.Outcome State Fault Refusal := powered (keyExchange p slot exch) s

/-- The authority of a requester whose keys have the given hashes (R485). -/
def authorityOf (s : State) (rsa mldsa : Bytes) : Authority :=
  if ownerHashes s.sec = some (rsa, mldsa) then .operator
  else match s.ctxs.find? (fun e => e.2.defined && !e.2.tenant.isEmpty && e.2.tenant = rsa ++ mldsa) with
    | some e => .tenant e.1
    | none => .none

/-- FINISH: the session is complete, and mutual authentication fixes its authority; without it, it has none beyond attestation. -/
def finish (sid : Nat) (rsa mldsa proof : Bytes) (s : State) : State :=
  match s.sec.sessions.find? (fun e => e.id = sid) with
  | none => s
  | some e =>
    if !spdmUp s e.path then s
    else if e.ready then spdmError e.path erUnexpected s
    else
      let mutual_ := !(rsa.isEmpty && mldsa.isEmpty)
      if mutual_ && !Config.finishVerify rsa proof then spdmError e.path erDecrypt s
      else
        let a := if mutual_ then authorityOf s rsa mldsa else .none
        spdmReply e.path 0x65 [sid] [] { s with sec := { s.sec with
          sessions := s.sec.sessions.map (fun k => if k.id = sid then { k with ready := true, auth := a, clk := s.clk } else k) } }

/-- FINISH. -/
def execFinish (sid : Nat) (rsaHash mldsaHash proof : Bytes) (s : State) : Host.Outcome State Fault Refusal :=
  powered (finish sid rsaHash mldsaHash proof) s

/-- CHALLENGE: CHALLENGE_AUTH with a nonce of the device and the signature of the Alias key. -/
def challenge (p : SpdmPath) (slot : Nat) (nonce : Bytes) (s : State) : State :=
  negotiated p (fun s =>
    if slot ≠ 0 || nonce.length ≠ 32 then spdmError p erInvalid s
    else
      let d := takeDraw s
      let m := nonce ++ sha512 (Config.certChain false) ++ keyBytes d.1
      spdmReply p 0x03 [slot] (m ++ fixLen 512 (Config.rsaSign s.sec.aliasSeed m)) d.2) s

/-- CHALLENGE. -/
def execChallenge (p : SpdmPath) (slot : Nat) (nonce : Bytes) (s : State) : Host.Outcome State Fault Refusal := powered (challenge p slot nonce) s

/-- KEY_UPDATE in a session: operations 1 and 2 rotate its keys, 3 verifies the new ones. -/
def keyUpdate (sid op : Nat) (s : State) : State :=
  match s.sec.sessions.find? (fun e => e.id = sid) with
  | none => s
  | some e =>
    if !spdmUp s e.path then s
    else if !e.ready then spdmError e.path erUnexpected s
    else if op = 0 || decide (op > 3) then spdmError e.path erInvalid s
    else
      let n := if op = 3 then 0 else 1
      spdmReply e.path 0x69 [sid, op] [] { s with sec := { s.sec with
        sessions := s.sec.sessions.map (fun k => if k.id = sid then { k with keyGen := k.keyGen + n, clk := s.clk } else k) } }

/-- KEY_UPDATE. -/
def execKeyUpdate (sid op : Nat) (s : State) : Host.Outcome State Fault Refusal := powered (keyUpdate sid op) s

/-- SPDM_SESSION_TIMEOUT: 30 s without traffic end a session. -/
def sessionTimeout (sid : Nat) (s : State) : State :=
  { s with sec := { s.sec with sessions := s.sec.sessions.filter (fun e => e.id ≠ sid) } }

/-- SPDM_SESSION_TIMEOUT. -/
def execSpdmSessionTimeout (sid : Nat) (s : State) : Host.Outcome State Fault Refusal := powered (sessionTimeout sid) s

/-! ## SPDM as requester: re-admission (R353, R354) -/

/-- A chain verifies to an unrevoked root of this device's fuses: the key of its leaf (R478). -/
def chainKey (s : State) (mldsa : Bool) (chain : Bytes) : Option Bytes :=
  [0, 1].findSome? (fun g => if bit s.sec.rootRev.toNat g then none else Config.chainVerify (Config.rootHash g mldsa) chain)

/-- Asks for the rest of the peer's RSA chain. -/
def askChain (dev off : Nat) (s : State) : State := spdmSend (.fjorum dev) 0x82 [0, off, 0xFFFF] [] s

/-- The value of a measurement block in a MEASUREMENTS message; none when it is another block. -/
def blockIn (m : Bytes) (i : Nat) : Option Bytes :=
  if leAt m 4 1 = 1 && leAt m 8 1 = i then some (slice m 15 (leAt m 13 2)) else none

/-- Step 4: the report's incarnation, owner, lifecycle and health are what re-admission wants. -/
def reportPolicy (s : State) (inc : Nat) (r : Bytes) : Bool :=
  leAt r 16 4 = inc && leAt r 64 1 = 2 && decide (leAt r 66 1 ≤ 1)
    && (match ownerHashes s.sec with | some o => slice r 520 64 = o.1 && slice r 584 64 = o.2 | none => false)

/-- The report of step 3: form, nonce and both signatures. -/
def reportSigned (s : State) (dev : Nat) (r : Bytes) : Bool :=
  let p := s.peer dev
  match chainKey s false p.chainR, chainKey s true p.chainM with
  | some k, some q =>
    r.length = 5907 && leAt r 0 4 = 0x52414659 && leAt r 4 2 = 1 && slice r 24 32 = p.nonce
      && Config.rsaVerify k (r.take 768) (slice r 768 512) && Config.mldsaVerify q (r.take 768) (slice r 1280 4627)
  | _, _ => false

/-- A MEASUREMENTS message in a run: the ML-DSA chain in step 2, the report in step 3. -/
def readmitMeas (dev step inc : Nat) (m : Bytes) (s : State) : State :=
  if step = 2 then
    match blockIn m 0xF1 with
    | none => endReadmit dev 1 s
    | some c =>
      let s := s.modPeer dev (fun p => { p with chainM := c })
      if (chainKey s false (s.peer dev).chainR).isNone || (chainKey s true c).isNone then endReadmit dev 1 s
      else
        let d := takeDraw s
        let n := keyBytes d.1
        spdmSend (.fjorum dev) 0xE0 [0xF0] n (d.2.modPeer dev (fun p => { p with readmit := some (3, inc), nonce := n }))
  else if step = 3 then
    match blockIn m 0xF0 with
    | none => endReadmit dev 1 s
    | some r =>
      if !reportSigned s dev r then endReadmit dev 1 s
      else if !reportPolicy s inc r then endReadmit dev 2 s
      else (endReadmit dev 0 s).modPeer dev (fun p => { p with st := .unknown })
  else s

/-- A message of a peer under re-admission moves the run on (R354). -/
def readmitStep (dev step inc : Nat) (m : Bytes) (s : State) : State :=
  let p : SpdmPath := .fjorum dev
  match leAt m 1 1 with
  | 0x04 => if step = 1 then spdmSend p 0xE1 [spdmCaps] [] s else s
  | 0x61 => if step = 1 then spdmSend p 0xE3 [64, 4] [] s else s
  | 0x63 => if step = 1 then askChain dev 0 (s.modPeer dev (fun r => { r with readmit := some (2, inc), chainR := [], chainM := [] })) else s
  | 0x02 =>
    if step ≠ 2 then s
    else
      let s := s.modPeer dev (fun r => { r with chainR := r.chainR ++ slice m 8 (leAt m 4 2) })
      if leAt m 6 2 ≠ 0 then askChain dev (s.peer dev).chainR.length s else spdmSend p 0xE0 [0xF1] (zeros 32) s
  | 0x60 => readmitMeas dev step inc m s
  | 0x7F => if step = 1 then s else endReadmit dev 1 s
  | _ => s

/-- SPDM: a DSP0274 message in a control message. A response of a peer under re-admission moves the run on; requests take effect by their own
rows. A peer held LOST may answer (R354). -/
def spdmMessage (path : SpdmPath) (msg : Bytes) (s : State) : State :=
  match path with
  | .mgmt => s
  | .fjorum dev =>
    match (s.peer dev).readmit with
    | none => s
    | some (step, inc) => if compDown s 3 || hubStalled s then s else readmitStep dev step inc msg (takeSpdm path s)

/-- SPDM. -/
def execSpdm (path : SpdmPath) (msg : Bytes) (s : State) : Host.Outcome State Fault Refusal := serving (spdmMessage path msg) s

end Sys2Proof.Machine
end

