-- ==== Sys2Proof/Machine/Dispatch.lean ====
section
/-! DEFINITION. Machine/Dispatch.lean: one arm per command, each one direct call of that command's meaning. -/
namespace Sys2Proof.Machine

/-- The effect of a command on everything but the queue of waiting commands. -/
def exec (i : Instr) (s : State) : Host.Outcome State Fault Refusal :=
  match i with
  | .nop q => Sys2Proof.Machine.execNop q s
  | .ctxOpen q => Sys2Proof.Machine.execCtxOpen q s
  | .ctxReady q => Sys2Proof.Machine.execCtxReady q s
  | .ctxClose q => Sys2Proof.Machine.execCtxClose q s
  | .regionSet q => Sys2Proof.Machine.execRegionSet q s
  | .regionZeroed x => Sys2Proof.Machine.execRegionZeroed x s
  | .regionRevoked x => Sys2Proof.Machine.execRegionRevoked x s
  | .queueCtlResume q => Sys2Proof.Machine.execQueueCtlResume q s
  | .queueCtlFlush q => Sys2Proof.Machine.execQueueCtlFlush q s
  | .queueCtlTimeout q => Sys2Proof.Machine.execQueueCtlTimeout q s
  | .queueCtlBudget q => Sys2Proof.Machine.execQueueCtlBudget q s
  | .queueCtlHalt q => Sys2Proof.Machine.execQueueCtlHalt q s
  | .queueCtlDisable q => Sys2Proof.Machine.execQueueCtlDisable q s
  | .queueCtlEnable q => Sys2Proof.Machine.execQueueCtlEnable q s
  | .queueCtlEventDev q => Sys2Proof.Machine.execQueueCtlEventDev q s
  | .semOpAdd q => Sys2Proof.Machine.execSemOpAdd q s
  | .semOpSet q => Sys2Proof.Machine.execSemOpSet q s
  | .epochPublishLoad q => Sys2Proof.Machine.execEpochPublishLoad q s
  | .epochPublishCurrent q => Sys2Proof.Machine.execEpochPublishCurrent q s
  | .epochRetire q => Sys2Proof.Machine.execEpochRetire q s
  | .stepOpen q => Sys2Proof.Machine.execStepOpen q s
  | .stepOpenRediscovery q => Sys2Proof.Machine.execStepOpenRediscovery q s
  | .stepOpenVerify q => Sys2Proof.Machine.execStepOpenVerify q s
  | .stepBarrier q => Sys2Proof.Machine.execStepBarrier q s
  | .stepUpdateEnd q => Sys2Proof.Machine.execStepUpdateEnd q s
  | .launch q => Sys2Proof.Machine.execLaunch q s
  | .engineJob q => Sys2Proof.Machine.execEngineJob q s
  | .collective q => Sys2Proof.Machine.execCollective q s
  | .seqOpen q => Sys2Proof.Machine.execSeqOpen q s
  | .seqClose q => Sys2Proof.Machine.execSeqClose q s
  | .completionWrite q => Sys2Proof.Machine.execCompletionWrite q s
  | .commandTimeout q k => Sys2Proof.Machine.execCommandTimeout q k s
  | .tileStart c => Sys2Proof.Machine.execTileStart c s
  | .tileEnd c => Sys2Proof.Machine.execTileEnd c s
  | .tileNop c => Sys2Proof.Machine.execTileNop c s
  | .matmul c ecc => Sys2Proof.Machine.execMatmul c ecc s
  | .boundScan c ecc => Sys2Proof.Machine.execBoundScan c ecc s
  | .accSpill c ecc => Sys2Proof.Machine.execAccSpill c ecc s
  | .accFill c ecc => Sys2Proof.Machine.execAccFill c ecc s
  | .accDrain c ecc => Sys2Proof.Machine.execAccDrain c ecc s
  | .vec c ecc => Sys2Proof.Machine.execVec c ecc s
  | .dmaCopy c ecc => Sys2Proof.Machine.execDmaCopy c ecc s
  | .layoutCopy c ecc => Sys2Proof.Machine.execLayoutCopy c ecc s
  | .window c ecc => Sys2Proof.Machine.execWindow c ecc s
  | .gather c ecc => Sys2Proof.Machine.execGather c ecc s
  | .scatter c ecc => Sys2Proof.Machine.execScatter c ecc s
  | .scatterAdd c ecc => Sys2Proof.Machine.execScatterAdd c ecc s
  | .scatterAddApply h c t => Sys2Proof.Machine.execScatterAddApply h c t s
  | .coreCall c => Sys2Proof.Machine.execCoreCall c s
  | .celCoreIssue c desc v => Sys2Proof.Machine.execCelCoreIssue c desc v s
  | .celCoreExit c v => Sys2Proof.Machine.execCelCoreExit c v s
  | .coreFault c illegal => Sys2Proof.Machine.execCoreFault c illegal s
  | .tileComplete c t => Sys2Proof.Machine.execTileComplete c t s
  | .tileRecordWrite c => Sys2Proof.Machine.execTileRecordWrite c s
  | .tileLate c t => Sys2Proof.Machine.execTileLate c t s
  | .tileAbort c t => Sys2Proof.Machine.execTileAbort c t s
  | .sgdMom h => Sys2Proof.Machine.execSgdMom h s
  | .adamw h => Sys2Proof.Machine.execAdamw h s
  | .gradFinal h => Sys2Proof.Machine.execGradFinal h s
  | .digest h => Sys2Proof.Machine.execDigest h s
  | .crc h => Sys2Proof.Machine.execCrc h s
  | .parity h => Sys2Proof.Machine.execParity h s
  | .engineGather h => Sys2Proof.Machine.execEngineGather h s
  | .zero h => Sys2Proof.Machine.execZero h s
  | .migrate h => Sys2Proof.Machine.execMigrate h s
  | .loadShard h => Sys2Proof.Machine.execLoadShard h s
  | .micro h => Sys2Proof.Machine.execMicro h s
  | .shardTimeout h => Sys2Proof.Machine.execShardTimeout h s
  | .adaptationPass h x => Sys2Proof.Machine.execAdaptationPass h x s
  | .holderAccess r write addr len data tag => Sys2Proof.Machine.execHolderAccess r write addr len data tag s
  | .scrubPatrol h tag => Sys2Proof.Machine.execScrubPatrol h tag s
  | .shardRecheck h n => Sys2Proof.Machine.execShardRecheck h n s
  | .partialsHanded x => Sys2Proof.Machine.execPartialsHanded x s
  | .collectiveData p => Sys2Proof.Machine.execCollectiveData p s
  | .vote p => Sys2Proof.Machine.execVote p s
  | .commitTimeout x => Sys2Proof.Machine.execCommitTimeout x s
  | .ledgerEnter x => Sys2Proof.Machine.execLedgerEnter x s
  | .ledgerRecordWrite x => Sys2Proof.Machine.execLedgerRecordWrite x s
  | .ledgerRetry x => Sys2Proof.Machine.execLedgerRetry x s
  | .preemptWindowExpiry x => Sys2Proof.Machine.execPreemptWindowExpiry x s
  | .doorbell p session => Sys2Proof.Machine.execDoorbell p session s
  | .semaphoreDoorbell p session => Sys2Proof.Machine.execSemaphoreDoorbell p session s
  | .mboxWrite src ch msg session => Sys2Proof.Machine.execMboxWrite src ch msg session s
  | .mboxRead src ch => Sys2Proof.Machine.execMboxRead src ch s
  | .relay p => Sys2Proof.Machine.execRelay p s
  | .spdm path msg => Sys2Proof.Machine.execSpdm path msg s
  | .ringPut ch => Sys2Proof.Machine.execRingPut ch s
  | .readCpl ch => Sys2Proof.Machine.execReadCpl ch s
  | .convert dev msg => Sys2Proof.Machine.execConvert dev msg s
  | .hubMboxSend r ch => Sys2Proof.Machine.execHubMboxSend r ch s
  | .hubMboxTake r ch => Sys2Proof.Machine.execHubMboxTake r ch s
  | .hubQDb r q v => Sys2Proof.Machine.execHubQDb r q v s
  | .hubQCcons r q v => Sys2Proof.Machine.execHubQCcons r q v s
  | .lnkTimeNsRead r l => Sys2Proof.Machine.execLnkTimeNsRead r l s
  | .registerWrite r addr size v => Sys2Proof.Machine.execRegisterWrite r addr size v s
  | .bulkWrite p => Sys2Proof.Machine.execBulkWrite p s
  | .readReq p => Sys2Proof.Machine.execReadReq p s
  | .ack p => Sys2Proof.Machine.execAck p s
  | .nack p => Sys2Proof.Machine.execNack p s
  | .fjOpen p => Sys2Proof.Machine.execFjOpen p s
  | .openAck p => Sys2Proof.Machine.execOpenAck p s
  | .fjClose p => Sys2Proof.Machine.execFjClose p s
  | .closeAck p => Sys2Proof.Machine.execCloseAck p s
  | .heartbeat p => Sys2Proof.Machine.execHeartbeat p s
  | .readmissionTimeout dev => Sys2Proof.Machine.execReadmissionTimeout dev s
  | .openingWaitTimeout f => Sys2Proof.Machine.execOpeningWaitTimeout f s
  | .heartbeatTimer dev => Sys2Proof.Machine.execHeartbeatTimer dev s
  | .peerSuspect dev => Sys2Proof.Machine.execPeerSuspect dev s
  | .peerLost dev => Sys2Proof.Machine.execPeerLost dev s
  | .retransmissionTimeout f psn => Sys2Proof.Machine.execRetransmissionTimeout f psn s
  | .ackTimer f => Sys2Proof.Machine.execAckTimer f s
  | .rateIncrease f => Sys2Proof.Machine.execRateIncrease f s
  | .openRetry f => Sys2Proof.Machine.execOpenRetry f s
  | .flowClose f => Sys2Proof.Machine.execFlowClose f s
  | .nackResend f msgSeq => Sys2Proof.Machine.execNackResend f msgSeq s
  | .frameReceive l fr => Sys2Proof.Machine.execFrameReceive l fr s
  | .pfcXon l pri => Sys2Proof.Machine.execPfcXon l pri s
  | .pfcRefresh l pri => Sys2Proof.Machine.execPfcRefresh l pri s
  | .pfcFrame l mask quanta => Sys2Proof.Machine.execPfcFrame l mask quanta s
  | .pauseExpiry l pri => Sys2Proof.Machine.execPauseExpiry l pri s
  | .pfcWdog l pri => Sys2Proof.Machine.execPfcWdog l pri s
  | .arpRequest l ip mac => Sys2Proof.Machine.execArpRequest l ip mac s
  | .neighborSolicitation l ip mac => Sys2Proof.Machine.execNeighborSolicitation l ip mac s
  | .echoRequest l v6 ip data => Sys2Proof.Machine.execEchoRequest l v6 ip data s
  | .mkaFrame l m => Sys2Proof.Machine.execMkaFrame l m s
  | .sakDistribution l => Sys2Proof.Machine.execSakDistribution l s
  | .saAgeOut l => Sys2Proof.Machine.execSaAgeOut l s
  | .mkaHello l => Sys2Proof.Machine.execMkaHello l s
  | .mkaLifeExpiry l => Sys2Proof.Machine.execMkaLifeExpiry l s
  | .announce l m => Sys2Proof.Machine.execAnnounce l m s
  | .sync l m => Sys2Proof.Machine.execSync l m s
  | .followUp l m => Sys2Proof.Machine.execFollowUp l m s
  | .delayResp l m => Sys2Proof.Machine.execDelayResp l m s
  | .announceReceiptTimeout l => Sys2Proof.Machine.execAnnounceReceiptTimeout l s
  | .holdoverUncertain d => Sys2Proof.Machine.execHoldoverUncertain d s
  | .ptpFault d => Sys2Proof.Machine.execPtpFault d s
  | .ppsEdge ns => Sys2Proof.Machine.execPpsEdge ns s
  | .ppsLoss => Sys2Proof.Machine.execPpsLoss s
  | .linkUp l => Sys2Proof.Machine.execLinkUp l s
  | .subportDown l => Sys2Proof.Machine.execSubportDown l s
  | .lossOfSignal lane fec => Sys2Proof.Machine.execLossOfSignal lane fec s
  | .fabricLinkDown a b => Sys2Proof.Machine.execFabricLinkDown a b s
  | .powerOn centivolts => Sys2Proof.Machine.execPowerOn centivolts s
  | .undervoltageTrip => Sys2Proof.Machine.execUndervoltageTrip s
  | .overvoltageTrip => Sys2Proof.Machine.execOvervoltageTrip s
  | .pwrEnLow => Sys2Proof.Machine.execPwrEnLow s
  | .vinSenseOpen => Sys2Proof.Machine.execVinSenseOpen s
  | .conversionFault => Sys2Proof.Machine.execConversionFault s
  | .faultRelease auxRemoved => Sys2Proof.Machine.execFaultRelease auxRemoved s
  | .resetN => Sys2Proof.Machine.execResetN s
  | .inputCap centivolts centiamps watts => Sys2Proof.Machine.execInputCap centivolts centiamps watts s
  | .thermalCap d n temp => Sys2Proof.Machine.execThermalCap d n temp s
  | .thermalCapRelease d n temp => Sys2Proof.Machine.execThermalCapRelease d n temp s
  | .thermalShutdown d n temp => Sys2Proof.Machine.execThermalShutdown d n temp s
  | .coolantCap inlet outlet => Sys2Proof.Machine.execCoolantCap inlet outlet s
  | .droopEvent d => Sys2Proof.Machine.execDroopEvent d s
  | .sensorRecalibration d n temp drift => Sys2Proof.Machine.execSensorRecalibration d n temp drift s
  | .hubBeat core => Sys2Proof.Machine.execHubBeat core s
  | .sliceOverrun comp => Sys2Proof.Machine.execSliceOverrun comp s
  | .compartmentFault comp cause => Sys2Proof.Machine.execCompartmentFault comp cause s
  | .gateCall src dst msg => Sys2Proof.Machine.execGateCall src dst msg s
  | .profileSample => Sys2Proof.Machine.execProfileSample s
  | .healthDecay => Sys2Proof.Machine.execHealthDecay s
  | .healthCmdTarget r v => Sys2Proof.Machine.execHealthCmdTarget r v s
  | .selfTest r v => Sys2Proof.Machine.execSelfTest r v s
  | .selfTestDone pass => Sys2Proof.Machine.execSelfTestDone pass s
  | .hangCycle queues => Sys2Proof.Machine.execHangCycle queues s
  | .crossDeviceHang peer jobTag => Sys2Proof.Machine.execCrossDeviceHang peer jobTag s
  | .cellReset c trigger => Sys2Proof.Machine.execCellReset c trigger s
  | .computeDieReset d => Sys2Proof.Machine.execComputeDieReset d s
  | .holderReset h => Sys2Proof.Machine.execHolderReset h s
  | .linkDieReset d => Sys2Proof.Machine.execLinkDieReset d s
  | .hubCoreReset core => Sys2Proof.Machine.execHubCoreReset core s
  | .rotFault => Sys2Proof.Machine.execRotFault s
  | .deviceWarmReset r => Sys2Proof.Machine.execDeviceWarmReset r s
  | .resetEscalation => Sys2Proof.Machine.execResetEscalation s
  | .redrive c => Sys2Proof.Machine.execRedrive c s
  | .crashSummary => Sys2Proof.Machine.execCrashSummary s
  | .crashSampleRequest r cells => Sys2Proof.Machine.execCrashSampleRequest r cells s
  | .soldierCheck h result => Sys2Proof.Machine.execSoldierCheck h result s
  | .soldierReferee h result => Sys2Proof.Machine.execSoldierReferee h result s
  | .thermalReplay session x d setpoints tol occ memClass holdS refAddr => Sys2Proof.Machine.execThermalReplay session x d setpoints tol occ memClass holdS refAddr s
  | .setpointHold => Sys2Proof.Machine.execSetpointHold s
  | .setpointSkip => Sys2Proof.Machine.execSetpointSkip s
  | .bootFuse cal bad => Sys2Proof.Machine.execBootFuse cal bad s
  | .bootImage => Sys2Proof.Machine.execBootImage s
  | .bootCarapace cal => Sys2Proof.Machine.execBootCarapace cal s
  | .bootTrainLinks bad => Sys2Proof.Machine.execBootTrainLinks bad s
  | .trainWait => Sys2Proof.Machine.execTrainWait s
  | .bootRelease => Sys2Proof.Machine.execBootRelease s
  | .stageTimeout => Sys2Proof.Machine.execStageTimeout s
  | .bootRetry => Sys2Proof.Machine.execBootRetry s
  | .bootCtlRestart r v => Sys2Proof.Machine.execBootCtlRestart r v s
  | .bootCtlEnterPupa r v => Sys2Proof.Machine.execBootCtlEnterPupa r v s
  | .dieSelfTest r v mask => Sys2Proof.Machine.execDieSelfTest r v mask s
  | .logReadout path => Sys2Proof.Machine.execLogReadout path s
  | .fuseReadout path => Sys2Proof.Machine.execFuseReadout path s
  | .imageFetch path carapace len data => Sys2Proof.Machine.execImageFetch path carapace len data s
  | .fetchVerify => Sys2Proof.Machine.execFetchVerify s
  | .amendment path bytes => Sys2Proof.Machine.execAmendment path bytes s
  | .moltHold x => Sys2Proof.Machine.execMoltHold x s
  | .moltTransfer x => Sys2Proof.Machine.execMoltTransfer x s
  | .recoverRestore x => Sys2Proof.Machine.execRecoverRestore x s
  | .moltAgreement x => Sys2Proof.Machine.execMoltAgreement x s
  | .moltTimeout x => Sys2Proof.Machine.execMoltTimeout x s
  | .lendSwitchWait x => Sys2Proof.Machine.execLendSwitchWait x s
  | .lendEnd x w => Sys2Proof.Machine.execLendEnd x w s
  | .drainLimit x w => Sys2Proof.Machine.execDrainLimit x w s
  | .contextPreempt session x => Sys2Proof.Machine.execContextPreempt session x s
  | .preemptWindowed session x => Sys2Proof.Machine.execPreemptWindowed session x s
  | .preemptRelease session x => Sys2Proof.Machine.execPreemptRelease session x s
  | .saveComplete c => Sys2Proof.Machine.execSaveComplete c s
  | .borrowHoldExpiry c => Sys2Proof.Machine.execBorrowHoldExpiry c s
  | .restoreComplete c => Sys2Proof.Machine.execRestoreComplete c s
  | .ownershipChange session rsaHash mldsaHash sigOld sigNew => Sys2Proof.Machine.execOwnershipChange session rsaHash mldsaHash sigOld sigNew s
  | .cakInstall session n key => Sys2Proof.Machine.execCakInstall session n key s
  | .enterRma session sigOwner sigOnaov => Sys2Proof.Machine.execEnterRma session sigOwner sigOnaov s
  | .debugGrant session kind addr len => Sys2Proof.Machine.execDebugGrant session kind addr len s
  | .getVersion p => Sys2Proof.Machine.execGetVersion p s
  | .getCapabilities p flags => Sys2Proof.Machine.execGetCapabilities p flags s
  | .negotiateAlgorithms p offer => Sys2Proof.Machine.execNegotiateAlgorithms p offer s
  | .getCertificate p slot off len => Sys2Proof.Machine.execGetCertificate p slot off len s
  | .getMeasurements p session index nonce => Sys2Proof.Machine.execGetMeasurements p session index nonce s
  | .keyExchange p slot exch => Sys2Proof.Machine.execKeyExchange p slot exch s
  | .spdmSessionTimeout sid => Sys2Proof.Machine.execSpdmSessionTimeout sid s
  | .lendingWindowStart x w => Sys2Proof.Machine.execLendingWindowStart x w s
  | .readmissionRequest session dev => Sys2Proof.Machine.execReadmissionRequest session dev s
  | .registerReadClear r addr size => Sys2Proof.Machine.execRegisterReadClear r addr size s
  | .holderResetEnd h => Sys2Proof.Machine.execHolderResetEnd h s
  | .hubCoreResetEnd core => Sys2Proof.Machine.execHubCoreResetEnd core s
  | .finish sid rsaHash mldsaHash proof => Sys2Proof.Machine.execFinish sid rsaHash mldsaHash proof s
  | .challenge p slot nonce => Sys2Proof.Machine.execChallenge p slot nonce s
  | .keyUpdate sid op => Sys2Proof.Machine.execKeyUpdate sid op s

end Sys2Proof.Machine
end

