-- ==== Sys2Proof/Safety.lean ====
section
/-! DEFINITION. Safety.lean: what counts as a legal state of the module, and when a command is due, in the terms the claims use. -/
namespace Sys2Proof.Machine

/-- A module whose dies have no power, or are held in reset, holds nothing but its fuses, its boot flash and the AUX latches
(R429 power domain, R526). -/
def State.Inv (s : State) : Prop := s.pwr.st.isDark = true → s.dark = s

/-- Both memories are in their canonical form. -/
def State.memsWf (s : State) : Bool := memWf memFill s.mem && memWf flashFill s.flash

/-- The module is in service: every boot stage is done, and the rails are up (R492, R526). -/
def State.Serving (s : State) : Prop := s.pwr.st = .on

/-- The commands that the pins and the input supply give: they act whatever the power state is (R524 to R527). -/
def onPins : Instr → Bool
  | .powerOn _ => true
  | .undervoltageTrip => true
  | .overvoltageTrip => true
  | .pwrEnLow => true
  | .vinSenseOpen => true
  | .conversionFault => true
  | .faultRelease _ => true
  | .resetN => true
  | _ => false

/-- Command N of queue q has the bytes b and is carried out now (R360 to R366): the module is in service, no command of the queue waits
for its effect, the slot can be read, the queue may start a command, its semaphore unit is there and its fence satisfied, the command is well
formed, its context is not FAULTED (CTX_CLOSE and QUEUE_CTL apart, R467), and the step line binds it to no other step. -/
def Starts (s : State) (q : Nat) (b : Bytes) : Prop :=
  s.Serving ∧ (∀ c ∈ (s.queue q).flight, c.waiting = false) ∧ nextCmd s q = .ok b ∧ startable s q b = true ∧ cmdForm s q b = true ∧
  ((s.ctx (s.queue q).ctx).st ≠ .faulted ∨ cOp b = 3 ∨ cOp b = 5) ∧ boundOf s (s.queue q).ctx b = .go

/-- The index of the command that queue q starts next. -/
def State.nextIdx (s : State) (q : Nat) : Nat := (s.queue q).n.toNat

/-- No earlier command of queue q waits for a condition of its context: CTX_READY, CTX_CLOSE or SEQ_CLOSE (R357, R364, R383). -/
def NoWaits (s : State) (q : Nat) : Prop :=
  (s.ctx (s.queue q).ctx).preReq ≠ 1 ∧ ∀ c ∈ (s.queue q).flight, c.status.isSome = true ∨ (cOp c.bytes ≠ 2 ∧ cOp c.bytes ≠ 3 ∧ cOp c.bytes ≠ 0x24)

/-- A row of tiles: its op, its command, its plan, its effect, what comes first (a SCATTER_ADD's announcement, R223), and when, after that, it may take
the effect (R223, R440). -/
structure TileOp where
  op    : Nat
  cmd   : Nat → Instr
  plan  : State → Nat → Nat → Tile → Option Plan
  eff   : Nat → Nat → Tile → State → Done
  prep  : Nat → Tile → State → State := fun _ _ s => s
  ready : State → Nat → Tile → Bool := fun _ _ _ => true

/-- The rows of tiles. -/
def tileOps : List TileOp := [
  { op := 0x01, cmd := .tileNop, plan := planOf, eff := fun _ _ _ t => { s := t } },
  { op := 0x10, cmd := fun c => .matmul c [], plan := matPlan, eff := matEff, ready := fun s c t => !probationStall s c (cellCtx s c) t },
  { op := 0x11, cmd := fun c => .boundScan c [], plan := scanPlan, eff := scanEff },
  { op := 0x12, cmd := fun c => .accSpill c [], plan := spillPlan, eff := spillEff },
  { op := 0x13, cmd := fun c => .accFill c [], plan := fillPlan, eff := fillEff },
  { op := 0x14, cmd := fun c => .accDrain c [], plan := accDrainPlan, eff := accDrainEff },
  { op := 0x20, cmd := fun c => .vec c [], plan := vecPlan, eff := vecEff },
  { op := 0x30, cmd := fun c => .dmaCopy c [], plan := copyPlan, eff := copyEff },
  { op := 0x31, cmd := fun c => .layoutCopy c [], plan := layoutPlan, eff := layoutEff },
  { op := 0x32, cmd := fun c => .window c [], plan := winPlan, eff := winEff },
  { op := 0x33, cmd := fun c => .gather c [], plan := gatherPlan, eff := gatherEff },
  { op := 0x34, cmd := fun c => .scatter c [], plan := scatterPlan, eff := scatterEff },
  { op := 0x35, cmd := fun c => .scatterAdd c [], plan := saddPlan, eff := saddEff, prep := saddAnnounce,
    ready := fun s c t => (saddSends s c t).all (fun p => reserved (saddAnnounce c t s) p.1 c t.id) },
  { op := 0x40, cmd := .coreCall, plan := corePlan, eff := coreEff }]

/-- The engine of holder h can start a job: it is not in reset, not fenced and runs none. -/
def EngineFree (s : State) (h : Nat) : Prop :=
  (s.holder h).resetting = false ∧ (s.holder h).running = none ∧ fenced s h = false

/-- A row of engine jobs that run to their end at once: its programs, its command, its effect, and when it must wait (R440). -/
structure EngineOp where
  mine  : Nat → Bool
  cmd   : Nat → Instr
  run   : Nat → EngJob → List Stream → QCtl → Bytes → State → JobEnd
  stall : State → Nat → EngJob → List Stream → Bool := fun _ _ _ _ => false

/-- The rows of engine jobs. MICRO takes the programs that R212 does not define too, which end BAD_DESCRIPTOR. -/
def engineOps : List EngineOp := [
  { mine := (· = 0x01), cmd := .sgdMom, run := elemRun, stall := fun s h j l => updateStall s h j.ctx j.desc l },
  { mine := (· = 0x02), cmd := .adamw, run := elemRun, stall := fun s h j l => updateStall s h j.ctx j.desc l },
  { mine := (· = 0x10), cmd := .gradFinal, run := elemRun, stall := fun s h j l => updateStall s h j.ctx j.desc l },
  { mine := fun p => p = 0x80 || (rolesOf p).isNone, cmd := .micro, run := elemRun, stall := fun s h j l => updateStall s h j.ctx j.desc l },
  { mine := (· = 0x20), cmd := .digest, run := fun _ j l _ _ t => runDigest j l t },
  { mine := (· = 0x21), cmd := .crc, run := fun _ j l _ _ t => runCrc j l t },
  { mine := (· = 0x30), cmd := .parity, run := fun _ j l _ b t => runParity j l b t },
  { mine := (· = 0x40), cmd := .engineGather, run := fun h j l _ b t => runGather h j l (wordsOf b) t },
  { mine := (· = 0x50), cmd := .zero, run := fun _ j l _ _ t => runZero j l t }]

/-- A packet that carries an incarnation comes from a peer that is not held LOST, in the incarnation recorded for it or the first (R294). -/
def Current (s : State) (p : FjPkt) (inc : Nat) : Prop :=
  (s.peer p.hdr.src).st ≠ .lost ∧ (s.peer p.hdr.src).inc ≤ inc ∧ ((s.peer p.hdr.src).st = .unknown ∨ inc = (s.peer p.hdr.src).inc)

/-- The packet is taken and its sender is UP in that incarnation. -/
def met (s : State) (p : FjPkt) (inc : Nat) : State :=
  (takeRx s p).modPeer p.hdr.src (fun q => { q with st := .up, inc := inc, seen := s.clk })

/-- No load, restoration, parity staging or molt of context x waits for bytes at a. -/
def NothingWaits (s : State) (x a : Nat) : Prop :=
  loadPlace s x a = none ∧ s.holders.find? (fun e => e.2.restores.any (fun r => r.chunk.ctx = x && r.chunk.addr = a)) = none ∧
  stagePlace s x a = none ∧ (s.ctx x).molt.recvs = []

/-- A packet whose fields are in their ranges (R288 to R290). -/
def PktOk (p : FjPkt) : Prop :=
  p.hdr.version = 1 ∧ p.hdr.cls < 4 ∧ 1 ≤ p.hdr.ty ∧ p.hdr.ty ≤ 8 ∧ p.hdr.src < 2 ^ 16 ∧ p.hdr.dst < 2 ^ 16 ∧ p.hdr.jobTag < 2 ^ 32 ∧
  p.hdr.flow < 2 ^ 16 ∧ p.hdr.ctx < 64 ∧ p.hdr.psn < 2 ^ 32 ∧ p.hdr.ackPsn < 2 ^ 32 ∧ p.hdr.msgSeq < 2 ^ 32 ∧ p.hdr.msgOff < 2 ^ 32 ∧
  p.hdr.epoch < 2 ^ 32 ∧ p.hdr.step < 2 ^ 64 ∧ p.hdr.phase < 256 ∧ p.ext.length % 8 = 0 ∧ p.ext.length ≤ 32 ∧ p.payload.length ≤ 8192

/-- A priority whose watchdog has run out: PAUSE is not honoured from now on, the frames it held are dropped and counted (R278). -/
def countHeld (l i : Nat) (s : State) : State :=
  let u := (modPri l i (fun q => { q with ignoreAt := some s.clk, held := [], wdropped := q.wdropped + q.held.length }) s).modPort l
    (fun k => { k with wdog := bump k.wdog 1 })
  if (priOf s l i).held.isEmpty then u
  else u.modLink (dieOfLane l) (fun k => { k with dropWhy := 7, dropN := bump k.dropN (priOf s l i).held.length })

end Sys2Proof.Machine
end

