-- ==== Sys2Proof/Certificates/Slice0/Obligations.lean ====
section
/-! DEFINITION. Certificates/Slice0/Obligations.lean: the statements about the module. `= .next t` with t an update of s says both what
a command changes and that it changes nothing else. `beginCmd q b s` is the state in which command N of queue q has started, and
`finishCmd q k st d1 d2` gives command k its completion status; what these two do is said by BeginAndFinish.
`deliver 65536 t` is t once the work that waits for messages has taken the ends of those that ended; where none has ended it is t. -/
open Sys2Proof Sys2Proof.Machine

/-! ## The block -/

/-- The command at the front of the queue runs on the state that holds the queue's rest. -/
def Obligations.StepRunsFront : Prop :=
  ∀ (i : Instr) (rest : List Instr) (s : State), s.pending = i :: rest → step s = exec i { s with pending := rest }

/-- With nothing waiting one arithmetic clock passes and nothing else changes (DESIGN CHOICE, log entry 12). -/
def Obligations.IdleStepCountsClock : Prop :=
  ∀ s : State, s.pending = [] → step s = .next { s with clk := s.clk + 1 }

/-- Reset is a legal state: the module has no power, holds nothing volatile, and lists no byte of memory or flash. -/
def Obligations.ResetIsDark : Prop :=
  State.reset.Inv ∧ State.reset.memsWf = true ∧ State.reset.pwr.st = .off ∧ State.reset.pending = []

/-- A module whose dies have no power, or are held in reset, never holds anything volatile, whatever is commanded. -/
def Obligations.DarkHoldsNothing : Prop :=
  ∀ s s' : State, s.Inv → step s = .next s' → s'.Inv

/-- Where the dies have no power or are held in reset, no command but the pins and the input supply does anything: nothing answers and
nothing changes (R526). -/
def Obligations.NoPowerNoEffect : Prop :=
  ∀ (i : Instr) (s : State), s.Inv → s.pwr.st.isDark = true → onPins i = false → exec i s = .next s

/-- Every command answers a next state in every state of the module: none faults and none is refused. -/
def Obligations.EveryCommandAnswers : Prop :=
  ∀ (i : Instr) (s : State), ∃ t, exec i s = .next t ∧ t.Inv

/-! ## Queue commands -/

/-- Starting command N and completing it: N advances by one, the command enters the flight, its semaphore wait takes one unit of its context,
the turn of its class goes on behind its queue;
a completion gives the command its status and details. No other queue, register, cell, flow or byte of memory changes (R363, R366, R367, R375). -/
def Obligations.BeginAndFinish : Prop :=
  (∀ (s : State) (q : Nat) (b : Bytes), let t := beginCmd q b s
    t.queue q = { s.queue q with n := (s.queue q).n + 1,
                                 flight := (s.queue q).flight ++ [{ idx := s.nextIdx q, bytes := b, since := s.clk }] } ∧
    (∀ r, r ≠ q → t.queue r = s.queue r) ∧
    (∀ y, y ≠ (s.queue q).ctx → t.ctx y = s.ctx y) ∧
    (cWait b < 0xFFF → t.ctx (s.queue q).ctx = { s.ctx (s.queue q).ctx with
      sems := (s.ctx (s.queue q).ctx).sems.set (cWait b) ((s.ctx (s.queue q).ctx).sems.get 0 (cWait b) - 1) }) ∧
    (0xFFF ≤ cWait b → t.ctx (s.queue q).ctx = s.ctx (s.queue q).ctx) ∧
    (queueLc s q = true → t.hub.nextLc = (q + 1) % 16384 ∧ t.hub.nextBe = s.hub.nextBe) ∧
    (queueLc s q = false → t.hub.nextBe = (q + 1) % 16384 ∧ t.hub.nextLc = s.hub.nextLc) ∧
    { t with queues := s.queues, ctxs := s.ctxs, hub := s.hub } = s) ∧
  (∀ (s : State) (q k st d1 d2 : Nat) (c : Cmd), findCmd s q k = some c → c.status = none → c.hung = false → c.counted = false →
    st ≠ stInternal →
    finishCmd q k st d1 d2 s = s.modQueue q (fun w => { w with flight := w.flight.map (fun c =>
      if c.idx = k then { c with status := some st, detail := d1, detail2 := d2, waiting := false, counted := false } else c) })) ∧
  (∀ (s : State) (q k st d1 d2 : Nat) (c : Cmd), findCmd s q k = some c → c.status.isSome = true → finishCmd q k st d1 d2 s = s)

/-- NOP, SEM_OP and the settings of QUEUE_CTL complete OK with their one effect; a NOP that lacks nothing but its unit of a semaphore stands in
the semaphore's line. While a queue with a startable command comes before its own, of class LC before BE and else by the round of its class, a
NOP does not start (R359, R364, R366, R370, R375; log entry 23). -/
def Obligations.QueueSettings : Prop :=
  (∀ (s : State) (q : Nat) (b : Bytes), Starts s q b → cOp b = 0 →
    exec (.nop q) s = .next (finishCmd q (s.nextIdx q) stOk 0 0 (beginCmd q b s))) ∧
  (∀ (s : State) (q : Nat) (b : Bytes), s.Serving → (∀ c ∈ (s.queue q).flight, c.waiting = false) → nextCmd s q = .ok b → cOp b = 0 →
    wantsUnit s q b = true → cWait b < 0xFFF →
    ((s.ctx (s.queue q).ctx).semQ.takeWhile (fun v => v ≠ cmdWait s q b)).countP (fun v => v.1 = cWait b && waitStands s v) ≥
      (s.ctx (s.queue q).ctx).sems.get 0 (cWait b) → (cmdWait s q b) ∉ (s.ctx (s.queue q).ctx).semQ →
    exec (.nop q) s = .next (s.modCtx (s.queue q).ctx (fun c => { c with semQ := c.semQ.filter (waitStands s) ++ [cmdWait s q b] }))) ∧
  (∀ (s : State) (q : Nat) (b : Bytes), Starts s q b → cOp b = 6 → leAt b 26 1 = 0 →
    exec (.semOpAdd q) s = .next (finishCmd q (s.nextIdx q) stOk 0 0
      (semAdd (s.queue q).ctx (leAt b 24 2) (leAt b 28 4) (beginCmd q b s)))) ∧
  (∀ (s : State) (q : Nat) (b : Bytes), Starts s q b → cOp b = 6 → leAt b 26 1 = 1 →
    exec (.semOpSet q) s = .next (finishCmd q (s.nextIdx q) stOk 0 0
      ((beginCmd q b s).modCtx (s.queue q).ctx (fun c => { c with sems := c.sems.set (leAt b 24 2) (leAt b 28 4) })))) ∧
  (∀ (s : State) (q r : Nat) (b : Bytes), Starts s q b → cOp b = 5 → r = leAt b 24 2 → (s.queue r).defined = true →
    (s.queue r).ctx = (s.queue q).ctx →
    (leAt b 26 1 = 2 → exec (.queueCtlTimeout q) s = .next (finishCmd q (s.nextIdx q) stOk 0 0
      ((beginCmd q b s).modQueue r (fun w => { w with timeout := leAt b 28 4 })))) ∧
    (leAt b 26 1 = 3 → exec (.queueCtlBudget q) s = .next (finishCmd q (s.nextIdx q) stOk 0 0
      ((beginCmd q b s).modQueue r (fun w => { w with budget := leAt b 28 4 })))) ∧
    (leAt b 26 1 = 4 → exec (.queueCtlHalt q) s = .next (finishCmd q (s.nextIdx q) stOk 0 0
      ((beginCmd q b s).modQueue r (fun w => { w with halt := decide (leAt b 28 4 = 1) })))) ∧
    (leAt b 26 1 = 5 → exec (.queueCtlDisable q) s = .next (finishCmd q (s.nextIdx q) stOk 0 0
      ((beginCmd q b s).modQueue r (fun w => { w with enabled := false })))) ∧
    (leAt b 26 1 = 6 → exec (.queueCtlEnable q) s = .next (finishCmd q (s.nextIdx q) stOk 0 0
      ((beginCmd q b s).modQueue r (fun w => { w with enabled := true })))) ∧
    (leAt b 26 1 = 7 → exec (.queueCtlEventDev q) s = .next (finishCmd q (s.nextIdx q) stOk 0 0
      ((beginCmd q b s).modQueue r (fun w => { w with eventDev := leAt b 28 4 }))))) ∧
  (∀ (s : State) (q r : Nat) (b : Bytes), s.Serving → (∀ c ∈ (s.queue q).flight, c.waiting = false) → nextCmd s q = .ok b → cOp b = 0 →
    canStart s q b = true → r ∈ s.queues.map (·.1) → hasStartable s r = true →
    ((queueLc s r = true → queueLc s q = false → exec (.nop q) s = .next s) ∧
     (queueLc s r = queueLc s q → roundPlace s r < roundPlace s q → exec (.nop q) s = .next s)))

/-- RESUME and FLUSH act on a halted queue: RESUME makes it ACTIVE; FLUSH completes every command from N to P − 1 with STATE_CONFLICT and
flushed set, and makes it ACTIVE; on a queue that is not halted both complete STATE_CONFLICT and change no queue's state (R362, R364). -/
def Obligations.QueueResumeAndFlush : Prop :=
  (∀ (s : State) (q r : Nat) (b : Bytes), Starts s q b → cOp b = 5 → leAt b 26 1 = 0 → r = leAt b 24 2 → (s.queue r).defined = true →
    (s.queue r).ctx = (s.queue q).ctx →
    ((s.queue r).halted = true → exec (.queueCtlResume q) s = .next (finishCmd q (s.nextIdx q) stOk 0 0
      ((beginCmd q b s).modQueue r (fun w => { w with halted := false })))) ∧
    ((s.queue r).halted = false → exec (.queueCtlResume q) s = .next (finishCmd q (s.nextIdx q) stConflict 0 0 (beginCmd q b s)))) ∧
  (∀ (s : State) (q r : Nat) (b : Bytes), Starts s q b → cOp b = 5 → leAt b 26 1 = 1 → r = leAt b 24 2 → (s.queue r).defined = true →
    (s.queue r).ctx = (s.queue q).ctx →
    ((s.queue r).halted = true → r ≠ q → ∃ cs : List Cmd,
      exec (.queueCtlFlush q) s = .next (finishCmd q (s.nextIdx q) stOk 0 0 ((beginCmd q b s).modQueue r (fun w =>
        { w with halted := false, n := w.p, flight := w.flight ++ cs }))) ∧
      cs.length = ((s.queue r).p - (s.queue r).n).toNat ∧
      (∀ i (hi : i < cs.length), cs[i].idx = ((s.queue r).n.toNat + i) % 2 ^ 32 ∧ cs[i].status = some stConflict ∧ cs[i].flushed = true ∧
        cs[i].started = false)) ∧
    ((s.queue r).halted = false → exec (.queueCtlFlush q) s = .next (finishCmd q (s.nextIdx q) stConflict 0 0 (beginCmd q b s))))

/-- A context opens, becomes READY and closes (R245, R357, R358). -/
def Obligations.ContextLife : Prop :=
  (∀ (s : State) (q : Nat) (b d : Bytes), Starts s q b → cOp b = 1 → qRead s q (leAt b 32 8) 128 = .ok d →
    (s.hub.health ≠ .quarantine ∨ s.nextIdx q ∈ (s.queue q).viaFleet) → ctxDescBad (s.ctx (s.queue q).ctx).lc d = false →
    (s.ctx (s.queue q).ctx).st = .empty →
    exec (.ctxOpen q) s = .next (finishCmd q (s.nextIdx q) stOk 0 0 ((beginCmd q b s).modCtx (s.queue q).ctx (fun c => { c with
      st := .loading, jobTag := leAt d 0 4, jobSeed := BitVec.ofNat 256 (leAt d 8 32), ledger := leAt d 40 8, sems := [], semQ := [],
      semOvf := false, started := 0, admits := true, instNo := [],
      sl := { epoch := (c.job.getD {}).epoch, hdr := hdrStart (c.job.getD {}) (leAt d 0 4), uniform := true } })))) ∧
  (∀ (s : State) (q : Nat) (b : Bytes), Starts s q b → cOp b = 2 → NoWaits s q → (s.ctx (s.queue q).ctx).st = .loading →
    loadsOf s (s.queue q).ctx = 0 →
    exec (.ctxReady q) s = .next (finishCmd q (s.nextIdx q) stOk 0 0 ((beginCmd q b s).modCtx (s.queue q).ctx (fun c => { c with
      st := .ready })))) ∧
  (∀ (s : State) (q : Nat) (b : Bytes), Starts s q b → cOp b = 3 → NoWaits s q → (s.ctx (s.queue q).ctx).st ≠ .molting →
    (s.ctx (s.queue q).ctx).st ≠ .empty → closeReady s (s.queue q).ctx = true →
    exec (.ctxClose q) s = .next (finishCmd q (s.nextIdx q) stOk 0 0 (emptyCtx (s.queue q).ctx
      ((beginCmd q b s).modCtx (s.queue q).ctx (fun c => { c with closing := some (q, s.nextIdx q) })))))

/-- Region changes: a grant draws the keys of its slot and waits for its zeroing, after which the region reads zero and the entry is in
force; a revocation clears the entry and completes once the work validated before it has ended; the last revocation for a released epoch frees
its entry and posts its notice (R191 to R193, R228). -/
def Obligations.RegionChanges : Prop :=
  (∀ (s : State) (q : Nat) (b : Bytes) (r : Region), Starts s q b → cOp b = 4 → bits (leAt (slice b 32 16) 12 4) 5 19 = 0 →
    r = regionOf (slice b 32 16) → (s.ctx (s.queue q).ctx).changes = [] →
    let t := (beginCmd q b s).modCtx (s.queue q).ctx (fun c => { c with
      changes := [{ index := leAt b 24 1, grant := r.valid, entry := r, queue := some (q, s.nextIdx q) }] })
    (r.valid = true → r.keySlot ≠ 0 → bit (s.ctx (s.queue q).ctx).slotMask r.keySlot = true →
      regionLegal t (s.queue q).ctx (leAt b 24 1) r = true → exec (.regionSet q) s = .next (drawKeys r.keySlot t)) ∧
    (r.valid = false → inEpochMask s (s.queue q).ctx (leAt b 24 1) = false →
      exec (.regionSet q) s = .next (t.modCtx (s.queue q).ctx (fun c => { c with regions := c.regions.set (leAt b 24 1) {} })))) ∧
  (∀ (s : State) (x : Nat) (ch : RegionChange), s.Serving → (s.ctx x).changes = [ch] → ch.grant = true → ch.release = none →
    exec (.regionZeroed x) s = .next (sweepKeys (answerChange stOk ch ((zeroRange ch.entry.base (ch.entry.size * 0x200000) s).modCtx x (fun c =>
      { c with regions := c.regions.set ch.index ch.entry, changes := [] }))))) ∧
  (∀ (s : State) (x : Nat) (ch : RegionChange), s.Serving → (s.ctx x).changes = [ch] → ch.grant = false → workRuns s x = false →
    (ch.release = none → exec (.regionRevoked x) s = .next (sweepKeys (answerChange stOk ch (s.modCtx x (fun c => { c with changes := [] }))))) ∧
    (∀ n, ch.release = some n → ch.queue = none → exec (.regionRevoked x) s = .next (sweepKeys ((s.modCtx x (fun c => { c with
      changes := [], epochs := c.epochs.filter (fun f => f.num ≠ n) })).modQueue x (fun k => { k with notices := k.notices ++ [n] })))))

/-- Weight epochs are published, made current and retired (R227 to R229, R382). -/
def Obligations.WeightEpochs : Prop :=
  (∀ (s : State) (q m : Nat) (b : Bytes), Starts s q b → cOp b = 8 → leAt b 28 1 = 0 → epochMask s (s.queue q).ctx b = .ok m →
    (s.ctx (s.queue q).ctx).epochs.length < 4 → (∀ e ∈ (s.ctx (s.queue q).ctx).epochs, e.num ≠ leAt b 24 4) →
    exec (.epochPublishLoad q) s = .next (finishCmd q (s.nextIdx q) stOk 0 0 ((beginCmd q b s).modCtx (s.queue q).ctx (fun c => { c with
      epochs := c.epochs ++ [{ num := leAt b 24 4, st := .loading, mask := m, progBase := leAt b 32 8 }] })))) ∧
  (∀ (s : State) (q : Nat) (b : Bytes) (e : EpochEntry), Starts s q b → cOp b = 8 → leAt b 28 1 = 1 →
    (s.ctx (s.queue q).ctx).epochs.find? (fun e => e.num = leAt b 24 4) = some e → e.st = .loading →
    epochLoads s (s.queue q).ctx e = false →
    exec (.epochPublishCurrent q) s = .next (finishCmd q (s.nextIdx q) stOk 0 0 (releaseEpochs (s.queue q).ctx
      ((beginCmd q b s).modCtx (s.queue q).ctx (fun c => { c with epochs := c.epochs.map (fun e =>
        if e.num = leAt b 24 4 then { e with st := .current } else if e.st = .current then { e with st := .superseded } else e) }))))) ∧
  (∀ (s : State) (q : Nat) (b : Bytes) (e : EpochEntry), Starts s q b → cOp b = 9 →
    (s.ctx (s.queue q).ctx).epochs.find? (fun e => e.num = leAt b 24 4) = some e → e.st ≠ .current → e.refs = 0 → e.releasing = false →
    exec (.epochRetire q) s = .next (finishCmd q (s.nextIdx q) stOk 0 0 ((beginCmd q b s).modCtx (s.queue q).ctx (fun c => { c with
      epochs := c.epochs.filter (fun f => f.num ≠ leAt b 24 4) }))))

/-- A sequence opens and pins the CURRENT epoch; it closes once none of its launches is in flight, and releases the pin (R381, R383). -/
def Obligations.SequencesPinEpochs : Prop :=
  (∀ (s : State) (q : Nat) (b : Bytes) (e : EpochEntry), Starts s q b → cOp b = 0x23 → seqOwned s (s.queue q).ctx (leAt b 24 2) = true →
    (s.ctx (s.queue q).ctx).admits = true → currentEpoch s (s.queue q).ctx = some e → (s.seq (leAt b 24 2)).isOpen = false →
    exec (.seqOpen q) s = .next (finishCmd q (s.nextIdx q) stOk 0 0 (((beginCmd q b s).modSeq (leAt b 24 2) (fun _ =>
        { isOpen := true, ctx := (s.queue q).ctx, epoch := e.num })).modCtx (s.queue q).ctx (fun c => { c with
      epochs := c.epochs.map (fun f => if f.num = e.num then { f with refs := f.refs + 1 } else f) })))) ∧
  (∀ (s : State) (q : Nat) (b : Bytes), Starts s q b → cOp b = 0x24 → NoWaits s q → seqOwned s (s.queue q).ctx (leAt b 24 2) = true →
    (s.seq (leAt b 24 2)).isOpen = true → (s.seq (leAt b 24 2)).ctx = (s.queue q).ctx → (s.seq (leAt b 24 2)).inFlight = 0 →
    exec (.seqClose q) s = .next (finishCmd q (s.nextIdx q) stOk 0 0 (unpinEpoch (s.queue q).ctx (s.seq (leAt b 24 2)).epoch
      ((beginCmd q b s).modSeq (leAt b 24 2) (fun _ => {})))))

/-- A completion is written to the slot of Q: 16 bytes, and no other byte; Q advances by one, the command leaves the flight, and what its
completion brings about follows (R360, R367, R545). A notice that waits goes first (R369). -/
def Obligations.CompletionsWritten : Prop :=
  (∀ (s : State) (q : Nat) (c : Cmd) (rest : List Cmd) (st : Nat) (t u : State), s.Serving → t = pollWaits q s → (t.queue q).defined = true →
    (t.queue q).unwritten = none → slotFree (t.queue q) 0 = true → (t.queue q).notices = [] → (t.queue q).flight = c :: rest →
    c.status.isSome = true → st = finalStatus t (t.queue q).ctx c →
    qMay t q ((t.queue q).cpl + 16 * ((t.queue q).q.toNat % (t.queue q).size)) 16 true false = true →
    writeMem t ((t.queue q).cpl + 16 * ((t.queue q).q.toNat % (t.queue q).size)) (cplBytes (t.queue q) c st) = (u, true) →
    exec (.completionWrite q) s = .next (afterCpl q c st (u.modQueue q (fun w => { w with q := w.q + 1, unwritten := none, flight := rest })))) ∧
  (∀ (s : State) (q n : Nat) (rest : List Nat) (t u : State), s.Serving → t = pollWaits q s → (t.queue q).defined = true →
    (t.queue q).unwritten = none → slotFree (t.queue q) 0 = true → (t.queue q).notices = n :: rest →
    qMay t q ((t.queue q).cpl + 16 * ((t.queue q).q.toNat % (t.queue q).size)) 16 true false = true →
    writeMem t ((t.queue q).cpl + 16 * ((t.queue q).q.toNat % (t.queue q).size)) (noticeBytes (t.queue q) n) = (u, true) →
    exec (.completionWrite q) s = .next (u.modQueue q (fun w => { w with q := w.q + 1, unwritten := none, notices := rest })))

/-! ## The training step -/

/-- STEP_OPEN opens the step: a fresh step line of its step, kind and layer table, in FWD (a verify step goes to LEDGER), when no step is
open, no molt or setpoint holds it and the ring has room; the slot size goes to the control block (R235, R252, R253, R364). The three rows
differ in the kind that body byte 24 names. A step that has been abandoned opens again only under a higher epoch: at the same one its STEP_OPEN
completes STATE_CONFLICT (R236, R237; log entry 105). With a WINDOWED request about to be served at the window of the step before, STEP_OPEN
waits (R400). -/
def Obligations.StepsOpen : Prop :=
  (∀ (s : State) (q x : Nat) (b : Bytes) (kind : StepKind) (r : RingCtl) (tab : List (Nat × Int)) (w : State), Starts s q b → cOp b = 0x10 →
    x = (s.queue q).ctx → kind = (if leAt b 24 1 = 1 then .rediscovery else if leAt b 24 1 = 2 then .verify else .normal) →
    (s.ctx x).jobTag ≠ 0 → (s.ctx x).job.isSome = true → (s.sl x).isOpen = false →
    cStep b = (if kind = .verify then (s.sl x).hdr.step else (s.sl x).hdr.step + 1) →
    ((s.sl x).cur = some .abandoned → (s.sl x).step ≠ cStep b) → moltOn (s.ctx x) = false →
    setpointWaits (beginCmd q b s) x (cStep b) = false → ringCtl (beginCmd q b s) x = some r → capacityOk r.capacity = true →
    r.layers ≤ 4096 → layerTable (beginCmd q b s) x r.layers = some tab → ascending tab = true → r.full = false →
    writeFor (beginCmd q b s) x ((s.ctx x).ledger + 0x14) (le 4 (1024 * ((1024 + 32 * r.layers + 1023) / 1024))) = (w, stOk) →
    windowDue (beginCmd q b s) x = false →
    let t := openStep q (s.nextIdx q) x (cStep b) kind r.capacity tab (cellsBoundary x w)
    t.ended = [] →
    (leAt b 24 1 = 0 → exec (.stepOpen q) s = .next t) ∧ (leAt b 24 1 = 1 → exec (.stepOpenRediscovery q) s = .next t) ∧
    (leAt b 24 1 = 2 → exec (.stepOpenVerify q) s = .next t)) ∧
  (∀ (s : State) (q : Nat) (b : Bytes), Starts s q b → cOp b = 0x10 → (s.sl (s.queue q).ctx).cur = some .abandoned →
    (s.sl (s.queue q).ctx).step = cStep b → s.ended = [] → let t := finishCmd q (s.nextIdx q) stConflict 0 0 (beginCmd q b s)
    (leAt b 24 1 = 0 → exec (.stepOpen q) s = .next t) ∧ (leAt b 24 1 = 1 → exec (.stepOpenRediscovery q) s = .next t) ∧
    (leAt b 24 1 = 2 → exec (.stepOpenVerify q) s = .next t)) ∧
  (∀ (s : State) (q k x step cap : Nat) (kind : StepKind) (tab : List (Nat × Int)), kind ≠ .verify →
    let l := (openStep q k x step kind cap tab s).sl x
    l.isOpen = true ∧ l.phase = .fwd ∧ l.step = step ∧ l.kind = kind ∧ l.table = tab ∧ l.capacity = cap ∧ l.decision = none ∧
    l.summed = [] ∧ l.ownVote = false ∧ l.updateEnd = false ∧ l.adapted = [] ∧ l.pend = (s.sl x).pend ∧ l.epoch = (s.sl x).epoch) ∧
  (∀ (s : State) (q x : Nat) (b : Bytes), Starts s q b → cOp b = 0x10 → leAt b 24 1 = 0 → x = (s.queue q).ctx →
    (s.ctx x).jobTag ≠ 0 → (s.ctx x).job.isSome = true → (s.sl x).isOpen = false → cStep b = (s.sl x).hdr.step + 1 →
    ((s.sl x).cur = some .abandoned → (s.sl x).step ≠ cStep b) → moltOn (s.ctx x) = false → windowDue (beginCmd q b s) x = true → s.ended = [] →
    exec (.stepOpen q) s = .next (holdCmd q (s.nextIdx q) (beginCmd q b s)))

/-- The barrier: STEP_BARRIER completes with the decision, or waits for it; STEP_UPDATE_END marks the end of the update; the partials handed
over take the line to REDUCE; a vote is held and the barrier decides once every member has voted; a commit timeout abandons the step
(R235, R241 to R243, R313). -/
def Obligations.BarrierCommands : Prop :=
  (∀ (s : State) (q x : Nat) (b : Bytes), Starts s q b → cOp b = 0x11 → x = (s.queue q).ctx → s.ended = [] →
    ((s.sl x).phase = .reduce ∨ (s.sl x).phase = .commit) → (s.sl x).step = cStep b →
    (∀ d, (s.sl x).decision = some d →
      exec (.stepBarrier q) s = .next (finishCmd q (s.nextIdx q) (barrierAnswer d).1 0 (barrierAnswer d).2 (beginCmd q b s))) ∧
    ((s.sl x).decision = none → (s.sl x).barrierCmd = none →
      exec (.stepBarrier q) s = .next ((beginCmd q b s).modSl x (fun l => { l with barrierCmd := some (q, s.nextIdx q) })))) ∧
  (∀ (s : State) (q x : Nat) (b : Bytes), Starts s q b → cOp b = 0x12 → x = (s.queue q).ctx → (s.sl x).step = cStep b →
    (s.sl x).decision.isSome = true → (s.sl x).isOpen = true →
    exec (.stepUpdateEnd q) s = .next (finishCmd q (s.nextIdx q) stOk 0 0 ((beginCmd q b s).modSl x (fun l => { l with updateEnd := true })))) ∧
  (∀ (s : State) (x : Nat), s.Serving → (∀ k ∈ s.colls, k.x = x → k.own = []) → (s.sl x).phase = .bwd →
    let t := tryCommit x (enterPhase x .reduce s)
    t.ended = [] → exec (.partialsHanded x) s = .next t) ∧
  (∀ (s : State) (p : FjPkt) (v : Vote), s.Serving → p.hdr.cls = 0 → p.hdr.ty = 1 → leAt p.payload 0 2 = 1 → 40 ≤ p.payload.length →
    v = { member := leAt (p.payload.drop 8) 12 2, epoch := leAt (p.payload.drop 8) 0 4, step := leAt (p.payload.drop 8) 4 8,
          vote := leAt (p.payload.drop 8) 14 1, status := leAt (p.payload.drop 8) 15 1, check := slice (p.payload.drop 8) 16 8 } →
    p.hdr.epoch = v.epoch → p.hdr.step = v.step → p.hdr.phase = 4 → v.vote ≤ 2 → (∀ c ∈ slice p.payload 32 8, c = 0) → pktRefusal (takeRx s p) p = none → (s.ctx p.hdr.ctx).job.isSome = true →
    (jobOf s p.hdr.ctx).members[v.member]? = some p.hdr.src → ¬ (v.epoch = (s.sl p.hdr.ctx).epoch ∧ v.step < (s.sl p.hdr.ctx).step) →
    let t := tryDecide p.hdr.ctx ((takeRx s p).modSl p.hdr.ctx (fun l => { l with
      votes := v :: l.votes.filter (fun w => !(w.member = v.member && w.epoch = v.epoch && w.step = v.step)) }))
    t.ended = [] → exec (.vote p) s = .next t) ∧
  (∀ (s : State) (x : Nat), s.Serving → (s.sl x).phase = .commit → (s.sl x).decision = none →
    let t := abandonStep x stTimeout false s
    t.ended = [] → exec (.commitTimeout x) s = .next t)

/-- The barrier completes when the device holds the votes of every member, with a decision that is a function of the set of votes alone (R242):
a FAIL of the lowest member abandons with its status; differing header checks abandon with INTERNAL; a rediscovery step rediscovers; a
NONFINITE skips; else the step updates. -/
def Obligations.BarrierDecision : Prop :=
  (∀ (kind : StepKind) (vs : List Vote),
    ((∃ v ∈ vs, v.vote = 2) → ∃ v ∈ vs, v.vote = 2 ∧ (∀ w ∈ vs, w.vote = 2 → v.member ≤ w.member) ∧ decideVotes kind vs = .abandon v.status) ∧
    ((∀ v ∈ vs, v.vote ≠ 2) →
      ((∃ v ∈ vs, ∃ w ∈ vs, v.check ≠ w.check) → decideVotes kind vs = .abandon stInternal) ∧
      ((∀ v ∈ vs, ∀ w ∈ vs, v.check = w.check) →
        (kind = .rediscovery → decideVotes kind vs = .rediscover) ∧
        (kind ≠ .rediscovery → (∃ v ∈ vs, v.vote = 1) → decideVotes kind vs = .skip) ∧
        (kind ≠ .rediscovery → (∀ v ∈ vs, v.vote ≠ 1) → decideVotes kind vs = .update)))) ∧
  (∀ (kind : StepKind) (vs ws : List Vote), (∀ v, v ∈ vs ↔ v ∈ ws) → (∀ v ∈ vs, ∀ w ∈ vs, v.member = w.member → v = w) →
    decideVotes kind vs = decideVotes kind ws) ∧
  (∀ (s : State) (x : Nat) (d : Decision), (s.sl x).phase = .commit → (s.sl x).decision = none → d = decideVotes (s.sl x).kind (votesNow (s.sl x)) →
    ((∃ m, m < (jobOf s x).members.length ∧ ∀ v ∈ votesNow (s.sl x), v.member ≠ m) → tryDecide x s = s) ∧
    ((∀ m, m < (jobOf s x).members.length → ∃ v ∈ votesNow (s.sl x), v.member = m) →
      (∀ st, d = .abandon st → tryDecide x s = abandonStep x st true (ffEvent 0x0110 1 18 (myMember s x) (some x) [3, BitVec.ofNat 8 st] s)) ∧
      (∀ st n, (d, st, n) ∈ [(.update, stOk, 0), (.skip, stFlagged, 1), (.rediscover, stOk, 2)] → tryDecide x s = tryUpdate x (endBarrier x st n
        ((ffEvent 0x0110 1 18 (myMember s x) (some x) [BitVec.ofNat 8 n, 0] s).modSl x (fun l => { l with decision := some d }))))))

/-- The adaptation pass over one block of a committed step (R246): overflow raises the exponent byte by one, at most to 0xFE, and zeroes the
streak; else a zero sum leaves both; else a low sum lengthens the streak, and one that is already 255 lowers the exponent by one, at least
to 1; else the streak is zero. -/
def Obligations.AdaptationRule : Prop :=
  ∀ nib x streak : Nat, nib < 16 → 1 ≤ x → x ≤ 0xFE → streak ≤ 255 →
    (bit nib 3 = true → adaptBlock nib x streak = (min (x + 1) 0xFE, 0, true, false)) ∧
    (bit nib 3 = false → bit nib 2 = true → adaptBlock nib x streak = (x, streak, false, false)) ∧
    (bit nib 3 = false → bit nib 2 = false → bit nib 0 = true → streak = 255 → adaptBlock nib x streak = (max (x - 1) 1, 0, false, true)) ∧
    (bit nib 3 = false → bit nib 2 = false → bit nib 0 = true → streak ≠ 255 → adaptBlock nib x streak = (x, streak + 1, false, false)) ∧
    (bit nib 3 = false → bit nib 2 = false → bit nib 0 = false → adaptBlock nib x streak = (x, 0, false, false)) ∧
    1 ≤ (adaptBlock nib x streak).1 ∧ (adaptBlock nib x streak).1 ≤ 0xFE ∧ (adaptBlock nib x streak).2.1 ≤ 255

/-- UPDATE to LEDGER and the records: the adaptation pass runs once on a holder, LEDGER is entered when the marker and every pass are done, the
record at the head of the line goes to its slot of the ring and the producer advances, a retry finds the ring again and holds the context on while
it does not (R246, R250, R253 to R255). -/
def Obligations.LedgerCommands : Prop :=
  (∀ (s : State) (h x : Nat), s.Serving → (s.sl x).phase = .update → (s.sl x).updateEnd = true → h ∉ (s.sl x).adapted →
    h ∈ slotHolders s x → updateOn s x h = false →
    exec (.adaptationPass h x) s = .next ((((mySlots s x).filter (fun e => e.2.holder = h)).foldl (fun t e => adaptSlot x e.1 e.2 t) s).modSl x
      (fun l => { l with adapted := h :: l.adapted }))) ∧
  (∀ (s : State) (x : Nat), s.Serving → (s.sl x).phase = .update → (s.sl x).updateEnd = true →
    (∀ h ∈ slotHolders s x, h ∈ (s.sl x).adapted ∧ updateOn s x h = false) →
    (∀ h ∈ s.holders, ∀ e ∈ h.2.samples, ¬ (e.ctx = x ∧ e.step = (s.sl x).step)) →
    let o := (s.sl x).cur.getD .committed
    let n := fun (i : Nat) => ((s.sl x).summed.filter (fun b => bit b.2 i)).length
    let t := beginLedger x (s.modSl x (fun l => { l with
      hdr := hdrAfter o l.step l.hdr, lsRaised := (adaptLs o (s.sl x).hdr).2.1, lsLowered := (adaptLs o (s.sl x).hdr).2.2.1,
      lsFloor := (adaptLs o (s.sl x).hdr).2.2.2, counts := { l.counts with overflow := n 3, nonfinite := n 1, zeroSum := n 2 } }))
    t.ended = [] → exec (.ledgerEnter x) s = .next t) ∧
  (∀ (s : State) (x : Nat) (r : PendRec) (rest : List PendRec) (c : RingCtl) (u v : State), s.Serving → (s.sl x).pend = r :: rest →
    (r.fp = false ∨ (s.sl x).fpDone = true) → (s.sl x).retrying = false → ringCtl s x = some c →
    (c.producer + 2 ^ 64 - c.consumer) % 2 ^ 64 < r.cap → (s.sl x).waitClk = none → (s.sl x).ledgerWait = 0 →
    writeFor (endWait x s) x (r.base + 0x8000 + (c.producer % max 1 r.cap) * r.slot) (finalRecord ((endWait x s).sl x) r) = (u, stOk) →
    writeFor u x r.base (le 8 (c.producer + 1)) = (v, stOk) → v.hub.replay = none →
    let bytes := finalRecord ((endWait x s).sl x) r
    let w := v.modSl x (fun l => { l with pend := rest, outcome := r.outcome, lastRecEpoch := some r.epoch, lastRecord := bytes,
                                          ledgerWait := 0, retrying := false })
    let t := tryUpdate x (tryHold x (windowEvents x r.step r.outcome (cellsBoundary x (ledgerEvents x r.step r.outcome bytes
      (ffEvent 0x0111 1 18 (myMember w x) (some x) (le 1 (outCode r.outcome) ++ slice bytes 48 8) w)))))
    t.ended = [] → exec (.ledgerRecordWrite x) s = .next t) ∧
  (∀ (s : State) (x : Nat), s.Serving → s.ended = [] → (s.sl x).retrying = true → (s.sl x).pend = [] →
    ((s.sl x).phase ≠ .commit ∨ (s.sl x).qRead = true) →
    (ringOpen s x = true → exec (.ledgerRetry x) s = .next (s.modSl x (fun l => { l with retrying := false }))) ∧
    (ringOpen s x = false → exec (.ledgerRetry x) s = .next s)) ∧
  (∀ (s : State) (x : Nat) (b : Bytes), s.Serving → (s.sl x).retrying = true → (s.sl x).pend = [] → (s.sl x).phase = .commit →
    (s.sl x).qRead = false → readFor s x ((s.ctx x).ledger + 0x40) 32 = .ok b →
    let t := tryUpdate x (endWait x (s.modSl x (fun l => { l with
      qOwn := gridOf (b.take 16), batch := leAt b 16 4, qStep := leAt b 24 8, qRead := true, retrying := false })))
    t.ended = [] → exec (.ledgerRetry x) s = .next t)

/-! ## Launches, saved cells, pre-emption -/

/-- A LAUNCH that passes its checks is counted as started work of its context, pins the weight epoch it runs on (that of its sequence, or
the CURRENT one), and starts its program on the free cell its placement names; one that fails a check completes with its status and starts
nothing (R364, R371, R376, R381, R383). -/
def Obligations.LaunchStarts : Prop :=
  (∀ (s : State) (q k x t c : Nat) (b : Bytes) (u v : State) (m : Cmd), Starts s q b → cOp b = 0x20 → x = (s.queue q).ctx → t = leAt b 26 2 →
    k = s.nextIdx q → u = beginCmd q b s → findCmd u q k = some m → m.counted = false →
    ((s.ctx x).admits = true ∨ t ≠ 0xFFFF) → launchStatus u q b = stOk →
    v = (match launchEpoch (acceptCmd q k u) x b with
      | none => acceptCmd q k u
      | some e =>
        if t ≠ 0xFFFF then modCmd ((acceptCmd q k u).modSeq t (fun v => { v with inFlight := v.inFlight + 1 })) q k
          (fun w => { w with seq := some t, epoch := e.num })
        else modCmd (pinEpoch x e.num (acceptCmd q k u)) q k (fun w => { w with pinned := true, epoch := e.num })) →
    (∀ w, findCmd v q k = some w → w.borrow = none) → (∀ e ∈ (v.ctx x).epochs, e.restoring = false) →
    (findCmd v q k).isSome = true → placeOf v x (leAt b 24 2) (leAt b 48 8) = .free c →
    exec (.launch q) s = .next (startProgram q k c v)) ∧
  (∀ (s : State) (q k : Nat) (b : Bytes) (m : Cmd), Starts s q b → cOp b = 0x20 → k = s.nextIdx q →
    findCmd (beginCmd q b s) q k = some m → m.counted = false → ((s.ctx (s.queue q).ctx).admits = true ∨ leAt b 26 2 ≠ 0xFFFF) →
    launchStatus (beginCmd q b s) q b ≠ stOk →
    exec (.launch q) s = .next (finishCmd q k (launchStatus (beginCmd q b s) q b) 0 0 (beginCmd q b s))) ∧
  (∀ (s : State) (q k c : Nat) (m : Cmd), findCmd s q k = some m →
    let t := startProgram q k c s
    (t.cell c).st = .running ∧ (t.cell c).ctx = (s.queue q).ctx ∧ (∀ d, d ≠ c → t.cell d = s.cell d) ∧
    (∃ p, (t.cell c).prog = some p ∧ p.queue = q ∧ p.cmd = k ∧ p.ctx = (s.queue q).ctx ∧ p.tiles = [] ∧ p.next = 0 ∧ p.written = 0 ∧
      p.recAt = leAt m.bytes 40 8) ∧
    ((s.cell c).ctx = (s.queue q).ctx → t.mem = s.mem) ∧
    ((s.cell c).ctx ≠ (s.queue q).ctx → t.mem = memZero (memZero s.mem (cellWin c) 0x5B0000) (coreMem c 0x4000) 0xC000 ∧
      (t.cell c).groups = []))

/-- A cell that is saved: its image goes to its save area, its stores are zeroed, and the launch that borrows it starts; the hold over, it is
restored; a restore brings every byte of the image, the groups and the program back, and the last one of a context that resumes makes it READY
(R357, R377, R379, R380). The contents of the trace point are free values (log entry 5). -/
def Obligations.SaveAndRestore : Prop :=
  (∀ (s : State) (c : Nat), s.Serving → (s.cell c).st = .saving → (s.cell c).stopFor = none →
    exec (.saveComplete c) s = .next (pollCtx (s.cell c).ctx ((saveImage c s).modCell c (fun u => { u with st := .idle, stopPre := false })))) ∧
  (∀ (s : State) (c q k : Nat) (w : Nat × State), s.Serving → (s.cell c).st = .saving → (s.cell c).stopFor = some (q, k) →
    w = takeWord ((saveImage c s).modCell c (fun u => { u with st := .idle, stopPre := false })) →
    stillWaits ((saveImage c s).modCell c (fun u => { u with st := .idle, stopPre := false })) q k = true →
    exec (.saveComplete c) s = .next (startProgram q k c
      (ffTrace 0x0008 (c / 32) c (some (s.cell c).ctx) (le 1 (s.queue q).ctx ++ le 4 w.1) w.2))) ∧
  (∀ (s : State) (c : Nat) (v : Saved), s.Serving → (s.cell c).saved = some v → (s.cell c).st = .idle → (s.cell c).prog = none →
    (s.cell c).ctx ≠ v.ctx → (s.ctx v.ctx).st ≠ .preempted → (s.ctx v.ctx).preReq ≠ 1 →
    exec (.borrowHoldExpiry c) s = .next (s.modCell c (fun k => { k with restoring := true, st := .running, stopFor := none }))) ∧
  (∀ (s : State) (c : Nat) (v : Saved), s.Serving → (s.cell c).restoring = true → (s.cell c).saved = some v →
    ∃ t, exec (.restoreComplete c) s = .next t ∧ (t.cell c).ctx = v.ctx ∧ (t.cell c).prog = v.prog ∧ (t.cell c).groups = v.groups ∧
      (t.cell c).core = v.core ∧ (t.cell c).bad = v.bad ∧ (t.cell c).saved = none ∧ (t.cell c).restoring = false ∧
      (∀ d, d ≠ c → t.cell d = s.cell d) ∧ ((s.ctx v.ctx).preReq ≠ 3 → t.ctxs = s.ctxs) ∧
      ((s.ctx v.ctx).preReq = 3 → (s.ctx v.ctx).st = .preempted →
        (∀ d, d ≠ c → ∀ w, (s.cell d).saved = some w → (s.cell d).restoring = true → w.ctx ≠ v.ctx) →
        (t.ctx v.ctx).st = .ready ∧ (t.ctx v.ctx).preReq = 0) ∧ t.queues = s.queues ∧
      t.mem = memCopy (memCopy (memCopy (memZero (memZero s.mem (cellWin c) 0x5B0000) (coreMem c 0x4000) 0xC000) (saveArea s c).1 (cellWin c) 0x580000) (saveArea s c).2
        (cellWin c + 0x580000) 0x30000) ((saveArea s c).2 + 0x30000) (coreMem c 0x4000) 0xC000) ∧
  (∀ (s : State) (c : Nat), memWf memFill s.mem = true → (saveArea s c).2 + 0x40000 ≤ cellWin c → (saveArea s c).1 + 0x580000 ≤ (saveArea s c).2 →
    let m := (saveImage c s).mem
    (∀ i, i < 0x580000 → memGet memFill m ((saveArea s c).1 + i) = memGet memFill s.mem (cellWin c + i)) ∧
    (∀ i, i < 0x30000 → memGet memFill m ((saveArea s c).2 + i) = memGet memFill s.mem (cellWin c + 0x580000 + i)) ∧
    (∀ i, i < 0xC000 → memGet memFill m ((saveArea s c).2 + 0x30000 + i) = memGet memFill s.mem (coreMem c 0x4000 + i)) ∧
    (∀ i, i < 0x5B0000 → memGet memFill m (cellWin c + i) = memFill) ∧ (∀ i, i < 0xC000 → memGet memFill m (coreMem c 0x4000 + i) = memFill) ∧
    (∀ a, (a < (saveArea s c).1 ∨ (saveArea s c).1 + 0x580000 ≤ a) → (a < (saveArea s c).2 ∨ (saveArea s c).2 + 0x3C000 ≤ a) →
      (a < cellWin c ∨ cellWin c + 0x5B0000 ≤ a) → (a < coreMem c 0x4000 ∨ coreMem c 0x10000 ≤ a) → memGet memFill m a = memGet memFill s.mem a))

/-- Pre-emption: an operator pre-empts a READY or RUNNING best-effort context at once, or asks for its next window; a release withdraws the
request, or lets a pre-empted context go on; a window that runs out lets it go on: its saved cells are restored, and with none it is READY at once.
Without operator authority the answer is PERMISSION and nothing else changes (R357, R380, R400). -/
def Obligations.PreemptionRequests : Prop :=
  (∀ (s : State) (session x : Nat), s.Serving → isOperator s session = true → (s.ctx x).defined = true → (s.ctx x).lc = false →
    ((s.ctx x).st = .ready ∨ (s.ctx x).st = .running) → (s.ctx x).preReq ≠ 1 →
    exec (.contextPreempt session x) s = .next (answer 400 stOk [] (preemptNow x none s)) ∧
    exec (.preemptWindowed session x) s = .next (answer 400 stOk [] (s.modCtx x (fun c => { c with preReq := 2 })))) ∧
  (∀ (s : State) (session x : Nat), s.Serving → isOperator s session = true →
    ((s.ctx x).st = .preempted → (s.ctx x).preReq ≠ 3 → exec (.preemptRelease session x) s = .next (answer 400 stOk [] (resumeCtx x s))) ∧
    ((s.ctx x).st ≠ .preempted → (s.ctx x).preReq = 2 →
      exec (.preemptRelease session x) s = .next (answer 400 stOk [] (s.modCtx x (fun c => { c with preReq := 0 })))) ∧
    ((s.ctx x).st ≠ .preempted → (s.ctx x).preReq ≠ 2 →
      exec (.preemptRelease session x) s = .next (answer 400 stConflict [] s))) ∧
  (∀ (s : State) (x : Nat), s.Serving → (s.ctx x).st = .preempted → (s.ctx x).preReq ≠ 3 → (s.ctx x).preWin.isSome = true →
    exec (.preemptWindowExpiry x) s = .next (resumeCtx x s)) ∧
  (∀ (s : State) (session x : Nat), s.Serving → isOperator s session = false →
    exec (.contextPreempt session x) s = .next (answer 400 stPerm [] s) ∧
    exec (.preemptWindowed session x) s = .next (answer 400 stPerm [] s) ∧
    exec (.preemptRelease session x) s = .next (answer 400 stPerm [] s)) ∧
  (∀ (s : State) (x : Nat), let t := resumeCtx x s
    ((∀ e ∈ s.cells, ∀ v, e.2.saved = some v → v.ctx ≠ x) →
      (t.ctx x).st = (if (s.ctx x).st = .preempted then .ready else (s.ctx x).st) ∧ (t.ctx x).preReq = 0) ∧
    ((∃ c k, (c, k) ∈ s.cells ∧ s.cell c = k ∧ k.prog = none ∧ k.st = .idle ∧ ∃ v, k.saved = some v ∧ v.ctx = x) →
      (t.ctx x).st = (s.ctx x).st ∧ (t.ctx x).preReq = 3) ∧ (t.ctx x).preWin = none ∧
    (∀ y, y ≠ x → t.ctx y = s.ctx y) ∧ t.mem = s.mem ∧ t.queues = s.queues ∧
    (∀ c k, (c, k) ∈ s.cells → s.cell c = k → (∃ v, k.saved = some v ∧ v.ctx = x) → k.prog = none → k.st = .idle →
      (t.cell c).restoring = true ∧ (t.cell c).st = .running))

/-! ## The sequencer of a cell -/

/-- The next tile starts in program order when it is well formed, its footprints may be reached, its units are free, no hazard stands, its
accumulator use agrees with the store and its semaphore is there; one that lacks only its unit of a semaphore stands in the semaphore's line; one
that fails a check, or whose descriptor cannot be fetched, gets its record and ends the program with its status; END ends the program
(R123, R124, R126, R370; log entries 23 and 90). -/
def Obligations.TilesStart : Prop :=
  (∀ (s : State) (c n x : Nat) (t : Tile) (p : Plan), s.Serving → fetch s c = .tile t n → x = cellCtx s c → planOf s c x t = some p →
    p.fits c = true → (p.far.all (fun f => mayReach s x f.2.2 (!f.2.2) 258 f.1 (f.1 + f.2.1))) = true →
    unitsBusy s c p = false → inHazard s c p = false → (isPaired t.desc = true → unitsBusy s (c + 1) p = false) →
    (usesOdd s c x t = true → oddAway s c x = false) → p.bad = false → conflictOf s c x t = false →
    ((t.rerun = true ∨ semTurn s x (tileWait s c t) = true) → exec (.tileStart c) s = .next (runTile c x t n p s)) ∧
    (t.rerun = false → semTurn s x (tileWait s c t) = false →
      exec (.tileStart c) s = .next (bubbleWait x c t (semWait x (tileWait s c t) s)))) ∧
  (∀ (s : State) (c st : Nat) (p : Program), s.Serving → fetch s c = .failed st → (s.cell c).prog = some p →
    exec (.tileStart c) s = .next (failTile c { id := p.next, desc := zeros 128 } 1 st (noteRead st (p.prog + 128 * p.next) 128 s))) ∧
  (∀ (s : State) (c n : Nat) (t : Tile), s.Serving → fetch s c = .tile t n → planOf s c (cellCtx s c) t = none →
    exec (.tileStart c) s = .next (failTile c t n stBad s)) ∧
  (∀ (s : State) (c n : Nat) (t : Tile) (p : Plan), s.Serving → fetch s c = .tile t n → planOf s c (cellCtx s c) t = some p →
    p.fits c = true → (p.far.all (fun f => mayReach s (cellCtx s c) f.2.2 (!f.2.2) 258 f.1 (f.1 + f.2.1))) = false →
    exec (.tileStart c) s = .next (failTile c t n stPerm s)) ∧
  (∀ (s : State) (c x n : Nat) (t : Tile) (p : Plan) (g : Program), (s.cell c).prog = some g → t.core = false → isPaired t.desc = false →
    usesOdd (semTake x (tWait t.desc) s) c x t = false → usesOdd s c x t = false → pcapNow s = 0 → (s.ctx x).jobTag = 0 → (s.ctx x).job = none →
    let v := runTile c x t n p s
    (∃ u, (v.cell c).prog = some { g with tiles := g.tiles ++ [u], next := g.next + n } ∧ u.id = t.id ∧ u.desc = t.desc ∧ u.running = true ∧
      u.done = t.done ∧ u.start = s.clk) ∧
    (∀ d, d ≠ c → v.cell d = s.cell d) ∧ v.mem = s.mem ∧ v.queues = s.queues ∧ v.pwr = s.pwr ∧
    (∀ y, y ≠ x → v.ctx y = s.ctx y) ∧
    (t.rerun = false → tWait t.desc < 0xFFF →
      (v.ctx x).sems = (s.ctx x).sems.set (tWait t.desc) ((s.ctx x).sems.get 0 (tWait t.desc) - 1)) ∧
    (t.rerun = true → v.ctx x = s.ctx x)) ∧
  (∀ (s : State) (c : Nat), s.Serving → fetch s c = .stop →
    exec (.tileEnd c) s = .next (tryEnd c (s.modCell c (fun k => { k with prog := k.prog.map (fun p => { p with ended := true }) }))))

/-- TILE_COMPLETE ends a running tile whose effect is done; a tile that ran late and is OK is OK_FLAGGED; it is kept for its record and the
program's earliest failure is noted. TILE_RECORD_WRITE writes the record of the oldest tile that is done to its slot of the record buffer,
adds its counts, and signals its semaphore when it succeeded; the program ends once nothing of it is left (R127, R128, R143, R144). -/
def Obligations.TilesComplete : Prop :=
  (∀ (s : State) (c t : Nat) (u : Tile) (p : Program), s.Serving → (s.cell c).prog = some p → tileAt s c t = some u → u.running = true →
    u.applied = true → u.staged = [] → tOp u.desc ≠ 0x40 → u.core = false →
    let v := { u with running := false, done := true, status := (if u.status = 0 && u.late then stFlagged else u.status),
                      busy := s.clk - u.start, stall := (takeWord s).1 % 65536 }
    let w := bubbleEnd p.ctx v (progressCmd p.queue p.cmd 1 ((takeWord s).2.modCell c (fun k => { k with
      prog := some { p with tiles := p.tiles.map (fun w => if w.id = t then v else w), fail := noteFail v.id v.status p.fail, busy := p.busy + v.busy } })))
    exec (.tileComplete c t) s = .next (reachBoundary c (if u.odd then reachBoundary (c + 1) w else w))) ∧
  (∀ (s : State) (c : Nat) (p : Program) (t : Tile) (rest : List Tile) (w : State × Nat), s.Serving → (s.cell c).prog = some p →
    p.tiles.filter (fun u => !u.core) = t :: rest → t.done = true → t.rerun = false →
    w = writeFor s p.ctx (p.recAt + 32 * p.written) (tileRec t) → w.2 = stOk →
    let v := (addQsum c p.ctx t.q (logFailed (c / 32) (some p.ctx) stOk w.1)).modCell c (fun k => { k with
      recs := (tileRec t :: k.recs).take 8,
      prog := k.prog.map (fun p => { p with tiles := p.tiles.filter (fun u => u.id ≠ t.id), written := p.written + 1,
                                            fail := noteFail t.id stOk p.fail, flagged := p.flagged || t.status = stFlagged }) })
    exec (.tileRecordWrite c) s = .next (tryEnd c (if t.status < 0x10 then semSignal p.ctx (tSignal t.desc) v else v))) ∧
  (∀ (s : State) (c : Nat) (p : Program), s.Serving → (s.cell c).prog = some p → p.tiles = [] → (p.ended = true ∨ p.fail.isSome = true) →
    exec (.tileRecordWrite c) s = .next (endProgram c s)) ∧
  (∀ t : Tile, (tileRec t).length = 32)

/-- TILE_LATE and TILE_ABORT complete for every running tile. A tile past 100 µs is marked late, counted and reported, and goes on; one past 1 ms
is stopped with TIMEOUT, the accumulation groups that it opened or was adding to are discarded and what it would have written is undefined; an
aborted segment of the control core ends its CORE_CALL. Of a tile that does not run neither row changes anything (R150, R157). -/
def Obligations.TileWatchdog : Prop :=
  (∀ (s : State) (c t : Nat) (u : Tile), s.Serving → tileAt s c t = some u → u.running = true → u.late = false →
    exec (.tileLate c t) s = .next (ffEvent 0x0140 2 (c / 32) c (some (cellCtx s c)) (le 4 t ++ le 1 (tOp u.desc))
      (modTile c t (fun v => { v with late := true }) (s.modCell c (fun k => { k with lateN := bump k.lateN 1 }))))) ∧
  (∀ (s : State) (c t : Nat) (u : Tile) (p : Program), s.Serving → tileAt s c t = some u → (s.cell c).prog = some p → u.running = true →
    (∃ w, exec (.tileAbort c t) s = .next w) ∧ (∃ w, exec (.tileLate c t) s = .next w) ∧
    let v := logError 0x08 (c / 32) c (some p.ctx) stTimeout (le 2 p.queue ++ le 4 p.cmd ++ le 4 t ++ le 1 (tOp u.desc))
      (ffEvent 0x0141 4 (c / 32) c (some p.ctx) (le 4 t ++ le 1 (tOp u.desc))
        ((setHang 5 p.ctx p.queue s).modCell c (fun k => { k with abort := bump k.abort 1 })))
    (tOp u.desc = 0x40 → u.applied = true →
      exec (.tileAbort c t) s = .next (v.modCell c (fun k => { k with core := k.core.map (fun r => { r with
        exit := if r.exit.isSome then r.exit else some stTimeout }) }))) ∧
    (tOp u.desc ≠ 0x40 → ∃ w, exec (.tileAbort c t) s = .next w ∧ w.queues = v.queues ∧ w.hub = v.hub ∧ w.ctxs = v.ctxs ∧
      (∀ d, d ≠ c → tOp u.desc ≠ 0x10 → tOp u.desc ≠ 0x13 → w.cell d = v.cell d) ∧ (w.cell c).abort = bump (s.cell c).abort 1 ∧
      (∃ g, (w.cell c).prog = some g ∧ ∀ e ∈ g.tiles, e.id = t → e.applied = true ∧ e.status = stTimeout ∧ e.staged = []) ∧
      (∀ h ∈ w.holders, ∀ e ∈ h.2.staged, ¬ (e.cell = c ∧ e.tile = t)) ∧
      (memWf memFill s.mem = true → ∀ a, (∀ i ∈ u.wr, a < i.1 ∨ i.1 + i.2 ≤ a) → memGet memFill w.mem a = memGet memFill s.mem a))) ∧
  (∀ (s : State) (c t : Nat) (u : Tile) (p : Program), s.Serving → tileAt s c t = some u → (s.cell c).prog = some p → u.running = false →
    exec (.tileAbort c t) s = .next s ∧ exec (.tileLate c t) s = .next s)

/-- The control core of a cell: a write of 1 to CEL_CORE_ISSUE passes the staged descriptor to the sequencer as the core's next tile, while
fewer than four wait; CEL_CORE_EXIT ends the CORE_CALL with OK, OK_FLAGGED or CORE_ERROR; a fault ends it BAD_DESCRIPTOR or PERMISSION; the
first end stands (R153, R155, R156). -/
def Obligations.ControlCore : Prop :=
  (∀ (s : State) (c : Nat) (desc : List Word) (k : CoreRun) (p : Program), s.Serving → (s.cell c).core = some k → (s.cell c).prog = some p →
    k.exit = none → k.waiting < 4 → k.fail = none → p.fail = none → p.stopNew = false → desc.length = 32 →
    exec (.celCoreIssue c desc 1) s = .next (s.modCell c (fun u => { u with
      prog := some { p with tiles := p.tiles ++ [{ id := 2 ^ 32 * (k.tile + 1) + k.issued, desc := desc.flatMap (fun w => le 4 w.toNat), core := true }] },
      core := some { k with desc := desc, segStart := s.clk, issued := k.issued + 1, waiting := k.waiting + 1 } }))) ∧
  (∀ (s : State) (c : Nat) (desc : List Word) (k : CoreRun), s.Serving → (s.cell c).core = some k → 4 ≤ k.waiting →
    exec (.celCoreIssue c desc 1) s = .next s) ∧
  (∀ (s : State) (c : Nat) (v : Word) (k : CoreRun), s.Serving → (s.cell c).core = some k → k.exit = none →
    (v = 0 → exec (.celCoreExit c v) s = .next (s.modCell c (fun u => { u with core := some { k with exit := some 0 } }))) ∧
    (v = 1 → exec (.celCoreExit c v) s = .next (s.modCell c (fun u => { u with core := some { k with exit := some 1 } }))) ∧
    (v ≠ 0 → v ≠ 1 → exec (.celCoreExit c v) s = .next (s.modCell c (fun u => { u with core := some { k with exit := some 0x11 } }))) ∧
    exec (.coreFault c true) s = .next (s.modCell c (fun u => { u with core := some { k with exit := some stBad } })) ∧
    exec (.coreFault c false) s = .next (s.modCell c (fun u => { u with core := some { k with exit := some stPerm } }))) ∧
  (∀ (s : State) (c : Nat) (v : Word) (illegal : Bool) (k : CoreRun) (e : Nat), s.Serving → (s.cell c).core = some k → k.exit = some e →
    (∃ t, exec (.celCoreExit c v) s = .next t ∧ t.cell c = s.cell c) ∧ (∃ t, exec (.coreFault c illegal) s = .next t ∧ t.cell c = s.cell c))

/-! ## The effect of a tile -/

/-- The running tile of each op takes its effect, and keeps status, status words and quantiser counts for its record: TILE_NOP, MATMUL,
BOUND_SCAN, ACC_SPILL, ACC_FILL, ACC_DRAIN, VEC, DMA_COPY, LAYOUT_COPY, WINDOW, GATHER, SCATTER, SCATTER_ADD and CORE_CALL (R131 to R140,
R154, R172 to R180). A SCATTER_ADD first announces its contributions to their engines. A word or pair that cannot be read makes the tile
MEM_UNCORRECTABLE, and a window that is not the context's any more PERMISSION; the effect then does not take place (R147, R201, R223, R547). -/
def Obligations.TilesTakeEffect : Prop :=
  ∀ o ∈ tileOps, ∀ (s₀ s : State) (c : Nat) (t : Tile) (p : Plan), s₀.Serving → runningTile s₀ c o.op = some t → o.ready s₀ c t = true →
    s = o.prep c t s₀ → o.plan s c (cellCtx s c) t = some p →
    (p.open_ s (cellCtx s c) = false → exec (o.cmd c) s₀ = .next (modTile c t.id (fun u => { u with
      applied := true, status := stPerm, word0 := 0, word1 := 0, q := {} }) s)) ∧
    (p.open_ s (cellCtx s c) = true → badMet s p.reads p.slots = [] → anyBad s p.reads = false →
      let d := o.eff c (cellCtx s c) t s
      exec (o.cmd c) s₀ = .next (modTile c t.id (fun u => { u with applied := true, status := d.st, word0 := d.word0, word1 := d.word1, q := d.q }) d.s)) ∧
    (p.open_ s (cellCtx s c) = true → badMet s p.reads p.slots ≠ [] → exec (o.cmd c) s₀ = .next (modTile c t.id (fun u => { u with
      applied := true, status := stMem, word0 := 0, word1 := 0, q := {} }) (eccCount (cellCtx s c) (badMet s p.reads p.slots) s))) ∧
    (p.open_ s (cellCtx s c) = true → badMet s p.reads p.slots = [] → anyBad s p.reads = true → exec (o.cmd c) s₀ = .next (modTile c t.id (fun u => { u with
      applied := true, status := stMem, word0 := 0, word1 := 0, q := {} }) (p.reads.foldl (fun u i => notePoison u i.1 i.2) s)))

/-- What the copying ops write: the destination's planes hold the source's blocks, bit for bit (DMA_COPY; LAYOUT_COPY between equal MX formats of one layout) or encoded again under the control
word (LAYOUT_COPY otherwise); a row of GATHER whose index is out of range holds zeros or the clamped row and flags the tile; a row of SCATTER whose index
is out of range is dropped and flags it; and no byte outside the destination's planes changes (R172, R173, R177 to R179). -/
def Obligations.CopiesWriteTheirPlanes : Prop :=
  (∀ (s : State) (c x : Nat) (t : Tile) (a b : TRef), memWf memFill s.mem = true → copyRefs t.desc = some (a, b) → doorbellCopy s x t.desc = none →
    let rows := (List.range (b.rows (dmaRows t.desc) (dmaCols t.desc))).map (fun p =>
      if a.cm = b.cm then rawBlocks s a p (a.extent (dmaRows t.desc) (dmaCols t.desc)) 0 (a.extent (dmaRows t.desc) (dmaCols t.desc))
      else turned s a b (dmaRows t.desc) (dmaCols t.desc) p)
    (copyEff c x t s).s = (writeList s (planeWrites b rows)).1 ∧
    (∀ i, (∀ w ∈ planeWrites b rows, i < w.1 ∨ w.1 + w.2.length ≤ i) → memGet memFill (copyEff c x t s).s.mem i = memGet memFill s.mem i)) ∧
  (∀ (s : State) (c x : Nat) (t : Tile) (a b : TRef) (q : QCtl), memWf memFill s.mem = true → layoutRefs (modeOf s x) t.desc = some (a, b, q) →
    ¬ (fmtMx a.fmt = true ∧ a.fmt = b.fmt ∧ a.cm = b.cm) →
    let blocks := quantise s q (qRound false q) b (dmaRows t.desc) (dmaCols t.desc) (spAddr c (fld t.desc 25 0 22)) (srKey s x t.desc) (fun i j => elemAt s a i j)
    (layoutEff c x t s).s = (writeList s (planeWrites b blocks)).1 ∧ (layoutEff c x t s).q = countsOf blocks ∧
    (∀ i, (∀ w ∈ planeWrites b blocks, i < w.1 ∨ w.1 + w.2.length ≤ i) → memGet memFill (layoutEff c x t s).s.mem i = memGet memFill s.mem i)) ∧
  (∀ (s : State) (c x : Nat) (t : Tile) (a b : TRef) (q : QCtl), memWf memFill s.mem = true → layoutRefs (modeOf s x) t.desc = some (a, b, q) →
    fmtMx a.fmt = true → a.fmt = b.fmt → a.cm = b.cm →
    let e := a.extent (dmaRows t.desc) (dmaCols t.desc)
    let blocks := (List.range (b.rows (dmaRows t.desc) (dmaCols t.desc))).map (fun p => rawBlocks s a p e 0 e)
    (layoutEff c x t s).s = (writeList s (planeWrites b blocks)).1 ∧ (layoutEff c x t s).q = {} ∧
    (∀ i, (∀ w ∈ planeWrites b blocks, i < w.1 ∨ w.1 + w.2.length ≤ i) → memGet memFill (layoutEff c x t s).s.mem i = memGet memFill s.mem i)) ∧
  (∀ (s : State) (c x : Nat) (t : Tile) (a b : TRef), memWf memFill s.mem = true → indexRefs t.desc true = some (a, b) →
    let idx := (List.range (dmaRows t.desc)).map (idxAt s c t.desc)
    let rows := idx.map (fun i => if idxIn t.desc i || dmaOob t.desc = 0 then rawBlocks s a (clampIdx t.desc i) (dmaCols t.desc) 0 (dmaCols t.desc)
      else zeroBlocks a.fmt (dmaCols t.desc))
    ((gatherEff c x t s).st = stMem ∨ ((∃ i ∈ idx, idxIn t.desc i = false) ∧ (gatherEff c x t s).st = stFlagged) ∨
      ((∀ i ∈ idx, idxIn t.desc i = true) ∧ (gatherEff c x t s).st = stOk)) ∧
    (∀ i, (∀ w ∈ planeWrites b rows, i < w.1 ∨ w.1 + w.2.length ≤ i) → memGet memFill (gatherEff c x t s).s.mem i = memGet memFill s.mem i)) ∧
  (∀ (s : State) (c x : Nat) (t : Tile) (a b : TRef), memWf memFill s.mem = true → indexRefs t.desc false = some (a, b) →
    let idx := (List.range (dmaRows t.desc)).map (idxAt s c t.desc)
    ((scatterEff c x t s).st = stMem ∨ ((∃ i ∈ idx, idxIn t.desc i = false) ∧ (scatterEff c x t s).st = stFlagged) ∨
      ((∀ i ∈ idx, idxIn t.desc i = true) ∧ (scatterEff c x t s).st = stOk)) ∧
    ((∀ i ∈ idx, idxIn t.desc i = false) → (scatterEff c x t s).s.mem = s.mem))

/-- SCATTER_ADD stages its contributions at the engine of each holder they lie in; the engine that has them all applies them in order, each to
its entry, records the tile as applied with its result, frees their room and acknowledges it; contributions into the own scratchpad are added at
once; an announcement of contributions is reserved once those before it leave it room (R180 to R182, R223). -/
def Obligations.ScatterAdds : Prop :=
  (∀ (s : State) (h c t : Nat) (g : Staged), s.Serving → (s.holder h).staged.find? (fun e => e.cell = c && e.tile = t) = some g →
    let r := addEntries s g.contr
    let st := if r.2.2 then stMem else if r.2.1 then stFlagged else stOk
    exec (.scatterAddApply h c t) s = .next (modTile c t (fun u => { u with
        staged := u.staged.filter (fun k => k ≠ h), status := max u.status st })
      (r.1.modHolder h (fun k => { k with
        staged := k.staged.filter (fun e => !(e.cell = c && e.tile = t)),
        announced := k.announced.filter (fun e => !(e.1 = c && e.2.1 = t)),
        applied := k.applied.filter (fun e => !(e.1 = c && e.2.1 = t)) ++ [(c, t, st)] })))) ∧
  (∀ (s : State) (l : List (Nat × Nat)) (i : Nat), memWf memFill s.mem = true → (∀ e ∈ l, i < e.1 ∨ e.1 + 13 ≤ i) →
    memGet memFill (addEntries s l).1.mem i = memGet memFill s.mem i ∧ (addEntries s l).1.holders = s.holders ∧ (addEntries s l).1.ctxs = s.ctxs) ∧
  (∀ (s : State) (at_ v : Nat), memWf memFill s.mem = true → unreadable s at_ 16 = false →
    let r := (rowAdd (gridOf (peek s at_ 16)) (dec32 v)).1
    peek (addEntry s at_ v).1 at_ 13 = le 12 (ofSigned 96 r.word) ++ [BitVec.ofNat 8 r.st.toNat]) ∧
  (∀ (s : State) (c x : Nat) (t : Tile) (a : TRef) (base stride : Nat), saddRefs c t.desc = some (a, base, stride) → ownWin c base = false →
    let u := (saddEff c x t s).s
    let parts := saddParts s c t (contributions s c t.desc a base stride)
    u.mem = s.mem ∧ u.ctxs = s.ctxs ∧ u.queues = s.queues ∧
    (∀ h, (∀ p ∈ parts, p.1 ≠ h) → u.holder h = s.holder h)) ∧
  (∀ (s : State) (h c t n : Nat) (before after : List (Nat × Nat × Nat)), (s.holder h).announced = before ++ (c, t, n) :: after →
    (∀ e ∈ before, ¬ (e.1 = c ∧ e.2.1 = t)) → (reserved s h c t = true ↔ (before.map (fun e => e.2.2)).sum + n ≤ 262144))

/-- Elements of GBF8, GBF4, GBI16 and GBI24 decode to what their bits say: sign and magnitude under scale byte, micro-exponent and fraction
width; their infinities and NaNs; two's complement under the agreed exponent, with the most negative code as the non-finite marker
(R48, R50, R51, R54). `.fin neg m e` is the exact value ±m × 2^e. -/
def Obligations.ElementsDecode : Prop :=
  (∀ S side i code : Nat, 1 ≤ S → S ≤ 0xFE → code < 256 →
    (code % 128 ≤ 126 → code ≠ 0x80 → ∃ e, decElem .gbf8 S side i code = .fin (decide (128 ≤ code) && decide (0 < code % 128)) (code % 128) e ∧
      (0 < code % 128 → e = (S : Int) - 127 - micro side i - 6)) ∧
    decElem .gbf8 S side i 0x7F = .inf false ∧ decElem .gbf8 S side i 0xFF = .inf true ∧ (decElem .gbf8 S side i 0x80).isNan = true) ∧
  (∀ S side i code : Nat, 1 ≤ S → S ≤ 0xFE → code < 16 →
    (code ≠ 8 → ∃ e, decElem .gbf4 S side i code = .fin (decide (8 ≤ code) && decide (0 < code % 8)) (code % 8) e ∧
      (0 < code % 8 → e = (S : Int) - 127 - micro side i - 2)) ∧
    (decElem .gbf4 S side i 8).isNan = true) ∧
  (∀ (f : Fmt) (w x side i code : Nat), (f, w) ∈ [(Fmt.gbi16, 16), (.gbi24, 24)] → 1 ≤ x → x ≤ 0xFE → code < 2 ^ w →
    (code = 2 ^ (w - 1) → (decElem f x side i code).isNan = true) ∧
    (code ≠ 2 ^ (w - 1) → ∃ neg m, decElem f x side i code = .fin neg m ((x : Int) - 127 - ((w : Int) - 1)) ∧ m < 2 ^ (w - 1) ∧
      (if neg then -(m : Int) else m) = (if code < 2 ^ (w - 1) then (code : Int) else (code : Int) - 2 ^ w)))

/-! ## The engines beside memory -/

/-- A job at the front of its holder runs whole: it starts, has its checks and its parameter block, its program takes its effect, its record is
written and its command completes; a job that fails a check has no effect and completes with that status (SGD_MOM, ADAMW, GRAD_FINAL, MICRO,
DIGEST, CRC, PARITY, GATHER and ZERO; R204 to R222, R233). With no room for its soldier samples an update job waits, and its engine is STALLED
(R232, R440). -/
def Obligations.EngineJobsRun : Prop :=
  ∀ o ∈ engineOps, ∀ (s : State) (h : Nat) (j : EngJob), s.Serving → EngineFree s h → nextJob (s.holder h) = some j → o.mine (jProg j.desc) = true →
    (∀ l q b, jobChecks s h j = .ok (l, q, b) → o.stall s h j l = false →
      exec (o.cmd h) s = .next (endJob h j (o.run h j l q b (startJob h j (setStall h false s))))) ∧
    (∀ l q b, jobChecks s h j = .ok (l, q, b) → o.stall s h j l = true → exec (o.cmd h) s = .next (setStall h true s)) ∧
    (∀ st, jobChecks s h j = .error st → exec (o.cmd h) s = .next (endJob h j
      { s := noteRead st (jParam j.desc) (paramLen (jProg j.desc)) (startJob h j s), st := st })) ∧
    (setStall h true s).holder h = { s.holder h with stalled := true } ∧ ((s.holder h).stalled = false → setStall h false s = s)

/-- What the programs that move bytes write: ZERO zeroes its interval and nothing else (R221); DIGEST writes the 64 bytes of SHA-512 over its
input streams and nothing else (R219); a GATHER row whose index is out of range is zeros and flags the job (R221); PARITY writes the GF(2⁸)
combination of its inputs (R220); a per-element program whose gate is shut or whose words are not legal changes nothing (R207, R238). -/
def Obligations.EngineEffects : Prop :=
  (∀ (s : State) (j : EngJob) (l : List Stream) (o : Stream) (i : Nat), memWf memFill s.mem = true → streamAt l 7 = some o →
    partPoison s o.base (jCount j.desc) = [] →
    (runZero j l s).st = stOk ∧ (runZero j l s).written = jCount j.desc ∧
    memGet memFill (runZero j l s).s.mem i = if o.base ≤ i ∧ i < o.base + jCount j.desc then 0 else memGet memFill s.mem i) ∧
  (∀ (s : State) (j : EngJob) (l : List Stream) (o : Stream), memWf memFill s.mem = true → streamAt l 7 = some o →
    (∀ r ∈ l, r.slot ≤ 2 → digestFail s r (jCount j.desc) = none) → partPoison s o.base 64 = [] →
    let dg := sha512 ((l.filter (fun r => decide (r.slot ≤ 2))).flatMap (fun r =>
      (List.range (digestUnits r (jCount j.desc)).1).flatMap (fun b => (digestUnit s r b).getD [])))
    (runDigest j l s).s = (writeMem s o.base dg).1 ∧ (runDigest j l s).st = stOk ∧ (runDigest j l s).written = jCount j.desc ∧
    (∀ i, (i < o.base ∨ o.base + dg.length ≤ i) → memGet memFill (runDigest j l s).s.mem i = memGet memFill s.mem i)) ∧
  (∀ (s : State) (j : EngJob) (l : List Stream) (par : Bytes) (o : Stream), streamAt l 7 = some o → o.reads = false →
    (∀ r ∈ l, r.slot ≤ 5 → readTo s r.base (jCount j.desc) = jCount j.desc) → partPoison s o.base (jCount j.desc) = [] →
    let p := (l.filter (fun r => decide (r.slot ≤ 5))).foldl (fun acc r => List.zipWith (fun x y => x ^^^ BitVec.ofNat 8 (gfMul (leAt par (4 + r.slot) 1) y.toNat))
      acc (peek s r.base (jCount j.desc))) (zeros (jCount j.desc))
    runParity j l par s = { s := (writeMem s o.base (p.take (jCount j.desc))).1, written := jCount j.desc }) ∧
  (∀ (s : State) (x src idx dst len rows i : Nat) (flag : Bool) (w : Bytes), readMem s (idx + 4 * i) 4 = some w →
    (toSigned 32 (ofLe w) < 0 ∨ (rows : Int) ≤ toSigned 32 (ofLe w)) → (gatherPut s x (dst + i * len) (zeros len)).2 = 0 →
    gatherFrom x src idx dst len rows 1 i flag s = { s := (gatherPut s x (dst + i * len) (zeros len)).1, st := stFlagged, written := i + 1 }) ∧
  (∀ (s : State) (h : Nat) (j : EngJob) (l : List Stream) (q : QCtl) (b : Bytes),
    (progOk j.desc l q (wordsOf b) (jobProg j.desc l (wordsOf b)) = false → elemRun h j l q b s = { s := s, st := stBad }) ∧
    (progOk j.desc l q (wordsOf b) (jobProg j.desc l (wordsOf b)) = true → isUpdate s j.ctx j.desc l = true →
      gateOpen s j.ctx j.bound (wordsOf b) = false → elemRun h j l q b s = { s := s, st := stConflict })) ∧
  (∀ (d : Bytes) (e : JobEnd), (e.grids = [] ∨ e.grids.length = 3) → (jobRecord d e).length = 64)

/-- ENGINE_JOB hands the descriptor it reads to the queue of the engine of its holder; a holder that is fenced is UNAVAILABLE, a descriptor
that cannot be read gives its command that status (R204, R364, R371). MIGRATE sends the job's bytes to the peer as one message, and ends when the
message ends; LOAD_SHARD begins the load its manifest describes: from parity when its destination holds coded state that is current, else from its
sources (R222, R224, R226). -/
def Obligations.JobsHandedOut : Prop :=
  (∀ (s : State) (q h x : Nat) (b d : Bytes), Starts s q b → cOp b = 0x21 → h = leAt b 24 1 → (s.holder h).resetting = false →
    x = (s.queue q).ctx → readFor (beginCmd q b s) x (leAt b 32 8) 160 = .ok d → fenced s h = false →
    workConflict (beginCmd q b s) x (jProg d = 0x60 || jProg d = 0x50 || jProg d = 0x21) = false →
    exec (.engineJob q) s = .next ((acceptCmd q (s.nextIdx q) (beginCmd q b s)).modHolder h (fun w => { w with
      queue := w.queue ++ [{ queue := q, cmd := s.nextIdx q, ctx := x, desc := d, recAt := leAt b 40 8,
                             bound := if cBound b then some (cEpoch b, cStep b) else none, lc := ((beginCmd q b s).ctx x).lc }] }))) ∧
  (∀ (s : State) (q h : Nat) (b : Bytes), Starts s q b → cOp b = 0x21 → h = leAt b 24 1 → (s.holder h).resetting = false →
    (∀ d, readFor (beginCmd q b s) (s.queue q).ctx (leAt b 32 8) 160 = .ok d → fenced s h = true →
      workConflict (beginCmd q b s) (s.queue q).ctx (jProg d = 0x60 || jProg d = 0x50 || jProg d = 0x21) = false →
      exec (.engineJob q) s = .next (finishCmd q (s.nextIdx q) stOff 0 0 (beginCmd q b s))) ∧
    (∀ e, readFor (beginCmd q b s) (s.queue q).ctx (leAt b 32 8) 160 = .error e → fenced s h = false →
      workConflict (beginCmd q b s) (s.queue q).ctx false = false →
      exec (.engineJob q) s = .next (finishCmd q (s.nextIdx q) e 0 0 (noteRead e (leAt b 32 8) 160 (beginCmd q b s))))) ∧
  (∀ (s : State) (h : Nat) (j : EngJob) (l : List Stream) (q : QCtl) (b : Bytes) (a o : Stream), s.Serving → EngineFree s h →
    nextJob (s.holder h) = some j → jProg j.desc = 0x51 → jobChecks s h j = .ok (l, q, b) → streamAt l 0 = some a → streamAt l 7 = some o →
    readTo s a.base (jCount j.desc) = jCount j.desc →
    let t := sendWrite (startJob h j s) (some j.ctx) 2 (Config.migrateDev j.desc b) o.base (peek s a.base (jCount j.desc)) (.migrate h)
      ((startJob h j s).queue j.queue).budget
    (t.ended = [] → exec (.migrate h) s = .next t) ∧ ((t.holder h).running = some j → ∀ st, migrateEnded h st t =
      endJob h j { s := t, st := st, written := if st = stOk then jCount j.desc else 0 })) ∧
  (∀ (s : State) (h : Nat) (j : EngJob) (l : List Stream) (q : QCtl) (b cs : Bytes) (o : Stream), s.Serving → EngineFree s h →
    nextJob (s.holder h) = some j → jProg j.desc = 0x60 → jobChecks s h j = .ok (l, q, b) → streamAt l 7 = some o →
    manOk b (jCount j.desc) = true → loadMay (startJob h j s) h j b o = true →
    readMem (startJob h j s) (jParam j.desc + 128) (8 * chunkCount (leAt b 64 8)) = some cs →
    let t := startLoad h ((startJob h j s).modHolder h (fun k => { k with load := some {
      job := j, base := o.base, len := leAt b 64 8, digest := slice b 0 64,
      crcs := (List.range (chunkCount (leAt b 64 8))).map (fun i => leAt cs (8 * i) 8), srcs := manSrcs b,
      timeout := if leAt b 72 4 = 0 then s.plate.shardTo else leAt b 72 4 } }))
    t.ended = [] → exec (.loadShard h) s = .next t) ∧
  (∀ (s : State) (h : Nat) (v : ShardLoad), (s.holder h).load = some v → startLoad h s =
    if canHeal s v.job.ctx v.base v.len then heal v.job.ctx v.base v.len (modLoad h (fun w => { w with heal := true }) s) else pushLoad h s) ∧
  (∀ (s : State) (h : Nat) (v : ShardLoad), s.Serving → (s.holder h).load = some v →
    let t := endLoad h stShard (((List.range v.crcs.length).find? (fun i => !v.passed.contains i)).getD 0) s
    t.ended = [] → exec (.shardTimeout h) s = .next t)

/-- SHARD_RECHECK: a registered chunk whose CRC is what its manifest says leaves everything as it was; one that differs is recorded in the fault
log and its restoration begins, and the epochs that hold it are restoring (R203, R230). -/
def Obligations.ChunksRechecked : Prop :=
  (∀ (s : State) (h i : Nat) (c : Chunk), s.Serving → s.ended = [] → (s.holder h).chunks[i]? = some c →
    engMay s c.ctx c.addr c.len false false false (some h) = true → (s.holder h).restores.any (fun r => r.chunk.addr = c.addr) = false →
    crcIs s c.addr c.len c.crc = true → exec (.shardRecheck h i) s = .next s) ∧
  (∀ (s : State) (h i : Nat) (c : Chunk), s.Serving → (s.holder h).chunks[i]? = some c →
    engMay s c.ctx c.addr c.len false false false (some h) = true → (s.holder h).restores.any (fun r => r.chunk.addr = c.addr) = false →
    unreadable s c.addr c.len = false → crc64 (peek s c.addr c.len) ≠ c.crc →
    let t := startRestore h c.addr (markRestoring c.ctx ((digestRecord 1 c.idx h 50 c.ctx 0 s).modHolder h (fun k => { k with
      restores := k.restores ++ [{ chunk := c, pos := if c.srcs.isEmpty then 0 else c.idx % c.srcs.length }] })))
    t.ended = [] → exec (.shardRecheck h i) s = .next t) ∧
  (∀ (s : State) (h i : Nat) (c : Chunk), s.Serving → s.ended = [] → (s.holder h).chunks[i]? = some c →
    engMay s c.ctx c.addr c.len false false false (some h) = false →
    exec (.shardRecheck h i) s = .next (s.modHolder h (fun k => { k with chunks := k.chunks.erase c })))

/-- A memory request: one without the right is answered PERMISSION and changes nothing else; a read answers the bytes that stand there; a
write replaces exactly its bytes, and a read after it gives them; a poisoned pair answers MEM_UNCORRECTABLE; of the firmware tables the operator
reads the crash area and the profile buffer, and nobody but firmware anything else (R190, R199 to R201, R413, R547). -/
def Obligations.MemoryRequests : Prop :=
  (∀ (s : State) (r : Requester) (write : Bool) (a n : Nat) (data : Bytes) (tag : TagRead), s.Serving →
    (requestStatus s r write a (if write then data.length else n)).1 = stPerm →
    exec (.holderAccess r write a n data tag) s = .next (s.emit (.data r a stPerm []))) ∧
  (∀ (s : State) (r : Requester) (a n : Nat) (tag : TagRead), s.Serving → requestStatus s r false a n = (stOk, none) →
    unreadable s a n = false → (tag.first = [] ∨ checkedPairs s false a n = []) →
    exec (.holderAccess r false a n [] tag) s = .next (s.emit (.data r a stOk (peek s a n)))) ∧
  (∀ (s : State) (r : Requester) (a : Nat) (data : Bytes) (tag : TagRead), s.Serving → memWf memFill s.mem = true →
    requestStatus s r true a data.length = (stOk, none) → partPoison s a data.length = [] → (tag.first = [] ∨ checkedPairs s true a data.length = []) →
    ∃ t, exec (.holderAccess r true a 0 data tag) s = .next t ∧ peek t a data.length = data ∧
      (∀ i, (i < a ∨ a + data.length ≤ i) → memGet memFill t.mem i = memGet memFill s.mem i) ∧
      t.sent = s.sent ++ [.data r a stOk []] ∧ { t with mem := s.mem, poison := s.poison, cells := s.cells, sent := s.sent } = s) ∧
  (∀ (s : State) (r : Requester) (a n : Nat) (tag : TagRead), s.Serving → requestStatus s r false a n = (stOk, none) →
    unreadable s a n = true → (tag.first = [] ∨ checkedPairs s false a n = []) →
    exec (.holderAccess r false a n [] tag) s = .next ((notePoison s a n).emit (.data r a stMem []))) ∧
  (∀ (s : State) (dev : Nat) (write : Bool) (a n : Nat), (requestStatus s (.peer dev) write a n).1 = stPerm) ∧
  (∀ (s : State) (write : Bool) (a n h : Nat), areaOf s a = .firmware h → ∀ r, r ≠ .firmware →
    (r ≠ .operator ∨ write = true ∨ operatorTables s a n = false) → (requestStatus s r write a n).1 = stPerm) ∧
  (∀ (s : State) (a n h : Nat), areaOf s a = .firmware h → areaOf s (a + n - 1) = .firmware h → 0 < n → fenced s h = false →
    operatorTables s a n = true → requestStatus s .operator false a n = (stOk, none))

/-- SCRUB_PATROL checks the next pair of its holder and moves on: by what the tags of the pair say of the reads, a pair found beyond correction
joins the poisoned pairs, one bit is corrected and counted, a second read that agrees is counted; a poisoned pair is counted; after the last pair
the pass is counted and begins again (R197, R200, R202). -/
def Obligations.ScrubPatrol : Prop :=
  (∀ (s : State) (h : Nat) (tag : TagRead), s.Serving → (s.holder h).patrolEn = true → fenced s h = false → (s.holder h).resetting = false →
    ((8 ≤ h ∧ h ≤ 15) ∨ h = 19) → (s.holder h).nextPair + 1 < (patrolCounts h).1 + (patrolCounts h).2 →
    (s.poison.contains (patrolPair h (s.holder h).nextPair) = false → exec (.scrubPatrol h tag) s = .next
      ((tagCheck (patrolPair h (s.holder h).nextPair) none tag s).modHolder h (fun w => { w with nextPair := (s.holder h).nextPair + 1 }))) ∧
    (s.poison.contains (patrolPair h (s.holder h).nextPair) = true → exec (.scrubPatrol h tag) s = .next
      (((notePoison s (128 * patrolPair h (s.holder h).nextPair) 128).modHolder h (fun w => { w with poisoned := bump w.poisoned 1 })).modHolder h
        (fun w => { w with nextPair := (s.holder h).nextPair + 1 })))) ∧
  (∀ (s : State) (h p : Nat) (x : Option Nat) (tag : TagRead), pairHolder s p = some h → match tagRow s p tag with
    | .agrees => tagCheck p x tag s = s
    | .poisoned => tagCheck p x tag s = s
    | .transient => tagCheck p x tag s = s.modHolder h (fun k => { k with transient := bump k.transient 1 })
    | .corrected => (tagCheck p x tag s).mem = s.mem ∧ (tagCheck p x tag s).poison = s.poison ∧
        ((tagCheck p x tag s).holder h).corrected = bump (s.holder h).corrected 1
    | .lost => p ∈ (tagCheck p x tag s).poison ∧ (tagCheck p x tag s).mem = s.mem ∧
        ∀ q, q ≠ p → (q ∈ (tagCheck p x tag s).poison ↔ q ∈ s.poison)) ∧
  (∀ (s : State) (p : Nat) (tag : TagRead), tag.first ≠ [] →
    let word := fun (b : Bytes) => leAt b 128 8
    let first := flipBits (pairCipher s p ++ le 8 (storedWord s p)) tag.first
    let again := flipBits (pairCipher s p ++ le 8 (storedWord s p)) tag.again
    (tagRow s p tag = .agrees ↔ word first = pairTag s p (first.take 128)) ∧
    (tagRow s p tag = .transient ↔ word first ≠ pairTag s p (first.take 128) ∧ word first ≠ pairTag s p (first.take 128) ^^^ poisonMark ∧
      word again = pairTag s p (again.take 128)) ∧
    (tagRow s p tag = .corrected ↔ word first ≠ pairTag s p (first.take 128) ∧ word first ≠ pairTag s p (first.take 128) ^^^ poisonMark ∧
      word again ≠ pairTag s p (again.take 128) ∧ ∃ i, i < 1088 ∧ word (flipBits again [i]) = pairTag s p ((flipBits again [i]).take 128) ∧
        ∀ k, k < 1088 → word (flipBits again [k]) = pairTag s p ((flipBits again [k]).take 128) → k = i)) ∧
  (∀ (s : State) (h : Nat), s.Serving → (s.holder h).patrolEn = true → fenced s h = false → (s.holder h).resetting = false →
    ((8 ≤ h ∧ h ≤ 15) ∨ h = 19) → (s.holder h).nextPair + 1 = (patrolCounts h).1 + (patrolCounts h).2 →
    s.poison.contains (patrolPair h (s.holder h).nextPair) = false →
    ∃ t, exec (.scrubPatrol h {}) s = .next t ∧ t.holder h = { s.holder h with nextPair := 0, passes := bump (s.holder h).passes 1 } ∧
      (∀ g, g ≠ h → t.holder g = s.holder g) ∧ t.mem = s.mem)

/-! ## Collectives, doorbells, mailboxes, registers -/

/-- COLLECTIVE starts the collective that its descriptor names and takes the next instance number of its group and op; a descriptor that cannot
be read, is illegal or asks for memory out of its rights completes with that status, which its descriptor's bytes 112 to 127 take too (R302 to R304,
R364). COLLECTIVE DATA gives its part to the collective of the context; a malformed one is refused (R305, R307, R546). Contributions join in any
order (R306). -/
def Obligations.Collectives : Prop :=
  (∀ (s : State) (q x : Nat) (b d : Bytes) (f : List (Nat × Nat) × List (Nat × Nat)), Starts s q b → cOp b = 0x22 → x = (s.queue q).ctx →
    let u := beginCmd q b s
    readFor u x (leAt b 32 8) 128 = .ok d → collForm u x d = some f → fenced u (collDie u (leAt b 24 1)) = false → kOp d ≠ 9 →
    workConflict u x false = false → mayAll u x false true f.1 = true → mayAll u x true false f.2 = true → anyBad u f.1 = false →
    let t := beginColl x (some (q, s.nextIdx q)) d (leAt b 32 8) (collDie u (leAt b 24 1)) (acceptCmd q (s.nextIdx q) u)
    exec (.collective q) s = .next (deliver 65536 t)) ∧
  (∀ (s : State) (q x : Nat) (b d : Bytes), Starts s q b → cOp b = 0x22 → x = (s.queue q).ctx → s.ended = [] →
    let u := beginCmd q b s
    readFor u x (leAt b 32 8) 128 = .ok d → collForm u x d = none → fenced u (collDie u (leAt b 24 1)) = false → kOp d ≠ 9 →
    workConflict u x false = false → exec (.collective q) s = .next (finishCmd q (s.nextIdx q) stBad 0 0
      (writeEnd x (leAt b 32 8) (collDie u (leAt b 24 1)) stBad 0 0 u).1)) ∧
  (∀ (s : State) (x g op : Nat), nextInst (bumpInst x g op s) x g op = nextInst s x g op + 1 ∧
    (∀ y h o, (y, h, o) ≠ (x, g, op) → nextInst (bumpInst x g op s) y h o = nextInst s y h o)) ∧
  (∀ (s : State) (p : FjPkt), s.Serving → p.hdr.cls = 1 → p.hdr.ty = 1 → pktRefusal (takeRx s p) p = none →
    let c := cdataOf p
    let u := takeRx s p
    ((collGroup u p.hdr.ctx c.group = none ∨ cdataOk u p.hdr.ctx c = false) → s.ended = [] → exec (.collectiveData p) s = .next (sendNack u p 6)) ∧
    (collGroup u p.hdr.ctx c.group ≠ none → cdataOk u p.hdr.ctx c = true →
      (((c.op ≠ 1 ∧ c.op ≠ 2 ∧ c.op ≠ 6) ∨ c.fails = true) → notYet u p.hdr.ctx c = false →
        exec (.collectiveData p) s = .next (deliver 65536 (takePart p.hdr.ctx c u))) ∧
      ((c.op = 1 ∨ c.op = 2 ∨ c.op = 6) → c.fails = false →
        (∀ k, findColl u p.hdr.ctx c.op c.group c.inst = some k → c.op = 6 → c.rows = kRows k.desc ∧ c.cols = kCols k.desc) →
        ((List.range c.n).all (fun i => reducesHere u p.hdr.ctx c.op c.group (c.first + i))) = true →
        (findColl u p.hdr.ctx c.op c.group c.inst).isSome = true → redRoom u p.hdr.ctx c = true →
        exec (.collectiveData p) s = .next (deliver 65536 (offerAll (redTake p.hdr.ctx c u)))))) ∧
  (∀ a b c : Nat, nibJoin a b = nibJoin b a ∧ nibJoin (nibJoin a b) c = nibJoin a (nibJoin b c))

/-- A doorbell within range moves P of its queue, one out of range changes no queue, a disabled queue ignores it; a semaphore doorbell adds to its
semaphore; HUB_Q_DB and HUB_Q_CCONS do the same by register, for the firmware, the operator and units of the owning context alone
(R312, R361, R370, R385, R540). -/
def Obligations.Doorbells : Prop :=
  (∀ (s : State) (q v : Nat), (s.queue q).defined = true → (s.queue q).enabled = true →
    (dbAccept (s.queue q) v = true → ringOk s q = true → ringDoorbell q v s = s.modQueue q (fun w => { w with p := BitVec.ofNat 32 v })) ∧
    (dbAccept (s.queue q) v = false → (ringDoorbell q v s).queues = s.queues)) ∧
  (∀ (s : State) (q v : Nat), (s.queue q).enabled = false → ringDoorbell q v s = s) ∧
  (∀ (k : Queue) (v : Word), dbAccept k v.toNat = true ↔ 1 ≤ (v - k.p).toNat ∧ (v - k.p).toNat ≤ k.size) ∧
  (∀ (s : State) (p : FjPkt) (session : Option Nat), s.Serving → isCtl p 2 = true → leAt p.payload 2 2 = s.plate.devIndex →
    p.payload.length = 16 → leAt (p.payload.drop 8) 2 2 = 0 →
    let f := leAt (p.payload.drop 8) 0 2
    let v := leAt (p.payload.drop 8) 4 4
    let u := takeRx s p
    pktRefusal u p = none →
    (f < 16384 → (u.queue f).defined = true → (u.queue f).ctx = p.hdr.ctx → boundOk u p.hdr.ctx (viaHost u p) session = true →
      exec (.doorbell p session) s = .next (ringDoorbell f v u)) ∧
    (f / 16384 = 2 → f % 16384 < 4095 → exec (.semaphoreDoorbell p session) s = .next (semAdd p.hdr.ctx (f % 16384) v u))) ∧
  (∀ (s : State) (r : Requester) (q : Nat) (v : Word), s.Serving → q < 16384 →
    (queueRight s r q = true → exec (.hubQDb r q v) s = .next (csrAnswer r (queueRegAt q 0) stOk 0 (ringDoorbell q v.toNat s)) ∧
      exec (.hubQCcons r q v) s = .next (csrAnswer r (queueRegAt q 1) stOk 0 (writeCcons q v.toNat s))) ∧
    (queueRight s r q = false → exec (.hubQDb r q v) s = .next (csrAnswer r (queueRegAt q 0) stPerm 0 s) ∧
      exec (.hubQCcons r q v) s = .next (csrAnswer r (queueRegAt q 1) stPerm 0 s))) ∧
  (∀ (s : State) (q : Nat) (v : Word), writeCcons q v.toNat s =
    if (v - (s.queue q).c).toNat ≤ ((s.queue q).q - (s.queue q).c).toNat then s.modQueue q (fun w => { w with c := v }) else s)

/-- The mailboxes: a message from the channel's own sender fills a free slot, one to a full slot is dropped, anyone else's is refused; a read takes
the reply and frees the slot; RING_PUT writes its commands to the ring and rings the doorbell; READ_CPL answers completions; the bridge relays
between its colony's host and members alone (R314 to R317, R372 to R374, R387). -/
def Obligations.Mailboxes : Prop :=
  (∀ (s : State) (ch : Nat) (msg : Bytes) (session : Option Nat), s.Serving → s.ended = [] → ch < 64 → (ch = 63 && lendingChannel s) = false →
    (isSender s ch .fleet = true → 8 ≤ msg.length → msg.length ≤ 256 → leAt msg 2 2 ≤ 248 → mboxOff s ch = false →
      ((s.mbox ch).inFull = false → exec (.mboxWrite .fleet ch msg session) s = .next (s.modMbox ch (fun m => { m with
        inb := slice msg 0 256, inFull := true, src := 0x8000, session := session }))) ∧
      ((s.mbox ch).inFull = true → exec (.mboxWrite .fleet ch msg session) s = .next s)) ∧
    (isSender s ch .fleet = false → exec (.mboxWrite .fleet ch msg session) s = .next (answer 372 stPerm [] s))) ∧
  (∀ (s : State) (ch : Nat), s.Serving → s.ended = [] → ch < 64 → (ch = 63 && lendingChannel s) = false →
    (isSender s ch .operator = true → mboxOff s ch = false →
      exec (.mboxRead .operator ch) s = .next (answer 374 stOk (outMessage s ch) (s.modMbox ch (fun m => { m with outFull := false })))) ∧
    (isSender s ch .operator = false → exec (.mboxRead .operator ch) s = .next (answer 372 stPerm [] s))) ∧
  (∀ (s : State) (r : Requester) (ch : Nat), s.Serving → ch < 64 → mboxRight s r ch = true → mboxOff s ch = false →
    ((s.mbox ch).inFull = false → exec (.hubMboxSend r ch) s = .next (csrAnswer r (mboxRegAt ch 0x204) stOk 0
      (postInbound ch .operator (s.mbox ch).inb none s))) ∧
    ((s.mbox ch).inFull = true → ∃ t, exec (.hubMboxSend r ch) s = .next t ∧ t.mbox ch = { s.mbox ch with overrun := true }) ∧
    exec (.hubMboxTake r ch) s = .next (csrAnswer r (mboxRegAt ch 0x208) stOk
      (BitVec.ofNat 32 (if (s.mbox ch).outFull then leAt (s.mbox ch).outb 2 2 else 0)) (s.modMbox ch (fun m => { m with outFull := false })))) ∧
  (∀ (s : State) (ch q n : Nat), s.Serving → readsNow s ch 1 = true → q = leAt ((s.mbox ch).inb.drop 8) 0 2 → n = leAt ((s.mbox ch).inb.drop 8) 2 1 →
    1 ≤ n → n ≤ 3 → leAt (s.mbox ch).inb 2 2 = 8 + 64 * n → leAt (s.mbox ch).inb 1 1 = 0 → leAt ((s.mbox ch).inb.drop 8) 3 5 = 0 →
    entitled s (s.mbox ch) q = true →
    (((s.queue q).p - (s.queue q).n).toNat + n > (s.queue q).size → exec (.ringPut ch) s = .next (postReply ch stConflict [] s)) ∧
    (((s.queue q).p - (s.queue q).n).toNat + n ≤ (s.queue q).size → ch ≠ 0 →
      (List.range n).all (fun i => qMay s q (cmdAt (s.queue q) ((s.queue q).p.toNat + i)) 64 true false) = true →
      (ringWrites s ch q n).2 = true →
      exec (.ringPut ch) s = .next (postReply ch stOk [] (ringDoorbell q (((s.queue q).p.toNat + n) % 2 ^ 32) (ringWrites s ch q n).1)))) ∧
  (∀ (s : State) (ch q n start : Nat) (cs : List Bytes), s.Serving → readsNow s ch 2 = true → q = leAt ((s.mbox ch).inb.drop 8) 0 2 →
    n = leAt ((s.mbox ch).inb.drop 8) 2 1 → start = leAt ((s.mbox ch).inb.drop 8) 4 4 → 1 ≤ n → n ≤ 15 → leAt (s.mbox ch).inb 2 2 = 8 →
    leAt (s.mbox ch).inb 1 1 = 0 → leAt ((s.mbox ch).inb.drop 8) 3 1 = 0 → entitled s (s.mbox ch) q = true →
    (List.range n).map (fun i => qRead s q ((s.queue q).cpl + 16 * ((start + i) % (s.queue q).size)) 16) = cs.map .ok →
    exec (.readCpl ch) s = .next (postReply ch stOk cs.flatten s)) ∧
  (∀ (s : State) (p : FjPkt), s.Serving → p.hdr.cls = 0 → p.hdr.ty = 1 → leAt p.payload 2 2 ≠ s.plate.devIndex → s.plate.bridge = s.plate.devIndex →
    let u := takeRx s p
    let target := leAt p.payload 2 2
    (p.hdr.src = hostDev s → target / 64 = s.plate.devIndex / 64 → target < 0x4000 →
      exec (.relay p) s = .next (deliver 65536 (relayOn p target (.relay p.hdr.src (leAt p.payload 4 4)) u))) ∧
    (p.hdr.src < 0x4000 → target ≠ hostDev s → s.ended = [] → exec (.relay p) s = .next (sendNack u p 5)))

/-- Registers: an access that R540 denies is answered with its status and changes nothing; a read answers the register's value and clears its
read-to-clear fields; reading the nanoseconds latches the seconds; a write has its register's effect, in range values only, and is answered;
the operator alone sets the power cap; an unmapped register reads zero (R13, R319, R534, R539, R540). -/
def Obligations.Registers : Prop :=
  (∀ (s : State) (r : Requester) (a size st : Nat) (v : Word), s.pwr.st.isDark = false → csrCheck s r a size = .deny st →
    exec (.registerReadClear r a size) s = .next (csrAnswer r a st 0 s) ∧ exec (.registerWrite r a size v) s = .next (csrAnswer r a st 0 s)) ∧
  (∀ (s : State) (r : Requester) (a size o : Nat) (b : Block), s.pwr.st.isDark = false → csrCheck s r a size = .go b o → readShut s r b o = false →
    (∀ d, b ≠ .lnk d) → exec (.registerReadClear r a size) s = .next (csrAnswer r a stOk (BitVec.ofNat 32 (readReg s b o)) (clearReg b o s))) ∧
  (∀ (s : State) (r : Requester) (l a : Nat), s.pwr.st.isDark = false → l < 2 → a = csrBase + 0x800000 + 0x80000 * l + 0x24 → csrRight r = true →
    dieOn s (16 + l) = true →
    exec (.lnkTimeNsRead r l) s = .next (csrAnswer r a stOk (BitVec.ofNat 32 (fabricNs s % 1000000000))
      (s.modLink (16 + l) (fun k => { k with secLatch := BitVec.ofNat 48 (fabricNs s / 1000000000) })))) ∧
  (∀ (s : State) (r : Requester) (a size o : Nat) (b : Block) (v : Word), s.pwr.st.isDark = false → csrCheck s r a size = .go b o →
    ownRow b o = false →
    (writeShut s r b o = true → exec (.registerWrite r a size v) s = .next (csrAnswer r a stPerm 0 s)) ∧
    (writeShut s r b o = false → b = .hub → exec (.registerWrite r a size v) s = .next (csrAnswer r a stOk 0 (writeHub r o v s))) ∧
    (b = .fw → exec (.registerWrite r a size v) s = .next (csrAnswer r a stOk 0 (writeFw o v s))) ∧
    (b = .boot ∨ b = .sec → exec (.registerWrite r a size v) s = .next (csrAnswer r a stOk 0 s)) ∧
    (∀ c, b = .cel c → exec (.registerWrite r a size v) s = .next (csrAnswer r a stOk 0 s)) ∧
    (∀ h, b = .mem h → exec (.registerWrite r a size v) s = .next (csrAnswer r a stOk 0 (writeMemReg h o v s))) ∧
    (∀ d, b = .lnk d → exec (.registerWrite r a size v) s = .next (csrAnswer r a stOk 0 (writeLnk d o v s))) ∧
    (writeShut s r b o = false → b = .pwr → exec (.registerWrite r a size v) s = .next (csrAnswer r a stOk 0 (writePwr r o v s)))) ∧
  (∀ (s : State) (v : Word), (1000 ≤ v.toNat % 65536 ∧ v.toNat % 65536 ≤ 3200 → readReg (writePwr .operator 0x10 v s) .pwr 0x10 = v.toNat % 65536) ∧
    (¬ (1000 ≤ v.toNat % 65536 ∧ v.toNat % 65536 ≤ 3200) → writePwr .operator 0x10 v s = s) ∧ (∀ r, r ≠ .operator → writePwr r 0x10 v s = s)) ∧
  (∀ (s : State) (c : Nat), readReg (clearReg (.cel c) 4 s) (.cel c) 4 = 0 ∧ readReg (clearReg (.cel c) 8 s) (.cel c) 8 = 0 ∧
    readReg (clearReg (.cel c) 12 s) (.cel c) 12 = 0 ∧ readReg (clearReg .hub 0xC08 s) .hub 0xC08 = 0 ∧ readReg (clearReg .hub 0xC44 s) .hub 0xC44 = 0 ∧
    readReg (clearReg .fw 0x104 s) .fw 0x104 = 0 ∧ readReg (clearReg .pwr 8 s) .pwr 8 = s.pwr.watts.toNat * 65536) ∧
  (∀ (s : State) (b : Block) (o : Nat), (clearReg b o s).mem = s.mem ∧ (clearReg b o s).queues = s.queues ∧ (clearReg b o s).ctxs = s.ctxs ∧
    (clearReg b o s).pwr.st = s.pwr.st)

/-! ## Fjorum -/

/-- Flows: OPEN opens the receiving flow and is answered; OPEN_ACK opens the sending flow, whose queued messages go; an older incarnation is
dropped; CLOSE and CLOSE_ACK close; OPEN is sent again five times and then the messages complete TIMEOUT, as they do after 10 s held in
OPENING; a link die with 65,536 flows takes no other one, and a host opens none but CONTROL to its bridge (R293, R294, R314, R353; that the
message completes STATE_CONFLICT and the OPEN is answered NO_BUFFER, and the code PERMISSION of a host, are the model's choices: log entries 86
and 85). -/
def Obligations.FlowsOpenAndClose : Prop :=
  (∀ (s : State) (p : FjPkt) (inc : Nat), s.Serving → inc = leAt p.ext 0 4 → Current s p inc →
    let u := met s p inc
    let k := keyOf p
    (p.hdr.ty = 4 → hostRefusal s p = none → rcvFull s k = false →
      exec (.fjOpen p) s = .next (deliver 65536 (sendBare (putRcv u k { isOpen := true, inc := inc }) k 5 (incExt u) []))) ∧
    (p.hdr.ty = 5 → (sndFlow u k).st = .opening →
      exec (.openAck p) s = .next (deliver 65536 (pumpAll (putSnd u k { sndFlow u k with st := .isOpen, held := false, retries := 0 }) k)))) ∧
  (∀ (s : State) (p : FjPkt), s.Serving → leAt p.ext 0 4 < (s.peer p.hdr.src).inc → (s.peer p.hdr.src).st ≠ .lost → s.ended = [] →
    (p.hdr.ty = 4 → hostRefusal s p = none → rcvFull s (keyOf p) = false →
      exec (.fjOpen p) s = .next (countDrop (peerDie s p.hdr.src) 8 (takeRx s p))) ∧
    (p.hdr.ty = 5 → exec (.openAck p) s = .next (countDrop (peerDie s p.hdr.src) 8 (takeRx s p)))) ∧
  (∀ (s : State) (p : FjPkt), s.Serving → s.ended = [] → p.hdr.ty = 4 →
    (∀ e, hostRefusal s p = some e → exec (.fjOpen p) s = .next (sendNack (takeRx s p) p e)) ∧
    (hostRefusal s p = none → rcvFull s (keyOf p) = true → exec (.fjOpen p) s = .next (sendNack (takeRx s p) p 4)) ∧
    (isHost p.hdr.src = false → hostRefusal s p = none) ∧
    (isHost p.hdr.src = true → s.plate.bridge = s.plate.devIndex → p.hdr.src = hostDev s → p.hdr.cls = 0 → hostRefusal s p = none) ∧
    (isHost p.hdr.src = true → s.plate.bridge = s.plate.devIndex → p.hdr.src = hostDev s → p.hdr.cls ≠ 0 → hostRefusal s p = some 6) ∧
    (isHost p.hdr.src = true → (s.plate.bridge ≠ s.plate.devIndex ∨ p.hdr.src ≠ hostDev s) → hostRefusal s p = some 5)) ∧
  (∀ (s : State) (k : FlowKey) (u : MsgUse) (b : Nat) (l : List FjPkt), (s.peer k.peer).st ≠ .lost → (sndFlow s k).st = .closed →
    sndFull s k = true → sendMsg s k u b l = endMsg s u stConflict) ∧
  (∀ (s : State) (p : FjPkt), s.Serving → (s.peer p.hdr.src).st ≠ .lost →
    let u := heard p.hdr.src (takeRx s p)
    let k := keyOf p
    (p.hdr.ty = 6 → (rcvFlow u k).isOpen = true → exec (.fjClose p) s = .next (deliver 65536 (sendBare (putRcv u k {}) k 7 [] []))) ∧
    (p.hdr.ty = 6 → (rcvFlow u k).isOpen = false → exec (.fjClose p) s = .next (deliver 65536 (sendNack u p 1))) ∧
    (p.hdr.ty = 7 → (sndFlow u k).st = .draining → (sndFlow u k).una = [] → (sndFlow u k).unsent = [] →
      exec (.closeAck p) s = .next (deliver 65536 (putSnd u k { sndFlow u k with st := .closed })))) ∧
  (∀ (s : State) (k : FlowKey), s.Serving →
    ((sndFlow s k).st = .isOpen → exec (.flowClose k) s = .next (deliver 65536 (closeIfDone k (putSnd s k { sndFlow s k with st := .draining })))) ∧
    ((sndFlow s k).st = .opening → (sndFlow s k).held = false → (sndFlow s k).retries < 5 →
      exec (.openRetry k) s = .next (deliver 65536 (sendBare (putSnd s k { sndFlow s k with retries := (sndFlow s k).retries + 1 }) k 4 (incExt s) []))) ∧
    ((sndFlow s k).st = .opening → (sndFlow s k).held = false → 5 ≤ (sndFlow s k).retries →
      exec (.openRetry k) s = .next (deliver 65536 (failFlow s k stTimeout))) ∧
    ((sndFlow s k).st = .opening → (sndFlow s k).held = true → exec (.openingWaitTimeout k) s = .next (deliver 65536 (failFlow s k stTimeout)))) ∧
  (∀ (s : State) (k : FlowKey) (st : Nat), (sndFlow (failFlow s k st) k).st = .closed ∧ (sndFlow (failFlow s k st) k).msgs = [] ∧
    (sndFlow (failFlow s k st) k).una = [] ∧ (∀ j, j ≠ k → sndFlow (failFlow s k st) j = sndFlow s j) ∧ (failFlow s k st).mem = s.mem ∧
    (∀ m ∈ (sndFlow s k).msgs, (∀ v, m.use ≠ .vote v) → m.use ≠ .none → m.use ≠ .reply → (m.use, st) ∈ (failFlow s k st).ended))

/-- Data: a WRITE that a region grants puts its payload where it belongs and nowhere else; one that none grants, or whose lengths do not add up,
is refused and writes nothing, and its message is not delivered; READ_REQ sends the bytes back (R290 to R292, R296); ACK retires what it
acknowledges; NACK marks a packet for resending or ends its message with a status; the timers resend, halve the rate, acknowledge and raise the
rate (R296, R298, R299). -/
def Obligations.DataMoves : Prop :=
  (∀ (s : State) (p : FjPkt), s.Serving → s.ended = [] → memWf memFill s.mem = true → isBulk p 0 = true → pktRefusal (takeRx s p) p = none →
    let a := leAt p.ext 8 8
    let n := leAt p.ext 4 4
    let o := p.hdr.msgOff
    let u := takeRx s p
    (o + p.payload.length ≤ n → (p.hdr.last = true → o + p.payload.length = n) → memOff u a = false →
      (remoteMay u p.hdr.ctx a n true = false → exec (.bulkWrite p) s = .next (rejectWrite u p 5)) ∧
      (remoteMay u p.hdr.ctx a n true = true → NothingWaits u p.hdr.ctx a → (p.hdr.last = true → earlierOpen u p = false) →
        (rcvFlow u (keyOf p)).broken = [] → partPoison s (a + o) p.payload.length = [] →
        exec (.bulkWrite p) s = .next (writeMem u (a + o) p.payload).1 ∧
        (∀ i, (i < a + o ∨ a + o + p.payload.length ≤ i) → memGet memFill (writeMem u (a + o) p.payload).1.mem i = memGet memFill s.mem i) ∧
        peek (writeMem u (a + o) p.payload).1 (a + o) p.payload.length = p.payload)) ∧
    (n < o + p.payload.length → exec (.bulkWrite p) s = .next (rejectWrite u p 6))) ∧
  (∀ (s : State) (p : FjPkt) (x a n code : Nat), code ≠ 3 → code ≠ 4 →
    (p.hdr.last = false → ∃ t, rejectWrite s p code = sendNack t p code ∧ p.hdr.msgSeq ∈ (rcvFlow t (keyOf p)).broken ∧ t.mem = s.mem) ∧
    (p.hdr.msgSeq ∈ (rcvFlow s (keyOf p)).broken → (endWrite p x a n s).mem = s.mem ∧ (endWrite p x a n s).holders = s.holders ∧
      (endWrite p x a n s).ctxs = s.ctxs)) ∧
  (∀ (s : State) (p : FjPkt), s.Serving → isBulk p 1 = true → pktRefusal (takeRx s p) p = none → p.payload = [] →
    let a := leAt p.ext 8 8
    let n := leAt p.ext 4 4
    let u := takeRx s p
    memOff u a = false → remoteMay u p.hdr.ctx a n false = true → unreadable u a n = false →
    exec (.readReq p) s = .next (deliver 65536 (sendWrite u (some p.hdr.ctx) p.hdr.cls p.hdr.src (leAt p.ext 16 8) (peek u a n) .reply))) ∧
  (∀ (s : State) (p : FjPkt), s.Serving → p.hdr.ty = 2 → (s.peer p.hdr.src).st ≠ .lost →
    let k := keyOf p
    (sndFlow s k).st = .isOpen → (sndFlow s k).unsent = [] → (sndFlow s k).msgs = [] → leAt p.ext 0 8 = 0 → s.ended = [] →
    ∃ t, exec (.ack p) s = .next t ∧ (sndFlow t k).una = (sndFlow s k).una.filter (fun q => !serLt q.hdr.psn p.hdr.ackPsn) ∧
      (sndFlow t k).st = .isOpen ∧ t.mem = s.mem ∧ t.queues = s.queues) ∧
  (∀ (s : State) (p q : FjPkt), s.Serving → p.hdr.ty = 3 → (s.peer p.hdr.src).st ≠ .lost →
    let k := keyOf p
    let u := heard p.hdr.src (takeRx s p)
    (sndFlow s k).una.find? (fun r => r.hdr.psn = p.hdr.psn) = some q →
    ((leAt p.ext 0 1 = 3 ∨ leAt p.ext 0 1 = 4) → (sndFlow s k).refused.contains p.hdr.psn = false →
      exec (.nack p) s = .next (deliver 65536 (putSnd u k { sndFlow s k with
        refused := (sndFlow s k).refused ++ [p.hdr.psn], sacked := (sndFlow s k).sacked.filter (fun q => q ≠ p.hdr.psn) }))) ∧
    ((leAt p.ext 0 1 = 2 ∨ (5 ≤ leAt p.ext 0 1 ∧ leAt p.ext 0 1 ≤ 9)) →
      exec (.nack p) s = .next (deliver 65536 (dropMsg u k q.hdr.msgSeq (nackStatus (leAt p.ext 0 1)))))) ∧
  (∀ (s : State) (k : FlowKey) (seq psn : Nat), s.Serving →
    (let f := sndFlow s k
     let qs := (f.una.filter (fun q => q.hdr.msgSeq = seq && f.refused.contains q.hdr.psn)).map (fun q => q.hdr.psn)
     exec (.nackResend k seq) s = .next (deliver 65536 (qs.foldl (fun t n => resendFree t k n)
       (putSnd s k { f with refused := f.refused.filter (fun q => !qs.contains q), sentAt := qs.foldl (fun l n => putKey l n s.clk) f.sentAt })))) ∧
    ((sndFlow s k).una.any (fun q => q.hdr.psn = psn) = true → (sndFlow s k).refused.contains psn = false →
      (sndFlow s k).sacked.contains psn = false → exec (.retransmissionTimeout k psn) s = .next (deliver 65536 (resend (putSnd s k { sndFlow s k with
        rto := min (2 * (sndFlow s k).rto) (s.plate.rtoMax * 1000), rate := max ((sndFlow s k).rate / 2) s.plate.rateMin, inc := 0 }) k psn))) ∧
    (0 < (rcvFlow s k).unacked → exec (.ackTimer k) s = .next (sendAck s k)) ∧
    ((sndFlow s k).st ≠ .closed → (sndFlow s k).eceSeen = true → exec (.rateIncrease k) s = .next (putSnd s k { sndFlow s k with eceSeen := false })) ∧
    ((sndFlow s k).st ≠ .closed → (sndFlow s k).eceSeen = false → exec (.rateIncrease k) s = .next (putSnd s k { sndFlow s k with
      alpha := (sndFlow s k).alpha - (sndFlow s k).alpha / 16, inc := min ((sndFlow s k).inc + 1) 255,
      rate := min ((sndFlow s k).rate + if min ((sndFlow s k).inc + 1) 255 > 5 then 5 * s.plate.ai else s.plate.ai)
        (flowSubRate s k (sndFlow s k)) })))

/-- Peers: a heartbeat records the peer's health, beat and markers; a peer unheard for three intervals is SUSPECT, for peer_timeout LOST, and the
work that waits for it ends; what a LOST peer sends is answered LOST_PEER; re-admission starts for the operator, its messages going without a
flow (the model's choice, log entry 103), and ends without admission at its timeout (R295, R297, R353, R354, R426). -/
def Obligations.PeersComeAndGo : Prop :=
  (∀ (s : State) (p : FjPkt) (inc : Nat), s.Serving → s.ended = [] → p.hdr.ty = 8 → inc = leAt p.payload 0 4 → Current s p inc →
    exec (.heartbeat p) s = .next ((met s p inc).modPeer p.hdr.src (fun q => { q with
      health := leAt p.payload 4 2, hstate := leAt p.payload 6 1, stalled := bit (leAt p.payload 7 1) 0, beat := leAt p.payload 8 4,
      markers := [markerOf (slice p.payload 16 16), markerOf (slice p.payload 32 16)].filter (fun m => m.jobTag ≠ 0) }))) ∧
  (∀ (s : State) (dev : Nat), s.Serving → ((s.peer dev).st = .up ∨ (s.peer dev).st = .suspect) →
    exec (.heartbeatTimer dev) s = .next (sendBare s { peer := dev, cls := 0, flow := 0 } 8 [] (beatBytes s)) ∧
    exec (.peerLost dev) s = .next (deliver 65536 (peerDown dev s))) ∧
  (∀ s : State, (waits s = [] → (beatBytes s).length = 48)) ∧
  (∀ (s : State) (dev : Nat), s.Serving → (s.peer dev).st = .up → exec (.peerSuspect dev) s =
    .next (ffEvent 0x0120 2 (peerDie s dev) dev none (le 4 (usOf (s.clk - (s.peer dev).seen))) (s.modPeer dev (fun p => { p with st := .suspect })))) ∧
  (∀ (s : State) (dev : Nat), (s.peer dev).st ≠ .lost → ((losePeer s dev).peer dev).st = .lost ∧ (losePeer s dev).mem = s.mem ∧
    (∀ e ∈ (losePeer s dev).rcv, e.1.peer ≠ dev) ∧ (∀ p ∈ (losePeer s dev).rxq, p.hdr.src ≠ dev) ∧
    (∀ k ∈ (s.snd.map (·.1)), k.peer = dev → (sndFlow (losePeer s dev) k).st = .closed)) ∧
  (∀ (s : State) (p : FjPkt), s.Serving → s.ended = [] → (s.peer p.hdr.src).st = .lost →
    (p.hdr.ty = 2 → exec (.ack p) s = .next (sendNack (takeRx s p) p 0xA)) ∧ (p.hdr.ty = 3 → exec (.nack p) s = .next (sendNack (takeRx s p) p 0xA)) ∧
    (p.hdr.ty = 6 → exec (.fjClose p) s = .next (sendNack (takeRx s p) p 0xA))) ∧
  (∀ (s : State) (dev code : Nat) (fields : List Nat) (data : Bytes), (s.peer dev).st = .lost → sendSpdm s dev code fields data =
    sendBare s { peer := dev, cls := 0, flow := 0 } 1 [] (le 2 7 ++ le 2 dev ++ le 4 0 ++ Config.spdmBody code fields data)) ∧
  (∀ (s : State) (dev st inc : Nat), s.Serving → (s.peer dev).readmit = some (st, inc) → exec (.readmissionTimeout dev) s =
    .next (ffEvent 0x0125 2 (peerDie s dev) dev none (le 4 inc ++ le 1 3) (s.modPeer dev (fun p => { p with readmit := none })))) ∧
  (∀ (s : State) (session dev : Nat), s.Serving →
    (isOperator s session = true → (s.peer dev).st = .lost → (s.peer dev).readmit = none →
      exec (.readmissionRequest session dev) s = .next (answer 354 stOk [] (startReadmit dev (max (s.peer dev).inc (s.peer dev).tried) s))) ∧
    (isOperator s session = false → exec (.readmissionRequest session dev) s = .next (answer 354 stPerm [] s)))

/-- The bytes of a packet spell that packet: no bit of its header, extension or payload is dropped or misread (R288). -/
def Obligations.PacketsRoundTrip : Prop :=
  ∀ p : FjPkt, PktOk p → pktOf (pktBytes p) = some p

/-! ## Ethernet -/

/-- Frames: a packet goes to its sub-port's nexthop with ECT(0), its class's DSCP and, under vlan_en, the tag; one with a bad FCS, of too many bytes, or that MACsec does not let through is dropped and counted with its reason; a Fjorum frame of
a device in service hands its packet to the transport, which delivers it in order; CE
is counted and answered with ece; echo, ARP and Neighbor Discovery requests to an own address are answered (R275 to R277, R279, R283 to R285,
R287, R288, R292, R298). -/
def Obligations.FramesArrive : Prop :=
  (∀ (s : State) (l pri sport : Nat) (dst : Bytes) (p : FjPkt) (w : TxHdr), w = txHdr s l pri (.packet l sport dst p) →
    w.mac = (getKey s.plate.nexthop l).getD 0 ∧ w.dscp = some (dscpOf pri) ∧ w.ecn = 2 ∧ w.df = decide (dst.length = 4) ∧ w.dst = dst ∧
    w.ports = some (sport, s.plate.udpPort) ∧ w.csum = udpSum (ownFor s l dst) dst sport s.plate.udpPort (pktBytes p) ∧
    w.vlan = (if s.plate.vlanEn then some (pri, s.plate.vid) else none) ∧
    (s.plate.macsec = 0 → w.sec = none) ∧
    (∀ a, s.plate.macsec ≠ 0 → (s.port l).sa = some a → w.sec = some (a.an, a.pn, s.plate.cipher) ∧
      ((leave l pri (.packet l sport dst p) s).port l).sa = some { a with pn := a.pn + 1 })) ∧
  (∀ (s : State) (p : FjPkt) (l : Nat), p.hdr.ty = 1 →
    ((noteCe p true l s).link (dieOfLane l)).ceRx = bump (s.link (dieOfLane l)).ceRx 1 ∧
    ((rcvFlow s (keyOf p)).isOpen = true → (rcvFlow (noteCe p true l s) (keyOf p)).ece = true) ∧ noteCe p false l s = s) ∧
  (∀ (s : State) (l : Nat) (fr : Frame), s.pwr.st.isDark = false → s.ended = [] → (s.port l).present = true → (s.port l).linkUp = true →
    fenced s (dieOfLane l) = false → (s.link (dieOfLane l)).resetting = false →
    ((fr.fcsOk = false ∨ 9216 < fr.len) → exec (.frameReceive l fr) s = .next (countDrop (dieOfLane l) 1 s)) ∧
    (∀ why, fr.fcsOk = true → fr.len ≤ 9216 → secDrop s l fr = some why → exec (.frameReceive l fr) s = .next (countDrop (dieOfLane l) why s))) ∧
  (∀ (s : State) (l : Nat) (fr : Frame) (ce : Bool) (b : Bytes), s.Serving → (s.port l).present = true → (s.port l).linkUp = true →
    fenced s (dieOfLane l) = false → (s.link (dieOfLane l)).resetting = false → fr.fcsOk = true → fr.len ≤ 9216 → secDrop s l fr = none →
    fr.body = .fjorum true ce b →
    exec (.frameReceive l fr) s = .next (deliver 65536 (packetArrives b ce l (maybeXoff l (classOf (noteSa l fr s) fr) (noteSa l fr s))))) ∧
  (∀ (s : State) (p : FjPkt), (rcvFlow s (keyOf p)).reoffer = [] → (rcvFlow s (keyOf p)).got = [] → (rcvFlow s (keyOf p)).buffer = [] →
    (p.hdr.psn = (rcvFlow s (keyOf p)).ackPsn → p.hdr.psn < 2 ^ 32 → (dataArrives p s).rxq = s.rxq ++ [p]) ∧
    (serLt p.hdr.psn (rcvFlow s (keyOf p)).ackPsn = true → (dataArrives p s).rxq = s.rxq)) ∧
  (∀ (s : State) (l ip mac : Nat), s.pwr.st.isDark = false → mayTalk s l = true →
    (ownAddr s l (be 4 ip) = true → exec (.arpRequest l ip mac) s = .next (sendFrame l 6 (.frame l 2 [ip, mac] []) s)) ∧
    (ownAddr s l (be 4 ip) = false → exec (.arpRequest l ip mac) s = .next s) ∧
    (ownAddr s l (be 16 ip) = true → exec (.neighborSolicitation l ip mac) s = .next (sendFrame l 6 (.frame l 3 [ip, mac] []) s)) ∧
    (ownAddr s l (be 16 ip) = false → exec (.neighborSolicitation l ip mac) s = .next s)) ∧
  (∀ (s : State) (l ip n : Nat) (v6 : Bool) (data : Bytes), s.pwr.st.isDark = false → mayTalk s l = true →
    ownAddr s l (be (if v6 then 16 else 4) ip) = true → n = (if (s.port l).echoSec = s.clk / clkS then (s.port l).echoes else 0) →
    (n < 100 → exec (.echoRequest l v6 ip data) s = .next (sendFrame l 6 (.frame l 4 [b2n v6, ip] data)
      (s.modPort l (fun k => { k with echoes := n + 1, echoSec := s.clk / clkS })))) ∧
    (100 ≤ n → exec (.echoRequest l v6 ip data) s = .next s))

/-- Priority flow control: XOFF goes out again while it is in force and XON ends it; a PFC frame pauses the lossless priorities it names and
no other; a paused priority's frames wait, and leave PTP first, then CONTROL, those of latency-critical contexts first in each; the watchdog stops
honouring PAUSE, drops the waiting frames and counts (R278, R300). MACsec keys: a message under the CAK keeps the partner live and installs the
server's SAK; the key server renews it at its packet number; the old one ages out; Life Time without the partner gives the keys up (R284 to R286,
R489). -/
def Obligations.PauseAndKeys : Prop :=
  (∀ (s : State) (l i : Nat), s.pwr.st.isDark = false →
    ((priOf s l i).xoff = true → exec (.pfcXon l i) s = .next (sendPfc l i 0 (modPri l i (fun q => { q with xoff := false }) s)) ∧
      exec (.pfcRefresh l i) s = .next (sendPfc l i 0xFFFF s)) ∧
    ((priOf s l i).xoff = false → exec (.pfcXon l i) s = .next s ∧ exec (.pfcRefresh l i) s = .next s) ∧
    ((priOf s l i).paused = true → exec (.pauseExpiry l i) s = .next (unpause l i s)) ∧
    ((priOf s l i).paused = true → exec (.pfcWdog l i) s = .next (ffEvent 0x0124 3 (dieOfLane l) l none (le 1 i) (countHeld l i s)))) ∧
  (∀ (s : State) (l mask : Nat) (quanta : List Nat), s.pwr.st.isDark = false → (s.port l).linkUp = true →
    (∀ named, named = (List.range 8).filter (fun i => bit mask i && bit s.plate.pfcMask.toNat i) →
      exec (.pfcFrame l mask quanta) s = .next (unpauseAll l (named.filter (fun i => quanta.getD i 0 = 0))
        ((named.filter (fun i => quanta.getD i 0 ≠ 0)).foldl (fun t i =>
          modPri l i (fun r => { r with paused := true, quanta := quanta.getD i 0 }) t) s))) ∧
    (∀ i, i < 8 → (s.port l).pris.length = 8 → (∀ j, j < 8 → quanta.getD j 0 ≠ 0) → ∃ t, exec (.pfcFrame l mask quanta) s = .next t ∧
      priOf t l i = (if bit mask i && bit s.plate.pfcMask.toNat i then { priOf s l i with paused := true, quanta := quanta.getD i 0 } else priOf s l i))) ∧
  (∀ (s : State) (w : Nat → List OutMsg), ∃ rest, serveOrder s w = ((w 7).filter (·.isLc) ++ (w 7).filter (fun m => !m.isLc)).map (fun m => (7, m)) ++
      ((w 6).filter (·.isLc) ++ (w 6).filter (fun m => !m.isLc)).map (fun m => (6, m)) ++ rest) ∧
  (∀ (s : State) (l i : Nat), 0 < i → i < 4 → (s.port l).pris.length = 8 → (priOf s l i).held = [] →
    unpause l i s = modPri l i (fun q => { q with paused := false, quanta := 0, held := [] }) s) ∧
  (∀ (s : State) (l i : Nat) (m : OutMsg), bit s.plate.pfcMask.toNat i = true → (((s.port l).pris[i]?).getD {}).paused = true →
    (((s.port l).pris[i]?).getD {}).ignoring s = false →
    sendFrame l i m s = s.modPort l (fun k => { k with pris := modAt k.pris i (fun q => { q with held := q.held ++ [m] }) })) ∧
  (∀ (s : State) (l : Nat) (m : MkaMsg), s.pwr.st.isDark = false → (s.port l).linkUp = true → s.plate.macsec ≠ 0 → cakOf s l ≠ none →
    (m.icvOk = false → exec (.mkaFrame l m) s = .next s) ∧
    (∀ an key, m.icvOk = true → m.sak = some (an, key) → m.keyServer = true → m.live = true →
      exec (.mkaFrame l m) s = .next (installSa l an key (s.modPort l (fun k => { k with mkaPeer := some m.peerMi, mkaClk := s.clk, server := false })))) ∧
    (m.icvOk = true → m.sak = none → m.live = true → m.keyServer = false → (s.port l).sa = none →
      exec (.mkaFrame l m) s = .next (newSak l (s.modPort l (fun k => { k with mkaPeer := some m.peerMi, mkaClk := s.clk, server := true })))) ∧
    exec (.mkaHello l) s = .next (sendMka l [0, (s.port l).mkaPeer.getD 0, b2n (s.port l).server] s)) ∧
  (∀ (s : State) (l : Nat), s.pwr.st.isDark = false →
    (∀ a, (s.port l).linkUp = true → (s.port l).server = true → (s.port l).sa = some a → (s.port l).mkaPeer.isSome = true →
      ((if s.plate.cipher = 0 then 0xC0000000 else 2 ^ 62) ≤ a.pn → exec (.sakDistribution l) s = .next (newSak l s)) ∧
      (a.pn < (if s.plate.cipher = 0 then 0xC0000000 else 2 ^ 62) → exec (.sakDistribution l) s = .next s)) ∧
    ((s.port l).newSeen = true → exec (.saAgeOut l) s = .next (s.modPort l (fun p => { p with oldSa := none, newSeen := false }))) ∧
    ((s.port l).newSeen = false → exec (.saAgeOut l) s = .next s) ∧
    ((s.port l).mkaPeer.isSome = true → needsSa s l = false → exec (.mkaLifeExpiry l) s = .next (s.modPort l (fun p => { p with
      mkaPeer := none, server := false, sa := none, oldSa := none, newSeen := false }))) ∧
    ((s.port l).mkaPeer.isSome = true → needsSa s l = true → exec (.mkaLifeExpiry l) s = .next (movePaths l 3 (s.modPort l (fun p => { p with
      mkaPeer := none, server := false, sa := none, oldSa := none, newSeen := false })))))

/-- Time: with a master chosen the servo starts; a Sync gives the offset, moves the clock and asks for the delay; a two-step one waits for its
Follow_Up; a Delay_Resp gives the path delay; a sub-port that must secure its frames and has no SAK takes none of them; without a master the die holds over, and after a second its time is uncertain; the 1PPS edge
gives the phase, and its absence is noted; a fault in the timestamp unit makes the clock FAULTY (R280 to R283, R287, R319). -/
def Obligations.TimeFollowsMaster : Prop :=
  (∀ (s : State) (l d : Nat) (m : PtpMsg), s.pwr.st.isDark = false → d = dieOfLane l → (s.port l).linkUp = true →
    (needsSa s l = true → (s.port l).sa = none → exec (.announce l m) s = .next (countDrop d 2 s) ∧ exec (.sync l m) s = .next (countDrop d 2 s)) ∧
    ((needsSa s l = true → (s.port l).sa.isSome = true) → (s.link d).ptpLane.toNat ≠ l → exec (.announce l m) s = .next (countDrop d 9 s) ∧ exec (.sync l m) s = .next (countDrop d 9 s)) ∧
    ((needsSa s l = true → (s.port l).sa.isSome = true) → (s.link d).ptpLane.toNat = l →
      ((m.better = true ∧ (s.link d).ptp = .listening ∨ (s.link d).ptp = .holdover) → exec (.announce l m) s =
        .next (ptpTo d .uncalibrated (s.modLink d (fun k => { k with good := 0, syncWait := none, delayReq := none })))) ∧
      (m.twoStep = true → exec (.sync l m) s = .next (s.modLink d (fun k => { k with syncWait := some (m.seqId, m.ingress) }))) ∧
      (m.twoStep = false → exec (.sync l m) s = .next (applySync d (16 * m.origin + m.correction) m.ingress s)) ∧
      (∀ t2, (s.link d).syncWait = some (m.seqId, t2) →
        exec (.followUp l m) s = .next (applySync d (16 * m.origin + m.correction) t2 (s.modLink d (fun k => { k with syncWait := none })))) ∧
      ((s.link d).delayReq = some m.seqId → exec (.delayResp l m) s = .next (s.modLink d (fun k => { k with
        delayReq := none, delay := (((k.t2 : Int) - k.t1) + (16 * (m.origin : Int) - m.correction - k.t3)) / 2 }))) ∧
      exec (.announceReceiptTimeout l) s = .next (enterHoldover d s))) ∧
  (∀ (s : State) (d t2 : Nat) (t1 : Int), ((s.link d).ptp = .uncalibrated ∨ (s.link d).ptp = .slave) →
    ((applySync d t1 t2 s).link d).offset = sat19 (((t2 : Int) - t1 - (s.link d).delay) / 16) ∧
    ((applySync d t1 t2 s).link d).delayReq = some (s.link d).reqSeq ∧
    (s.plate.ppsEn = false → ((applySync d t1 t2 s).link d).timeOff = (s.link d).timeOff - ((t2 : Int) - t1 - (s.link d).delay))) ∧
  (∀ (s : State) (d : Nat), s.pwr.st.isDark = false →
    ((s.link d).ptp = .holdover → exec (.holdoverUncertain d) s = .next (s.modLink d (fun k => { k with uncertain := true }))) ∧
    ((d = 16 ∨ d = 17) → fenced s d = false → exec (.ptpFault d) s = .next (ptpTo d .faulty (logInternal d none 0 s))) ∧
    ((s.link d).ptp = .slave → s.plate.ptpStand = 0x7F → enterHoldover d s = ptpTo d .holdover s) ∧
    ((s.link d).ptp ≠ .slave → enterHoldover d s = s)) ∧
  (∀ (s : State), s.pwr.st.isDark = false → s.plate.ppsEn = true →
    exec .ppsLoss s = .next ([16, 17].foldl (fun t e => t.modLink e (fun k => { k with ppsPres := false })) s) ∧
    (∀ ns, -1000 ≤ offSecond ns → offSecond ns ≤ 1000 → exec (.ppsEdge ns) s = .next ([16, 17].foldl (fun t e =>
      if fenced t e then t else t.modLink e (fun k => { k with ppsPres := true, timeOff := k.timeOff - 16 * offSecond ns })) s)) ∧
    (∀ ns d, d = clockDie s → (offSecond ns < -1000 ∨ 1000 < offSecond ns) → ∃ t, exec (.ppsEdge ns) s = .next t ∧ (t.link d).ppsMis = true))

/-- Links: a sub-port that goes down loses its keys and its waiting frames and trains again; one whose PCS aligns is up; a lane that loses its
signal is recorded; a fabric link that fails eight replays is down and the routing tables are written anew, and a die that no route reaches any
more counts as fenced, with its cells and its sub-ports (R24 to R26, R301, R416, R514; that the routes meant are those to the hub is the model's
reading, log entry 82). -/
def Obligations.LinksComeAndGo : Prop :=
  (∀ (s : State) (l : Nat), s.pwr.st.isDark = false → (s.port l).linkUp = true → ∃ t, exec (.subportDown l) s = .next t ∧
    (t.port l).linkUp = false ∧ (t.port l).training = true ∧ (t.port l).sa = none ∧ (t.port l).oldSa = none ∧ (t.port l).secured = false ∧
    (∀ r ∈ (t.port l).pris, r = {}) ∧
    (∀ m, m ≠ l → t.port m = s.port m) ∧ t.mem = s.mem) ∧
  (∀ (s : State) (l : Nat), s.pwr.st.isDark = false → (s.port l).present = true → (s.port l).training = true → fenced s (dieOfLane l) = false →
    ∃ t, exec (.linkUp l) s = .next t ∧ (t.port l).linkUp = true ∧ (t.port l).training = false ∧ (t.link (dieOfLane l)).resetting = false ∧
    t.mem = s.mem) ∧
  (∀ (s : State) (lane l : Nat), s.pwr.st.isDark = false → portOfLane s lane = some l → (s.port l).linkUp = true →
    exec (.lossOfSignal lane true) s = .next (logError 0x07 (dieOfLane lane) lane none 0 (le 1 lane ++ le 1 2) s) ∧
    exec (.lossOfSignal lane false) s = .next (logError 0x07 (dieOfLane lane) lane none 0 (le 1 lane ++ le 1 1)
      (s.modPort l (fun p => { p with los := bump p.los 1 })))) ∧
  (∀ (s : State) (a b : Nat), s.pwr.st.isDark = false → (fabricLinks.contains (a, b) = true ∨ fabricLinks.contains (b, a) = true) →
    linkLive s (a, b) = true → exec (.fabricLinkDown a b) s =
      .next (writeRoutes (isolate (logError 0x05 a 0 none 0 (le 1 a ++ le 1 b) { s with fabDown := s.fabDown ++ [(a, b)] })))) ∧
  (∀ (s : State) (a b n : Nat), routeNext (writeRoutes s) a b = some n →
    ∃ e ∈ fabricLinks, linkLive s e = true ∧ (e = (a, n) ∨ e = (n, a))) ∧
  (∀ (s : State) (d : Nat), d < 20 → (fabricBall s 18 19).contains d = false → fenced (isolate s) d = true ∧
    (fenced s d = false → (d < 8 → ∀ c, c < 256 → c / 32 = d → ((isolate s).cell c).st = .fenced) ∧
      ((d = 16 ∨ d = 17) → ∀ l, dieOfLane l = d → (isolate s).port l = {}))) ∧
  (∀ (s : State) (d : Nat), (fabricBall s 18 19).contains d = true → (isolate s).die d = s.die d)

/-! ## Power -/

/-- The rails follow the input, and the pins act in every power state: power comes between 45 V and 64 V and BOOT_FUSE begins; without input
the module is OFF; a trip is SHUTDOWN with its cause latched and FAULT_N low; RESET_N is a device warm reset of a module that runs, with FAULT_N low where the start will end in
Pupa mode; only
FAULT_RELEASE leaves HALTED and SHUTDOWN; a start cut short joins the history (R429, R491, R495, R523 to R527). -/
def Obligations.PowerStates : Prop :=
  (∀ (s : State) (cv : Nat), s.pwr.st = .off →
    (4500 ≤ cv → cv ≤ 6400 → exec (.powerOn cv) s = .next { s.dark with
      pwr := { s.pwr.kept with st := .starting, pwrEn := true, volts := BitVec.ofNat 16 cv },
      boot := { s.boot.kept with stage := .fuse, active := true, fuseClk := s.clk } }) ∧
    (cv < 4500 ∨ 6400 < cv → exec (.powerOn cv) s = .next s.dark)) ∧
  (∀ (s u : State), s.pwr.st.isDark = false → u = (noteUnfinished s).dark →
    exec .undervoltageTrip s = .next { u with pwr := { u.pwr with st := .off } } ∧
    exec .vinSenseOpen s = .next { u with pwr := { u.pwr with st := .off } } ∧
    exec .pwrEnLow s = .next { u with pwr := { u.pwr with st := .off, pwrEn := false } } ∧
    exec .overvoltageTrip s = .next { u with pwr := { u.pwr with st := .shutdown, faultN := false, lastShut := 1 } } ∧
    exec .conversionFault s = .next { u with pwr := { u.pwr with st := .shutdown, faultN := false, lastShut := 2 } } ∧
    exec .resetN s = .next { u with
      pwr := { u.pwr with st := .starting, faultN := !pupaComes u }
      boot := { u.boot with stage := .fuse, active := true, fuseClk := s.clk }
      hub := { rstDomain := 6, rstTrig := 5 } }) ∧
  (∀ (s : State) (aux : Bool), s.Inv → (s.pwr.st = .halted ∨ s.pwr.st = .shutdown) →
    exec (.faultRelease aux) s = .next { s with
      pwr := { s.pwr with st := .off, faultN := true, pwrEn := aux && s.pwr.pwrEn, lastShut := if aux then 0 else s.pwr.lastShut } } ∧
    exec .resetN s = .next s ∧ exec .undervoltageTrip s = .next s ∧ exec .vinSenseOpen s = .next s ∧ exec (.powerOn 5000) s = .next s) ∧
  (∀ (s : State), (s.pwr.st = .starting → s.boot.active = true → (noteUnfinished s).boot.history =
      (({ ok := false, stage := stageCode s.boot.stage, reason := s.boot.reason.toNat, detail := s.boot.detail.toNat } : StartRec) ::
        s.boot.history).take 16) ∧
    (s.pwr.st ≠ .starting → noteUnfinished s = s))

/-- Caps, sensors and droop: a reading of the input or the coolant sets its cap, its limit and the registers; a sensor at the cap limit gates its
die, 3 °C below releases it, at the shutdown limit it shuts the module down; a droop event counts; a recalibration makes a sensor stale, whose
last value stands until it ends with a reading, and no second one runs meanwhile; the caps now active and the highest temperatures join every open step (R29, R34 to R36, R255, R525, R528 to R532). -/
def Obligations.CapsAndSensors : Prop :=
  (∀ (s : State) (cv ca w : Nat) (cap : Bool), s.pwr.st.isDark = false → cap = ((decide (4200 ≤ cv) && decide (cv < 4500)) || decide (ca > 7200)) →
    ∃ t, exec (.inputCap cv ca w) s = .next (noteCaps t) ∧ t.pwr.inCap = cap ∧ t.pwr.volts = BitVec.ofNat 16 cv ∧
      t.pwr.amps = BitVec.ofNat 16 (min ca 7200) ∧ t.pwr.watts = BitVec.ofNat 16 w ∧
      t.pwr.peak = BitVec.ofNat 16 (max s.pwr.peak.toNat (w % 65536)) ∧
      t.pwr.gate = s.pwr.gate + b2n (cap && !s.pwr.inCap) ∧ t.pwr.coolCap = s.pwr.coolCap ∧ t.mem = s.mem ∧ t.dies = s.dies) ∧
  (∀ (s : State) (inlet outlet : Int) (hot : Bool), s.pwr.st.isDark = false → hot = decide (inlet > 640) →
    ∃ t, exec (.coolantCap inlet outlet) s = .next (noteCaps t) ∧ t.pwr.inlet = inlet ∧ t.pwr.outlet = outlet ∧ t.pwr.coolCap = hot ∧
      t.pwr.coolLim = (if hot then 3200 - 128 * ((inlet - 640) / 16).toNat else 3200) ∧ t.pwr.gate = s.pwr.gate + b2n (hot && !s.pwr.coolCap) ∧
      t.pwr.inCap = s.pwr.inCap ∧ t.mem = s.mem ∧ t.dies = s.dies) ∧
  (∀ (s : State) (x : Nat), x ∈ openSteps s → ((noteCaps s).sl x).pcap = (s.sl x).pcap ||| BitVec.ofNat 8 (pcapNow s)) ∧
  (∀ (s : State) (d i : Nat) (temp : Int) (u : State), s.pwr.st.isDark = false → hasSensor s d i = true → u = readSensor d i temp s →
    (((u.die d).capped = true ∨ hottest u d < (u.die d).capLim) → exec (.thermalCap d i temp) s = .next u) ∧
    ((u.die d).capped = false → (u.die d).capLim ≤ hottest u d → ∃ t, exec (.thermalCap d i temp) s = .next (noteCaps t) ∧
      (t.die d).capped = true ∧ t.pwr.gate = s.pwr.gate + 1 ∧ t.mem = s.mem) ∧
    ((u.die d).capped = true → hottest u d ≤ (u.die d).capLim - 48 →
      exec (.thermalCapRelease d i temp) s = .next (u.modDie d (fun k => { k with capped := false }))) ∧
    (((u.die d).capped = false ∨ (u.die d).capLim - 48 < hottest u d) → exec (.thermalCapRelease d i temp) s = .next u) ∧
    ((u.die d).shutLim ≤ ((u.die d).sensors.getD i {}).temp → ∃ v, v = (noteUnfinished s).dark ∧ exec (.thermalShutdown d i temp) s =
      .next { v with pwr := { v.pwr with st := .shutdown, faultN := false, lastShut := 3 } }) ∧
    (((u.die d).sensors.getD i {}).temp < (u.die d).shutLim → exec (.thermalShutdown d i temp) s = .next u)) ∧
  (∀ (s : State) (d i : Nat) (temp : Int) (q : Sensor), (s.die d).sensors[i]? = some q →
    ((readSensor d i temp s).die d).sensors[i]? = some (if q.stale then q else { q with valid := true, temp := temp }) ∧
    (∀ j, j ≠ i → ((readSensor d i temp s).die d).sensors[j]? = (s.die d).sensors[j]?) ∧
    (∀ x ∈ openSteps s, ((readSensor d i temp s).sl x).tMax = List.zipWith max (s.sl x).tMax (kindTemps (readSensor d i temp s)))) ∧
  (∀ (s : State) (d : Nat), s.pwr.st.isDark = false → d < 8 → fenced s d = false → (s.die d).on = true →
    ∃ t, exec (.droopEvent d) s = .next t ∧ (t.die d).droop = bump (s.die d).droop 1 ∧ t.pwr.gate = s.pwr.gate ∧
      t.pwr.droopAt = s.clk :: within s s.pwr.droopAt ∧ t.mem = s.mem) ∧
  (∀ (s : State) (d i drift : Nat) (temp : Int) (q : Sensor), s.pwr.st.isDark = false → fenced s d = false → (s.die d).on = true →
    (8 ≤ d ∨ i < 8 ∨ 12 ≤ i) → (s.die d).sensors[i]? = some q →
    (q.stale = true → exec (.sensorRecalibration d i temp drift) s = .next (recalDone d drift (readSensor d i temp
      (s.modDie d (fun k => { k with sensors := k.sensors.modify i (fun r => { r with stale := false }) }))))) ∧
    (q.stale = false → recalBusy s = false → ∃ t, exec (.sensorRecalibration d i temp drift) s = .next t ∧
      (t.die d).sensors[i]? = some { q with stale := true } ∧ t.mem = s.mem) ∧
    (q.stale = false → recalBusy s = true → exec (.sensorRecalibration d i temp drift) s = .next s)) ∧
  (∀ (s : State) (d i drift : Nat) (temp : Int), s.pwr.st.isDark = false → fenced s d = false → (s.die d).on = true → d < 8 → 8 ≤ i → i < 12 →
    ((s.die d).droopBusy = some i → exec (.sensorRecalibration d i temp drift) s =
      .next (recalDone d drift (s.modDie d (fun k => { k with droopBusy := none })))) ∧
    ((s.die d).droopBusy ≠ some i → recalBusy s = true → exec (.sensorRecalibration d i temp drift) s = .next s) ∧
    (recalBusy s = false → exec (.sensorRecalibration d i temp drift) s = .next (s.modDie d (fun k => { k with droopBusy := some i })))) ∧
  (∀ (s : State) (d drift : Nat), ((recalDone d drift s).die d).recal = bump (s.die d).recal 1 ∧
    (drift ≠ 0 → ((recalDone d drift s).die d).drift = true) ∧ (drift = 0 → ((recalDone d drift s).die d).drift = (s.die d).drift))

/-! ## Firmware, hangs, resets, soldier checks -/

/-- Hub firmware: the beat takes the gate messages of the core and counts while no compartment is FAILED; a compartment that faults or
overruns its slice is reloaded with its work ended, the third time in 60 s left FAILED, and then the first three start a warm reset; gate
messages wait in order; profiling samples every present cell; pools decay; a change of health state and the self-test are accepted by
their rules (R388 to R392, R412, R434, R448 to R453). -/
def Obligations.FirmwareRuns : Prop :=
  (∀ (s : State) (core : Nat), s.pwr.st.isDark = false → core < hubCores s →
    (s.hub.coreReset.contains core = true → exec (.hubBeat core) s = .next s) ∧
    (s.hub.coreReset.contains core = false → ∃ t, exec (.hubBeat core) s = .next t ∧ t.mem = s.mem ∧
      (∀ c, (compOf s c).st = 1 → (compOf s c).core = core → (compOf t c) = { compOf s c with gate := [] }) ∧
      (∀ c, (compOf s c).core ≠ core → compOf t c = compOf s c) ∧
      (core = 0 → (∀ c ∈ s.hub.comps, c.st ≠ 3) → t.hub.beat = s.hub.beat + 1 ∧ t.hub.beatClk = s.clk) ∧
      (core ≠ 0 → t.hub.beat = s.hub.beat))) ∧
  (∀ (s : State) (c cause : Nat) (cmd : Instr) (times : List Nat), s.pwr.st.isDark = false → (compOf s c).st = 1 →
    (cmd, cause) ∈ [(.sliceOverrun c, 3), (.compartmentFault c 1, 1), (.compartmentFault c 2, 2), (.compartmentFault c 4, 4)] →
    times = (compOf s c).times.filter (fun t => decide (s.clk - t < 60 * clkS)) →
    (times.length < 2 → ∃ u, exec cmd s = .next (deliver 65536 (restartWork c u)) ∧ compOf u c = { compOf s c with
      st := 1, cause := BitVec.ofNat 4 cause, restarts := bump (compOf s c).restarts 1, times := s.clk :: times, gate := [] } ∧
      u.mem = s.mem ∧ u.queues = s.queues ∧ u.ctxs = s.ctxs ∧ u.sec = s.sec) ∧
    (2 ≤ times.length → 3 ≤ c → ∃ u, exec cmd s = .next (deliver 65536 u) ∧
      compOf u c = { compOf s c with st := 3, cause := BitVec.ofNat 4 cause, times := s.clk :: times } ∧ u.mem = s.mem) ∧
    (2 ≤ times.length → c < 3 → ∃ t, exec cmd s = .next t ∧ t.pwr.st = .starting ∧ t.boot.stage = .fuse ∧ t.mem = [] ∧ t.flash = s.flash)) ∧
  (∀ (s : State) (src dst : Nat) (msg : Bytes), s.pwr.st.isDark = false → (compOf s src).st = 1 → dst < 5 →
    (msg.length ≤ 256 → (compOf s dst).gate.length < 64 →
      exec (.gateCall src dst msg) s = .next (modComp dst (fun k => { k with gate := k.gate ++ [(src, msg)] }) s)) ∧
    ((256 < msg.length ∨ 64 ≤ (compOf s dst).gate.length) → exec (.gateCall src dst msg) s = exec (.compartmentFault src 4) s)) ∧
  (∀ (s : State), s.Serving →
    (s.hub.profEn = true → compDown s 4 = false → exec .profileSample s = .next (((List.range 256).filter (cellPresent s)).foldl (fun t c =>
      (poke t (profBase s + t.hub.profPos.toNat) (profBytes s c)).modHub (fun h => { h with profPos := h.profPos + 16 })) s)) ∧
    ((s.hub.profEn = false ∨ compDown s 4 = true) → exec .profileSample s = .next s) ∧
    (∃ t, exec .healthDecay s = .next t ∧ t.hub.poolC = s.hub.poolC - s.hub.poolC / 16 ∧ t.hub.poolO = s.hub.poolO - s.hub.poolO / 16 ∧
      t.boot.poolC = t.hub.poolC ∧ t.boot.poolO = t.hub.poolO ∧ t.hub.recState = recommend { s.hub with poolC := t.hub.poolC, poolO := t.hub.poolO } ∧
      t.mem = s.mem)) ∧
  (∀ (s : State) (r : Requester) (v : Word), s.Serving → (r = .operator ∨ r = .firmware) → bits v.toNat 0 28 = 0 →
    (∀ h, healthOf (v.toNat / 2 ^ 30) = some h → (bit v.toNat 29 = false ∨ r = .operator) →
      (healthOk s h (bit v.toNat 29) = true → ∃ t, exec (.healthCmdTarget r v) s = .next t ∧ t.hub.health = h ∧ t.hub.samples = 0 ∧
        t.hub.stPass = false ∧ t.hub.cmdResult = 1 ∧ t.boot.hState = h ∧ t.sent = s.sent ++ [.csr r (csrBase + 0xC24) stOk 0] ∧ t.mem = s.mem) ∧
      (healthOk s h (bit v.toNat 29) = false → exec (.healthCmdTarget r v) s =
        .next (csrAnswer r (csrBase + 0xC24) stOk 0 (s.modHub (fun k => { k with cmdResult := 2 }))))) ∧
    (bit v.toNat 28 = true → s.hub.health = .quarantine → s.hub.stRun = false → exec (.selfTest r v) s =
      .next (csrAnswer r (csrBase + 0xC24) stOk 0 (s.modHub (fun k => { k with stRun := true, cmdResult := 1 })))) ∧
    (bit v.toNat 28 = true → (s.hub.health ≠ .quarantine ∨ s.hub.stRun = true) → exec (.selfTest r v) s =
      .next (csrAnswer r (csrBase + 0xC24) stOk 0 (s.modHub (fun k => { k with cmdResult := 2 }))))) ∧
  (∀ (s : State) (pass : Bool), s.Serving → s.hub.stRun = true → ∃ t, exec (.selfTestDone pass) s = .next t ∧
    t.hub.stRun = false ∧ t.hub.stPass = (pass && decide (s.hub.health = .quarantine)) ∧ t.hub.health = s.hub.health ∧ t.mem = s.mem)

/-- Slow and hung commands: progress arms the timer of a command again, at most fifteen times; else the command is hung, is recorded, and completes
TIMEOUT, command N without having started; a barrier never hangs; a launch with a program stops taking tiles, a job at its engine waits for the reset; a wait-for
cycle and two devices that wait for each other are broken the same way (R363, R366, R422 to R427, R468). -/
def Obligations.HangsEnd : Prop :=
  (∀ (s : State) (q k : Nat) (c : Cmd), s.Serving → (s.ctx (s.queue q).ctx).st ≠ .preempted → findCmd s q k = some c → c.status = none →
    c.hung = false → cOp c.bytes ≠ 0x11 →
    (c.armed < c.progress → c.rearms < 15 → exec (.commandTimeout q k) s = .next (deliver 65536
      ((modCmd s q k (fun e => { e with armed := e.progress, rearms := e.rearms + 1 })).modHub (fun h => { h with rearms := bump h.rearms 1 })))) ∧
    ((c.progress ≤ c.armed ∨ 15 ≤ c.rearms) → exec (.commandTimeout q k) s = .next (deliver 65536
      (stopCommand q c (noteHung q k (cOp c.bytes) c.progress c.rearms s))).settle)) ∧
  (∀ (s : State) (q k : Nat) (c : Cmd), s.Serving → s.ended = [] → findCmd s q k = some c → cOp c.bytes = 0x11 →
    exec (.commandTimeout q k) s = .next s) ∧
  (∀ (s : State) (q : Nat) (c : Cmd), cOp c.bytes ∉ [0x03, 0x20, 0x21, 0x22] → stopCommand q c s = finishCmd q c.idx stTimeout 0 0 s) ∧
  (∀ (s : State) (q : Nat) (c : Cmd),
    (cOp c.bytes = 0x21 → handedOver s q c.idx = true → stopCommand q c s = modCmd s q c.idx (fun e => { e with hung := true })) ∧
    (cOp c.bytes = 0x21 → handedOver s q c.idx = false → stopCommand q c s = finishCmd q c.idx stTimeout 0 0 s) ∧
    (cOp c.bytes = 0x20 → hasProgram s q c.idx = false → stopCommand q c s = finishCmd q c.idx stTimeout 0 0 s)) ∧
  (∀ (s : State) (q k : Nat) (b : Bytes), s.Serving → s.ended = [] → findCmd s q k = none → headRuns s q = true → (s.queue q).n.toNat = k →
    nextCmd s q = .ok b → cOp b ≠ 0x11 → ∃ t, exec (.commandTimeout q k) s = .next t ∧ t.mem = s.mem ∧ t.ctxs = s.ctxs ∧
      t.queue q = { s.queue q with n := (s.queue q).n + 1, flight := (s.queue q).flight ++
        [{ idx := k, bytes := b, started := false, status := some stTimeout, since := s.clk }] } ∧
      (∀ p, p ≠ q → t.queue p = s.queue p) ∧ t.hub.hangValid = true ∧ t.hub.hangCause = 1 ∧ t.hub.hangQueue = BitVec.ofNat 14 q) ∧
  (∀ (s : State) (q : Nat) (qs : List Nat), s.Serving →
    (isCycle s (q :: qs) = true → exec (.hangCycle (q :: qs)) s = .next (deliver 65536 (logError 0x0A 18 q (some (s.queue q).ctx) stTimeout
      (cycleDetail (q :: qs) 0xFFFF) (setHang 2 (s.queue q).ctx q ((q :: qs).foldl (fun t p => breakQueue p t) s)))).settle) ∧
    (s.ended = [] → isCycle s (q :: qs) = false → exec (.hangCycle (q :: qs)) s = .next s)) ∧
  (∀ (s : State) (q n : Nat) (b : Bytes), headWait s q = some (n, b) → tileWaits s q = [] → breakQueue q s = headTimeout q b s) ∧
  (∀ (s : State) (peer tag x : Nat) (mine : List (Nat × Marker)), s.Serving → s.ended = [] →
    mine = (waits s).filter (fun w => w.2.dev = peer && w.2.jobTag = tag) →
    (mutualWait s peer tag = false → exec (.crossDeviceHang peer tag) s = .next s) ∧
    (mutualWait s peer tag = true → ctxOfTag s tag = some x → (∀ w ∈ mine, w.2.cls ≠ 1) → (∃ w ∈ mine, w.2.cls = 0) →
      exec (.crossDeviceHang peer tag) s = .next (deliver 65536
        (logError 0x0A 18 0xFFFF (some x) stTimeout (cycleDetail [] peer) (setHang 3 x 0 (stepLoss x stTimeout s))))))

/-- Reset domains: a cell that is reset is sampled, loses its stores, and re-drives its program from the first tile, and the other half of its
PAIRED groups is lost with it (R108, R121; that an odd cell takes its even cell with it is the model's choice, log entry 91); a die resets its cells; a
holder's jobs end INTERNAL and its staging is lost; a link die loses its keys and its reduction store; a hub core stops its compartments; the
third cell reset in 60 s parks the cell, the third core reset is a warm reset, as are a fault of the root of trust, an escalation and the
operator's request (R409, R410, R428 to R435, R470, R472). -/
def Obligations.DomainsReset : Prop :=
  (∀ (s : State) (c trigger : Nat) (times : List Nat), s.Serving → cellPresent s c = true → (s.cell c).st ≠ .resetting → 1 ≤ trigger → trigger ≤ 3 →
    times = (s.cell c).resets.filter (fun t => decide (s.clk - t < 60 * clkS)) →
    ∃ u, exec (.cellReset c trigger) s = .next (if 2 ≤ times.length then parkCell c u else u).settle ∧
      u.cell c = { s.cell c with st := .resetting, tileIdx := 0, recs := [], prog := none, groups := [], bad := [], core := none, redrive :=
        (match (s.cell c).prog with | some p => some p | none => (s.cell c).redrive), resets := s.clk :: times } ∧
      (∀ e, e / 2 ≠ c / 2 → u.cell e = s.cell e) ∧ ((s.cell c).halves = false → ∀ e, e ≠ c → u.cell e = s.cell e) ∧
      ((s.cell c).halves = true → (c % 2 = 0 → u.cell (c + 1) = { s.cell (c + 1) with groups := (s.cell (c + 1)).groups.filter (fun g => g.2.tmode ≠ 1) }) ∧
        (c % 2 = 1 → (u.cell (c - 1)).st = .resetting ∧ (u.cell (c - 1)).groups = [])) ∧ u.hub.rstDomain = 1 ∧ u.hub.rstCell = BitVec.ofNat 8 c ∧ u.hub.rstTrig = BitVec.ofNat 7 trigger ∧
      u.pwr = s.pwr) ∧
  (∀ (s : State) (c : Nat), (s.cell c).redrive = none → (s.cell c).saved = none → (s.cell c).stopFor = none →
    ((parkCell c s).cell c).parked = true ∧ (parkCell c s).mem = s.mem) ∧
  (∀ (s : State) (c trigger seq time : Nat), s.memsWf = true → peek (sampleCell c trigger seq time s) (crashSlot s c) 4096 = crashHead s c trigger seq time) ∧
  (∀ (s : State) (d : Nat), s.Serving → d < 8 → fenced s d = false → ∃ t, exec (.computeDieReset d) s = .next t ∧
    (∀ c, cellPresent s c = true → c / 32 = d → (t.cell c).st = .resetting) ∧ (∀ c, c / 32 ≠ d → t.cell c = s.cell c) ∧
    t.hub.rstDomain = 2 ∧ t.hub.rstDie = BitVec.ofNat 5 d ∧ t.hub.rstTrig = 4) ∧
  (∀ (s : State) (c : Nat), s.Serving → (s.cell c).st = .resetting → (s.cell c).parked = false → (s.cell c).stopFor = none →
    (s.cell c).stopPre = false →
    (∀ p, (s.cell c).redrive = some p → p.stopNew = false → exec (.redrive c) s = .next
      ((s.modCell c (fun u => { u with st := .running, prog := some p.again, redrive := none })).modHub (fun h => { h with redrives := bump h.redrives 1 }))) ∧
    ((s.cell c).redrive = none → (s.cell c).restoring = false → exec (.redrive c) s = .next
      (s.modCell c (fun u => { u with st := .idle, prog := none, redrive := none })))) ∧
  (∀ (s : State) (h : Nat), s.Serving → (presentHolders s).contains h = true → (s.holder h).resetting = false → (s.holder h).load = none →
    ∃ u v, u = (match (s.holder h).running with | some j => endJob h j { s := noteReset 3 h h 0 none 0 s, st := stInternal } | none => noteReset 3 h h 0 none 0 s) ∧
      v = (s.holder h).queue.foldl (fun t j => endJob h j { s := t, st := stInternal }) u ∧
      exec (.holderReset h) s = .next (deliver 65536 (v.modHolder h (fun k =>
        { k with queue := [], running := none, load := none, staged := [], announced := [], samples := [], stalled := false, resetting := true })))) ∧
  (∀ (s : State) (h : Nat), s.Serving → (s.holder h).resetting = true →
    exec (.holderResetEnd h) s = .next (deliver 65536 (offerAll (s.modHolder h (fun u => { u with resetting := false }))))) ∧
  (∀ (s : State) (d : Nat), s.Serving → (d = 16 ∨ d = 17) → fenced s d = false → (s.link d).resetting = false → ∃ v : State,
    exec (.linkDieReset d) s = .next (deliver 65536 ((v.colls.filter (fun k => k.die = d)).foldl (fun t k =>
      match findColl t k.x k.op k.group k.num with | some c => endColl c stInternal t | none => t) v)) ∧
    (v.link d).resetting = true ∧ (∀ r ∈ v.red, r.die ≠ d) ∧
    v.ports = ((s.ports.filter (fun e => e.2.present && dieOfLane e.1 = d)).foldl (fun t e => portDown e.1 t) (noteReset 4 d d 0 none 0 s)).ports) ∧
  (∀ (s : State) (core : Nat) (times : List Nat), s.pwr.st.isDark = false → core < hubCores s → s.hub.coreReset.contains core = false →
    times = s.hub.coreResets.filter (fun t => decide (s.clk - t < 60 * clkS)) →
    (times.length < 2 → ∃ t, exec (.hubCoreReset core) s = .next t ∧ t.hub.coreReset = s.hub.coreReset ++ [core] ∧
      t.hub.comps = s.hub.comps.map (fun c => if c.core = core && c.st = 1 then { c with st := 2 } else c) ∧ t.mem = s.mem ∧ t.queues = s.queues) ∧
    (2 ≤ times.length → ∃ t, exec (.hubCoreReset core) s = .next t ∧ t.pwr.st = .starting ∧ t.boot.stage = .fuse ∧ t.mem = [])) ∧
  (∀ (s : State) (core : Nat), s.pwr.st.isDark = false → s.hub.coreReset.contains core = true →
    exec (.hubCoreResetEnd core) s = .next (deliver 65536 ((List.range 5).foldl (fun t c =>
      if (compOf t c).st = 2 && (compOf t c).core = core then restartComp c 0 t else t)
      (s.modHub (fun h => { h with coreReset := h.coreReset.filter (· ≠ core) })))).settle) ∧
  (∀ (s : State), s.pwr.st.isDark = false → exec .rotFault s = .next (warmReset s) ∧ exec (.deviceWarmReset .operator) s = .next (warmReset s) ∧
    (∀ r, r ≠ .operator → exec (.deviceWarmReset r) s = .next (answer 434 stPerm [] s)) ∧
    ((s.holders.any (fun e => e.2.resetting) = true ∨ s.links.any (fun e => e.2.resetting) = true ∨ (compOf s 3).st = 3) →
      exec .resetEscalation s = .next (warmReset s)) ∧
    (warmReset s).pwr.st = .starting ∧ (warmReset s).boot.stage = .fuse ∧ (warmReset s).mem = [] ∧ (warmReset s).flash = s.flash) ∧
  (∀ (s : State), s.Serving → (s.hub.crashInfo = none → exec .crashSummary s = .next s) ∧
    (∀ i, s.memsWf = true → s.hub.crashInfo = some i → ∃ t, exec .crashSummary s = .next t ∧ t.boot.crashIdx = (s.boot.crashIdx + 1) % 4 ∧ t.hub.crashInfo = none ∧
      t.mem = s.mem ∧ (∀ j, let a := 0x100000 + 0x200000 * (s.boot.crashIdx % 4)
        j < (Config.flashSeal flashKey (crashBody s i)).length → memGet flashFill t.flash (a + j) = ((Config.flashSeal flashKey (crashBody s i))[j]?).getD 0))) ∧
  (∀ (s : State) (r : Requester) (cells : List Nat), s.Serving →
    (r ≠ .operator → exec (.crashSampleRequest r cells) s = .next (answer 435 stPerm [] s)) ∧
    (compDown s 2 = true → exec (.crashSampleRequest .operator cells) s = .next (answer 435 stInternal [] s)) ∧
    (compDown s 2 = false → exec (.crashSampleRequest .operator cells) s = .next (answer 435 stOk []
      (sampleCells 6 (sortBy (fun a b => decide (a < b)) cells.eraseDups) s))))

/-- Soldier checks: a checker's result equal to the original's passes, another waits for the referee; the referee's result gives the verdict,
which is recorded, counted, and acted on unless it blames the checker. Thermal replay: an accepted request is in force with its cap; a
setpoint held may open its first step; one not reached is skipped (R440 to R447). -/
def Obligations.SoldierChecks : Prop :=
  (∀ (s : State) (d : Nat) (e : Sample) (b : Bytes), s.Serving → (samplesOf s d).find? (fun e => e.check.isNone) = some e →
    (b = e.witness → exec (.soldierCheck d b) s = .next (deliver 65536 (sampleDone e (putSample d e none s)))) ∧
    (b ≠ e.witness → exec (.soldierCheck d b) s = .next (deliver 65536 (putSample d e (some { e with check := some b }) s)))) ∧
  (∀ (s : State) (d : Nat) (e : Sample) (b check : Bytes) (v : Nat), s.Serving → (samplesOf s d).find? (fun e => e.check.isSome) = some e →
    e.check = some check → v = verdictOf e check b → ∃ u, exec (.soldierReferee d b) s =
      .next (deliver 65536 (sampleDone e (putSample d e none (if v = 1 then u else actOnVerdict e check u)))) ∧
      u.hub.solMis = bump s.hub.solMis 1 ∧ u.mem = s.mem ∧ u.cellSamples = s.cellSamples ∧
      ((u.sl e.ctx).soldierBad = (s.sl e.ctx).soldierBad + b2n (e.jobbed && decide ((s.sl e.ctx).step = e.step)))) ∧
  (∀ (e : Sample) (check b : Bytes), (b = e.witness → verdictOf e check b = 1) ∧ (b ≠ e.witness → b = check → verdictOf e check b = 2) ∧
    (b ≠ e.witness → b ≠ check → verdictOf e check b = 3)) ∧
  (∀ (s : State) (d : Nat) (e : Sample), (d < 8 → (putSample d e none s).cellSamples = s.cellSamples.erase e) ∧
    (8 ≤ d → ((putSample d e none s).holder d).samples = (s.holder d).samples.erase e) ∧ (e.jobbed = false → sampleDone e s = s)) ∧
  (∀ (s : State) (e : Sample) (check : Bytes) (a : Nat), (e.matrix = false → e.outAt = [(a, check.length)] →
      actOnVerdict e check s = poke s a check) ∧
    (e.matrix = true → e.jobbed = true → (s.sl e.ctx).step = e.step → ((actOnVerdict e check s).sl e.ctx).soldierFail = true)) ∧
  (∀ (s : State) (session x d tol occ memClass holdS refAddr st : Nat) (sp : List (Int × Nat × Nat)), s.Serving →
    st = replayStatus s session x d sp tol occ memClass holdS refAddr →
    (st ≠ stOk → exec (.thermalReplay session x d sp tol occ memClass holdS refAddr) s = .next (answer 445 st [] s)) ∧
    (st = stOk → ∃ t, exec (.thermalReplay session x d sp tol occ memClass holdS refAddr) s = .next t ∧ t.pwr.repCap = true ∧ t.mem = s.mem ∧
      t.hub.replay = some { x := x, die := d, points := sp, tol := tol, occ := occ, memClass := memClass, holdS := holdS, refAddr := refAddr })) ∧
  (∀ (s : State) (r : Replay), s.Serving → s.hub.replay = some r →
    exec .setpointHold s = .next (s.modHub (fun h => { h with replay := some { r with held := true } })) ∧
    (r.held = true → exec .setpointSkip s = .next s) ∧
    (r.held = false → r.at_ + 1 < r.points.length → ∃ t, exec .setpointSkip s = .next t ∧ t.mem = s.mem ∧ t.pwr = s.pwr ∧
      t.hub.replay = some { r with result := r.result ++ [2], at_ := r.at_ + 1, held := false }) ∧
    (r.held = false → r.points.length ≤ r.at_ + 1 → ∃ t, exec .setpointSkip s = .next t ∧ t.mem = s.mem ∧ t.pwr = { s.pwr with repCap := false } ∧
      t.hub.replay = none ∧ t.sent = s.sent ++ [.mgmt 445 stOk ((r.result ++ [2]).map (BitVec.ofNat 8))]))

/-! ## Boot -/

/-- Boot stages: BOOT_FUSE counts the start, calibrates the dies and goes on to the image, to Pupa mode, or fails; the image is taken when it
verifies; BOOT_CARAPACE completes when the stream verifies and applies, no die present has a failed block, every kind of unit is left and no
holder fails its training: the stream is in force, the routes are written, the keys of slot 0 are drawn, and the links train; else it fails with
the reason of what is wrong; the sub-ports train, and BOOT_RELEASE puts the module in service; a stage that fails or passes its
limit is recorded, loses everything volatile and is tried again (R492 to R500, R504, R505, R515, R516). -/
def Obligations.BootStages : Prop :=
  (∀ (s : State) (cal : List CalFinding), s.pwr.st.isDark = false → inStage s .fuse = true →
    (∀ w, exec (.bootFuse cal (some (1, w))) s = .next (failStart 0x01 w s)) ∧
    (∀ w, ∃ t, exec (.bootFuse cal (some (2, w))) s = .next t ∧ t.pwr.st = .halted ∧ t.pwr.faultN = false ∧ t.mem = [] ∧ t.flash = s.flash) ∧
    (pupaReason { s with boot := { countStart s.boot with trial := s.boot.trialMark } } = none → ∃ t, exec (.bootFuse cal none) s = .next t ∧
      t.boot.stage = .image ∧ t.boot.starts = bump s.boot.starts 1 ∧ t.boot.armed = true ∧ t.boot.fuses = (countStart s.boot).fuses ∧
      t.boot.trialMark = false ∧ t.boot.trial = s.boot.trialMark ∧ t.sec = { blowOwner s.sec with
        public_ := true, meas4 := Config.measurement 4 [fuseConfig (blowOwner s.sec)] } ∧
      (∀ d, d < 20 → t.die d = bootDie (calMask cal d) d)) ∧
    (∀ r, pupaReason { s with boot := { countStart s.boot with trial := s.boot.trialMark } } = some r → ∃ t, exec (.bootFuse cal none) s = .next t ∧
      t.pwr.st = .pupa ∧ t.pwr.faultN = false ∧ t.boot.stage = .pupa ∧ t.boot.active = false ∧ t.boot.reason = BitVec.ofNat 8 r.1 ∧
      t.boot.armed = false ∧ t.hub.health = .pupa ∧ (∀ d, d < 20 → d ≠ 18 → (t.die d).on = false))) ∧
  (∀ (s : State), (3 ≤ failedStarts s.boot → s.boot.trial = false → pupaReason s = some (0x80, failedStarts s.boot)) ∧
    ((failedStarts s.boot < 3 ∨ s.boot.trial = true) → (s.boot.pupaReq = true → pupaReason s = some (0x81, 0)) ∧
      (s.boot.pupaReq = false → pupaReason s = (if 3 ≤ s.sec.lifecycle then some (0x82, s.sec.lifecycle) else none)))) ∧
  (∀ (s : State) (r d : Nat), (failStart r d s).boot.reason = BitVec.ofNat 8 r ∧ (failStart r d s).boot.detail = BitVec.ofNat 16 d ∧
    (failStart r d s).boot.retry = true ∧ (failStart r d s).boot.active = false ∧ (failStart r d s).boot.stage = s.boot.stage ∧
    (failStart r d s).boot.history = (({ ok := false, stage := stageCode s.boot.stage, reason := r, detail := d % 65536 } : StartRec) ::
      s.boot.history).take 16 ∧ (failStart r d s).mem = [] ∧ (failStart r d s).pwr.st = s.pwr.st ∧ (failStart r d s).flash = s.flash) ∧
  (∀ (s : State), s.pwr.st.isDark = false → inStage s .image = true → ∃ u, exec .bootImage s = .next (match imageCheck s with
      | some f => failStart f.1 f.2 { s with freeCtr := s.freeCtr + 1 }
      | none => u) ∧
    u.boot.stage = .carapace ∧ u.sec.meas2 = imgDigest (imgRead s 0 36864) 1 ∧
    u.sec.meas3 = sha512 (imgDigest (imgRead s 0 36864) 2 ++ imgDigest (imgRead s 0 36864) 3 ++ imgDigest (imgRead s 0 36864) 4) ∧
    u.sec.cdi = hmac512 (keyBytes Config.uds) (sha512 (u.sec.meas2 ++ u.sec.meas3 ++ s.sec.meas4)) ∧
    u.sec.aliasSeed = hkdf u.sec.cdi [] (ascii "YF-ALIAS") 64 ∧ u.sec.imageSvn = leAt (imgRead s 0 36864) 8 4 ∧ u.flash = s.flash) ∧
  (∀ (s : State) (cal : List CalFinding), s.pwr.st.isDark = false → inStage s .carapace = true →
    (∀ f, chooseBase s = .error f → exec (.bootCarapace cal) s = .next (failStart f.1 f.2 s)) ∧
    (∀ e b f, chooseBase s = .ok (e, b) → addStream s e b (shapeConf e.shape) = .error f →
      exec (.bootCarapace cal) s = .next (failStart f.1 f.2 s)) ∧
    (∀ e b c f, chooseBase s = .ok (e, b) → addStream s e b (shapeConf e.shape) = .ok c → logAmends s e.seq s.boot.amends c = .error f →
      exec (.bootCarapace cal) s = .next (failStart f.1 f.2 s)) ∧
    (∀ e b c0 c p q, chooseBase s = .ok (e, b) → addStream s e b (shapeConf e.shape) = .ok c0 → logAmends s e.seq s.boot.amends c0 = .ok c →
      p = { s with plate := c.plate, boot := { s.boot with stream := b, caraSeen := max s.boot.caraSeen (e.seq + 1), applied := s.boot.amends.filter (fun a => match envelopeOf a with | some k => k.baseSeq = e.seq | none => false) } } →
      q = writeRoutes (isolate (fenceDies p)) →
      (∀ d, (List.range 20).find? (fun d => !fenced p d && decide ((p.die d).failMask ≠ 0)) = some d →
        exec (.bootCarapace cal) s = .next (failStart 0x24 (256 * d + (p.die d).failMask.toNat) p)) ∧
      ((∀ d, d < 20 → fenced p d = false → (p.die d).failMask = 0) →
        (missingKinds p ≠ 0 → exec (.bootCarapace cal) s = .next (failStart 0x25 (missingKinds p) p)) ∧
        (∀ d, missingKinds p = 0 → [8, 9, 10, 11, 12, 13, 14, 15, 19].find? (fun d => !fenced q d && decide (calMask cal d ≠ 0)) = some d →
          exec (.bootCarapace cal) s = .next (failStart 0x26 d q)) ∧
        (missingKinds p = 0 → (∀ d, d ∈ [8, 9, 10, 11, 12, 13, 14, 15, 19] → fenced q d = false → calMask cal d = 0) →
          exec (.bootCarapace cal) s = .next (endStage .trainLinks (drawKeys 0 q)))))) ∧
  (∀ (s : State), s.pwr.st.isDark = false → inStage s .trainLinks = true →
    (s.boot.training = false → ∃ t, exec (.bootTrainLinks none) s = .next t ∧ t.boot.incarn = (s.boot.incarn + 1) % 2 ^ 32 ∧ t.boot.training = true ∧
      t.plate = s.plate ∧ (∀ d, (d = 16 ∨ d = 17) → fenced s d = false → (t.die d).calValid = decide ((s.die d).failMask = 0))) ∧
    (∀ l p, s.boot.training = false → p ∈ portsOf s s.plate.split → p.1 ≤ l → l < p.1 + p.2 → exec (.bootTrainLinks (some l)) s =
      .next (failStart 0x30 l { s with boot := { s.boot with incarn := (s.boot.incarn + 1) % 2 ^ 32 } })) ∧
    (s.boot.training = true → exec .trainWait s = .next (endStage .release s))) ∧
  (∀ (s : State) (g : Stage), (endStage g s).boot.stage = g ∧
    (endStage g s).boot.ends = s.boot.ends.set (stageCode s.boot.stage) (BitVec.ofNat 32 (usOf (s.clk - s.boot.fuseClk)))) ∧
  (∀ (s : State), s.pwr.st.isDark = false → inStage s .release = true → ∃ t, exec .bootRelease s = .next t ∧ t.pwr.st = .on ∧
    t.boot.stage = .released ∧ t.boot.active = false ∧ t.boot.base = some s.boot.fuses ∧ t.boot.armed = false ∧ t.boot.trialMark = false ∧
    t.hub.health = s.boot.hState ∧ t.hub.poolC = s.boot.poolC ∧ t.hub.poolO = s.boot.poolO ∧
    t.sec.svn = (if s.boot.commitSvn then max s.sec.svn s.sec.imageSvn else s.sec.svn) ∧
    t.ctxs = (buildTables (confNow s) s).ctxs ∧ t.queues = (buildTables (confNow s) s).queues) ∧
  (∀ (s : State), s.pwr.st = .starting →
    (s.boot.active = true → exec .stageTimeout s = .next (failStart 0x7E (stageCode s.boot.stage) s)) ∧
    (s.boot.retry = true → exec .bootRetry s = .next (warmReset s)) ∧ (s.boot.retry = false → exec .bootRetry s = .next s))

/-- The boot controller and the readouts of Pupa mode: the operator restarts the module, also as a trial, or into Pupa mode; a die's own
self-test, the logs and the fuses are answered in Pupa mode; a fetched image or base is programmed and verified (R497, R498, R501, R506,
R507, R516, R519). -/
def Obligations.BootControl : Prop :=
  (∀ (s : State) (v : Word) (a : Nat), s.pwr.st.isDark = false → a = csrBase + 0x400030 →
    (exec (.bootCtlRestart .firmware v) s = .next (csrAnswer .firmware a stPerm 0 s) ∧
     exec (.bootCtlEnterPupa .firmware v) s = .next (csrAnswer .firmware a stPerm 0 s)) ∧
    (∀ mask, exec (.dieSelfTest .firmware v mask) s = .next (csrAnswer .firmware a stPerm 0 s)) ∧
    (bits v.toNat 0 24 = 0 →
      (bit v.toNat 31 = true → bit v.toNat 30 = false → s.pwr.st ≠ .pupa →
        exec (.bootCtlRestart .operator v) s = .next (warmReset (csrAnswer .operator a stOk 0 s))) ∧
      (bit v.toNat 31 = true → bit v.toNat 30 = false → s.pwr.st = .pupa → ∃ t, exec (.bootCtlRestart .operator v) s = .next t ∧
        t.pwr.st = .starting ∧ t.boot.trialMark = true ∧ t.boot.stage = .fuse ∧ t.mem = []) ∧
      (bit v.toNat 30 = true → ∃ t, exec (.bootCtlEnterPupa .operator v) s = .next t ∧ t.boot.pupaReq = true ∧ t.pwr.faultN = false ∧
        t.pwr.st = .starting ∧ t.mem = [] ∧ t.sent = s.sent ++ [.csr .operator a stOk 0]) ∧
      (∀ mask, s.pwr.st = .pupa → bit v.toNat 29 = true → bits v.toNat 24 5 < 20 → exec (.dieSelfTest .operator v mask) s =
        .next (answer 501 stOk (le 1 (bits v.toNat 24 5) ++ le 1 mask) (csrAnswer .operator a stOk 0 s))))) ∧
  (∀ (s : State) (n : Nat), s.pwr.st = .pupa →
    (isOperator s n = false → exec (.logReadout (.mgmt n)) s = .next (answer 501 stPerm [] s) ∧
      exec (.fuseReadout (.mgmt n)) s = .next (answer 501 stPerm [] s)) ∧
    (isOperator s n = true → compDown s 3 = false → ∃ b, exec (.logReadout (.mgmt n)) s = .next (answer 501 stOk
        (le 4 (readBoot s 0) ++ s.boot.history.flatMap startBytes ++ b ++ flashRead s 0x100000 0x800000) s) ∧
      exec (.fuseReadout (.mgmt n)) s = .next (answer 501 stOk (fuseBytes s.sec ++ (takeBytes 80 s).1 ++ le 2 s.boot.fuses) (takeBytes 80 s).2))) ∧
  (∀ (s : State) (n len : Nat) (cara : Bool) (data : Bytes), (s.pwr.st = .on ∨ s.pwr.st = .pupa) →
    (isOperator s n = false → exec (.imageFetch (.mgmt n) cara len data) s = .next (answer 506 stPerm [] s)) ∧
    (isOperator s n = true → compDown s 3 = false →
      ((len = 0 ∨ (if cara then 0x800000 else 0x8000000) < len) → exec (.imageFetch (.mgmt n) cara len data) s = .next (answer 506 stBad [] s)) ∧
      (0 < len → len ≤ (if cara then 0x800000 else 0x8000000) →
        ((s.boot.fetchSt = 1 ∨ s.boot.fetchSt = 2) → exec (.imageFetch (.mgmt n) cara len data) s = .next (answer 506 stConflict [] s)) ∧
        (s.boot.fetchSt ≠ 1 → s.boot.fetchSt ≠ 2 → exec (.imageFetch (.mgmt n) cara len data) s = .next (answer 506 stOk [] { s with
          flash := memWrite flashFill s.flash (if cara then fetchBase s else 0x1000000) (data.take len)
          boot := { s.boot with fetchSt := 1, fetchWhy := 0, fetchPct := BitVec.ofNat 7 ((data.take len).length * 100 / len), fetchCara := cara,
                                fetchAt := (if cara then fetchBase s else 0x1000000), fetchLen := len } }))))) ∧
  (∀ (s : State) (why : Option Nat), (s.pwr.st = .on ∨ s.pwr.st = .pupa) →
    why = (if s.boot.fetchCara then fetchedFault s else (imageCheck s).map (·.1)) →
    (s.boot.fetchSt ≠ 1 → exec .fetchVerify s = .next s) ∧
    (s.boot.fetchSt = 1 → ∃ t, exec .fetchVerify s = .next t ∧ t.flash = s.flash ∧ t.mem = s.mem ∧
      t.boot.fetchSt = (if why.isSome || decide (s.boot.fetchPct.toNat < 100) then 4 else 3) ∧
      (s.boot.fetchPct.toNat < 100 → t.boot.fetchWhy = BitVec.ofNat 8 (why.getD 0)) ∧
      (t.boot.fetchSt = 3 → s.boot.fetchCara = true → t.boot.amends = [])))

/-! ## Molts, lending, amendments -/

/-- Molts: an announced member that stands at its boundary holds; when its work is done it adopts the new epoch and carapace; slots and the
working weights of stages that change rank move, what cannot be read being rebuilt from parity; digests are verified, parity is refreshed and the switch made, each phase ended by an agreement; a failed agreement or the timeout ends the molt,
reverted under the new epoch or handed to recovery; a recovery restores the generation that the survivors hold (R340 to R347, R403, R464). -/
def Obligations.MoltsRun : Prop :=
  (∀ (s : State) (x : Nat) (m : Molt), (s.sl x).isOpen = false → (s.sl x).phase = .idle → (s.sl x).pend = [] → m.phase = .none →
    ((m.fresh = true ∨ m.sMin ≤ (s.sl x).hdr.step + 1) → ((announceMolt x m s).ctx x).st = .molting ∧ ((announceMolt x m s).ctx x).molt.phase = .hold) ∧
    (m.fresh = false → (s.sl x).hdr.step + 1 < m.sMin → (s.sl x).dead = [] → (s.sl x).cur = none →
      ((announceMolt x m s).ctx x).st = (s.ctx x).st ∧ ((announceMolt x m s).ctx x).molt.phase = .announce)) ∧
  (∀ (s : State) (x : Nat) (j : Job), s.Serving → (s.ctx x).molt.phase = .hold → (s.ctx x).molt.job = some j → workRuns s x = false →
    (s.ctx x).started = 0 → (∀ k ∈ s.colls, k.x ≠ x) → (s.ctx x).molt.recover = false → ∃ t, exec (.moltHold x) s = .next (deliver 65536 t) ∧
      (t.ctx x).st = .loading ∧ (t.ctx x).job = some j ∧ (t.sl x).epoch = j.epoch ∧ (t.sl x).cur = none ∧ (t.ctx x).molt.phase = .transfer ∧
      (t.ctx x).left = none ∧ t.mem = s.mem ∧ (∀ r ∈ t.red, r.x ≠ x) ∧
      ((s.ctx x).molt.fresh = true → (t.sl x).lastRecEpoch = some (j.epoch - 1) ∧ (t.ctx x).jobTag = j.jobTag ∧
        (∀ d, (s.ctx x).molt.desc = some d → (t.ctx x).jobSeed = d.1 ∧ (t.ctx x).ledger = d.2))) ∧
  (∀ (s : State) (x : Nat) (new : Job), s.Serving → (s.ctx x).molt.phase = .transfer → (s.ctx x).job = some new → (s.ctx x).molt.begun = false →
    ((s.ctx x).molt.recover = false → ∀ v o, v = modMolt x (fun m => { m with begun := true }) s → o = (s.ctx x).molt.old.getD new →
      exec (.moltTransfer x) s = .next (deliver 65536 (checkMolt x (castHdr x (mendTransfer x o (moveStages x o new
        ((movedSlots o new).foldl (fun t e => moveSlot v x e.1 (slotDev o e.2.1) new e.2.1 e.2.2 t) v))))))) ∧
    ((s.ctx x).molt.recover = true → ∀ old, (s.ctx x).molt.old = some old →
      ((s.ctx x).molt.checkpoint = true → exec (.recoverRestore x) s = .next (deliver 65536 (checkMolt x (modMolt x (fun m => { m with begun := true })
        (s.modSl x (fun l => { l with hdr := hdrStart new new.jobTag })))))) ∧
      ((s.ctx x).molt.checkpoint = false → (s.ctx x).molt.entries ≠ [] →
        recoverStep old ((s.ctx x).molt.entries.filter (fun e => old.members.contains e.dev)) = none →
        exec (.recoverRestore x) s = .next (deliver 65536 (faultCtx x stMem (endMoltWith x stMem 3 s)))) ∧
      (∀ p, (s.ctx x).molt.checkpoint = false → (s.ctx x).molt.entries ≠ [] →
        recoverStep old ((s.ctx x).molt.entries.filter (fun e => old.members.contains e.dev)) = some p → ∃ u v work,
        u = restoreSnapshot x (modMolt x (fun m => { m with
          begun := true, p := some p, entries := (s.ctx x).molt.entries.filter (fun e => old.members.contains e.dev)
          tStar := (((s.ctx x).molt.entries.filter (fun e => old.members.contains e.dev)).map (·.step)).foldl max 0 }) s) ∧
        v = mendTransfer x old ((List.zip old.slots new.slots).zipIdx.foldl (fun w e =>
          if slotCount new e.2 = 0 then w
          else if ((s.ctx x).molt.entries.filter (fun e => old.members.contains e.dev)).any (fun k => k.dev = slotDev old e.1.1) then
            moveSlot u x e.2 (slotDev old e.1.1) new e.1.1 e.1.2 w
          else if slotDev new e.1.2 = w.plate.devIndex && decide ((getKey (s.ctx x).molt.heirs e.1.1.member).getD 0xFFFF ≠ w.plate.devIndex) then
            moveSlot u x e.2 ((getKey (s.ctx x).molt.heirs e.1.1.member).getD 0xFFFF) new e.1.1 e.1.2 w
          else w) u) ∧
        work = (((s.ctx x).molt.heirs.filter (fun h => h.2 = v.plate.devIndex)).map (·.1)).flatMap (fun l => rebuildRows v x l none) ∧
        exec (.recoverRestore x) s = .next (deliver 65536 (driveRebuild (work.length + 1) x (castHdr x (modMolt x (fun m => { m with rebuild := work }) v))))))) ∧
  (∀ (s src : State) (x i dev : Nat) (j : Job) (a b : SlotEnt), dev ≠ s.plate.devIndex → slotDev j b ≠ s.plate.devIndex →
    moveSlot src x i dev j a b s = s) ∧
  (∀ (s : State) (x st ok bad : Nat), s.Serving → (s.ctx x).molt.agree = some (st, ok, bad) →
    (st ≠ stOk → exec (.moltAgreement x) s = .next (deliver 65536 (failMolt x st s))) ∧
    (st = stOk → ok ≠ (s.ctx x).molt.group.length → exec (.moltAgreement x) s = .next (deliver 65536 (failMolt x stPeerLost s))) ∧
    (st = stOk → ok = (s.ctx x).molt.group.length → bad ≠ 0 → exec (.moltAgreement x) s = .next (deliver 65536 (failMolt x
      (if (s.ctx x).molt.phase = .verify then stDigest else if (s.ctx x).molt.phase = .transfer then stMem else stTimeout) s))) ∧
    (st = stOk → ok = (s.ctx x).molt.group.length → bad = 0 →
      ((s.ctx x).molt.phase = .transfer → exec (.moltAgreement x) s = .next (deliver 65536 (checkMolt x (startVerify x (moltPhase x .verify s))))) ∧
      ((s.ctx x).molt.phase = .verify → exec (.moltAgreement x) s = .next (deliver 65536 (checkMolt x (startParity x (moltPhase x .parity s))))) ∧
      ((s.ctx x).molt.phase = .parity → exec (.moltAgreement x) s = .next (deliver 65536 (if edgeReached (moltPhase x .switch s) x then
        finishSwitch x (moltPhase x .switch s) else modMolt x (fun m => { m with waits := true }) (moltPhase x .switch s)))))) ∧
  (∀ (s : State) (x : Nat), s.Serving →
    ((s.ctx x).molt.phase ∈ [.hold, .transfer, .verify, .parity] → exec (.moltTimeout x) s = .next (deliver 65536 (failMolt x stTimeout s))) ∧
    ((s.ctx x).molt.phase = .switch → (s.ctx x).molt.waits = true → exec (.lendSwitchWait x) s = .next (deliver 65536 (finishSwitch x s))) ∧
    (s.ended = [] → (s.ctx x).molt.phase = .none → exec (.moltTimeout x) s = .next s ∧ exec (.lendSwitchWait x) s = .next s)) ∧
  (∀ (s : State) (x st : Nat), (s.ctx x).molt.phase ∈ [.hold, .transfer, .verify, .parity] →
    (((s.ctx x).molt.recover = true ∨ st = stPeerLost ∨ st = stTimeout) → ((failMolt x st s).ctx x).st = .loading ∧
      ((failMolt x st s).ctx x).molt.phase = .none ∧ ((failMolt x st s).ctx x).molt.result = 3 ∧ ((failMolt x st s).ctx x).molt.status = st ∧
      (∀ j, (s.ctx x).molt.phase = .hold → (s.ctx x).molt.job = some j → ((failMolt x st s).sl x).epoch = j.epoch ∧
        ((failMolt x st s).ctx x).job = some j)) ∧
    ((s.ctx x).molt.recover = false → st ≠ stPeerLost → st ≠ stTimeout → (s.ctx x).molt.fresh = false → ∀ old, (s.ctx x).molt.old = some old →
      ((failMolt x st s).ctx x).st = .ready ∧ ((failMolt x st s).ctx x).job = some { old with epoch := (s.ctx x).molt.epoch } ∧
      ((failMolt x st s).ctx x).molt.phase = .none ∧ ((failMolt x st s).ctx x).molt.result = 2))

/-- Lending and amendments: a CONVERT of the coordinator turns an edge into a molt; cells pass to the serving context at a start and come back
once it has drained, at the latest after the drain limit; an amendment is checked, stored and put into force, or refused with its status and
no effect, a molt asked for over MGMT being refused on the control queue of its context too (R340, R344, R349, R350, R402 to R405, R508, R509, R516, R517). -/
def Obligations.LendingAndAmendments : Prop :=
  (∀ (s : State) (dev x : Nat) (cur : Job) (msg : Bytes), s.Serving →
    ((leAt msg 0 1 ≠ 0x10 ∨ leAt msg 2 2 ≠ 32 ∨ (msg.drop 8).length < 32) → exec (.convert dev msg) s = .next s) ∧
    (leAt msg 0 1 = 0x10 → leAt msg 2 2 = 32 → 32 ≤ (msg.drop 8).length → convertCtx s (leAt (msg.drop 8) 0 4) = some x → knownJob (s.ctx x) = some cur →
      (coordinator cur = some dev → exec (.convert dev msg) s = .next (convertEdge x cur (msg.drop 8) s)) ∧
      (coordinator cur ≠ some dev → exec (.convert dev msg) s = .next s))) ∧
  (∀ (s : State) (x : Nat) (cur : Job) (d : Bytes) (l : Lend), cur.lend[leAt d 4 1]? = some l →
    ((s.ctx x).molt.phase ≠ .none → convertEdge x cur d s = postMolt x stConflict s) ∧
    ((s.ctx x).molt.phase = .none → (l.cells = true ∨ leAt d 16 4 ≤ cur.epoch) → convertEdge x cur d s = postMolt x stBad s)) ∧
  (∀ (s : State) (x w : Nat) (l : Lend) (cs : List Nat), s.Serving → windowOf s x w = some l → l.cells = true → (s.ctx x).molt.phase = .none →
    x ≠ l.serveCtx → cs = (lentCells s l).filter (fun c => (s.ctx x).owned.contains c) →
    (l.startConv = false → atIdle s x = true → ∃ t, exec (.lendingWindowStart x w) s = .next t ∧
      (t.ctx x).owned = (s.ctx x).owned.filter (fun k => !cs.contains k) ∧ (t.ctx l.serveCtx).owned = (s.ctx l.serveCtx).owned ++ cs ∧
      windowOf t x w = some { l with startConv := true, st := 2, uncertain := timeUncertain s } ∧ t.mem = s.mem) ∧
    (l.startConv = true → l.endConv = false → l.draining = false → ∃ u, exec (.lendEnd x w) s = .next (if atIdle u x then takeBack x w u else u) ∧
      (u.ctx l.serveCtx).admits = false ∧ windowOf u x w = some { l with draining := true } ∧ u.mem = s.mem) ∧
    ((l.startConv = true ∨ atIdle s x = false) → exec (.lendingWindowStart x w) s = .next s)) ∧
  (∀ (s : State) (x w : Nat) (l : Lend) (cs : List Nat), windowOf s x w = some l → l.cells = true → l.draining = true → l.endConv = false →
    (s.ctx x).molt.phase = .none → x ≠ l.serveCtx → cs = (lentCells s l).filter (fun c => (s.ctx l.serveCtx).owned.contains c) →
    (drained s l = false → takeBack x w s = s) ∧
    (drained s l = true → ((takeBack x w s).ctx l.serveCtx).admits = true ∧
      ((takeBack x w s).ctx l.serveCtx).owned = (s.ctx l.serveCtx).owned.filter (fun k => !cs.contains k) ∧
      ((takeBack x w s).ctx x).owned = sortBy (fun a b => decide (a < b)) ((s.ctx x).owned ++ cs) ∧
      windowOf (takeBack x w s) x w = some { l with endConv := true, draining := false, st := 3, uncertain := timeUncertain s })) ∧
  (∀ (s : State) (x w : Nat) (l : Lend), s.Serving → windowOf s x w = some l →
    (l.draining = false → exec (.drainLimit x w) s = .next s) ∧
    (l.draining = true → ∃ u, exec (.drainLimit x w) s = .next (if atIdle u x then takeBack x w u else u).settle ∧
      u = s.queues.foldl (fun t q => if q.2.ctx = l.serveCtx then q.2.flight.foldl (fun v c =>
        if c.counted && c.status.isNone && cOp c.bytes = 0x20 then stopProgram q.1 c.idx (finishCmd q.1 c.idx stPreempted 0 0 v) else v) t else t) s)) ∧
  (∀ (s : State) (path : ReqPath) (b : Bytes), s.Serving → (∀ n, path = .mgmt n → compDown s 3 = false) → ∃ t,
    exec (.amendment path b) s = .next (deliver 65536 t).settle ∧
    ((0x800000 < b.length ∨ envelopeOf b = none) → t = amendAnswer path stBad s) ∧
    (∀ e, b.length ≤ 0x800000 → envelopeOf b = some e →
      ((e.kind ≠ 1 ∨ (e.serial ≠ 0 ∧ e.serial ≠ Config.serial.toNat)) → t = amendAnswer path stBad s) ∧
      (∀ l, e.kind = 1 → (e.serial = 0 ∨ e.serial = Config.serial.toNat) → streamPlates e b = .ok l →
        ((amendSigned s (confNow s) e b l = false ∨ pathFits s path e.signer (sectionCtxs l) = false) → t = amendAnswer path stPerm s) ∧
        (amendSigned s (confNow s) e b l = true → pathFits s path e.signer (sectionCtxs l) = true →
          ((logFull s.boot.amends b = true ∨ ∀ k, envelopeOf s.boot.stream = some k → k.seq ≠ e.baseSeq) →
            t = refuseAmend path (sectionCtxs l) stConflict s) ∧
          (∀ k f, envelopeOf s.boot.stream = some k → k.seq = e.baseSeq → logFull s.boot.amends b = false →
            confOf s s.boot.stream (s.boot.applied ++ [b]) = .error f → t = refuseAmend path (sectionCtxs l) stBad s) ∧
          (∀ k c, envelopeOf s.boot.stream = some k → k.seq = e.baseSeq → logFull s.boot.amends b = false →
            confOf s s.boot.stream (s.boot.applied ++ [b]) = .ok c →
            (amendStatus s (confNow s) c.trim (sectionCtxs l) ≠ stOk →
              t = refuseAmend path (sectionCtxs l) (amendStatus s (confNow s) c.trim (sectionCtxs l)) s) ∧
            (∀ u, amendStatus s (confNow s) c.trim (sectionCtxs l) = stOk →
              u = (sectionCtxs l).foldl (fun v x => match c.trim.jobs.find? (fun j => j.1.ctx = x) with
                | some j => applySection j.1 j.2 v | none => v) (applyPlates (confNow s) c.trim (storeAmend b s)) →
              (∀ n, path = .mgmt n → t = answer 509 stOk [] u) ∧
              (∀ y, path = .control y → t = if moltOn (u.ctx y) then u else postMolt y stOk u))))))) ∧
  (∀ (s : State) (path : ReqPath) (xs : List Nat) (st : Nat), (∀ y, path = .control y → refuseAmend path xs st s = postMolt y st s) ∧
    (∀ n, path = .mgmt n → refuseAmend path xs st s =
      (xs.filter (fun x => (s.ctx x).st ≠ .empty)).foldl (fun t x => postMolt x st t) (answer 509 st [] s))) ∧
  (∀ (s : State) (b : Bytes), (storeAmend b s).boot.amends = s.boot.amends ++ [b] ∧ (storeAmend b s).boot.applied = s.boot.applied ++ [b] ∧
    (storeAmend b s).sec.caraSeq = s.sec.caraSeq + 1 ∧ (storeAmend b s).mem = s.mem ∧ (storeAmend b s).flash = s.flash)

/-! ## Ownership and SPDM -/

/-- The operator's requests: a change of ownership signed by both owners waits for the next start, a CAK is stored, an RMA signed by owner and
maker destroys the keys and resets the device, a debug grant is logged and answered, and the crash area, the profile buffer, the Firefly ring,
the crash summaries and the error log are read; without the authority they are refused
(R474, R482, R488, R489). -/
def Obligations.OperatorRequests : Prop :=
  (∀ (s : State) (n : Nat) (o : Bytes × Bytes) (rsa mldsa a b : Bytes), s.Serving →
    (isOperator s n = false → exec (.ownershipChange n rsa mldsa a b) s = .next (answer 474 stPerm [] s) ∧
      exec (.enterRma n a b) s = .next (answer 488 stPerm [] s) ∧ (∀ k key, exec (.cakInstall n k key) s = .next (answer 489 stPerm [] s)) ∧
      (∀ kind at_ len, exec (.debugGrant n kind at_ len) s = .next (answer 488 stPerm [] s))) ∧
    (isOperator s n = true → compDown s 3 = false → ownerHashes s.sec = some o →
      (allEmpty s = true → s.sec.owners.length < 4 → s.sec.ownerNew = none → exec (.ownershipChange n rsa mldsa a b) s =
        .next (if Config.hashSigned o.1 (rsa ++ mldsa) a && Config.hashSigned rsa (rsa ++ mldsa) b then
          answer 474 stOk [] { s with sec := { s.sec with ownerNew := some (rsa, mldsa) } } else answer 474 stPerm [] s)) ∧
      ((allEmpty s = false ∨ 4 ≤ s.sec.owners.length ∨ s.sec.ownerNew ≠ none) → exec (.ownershipChange n rsa mldsa a b) s =
        .next (if Config.hashSigned o.1 (rsa ++ mldsa) a && Config.hashSigned rsa (rsa ++ mldsa) b then answer 474 stConflict [] s
          else answer 474 stPerm [] s)) ∧
      (allEmpty s = true → exec (.enterRma n a b) s = .next (if Config.hashSigned o.1 (ascii "RMA") a && onaovSigned s (ascii "RMA") b then
          warmReset (answer 488 stOk [] { s with sec := { s.sec with lifecycle := max s.sec.lifecycle 3, slotLive := 0, slotKeys := [], caks := [] } })
        else answer 488 stPerm [] s)) ∧
      (allEmpty s = false → exec (.enterRma n a b) s = .next (if Config.hashSigned o.1 (ascii "RMA") a && onaovSigned s (ascii "RMA") b then
        answer 488 stConflict [] s else answer 488 stPerm [] s)))) ∧
  (∀ (s : State) (n k : Nat) (key : Bytes), s.Serving → isOperator s n = true → compDown s 3 = false →
    (k < 16 → key ≠ [] → exec (.cakInstall n k key) s = .next (answer 489 stOk [] { s with sec := { s.sec with caks := s.sec.caks.set k key } })) ∧
    ((16 ≤ k ∨ key = []) → exec (.cakInstall n k key) s = .next (answer 489 stBad [] s))) ∧
  (∀ (s : State) (n kind at_ len : Nat), s.Serving → isOperator s n = true →
    exec (.debugGrant n 2 at_ len) s = .next (answer 488 stOk [] (logDebug 2 s)) ∧
    exec (.debugGrant n 4 at_ len) s = .next (answer 488 stOk (ringAndCrashes s) s) ∧
    exec (.debugGrant n 5 at_ len) s = .next (answer 488 stOk (errLogBytes s) s) ∧
    (requestStatus s .operator false at_ len = (stOk, none) →
      (∀ b, readMem s at_ len = some b → exec (.debugGrant n 3 at_ len) s = .next (answer 488 stOk b s)) ∧
      (readMem s at_ len = none → exec (.debugGrant n 3 at_ len) s = .next (answer 488 stMem [] (notePoison s at_ len)))) ∧
    (requestStatus s .operator false at_ len ≠ (stOk, none) → exec (.debugGrant n 3 at_ len) s = .next (answer 488 stPerm [] s)) ∧
    (kind ∉ [2, 3, 4, 5] → requestStatus s .operator false at_ len = (stOk, some kind) →
      (∀ b, readMem s at_ len = some b → exec (.debugGrant n kind at_ len) s = .next (answer 488 stOk b (logDebug kind s))) ∧
      (readMem s at_ len = none → exec (.debugGrant n kind at_ len) s = .next (answer 488 stMem [] (notePoison (logDebug kind s) at_ len)))) ∧
    (kind ∉ [2, 3, 4, 5] → requestStatus s .operator false at_ len ≠ (stOk, some kind) → exec (.debugGrant n kind at_ len) s = .next (answer 488 stPerm [] s))) ∧
  (∀ (s : State) (b : Nat), (logDebug b s).sec.debugLog.length = s.sec.debugLog.length + 1 ∧ bit (logDebug 2 s).sec.debugSt.toNat 2 = true ∧
    (logDebug b s).mem = s.mem ∧ (logDebug b s).sec.sessions = s.sec.sessions)

/-- SPDM: version, capabilities and algorithms are negotiated in that order; certificates, measurements, challenges and sessions need them;
a session opens, is finished with the authority of its keys, rotates them and times out; a message of a peer under re-admission moves the run on
(R353, R354, R481 to R485). -/
def Obligations.SpdmResponds : Prop :=
  (∀ (s : State) (p : SpdmPath) (flags : Nat) (offer : Bytes), s.pwr.st.isDark = false → spdmUp s p = true →
    exec (.getVersion p) s = .next (spdmReply p 0x04 [0x12, 0x13] [] { s with sec := { s.sec with
      versioned := p :: s.sec.versioned.filter (· ≠ p), negotiated := s.sec.negotiated.filter (· ≠ p) } }) ∧
    (s.sec.versioned.contains p = true → exec (.getCapabilities p flags) s = .next (spdmReply p 0x61 [spdmCaps] [] s) ∧
      (bit (leAt offer 8 4) 6 = true → bit (leAt offer 12 4) 2 = true → exec (.negotiateAlgorithms p offer) s = .next (spdmReply p 0x63 [64, 4]
        (Config.spdmBody 0x63 [] offer) { s with sec := { s.sec with negotiated := p :: s.sec.negotiated.filter (· ≠ p) } })) ∧
      ((bit (leAt offer 8 4) 6 = false ∨ bit (leAt offer 12 4) 2 = false) → ∃ f, exec (.negotiateAlgorithms p offer) s =
        .next (spdmReply p 0x63 f (Config.spdmBody 0x63 [] offer) s))) ∧
    (s.sec.versioned.contains p = false → exec (.getCapabilities p flags) s = .next (spdmError p erUnexpected s) ∧
      exec (.negotiateAlgorithms p offer) s = .next (spdmError p erUnexpected s))) ∧
  (∀ (s : State) (p : SpdmPath) (off len index : Nat) (session : Option Nat) (nonce exch : Bytes), s.pwr.st.isDark = false → spdmUp s p = true →
    (s.sec.negotiated.contains p = false → exec (.getCertificate p 0 off len) s = .next (spdmError p erUnexpected s) ∧
      exec (.getMeasurements p session index nonce) s = .next (spdmError p erUnexpected s) ∧
      exec (.keyExchange p 0 exch) s = .next (spdmError p erUnexpected s) ∧ exec (.challenge p 0 nonce) s = .next (spdmError p erUnexpected s)) ∧
    (s.sec.negotiated.contains p = true →
      exec (.getCertificate p 0 off len) s = .next (if (Config.certChain false).length ≤ off then spdmError p erInvalid s else
        let part := slice (Config.certChain false) off (min len ((Config.certChain false).length - off))
        spdmReply p 0x02 [0, part.length, (Config.certChain false).length - off - part.length] part s) ∧
      exec (.getMeasurements p session 0 nonce) s = .next (spdmReply p 0x60 [8] [] s) ∧
      (index ≠ 0 → measIndices index ≠ [] → nonce.length = 32 → ∃ u r, exec (.getMeasurements p session index nonce) s =
          .next (spdmReply p 0x60 [(measIndices index).length, r.length] (r ++ nonce ++ fixLen 512 (Config.rsaSign s.sec.aliasSeed (r ++ nonce))) u) ∧
        u = { s with sec := { s.sec with reports := s.sec.reports + b2n ((measIndices index).contains 0xF0) } } ∧
        r = (measIndices index).flatMap (fun i => measBlock i (measType i) (measValue u i nonce (reportScope u session)))) ∧
      (index ≠ 0 → (measIndices index = [] ∨ nonce.length ≠ 32) → exec (.getMeasurements p session index nonce) s = .next (spdmError p erInvalid s)) ∧
      (s.sec.sessions.length < 16 → ∀ d, d = takeDraw s → exec (.keyExchange p 0 exch) s = .next (spdmReply p 0x64 [s.sec.nextSid]
        (Config.spdmBody 0x64 [s.sec.nextSid] (exch ++ keyBytes d.1)) { d.2 with sec := { d.2.sec with
          sessions := s.sec.sessions ++ [{ id := s.sec.nextSid, path := p, clk := s.clk }], nextSid := s.sec.nextSid + 1 } })) ∧
      (16 ≤ s.sec.sessions.length → exec (.keyExchange p 0 exch) s = .next (spdmError p erSessions s)) ∧
      (nonce.length = 32 → exec (.challenge p 0 nonce) s = .next (let m := nonce ++ sha512 (Config.certChain false) ++ keyBytes (takeDraw s).1
        spdmReply p 0x03 [0] (m ++ fixLen 512 (Config.rsaSign s.sec.aliasSeed m)) (takeDraw s).2)))) ∧
  (∀ (s : State) (sid op : Nat) (e : Session) (rsa mldsa proof : Bytes), s.pwr.st.isDark = false → s.sec.sessions.find? (fun e => e.id = sid) = some e →
    spdmUp s e.path = true →
    (e.ready = false → exec (.finish sid [] [] proof) s = .next (spdmReply e.path 0x65 [sid] [] { s with sec := { s.sec with
        sessions := s.sec.sessions.map (fun k => if k.id = sid then { k with ready := true, auth := .none, clk := s.clk } else k) } }) ∧
      (rsa ≠ [] → exec (.finish sid rsa mldsa proof) s = .next (if Config.finishVerify rsa proof then
        spdmReply e.path 0x65 [sid] [] { s with sec := { s.sec with
          sessions := s.sec.sessions.map (fun k => if k.id = sid then { k with ready := true, auth := authorityOf s rsa mldsa, clk := s.clk } else k) } }
        else spdmError e.path erDecrypt s)) ∧
      exec (.keyUpdate sid op) s = .next (spdmError e.path erUnexpected s)) ∧
    (e.ready = true → exec (.finish sid rsa mldsa proof) s = .next (spdmError e.path erUnexpected s) ∧
      (1 ≤ op → op ≤ 3 → exec (.keyUpdate sid op) s = .next (spdmReply e.path 0x69 [sid, op] [] { s with sec := { s.sec with
        sessions := s.sec.sessions.map (fun k => if k.id = sid then { k with keyGen := k.keyGen + (if op = 3 then 0 else 1), clk := s.clk } else k) } })) ∧
      ((op = 0 ∨ 3 < op) → exec (.keyUpdate sid op) s = .next (spdmError e.path erInvalid s)))) ∧
  (∀ (s : State) (sid : Nat), s.pwr.st.isDark = false → exec (.spdmSessionTimeout sid) s =
    .next { s with sec := { s.sec with sessions := s.sec.sessions.filter (fun e => e.id ≠ sid) } }) ∧
  (∀ (s : State) (p : SpdmPath), (∀ dev q, p = .fjorum dev → s.rxq.find? (fun r => r.hdr.src = dev && isCtl r 7) = some q → takeSpdm p s = takeRx s q) ∧
    takeSpdm .mgmt s = s ∧ (∀ dev, s.rxq.find? (fun r => r.hdr.src = dev && isCtl r 7) = none → takeSpdm (.fjorum dev) s = s)) ∧
  (∀ (s u : State) (dev inc step : Nat) (msg : Bytes), s.Serving → u = takeSpdm (.fjorum dev) s →
    exec (.spdm .mgmt msg) s = .next s ∧ ((s.peer dev).readmit = none → exec (.spdm (.fjorum dev) msg) s = .next s) ∧
    ((compDown s 3 = true ∨ hubStalled s = true) → exec (.spdm (.fjorum dev) msg) s = .next s) ∧
    ((s.peer dev).readmit = some (step, inc) → compDown s 3 = false → hubStalled s = false →
      (step = 1 → leAt msg 1 1 = 0x04 → exec (.spdm (.fjorum dev) msg) s = .next (spdmSend (.fjorum dev) 0xE1 [spdmCaps] [] u)) ∧
      (step = 1 → leAt msg 1 1 = 0x61 → exec (.spdm (.fjorum dev) msg) s = .next (spdmSend (.fjorum dev) 0xE3 [64, 4] [] u)) ∧
      (step = 1 → leAt msg 1 1 = 0x63 → exec (.spdm (.fjorum dev) msg) s = .next (askChain dev 0
        (u.modPeer dev (fun r => { r with readmit := some (2, inc), chainR := [], chainM := [] })))) ∧
      (step = 2 → leAt msg 1 1 = 0x02 → leAt msg 6 2 = 0 → exec (.spdm (.fjorum dev) msg) s = .next (spdmSend (.fjorum dev) 0xE0 [0xF1] (zeros 32)
        (u.modPeer dev (fun r => { r with chainR := r.chainR ++ slice msg 8 (leAt msg 4 2) })))) ∧
      (step = 3 → leAt msg 1 1 = 0x60 → ∀ r, blockIn msg 0xF0 = some r → exec (.spdm (.fjorum dev) msg) s =
        .next (if reportSigned u dev r then (if reportPolicy u inc r then (endReadmit dev 0 u).modPeer dev (fun p => { p with st := .unknown })
          else endReadmit dev 2 u) else endReadmit dev 1 u)) ∧
      (step ≠ 1 → leAt msg 1 1 = 0x7F → exec (.spdm (.fjorum dev) msg) s = .next (endReadmit dev 1 u))))
end

