-- ==== Sys2Proof/Laws/State.lean ====
section
/-! SUPPORT. Laws/State.lean: one lemma per field per update of State, and the reads of the numbered parts after each update. -/
namespace Sys2Proof.Machine

variable (s : State)

/-- The entry at a key after a key is set. -/
theorem tab_get_set {α : Type} (d : α) (t : Tab α) (k : Nat) (v : α) (j : Nat) :
    (Tab.set t k v).get d j = if j = k then v else t.get d j := by
  induction t with
  | nil =>
    by_cases h : k = j
    · simp [Tab.set, Tab.get, h]
    · simp [Tab.set, Tab.get, h, Ne.symm h]
  | cons e t ih =>
    obtain ⟨i, w⟩ := e
    by_cases h1 : k < i
    · rw [Tab.set, if_pos h1]
      by_cases h : k = j
      · simp [Tab.get, h]
      · simp [Tab.get, h, Ne.symm h]
    · by_cases h2 : k = i
      · subst h2
        by_cases h : k = j
        · simp [Tab.set, Tab.get, h]
        · simp [Tab.set, Tab.get, h, Ne.symm h]
      · by_cases h3 : i = j
        · subst h3
          simp [Tab.set, Tab.get, h1, h2, Ne.symm h2]
        · simp [Tab.set, Tab.get, h1, h2, h3, ih]

/-- A key that was set reads back. -/
@[simp] theorem tab_get_set_same {α : Type} (d : α) (t : Tab α) (k : Nat) (v : α) : (Tab.set t k v).get d k = v := by
  simp [tab_get_set]

/-! ### After modCtx -/
@[simp] theorem State.modCtx_pending (x : Nat) (f : Ctx → Ctx) : (s.modCtx x f).pending = s.pending := rfl
@[simp] theorem State.modCtx_clk (x : Nat) (f : Ctx → Ctx) : (s.modCtx x f).clk = s.clk := rfl
@[simp] theorem State.modCtx_freeCtr (x : Nat) (f : Ctx → Ctx) : (s.modCtx x f).freeCtr = s.freeCtr := rfl
@[simp] theorem State.modCtx_mem (x : Nat) (f : Ctx → Ctx) : (s.modCtx x f).mem = s.mem := rfl
@[simp] theorem State.modCtx_poison (x : Nat) (f : Ctx → Ctx) : (s.modCtx x f).poison = s.poison := rfl
@[simp] theorem State.modCtx_flash (x : Nat) (f : Ctx → Ctx) : (s.modCtx x f).flash = s.flash := rfl
@[simp] theorem State.modCtx_seqs (x : Nat) (f : Ctx → Ctx) : (s.modCtx x f).seqs = s.seqs := rfl
@[simp] theorem State.modCtx_queues (x : Nat) (f : Ctx → Ctx) : (s.modCtx x f).queues = s.queues := rfl
@[simp] theorem State.modCtx_cells (x : Nat) (f : Ctx → Ctx) : (s.modCtx x f).cells = s.cells := rfl
@[simp] theorem State.modCtx_holders (x : Nat) (f : Ctx → Ctx) : (s.modCtx x f).holders = s.holders := rfl
@[simp] theorem State.modCtx_links (x : Nat) (f : Ctx → Ctx) : (s.modCtx x f).links = s.links := rfl
@[simp] theorem State.modCtx_ports (x : Nat) (f : Ctx → Ctx) : (s.modCtx x f).ports = s.ports := rfl
@[simp] theorem State.modCtx_peers (x : Nat) (f : Ctx → Ctx) : (s.modCtx x f).peers = s.peers := rfl
@[simp] theorem State.modCtx_snd (x : Nat) (f : Ctx → Ctx) : (s.modCtx x f).snd = s.snd := rfl
@[simp] theorem State.modCtx_rcv (x : Nat) (f : Ctx → Ctx) : (s.modCtx x f).rcv = s.rcv := rfl
@[simp] theorem State.modCtx_colls (x : Nat) (f : Ctx → Ctx) : (s.modCtx x f).colls = s.colls := rfl
@[simp] theorem State.modCtx_red (x : Nat) (f : Ctx → Ctx) : (s.modCtx x f).red = s.red := rfl
@[simp] theorem State.modCtx_routes (x : Nat) (f : Ctx → Ctx) : (s.modCtx x f).routes = s.routes := rfl
@[simp] theorem State.modCtx_rxq (x : Nat) (f : Ctx → Ctx) : (s.modCtx x f).rxq = s.rxq := rfl
@[simp] theorem State.modCtx_ended (x : Nat) (f : Ctx → Ctx) : (s.modCtx x f).ended = s.ended := rfl
@[simp] theorem State.modCtx_fabDown (x : Nat) (f : Ctx → Ctx) : (s.modCtx x f).fabDown = s.fabDown := rfl
@[simp] theorem State.modCtx_fabRoutes (x : Nat) (f : Ctx → Ctx) : (s.modCtx x f).fabRoutes = s.fabRoutes := rfl
@[simp] theorem State.modCtx_cellSamples (x : Nat) (f : Ctx → Ctx) : (s.modCtx x f).cellSamples = s.cellSamples := rfl
@[simp] theorem State.modCtx_hub (x : Nat) (f : Ctx → Ctx) : (s.modCtx x f).hub = s.hub := rfl
@[simp] theorem State.modCtx_sec (x : Nat) (f : Ctx → Ctx) : (s.modCtx x f).sec = s.sec := rfl
@[simp] theorem State.modCtx_plate (x : Nat) (f : Ctx → Ctx) : (s.modCtx x f).plate = s.plate := rfl
@[simp] theorem State.modCtx_boot (x : Nat) (f : Ctx → Ctx) : (s.modCtx x f).boot = s.boot := rfl
@[simp] theorem State.modCtx_dies (x : Nat) (f : Ctx → Ctx) : (s.modCtx x f).dies = s.dies := rfl
@[simp] theorem State.modCtx_pwr (x : Nat) (f : Ctx → Ctx) : (s.modCtx x f).pwr = s.pwr := rfl
@[simp] theorem State.modCtx_sent (x : Nat) (f : Ctx → Ctx) : (s.modCtx x f).sent = s.sent := rfl
@[simp] theorem State.modCtx_queue (x : Nat) (f : Ctx → Ctx) (i : Nat) : (s.modCtx x f).queue i = s.queue i := rfl
@[simp] theorem State.modCtx_cell (x : Nat) (f : Ctx → Ctx) (i : Nat) : (s.modCtx x f).cell i = s.cell i := rfl
@[simp] theorem State.modCtx_holder (x : Nat) (f : Ctx → Ctx) (i : Nat) : (s.modCtx x f).holder i = s.holder i := rfl
@[simp] theorem State.modCtx_link (x : Nat) (f : Ctx → Ctx) (i : Nat) : (s.modCtx x f).link i = s.link i := rfl
@[simp] theorem State.modCtx_port (x : Nat) (f : Ctx → Ctx) (i : Nat) : (s.modCtx x f).port i = s.port i := rfl
@[simp] theorem State.modCtx_peer (x : Nat) (f : Ctx → Ctx) (i : Nat) : (s.modCtx x f).peer i = s.peer i := rfl
@[simp] theorem State.modCtx_seq (x : Nat) (f : Ctx → Ctx) (i : Nat) : (s.modCtx x f).seq i = s.seq i := rfl
@[simp] theorem State.modCtx_die (x : Nat) (f : Ctx → Ctx) (i : Nat) : (s.modCtx x f).die i = s.die i := rfl
@[simp] theorem State.modCtx_mbox (x : Nat) (f : Ctx → Ctx) (i : Nat) : (s.modCtx x f).mbox i = s.mbox i := rfl

/-! ### After modQueue -/
@[simp] theorem State.modQueue_pending (q : Nat) (f : Queue → Queue) : (s.modQueue q f).pending = s.pending := rfl
@[simp] theorem State.modQueue_clk (q : Nat) (f : Queue → Queue) : (s.modQueue q f).clk = s.clk := rfl
@[simp] theorem State.modQueue_freeCtr (q : Nat) (f : Queue → Queue) : (s.modQueue q f).freeCtr = s.freeCtr := rfl
@[simp] theorem State.modQueue_mem (q : Nat) (f : Queue → Queue) : (s.modQueue q f).mem = s.mem := rfl
@[simp] theorem State.modQueue_poison (q : Nat) (f : Queue → Queue) : (s.modQueue q f).poison = s.poison := rfl
@[simp] theorem State.modQueue_flash (q : Nat) (f : Queue → Queue) : (s.modQueue q f).flash = s.flash := rfl
@[simp] theorem State.modQueue_ctxs (q : Nat) (f : Queue → Queue) : (s.modQueue q f).ctxs = s.ctxs := rfl
@[simp] theorem State.modQueue_seqs (q : Nat) (f : Queue → Queue) : (s.modQueue q f).seqs = s.seqs := rfl
@[simp] theorem State.modQueue_cells (q : Nat) (f : Queue → Queue) : (s.modQueue q f).cells = s.cells := rfl
@[simp] theorem State.modQueue_holders (q : Nat) (f : Queue → Queue) : (s.modQueue q f).holders = s.holders := rfl
@[simp] theorem State.modQueue_links (q : Nat) (f : Queue → Queue) : (s.modQueue q f).links = s.links := rfl
@[simp] theorem State.modQueue_ports (q : Nat) (f : Queue → Queue) : (s.modQueue q f).ports = s.ports := rfl
@[simp] theorem State.modQueue_peers (q : Nat) (f : Queue → Queue) : (s.modQueue q f).peers = s.peers := rfl
@[simp] theorem State.modQueue_snd (q : Nat) (f : Queue → Queue) : (s.modQueue q f).snd = s.snd := rfl
@[simp] theorem State.modQueue_rcv (q : Nat) (f : Queue → Queue) : (s.modQueue q f).rcv = s.rcv := rfl
@[simp] theorem State.modQueue_colls (q : Nat) (f : Queue → Queue) : (s.modQueue q f).colls = s.colls := rfl
@[simp] theorem State.modQueue_red (q : Nat) (f : Queue → Queue) : (s.modQueue q f).red = s.red := rfl
@[simp] theorem State.modQueue_routes (q : Nat) (f : Queue → Queue) : (s.modQueue q f).routes = s.routes := rfl
@[simp] theorem State.modQueue_rxq (q : Nat) (f : Queue → Queue) : (s.modQueue q f).rxq = s.rxq := rfl
@[simp] theorem State.modQueue_ended (q : Nat) (f : Queue → Queue) : (s.modQueue q f).ended = s.ended := rfl
@[simp] theorem State.modQueue_fabDown (q : Nat) (f : Queue → Queue) : (s.modQueue q f).fabDown = s.fabDown := rfl
@[simp] theorem State.modQueue_fabRoutes (q : Nat) (f : Queue → Queue) : (s.modQueue q f).fabRoutes = s.fabRoutes := rfl
@[simp] theorem State.modQueue_cellSamples (q : Nat) (f : Queue → Queue) : (s.modQueue q f).cellSamples = s.cellSamples := rfl
@[simp] theorem State.modQueue_hub (q : Nat) (f : Queue → Queue) : (s.modQueue q f).hub = s.hub := rfl
@[simp] theorem State.modQueue_sec (q : Nat) (f : Queue → Queue) : (s.modQueue q f).sec = s.sec := rfl
@[simp] theorem State.modQueue_plate (q : Nat) (f : Queue → Queue) : (s.modQueue q f).plate = s.plate := rfl
@[simp] theorem State.modQueue_boot (q : Nat) (f : Queue → Queue) : (s.modQueue q f).boot = s.boot := rfl
@[simp] theorem State.modQueue_dies (q : Nat) (f : Queue → Queue) : (s.modQueue q f).dies = s.dies := rfl
@[simp] theorem State.modQueue_pwr (q : Nat) (f : Queue → Queue) : (s.modQueue q f).pwr = s.pwr := rfl
@[simp] theorem State.modQueue_sent (q : Nat) (f : Queue → Queue) : (s.modQueue q f).sent = s.sent := rfl
@[simp] theorem State.modQueue_ctx (q : Nat) (f : Queue → Queue) (i : Nat) : (s.modQueue q f).ctx i = s.ctx i := rfl
@[simp] theorem State.modQueue_cell (q : Nat) (f : Queue → Queue) (i : Nat) : (s.modQueue q f).cell i = s.cell i := rfl
@[simp] theorem State.modQueue_holder (q : Nat) (f : Queue → Queue) (i : Nat) : (s.modQueue q f).holder i = s.holder i := rfl
@[simp] theorem State.modQueue_link (q : Nat) (f : Queue → Queue) (i : Nat) : (s.modQueue q f).link i = s.link i := rfl
@[simp] theorem State.modQueue_port (q : Nat) (f : Queue → Queue) (i : Nat) : (s.modQueue q f).port i = s.port i := rfl
@[simp] theorem State.modQueue_peer (q : Nat) (f : Queue → Queue) (i : Nat) : (s.modQueue q f).peer i = s.peer i := rfl
@[simp] theorem State.modQueue_seq (q : Nat) (f : Queue → Queue) (i : Nat) : (s.modQueue q f).seq i = s.seq i := rfl
@[simp] theorem State.modQueue_die (q : Nat) (f : Queue → Queue) (i : Nat) : (s.modQueue q f).die i = s.die i := rfl
@[simp] theorem State.modQueue_mbox (q : Nat) (f : Queue → Queue) (i : Nat) : (s.modQueue q f).mbox i = s.mbox i := rfl
@[simp] theorem State.modQueue_sl (q : Nat) (f : Queue → Queue) (i : Nat) : (s.modQueue q f).sl i = s.sl i := rfl

/-! ### After modCell -/
@[simp] theorem State.modCell_pending (c : Nat) (f : Cell → Cell) : (s.modCell c f).pending = s.pending := rfl
@[simp] theorem State.modCell_clk (c : Nat) (f : Cell → Cell) : (s.modCell c f).clk = s.clk := rfl
@[simp] theorem State.modCell_freeCtr (c : Nat) (f : Cell → Cell) : (s.modCell c f).freeCtr = s.freeCtr := rfl
@[simp] theorem State.modCell_mem (c : Nat) (f : Cell → Cell) : (s.modCell c f).mem = s.mem := rfl
@[simp] theorem State.modCell_poison (c : Nat) (f : Cell → Cell) : (s.modCell c f).poison = s.poison := rfl
@[simp] theorem State.modCell_flash (c : Nat) (f : Cell → Cell) : (s.modCell c f).flash = s.flash := rfl
@[simp] theorem State.modCell_ctxs (c : Nat) (f : Cell → Cell) : (s.modCell c f).ctxs = s.ctxs := rfl
@[simp] theorem State.modCell_seqs (c : Nat) (f : Cell → Cell) : (s.modCell c f).seqs = s.seqs := rfl
@[simp] theorem State.modCell_queues (c : Nat) (f : Cell → Cell) : (s.modCell c f).queues = s.queues := rfl
@[simp] theorem State.modCell_holders (c : Nat) (f : Cell → Cell) : (s.modCell c f).holders = s.holders := rfl
@[simp] theorem State.modCell_links (c : Nat) (f : Cell → Cell) : (s.modCell c f).links = s.links := rfl
@[simp] theorem State.modCell_ports (c : Nat) (f : Cell → Cell) : (s.modCell c f).ports = s.ports := rfl
@[simp] theorem State.modCell_peers (c : Nat) (f : Cell → Cell) : (s.modCell c f).peers = s.peers := rfl
@[simp] theorem State.modCell_snd (c : Nat) (f : Cell → Cell) : (s.modCell c f).snd = s.snd := rfl
@[simp] theorem State.modCell_rcv (c : Nat) (f : Cell → Cell) : (s.modCell c f).rcv = s.rcv := rfl
@[simp] theorem State.modCell_colls (c : Nat) (f : Cell → Cell) : (s.modCell c f).colls = s.colls := rfl
@[simp] theorem State.modCell_red (c : Nat) (f : Cell → Cell) : (s.modCell c f).red = s.red := rfl
@[simp] theorem State.modCell_routes (c : Nat) (f : Cell → Cell) : (s.modCell c f).routes = s.routes := rfl
@[simp] theorem State.modCell_rxq (c : Nat) (f : Cell → Cell) : (s.modCell c f).rxq = s.rxq := rfl
@[simp] theorem State.modCell_ended (c : Nat) (f : Cell → Cell) : (s.modCell c f).ended = s.ended := rfl
@[simp] theorem State.modCell_fabDown (c : Nat) (f : Cell → Cell) : (s.modCell c f).fabDown = s.fabDown := rfl
@[simp] theorem State.modCell_fabRoutes (c : Nat) (f : Cell → Cell) : (s.modCell c f).fabRoutes = s.fabRoutes := rfl
@[simp] theorem State.modCell_cellSamples (c : Nat) (f : Cell → Cell) : (s.modCell c f).cellSamples = s.cellSamples := rfl
@[simp] theorem State.modCell_hub (c : Nat) (f : Cell → Cell) : (s.modCell c f).hub = s.hub := rfl
@[simp] theorem State.modCell_sec (c : Nat) (f : Cell → Cell) : (s.modCell c f).sec = s.sec := rfl
@[simp] theorem State.modCell_plate (c : Nat) (f : Cell → Cell) : (s.modCell c f).plate = s.plate := rfl
@[simp] theorem State.modCell_boot (c : Nat) (f : Cell → Cell) : (s.modCell c f).boot = s.boot := rfl
@[simp] theorem State.modCell_dies (c : Nat) (f : Cell → Cell) : (s.modCell c f).dies = s.dies := rfl
@[simp] theorem State.modCell_pwr (c : Nat) (f : Cell → Cell) : (s.modCell c f).pwr = s.pwr := rfl
@[simp] theorem State.modCell_sent (c : Nat) (f : Cell → Cell) : (s.modCell c f).sent = s.sent := rfl
@[simp] theorem State.modCell_ctx (c : Nat) (f : Cell → Cell) (i : Nat) : (s.modCell c f).ctx i = s.ctx i := rfl
@[simp] theorem State.modCell_queue (c : Nat) (f : Cell → Cell) (i : Nat) : (s.modCell c f).queue i = s.queue i := rfl
@[simp] theorem State.modCell_holder (c : Nat) (f : Cell → Cell) (i : Nat) : (s.modCell c f).holder i = s.holder i := rfl
@[simp] theorem State.modCell_link (c : Nat) (f : Cell → Cell) (i : Nat) : (s.modCell c f).link i = s.link i := rfl
@[simp] theorem State.modCell_port (c : Nat) (f : Cell → Cell) (i : Nat) : (s.modCell c f).port i = s.port i := rfl
@[simp] theorem State.modCell_peer (c : Nat) (f : Cell → Cell) (i : Nat) : (s.modCell c f).peer i = s.peer i := rfl
@[simp] theorem State.modCell_seq (c : Nat) (f : Cell → Cell) (i : Nat) : (s.modCell c f).seq i = s.seq i := rfl
@[simp] theorem State.modCell_die (c : Nat) (f : Cell → Cell) (i : Nat) : (s.modCell c f).die i = s.die i := rfl
@[simp] theorem State.modCell_mbox (c : Nat) (f : Cell → Cell) (i : Nat) : (s.modCell c f).mbox i = s.mbox i := rfl
@[simp] theorem State.modCell_sl (c : Nat) (f : Cell → Cell) (i : Nat) : (s.modCell c f).sl i = s.sl i := rfl

/-! ### After modHolder -/
@[simp] theorem State.modHolder_pending (h : Nat) (f : Holder → Holder) : (s.modHolder h f).pending = s.pending := rfl
@[simp] theorem State.modHolder_clk (h : Nat) (f : Holder → Holder) : (s.modHolder h f).clk = s.clk := rfl
@[simp] theorem State.modHolder_freeCtr (h : Nat) (f : Holder → Holder) : (s.modHolder h f).freeCtr = s.freeCtr := rfl
@[simp] theorem State.modHolder_mem (h : Nat) (f : Holder → Holder) : (s.modHolder h f).mem = s.mem := rfl
@[simp] theorem State.modHolder_poison (h : Nat) (f : Holder → Holder) : (s.modHolder h f).poison = s.poison := rfl
@[simp] theorem State.modHolder_flash (h : Nat) (f : Holder → Holder) : (s.modHolder h f).flash = s.flash := rfl
@[simp] theorem State.modHolder_ctxs (h : Nat) (f : Holder → Holder) : (s.modHolder h f).ctxs = s.ctxs := rfl
@[simp] theorem State.modHolder_seqs (h : Nat) (f : Holder → Holder) : (s.modHolder h f).seqs = s.seqs := rfl
@[simp] theorem State.modHolder_queues (h : Nat) (f : Holder → Holder) : (s.modHolder h f).queues = s.queues := rfl
@[simp] theorem State.modHolder_cells (h : Nat) (f : Holder → Holder) : (s.modHolder h f).cells = s.cells := rfl
@[simp] theorem State.modHolder_links (h : Nat) (f : Holder → Holder) : (s.modHolder h f).links = s.links := rfl
@[simp] theorem State.modHolder_ports (h : Nat) (f : Holder → Holder) : (s.modHolder h f).ports = s.ports := rfl
@[simp] theorem State.modHolder_peers (h : Nat) (f : Holder → Holder) : (s.modHolder h f).peers = s.peers := rfl
@[simp] theorem State.modHolder_snd (h : Nat) (f : Holder → Holder) : (s.modHolder h f).snd = s.snd := rfl
@[simp] theorem State.modHolder_rcv (h : Nat) (f : Holder → Holder) : (s.modHolder h f).rcv = s.rcv := rfl
@[simp] theorem State.modHolder_colls (h : Nat) (f : Holder → Holder) : (s.modHolder h f).colls = s.colls := rfl
@[simp] theorem State.modHolder_red (h : Nat) (f : Holder → Holder) : (s.modHolder h f).red = s.red := rfl
@[simp] theorem State.modHolder_routes (h : Nat) (f : Holder → Holder) : (s.modHolder h f).routes = s.routes := rfl
@[simp] theorem State.modHolder_rxq (h : Nat) (f : Holder → Holder) : (s.modHolder h f).rxq = s.rxq := rfl
@[simp] theorem State.modHolder_ended (h : Nat) (f : Holder → Holder) : (s.modHolder h f).ended = s.ended := rfl
@[simp] theorem State.modHolder_fabDown (h : Nat) (f : Holder → Holder) : (s.modHolder h f).fabDown = s.fabDown := rfl
@[simp] theorem State.modHolder_fabRoutes (h : Nat) (f : Holder → Holder) : (s.modHolder h f).fabRoutes = s.fabRoutes := rfl
@[simp] theorem State.modHolder_cellSamples (h : Nat) (f : Holder → Holder) : (s.modHolder h f).cellSamples = s.cellSamples := rfl
@[simp] theorem State.modHolder_hub (h : Nat) (f : Holder → Holder) : (s.modHolder h f).hub = s.hub := rfl
@[simp] theorem State.modHolder_sec (h : Nat) (f : Holder → Holder) : (s.modHolder h f).sec = s.sec := rfl
@[simp] theorem State.modHolder_plate (h : Nat) (f : Holder → Holder) : (s.modHolder h f).plate = s.plate := rfl
@[simp] theorem State.modHolder_boot (h : Nat) (f : Holder → Holder) : (s.modHolder h f).boot = s.boot := rfl
@[simp] theorem State.modHolder_dies (h : Nat) (f : Holder → Holder) : (s.modHolder h f).dies = s.dies := rfl
@[simp] theorem State.modHolder_pwr (h : Nat) (f : Holder → Holder) : (s.modHolder h f).pwr = s.pwr := rfl
@[simp] theorem State.modHolder_sent (h : Nat) (f : Holder → Holder) : (s.modHolder h f).sent = s.sent := rfl
@[simp] theorem State.modHolder_ctx (h : Nat) (f : Holder → Holder) (i : Nat) : (s.modHolder h f).ctx i = s.ctx i := rfl
@[simp] theorem State.modHolder_queue (h : Nat) (f : Holder → Holder) (i : Nat) : (s.modHolder h f).queue i = s.queue i := rfl
@[simp] theorem State.modHolder_cell (h : Nat) (f : Holder → Holder) (i : Nat) : (s.modHolder h f).cell i = s.cell i := rfl
@[simp] theorem State.modHolder_link (h : Nat) (f : Holder → Holder) (i : Nat) : (s.modHolder h f).link i = s.link i := rfl
@[simp] theorem State.modHolder_port (h : Nat) (f : Holder → Holder) (i : Nat) : (s.modHolder h f).port i = s.port i := rfl
@[simp] theorem State.modHolder_peer (h : Nat) (f : Holder → Holder) (i : Nat) : (s.modHolder h f).peer i = s.peer i := rfl
@[simp] theorem State.modHolder_seq (h : Nat) (f : Holder → Holder) (i : Nat) : (s.modHolder h f).seq i = s.seq i := rfl
@[simp] theorem State.modHolder_die (h : Nat) (f : Holder → Holder) (i : Nat) : (s.modHolder h f).die i = s.die i := rfl
@[simp] theorem State.modHolder_mbox (h : Nat) (f : Holder → Holder) (i : Nat) : (s.modHolder h f).mbox i = s.mbox i := rfl
@[simp] theorem State.modHolder_sl (h : Nat) (f : Holder → Holder) (i : Nat) : (s.modHolder h f).sl i = s.sl i := rfl

/-! ### After modLink -/
@[simp] theorem State.modLink_pending (d : Nat) (f : LinkDie → LinkDie) : (s.modLink d f).pending = s.pending := rfl
@[simp] theorem State.modLink_clk (d : Nat) (f : LinkDie → LinkDie) : (s.modLink d f).clk = s.clk := rfl
@[simp] theorem State.modLink_freeCtr (d : Nat) (f : LinkDie → LinkDie) : (s.modLink d f).freeCtr = s.freeCtr := rfl
@[simp] theorem State.modLink_mem (d : Nat) (f : LinkDie → LinkDie) : (s.modLink d f).mem = s.mem := rfl
@[simp] theorem State.modLink_poison (d : Nat) (f : LinkDie → LinkDie) : (s.modLink d f).poison = s.poison := rfl
@[simp] theorem State.modLink_flash (d : Nat) (f : LinkDie → LinkDie) : (s.modLink d f).flash = s.flash := rfl
@[simp] theorem State.modLink_ctxs (d : Nat) (f : LinkDie → LinkDie) : (s.modLink d f).ctxs = s.ctxs := rfl
@[simp] theorem State.modLink_seqs (d : Nat) (f : LinkDie → LinkDie) : (s.modLink d f).seqs = s.seqs := rfl
@[simp] theorem State.modLink_queues (d : Nat) (f : LinkDie → LinkDie) : (s.modLink d f).queues = s.queues := rfl
@[simp] theorem State.modLink_cells (d : Nat) (f : LinkDie → LinkDie) : (s.modLink d f).cells = s.cells := rfl
@[simp] theorem State.modLink_holders (d : Nat) (f : LinkDie → LinkDie) : (s.modLink d f).holders = s.holders := rfl
@[simp] theorem State.modLink_ports (d : Nat) (f : LinkDie → LinkDie) : (s.modLink d f).ports = s.ports := rfl
@[simp] theorem State.modLink_peers (d : Nat) (f : LinkDie → LinkDie) : (s.modLink d f).peers = s.peers := rfl
@[simp] theorem State.modLink_snd (d : Nat) (f : LinkDie → LinkDie) : (s.modLink d f).snd = s.snd := rfl
@[simp] theorem State.modLink_rcv (d : Nat) (f : LinkDie → LinkDie) : (s.modLink d f).rcv = s.rcv := rfl
@[simp] theorem State.modLink_colls (d : Nat) (f : LinkDie → LinkDie) : (s.modLink d f).colls = s.colls := rfl
@[simp] theorem State.modLink_red (d : Nat) (f : LinkDie → LinkDie) : (s.modLink d f).red = s.red := rfl
@[simp] theorem State.modLink_routes (d : Nat) (f : LinkDie → LinkDie) : (s.modLink d f).routes = s.routes := rfl
@[simp] theorem State.modLink_rxq (d : Nat) (f : LinkDie → LinkDie) : (s.modLink d f).rxq = s.rxq := rfl
@[simp] theorem State.modLink_ended (d : Nat) (f : LinkDie → LinkDie) : (s.modLink d f).ended = s.ended := rfl
@[simp] theorem State.modLink_fabDown (d : Nat) (f : LinkDie → LinkDie) : (s.modLink d f).fabDown = s.fabDown := rfl
@[simp] theorem State.modLink_fabRoutes (d : Nat) (f : LinkDie → LinkDie) : (s.modLink d f).fabRoutes = s.fabRoutes := rfl
@[simp] theorem State.modLink_cellSamples (d : Nat) (f : LinkDie → LinkDie) : (s.modLink d f).cellSamples = s.cellSamples := rfl
@[simp] theorem State.modLink_hub (d : Nat) (f : LinkDie → LinkDie) : (s.modLink d f).hub = s.hub := rfl
@[simp] theorem State.modLink_sec (d : Nat) (f : LinkDie → LinkDie) : (s.modLink d f).sec = s.sec := rfl
@[simp] theorem State.modLink_plate (d : Nat) (f : LinkDie → LinkDie) : (s.modLink d f).plate = s.plate := rfl
@[simp] theorem State.modLink_boot (d : Nat) (f : LinkDie → LinkDie) : (s.modLink d f).boot = s.boot := rfl
@[simp] theorem State.modLink_dies (d : Nat) (f : LinkDie → LinkDie) : (s.modLink d f).dies = s.dies := rfl
@[simp] theorem State.modLink_pwr (d : Nat) (f : LinkDie → LinkDie) : (s.modLink d f).pwr = s.pwr := rfl
@[simp] theorem State.modLink_sent (d : Nat) (f : LinkDie → LinkDie) : (s.modLink d f).sent = s.sent := rfl
@[simp] theorem State.modLink_ctx (d : Nat) (f : LinkDie → LinkDie) (i : Nat) : (s.modLink d f).ctx i = s.ctx i := rfl
@[simp] theorem State.modLink_queue (d : Nat) (f : LinkDie → LinkDie) (i : Nat) : (s.modLink d f).queue i = s.queue i := rfl
@[simp] theorem State.modLink_cell (d : Nat) (f : LinkDie → LinkDie) (i : Nat) : (s.modLink d f).cell i = s.cell i := rfl
@[simp] theorem State.modLink_holder (d : Nat) (f : LinkDie → LinkDie) (i : Nat) : (s.modLink d f).holder i = s.holder i := rfl
@[simp] theorem State.modLink_port (d : Nat) (f : LinkDie → LinkDie) (i : Nat) : (s.modLink d f).port i = s.port i := rfl
@[simp] theorem State.modLink_peer (d : Nat) (f : LinkDie → LinkDie) (i : Nat) : (s.modLink d f).peer i = s.peer i := rfl
@[simp] theorem State.modLink_seq (d : Nat) (f : LinkDie → LinkDie) (i : Nat) : (s.modLink d f).seq i = s.seq i := rfl
@[simp] theorem State.modLink_die (d : Nat) (f : LinkDie → LinkDie) (i : Nat) : (s.modLink d f).die i = s.die i := rfl
@[simp] theorem State.modLink_mbox (d : Nat) (f : LinkDie → LinkDie) (i : Nat) : (s.modLink d f).mbox i = s.mbox i := rfl
@[simp] theorem State.modLink_sl (d : Nat) (f : LinkDie → LinkDie) (i : Nat) : (s.modLink d f).sl i = s.sl i := rfl

/-! ### After modPort -/
@[simp] theorem State.modPort_pending (l : Nat) (f : SubPort → SubPort) : (s.modPort l f).pending = s.pending := rfl
@[simp] theorem State.modPort_clk (l : Nat) (f : SubPort → SubPort) : (s.modPort l f).clk = s.clk := rfl
@[simp] theorem State.modPort_freeCtr (l : Nat) (f : SubPort → SubPort) : (s.modPort l f).freeCtr = s.freeCtr := rfl
@[simp] theorem State.modPort_mem (l : Nat) (f : SubPort → SubPort) : (s.modPort l f).mem = s.mem := rfl
@[simp] theorem State.modPort_poison (l : Nat) (f : SubPort → SubPort) : (s.modPort l f).poison = s.poison := rfl
@[simp] theorem State.modPort_flash (l : Nat) (f : SubPort → SubPort) : (s.modPort l f).flash = s.flash := rfl
@[simp] theorem State.modPort_ctxs (l : Nat) (f : SubPort → SubPort) : (s.modPort l f).ctxs = s.ctxs := rfl
@[simp] theorem State.modPort_seqs (l : Nat) (f : SubPort → SubPort) : (s.modPort l f).seqs = s.seqs := rfl
@[simp] theorem State.modPort_queues (l : Nat) (f : SubPort → SubPort) : (s.modPort l f).queues = s.queues := rfl
@[simp] theorem State.modPort_cells (l : Nat) (f : SubPort → SubPort) : (s.modPort l f).cells = s.cells := rfl
@[simp] theorem State.modPort_holders (l : Nat) (f : SubPort → SubPort) : (s.modPort l f).holders = s.holders := rfl
@[simp] theorem State.modPort_links (l : Nat) (f : SubPort → SubPort) : (s.modPort l f).links = s.links := rfl
@[simp] theorem State.modPort_peers (l : Nat) (f : SubPort → SubPort) : (s.modPort l f).peers = s.peers := rfl
@[simp] theorem State.modPort_snd (l : Nat) (f : SubPort → SubPort) : (s.modPort l f).snd = s.snd := rfl
@[simp] theorem State.modPort_rcv (l : Nat) (f : SubPort → SubPort) : (s.modPort l f).rcv = s.rcv := rfl
@[simp] theorem State.modPort_colls (l : Nat) (f : SubPort → SubPort) : (s.modPort l f).colls = s.colls := rfl
@[simp] theorem State.modPort_red (l : Nat) (f : SubPort → SubPort) : (s.modPort l f).red = s.red := rfl
@[simp] theorem State.modPort_routes (l : Nat) (f : SubPort → SubPort) : (s.modPort l f).routes = s.routes := rfl
@[simp] theorem State.modPort_rxq (l : Nat) (f : SubPort → SubPort) : (s.modPort l f).rxq = s.rxq := rfl
@[simp] theorem State.modPort_ended (l : Nat) (f : SubPort → SubPort) : (s.modPort l f).ended = s.ended := rfl
@[simp] theorem State.modPort_fabDown (l : Nat) (f : SubPort → SubPort) : (s.modPort l f).fabDown = s.fabDown := rfl
@[simp] theorem State.modPort_fabRoutes (l : Nat) (f : SubPort → SubPort) : (s.modPort l f).fabRoutes = s.fabRoutes := rfl
@[simp] theorem State.modPort_cellSamples (l : Nat) (f : SubPort → SubPort) : (s.modPort l f).cellSamples = s.cellSamples := rfl
@[simp] theorem State.modPort_hub (l : Nat) (f : SubPort → SubPort) : (s.modPort l f).hub = s.hub := rfl
@[simp] theorem State.modPort_sec (l : Nat) (f : SubPort → SubPort) : (s.modPort l f).sec = s.sec := rfl
@[simp] theorem State.modPort_plate (l : Nat) (f : SubPort → SubPort) : (s.modPort l f).plate = s.plate := rfl
@[simp] theorem State.modPort_boot (l : Nat) (f : SubPort → SubPort) : (s.modPort l f).boot = s.boot := rfl
@[simp] theorem State.modPort_dies (l : Nat) (f : SubPort → SubPort) : (s.modPort l f).dies = s.dies := rfl
@[simp] theorem State.modPort_pwr (l : Nat) (f : SubPort → SubPort) : (s.modPort l f).pwr = s.pwr := rfl
@[simp] theorem State.modPort_sent (l : Nat) (f : SubPort → SubPort) : (s.modPort l f).sent = s.sent := rfl
@[simp] theorem State.modPort_ctx (l : Nat) (f : SubPort → SubPort) (i : Nat) : (s.modPort l f).ctx i = s.ctx i := rfl
@[simp] theorem State.modPort_queue (l : Nat) (f : SubPort → SubPort) (i : Nat) : (s.modPort l f).queue i = s.queue i := rfl
@[simp] theorem State.modPort_cell (l : Nat) (f : SubPort → SubPort) (i : Nat) : (s.modPort l f).cell i = s.cell i := rfl
@[simp] theorem State.modPort_holder (l : Nat) (f : SubPort → SubPort) (i : Nat) : (s.modPort l f).holder i = s.holder i := rfl
@[simp] theorem State.modPort_link (l : Nat) (f : SubPort → SubPort) (i : Nat) : (s.modPort l f).link i = s.link i := rfl
@[simp] theorem State.modPort_peer (l : Nat) (f : SubPort → SubPort) (i : Nat) : (s.modPort l f).peer i = s.peer i := rfl
@[simp] theorem State.modPort_seq (l : Nat) (f : SubPort → SubPort) (i : Nat) : (s.modPort l f).seq i = s.seq i := rfl
@[simp] theorem State.modPort_die (l : Nat) (f : SubPort → SubPort) (i : Nat) : (s.modPort l f).die i = s.die i := rfl
@[simp] theorem State.modPort_mbox (l : Nat) (f : SubPort → SubPort) (i : Nat) : (s.modPort l f).mbox i = s.mbox i := rfl
@[simp] theorem State.modPort_sl (l : Nat) (f : SubPort → SubPort) (i : Nat) : (s.modPort l f).sl i = s.sl i := rfl

/-! ### After modPeer -/
@[simp] theorem State.modPeer_pending (d : Nat) (f : Peer → Peer) : (s.modPeer d f).pending = s.pending := rfl
@[simp] theorem State.modPeer_clk (d : Nat) (f : Peer → Peer) : (s.modPeer d f).clk = s.clk := rfl
@[simp] theorem State.modPeer_freeCtr (d : Nat) (f : Peer → Peer) : (s.modPeer d f).freeCtr = s.freeCtr := rfl
@[simp] theorem State.modPeer_mem (d : Nat) (f : Peer → Peer) : (s.modPeer d f).mem = s.mem := rfl
@[simp] theorem State.modPeer_poison (d : Nat) (f : Peer → Peer) : (s.modPeer d f).poison = s.poison := rfl
@[simp] theorem State.modPeer_flash (d : Nat) (f : Peer → Peer) : (s.modPeer d f).flash = s.flash := rfl
@[simp] theorem State.modPeer_ctxs (d : Nat) (f : Peer → Peer) : (s.modPeer d f).ctxs = s.ctxs := rfl
@[simp] theorem State.modPeer_seqs (d : Nat) (f : Peer → Peer) : (s.modPeer d f).seqs = s.seqs := rfl
@[simp] theorem State.modPeer_queues (d : Nat) (f : Peer → Peer) : (s.modPeer d f).queues = s.queues := rfl
@[simp] theorem State.modPeer_cells (d : Nat) (f : Peer → Peer) : (s.modPeer d f).cells = s.cells := rfl
@[simp] theorem State.modPeer_holders (d : Nat) (f : Peer → Peer) : (s.modPeer d f).holders = s.holders := rfl
@[simp] theorem State.modPeer_links (d : Nat) (f : Peer → Peer) : (s.modPeer d f).links = s.links := rfl
@[simp] theorem State.modPeer_ports (d : Nat) (f : Peer → Peer) : (s.modPeer d f).ports = s.ports := rfl
@[simp] theorem State.modPeer_snd (d : Nat) (f : Peer → Peer) : (s.modPeer d f).snd = s.snd := rfl
@[simp] theorem State.modPeer_rcv (d : Nat) (f : Peer → Peer) : (s.modPeer d f).rcv = s.rcv := rfl
@[simp] theorem State.modPeer_colls (d : Nat) (f : Peer → Peer) : (s.modPeer d f).colls = s.colls := rfl
@[simp] theorem State.modPeer_red (d : Nat) (f : Peer → Peer) : (s.modPeer d f).red = s.red := rfl
@[simp] theorem State.modPeer_routes (d : Nat) (f : Peer → Peer) : (s.modPeer d f).routes = s.routes := rfl
@[simp] theorem State.modPeer_rxq (d : Nat) (f : Peer → Peer) : (s.modPeer d f).rxq = s.rxq := rfl
@[simp] theorem State.modPeer_ended (d : Nat) (f : Peer → Peer) : (s.modPeer d f).ended = s.ended := rfl
@[simp] theorem State.modPeer_fabDown (d : Nat) (f : Peer → Peer) : (s.modPeer d f).fabDown = s.fabDown := rfl
@[simp] theorem State.modPeer_fabRoutes (d : Nat) (f : Peer → Peer) : (s.modPeer d f).fabRoutes = s.fabRoutes := rfl
@[simp] theorem State.modPeer_cellSamples (d : Nat) (f : Peer → Peer) : (s.modPeer d f).cellSamples = s.cellSamples := rfl
@[simp] theorem State.modPeer_hub (d : Nat) (f : Peer → Peer) : (s.modPeer d f).hub = s.hub := rfl
@[simp] theorem State.modPeer_sec (d : Nat) (f : Peer → Peer) : (s.modPeer d f).sec = s.sec := rfl
@[simp] theorem State.modPeer_plate (d : Nat) (f : Peer → Peer) : (s.modPeer d f).plate = s.plate := rfl
@[simp] theorem State.modPeer_boot (d : Nat) (f : Peer → Peer) : (s.modPeer d f).boot = s.boot := rfl
@[simp] theorem State.modPeer_dies (d : Nat) (f : Peer → Peer) : (s.modPeer d f).dies = s.dies := rfl
@[simp] theorem State.modPeer_pwr (d : Nat) (f : Peer → Peer) : (s.modPeer d f).pwr = s.pwr := rfl
@[simp] theorem State.modPeer_sent (d : Nat) (f : Peer → Peer) : (s.modPeer d f).sent = s.sent := rfl
@[simp] theorem State.modPeer_ctx (d : Nat) (f : Peer → Peer) (i : Nat) : (s.modPeer d f).ctx i = s.ctx i := rfl
@[simp] theorem State.modPeer_queue (d : Nat) (f : Peer → Peer) (i : Nat) : (s.modPeer d f).queue i = s.queue i := rfl
@[simp] theorem State.modPeer_cell (d : Nat) (f : Peer → Peer) (i : Nat) : (s.modPeer d f).cell i = s.cell i := rfl
@[simp] theorem State.modPeer_holder (d : Nat) (f : Peer → Peer) (i : Nat) : (s.modPeer d f).holder i = s.holder i := rfl
@[simp] theorem State.modPeer_link (d : Nat) (f : Peer → Peer) (i : Nat) : (s.modPeer d f).link i = s.link i := rfl
@[simp] theorem State.modPeer_port (d : Nat) (f : Peer → Peer) (i : Nat) : (s.modPeer d f).port i = s.port i := rfl
@[simp] theorem State.modPeer_seq (d : Nat) (f : Peer → Peer) (i : Nat) : (s.modPeer d f).seq i = s.seq i := rfl
@[simp] theorem State.modPeer_die (d : Nat) (f : Peer → Peer) (i : Nat) : (s.modPeer d f).die i = s.die i := rfl
@[simp] theorem State.modPeer_mbox (d : Nat) (f : Peer → Peer) (i : Nat) : (s.modPeer d f).mbox i = s.mbox i := rfl
@[simp] theorem State.modPeer_sl (d : Nat) (f : Peer → Peer) (i : Nat) : (s.modPeer d f).sl i = s.sl i := rfl

/-! ### After modSeq -/
@[simp] theorem State.modSeq_pending (t : Nat) (f : Seq → Seq) : (s.modSeq t f).pending = s.pending := rfl
@[simp] theorem State.modSeq_clk (t : Nat) (f : Seq → Seq) : (s.modSeq t f).clk = s.clk := rfl
@[simp] theorem State.modSeq_freeCtr (t : Nat) (f : Seq → Seq) : (s.modSeq t f).freeCtr = s.freeCtr := rfl
@[simp] theorem State.modSeq_mem (t : Nat) (f : Seq → Seq) : (s.modSeq t f).mem = s.mem := rfl
@[simp] theorem State.modSeq_poison (t : Nat) (f : Seq → Seq) : (s.modSeq t f).poison = s.poison := rfl
@[simp] theorem State.modSeq_flash (t : Nat) (f : Seq → Seq) : (s.modSeq t f).flash = s.flash := rfl
@[simp] theorem State.modSeq_ctxs (t : Nat) (f : Seq → Seq) : (s.modSeq t f).ctxs = s.ctxs := rfl
@[simp] theorem State.modSeq_queues (t : Nat) (f : Seq → Seq) : (s.modSeq t f).queues = s.queues := rfl
@[simp] theorem State.modSeq_cells (t : Nat) (f : Seq → Seq) : (s.modSeq t f).cells = s.cells := rfl
@[simp] theorem State.modSeq_holders (t : Nat) (f : Seq → Seq) : (s.modSeq t f).holders = s.holders := rfl
@[simp] theorem State.modSeq_links (t : Nat) (f : Seq → Seq) : (s.modSeq t f).links = s.links := rfl
@[simp] theorem State.modSeq_ports (t : Nat) (f : Seq → Seq) : (s.modSeq t f).ports = s.ports := rfl
@[simp] theorem State.modSeq_peers (t : Nat) (f : Seq → Seq) : (s.modSeq t f).peers = s.peers := rfl
@[simp] theorem State.modSeq_snd (t : Nat) (f : Seq → Seq) : (s.modSeq t f).snd = s.snd := rfl
@[simp] theorem State.modSeq_rcv (t : Nat) (f : Seq → Seq) : (s.modSeq t f).rcv = s.rcv := rfl
@[simp] theorem State.modSeq_colls (t : Nat) (f : Seq → Seq) : (s.modSeq t f).colls = s.colls := rfl
@[simp] theorem State.modSeq_red (t : Nat) (f : Seq → Seq) : (s.modSeq t f).red = s.red := rfl
@[simp] theorem State.modSeq_routes (t : Nat) (f : Seq → Seq) : (s.modSeq t f).routes = s.routes := rfl
@[simp] theorem State.modSeq_rxq (t : Nat) (f : Seq → Seq) : (s.modSeq t f).rxq = s.rxq := rfl
@[simp] theorem State.modSeq_ended (t : Nat) (f : Seq → Seq) : (s.modSeq t f).ended = s.ended := rfl
@[simp] theorem State.modSeq_fabDown (t : Nat) (f : Seq → Seq) : (s.modSeq t f).fabDown = s.fabDown := rfl
@[simp] theorem State.modSeq_fabRoutes (t : Nat) (f : Seq → Seq) : (s.modSeq t f).fabRoutes = s.fabRoutes := rfl
@[simp] theorem State.modSeq_cellSamples (t : Nat) (f : Seq → Seq) : (s.modSeq t f).cellSamples = s.cellSamples := rfl
@[simp] theorem State.modSeq_hub (t : Nat) (f : Seq → Seq) : (s.modSeq t f).hub = s.hub := rfl
@[simp] theorem State.modSeq_sec (t : Nat) (f : Seq → Seq) : (s.modSeq t f).sec = s.sec := rfl
@[simp] theorem State.modSeq_plate (t : Nat) (f : Seq → Seq) : (s.modSeq t f).plate = s.plate := rfl
@[simp] theorem State.modSeq_boot (t : Nat) (f : Seq → Seq) : (s.modSeq t f).boot = s.boot := rfl
@[simp] theorem State.modSeq_dies (t : Nat) (f : Seq → Seq) : (s.modSeq t f).dies = s.dies := rfl
@[simp] theorem State.modSeq_pwr (t : Nat) (f : Seq → Seq) : (s.modSeq t f).pwr = s.pwr := rfl
@[simp] theorem State.modSeq_sent (t : Nat) (f : Seq → Seq) : (s.modSeq t f).sent = s.sent := rfl
@[simp] theorem State.modSeq_ctx (t : Nat) (f : Seq → Seq) (i : Nat) : (s.modSeq t f).ctx i = s.ctx i := rfl
@[simp] theorem State.modSeq_queue (t : Nat) (f : Seq → Seq) (i : Nat) : (s.modSeq t f).queue i = s.queue i := rfl
@[simp] theorem State.modSeq_cell (t : Nat) (f : Seq → Seq) (i : Nat) : (s.modSeq t f).cell i = s.cell i := rfl
@[simp] theorem State.modSeq_holder (t : Nat) (f : Seq → Seq) (i : Nat) : (s.modSeq t f).holder i = s.holder i := rfl
@[simp] theorem State.modSeq_link (t : Nat) (f : Seq → Seq) (i : Nat) : (s.modSeq t f).link i = s.link i := rfl
@[simp] theorem State.modSeq_port (t : Nat) (f : Seq → Seq) (i : Nat) : (s.modSeq t f).port i = s.port i := rfl
@[simp] theorem State.modSeq_peer (t : Nat) (f : Seq → Seq) (i : Nat) : (s.modSeq t f).peer i = s.peer i := rfl
@[simp] theorem State.modSeq_die (t : Nat) (f : Seq → Seq) (i : Nat) : (s.modSeq t f).die i = s.die i := rfl
@[simp] theorem State.modSeq_mbox (t : Nat) (f : Seq → Seq) (i : Nat) : (s.modSeq t f).mbox i = s.mbox i := rfl
@[simp] theorem State.modSeq_sl (t : Nat) (f : Seq → Seq) (i : Nat) : (s.modSeq t f).sl i = s.sl i := rfl

/-! ### After modDie -/
@[simp] theorem State.modDie_pending (d : Nat) (f : Die → Die) : (s.modDie d f).pending = s.pending := rfl
@[simp] theorem State.modDie_clk (d : Nat) (f : Die → Die) : (s.modDie d f).clk = s.clk := rfl
@[simp] theorem State.modDie_freeCtr (d : Nat) (f : Die → Die) : (s.modDie d f).freeCtr = s.freeCtr := rfl
@[simp] theorem State.modDie_mem (d : Nat) (f : Die → Die) : (s.modDie d f).mem = s.mem := rfl
@[simp] theorem State.modDie_poison (d : Nat) (f : Die → Die) : (s.modDie d f).poison = s.poison := rfl
@[simp] theorem State.modDie_flash (d : Nat) (f : Die → Die) : (s.modDie d f).flash = s.flash := rfl
@[simp] theorem State.modDie_ctxs (d : Nat) (f : Die → Die) : (s.modDie d f).ctxs = s.ctxs := rfl
@[simp] theorem State.modDie_seqs (d : Nat) (f : Die → Die) : (s.modDie d f).seqs = s.seqs := rfl
@[simp] theorem State.modDie_queues (d : Nat) (f : Die → Die) : (s.modDie d f).queues = s.queues := rfl
@[simp] theorem State.modDie_cells (d : Nat) (f : Die → Die) : (s.modDie d f).cells = s.cells := rfl
@[simp] theorem State.modDie_holders (d : Nat) (f : Die → Die) : (s.modDie d f).holders = s.holders := rfl
@[simp] theorem State.modDie_links (d : Nat) (f : Die → Die) : (s.modDie d f).links = s.links := rfl
@[simp] theorem State.modDie_ports (d : Nat) (f : Die → Die) : (s.modDie d f).ports = s.ports := rfl
@[simp] theorem State.modDie_peers (d : Nat) (f : Die → Die) : (s.modDie d f).peers = s.peers := rfl
@[simp] theorem State.modDie_snd (d : Nat) (f : Die → Die) : (s.modDie d f).snd = s.snd := rfl
@[simp] theorem State.modDie_rcv (d : Nat) (f : Die → Die) : (s.modDie d f).rcv = s.rcv := rfl
@[simp] theorem State.modDie_colls (d : Nat) (f : Die → Die) : (s.modDie d f).colls = s.colls := rfl
@[simp] theorem State.modDie_red (d : Nat) (f : Die → Die) : (s.modDie d f).red = s.red := rfl
@[simp] theorem State.modDie_routes (d : Nat) (f : Die → Die) : (s.modDie d f).routes = s.routes := rfl
@[simp] theorem State.modDie_rxq (d : Nat) (f : Die → Die) : (s.modDie d f).rxq = s.rxq := rfl
@[simp] theorem State.modDie_ended (d : Nat) (f : Die → Die) : (s.modDie d f).ended = s.ended := rfl
@[simp] theorem State.modDie_fabDown (d : Nat) (f : Die → Die) : (s.modDie d f).fabDown = s.fabDown := rfl
@[simp] theorem State.modDie_fabRoutes (d : Nat) (f : Die → Die) : (s.modDie d f).fabRoutes = s.fabRoutes := rfl
@[simp] theorem State.modDie_cellSamples (d : Nat) (f : Die → Die) : (s.modDie d f).cellSamples = s.cellSamples := rfl
@[simp] theorem State.modDie_hub (d : Nat) (f : Die → Die) : (s.modDie d f).hub = s.hub := rfl
@[simp] theorem State.modDie_sec (d : Nat) (f : Die → Die) : (s.modDie d f).sec = s.sec := rfl
@[simp] theorem State.modDie_plate (d : Nat) (f : Die → Die) : (s.modDie d f).plate = s.plate := rfl
@[simp] theorem State.modDie_boot (d : Nat) (f : Die → Die) : (s.modDie d f).boot = s.boot := rfl
@[simp] theorem State.modDie_pwr (d : Nat) (f : Die → Die) : (s.modDie d f).pwr = s.pwr := rfl
@[simp] theorem State.modDie_sent (d : Nat) (f : Die → Die) : (s.modDie d f).sent = s.sent := rfl
@[simp] theorem State.modDie_ctx (d : Nat) (f : Die → Die) (i : Nat) : (s.modDie d f).ctx i = s.ctx i := rfl
@[simp] theorem State.modDie_queue (d : Nat) (f : Die → Die) (i : Nat) : (s.modDie d f).queue i = s.queue i := rfl
@[simp] theorem State.modDie_cell (d : Nat) (f : Die → Die) (i : Nat) : (s.modDie d f).cell i = s.cell i := rfl
@[simp] theorem State.modDie_holder (d : Nat) (f : Die → Die) (i : Nat) : (s.modDie d f).holder i = s.holder i := rfl
@[simp] theorem State.modDie_link (d : Nat) (f : Die → Die) (i : Nat) : (s.modDie d f).link i = s.link i := rfl
@[simp] theorem State.modDie_port (d : Nat) (f : Die → Die) (i : Nat) : (s.modDie d f).port i = s.port i := rfl
@[simp] theorem State.modDie_peer (d : Nat) (f : Die → Die) (i : Nat) : (s.modDie d f).peer i = s.peer i := rfl
@[simp] theorem State.modDie_seq (d : Nat) (f : Die → Die) (i : Nat) : (s.modDie d f).seq i = s.seq i := rfl
@[simp] theorem State.modDie_mbox (d : Nat) (f : Die → Die) (i : Nat) : (s.modDie d f).mbox i = s.mbox i := rfl
@[simp] theorem State.modDie_sl (d : Nat) (f : Die → Die) (i : Nat) : (s.modDie d f).sl i = s.sl i := rfl

/-! ### After modHub -/
@[simp] theorem State.modHub_pending (f : Hub → Hub) : (s.modHub f).pending = s.pending := rfl
@[simp] theorem State.modHub_clk (f : Hub → Hub) : (s.modHub f).clk = s.clk := rfl
@[simp] theorem State.modHub_freeCtr (f : Hub → Hub) : (s.modHub f).freeCtr = s.freeCtr := rfl
@[simp] theorem State.modHub_mem (f : Hub → Hub) : (s.modHub f).mem = s.mem := rfl
@[simp] theorem State.modHub_poison (f : Hub → Hub) : (s.modHub f).poison = s.poison := rfl
@[simp] theorem State.modHub_flash (f : Hub → Hub) : (s.modHub f).flash = s.flash := rfl
@[simp] theorem State.modHub_ctxs (f : Hub → Hub) : (s.modHub f).ctxs = s.ctxs := rfl
@[simp] theorem State.modHub_seqs (f : Hub → Hub) : (s.modHub f).seqs = s.seqs := rfl
@[simp] theorem State.modHub_queues (f : Hub → Hub) : (s.modHub f).queues = s.queues := rfl
@[simp] theorem State.modHub_cells (f : Hub → Hub) : (s.modHub f).cells = s.cells := rfl
@[simp] theorem State.modHub_holders (f : Hub → Hub) : (s.modHub f).holders = s.holders := rfl
@[simp] theorem State.modHub_links (f : Hub → Hub) : (s.modHub f).links = s.links := rfl
@[simp] theorem State.modHub_ports (f : Hub → Hub) : (s.modHub f).ports = s.ports := rfl
@[simp] theorem State.modHub_peers (f : Hub → Hub) : (s.modHub f).peers = s.peers := rfl
@[simp] theorem State.modHub_snd (f : Hub → Hub) : (s.modHub f).snd = s.snd := rfl
@[simp] theorem State.modHub_rcv (f : Hub → Hub) : (s.modHub f).rcv = s.rcv := rfl
@[simp] theorem State.modHub_colls (f : Hub → Hub) : (s.modHub f).colls = s.colls := rfl
@[simp] theorem State.modHub_red (f : Hub → Hub) : (s.modHub f).red = s.red := rfl
@[simp] theorem State.modHub_routes (f : Hub → Hub) : (s.modHub f).routes = s.routes := rfl
@[simp] theorem State.modHub_rxq (f : Hub → Hub) : (s.modHub f).rxq = s.rxq := rfl
@[simp] theorem State.modHub_ended (f : Hub → Hub) : (s.modHub f).ended = s.ended := rfl
@[simp] theorem State.modHub_fabDown (f : Hub → Hub) : (s.modHub f).fabDown = s.fabDown := rfl
@[simp] theorem State.modHub_fabRoutes (f : Hub → Hub) : (s.modHub f).fabRoutes = s.fabRoutes := rfl
@[simp] theorem State.modHub_cellSamples (f : Hub → Hub) : (s.modHub f).cellSamples = s.cellSamples := rfl
@[simp] theorem State.modHub_sec (f : Hub → Hub) : (s.modHub f).sec = s.sec := rfl
@[simp] theorem State.modHub_plate (f : Hub → Hub) : (s.modHub f).plate = s.plate := rfl
@[simp] theorem State.modHub_boot (f : Hub → Hub) : (s.modHub f).boot = s.boot := rfl
@[simp] theorem State.modHub_dies (f : Hub → Hub) : (s.modHub f).dies = s.dies := rfl
@[simp] theorem State.modHub_pwr (f : Hub → Hub) : (s.modHub f).pwr = s.pwr := rfl
@[simp] theorem State.modHub_sent (f : Hub → Hub) : (s.modHub f).sent = s.sent := rfl
@[simp] theorem State.modHub_ctx (f : Hub → Hub) (i : Nat) : (s.modHub f).ctx i = s.ctx i := rfl
@[simp] theorem State.modHub_queue (f : Hub → Hub) (i : Nat) : (s.modHub f).queue i = s.queue i := rfl
@[simp] theorem State.modHub_cell (f : Hub → Hub) (i : Nat) : (s.modHub f).cell i = s.cell i := rfl
@[simp] theorem State.modHub_holder (f : Hub → Hub) (i : Nat) : (s.modHub f).holder i = s.holder i := rfl
@[simp] theorem State.modHub_link (f : Hub → Hub) (i : Nat) : (s.modHub f).link i = s.link i := rfl
@[simp] theorem State.modHub_port (f : Hub → Hub) (i : Nat) : (s.modHub f).port i = s.port i := rfl
@[simp] theorem State.modHub_peer (f : Hub → Hub) (i : Nat) : (s.modHub f).peer i = s.peer i := rfl
@[simp] theorem State.modHub_seq (f : Hub → Hub) (i : Nat) : (s.modHub f).seq i = s.seq i := rfl
@[simp] theorem State.modHub_die (f : Hub → Hub) (i : Nat) : (s.modHub f).die i = s.die i := rfl
@[simp] theorem State.modHub_sl (f : Hub → Hub) (i : Nat) : (s.modHub f).sl i = s.sl i := rfl

/-! ### After modMbox -/
@[simp] theorem State.modMbox_pending (c : Nat) (f : Mbox → Mbox) : (s.modMbox c f).pending = s.pending := rfl
@[simp] theorem State.modMbox_clk (c : Nat) (f : Mbox → Mbox) : (s.modMbox c f).clk = s.clk := rfl
@[simp] theorem State.modMbox_freeCtr (c : Nat) (f : Mbox → Mbox) : (s.modMbox c f).freeCtr = s.freeCtr := rfl
@[simp] theorem State.modMbox_mem (c : Nat) (f : Mbox → Mbox) : (s.modMbox c f).mem = s.mem := rfl
@[simp] theorem State.modMbox_poison (c : Nat) (f : Mbox → Mbox) : (s.modMbox c f).poison = s.poison := rfl
@[simp] theorem State.modMbox_flash (c : Nat) (f : Mbox → Mbox) : (s.modMbox c f).flash = s.flash := rfl
@[simp] theorem State.modMbox_ctxs (c : Nat) (f : Mbox → Mbox) : (s.modMbox c f).ctxs = s.ctxs := rfl
@[simp] theorem State.modMbox_seqs (c : Nat) (f : Mbox → Mbox) : (s.modMbox c f).seqs = s.seqs := rfl
@[simp] theorem State.modMbox_queues (c : Nat) (f : Mbox → Mbox) : (s.modMbox c f).queues = s.queues := rfl
@[simp] theorem State.modMbox_cells (c : Nat) (f : Mbox → Mbox) : (s.modMbox c f).cells = s.cells := rfl
@[simp] theorem State.modMbox_holders (c : Nat) (f : Mbox → Mbox) : (s.modMbox c f).holders = s.holders := rfl
@[simp] theorem State.modMbox_links (c : Nat) (f : Mbox → Mbox) : (s.modMbox c f).links = s.links := rfl
@[simp] theorem State.modMbox_ports (c : Nat) (f : Mbox → Mbox) : (s.modMbox c f).ports = s.ports := rfl
@[simp] theorem State.modMbox_peers (c : Nat) (f : Mbox → Mbox) : (s.modMbox c f).peers = s.peers := rfl
@[simp] theorem State.modMbox_snd (c : Nat) (f : Mbox → Mbox) : (s.modMbox c f).snd = s.snd := rfl
@[simp] theorem State.modMbox_rcv (c : Nat) (f : Mbox → Mbox) : (s.modMbox c f).rcv = s.rcv := rfl
@[simp] theorem State.modMbox_colls (c : Nat) (f : Mbox → Mbox) : (s.modMbox c f).colls = s.colls := rfl
@[simp] theorem State.modMbox_red (c : Nat) (f : Mbox → Mbox) : (s.modMbox c f).red = s.red := rfl
@[simp] theorem State.modMbox_routes (c : Nat) (f : Mbox → Mbox) : (s.modMbox c f).routes = s.routes := rfl
@[simp] theorem State.modMbox_rxq (c : Nat) (f : Mbox → Mbox) : (s.modMbox c f).rxq = s.rxq := rfl
@[simp] theorem State.modMbox_ended (c : Nat) (f : Mbox → Mbox) : (s.modMbox c f).ended = s.ended := rfl
@[simp] theorem State.modMbox_fabDown (c : Nat) (f : Mbox → Mbox) : (s.modMbox c f).fabDown = s.fabDown := rfl
@[simp] theorem State.modMbox_fabRoutes (c : Nat) (f : Mbox → Mbox) : (s.modMbox c f).fabRoutes = s.fabRoutes := rfl
@[simp] theorem State.modMbox_cellSamples (c : Nat) (f : Mbox → Mbox) : (s.modMbox c f).cellSamples = s.cellSamples := rfl
@[simp] theorem State.modMbox_sec (c : Nat) (f : Mbox → Mbox) : (s.modMbox c f).sec = s.sec := rfl
@[simp] theorem State.modMbox_plate (c : Nat) (f : Mbox → Mbox) : (s.modMbox c f).plate = s.plate := rfl
@[simp] theorem State.modMbox_boot (c : Nat) (f : Mbox → Mbox) : (s.modMbox c f).boot = s.boot := rfl
@[simp] theorem State.modMbox_dies (c : Nat) (f : Mbox → Mbox) : (s.modMbox c f).dies = s.dies := rfl
@[simp] theorem State.modMbox_pwr (c : Nat) (f : Mbox → Mbox) : (s.modMbox c f).pwr = s.pwr := rfl
@[simp] theorem State.modMbox_sent (c : Nat) (f : Mbox → Mbox) : (s.modMbox c f).sent = s.sent := rfl
@[simp] theorem State.modMbox_ctx (c : Nat) (f : Mbox → Mbox) (i : Nat) : (s.modMbox c f).ctx i = s.ctx i := rfl
@[simp] theorem State.modMbox_queue (c : Nat) (f : Mbox → Mbox) (i : Nat) : (s.modMbox c f).queue i = s.queue i := rfl
@[simp] theorem State.modMbox_cell (c : Nat) (f : Mbox → Mbox) (i : Nat) : (s.modMbox c f).cell i = s.cell i := rfl
@[simp] theorem State.modMbox_holder (c : Nat) (f : Mbox → Mbox) (i : Nat) : (s.modMbox c f).holder i = s.holder i := rfl
@[simp] theorem State.modMbox_link (c : Nat) (f : Mbox → Mbox) (i : Nat) : (s.modMbox c f).link i = s.link i := rfl
@[simp] theorem State.modMbox_port (c : Nat) (f : Mbox → Mbox) (i : Nat) : (s.modMbox c f).port i = s.port i := rfl
@[simp] theorem State.modMbox_peer (c : Nat) (f : Mbox → Mbox) (i : Nat) : (s.modMbox c f).peer i = s.peer i := rfl
@[simp] theorem State.modMbox_seq (c : Nat) (f : Mbox → Mbox) (i : Nat) : (s.modMbox c f).seq i = s.seq i := rfl
@[simp] theorem State.modMbox_die (c : Nat) (f : Mbox → Mbox) (i : Nat) : (s.modMbox c f).die i = s.die i := rfl
@[simp] theorem State.modMbox_sl (c : Nat) (f : Mbox → Mbox) (i : Nat) : (s.modMbox c f).sl i = s.sl i := rfl

/-! ### After modSl -/
@[simp] theorem State.modSl_pending (x : Nat) (f : StepLine → StepLine) : (s.modSl x f).pending = s.pending := rfl
@[simp] theorem State.modSl_clk (x : Nat) (f : StepLine → StepLine) : (s.modSl x f).clk = s.clk := rfl
@[simp] theorem State.modSl_freeCtr (x : Nat) (f : StepLine → StepLine) : (s.modSl x f).freeCtr = s.freeCtr := rfl
@[simp] theorem State.modSl_mem (x : Nat) (f : StepLine → StepLine) : (s.modSl x f).mem = s.mem := rfl
@[simp] theorem State.modSl_poison (x : Nat) (f : StepLine → StepLine) : (s.modSl x f).poison = s.poison := rfl
@[simp] theorem State.modSl_flash (x : Nat) (f : StepLine → StepLine) : (s.modSl x f).flash = s.flash := rfl
@[simp] theorem State.modSl_seqs (x : Nat) (f : StepLine → StepLine) : (s.modSl x f).seqs = s.seqs := rfl
@[simp] theorem State.modSl_queues (x : Nat) (f : StepLine → StepLine) : (s.modSl x f).queues = s.queues := rfl
@[simp] theorem State.modSl_cells (x : Nat) (f : StepLine → StepLine) : (s.modSl x f).cells = s.cells := rfl
@[simp] theorem State.modSl_holders (x : Nat) (f : StepLine → StepLine) : (s.modSl x f).holders = s.holders := rfl
@[simp] theorem State.modSl_links (x : Nat) (f : StepLine → StepLine) : (s.modSl x f).links = s.links := rfl
@[simp] theorem State.modSl_ports (x : Nat) (f : StepLine → StepLine) : (s.modSl x f).ports = s.ports := rfl
@[simp] theorem State.modSl_peers (x : Nat) (f : StepLine → StepLine) : (s.modSl x f).peers = s.peers := rfl
@[simp] theorem State.modSl_snd (x : Nat) (f : StepLine → StepLine) : (s.modSl x f).snd = s.snd := rfl
@[simp] theorem State.modSl_rcv (x : Nat) (f : StepLine → StepLine) : (s.modSl x f).rcv = s.rcv := rfl
@[simp] theorem State.modSl_colls (x : Nat) (f : StepLine → StepLine) : (s.modSl x f).colls = s.colls := rfl
@[simp] theorem State.modSl_red (x : Nat) (f : StepLine → StepLine) : (s.modSl x f).red = s.red := rfl
@[simp] theorem State.modSl_routes (x : Nat) (f : StepLine → StepLine) : (s.modSl x f).routes = s.routes := rfl
@[simp] theorem State.modSl_rxq (x : Nat) (f : StepLine → StepLine) : (s.modSl x f).rxq = s.rxq := rfl
@[simp] theorem State.modSl_ended (x : Nat) (f : StepLine → StepLine) : (s.modSl x f).ended = s.ended := rfl
@[simp] theorem State.modSl_fabDown (x : Nat) (f : StepLine → StepLine) : (s.modSl x f).fabDown = s.fabDown := rfl
@[simp] theorem State.modSl_fabRoutes (x : Nat) (f : StepLine → StepLine) : (s.modSl x f).fabRoutes = s.fabRoutes := rfl
@[simp] theorem State.modSl_cellSamples (x : Nat) (f : StepLine → StepLine) : (s.modSl x f).cellSamples = s.cellSamples := rfl
@[simp] theorem State.modSl_hub (x : Nat) (f : StepLine → StepLine) : (s.modSl x f).hub = s.hub := rfl
@[simp] theorem State.modSl_sec (x : Nat) (f : StepLine → StepLine) : (s.modSl x f).sec = s.sec := rfl
@[simp] theorem State.modSl_plate (x : Nat) (f : StepLine → StepLine) : (s.modSl x f).plate = s.plate := rfl
@[simp] theorem State.modSl_boot (x : Nat) (f : StepLine → StepLine) : (s.modSl x f).boot = s.boot := rfl
@[simp] theorem State.modSl_dies (x : Nat) (f : StepLine → StepLine) : (s.modSl x f).dies = s.dies := rfl
@[simp] theorem State.modSl_pwr (x : Nat) (f : StepLine → StepLine) : (s.modSl x f).pwr = s.pwr := rfl
@[simp] theorem State.modSl_sent (x : Nat) (f : StepLine → StepLine) : (s.modSl x f).sent = s.sent := rfl
@[simp] theorem State.modSl_queue (x : Nat) (f : StepLine → StepLine) (i : Nat) : (s.modSl x f).queue i = s.queue i := rfl
@[simp] theorem State.modSl_cell (x : Nat) (f : StepLine → StepLine) (i : Nat) : (s.modSl x f).cell i = s.cell i := rfl
@[simp] theorem State.modSl_holder (x : Nat) (f : StepLine → StepLine) (i : Nat) : (s.modSl x f).holder i = s.holder i := rfl
@[simp] theorem State.modSl_link (x : Nat) (f : StepLine → StepLine) (i : Nat) : (s.modSl x f).link i = s.link i := rfl
@[simp] theorem State.modSl_port (x : Nat) (f : StepLine → StepLine) (i : Nat) : (s.modSl x f).port i = s.port i := rfl
@[simp] theorem State.modSl_peer (x : Nat) (f : StepLine → StepLine) (i : Nat) : (s.modSl x f).peer i = s.peer i := rfl
@[simp] theorem State.modSl_seq (x : Nat) (f : StepLine → StepLine) (i : Nat) : (s.modSl x f).seq i = s.seq i := rfl
@[simp] theorem State.modSl_die (x : Nat) (f : StepLine → StepLine) (i : Nat) : (s.modSl x f).die i = s.die i := rfl
@[simp] theorem State.modSl_mbox (x : Nat) (f : StepLine → StepLine) (i : Nat) : (s.modSl x f).mbox i = s.mbox i := rfl

/-! ### After emit -/
@[simp] theorem State.emit_pending (m : OutMsg) : (s.emit m).pending = s.pending := rfl
@[simp] theorem State.emit_clk (m : OutMsg) : (s.emit m).clk = s.clk := rfl
@[simp] theorem State.emit_freeCtr (m : OutMsg) : (s.emit m).freeCtr = s.freeCtr := rfl
@[simp] theorem State.emit_mem (m : OutMsg) : (s.emit m).mem = s.mem := rfl
@[simp] theorem State.emit_poison (m : OutMsg) : (s.emit m).poison = s.poison := rfl
@[simp] theorem State.emit_flash (m : OutMsg) : (s.emit m).flash = s.flash := rfl
@[simp] theorem State.emit_ctxs (m : OutMsg) : (s.emit m).ctxs = s.ctxs := rfl
@[simp] theorem State.emit_seqs (m : OutMsg) : (s.emit m).seqs = s.seqs := rfl
@[simp] theorem State.emit_queues (m : OutMsg) : (s.emit m).queues = s.queues := rfl
@[simp] theorem State.emit_cells (m : OutMsg) : (s.emit m).cells = s.cells := rfl
@[simp] theorem State.emit_holders (m : OutMsg) : (s.emit m).holders = s.holders := rfl
@[simp] theorem State.emit_links (m : OutMsg) : (s.emit m).links = s.links := rfl
@[simp] theorem State.emit_ports (m : OutMsg) : (s.emit m).ports = s.ports := rfl
@[simp] theorem State.emit_peers (m : OutMsg) : (s.emit m).peers = s.peers := rfl
@[simp] theorem State.emit_snd (m : OutMsg) : (s.emit m).snd = s.snd := rfl
@[simp] theorem State.emit_rcv (m : OutMsg) : (s.emit m).rcv = s.rcv := rfl
@[simp] theorem State.emit_colls (m : OutMsg) : (s.emit m).colls = s.colls := rfl
@[simp] theorem State.emit_red (m : OutMsg) : (s.emit m).red = s.red := rfl
@[simp] theorem State.emit_routes (m : OutMsg) : (s.emit m).routes = s.routes := rfl
@[simp] theorem State.emit_rxq (m : OutMsg) : (s.emit m).rxq = s.rxq := rfl
@[simp] theorem State.emit_ended (m : OutMsg) : (s.emit m).ended = s.ended := rfl
@[simp] theorem State.emit_fabDown (m : OutMsg) : (s.emit m).fabDown = s.fabDown := rfl
@[simp] theorem State.emit_fabRoutes (m : OutMsg) : (s.emit m).fabRoutes = s.fabRoutes := rfl
@[simp] theorem State.emit_cellSamples (m : OutMsg) : (s.emit m).cellSamples = s.cellSamples := rfl
@[simp] theorem State.emit_hub (m : OutMsg) : (s.emit m).hub = s.hub := rfl
@[simp] theorem State.emit_sec (m : OutMsg) : (s.emit m).sec = s.sec := rfl
@[simp] theorem State.emit_plate (m : OutMsg) : (s.emit m).plate = s.plate := rfl
@[simp] theorem State.emit_boot (m : OutMsg) : (s.emit m).boot = s.boot := rfl
@[simp] theorem State.emit_dies (m : OutMsg) : (s.emit m).dies = s.dies := rfl
@[simp] theorem State.emit_pwr (m : OutMsg) : (s.emit m).pwr = s.pwr := rfl
@[simp] theorem State.emit_ctx (m : OutMsg) (i : Nat) : (s.emit m).ctx i = s.ctx i := rfl
@[simp] theorem State.emit_queue (m : OutMsg) (i : Nat) : (s.emit m).queue i = s.queue i := rfl
@[simp] theorem State.emit_cell (m : OutMsg) (i : Nat) : (s.emit m).cell i = s.cell i := rfl
@[simp] theorem State.emit_holder (m : OutMsg) (i : Nat) : (s.emit m).holder i = s.holder i := rfl
@[simp] theorem State.emit_link (m : OutMsg) (i : Nat) : (s.emit m).link i = s.link i := rfl
@[simp] theorem State.emit_port (m : OutMsg) (i : Nat) : (s.emit m).port i = s.port i := rfl
@[simp] theorem State.emit_peer (m : OutMsg) (i : Nat) : (s.emit m).peer i = s.peer i := rfl
@[simp] theorem State.emit_seq (m : OutMsg) (i : Nat) : (s.emit m).seq i = s.seq i := rfl
@[simp] theorem State.emit_die (m : OutMsg) (i : Nat) : (s.emit m).die i = s.die i := rfl
@[simp] theorem State.emit_mbox (m : OutMsg) (i : Nat) : (s.emit m).mbox i = s.mbox i := rfl
@[simp] theorem State.emit_sl (m : OutMsg) (i : Nat) : (s.emit m).sl i = s.sl i := rfl

/-! ### After poke -/
@[simp] theorem poke_pending (a : Nat) (bs : Bytes) : (poke s a bs).pending = s.pending := rfl
@[simp] theorem poke_clk (a : Nat) (bs : Bytes) : (poke s a bs).clk = s.clk := rfl
@[simp] theorem poke_freeCtr (a : Nat) (bs : Bytes) : (poke s a bs).freeCtr = s.freeCtr := rfl
@[simp] theorem poke_poison (a : Nat) (bs : Bytes) : (poke s a bs).poison = s.poison := rfl
@[simp] theorem poke_flash (a : Nat) (bs : Bytes) : (poke s a bs).flash = s.flash := rfl
@[simp] theorem poke_ctxs (a : Nat) (bs : Bytes) : (poke s a bs).ctxs = s.ctxs := rfl
@[simp] theorem poke_seqs (a : Nat) (bs : Bytes) : (poke s a bs).seqs = s.seqs := rfl
@[simp] theorem poke_queues (a : Nat) (bs : Bytes) : (poke s a bs).queues = s.queues := rfl
@[simp] theorem poke_cells (a : Nat) (bs : Bytes) : (poke s a bs).cells = s.cells := rfl
@[simp] theorem poke_holders (a : Nat) (bs : Bytes) : (poke s a bs).holders = s.holders := rfl
@[simp] theorem poke_links (a : Nat) (bs : Bytes) : (poke s a bs).links = s.links := rfl
@[simp] theorem poke_ports (a : Nat) (bs : Bytes) : (poke s a bs).ports = s.ports := rfl
@[simp] theorem poke_peers (a : Nat) (bs : Bytes) : (poke s a bs).peers = s.peers := rfl
@[simp] theorem poke_snd (a : Nat) (bs : Bytes) : (poke s a bs).snd = s.snd := rfl
@[simp] theorem poke_rcv (a : Nat) (bs : Bytes) : (poke s a bs).rcv = s.rcv := rfl
@[simp] theorem poke_colls (a : Nat) (bs : Bytes) : (poke s a bs).colls = s.colls := rfl
@[simp] theorem poke_red (a : Nat) (bs : Bytes) : (poke s a bs).red = s.red := rfl
@[simp] theorem poke_routes (a : Nat) (bs : Bytes) : (poke s a bs).routes = s.routes := rfl
@[simp] theorem poke_rxq (a : Nat) (bs : Bytes) : (poke s a bs).rxq = s.rxq := rfl
@[simp] theorem poke_ended (a : Nat) (bs : Bytes) : (poke s a bs).ended = s.ended := rfl
@[simp] theorem poke_fabDown (a : Nat) (bs : Bytes) : (poke s a bs).fabDown = s.fabDown := rfl
@[simp] theorem poke_fabRoutes (a : Nat) (bs : Bytes) : (poke s a bs).fabRoutes = s.fabRoutes := rfl
@[simp] theorem poke_cellSamples (a : Nat) (bs : Bytes) : (poke s a bs).cellSamples = s.cellSamples := rfl
@[simp] theorem poke_hub (a : Nat) (bs : Bytes) : (poke s a bs).hub = s.hub := rfl
@[simp] theorem poke_sec (a : Nat) (bs : Bytes) : (poke s a bs).sec = s.sec := rfl
@[simp] theorem poke_plate (a : Nat) (bs : Bytes) : (poke s a bs).plate = s.plate := rfl
@[simp] theorem poke_boot (a : Nat) (bs : Bytes) : (poke s a bs).boot = s.boot := rfl
@[simp] theorem poke_dies (a : Nat) (bs : Bytes) : (poke s a bs).dies = s.dies := rfl
@[simp] theorem poke_pwr (a : Nat) (bs : Bytes) : (poke s a bs).pwr = s.pwr := rfl
@[simp] theorem poke_sent (a : Nat) (bs : Bytes) : (poke s a bs).sent = s.sent := rfl
@[simp] theorem poke_ctx (a : Nat) (bs : Bytes) (i : Nat) : (poke s a bs).ctx i = s.ctx i := rfl
@[simp] theorem poke_queue (a : Nat) (bs : Bytes) (i : Nat) : (poke s a bs).queue i = s.queue i := rfl
@[simp] theorem poke_cell (a : Nat) (bs : Bytes) (i : Nat) : (poke s a bs).cell i = s.cell i := rfl
@[simp] theorem poke_holder (a : Nat) (bs : Bytes) (i : Nat) : (poke s a bs).holder i = s.holder i := rfl
@[simp] theorem poke_link (a : Nat) (bs : Bytes) (i : Nat) : (poke s a bs).link i = s.link i := rfl
@[simp] theorem poke_port (a : Nat) (bs : Bytes) (i : Nat) : (poke s a bs).port i = s.port i := rfl
@[simp] theorem poke_peer (a : Nat) (bs : Bytes) (i : Nat) : (poke s a bs).peer i = s.peer i := rfl
@[simp] theorem poke_seq (a : Nat) (bs : Bytes) (i : Nat) : (poke s a bs).seq i = s.seq i := rfl
@[simp] theorem poke_die (a : Nat) (bs : Bytes) (i : Nat) : (poke s a bs).die i = s.die i := rfl
@[simp] theorem poke_mbox (a : Nat) (bs : Bytes) (i : Nat) : (poke s a bs).mbox i = s.mbox i := rfl
@[simp] theorem poke_sl (a : Nat) (bs : Bytes) (i : Nat) : (poke s a bs).sl i = s.sl i := rfl

/-! ### After putSnd -/
@[simp] theorem putSnd_pending (k : FlowKey) (f : SndFlow) : (putSnd s k f).pending = s.pending := rfl
@[simp] theorem putSnd_clk (k : FlowKey) (f : SndFlow) : (putSnd s k f).clk = s.clk := rfl
@[simp] theorem putSnd_freeCtr (k : FlowKey) (f : SndFlow) : (putSnd s k f).freeCtr = s.freeCtr := rfl
@[simp] theorem putSnd_mem (k : FlowKey) (f : SndFlow) : (putSnd s k f).mem = s.mem := rfl
@[simp] theorem putSnd_poison (k : FlowKey) (f : SndFlow) : (putSnd s k f).poison = s.poison := rfl
@[simp] theorem putSnd_flash (k : FlowKey) (f : SndFlow) : (putSnd s k f).flash = s.flash := rfl
@[simp] theorem putSnd_ctxs (k : FlowKey) (f : SndFlow) : (putSnd s k f).ctxs = s.ctxs := rfl
@[simp] theorem putSnd_seqs (k : FlowKey) (f : SndFlow) : (putSnd s k f).seqs = s.seqs := rfl
@[simp] theorem putSnd_queues (k : FlowKey) (f : SndFlow) : (putSnd s k f).queues = s.queues := rfl
@[simp] theorem putSnd_cells (k : FlowKey) (f : SndFlow) : (putSnd s k f).cells = s.cells := rfl
@[simp] theorem putSnd_holders (k : FlowKey) (f : SndFlow) : (putSnd s k f).holders = s.holders := rfl
@[simp] theorem putSnd_links (k : FlowKey) (f : SndFlow) : (putSnd s k f).links = s.links := rfl
@[simp] theorem putSnd_ports (k : FlowKey) (f : SndFlow) : (putSnd s k f).ports = s.ports := rfl
@[simp] theorem putSnd_peers (k : FlowKey) (f : SndFlow) : (putSnd s k f).peers = s.peers := rfl
@[simp] theorem putSnd_rcv (k : FlowKey) (f : SndFlow) : (putSnd s k f).rcv = s.rcv := rfl
@[simp] theorem putSnd_colls (k : FlowKey) (f : SndFlow) : (putSnd s k f).colls = s.colls := rfl
@[simp] theorem putSnd_red (k : FlowKey) (f : SndFlow) : (putSnd s k f).red = s.red := rfl
@[simp] theorem putSnd_routes (k : FlowKey) (f : SndFlow) : (putSnd s k f).routes = s.routes := rfl
@[simp] theorem putSnd_rxq (k : FlowKey) (f : SndFlow) : (putSnd s k f).rxq = s.rxq := rfl
@[simp] theorem putSnd_ended (k : FlowKey) (f : SndFlow) : (putSnd s k f).ended = s.ended := rfl
@[simp] theorem putSnd_fabDown (k : FlowKey) (f : SndFlow) : (putSnd s k f).fabDown = s.fabDown := rfl
@[simp] theorem putSnd_fabRoutes (k : FlowKey) (f : SndFlow) : (putSnd s k f).fabRoutes = s.fabRoutes := rfl
@[simp] theorem putSnd_cellSamples (k : FlowKey) (f : SndFlow) : (putSnd s k f).cellSamples = s.cellSamples := rfl
@[simp] theorem putSnd_hub (k : FlowKey) (f : SndFlow) : (putSnd s k f).hub = s.hub := rfl
@[simp] theorem putSnd_sec (k : FlowKey) (f : SndFlow) : (putSnd s k f).sec = s.sec := rfl
@[simp] theorem putSnd_plate (k : FlowKey) (f : SndFlow) : (putSnd s k f).plate = s.plate := rfl
@[simp] theorem putSnd_boot (k : FlowKey) (f : SndFlow) : (putSnd s k f).boot = s.boot := rfl
@[simp] theorem putSnd_dies (k : FlowKey) (f : SndFlow) : (putSnd s k f).dies = s.dies := rfl
@[simp] theorem putSnd_pwr (k : FlowKey) (f : SndFlow) : (putSnd s k f).pwr = s.pwr := rfl
@[simp] theorem putSnd_sent (k : FlowKey) (f : SndFlow) : (putSnd s k f).sent = s.sent := rfl
@[simp] theorem putSnd_ctx (k : FlowKey) (f : SndFlow) (i : Nat) : (putSnd s k f).ctx i = s.ctx i := rfl
@[simp] theorem putSnd_queue (k : FlowKey) (f : SndFlow) (i : Nat) : (putSnd s k f).queue i = s.queue i := rfl
@[simp] theorem putSnd_cell (k : FlowKey) (f : SndFlow) (i : Nat) : (putSnd s k f).cell i = s.cell i := rfl
@[simp] theorem putSnd_holder (k : FlowKey) (f : SndFlow) (i : Nat) : (putSnd s k f).holder i = s.holder i := rfl
@[simp] theorem putSnd_link (k : FlowKey) (f : SndFlow) (i : Nat) : (putSnd s k f).link i = s.link i := rfl
@[simp] theorem putSnd_port (k : FlowKey) (f : SndFlow) (i : Nat) : (putSnd s k f).port i = s.port i := rfl
@[simp] theorem putSnd_peer (k : FlowKey) (f : SndFlow) (i : Nat) : (putSnd s k f).peer i = s.peer i := rfl
@[simp] theorem putSnd_seq (k : FlowKey) (f : SndFlow) (i : Nat) : (putSnd s k f).seq i = s.seq i := rfl
@[simp] theorem putSnd_die (k : FlowKey) (f : SndFlow) (i : Nat) : (putSnd s k f).die i = s.die i := rfl
@[simp] theorem putSnd_mbox (k : FlowKey) (f : SndFlow) (i : Nat) : (putSnd s k f).mbox i = s.mbox i := rfl
@[simp] theorem putSnd_sl (k : FlowKey) (f : SndFlow) (i : Nat) : (putSnd s k f).sl i = s.sl i := rfl

/-! ### After putRcv -/
@[simp] theorem putRcv_pending (k : FlowKey) (f : RcvFlow) : (putRcv s k f).pending = s.pending := rfl
@[simp] theorem putRcv_clk (k : FlowKey) (f : RcvFlow) : (putRcv s k f).clk = s.clk := rfl
@[simp] theorem putRcv_freeCtr (k : FlowKey) (f : RcvFlow) : (putRcv s k f).freeCtr = s.freeCtr := rfl
@[simp] theorem putRcv_mem (k : FlowKey) (f : RcvFlow) : (putRcv s k f).mem = s.mem := rfl
@[simp] theorem putRcv_poison (k : FlowKey) (f : RcvFlow) : (putRcv s k f).poison = s.poison := rfl
@[simp] theorem putRcv_flash (k : FlowKey) (f : RcvFlow) : (putRcv s k f).flash = s.flash := rfl
@[simp] theorem putRcv_ctxs (k : FlowKey) (f : RcvFlow) : (putRcv s k f).ctxs = s.ctxs := rfl
@[simp] theorem putRcv_seqs (k : FlowKey) (f : RcvFlow) : (putRcv s k f).seqs = s.seqs := rfl
@[simp] theorem putRcv_queues (k : FlowKey) (f : RcvFlow) : (putRcv s k f).queues = s.queues := rfl
@[simp] theorem putRcv_cells (k : FlowKey) (f : RcvFlow) : (putRcv s k f).cells = s.cells := rfl
@[simp] theorem putRcv_holders (k : FlowKey) (f : RcvFlow) : (putRcv s k f).holders = s.holders := rfl
@[simp] theorem putRcv_links (k : FlowKey) (f : RcvFlow) : (putRcv s k f).links = s.links := rfl
@[simp] theorem putRcv_ports (k : FlowKey) (f : RcvFlow) : (putRcv s k f).ports = s.ports := rfl
@[simp] theorem putRcv_peers (k : FlowKey) (f : RcvFlow) : (putRcv s k f).peers = s.peers := rfl
@[simp] theorem putRcv_snd (k : FlowKey) (f : RcvFlow) : (putRcv s k f).snd = s.snd := rfl
@[simp] theorem putRcv_colls (k : FlowKey) (f : RcvFlow) : (putRcv s k f).colls = s.colls := rfl
@[simp] theorem putRcv_red (k : FlowKey) (f : RcvFlow) : (putRcv s k f).red = s.red := rfl
@[simp] theorem putRcv_routes (k : FlowKey) (f : RcvFlow) : (putRcv s k f).routes = s.routes := rfl
@[simp] theorem putRcv_rxq (k : FlowKey) (f : RcvFlow) : (putRcv s k f).rxq = s.rxq := rfl
@[simp] theorem putRcv_ended (k : FlowKey) (f : RcvFlow) : (putRcv s k f).ended = s.ended := rfl
@[simp] theorem putRcv_fabDown (k : FlowKey) (f : RcvFlow) : (putRcv s k f).fabDown = s.fabDown := rfl
@[simp] theorem putRcv_fabRoutes (k : FlowKey) (f : RcvFlow) : (putRcv s k f).fabRoutes = s.fabRoutes := rfl
@[simp] theorem putRcv_cellSamples (k : FlowKey) (f : RcvFlow) : (putRcv s k f).cellSamples = s.cellSamples := rfl
@[simp] theorem putRcv_hub (k : FlowKey) (f : RcvFlow) : (putRcv s k f).hub = s.hub := rfl
@[simp] theorem putRcv_sec (k : FlowKey) (f : RcvFlow) : (putRcv s k f).sec = s.sec := rfl
@[simp] theorem putRcv_plate (k : FlowKey) (f : RcvFlow) : (putRcv s k f).plate = s.plate := rfl
@[simp] theorem putRcv_boot (k : FlowKey) (f : RcvFlow) : (putRcv s k f).boot = s.boot := rfl
@[simp] theorem putRcv_dies (k : FlowKey) (f : RcvFlow) : (putRcv s k f).dies = s.dies := rfl
@[simp] theorem putRcv_pwr (k : FlowKey) (f : RcvFlow) : (putRcv s k f).pwr = s.pwr := rfl
@[simp] theorem putRcv_sent (k : FlowKey) (f : RcvFlow) : (putRcv s k f).sent = s.sent := rfl
@[simp] theorem putRcv_ctx (k : FlowKey) (f : RcvFlow) (i : Nat) : (putRcv s k f).ctx i = s.ctx i := rfl
@[simp] theorem putRcv_queue (k : FlowKey) (f : RcvFlow) (i : Nat) : (putRcv s k f).queue i = s.queue i := rfl
@[simp] theorem putRcv_cell (k : FlowKey) (f : RcvFlow) (i : Nat) : (putRcv s k f).cell i = s.cell i := rfl
@[simp] theorem putRcv_holder (k : FlowKey) (f : RcvFlow) (i : Nat) : (putRcv s k f).holder i = s.holder i := rfl
@[simp] theorem putRcv_link (k : FlowKey) (f : RcvFlow) (i : Nat) : (putRcv s k f).link i = s.link i := rfl
@[simp] theorem putRcv_port (k : FlowKey) (f : RcvFlow) (i : Nat) : (putRcv s k f).port i = s.port i := rfl
@[simp] theorem putRcv_peer (k : FlowKey) (f : RcvFlow) (i : Nat) : (putRcv s k f).peer i = s.peer i := rfl
@[simp] theorem putRcv_seq (k : FlowKey) (f : RcvFlow) (i : Nat) : (putRcv s k f).seq i = s.seq i := rfl
@[simp] theorem putRcv_die (k : FlowKey) (f : RcvFlow) (i : Nat) : (putRcv s k f).die i = s.die i := rfl
@[simp] theorem putRcv_mbox (k : FlowKey) (f : RcvFlow) (i : Nat) : (putRcv s k f).mbox i = s.mbox i := rfl
@[simp] theorem putRcv_sl (k : FlowKey) (f : RcvFlow) (i : Nat) : (putRcv s k f).sl i = s.sl i := rfl

/-! ### After takeRx -/
@[simp] theorem takeRx_pending (p : FjPkt) : (takeRx s p).pending = s.pending := rfl
@[simp] theorem takeRx_clk (p : FjPkt) : (takeRx s p).clk = s.clk := rfl
@[simp] theorem takeRx_freeCtr (p : FjPkt) : (takeRx s p).freeCtr = s.freeCtr := rfl
@[simp] theorem takeRx_mem (p : FjPkt) : (takeRx s p).mem = s.mem := rfl
@[simp] theorem takeRx_poison (p : FjPkt) : (takeRx s p).poison = s.poison := rfl
@[simp] theorem takeRx_flash (p : FjPkt) : (takeRx s p).flash = s.flash := rfl
@[simp] theorem takeRx_ctxs (p : FjPkt) : (takeRx s p).ctxs = s.ctxs := rfl
@[simp] theorem takeRx_seqs (p : FjPkt) : (takeRx s p).seqs = s.seqs := rfl
@[simp] theorem takeRx_queues (p : FjPkt) : (takeRx s p).queues = s.queues := rfl
@[simp] theorem takeRx_cells (p : FjPkt) : (takeRx s p).cells = s.cells := rfl
@[simp] theorem takeRx_holders (p : FjPkt) : (takeRx s p).holders = s.holders := rfl
@[simp] theorem takeRx_links (p : FjPkt) : (takeRx s p).links = s.links := rfl
@[simp] theorem takeRx_ports (p : FjPkt) : (takeRx s p).ports = s.ports := rfl
@[simp] theorem takeRx_peers (p : FjPkt) : (takeRx s p).peers = s.peers := rfl
@[simp] theorem takeRx_snd (p : FjPkt) : (takeRx s p).snd = s.snd := rfl
@[simp] theorem takeRx_rcv (p : FjPkt) : (takeRx s p).rcv = s.rcv := rfl
@[simp] theorem takeRx_colls (p : FjPkt) : (takeRx s p).colls = s.colls := rfl
@[simp] theorem takeRx_red (p : FjPkt) : (takeRx s p).red = s.red := rfl
@[simp] theorem takeRx_routes (p : FjPkt) : (takeRx s p).routes = s.routes := rfl
@[simp] theorem takeRx_ended (p : FjPkt) : (takeRx s p).ended = s.ended := rfl
@[simp] theorem takeRx_fabDown (p : FjPkt) : (takeRx s p).fabDown = s.fabDown := rfl
@[simp] theorem takeRx_fabRoutes (p : FjPkt) : (takeRx s p).fabRoutes = s.fabRoutes := rfl
@[simp] theorem takeRx_cellSamples (p : FjPkt) : (takeRx s p).cellSamples = s.cellSamples := rfl
@[simp] theorem takeRx_hub (p : FjPkt) : (takeRx s p).hub = s.hub := rfl
@[simp] theorem takeRx_sec (p : FjPkt) : (takeRx s p).sec = s.sec := rfl
@[simp] theorem takeRx_plate (p : FjPkt) : (takeRx s p).plate = s.plate := rfl
@[simp] theorem takeRx_boot (p : FjPkt) : (takeRx s p).boot = s.boot := rfl
@[simp] theorem takeRx_dies (p : FjPkt) : (takeRx s p).dies = s.dies := rfl
@[simp] theorem takeRx_pwr (p : FjPkt) : (takeRx s p).pwr = s.pwr := rfl
@[simp] theorem takeRx_sent (p : FjPkt) : (takeRx s p).sent = s.sent := rfl
@[simp] theorem takeRx_ctx (p : FjPkt) (i : Nat) : (takeRx s p).ctx i = s.ctx i := rfl
@[simp] theorem takeRx_queue (p : FjPkt) (i : Nat) : (takeRx s p).queue i = s.queue i := rfl
@[simp] theorem takeRx_cell (p : FjPkt) (i : Nat) : (takeRx s p).cell i = s.cell i := rfl
@[simp] theorem takeRx_holder (p : FjPkt) (i : Nat) : (takeRx s p).holder i = s.holder i := rfl
@[simp] theorem takeRx_link (p : FjPkt) (i : Nat) : (takeRx s p).link i = s.link i := rfl
@[simp] theorem takeRx_port (p : FjPkt) (i : Nat) : (takeRx s p).port i = s.port i := rfl
@[simp] theorem takeRx_peer (p : FjPkt) (i : Nat) : (takeRx s p).peer i = s.peer i := rfl
@[simp] theorem takeRx_seq (p : FjPkt) (i : Nat) : (takeRx s p).seq i = s.seq i := rfl
@[simp] theorem takeRx_die (p : FjPkt) (i : Nat) : (takeRx s p).die i = s.die i := rfl
@[simp] theorem takeRx_mbox (p : FjPkt) (i : Nat) : (takeRx s p).mbox i = s.mbox i := rfl
@[simp] theorem takeRx_sl (p : FjPkt) (i : Nat) : (takeRx s p).sl i = s.sl i := rfl

/-- A key set twice holds the later value. -/
theorem tab_set_set {α : Type} (t : Tab α) (k : Nat) (v w : α) : (t.set k v).set k w = t.set k w := by
  induction t with
  | nil => simp [Tab.set]
  | cons e t ih =>
    obtain ⟨i, u⟩ := e
    simp only [Tab.set]
    split
    · simp [Tab.set]
    · split
      · simp [Tab.set]
      · simp [Tab.set, *]

theorem State.modCtx_congr (x : Nat) (f g : Ctx → Ctx) (hfg : f (s.ctx x) = g (s.ctx x)) : s.modCtx x f = s.modCtx x g := by
  unfold State.modCtx; rw [hfg]
theorem State.modCtx_modCtx (x : Nat) (f g : Ctx → Ctx) : (s.modCtx x f).modCtx x g = s.modCtx x (fun k => g (f k)) := by
  have hc : (s.modCtx x f).ctx x = f (s.ctx x) := by simp [State.modCtx, State.ctx]
  unfold State.modCtx at *
  simp only [hc, tab_set_set]
theorem State.modQueue_congr (q : Nat) (f g : Queue → Queue) (hfg : f (s.queue q) = g (s.queue q)) : s.modQueue q f = s.modQueue q g := by
  unfold State.modQueue; rw [hfg]
theorem State.modQueue_modQueue (q : Nat) (f g : Queue → Queue) : (s.modQueue q f).modQueue q g = s.modQueue q (fun k => g (f k)) := by
  have hc : (s.modQueue q f).queue q = f (s.queue q) := by simp [State.modQueue, State.queue]
  unfold State.modQueue at *
  simp only [hc, tab_set_set]
theorem State.modCell_congr (c : Nat) (f g : Cell → Cell) (hfg : f (s.cell c) = g (s.cell c)) : s.modCell c f = s.modCell c g := by
  unfold State.modCell; rw [hfg]
theorem State.modCell_modCell (c : Nat) (f g : Cell → Cell) : (s.modCell c f).modCell c g = s.modCell c (fun k => g (f k)) := by
  have hc : (s.modCell c f).cell c = f (s.cell c) := by simp [State.modCell, State.cell]
  unfold State.modCell at *
  simp only [hc, tab_set_set]
theorem State.modHolder_congr (h : Nat) (f g : Holder → Holder) (hfg : f (s.holder h) = g (s.holder h)) : s.modHolder h f = s.modHolder h g := by
  unfold State.modHolder; rw [hfg]
theorem State.modHolder_modHolder (h : Nat) (f g : Holder → Holder) : (s.modHolder h f).modHolder h g = s.modHolder h (fun k => g (f k)) := by
  have hc : (s.modHolder h f).holder h = f (s.holder h) := by simp [State.modHolder, State.holder]
  unfold State.modHolder at *
  simp only [hc, tab_set_set]
theorem State.modLink_congr (d : Nat) (f g : LinkDie → LinkDie) (hfg : f (s.link d) = g (s.link d)) : s.modLink d f = s.modLink d g := by
  unfold State.modLink; rw [hfg]
theorem State.modLink_modLink (d : Nat) (f g : LinkDie → LinkDie) : (s.modLink d f).modLink d g = s.modLink d (fun k => g (f k)) := by
  have hc : (s.modLink d f).link d = f (s.link d) := by simp [State.modLink, State.link]
  unfold State.modLink at *
  simp only [hc, tab_set_set]
theorem State.modPort_congr (l : Nat) (f g : SubPort → SubPort) (hfg : f (s.port l) = g (s.port l)) : s.modPort l f = s.modPort l g := by
  unfold State.modPort; rw [hfg]
theorem State.modPort_modPort (l : Nat) (f g : SubPort → SubPort) : (s.modPort l f).modPort l g = s.modPort l (fun k => g (f k)) := by
  have hc : (s.modPort l f).port l = f (s.port l) := by simp [State.modPort, State.port]
  unfold State.modPort at *
  simp only [hc, tab_set_set]
theorem State.modPeer_congr (d : Nat) (f g : Peer → Peer) (hfg : f (s.peer d) = g (s.peer d)) : s.modPeer d f = s.modPeer d g := by
  unfold State.modPeer; rw [hfg]
theorem State.modPeer_modPeer (d : Nat) (f g : Peer → Peer) : (s.modPeer d f).modPeer d g = s.modPeer d (fun k => g (f k)) := by
  have hc : (s.modPeer d f).peer d = f (s.peer d) := by simp [State.modPeer, State.peer]
  unfold State.modPeer at *
  simp only [hc, tab_set_set]
theorem State.modSeq_congr (t : Nat) (f g : Seq → Seq) (hfg : f (s.seq t) = g (s.seq t)) : s.modSeq t f = s.modSeq t g := by
  unfold State.modSeq; rw [hfg]
theorem State.modSeq_modSeq (t : Nat) (f g : Seq → Seq) : (s.modSeq t f).modSeq t g = s.modSeq t (fun k => g (f k)) := by
  have hc : (s.modSeq t f).seq t = f (s.seq t) := by simp [State.modSeq, State.seq]
  unfold State.modSeq at *
  simp only [hc, tab_set_set]
theorem State.modDie_congr (d : Nat) (f g : Die → Die) (hfg : f (s.die d) = g (s.die d)) : s.modDie d f = s.modDie d g := by
  unfold State.modDie; rw [hfg]
theorem State.modDie_modDie (d : Nat) (f g : Die → Die) : (s.modDie d f).modDie d g = s.modDie d (fun k => g (f k)) := by
  have hc : (s.modDie d f).die d = f (s.die d) := by simp [State.modDie, State.die]
  unfold State.modDie at *
  simp only [hc, tab_set_set]
/-- Part ctx after its own update. -/
theorem State.ctx_modCtx (x : Nat) (f : Ctx → Ctx) (i : Nat) : (s.modCtx x f).ctx i = if i = x then f (s.ctx x) else s.ctx i := by
  simp [State.modCtx, State.ctx, tab_get_set]
@[simp] theorem State.ctx_modCtx_same (x : Nat) (f : Ctx → Ctx) : (s.modCtx x f).ctx x = f (s.ctx x) := by
  simp [State.ctx_modCtx]
theorem State.ctx_modCtx_ne (x i : Nat) (f : Ctx → Ctx) (hne : i ≠ x) : (s.modCtx x f).ctx i = s.ctx i := by
  simp [State.ctx_modCtx, hne]
/-- Part queue after its own update. -/
theorem State.queue_modQueue (q : Nat) (f : Queue → Queue) (i : Nat) : (s.modQueue q f).queue i = if i = q then f (s.queue q) else s.queue i := by
  simp [State.modQueue, State.queue, tab_get_set]
@[simp] theorem State.queue_modQueue_same (q : Nat) (f : Queue → Queue) : (s.modQueue q f).queue q = f (s.queue q) := by
  simp [State.queue_modQueue]
theorem State.queue_modQueue_ne (q i : Nat) (f : Queue → Queue) (hne : i ≠ q) : (s.modQueue q f).queue i = s.queue i := by
  simp [State.queue_modQueue, hne]
/-- Part cell after its own update. -/
theorem State.cell_modCell (c : Nat) (f : Cell → Cell) (i : Nat) : (s.modCell c f).cell i = if i = c then f (s.cell c) else s.cell i := by
  simp [State.modCell, State.cell, tab_get_set]
@[simp] theorem State.cell_modCell_same (c : Nat) (f : Cell → Cell) : (s.modCell c f).cell c = f (s.cell c) := by
  simp [State.cell_modCell]
theorem State.cell_modCell_ne (c i : Nat) (f : Cell → Cell) (hne : i ≠ c) : (s.modCell c f).cell i = s.cell i := by
  simp [State.cell_modCell, hne]
/-- Part holder after its own update. -/
theorem State.holder_modHolder (h : Nat) (f : Holder → Holder) (i : Nat) : (s.modHolder h f).holder i = if i = h then f (s.holder h) else s.holder i := by
  simp [State.modHolder, State.holder, tab_get_set]
@[simp] theorem State.holder_modHolder_same (h : Nat) (f : Holder → Holder) : (s.modHolder h f).holder h = f (s.holder h) := by
  simp [State.holder_modHolder]
theorem State.holder_modHolder_ne (h i : Nat) (f : Holder → Holder) (hne : i ≠ h) : (s.modHolder h f).holder i = s.holder i := by
  simp [State.holder_modHolder, hne]
/-- Part link after its own update. -/
theorem State.link_modLink (d : Nat) (f : LinkDie → LinkDie) (i : Nat) : (s.modLink d f).link i = if i = d then f (s.link d) else s.link i := by
  simp [State.modLink, State.link, tab_get_set]
@[simp] theorem State.link_modLink_same (d : Nat) (f : LinkDie → LinkDie) : (s.modLink d f).link d = f (s.link d) := by
  simp [State.link_modLink]
theorem State.link_modLink_ne (d i : Nat) (f : LinkDie → LinkDie) (hne : i ≠ d) : (s.modLink d f).link i = s.link i := by
  simp [State.link_modLink, hne]
/-- Part port after its own update. -/
theorem State.port_modPort (l : Nat) (f : SubPort → SubPort) (i : Nat) : (s.modPort l f).port i = if i = l then f (s.port l) else s.port i := by
  simp [State.modPort, State.port, tab_get_set]
@[simp] theorem State.port_modPort_same (l : Nat) (f : SubPort → SubPort) : (s.modPort l f).port l = f (s.port l) := by
  simp [State.port_modPort]
theorem State.port_modPort_ne (l i : Nat) (f : SubPort → SubPort) (hne : i ≠ l) : (s.modPort l f).port i = s.port i := by
  simp [State.port_modPort, hne]
/-- Part peer after its own update. -/
theorem State.peer_modPeer (d : Nat) (f : Peer → Peer) (i : Nat) : (s.modPeer d f).peer i = if i = d then f (s.peer d) else s.peer i := by
  simp [State.modPeer, State.peer, tab_get_set]
@[simp] theorem State.peer_modPeer_same (d : Nat) (f : Peer → Peer) : (s.modPeer d f).peer d = f (s.peer d) := by
  simp [State.peer_modPeer]
theorem State.peer_modPeer_ne (d i : Nat) (f : Peer → Peer) (hne : i ≠ d) : (s.modPeer d f).peer i = s.peer i := by
  simp [State.peer_modPeer, hne]
/-- Part seq after its own update. -/
theorem State.seq_modSeq (t : Nat) (f : Seq → Seq) (i : Nat) : (s.modSeq t f).seq i = if i = t then f (s.seq t) else s.seq i := by
  simp [State.modSeq, State.seq, tab_get_set]
@[simp] theorem State.seq_modSeq_same (t : Nat) (f : Seq → Seq) : (s.modSeq t f).seq t = f (s.seq t) := by
  simp [State.seq_modSeq]
theorem State.seq_modSeq_ne (t i : Nat) (f : Seq → Seq) (hne : i ≠ t) : (s.modSeq t f).seq i = s.seq i := by
  simp [State.seq_modSeq, hne]
/-- Part die after its own update. -/
theorem State.die_modDie (d : Nat) (f : Die → Die) (i : Nat) : (s.modDie d f).die i = if i = d then f (s.die d) else s.die i := by
  simp [State.modDie, State.die, tab_get_set]
@[simp] theorem State.die_modDie_same (d : Nat) (f : Die → Die) : (s.modDie d f).die d = f (s.die d) := by
  simp [State.die_modDie]
theorem State.die_modDie_ne (d i : Nat) (f : Die → Die) (hne : i ≠ d) : (s.modDie d f).die i = s.die i := by
  simp [State.die_modDie, hne]
@[simp] theorem State.hub_modHub (f : Hub → Hub) : (s.modHub f).hub = f s.hub := rfl
@[simp] theorem State.sent_emit (m : OutMsg) : (s.emit m).sent = s.sent ++ [m] := rfl
@[simp] theorem poke_mem (a : Nat) (bs : Bytes) : (poke s a bs).mem = memWrite memFill s.mem a bs := rfl
@[simp] theorem State.sl_modSl_same (x : Nat) (f : StepLine → StepLine) : (s.modSl x f).sl x = f (s.sl x) := by
  simp [State.modSl, State.sl]
@[simp] theorem State.ctx_modSl_same (x : Nat) (f : StepLine → StepLine) : (s.modSl x f).ctx x = { s.ctx x with sl := f (s.ctx x).sl } := by
  simp [State.modSl]
@[simp] theorem State.sl_modCtx_same (x : Nat) (f : Ctx → Ctx) : (s.modCtx x f).sl x = (f (s.ctx x)).sl := by
  simp [State.sl]

end Sys2Proof.Machine
end

