-- ==== Sys2Proof/Laws/Memory.lean ====
section
/-! SUPPORT. Laws/Memory.lean: a byte read after a write, and that every memory operation keeps the canonical form. -/
namespace Sys2Proof.Machine

/-! ### The order of keys -/

/-- Where keys ascend from `o`, they ascend from nothing. -/
theorem above_weaken {α : Type} (o : Option Nat) (t : Tab α) (h : Tab.above o t = true) : Tab.above none t = true := by
  cases t with
  | nil => rfl
  | cons e t =>
    cases o with
    | none => exact h
    | some i => simp [Tab.above] at h ⊢; exact h.2

/-- Keys that ascend from a higher bound ascend from a lower one. -/
theorem above_mono {α : Type} (i j : Nat) (t : Tab α) (hij : i ≤ j) (h : Tab.above (some j) t = true) : Tab.above (some i) t = true := by
  cases t with
  | nil => rfl
  | cons e t => simp [Tab.above] at h ⊢; exact ⟨by omega, h.2⟩

/-- Setting a key above the bound keeps the order. -/
theorem above_set {α : Type} (i : Nat) (t : Tab α) (k : Nat) (v : α) (hk : i < k) (h : Tab.above (some i) t = true) :
    Tab.above (some i) (t.set k v) = true := by
  induction t generalizing i with
  | nil => simp [Tab.set, Tab.above, hk]
  | cons e t ih =>
    obtain ⟨j, w⟩ := e
    simp only [Tab.above, Bool.and_eq_true, decide_eq_true_eq] at h
    unfold Tab.set
    split
    · simp [Tab.above, *]
    · split
      · next heq => subst heq; simp [Tab.above, *]
      · have := ih j (by omega) h.2
        simp [Tab.above, *]

/-- Setting a key keeps the order. -/
theorem above_set_none {α : Type} (t : Tab α) (k : Nat) (v : α) (h : Tab.above none t = true) : Tab.above none (t.set k v) = true := by
  cases t with
  | nil => rfl
  | cons e t =>
    obtain ⟨j, w⟩ := e
    simp only [Tab.above] at h
    unfold Tab.set
    split
    · simp [Tab.above, *]
    · split
      · next heq => subst heq; simpa [Tab.above] using h
      · simpa [Tab.above] using above_set j t k v (by omega) h

/-- Removing a key keeps the order. -/
theorem above_erase {α : Type} (i : Nat) (t : Tab α) (k : Nat) (h : Tab.above (some i) t = true) : Tab.above (some i) (t.erase k) = true := by
  induction t generalizing i with
  | nil => rfl
  | cons e t ih =>
    obtain ⟨j, w⟩ := e
    simp only [Tab.above, Bool.and_eq_true, decide_eq_true_eq] at h
    unfold Tab.erase
    split
    · exact above_mono i j t (by omega) h.2
    · simp [Tab.above, h.1, ih j h.2]

/-- Removing a key keeps the order. -/
theorem above_erase_none {α : Type} (t : Tab α) (k : Nat) (h : Tab.above none t = true) : Tab.above none (t.erase k) = true := by
  cases t with
  | nil => rfl
  | cons e t =>
    obtain ⟨j, w⟩ := e
    simp only [Tab.above] at h
    unfold Tab.erase
    split
    · exact above_weaken _ t h
    · simpa [Tab.above] using above_erase j t k h

/-- Where keys ascend from a bound, the bound is not among them. -/
theorem get_below {α : Type} (d : α) (t : Tab α) (i k : Nat) (hk : k ≤ i) (h : Tab.above (some i) t = true) : t.get d k = d := by
  induction t generalizing i with
  | nil => rfl
  | cons e t ih =>
    obtain ⟨j, w⟩ := e
    simp only [Tab.above, Bool.and_eq_true, decide_eq_true_eq] at h
    have : j ≠ k := by omega
    simp [Tab.get, this, ih j (by omega) h.2]

/-- The entry at a key after a key is removed from an ordered table. -/
theorem tab_get_erase {α : Type} (d : α) (t : Tab α) (k j : Nat) (h : Tab.above none t = true) :
    (t.erase k).get d j = if j = k then d else t.get d j := by
  induction t with
  | nil => simp [Tab.erase, Tab.get]
  | cons e t ih =>
    obtain ⟨i, w⟩ := e
    simp only [Tab.above] at h
    by_cases h1 : i = k
    · subst h1
      rw [Tab.erase, if_pos rfl]
      by_cases h2 : j = i
      · subst h2
        rw [if_pos rfl]
        exact get_below d t j j (le_refl j) h
      · simp [Tab.get, h2, Ne.symm h2]
    · rw [Tab.erase, if_neg h1]
      by_cases h2 : i = j
      · subst h2
        simp [Tab.get, h1]
      · simp [Tab.get, h2, ih (above_weaken _ t h)]

/-! ### Entries -/

/-- Entries after a key is set. -/
theorem mem_set {α : Type} (t : Tab α) (k : Nat) (v : α) (e : Nat × α) (h : e ∈ t.set k v) : e = (k, v) ∨ e ∈ t := by
  induction t with
  | nil => simpa [Tab.set] using h
  | cons f t ih =>
    obtain ⟨j, w⟩ := f
    unfold Tab.set at h
    split at h
    · simpa using h
    · split at h
      · next heq =>
        rcases List.mem_cons.mp h with h | h
        · exact .inl h
        · exact .inr (List.mem_cons_of_mem _ h)
      · rcases List.mem_cons.mp h with h | h
        · exact .inr (by simp [h])
        · rcases ih h with h | h
          · exact .inl h
          · exact .inr (List.mem_cons_of_mem _ h)

/-- Entries after a key is removed. -/
theorem mem_erase {α : Type} (t : Tab α) (k : Nat) (e : Nat × α) (h : e ∈ t.erase k) : e ∈ t := by
  induction t with
  | nil => simp [Tab.erase] at h
  | cons f t ih =>
    obtain ⟨j, w⟩ := f
    unfold Tab.erase at h
    split at h
    · exact List.mem_cons_of_mem _ h
    · rcases List.mem_cons.mp h with h | h
      · simp [h]
      · exact List.mem_cons_of_mem _ (ih h)

/-! ### Memory -/

/-- The canonical form, entry by entry. -/
theorem memWf_iff (d : Byte) (m : List Host.Cell) : memWf d m = true ↔ Tab.above none m = true ∧ ∀ e ∈ m, e.2 ≠ d := by
  simp [memWf]

/-- Writing a byte keeps the canonical form. -/
theorem memSet_wf (d : Byte) (m : List Host.Cell) (a : Nat) (b : Byte) (h : memWf d m = true) : memWf d (memSet d m a b) = true := by
  rw [memWf_iff] at h ⊢
  unfold memSet
  split
  · exact ⟨above_erase_none m a h.1, fun e he => h.2 e (mem_erase m a e he)⟩
  · next hb =>
    refine ⟨above_set_none m a b h.1, fun e he => ?_⟩
    rcases mem_set m a b e he with rfl | he
    · exact hb
    · exact h.2 e he

/-- Writing bytes keeps the canonical form. -/
theorem memWrite_wf (d : Byte) (m : List Host.Cell) (a : Nat) (bs : Bytes) (h : memWf d m = true) : memWf d (memWrite d m a bs) = true := by
  induction bs generalizing m a with
  | nil => exact h
  | cons b bs ih => exact ih _ _ (memSet_wf d m a b h)

/-- Keys that ascend still do when entries are dropped. -/
theorem above_filter {α : Type} (p : Nat × α → Bool) (t : Tab α) (i : Nat) (h : Tab.above (some i) t = true) :
    Tab.above (some i) (t.filter p) = true := by
  induction t generalizing i with
  | nil => rfl
  | cons e t ih =>
    obtain ⟨j, w⟩ := e
    simp only [Tab.above, Bool.and_eq_true, decide_eq_true_eq] at h
    by_cases hp : p (j, w) = true
    · rw [List.filter_cons_of_pos hp]
      simp [Tab.above, h.1, ih j h.2]
    · rw [List.filter_cons_of_neg hp]
      exact ih i (above_mono i j t (by omega) h.2)

/-- Keys that ascend still do when entries are dropped. -/
theorem above_filter_none {α : Type} (p : Nat × α → Bool) (t : Tab α) (h : Tab.above none t = true) : Tab.above none (t.filter p) = true := by
  cases t with
  | nil => rfl
  | cons e t =>
    obtain ⟨j, w⟩ := e
    simp only [Tab.above] at h
    by_cases hp : p (j, w) = true
    · rw [List.filter_cons_of_pos hp]
      exact above_filter p t j h
    · rw [List.filter_cons_of_neg hp]
      exact above_weaken _ _ (above_filter p t j h)

/-- Zeroing an interval keeps the canonical form. -/
theorem memZero_wf (d : Byte) (m : List Host.Cell) (a n : Nat) (h : memWf d m = true) : memWf d (memZero m a n) = true := by
  rw [memWf_iff] at h ⊢
  exact ⟨above_filter_none _ m h.1, fun e he => h.2 e (List.mem_of_mem_filter he)⟩

/-- Setting entries that keep the canonical form, one after the other, keeps it. -/
theorem foldl_set_wf (d : Byte) (g : Nat × Byte → Nat) (l m : List Host.Cell) (hl : ∀ e ∈ l, e.2 ≠ d) (h : memWf d m = true) :
    memWf d (l.foldl (fun t c => Tab.set t (g c) c.2) m) = true := by
  induction l generalizing m with
  | nil => exact h
  | cons e l ih =>
    refine ih _ (fun x hx => hl x (List.mem_cons_of_mem _ hx)) ?_
    have he := hl e (by simp)
    have := memSet_wf d m (g e) e.2 h
    rwa [memSet, if_neg he] at this

/-- Copying an interval keeps the canonical form. -/
theorem memCopy_wf (d : Byte) (m : List Host.Cell) (a b n : Nat) (h : memWf d m = true) : memWf d (memCopy m a b n) = true := by
  refine foldl_set_wf d _ _ _ (fun e he => ?_) (memZero_wf d m b n h)
  exact ((memWf_iff d m).mp h).2 e (List.mem_of_mem_filter he)

/-- A byte read after a byte was written. -/
theorem memGet_memSet (d : Byte) (m : List Host.Cell) (a : Nat) (b : Byte) (i : Nat) (h : memWf d m = true) :
    memGet d (memSet d m a b) i = if i = a then b else memGet d m i := by
  unfold memGet memSet
  split
  · next hb => rw [tab_get_erase d m a i (memWf_iff d m |>.mp h).1, hb]
  · exact tab_get_set d m a b i

/-- A byte read outside the bytes written is as before. -/
theorem memGet_memWrite_outside (d : Byte) (m : List Host.Cell) (a : Nat) (bs : Bytes) (i : Nat) (h : memWf d m = true)
    (hi : i < a ∨ a + bs.length ≤ i) : memGet d (memWrite d m a bs) i = memGet d m i := by
  induction bs generalizing m a with
  | nil => rfl
  | cons b bs ih =>
    simp only [List.length_cons] at hi
    rw [memWrite, ih _ _ (memSet_wf d m a b h) (by omega), memGet_memSet d m a b i h, if_neg (by omega)]

/-- A byte read inside the bytes written is the byte written. -/
theorem memGet_memWrite_inside (d : Byte) (m : List Host.Cell) (a : Nat) (bs : Bytes) (i : Nat) (h : memWf d m = true)
    (hi : i < bs.length) : memGet d (memWrite d m a bs) (a + i) = bs[i] := by
  induction bs generalizing m a i with
  | nil => simp at hi
  | cons b bs ih =>
    cases i with
    | zero =>
      rw [memWrite, memGet_memWrite_outside d _ _ _ _ (memSet_wf d m a b h) (by omega), memGet_memSet d m a b _ h]
      simp
    | succ i =>
      have := ih (memSet d m a b) (a + 1) i (memSet_wf d m a b h) (by simpa using hi)
      simpa [memWrite, Nat.add_assoc, Nat.add_comm 1 i] using this

/-- An entry of an ordered table is what its key reads as. -/
theorem get_mem {α : Type} (d : α) (t : Tab α) (k : Nat) (v : α) (h : Tab.above none t = true) (hm : (k, v) ∈ t) : t.get d k = v := by
  induction t with
  | nil => cases hm
  | cons e t ih =>
    obtain ⟨j, w⟩ := e
    simp only [Tab.above] at h
    rcases List.mem_cons.mp hm with hm | hm
    · cases hm; simp [Tab.get]
    · have hne : j ≠ k := by
        intro e
        subst e
        have : ∀ (t : Tab α) (i : Nat), Tab.above (some i) t = true → ∀ e ∈ t, i < e.1 := by
          intro t
          induction t with
          | nil => simp
          | cons e t ih =>
            intro i h e' he'
            obtain ⟨j, w⟩ := e
            simp only [Tab.above, Bool.and_eq_true, decide_eq_true_eq] at h
            rcases List.mem_cons.mp he' with he' | he'
            · subst he'; exact h.1
            · have := ih j h.2 e' he'; omega
        have := this t j h _ hm
        omega
      simp only [Tab.get, if_neg hne]
      exact ih (above_weaken _ t h) hm

/-- A key without an entry reads as the default. -/
theorem get_absent {α : Type} (d : α) (t : Tab α) (k : Nat) (h : ∀ e ∈ t, e.1 ≠ k) : t.get d k = d := by
  induction t with
  | nil => rfl
  | cons e t ih =>
    obtain ⟨j, w⟩ := e
    have : j ≠ k := h (j, w) (by simp)
    simp only [Tab.get, if_neg this]
    exact ih (fun e he => h e (List.mem_cons_of_mem _ he))

/-- A byte read after an interval was zeroed. -/
theorem memGet_memZero (d : Byte) (m : List Host.Cell) (a n i : Nat) (h : memWf d m = true) :
    memGet d (memZero m a n) i = if a ≤ i ∧ i < a + n then d else memGet d m i := by
  have hw := memZero_wf d m a n h
  rw [memWf_iff] at h hw
  unfold memGet
  split
  · next hi =>
    apply get_absent
    intro e he
    have := (List.mem_filter.mp he).2
    simp at this
    intro e2
    omega
  · next hi =>
    by_cases hx : ∃ e ∈ m, e.1 = i
    · obtain ⟨⟨j, v⟩, he, rfl⟩ := hx
      rw [get_mem d m j v h.1 he]
      apply get_mem d _ j v hw.1
      refine List.mem_filter.mpr ⟨he, ?_⟩
      simp only [not_and, not_lt] at hi
      simp
      omega
    · push Not at hx
      rw [get_absent d m i hx]
      exact get_absent d _ i (fun e he => hx e (List.mem_of_mem_filter he))

/-- Setting entries one after the other leaves a key that none of them names. -/
theorem get_foldl_set_ne (d : Byte) (g : Nat → Nat) (l m : List Host.Cell) (k : Nat) (h : ∀ e ∈ l, g e.1 ≠ k) :
    Tab.get d (l.foldl (fun t c => Tab.set t (g c.1) c.2) m) k = Tab.get d m k := by
  induction l generalizing m with
  | nil => rfl
  | cons e l ih =>
    rw [List.foldl_cons, ih _ (fun x hx => h x (List.mem_cons_of_mem _ hx)), tab_get_set, if_neg (Ne.symm (h e (by simp)))]

/-- Setting entries one after the other: a key that they name holds their value when they agree on it. -/
theorem get_foldl_set_eq (d : Byte) (g : Nat → Nat) (l m : List Host.Cell) (k : Nat) (v : Byte) (h : ∃ e ∈ l, g e.1 = k)
    (ha : ∀ e ∈ l, g e.1 = k → e.2 = v) : Tab.get d (l.foldl (fun t c => Tab.set t (g c.1) c.2) m) k = v := by
  induction l generalizing m with
  | nil => obtain ⟨e, he, -⟩ := h; cases he
  | cons e l ih =>
    rw [List.foldl_cons]
    by_cases hl : ∃ e ∈ l, g e.1 = k
    · exact ih _ hl (fun x hx => ha x (List.mem_cons_of_mem _ hx))
    · push Not at hl
      rw [get_foldl_set_ne d g l _ k hl, tab_get_set]
      obtain ⟨x, hx, hk⟩ := h
      rcases List.mem_cons.mp hx with rfl | hx
      · rw [if_pos hk.symm]; exact ha x (by simp) hk
      · exact absurd hk (hl x hx)

/-- A byte read after an interval was copied. -/
theorem memGet_memCopy (d : Byte) (m : List Host.Cell) (src dst n i : Nat) (h : memWf d m = true) :
    memGet d (memCopy m src dst n) i = if dst ≤ i ∧ i < dst + n then memGet d m (i - dst + src) else memGet d m i := by
  have hz := memGet_memZero d m dst n i h
  have hw := (memWf_iff d m).mp h
  unfold memGet memCopy at *
  by_cases hx : ∃ e ∈ m.filter (fun c => decide (src ≤ c.1) && decide (c.1 < src + n)), e.1 - src + dst = i
  · have hx' := hx
    obtain ⟨⟨j, v⟩, he, hk⟩ := hx
    have hf := List.mem_filter.mp he
    simp only [Bool.and_eq_true, decide_eq_true_eq] at hf
    simp only at hk
    rw [if_pos (by omega), show i - dst + src = j by omega, get_mem d m j v hw.1 hf.1]
    refine get_foldl_set_eq d (fun k => k - src + dst) _ _ i v hx' ?_
    rintro ⟨j2, v2⟩ he2 hk2
    have hf2 := List.mem_filter.mp he2
    simp only [Bool.and_eq_true, decide_eq_true_eq] at hf2
    simp only at hk2
    have : j2 = j := by omega
    subst this
    have a1 := get_mem d m j2 v hw.1 hf.1
    have a2 := get_mem d m j2 v2 hw.1 hf2.1
    exact a2.symm.trans a1
  · push Not at hx
    rw [get_foldl_set_ne d (fun k => k - src + dst) _ _ i hx, hz]
    split
    · next hi =>
      symm
      apply get_absent
      rintro ⟨j, v⟩ he hj
      simp only at hj
      refine hx (j, v) (List.mem_filter.mpr ⟨he, ?_⟩) ?_
      · simp; omega
      · simp only; omega
    · rfl

/-- Every write of the model to device memory goes through `poke`, which keeps its canonical form. -/
theorem poke_wf (s : State) (a : Nat) (bs : Bytes) (h : memWf memFill s.mem = true) : memWf memFill (poke s a bs).mem = true :=
  memWrite_wf memFill s.mem a bs h

/-- A checked write keeps the canonical form. -/
theorem writeMem_wf (s : State) (a : Nat) (bs : Bytes) (h : memWf memFill s.mem = true) : memWf memFill (writeMem s a bs).1.mem = true := by
  unfold writeMem
  split
  · exact poke_wf s a bs h
  · dsimp only
    split
    · exact poke_wf s a bs h
    · have fold : ∀ (f : State → Nat → State), (∀ t p, memWf memFill t.mem = true → memWf memFill (f t p).mem = true) →
          ∀ (l : List Nat) (t : State), memWf memFill t.mem = true → memWf memFill (l.foldl f t).mem = true := by
        intro f hf l
        induction l with
        | nil => exact fun t ht => ht
        | cons p l ih => exact fun t ht => ih _ (hf t p ht)
      exact fold _ (fun t p ht => memWrite_wf memFill t.mem _ _ ht) _ _ h

/-- A write into a context's memory keeps the canonical form. -/
theorem writeFor_wf (s : State) (x a : Nat) (bs : Bytes) (h : memWf memFill s.mem = true) : memWf memFill (writeFor s x a bs).1.mem = true := by
  unfold writeFor
  split
  · exact h
  · exact writeMem_wf s a bs h

/-- Reset lists no byte. -/
theorem reset_memWf : memWf memFill State.reset.mem = true ∧ memWf flashFill State.reset.flash = true := by
  exact ⟨rfl, rfl⟩

end Sys2Proof.Machine
end

