-- ==== Sys2Proof/Laws/Ops.lean ====
section
/-! SUPPORT. Laws/Ops.lean: what the shared operations leave unchanged, field by field, and when the frames of commands answer what they run. -/
namespace Sys2Proof.Machine

variable (s : State)

/-! ### Frames of commands -/

/-- With the rails up nothing volatile is lost. -/
theorem settle_of_lit (h : s.pwr.st.isDark = false) : s.settle = s := by simp [State.settle, h]

/-- In service nothing volatile is lost. -/
theorem settle_of_on (h : s.pwr.st = .on) : s.settle = s := settle_of_lit s (by simp [h, PwrSt.isDark])

/-- A command of a device in service answers its effect. -/
theorem serving_on (f : State → State) (h : s.pwr.st = .on) (hf : (f s).pwr.st.isDark = false) : serving f s = .next (f s) := by
  simp [serving, h, settle_of_lit _ hf]

/-- A command that needs the rails answers its effect when they are up. -/
theorem powered_lit (f : State → State) (h : s.pwr.st.isDark = false) (hf : (f s).pwr.st.isDark = false) : powered f s = .next (f s) := by
  simp [powered, h, settle_of_lit _ hf]

/-- A command of any power state answers its effect when the rails are up after it. -/
theorem always_lit (f : State → State) (hf : (f s).pwr.st.isDark = false) : always f s = .next (f s) := by
  simp [always, settle_of_lit _ hf]

/-- Out of service a command of a device in service changes nothing. -/
theorem serving_off (f : State → State) (h : s.pwr.st ≠ .on) : serving f s = .next s.settle := by simp [serving, h]

/-- Without rails a command that needs them changes nothing. -/
theorem powered_dark (f : State → State) (h : s.pwr.st.isDark = true) : powered f s = .next s.settle := by simp [powered, h]

/-! ### Firefly records change the hub alone -/

/-- An event changes the hub alone. -/
theorem ffEvent_eq (c v d u : Nat) (x : Option Nat) (b : Bytes) : ∃ f, ffEvent c v d u x b s = s.modHub f := by
  unfold ffEvent
  split
  · exact ⟨id, rfl⟩
  · split
    · exact ⟨_, rfl⟩
    · exact ⟨_, rfl⟩

/-- A trace point changes the hub alone. -/
theorem ffTrace_eq (c d u : Nat) (x : Option Nat) (b : Bytes) : ∃ f, ffTrace c d u x b s = s.modHub f := by
  unfold ffTrace
  split
  · exact ⟨id, rfl⟩
  · split
    · exact ⟨_, rfl⟩
    · exact ⟨_, rfl⟩

/-- An event does not touch the pools of the health score, the score's inputs or the mailboxes. -/
theorem ffEvent_hub (c v d u : Nat) (x : Option Nat) (b : Bytes) :
    (ffEvent c v d u x b s).hub.poolC = s.hub.poolC ∧ (ffEvent c v d u x b s).hub.poolO = s.hub.poolO ∧
    (ffEvent c v d u x b s).hub.errLog = s.hub.errLog ∧ (ffEvent c v d u x b s).hub.errNext = s.hub.errNext ∧
    (ffEvent c v d u x b s).hub.health = s.hub.health ∧ (ffEvent c v d u x b s).hub.mboxes = s.hub.mboxes := by
  unfold ffEvent
  split
  · simp
  · split <;> simp

/-! ### After ffEvent -/
@[simp] theorem ffEvent_pending (c v d u : Nat) (x : Option Nat) (b : Bytes) : (ffEvent c v d u x b s).pending = s.pending := by
  obtain ⟨f, h⟩ := ffEvent_eq s c v d u x b; rw [h]; rfl
@[simp] theorem ffEvent_clk (c v d u : Nat) (x : Option Nat) (b : Bytes) : (ffEvent c v d u x b s).clk = s.clk := by
  obtain ⟨f, h⟩ := ffEvent_eq s c v d u x b; rw [h]; rfl
@[simp] theorem ffEvent_freeCtr (c v d u : Nat) (x : Option Nat) (b : Bytes) : (ffEvent c v d u x b s).freeCtr = s.freeCtr := by
  obtain ⟨f, h⟩ := ffEvent_eq s c v d u x b; rw [h]; rfl
@[simp] theorem ffEvent_mem (c v d u : Nat) (x : Option Nat) (b : Bytes) : (ffEvent c v d u x b s).mem = s.mem := by
  obtain ⟨f, h⟩ := ffEvent_eq s c v d u x b; rw [h]; rfl
@[simp] theorem ffEvent_poison (c v d u : Nat) (x : Option Nat) (b : Bytes) : (ffEvent c v d u x b s).poison = s.poison := by
  obtain ⟨f, h⟩ := ffEvent_eq s c v d u x b; rw [h]; rfl
@[simp] theorem ffEvent_flash (c v d u : Nat) (x : Option Nat) (b : Bytes) : (ffEvent c v d u x b s).flash = s.flash := by
  obtain ⟨f, h⟩ := ffEvent_eq s c v d u x b; rw [h]; rfl
@[simp] theorem ffEvent_ctxs (c v d u : Nat) (x : Option Nat) (b : Bytes) : (ffEvent c v d u x b s).ctxs = s.ctxs := by
  obtain ⟨f, h⟩ := ffEvent_eq s c v d u x b; rw [h]; rfl
@[simp] theorem ffEvent_seqs (c v d u : Nat) (x : Option Nat) (b : Bytes) : (ffEvent c v d u x b s).seqs = s.seqs := by
  obtain ⟨f, h⟩ := ffEvent_eq s c v d u x b; rw [h]; rfl
@[simp] theorem ffEvent_queues (c v d u : Nat) (x : Option Nat) (b : Bytes) : (ffEvent c v d u x b s).queues = s.queues := by
  obtain ⟨f, h⟩ := ffEvent_eq s c v d u x b; rw [h]; rfl
@[simp] theorem ffEvent_cells (c v d u : Nat) (x : Option Nat) (b : Bytes) : (ffEvent c v d u x b s).cells = s.cells := by
  obtain ⟨f, h⟩ := ffEvent_eq s c v d u x b; rw [h]; rfl
@[simp] theorem ffEvent_holders (c v d u : Nat) (x : Option Nat) (b : Bytes) : (ffEvent c v d u x b s).holders = s.holders := by
  obtain ⟨f, h⟩ := ffEvent_eq s c v d u x b; rw [h]; rfl
@[simp] theorem ffEvent_links (c v d u : Nat) (x : Option Nat) (b : Bytes) : (ffEvent c v d u x b s).links = s.links := by
  obtain ⟨f, h⟩ := ffEvent_eq s c v d u x b; rw [h]; rfl
@[simp] theorem ffEvent_ports (c v d u : Nat) (x : Option Nat) (b : Bytes) : (ffEvent c v d u x b s).ports = s.ports := by
  obtain ⟨f, h⟩ := ffEvent_eq s c v d u x b; rw [h]; rfl
@[simp] theorem ffEvent_peers (c v d u : Nat) (x : Option Nat) (b : Bytes) : (ffEvent c v d u x b s).peers = s.peers := by
  obtain ⟨f, h⟩ := ffEvent_eq s c v d u x b; rw [h]; rfl
@[simp] theorem ffEvent_snd (c v d u : Nat) (x : Option Nat) (b : Bytes) : (ffEvent c v d u x b s).snd = s.snd := by
  obtain ⟨f, h⟩ := ffEvent_eq s c v d u x b; rw [h]; rfl
@[simp] theorem ffEvent_rcv (c v d u : Nat) (x : Option Nat) (b : Bytes) : (ffEvent c v d u x b s).rcv = s.rcv := by
  obtain ⟨f, h⟩ := ffEvent_eq s c v d u x b; rw [h]; rfl
@[simp] theorem ffEvent_colls (c v d u : Nat) (x : Option Nat) (b : Bytes) : (ffEvent c v d u x b s).colls = s.colls := by
  obtain ⟨f, h⟩ := ffEvent_eq s c v d u x b; rw [h]; rfl
@[simp] theorem ffEvent_red (c v d u : Nat) (x : Option Nat) (b : Bytes) : (ffEvent c v d u x b s).red = s.red := by
  obtain ⟨f, h⟩ := ffEvent_eq s c v d u x b; rw [h]; rfl
@[simp] theorem ffEvent_routes (c v d u : Nat) (x : Option Nat) (b : Bytes) : (ffEvent c v d u x b s).routes = s.routes := by
  obtain ⟨f, h⟩ := ffEvent_eq s c v d u x b; rw [h]; rfl
@[simp] theorem ffEvent_rxq (c v d u : Nat) (x : Option Nat) (b : Bytes) : (ffEvent c v d u x b s).rxq = s.rxq := by
  obtain ⟨f, h⟩ := ffEvent_eq s c v d u x b; rw [h]; rfl
@[simp] theorem ffEvent_ended (c v d u : Nat) (x : Option Nat) (b : Bytes) : (ffEvent c v d u x b s).ended = s.ended := by
  obtain ⟨f, h⟩ := ffEvent_eq s c v d u x b; rw [h]; rfl
@[simp] theorem ffEvent_fabDown (c v d u : Nat) (x : Option Nat) (b : Bytes) : (ffEvent c v d u x b s).fabDown = s.fabDown := by
  obtain ⟨f, h⟩ := ffEvent_eq s c v d u x b; rw [h]; rfl
@[simp] theorem ffEvent_fabRoutes (c v d u : Nat) (x : Option Nat) (b : Bytes) : (ffEvent c v d u x b s).fabRoutes = s.fabRoutes := by
  obtain ⟨f, h⟩ := ffEvent_eq s c v d u x b; rw [h]; rfl
@[simp] theorem ffEvent_cellSamples (c v d u : Nat) (x : Option Nat) (b : Bytes) : (ffEvent c v d u x b s).cellSamples = s.cellSamples := by
  obtain ⟨f, h⟩ := ffEvent_eq s c v d u x b; rw [h]; rfl
@[simp] theorem ffEvent_sec (c v d u : Nat) (x : Option Nat) (b : Bytes) : (ffEvent c v d u x b s).sec = s.sec := by
  obtain ⟨f, h⟩ := ffEvent_eq s c v d u x b; rw [h]; rfl
@[simp] theorem ffEvent_plate (c v d u : Nat) (x : Option Nat) (b : Bytes) : (ffEvent c v d u x b s).plate = s.plate := by
  obtain ⟨f, h⟩ := ffEvent_eq s c v d u x b; rw [h]; rfl
@[simp] theorem ffEvent_boot (c v d u : Nat) (x : Option Nat) (b : Bytes) : (ffEvent c v d u x b s).boot = s.boot := by
  obtain ⟨f, h⟩ := ffEvent_eq s c v d u x b; rw [h]; rfl
@[simp] theorem ffEvent_dies (c v d u : Nat) (x : Option Nat) (b : Bytes) : (ffEvent c v d u x b s).dies = s.dies := by
  obtain ⟨f, h⟩ := ffEvent_eq s c v d u x b; rw [h]; rfl
@[simp] theorem ffEvent_pwr (c v d u : Nat) (x : Option Nat) (b : Bytes) : (ffEvent c v d u x b s).pwr = s.pwr := by
  obtain ⟨f, h⟩ := ffEvent_eq s c v d u x b; rw [h]; rfl
@[simp] theorem ffEvent_sent (c v d u : Nat) (x : Option Nat) (b : Bytes) : (ffEvent c v d u x b s).sent = s.sent := by
  obtain ⟨f, h⟩ := ffEvent_eq s c v d u x b; rw [h]; rfl
@[simp] theorem ffEvent_ctx (c v d u : Nat) (x : Option Nat) (b : Bytes) (j : Nat) : (ffEvent c v d u x b s).ctx j = s.ctx j := by
  obtain ⟨f, h⟩ := ffEvent_eq s c v d u x b; rw [h]; rfl
@[simp] theorem ffEvent_queue (c v d u : Nat) (x : Option Nat) (b : Bytes) (j : Nat) : (ffEvent c v d u x b s).queue j = s.queue j := by
  obtain ⟨f, h⟩ := ffEvent_eq s c v d u x b; rw [h]; rfl
@[simp] theorem ffEvent_cell (c v d u : Nat) (x : Option Nat) (b : Bytes) (j : Nat) : (ffEvent c v d u x b s).cell j = s.cell j := by
  obtain ⟨f, h⟩ := ffEvent_eq s c v d u x b; rw [h]; rfl
@[simp] theorem ffEvent_holder (c v d u : Nat) (x : Option Nat) (b : Bytes) (j : Nat) : (ffEvent c v d u x b s).holder j = s.holder j := by
  obtain ⟨f, h⟩ := ffEvent_eq s c v d u x b; rw [h]; rfl
@[simp] theorem ffEvent_link (c v d u : Nat) (x : Option Nat) (b : Bytes) (j : Nat) : (ffEvent c v d u x b s).link j = s.link j := by
  obtain ⟨f, h⟩ := ffEvent_eq s c v d u x b; rw [h]; rfl
@[simp] theorem ffEvent_port (c v d u : Nat) (x : Option Nat) (b : Bytes) (j : Nat) : (ffEvent c v d u x b s).port j = s.port j := by
  obtain ⟨f, h⟩ := ffEvent_eq s c v d u x b; rw [h]; rfl
@[simp] theorem ffEvent_peer (c v d u : Nat) (x : Option Nat) (b : Bytes) (j : Nat) : (ffEvent c v d u x b s).peer j = s.peer j := by
  obtain ⟨f, h⟩ := ffEvent_eq s c v d u x b; rw [h]; rfl
@[simp] theorem ffEvent_seq (c v d u : Nat) (x : Option Nat) (b : Bytes) (j : Nat) : (ffEvent c v d u x b s).seq j = s.seq j := by
  obtain ⟨f, h⟩ := ffEvent_eq s c v d u x b; rw [h]; rfl
@[simp] theorem ffEvent_die (c v d u : Nat) (x : Option Nat) (b : Bytes) (j : Nat) : (ffEvent c v d u x b s).die j = s.die j := by
  obtain ⟨f, h⟩ := ffEvent_eq s c v d u x b; rw [h]; rfl
@[simp] theorem ffEvent_sl (c v d u : Nat) (x : Option Nat) (b : Bytes) (j : Nat) : (ffEvent c v d u x b s).sl j = s.sl j := by
  obtain ⟨f, h⟩ := ffEvent_eq s c v d u x b; rw [h]; rfl

/-! ### After ffTrace -/
@[simp] theorem ffTrace_pending (c d u : Nat) (x : Option Nat) (b : Bytes) : (ffTrace c d u x b s).pending = s.pending := by
  obtain ⟨f, h⟩ := ffTrace_eq s c d u x b; rw [h]; rfl
@[simp] theorem ffTrace_clk (c d u : Nat) (x : Option Nat) (b : Bytes) : (ffTrace c d u x b s).clk = s.clk := by
  obtain ⟨f, h⟩ := ffTrace_eq s c d u x b; rw [h]; rfl
@[simp] theorem ffTrace_freeCtr (c d u : Nat) (x : Option Nat) (b : Bytes) : (ffTrace c d u x b s).freeCtr = s.freeCtr := by
  obtain ⟨f, h⟩ := ffTrace_eq s c d u x b; rw [h]; rfl
@[simp] theorem ffTrace_mem (c d u : Nat) (x : Option Nat) (b : Bytes) : (ffTrace c d u x b s).mem = s.mem := by
  obtain ⟨f, h⟩ := ffTrace_eq s c d u x b; rw [h]; rfl
@[simp] theorem ffTrace_poison (c d u : Nat) (x : Option Nat) (b : Bytes) : (ffTrace c d u x b s).poison = s.poison := by
  obtain ⟨f, h⟩ := ffTrace_eq s c d u x b; rw [h]; rfl
@[simp] theorem ffTrace_flash (c d u : Nat) (x : Option Nat) (b : Bytes) : (ffTrace c d u x b s).flash = s.flash := by
  obtain ⟨f, h⟩ := ffTrace_eq s c d u x b; rw [h]; rfl
@[simp] theorem ffTrace_ctxs (c d u : Nat) (x : Option Nat) (b : Bytes) : (ffTrace c d u x b s).ctxs = s.ctxs := by
  obtain ⟨f, h⟩ := ffTrace_eq s c d u x b; rw [h]; rfl
@[simp] theorem ffTrace_seqs (c d u : Nat) (x : Option Nat) (b : Bytes) : (ffTrace c d u x b s).seqs = s.seqs := by
  obtain ⟨f, h⟩ := ffTrace_eq s c d u x b; rw [h]; rfl
@[simp] theorem ffTrace_queues (c d u : Nat) (x : Option Nat) (b : Bytes) : (ffTrace c d u x b s).queues = s.queues := by
  obtain ⟨f, h⟩ := ffTrace_eq s c d u x b; rw [h]; rfl
@[simp] theorem ffTrace_cells (c d u : Nat) (x : Option Nat) (b : Bytes) : (ffTrace c d u x b s).cells = s.cells := by
  obtain ⟨f, h⟩ := ffTrace_eq s c d u x b; rw [h]; rfl
@[simp] theorem ffTrace_holders (c d u : Nat) (x : Option Nat) (b : Bytes) : (ffTrace c d u x b s).holders = s.holders := by
  obtain ⟨f, h⟩ := ffTrace_eq s c d u x b; rw [h]; rfl
@[simp] theorem ffTrace_links (c d u : Nat) (x : Option Nat) (b : Bytes) : (ffTrace c d u x b s).links = s.links := by
  obtain ⟨f, h⟩ := ffTrace_eq s c d u x b; rw [h]; rfl
@[simp] theorem ffTrace_ports (c d u : Nat) (x : Option Nat) (b : Bytes) : (ffTrace c d u x b s).ports = s.ports := by
  obtain ⟨f, h⟩ := ffTrace_eq s c d u x b; rw [h]; rfl
@[simp] theorem ffTrace_peers (c d u : Nat) (x : Option Nat) (b : Bytes) : (ffTrace c d u x b s).peers = s.peers := by
  obtain ⟨f, h⟩ := ffTrace_eq s c d u x b; rw [h]; rfl
@[simp] theorem ffTrace_snd (c d u : Nat) (x : Option Nat) (b : Bytes) : (ffTrace c d u x b s).snd = s.snd := by
  obtain ⟨f, h⟩ := ffTrace_eq s c d u x b; rw [h]; rfl
@[simp] theorem ffTrace_rcv (c d u : Nat) (x : Option Nat) (b : Bytes) : (ffTrace c d u x b s).rcv = s.rcv := by
  obtain ⟨f, h⟩ := ffTrace_eq s c d u x b; rw [h]; rfl
@[simp] theorem ffTrace_colls (c d u : Nat) (x : Option Nat) (b : Bytes) : (ffTrace c d u x b s).colls = s.colls := by
  obtain ⟨f, h⟩ := ffTrace_eq s c d u x b; rw [h]; rfl
@[simp] theorem ffTrace_red (c d u : Nat) (x : Option Nat) (b : Bytes) : (ffTrace c d u x b s).red = s.red := by
  obtain ⟨f, h⟩ := ffTrace_eq s c d u x b; rw [h]; rfl
@[simp] theorem ffTrace_routes (c d u : Nat) (x : Option Nat) (b : Bytes) : (ffTrace c d u x b s).routes = s.routes := by
  obtain ⟨f, h⟩ := ffTrace_eq s c d u x b; rw [h]; rfl
@[simp] theorem ffTrace_rxq (c d u : Nat) (x : Option Nat) (b : Bytes) : (ffTrace c d u x b s).rxq = s.rxq := by
  obtain ⟨f, h⟩ := ffTrace_eq s c d u x b; rw [h]; rfl
@[simp] theorem ffTrace_ended (c d u : Nat) (x : Option Nat) (b : Bytes) : (ffTrace c d u x b s).ended = s.ended := by
  obtain ⟨f, h⟩ := ffTrace_eq s c d u x b; rw [h]; rfl
@[simp] theorem ffTrace_fabDown (c d u : Nat) (x : Option Nat) (b : Bytes) : (ffTrace c d u x b s).fabDown = s.fabDown := by
  obtain ⟨f, h⟩ := ffTrace_eq s c d u x b; rw [h]; rfl
@[simp] theorem ffTrace_fabRoutes (c d u : Nat) (x : Option Nat) (b : Bytes) : (ffTrace c d u x b s).fabRoutes = s.fabRoutes := by
  obtain ⟨f, h⟩ := ffTrace_eq s c d u x b; rw [h]; rfl
@[simp] theorem ffTrace_cellSamples (c d u : Nat) (x : Option Nat) (b : Bytes) : (ffTrace c d u x b s).cellSamples = s.cellSamples := by
  obtain ⟨f, h⟩ := ffTrace_eq s c d u x b; rw [h]; rfl
@[simp] theorem ffTrace_sec (c d u : Nat) (x : Option Nat) (b : Bytes) : (ffTrace c d u x b s).sec = s.sec := by
  obtain ⟨f, h⟩ := ffTrace_eq s c d u x b; rw [h]; rfl
@[simp] theorem ffTrace_plate (c d u : Nat) (x : Option Nat) (b : Bytes) : (ffTrace c d u x b s).plate = s.plate := by
  obtain ⟨f, h⟩ := ffTrace_eq s c d u x b; rw [h]; rfl
@[simp] theorem ffTrace_boot (c d u : Nat) (x : Option Nat) (b : Bytes) : (ffTrace c d u x b s).boot = s.boot := by
  obtain ⟨f, h⟩ := ffTrace_eq s c d u x b; rw [h]; rfl
@[simp] theorem ffTrace_dies (c d u : Nat) (x : Option Nat) (b : Bytes) : (ffTrace c d u x b s).dies = s.dies := by
  obtain ⟨f, h⟩ := ffTrace_eq s c d u x b; rw [h]; rfl
@[simp] theorem ffTrace_pwr (c d u : Nat) (x : Option Nat) (b : Bytes) : (ffTrace c d u x b s).pwr = s.pwr := by
  obtain ⟨f, h⟩ := ffTrace_eq s c d u x b; rw [h]; rfl
@[simp] theorem ffTrace_sent (c d u : Nat) (x : Option Nat) (b : Bytes) : (ffTrace c d u x b s).sent = s.sent := by
  obtain ⟨f, h⟩ := ffTrace_eq s c d u x b; rw [h]; rfl
@[simp] theorem ffTrace_ctx (c d u : Nat) (x : Option Nat) (b : Bytes) (j : Nat) : (ffTrace c d u x b s).ctx j = s.ctx j := by
  obtain ⟨f, h⟩ := ffTrace_eq s c d u x b; rw [h]; rfl
@[simp] theorem ffTrace_queue (c d u : Nat) (x : Option Nat) (b : Bytes) (j : Nat) : (ffTrace c d u x b s).queue j = s.queue j := by
  obtain ⟨f, h⟩ := ffTrace_eq s c d u x b; rw [h]; rfl
@[simp] theorem ffTrace_cell (c d u : Nat) (x : Option Nat) (b : Bytes) (j : Nat) : (ffTrace c d u x b s).cell j = s.cell j := by
  obtain ⟨f, h⟩ := ffTrace_eq s c d u x b; rw [h]; rfl
@[simp] theorem ffTrace_holder (c d u : Nat) (x : Option Nat) (b : Bytes) (j : Nat) : (ffTrace c d u x b s).holder j = s.holder j := by
  obtain ⟨f, h⟩ := ffTrace_eq s c d u x b; rw [h]; rfl
@[simp] theorem ffTrace_link (c d u : Nat) (x : Option Nat) (b : Bytes) (j : Nat) : (ffTrace c d u x b s).link j = s.link j := by
  obtain ⟨f, h⟩ := ffTrace_eq s c d u x b; rw [h]; rfl
@[simp] theorem ffTrace_port (c d u : Nat) (x : Option Nat) (b : Bytes) (j : Nat) : (ffTrace c d u x b s).port j = s.port j := by
  obtain ⟨f, h⟩ := ffTrace_eq s c d u x b; rw [h]; rfl
@[simp] theorem ffTrace_peer (c d u : Nat) (x : Option Nat) (b : Bytes) (j : Nat) : (ffTrace c d u x b s).peer j = s.peer j := by
  obtain ⟨f, h⟩ := ffTrace_eq s c d u x b; rw [h]; rfl
@[simp] theorem ffTrace_seq (c d u : Nat) (x : Option Nat) (b : Bytes) (j : Nat) : (ffTrace c d u x b s).seq j = s.seq j := by
  obtain ⟨f, h⟩ := ffTrace_eq s c d u x b; rw [h]; rfl
@[simp] theorem ffTrace_die (c d u : Nat) (x : Option Nat) (b : Bytes) (j : Nat) : (ffTrace c d u x b s).die j = s.die j := by
  obtain ⟨f, h⟩ := ffTrace_eq s c d u x b; rw [h]; rfl
@[simp] theorem ffTrace_sl (c d u : Nat) (x : Option Nat) (b : Bytes) (j : Nat) : (ffTrace c d u x b s).sl j = s.sl j := by
  obtain ⟨f, h⟩ := ffTrace_eq s c d u x b; rw [h]; rfl

/-- An event after a change of the hub and of the free values changes no more. -/
theorem ffEvent_after (c v d u : Nat) (x : Option Nat) (b : Bytes) (t : State)
    (h : ∃ g n, t = { s with hub := g, freeCtr := n }) : ∃ g n, ffEvent c v d u x b t = { s with hub := g, freeCtr := n } := by
  obtain ⟨f, n, rfl⟩ := h
  obtain ⟨g, hg⟩ := ffEvent_eq { s with hub := f, freeCtr := n } c v d u x b
  exact ⟨g f, n, by rw [hg]; rfl⟩

/-- An error record changes the hub, and takes free values, and no more. -/
theorem logErrorP_eq (pen cls d u : Nat) (x : Option Nat) (st : Nat) (b : Bytes) :
    ∃ g n, logErrorP pen cls d u x st b s = { s with hub := g, freeCtr := n } := by
  cases x <;>
  · unfold logErrorP
    dsimp only
    split
    · exact ⟨_, _, rfl⟩
    · exact ffEvent_after s _ _ _ _ _ _ _ ⟨_, _, rfl⟩

/-! ### After logErrorP -/
@[simp] theorem logErrorP_pending (pen cls d u : Nat) (x : Option Nat) (st : Nat) (b : Bytes) : (logErrorP pen cls d u x st b s).pending = s.pending := by
  obtain ⟨g, n, h⟩ := logErrorP_eq s pen cls d u x st b; simp only [h]
@[simp] theorem logErrorP_clk (pen cls d u : Nat) (x : Option Nat) (st : Nat) (b : Bytes) : (logErrorP pen cls d u x st b s).clk = s.clk := by
  obtain ⟨g, n, h⟩ := logErrorP_eq s pen cls d u x st b; simp only [h]
@[simp] theorem logErrorP_mem (pen cls d u : Nat) (x : Option Nat) (st : Nat) (b : Bytes) : (logErrorP pen cls d u x st b s).mem = s.mem := by
  obtain ⟨g, n, h⟩ := logErrorP_eq s pen cls d u x st b; simp only [h]
@[simp] theorem logErrorP_poison (pen cls d u : Nat) (x : Option Nat) (st : Nat) (b : Bytes) : (logErrorP pen cls d u x st b s).poison = s.poison := by
  obtain ⟨g, n, h⟩ := logErrorP_eq s pen cls d u x st b; simp only [h]
@[simp] theorem logErrorP_flash (pen cls d u : Nat) (x : Option Nat) (st : Nat) (b : Bytes) : (logErrorP pen cls d u x st b s).flash = s.flash := by
  obtain ⟨g, n, h⟩ := logErrorP_eq s pen cls d u x st b; simp only [h]
@[simp] theorem logErrorP_ctxs (pen cls d u : Nat) (x : Option Nat) (st : Nat) (b : Bytes) : (logErrorP pen cls d u x st b s).ctxs = s.ctxs := by
  obtain ⟨g, n, h⟩ := logErrorP_eq s pen cls d u x st b; simp only [h]
@[simp] theorem logErrorP_seqs (pen cls d u : Nat) (x : Option Nat) (st : Nat) (b : Bytes) : (logErrorP pen cls d u x st b s).seqs = s.seqs := by
  obtain ⟨g, n, h⟩ := logErrorP_eq s pen cls d u x st b; simp only [h]
@[simp] theorem logErrorP_queues (pen cls d u : Nat) (x : Option Nat) (st : Nat) (b : Bytes) : (logErrorP pen cls d u x st b s).queues = s.queues := by
  obtain ⟨g, n, h⟩ := logErrorP_eq s pen cls d u x st b; simp only [h]
@[simp] theorem logErrorP_cells (pen cls d u : Nat) (x : Option Nat) (st : Nat) (b : Bytes) : (logErrorP pen cls d u x st b s).cells = s.cells := by
  obtain ⟨g, n, h⟩ := logErrorP_eq s pen cls d u x st b; simp only [h]
@[simp] theorem logErrorP_holders (pen cls d u : Nat) (x : Option Nat) (st : Nat) (b : Bytes) : (logErrorP pen cls d u x st b s).holders = s.holders := by
  obtain ⟨g, n, h⟩ := logErrorP_eq s pen cls d u x st b; simp only [h]
@[simp] theorem logErrorP_links (pen cls d u : Nat) (x : Option Nat) (st : Nat) (b : Bytes) : (logErrorP pen cls d u x st b s).links = s.links := by
  obtain ⟨g, n, h⟩ := logErrorP_eq s pen cls d u x st b; simp only [h]
@[simp] theorem logErrorP_ports (pen cls d u : Nat) (x : Option Nat) (st : Nat) (b : Bytes) : (logErrorP pen cls d u x st b s).ports = s.ports := by
  obtain ⟨g, n, h⟩ := logErrorP_eq s pen cls d u x st b; simp only [h]
@[simp] theorem logErrorP_peers (pen cls d u : Nat) (x : Option Nat) (st : Nat) (b : Bytes) : (logErrorP pen cls d u x st b s).peers = s.peers := by
  obtain ⟨g, n, h⟩ := logErrorP_eq s pen cls d u x st b; simp only [h]
@[simp] theorem logErrorP_snd (pen cls d u : Nat) (x : Option Nat) (st : Nat) (b : Bytes) : (logErrorP pen cls d u x st b s).snd = s.snd := by
  obtain ⟨g, n, h⟩ := logErrorP_eq s pen cls d u x st b; simp only [h]
@[simp] theorem logErrorP_rcv (pen cls d u : Nat) (x : Option Nat) (st : Nat) (b : Bytes) : (logErrorP pen cls d u x st b s).rcv = s.rcv := by
  obtain ⟨g, n, h⟩ := logErrorP_eq s pen cls d u x st b; simp only [h]
@[simp] theorem logErrorP_colls (pen cls d u : Nat) (x : Option Nat) (st : Nat) (b : Bytes) : (logErrorP pen cls d u x st b s).colls = s.colls := by
  obtain ⟨g, n, h⟩ := logErrorP_eq s pen cls d u x st b; simp only [h]
@[simp] theorem logErrorP_red (pen cls d u : Nat) (x : Option Nat) (st : Nat) (b : Bytes) : (logErrorP pen cls d u x st b s).red = s.red := by
  obtain ⟨g, n, h⟩ := logErrorP_eq s pen cls d u x st b; simp only [h]
@[simp] theorem logErrorP_routes (pen cls d u : Nat) (x : Option Nat) (st : Nat) (b : Bytes) : (logErrorP pen cls d u x st b s).routes = s.routes := by
  obtain ⟨g, n, h⟩ := logErrorP_eq s pen cls d u x st b; simp only [h]
@[simp] theorem logErrorP_rxq (pen cls d u : Nat) (x : Option Nat) (st : Nat) (b : Bytes) : (logErrorP pen cls d u x st b s).rxq = s.rxq := by
  obtain ⟨g, n, h⟩ := logErrorP_eq s pen cls d u x st b; simp only [h]
@[simp] theorem logErrorP_ended (pen cls d u : Nat) (x : Option Nat) (st : Nat) (b : Bytes) : (logErrorP pen cls d u x st b s).ended = s.ended := by
  obtain ⟨g, n, h⟩ := logErrorP_eq s pen cls d u x st b; simp only [h]
@[simp] theorem logErrorP_fabDown (pen cls d u : Nat) (x : Option Nat) (st : Nat) (b : Bytes) : (logErrorP pen cls d u x st b s).fabDown = s.fabDown := by
  obtain ⟨g, n, h⟩ := logErrorP_eq s pen cls d u x st b; simp only [h]
@[simp] theorem logErrorP_fabRoutes (pen cls d u : Nat) (x : Option Nat) (st : Nat) (b : Bytes) : (logErrorP pen cls d u x st b s).fabRoutes = s.fabRoutes := by
  obtain ⟨g, n, h⟩ := logErrorP_eq s pen cls d u x st b; simp only [h]
@[simp] theorem logErrorP_cellSamples (pen cls d u : Nat) (x : Option Nat) (st : Nat) (b : Bytes) : (logErrorP pen cls d u x st b s).cellSamples = s.cellSamples := by
  obtain ⟨g, n, h⟩ := logErrorP_eq s pen cls d u x st b; simp only [h]
@[simp] theorem logErrorP_sec (pen cls d u : Nat) (x : Option Nat) (st : Nat) (b : Bytes) : (logErrorP pen cls d u x st b s).sec = s.sec := by
  obtain ⟨g, n, h⟩ := logErrorP_eq s pen cls d u x st b; simp only [h]
@[simp] theorem logErrorP_plate (pen cls d u : Nat) (x : Option Nat) (st : Nat) (b : Bytes) : (logErrorP pen cls d u x st b s).plate = s.plate := by
  obtain ⟨g, n, h⟩ := logErrorP_eq s pen cls d u x st b; simp only [h]
@[simp] theorem logErrorP_boot (pen cls d u : Nat) (x : Option Nat) (st : Nat) (b : Bytes) : (logErrorP pen cls d u x st b s).boot = s.boot := by
  obtain ⟨g, n, h⟩ := logErrorP_eq s pen cls d u x st b; simp only [h]
@[simp] theorem logErrorP_dies (pen cls d u : Nat) (x : Option Nat) (st : Nat) (b : Bytes) : (logErrorP pen cls d u x st b s).dies = s.dies := by
  obtain ⟨g, n, h⟩ := logErrorP_eq s pen cls d u x st b; simp only [h]
@[simp] theorem logErrorP_pwr (pen cls d u : Nat) (x : Option Nat) (st : Nat) (b : Bytes) : (logErrorP pen cls d u x st b s).pwr = s.pwr := by
  obtain ⟨g, n, h⟩ := logErrorP_eq s pen cls d u x st b; simp only [h]
@[simp] theorem logErrorP_sent (pen cls d u : Nat) (x : Option Nat) (st : Nat) (b : Bytes) : (logErrorP pen cls d u x st b s).sent = s.sent := by
  obtain ⟨g, n, h⟩ := logErrorP_eq s pen cls d u x st b; simp only [h]
@[simp] theorem logErrorP_ctx (pen cls d u : Nat) (x : Option Nat) (st : Nat) (b : Bytes) (j : Nat) : (logErrorP pen cls d u x st b s).ctx j = s.ctx j := by
  obtain ⟨g, n, h⟩ := logErrorP_eq s pen cls d u x st b; simp only [h, State.ctx]
@[simp] theorem logErrorP_queue (pen cls d u : Nat) (x : Option Nat) (st : Nat) (b : Bytes) (j : Nat) : (logErrorP pen cls d u x st b s).queue j = s.queue j := by
  obtain ⟨g, n, h⟩ := logErrorP_eq s pen cls d u x st b; simp only [h, State.queue]
@[simp] theorem logErrorP_cell (pen cls d u : Nat) (x : Option Nat) (st : Nat) (b : Bytes) (j : Nat) : (logErrorP pen cls d u x st b s).cell j = s.cell j := by
  obtain ⟨g, n, h⟩ := logErrorP_eq s pen cls d u x st b; simp only [h, State.cell]
@[simp] theorem logErrorP_holder (pen cls d u : Nat) (x : Option Nat) (st : Nat) (b : Bytes) (j : Nat) : (logErrorP pen cls d u x st b s).holder j = s.holder j := by
  obtain ⟨g, n, h⟩ := logErrorP_eq s pen cls d u x st b; simp only [h, State.holder]
@[simp] theorem logErrorP_link (pen cls d u : Nat) (x : Option Nat) (st : Nat) (b : Bytes) (j : Nat) : (logErrorP pen cls d u x st b s).link j = s.link j := by
  obtain ⟨g, n, h⟩ := logErrorP_eq s pen cls d u x st b; simp only [h, State.link]
@[simp] theorem logErrorP_port (pen cls d u : Nat) (x : Option Nat) (st : Nat) (b : Bytes) (j : Nat) : (logErrorP pen cls d u x st b s).port j = s.port j := by
  obtain ⟨g, n, h⟩ := logErrorP_eq s pen cls d u x st b; simp only [h, State.port]
@[simp] theorem logErrorP_peer (pen cls d u : Nat) (x : Option Nat) (st : Nat) (b : Bytes) (j : Nat) : (logErrorP pen cls d u x st b s).peer j = s.peer j := by
  obtain ⟨g, n, h⟩ := logErrorP_eq s pen cls d u x st b; simp only [h, State.peer]
@[simp] theorem logErrorP_seq (pen cls d u : Nat) (x : Option Nat) (st : Nat) (b : Bytes) (j : Nat) : (logErrorP pen cls d u x st b s).seq j = s.seq j := by
  obtain ⟨g, n, h⟩ := logErrorP_eq s pen cls d u x st b; simp only [h, State.seq]
@[simp] theorem logErrorP_die (pen cls d u : Nat) (x : Option Nat) (st : Nat) (b : Bytes) (j : Nat) : (logErrorP pen cls d u x st b s).die j = s.die j := by
  obtain ⟨g, n, h⟩ := logErrorP_eq s pen cls d u x st b; simp only [h, State.die]
@[simp] theorem logErrorP_sl (pen cls d u : Nat) (x : Option Nat) (st : Nat) (b : Bytes) (j : Nat) : (logErrorP pen cls d u x st b s).sl j = s.sl j := by
  obtain ⟨g, n, h⟩ := logErrorP_eq s pen cls d u x st b; simp only [h, State.sl, State.ctx]

/-! ### After logError -/
@[simp] theorem logError_pending (cls d u : Nat) (x : Option Nat) (st : Nat) (b : Bytes) : (logError cls d u x st b s).pending = s.pending := by
  simp [logError]
@[simp] theorem logError_clk (cls d u : Nat) (x : Option Nat) (st : Nat) (b : Bytes) : (logError cls d u x st b s).clk = s.clk := by
  simp [logError]
@[simp] theorem logError_mem (cls d u : Nat) (x : Option Nat) (st : Nat) (b : Bytes) : (logError cls d u x st b s).mem = s.mem := by
  simp [logError]
@[simp] theorem logError_poison (cls d u : Nat) (x : Option Nat) (st : Nat) (b : Bytes) : (logError cls d u x st b s).poison = s.poison := by
  simp [logError]
@[simp] theorem logError_flash (cls d u : Nat) (x : Option Nat) (st : Nat) (b : Bytes) : (logError cls d u x st b s).flash = s.flash := by
  simp [logError]
@[simp] theorem logError_ctxs (cls d u : Nat) (x : Option Nat) (st : Nat) (b : Bytes) : (logError cls d u x st b s).ctxs = s.ctxs := by
  simp [logError]
@[simp] theorem logError_seqs (cls d u : Nat) (x : Option Nat) (st : Nat) (b : Bytes) : (logError cls d u x st b s).seqs = s.seqs := by
  simp [logError]
@[simp] theorem logError_queues (cls d u : Nat) (x : Option Nat) (st : Nat) (b : Bytes) : (logError cls d u x st b s).queues = s.queues := by
  simp [logError]
@[simp] theorem logError_cells (cls d u : Nat) (x : Option Nat) (st : Nat) (b : Bytes) : (logError cls d u x st b s).cells = s.cells := by
  simp [logError]
@[simp] theorem logError_holders (cls d u : Nat) (x : Option Nat) (st : Nat) (b : Bytes) : (logError cls d u x st b s).holders = s.holders := by
  simp [logError]
@[simp] theorem logError_links (cls d u : Nat) (x : Option Nat) (st : Nat) (b : Bytes) : (logError cls d u x st b s).links = s.links := by
  simp [logError]
@[simp] theorem logError_ports (cls d u : Nat) (x : Option Nat) (st : Nat) (b : Bytes) : (logError cls d u x st b s).ports = s.ports := by
  simp [logError]
@[simp] theorem logError_peers (cls d u : Nat) (x : Option Nat) (st : Nat) (b : Bytes) : (logError cls d u x st b s).peers = s.peers := by
  simp [logError]
@[simp] theorem logError_snd (cls d u : Nat) (x : Option Nat) (st : Nat) (b : Bytes) : (logError cls d u x st b s).snd = s.snd := by
  simp [logError]
@[simp] theorem logError_rcv (cls d u : Nat) (x : Option Nat) (st : Nat) (b : Bytes) : (logError cls d u x st b s).rcv = s.rcv := by
  simp [logError]
@[simp] theorem logError_colls (cls d u : Nat) (x : Option Nat) (st : Nat) (b : Bytes) : (logError cls d u x st b s).colls = s.colls := by
  simp [logError]
@[simp] theorem logError_red (cls d u : Nat) (x : Option Nat) (st : Nat) (b : Bytes) : (logError cls d u x st b s).red = s.red := by
  simp [logError]
@[simp] theorem logError_routes (cls d u : Nat) (x : Option Nat) (st : Nat) (b : Bytes) : (logError cls d u x st b s).routes = s.routes := by
  simp [logError]
@[simp] theorem logError_rxq (cls d u : Nat) (x : Option Nat) (st : Nat) (b : Bytes) : (logError cls d u x st b s).rxq = s.rxq := by
  simp [logError]
@[simp] theorem logError_ended (cls d u : Nat) (x : Option Nat) (st : Nat) (b : Bytes) : (logError cls d u x st b s).ended = s.ended := by
  simp [logError]
@[simp] theorem logError_fabDown (cls d u : Nat) (x : Option Nat) (st : Nat) (b : Bytes) : (logError cls d u x st b s).fabDown = s.fabDown := by
  simp [logError]
@[simp] theorem logError_fabRoutes (cls d u : Nat) (x : Option Nat) (st : Nat) (b : Bytes) : (logError cls d u x st b s).fabRoutes = s.fabRoutes := by
  simp [logError]
@[simp] theorem logError_cellSamples (cls d u : Nat) (x : Option Nat) (st : Nat) (b : Bytes) : (logError cls d u x st b s).cellSamples = s.cellSamples := by
  simp [logError]
@[simp] theorem logError_sec (cls d u : Nat) (x : Option Nat) (st : Nat) (b : Bytes) : (logError cls d u x st b s).sec = s.sec := by
  simp [logError]
@[simp] theorem logError_plate (cls d u : Nat) (x : Option Nat) (st : Nat) (b : Bytes) : (logError cls d u x st b s).plate = s.plate := by
  simp [logError]
@[simp] theorem logError_boot (cls d u : Nat) (x : Option Nat) (st : Nat) (b : Bytes) : (logError cls d u x st b s).boot = s.boot := by
  simp [logError]
@[simp] theorem logError_dies (cls d u : Nat) (x : Option Nat) (st : Nat) (b : Bytes) : (logError cls d u x st b s).dies = s.dies := by
  simp [logError]
@[simp] theorem logError_pwr (cls d u : Nat) (x : Option Nat) (st : Nat) (b : Bytes) : (logError cls d u x st b s).pwr = s.pwr := by
  simp [logError]
@[simp] theorem logError_sent (cls d u : Nat) (x : Option Nat) (st : Nat) (b : Bytes) : (logError cls d u x st b s).sent = s.sent := by
  simp [logError]
@[simp] theorem logError_ctx (cls d u : Nat) (x : Option Nat) (st : Nat) (b : Bytes) (j : Nat) : (logError cls d u x st b s).ctx j = s.ctx j := by
  simp [logError]
@[simp] theorem logError_queue (cls d u : Nat) (x : Option Nat) (st : Nat) (b : Bytes) (j : Nat) : (logError cls d u x st b s).queue j = s.queue j := by
  simp [logError]
@[simp] theorem logError_cell (cls d u : Nat) (x : Option Nat) (st : Nat) (b : Bytes) (j : Nat) : (logError cls d u x st b s).cell j = s.cell j := by
  simp [logError]
@[simp] theorem logError_holder (cls d u : Nat) (x : Option Nat) (st : Nat) (b : Bytes) (j : Nat) : (logError cls d u x st b s).holder j = s.holder j := by
  simp [logError]
@[simp] theorem logError_link (cls d u : Nat) (x : Option Nat) (st : Nat) (b : Bytes) (j : Nat) : (logError cls d u x st b s).link j = s.link j := by
  simp [logError]
@[simp] theorem logError_port (cls d u : Nat) (x : Option Nat) (st : Nat) (b : Bytes) (j : Nat) : (logError cls d u x st b s).port j = s.port j := by
  simp [logError]
@[simp] theorem logError_peer (cls d u : Nat) (x : Option Nat) (st : Nat) (b : Bytes) (j : Nat) : (logError cls d u x st b s).peer j = s.peer j := by
  simp [logError]
@[simp] theorem logError_seq (cls d u : Nat) (x : Option Nat) (st : Nat) (b : Bytes) (j : Nat) : (logError cls d u x st b s).seq j = s.seq j := by
  simp [logError]
@[simp] theorem logError_die (cls d u : Nat) (x : Option Nat) (st : Nat) (b : Bytes) (j : Nat) : (logError cls d u x st b s).die j = s.die j := by
  simp [logError]
@[simp] theorem logError_sl (cls d u : Nat) (x : Option Nat) (st : Nat) (b : Bytes) (j : Nat) : (logError cls d u x st b s).sl j = s.sl j := by
  simp [logError]

/-! ### After logInternal -/
@[simp] theorem logInternal_pending (d : Nat) (x : Option Nat) (st : Nat) : (logInternal d x st s).pending = s.pending := by
  simp [logInternal]
@[simp] theorem logInternal_clk (d : Nat) (x : Option Nat) (st : Nat) : (logInternal d x st s).clk = s.clk := by
  simp [logInternal]
@[simp] theorem logInternal_mem (d : Nat) (x : Option Nat) (st : Nat) : (logInternal d x st s).mem = s.mem := by
  simp [logInternal]
@[simp] theorem logInternal_poison (d : Nat) (x : Option Nat) (st : Nat) : (logInternal d x st s).poison = s.poison := by
  simp [logInternal]
@[simp] theorem logInternal_flash (d : Nat) (x : Option Nat) (st : Nat) : (logInternal d x st s).flash = s.flash := by
  simp [logInternal]
@[simp] theorem logInternal_ctxs (d : Nat) (x : Option Nat) (st : Nat) : (logInternal d x st s).ctxs = s.ctxs := by
  simp [logInternal]
@[simp] theorem logInternal_seqs (d : Nat) (x : Option Nat) (st : Nat) : (logInternal d x st s).seqs = s.seqs := by
  simp [logInternal]
@[simp] theorem logInternal_queues (d : Nat) (x : Option Nat) (st : Nat) : (logInternal d x st s).queues = s.queues := by
  simp [logInternal]
@[simp] theorem logInternal_cells (d : Nat) (x : Option Nat) (st : Nat) : (logInternal d x st s).cells = s.cells := by
  simp [logInternal]
@[simp] theorem logInternal_holders (d : Nat) (x : Option Nat) (st : Nat) : (logInternal d x st s).holders = s.holders := by
  simp [logInternal]
@[simp] theorem logInternal_links (d : Nat) (x : Option Nat) (st : Nat) : (logInternal d x st s).links = s.links := by
  simp [logInternal]
@[simp] theorem logInternal_ports (d : Nat) (x : Option Nat) (st : Nat) : (logInternal d x st s).ports = s.ports := by
  simp [logInternal]
@[simp] theorem logInternal_peers (d : Nat) (x : Option Nat) (st : Nat) : (logInternal d x st s).peers = s.peers := by
  simp [logInternal]
@[simp] theorem logInternal_snd (d : Nat) (x : Option Nat) (st : Nat) : (logInternal d x st s).snd = s.snd := by
  simp [logInternal]
@[simp] theorem logInternal_rcv (d : Nat) (x : Option Nat) (st : Nat) : (logInternal d x st s).rcv = s.rcv := by
  simp [logInternal]
@[simp] theorem logInternal_colls (d : Nat) (x : Option Nat) (st : Nat) : (logInternal d x st s).colls = s.colls := by
  simp [logInternal]
@[simp] theorem logInternal_red (d : Nat) (x : Option Nat) (st : Nat) : (logInternal d x st s).red = s.red := by
  simp [logInternal]
@[simp] theorem logInternal_routes (d : Nat) (x : Option Nat) (st : Nat) : (logInternal d x st s).routes = s.routes := by
  simp [logInternal]
@[simp] theorem logInternal_rxq (d : Nat) (x : Option Nat) (st : Nat) : (logInternal d x st s).rxq = s.rxq := by
  simp [logInternal]
@[simp] theorem logInternal_ended (d : Nat) (x : Option Nat) (st : Nat) : (logInternal d x st s).ended = s.ended := by
  simp [logInternal]
@[simp] theorem logInternal_fabDown (d : Nat) (x : Option Nat) (st : Nat) : (logInternal d x st s).fabDown = s.fabDown := by
  simp [logInternal]
@[simp] theorem logInternal_fabRoutes (d : Nat) (x : Option Nat) (st : Nat) : (logInternal d x st s).fabRoutes = s.fabRoutes := by
  simp [logInternal]
@[simp] theorem logInternal_cellSamples (d : Nat) (x : Option Nat) (st : Nat) : (logInternal d x st s).cellSamples = s.cellSamples := by
  simp [logInternal]
@[simp] theorem logInternal_sec (d : Nat) (x : Option Nat) (st : Nat) : (logInternal d x st s).sec = s.sec := by
  simp [logInternal]
@[simp] theorem logInternal_plate (d : Nat) (x : Option Nat) (st : Nat) : (logInternal d x st s).plate = s.plate := by
  simp [logInternal]
@[simp] theorem logInternal_boot (d : Nat) (x : Option Nat) (st : Nat) : (logInternal d x st s).boot = s.boot := by
  simp [logInternal]
@[simp] theorem logInternal_dies (d : Nat) (x : Option Nat) (st : Nat) : (logInternal d x st s).dies = s.dies := by
  simp [logInternal]
@[simp] theorem logInternal_pwr (d : Nat) (x : Option Nat) (st : Nat) : (logInternal d x st s).pwr = s.pwr := by
  simp [logInternal]
@[simp] theorem logInternal_sent (d : Nat) (x : Option Nat) (st : Nat) : (logInternal d x st s).sent = s.sent := by
  simp [logInternal]
@[simp] theorem logInternal_ctx (d : Nat) (x : Option Nat) (st : Nat) (j : Nat) : (logInternal d x st s).ctx j = s.ctx j := by
  simp [logInternal]
@[simp] theorem logInternal_queue (d : Nat) (x : Option Nat) (st : Nat) (j : Nat) : (logInternal d x st s).queue j = s.queue j := by
  simp [logInternal]
@[simp] theorem logInternal_cell (d : Nat) (x : Option Nat) (st : Nat) (j : Nat) : (logInternal d x st s).cell j = s.cell j := by
  simp [logInternal]
@[simp] theorem logInternal_holder (d : Nat) (x : Option Nat) (st : Nat) (j : Nat) : (logInternal d x st s).holder j = s.holder j := by
  simp [logInternal]
@[simp] theorem logInternal_link (d : Nat) (x : Option Nat) (st : Nat) (j : Nat) : (logInternal d x st s).link j = s.link j := by
  simp [logInternal]
@[simp] theorem logInternal_port (d : Nat) (x : Option Nat) (st : Nat) (j : Nat) : (logInternal d x st s).port j = s.port j := by
  simp [logInternal]
@[simp] theorem logInternal_peer (d : Nat) (x : Option Nat) (st : Nat) (j : Nat) : (logInternal d x st s).peer j = s.peer j := by
  simp [logInternal]
@[simp] theorem logInternal_seq (d : Nat) (x : Option Nat) (st : Nat) (j : Nat) : (logInternal d x st s).seq j = s.seq j := by
  simp [logInternal]
@[simp] theorem logInternal_die (d : Nat) (x : Option Nat) (st : Nat) (j : Nat) : (logInternal d x st s).die j = s.die j := by
  simp [logInternal]
@[simp] theorem logInternal_sl (d : Nat) (x : Option Nat) (st : Nat) (j : Nat) : (logInternal d x st s).sl j = s.sl j := by
  simp [logInternal]

/-! ### After logFailed -/
@[simp] theorem logFailed_pending (d : Nat) (x : Option Nat) (st : Nat) : (logFailed d x st s).pending = s.pending := by
  unfold logFailed; split <;> simp
@[simp] theorem logFailed_clk (d : Nat) (x : Option Nat) (st : Nat) : (logFailed d x st s).clk = s.clk := by
  unfold logFailed; split <;> simp
@[simp] theorem logFailed_mem (d : Nat) (x : Option Nat) (st : Nat) : (logFailed d x st s).mem = s.mem := by
  unfold logFailed; split <;> simp
@[simp] theorem logFailed_poison (d : Nat) (x : Option Nat) (st : Nat) : (logFailed d x st s).poison = s.poison := by
  unfold logFailed; split <;> simp
@[simp] theorem logFailed_flash (d : Nat) (x : Option Nat) (st : Nat) : (logFailed d x st s).flash = s.flash := by
  unfold logFailed; split <;> simp
@[simp] theorem logFailed_ctxs (d : Nat) (x : Option Nat) (st : Nat) : (logFailed d x st s).ctxs = s.ctxs := by
  unfold logFailed; split <;> simp
@[simp] theorem logFailed_seqs (d : Nat) (x : Option Nat) (st : Nat) : (logFailed d x st s).seqs = s.seqs := by
  unfold logFailed; split <;> simp
@[simp] theorem logFailed_queues (d : Nat) (x : Option Nat) (st : Nat) : (logFailed d x st s).queues = s.queues := by
  unfold logFailed; split <;> simp
@[simp] theorem logFailed_cells (d : Nat) (x : Option Nat) (st : Nat) : (logFailed d x st s).cells = s.cells := by
  unfold logFailed; split <;> simp
@[simp] theorem logFailed_holders (d : Nat) (x : Option Nat) (st : Nat) : (logFailed d x st s).holders = s.holders := by
  unfold logFailed; split <;> simp
@[simp] theorem logFailed_links (d : Nat) (x : Option Nat) (st : Nat) : (logFailed d x st s).links = s.links := by
  unfold logFailed; split <;> simp
@[simp] theorem logFailed_ports (d : Nat) (x : Option Nat) (st : Nat) : (logFailed d x st s).ports = s.ports := by
  unfold logFailed; split <;> simp
@[simp] theorem logFailed_peers (d : Nat) (x : Option Nat) (st : Nat) : (logFailed d x st s).peers = s.peers := by
  unfold logFailed; split <;> simp
@[simp] theorem logFailed_snd (d : Nat) (x : Option Nat) (st : Nat) : (logFailed d x st s).snd = s.snd := by
  unfold logFailed; split <;> simp
@[simp] theorem logFailed_rcv (d : Nat) (x : Option Nat) (st : Nat) : (logFailed d x st s).rcv = s.rcv := by
  unfold logFailed; split <;> simp
@[simp] theorem logFailed_colls (d : Nat) (x : Option Nat) (st : Nat) : (logFailed d x st s).colls = s.colls := by
  unfold logFailed; split <;> simp
@[simp] theorem logFailed_red (d : Nat) (x : Option Nat) (st : Nat) : (logFailed d x st s).red = s.red := by
  unfold logFailed; split <;> simp
@[simp] theorem logFailed_routes (d : Nat) (x : Option Nat) (st : Nat) : (logFailed d x st s).routes = s.routes := by
  unfold logFailed; split <;> simp
@[simp] theorem logFailed_rxq (d : Nat) (x : Option Nat) (st : Nat) : (logFailed d x st s).rxq = s.rxq := by
  unfold logFailed; split <;> simp
@[simp] theorem logFailed_ended (d : Nat) (x : Option Nat) (st : Nat) : (logFailed d x st s).ended = s.ended := by
  unfold logFailed; split <;> simp
@[simp] theorem logFailed_fabDown (d : Nat) (x : Option Nat) (st : Nat) : (logFailed d x st s).fabDown = s.fabDown := by
  unfold logFailed; split <;> simp
@[simp] theorem logFailed_fabRoutes (d : Nat) (x : Option Nat) (st : Nat) : (logFailed d x st s).fabRoutes = s.fabRoutes := by
  unfold logFailed; split <;> simp
@[simp] theorem logFailed_cellSamples (d : Nat) (x : Option Nat) (st : Nat) : (logFailed d x st s).cellSamples = s.cellSamples := by
  unfold logFailed; split <;> simp
@[simp] theorem logFailed_sec (d : Nat) (x : Option Nat) (st : Nat) : (logFailed d x st s).sec = s.sec := by
  unfold logFailed; split <;> simp
@[simp] theorem logFailed_plate (d : Nat) (x : Option Nat) (st : Nat) : (logFailed d x st s).plate = s.plate := by
  unfold logFailed; split <;> simp
@[simp] theorem logFailed_boot (d : Nat) (x : Option Nat) (st : Nat) : (logFailed d x st s).boot = s.boot := by
  unfold logFailed; split <;> simp
@[simp] theorem logFailed_dies (d : Nat) (x : Option Nat) (st : Nat) : (logFailed d x st s).dies = s.dies := by
  unfold logFailed; split <;> simp
@[simp] theorem logFailed_pwr (d : Nat) (x : Option Nat) (st : Nat) : (logFailed d x st s).pwr = s.pwr := by
  unfold logFailed; split <;> simp
@[simp] theorem logFailed_sent (d : Nat) (x : Option Nat) (st : Nat) : (logFailed d x st s).sent = s.sent := by
  unfold logFailed; split <;> simp
@[simp] theorem logFailed_ctx (d : Nat) (x : Option Nat) (st : Nat) (j : Nat) : (logFailed d x st s).ctx j = s.ctx j := by
  unfold logFailed; split <;> simp
@[simp] theorem logFailed_queue (d : Nat) (x : Option Nat) (st : Nat) (j : Nat) : (logFailed d x st s).queue j = s.queue j := by
  unfold logFailed; split <;> simp
@[simp] theorem logFailed_cell (d : Nat) (x : Option Nat) (st : Nat) (j : Nat) : (logFailed d x st s).cell j = s.cell j := by
  unfold logFailed; split <;> simp
@[simp] theorem logFailed_holder (d : Nat) (x : Option Nat) (st : Nat) (j : Nat) : (logFailed d x st s).holder j = s.holder j := by
  unfold logFailed; split <;> simp
@[simp] theorem logFailed_link (d : Nat) (x : Option Nat) (st : Nat) (j : Nat) : (logFailed d x st s).link j = s.link j := by
  unfold logFailed; split <;> simp
@[simp] theorem logFailed_port (d : Nat) (x : Option Nat) (st : Nat) (j : Nat) : (logFailed d x st s).port j = s.port j := by
  unfold logFailed; split <;> simp
@[simp] theorem logFailed_peer (d : Nat) (x : Option Nat) (st : Nat) (j : Nat) : (logFailed d x st s).peer j = s.peer j := by
  unfold logFailed; split <;> simp
@[simp] theorem logFailed_seq (d : Nat) (x : Option Nat) (st : Nat) (j : Nat) : (logFailed d x st s).seq j = s.seq j := by
  unfold logFailed; split <;> simp
@[simp] theorem logFailed_die (d : Nat) (x : Option Nat) (st : Nat) (j : Nat) : (logFailed d x st s).die j = s.die j := by
  unfold logFailed; split <;> simp
@[simp] theorem logFailed_sl (d : Nat) (x : Option Nat) (st : Nat) (j : Nat) : (logFailed d x st s).sl j = s.sl j := by
  unfold logFailed; split <;> simp

/-! ### After semAdd -/
@[simp] theorem semAdd_pending (x i n : Nat) : (semAdd x i n s).pending = s.pending := by
  unfold semAdd; dsimp only; split <;> (try split) <;> simp
@[simp] theorem semAdd_clk (x i n : Nat) : (semAdd x i n s).clk = s.clk := by
  unfold semAdd; dsimp only; split <;> (try split) <;> simp
@[simp] theorem semAdd_freeCtr (x i n : Nat) : (semAdd x i n s).freeCtr = s.freeCtr := by
  unfold semAdd; dsimp only; split <;> (try split) <;> simp
@[simp] theorem semAdd_mem (x i n : Nat) : (semAdd x i n s).mem = s.mem := by
  unfold semAdd; dsimp only; split <;> (try split) <;> simp
@[simp] theorem semAdd_poison (x i n : Nat) : (semAdd x i n s).poison = s.poison := by
  unfold semAdd; dsimp only; split <;> (try split) <;> simp
@[simp] theorem semAdd_flash (x i n : Nat) : (semAdd x i n s).flash = s.flash := by
  unfold semAdd; dsimp only; split <;> (try split) <;> simp
@[simp] theorem semAdd_seqs (x i n : Nat) : (semAdd x i n s).seqs = s.seqs := by
  unfold semAdd; dsimp only; split <;> (try split) <;> simp
@[simp] theorem semAdd_queues (x i n : Nat) : (semAdd x i n s).queues = s.queues := by
  unfold semAdd; dsimp only; split <;> (try split) <;> simp
@[simp] theorem semAdd_cells (x i n : Nat) : (semAdd x i n s).cells = s.cells := by
  unfold semAdd; dsimp only; split <;> (try split) <;> simp
@[simp] theorem semAdd_holders (x i n : Nat) : (semAdd x i n s).holders = s.holders := by
  unfold semAdd; dsimp only; split <;> (try split) <;> simp
@[simp] theorem semAdd_links (x i n : Nat) : (semAdd x i n s).links = s.links := by
  unfold semAdd; dsimp only; split <;> (try split) <;> simp
@[simp] theorem semAdd_ports (x i n : Nat) : (semAdd x i n s).ports = s.ports := by
  unfold semAdd; dsimp only; split <;> (try split) <;> simp
@[simp] theorem semAdd_peers (x i n : Nat) : (semAdd x i n s).peers = s.peers := by
  unfold semAdd; dsimp only; split <;> (try split) <;> simp
@[simp] theorem semAdd_snd (x i n : Nat) : (semAdd x i n s).snd = s.snd := by
  unfold semAdd; dsimp only; split <;> (try split) <;> simp
@[simp] theorem semAdd_rcv (x i n : Nat) : (semAdd x i n s).rcv = s.rcv := by
  unfold semAdd; dsimp only; split <;> (try split) <;> simp
@[simp] theorem semAdd_colls (x i n : Nat) : (semAdd x i n s).colls = s.colls := by
  unfold semAdd; dsimp only; split <;> (try split) <;> simp
@[simp] theorem semAdd_red (x i n : Nat) : (semAdd x i n s).red = s.red := by
  unfold semAdd; dsimp only; split <;> (try split) <;> simp
@[simp] theorem semAdd_routes (x i n : Nat) : (semAdd x i n s).routes = s.routes := by
  unfold semAdd; dsimp only; split <;> (try split) <;> simp
@[simp] theorem semAdd_rxq (x i n : Nat) : (semAdd x i n s).rxq = s.rxq := by
  unfold semAdd; dsimp only; split <;> (try split) <;> simp
@[simp] theorem semAdd_ended (x i n : Nat) : (semAdd x i n s).ended = s.ended := by
  unfold semAdd; dsimp only; split <;> (try split) <;> simp
@[simp] theorem semAdd_fabDown (x i n : Nat) : (semAdd x i n s).fabDown = s.fabDown := by
  unfold semAdd; dsimp only; split <;> (try split) <;> simp
@[simp] theorem semAdd_fabRoutes (x i n : Nat) : (semAdd x i n s).fabRoutes = s.fabRoutes := by
  unfold semAdd; dsimp only; split <;> (try split) <;> simp
@[simp] theorem semAdd_cellSamples (x i n : Nat) : (semAdd x i n s).cellSamples = s.cellSamples := by
  unfold semAdd; dsimp only; split <;> (try split) <;> simp
@[simp] theorem semAdd_sec (x i n : Nat) : (semAdd x i n s).sec = s.sec := by
  unfold semAdd; dsimp only; split <;> (try split) <;> simp
@[simp] theorem semAdd_plate (x i n : Nat) : (semAdd x i n s).plate = s.plate := by
  unfold semAdd; dsimp only; split <;> (try split) <;> simp
@[simp] theorem semAdd_boot (x i n : Nat) : (semAdd x i n s).boot = s.boot := by
  unfold semAdd; dsimp only; split <;> (try split) <;> simp
@[simp] theorem semAdd_dies (x i n : Nat) : (semAdd x i n s).dies = s.dies := by
  unfold semAdd; dsimp only; split <;> (try split) <;> simp
@[simp] theorem semAdd_pwr (x i n : Nat) : (semAdd x i n s).pwr = s.pwr := by
  unfold semAdd; dsimp only; split <;> (try split) <;> simp
@[simp] theorem semAdd_sent (x i n : Nat) : (semAdd x i n s).sent = s.sent := by
  unfold semAdd; dsimp only; split <;> (try split) <;> simp
@[simp] theorem semAdd_queue (x i n : Nat) (j : Nat) : (semAdd x i n s).queue j = s.queue j := by
  unfold semAdd; dsimp only; split <;> (try split) <;> simp
@[simp] theorem semAdd_cell (x i n : Nat) (j : Nat) : (semAdd x i n s).cell j = s.cell j := by
  unfold semAdd; dsimp only; split <;> (try split) <;> simp
@[simp] theorem semAdd_holder (x i n : Nat) (j : Nat) : (semAdd x i n s).holder j = s.holder j := by
  unfold semAdd; dsimp only; split <;> (try split) <;> simp
@[simp] theorem semAdd_link (x i n : Nat) (j : Nat) : (semAdd x i n s).link j = s.link j := by
  unfold semAdd; dsimp only; split <;> (try split) <;> simp
@[simp] theorem semAdd_port (x i n : Nat) (j : Nat) : (semAdd x i n s).port j = s.port j := by
  unfold semAdd; dsimp only; split <;> (try split) <;> simp
@[simp] theorem semAdd_peer (x i n : Nat) (j : Nat) : (semAdd x i n s).peer j = s.peer j := by
  unfold semAdd; dsimp only; split <;> (try split) <;> simp
@[simp] theorem semAdd_seq (x i n : Nat) (j : Nat) : (semAdd x i n s).seq j = s.seq j := by
  unfold semAdd; dsimp only; split <;> (try split) <;> simp
@[simp] theorem semAdd_die (x i n : Nat) (j : Nat) : (semAdd x i n s).die j = s.die j := by
  unfold semAdd; dsimp only; split <;> (try split) <;> simp

/-! ### After semTake -/
@[simp] theorem semTake_pending (x i : Nat) : (semTake x i s).pending = s.pending := by
  unfold semTake; split <;> simp
@[simp] theorem semTake_clk (x i : Nat) : (semTake x i s).clk = s.clk := by
  unfold semTake; split <;> simp
@[simp] theorem semTake_freeCtr (x i : Nat) : (semTake x i s).freeCtr = s.freeCtr := by
  unfold semTake; split <;> simp
@[simp] theorem semTake_mem (x i : Nat) : (semTake x i s).mem = s.mem := by
  unfold semTake; split <;> simp
@[simp] theorem semTake_poison (x i : Nat) : (semTake x i s).poison = s.poison := by
  unfold semTake; split <;> simp
@[simp] theorem semTake_flash (x i : Nat) : (semTake x i s).flash = s.flash := by
  unfold semTake; split <;> simp
@[simp] theorem semTake_seqs (x i : Nat) : (semTake x i s).seqs = s.seqs := by
  unfold semTake; split <;> simp
@[simp] theorem semTake_queues (x i : Nat) : (semTake x i s).queues = s.queues := by
  unfold semTake; split <;> simp
@[simp] theorem semTake_cells (x i : Nat) : (semTake x i s).cells = s.cells := by
  unfold semTake; split <;> simp
@[simp] theorem semTake_holders (x i : Nat) : (semTake x i s).holders = s.holders := by
  unfold semTake; split <;> simp
@[simp] theorem semTake_links (x i : Nat) : (semTake x i s).links = s.links := by
  unfold semTake; split <;> simp
@[simp] theorem semTake_ports (x i : Nat) : (semTake x i s).ports = s.ports := by
  unfold semTake; split <;> simp
@[simp] theorem semTake_peers (x i : Nat) : (semTake x i s).peers = s.peers := by
  unfold semTake; split <;> simp
@[simp] theorem semTake_snd (x i : Nat) : (semTake x i s).snd = s.snd := by
  unfold semTake; split <;> simp
@[simp] theorem semTake_rcv (x i : Nat) : (semTake x i s).rcv = s.rcv := by
  unfold semTake; split <;> simp
@[simp] theorem semTake_colls (x i : Nat) : (semTake x i s).colls = s.colls := by
  unfold semTake; split <;> simp
@[simp] theorem semTake_red (x i : Nat) : (semTake x i s).red = s.red := by
  unfold semTake; split <;> simp
@[simp] theorem semTake_routes (x i : Nat) : (semTake x i s).routes = s.routes := by
  unfold semTake; split <;> simp
@[simp] theorem semTake_rxq (x i : Nat) : (semTake x i s).rxq = s.rxq := by
  unfold semTake; split <;> simp
@[simp] theorem semTake_ended (x i : Nat) : (semTake x i s).ended = s.ended := by
  unfold semTake; split <;> simp
@[simp] theorem semTake_fabDown (x i : Nat) : (semTake x i s).fabDown = s.fabDown := by
  unfold semTake; split <;> simp
@[simp] theorem semTake_fabRoutes (x i : Nat) : (semTake x i s).fabRoutes = s.fabRoutes := by
  unfold semTake; split <;> simp
@[simp] theorem semTake_cellSamples (x i : Nat) : (semTake x i s).cellSamples = s.cellSamples := by
  unfold semTake; split <;> simp
@[simp] theorem semTake_hub (x i : Nat) : (semTake x i s).hub = s.hub := by
  unfold semTake; split <;> simp
@[simp] theorem semTake_sec (x i : Nat) : (semTake x i s).sec = s.sec := by
  unfold semTake; split <;> simp
@[simp] theorem semTake_plate (x i : Nat) : (semTake x i s).plate = s.plate := by
  unfold semTake; split <;> simp
@[simp] theorem semTake_boot (x i : Nat) : (semTake x i s).boot = s.boot := by
  unfold semTake; split <;> simp
@[simp] theorem semTake_dies (x i : Nat) : (semTake x i s).dies = s.dies := by
  unfold semTake; split <;> simp
@[simp] theorem semTake_pwr (x i : Nat) : (semTake x i s).pwr = s.pwr := by
  unfold semTake; split <;> simp
@[simp] theorem semTake_sent (x i : Nat) : (semTake x i s).sent = s.sent := by
  unfold semTake; split <;> simp
@[simp] theorem semTake_queue (x i : Nat) (j : Nat) : (semTake x i s).queue j = s.queue j := by
  unfold semTake; split <;> simp
@[simp] theorem semTake_cell (x i : Nat) (j : Nat) : (semTake x i s).cell j = s.cell j := by
  unfold semTake; split <;> simp
@[simp] theorem semTake_holder (x i : Nat) (j : Nat) : (semTake x i s).holder j = s.holder j := by
  unfold semTake; split <;> simp
@[simp] theorem semTake_link (x i : Nat) (j : Nat) : (semTake x i s).link j = s.link j := by
  unfold semTake; split <;> simp
@[simp] theorem semTake_port (x i : Nat) (j : Nat) : (semTake x i s).port j = s.port j := by
  unfold semTake; split <;> simp
@[simp] theorem semTake_peer (x i : Nat) (j : Nat) : (semTake x i s).peer j = s.peer j := by
  unfold semTake; split <;> simp
@[simp] theorem semTake_seq (x i : Nat) (j : Nat) : (semTake x i s).seq j = s.seq j := by
  unfold semTake; split <;> simp
@[simp] theorem semTake_die (x i : Nat) (j : Nat) : (semTake x i s).die j = s.die j := by
  unfold semTake; split <;> simp
@[simp] theorem semTake_mbox (x i : Nat) (j : Nat) : (semTake x i s).mbox j = s.mbox j := by
  unfold semTake; split <;> simp

/-! ### After modCmd -/
@[simp] theorem modCmd_pending (q k : Nat) (f : Cmd → Cmd) : (modCmd s q k f).pending = s.pending := by
  simp [modCmd]
@[simp] theorem modCmd_clk (q k : Nat) (f : Cmd → Cmd) : (modCmd s q k f).clk = s.clk := by
  simp [modCmd]
@[simp] theorem modCmd_freeCtr (q k : Nat) (f : Cmd → Cmd) : (modCmd s q k f).freeCtr = s.freeCtr := by
  simp [modCmd]
@[simp] theorem modCmd_mem (q k : Nat) (f : Cmd → Cmd) : (modCmd s q k f).mem = s.mem := by
  simp [modCmd]
@[simp] theorem modCmd_poison (q k : Nat) (f : Cmd → Cmd) : (modCmd s q k f).poison = s.poison := by
  simp [modCmd]
@[simp] theorem modCmd_flash (q k : Nat) (f : Cmd → Cmd) : (modCmd s q k f).flash = s.flash := by
  simp [modCmd]
@[simp] theorem modCmd_ctxs (q k : Nat) (f : Cmd → Cmd) : (modCmd s q k f).ctxs = s.ctxs := by
  simp [modCmd]
@[simp] theorem modCmd_seqs (q k : Nat) (f : Cmd → Cmd) : (modCmd s q k f).seqs = s.seqs := by
  simp [modCmd]
@[simp] theorem modCmd_cells (q k : Nat) (f : Cmd → Cmd) : (modCmd s q k f).cells = s.cells := by
  simp [modCmd]
@[simp] theorem modCmd_holders (q k : Nat) (f : Cmd → Cmd) : (modCmd s q k f).holders = s.holders := by
  simp [modCmd]
@[simp] theorem modCmd_links (q k : Nat) (f : Cmd → Cmd) : (modCmd s q k f).links = s.links := by
  simp [modCmd]
@[simp] theorem modCmd_ports (q k : Nat) (f : Cmd → Cmd) : (modCmd s q k f).ports = s.ports := by
  simp [modCmd]
@[simp] theorem modCmd_peers (q k : Nat) (f : Cmd → Cmd) : (modCmd s q k f).peers = s.peers := by
  simp [modCmd]
@[simp] theorem modCmd_snd (q k : Nat) (f : Cmd → Cmd) : (modCmd s q k f).snd = s.snd := by
  simp [modCmd]
@[simp] theorem modCmd_rcv (q k : Nat) (f : Cmd → Cmd) : (modCmd s q k f).rcv = s.rcv := by
  simp [modCmd]
@[simp] theorem modCmd_colls (q k : Nat) (f : Cmd → Cmd) : (modCmd s q k f).colls = s.colls := by
  simp [modCmd]
@[simp] theorem modCmd_red (q k : Nat) (f : Cmd → Cmd) : (modCmd s q k f).red = s.red := by
  simp [modCmd]
@[simp] theorem modCmd_routes (q k : Nat) (f : Cmd → Cmd) : (modCmd s q k f).routes = s.routes := by
  simp [modCmd]
@[simp] theorem modCmd_rxq (q k : Nat) (f : Cmd → Cmd) : (modCmd s q k f).rxq = s.rxq := by
  simp [modCmd]
@[simp] theorem modCmd_ended (q k : Nat) (f : Cmd → Cmd) : (modCmd s q k f).ended = s.ended := by
  simp [modCmd]
@[simp] theorem modCmd_fabDown (q k : Nat) (f : Cmd → Cmd) : (modCmd s q k f).fabDown = s.fabDown := by
  simp [modCmd]
@[simp] theorem modCmd_fabRoutes (q k : Nat) (f : Cmd → Cmd) : (modCmd s q k f).fabRoutes = s.fabRoutes := by
  simp [modCmd]
@[simp] theorem modCmd_cellSamples (q k : Nat) (f : Cmd → Cmd) : (modCmd s q k f).cellSamples = s.cellSamples := by
  simp [modCmd]
@[simp] theorem modCmd_hub (q k : Nat) (f : Cmd → Cmd) : (modCmd s q k f).hub = s.hub := by
  simp [modCmd]
@[simp] theorem modCmd_sec (q k : Nat) (f : Cmd → Cmd) : (modCmd s q k f).sec = s.sec := by
  simp [modCmd]
@[simp] theorem modCmd_plate (q k : Nat) (f : Cmd → Cmd) : (modCmd s q k f).plate = s.plate := by
  simp [modCmd]
@[simp] theorem modCmd_boot (q k : Nat) (f : Cmd → Cmd) : (modCmd s q k f).boot = s.boot := by
  simp [modCmd]
@[simp] theorem modCmd_dies (q k : Nat) (f : Cmd → Cmd) : (modCmd s q k f).dies = s.dies := by
  simp [modCmd]
@[simp] theorem modCmd_pwr (q k : Nat) (f : Cmd → Cmd) : (modCmd s q k f).pwr = s.pwr := by
  simp [modCmd]
@[simp] theorem modCmd_sent (q k : Nat) (f : Cmd → Cmd) : (modCmd s q k f).sent = s.sent := by
  simp [modCmd]
@[simp] theorem modCmd_ctx (q k : Nat) (f : Cmd → Cmd) (j : Nat) : (modCmd s q k f).ctx j = s.ctx j := by
  simp [modCmd]
@[simp] theorem modCmd_cell (q k : Nat) (f : Cmd → Cmd) (j : Nat) : (modCmd s q k f).cell j = s.cell j := by
  simp [modCmd]
@[simp] theorem modCmd_holder (q k : Nat) (f : Cmd → Cmd) (j : Nat) : (modCmd s q k f).holder j = s.holder j := by
  simp [modCmd]
@[simp] theorem modCmd_link (q k : Nat) (f : Cmd → Cmd) (j : Nat) : (modCmd s q k f).link j = s.link j := by
  simp [modCmd]
@[simp] theorem modCmd_port (q k : Nat) (f : Cmd → Cmd) (j : Nat) : (modCmd s q k f).port j = s.port j := by
  simp [modCmd]
@[simp] theorem modCmd_peer (q k : Nat) (f : Cmd → Cmd) (j : Nat) : (modCmd s q k f).peer j = s.peer j := by
  simp [modCmd]
@[simp] theorem modCmd_seq (q k : Nat) (f : Cmd → Cmd) (j : Nat) : (modCmd s q k f).seq j = s.seq j := by
  simp [modCmd]
@[simp] theorem modCmd_die (q k : Nat) (f : Cmd → Cmd) (j : Nat) : (modCmd s q k f).die j = s.die j := by
  simp [modCmd]
@[simp] theorem modCmd_mbox (q k : Nat) (f : Cmd → Cmd) (j : Nat) : (modCmd s q k f).mbox j = s.mbox j := by
  simp [modCmd]
@[simp] theorem modCmd_sl (q k : Nat) (f : Cmd → Cmd) (j : Nat) : (modCmd s q k f).sl j = s.sl j := by
  simp [modCmd]

/-! ### After beginCmd -/
@[simp] theorem beginCmd_pending (q : Nat) (b : Bytes) : (beginCmd q b s).pending = s.pending := by
  simp [beginCmd]
@[simp] theorem beginCmd_clk (q : Nat) (b : Bytes) : (beginCmd q b s).clk = s.clk := by
  simp [beginCmd]
@[simp] theorem beginCmd_freeCtr (q : Nat) (b : Bytes) : (beginCmd q b s).freeCtr = s.freeCtr := by
  simp [beginCmd]
@[simp] theorem beginCmd_mem (q : Nat) (b : Bytes) : (beginCmd q b s).mem = s.mem := by
  simp [beginCmd]
@[simp] theorem beginCmd_poison (q : Nat) (b : Bytes) : (beginCmd q b s).poison = s.poison := by
  simp [beginCmd]
@[simp] theorem beginCmd_flash (q : Nat) (b : Bytes) : (beginCmd q b s).flash = s.flash := by
  simp [beginCmd]
@[simp] theorem beginCmd_seqs (q : Nat) (b : Bytes) : (beginCmd q b s).seqs = s.seqs := by
  simp [beginCmd]
@[simp] theorem beginCmd_cells (q : Nat) (b : Bytes) : (beginCmd q b s).cells = s.cells := by
  simp [beginCmd]
@[simp] theorem beginCmd_holders (q : Nat) (b : Bytes) : (beginCmd q b s).holders = s.holders := by
  simp [beginCmd]
@[simp] theorem beginCmd_links (q : Nat) (b : Bytes) : (beginCmd q b s).links = s.links := by
  simp [beginCmd]
@[simp] theorem beginCmd_ports (q : Nat) (b : Bytes) : (beginCmd q b s).ports = s.ports := by
  simp [beginCmd]
@[simp] theorem beginCmd_peers (q : Nat) (b : Bytes) : (beginCmd q b s).peers = s.peers := by
  simp [beginCmd]
@[simp] theorem beginCmd_snd (q : Nat) (b : Bytes) : (beginCmd q b s).snd = s.snd := by
  simp [beginCmd]
@[simp] theorem beginCmd_rcv (q : Nat) (b : Bytes) : (beginCmd q b s).rcv = s.rcv := by
  simp [beginCmd]
@[simp] theorem beginCmd_colls (q : Nat) (b : Bytes) : (beginCmd q b s).colls = s.colls := by
  simp [beginCmd]
@[simp] theorem beginCmd_red (q : Nat) (b : Bytes) : (beginCmd q b s).red = s.red := by
  simp [beginCmd]
@[simp] theorem beginCmd_routes (q : Nat) (b : Bytes) : (beginCmd q b s).routes = s.routes := by
  simp [beginCmd]
@[simp] theorem beginCmd_rxq (q : Nat) (b : Bytes) : (beginCmd q b s).rxq = s.rxq := by
  simp [beginCmd]
@[simp] theorem beginCmd_ended (q : Nat) (b : Bytes) : (beginCmd q b s).ended = s.ended := by
  simp [beginCmd]
@[simp] theorem beginCmd_fabDown (q : Nat) (b : Bytes) : (beginCmd q b s).fabDown = s.fabDown := by
  simp [beginCmd]
@[simp] theorem beginCmd_fabRoutes (q : Nat) (b : Bytes) : (beginCmd q b s).fabRoutes = s.fabRoutes := by
  simp [beginCmd]
@[simp] theorem beginCmd_cellSamples (q : Nat) (b : Bytes) : (beginCmd q b s).cellSamples = s.cellSamples := by
  simp [beginCmd]
@[simp] theorem beginCmd_sec (q : Nat) (b : Bytes) : (beginCmd q b s).sec = s.sec := by
  simp [beginCmd]
@[simp] theorem beginCmd_plate (q : Nat) (b : Bytes) : (beginCmd q b s).plate = s.plate := by
  simp [beginCmd]
@[simp] theorem beginCmd_boot (q : Nat) (b : Bytes) : (beginCmd q b s).boot = s.boot := by
  simp [beginCmd]
@[simp] theorem beginCmd_dies (q : Nat) (b : Bytes) : (beginCmd q b s).dies = s.dies := by
  simp [beginCmd]
@[simp] theorem beginCmd_pwr (q : Nat) (b : Bytes) : (beginCmd q b s).pwr = s.pwr := by
  simp [beginCmd]
@[simp] theorem beginCmd_sent (q : Nat) (b : Bytes) : (beginCmd q b s).sent = s.sent := by
  simp [beginCmd]
@[simp] theorem beginCmd_cell (q : Nat) (b : Bytes) (j : Nat) : (beginCmd q b s).cell j = s.cell j := by
  simp [beginCmd]
@[simp] theorem beginCmd_holder (q : Nat) (b : Bytes) (j : Nat) : (beginCmd q b s).holder j = s.holder j := by
  simp [beginCmd]
@[simp] theorem beginCmd_link (q : Nat) (b : Bytes) (j : Nat) : (beginCmd q b s).link j = s.link j := by
  simp [beginCmd]
@[simp] theorem beginCmd_port (q : Nat) (b : Bytes) (j : Nat) : (beginCmd q b s).port j = s.port j := by
  simp [beginCmd]
@[simp] theorem beginCmd_peer (q : Nat) (b : Bytes) (j : Nat) : (beginCmd q b s).peer j = s.peer j := by
  simp [beginCmd]
@[simp] theorem beginCmd_seq (q : Nat) (b : Bytes) (j : Nat) : (beginCmd q b s).seq j = s.seq j := by
  simp [beginCmd]
@[simp] theorem beginCmd_die (q : Nat) (b : Bytes) (j : Nat) : (beginCmd q b s).die j = s.die j := by
  simp [beginCmd]

/-! ### After ctxStart -/
@[simp] theorem ctxStart_pending (x : Nat) : (ctxStart x s).pending = s.pending := by
  simp [ctxStart]
@[simp] theorem ctxStart_clk (x : Nat) : (ctxStart x s).clk = s.clk := by
  simp [ctxStart]
@[simp] theorem ctxStart_freeCtr (x : Nat) : (ctxStart x s).freeCtr = s.freeCtr := by
  simp [ctxStart]
@[simp] theorem ctxStart_mem (x : Nat) : (ctxStart x s).mem = s.mem := by
  simp [ctxStart]
@[simp] theorem ctxStart_poison (x : Nat) : (ctxStart x s).poison = s.poison := by
  simp [ctxStart]
@[simp] theorem ctxStart_flash (x : Nat) : (ctxStart x s).flash = s.flash := by
  simp [ctxStart]
@[simp] theorem ctxStart_seqs (x : Nat) : (ctxStart x s).seqs = s.seqs := by
  simp [ctxStart]
@[simp] theorem ctxStart_queues (x : Nat) : (ctxStart x s).queues = s.queues := by
  simp [ctxStart]
@[simp] theorem ctxStart_cells (x : Nat) : (ctxStart x s).cells = s.cells := by
  simp [ctxStart]
@[simp] theorem ctxStart_holders (x : Nat) : (ctxStart x s).holders = s.holders := by
  simp [ctxStart]
@[simp] theorem ctxStart_links (x : Nat) : (ctxStart x s).links = s.links := by
  simp [ctxStart]
@[simp] theorem ctxStart_ports (x : Nat) : (ctxStart x s).ports = s.ports := by
  simp [ctxStart]
@[simp] theorem ctxStart_peers (x : Nat) : (ctxStart x s).peers = s.peers := by
  simp [ctxStart]
@[simp] theorem ctxStart_snd (x : Nat) : (ctxStart x s).snd = s.snd := by
  simp [ctxStart]
@[simp] theorem ctxStart_rcv (x : Nat) : (ctxStart x s).rcv = s.rcv := by
  simp [ctxStart]
@[simp] theorem ctxStart_colls (x : Nat) : (ctxStart x s).colls = s.colls := by
  simp [ctxStart]
@[simp] theorem ctxStart_red (x : Nat) : (ctxStart x s).red = s.red := by
  simp [ctxStart]
@[simp] theorem ctxStart_routes (x : Nat) : (ctxStart x s).routes = s.routes := by
  simp [ctxStart]
@[simp] theorem ctxStart_rxq (x : Nat) : (ctxStart x s).rxq = s.rxq := by
  simp [ctxStart]
@[simp] theorem ctxStart_ended (x : Nat) : (ctxStart x s).ended = s.ended := by
  simp [ctxStart]
@[simp] theorem ctxStart_fabDown (x : Nat) : (ctxStart x s).fabDown = s.fabDown := by
  simp [ctxStart]
@[simp] theorem ctxStart_fabRoutes (x : Nat) : (ctxStart x s).fabRoutes = s.fabRoutes := by
  simp [ctxStart]
@[simp] theorem ctxStart_cellSamples (x : Nat) : (ctxStart x s).cellSamples = s.cellSamples := by
  simp [ctxStart]
@[simp] theorem ctxStart_hub (x : Nat) : (ctxStart x s).hub = s.hub := by
  simp [ctxStart]
@[simp] theorem ctxStart_sec (x : Nat) : (ctxStart x s).sec = s.sec := by
  simp [ctxStart]
@[simp] theorem ctxStart_plate (x : Nat) : (ctxStart x s).plate = s.plate := by
  simp [ctxStart]
@[simp] theorem ctxStart_boot (x : Nat) : (ctxStart x s).boot = s.boot := by
  simp [ctxStart]
@[simp] theorem ctxStart_dies (x : Nat) : (ctxStart x s).dies = s.dies := by
  simp [ctxStart]
@[simp] theorem ctxStart_pwr (x : Nat) : (ctxStart x s).pwr = s.pwr := by
  simp [ctxStart]
@[simp] theorem ctxStart_sent (x : Nat) : (ctxStart x s).sent = s.sent := by
  simp [ctxStart]
@[simp] theorem ctxStart_queue (x : Nat) (j : Nat) : (ctxStart x s).queue j = s.queue j := by
  simp [ctxStart]
@[simp] theorem ctxStart_cell (x : Nat) (j : Nat) : (ctxStart x s).cell j = s.cell j := by
  simp [ctxStart]
@[simp] theorem ctxStart_holder (x : Nat) (j : Nat) : (ctxStart x s).holder j = s.holder j := by
  simp [ctxStart]
@[simp] theorem ctxStart_link (x : Nat) (j : Nat) : (ctxStart x s).link j = s.link j := by
  simp [ctxStart]
@[simp] theorem ctxStart_port (x : Nat) (j : Nat) : (ctxStart x s).port j = s.port j := by
  simp [ctxStart]
@[simp] theorem ctxStart_peer (x : Nat) (j : Nat) : (ctxStart x s).peer j = s.peer j := by
  simp [ctxStart]
@[simp] theorem ctxStart_seq (x : Nat) (j : Nat) : (ctxStart x s).seq j = s.seq j := by
  simp [ctxStart]
@[simp] theorem ctxStart_die (x : Nat) (j : Nat) : (ctxStart x s).die j = s.die j := by
  simp [ctxStart]
@[simp] theorem ctxStart_mbox (x : Nat) (j : Nat) : (ctxStart x s).mbox j = s.mbox j := by
  simp [ctxStart]

/-! ### After ctxDone -/
@[simp] theorem ctxDone_pending (x : Nat) : (ctxDone x s).pending = s.pending := by
  simp [ctxDone]
@[simp] theorem ctxDone_clk (x : Nat) : (ctxDone x s).clk = s.clk := by
  simp [ctxDone]
@[simp] theorem ctxDone_freeCtr (x : Nat) : (ctxDone x s).freeCtr = s.freeCtr := by
  simp [ctxDone]
@[simp] theorem ctxDone_mem (x : Nat) : (ctxDone x s).mem = s.mem := by
  simp [ctxDone]
@[simp] theorem ctxDone_poison (x : Nat) : (ctxDone x s).poison = s.poison := by
  simp [ctxDone]
@[simp] theorem ctxDone_flash (x : Nat) : (ctxDone x s).flash = s.flash := by
  simp [ctxDone]
@[simp] theorem ctxDone_seqs (x : Nat) : (ctxDone x s).seqs = s.seqs := by
  simp [ctxDone]
@[simp] theorem ctxDone_queues (x : Nat) : (ctxDone x s).queues = s.queues := by
  simp [ctxDone]
@[simp] theorem ctxDone_cells (x : Nat) : (ctxDone x s).cells = s.cells := by
  simp [ctxDone]
@[simp] theorem ctxDone_holders (x : Nat) : (ctxDone x s).holders = s.holders := by
  simp [ctxDone]
@[simp] theorem ctxDone_links (x : Nat) : (ctxDone x s).links = s.links := by
  simp [ctxDone]
@[simp] theorem ctxDone_ports (x : Nat) : (ctxDone x s).ports = s.ports := by
  simp [ctxDone]
@[simp] theorem ctxDone_peers (x : Nat) : (ctxDone x s).peers = s.peers := by
  simp [ctxDone]
@[simp] theorem ctxDone_snd (x : Nat) : (ctxDone x s).snd = s.snd := by
  simp [ctxDone]
@[simp] theorem ctxDone_rcv (x : Nat) : (ctxDone x s).rcv = s.rcv := by
  simp [ctxDone]
@[simp] theorem ctxDone_colls (x : Nat) : (ctxDone x s).colls = s.colls := by
  simp [ctxDone]
@[simp] theorem ctxDone_red (x : Nat) : (ctxDone x s).red = s.red := by
  simp [ctxDone]
@[simp] theorem ctxDone_routes (x : Nat) : (ctxDone x s).routes = s.routes := by
  simp [ctxDone]
@[simp] theorem ctxDone_rxq (x : Nat) : (ctxDone x s).rxq = s.rxq := by
  simp [ctxDone]
@[simp] theorem ctxDone_ended (x : Nat) : (ctxDone x s).ended = s.ended := by
  simp [ctxDone]
@[simp] theorem ctxDone_fabDown (x : Nat) : (ctxDone x s).fabDown = s.fabDown := by
  simp [ctxDone]
@[simp] theorem ctxDone_fabRoutes (x : Nat) : (ctxDone x s).fabRoutes = s.fabRoutes := by
  simp [ctxDone]
@[simp] theorem ctxDone_cellSamples (x : Nat) : (ctxDone x s).cellSamples = s.cellSamples := by
  simp [ctxDone]
@[simp] theorem ctxDone_hub (x : Nat) : (ctxDone x s).hub = s.hub := by
  simp [ctxDone]
@[simp] theorem ctxDone_sec (x : Nat) : (ctxDone x s).sec = s.sec := by
  simp [ctxDone]
@[simp] theorem ctxDone_plate (x : Nat) : (ctxDone x s).plate = s.plate := by
  simp [ctxDone]
@[simp] theorem ctxDone_boot (x : Nat) : (ctxDone x s).boot = s.boot := by
  simp [ctxDone]
@[simp] theorem ctxDone_dies (x : Nat) : (ctxDone x s).dies = s.dies := by
  simp [ctxDone]
@[simp] theorem ctxDone_pwr (x : Nat) : (ctxDone x s).pwr = s.pwr := by
  simp [ctxDone]
@[simp] theorem ctxDone_sent (x : Nat) : (ctxDone x s).sent = s.sent := by
  simp [ctxDone]
@[simp] theorem ctxDone_queue (x : Nat) (j : Nat) : (ctxDone x s).queue j = s.queue j := by
  simp [ctxDone]
@[simp] theorem ctxDone_cell (x : Nat) (j : Nat) : (ctxDone x s).cell j = s.cell j := by
  simp [ctxDone]
@[simp] theorem ctxDone_holder (x : Nat) (j : Nat) : (ctxDone x s).holder j = s.holder j := by
  simp [ctxDone]
@[simp] theorem ctxDone_link (x : Nat) (j : Nat) : (ctxDone x s).link j = s.link j := by
  simp [ctxDone]
@[simp] theorem ctxDone_port (x : Nat) (j : Nat) : (ctxDone x s).port j = s.port j := by
  simp [ctxDone]
@[simp] theorem ctxDone_peer (x : Nat) (j : Nat) : (ctxDone x s).peer j = s.peer j := by
  simp [ctxDone]
@[simp] theorem ctxDone_seq (x : Nat) (j : Nat) : (ctxDone x s).seq j = s.seq j := by
  simp [ctxDone]
@[simp] theorem ctxDone_die (x : Nat) (j : Nat) : (ctxDone x s).die j = s.die j := by
  simp [ctxDone]
@[simp] theorem ctxDone_mbox (x : Nat) (j : Nat) : (ctxDone x s).mbox j = s.mbox j := by
  simp [ctxDone]

/-! ### After acceptCmd -/
@[simp] theorem acceptCmd_pending (q k : Nat) : (acceptCmd q k s).pending = s.pending := by
  simp [acceptCmd]
@[simp] theorem acceptCmd_clk (q k : Nat) : (acceptCmd q k s).clk = s.clk := by
  simp [acceptCmd]
@[simp] theorem acceptCmd_freeCtr (q k : Nat) : (acceptCmd q k s).freeCtr = s.freeCtr := by
  simp [acceptCmd]
@[simp] theorem acceptCmd_mem (q k : Nat) : (acceptCmd q k s).mem = s.mem := by
  simp [acceptCmd]
@[simp] theorem acceptCmd_poison (q k : Nat) : (acceptCmd q k s).poison = s.poison := by
  simp [acceptCmd]
@[simp] theorem acceptCmd_flash (q k : Nat) : (acceptCmd q k s).flash = s.flash := by
  simp [acceptCmd]
@[simp] theorem acceptCmd_seqs (q k : Nat) : (acceptCmd q k s).seqs = s.seqs := by
  simp [acceptCmd]
@[simp] theorem acceptCmd_cells (q k : Nat) : (acceptCmd q k s).cells = s.cells := by
  simp [acceptCmd]
@[simp] theorem acceptCmd_holders (q k : Nat) : (acceptCmd q k s).holders = s.holders := by
  simp [acceptCmd]
@[simp] theorem acceptCmd_links (q k : Nat) : (acceptCmd q k s).links = s.links := by
  simp [acceptCmd]
@[simp] theorem acceptCmd_ports (q k : Nat) : (acceptCmd q k s).ports = s.ports := by
  simp [acceptCmd]
@[simp] theorem acceptCmd_peers (q k : Nat) : (acceptCmd q k s).peers = s.peers := by
  simp [acceptCmd]
@[simp] theorem acceptCmd_snd (q k : Nat) : (acceptCmd q k s).snd = s.snd := by
  simp [acceptCmd]
@[simp] theorem acceptCmd_rcv (q k : Nat) : (acceptCmd q k s).rcv = s.rcv := by
  simp [acceptCmd]
@[simp] theorem acceptCmd_colls (q k : Nat) : (acceptCmd q k s).colls = s.colls := by
  simp [acceptCmd]
@[simp] theorem acceptCmd_red (q k : Nat) : (acceptCmd q k s).red = s.red := by
  simp [acceptCmd]
@[simp] theorem acceptCmd_routes (q k : Nat) : (acceptCmd q k s).routes = s.routes := by
  simp [acceptCmd]
@[simp] theorem acceptCmd_rxq (q k : Nat) : (acceptCmd q k s).rxq = s.rxq := by
  simp [acceptCmd]
@[simp] theorem acceptCmd_ended (q k : Nat) : (acceptCmd q k s).ended = s.ended := by
  simp [acceptCmd]
@[simp] theorem acceptCmd_fabDown (q k : Nat) : (acceptCmd q k s).fabDown = s.fabDown := by
  simp [acceptCmd]
@[simp] theorem acceptCmd_fabRoutes (q k : Nat) : (acceptCmd q k s).fabRoutes = s.fabRoutes := by
  simp [acceptCmd]
@[simp] theorem acceptCmd_cellSamples (q k : Nat) : (acceptCmd q k s).cellSamples = s.cellSamples := by
  simp [acceptCmd]
@[simp] theorem acceptCmd_hub (q k : Nat) : (acceptCmd q k s).hub = s.hub := by
  simp [acceptCmd]
@[simp] theorem acceptCmd_sec (q k : Nat) : (acceptCmd q k s).sec = s.sec := by
  simp [acceptCmd]
@[simp] theorem acceptCmd_plate (q k : Nat) : (acceptCmd q k s).plate = s.plate := by
  simp [acceptCmd]
@[simp] theorem acceptCmd_boot (q k : Nat) : (acceptCmd q k s).boot = s.boot := by
  simp [acceptCmd]
@[simp] theorem acceptCmd_dies (q k : Nat) : (acceptCmd q k s).dies = s.dies := by
  simp [acceptCmd]
@[simp] theorem acceptCmd_pwr (q k : Nat) : (acceptCmd q k s).pwr = s.pwr := by
  simp [acceptCmd]
@[simp] theorem acceptCmd_sent (q k : Nat) : (acceptCmd q k s).sent = s.sent := by
  simp [acceptCmd]
@[simp] theorem acceptCmd_cell (q k : Nat) (j : Nat) : (acceptCmd q k s).cell j = s.cell j := by
  simp [acceptCmd]
@[simp] theorem acceptCmd_holder (q k : Nat) (j : Nat) : (acceptCmd q k s).holder j = s.holder j := by
  simp [acceptCmd]
@[simp] theorem acceptCmd_link (q k : Nat) (j : Nat) : (acceptCmd q k s).link j = s.link j := by
  simp [acceptCmd]
@[simp] theorem acceptCmd_port (q k : Nat) (j : Nat) : (acceptCmd q k s).port j = s.port j := by
  simp [acceptCmd]
@[simp] theorem acceptCmd_peer (q k : Nat) (j : Nat) : (acceptCmd q k s).peer j = s.peer j := by
  simp [acceptCmd]
@[simp] theorem acceptCmd_seq (q k : Nat) (j : Nat) : (acceptCmd q k s).seq j = s.seq j := by
  simp [acceptCmd]
@[simp] theorem acceptCmd_die (q k : Nat) (j : Nat) : (acceptCmd q k s).die j = s.die j := by
  simp [acceptCmd]
@[simp] theorem acceptCmd_mbox (q k : Nat) (j : Nat) : (acceptCmd q k s).mbox j = s.mbox j := by
  simp [acceptCmd]

/-- A completion changes queues, contexts, the hub and the free values, and no more. -/
theorem finishCmd_eq (q k st d1 d2 : Nat) :
    ∃ cx qu hb n, finishCmd q k st d1 d2 s = { s with ctxs := cx, queues := qu, hub := hb, freeCtr := n } := by
  unfold finishCmd
  cases findCmd s q k with
  | none => exact ⟨_, _, _, _, rfl⟩
  | some c =>
    dsimp only
    by_cases hs : c.status.isSome = true
    · rw [if_pos hs]; exact ⟨_, _, _, _, rfl⟩
    · rw [if_neg hs]
      have log : ∀ (d : Nat) (x : Option Nat) (v : Nat) (t : State),
          (∃ cx qu hb n, t = { s with ctxs := cx, queues := qu, hub := hb, freeCtr := n }) →
          ∃ cx qu hb n, logInternal d x v t = { s with ctxs := cx, queues := qu, hub := hb, freeCtr := n } := by
        rintro d x v t ⟨cx, qu, hb, n, rfl⟩
        obtain ⟨g, m, h⟩ := logErrorP_eq { s with ctxs := cx, queues := qu, hub := hb, freeCtr := n } (errClass 0x14).2 0x14 d 0 x v
          [BitVec.ofNat 8 d, BitVec.ofNat 8 v]
        exact ⟨cx, qu, g, m, h⟩
      have fin : ∀ (x : Nat) (t : State),
          (∃ cx qu hb n, t = { s with ctxs := cx, queues := qu, hub := hb, freeCtr := n }) →
          ∃ cx qu hb n, ctxDone x t = { s with ctxs := cx, queues := qu, hub := hb, freeCtr := n } := by
        rintro x t ⟨cx, qu, hb, n, rfl⟩
        exact ⟨_, _, _, _, rfl⟩
      have base : ∀ f, ∃ cx qu hb n, modCmd s q k f = { s with ctxs := cx, queues := qu, hub := hb, freeCtr := n } :=
        fun f => ⟨_, _, _, _, rfl⟩
      generalize (if c.hung = true then stTimeout else st) = v
      have mid : ∀ (p : Prop) [Decidable p] (d : Nat) (x : Option Nat) (w : Nat) (f : Cmd → Cmd), ∃ cx qu hb n,
          (if p then logInternal d x w (modCmd s q k f) else modCmd s q k f)
            = { s with ctxs := cx, queues := qu, hub := hb, freeCtr := n } := by
        intro p _ d x w f
        split
        · exact log _ _ _ _ (base _)
        · exact base _
      split
      · exact fin _ _ (mid _ _ _ _ _)
      · exact mid _ _ _ _ _

/-! ### After finishCmd -/
@[simp] theorem finishCmd_pending (q k st d1 d2 : Nat) : (finishCmd q k st d1 d2 s).pending = s.pending := by
  obtain ⟨cx, qu, hb, n, h⟩ := finishCmd_eq s q k st d1 d2; simp only [h]
@[simp] theorem finishCmd_clk (q k st d1 d2 : Nat) : (finishCmd q k st d1 d2 s).clk = s.clk := by
  obtain ⟨cx, qu, hb, n, h⟩ := finishCmd_eq s q k st d1 d2; simp only [h]
@[simp] theorem finishCmd_mem (q k st d1 d2 : Nat) : (finishCmd q k st d1 d2 s).mem = s.mem := by
  obtain ⟨cx, qu, hb, n, h⟩ := finishCmd_eq s q k st d1 d2; simp only [h]
@[simp] theorem finishCmd_poison (q k st d1 d2 : Nat) : (finishCmd q k st d1 d2 s).poison = s.poison := by
  obtain ⟨cx, qu, hb, n, h⟩ := finishCmd_eq s q k st d1 d2; simp only [h]
@[simp] theorem finishCmd_flash (q k st d1 d2 : Nat) : (finishCmd q k st d1 d2 s).flash = s.flash := by
  obtain ⟨cx, qu, hb, n, h⟩ := finishCmd_eq s q k st d1 d2; simp only [h]
@[simp] theorem finishCmd_seqs (q k st d1 d2 : Nat) : (finishCmd q k st d1 d2 s).seqs = s.seqs := by
  obtain ⟨cx, qu, hb, n, h⟩ := finishCmd_eq s q k st d1 d2; simp only [h]
@[simp] theorem finishCmd_cells (q k st d1 d2 : Nat) : (finishCmd q k st d1 d2 s).cells = s.cells := by
  obtain ⟨cx, qu, hb, n, h⟩ := finishCmd_eq s q k st d1 d2; simp only [h]
@[simp] theorem finishCmd_holders (q k st d1 d2 : Nat) : (finishCmd q k st d1 d2 s).holders = s.holders := by
  obtain ⟨cx, qu, hb, n, h⟩ := finishCmd_eq s q k st d1 d2; simp only [h]
@[simp] theorem finishCmd_links (q k st d1 d2 : Nat) : (finishCmd q k st d1 d2 s).links = s.links := by
  obtain ⟨cx, qu, hb, n, h⟩ := finishCmd_eq s q k st d1 d2; simp only [h]
@[simp] theorem finishCmd_ports (q k st d1 d2 : Nat) : (finishCmd q k st d1 d2 s).ports = s.ports := by
  obtain ⟨cx, qu, hb, n, h⟩ := finishCmd_eq s q k st d1 d2; simp only [h]
@[simp] theorem finishCmd_peers (q k st d1 d2 : Nat) : (finishCmd q k st d1 d2 s).peers = s.peers := by
  obtain ⟨cx, qu, hb, n, h⟩ := finishCmd_eq s q k st d1 d2; simp only [h]
@[simp] theorem finishCmd_snd (q k st d1 d2 : Nat) : (finishCmd q k st d1 d2 s).snd = s.snd := by
  obtain ⟨cx, qu, hb, n, h⟩ := finishCmd_eq s q k st d1 d2; simp only [h]
@[simp] theorem finishCmd_rcv (q k st d1 d2 : Nat) : (finishCmd q k st d1 d2 s).rcv = s.rcv := by
  obtain ⟨cx, qu, hb, n, h⟩ := finishCmd_eq s q k st d1 d2; simp only [h]
@[simp] theorem finishCmd_colls (q k st d1 d2 : Nat) : (finishCmd q k st d1 d2 s).colls = s.colls := by
  obtain ⟨cx, qu, hb, n, h⟩ := finishCmd_eq s q k st d1 d2; simp only [h]
@[simp] theorem finishCmd_red (q k st d1 d2 : Nat) : (finishCmd q k st d1 d2 s).red = s.red := by
  obtain ⟨cx, qu, hb, n, h⟩ := finishCmd_eq s q k st d1 d2; simp only [h]
@[simp] theorem finishCmd_routes (q k st d1 d2 : Nat) : (finishCmd q k st d1 d2 s).routes = s.routes := by
  obtain ⟨cx, qu, hb, n, h⟩ := finishCmd_eq s q k st d1 d2; simp only [h]
@[simp] theorem finishCmd_rxq (q k st d1 d2 : Nat) : (finishCmd q k st d1 d2 s).rxq = s.rxq := by
  obtain ⟨cx, qu, hb, n, h⟩ := finishCmd_eq s q k st d1 d2; simp only [h]
@[simp] theorem finishCmd_ended (q k st d1 d2 : Nat) : (finishCmd q k st d1 d2 s).ended = s.ended := by
  obtain ⟨cx, qu, hb, n, h⟩ := finishCmd_eq s q k st d1 d2; simp only [h]
@[simp] theorem finishCmd_fabDown (q k st d1 d2 : Nat) : (finishCmd q k st d1 d2 s).fabDown = s.fabDown := by
  obtain ⟨cx, qu, hb, n, h⟩ := finishCmd_eq s q k st d1 d2; simp only [h]
@[simp] theorem finishCmd_fabRoutes (q k st d1 d2 : Nat) : (finishCmd q k st d1 d2 s).fabRoutes = s.fabRoutes := by
  obtain ⟨cx, qu, hb, n, h⟩ := finishCmd_eq s q k st d1 d2; simp only [h]
@[simp] theorem finishCmd_cellSamples (q k st d1 d2 : Nat) : (finishCmd q k st d1 d2 s).cellSamples = s.cellSamples := by
  obtain ⟨cx, qu, hb, n, h⟩ := finishCmd_eq s q k st d1 d2; simp only [h]
@[simp] theorem finishCmd_sec (q k st d1 d2 : Nat) : (finishCmd q k st d1 d2 s).sec = s.sec := by
  obtain ⟨cx, qu, hb, n, h⟩ := finishCmd_eq s q k st d1 d2; simp only [h]
@[simp] theorem finishCmd_plate (q k st d1 d2 : Nat) : (finishCmd q k st d1 d2 s).plate = s.plate := by
  obtain ⟨cx, qu, hb, n, h⟩ := finishCmd_eq s q k st d1 d2; simp only [h]
@[simp] theorem finishCmd_boot (q k st d1 d2 : Nat) : (finishCmd q k st d1 d2 s).boot = s.boot := by
  obtain ⟨cx, qu, hb, n, h⟩ := finishCmd_eq s q k st d1 d2; simp only [h]
@[simp] theorem finishCmd_dies (q k st d1 d2 : Nat) : (finishCmd q k st d1 d2 s).dies = s.dies := by
  obtain ⟨cx, qu, hb, n, h⟩ := finishCmd_eq s q k st d1 d2; simp only [h]
@[simp] theorem finishCmd_pwr (q k st d1 d2 : Nat) : (finishCmd q k st d1 d2 s).pwr = s.pwr := by
  obtain ⟨cx, qu, hb, n, h⟩ := finishCmd_eq s q k st d1 d2; simp only [h]
@[simp] theorem finishCmd_sent (q k st d1 d2 : Nat) : (finishCmd q k st d1 d2 s).sent = s.sent := by
  obtain ⟨cx, qu, hb, n, h⟩ := finishCmd_eq s q k st d1 d2; simp only [h]
@[simp] theorem finishCmd_cell (q k st d1 d2 : Nat) (j : Nat) : (finishCmd q k st d1 d2 s).cell j = s.cell j := by
  obtain ⟨cx, qu, hb, n, h⟩ := finishCmd_eq s q k st d1 d2; simp only [h, State.cell]
@[simp] theorem finishCmd_holder (q k st d1 d2 : Nat) (j : Nat) : (finishCmd q k st d1 d2 s).holder j = s.holder j := by
  obtain ⟨cx, qu, hb, n, h⟩ := finishCmd_eq s q k st d1 d2; simp only [h, State.holder]
@[simp] theorem finishCmd_link (q k st d1 d2 : Nat) (j : Nat) : (finishCmd q k st d1 d2 s).link j = s.link j := by
  obtain ⟨cx, qu, hb, n, h⟩ := finishCmd_eq s q k st d1 d2; simp only [h, State.link]
@[simp] theorem finishCmd_port (q k st d1 d2 : Nat) (j : Nat) : (finishCmd q k st d1 d2 s).port j = s.port j := by
  obtain ⟨cx, qu, hb, n, h⟩ := finishCmd_eq s q k st d1 d2; simp only [h, State.port]
@[simp] theorem finishCmd_peer (q k st d1 d2 : Nat) (j : Nat) : (finishCmd q k st d1 d2 s).peer j = s.peer j := by
  obtain ⟨cx, qu, hb, n, h⟩ := finishCmd_eq s q k st d1 d2; simp only [h, State.peer]
@[simp] theorem finishCmd_seq (q k st d1 d2 : Nat) (j : Nat) : (finishCmd q k st d1 d2 s).seq j = s.seq j := by
  obtain ⟨cx, qu, hb, n, h⟩ := finishCmd_eq s q k st d1 d2; simp only [h, State.seq]
@[simp] theorem finishCmd_die (q k st d1 d2 : Nat) (j : Nat) : (finishCmd q k st d1 d2 s).die j = s.die j := by
  obtain ⟨cx, qu, hb, n, h⟩ := finishCmd_eq s q k st d1 d2; simp only [h, State.die]

end Sys2Proof.Machine
end

