-- ==== Sys2Proof/Laws/Work.lean ====
section
/-! SUPPORT. Laws/Work.lean: how a command of a queue starts: what starting changes, and which effect a started command has. -/
namespace Sys2Proof.Machine

/-- What every step of a fold keeps, the fold keeps. -/
theorem foldl_keep {α β γ : Type} (f : β → α → β) (g : β → γ) (h : ∀ b a, g (f b a) = g b) (l : List α) (b : β) : g (l.foldl f b) = g b := by
  induction l generalizing b with
  | nil => rfl
  | cons a l ih => rw [List.foldl_cons, ih, h]

variable (s : State) (q : Nat) (b : Bytes)

/-- The semaphore unit taken, the context keeps everything else. -/
theorem semTake_ctx (x i y : Nat) : ∃ m, (semTake x i s).ctx y = { s.ctx y with sems := m } := by
  unfold semTake
  split
  · exact ⟨_, rfl⟩
  · rw [State.ctx_modCtx]
    split
    · next h => subst h; exact ⟨_, rfl⟩
    · exact ⟨_, rfl⟩

/-- Starting a command changes no more of a context than its semaphores. -/
theorem beginCmd_ctx (y : Nat) : ∃ m, (beginCmd q b s).ctx y = { s.ctx y with sems := m } := by
  simpa [beginCmd] using semTake_ctx s (s.queue q).ctx (cWait b) y

@[simp] theorem beginCmd_ctx_st (y : Nat) : ((beginCmd q b s).ctx y).st = (s.ctx y).st := by
  obtain ⟨m, h⟩ := beginCmd_ctx s q b y; rw [h]
@[simp] theorem beginCmd_ctx_sl (y : Nat) : ((beginCmd q b s).ctx y).sl = (s.ctx y).sl := by
  obtain ⟨m, h⟩ := beginCmd_ctx s q b y; rw [h]
@[simp] theorem beginCmd_ctx_jobTag (y : Nat) : ((beginCmd q b s).ctx y).jobTag = (s.ctx y).jobTag := by
  obtain ⟨m, h⟩ := beginCmd_ctx s q b y; rw [h]
@[simp] theorem beginCmd_ctx_regions (y : Nat) : ((beginCmd q b s).ctx y).regions = (s.ctx y).regions := by
  obtain ⟨m, h⟩ := beginCmd_ctx s q b y; rw [h]
@[simp] theorem beginCmd_ctx_epochs (y : Nat) : ((beginCmd q b s).ctx y).epochs = (s.ctx y).epochs := by
  obtain ⟨m, h⟩ := beginCmd_ctx s q b y; rw [h]
@[simp] theorem beginCmd_ctx_lc (y : Nat) : ((beginCmd q b s).ctx y).lc = (s.ctx y).lc := by
  obtain ⟨m, h⟩ := beginCmd_ctx s q b y; rw [h]
@[simp] theorem beginCmd_ctx_job (y : Nat) : ((beginCmd q b s).ctx y).job = (s.ctx y).job := by
  obtain ⟨m, h⟩ := beginCmd_ctx s q b y; rw [h]
@[simp] theorem beginCmd_ctx_changes (y : Nat) : ((beginCmd q b s).ctx y).changes = (s.ctx y).changes := by
  obtain ⟨m, h⟩ := beginCmd_ctx s q b y; rw [h]
@[simp] theorem beginCmd_ctx_admits (y : Nat) : ((beginCmd q b s).ctx y).admits = (s.ctx y).admits := by
  obtain ⟨m, h⟩ := beginCmd_ctx s q b y; rw [h]
@[simp] theorem beginCmd_ctx_seqBase (y : Nat) : ((beginCmd q b s).ctx y).seqBase = (s.ctx y).seqBase := by
  obtain ⟨m, h⟩ := beginCmd_ctx s q b y; rw [h]
@[simp] theorem beginCmd_ctx_seqCount (y : Nat) : ((beginCmd q b s).ctx y).seqCount = (s.ctx y).seqCount := by
  obtain ⟨m, h⟩ := beginCmd_ctx s q b y; rw [h]

/-- Starting command N advances N and puts the command in flight. -/
@[simp] theorem beginCmd_queue : (beginCmd q b s).queue q = { s.queue q with
    n := (s.queue q).n + 1,
    flight := (s.queue q).flight ++ [{ idx := (s.queue q).n.toNat, bytes := b, since := s.clk }] } := by
  simp [beginCmd]

/-- Starting a command leaves every other queue as it was. -/
theorem beginCmd_queue_ne (r : Nat) (h : r ≠ q) : (beginCmd q b s).queue r = s.queue r := by
  simp [beginCmd, State.queue_modQueue, h]

/-- Every queue keeps its context when a command starts. -/
@[simp] theorem beginCmd_queue_ctx (r : Nat) : ((beginCmd q b s).queue r).ctx = (s.queue r).ctx := by
  by_cases h : r = q
  · subst h; simp
  · rw [beginCmd_queue_ne s q b r h]

/-- Starting a command changes the hub by a trace record alone. -/
theorem beginCmd_hub : ∃ g, (beginCmd q b s).hub = g := ⟨_, rfl⟩

/-! ### Where an address lies depends on the plates and the dies alone -/

/-- The plates and dies decide which dies are fenced. -/
theorem fenced_congr (t : State) (hp : t.plate = s.plate) (hd : t.dies = s.dies) (d : Nat) : fenced t d = fenced s d := by
  simp [fenced, State.die, hp, hd]

/-- The plates and dies decide where tables of fenced stacks stand. -/
theorem relocTo_congr (t : State) (hp : t.plate = s.plate) (hd : t.dies = s.dies) : relocTo t = relocTo s := by
  funext n
  unfold relocTo
  rw [show (fun k => !fenced t (8 + k)) = (fun k => !fenced s (8 + k)) from funext fun k => by rw [fenced_congr s t hp hd]]

/-- The plates and dies decide how many tables a stack holds. -/
theorem relocCount_congr (t : State) (hp : t.plate = s.plate) (hd : t.dies = s.dies) : relocCount t = relocCount s := by
  funext k
  unfold relocCount
  rw [relocTo_congr s t hp hd]
  rw [show fenced t = fenced s from funext fun k => fenced_congr s t hp hd k]

/-- The plates and dies decide which area holds an address. -/
theorem areaOf_congr (t : State) (hp : t.plate = s.plate) (hd : t.dies = s.dies) (a : Nat) : areaOf t a = areaOf s a := by
  unfold areaOf
  rw [relocCount_congr s t hp hd]

/-- An access right depends on plates, dies, cells and the context's regions. -/
theorem mayAccess_congr (t : State) (x : Nat) (hp : t.plate = s.plate) (hd : t.dies = s.dies) (hc : t.cells = s.cells)
    (hr : (t.ctx x).regions = (s.ctx x).regions) (a n : Nat) (w r : Bool) : mayAccess t x a n w r = mayAccess s x a n w r := by
  have hf : fenced t = fenced s := funext fun k => fenced_congr s t hp hd k
  have hg : ∀ a n w r e m, (t.ctx x).grants a n w r e m = (s.ctx x).grants a n w r e m := fun _ _ _ _ _ _ => by
    unfold Ctx.grants; rw [hr]
  have hk : t.cell = s.cell := funext fun c => by unfold State.cell; rw [hc]
  have hq : cellPresent t = cellPresent s := funext fun c => by unfold cellPresent; rw [hf, hp]
  unfold mayAccess
  rw [areaOf_congr s t hp hd, areaOf_congr s t hp hd, hf, hk, hq]
  simp only [hg]

/-- What a checked read gives depends on memory, poison, cells, plates and dies. -/
theorem readMem_congr (t : State) (hp : t.plate = s.plate) (hd : t.dies = s.dies) (hc : t.cells = s.cells) (hm : t.mem = s.mem)
    (ho : t.poison = s.poison) (a n : Nat) : readMem t a n = readMem s a n := by
  have hk : t.cell = s.cell := funext fun c => by unfold State.cell; rw [hc]
  unfold readMem unreadable badIn peek
  rw [areaOf_congr s t hp hd, hk, hm, ho]

/-- Starting a command leaves what a context's units read unchanged. -/
@[simp] theorem beginCmd_readFor (x a n : Nat) : readFor (beginCmd q b s) x a n = readFor s x a n := by
  simp only [readFor]
  rw [mayAccess_congr s (beginCmd q b s) x (by simp) (by simp) (by simp) (by simp),
    readMem_congr s (beginCmd q b s) (by simp) (by simp) (by simp) (by simp) (by simp)]

/-- Starting a command leaves the rights of the queue manager unchanged. -/
@[simp] theorem beginCmd_qMay (r a n : Nat) (w e : Bool) : qMay (beginCmd q b s) r a n w e = qMay s r a n w e := by
  simp only [qMay, hasRegion, beginCmd_queue_ctx, beginCmd_ctx_regions]
  rw [mayAccess_congr s (beginCmd q b s) _ (by simp) (by simp) (by simp) (by simp)]
  simp only [areaOf_congr s (beginCmd q b s) (by simp) (by simp), fenced_congr s (beginCmd q b s) (by simp) (by simp)]

/-- Starting a command leaves what the queue manager reads unchanged. -/
@[simp] theorem beginCmd_qRead (r a n : Nat) : qRead (beginCmd q b s) r a n = qRead s r a n := by
  simp only [qRead, beginCmd_qMay]
  rw [readMem_congr s (beginCmd q b s) (by simp) (by simp) (by simp) (by simp) (by simp)]

/-- Starting a command leaves its form as it was. -/
@[simp] theorem beginCmd_cmdForm (c : Bytes) : cmdForm (beginCmd q b s) q c = cmdForm s q c := by
  simp [cmdForm]

/-- Starting a command leaves the step line's verdict on it as it was. -/
@[simp] theorem beginCmd_boundOf (x : Nat) (c : Bytes) : boundOf (beginCmd q b s) x c = boundOf s x c := by
  simp [boundOf]

/-- The end of a started command leaves every step line as it is. -/
@[simp] theorem ctxDone_sl (x : Nat) (s : State) (y : Nat) : (ctxDone x s).sl y = s.sl y := by
  unfold ctxDone State.sl
  rw [State.ctx_modCtx]
  split
  · rename_i h; rw [h]
  · rfl

/-- A completion leaves every step line as it is. -/
@[simp] theorem finishCmd_sl (q k st d1 d2 : Nat) (s : State) (y : Nat) : (finishCmd q k st d1 d2 s).sl y = s.sl y := by
  unfold finishCmd
  split
  · rfl
  · dsimp only
    split
    · rfl
    · split <;> try rw [ctxDone_sl]
      all_goals unfold State.sl
      all_goals split <;> first | rfl | (split <;> simp)

end Sys2Proof.Machine
end

