-- ==== Sys2Proof/Laws/Starts.lean ====
section
/-! SUPPORT. Laws/Starts.lean: a command that is carried out now has its own effect on the state in which it has started. -/
namespace Sys2Proof.Machine

/-- A command that is carried out now runs its row's effect on the state in which it has started. -/
theorem startRow_of_starts (row : Bytes → Bool) (act : Nat → Nat → Bytes → State → State) (s : State) (q : Nat) (b : Bytes)
    (h : Starts s q b) (hr : row b = true) (ready : State → Nat → Cmd → Bool := fun _ _ _ => true) :
    startRow row act q s ready = act q (s.nextIdx q) b (beginCmd q b s) := by
  obtain ⟨-, hw, hn, hs, hf, hx, hb⟩ := h
  have hnone : (s.queue q).flight.find? (fun c => c.waiting && c.status.isNone && row c.bytes
      && decide (boundOf s (s.queue q).ctx c.bytes ≠ .wait) && decide ((s.ctx (s.queue q).ctx).st ≠ .preempted)
      && decide ((s.ctx (s.queue q).ctx).preReq ≠ 1) && ready s q c) = none := by
    rw [List.find?_eq_none]
    intro c hc
    simp [hw c hc]
  unfold startRow
  rw [hnone]
  dsimp only
  rw [hn]
  dsimp only
  rw [if_pos (by simp [hr, hs])]
  unfold checkCmd State.nextIdx
  have hx' : ((s.ctx (s.queue q).ctx).st = .faulted && decide (cOp b ≠ 3) && decide (cOp b ≠ 5)) = false := by
    rcases hx with h | h | h <;> simp [h]
  simp [hf, hb] at hx' ⊢
  rintro h1 h2 h3
  exact absurd (hx' h1 h2) h3

/-- The rails stay up while a queue command runs, so its frame answers its effect. -/
theorem exec_of_starts (row : Bytes → Bool) (act : Nat → Nat → Bytes → State → State) (s : State) (q : Nat) (b : Bytes)
    (h : Starts s q b) (hr : row b = true) (t : State) (ht : act q (s.nextIdx q) b (beginCmd q b s) = t) (hp : t.pwr = s.pwr) :
    serving (startRow row act q) s = .next t := by
  rw [serving_on s _ h.1]
  · rw [startRow_of_starts row act s q b h hr, ht]
  · rw [startRow_of_starts row act s q b h hr, ht, hp, h.1]; rfl

/-- With no message ended nothing is delivered. -/
theorem deliver_quiet (n : Nat) (t : State) (h : t.ended = []) : deliver n t = t := by
  cases n with
  | zero => rfl
  | succ n => simp [deliver, h]

/-- A command of a device in service answers its effect when that leaves the power shell as it was. -/
theorem serving_of (f : State → State) (s t : State) (h : s.Serving) (ht : f s = t) (hp : t.pwr = s.pwr) : serving f s = .next t := by
  rw [serving_on s _ h, ht]
  rw [ht, hp, show s.pwr.st = .on from h]; rfl

/-- The same when it leaves the power state as it was. -/
theorem serving_of_st (f : State → State) (s t : State) (h : s.Serving) (ht : f s = t) (hp : t.pwr.st = s.pwr.st) : serving f s = .next t := by
  rw [serving_on s _ h, ht]
  rw [ht, hp, show s.pwr.st = .on from h]; rfl

/-- A command that may send answers its effect when no message ended in its course. -/
theorem net_of (f : State → State) (s t : State) (h : s.Serving) (ht : f s = t) (he : t.ended = []) (hp : t.pwr = s.pwr) :
    net f s = .next t :=
  serving_of _ s t h (by rw [ht, deliver_quiet _ t he]) hp

/-- A row of queue commands that may send answers its effect when no message ended in its course. -/
theorem net_of_starts (row : Bytes → Bool) (act : Nat → Nat → Bytes → State → State) (s : State) (q : Nat) (b : Bytes)
    (h : Starts s q b) (hr : row b = true) (t : State) (ht : act q (s.nextIdx q) b (beginCmd q b s) = t) (he : t.ended = [])
    (hp : t.pwr = s.pwr) (ready : State → Nat → Cmd → Bool := fun _ _ _ => true) : net (fun u => startRow row act q u ready) s = .next t :=
  net_of _ s t h.1 (by rw [startRow_of_starts row act s q b h hr ready, ht]) he hp

/-- A row of queue commands answers its effect when that leaves the power shell as it was. -/
theorem serving_of_starts (row : Bytes → Bool) (act : Nat → Nat → Bytes → State → State) (s : State) (q : Nat) (b : Bytes)
    (h : Starts s q b) (hr : row b = true) (t : State) (ht : act q (s.nextIdx q) b (beginCmd q b s) = t) (hp : t.pwr = s.pwr)
    (ready : State → Nat → Cmd → Bool := fun _ _ _ => true) : serving (fun u => startRow row act q u ready) s = .next t :=
  serving_of _ s _ h.1 (by rw [startRow_of_starts row act s q b h hr ready, ht]) hp

end Sys2Proof.Machine
end

