-- ==== Sys2Proof/Laws/Rails.lean ====
section
/-! SUPPORT. Laws/Rails.lean: the operations that leave the power shell as it is. -/
namespace Sys2Proof.Machine
@[simp] theorem foldl_pwr {α : Type} (f : State → α → State) (h : ∀ t a, (f t a).pwr = t.pwr) (l : List α) (s : State) : (l.foldl f s).pwr = s.pwr := by
  induction l generalizing s with
  | nil => rfl
  | cons a l ih => rw [List.foldl_cons, ih, h]
@[simp] theorem ite_pwr (p : Prop) [Decidable p] (a b : State) : (if p then a else b).pwr = if p then a.pwr else b.pwr := by split <;> rfl
@[simp] theorem takeWord_pwr (s : State) : (takeWord s).2.pwr = s.pwr := rfl
@[simp] theorem takeBytes_pwr (n : Nat) (s : State) : (takeBytes n s).2.pwr = s.pwr := rfl
@[simp] theorem takeBool_pwr (s : State) : (takeBool s).2.pwr = s.pwr := rfl
@[simp] theorem takeDraw_pwr (s : State) : (takeDraw s).2.pwr = s.pwr := rfl
@[simp] theorem writeMem_pwr (s : State) (a : Nat) (bs : Bytes) : (writeMem s a bs).1.pwr = s.pwr := by unfold writeMem; (repeat' (first | split | dsimp only)) <;> simp
@[simp] theorem writeFor_pwr (s : State) (x a : Nat) (bs : Bytes) : (writeFor s x a bs).1.pwr = s.pwr := by unfold writeFor; (repeat' (first | split | dsimp only)) <;> simp
@[simp] theorem notePoison_pwr (s : State) (a n : Nat) : (notePoison s a n).pwr = s.pwr := by unfold notePoison; (repeat' (first | split | dsimp only)) <;> simp
@[simp] theorem noteRead_pwr (st a n : Nat) (s : State) : (noteRead st a n s).pwr = s.pwr := by simp [noteRead]
@[simp] theorem semSignal_pwr (x i : Nat) (s : State) : (semSignal x i s).pwr = s.pwr := by simp [semSignal]
@[simp] theorem answer_pwr (code st : Nat) (data : Bytes) (s : State) : (answer code st data s).pwr = s.pwr := rfl
@[simp] theorem logDebug_pwr (b : Nat) (s : State) : (logDebug b s).pwr = s.pwr := rfl
@[simp] theorem leave_pwr (l pri : Nat) (m : OutMsg) (s : State) : (leave l pri m s).pwr = s.pwr := by simp [leave]
@[simp] theorem sendFrame_pwr (l pri : Nat) (m : OutMsg) (s : State) : (sendFrame l pri m s).pwr = s.pwr := by simp [sendFrame]
@[simp] theorem wire_pwr (s : State) (path : Nat) (p : FjPkt) : (wire s path p).pwr = s.pwr := by unfold wire; (repeat' (first | split | dsimp only)) <;> simp
@[simp] theorem sendBare_pwr (s : State) (k : FlowKey) (ty : Nat) (ext payload : Bytes) : (sendBare s k ty ext payload).pwr = s.pwr := by simp [sendBare]
@[simp] theorem sendNack_pwr (s : State) (p : FjPkt) (code : Nat) : (sendNack s p code).pwr = s.pwr := by simp [sendNack]
@[simp] theorem sendAck_pwr (s : State) (k : FlowKey) : (sendAck s k).pwr = s.pwr := by simp [sendAck]
@[simp] theorem pumpOne_pwr (s : State) (k : FlowKey) : (pumpOne s k).pwr = s.pwr := by unfold pumpOne; (repeat' (first | split | dsimp only)) <;> simp
@[simp] theorem pump_pwr (n : Nat) (s : State) (k : FlowKey) : (pump n s k).pwr = s.pwr := by
  induction n generalizing s with
  | zero => rfl
  | succ n ih => unfold pump; dsimp only; split <;> simp [ih]
@[simp] theorem pumpAll_pwr (s : State) (k : FlowKey) : (pumpAll s k).pwr = s.pwr := by simp [pumpAll]
@[simp] theorem endMsg_pwr (s : State) (u : MsgUse) (st : Nat) : (endMsg s u st).pwr = s.pwr := by unfold endMsg; (repeat' (first | split | dsimp only)) <;> simp
@[simp] theorem sendMsg_pwr (s : State) (k : FlowKey) (use : MsgUse) (budget : Nat) (pkts : List FjPkt) : (sendMsg s k use budget pkts).pwr = s.pwr := by simp [sendMsg]
@[simp] theorem sendCtl_pwr (s : State) (x : Option Nat) (dst target op tag : Nat) (body : Bytes) (use : MsgUse) : (sendCtl s x dst target op tag body use).pwr = s.pwr := by simp [sendCtl]
@[simp] theorem sendSpdm_pwr (s : State) (dev code : Nat) (fields : List Nat) (data : Bytes) : (sendSpdm s dev code fields data).pwr = s.pwr := by simp [sendSpdm]
@[simp] theorem sendWrite_pwr (s : State) (x : Option Nat) (cls dst addr : Nat) (data : Bytes) (use : MsgUse) (budget : Nat) : (sendWrite s x cls dst addr data use budget).pwr = s.pwr := by simp [sendWrite]
@[simp] theorem sendRead_pwr (s : State) (x : Option Nat) (cls dst addr ret len : Nat) (use : MsgUse) (budget : Nat) : (sendRead s x cls dst addr ret len use budget).pwr = s.pwr := by simp [sendRead]
@[simp] theorem reapMsgs_pwr (s : State) (k : FlowKey) : (reapMsgs s k).pwr = s.pwr := by simp [reapMsgs]
@[simp] theorem failFlow_pwr (s : State) (k : FlowKey) (st : Nat) : (failFlow s k st).pwr = s.pwr := by simp [failFlow]
@[simp] theorem dropMsg_pwr (s : State) (k : FlowKey) (seq st : Nat) : (dropMsg s k seq st).pwr = s.pwr := by simp [dropMsg]
@[simp] theorem resend_pwr (s : State) (k : FlowKey) (psn : Nat) : (resend s k psn).pwr = s.pwr := by unfold resend; (repeat' (first | split | dsimp only)) <;> simp
@[simp] theorem resendFree_pwr (s : State) (k : FlowKey) (psn : Nat) : (resendFree s k psn).pwr = s.pwr := by unfold resendFree; (repeat' (first | split | dsimp only)) <;> simp
@[simp] theorem refuseForNow_pwr (s : State) (p : FjPkt) (code : Nat) : (refuseForNow s p code).pwr = s.pwr := by simp [refuseForNow]
@[simp] theorem refuse_pwr (s : State) (p : FjPkt) (code : Nat) : (refuse s p code).pwr = s.pwr := by simp [refuse]
@[simp] theorem losePeer_pwr (s : State) (dev : Nat) : (losePeer s dev).pwr = s.pwr := by simp [losePeer]
@[simp] theorem closeIfDone_pwr (k : FlowKey) (s : State) : (closeIfDone k s).pwr = s.pwr := by simp [closeIfDone]
@[simp] theorem flowClose_pwr (k : FlowKey) (s : State) : (flowClose k s).pwr = s.pwr := by simp [flowClose]
@[simp] theorem closeJobFlows_pwr (devs : List Nat) (s : State) : (closeJobFlows devs s).pwr = s.pwr := by simp [closeJobFlows]
@[simp] theorem semWait_pwr (x : Nat) (w : Nat × Nat × Nat × Nat) (s : State) : (semWait x w s).pwr = s.pwr := by simp [semWait]
@[simp] theorem holdCmd_pwr (q k : Nat) (s : State) : (holdCmd q k s).pwr = s.pwr := rfl
theorem checkCmd_pwr (act : Nat → Nat → Bytes → State → State) (h : ∀ q k b t, (act q k b t).pwr = t.pwr) (q k : Nat) (b : Bytes) (s : State) :
    (checkCmd act q k b s).pwr = s.pwr := by
  unfold checkCmd
  dsimp only
  (repeat' split) <;> simp [h]
theorem startRow_pwr (row : Bytes → Bool) (act : Nat → Nat → Bytes → State → State) (h : ∀ q k b t, (act q k b t).pwr = t.pwr) (q : Nat)
    (s : State) (ready : State → Nat → Cmd → Bool) : (startRow row act q s ready).pwr = s.pwr := by
  unfold startRow
  split
  · exact checkCmd_pwr act h _ _ _ _
  · split
    · rfl
    · split
      · rw [checkCmd_pwr act h]; simp
      · split <;> simp
theorem foldl_fst_pwr {α β : Type} (f : State × β → α → State × β) (h : ∀ t a, (f t a).1.pwr = t.1.pwr) (l : List α) (s : State × β) :
    (l.foldl f s).1.pwr = s.1.pwr := by
  induction l generalizing s with
  | nil => rfl
  | cons a l ih => rw [List.foldl_cons, ih, h]
@[simp] theorem drawKeys_pwr (slot : Nat) (s : State) : (drawKeys slot s).pwr = s.pwr := by simp [drawKeys]
@[simp] theorem sweepKeys_pwr (s : State) : (sweepKeys s).pwr = s.pwr := by simp [sweepKeys]
@[simp] theorem answerChange_pwr (st : Nat) (ch : RegionChange) (s : State) : (answerChange st ch s).pwr = s.pwr := by unfold answerChange; (repeat' (first | split | dsimp only)) <;> simp
@[simp] theorem advanceChanges_pwr (n x : Nat) (s : State) : (advanceChanges n x s).pwr = s.pwr := by
  have hd : ∀ k t, (drawKeys k t).pwr = t.pwr := by
    intro k t; unfold drawKeys; split <;> rfl
  induction n generalizing s with
  | zero => rfl
  | succ n ih =>
    unfold advanceChanges
    split
    · rfl
    · dsimp only
      (repeat' split) <;> simp [ih, hd]
@[simp] theorem askChange_pwr (x : Nat) (ch : RegionChange) (s : State) : (askChange x ch s).pwr = s.pwr := by simp [askChange]
@[simp] theorem freeEpoch_pwr (x n : Nat) (s : State) : (freeEpoch x n s).pwr = s.pwr := rfl
@[simp] theorem endChange_pwr (x : Nat) (s : State) : (endChange x s).pwr = s.pwr := by unfold endChange; (repeat' (first | split | dsimp only)) <;> simp
@[simp] theorem zeroRange_pwr (a n : Nat) (s : State) : (zeroRange a n s).pwr = s.pwr := rfl
@[simp] theorem modEpoch_pwr (x n : Nat) (f : EpochEntry → EpochEntry) (s : State) : (modEpoch x n f s).pwr = s.pwr := rfl
@[simp] theorem releaseEpochs_pwr (x : Nat) (s : State) : (releaseEpochs x s).pwr = s.pwr := by
  unfold releaseEpochs
  rw [foldl_pwr]
  intro t e
  split
  · simp
  · rw [foldl_pwr _ (fun u i => askChange_pwr _ _ _)]; simp
@[simp] theorem pinEpoch_pwr (x n : Nat) (s : State) : (pinEpoch x n s).pwr = s.pwr := rfl
@[simp] theorem unpinEpoch_pwr (x n : Nat) (s : State) : (unpinEpoch x n s).pwr = s.pwr := by simp [unpinEpoch]
@[simp] theorem closeSeq_pwr (t : Nat) (s : State) : (closeSeq t s).pwr = s.pwr := by simp [closeSeq]
@[simp] theorem emptyCtx_pwr (x : Nat) (s : State) : (emptyCtx x s).pwr = s.pwr := by simp [emptyCtx]
@[simp] theorem tryPreempted_pwr (x : Nat) (s : State) : (tryPreempted x s).pwr = s.pwr := by simp [tryPreempted]
@[simp] theorem pollWaits_pwr (q : Nat) (s : State) : (pollWaits q s).pwr = s.pwr := by
  unfold pollWaits
  dsimp only
  rw [foldl_pwr]
  · simp
  · intro t c
    split
    · rfl
    · split
      · split <;> simp
      · split <;> simp
      · split <;> simp
      · rfl
@[simp] theorem pollCtx_pwr (x : Nat) (s : State) : (pollCtx x s).pwr = s.pwr := by
  unfold pollCtx
  rw [foldl_pwr]
  intro t e
  split <;> simp
/-- What a completion brings about leaves the power shell as it was. -/
@[simp] theorem progressCmd_pwr (q k n : Nat) (s : State) : (progressCmd q k n s).pwr = s.pwr := rfl
@[simp] theorem setHang_pwr (cause x q : Nat) (s : State) : (setHang cause x q s).pwr = s.pwr := rfl
@[simp] theorem ringDoorbell_pwr (q v : Nat) (s : State) : (ringDoorbell q v s).pwr = s.pwr := by simp [ringDoorbell]
@[simp] theorem writeCcons_pwr (q v : Nat) (s : State) : (writeCcons q v s).pwr = s.pwr := by simp [writeCcons]
@[simp] theorem sendTo_pwr (target op tag : Nat) (body : Bytes) (x : Option Nat) (s : State) : (sendTo target op tag body x s).pwr = s.pwr := by simp [sendTo]
@[simp] theorem postMolt_pwr (x st : Nat) (s : State) : (postMolt x st s).pwr = s.pwr := rfl
@[simp] theorem haltQueues_pwr (x st : Nat) (s : State) : (haltQueues x st s).pwr = s.pwr := rfl
@[simp] theorem faultCtx_pwr (x st : Nat) (s : State) : (faultCtx x st s).pwr = s.pwr := rfl
@[simp] theorem modTile_pwr (c t : Nat) (f : Tile → Tile) (s : State) : (modTile c t f s).pwr = s.pwr := rfl
@[simp] theorem eccFind_pwr (c x : Nat) (reads : List (Nat × Nat)) (slots : List (Nat × Nat × Nat)) (hits : List EccHit) (s : State) : (eccFind c x reads slots hits s).pwr = s.pwr := by simp [eccFind]
@[simp] theorem eccCount_pwr (x : Nat) (ws : List (Nat × Nat × Nat)) (s : State) : (eccCount x ws s).pwr = s.pwr := by simp [eccCount]
@[simp] theorem accSetSt_pwr (s : State) (c pos : Nat) (st : BitVec 4) : (accSetSt s c pos st).pwr = s.pwr := rfl
@[simp] theorem putFast_pwr (c slot e : Nat) (v : FastEnt) (s : State) : (putFast c slot e v s).pwr = s.pwr := rfl
@[simp] theorem putGrid_pwr (c slot e : Nat) (v : Grid) (s : State) : (putGrid c slot e v s).pwr = s.pwr := rfl
@[simp] theorem clearSlot_pwr (grid : Bool) (c slot : Nat) (s : State) : (clearSlot grid c slot s).pwr = s.pwr := rfl
@[simp] theorem putGroup_pwr (c : Nat) (slot : Nat) (g : Group) (s : State) : (putGroup c slot g s).pwr = s.pwr := rfl
@[simp] theorem dropGroup_pwr (c : Nat) (grid : Bool) (slot : Nat) (s : State) : (dropGroup c grid slot s).pwr = s.pwr := rfl
@[simp] theorem enterPhase_pwr (x : Nat) (ph : Phase) (s : State) : (enterPhase x ph s).pwr = s.pwr := by simp [enterPhase]
@[simp] theorem clearCounts_pwr (x : Nat) (s : State) : (clearCounts x s).pwr = s.pwr := rfl
@[simp] theorem onBubble_pwr (x g : Nat) (f : Bubble → Bubble) (s : State) : (onBubble x g f s).pwr = s.pwr := by simp [onBubble]
@[simp] theorem bubbleWait_pwr (x c : Nat) (t : Tile) (s : State) : (bubbleWait x c t s).pwr = s.pwr := by simp [bubbleWait]
@[simp] theorem traceCredit_pwr (x c : Nat) (t : Tile) (s : State) : (traceCredit x c t s).pwr = s.pwr := by
  unfold traceCredit; dsimp only; split <;> simp
@[simp] theorem bubbleStart_pwr (x c : Nat) (t : Tile) (s : State) : (bubbleStart x c t s).pwr = s.pwr := by simp [bubbleStart]
@[simp] theorem bubbleEnd_pwr (x : Nat) (t : Tile) (s : State) : (bubbleEnd x t s).pwr = s.pwr := by simp [bubbleEnd]
@[simp] theorem closeStep_pwr (x : Nat) (o : Outc) (status : Nat) (stats fp : Bool) (s : State) : (closeStep x o status stats fp s).pwr = s.pwr := by simp [closeStep]
@[simp] theorem endBound_pwr (x epoch step st : Nat) (s : State) : (endBound x epoch step st s).pwr = s.pwr := by simp [endBound]
@[simp] theorem endBarrier_pwr (x st code : Nat) (s : State) : (endBarrier x st code s).pwr = s.pwr := by unfold endBarrier; (repeat' (first | split | dsimp only)) <;> simp
@[simp] theorem abandonStep_pwr (x st : Nat) (byBarrier : Bool) (s : State) : (abandonStep x st byBarrier s).pwr = s.pwr := by simp [abandonStep]
@[simp] theorem tryUpdate_pwr (x : Nat) (s : State) : (tryUpdate x s).pwr = s.pwr := by unfold tryUpdate; (repeat' (first | split | dsimp only)) <;> simp
@[simp] theorem tryDecide_pwr (x : Nat) (s : State) : (tryDecide x s).pwr = s.pwr := by unfold tryDecide; (repeat' (first | split | dsimp only)) <;> simp
@[simp] theorem trySendVote_pwr (x : Nat) (s : State) : (trySendVote x s).pwr = s.pwr := by simp [trySendVote]
@[simp] theorem beginWait_pwr (x : Nat) (s : State) : (beginWait x s).pwr = s.pwr := rfl
@[simp] theorem endWait_pwr (x : Nat) (s : State) : (endWait x s).pwr = s.pwr := rfl
@[simp] theorem lostRing_pwr (x st : Nat) (s : State) : (lostRing x st s).pwr = s.pwr := by simp [lostRing]
@[simp] theorem readQ_pwr (x : Nat) (s : State) : (readQ x s).pwr = s.pwr := by unfold readQ; (repeat' (first | split | dsimp only)) <;> simp
@[simp] theorem enterCommit_pwr (x : Nat) (fail : Option Nat) (s : State) : (enterCommit x fail s).pwr = s.pwr := by unfold enterCommit; (repeat' (first | split | dsimp only)) <;> simp
@[simp] theorem failStep_pwr (x st : Nat) (s : State) : (failStep x st s).pwr = s.pwr := by unfold failStep; (repeat' (first | split | dsimp only)) <;> simp
@[simp] theorem tryCommit_pwr (x : Nat) (s : State) : (tryCommit x s).pwr = s.pwr := by unfold tryCommit; (repeat' (first | split | dsimp only)) <;> simp
@[simp] theorem endLedger_pwr (x : Nat) (stats : Bool) (s : State) : (endLedger x stats s).pwr = s.pwr := by simp [endLedger]
@[simp] theorem stepLoss_pwr (x st : Nat) (s : State) : (stepLoss x st s).pwr = s.pwr := by unfold stepLoss; (repeat' (first | split | dsimp only)) <;> simp
@[simp] theorem loadCtx_pwr (x : Nat) (d : Bytes) (s : State) : (loadCtx x d s).pwr = s.pwr := rfl
@[simp] theorem ctxOpenAct_pwr (q k : Nat) (b : Bytes) (s : State) : (ctxOpenAct q k b s).pwr = s.pwr := by unfold ctxOpenAct; (repeat' (first | split | dsimp only)) <;> simp
@[simp] theorem ctxReadyAct_pwr (q k : Nat) (u : Bytes) (s : State) : (ctxReadyAct q k u s).pwr = s.pwr := by simp [ctxReadyAct]
@[simp] theorem ctxCloseAct_pwr (q k : Nat) (u : Bytes) (s : State) : (ctxCloseAct q k u s).pwr = s.pwr := by simp [ctxCloseAct]
@[simp] theorem regionSetAct_pwr (q k : Nat) (b : Bytes) (s : State) : (regionSetAct q k b s).pwr = s.pwr := by simp [regionSetAct]
@[simp] theorem regionZeroed_pwr (x : Nat) (s : State) : (regionZeroed x s).pwr = s.pwr := by unfold regionZeroed; (repeat' (first | split | dsimp only)) <;> simp
@[simp] theorem regionRevoked_pwr (x : Nat) (s : State) : (regionRevoked x s).pwr = s.pwr := by unfold regionRevoked; (repeat' (first | split | dsimp only)) <;> simp
@[simp] theorem ctlResume_pwr (t uv : Nat) (s : State) : (ctlResume t uv s).1.pwr = s.pwr := by unfold ctlResume; (repeat' (first | split | dsimp only)) <;> simp
@[simp] theorem ctlFlush_pwr (t uv : Nat) (s : State) : (ctlFlush t uv s).1.pwr = s.pwr := by unfold ctlFlush; (repeat' (first | split | dsimp only)) <;> simp
@[simp] theorem ctlTimeout_pwr (t v : Nat) (s : State) : (ctlTimeout t v s).1.pwr = s.pwr := rfl
@[simp] theorem ctlBudget_pwr (t v : Nat) (s : State) : (ctlBudget t v s).1.pwr = s.pwr := rfl
@[simp] theorem ctlHalt_pwr (t v : Nat) (s : State) : (ctlHalt t v s).1.pwr = s.pwr := rfl
@[simp] theorem ctlDisable_pwr (t uv : Nat) (s : State) : (ctlDisable t uv s).1.pwr = s.pwr := rfl
@[simp] theorem ctlEnable_pwr (t uv : Nat) (s : State) : (ctlEnable t uv s).1.pwr = s.pwr := rfl
@[simp] theorem ctlEventDev_pwr (t v : Nat) (s : State) : (ctlEventDev t v s).1.pwr = s.pwr := rfl
@[simp] theorem semAddAct_pwr (q k : Nat) (b : Bytes) (s : State) : (semAddAct q k b s).pwr = s.pwr := by simp [semAddAct]
@[simp] theorem semSetAct_pwr (q k : Nat) (b : Bytes) (s : State) : (semSetAct q k b s).pwr = s.pwr := by simp [semSetAct]
@[simp] theorem publishLoad_pwr (q k : Nat) (b : Bytes) (s : State) : (publishLoad q k b s).pwr = s.pwr := by unfold publishLoad; (repeat' (first | split | dsimp only)) <;> simp
@[simp] theorem makeCurrent_pwr (x n : Nat) (s : State) : (makeCurrent x n s).pwr = s.pwr := by simp [makeCurrent]
@[simp] theorem publishCurrent_pwr (q k : Nat) (b : Bytes) (s : State) : (publishCurrent q k b s).pwr = s.pwr := by unfold publishCurrent; (repeat' (first | split | dsimp only)) <;> simp
@[simp] theorem epochRetire_pwr (q k : Nat) (b : Bytes) (s : State) : (epochRetire q k b s).pwr = s.pwr := by unfold epochRetire; (repeat' (first | split | dsimp only)) <;> simp
@[simp] theorem seqOpenAct_pwr (q k : Nat) (b : Bytes) (s : State) : (seqOpenAct q k b s).pwr = s.pwr := by unfold seqOpenAct; (repeat' (first | split | dsimp only)) <;> simp
@[simp] theorem seqCloseAct_pwr (q k : Nat) (b : Bytes) (s : State) : (seqCloseAct q k b s).pwr = s.pwr := by simp [seqCloseAct]
@[simp] theorem putEntry_pwr (q : Nat) (e : Bytes) (s : State) : (putEntry q e s).1.pwr = s.pwr := by unfold putEntry; (repeat' (first | split | dsimp only)) <;> simp
@[simp] theorem afterCpl_pwr (q : Nat) (c : Cmd) (st : Nat) (s : State) : (afterCpl q c st s).pwr = s.pwr := by unfold afterCpl; (repeat' (first | split | dsimp only)) <;> simp
@[simp] theorem completionWrite_pwr (q : Nat) (s : State) : (completionWrite q s).pwr = s.pwr := by unfold completionWrite; (repeat' (first | split | dsimp only)) <;> simp
@[simp] theorem stickGroup_pwr (k : Nat) (grid : Bool) (slot : Nat) (w : BitVec 32) (s : State) :
    (stickGroup k grid slot w s).pwr = s.pwr := by unfold stickGroup; split <;> simp
@[simp] theorem openGroup_pwr (c k : Nat) (f : MatF) (s : State) : (openGroup c k f s).pwr = s.pwr := rfl
@[simp] theorem dropWhole_pwr (c : Nat) (grid : Bool) (slot : Nat) (s : State) : (dropWhole c grid slot s).pwr = s.pwr := by unfold dropWhole; (repeat' (first | split | dsimp only)) <;> simp
@[simp] theorem unstage_pwr (hit : Nat → Nat → Bool) (s : State) : (unstage hit s).pwr = s.pwr := rfl
@[simp] theorem writeRoutes_pwr (s : State) : (writeRoutes s).pwr = s.pwr := rfl
@[simp] theorem fenceCells_pwr (s : State) : (fenceCells s).pwr = s.pwr := by simp [fenceCells]
@[simp] theorem modCore_pwr (c : Nat) (f : CoreRun → CoreRun) (s : State) : (modCore c f s).pwr = s.pwr := rfl
@[simp] theorem coreIssue_pwr (c : Nat) (desc : List Word) (v : Word) (s : State) : (coreIssue c desc v s).pwr = s.pwr := by unfold coreIssue; (repeat' (first | split | dsimp only)) <;> simp
@[simp] theorem coreEnd_pwr (c st : Nat) (s : State) : (coreEnd c st s).pwr = s.pwr := rfl
@[simp] theorem clearCell_pwr (c : Nat) (s : State) : (clearCell c s).pwr = s.pwr := rfl
@[simp] theorem saveImage_pwr (c : Nat) (s : State) : (saveImage c s).pwr = s.pwr := rfl
@[simp] theorem restoreImage_pwr (c : Nat) (s : State) : (restoreImage c s).pwr = s.pwr := by unfold restoreImage; (repeat' (first | split | dsimp only)) <;> simp
@[simp] theorem startProgram_pwr (q k c : Nat) (s : State) : (startProgram q k c s).pwr = s.pwr := by unfold startProgram; (repeat' (first | split | dsimp only)) <;> simp
@[simp] theorem reachBoundary_pwr (c : Nat) (s : State) : (reachBoundary c s).pwr = s.pwr := by unfold reachBoundary; (repeat' (first | split | dsimp only)) <;> simp
@[simp] theorem seqDone_pwr (t : Nat) (s : State) : (seqDone t s).pwr = s.pwr := rfl
@[simp] theorem seqProgress_pwr (t : Nat) (s : State) : (seqProgress t s).pwr = s.pwr := rfl
@[simp] theorem endProgram_pwr (c : Nat) (s : State) : (endProgram c s).pwr = s.pwr := by unfold endProgram; (repeat' (first | split | dsimp only)) <;> simp
@[simp] theorem tryEnd_pwr (c : Nat) (s : State) : (tryEnd c s).pwr = s.pwr := by unfold tryEnd; (repeat' (first | split | dsimp only)) <;> simp
@[simp] theorem coreTileDone_pwr (c : Nat) (t : Tile) (s : State) : (coreTileDone c t s).pwr = s.pwr := by simp [coreTileDone]
@[simp] theorem takeDescs_pwr (c : Nat) (t : Tile) (n : Nat) (s : State) : (takeDescs c t n s).pwr = s.pwr := rfl
@[simp] theorem failTile_pwr (c : Nat) (t : Tile) (n st : Nat) (s : State) : (failTile c t n st s).pwr = s.pwr := by simp [failTile]
@[simp] theorem takeOdd_pwr (c x : Nat) (s : State) : (takeOdd c x s).pwr = s.pwr := by simp [takeOdd]
@[simp] theorem tileEnd_pwr (c : Nat) (s : State) : (tileEnd c s).pwr = s.pwr := by unfold tileEnd; (repeat' (first | split | dsimp only)) <;> simp
@[simp] theorem tileComplete_pwr (c t : Nat) (s : State) : (tileComplete c t s).pwr = s.pwr := by unfold tileComplete; (repeat' (first | split | dsimp only)) <;> simp
@[simp] theorem addQsum_pwr (c x : Nat) (q : QCounts) (s : State) : (addQsum c x q s).pwr = s.pwr := rfl
@[simp] theorem tileRecordWrite_pwr (c : Nat) (s : State) : (tileRecordWrite c s).pwr = s.pwr := by unfold tileRecordWrite; (repeat' (first | split | dsimp only)) <;> simp
@[simp] theorem tileLate_pwr (c t : Nat) (s : State) : (tileLate c t s).pwr = s.pwr := by unfold tileLate; (repeat' (first | split | dsimp only)) <;> simp
@[simp] theorem discardGroups_pwr (c x : Nat) (t : Tile) (s : State) : (discardGroups c x t s).pwr = s.pwr := by unfold discardGroups; (repeat' (first | split | dsimp only)) <;> simp
@[simp] theorem goLaunch_pwr (q k : Nat) (b : Bytes) (s : State) : (goLaunch q k b s).pwr = s.pwr := by unfold goLaunch; (repeat' (first | split | dsimp only)) <;> simp
@[simp] theorem launchAct_pwr (q k : Nat) (b : Bytes) (s : State) : (launchAct q k b s).pwr = s.pwr := by unfold launchAct; (repeat' (first | split | dsimp only)) <;> simp
@[simp] theorem beginRestore_pwr (c : Nat) (s : State) : (beginRestore c s).pwr = s.pwr := rfl
@[simp] theorem saveComplete_pwr (c : Nat) (s : State) : (saveComplete c s).pwr = s.pwr := by unfold saveComplete; (repeat' (first | split | dsimp only)) <;> simp
@[simp] theorem borrowHoldExpiry_pwr (c : Nat) (s : State) : (borrowHoldExpiry c s).pwr = s.pwr := by unfold borrowHoldExpiry; (repeat' (first | split | dsimp only)) <;> simp
@[simp] theorem tryResumed_pwr (x : Nat) (s : State) : (tryResumed x s).pwr = s.pwr := by simp [tryResumed]
@[simp] theorem restoreComplete_pwr (c : Nat) (s : State) : (restoreComplete c s).pwr = s.pwr := by simp [restoreComplete]
@[simp] theorem preemptNow_pwr (x : Nat) (win : Option Nat) (s : State) : (preemptNow x win s).pwr = s.pwr := by simp [preemptNow]
@[simp] theorem contextPreempt_pwr (session x : Nat) (s : State) : (contextPreempt session x s).pwr = s.pwr := by simp [contextPreempt]
@[simp] theorem preemptWindowed_pwr (session x : Nat) (s : State) : (preemptWindowed session x s).pwr = s.pwr := by simp [preemptWindowed]
@[simp] theorem noteUnit_pwr (r : Stream) (b : Nat) (s : State) : (noteUnit r b s).pwr = s.pwr := by unfold noteUnit; (repeat' (first | split | dsimp only)) <;> simp
@[simp] theorem gatherPut_pwr (s : State) (x a : Nat) (b : Bytes) : (gatherPut s x a b).1.pwr = s.pwr := by unfold gatherPut; (repeat' (first | split | dsimp only)) <;> simp
@[simp] theorem addStats_pwr (x : Nat) (d : Bytes) (gs : List Grid) (s : State) : (addStats x d gs s).pwr = s.pwr := by unfold addStats; (repeat' (first | split | dsimp only)) <;> simp
@[simp] theorem startJob_pwr (h : Nat) (j : EngJob) (s : State) : (startJob h j s).pwr = s.pwr := rfl
@[simp] theorem setStall_pwr (h : Nat) (b : Bool) (s : State) : (setStall h b s).pwr = s.pwr := by simp [setStall]
@[simp] theorem modLoad_pwr (h : Nat) (f : ShardLoad → ShardLoad) (s : State) : (modLoad h f s).pwr = s.pwr := rfl
@[simp] theorem registerChunks_pwr (h : Nat) (v : ShardLoad) (s : State) : (registerChunks h v s).pwr = s.pwr := rfl
@[simp] theorem digestRecord_pwr (src chunk h penalty x st : Nat) (s : State) : (digestRecord src chunk h penalty x st s).pwr = s.pwr := by simp [digestRecord]
@[simp] theorem markRestoring_pwr (x : Nat) (s : State) : (markRestoring x s).pwr = s.pwr := rfl
@[simp] theorem modRestore_pwr (h a : Nat) (f : Restore → Restore) (s : State) : (modRestore h a f s).pwr = s.pwr := rfl
@[simp] theorem restored_pwr (h a x : Nat) (s : State) : (restored h a x s).pwr = s.pwr := rfl
@[simp] theorem restoreFails_pwr (h a : Nat) (s : State) : (restoreFails h a s).pwr = s.pwr := by unfold restoreFails; (repeat' (first | split | dsimp only)) <;> simp
@[simp] theorem engineJobAct_pwr (q k : Nat) (b : Bytes) (s : State) : (engineJobAct q k b s).pwr = s.pwr := by unfold engineJobAct; (repeat' (first | split | dsimp only)) <;> simp
@[simp] theorem tableFault_pwr (p : Nat) (s : State) : (tableFault p s).pwr = s.pwr := by
  unfold tableFault; (repeat' split) <;> simp
@[simp] theorem tableFault_mem (p : Nat) (s : State) : (tableFault p s).mem = s.mem := by
  unfold tableFault; (repeat' split) <;> rfl
@[simp] theorem tableFault_poison (p : Nat) (s : State) : (tableFault p s).poison = s.poison := by
  unfold tableFault; (repeat' split) <;> rfl
@[simp] theorem tagCheck_pwr (p : Nat) (x : Option Nat) (t : TagRead) (s : State) : (tagCheck p x t s).pwr = s.pwr := by unfold tagCheck; (repeat' (first | split | dsimp only)) <;> simp
@[simp] theorem holderAccess_pwr (r : Requester) (write : Bool) (a len : Nat) (data : Bytes) (tag : TagRead) (s : State) :
    (holderAccess r write a len data tag s).pwr = s.pwr := by
  unfold holderAccess
  extract_lets n x p s1 s2 w
  have h1 : s1.pwr = s.pwr := by simp only [s1]; split <;> simp
  have h2 : s2.pwr = s.pwr := by simp only [s2]; split <;> simp [h1]
  split
  · simp
  · split
    · simp only [w]; split <;> simp [h2]
    · split <;> simp [h2]
@[simp] theorem scrubPatrol_pwr (h : Nat) (tag : TagRead) (s : State) : (scrubPatrol h tag s).pwr = s.pwr := by simp [scrubPatrol]
@[simp] theorem bumpInst_pwr (x g op : Nat) (s : State) : (bumpInst x g op s).pwr = s.pwr := rfl
@[simp] theorem putNib_pwr (s : State) (plane i n count : Nat) : (putNib s plane i n count).1.pwr = s.pwr := by simp [putNib]
@[simp] theorem modColl_pwr (x op g n : Nat) (f : Coll → Coll) (s : State) : (modColl x op g n f s).pwr = s.pwr := rfl
@[simp] theorem sendColl_pwr (k : Coll) (dst : Nat) (c : CData) (s : State) : (sendColl k dst c s).pwr = s.pwr := by simp [sendColl]
@[simp] theorem takeLedger_pwr (x : Nat) (cs : List (List Nat)) (s : State) : (takeLedger x cs s).pwr = s.pwr := rfl
@[simp] theorem endDigests_pwr (k : Coll) (st : Nat) (s : State) : (endDigests k st s).pwr = s.pwr := by unfold endDigests; (repeat' (first | split | dsimp only)) <;> simp
@[simp] theorem endMolt_pwr (k : Coll) (st : Nat) (s : State) : (endMolt k st s).pwr = s.pwr := by simp [endMolt]
@[simp] theorem endHub_pwr (k : Coll) (st : Nat) (s : State) : (endHub k st s).pwr = s.pwr := by simp [endHub]
@[simp] theorem writeEnd_pwr (x at_ die st received dropped : Nat) (s : State) : (writeEnd x at_ die st received dropped s).1.pwr = s.pwr := by simp [writeEnd]
@[simp] theorem endColl_pwr (k : Coll) (st : Nat) (s : State) : (endColl k st s).pwr = s.pwr := by
  unfold endColl
  dsimp only
  split
  · simp
  · split <;> simp
@[simp] theorem checkRed_pwr (x op g n : Nat) (s : State) : (checkRed x op g n s).pwr = s.pwr := by
  unfold checkRed; split
  · rfl
  · split <;> simp
@[simp] theorem tookBlock_pwr (x op g n b : Nat) (s : State) : (tookBlock x op g n b s).pwr = s.pwr := by
  unfold tookBlock
  extract_lets s1 s2
  have h1 : s1.pwr = s.pwr := by simp [s1]
  have h2 : s2.pwr = s.pwr := by
    simp only [s2]; split
    · split <;> simp [h1]
    · exact h1
  simp [h2]
@[simp] theorem redFails_pwr (x op g n st : Nat) (s : State) : (redFails x op g n st s).pwr = s.pwr := by
  unfold redFails; split
  · simp
  · split <;> simp
@[simp] theorem deliverBlock_pwr (r : RedEntry) (s : State) : (deliverBlock r s).pwr = s.pwr := by simp [deliverBlock]
@[simp] theorem putResult_pwr (k : Coll) (b : Nat) (sums nib : Bytes) (s : State) : (putResult k b sums nib s).1.pwr = s.pwr := by unfold putResult; (repeat' (first | split | dsimp only)) <;> simp
@[simp] theorem takeResults_pwr (c : CData) (x : Nat) (s : State) : (takeResults c x s).pwr = s.pwr := by
  unfold takeResults
  dsimp only
  rw [foldl_pwr]
  intro t i
  split
  · rfl
  · split
    · rfl
    · split <;> simp
@[simp] theorem shareResult_pwr (k : Coll) (r : RedEntry) (s : State) : (shareResult k r s).pwr = s.pwr := by simp [shareResult]
@[simp] theorem redAdd_pwr (x : Nat) (c : CData) (i : Nat) (s : State) : (redAdd x c i s).pwr = s.pwr := by unfold redAdd; (repeat' (first | split | dsimp only)) <;> simp
@[simp] theorem redTake_pwr (x : Nat) (c : CData) (s : State) : (redTake x c s).pwr = s.pwr := by
  unfold redTake; simp
@[simp] theorem offerOwn_pwr (f x op g n : Nat) (s : State) : (offerOwn f x op g n s).pwr = s.pwr := by
  induction f generalizing s with
  | zero => rfl
  | succ f ih =>
    unfold offerOwn
    split
    · rfl
    · split
      · simp
      · dsimp only
        split
        · simp [ih]
        · rfl
@[simp] theorem offerAll_pwr (s : State) : (offerAll s).pwr = s.pwr := by
  unfold offerAll; simp
@[simp] theorem failAll_pwr (k : Coll) (s : State) : (failAll k s).pwr = s.pwr := by simp [failAll]
@[simp] theorem startReduce_pwr (k : Coll) (a : TRef) (s : State) : (startReduce k a s).pwr = s.pwr := by simp [startReduce]
@[simp] theorem putRows_pwr (x base pitch : Nat) (rows : List (Nat × Bytes)) (s : State) : (putRows x base pitch rows s).1.pwr = s.pwr := by
  unfold putRows
  rw [foldl_fst_pwr]
  intro t r
  split <;> simp
@[simp] theorem endElems_pwr (k : Coll) (s : State) : (endElems k s).pwr = s.pwr := by
  unfold endElems
  dsimp only
  split
  · simp
  · split <;> simp
@[simp] theorem endRows_pwr (k : Coll) (s : State) : (endRows k s).pwr = s.pwr := by
  unfold endRows
  split
  · simp
  · dsimp only
    rw [endColl_pwr]
    dsimp only
    split <;> simp
@[simp] theorem endCombine_pwr (k : Coll) (s : State) : (endCombine k s).pwr = s.pwr := by
  unfold endCombine
  split
  · split
    · simp
    · dsimp only
      split <;> simp
  · simp
@[simp] theorem checkWhole_pwr (x op g n : Nat) (s : State) : (checkWhole x op g n s).pwr = s.pwr := by
  unfold checkWhole
  split
  · rfl
  · (repeat' split) <;> simp
@[simp] theorem putBytes_pwr (k : Coll) (c : CData) (s : State) : (putBytes k c s).1.pwr = s.pwr := by
  unfold putBytes
  split
  · rfl
  · split
    · simp
    · dsimp only
      rw [foldl_fst_pwr]
      intro t i
      split
      · rfl
      · simp
@[simp] theorem takePart_pwr (x : Nat) (c : CData) (s : State) : (takePart x c s).pwr = s.pwr := by
  unfold takePart
  split
  · rfl
  · extract_lets differ put s1 s2
    have h1 : put.1.pwr = s.pwr := by simp only [put]; split <;> simp
    have h2 : s1.pwr = s.pwr := by simp only [s1]; rw [modColl_pwr, h1]
    have h3 : s2.pwr = s.pwr := by simp only [s2]; split <;> simp [h2]
    split
    · simp
    · split <;> simp [h1, h3]
@[simp] theorem toAll_pwr (k : Coll) (c : CData) (s : State) : (toAll k c s).pwr = s.pwr := by
  unfold toAll; simp
@[simp] theorem toOne_pwr (k : Coll) (d : Nat) (c : CData) (s : State) : (toOne k d c s).pwr = s.pwr := by
  unfold toOne; split <;> simp
@[simp] theorem giveRows_pwr (k : Coll) (rows : List Bytes) (s : State) : (giveRows k rows s).pwr = s.pwr := by
  unfold giveRows; simp
@[simp] theorem giveKeyed_pwr (k : Coll) (rows : List (Nat × Nat × Bytes)) (s : State) : (giveKeyed k rows s).pwr = s.pwr := by
  unfold giveKeyed; simp
@[simp] theorem startAll_pwr (k : Coll) (s : State) : (startAll k s).pwr = s.pwr := by
  unfold startAll
  extract_lets a j cols row s1 t rows
  have h1 : s1.pwr = s.pwr := rfl
  split
  · split <;> simp [h1]
  · split
    · split <;> simp [h1]
    · split <;> simp [h1]
@[simp] theorem beginColl_pwr (x : Nat) (queue : Option (Nat × Nat)) (d : Bytes) (descAt die : Nat) (s : State) :
    (beginColl x queue d descAt die s).pwr = s.pwr := by
  unfold beginColl
  extract_lets g k s1
  have h1 : s1.pwr = s.pwr := by simp [s1]
  split
  · split <;> simp [h1]
  · simp [h1]
@[simp] theorem collectiveAct_pwr (q n : Nat) (b : Bytes) (s : State) : (collectiveAct q n b s).pwr = s.pwr := by
  unfold collectiveAct
  dsimp only
  split
  · simp
  · split <;> simp
@[simp] theorem hubColl_pwr (x op group root cols : Nat) (s : State) : (hubColl x op group root cols s).1.pwr = s.pwr := rfl
@[simp] theorem startLedger_pwr (x : Nat) (s : State) : (startLedger x s).pwr = s.pwr := by
  unfold startLedger; simp
@[simp] theorem startDigests_pwr (x : Nat) (ds : List (Nat × Bytes)) (s : State) : (startDigests x ds s).pwr = s.pwr := by
  unfold startDigests; simp
@[simp] theorem collectiveData_pwr (p : FjPkt) (s : State) : (collectiveData p s).pwr = s.pwr := by
  unfold collectiveData
  dsimp only
  split
  · simp
  · split
    · simp
    · (repeat' split) <;> simp
@[simp] theorem collMsgEnded_pwr (x op g n st : Nat) (s : State) : (collMsgEnded x op g n st s).pwr = s.pwr := by
  unfold collMsgEnded
  split
  · rfl
  · split
    · simp
    · extract_lets s1 s2
      have h1 : s1.pwr = s.pwr := by simp [s1]
      have h2 : s2.pwr = s.pwr := by simp only [s2]; split <;> simp [h1]
      split <;> simp [h2]
@[simp] theorem collsLoss_pwr (dev : Nat) (s : State) : (collsLoss dev s).pwr = s.pwr := by
  unfold collsLoss
  rw [foldl_pwr]
  intro t k
  split <;> simp
@[simp] theorem putGenHdr_pwr (x g : Nat) (c : Code) (s : State) : (putGenHdr x g c s).pwr = s.pwr := by simp [putGenHdr]
@[simp] theorem modGen_pwr (x g : Nat) (c : Code) (f : Gen → Gen) (s : State) : (modGen x g c f s).pwr = s.pwr := by simp [modGen]
@[simp] theorem takeSnapshot_pwr (x a : Nat) (c : Code) (s : State) : (takeSnapshot x a c s).1.pwr = s.pwr := by simp [takeSnapshot]
@[simp] theorem tryComplete_pwr (x g : Nat) (c : Code) (s : State) : (tryComplete x g c s).pwr = s.pwr := by simp [tryComplete]
@[simp] theorem parityRow_pwr (x g which rot row : Nat) (c : Code) (s : State) : (parityRow x g which rot row c s).pwr = s.pwr := by
  rw [parityRow, modGen_pwr, State.modCtx_pwr, writeMem_pwr]
@[simp] theorem parityRows_pwr (x : Nat) (s : State) : (parityRows x s).pwr = s.pwr := by
  unfold parityRows
  split
  · simp
  · rfl
@[simp] theorem sendPiece_pwr (x rot snap : Nat) (c : Code) (s : State) : (sendPiece x rot snap c s).pwr = s.pwr := by simp [sendPiece]
@[simp] theorem startRefresh_pwr (x t : Nat) (s : State) : (startRefresh x t s).pwr = s.pwr := by
  unfold startRefresh
  split
  · rfl
  · simp
@[simp] theorem pieceArrived_pwr (x : Nat) (p : Nat × Nat × Nat) (s : State) : (pieceArrived x p s).pwr = s.pwr := by
  unfold pieceArrived
  split <;> simp
@[simp] theorem modMolt_pwr (x : Nat) (f : Molt → Molt) (s : State) : (modMolt x f s).pwr = s.pwr := rfl
@[simp] theorem moltPhase_pwr (x : Nat) (ph : MoltPh) (s : State) : (moltPhase x ph s).pwr = s.pwr := by simp [moltPhase]
@[simp] theorem tryHold_pwr (x : Nat) (s : State) : (tryHold x s).pwr = s.pwr := by simp [tryHold]
@[simp] theorem announceMolt_pwr (x : Nat) (m : Molt) (s : State) : (announceMolt x m s).pwr = s.pwr := by unfold announceMolt; (repeat' (first | split | dsimp only)) <;> simp
@[simp] theorem clearLost_pwr (j : Job) (s : State) : (clearLost j s).pwr = s.pwr := by simp [clearLost]
@[simp] theorem adoptEpoch_pwr (x : Nat) (j : Job) (s : State) : (adoptEpoch x j s).pwr = s.pwr := rfl
@[simp] theorem moltHold_pwr (x : Nat) (s : State) : (moltHold x s).pwr = s.pwr := by unfold moltHold; (repeat' (first | split | dsimp only)) <;> simp
@[simp] theorem restoreSnapshot_pwr (x : Nat) (s : State) : (restoreSnapshot x s).pwr = s.pwr := by unfold restoreSnapshot; (repeat' (first | split | dsimp only)) <;> simp
@[simp] theorem endMoltWith_pwr (x st result : Nat) (s : State) : (endMoltWith x st result s).pwr = s.pwr := by simp [endMoltWith]
@[simp] theorem dropRegions_pwr (x : Nat) (s : State) : (dropRegions x s).pwr = s.pwr := by unfold dropRegions; (repeat' (first | split | dsimp only)) <;> simp
@[simp] theorem leaveJob_pwr (x : Nat) (s : State) : (leaveJob x s).pwr = s.pwr := by simp [leaveJob]
@[simp] theorem finishSwitch_pwr (x : Nat) (s : State) : (finishSwitch x s).pwr = s.pwr := by unfold finishSwitch; (repeat' (first | split | dsimp only)) <;> simp
@[simp] theorem revertMolt_pwr (x st : Nat) (s : State) : (revertMolt x st s).pwr = s.pwr := by simp [revertMolt]
@[simp] theorem failMolt_pwr (x st : Nat) (s : State) : (failMolt x st s).pwr = s.pwr := by unfold failMolt; (repeat' (first | split | dsimp only)) <;> simp
@[simp] theorem moltTimeout_pwr (x : Nat) (s : State) : (moltTimeout x s).pwr = s.pwr := by unfold moltTimeout; (repeat' (first | split | dsimp only)) <;> simp
@[simp] theorem lendSwitchWait_pwr (x : Nat) (s : State) : (lendSwitchWait x s).pwr = s.pwr := by unfold lendSwitchWait; (repeat' (first | split | dsimp only)) <;> simp
@[simp] theorem putLendStat_pwr (w st : Nat) (unc : Bool) (s : State) : (putLendStat w st unc s).pwr = s.pwr := by simp [putLendStat]
@[simp] theorem declareLends_pwr (j : Job) (s : State) : (declareLends j s).pwr = s.pwr := by simp [declareLends]
@[simp] theorem lendEvent_pwr (x w : Nat) (d : Bytes) (s : State) : (lendEvent x w d s).pwr = s.pwr := by simp [lendEvent]
@[simp] theorem convertEdge_pwr (x : Nat) (cur : Job) (d : Bytes) (s : State) : (convertEdge x cur d s).pwr = s.pwr := by unfold convertEdge; (repeat' (first | split | dsimp only)) <;> simp
@[simp] theorem convertMsg_pwr (dev : Nat) (msg : Bytes) (s : State) : (convertMsg dev msg s).1.pwr = s.pwr := by unfold convertMsg; (repeat' (first | split | dsimp only)) <;> simp
@[simp] theorem convertDue_pwr (x : Nat) (s : State) : (convertDue x s).pwr = s.pwr := by unfold convertDue; (repeat' (first | split | dsimp only)) <;> simp
@[simp] theorem convert_pwr (dev : Nat) (msg : Bytes) (s : State) : (convert dev msg s).pwr = s.pwr := by unfold convert; (repeat' (first | split | dsimp only)) <;> simp
@[simp] theorem modWindow_pwr (x w : Nat) (f : Lend → Lend) (s : State) : (modWindow x w f s).pwr = s.pwr := rfl
@[simp] theorem cellsEvent_pwr (x w : Nat) (stop unc : Bool) (s : State) : (cellsEvent x w stop unc s).pwr = s.pwr := by simp [cellsEvent]
@[simp] theorem giveCells_pwr (x w : Nat) (s : State) : (giveCells x w s).pwr = s.pwr := by unfold giveCells; (repeat' (first | split | dsimp only)) <;> simp
@[simp] theorem takeBack_pwr (x w : Nat) (s : State) : (takeBack x w s).pwr = s.pwr := by unfold takeBack; (repeat' (first | split | dsimp only)) <;> simp
@[simp] theorem cellsBoundary_pwr (x : Nat) (s : State) : (cellsBoundary x s).pwr = s.pwr := by
  unfold cellsBoundary
  split
  · rfl
  · rw [foldl_pwr]
    intro t w
    split
    · rfl
    · split
      · simp
      · split <;> simp
@[simp] theorem lendingWindowStart_pwr (x w : Nat) (s : State) : (lendingWindowStart x w s).pwr = s.pwr := by simp [lendingWindowStart]
@[simp] theorem lendEnd_pwr (x w : Nat) (s : State) : (lendEnd x w s).pwr = s.pwr := by unfold lendEnd; (repeat' (first | split | dsimp only)) <;> simp
@[simp] theorem beginLedger_pwr (x : Nat) (s : State) : (beginLedger x s).pwr = s.pwr := by
  simp [beginLedger]
@[simp] theorem openStep_pwr (q k x step : Nat) (kind : StepKind) (cap : Nat) (table : List (Nat × Int)) (s : State) :
    (openStep q k x step kind cap table s).pwr = s.pwr := by
  unfold openStep
  extract_lets c j th s1 s2 s3 s4
  have h2 : s2.pwr = s.pwr := by simp [s2, s1]
  have h3 : s3.pwr = s.pwr := by simp only [s3]; split <;> simp [h2]
  have h4 : s4.pwr = s.pwr := by simp [s4, h3]
  split <;> simp [h4]
@[simp] theorem stepOpenAct_pwr (q k : Nat) (b : Bytes) (s : State) : (stepOpenAct q k b s).pwr = s.pwr := by unfold stepOpenAct; (repeat' (first | split | dsimp only)) <;> simp
@[simp] theorem stepBarrierAct_pwr (q k : Nat) (b : Bytes) (s : State) : (stepBarrierAct q k b s).pwr = s.pwr := by unfold stepBarrierAct; (repeat' (first | split | dsimp only)) <;> simp
@[simp] theorem stepUpdateEndAct_pwr (q k : Nat) (b : Bytes) (s : State) : (stepUpdateEndAct q k b s).pwr = s.pwr := by simp [stepUpdateEndAct]
@[simp] theorem partialsHanded_pwr (x : Nat) (s : State) : (partialsHanded x s).pwr = s.pwr := by unfold partialsHanded; (repeat' (first | split | dsimp only)) <;> simp
@[simp] theorem countDrop_pwr (d why : Nat) (s : State) : (countDrop d why s).pwr = s.pwr := rfl
@[simp] theorem takeVote_pwr (p : FjPkt) (s : State) : (takeVote p s).pwr = s.pwr := by unfold takeVote; (repeat' (first | split | dsimp only)) <;> simp
@[simp] theorem commitTimeout_pwr (x : Nat) (s : State) : (commitTimeout x s).pwr = s.pwr := by simp [commitTimeout]
@[simp] theorem adaptSlot_pwr (x i : Nat) (e : SlotEnt) (s : State) : (adaptSlot x i e s).pwr = s.pwr := by simp [adaptSlot]
@[simp] theorem adaptationPass_pwr (h x : Nat) (s : State) : (adaptationPass h x s).pwr = s.pwr := by simp [adaptationPass]
@[simp] theorem ledgerEnter_pwr (x : Nat) (s : State) : (ledgerEnter x s).pwr = s.pwr := by simp [ledgerEnter]
@[simp] theorem schedSkip_pwr (x kind step : Nat) (s : State) : (schedSkip x kind step s).pwr = s.pwr := by simp [schedSkip]
@[simp] theorem ledgerEvents_pwr (x step : Nat) (o : Outc) (r : Bytes) (s : State) : (ledgerEvents x step o r s).pwr = s.pwr := by
  unfold ledgerEvents
  extract_lets j s1
  have h1 : s1.pwr = s.pwr := by
    simp only [s1]
    split
    · split
      · rfl
      · split <;> simp
    · rfl
  split
  · rfl
  · split
    · split <;> simp [h1]
    · exact h1
@[simp] theorem windowEvents_pwr (x step : Nat) (o : Outc) (s : State) : (windowEvents x step o s).pwr = s.pwr := by simp [windowEvents]
@[simp] theorem csrAnswer_pwr (r : Requester) (a st : Nat) (v : Word) (s : State) : (csrAnswer r a st v s).pwr = s.pwr := rfl
@[simp] theorem hubQDb_pwr (r : Requester) (q : Nat) (v : Word) (s : State) : (hubQDb r q v s).pwr = s.pwr := by simp [hubQDb]
@[simp] theorem doorbell_pwr (p : FjPkt) (session : Option Nat) (s : State) : (doorbell p session s).pwr = s.pwr := by unfold doorbell; (repeat' (first | split | dsimp only)) <;> simp
@[simp] theorem semaphoreDoorbell_pwr (p : FjPkt) (s : State) : (semaphoreDoorbell p s).pwr = s.pwr := by unfold semaphoreDoorbell; (repeat' (first | split | dsimp only)) <;> simp
@[simp] theorem mboxRefuse_pwr (f : MboxFrom) (op nack st : Nat) (body : Bytes) (s : State) : (mboxRefuse f op nack st body s).pwr = s.pwr := by unfold mboxRefuse; (repeat' (first | split | dsimp only)) <;> simp
@[simp] theorem postInbound_pwr (ch : Nat) (f : MboxFrom) (msg : Bytes) (session : Option Nat) (s : State) : (postInbound ch f msg session s).pwr = s.pwr := rfl
@[simp] theorem mboxWrite_pwr (f : MboxFrom) (ch : Nat) (msg : Bytes) (session : Option Nat) (s : State) : (mboxWrite f ch msg session s).pwr = s.pwr := by unfold mboxWrite; (repeat' (first | split | dsimp only)) <;> simp
@[simp] theorem mboxRead_pwr (f : MboxFrom) (ch : Nat) (s : State) : (mboxRead f ch s).pwr = s.pwr := by unfold mboxRead; (repeat' (first | split | dsimp only)) <;> simp
@[simp] theorem postReply_pwr (ch st : Nat) (cpls : Bytes) (s : State) : (postReply ch st cpls s).pwr = s.pwr := rfl
@[simp] theorem readCpl_pwr (ch : Nat) (s : State) : (readCpl ch s).pwr = s.pwr := by unfold readCpl; (repeat' (first | split | dsimp only)) <;> simp
@[simp] theorem hubMboxSend_pwr (r : Requester) (ch : Nat) (s : State) : (hubMboxSend r ch s).pwr = s.pwr := by simp [hubMboxSend]
@[simp] theorem hubMboxTake_pwr (r : Requester) (ch : Nat) (s : State) : (hubMboxTake r ch s).pwr = s.pwr := by simp [hubMboxTake]
@[simp] theorem relayOn_pwr (p : FjPkt) (dst : Nat) (use : MsgUse) (s : State) : (relayOn p dst use s).pwr = s.pwr := by simp [relayOn]
@[simp] theorem relay_pwr (p : FjPkt) (s : State) : (relay p s).pwr = s.pwr := by simp [relay]
@[simp] theorem latchSec_pwr (d : Nat) (s : State) : (latchSec d s).pwr = s.pwr := rfl
@[simp] theorem writeHub_pwr (r : Requester) (o : Nat) (v : Word) (s : State) : (writeHub r o v s).pwr = s.pwr := by simp [writeHub]
@[simp] theorem writeFw_pwr (o : Nat) (v : Word) (s : State) : (writeFw o v s).pwr = s.pwr := by simp [writeFw]
@[simp] theorem writeLnk_pwr (d o : Nat) (v : Word) (s : State) : (writeLnk d o v s).pwr = s.pwr := by simp [writeLnk]
@[simp] theorem writeMemReg_pwr (h o : Nat) (v : Word) (s : State) : (writeMemReg h o v s).pwr = s.pwr := by simp [writeMemReg]
@[simp] theorem rejectWrite_pwr (s : State) (p : FjPkt) (code : Nat) : (rejectWrite s p code).pwr = s.pwr := by simp [rejectWrite]
@[simp] theorem readReq_pwr (p : FjPkt) (s : State) : (readReq p s).pwr = s.pwr := by unfold readReq; (repeat' (first | split | dsimp only)) <;> simp
@[simp] theorem endReadmit_pwr (dev result : Nat) (s : State) : (endReadmit dev result s).pwr = s.pwr := by unfold endReadmit; (repeat' (first | split | dsimp only)) <;> simp
@[simp] theorem startReadmit_pwr (dev inc : Nat) (s : State) : (startReadmit dev inc s).pwr = s.pwr := by simp [startReadmit]
@[simp] theorem fromLost_pwr (p : FjPkt) (inc : Nat) (s : State) : (fromLost p inc s).pwr = s.pwr := by simp [fromLost]
@[simp] theorem heard_pwr (dev : Nat) (s : State) : (heard dev s).pwr = s.pwr := rfl
@[simp] theorem openRetry_pwr (k : FlowKey) (s : State) : (openRetry k s).pwr = s.pwr := by simp [openRetry]
@[simp] theorem openingWait_pwr (k : FlowKey) (s : State) : (openingWait k s).pwr = s.pwr := by simp [openingWait]
@[simp] theorem peerSuspect_pwr (dev : Nat) (s : State) : (peerSuspect dev s).pwr = s.pwr := by simp [peerSuspect]
@[simp] theorem readmissionRequest_pwr (session dev : Nat) (s : State) : (readmissionRequest session dev s).pwr = s.pwr := by simp [readmissionRequest]
@[simp] theorem heartbeatTimer_pwr (dev : Nat) (s : State) : (heartbeatTimer dev s).pwr = s.pwr := by simp [heartbeatTimer]
@[simp] theorem nackResend_pwr (k : FlowKey) (seq : Nat) (s : State) : (nackResend k seq s).pwr = s.pwr := by simp [nackResend]
@[simp] theorem retxTimeout_pwr (k : FlowKey) (psn : Nat) (s : State) : (retxTimeout k psn s).pwr = s.pwr := by simp [retxTimeout]
@[simp] theorem ackTimer_pwr (k : FlowKey) (s : State) : (ackTimer k s).pwr = s.pwr := by simp [ackTimer]
@[simp] theorem rateIncrease_pwr (k : FlowKey) (s : State) : (rateIncrease k s).pwr = s.pwr := by simp [rateIncrease]
@[simp] theorem countArrival_pwr (p : FjPkt) (k : FlowKey) (s : State) : (countArrival p k s).pwr = s.pwr := by simp [countArrival]
@[simp] theorem noteCe_pwr (p : FjPkt) (ce : Bool) (l : Nat) (s : State) : (noteCe p ce l s).pwr = s.pwr := by simp [noteCe]
@[simp] theorem noteSa_pwr (l : Nat) (fr : Frame) (s : State) : (noteSa l fr s).pwr = s.pwr := by unfold noteSa; (repeat' (first | split | dsimp only)) <;> simp
@[simp] theorem sendPfc_pwr (l pri quanta : Nat) (s : State) : (sendPfc l pri quanta s).pwr = s.pwr := rfl
@[simp] theorem maybeXoff_pwr (l pri : Nat) (s : State) : (maybeXoff l pri s).pwr = s.pwr := by simp [maybeXoff]
@[simp] theorem modPri_pwr (l pri : Nat) (f : Pri → Pri) (s : State) : (modPri l pri f s).pwr = s.pwr := rfl
@[simp] theorem unpauseAll_pwr (l : Nat) (pris : List Nat) (s : State) : (unpauseAll l pris s).pwr = s.pwr := by
  unfold unpauseAll
  rw [foldl_pwr _ (fun t e => sendFrame_pwr _ _ _ _), foldl_pwr _ (fun t i => modPri_pwr _ _ _ _)]
@[simp] theorem unpause_pwr (l pri : Nat) (s : State) : (unpause l pri s).pwr = s.pwr := by simp [unpause]
@[simp] theorem pauseExpiry_pwr (l pri : Nat) (s : State) : (pauseExpiry l pri s).pwr = s.pwr := by unfold pauseExpiry; split <;> simp
@[simp] theorem pfcXon_pwr (l pri : Nat) (s : State) : (pfcXon l pri s).pwr = s.pwr := by simp [pfcXon]
@[simp] theorem pfcRefresh_pwr (l pri : Nat) (s : State) : (pfcRefresh l pri s).pwr = s.pwr := by simp [pfcRefresh]
@[simp] theorem pfcWdog_pwr (l pri : Nat) (s : State) : (pfcWdog l pri s).pwr = s.pwr := by simp [pfcWdog]
@[simp] theorem arpRequest_pwr (l ip mac : Nat) (s : State) : (arpRequest l ip mac s).pwr = s.pwr := by simp [arpRequest]
@[simp] theorem neighborSolicitation_pwr (l ip mac : Nat) (s : State) : (neighborSolicitation l ip mac s).pwr = s.pwr := by simp [neighborSolicitation]
@[simp] theorem echoRequest_pwr (l : Nat) (v6 : Bool) (ip : Nat) (data : Bytes) (s : State) : (echoRequest l v6 ip data s).pwr = s.pwr := by simp [echoRequest]
@[simp] theorem installSa_pwr (l an key : Nat) (s : State) : (installSa l an key s).pwr = s.pwr := rfl
@[simp] theorem sendMka_pwr (l : Nat) (fields : List Nat) (s : State) : (sendMka l fields s).pwr = s.pwr := by simp [sendMka]
@[simp] theorem newSak_pwr (l : Nat) (s : State) : (newSak l s).pwr = s.pwr := by simp [newSak]
@[simp] theorem mkaFrame_pwr (l : Nat) (m : MkaMsg) (s : State) : (mkaFrame l m s).pwr = s.pwr := by unfold mkaFrame; (repeat' (first | split | dsimp only)) <;> simp
@[simp] theorem sakDistribution_pwr (l : Nat) (s : State) : (sakDistribution l s).pwr = s.pwr := by simp [sakDistribution]
@[simp] theorem saAgeOut_pwr (l : Nat) (s : State) : (saAgeOut l s).pwr = s.pwr := by simp [saAgeOut]
@[simp] theorem mkaHello_pwr (l : Nat) (s : State) : (mkaHello l s).pwr = s.pwr := by simp [mkaHello]
@[simp] theorem ptpTo_pwr (d : Nat) (st : PtpSt) (s : State) : (ptpTo d st s).pwr = s.pwr := by simp [ptpTo]
@[simp] theorem announcePtp_pwr (m : PtpMsg) (d : Nat) (s : State) : (announcePtp m d s).pwr = s.pwr := by simp [announcePtp]
@[simp] theorem applySync_pwr (d : Nat) (t1 : Int) (t2 : Nat) (s : State) : (applySync d t1 t2 s).pwr = s.pwr := by simp [applySync]
@[simp] theorem syncPtp_pwr (m : PtpMsg) (d : Nat) (s : State) : (syncPtp m d s).pwr = s.pwr := by simp [syncPtp]
@[simp] theorem followUpPtp_pwr (m : PtpMsg) (d : Nat) (s : State) : (followUpPtp m d s).pwr = s.pwr := by unfold followUpPtp; (repeat' (first | split | dsimp only)) <;> simp
@[simp] theorem delayRespPtp_pwr (m : PtpMsg) (d : Nat) (s : State) : (delayRespPtp m d s).pwr = s.pwr := by simp [delayRespPtp]
@[simp] theorem enterHoldover_pwr (d : Nat) (s : State) : (enterHoldover d s).pwr = s.pwr := by simp [enterHoldover]
@[simp] theorem ptpFault_pwr (d : Nat) (s : State) : (ptpFault d s).pwr = s.pwr := by simp [ptpFault]
@[simp] theorem ppsEdge_pwr (ns : Nat) (s : State) : (ppsEdge ns s).pwr = s.pwr := by simp [ppsEdge]
@[simp] theorem ppsLoss_pwr (s : State) : (ppsLoss s).pwr = s.pwr := by simp [ppsLoss]
@[simp] theorem lossOfSignal_pwr (lane : Nat) (fec : Bool) (s : State) : (lossOfSignal lane fec s).pwr = s.pwr := by unfold lossOfSignal; (repeat' (first | split | dsimp only)) <;> simp
@[simp] theorem noteUnfinished_pwr (s : State) : (noteUnfinished s).pwr = s.pwr := by simp [noteUnfinished]
@[simp] theorem recalDone_pwr (d drift : Nat) (s : State) : (recalDone d drift s).pwr = s.pwr := by simp [recalDone]
@[simp] theorem modComp_pwr (c : Nat) (f : Comp → Comp) (s : State) : (modComp c f s).pwr = s.pwr := rfl
@[simp] theorem hubBeat_pwr (core : Nat) (s : State) : (hubBeat core s).pwr = s.pwr := by simp [hubBeat]
@[simp] theorem restartQsched_pwr (s : State) : (restartQsched s).pwr = s.pwr := by simp [restartQsched]
@[simp] theorem restartLine_pwr (x : Nat) (s : State) : (restartLine x s).pwr = s.pwr := by unfold restartLine; (repeat' (first | split | dsimp only)) <;> simp
@[simp] theorem restartWork_pwr (c : Nat) (s : State) : (restartWork c s).pwr = s.pwr := by unfold restartWork; (repeat' (first | split | dsimp only)) <;> simp
@[simp] theorem saveHealth_pwr (s : State) : (saveHealth s).pwr = s.pwr := rfl
@[simp] theorem healthDecay_pwr (s : State) : (healthDecay s).pwr = s.pwr := rfl
@[simp] theorem cmdResult_pwr (n : Nat) (s : State) : (cmdResult n s).pwr = s.pwr := rfl
@[simp] theorem selfTestDone_pwr (pass : Bool) (s : State) : (selfTestDone pass s).pwr = s.pwr := by simp [selfTestDone]
@[simp] theorem headTimeout_pwr (q : Nat) (b : Bytes) (s : State) : (headTimeout q b s).pwr = s.pwr := rfl
@[simp] theorem modProgram_pwr (q k : Nat) (f : Program → Program) (s : State) : (modProgram q k f s).pwr = s.pwr := rfl
@[simp] theorem stopLaunch_pwr (q k : Nat) (s : State) : (stopLaunch q k s).pwr = s.pwr := by simp [stopLaunch]
@[simp] theorem stopCollective_pwr (q k : Nat) (s : State) : (stopCollective q k s).pwr = s.pwr := by unfold stopCollective; (repeat' (first | split | dsimp only)) <;> simp
@[simp] theorem stopCommand_pwr (q : Nat) (c : Cmd) (s : State) : (stopCommand q c s).pwr = s.pwr := by unfold stopCommand; (repeat' (first | split | dsimp only)) <;> simp
@[simp] theorem noteHung_pwr (q k op progress rearms : Nat) (s : State) : (noteHung q k op progress rearms s).pwr = s.pwr := by simp [noteHung]
@[simp] theorem commandTimeout_pwr (q k : Nat) (s : State) : (commandTimeout q k s).pwr = s.pwr := by unfold commandTimeout; (repeat' (first | split | dsimp only)) <;> simp
@[simp] theorem sampleCell_pwr (c trigger seq time : Nat) (s : State) : (sampleCell c trigger seq time s).pwr = s.pwr := by simp [sampleCell]
@[simp] theorem sampleDie_pwr (d trigger : Nat) (cs : List Nat) (s : State) : (sampleDie d trigger cs s).pwr = s.pwr := by simp [sampleDie]
@[simp] theorem sampleCells_pwr (trigger : Nat) (cs : List Nat) (s : State) : (sampleCells trigger cs s).pwr = s.pwr := by simp [sampleCells]
@[simp] theorem crashRequest_pwr (r : Requester) (cells : List Nat) (s : State) : (crashRequest r cells s).pwr = s.pwr := by simp [crashRequest]
@[simp] theorem crashSummary_pwr (s : State) : (crashSummary s).pwr = s.pwr := by unfold crashSummary; (repeat' (first | split | dsimp only)) <;> simp
@[simp] theorem noteReset_pwr (domain die unit trigger : Nat) (cell : Option Nat) (x : Nat) (s : State) : (noteReset domain die unit trigger cell x s).pwr = s.pwr := by simp [noteReset]
@[simp] theorem dropOne_pwr (c : Nat) (s : State) : (dropOne c s).pwr = s.pwr := rfl
@[simp] theorem dropHalves_pwr (c : Nat) (s : State) : (dropHalves c s).pwr = s.pwr := rfl
@[simp] theorem dropCell_pwr (c : Nat) (s : State) : (dropCell c s).pwr = s.pwr := by simp [dropCell]
@[simp] theorem killProgram_pwr (c : Nat) (p : Program) (s : State) : (killProgram c p s).pwr = s.pwr := by simp [killProgram]
@[simp] theorem parkCell_pwr (c : Nat) (s : State) : (parkCell c s).pwr = s.pwr := by unfold parkCell; (repeat' (first | split | dsimp only)) <;> simp
@[simp] theorem cellReset_pwr (c trigger : Nat) (s : State) : (cellReset c trigger s).pwr = s.pwr := by simp [cellReset]
@[simp] theorem dieReset_pwr (d : Nat) (s : State) : (dieReset d s).pwr = s.pwr := by simp [dieReset]
@[simp] theorem redrive_pwr (c : Nat) (s : State) : (redrive c s).pwr = s.pwr := by simp [redrive]
@[simp] theorem holderResetEnd_pwr (h : Nat) (s : State) : (holderResetEnd h s).pwr = s.pwr := by simp [holderResetEnd]
@[simp] theorem putSample_pwr (d : Nat) (old : Sample) (new : Option Sample) (s : State) : (putSample d old new s).pwr = s.pwr := by simp [putSample]
@[simp] theorem sampleDone_pwr (e : Sample) (s : State) : (sampleDone e s).pwr = s.pwr := by simp [sampleDone]
@[simp] theorem soldierCheck_pwr (d : Nat) (result : Bytes) (s : State) : (soldierCheck d result s).pwr = s.pwr := by unfold soldierCheck; (repeat' (first | split | dsimp only)) <;> simp
@[simp] theorem setpointHold_pwr (s : State) : (setpointHold s).pwr = s.pwr := by unfold setpointHold; (repeat' (first | split | dsimp only)) <;> simp
@[simp] theorem endStage_pwr (next : Stage) (s : State) : (endStage next s).pwr = s.pwr := rfl
@[simp] theorem startComp_pwr (c k : Nat) (s : State) : (startComp c k s).pwr = s.pwr := rfl
@[simp] theorem fenceDies_pwr (s : State) : (fenceDies s).pwr = s.pwr := by simp [fenceDies]
@[simp] theorem newPort_pwr (p : Nat × Nat) (s : State) : (newPort p s).pwr = s.pwr := rfl
@[simp] theorem setPtpLane_pwr (s : State) : (setPtpLane s).pwr = s.pwr := by simp [setPtpLane]
@[simp] theorem trainEnd_pwr (s : State) : (trainEnd s).pwr = s.pwr := by simp [trainEnd]
@[simp] theorem calLinks_pwr (s : State) : (calLinks s).pwr = s.pwr := by simp [calLinks]
@[simp] theorem linkUp_pwr (l : Nat) (s : State) : (linkUp l s).pwr = s.pwr := by simp [linkUp]
@[simp] theorem trainWait_pwr (s : State) : (trainWait s).pwr = s.pwr := by simp [trainWait]
@[simp] theorem putJob_pwr (j : Job) (s : State) : (putJob j s).pwr = s.pwr := by simp [putJob]
@[simp] theorem fetchVerify_pwr (s : State) : (fetchVerify s).pwr = s.pwr := by simp [fetchVerify]
@[simp] theorem storeAmend_pwr (b : Bytes) (s : State) : (storeAmend b s).pwr = s.pwr := by simp [storeAmend]
@[simp] theorem amendAnswer_pwr (path : ReqPath) (st : Nat) (s : State) : (amendAnswer path st s).pwr = s.pwr := by unfold amendAnswer; (repeat' (first | split | dsimp only)) <;> simp
@[simp] theorem applySection_pwr (j : Job) (m : MoltAsk) (s : State) : (applySection j m s).pwr = s.pwr := by unfold applySection; (repeat' (first | split | dsimp only)) <;> simp
@[simp] theorem applyQueues_pwr (old new : Conf) (s : State) : (applyQueues old new s).pwr = s.pwr := by simp [applyQueues]
@[simp] theorem ownershipChange_pwr (session : Nat) (rsa mldsa sigOld sigNew : Bytes) (s : State) : (ownershipChange session rsa mldsa sigOld sigNew s).pwr = s.pwr := by unfold ownershipChange; (repeat' (first | split | dsimp only)) <;> simp
@[simp] theorem cakInstall_pwr (session n : Nat) (key : Bytes) (s : State) : (cakInstall session n key s).pwr = s.pwr := by simp [cakInstall]
@[simp] theorem debugGrant_pwr (session kind addr len : Nat) (s : State) : (debugGrant session kind addr len s).pwr = s.pwr := by unfold debugGrant; (repeat' (first | split | dsimp only)) <;> simp
@[simp] theorem takeSpdm_pwr (p : SpdmPath) (s : State) : (takeSpdm p s).pwr = s.pwr := by unfold takeSpdm; (repeat' (first | split | dsimp only)) <;> simp
@[simp] theorem spdmSend_pwr (p : SpdmPath) (code : Nat) (fields : List Nat) (data : Bytes) (s : State) : (spdmSend p code fields data s).pwr = s.pwr := by unfold spdmSend; (repeat' (first | split | dsimp only)) <;> simp
@[simp] theorem spdmReply_pwr (p : SpdmPath) (code : Nat) (fields : List Nat) (data : Bytes) (s : State) : (spdmReply p code fields data s).pwr = s.pwr := by simp [spdmReply]
@[simp] theorem spdmError_pwr (p : SpdmPath) (why : Nat) (s : State) : (spdmError p why s).pwr = s.pwr := by simp [spdmError]
@[simp] theorem getVersion_pwr (p : SpdmPath) (s : State) : (getVersion p s).pwr = s.pwr := by simp [getVersion]
@[simp] theorem getCapabilities_pwr (p : SpdmPath) (uflags : Nat) (s : State) : (getCapabilities p uflags s).pwr = s.pwr := by simp [getCapabilities]
@[simp] theorem negotiate_pwr (p : SpdmPath) (offer : Bytes) (s : State) : (negotiate p offer s).pwr = s.pwr := by simp [negotiate]
@[simp] theorem finish_pwr (sid : Nat) (rsa mldsa proof : Bytes) (s : State) : (finish sid rsa mldsa proof s).pwr = s.pwr := by unfold finish; (repeat' (first | split | dsimp only)) <;> simp
@[simp] theorem keyUpdate_pwr (sid op : Nat) (s : State) : (keyUpdate sid op s).pwr = s.pwr := by unfold keyUpdate; (repeat' (first | split | dsimp only)) <;> simp
@[simp] theorem sessionTimeout_pwr (sid : Nat) (s : State) : (sessionTimeout sid s).pwr = s.pwr := rfl
@[simp] theorem askChain_pwr (dev off : Nat) (s : State) : (askChain dev off s).pwr = s.pwr := by simp [askChain]
@[simp] theorem readmitMeas_pwr (dev step inc : Nat) (m : Bytes) (s : State) : (readmitMeas dev step inc m s).pwr = s.pwr := by unfold readmitMeas; (repeat' (first | split | dsimp only)) <;> simp
@[simp] theorem readmitStep_pwr (dev step inc : Nat) (m : Bytes) (s : State) : (readmitStep dev step inc m s).pwr = s.pwr := by unfold readmitStep; (repeat' (first | split | dsimp only)) <;> simp
@[simp] theorem spdmMessage_pwr (path : SpdmPath) (msg : Bytes) (s : State) : (spdmMessage path msg s).pwr = s.pwr := by unfold spdmMessage; (repeat' (first | split | dsimp only)) <;> simp
end Sys2Proof.Machine
end

