-- ==== Sys2Proof/Laws/Tiles.lean ====
section
/-! SUPPORT. Laws/Tiles.lean: what writes of device memory leave as it was, and that no tile changes the power shell. -/
namespace Sys2Proof.Machine

/-! ### Writes -/

/-- A byte outside the bytes written is as before, and the canonical form stays. -/
theorem memGet_writeMem_outside (s : State) (a : Nat) (bs : Bytes) (i : Nat) (h : memWf memFill s.mem = true)
    (hi : i < a ∨ a + bs.length ≤ i) : memGet memFill (writeMem s a bs).1.mem i = memGet memFill s.mem i := by
  have one : memGet memFill (poke s a bs).mem i = memGet memFill s.mem i := memGet_memWrite_outside memFill s.mem a bs i h hi
  let F : State → Nat → State := fun t p =>
    { poke t (max a (128 * p)) ((bs.drop (max a (128 * p) - a)).take (min (a + bs.length) (128 * p + 128) - max a (128 * p))) with
      poison := t.poison.filter (fun k => !(k = p && decide (max a (128 * p) = 128 * p) && decide (min (a + bs.length) (128 * p + 128) = 128 * p + 128))) }
  have part : ∀ (l : List Nat) (t : State), memWf memFill t.mem = true → memGet memFill (l.foldl F t).mem i = memGet memFill t.mem i := by
    intro l
    induction l with
    | nil => intro t _; rfl
    | cons p l ih =>
      intro t ht
      rw [List.foldl_cons, ih (F t p) (poke_wf t _ _ ht)]
      refine memGet_memWrite_outside memFill t.mem _ _ i ht ?_
      simp only [List.length_take, List.length_drop]
      omega
  unfold writeMem
  dsimp only
  split
  · simpa using one
  · split
    · exact one
    · exact part _ _ h

/-- Every interval of the joined writes lies in the writes. -/
theorem joinWrites_outside (l : List (Nat × Bytes)) (i : Nat) (h : ∀ w ∈ l, i < w.1 ∨ w.1 + w.2.length ≤ i) :
    ∀ w ∈ joinWrites l, i < w.1 ∨ w.1 + w.2.length ≤ i := by
  induction l with
  | nil => simp [joinWrites]
  | cons w l ih =>
    obtain ⟨a, b⟩ := w
    have h0 := h (a, b) (by simp)
    have ih := ih (fun w hw => h w (List.mem_cons_of_mem _ hw))
    unfold joinWrites
    cases hj : joinWrites l with
    | nil => simpa using h0
    | cons u t =>
      obtain ⟨a2, b2⟩ := u
      rw [hj] at ih
      have h1 := ih (a2, b2) (by simp)
      simp only at h0 h1
      dsimp only
      split
      · intro w hw
        rcases List.mem_cons.mp hw with rfl | hw
        · simp only [List.length_append]; omega
        · exact ih w (List.mem_cons_of_mem _ hw)
      · intro w hw
        rcases List.mem_cons.mp hw with rfl | hw
        · exact h0
        · exact ih w hw

/-- A byte outside every interval written is as before, and the canonical form stays. -/
theorem memGet_writeList_outside (s : State) (l : List (Nat × Bytes)) (i : Nat) (h : memWf memFill s.mem = true)
    (hi : ∀ w ∈ l, i < w.1 ∨ w.1 + w.2.length ≤ i) :
    memWf memFill (writeList s l).1.mem = true ∧ memGet memFill (writeList s l).1.mem i = memGet memFill s.mem i := by
  have hj := joinWrites_outside (l.filter (fun w => !w.2.isEmpty)) i (fun w hw => hi w (List.mem_of_mem_filter hw))
  unfold writeList
  generalize joinWrites (l.filter (fun w => !w.2.isEmpty)) = ws at hj
  have key : ∀ (ws : List (Nat × Bytes)) (u : State × Bool), (∀ w ∈ ws, i < w.1 ∨ w.1 + w.2.length ≤ i) → memWf memFill u.1.mem = true →
      memWf memFill (ws.foldl (fun t w => let r := writeMem t.1 w.1 w.2; (r.1, t.2 && r.2)) u).1.mem = true ∧
      memGet memFill (ws.foldl (fun t w => let r := writeMem t.1 w.1 w.2; (r.1, t.2 && r.2)) u).1.mem i = memGet memFill u.1.mem i := by
    intro ws
    induction ws with
    | nil => intro u _ hu; exact ⟨hu, rfl⟩
    | cons w ws ih =>
      intro u hw hu
      have hu2 := writeMem_wf u.1 w.1 w.2 hu
      obtain ⟨a1, a2⟩ := ih ((writeMem u.1 w.1 w.2).1, u.2 && (writeMem u.1 w.1 w.2).2) (fun v hv => hw v (List.mem_cons_of_mem _ hv)) hu2
      exact ⟨a1, a2.trans (memGet_writeMem_outside u.1 w.1 w.2 i hu (hw w (by simp)))⟩
  exact key ws (s, true) hj h

/-! ### The power shell -/

/-- What every step of a counted fold keeps, the fold keeps. -/
theorem loop_keep {σ γ : Type} (n : Nat) (f : Nat → σ → σ) (g : σ → γ) (h : ∀ i u, g (f i u) = g u) (u : σ) : g (loop n f u) = g u :=
  foldl_keep _ g (fun u i => h i u) _ u

@[simp] theorem writeList_pwr (s : State) (l : List (Nat × Bytes)) : (writeList s l).1.pwr = s.pwr := by
  unfold writeList
  exact foldl_keep _ (fun u : State × Bool => u.1.pwr) (fun u w => by simp) _ (s, true)
theorem overOutputs_keep {σ γ : Type} (m n : Nat) (f : Nat → Nat → σ → σ) (g : σ → γ) (h : ∀ i j u, g (f i j u) = g u) (u : σ) :
    g (overOutputs m n f u) = g u :=
  loop_keep m _ g (fun i u => loop_keep n _ g (fun j u => h i j u) u) u
@[simp] theorem accumulate_pwr (mode : Mode) (f : MatF) (a b : TRef) (k : Nat) (js : List Nat) (s : State) :
    (accumulate mode f a b k js s).pwr = s.pwr := by
  unfold accumulate
  split
  · rfl
  · dsimp only
    rw [stickGroup_pwr]
    refine overOutputs_keep _ _ _ (fun u : State × BitVec 32 => u.1.pwr) ?_ (s, (0 : BitVec 32))
    intro i j u
    cases mode
    · simp only [addChunks]; split <;> simp
    · simp [addIeee]
    · simp [addKwatil]
@[simp] theorem soldierSample_pwr (x k : Nat) (t : Tile) (d : Bytes) (f : MatF) (a b : TRef) (s : State) (g : Group) (j cc : Nat) (u : State) :
    (soldierSample x k t d f a b s g j cc u).pwr = u.pwr := by
  unfold soldierSample
  dsimp only
  split
  · simp
  · split <;> simp
@[simp] theorem takeSample_pwr (o : Option Nat) (f : Nat → State → State) (u : State) (h : ∀ c, (f c u).pwr = u.pwr) : (takeSample o f u).pwr = u.pwr := by
  unfold takeSample
  split
  · rfl
  · exact h _
theorem soldierChunk_pwr (x k : Nat) (t : Tile) (d : Bytes) (f : MatF) (a b : TRef) (s : State) (g : Group) (u : State) (j : Nat) :
    (soldierChunk x k t d f a b s g u j).pwr = u.pwr :=
  takeSample_pwr _ _ _ (fun cc => soldierSample_pwr x k t d f a b s g j cc u)
@[simp] theorem soldierMatrix_pwr (x k : Nat) (t : Tile) (d : Bytes) (f : MatF) (a b : TRef) (js : List Nat) (s : State) :
    (soldierMatrix x k t d f a b js s).pwr = s.pwr := by
  unfold soldierMatrix
  split
  · rfl
  · refine foldl_keep _ State.pwr ?_ _ _
    intro u j
    exact soldierChunk_pwr x k t d f a b s _ u j
@[simp] theorem drainGroup_pwr (mode : Mode) (x : Nat) (d : Bytes) (f : MatF) (c : Nat) (s : State) : (drainGroup mode x d f c s).s.pwr = s.pwr := by
  unfold drainGroup
  split <;> simp
@[simp] theorem mergePair_pwr (c : Nat) (grid : Bool) (slot : Nat) (s : State) : (mergePair c grid slot s).pwr = s.pwr := by
  unfold mergePair
  split
  · dsimp only
    rw [dropGroup_pwr, stickGroup_pwr]
    refine loop_keep _ _ (fun u : State × BitVec 32 => u.1.pwr) ?_ _
    intro i u
    split <;> simp
  · rfl
@[simp] theorem subTile_pwr (mode : Mode) (x c : Nat) (t : Tile) (d : Bytes) (s : State) : (subTile mode x c t d s).s.pwr = s.pwr := by
  unfold subTile
  extract_lets f paired js s1 s2
  split
  · rfl
  · extract_lets s3 s4 s5 s6 s7
    have h1 : s1.pwr = s.pwr := by simp only [s1]; split <;> simp
    have h2 : s2.pwr = s.pwr := by simp only [s2]; split <;> simp [h1]
    have h3 : s3.pwr = s.pwr := by simp only [s3]; split <;> simp [h2]
    have h4 : s4.pwr = s.pwr := by simp only [s4]; split <;> simp [h3]
    have h5 : s5.pwr = s.pwr := by simp [s5, h4]
    have h6 : s6.pwr = s.pwr := by simp only [s6]; split <;> simp [h5]
    have h7 : s7.pwr = s.pwr := by simp only [s7]; split <;> simp [h6]
    split
    · exact h7
    · rw [drainGroup_pwr]; split <;> simp [h7]
@[simp] theorem matEff_pwr (c x : Nat) (t : Tile) (s : State) : (matEff c x t s).s.pwr = s.pwr := by
  unfold matEff
  dsimp only
  split
  · rfl
  · split <;> simp
@[simp] theorem scanEff_pwr (c x : Nat) (t : Tile) (s : State) : (scanEff c x t s).s.pwr = s.pwr := by
  unfold scanEff; dsimp only; split <;> simp
@[simp] theorem spillEff_pwr (c x : Nat) (t : Tile) (s : State) : (spillEff c x t s).s.pwr = s.pwr := by
  unfold spillEff; dsimp only; (repeat' split) <;> simp
@[simp] theorem fillEff_pwr (c x : Nat) (t : Tile) (s : State) : (fillEff c x t s).s.pwr = s.pwr := by
  unfold fillEff
  extract_lets d mode f g src raw differs s1 s2 r
  split
  · rfl
  · have h1 : s1.pwr = s.pwr := by simp only [s1]; split <;> simp
    have h2 : s2.pwr = s.pwr := by simp only [s2]; split <;> simp [h1]
    split
    · rfl
    · rw [stickGroup_pwr]
      refine (loop_keep _ _ (fun u : State × BitVec 32 => u.1.pwr) ?_ _).trans h2
      intro i u
      split <;> simp
@[simp] theorem accDrainEff_pwr (c x : Nat) (t : Tile) (s : State) : (accDrainEff c x t s).s.pwr = s.pwr := by
  unfold accDrainEff; dsimp only; split
  · rfl
  · split <;> simp
@[simp] theorem vecEff_pwr (c x : Nat) (t : Tile) (s : State) : (vecEff c x t s).s.pwr = s.pwr := by
  unfold vecEff; dsimp only; split <;> simp
@[simp] theorem copyEff_pwr (c x : Nat) (t : Tile) (s : State) : (copyEff c x t s).s.pwr = s.pwr := by
  unfold copyEff
  dsimp only
  split
  · rfl
  · split
    · dsimp only; split <;> simp
    · simp [wrote]
@[simp] theorem layoutEff_pwr (c x : Nat) (t : Tile) (s : State) : (layoutEff c x t s).s.pwr = s.pwr := by
  unfold layoutEff; dsimp only; split
  · rfl
  · split <;> simp [wrote]
@[simp] theorem winEff_pwr (c x : Nat) (t : Tile) (s : State) : (winEff c x t s).s.pwr = s.pwr := by
  unfold winEff; dsimp only; split <;> simp [wrote]
@[simp] theorem gatherEff_pwr (c x : Nat) (t : Tile) (s : State) : (gatherEff c x t s).s.pwr = s.pwr := by
  unfold gatherEff; dsimp only; split <;> simp [wrote]
@[simp] theorem scatterEff_pwr (c x : Nat) (t : Tile) (s : State) : (scatterEff c x t s).s.pwr = s.pwr := by
  unfold scatterEff
  dsimp only
  split
  · rfl
  · simp only [wrote]
    refine (foldl_keep _ (fun u : State × Bool => u.1.pwr) ?_ _ _).trans ?_
    · intro u e; split <;> simp
    · simp
@[simp] theorem addEntries_pwr (s : State) (l : List (Nat × Nat)) : (addEntries s l).1.pwr = s.pwr := by
  unfold addEntries
  refine foldl_keep _ (fun u : State × Bool × Bool => u.1.pwr) ?_ _ _
  intro u e
  dsimp only
  unfold addEntry
  split <;> simp
@[simp] theorem saddEff_pwr (c x : Nat) (t : Tile) (s : State) : (saddEff c x t s).s.pwr = s.pwr := by
  unfold saddEff
  dsimp only
  split
  · rfl
  · split
    · simp
    · simp only [modTile_pwr]
      refine (foldl_keep _ State.pwr ?_ _ _).trans ?_
      · intro u e; simp
      · simp
@[simp] theorem saddApply_pwr (h c t : Nat) (s : State) : (saddApply h c t s).pwr = s.pwr := by
  unfold saddApply; split
  · rfl
  · simp
@[simp] theorem coreEff_pwr (c x : Nat) (t : Tile) (s : State) : (coreEff c x t s).s.pwr = s.pwr := by
  simp [coreEff]
/-- The frame of an op keeps what its effect keeps of the power shell. -/
theorem applyTile_pwr (plan : State → Nat → Nat → Tile → Option Plan) (eff : Nat → Nat → Tile → State → Done) (op c : Nat) (hits : List EccHit)
    (s : State) (h : ∀ x t u, (eff c x t u).s.pwr = u.pwr) : (applyTile plan eff op c hits s).pwr = s.pwr := by
  unfold applyTile
  split
  · rfl
  · dsimp only
    split
    · rfl
    · simp only [modTile_pwr]
      split
      · simp
      · split
        · simp
        split
        · refine (foldl_keep _ State.pwr ?_ _ _).trans ?_
          · intro u i; simp
          · simp
        · rw [h]; simp

end Sys2Proof.Machine
end

