-- ==== Sys2Proof/Laws/Bytes.lean ====
section
/-! SUPPORT. Laws/Bytes.lean: lengths of byte strings, and the bytes that stand where bytes were written. -/
namespace Sys2Proof.Machine

@[simp] theorem le_length (n x : Nat) : (le n x).length = n := by
  induction n generalizing x with
  | zero => rfl
  | succ n ih => simp [le, ih]

@[simp] theorem zeros_length (n : Nat) : (zeros n).length = n := by simp [zeros]

/-- Bytes read are the bytes that stand at the addresses. -/
theorem memRead_eq (d : Byte) (m : List Host.Cell) (a n : Nat) : memRead d m a n = (List.range n).map (fun i => memGet d m (a + i)) := by
  induction n generalizing a with
  | zero => rfl
  | succ n ih =>
    rw [memRead, ih, List.range_succ_eq_map]
    simp [Nat.add_assoc, Nat.add_comm 1]

/-- Bytes written are read back. -/
theorem memRead_memWrite (d : Byte) (m : List Host.Cell) (a : Nat) (bs : Bytes) (h : memWf d m = true) :
    memRead d (memWrite d m a bs) a bs.length = bs := by
  rw [memRead_eq]
  apply List.ext_getElem
  · simp
  · intro i h1 h2
    simp [memGet_memWrite_inside d m a bs i h h2]

/-- A write that meets no poisoned pair in part stands whole. -/
theorem writeMem_whole (s : State) (a : Nat) (bs : Bytes) (h : partPoison s a bs.length = []) :
    (writeMem s a bs).2 = true ∧ (writeMem s a bs).1.mem = memWrite memFill s.mem a bs := by
  unfold writeMem; dsimp only; split
  · exact ⟨rfl, rfl⟩
  · rw [if_pos (by simp [h])]; exact ⟨rfl, rfl⟩

/-- A round of SHA-512 keeps the number of working variables. -/
theorem shaRound_length (v : List (BitVec 64)) (k : BitVec 64) : (shaRound v k).length = v.length := by
  unfold shaRound; split <;> rfl

/-- A digest has 64 bytes. -/
theorem sha512_length (msg : Bytes) : (sha512 msg).length = 64 := by
  have hr : ∀ (l : List (BitVec 64)) (v : List (BitVec 64)), (l.foldl shaRound v).length = v.length := by
    intro l
    induction l with
    | nil => intro v; rfl
    | cons a l ih => intro v; rw [List.foldl_cons, ih, shaRound_length]
  have hb : ∀ (h : List (BitVec 64)) (b : Bytes), (shaBlock h b).length = h.length := by
    intro h b
    unfold shaBlock
    dsimp only
    rw [List.length_zipWith, hr, min_self]
  have hf : ∀ (l : List Bytes) (v : List (BitVec 64)), (l.foldl shaBlock v).length = v.length := by
    intro l
    induction l with
    | nil => intro v; rfl
    | cons a l ih => intro v; rw [List.foldl_cons, ih, hb]
  have hi : shaInit.length = 8 := by decide +kernel
  have he : ∀ (l : List (BitVec 64)), ((l.map (fun x => be 8 x.toNat)).flatten).length = 8 * l.length := by
    intro l
    induction l with
    | nil => rfl
    | cons a l ih => simp only [List.map_cons, List.flatten_cons, List.length_append, ih]; simp [be]; omega
  unfold sha512
  dsimp only
  rw [he, hf, hi]

end Sys2Proof.Machine
end

