-- ==== Sys2Proof/Laws/Engines.lean ====
section
/-! SUPPORT. Laws/Engines.lean: engine jobs and shard loads leave the power shell as it is. -/
namespace Sys2Proof.Machine

@[simp] theorem endJob_pwr (h : Nat) (j : EngJob) (e : JobEnd) : (endJob h j e).pwr = e.s.pwr := by simp [endJob]

/-- A read through a run keeps what its continuation keeps. -/
theorem Run.read_pwr (u : Run) (a n : Nat) (k : Nat → Run) (h : ∀ v, (k v).s.pwr = u.s.pwr) : (u.read a n k).s.pwr = u.s.pwr := by
  unfold Run.read; split
  · rfl
  · split
    · rfl
    · exact h _
@[simp] theorem Run.write_pwr (u : Run) (a : Nat) (b : Bytes) : (u.write a b).s.pwr = u.s.pwr := by
  unfold Run.write; split <;> simp
/-- A code is read through a run. -/
theorem Run.code_pwr (u : Run) (r : Stream) (i : Nat) (k : Nat → Run) (h : ∀ v, (k v).s.pwr = u.s.pwr) : (u.code r i k).s.pwr = u.s.pwr := by
  unfold Run.code; split
  · exact u.read_pwr _ _ _ (fun _ => u.read_pwr _ _ _ (fun _ => h _))
  · split
    · exact u.read_pwr _ _ _ (fun _ => h _)
    · exact u.read_pwr _ _ _ h
/-- A value is read through a run. -/
theorem Run.value_pwr (u : Run) (e : Elem) (r : Stream) (i : Nat) (k : Val → Run) (h : ∀ v, (k v).s.pwr = u.s.pwr) : (u.value e r i k).s.pwr = u.s.pwr := by
  unfold Run.value; split
  · exact u.read_pwr _ _ _ (fun _ => h _)
  · split
    · exact u.code_pwr _ _ _ (fun _ => u.read_pwr _ _ _ (fun _ => h _))
    · split
      · exact u.code_pwr _ _ _ (fun _ => u.read_pwr _ _ _ (fun _ => u.read_pwr _ _ _ (fun _ => h _)))
      · exact u.code_pwr _ _ _ (fun _ => h _)
@[simp] theorem Run.put40_pwr (u : Run) (r : Stream) (i c : Nat) : (u.put40 r i c).s.pwr = u.s.pwr := by simp [Run.put40]
@[simp] theorem Run.wadd_pwr (u : Run) (e : Elem) (r : Stream) (i v : Nat) : (u.wadd e r i v).s.pwr = u.s.pwr := by
  unfold Run.wadd; exact u.code_pwr _ _ _ (fun _ => by simp)
@[simp] theorem Run.stat_pwr (u : Run) (k v : Nat) : (u.stat k v).s.pwr = u.s.pwr := rfl
@[simp] theorem Run.store_pwr (u : Run) (e : Elem) (r : Stream) (i v : Nat) : (u.store e r i v).s.pwr = u.s.pwr := by
  unfold Run.store; split
  · simp
  · split
    · rfl
    · dsimp only; split <;> simp
@[simp] theorem Run.op_pwr (u : Run) (e : Elem) (i : Nat) (o : MicroOp) : (u.op e i o).s.pwr = u.s.pwr := by
  unfold Run.op; split
  · rfl
  · dsimp only; split
    · split
      · exact u.value_pwr _ _ _ _ (fun _ => rfl)
      · rfl
    · split <;> simp
    · rfl
    · simp
    · split <;> simp
    · rfl
@[simp] theorem Run.block_pwr (u : Run) (e : Elem) (r : Stream) (b : Nat) : (u.block e r b).s.pwr = u.s.pwr := by
  unfold Run.block; dsimp only; split
  · rfl
  · split
    · refine u.read_pwr _ _ _ (fun v => ?_)
      split <;> split <;> simp
    · split <;> split <;> simp
/-- A fold over a run keeps what each step keeps. -/
theorem Run.foldl_pwr {α : Type} (f : Run → α → Run) (h : ∀ u a, (f u a).s.pwr = u.s.pwr) (l : List α) (u : Run) : (l.foldl f u).s.pwr = u.s.pwr := by
  induction l generalizing u with
  | nil => rfl
  | cons a l ih => rw [List.foldl_cons, ih, h]
/-- The hold of a block is read through a run. -/
theorem Run.held_pwr (u : Run) (e : Elem) (b : Nat) (k : Bool → Run) (h : ∀ v, (k v).s.pwr = u.s.pwr) : (u.held e b k).s.pwr = u.s.pwr := by
  unfold Run.held
  generalize e.l.filter (fun r => r.gbs && r.reads) = l
  generalize false = f
  induction l generalizing f with
  | nil => exact h f
  | cons r l ih => rw [List.foldr_cons]; exact u.read_pwr _ _ _ (fun _ => ih _)
@[simp] theorem elemStep_pwr (e : Elem) (i : Nat) (u : Run) : (elemStep e i u).s.pwr = u.s.pwr := by
  unfold elemStep; split
  · rfl
  · dsimp only; split
    · refine u.held_pwr _ _ _ (fun v => ?_)
      split
      · rfl
      · have h1 : (e.prog.foldl (fun (w : Run) o => w.op e i o) { u with regs := List.replicate 16 0 }).s.pwr = u.s.pwr :=
          Run.foldl_pwr _ (fun u o => u.op_pwr e i o) _ _
        split
        · rw [Run.foldl_pwr _ (fun u r => u.block_pwr e r _), h1]
        · exact h1
    · simp
@[simp] theorem elemsFrom_pwr (e : Elem) (n i : Nat) (u : Run) : (elemsFrom e n i u).1.s.pwr = u.s.pwr := by
  induction n generalizing i u with
  | zero => rfl
  | succ n ih =>
    unfold elemsFrom; dsimp only; split
    · simp
    · rw [ih]; simp
@[simp] theorem sampleBlock_pwr (h x : Nat) (d : Bytes) (l : List Stream) (ck rf step i : Nat) (u : State) :
    (sampleBlock h x d l ck rf step i u).pwr = u.pwr := by
  unfold sampleBlock; dsimp only; split <;> simp
@[simp] theorem soldierBlock_pwr (h x : Nat) (d : Bytes) (l : List Stream) (ck rf step : Nat) (u : State) (i : Nat) :
    (soldierBlock h x d l ck rf step u i).pwr = u.pwr := by
  unfold soldierBlock; exact takeSample_pwr _ _ _ (fun _ => sampleBlock_pwr _ _ _ _ _ _ _ _ _)
@[simp] theorem soldierUpdate_pwr (h x : Nat) (d : Bytes) (l : List Stream) (done : Nat) (held : List Nat) (s : State) :
    (soldierUpdate h x d l done held s).pwr = s.pwr := by
  unfold soldierUpdate; split
  · rfl
  · simp
@[simp] theorem runElems_pwr (h : Nat) (j : EngJob) (l : List Stream) (q : QCtl) (words : List Nat) (s : State) :
    (runElems h j l q words s).s.pwr = s.pwr := by
  unfold runElems; dsimp only; split <;> simp
@[simp] theorem elemRun_pwr (h : Nat) (j : EngJob) (l : List Stream) (q : QCtl) (b : Bytes) (s : State) : (elemRun h j l q b s).s.pwr = s.pwr := by
  unfold elemRun; dsimp only; split
  · rfl
  · split
    · rfl
    · split <;> simp
@[simp] theorem runDigest_pwr (j : EngJob) (l : List Stream) (s : State) : (runDigest j l s).s.pwr = s.pwr := by
  unfold runDigest; dsimp only; split
  · simp
  · split
    · simp
    · split <;> simp
@[simp] theorem crcFrom_pwr (base count : Nat) (want out : Option Nat) (n k : Nat) (s : State) : (crcFrom base count want out n k s).s.pwr = s.pwr := by
  induction n generalizing k s with
  | zero => rfl
  | succ n ih =>
    unfold crcFrom; dsimp only
    repeat' (first | split | simp [ih])
@[simp] theorem runCrc_pwr (j : EngJob) (l : List Stream) (s : State) : (runCrc j l s).s.pwr = s.pwr := by
  unfold runCrc; split <;> simp
@[simp] theorem writeRun_pwr (s : State) (a : Nat) (bs : Bytes) (n total : Nat) : (writeRun s a bs n total).s.pwr = s.pwr := by
  unfold writeRun; dsimp only; split <;> simp
@[simp] theorem runParity_pwr (j : EngJob) (l : List Stream) (par : Bytes) (s : State) : (runParity j l par s).s.pwr = s.pwr := by
  unfold runParity; split
  · rfl
  · dsimp only; rw [writeRun_pwr]; split <;> simp
@[simp] theorem runZero_pwr (j : EngJob) (l : List Stream) (s : State) : (runZero j l s).s.pwr = s.pwr := by
  unfold runZero; split
  · rfl
  · dsimp only; split <;> simp [runZero.zeroBytes]
@[simp] theorem gatherFrom_pwr (x src idx dst len rows n i : Nat) (f : Bool) (s : State) :
    (gatherFrom x src idx dst len rows n i f s).s.pwr = s.pwr := by
  induction n generalizing i f s with
  | zero => rfl
  | succ n ih =>
    unfold gatherFrom; dsimp only; split
    · simp
    · split
      · simp
      · split
        · simp
        · rw [ih]; simp
@[simp] theorem runGather_pwr (h : Nat) (j : EngJob) (l : List Stream) (words : List Nat) (s : State) : (runGather h j l words s).s.pwr = s.pwr := by
  unfold runGather; split
  · dsimp only; split <;> simp
  · rfl
@[simp] theorem endLoad_pwr (h st fail : Nat) (s : State) : (endLoad h st fail s).pwr = s.pwr := by
  unfold endLoad; split <;> simp
@[simp] theorem wholeShard_pwr (h : Nat) (s : State) : (wholeShard h s).pwr = s.pwr := by
  unfold wholeShard; repeat' (first | split | dsimp only | simp)
@[simp] theorem askAt_pwr (h i p : Nat) (v : ShardLoad) (s : State) : (askAt h i p v s).1.pwr = s.pwr := by
  unfold askAt; dsimp only; split
  · split <;> simp
  · simp
@[simp] theorem askChunk_pwr (n h i : Nat) (p : Option Nat) (s : State) : (askChunk n h i p s).pwr = s.pwr := by
  induction n generalizing p s with
  | zero => rfl
  | succ n ih =>
    unfold askChunk
    repeat' (first | split | dsimp only | simp [ih])
@[simp] theorem fillLoad_pwr (n h : Nat) (s : State) : (fillLoad n h s).pwr = s.pwr := by
  induction n generalizing s with
  | zero => rfl
  | succ n ih => unfold fillLoad; repeat' (first | split | dsimp only | simp [ih])
@[simp] theorem pushLoad_pwr (h : Nat) (s : State) : (pushLoad h s).pwr = s.pwr := by
  unfold pushLoad; dsimp only; split
  · split <;> simp
  · simp
@[simp] theorem askRestore_pwr (n h a : Nat) (s : State) : (askRestore n h a s).pwr = s.pwr := by
  induction n generalizing s with
  | zero => rfl
  | succ n ih =>
    unfold askRestore
    repeat' (first | split | dsimp only | simp [ih])
theorem shardRecheck_pwr (go : Nat → Nat → State → State) (hg : ∀ h a t, (go h a t).pwr = t.pwr) (h i : Nat) (s : State) :
    (shardRecheck go h i s).pwr = s.pwr := by
  unfold shardRecheck
  repeat' (first | split | dsimp only | simp [shardRecheck.bad, hg])
@[simp] theorem runMigrate_pwr (h : Nat) (j : EngJob) (l : List Stream) (par : Bytes) (s : State) : (runMigrate h j l par s).pwr = s.pwr := by
  unfold runMigrate; split
  · dsimp only; split <;> simp
  · simp

end Sys2Proof.Machine
end

