-- ==== Sys2Proof/Laws/Ends.lean ====
section
/-! SUPPORT. Laws/Ends.lean: molts, the ends of messages and the packets of Fjorum leave the power shell as it is. -/
namespace Sys2Proof.Machine

@[simp] theorem startAgree_pwr (x : Nat) (s : State) : (startAgree x s).pwr = s.pwr := by simp [startAgree]
@[simp] theorem checkMolt_pwr (x : Nat) (s : State) : (checkMolt x s).pwr = s.pwr := by
  unfold checkMolt
  generalize verifyFails s x = v
  dsimp only
  repeat' (first | split | simp)
@[simp] theorem moltCast_pwr (x cols : Nat) (data : State → Option Bytes) (s : State) : (moltCast x cols data s).pwr = s.pwr := by
  unfold moltCast; dsimp only
  repeat' (first | split | dsimp only | simp)
@[simp] theorem castHdr_pwr (x : Nat) (s : State) : (castHdr x s).pwr = s.pwr := by
  unfold castHdr; dsimp only
  repeat' (first | split | simp)
@[simp] theorem startVerify_pwr (x : Nat) (s : State) : (startVerify x s).pwr = s.pwr := by
  unfold startVerify; dsimp only; rw [moltCast_pwr]
  split <;> simp
@[simp] theorem startParity_pwr (x : Nat) (s : State) : (startParity x s).pwr = s.pwr := by simp [startParity]
@[simp] theorem moveSlot_pwr (src : State) (x i f : Nat) (j : Job) (a b : SlotEnt) (s : State) : (moveSlot src x i f j a b s).pwr = s.pwr := by
  unfold moveSlot; dsimp only; split
  · refine foldl_pwr _ (fun t p => ?_) _ _
    split
    · rfl
    · split <;> simp
  · split
    · refine foldl_pwr _ (fun t p => ?_) _ _
      split <;> simp
    · split <;> simp
@[simp] theorem placeChunk_pwr (x off : Nat) (bs : Bytes) (lost : Nat) (s : State) : (placeChunk x off bs lost s).pwr = s.pwr := by
  unfold placeChunk; dsimp only; split
  · refine foldl_pwr _ (fun t p => ?_) _ _
    repeat' (first | split | simp)
  · rfl
@[simp] theorem healed_pwr (h : Nat) (v : ShardLoad) (s : State) : (rebuilt.healed h v s).pwr = s.pwr := by
  unfold rebuilt.healed; split <;> simp
@[simp] theorem rebuilt_pwr (x : Nat) (s : State) : (rebuilt x s).pwr = s.pwr := by
  unfold rebuilt; split
  · simp
  · refine (foldl_pwr _ (fun t e => ?_) _ _).trans ?_
    · extract_lets t1
      have h1 : t1.pwr = t.pwr := by
        simp only [t1]; split
        · split <;> simp
        · rfl
      refine (foldl_pwr _ (fun u r => ?_) _ _).trans h1
      dsimp only; split <;> simp [restored]
    · simp
@[simp] theorem driveRebuild_pwr (n x : Nat) (s : State) : (driveRebuild n x s).pwr = s.pwr := by
  induction n generalizing s with
  | zero => rfl
  | succ n ih =>
    unfold driveRebuild; dsimp only
    split
    · simp
    · split
      · simp
      · split
        · rw [ih]; simp
        · refine foldl_pwr _ (fun t e => ?_) _ _
          split <;> simp
@[simp] theorem rebuildArrived_pwr (x i : Nat) (s : State) : (rebuildArrived x i s).pwr = s.pwr := by
  unfold rebuildArrived; dsimp only
  repeat' (first | split | simp)
@[simp] theorem moltArrived_pwr (x a n : Nat) (s : State) : (moltArrived x a n s).pwr = s.pwr := by
  unfold moltArrived; dsimp only; split <;> simp
@[simp] theorem moltMsgEnded_pwr (x slot st : Nat) (s : State) : (moltMsgEnded x slot st s).pwr = s.pwr := by simp [moltMsgEnded]
@[simp] theorem rebuildEnded_pwr (x st : Nat) (s : State) : (rebuildEnded x st s).pwr = s.pwr := by unfold rebuildEnded; split <;> simp
@[simp] theorem moveStages_pwr (x : Nat) (o n : Job) (s : State) : (moveStages x o n s).pwr = s.pwr := by
  unfold moveStages
  refine foldl_pwr _ (fun t e => ?_) _ _
  dsimp only; split
  · split <;> simp
  · split <;> simp
@[simp] theorem rebuildOwn_pwr (x : Nat) (j : Job) (s : State) : (rebuildOwn x j s).pwr = s.pwr := by simp [rebuildOwn]
@[simp] theorem heal_pwr (x a n : Nat) (s : State) : (heal x a n s).pwr = s.pwr := by simp [heal]
@[simp] theorem startLoad_pwr (h : Nat) (s : State) : (startLoad h s).pwr = s.pwr := by
  unfold startLoad; split
  · rfl
  · split <;> simp
@[simp] theorem startRestore_pwr (h a : Nat) (s : State) : (startRestore h a s).pwr = s.pwr := by
  unfold startRestore; split
  · rfl
  · split <;> simp
@[simp] theorem mendTransfer_pwr (x : Nat) (o : Job) (s : State) : (mendTransfer x o s).pwr = s.pwr := by
  unfold mendTransfer; extract_lets c code
  split
  · rfl
  · split <;> simp
@[simp] theorem moltTransfer_pwr (x : Nat) (s : State) : (moltTransfer x s).pwr = s.pwr := by
  unfold moltTransfer; dsimp only; split
  · split
    · rfl
    · simp only [checkMolt_pwr, castHdr_pwr, mendTransfer_pwr, moveStages_pwr]
      rw [foldl_pwr _ (fun t e => moveSlot_pwr _ _ _ _ _ _ _ _)]; simp
  · rfl
@[simp] theorem recoverRestore_pwr (x : Nat) (s : State) : (recoverRestore x s).pwr = s.pwr := by
  unfold recoverRestore; dsimp only; split
  · split
    · rfl
    · split
      · simp
      · split
        · rfl
        · split
          · simp
          · simp only [driveRebuild_pwr, castHdr_pwr, modMolt_pwr, mendTransfer_pwr]
            rw [foldl_pwr _ (fun u e => ?_)]
            · simp
            · repeat' (first | split | simp)
  · rfl
@[simp] theorem moltAgreement_pwr (x : Nat) (s : State) : (moltAgreement x s).pwr = s.pwr := by
  unfold moltAgreement; dsimp only
  repeat' (first | split | simp)
@[simp] theorem migrateEnded_pwr (h st : Nat) (s : State) : (migrateEnded h st s).pwr = s.pwr := by
  unfold migrateEnded; repeat' (first | split | simp)
@[simp] theorem chunkFailed_pwr (h i st : Nat) (s : State) : (chunkFailed h i st s).pwr = s.pwr := by
  unfold chunkFailed; repeat' (first | split | dsimp only | simp)
@[simp] theorem chunkArrived_pwr (h i : Nat) (s : State) : (chunkArrived h i s).pwr = s.pwr := by
  unfold chunkArrived; repeat' (first | split | dsimp only | simp)
@[simp] theorem restoreFailed_pwr (h a st : Nat) (s : State) : (restoreFailed h a st s).pwr = s.pwr := by
  unfold restoreFailed; split <;> simp
@[simp] theorem restoreArrived_pwr (h a : Nat) (s : State) : (restoreArrived h a s).pwr = s.pwr := by
  unfold restoreArrived; repeat' (first | split | simp)
@[simp] theorem deliverOne_pwr (u : MsgUse) (st : Nat) (s : State) : (deliverOne u st s).pwr = s.pwr := by
  unfold deliverOne; repeat' (first | split | simp)
/-- What the ends of messages bring about leaves the power shell as it is. -/
@[simp] theorem deliver_pwr (n : Nat) (s : State) : (deliver n s).pwr = s.pwr := by
  induction n generalizing s with
  | zero => rfl
  | succ n ih => unfold deliver; split <;> simp [ih]
@[simp] theorem writeDelivered_pwr (x a n : Nat) (s : State) : (writeDelivered x a n s).pwr = s.pwr := by
  unfold writeDelivered; repeat' (first | split | simp)
@[simp] theorem peerDown_pwr (dev : Nat) (s : State) : (peerDown dev s).pwr = s.pwr := by
  unfold peerDown; split
  · rfl
  · dsimp only
    rw [foldl_pwr _ (fun t e => foldl_pwr _ (fun u r => by simp) _ _), foldl_pwr _ (fun t e => ?_), foldl_pwr _ (fun t c => by simp),
      foldl_pwr _ (fun t x => by simp)]
    · simp
    · split
      · exact foldl_pwr _ (fun u q => by simp) _ _
      · rfl

/-- A command that may send answers what the ends of its messages leave of its effect. -/
theorem net_deliver (f : State → State) (s t : State) (h : s.Serving) (ht : f s = t) (hp : t.pwr = s.pwr) : net f s = .next (deliver 65536 t) :=
  serving_of _ s _ h (by rw [ht]) (by simp [hp])

/-- Putting a packet on the wire ends no message. -/
@[simp] theorem wire_ended (s : State) (path : Nat) (p : FjPkt) : (wire s path p).ended = s.ended := by
  unfold wire
  split
  · rfl
  · show (sendFrame _ _ _ _).ended = _
    unfold sendFrame leave
    dsimp only
    repeat' (first | split | rfl)
@[simp] theorem sendNack_ended (s : State) (p : FjPkt) (c : Nat) : (sendNack s p c).ended = s.ended := wire_ended _ _ _
@[simp] theorem sendBare_ended (s : State) (k : FlowKey) (ty : Nat) (ext payload : Bytes) : (sendBare s k ty ext payload).ended = s.ended := wire_ended _ _ _

/-- What a key list holds after a key was put. -/
theorem getKey_putKey {α β : Type} [DecidableEq α] (l : List (α × β)) (k j : α) (v : β) :
    getKey (putKey l k v) j = if j = k then some v else getKey l j := by
  unfold getKey putKey
  split
  · rename_i h
    induction l with
    | nil => simp at h
    | cons e l ih =>
      by_cases he : e.1 = k
      · by_cases hj : j = k
        · subst hj; simp [he]
        · rw [if_neg hj]
          have hke : ¬ k = j := Ne.symm hj
          have hej : ¬ e.1 = j := by rw [he]; exact hke
          rw [List.map_cons, if_pos he, List.find?_cons_of_neg (by simpa using hke), List.find?_cons_of_neg (by simpa using hej)]
          congr 1
          clear ih h
          induction l with
          | nil => rfl
          | cons d l ih =>
            by_cases hd : d.1 = k
            · have hdj : ¬ d.1 = j := by rw [hd]; exact hke
              rw [List.map_cons, if_pos hd, List.find?_cons_of_neg (by simpa using hke), List.find?_cons_of_neg (by simpa using hdj)]
              exact ih
            · rw [List.map_cons, if_neg hd]
              by_cases hdj : d.1 = j
              · rw [List.find?_cons_of_pos (by simpa using hdj), List.find?_cons_of_pos (by simpa using hdj)]
              · rw [List.find?_cons_of_neg (by simpa using hdj), List.find?_cons_of_neg (by simpa using hdj)]
                exact ih
      · rw [List.map_cons, if_neg he]
        have h' : (l.any fun e => decide (e.1 = k)) = true := by simpa [he] using h
        by_cases hej : e.1 = j
        · have : ¬ j = k := by rw [← hej]; exact he
          simp [hej, this]
        · rw [List.find?_cons_of_neg (by simpa using hej), ih h', List.find?_cons_of_neg (by simpa using hej)]
  · rename_i h
    simp only [List.any_eq_true, decide_eq_true_eq, not_exists, not_and] at h
    rw [List.find?_append]
    by_cases hj : j = k
    · subst hj
      have : l.find? (fun e => decide (e.1 = j)) = none := by
        rw [List.find?_eq_none]; intro e he; simpa using h e he
      simp [this]
    · rw [if_neg hj]
      have : ¬ k = j := Ne.symm hj
      simp [this]

/-- The sending flow after one was put. -/
theorem sndFlow_putSnd (s : State) (k j : FlowKey) (f : SndFlow) : sndFlow (putSnd s k f) j = if j = k then f else sndFlow s j := by
  show (getKey (putKey s.snd k f) j).getD {} = _
  rw [getKey_putKey]
  split <;> rfl

/-- A command that needs the rails answers its effect when the power state stays. -/
theorem powered_of (f : State → State) (s t : State) (h : s.pwr.st.isDark = false) (ht : f s = t) (hp : t.pwr.st = s.pwr.st) : powered f s = .next t := by
  rw [powered_lit s _ h, ht]
  rw [ht, hp]; exact h
/-- A packet of a peer keeps the power shell when its effect does. -/
theorem fromPeer_pwr (p : FjPkt) (f : State → State) (h : ∀ t, (f t).pwr = t.pwr) (s : State) : (fromPeer p f s).pwr = s.pwr := by
  unfold fromPeer; split <;> simp [h]
@[simp] theorem retire_pwr (k : FlowKey) (low : Nat) (sack : List Nat) (s : State) : (retire k low sack s).1.pwr = s.pwr := rfl
@[simp] theorem release_pwr (n : Nat) (k : FlowKey) (s : State) : (release n k s).pwr = s.pwr := by
  induction n generalizing s with
  | zero => rfl
  | succ n ih => unfold release; dsimp only; split <;> simp [ih]
@[simp] theorem dataArrives_pwr (p : FjPkt) (s : State) : (dataArrives p s).pwr = s.pwr := by
  unfold dataArrives; dsimp only
  repeat' (first | split | simp)
@[simp] theorem packetArrives_pwr (b : Bytes) (ce : Bool) (l : Nat) (s : State) : (packetArrives b ce l s).pwr = s.pwr := by
  unfold packetArrives; split
  · simp
  · split
    · simp
    · split
      · rfl
      · refine (fromPeer_pwr _ _ (fun t => ?_) _).trans (by simp)
        dsimp only; split
        · simp
        · split
          · simp
          · split
            · split <;> simp
            · split <;> simp
@[simp] theorem movePaths_pwr (l why : Nat) (s : State) : (movePaths l why s).pwr = s.pwr := by
  unfold movePaths
  refine foldl_pwr _ (fun t e => ?_) _ _
  dsimp only
  repeat' (first | split | simp)
@[simp] theorem mkaLifeExpiry_pwr (l : Nat) (s : State) : (mkaLifeExpiry l s).pwr = s.pwr := by
  unfold mkaLifeExpiry; split
  · rfl
  · dsimp only; split <;> simp
@[simp] theorem portDown_pwr (l : Nat) (s : State) : (portDown l s).pwr = s.pwr := by
  unfold portDown; split
  · rfl
  · dsimp only; split <;> simp
@[simp] theorem pfcFrame_pwr (l mask : Nat) (q : List Nat) (s : State) : (pfcFrame l mask q s).pwr = s.pwr := by
  unfold pfcFrame; split
  · rfl
  · dsimp only
    rw [unpauseAll_pwr]
    exact foldl_pwr _ (fun t i => modPri_pwr _ _ _ _) _ _

@[simp] theorem dropPorts_pwr (d : Nat) (s : State) : (dropPorts d s).pwr = s.pwr := by
  unfold dropPorts
  exact foldl_pwr _ (fun t l => by simp) _ _
@[simp] theorem isolate_pwr (s : State) : (isolate s).pwr = s.pwr := by
  unfold isolate
  extract_lets ball lost t
  have h : t.pwr = s.pwr := foldl_pwr _ (fun u d => by simp) _ _
  rw [foldl_pwr _ (fun u d => dropPorts_pwr d u)]
  split <;> simp [h]
@[simp] theorem fabricLinkDown_pwr (a b : Nat) (s : State) : (fabricLinkDown a b s).pwr = s.pwr := by
  unfold fabricLinkDown
  split
  · rfl
  · simp
end Sys2Proof.Machine
end

