-- ==== Sys2Proof/Laws/Rest.lean ====
section
/-! SUPPORT. Laws/Rest.lean: what the frames of commands answer in general, and what the operations of power, firmware, resets, boot, molts and
security keep. -/
namespace Sys2Proof.Machine

/-! ## What the frames of commands answer -/

/-- A serving command answers its effect, settled. -/
theorem serving_settle (f : State → State) (s t : State) (h : s.Serving) (ht : f s = t) : serving f s = .next t.settle := by
  show Host.Outcome.next (if s.pwr.st = .on then _ else s).settle = _
  rw [if_pos (show s.pwr.st = .on from h), ht]

/-- A powered command answers its effect, settled. -/
theorem powered_settle (f : State → State) (s t : State) (h : s.pwr.st.isDark = false) (ht : f s = t) : powered f s = .next t.settle := by
  show Host.Outcome.next (if s.pwr.st.isDark then s else f s).settle = _
  rw [if_neg (by simp [h]), ht]

/-- A command that may send answers what the ends of its messages leave, settled. -/
theorem net_settle (f : State → State) (s t : State) (h : s.Serving) (ht : f s = t) : net f s = .next (deliver 65536 t).settle := by
  show Host.Outcome.next (if s.pwr.st = .on then _ else s).settle = _
  rw [if_pos (show s.pwr.st = .on from h)]; dsimp only; rw [ht]

/-- A serving command whose effect leaves the rails on answers it. -/
theorem serving_lit_of (f : State → State) (s t : State) (h : s.Serving) (ht : f s = t) (hp : t.pwr.st.isDark = false) : serving f s = .next t := by
  rw [serving_on s f h (by rw [ht]; exact hp), ht]

/-- A powered command whose effect leaves the rails on answers it. -/
theorem powered_lit_of (f : State → State) (s t : State) (h : s.pwr.st.isDark = false) (ht : f s = t) (hp : t.pwr.st.isDark = false) : powered f s = .next t := by
  rw [powered_lit s f h (by rw [ht]; exact hp), ht]

/-- A pin row whose effect takes the rails off answers it dark. -/
theorem always_dark (f : State → State) (s : State) (h : (f s).pwr.st.isDark = true) : always f s = .next (f s).dark := by
  show Host.Outcome.next (f s).settle = _
  unfold State.settle; rw [if_pos h]

/-- A projection that each turn of a fold keeps is kept by the fold. -/
theorem foldl_proj {α β} (P : State → α) (f : State → β → State) (h : ∀ t x, P (f t x) = P t) (l : List β) (s : State) : P (l.foldl f s) = P s := by
  induction l generalizing s with
  | nil => rfl
  | cons a l ih => rw [List.foldl_cons, ih, h]

/-! ## Power and reset -/

/-- The rails are on in service, in Pupa mode and during a start. -/
theorem isDark_false {p : PwrSt} (h : p.isDark = false) : p = .on ∨ p = .pupa ∨ p = .starting := by
  cases p <;> simp_all [PwrSt.isDark]

/-- Losing the input takes the rails off. -/
theorem inputLost_lit (s : State) (h : s.pwr.st.isDark = false) : inputLost s = railsOff none s := by
  unfold inputLost; rw [if_neg]; cases hp : s.pwr.st <;> simp_all [PwrSt.isDark]

/-- A shutdown takes the rails off. -/
theorem shutDown_lit (n : Nat) (s : State) (h : s.pwr.st.isDark = false) : shutDown n s = railsOff (some n) s := by
  unfold shutDown; rw [if_neg]; cases hp : s.pwr.st <;> simp_all [PwrSt.isDark]

/-- A device warm reset starts BOOT_FUSE with no volatile memory left and the flash as it was (R429). -/
theorem warmReset_fields (u : State) (h : u.pwr.st.isDark = false) : (warmReset u).pwr.st = .starting ∧ (warmReset u).boot.stage = .fuse ∧ (warmReset u).mem = [] ∧ (warmReset u).flash = u.flash ∧ (warmReset u).ended = [] := by
  have hw : (u.pwr.st = .on || u.pwr.st = .pupa || u.pwr.st = .starting) = true := by
    rcases isDark_false h with h | h | h <;> rw [h] <;> decide
  unfold warmReset; rw [if_pos hw]
  refine ⟨rfl, rfl, rfl, ?_, rfl⟩
  show (noteUnfinished u).flash = u.flash
  unfold noteUnfinished; split <;> rfl

/-! ## Sensors -/

/-- The step line after a change of one. -/
theorem sl_modSl_ite (s : State) (x y : Nat) (f : StepLine → StepLine) : (s.modSl x f).sl y = if y = x then f (s.sl x) else s.sl y := by
  show ((s.modCtx x _).ctx y).sl = _
  rw [State.ctx_modCtx]; split <;> rfl

/-- A reading changes one sensor of one die. -/
theorem readSensor_die (s : State) (d i : Nat) (temp : Int) (e : Nat) : (readSensor d i temp s).die e =
    (s.modDie d (fun k => { k with sensors := k.sensors.modify i (fun q => if q.stale then q else { q with valid := true, temp := temp }) })).die e := by
  unfold readSensor
  dsimp only; rw [foldl_proj (fun t => t.die e) _ (by intros; rfl)]

/-- A reading leaves the power shell as it is. -/
theorem readSensor_pwr (s : State) (d i : Nat) (temp : Int) : (readSensor d i temp s).pwr = s.pwr := by
  unfold readSensor
  dsimp only; rw [foldl_proj (fun t => t.pwr) _ (by intros; rfl)]; try rfl

/-- A reading leaves the boot state as it is. -/
theorem readSensor_boot (s : State) (d i : Nat) (temp : Int) : (readSensor d i temp s).boot = s.boot := by
  unfold readSensor
  dsimp only; rw [foldl_proj (fun t => t.boot) _ (by intros; rfl)]; try rfl

/-- Noting the caps changes step lines only. -/
theorem noteCaps_frame (s : State) : (noteCaps s).pwr = s.pwr ∧ (noteCaps s).mem = s.mem ∧ (noteCaps s).hub = s.hub := by
  unfold noteCaps
  have : ∀ (l : List Nat) (t : State), (l.foldl (fun t x => t.modSl x (fun l => { l with pcap := l.pcap ||| BitVec.ofNat 8 (pcapNow t) })) t).pwr = t.pwr ∧
      (l.foldl (fun t x => t.modSl x (fun l => { l with pcap := l.pcap ||| BitVec.ofNat 8 (pcapNow t) })) t).mem = t.mem ∧
      (l.foldl (fun t x => t.modSl x (fun l => { l with pcap := l.pcap ||| BitVec.ofNat 8 (pcapNow t) })) t).hub = t.hub := by
    intro l
    induction l with
    | nil => intro t; exact ⟨rfl, rfl, rfl⟩
    | cons a l ih => intro t; rw [List.foldl_cons]; obtain ⟨a, b, c⟩ := ih (t.modSl a (fun l => { l with pcap := l.pcap ||| BitVec.ofNat 8 (pcapNow t) })); exact ⟨a.trans rfl, b.trans rfl, c.trans rfl⟩
  exact this _ _

/-- A gating event counts and is noted with its clock. -/
theorem gateEvent_pwr (d : Nat) (s : State) : (gateEvent d false s).pwr = { s.pwr with gate := s.pwr.gate + 1, gateAt := s.clk :: within s s.pwr.gateAt } := by
  unfold gateEvent; simp only [ffTrace_pwr]
  rw [foldl_proj (fun t => t.pwr) _ (by intros; rfl)]; rfl

/-- A droop event is noted with its clock. -/
theorem droopEvent_pwr (d : Nat) (s : State) : (gateEvent d true s).pwr = { s.pwr with droopAt := s.clk :: within s s.pwr.droopAt } := by
  unfold gateEvent; simp only [ffTrace_pwr]
  rw [foldl_proj (fun t => t.pwr) _ (by intros; rfl)]; rfl

/-- A gating event writes no context memory. -/
theorem gateEvent_mem (d : Nat) (b : Bool) (s : State) : (gateEvent d b s).mem = s.mem := by
  unfold gateEvent; simp only [ffTrace_mem]
  rw [foldl_proj (fun t => t.mem) _ (by intros; rfl)]

/-- A gating event leaves the dies as they are. -/
theorem gateEvent_dies (d : Nat) (b : Bool) (s : State) : (gateEvent d b s).dies = s.dies := by
  unfold gateEvent; simp only [ffTrace_dies]
  rw [foldl_proj (fun t => t.dies) _ (by intros; rfl)]

/-! ## Firmware and hangs -/

/-- An event leaves compartments and core resets as they are. -/
theorem ffEvent_comps (c v d u : Nat) (x : Option Nat) (b : Bytes) (s : State) : (ffEvent c v d u x b s).hub.comps = s.hub.comps ∧ (ffEvent c v d u x b s).hub.coreReset = s.hub.coreReset ∧ (ffEvent c v d u x b s).hub.coreResets = s.hub.coreResets := by
  unfold ffEvent; dsimp only; repeat' (first | split | exact ⟨rfl, rfl, rfl⟩)

/-- A penalty leaves compartments and core resets as they are. -/
theorem addPenalty_comps (k p : Nat) (h : Hub) : (addPenalty k p h).comps = h.comps ∧ (addPenalty k p h).coreReset = h.coreReset ∧ (addPenalty k p h).coreResets = h.coreResets := by
  unfold addPenalty; repeat' (first | split | exact ⟨rfl, rfl, rfl⟩)

/-- An error record leaves compartments and core resets as they are. -/
theorem logError_comps (c d u : Nat) (x : Option Nat) (st : Nat) (b : Bytes) (s : State) : (logError c d u x st b s).hub.comps = s.hub.comps ∧ (logError c d u x st b s).hub.coreReset = s.hub.coreReset ∧ (logError c d u x st b s).hub.coreResets = s.hub.coreResets := by
  unfold logError logErrorP; dsimp only
  have e : (takeWord s).2.hub = s.hub := rfl
  split
  · exact ⟨rfl, rfl, rfl⟩
  · obtain ⟨a, b, c⟩ := ffEvent_comps (match (errClass c).1 with | 0 => 0x0100 | _ => 0x0100) 0 0 0 none [] s
    refine ⟨(ffEvent_comps _ _ _ _ _ _ _).1.trans ?_, (ffEvent_comps _ _ _ _ _ _ _).2.1.trans ?_, (ffEvent_comps _ _ _ _ _ _ _).2.2.trans ?_⟩
    · show (addPenalty _ _ _).comps = _
      rw [(addPenalty_comps _ _ _).1]; simp only [e]
    · show (addPenalty _ _ _).coreReset = _
      rw [(addPenalty_comps _ _ _).2.1]; simp only [e]
    · show (addPenalty _ _ _).coreResets = _
      rw [(addPenalty_comps _ _ _).2.2]; simp only [e]

/-- A compartment that runs, after a change of it. -/
theorem compOf_modComp (s : State) (c : Nat) (f : Comp → Comp) (h : (compOf s c).st = 1) : compOf (modComp c f s) c = f (compOf s c) := by
  have : c < s.hub.comps.length := by
    rcases Nat.lt_or_ge c s.hub.comps.length with h2 | h2
    · exact h2
    · unfold compOf at h; rw [List.getElem?_eq_none h2] at h; simp at h
  unfold compOf modComp
  simp [List.getElem?_modify, this]

/-- Recording a hung command leaves every queue as it is. -/
theorem noteHung_queue (q k op p r : Nat) (s : State) (j : Nat) : (noteHung q k op p r s).queue j = s.queue j := by
  unfold noteHung; simp [setHang]

/-! ## Cells in reset -/

/-- Recording a reset leaves every cell as it is. -/
theorem noteReset_cell (a b u tr : Nat) (x : Option Nat) (y : Nat) (s : State) (e : Nat) : (noteReset a b u tr x y s).cell e = s.cell e := by
  unfold noteReset; simp [setHang]

/-- What the loss of one cell leaves of it, and of the others. -/
theorem dropOne_cell (c : Nat) (s : State) (e : Nat) : (dropOne c s).cell e = if e = c then { s.cell c with
      groups := [], bad := [], core := none, st := .resetting, tileIdx := 0, recs := [], prog := none,
      redrive := (match (s.cell c).prog with | some p => some p | none => (s.cell c).redrive) } else s.cell e := by
  unfold dropOne unstage
  rw [State.cell_modCell]
  have h1 : ∀ (u : State) hs, ({ u with holders := hs } : State).cell e = u.cell e := fun _ _ => rfl
  have h2 : ∀ (u : State) hs, ({ u with holders := hs } : State).cell c = u.cell c := fun _ _ => rfl
  rw [h1, h2]
  unfold clearCell
  rw [State.cell_modCell, State.cell_modCell, if_pos rfl]
  split
  · rfl
  · rfl

/-- Releasing the PAIRED groups of a cell changes that cell's groups alone. -/
theorem dropHalves_cell (c : Nat) (s : State) (e : Nat) : (dropHalves c s).cell e =
    if e = c then { s.cell c with groups := (s.cell c).groups.filter (fun g => g.2.tmode ≠ 1) } else s.cell e := by
  unfold dropHalves; rw [State.cell_modCell]

/-- What a reset leaves of its own cell. -/
theorem dropCell_own (c : Nat) (s : State) : (dropCell c s).cell c = { s.cell c with
      groups := [], bad := [], core := none, st := .resetting, tileIdx := 0, recs := [], prog := none,
      redrive := (match (s.cell c).prog with | some p => some p | none => (s.cell c).redrive) } := by
  unfold dropCell
  split
  · rw [dropOne_cell, if_pos rfl]
  · split
    · rw [dropOne_cell, if_pos rfl, dropHalves_cell, if_neg (by omega)]
    · have hc : ¬ c = c - 1 := by omega
      rw [dropOne_cell, if_pos rfl, dropOne_cell, if_neg hc]

/-- A reset leaves the cells outside its pair as they are. -/
theorem dropCell_far (c : Nat) (s : State) (e : Nat) (h : e / 2 ≠ c / 2) : (dropCell c s).cell e = s.cell e := by
  have h0 : ¬ e = c := fun k => h (by rw [k])
  have h1 : ¬ (c % 2 = 0 ∧ e = c + 1) := by omega
  have h2 : ¬ (c % 2 ≠ 0 ∧ e = c - 1) := by omega
  unfold dropCell
  split
  · rw [dropOne_cell, if_neg h0]
  · split
    · rename_i k; rw [dropOne_cell, if_neg h0, dropHalves_cell, if_neg (fun w => h1 ⟨k, w⟩)]
    · rename_i k; rw [dropOne_cell, if_neg h0, dropOne_cell, if_neg (fun w => h2 ⟨k, w⟩)]

/-- A cell without PAIRED groups is reset alone. -/
theorem dropCell_alone (c : Nat) (s : State) (h : (s.cell c).halves = false) (e : Nat) (he : e ≠ c) : (dropCell c s).cell e = s.cell e := by
  unfold dropCell
  rw [if_pos (by simp [h]), dropOne_cell, if_neg he]

/-- A reset brings no cell out of reset. -/
theorem dropCell_resetting (c : Nat) (s : State) (e : Nat) (h : (s.cell e).st = .resetting) : ((dropCell c s).cell e).st = .resetting := by
  unfold dropCell
  split
  · rw [dropOne_cell]; split <;> simp [h]
  · split
    · rw [dropOne_cell]; split
      · rfl
      · rw [dropHalves_cell]; split
        · rename_i k; subst k; exact h
        · exact h
    · rw [dropOne_cell]; split
      · rfl
      · rw [dropOne_cell]; split <;> simp [h]

/-- What the resets of several cells leave. -/
theorem foldl_dropCell (l : List Nat) (s : State) (e : Nat) : (e ∈ l → ((l.foldl (fun t c => dropCell c t) s).cell e).st = .resetting) ∧
    (((s.cell e).st = .resetting) → ((l.foldl (fun t c => dropCell c t) s).cell e).st = .resetting) ∧
    ((∀ a ∈ l, e / 2 ≠ a / 2) → (l.foldl (fun t c => dropCell c t) s).cell e = s.cell e) := by
  induction l generalizing s with
  | nil => simp
  | cons a l ih =>
    rw [List.foldl_cons]
    obtain ⟨h1, h2, h3⟩ := ih (dropCell a s)
    refine ⟨fun h => ?_, fun h => h2 (dropCell_resetting _ _ _ h), fun h => ?_⟩
    · rcases List.mem_cons.mp h with h | h
      · subst h; apply h2; rw [dropCell_own]
      · exact h1 h
    · rw [h3 (fun b hb => h b (List.mem_cons_of_mem _ hb)), dropCell_far _ _ _ (h a List.mem_cons_self)]

/-- The head of a crash slot takes 4096 bytes. -/
theorem crashHead_length (c tr seq time : Nat) (s : State) : (crashHead s c tr seq time).length = 4096 := by
  unfold crashHead; dsimp only
  simp only [List.length_append, le_length, zeros_length, List.length_take]
  omega

/-! ## Boot -/

/-- What standing in a stage means. -/
theorem inStage_fields {s : State} {g : Stage} (h : inStage s g = true) : s.pwr.st = .starting ∧ s.boot.active = true ∧ s.boot.stage = g := by
  unfold inStage at h; simp only [Bool.and_eq_true, decide_eq_true_eq] at h; exact ⟨h.1.1, h.1.2, h.2⟩

/-- Starting a compartment keeps power, boot and dies. -/
theorem startComp_keep (c k : Nat) (s : State) : (startComp c k s).pwr = s.pwr ∧ (startComp c k s).boot = s.boot ∧ (startComp c k s).hub.health = s.hub.health ∧ (startComp c k s).dies = s.dies := ⟨rfl, rfl, rfl, rfl⟩

/-- Fencing the cells of dies that are away keeps boot, plate and power. -/
theorem fenceCells_keep (s : State) : (fenceCells s).boot = s.boot ∧ (fenceCells s).plate = s.plate ∧ (fenceCells s).pwr = s.pwr := by
  unfold fenceCells
  refine ⟨?_, ?_, ?_⟩
  · rw [foldl_proj (fun t => t.boot) _ (by intros; split <;> rfl)]
  · rw [foldl_proj (fun t => t.plate) _ (by intros; split <;> rfl)]
  · rw [foldl_proj (fun t => t.pwr) _ (by intros; split <;> rfl)]

/-- Fencing keeps boot, plate and power. -/
theorem fenceDies_keep (s : State) : (fenceDies s).boot = s.boot ∧ (fenceDies s).plate = s.plate ∧ (fenceDies s).pwr = s.pwr := by
  unfold fenceDies
  refine ⟨(fenceCells_keep _).1.trans ?_, (fenceCells_keep _).2.1.trans ?_, (fenceCells_keep _).2.2.trans ?_⟩
  · rw [foldl_proj (fun t => t.boot) _ (by intros; split <;> rfl)]
  · rw [foldl_proj (fun t => t.plate) _ (by intros; split <;> rfl)]
  · rw [foldl_proj (fun t => t.pwr) _ (by intros; split <;> rfl)]

/-- What keeps a projection through every state keeps it through a step of a sub-port going down. -/
theorem portDown_boot (l : Nat) (s : State) : (portDown l s).boot = s.boot ∧ (portDown l s).plate = s.plate := by
  have hm : ∀ t : State, (movePaths l 2 t).boot = t.boot ∧ (movePaths l 2 t).plate = t.plate := by
    intro t
    unfold movePaths
    refine ⟨?_, ?_⟩
    · refine foldl_proj (fun t => t.boot) _ (fun t e => ?_) _ _
      dsimp only; repeat' (first | split | simp)
    · refine foldl_proj (fun t => t.plate) _ (fun t e => ?_) _ _
      dsimp only; repeat' (first | split | simp)
  have he : ∀ (d : Nat) (t : State), (enterHoldover d t).boot = t.boot ∧ (enterHoldover d t).plate = t.plate := by
    intro d t
    unfold enterHoldover ptpTo
    constructor <;> (dsimp only; repeat' (first | split | simp))
  unfold portDown
  split
  · exact ⟨rfl, rfl⟩
  · dsimp only
    split
    · exact ⟨(he _ _).1.trans (hm _).1, (he _ _).2.trans (hm _).2⟩
    · exact ⟨(hm _).1, (hm _).2⟩

/-- Taking a die's sub-ports down keeps boot and plate. -/
theorem dropPorts_keep (d : Nat) (s : State) : (dropPorts d s).boot = s.boot ∧ (dropPorts d s).plate = s.plate := by
  unfold dropPorts
  refine ⟨?_, ?_⟩
  · refine foldl_proj (fun t => t.boot) _ (fun t l => ?_) _ _
    exact (portDown_boot l t).1
  · refine foldl_proj (fun t => t.plate) _ (fun t l => ?_) _ _
    exact (portDown_boot l t).2

/-- Fencing what is isolated keeps boot, plate and power. -/
theorem isolate_keep (s : State) : (isolate s).boot = s.boot ∧ (isolate s).plate = s.plate ∧ (isolate s).pwr = s.pwr := by
  refine ⟨?_, ?_, isolate_pwr s⟩
  · unfold isolate; extract_lets ball lost t
    have h : t.boot = s.boot := foldl_proj (fun t => t.boot) _ (by intros; simp) _ _
    rw [foldl_proj (fun t => t.boot) _ (fun t d => (dropPorts_keep d t).1)]
    split
    · exact (fenceCells_keep _).1.trans h
    · exact h
  · unfold isolate; extract_lets ball lost t
    have h : t.plate = s.plate := foldl_proj (fun t => t.plate) _ (by intros; simp) _ _
    rw [foldl_proj (fun t => t.plate) _ (fun t d => (dropPorts_keep d t).2)]
    split
    · exact (fenceCells_keep _).2.1.trans h
    · exact h

/-- Blowing owner fuses leaves the lifecycle as it is. -/
theorem blowOwner_lifecycle (x : Sec) : (blowOwner x).lifecycle = x.lifecycle := by
  unfold blowOwner; split <;> rfl

/-! ## Molts and lending -/

/-- The contexts after a molt enters a phase. -/
theorem moltPhase_ctx (x : Nat) (ph : MoltPh) (s : State) (y : Nat) : (moltPhase x ph s).ctx y = if y = x then { s.ctx x with molt := { (s.ctx x).molt with phase := ph, begun := false, agreed := false, agree := none } } else s.ctx y := by
  unfold moltPhase modMolt; dsimp only; rw [ffEvent_ctx, State.ctx_modCtx]

/-- Entering a phase writes no context memory. -/
theorem moltPhase_frame (x : Nat) (ph : MoltPh) (s : State) : (moltPhase x ph s).mem = s.mem ∧ (moltPhase x ph s).red = s.red ∧ (moltPhase x ph s).clk = s.clk := by
  unfold moltPhase modMolt; simp

/-- The context after a change of its molt. -/
theorem modMolt_ctx (x : Nat) (f : Molt → Molt) (s : State) : (modMolt x f s).ctx x = { s.ctx x with molt := f (s.ctx x).molt } := by
  unfold modMolt; rw [State.ctx_modCtx_same]

/-- Posting a molt's status leaves every context as it is. -/
theorem postMolt_ctx (x st : Nat) (s : State) (y : Nat) : (postMolt x st s).ctx y = s.ctx y := rfl

/-- What the end of a molt leaves of its context. -/
theorem endMoltWith_ctx (x st r : Nat) (s : State) : (endMoltWith x st r s).ctx x = { s.ctx x with molt :=
    { phase := .none, result := BitVec.ofNat 2 r, status := st, epoch := (s.ctx x).molt.epoch, tStar := (s.ctx x).molt.tStar, recover := (s.ctx x).molt.recover } } := by
  unfold endMoltWith
  dsimp only
  rw [postMolt_ctx, modMolt_ctx, moltPhase_ctx, if_pos rfl, modMolt_ctx]

/-- A lending event leaves every context as it is. -/
theorem lendEvent_ctx (x w : Nat) (b : Bytes) (s : State) (y : Nat) : (lendEvent x w b s).ctx y = s.ctx y := by unfold lendEvent; simp

/-- A cells event leaves every context as it is. -/
theorem cellsEvent_ctx (x w : Nat) (a b : Bool) (s : State) (y : Nat) : (cellsEvent x w a b s).ctx y = s.ctx y := by unfold cellsEvent; rw [lendEvent_ctx]

/-- A lending status leaves every context as it is. -/
theorem putLendStat_ctx (w st : Nat) (u : Bool) (s : State) (y : Nat) : (putLendStat w st u s).ctx y = s.ctx y := by unfold putLendStat; split <;> rfl

/-- The contexts after a change of a window. -/
theorem modWindow_ctx (x w : Nat) (f : Lend → Lend) (s : State) (y : Nat) : (modWindow x w f s).ctx y = if y = x then { s.ctx x with job := (s.ctx x).job.map (modLend w f) } else s.ctx y := by
  unfold modWindow; rw [State.ctx_modCtx]

/-! ## Security -/

/-- With algorithms negotiated a request takes its effect. -/
theorem negotiated_run (p : SpdmPath) (f : State → State) (s : State) (h : spdmUp s p = true) (h1 : s.sec.negotiated.contains p = true) : negotiated p f s = f s := by
  unfold negotiated; rw [if_neg (by simp [h]), if_neg (by rw [h1]; decide)]

/-- Without them it is refused. -/
theorem negotiated_refused (p : SpdmPath) (f : State → State) (s : State) (h : spdmUp s p = true) (h1 : s.sec.negotiated.contains p = false) : negotiated p f s = spdmError p erUnexpected s := by
  unfold negotiated; rw [if_neg (by simp [h]), if_pos (by rw [h1]; decide)]

end Sys2Proof.Machine
end

