-- ==== Sys2Proof/WellFormed.lean ====
section
/-! DEFINITION. WellFormed.lean: the ranges of the operands of every command, from the rules that number the parts of the module. Every
meaning is total and takes any operand; these are the operands that name something the module has. -/
namespace Sys2Proof

/-- Queues 0 to 16,383 (R356). -/
def isQueue (q : Nat) : Bool := decide (q < 16384)
/-- Flat cells 0 to 255 (R6). -/
def isCell (c : Nat) : Bool := decide (c < 256)
/-- Holders: the memory dies 8 to 15 and the tier die 19 (R17). -/
def isHolder (h : Nat) : Bool := (decide (8 ≤ h) && decide (h ≤ 15)) || decide (h = 19)
/-- Contexts 0 to 63 (R356). -/
def isCtx (x : Nat) : Bool := decide (x < 64)
/-- Lanes 0 to 71 (R272). -/
def isLane (l : Nat) : Bool := decide (l < 72)
/-- Die indices 0 to 19 (R17). -/
def isDie (d : Nat) : Bool := decide (d < 20)
/-- Link dies 16 and 17 (R17). -/
def isLinkDie (d : Nat) : Bool := decide (d = 16) || decide (d = 17)
/-- Device indices 0 to 0x3FFF (R320). -/
def isDev (d : Nat) : Bool := decide (d < 0x4000)
/-- Fjorum partners: the devices, and the hosts of the colonies, 0x4000 + c (R314, R320). -/
def isPartner (d : Nat) : Bool := decide (d < 0x4100)
/-- A signed 16-bit reading (R534). -/
def isI16 (t : Int) : Bool := decide (-32768 ≤ t) && decide (t ≤ 32767)

/-- A packet whose header fields fit their widths (R288). -/
def pktOk (p : FjPkt) : Bool :=
  decide (p.hdr.version < 16) && decide (p.hdr.cls < 4) && decide (p.hdr.ty < 256) && decide (p.hdr.src < 65536) && decide (p.hdr.dst < 65536)
    && decide (p.hdr.jobTag < 2 ^ 32) && decide (p.hdr.flow < 65536) && decide (p.hdr.ctx < 256) && decide (p.hdr.psn < 2 ^ 32)
    && decide (p.hdr.ackPsn < 2 ^ 32) && decide (p.hdr.msgSeq < 2 ^ 32) && decide (p.hdr.msgOff < 2 ^ 32) && decide (p.hdr.epoch < 2 ^ 32)
    && decide (p.hdr.step < 2 ^ 64) && decide (p.hdr.phase < 256) && decide (p.payload.length ≤ 8192)
    && decide (p.ext.length ≤ 32) && decide (p.ext.length % 8 = 0)

/-- A flow to a device or a host, of one of the four classes (R292). -/
def flowOk (f : FlowKey) : Bool := isPartner f.peer && decide (f.cls < 4) && decide (f.flow < 4096)

/-- A requester that exists. -/
def reqOk : Requester → Bool
  | .firmware => true
  | .operator => true
  | .unit x => isCtx x
  | .peer d => isDev d
  | .other => true

/-- An SPDM transport. -/
def spdmOk : SpdmPath → Bool
  | .mgmt => true
  | .fjorum d => isPartner d

/-- A path of a request. -/
def pathOk : ReqPath → Bool
  | .mgmt _ => true
  | .control x => isCtx x

/-- A mailbox sender. -/
def fromOk : MboxFrom → Bool
  | .fleet => true
  | .host => true
  | .peer d => isDev d
  | .operator => true

/-- A finding of the SECDED code: one of the three stores (R147). -/
def eccOk (e : EccHit) : Bool := decide (e.store < 3) && e.other.all isCell

/-- A calibration finding: a die, and the seven blocks of fail_mask (R37). -/
def calOk (f : CalFinding) : Bool := isDie f.die && decide (f.mask < 128)

/-- Flipped bits of a pair and its stored word (R200). -/
def tagOk (t : TagRead) : Bool := (t.first ++ t.again).all (fun i => decide (i < 1088))

/-- The operands of a command lie in their ranges. -/
def Instr.wf : Instr → Bool
  | .nop q => isQueue q
  | .ctxOpen q => isQueue q
  | .ctxReady q => isQueue q
  | .ctxClose q => isQueue q
  | .regionSet q => isQueue q
  | .regionZeroed x => isCtx x
  | .regionRevoked x => isCtx x
  | .queueCtlResume q => isQueue q
  | .queueCtlFlush q => isQueue q
  | .queueCtlTimeout q => isQueue q
  | .queueCtlBudget q => isQueue q
  | .queueCtlHalt q => isQueue q
  | .queueCtlDisable q => isQueue q
  | .queueCtlEnable q => isQueue q
  | .queueCtlEventDev q => isQueue q
  | .semOpAdd q => isQueue q
  | .semOpSet q => isQueue q
  | .epochPublishLoad q => isQueue q
  | .epochPublishCurrent q => isQueue q
  | .epochRetire q => isQueue q
  | .stepOpen q => isQueue q
  | .stepOpenRediscovery q => isQueue q
  | .stepOpenVerify q => isQueue q
  | .stepBarrier q => isQueue q
  | .stepUpdateEnd q => isQueue q
  | .launch q => isQueue q
  | .engineJob q => isQueue q
  | .collective q => isQueue q
  | .seqOpen q => isQueue q
  | .seqClose q => isQueue q
  | .completionWrite q => isQueue q
  | .commandTimeout q k => isQueue q && decide (k < 2 ^ 32)
  | .tileStart c => isCell c
  | .tileEnd c => isCell c
  | .tileNop c => isCell c
  | .matmul c ecc => isCell c && ecc.all eccOk
  | .boundScan c ecc => isCell c && ecc.all eccOk
  | .accSpill c ecc => isCell c && ecc.all eccOk
  | .accFill c ecc => isCell c && ecc.all eccOk
  | .accDrain c ecc => isCell c && ecc.all eccOk
  | .vec c ecc => isCell c && ecc.all eccOk
  | .dmaCopy c ecc => isCell c && ecc.all eccOk
  | .layoutCopy c ecc => isCell c && ecc.all eccOk
  | .window c ecc => isCell c && ecc.all eccOk
  | .gather c ecc => isCell c && ecc.all eccOk
  | .scatter c ecc => isCell c && ecc.all eccOk
  | .scatterAdd c ecc => isCell c && ecc.all eccOk
  | .scatterAddApply h c _ => isHolder h && isCell c
  | .coreCall c => isCell c
  | .celCoreIssue c desc _ => isCell c && decide (desc.length = 32)
  | .celCoreExit c _ => isCell c
  | .coreFault c _ => isCell c
  | .tileComplete c _ => isCell c
  | .tileRecordWrite c => isCell c
  | .tileLate c _ => isCell c
  | .tileAbort c _ => isCell c
  | .sgdMom h => isHolder h
  | .adamw h => isHolder h
  | .gradFinal h => isHolder h
  | .digest h => isHolder h
  | .crc h => isHolder h
  | .parity h => isHolder h
  | .engineGather h => isHolder h
  | .zero h => isHolder h
  | .migrate h => isHolder h
  | .loadShard h => isHolder h
  | .micro h => isHolder h
  | .shardTimeout h => isHolder h
  | .adaptationPass h x => isHolder h && isCtx x
  | .holderAccess r _ addr _ _ tag => reqOk r && decide (addr < 2 ^ 48) && tagOk tag
  | .scrubPatrol h tag => isHolder h && tagOk tag
  | .shardRecheck h _ => isHolder h
  | .partialsHanded x => isCtx x
  | .collectiveData p => pktOk p
  | .vote p => pktOk p
  | .commitTimeout x => isCtx x
  | .ledgerEnter x => isCtx x
  | .ledgerRecordWrite x => isCtx x
  | .ledgerRetry x => isCtx x
  | .preemptWindowExpiry x => isCtx x
  | .doorbell p _ => pktOk p
  | .semaphoreDoorbell p _ => pktOk p
  | .mboxWrite src ch msg _ => fromOk src && decide (ch < 64) && decide (msg.length ≤ 256)
  | .mboxRead src ch => fromOk src && decide (ch < 64)
  | .relay p => pktOk p
  | .spdm path _ => spdmOk path
  | .ringPut ch => decide (ch < 64)
  | .readCpl ch => decide (ch < 64)
  | .convert dev msg => isDev dev && decide (msg.length ≤ 256)
  | .hubMboxSend r ch => reqOk r && decide (ch < 64)
  | .hubMboxTake r ch => reqOk r && decide (ch < 64)
  | .hubQDb r q _ => reqOk r && isQueue q
  | .hubQCcons r q _ => reqOk r && isQueue q
  | .lnkTimeNsRead r l => reqOk r && decide (l < 2)
  | .registerWrite r addr _ _ => reqOk r && decide (addr < 2 ^ 48)
  | .bulkWrite p => pktOk p
  | .readReq p => pktOk p
  | .ack p => pktOk p
  | .nack p => pktOk p
  | .fjOpen p => pktOk p
  | .openAck p => pktOk p
  | .fjClose p => pktOk p
  | .closeAck p => pktOk p
  | .heartbeat p => pktOk p
  | .readmissionTimeout dev => isPartner dev
  | .openingWaitTimeout f => flowOk f
  | .heartbeatTimer dev => isPartner dev
  | .peerSuspect dev => isPartner dev
  | .peerLost dev => isPartner dev
  | .retransmissionTimeout f psn => flowOk f && decide (psn < 2 ^ 32)
  | .ackTimer f => flowOk f
  | .rateIncrease f => flowOk f
  | .openRetry f => flowOk f
  | .flowClose f => flowOk f
  | .nackResend f msgSeq => flowOk f && decide (msgSeq < 2 ^ 32)
  | .frameReceive l _ => isLane l
  | .pfcXon l pri => isLane l && decide (pri < 8)
  | .pfcRefresh l pri => isLane l && decide (pri < 8)
  | .pfcFrame l mask quanta => isLane l && decide (mask < 256) && decide (quanta.length = 8) && quanta.all (fun v => decide (v < 65536))
  | .pauseExpiry l pri => isLane l && decide (pri < 8)
  | .pfcWdog l pri => isLane l && decide (pri < 8)
  | .arpRequest l _ _ => isLane l
  | .neighborSolicitation l _ _ => isLane l
  | .echoRequest l _ _ _ => isLane l
  | .mkaFrame l _ => isLane l
  | .sakDistribution l => isLane l
  | .saAgeOut l => isLane l
  | .mkaHello l => isLane l
  | .mkaLifeExpiry l => isLane l
  | .announce l _ => isLane l
  | .sync l _ => isLane l
  | .followUp l _ => isLane l
  | .delayResp l _ => isLane l
  | .announceReceiptTimeout l => isLane l
  | .holdoverUncertain d => isLinkDie d
  | .ptpFault d => isLinkDie d
  | .ppsEdge _ => true
  | .ppsLoss => true
  | .linkUp l => isLane l
  | .subportDown l => isLane l
  | .lossOfSignal lane _ => isLane lane
  | .fabricLinkDown a b => isDie a && isDie b
  | .powerOn centivolts => decide (centivolts < 65536)
  | .undervoltageTrip => true
  | .overvoltageTrip => true
  | .pwrEnLow => true
  | .vinSenseOpen => true
  | .conversionFault => true
  | .faultRelease _ => true
  | .resetN => true
  | .inputCap centivolts centiamps watts => decide (centivolts < 65536) && decide (centiamps < 65536) && decide (watts < 65536)
  | .thermalCap d _ temp => isDie d && isI16 temp
  | .thermalCapRelease d _ temp => isDie d && isI16 temp
  | .thermalShutdown d _ temp => isDie d && isI16 temp
  | .coolantCap inlet outlet => isI16 inlet && isI16 outlet
  | .droopEvent d => decide (d < 8)
  | .sensorRecalibration d _ temp drift => isDie d && isI16 temp && decide (drift < 256)
  | .hubBeat core => decide (core < 4)
  | .sliceOverrun comp => decide (comp < 5)
  | .compartmentFault comp cause => decide (comp < 5) && decide (1 ≤ cause) && decide (cause ≤ 4)
  | .gateCall src dst msg => decide (src < 5) && decide (dst < 5) && decide (msg.length ≤ 256)
  | .profileSample => true
  | .healthDecay => true
  | .healthCmdTarget r _ => reqOk r
  | .selfTest r _ => reqOk r
  | .selfTestDone _ => true
  | .hangCycle queues => queues.all isQueue
  | .crossDeviceHang peer jobTag => isDev peer && decide (jobTag < 2 ^ 32)
  | .cellReset c trigger => isCell c && decide (1 ≤ trigger) && decide (trigger ≤ 3)
  | .computeDieReset d => decide (d < 8)
  | .holderReset h => isHolder h
  | .linkDieReset d => isLinkDie d
  | .hubCoreReset core => decide (core < 4)
  | .rotFault => true
  | .deviceWarmReset r => reqOk r
  | .resetEscalation => true
  | .redrive c => isCell c
  | .crashSummary => true
  | .crashSampleRequest r cells => reqOk r && cells.all isCell
  | .soldierCheck h _ => isHolder h
  | .soldierReferee h _ => isHolder h
  | .thermalReplay _ x d _ _ _ _ _ refAddr => isCtx x && isDie d && decide (refAddr < 2 ^ 48)
  | .setpointHold => true
  | .setpointSkip => true
  | .bootFuse cal _ => cal.all calOk
  | .bootImage => true
  | .bootCarapace cal => cal.all calOk
  | .bootTrainLinks bad => bad.all isLane
  | .trainWait => true
  | .bootRelease => true
  | .stageTimeout => true
  | .bootRetry => true
  | .bootCtlRestart r _ => reqOk r
  | .bootCtlEnterPupa r _ => reqOk r
  | .dieSelfTest r _ mask => reqOk r && decide (mask < 256)
  | .logReadout path => pathOk path
  | .fuseReadout path => pathOk path
  | .imageFetch path _ len data => pathOk path && decide (data.length ≤ len)
  | .fetchVerify => true
  | .amendment path _ => pathOk path
  | .moltHold x => isCtx x
  | .moltTransfer x => isCtx x
  | .recoverRestore x => isCtx x
  | .moltAgreement x => isCtx x
  | .moltTimeout x => isCtx x
  | .lendSwitchWait x => isCtx x
  | .lendEnd x w => isCtx x && decide (w < 16)
  | .drainLimit x w => isCtx x && decide (w < 16)
  | .contextPreempt _ x => isCtx x
  | .preemptWindowed _ x => isCtx x
  | .preemptRelease _ x => isCtx x
  | .saveComplete c => isCell c
  | .borrowHoldExpiry c => isCell c
  | .restoreComplete c => isCell c
  | .ownershipChange _ rsaHash mldsaHash _ _ => decide (rsaHash.length = 64) && decide (mldsaHash.length = 64)
  | .cakInstall _ n _ => decide (n < 16)
  | .enterRma _ _ _ => true
  | .debugGrant _ kind addr _ => decide (kind < 6) && decide (addr < 2 ^ 48)
  | .getVersion p => spdmOk p
  | .getCapabilities p _ => spdmOk p
  | .negotiateAlgorithms p _ => spdmOk p
  | .getCertificate p _ _ _ => spdmOk p
  | .getMeasurements p _ index nonce => spdmOk p && decide (index < 256) && decide (nonce.length = 32)
  | .keyExchange p _ _ => spdmOk p
  | .spdmSessionTimeout _ => true
  | .lendingWindowStart x w => isCtx x && decide (w < 16)
  | .readmissionRequest _ dev => isDev dev
  | .registerReadClear r addr _ => reqOk r && decide (addr < 2 ^ 48)
  | .holderResetEnd h => isHolder h
  | .hubCoreResetEnd core => decide (core < 4)
  | .finish _ _ _ _ => true
  | .challenge p _ nonce => spdmOk p && decide (nonce.length = 32)
  | .keyUpdate _ _ => true

end Sys2Proof
end

