-- ==== Sys2Proof/Tests/Slice0.lean ====
section
/-! SUPPORT. Tests/Slice0.lean: ill-formed commands are refused, the spec's worked examples, small steps, and for every statement with
hypotheses states and operands that meet them. -/
namespace Sys2Proof.Tests
open Sys2Proof Sys2Proof.Machine
set_option Elab.async false

/-! ## Helpers -/

/-- A module in service that has done nothing yet. -/
def on : State := { State.reset with pwr := { State.reset.pwr with st := .on } }

/-- A command of 64 bytes that waits for no semaphore and signals none: opcode, flags, epoch, step, body. -/
def cmd (op fl ep st : Nat) (body : Bytes) : Bytes :=
  le 1 op ++ le 1 fl ++ [0, 0, 0, 255, 255, 255] ++ le 4 ep ++ le 8 st ++ zeros 4 ++ body ++ zeros (40 - body.length)

/-- Context 0 in a state, with its control queue 0 whose ring at address 0 holds the command at N. -/
def put (b : Bytes) (st : CtxSt) (s : State) : State :=
  ((poke s 0 b).modCtx 0 (fun c => { c with defined := true, st := st })).modQueue 0
    (fun w => { w with defined := true, ring := 0, cpl := 0x100000, p := 1 })

/-- The conditions of `Starts`, as a test. -/
def goes (s : State) (q : Nat) (b : Bytes) : Bool :=
  decide (s.pwr.st = .on) && (s.queue q).flight.all (fun c => !c.waiting) &&
    (match nextCmd s q with | .ok c => c == b | .error _ => false) && startable s q b && cmdForm s q b &&
    (decide ((s.ctx (s.queue q).ctx).st ≠ .faulted) || cOp b = 3 || cOp b = 5) && decide (boundOf s (s.queue q).ctx b = .go)

theorem starts_of {s : State} {q : Nat} {b : Bytes} (h : goes s q b = true) : Starts s q b := by
  unfold goes at h
  simp only [Bool.and_eq_true, Bool.or_eq_true, decide_eq_true_eq, List.all_eq_true, Bool.not_eq_true'] at h
  obtain ⟨⟨⟨⟨⟨⟨h1, h2⟩, h3⟩, h4⟩, h5⟩, h6⟩, h7⟩ := h
  refine ⟨h1, h2, ?_, h4, h5, by tauto, h7⟩
  split at h3
  · rename_i c hc; rw [hc, eq_of_beq h3]
  · cases h3

/-- A region entry of one unit at 2 MiB with the given last word (R191). -/
def entry (w : Nat) : Bytes := le 8 0x200000 ++ le 4 1 ++ le 4 w

/-- Context 0 may read and write the first 32 GiB, by itself, by engines and from afar. -/
def reg (s : State) : State :=
  s.modCtx 0 (fun c => { c with regions := [(0, { valid := true, base := 0, size := 0x4000, remote := true, eng := true, w := true, r := true })] })

/-- A job of one member, this device, with one slot of 32 parameters in holder 8, its gradient at 0x80000 and its planes beside it. -/
def job0 : Job := { jobTag := 5, members := [0], pTotal := 32, slots := [{ member := 0, holder := 8, hi := 0x60000, lo := 0x61000, m1 := 0x62000, m2 := 0x63000,
                                                                           expP := 0x64000, streakP := 0x65000, grad := 0x80000 }] }

/-- Context 0 runs that job, with its ledger at 0x40000: empty, 16 slots, no layer. -/
def train (f : StepLine → StepLine) (s : State) : State :=
  poke ((reg s).modCtx 0 (fun c => { c with jobTag := 5, ledger := 0x40000, job := some job0, sl := f c.sl })) 0x40000 (zeros 16 ++ le 4 16 ++ zeros 8)

/-- A vote of member 0 with a header check. -/
def vote (v st : Nat) (k : Bytes) : Vote := { member := 0, epoch := 0, step := 0, vote := v, status := st, check := k }
/-- A record that waits for its place in the ring. -/
def wRec : PendRec := { epoch := 0, step := 1, outcome := .committed, bytes := zeros 1024, base := 0x40000, cap := 16, slot := 1024 }
/-- The job's context with that record at the head of its line. -/
def wLed : State := train (fun l => { l with phase := .ledger, step := 1, pend := [wRec] }) on
/-- After the record, and after the producer, are written. -/
def wLed1 : State := (writeFor (endWait 0 wLed) 0 0x48000 (finalRecord ((endWait 0 wLed).sl 0) wRec)).1
/-- After the producer is written. -/
def wLed2 : State := (writeFor wLed1 0 0x40000 (le 8 1)).1

theorem pair_of {α β : Type} {p : α × β} {n : β} (h : p.2 = n) : p = (p.1, n) := by rw [← h]

/-- A session of the operator. -/
def oper (s : State) : State := { s with sec := { s.sec with sessions := [{ id := 1, path := .mgmt, auth := .operator, ready := true }] } }
/-- Context 0 changed. -/
def ctx0 (f : Ctx → Ctx) (s : State) : State := s.modCtx 0 f
/-- Cell 3 changed. -/
def cell3 (f : Cell → Cell) (s : State) : State := s.modCell 3 f
/-- Command 3 of queue 0 in flight. -/
def fly (f : Cmd → Cmd) (s : State) : State := s.modQueue 0 (fun w => { w with flight := [f { idx := 3, bytes := zeros 64 }] })
/-- A program of context 1 that command 3 of queue 0 launched. -/
def prog0 : Program := { queue := 0, cmd := 3, ctx := 1, prog := 0x10000, recAt := 0x20000 }
/-- The image of a cell of context 1. -/
def saved1 : Saved := { ctx := 1, prog := some prog0, groups := [], core := none }

/-! ## Tiles -/

/-- Words 0 to 3 of a tile that waits for no semaphore and signals none. -/
def thead (op : Nat) : Bytes := le 4 (op * 2 ^ 24) ++ le 4 0xFFFFFF00 ++ zeros 8
/-- An operand reference of one row of 64 bytes (R130). -/
def opw (fmt base : Nat) : Bytes := le 4 (fmt * 2 ^ 28 + base) ++ zeros 8 ++ le 4 (4 * 2 ^ 16)
/-- A memory reference with a stride of 64 bytes (R165). -/
def memw (fmt base : Nat) : Bytes := le 8 base ++ zeros 16 ++ le 4 (fmt * 2 ^ 28) ++ le 4 64
/-- Words 16 to 18 of a matrix tile: 32 positions, all here. -/
def kWords (len : Nat) : Bytes := le 4 (32 * 1024) ++ le 4 0 ++ le 4 (len * 1024)
/-- A descriptor of each op: one row, one column, FP32 at the window of cell 3 and at 0x80000 in device memory. -/
def desc (op : Nat) : Bytes :=
  let src := cellWin 3
  let b := match op with
    | 0x10 => opw 1 0 ++ opw 1 0x1000 ++ zeros 16 ++ kWords 32 ++ le 4 0x280 ++ zeros 48
    | 0x11 => opw 1 0 ++ zeros 32 ++ le 4 0 ++ le 4 (32 * 1024) ++ le 4 0 ++ le 4 0x1000 ++ zeros 48
    | 0x12 => zeros 52 ++ le 8 0x80000 ++ zeros 52
    | 0x13 => zeros 48 ++ le 4 (32 * 1024) ++ zeros 8 ++ le 4 0x280 ++ zeros 16 ++ le 8 0x80000 ++ zeros 24
    | 0x14 => zeros 32 ++ opw 0 0x1000 ++ zeros 64
    | 0x20 => opw 0 0 ++ zeros 16 ++ opw 0 0x1000 ++ zeros 16 ++ le 4 0x2000 ++ le 4 (2 ^ 26) ++ zeros 40
    | 0x30 => memw 0 src ++ memw 0 0x80000 ++ zeros 48
    | 0x31 => memw 0 src ++ memw 0 0x80000 ++ zeros 48
    | 0x32 => memw 0 src ++ memw 0 0x80000 ++ le 4 0 ++ le 4 0x10001 ++ le 4 0x10101 ++ le 4 0x11110000 ++ zeros 20 ++ le 4 0x10000 ++ zeros 8
    | 0x33 => memw 0 src ++ memw 0 0x80000 ++ le 4 0 ++ le 4 0x2000 ++ le 4 1 ++ zeros 36
    | 0x34 => memw 0 src ++ memw 0 0x80000 ++ le 4 0 ++ le 4 0x2000 ++ le 4 1 ++ zeros 36
    | 0x35 => memw 0 src ++ memw 0 0x80000 ++ le 4 0 ++ le 4 0x2000 ++ le 4 1 ++ zeros 36
    | 0x40 => zeros 56 ++ le 4 0 ++ le 4 0x4000 ++ zeros 48
    | _ => zeros 112
  thead op ++ b ++ zeros (112 - b.length)
/-- A tile that runs. -/
def tile (f : Tile → Tile) (op : Nat) : Tile := f { id := 0, desc := desc op, running := true }
/-- Cell 3 runs a program of context 0 with these tiles, and an open group in slot 0. -/
def seqr (f : Program → Program) (l : List Tile) : State :=
  reg (cell3 (fun k => { k with st := .running, ctx := 0, prog := some (f { prog0 with ctx := 0, tiles := l }), groups := [(0, { grid := false, mLen := 1, nLen := 1, kTotal := 32, cbound := true, boundA := 0, boundB := 0, anchor := 0, tmode := 0, ba := [], bb := [] })] }) (fly id on))
/-- The same, with a tile program at its address. -/
def seqm (f : Program → Program) (op : Nat) : State := poke (seqr f []) 0x10000 (desc op)

/-- The conditions under which a row of tiles takes its effect, as a test on that row's descriptor. -/
def tileGoes (o : TileOp) : Bool :=
  let t := tile id o.op
  let s := o.prep 3 t (seqr id [t])
  decide (runningTile (seqr id [t]) 3 o.op = some t) && o.ready (seqr id [t]) 3 t &&
    (match o.plan s 3 (cellCtx s 3) t with
      | some p => p.open_ s (cellCtx s 3) && decide (badMet s p.reads p.slots = []) && !anyBad s p.reads | none => false)
theorem tileGoes_all : tileOps.all tileGoes = true := by decide +kernel

/-- A copy from the window of cell 4, which context 0 does not own. -/
def strayTile : Tile := tile (fun t => { t with desc := thead 0x30 ++ memw 0 (cellWin 4) ++ memw 0 0x80000 ++ zeros 48 }) 0x30

/-- A copy from device memory. -/
def farTile : Tile := tile (fun t => { t with desc := thead 0x30 ++ memw 0 0x80000 ++ memw 0 (cellWin 3) ++ zeros 48 }) 0x30

/-- A witness for every row of tiles, and a copy for each way of failing. -/
theorem witness_TilesTakeEffect : (∀ o ∈ tileOps, ∃ (s₀ s : State) (c : Nat) (t : Tile) (p : Plan), s₀.Serving ∧ runningTile s₀ c o.op = some t ∧
    o.ready s₀ c t = true ∧ s = o.prep c t s₀ ∧ o.plan s c (cellCtx s c) t = some p ∧ p.open_ s (cellCtx s c) = true ∧
    badMet s p.reads p.slots = [] ∧ anyBad s p.reads = false) ∧
    (∃ (s : State) (c : Nat) (t : Tile) (p : Plan), s.Serving ∧ runningTile s c 0x30 = some t ∧ copyPlan s c (cellCtx s c) t = some p ∧
      p.open_ s (cellCtx s c) = false) ∧
    (∃ (s : State) (c : Nat) (t : Tile) (p : Plan), s.Serving ∧ runningTile s c 0x30 = some t ∧ copyPlan s c (cellCtx s c) t = some p ∧
      p.open_ s (cellCtx s c) = true ∧ badMet s p.reads p.slots ≠ []) ∧
    (∃ (s : State) (c : Nat) (t : Tile) (p : Plan), s.Serving ∧ runningTile s c 0x30 = some t ∧ copyPlan s c (cellCtx s c) t = some p ∧
      p.open_ s (cellCtx s c) = true ∧ badMet s p.reads p.slots = [] ∧ anyBad s p.reads = true) := by
  refine ⟨fun o ho => ?_, ⟨(seqr id [strayTile]).modCell 4 (fun k => { k with ctx := 1 }), 3, strayTile, (copyPlan (seqr id []) 3 0 strayTile).get (by decide +kernel), rfl, by decide +kernel,
      (Option.some_get _).symm, by decide +kernel⟩,
    ⟨cell3 (fun k => { k with bad := [(0, 0)] }) (seqr id [tile id 0x30]), 3, tile id 0x30, (copyPlan (seqr id []) 3 0 (tile id 0x30)).get (by decide +kernel),
      rfl, by decide +kernel, (Option.some_get _).symm, by decide +kernel, by decide +kernel⟩,
    ⟨{ seqr id [farTile] with poison := [0x1000] }, 3, farTile, (copyPlan (seqr id []) 3 0 farTile).get (by decide +kernel),
      rfl, by decide +kernel, (Option.some_get _).symm, by decide +kernel, by decide +kernel, by decide +kernel⟩⟩
  have h := List.all_eq_true.mp tileGoes_all o ho
  unfold tileGoes at h
  simp only [Bool.and_eq_true, decide_eq_true_eq] at h
  obtain ⟨⟨h1, h2⟩, h3⟩ := h
  split at h3
  · rename_i p hp
    simp only [Bool.and_eq_true, decide_eq_true_eq, Bool.not_eq_true'] at h3
    exact ⟨seqr id [tile id o.op], _, 3, _, p, rfl, h1, h2, rfl, hp, h3.1.1, h3.1.2, h3.2⟩
  · cases h3

/-! ## Engines -/

/-- A stream slot (R206). -/
def strm (base fmt dir aux : Nat) : Bytes := le 8 base ++ le 8 (fmt * 2 ^ 60 + dir * 2 ^ 58 + aux)
/-- A job of each program over 32 elements in stack 0, with its parameter block at 0x90000. -/
def jdesc (prog : Nat) : Bytes :=
  let n := zeros 16
  let g := strm 0x80000 13 1 0x81000 ++ strm 0x82000 0 0 0
  let m := strm 0x83000 12 3 0x84000
  le 3 5 ++ le 1 prog ++ le 4 32 ++ zeros 8 ++ le 8 0x90000 ++ zeros 8 ++ (match prog with
    | 0x01 => g ++ m ++ strm 0x85000 0 3 0 ++ n ++ n ++ n ++ n
    | 0x02 => g ++ m ++ strm 0x85000 0 3 0 ++ strm 0x86000 0 3 0 ++ n ++ n ++ n
    | 0x10 => g ++ strm 0x83000 0 2 0 ++ n ++ n ++ n ++ n ++ n
    | 0x20 => strm 0x80000 0 1 0 ++ zeros 96 ++ strm 0x88000 0 2 0
    | 0x21 => strm 0x80000 0 1 0 ++ zeros 96 ++ strm 0x88000 0 2 0
    | 0x30 => strm 0x80000 0 1 0 ++ zeros 96 ++ strm 0x88000 0 2 0
    | 0x40 => strm 0x80000 0 1 0 ++ strm 0x81000 0 1 0 ++ zeros 80 ++ strm 0x88000 0 2 0
    | 0x50 => zeros 112 ++ strm 0x88000 0 2 0
    | 0x51 => strm 0x80000 0 1 0 ++ zeros 96 ++ strm 0x88000 0 2 0
    | 0x60 => zeros 112 ++ strm 0x88000 0 2 0
    | _ => zeros 128)
/-- A job handed over by command 3 of queue 0. -/
def ejob (prog : Nat) : EngJob := { queue := 0, cmd := 3, ctx := 0, desc := jdesc prog, recAt := 0xA0000 }
/-- Holder 8 has that job at the front of its queue. -/
def held (prog : Nat) (s : State) : State := (reg s).modHolder 8 (fun h => { h with queue := [ejob prog] })
/-- A program of each row of engine jobs. -/
def engProgs : List Nat := [0x01, 0x02, 0x10, 0x80, 0x20, 0x21, 0x30, 0x40, 0x50]

/-- The conditions under which a row of engine jobs runs one, as a test. -/
def engGoes (e : EngineOp × Nat) : Bool :=
  let s := held e.2 on
  decide ((s.holder 8).resetting = false) && decide ((s.holder 8).running = none) && decide (fenced s 8 = false) && decide (nextJob (s.holder 8) = some (ejob e.2)) && e.1.mine (jProg (ejob e.2).desc) &&
    (match jobChecks s 8 (ejob e.2) with | .ok r => !e.1.stall s 8 (ejob e.2) r.1 | .error _ => false)

theorem engGoes_all : (engineOps.zip engProgs).all engGoes = true := by decide +kernel

/-- Holder 8 has an update job of a job's context in PROBATION, and its soldier buffer is full. -/
def fullBuffer : State := (((held 0x10 on).modCtx 0 (fun c => { c with jobTag := 5 })).modHub (fun h => { h with health := .probation })).modHolder 8
  (fun h => { h with samples := [{ matrix := false, unit := 8, checker := 9, referee := 10, ctx := 0, jobbed := true, tag := 5, index := 0, witness := [],
                                   size := 0x800000 }] })
theorem fullBuffer_ok : jobChecks fullBuffer 8 (ejob 0x10) = .ok (((jobForm .native (jdesc 0x10)).get (by decide +kernel)).1,
    ((jobForm .native (jdesc 0x10)).get (by decide +kernel)).2, peek fullBuffer 0x90000 (paramLen 0x10)) := by decide +kernel
/-- A witness for every row of engine jobs, and one for a job that fails a check. -/
theorem witness_EngineJobsRun : (∀ o ∈ engineOps, ∃ (s : State) (h : Nat) (j : EngJob) (l : List Stream) (q : QCtl) (b : Bytes),
    s.Serving ∧ EngineFree s h ∧ nextJob (s.holder h) = some j ∧ o.mine (jProg j.desc) = true ∧ jobChecks s h j = .ok (l, q, b) ∧
    o.stall s h j l = false) ∧
    (∃ (s : State) (h : Nat) (j : EngJob), s.Serving ∧ EngineFree s h ∧ nextJob (s.holder h) = some j ∧ jProg j.desc = 0x50 ∧
      jobChecks s h j = .error stPerm) ∧
    (∃ (s : State) (h : Nat) (j : EngJob) (l : List Stream) (q : QCtl) (b : Bytes), s.Serving ∧ EngineFree s h ∧ nextJob (s.holder h) = some j ∧
      jProg j.desc = 0x10 ∧ jobChecks s h j = .ok (l, q, b) ∧ updateStall s h j.ctx j.desc l = true) := by
  refine ⟨fun o ho => ?_, ⟨(held 0x50 on).modCtx 0 (fun c => { c with regions := [] }), 8, ejob 0x50, rfl, ?_, ?_, ?_, ?_⟩,
    ⟨fullBuffer, 8, ejob 0x10, _, _, _, rfl, ⟨by decide +kernel, by decide +kernel, by decide +kernel⟩, by decide +kernel, by decide +kernel,
      fullBuffer_ok, by decide +kernel⟩⟩
  · obtain ⟨p, hp⟩ : ∃ p, (o, p) ∈ engineOps.zip engProgs := by
      have hm : engineOps = (engineOps.zip engProgs).map Prod.fst := rfl
      rw [hm, List.mem_map] at ho
      obtain ⟨⟨a, p⟩, h, rfl⟩ := ho
      exact ⟨p, h⟩
    have h := List.all_eq_true.mp engGoes_all _ hp
    unfold engGoes at h
    simp only [Bool.and_eq_true, decide_eq_true_eq] at h
    obtain ⟨⟨⟨⟨⟨h0, h1⟩, hf⟩, h2⟩, h3⟩, h4⟩ := h
    split at h4
    · rename_i r hr
      exact ⟨held p on, 8, ejob p, r.1, r.2.1, r.2.2, rfl, ⟨h0, h1, hf⟩, h2, h3, hr, by simpa using h4⟩
    · cases h4
  · exact ⟨by decide +kernel, by decide +kernel, by decide +kernel⟩
  · decide +kernel
  · decide +kernel
  · decide +kernel

theorem wire_holders (s : State) (path : Nat) (p : FjPkt) : (wire s path p).holders = s.holders := by
  unfold wire
  split
  · rfl
  · show (sendFrame _ _ _ _).holders = _
    unfold sendFrame
    dsimp only
    split
    · split <;> rfl
    · unfold leave; dsimp only; split <;> rfl
/-- The first message of a flow opens it: nothing ends, and the engines are left alone. -/
theorem fresh_send (s : State) (k : FlowKey) (u : MsgUse) (b : Nat) (ps : List FjPkt) (h : (s.peer k.peer).st ≠ .lost)
    (h2 : (sndFlow s k).st = .closed) (h4 : sndFull s k = false) : (sendMsg s k u b ps).ended = s.ended ∧ (sendMsg s k u b ps).holders = s.holders := by
  simp [sendMsg, h, h2, h4, sendBare, wire_holders]
theorem fresh_none (s : State) (k : FlowKey) (u : MsgUse) (b : Nat) (ps : List FjPkt) (h : (s.peer k.peer).st ≠ .lost)
    (h2 : (sndFlow s k).st = .closed) (h4 : sndFull s k = false) (h3 : s.ended = []) : (sendMsg s k u b ps).ended = [] := by rw [(fresh_send s k u b ps h h2 h4).1, h3]
/-- A manifest of 4 bytes from one source, device 1. -/
def man : Bytes := zeros 64 ++ le 8 4 ++ le 4 0 ++ [1, 0, 0, 0] ++ le 2 1 ++ le 2 0 ++ le 8 0x80000 ++ zeros 36

/-! ## Packets and registers -/

/-- A packet from device 3 for context 0. -/
def pkt (cls ty : Nat) (ext payload : Bytes) : FjPkt :=
  { hdr := { cls := cls, ty := ty, src := 3, dst := 0 }, ext := ext, payload := payload }
/-- A CONTROL message with an opcode and a body. -/
def ctl (op : Nat) (body : Bytes) : FjPkt := pkt 0 1 [] (le 2 op ++ zeros 6 ++ body)
/-- A packet of the job of context 0. -/
def ofJob (p : FjPkt) : FjPkt := { p with hdr := { p.hdr with jobTag := 5 } }
/-- The extension of a COLLECTIVE DATA packet for unit 0 of group 0 (R305). -/
def cext (op fmt : Nat) : Bytes := [BitVec.ofNat 8 op, BitVec.ofNat 8 fmt, 0, 0, 1, 0, 1, 0] ++ zeros 8 ++ zeros 4 ++ le 4 1 ++ le 4 1 ++ zeros 4
/-- A collective descriptor of one unit in group 0. -/
def cdesc (op : Nat) : Bytes := [BitVec.ofNat 8 op, 0, 0, 0, 1, 0, 0, 0] ++ le 4 1 ++ le 4 1 ++ memw 0 0x80000 ++ memw 0 0x81000 ++ zeros 48
/-- Context 0 is READY with a queue and regions. -/
def rdy : State := reg (put (cmd 0 0 0 0 []) .ready on)
/-- Channel 1 changed. -/
def chan (f : Mbox → Mbox) (s : State) : State := s.modMbox 1 f
/-- Every die has its calibration and power. -/
def lit (s : State) : State := (List.range 20).foldl (fun t d => t.modDie d (fun k => { k with on := true })) s

/-- The CONTROL flow to device 3. -/
def fk : FlowKey := { peer := 3, cls := 0, flow := 0 }
/-- Its sending side. -/
def snd3 (f : SndFlow) (s : State) : State := { s with snd := [(fk, f)] }
/-- Device 3 is known. -/
def peer3 (f : Peer → Peer) (s : State) : State := s.modPeer 3 f
/-- A BULK packet of a message of n bytes at a. -/
def bulk (op a n : Nat) (payload : Bytes) : FjPkt := pkt 2 1 ([BitVec.ofNat 8 op, 0, 0, 0] ++ le 4 n ++ le 8 a ++ le 8 0x90000 ++ zeros 8) payload


/-- A device with n sending flows to device 3. -/
def sndCrowd (n : Nat) : State := { on with snd := List.replicate n ({ peer := 3, cls := 0, flow := 1 }, { st := .isOpen }) }
/-- A device with n receiving flows from device 3. -/
def rcvCrowd (n : Nat) : State := { on with rcv := List.replicate n ({ peer := 3, cls := 0, flow := 1 }, { isOpen := true }) }
theorem sndCrowd_flow (n : Nat) : sndFlow (sndCrowd n) fk = {} := by
  have h : (sndCrowd n).snd.find? (fun e => decide (e.1 = fk)) = none :=
    List.find?_eq_none.mpr (fun e he => by rw [(List.mem_replicate.mp he).2]; decide)
  rw [sndFlow, getKey, h]; rfl
theorem rcvCrowd_flow (n : Nat) : rcvFlow (rcvCrowd n) fk = {} := by
  have h : (rcvCrowd n).rcv.find? (fun e => decide (e.1 = fk)) = none :=
    List.find?_eq_none.mpr (fun e he => by rw [(List.mem_replicate.mp he).2]; decide)
  rw [rcvFlow, getKey, h]; rfl
theorem sndCrowd_full (n : Nat) (h : 65536 ≤ n) : sndFull (sndCrowd n) fk = true := by
  have hd : flowDie (sndCrowd n) { peer := 3, cls := 0, flow := 1 } { st := .isOpen } = flowDie (sndCrowd n) fk { path := firstPath (sndCrowd n) fk } := rfl
  have hl : (sndCrowd n).snd = List.replicate n ({ peer := 3, cls := 0, flow := 1 }, { st := .isOpen }) := rfl
  simp [sndFull, hl, ← hd, h]
theorem rcvCrowd_full (n : Nat) (h : 65536 ≤ n) : rcvFull (rcvCrowd n) fk = true := by
  have hd : flowDie (rcvCrowd n) { peer := 3, cls := 0, flow := 1 } { path := firstPath (rcvCrowd n) { peer := 3, cls := 0, flow := 1 } } =
      flowDie (rcvCrowd n) fk { path := firstPath (rcvCrowd n) fk } := rfl
  have hl : (rcvCrowd n).rcv = List.replicate n ({ peer := 3, cls := 0, flow := 1 }, { isOpen := true }) := rfl
  have hf : (rcvFlow (rcvCrowd n) fk).isOpen = false := by rw [rcvCrowd_flow]
  simp [rcvFull, hf, hl, ← hd, h]
/-- Sub-port 5 is up, changed further. -/
def up5 (f : SubPort → SubPort) (s : State) : State := s.modPort 5 (fun k => f { k with present := true, linkUp := true, lanes := 1 })
/-- Plates without MACsec, with 10.0.0.1 and an IPv6 address on sub-port 5. -/
def plain (s : State) : State := { s with plate := { s.plate with macsec := 0, addrs := [(5, [10, 0, 0, 1]), (5, zeros 16)] } }
/-- A CAK in slot 0, which sub-port 5 uses. -/
def caks (s : State) : State := { s with sec := { s.sec with caks := [(0, zeros 32)] } }
/-- A priority that is paused. -/
def paused0 : List Pri := { paused := true } :: List.replicate 7 {}
/-- A frame. -/
def fr (ok : Bool) (len : Nat) (b : FrameBody) : Frame := { len := len, fcsOk := ok, sec := .unsecured, pcp := none, dscp := 0, body := b }
/-- Die 16 changed. -/
def l16 (f : LinkDie → LinkDie) (s : State) : State := s.modLink 16 f

/-! ## Power, firmware, hangs, resets -/

/-- The power state is changed. -/
def inSt (st : PwrSt) (s : State) : State := { s with pwr := { s.pwr with st := st } }
/-- Die 9 changed, which has power and a sensor. -/
def die9 (f : Die → Die) (s : State) : State := s.modDie 9 (fun k => f { k with on := true, sensors := [{ temp := 100, valid := true }], capLim := 1000, shutLim := 1600 })
/-- Hub changed. -/
def hub1 (f : Hub → Hub) (s : State) : State := s.modHub f
/-- Every compartment runs. -/
def fw (s : State) : State := hub1 (fun h => { h with comps := List.replicate 5 { st := 1 } }) s
/-- A command in flight of an opcode. -/
def flyOp (op : Nat) (f : Cmd → Cmd) (s : State) : State := fly (fun c => f { c with bytes := cmd op 0 0 0 [] }) s
/-- That command. -/
def cmdOp (op : Nat) (f : Cmd → Cmd) : Cmd := f { idx := 3, bytes := cmd op 0 0 0 [] }
/-- A command that waits for semaphore 5 and signals it. -/
def selfWait : Bytes := zeros 4 ++ le 4 0x00500500 ++ zeros 56
/-- Context 0 waits for the vote of device 3, which waits for this device. -/
def bothWait : State :=
  peer3 (fun p => { p with markers := [{ jobTag := 5, dev := 0, cls := 0, phase := 3, step := 0 }] })
    (ctx0 (fun c => { c with st := .ready, job := some { job0 with members := [0, 3] } }) (train (fun l => { l with phase := .commit, isOpen := true, ownVote := true, votes := [vote 0 0 []] }) on))

/-- The owner's keys are in the fuses, and the security state is changed. -/
def owned1 (f : Sec → Sec) (s : State) : State := { s with sec := f { s.sec with owners := [([1], [2])] } }
/-- The security state is changed. -/
def secured (f : Sec → Sec) (s : State) : State := { s with sec := f s.sec }
/-- BOOT_PUPA. -/
def pupa (f : Boot → Boot) (s : State) : State := { inSt .pupa s with boot := f { s.boot with stage := .pupa } }

/-! ## The ranges of the operands: for every check a term it refuses -/

theorem test_wf_refuses_queue : Instr.wf (.nop 16384) = false := by decide +kernel
theorem test_wf_refuses_queue_index : Instr.wf (.commandTimeout 0 0x100000000) = false := by decide +kernel
theorem test_wf_refuses_context : Instr.wf (.regionZeroed 64) = false := by decide +kernel
theorem test_wf_refuses_cell : Instr.wf (.tileStart 256) = false := by decide +kernel
theorem test_wf_refuses_ecc_store : Instr.wf (.matmul 0 [{ store := 3, addr := 0, double := false }]) = false := by decide +kernel
theorem test_wf_refuses_descriptor : Instr.wf (.celCoreIssue 0 [] 0) = false := by decide +kernel
theorem test_wf_refuses_holder : Instr.wf (.sgdMom 16) = false := by decide +kernel
theorem test_wf_refuses_holder_low : Instr.wf (.digest 7) = false := by decide +kernel
theorem test_wf_refuses_holder_cell : Instr.wf (.scatterAddApply 8 256 0) = false := by decide +kernel
theorem test_wf_refuses_holder_context : Instr.wf (.adaptationPass 8 64) = false := by decide +kernel
theorem test_wf_refuses_requester_context : Instr.wf (.holderAccess (.unit 64) false 0 1 [] {}) = false := by decide +kernel
theorem test_wf_refuses_requester_peer : Instr.wf (.selfTest (.peer 0x4000) 0) = false := by decide +kernel
theorem test_wf_refuses_address : Instr.wf (.registerReadClear .firmware 0x1000000000000 4) = false := by decide +kernel
theorem test_wf_refuses_packet_version : Instr.wf (.ack { hdr := { cls := 0, ty := 1, src := 3, dst := 0, version := 16 } }) = false := by decide +kernel
theorem test_wf_refuses_packet_class : Instr.wf (.ack { hdr := { cls := 4, ty := 1, src := 3, dst := 0 } }) = false := by decide +kernel
theorem test_wf_refuses_packet_type : Instr.wf (.vote { hdr := { cls := 0, ty := 256, src := 3, dst := 0 } }) = false := by decide +kernel
theorem test_wf_refuses_packet_source : Instr.wf (.ack { hdr := { cls := 0, ty := 1, src := 65536, dst := 0 } }) = false := by decide +kernel
theorem test_wf_refuses_packet_dest : Instr.wf (.ack { hdr := { cls := 0, ty := 1, src := 3, dst := 65536 } }) = false := by decide +kernel
theorem test_wf_refuses_packet_job : Instr.wf (.ack { hdr := { cls := 0, ty := 1, src := 3, dst := 0, jobTag := 0x100000000 } }) = false := by decide +kernel
theorem test_wf_refuses_packet_flow : Instr.wf (.ack { hdr := { cls := 0, ty := 1, src := 3, dst := 0, flow := 65536 } }) = false := by decide +kernel
theorem test_wf_refuses_packet_context : Instr.wf (.ack { hdr := { cls := 0, ty := 1, src := 3, dst := 0, ctx := 256 } }) = false := by decide +kernel
theorem test_wf_refuses_packet_psn : Instr.wf (.ack { hdr := { cls := 0, ty := 1, src := 3, dst := 0, psn := 0x100000000 } }) = false := by decide +kernel
theorem test_wf_refuses_packet_ack : Instr.wf (.ack { hdr := { cls := 0, ty := 1, src := 3, dst := 0, ackPsn := 0x100000000 } }) = false := by decide +kernel
theorem test_wf_refuses_packet_msg : Instr.wf (.ack { hdr := { cls := 0, ty := 1, src := 3, dst := 0, msgSeq := 0x100000000 } }) = false := by decide +kernel
theorem test_wf_refuses_packet_offset : Instr.wf (.ack { hdr := { cls := 0, ty := 1, src := 3, dst := 0, msgOff := 0x100000000 } }) = false := by decide +kernel
theorem test_wf_refuses_packet_epoch : Instr.wf (.ack { hdr := { cls := 0, ty := 1, src := 3, dst := 0, epoch := 0x100000000 } }) = false := by decide +kernel
theorem test_wf_refuses_packet_step : Instr.wf (.ack { hdr := { cls := 0, ty := 1, src := 3, dst := 0, step := 0x10000000000000000 } }) = false := by decide +kernel
theorem test_wf_refuses_packet_phase : Instr.wf (.ack { hdr := { cls := 0, ty := 1, src := 3, dst := 0, phase := 256 } }) = false := by decide +kernel
theorem test_wf_refuses_packet_payload : Instr.wf (.ack { hdr := { cls := 0, ty := 1, src := 3, dst := 0 }, payload := zeros 8193 }) = false := by decide +kernel
theorem test_wf_refuses_packet_ext : Instr.wf (.ack { hdr := { cls := 0, ty := 1, src := 3, dst := 0 }, ext := zeros 40 }) = false := by decide +kernel
theorem test_wf_refuses_packet_ext_unit : Instr.wf (.ack { hdr := { cls := 0, ty := 1, src := 3, dst := 0 }, ext := zeros 7 }) = false := by decide +kernel
theorem test_wf_refuses_sender : Instr.wf (.mboxRead (.peer 0x4000) 0) = false := by decide +kernel
theorem test_wf_refuses_channel : Instr.wf (.ringPut 64) = false := by decide +kernel
theorem test_wf_refuses_message : Instr.wf (.mboxWrite .host 0 (zeros 257) none) = false := by decide +kernel
theorem test_wf_refuses_transport : Instr.wf (.getVersion (.fjorum 0xFFFF)) = false := by decide +kernel
theorem test_wf_refuses_convert_message : Instr.wf (.convert 3 (zeros 257)) = false := by decide +kernel
theorem test_wf_refuses_time_latch : Instr.wf (.lnkTimeNsRead .firmware 2) = false := by decide +kernel
theorem test_wf_refuses_device : Instr.wf (.peerLost 0xFFFF) = false := by decide +kernel
theorem test_wf_refuses_flow_class : Instr.wf (.flowClose { peer := 3, cls := 4, flow := 0 }) = false := by decide +kernel
theorem test_wf_refuses_flow_index : Instr.wf (.flowClose { peer := 3, cls := 0, flow := 4096 }) = false := by decide +kernel
theorem test_wf_refuses_retransmit_psn : Instr.wf (.retransmissionTimeout { peer := 3, cls := 0, flow := 0 } 0x100000000) = false := by decide +kernel
theorem test_wf_refuses_lane : Instr.wf (.linkUp 72) = false := by decide +kernel
theorem test_wf_refuses_priority : Instr.wf (.pfcXon 0 8) = false := by decide +kernel
theorem test_wf_refuses_pfc_mask : Instr.wf (.pfcFrame 0 256 [0, 0, 0, 0, 0, 0, 0, 0]) = false := by decide +kernel
theorem test_wf_refuses_pfc_count : Instr.wf (.pfcFrame 0 1 []) = false := by decide +kernel
theorem test_wf_refuses_pfc_quanta : Instr.wf (.pfcFrame 0 1 [0, 0, 0, 0, 0, 0, 0, 65536]) = false := by decide +kernel
theorem test_wf_refuses_link_die : Instr.wf (.ptpFault 15) = false := by decide +kernel
theorem test_wf_refuses_die : Instr.wf (.fabricLinkDown 20 0) = false := by decide +kernel
theorem test_wf_refuses_reading : Instr.wf (.powerOn 65536) = false := by decide +kernel
theorem test_wf_refuses_temperature : Instr.wf (.thermalCap 9 0 32768) = false := by decide +kernel
theorem test_wf_refuses_compute_die : Instr.wf (.droopEvent 8) = false := by decide +kernel
theorem test_wf_refuses_drift : Instr.wf (.sensorRecalibration 9 0 0 256) = false := by decide +kernel
theorem test_wf_refuses_hub_core : Instr.wf (.hubBeat 4) = false := by decide +kernel
theorem test_wf_refuses_compartment : Instr.wf (.sliceOverrun 5) = false := by decide +kernel
theorem test_wf_refuses_cause : Instr.wf (.compartmentFault 0 0) = false := by decide +kernel
theorem test_wf_refuses_gate_message : Instr.wf (.gateCall 0 1 (zeros 257)) = false := by decide +kernel
theorem test_wf_refuses_job_tag : Instr.wf (.crossDeviceHang 3 0x100000000) = false := by decide +kernel
theorem test_wf_refuses_trigger : Instr.wf (.cellReset 0 4) = false := by decide +kernel
theorem test_wf_refuses_calibration : Instr.wf (.bootFuse [{ die := 20, mask := 0 }] none) = false := by decide +kernel
theorem test_wf_refuses_calibration_mask : Instr.wf (.bootCarapace [{ die := 0, mask := 256 }]) = false := by decide +kernel
theorem test_wf_refuses_train_lane : Instr.wf (.bootTrainLinks (some 72)) = false := by decide +kernel
theorem test_wf_refuses_image_length : Instr.wf (.imageFetch (.mgmt 1) false 1 [0, 0]) = false := by decide +kernel
theorem test_wf_refuses_path : Instr.wf (.amendment (.control 64) []) = false := by decide +kernel
theorem test_wf_refuses_window : Instr.wf (.lendEnd 0 16) = false := by decide +kernel
theorem test_wf_refuses_owner_hash : Instr.wf (.ownershipChange 1 [] [] [] []) = false := by decide +kernel
theorem test_wf_refuses_cak_slot : Instr.wf (.cakInstall 1 16 []) = false := by decide +kernel
theorem test_wf_refuses_grant_kind : Instr.wf (.debugGrant 1 6 0 0) = false := by decide +kernel
theorem test_wf_refuses_measurement : Instr.wf (.getMeasurements .mgmt none 256 (zeros 32)) = false := by decide +kernel
theorem test_wf_refuses_nonce : Instr.wf (.challenge .mgmt 0 (zeros 31)) = false := by decide +kernel
theorem test_wf_admits : ([.nop 16383, .tileStart 255, .sgdMom 19, .linkUp 71, .digest 8, .thermalCap 19 0 (-32768)] : List Instr).all Instr.wf = true := by decide

/-! ## The table gives no row any bits, so no word spells a command; the queue is first in, first out -/

theorem test_no_word_spells : decodeTableWord 32 0 = none := rfl
theorem test_front_first : (match step { State.reset with pending := [.nop 0, .hubBeat 0] } with | .next t => t.pending | _ => []) = [.hubBeat 0] := by
  decide +kernel

/-! ## Worked examples of the spec -/

/-- "One GBF8 block in DYNAMIC mode, RNE" (02): codes, scale byte 0x85 and side-plane entry 0x3C24. -/
theorem test_gbf8_block :
    let r := encGbf 8 .rne true none (fun _ => 0) (([0x3E99999A, 0xBECCCCCD, 0x42C80000, 0x3F19999A, 0xBFC00000, 0x40200000, 0x00000000, 0x3EE66666] ++ [0x40400000, 0xC0300000, 0x40600000, 0x3FA00000, 0xBE000000, 0x40000000, 0x3F000000, 0xC0500000] ++
      [0x41700000, 0x40E00000, 0xC1400000, 0x3CF5C28F, 0x41100000, 0xC1780000, 0x00000000, 0x40800000] ++ [0x00000000, 0x00000000, 0x7FC00000, 0x00000000, 0x00000000, 0x00000000, 0x00000000, 0x80000000]).map dec32)
    r.codes = [0x00, 0x00, 0x64, 0x01, 0x82, 0x02, 0x00, 0x00] ++ [0x18, 0x96, 0x1C, 0x0A, 0x81, 0x10, 0x04, 0x9A] ++ [0x78, 0x38, 0xE0, 0x00, 0x48, 0xFC, 0x00, 0x20] ++
      [0x00, 0x00, 0x80, 0x00, 0x00, 0x00, 0x00, 0x00] ∧ r.scale = 0x85 ∧ r.side = 0x3C24 := by decide +kernel
/-- Its check: element 9 decodes as −22 × 2^−3, element 21 as −124 × 2^−3, element 2 as 100. -/
theorem test_gbf8_check : decGbf 8 0x85 0x3C24 9 0x96 = .fin true 22 (-3) ∧ decGbf 8 0x85 0x3C24 21 0xFC = .fin true 124 (-3) ∧
    decGbf 8 0x85 0x3C24 2 0x64 = .fin false 100 0 := by decide +kernel
/-- "A GBI16 block with an overflow" (02). -/
theorem test_gbi16_block :
    let r := encGbi 16 .rne 0x7A (fun _ => 0) (([0x3C23D70A, 0xBD23D70A, 0x38D1B717] ++ List.replicate 29 0).map dec32)
    r.codes.take 3 = [0x28F6, 0x8001, 0x0069] ∧ r.nibble = 8 := by decide +kernel

/-- GBF8 with micro-exponent 0. -/
def g8 (scale code : Nat) : Val := decGbf 8 scale 0 0 code
/-- Chunk 0 of "Two chunks on one cell and on two devices" (03). -/
def k0 : ChunkSum := chunk (some 13) [(g8 0x85 0x64, g8 0x7F 0x40), (g8 0x85 0x03, g8 0x7F 0xE0), (g8 0x85 0x87, g8 0x7F 0x21)]
/-- Chunk 1. -/
def k1 : ChunkSum := chunk (some 13) [(g8 0x70 0x7E, g8 0x7F 0x64), (g8 0x70 0x81, g8 0x7F 0x01)]
theorem test_chunks : k0.c = 5881 * 2 ^ 61 ∧ k0.t = 7 ∧ k1.c = 12599 * 2 ^ 60 ∧ k1.t = -13 := by decide +kernel
/-- On one cell: the grid word and the FP32 output. -/
theorem test_grid_word :
    let g := (gridChunk (gridChunk { a := some 13 } k0).1 k1).1
    g.word = 0x016F90189B8000000000 ∧ enc32 (gridVal g) = 0x42B7C80C := by decide +kernel
/-- On two devices: the raw partials and their sum. -/
theorem test_partials :
    let x := (gridChunk { a := some 13 } k0).1
    let y := (gridChunk { a := some 13 } k1).1
    x.word = 0x016F9000000000000000 ∧ y.word = 0x189B8000000000 ∧ (gridAdd x y).word = 0x016F90189B8000000000 := by decide +kernel

/-- E5M2. -/
def e5 (code : Nat) : Val := decFloat (layout .e5m2) code
/-- "Special values in one tile" (03), row 0: the special-state bits, and the FP32 results of NATIVE mode. -/
theorem test_special_values :
    let o := fun (b : List Nat) => let k := chunk (some 40) (List.zip ([0x7C, 0x40, 0xBE, 0xFC].map e5) (b.map e5)); (k.st, enc32 (resolve false k.st vZero))
    [[0x3C, 0x42, 0, 0xBC], [0, 0, 0x7D, 0], [0xC0, 0x38, 0, 0xBC], [0, 0, 0x3C, 0]].map o =
      [(stPos, 0x7F800000), (stNan ||| stInfZero, 0x7FC00001), (stPos ||| stNeg, 0x7FC00002), (stInfZero, 0x7FC00003)] := by decide +kernel

/-- "Two contributions in either order" (05): the sum is 5 × 2^75, and 4.0 sets pos_inf and leaves the word. -/
theorem test_contributions :
    let add := fun (g : Grid) (p : Nat) => (rowAdd g (decFloat (layout .bf16) p)).1
    let g := add (add { a := some 2 } 0x3FC0) 0xBE80
    g = add (add { a := some 2 } 0xBE80) 0x3FC0 ∧ g.word = 5 * 2 ^ 75 ∧ add g 0x4080 = { g with st := stPos } := by decide +kernel

/-- "Locating a line and its partner" (06): context memory of stack 2. -/
theorem test_line_area : areaOf State.reset 0x001A34567880 = .context 10 := by decide +kernel

/-- "One block through three events" (07): the overflow, the loss scale, the shift, and the 256th low step. -/
theorem test_block_events : adaptBlock 8 0x7A 0 = (0x7B, 0, true, false) ∧ (adaptLs .committed { clean := 1999 }).1.ls = 17 ∧
    shiftExp 0x7B 1 = 0x7C ∧ adaptBlock 1 0x7C 255 = (0x7B, 0, false, true) := by decide +kernel
/-- "One block on two placements" (08): the nibble of either placement is 0x8. -/
theorem test_placements : nibJoin (nibJoin 0 8) (nibJoin 0 5) = 8 ∧ nibJoin (nibJoin 0 5) (nibJoin 8 0) = 8 := by decide +kernel
/-- "Two members lost from one group" (12): the terms of P1. -/
theorem test_parity_terms : gfMul 2 0x22 = 0x44 ∧ gfMul 4 0x33 = 0xCC ∧ gfMul 8 0x44 = 0x1A ∧ gfMul 16 0x55 = 0x39 ∧ gfMul 32 0x66 = 0x5C := by decide +kernel
/-- "Four register addresses" (16). -/
theorem test_register_addresses : blockOf 0x0F000171000C = some (.cel 113, 0xC) ∧ blockOf 0x0F0000880110 = some (.lnk 17, 0x110) ∧
    blockOf 0x0F0000402134 = some (.pwr, 0x134) ∧ blockOf 0x0F0000123288 = some (.hub, 0x123288) := by decide +kernel

/-! ## The published vectors of the ciphers and hashes the spec names -/

/-- FIPS 197, appendix C.3. -/
theorem test_aes256 : aes256 ((List.range 32).map (BitVec.ofNat 8)) ((List.range 16).map (fun i => BitVec.ofNat 8 (17 * i))) =
    [0x8E, 0xA2, 0xB7, 0xCA, 0x51, 0x67, 0x45, 0xBF, 0xEA, 0xFC, 0x49, 0x90, 0x4B, 0x49, 0x60, 0x89] := by decide +kernel
/-- FIPS 180-4: SHA-512 of "abc", its first eight bytes. -/
theorem test_sha512 : (sha512 [0x61, 0x62, 0x63]).take 8 = [0xDD, 0xAF, 0x35, 0xA1, 0x93, 0x61, 0x7A, 0xBA] := by decide +kernel


/-! ## BOOT_CARAPACE of a base that verifies

What the signature checks answer is open (log entry 7), so these witnesses take that they pass as their one hypothesis. -/

/-- The header of a base for any device, shape 0, signed by the owner, that says it has `n` plates. -/
def caraHead (n : Nat) : Bytes := le 4 0x53434659 ++ le 2 1 ++ zeros 18 ++ le 4 8307 ++ le 2 n ++ [1, 0] ++ zeros 32
/-- The base: its keys and signatures are erased flash. -/
def caraBytes (n : Nat) : Bytes := caraHead n ++ List.replicate 8243 0xFF
/-- Its envelope. -/
def caraEnv (n : Nat) : Envelope := { shape := 0, seq := 0, serial := 0, length := 8307, count := n, signer := 1, kind := 0, baseSeq := 0 }
/-- The flash that holds it as copy A. -/
def caraFlash (n : Nat) : List Host.Cell := ((List.range 64).map (fun i => (0x9000000 + i, (caraHead n).getD i 0)))
/-- The owner of those keys. -/
def caraSec : Sec := { owners := [(sha512 (List.replicate 512 0xFF), sha512 (List.replicate 2592 0xFF))] }
/-- The state has that flash and that owner. -/
def Cara (n : Nat) (s : State) : Prop := s.flash = caraFlash n ∧ s.sec = caraSec

theorem tab_above {α : Type} (d : α) (l : Tab α) (k : Nat) (h : ∀ c ∈ l, c.1 ≠ k) : Tab.get d l k = d := by
  induction l with
  | nil => rfl
  | cons c t ih => rw [Tab.get, if_neg (h c (by simp))]; exact ih (fun e he => h e (by simp [he]))

theorem caraHead_length (n : Nat) : (caraHead n).length = 64 := by simp [caraHead, le, zeros]

theorem cara_read (n : Nat) (h : n < 2) : memRead flashFill (caraFlash n) 0x9000000 8307 = caraBytes n := by
  have h1 : memRead flashFill (caraFlash n) 0x9000000 64 = caraHead n := by interval_cases n <;> decide +kernel
  have h2 : (List.range 8243).map (fun i => memGet flashFill (caraFlash n) (0x9000000 + (64 + i))) = List.replicate 8243 0xFF := by
    rw [List.eq_replicate_iff]
    refine ⟨by rw [List.length_map, List.length_range], fun b hb => ?_⟩
    obtain ⟨i, -, rfl⟩ := List.mem_map.mp hb
    exact tab_above _ _ _ (fun c hc => by obtain ⟨j, hj, rfl⟩ := List.mem_map.mp hc; have := List.mem_range.mp hj; dsimp only; omega)
  rw [memRead_eq, show 8307 = 64 + 8243 from rfl, List.range_add, List.map_append, List.map_map, ← memRead_eq, h1]
  exact congrArg _ h2

theorem cara_length (n : Nat) : (caraBytes n).length = 8307 := by
  rw [caraBytes, List.length_append, caraHead_length, List.length_replicate]

theorem cara_envelope (n : Nat) (h : n < 2) : envelopeOf (caraBytes n) = some (caraEnv n) := by
  rw [envelopeOf, cara_length]
  interval_cases n <;> decide +kernel

theorem cara_copy (n : Nat) (s : State) (h : n < 2) (hs : s.flash = caraFlash n) : baseCopy s 0 = some (caraEnv n, caraBytes n) := by
  have h1 : leAt (flashRead s 0x9000000 64) 24 4 = 8307 := by rw [flashRead, hs]; interval_cases n <;> decide +kernel
  have h2 : flashRead s 0x9000000 8307 = caraBytes n := by rw [flashRead, hs]; exact cara_read n h
  simp [baseCopy, h1, h2, cara_envelope n h, caraEnv]

theorem cara_other (n : Nat) (s : State) (h : n < 2) (hs : s.flash = caraFlash n) : baseCopy s 1 = none := by
  have h1 : leAt (flashRead s 0x9800000 64) 24 4 = 0xFFFFFFFF := by rw [flashRead, hs]; interval_cases n <;> decide +kernel
  simp [baseCopy, h1]

theorem cara_keys (n : Nat) : signerKeys (caraEnv n) (caraBytes n) = (List.replicate 512 0xFF, List.replicate 2592 0xFF) := by
  have h : ∀ i k : Nat, k + i ≤ 8243 → slice (caraBytes n) (64 + i) k = List.replicate k 0xFF := fun i k hk => by
    have hd : (caraBytes n).drop (64 + i) = List.replicate (8243 - i) 0xFF := by
      rw [← List.drop_drop, caraBytes, List.drop_left' (caraHead_length n), List.drop_replicate]
    simp [slice, hd, List.take_replicate, Nat.min_eq_left (Nat.le_sub_of_add_le hk), zeros]
  have h0 := h 0 512 (by omega)
  have h1 := h 512 2592 (by omega)
  simp only [signerKeys, caraEnv, tailLen, show (1 : Nat) ≠ 3 by omega, if_false]
  rw [← h0, ← h1]

theorem cara_base (n : Nat) (s : State) (h : n < 2) (hs : Cara n s) (hv : sigFault (caraEnv n) (caraBytes n) = none) :
    chooseBase s = .ok (caraEnv n, caraBytes n) := by
  have hk : keysFit s (caraEnv n) (caraBytes n) = true := by
    have ho : ownerHashes s.sec = some (sha512 (List.replicate 512 0xFF), sha512 (List.replicate 2592 0xFF)) := by rw [hs.2]; rfl
    have hk : ∀ a b : Bytes, keysAre (a, b) (sha512 a) (sha512 b) = true := fun a b => by simp [keysAre]
    have hg : (caraEnv n).signer = 1 := rfl
    simp only [keysFit, cara_keys, ho, hg, hk]
  have hf : baseFault s (caraEnv n) (caraBytes n) = none := by rw [baseFault, hk]; exact hv
  simp [chooseBase, newerBase, cara_copy n s h hs.1, cara_other n s h hs.1, hf]

/-- The module runs BOOT_CARAPACE with that flash, changed further. -/
def caraAt (n : Nat) (f : State → State) : State := f { inSt .starting on with flash := caraFlash n, sec := caraSec, boot := { stage := .carapace, active := true } }
/-- An amendment of that base whose plate is missing. -/
def caraAmend : Bytes := le 4 0x53434659 ++ le 2 1 ++ zeros 18 ++ le 4 64 ++ le 2 1 ++ [3, 1] ++ zeros 32
/-- The state once the plates of that base are in force. -/
def caraIn (s : State) : State := { s with plate := (shapeConf 0).plate, boot := { s.boot with
  stream := caraBytes 0, caraSeen := max s.boot.caraSeen ((caraEnv 0).seq + 1),
  applied := s.boot.amends.filter (fun a => match envelopeOf a with | some k => k.baseSeq = (caraEnv 0).seq | none => false) } }

/-- A state for every case of BOOT_CARAPACE with a base that verifies. -/
theorem witness_BootCarapace (h0 : sigFault (caraEnv 0) (caraBytes 0) = none) (h1 : sigFault (caraEnv 1) (caraBytes 1) = none) :
    (∃ (s : State) (e : Envelope) (b : Bytes) (f : PlateErr), s.pwr.st.isDark = false ∧ inStage s .carapace = true ∧
      chooseBase s = .ok (e, b) ∧ addStream s e b (shapeConf e.shape) = .error f) ∧
    (∃ (s : State) (e : Envelope) (b : Bytes) (c : Conf) (f : Nat × Nat), s.pwr.st.isDark = false ∧ inStage s .carapace = true ∧
      chooseBase s = .ok (e, b) ∧ addStream s e b (shapeConf e.shape) = .ok c ∧ logAmends s e.seq s.boot.amends c = .error f) ∧
    (∃ g : Fin 4 → State, ∀ i, (g i).pwr.st.isDark = false ∧ inStage (g i) .carapace = true ∧ chooseBase (g i) = .ok (caraEnv 0, caraBytes 0) ∧
      addStream (g i) (caraEnv 0) (caraBytes 0) (shapeConf (caraEnv 0).shape) = .ok (shapeConf 0) ∧
      logAmends (g i) (caraEnv 0).seq (g i).boot.amends (shapeConf 0) = .ok (shapeConf 0) ∧
      (match i with
        | 0 => (List.range 20).find? (fun d => !fenced (caraIn (g i)) d && decide (((caraIn (g i)).die d).failMask ≠ 0)) = some 3
        | 1 => (∀ d, d < 20 → fenced (caraIn (g i)) d = false → ((caraIn (g i)).die d).failMask = 0) ∧ missingKinds (caraIn (g i)) ≠ 0
        | 2 => (∀ d, d < 20 → fenced (caraIn (g i)) d = false → ((caraIn (g i)).die d).failMask = 0) ∧ missingKinds (caraIn (g i)) = 0 ∧
          [8, 9, 10, 11, 12, 13, 14, 15, 19].find? (fun d => !fenced (writeRoutes (isolate (fenceDies (caraIn (g i))))) d &&
            decide (calMask [{ die := 8, mask := 1 }] d ≠ 0)) = some 8
        | 3 => (∀ d, d < 20 → fenced (caraIn (g i)) d = false → ((caraIn (g i)).die d).failMask = 0) ∧ missingKinds (caraIn (g i)) = 0 ∧
          ∀ d, d ∈ [8, 9, 10, 11, 12, 13, 14, 15, 19] → fenced (writeRoutes (isolate (fenceDies (caraIn (g i))))) d = false → calMask [] d = 0)) := by
  have hb : ∀ f : State → State, Cara 0 (caraAt 0 f) → chooseBase (caraAt 0 f) = .ok (caraEnv 0, caraBytes 0) :=
    fun f hf => cara_base 0 _ (by omega) hf h0
  refine ⟨⟨caraAt 1 id, _, _, badForm 0 0, rfl, rfl, cara_base 1 _ (by omega) ⟨rfl, rfl⟩ h1, rfl⟩,
    ⟨caraAt 0 (fun s => { s with boot := { s.boot with amends := [caraAmend] } }), _, _, shapeConf 0, badForm 0 0, rfl, rfl, hb _ ⟨rfl, rfl⟩, rfl, rfl⟩,
    ⟨fun i => caraAt 0 (match i with
      | 0 => fun s => s.modDie 3 (fun d => { d with failMask := 1 })
      | 1 => fun s => (List.range 8).foldl (fun t d => t.modDie d (fun k => { k with fenced := true })) s
      | _ => id), fun i => ?_⟩⟩
  fin_cases i
  · exact ⟨rfl, rfl, hb _ ⟨rfl, rfl⟩, rfl, rfl, by decide +kernel⟩
  · exact ⟨rfl, rfl, hb _ ⟨rfl, rfl⟩, rfl, rfl, by decide +kernel, by decide +kernel⟩
  · exact ⟨rfl, rfl, hb _ ⟨rfl, rfl⟩, rfl, rfl, by decide +kernel, by decide +kernel, by decide +kernel⟩
  · exact ⟨rfl, rfl, hb _ ⟨rfl, rfl⟩, rfl, rfl, by decide +kernel, by decide +kernel, by decide +kernel⟩

/-! ## For every statement with hypotheses: states and operands that meet them, one clause after another -/

theorem witness_StepRunsFront :
    (∃ (i : Instr) (rest : List Instr) (s : Machine.State), s.pending = i :: rest) :=
  ⟨.resetN, [.pwrEnLow], { on with pending := [.resetN, .pwrEnLow] }, by decide +kernel⟩

theorem witness_IdleStepCountsClock :
    (∃ (s : Machine.State), s.pending = []) :=
  ⟨on, by decide +kernel⟩

theorem witness_NoPowerNoEffect :
    (∃ (i : Instr) (s : Machine.State), s.Inv ∧ s.pwr.st.isDark = true ∧ onPins i = false) :=
  ⟨.nop 0, State.reset, fun _ => rfl, by decide +kernel⟩

theorem witness_DarkHoldsNothing :
    (∃ (s : Machine.State) (s' : Machine.State), s.Inv ∧ step s = Host.Outcome.next s') :=
  ⟨{ State.reset with pending := [.resetN] }, State.reset, fun _ => rfl, rfl⟩

theorem witness_BeginAndFinish :
    (∃ (q : ℕ) (r : ℕ), r ≠ q) ∧
    (∃ (s : Machine.State) (q : ℕ) (y : ℕ), y ≠ (s.queue q).ctx) ∧
    (∃ (b : Bytes), cWait b < 4095) ∧
    (∃ (b : Bytes), 4095 ≤ cWait b) ∧
    (∃ (s : Machine.State) (q : ℕ), queueLc s q = true) ∧
    (∃ (s : Machine.State) (q : ℕ), queueLc s q = false) ∧
    (∃ (s : Machine.State) (q : ℕ) (k : ℕ) (st : ℕ) (c : Cmd), findCmd s q k = some c ∧ c.status = none ∧ c.hung = false ∧ c.counted = false ∧ st ≠ stInternal) ∧
    (∃ (s : Machine.State) (q : ℕ) (k : ℕ) (c : Cmd), findCmd s q k = some c ∧ c.status.isSome = true) :=
  ⟨⟨0, 1, by decide +kernel⟩,
   ⟨on, 0, 1, by decide +kernel⟩,
   ⟨zeros 64, by decide +kernel⟩,
   ⟨cmd 0 0 0 0 [], by decide +kernel⟩,
   ⟨on.modCtx 0 (fun c => { c with lc := true }), 0, by decide +kernel⟩,
   ⟨on, 16383, by decide +kernel⟩,
   ⟨((on.modQueue 0 (fun w => { w with flight := [{ idx := 3, bytes := cmd 0 0 0 0 [], status := none }] }))), 0, 3, stOk, { idx := 3, bytes := cmd 0 0 0 0 [] }, by decide +kernel⟩,
   ⟨((on.modQueue 0 (fun w => { w with flight := [{ idx := 3, bytes := cmd 0 0 0 0 [], status := some 0 }] }))), 0, 3, { idx := 3, bytes := cmd 0 0 0 0 [], status := some 0 }, by decide +kernel⟩⟩

theorem witness_QueueSettings :
    (∃ (s : Machine.State) (q : ℕ) (b : Bytes), Starts s q b ∧ cOp b = 0) ∧
    (∃ (s : Machine.State) (q : ℕ) (b : Bytes), s.Serving ∧ (∀ c ∈ (s.queue q).flight, c.waiting = false) ∧ nextCmd s q = Except.ok b ∧ cOp b = 0 ∧ wantsUnit s q b = true ∧ cWait b < 4095 ∧ (List.countP (fun v => decide (v.1 = cWait b) && waitStands s v) (List.takeWhile (fun v => decide (v ≠ cmdWait s q b)) (s.ctx (s.queue q).ctx).semQ) ≥ Tab.get 0 (s.ctx (s.queue q).ctx).sems (cWait b)) ∧ cmdWait s q b ∉ (s.ctx (s.queue q).ctx).semQ) ∧
    (∃ (s : Machine.State) (q : ℕ) (b : Bytes), Starts s q b ∧ cOp b = 6 ∧ leAt b 26 1 = 0) ∧
    (∃ (s : Machine.State) (q : ℕ) (b : Bytes), Starts s q b ∧ cOp b = 6 ∧ leAt b 26 1 = 1) ∧
    (∃ (s : Machine.State) (q : ℕ) (r : ℕ) (b : Bytes), Starts s q b ∧ cOp b = 5 ∧ r = leAt b 24 2 ∧ (s.queue r).defined = true ∧ (s.queue r).ctx = (s.queue q).ctx ∧ leAt b 26 1 = 2) ∧
    (∃ (s : Machine.State) (q : ℕ) (r : ℕ) (b : Bytes), Starts s q b ∧ cOp b = 5 ∧ r = leAt b 24 2 ∧ (s.queue r).defined = true ∧ (s.queue r).ctx = (s.queue q).ctx ∧ leAt b 26 1 = 3) ∧
    (∃ (s : Machine.State) (q : ℕ) (r : ℕ) (b : Bytes), Starts s q b ∧ cOp b = 5 ∧ r = leAt b 24 2 ∧ (s.queue r).defined = true ∧ (s.queue r).ctx = (s.queue q).ctx ∧ leAt b 26 1 = 4) ∧
    (∃ (s : Machine.State) (q : ℕ) (r : ℕ) (b : Bytes), Starts s q b ∧ cOp b = 5 ∧ r = leAt b 24 2 ∧ (s.queue r).defined = true ∧ (s.queue r).ctx = (s.queue q).ctx ∧ leAt b 26 1 = 5) ∧
    (∃ (s : Machine.State) (q : ℕ) (r : ℕ) (b : Bytes), Starts s q b ∧ cOp b = 5 ∧ r = leAt b 24 2 ∧ (s.queue r).defined = true ∧ (s.queue r).ctx = (s.queue q).ctx ∧ leAt b 26 1 = 6) ∧
    (∃ (s : Machine.State) (q : ℕ) (r : ℕ) (b : Bytes), Starts s q b ∧ cOp b = 5 ∧ r = leAt b 24 2 ∧ (s.queue r).defined = true ∧ (s.queue r).ctx = (s.queue q).ctx ∧ leAt b 26 1 = 7) ∧
    (∃ (s : Machine.State) (q : ℕ) (r : ℕ) (b : Bytes), s.Serving ∧ (∀ c ∈ (s.queue q).flight, c.waiting = false) ∧ nextCmd s q = Except.ok b ∧ cOp b = 0 ∧ canStart s q b = true ∧ (r ∈ List.map (fun x => x.1) s.queues) ∧ hasStartable s r = true ∧ queueLc s r = true ∧ queueLc s q = false) ∧
    (∃ (s : Machine.State) (q : ℕ) (r : ℕ) (b : Bytes), s.Serving ∧ (∀ c ∈ (s.queue q).flight, c.waiting = false) ∧ nextCmd s q = Except.ok b ∧ cOp b = 0 ∧ canStart s q b = true ∧ (r ∈ List.map (fun x => x.1) s.queues) ∧ hasStartable s r = true ∧ queueLc s r = queueLc s q ∧ roundPlace s r < roundPlace s q) :=
  ⟨⟨put (cmd 0 0 0 0 ([])) .ready (on), 0, cmd 0 0 0 0 ([]), starts_of (by decide +kernel), by decide +kernel⟩,
   ⟨put selfWait .ready on, 0, selfWait, rfl, by decide +kernel⟩,
   ⟨put (cmd 6 0 0 0 ([1, 0, 0, 0] ++ le 4 7)) .ready (on), 0, cmd 6 0 0 0 ([1, 0, 0, 0] ++ le 4 7), starts_of (by decide +kernel), by decide +kernel⟩,
   ⟨put (cmd 6 0 0 0 ([0xFE, 0x0F, 1, 0] ++ le 4 7)) .ready (on), 0, cmd 6 0 0 0 ([0xFE, 0x0F, 1, 0] ++ le 4 7), starts_of (by decide +kernel), by decide +kernel⟩,
   ⟨put (cmd 5 0 0 0 ([0, 0, 2, 0] ++ le 4 60000)) .ready on, 0, 0, cmd 5 0 0 0 ([0, 0, 2, 0] ++ le 4 60000), starts_of (by decide +kernel), by decide +kernel, rfl, by decide +kernel⟩,
   ⟨put (cmd 5 0 0 0 ([0, 0, 3, 0] ++ le 4 64)) .ready on, 0, 0, cmd 5 0 0 0 ([0, 0, 3, 0] ++ le 4 64), starts_of (by decide +kernel), by decide +kernel, rfl, by decide +kernel⟩,
   ⟨put (cmd 5 0 0 0 ([0, 0, 4, 0] ++ le 4 1)) .ready on, 0, 0, cmd 5 0 0 0 ([0, 0, 4, 0] ++ le 4 1), starts_of (by decide +kernel), by decide +kernel, rfl, by decide +kernel⟩,
   ⟨put (cmd 5 0 0 0 ([0, 0, 5, 0] ++ le 4 0)) .ready on, 0, 0, cmd 5 0 0 0 ([0, 0, 5, 0] ++ le 4 0), starts_of (by decide +kernel), by decide +kernel, rfl, by decide +kernel⟩,
   ⟨put (cmd 5 0 0 0 ([0, 0, 6, 0] ++ le 4 0)) .ready on, 0, 0, cmd 5 0 0 0 ([0, 0, 6, 0] ++ le 4 0), starts_of (by decide +kernel), by decide +kernel, rfl, by decide +kernel⟩,
   ⟨put (cmd 5 0 0 0 ([0, 0, 7, 0] ++ le 4 65535)) .ready on, 0, 0, cmd 5 0 0 0 ([0, 0, 7, 0] ++ le 4 65535), starts_of (by decide +kernel), by decide +kernel, rfl, by decide +kernel⟩,
   ⟨(((poke (put (cmd 0 0 0 0 []) .ready on) 0x2000 (cmd 0 0 0 0 [])).modCtx 1 (fun c => { c with defined := true, st := .ready, lc := true })).modQueue 1 (fun w => { w with ctx := 1, defined := true, ring := 0x2000, cpl := 0x100000, p := 1 })), 0, 1, cmd 0 0 0 0 [], rfl, by decide +kernel⟩,
   ⟨reg ((((poke (put (cmd 0 0 0 0 []) .ready on) 0x2000 (cmd 0 0 0 0 [])).modCtx 0 (fun c => { c with defined := true, st := .ready, lc := false })).modQueue 1 (fun w => { w with ctx := 0, defined := true, ring := 0x2000, cpl := 0x100000, p := 1 }))), 1, 0, cmd 0 0 0 0 [], rfl, by decide +kernel⟩⟩

theorem witness_QueueResumeAndFlush :
    (∃ (s : Machine.State) (q : ℕ) (r : ℕ) (b : Bytes), Starts s q b ∧ cOp b = 5 ∧ leAt b 26 1 = 0 ∧ r = leAt b 24 2 ∧ (s.queue r).defined = true ∧ (s.queue r).ctx = (s.queue q).ctx ∧ (s.queue r).halted = true) ∧
    (∃ (s : Machine.State) (q : ℕ) (r : ℕ) (b : Bytes), Starts s q b ∧ cOp b = 5 ∧ leAt b 26 1 = 0 ∧ r = leAt b 24 2 ∧ (s.queue r).defined = true ∧ (s.queue r).ctx = (s.queue q).ctx ∧ (s.queue r).halted = false) ∧
    (∃ (s : Machine.State) (q : ℕ) (r : ℕ) (b : Bytes), Starts s q b ∧ cOp b = 5 ∧ leAt b 26 1 = 1 ∧ r = leAt b 24 2 ∧ (s.queue r).defined = true ∧ (s.queue r).ctx = (s.queue q).ctx ∧ (s.queue r).halted = true ∧ r ≠ q) ∧
    (∃ (s : Machine.State) (q : ℕ) (r : ℕ) (b : Bytes), Starts s q b ∧ cOp b = 5 ∧ leAt b 26 1 = 1 ∧ r = leAt b 24 2 ∧ (s.queue r).defined = true ∧ (s.queue r).ctx = (s.queue q).ctx ∧ (s.queue r).halted = false) :=
  ⟨⟨((put (cmd 5 0 0 0 ([1, 0, 0, 0] ++ le 4 0)) .ready on).modQueue 1 (fun w => { w with defined := true, p := 2, halted := true })), 0, 1, cmd 5 0 0 0 [1, 0, 0, 0], starts_of (by decide +kernel), by decide +kernel, by decide +kernel, rfl, by decide +kernel⟩,
   ⟨((put (cmd 5 0 0 0 ([1, 0, 0, 0] ++ le 4 0)) .ready on).modQueue 1 (fun w => { w with defined := true, p := 2, halted := false })), 0, 1, cmd 5 0 0 0 [1, 0, 0, 0], starts_of (by decide +kernel), by decide +kernel, by decide +kernel, rfl, by decide +kernel⟩,
   ⟨((put (cmd 5 0 0 0 ([1, 0, 1, 0] ++ le 4 0)) .ready on).modQueue 1 (fun w => { w with defined := true, p := 2, halted := true })), 0, 1, cmd 5 0 0 0 [1, 0, 1, 0], starts_of (by decide +kernel), by decide +kernel, by decide +kernel, rfl, by decide +kernel⟩,
   ⟨((put (cmd 5 0 0 0 ([1, 0, 1, 0] ++ le 4 0)) .ready on).modQueue 1 (fun w => { w with defined := true, p := 2, halted := false })), 0, 1, cmd 5 0 0 0 [1, 0, 1, 0], starts_of (by decide +kernel), by decide +kernel, by decide +kernel, rfl, by decide +kernel⟩⟩

theorem witness_ContextLife :
    (∃ (s : Machine.State) (q : ℕ) (b : Bytes) (d : Bytes), Starts s q b ∧ cOp b = 1 ∧ qRead s q (leAt b 32 8) 128 = Except.ok d ∧ (s.hub.health ≠ Health.quarantine ∨ s.nextIdx q ∈ (s.queue q).viaFleet) ∧ ctxDescBad (s.ctx (s.queue q).ctx).lc d = false ∧ (s.ctx (s.queue q).ctx).st = CtxSt.empty) ∧
    (∃ (s : Machine.State) (q : ℕ) (b : Bytes), Starts s q b ∧ cOp b = 2 ∧ NoWaits s q ∧ (s.ctx (s.queue q).ctx).st = CtxSt.loading ∧ loadsOf s (s.queue q).ctx = 0) ∧
    (∃ (s : Machine.State) (q : ℕ) (b : Bytes), Starts s q b ∧ cOp b = 3 ∧ NoWaits s q ∧ (s.ctx (s.queue q).ctx).st ≠ CtxSt.molting ∧ (s.ctx (s.queue q).ctx).st ≠ CtxSt.empty ∧ closeReady s (s.queue q).ctx = true) :=
  ⟨⟨poke (put (cmd 1 0 0 0 (zeros 8 ++ le 8 0x20000)) .empty on) 0x20000 (le 4 5 ++ zeros 36 ++ le 8 0x40000 ++ zeros 80), 0, cmd 1 0 0 0 (zeros 8 ++ le 8 0x20000), (le 4 5 ++ zeros 36 ++ le 8 0x40000 ++ zeros 80), starts_of (by decide +kernel), by decide +kernel⟩,
   ⟨put (cmd 2 0 0 0 ([])) .loading (on), 0, cmd 2 0 0 0 ([]), starts_of (by decide +kernel), by decide +kernel, ⟨by decide +kernel, by decide +kernel⟩, by decide +kernel⟩,
   ⟨put (cmd 3 0 0 0 ([])) .ready (on), 0, cmd 3 0 0 0 ([]), starts_of (by decide +kernel), by decide +kernel, ⟨by decide +kernel, by decide +kernel⟩, by decide +kernel⟩⟩

theorem witness_RegionChanges :
    (∃ (s : Machine.State) (q : ℕ) (b : Bytes) (r : Region), Starts s q b ∧ cOp b = 4 ∧ bits (leAt (slice b 32 16) 12 4) 5 19 = 0 ∧ r = regionOf (slice b 32 16) ∧ (s.ctx (s.queue q).ctx).changes = [] ∧ r.valid = true ∧ r.keySlot ≠ 0 ∧ bit (s.ctx (s.queue q).ctx).slotMask r.keySlot = true ∧ (regionLegal ((beginCmd q b s).modCtx (s.queue q).ctx (fun c => { c with changes := [{ index := leAt b 24 1, grant := r.valid, entry := r, queue := some (q, s.nextIdx q) }] })) (s.queue q).ctx (leAt b 24 1) r = true)) ∧
    (∃ (s : Machine.State) (q : ℕ) (b : Bytes) (r : Region), Starts s q b ∧ cOp b = 4 ∧ bits (leAt (slice b 32 16) 12 4) 5 19 = 0 ∧ r = regionOf (slice b 32 16) ∧ (s.ctx (s.queue q).ctx).changes = [] ∧ r.valid = false ∧ inEpochMask s (s.queue q).ctx (leAt b 24 1) = false) ∧
    (∃ (s : Machine.State) (x : ℕ) (ch : RegionChange), s.Serving ∧ (s.ctx x).changes = [ch] ∧ ch.grant = true ∧ ch.release = none) ∧
    (∃ (s : Machine.State) (x : ℕ) (ch : RegionChange), s.Serving ∧ (s.ctx x).changes = [ch] ∧ ch.grant = false ∧ workRuns s x = false ∧ ch.release = none) ∧
    (∃ (s : Machine.State) (x : ℕ) (ch : RegionChange) (n : ℕ), s.Serving ∧ (s.ctx x).changes = [ch] ∧ ch.grant = false ∧ workRuns s x = false ∧ ch.release = some n ∧ ch.queue = none) :=
  ⟨⟨(put (cmd 4 0 0 0 ([3] ++ zeros 7 ++ entry 0x81000003)) .loading on).modCtx 0 (fun c => { c with slotMask := 2 }), 0, cmd 4 0 0 0 ([3] ++ zeros 7 ++ entry 0x81000003), regionOf (entry 0x81000003), starts_of (by decide +kernel), by decide +kernel⟩,
   ⟨put (cmd 4 0 0 0 ([3] ++ zeros 7 ++ entry 0)) .ready (on), 0, cmd 4 0 0 0 ([3] ++ zeros 7 ++ entry 0), regionOf (entry 0), starts_of (by decide +kernel), by decide +kernel⟩,
   ⟨on.modCtx 5 (fun c => { c with changes := [{ index := 1, grant := true, entry := { valid := true, base := 0x200000, size := 1 }, queue := none }] }), 5, { index := 1, grant := true, entry := { valid := true, base := 0x200000, size := 1 }, queue := none }, rfl, by decide +kernel⟩,
   ⟨on.modCtx 5 (fun c => { c with changes := [{ index := 1, grant := false, entry := {}, queue := none }] }), 5, { index := 1, grant := false, entry := {}, queue := none }, rfl, by decide +kernel⟩,
   ⟨on.modCtx 5 (fun c => { c with changes := [{ index := 1, grant := false, entry := {}, queue := none, release := some 1 }] }), 5, { index := 1, grant := false, entry := {}, queue := none, release := some 1 }, 1, rfl, by decide +kernel⟩⟩

theorem witness_WeightEpochs :
    (∃ (s : Machine.State) (q : ℕ) (m : ℕ) (b : Bytes), Starts s q b ∧ cOp b = 8 ∧ leAt b 28 1 = 0 ∧ epochMask s (s.queue q).ctx b = Except.ok m ∧ (s.ctx (s.queue q).ctx).epochs.length < 4 ∧ (∀ e ∈ (s.ctx (s.queue q).ctx).epochs, e.num ≠ leAt b 24 4)) ∧
    (∃ (s : Machine.State) (q : ℕ) (b : Bytes) (e : EpochEntry), Starts s q b ∧ cOp b = 8 ∧ leAt b 28 1 = 1 ∧ (List.find? (fun e => decide (e.num = leAt b 24 4)) (s.ctx (s.queue q).ctx).epochs = some e) ∧ e.st = EpochSt.loading ∧ epochLoads s (s.queue q).ctx e = false) ∧
    (∃ (s : Machine.State) (q : ℕ) (b : Bytes) (e : EpochEntry), Starts s q b ∧ cOp b = 9 ∧ (List.find? (fun e => decide (e.num = leAt b 24 4)) (s.ctx (s.queue q).ctx).epochs = some e) ∧ e.st ≠ EpochSt.current ∧ e.refs = 0 ∧ e.releasing = false) :=
  ⟨⟨reg (put (cmd 8 0 0 0 (le 4 1 ++ zeros 12 ++ le 8 0x20000)) .ready (on)), 0, 0, cmd 8 0 0 0 (le 4 1 ++ zeros 12 ++ le 8 0x20000), starts_of (by decide +kernel), by decide +kernel⟩,
   ⟨(put (cmd 8 0 0 0 (le 4 1 ++ [1])) .ready (on)).modCtx 0 (fun c => { c with epochs := [{ num := 1, st := .loading, refs := 0 }] }), 0, cmd 8 0 0 0 (le 4 1 ++ [1]), { num := 1, st := .loading, refs := 0 }, starts_of (by decide +kernel), by decide +kernel⟩,
   ⟨(put (cmd 9 0 0 0 (le 4 1)) .ready (on)).modCtx 0 (fun c => { c with epochs := [{ num := 1, st := .superseded, refs := 0 }] }), 0, cmd 9 0 0 0 (le 4 1), { num := 1, st := .superseded, refs := 0 }, starts_of (by decide +kernel), by decide +kernel⟩⟩

theorem witness_SequencesPinEpochs :
    (∃ (s : Machine.State) (q : ℕ) (b : Bytes) (e : EpochEntry), Starts s q b ∧ cOp b = 35 ∧ seqOwned s (s.queue q).ctx (leAt b 24 2) = true ∧ (s.ctx (s.queue q).ctx).admits = true ∧ currentEpoch s (s.queue q).ctx = some e ∧ (s.seq (leAt b 24 2)).isOpen = false) ∧
    (∃ (s : Machine.State) (q : ℕ) (b : Bytes), Starts s q b ∧ cOp b = 36 ∧ NoWaits s q ∧ seqOwned s (s.queue q).ctx (leAt b 24 2) = true ∧ (s.seq (leAt b 24 2)).isOpen = true ∧ (s.seq (leAt b 24 2)).ctx = (s.queue q).ctx ∧ (s.seq (leAt b 24 2)).inFlight = 0) :=
  ⟨⟨(put (cmd 35 0 0 0 (le 2 3)) .ready (on)).modCtx 0 (fun c => { c with epochs := [{ num := 1, st := .current, refs := 0 }], seqCount := 4 }), 0, cmd 35 0 0 0 (le 2 3), { num := 1, st := .current, refs := 0 }, starts_of (by decide +kernel), by decide +kernel⟩,
   ⟨((put (cmd 36 0 0 0 (le 2 3)) .ready (on)).modCtx 0 (fun c => { c with epochs := [{ num := 1, st := .current, refs := 1 }], seqCount := 4 })).modSeq 3 (fun _ => { isOpen := true, epoch := 1 }), 0, cmd 36 0 0 0 (le 2 3), starts_of (by decide +kernel), by decide +kernel, ⟨by decide +kernel, by decide +kernel⟩, by decide +kernel⟩⟩

theorem witness_CompletionsWritten :
    (∃ (s : Machine.State) (q : ℕ) (c : Cmd) (rest : List Cmd) (st : ℕ) (t : Machine.State) (u : Machine.State), s.Serving ∧ t = pollWaits q s ∧ (t.queue q).defined = true ∧ (t.queue q).unwritten = none ∧ slotFree (t.queue q) 0 = true ∧ (t.queue q).notices = [] ∧ (t.queue q).flight = c :: rest ∧ c.status.isSome = true ∧ st = finalStatus t (t.queue q).ctx c ∧ qMay t q ((t.queue q).cpl + 16 * (BitVec.toNat (t.queue q).q % (t.queue q).size)) 16 true false = true ∧ writeMem t ((t.queue q).cpl + 16 * (BitVec.toNat (t.queue q).q % (t.queue q).size)) (cplBytes (t.queue q) c st) = (u, true)) ∧
    (∃ (s : Machine.State) (q : ℕ) (n : ℕ) (rest : List ℕ) (t : Machine.State) (u : Machine.State), s.Serving ∧ t = pollWaits q s ∧ (t.queue q).defined = true ∧ (t.queue q).unwritten = none ∧ slotFree (t.queue q) 0 = true ∧ (t.queue q).notices = n :: rest ∧ qMay t q ((t.queue q).cpl + 16 * (BitVec.toNat (t.queue q).q % (t.queue q).size)) 16 true false = true ∧ writeMem t ((t.queue q).cpl + 16 * (BitVec.toNat (t.queue q).q % (t.queue q).size)) (noticeBytes (t.queue q) n) = (u, true)) :=
  ⟨(by refine ⟨(put (cmd 0 0 0 0 []) .ready on).modQueue 0 (fun w => { w with n := 1, flight := [{ idx := 0, bytes := cmd 0 0 0 0 [], status := some 0 }] }), 0, { idx := 0, bytes := cmd 0 0 0 0 [], status := some 0 }, [], 0, pollWaits 0 ((put (cmd 0 0 0 0 []) .ready on).modQueue 0 (fun w => { w with n := 1, flight := [{ idx := 0, bytes := cmd 0 0 0 0 [], status := some 0 }] })), _, rfl, rfl, ?_, ?_, ?_, ?_, ?_, ?_, ?_, ?_, rfl⟩ <;> decide +kernel),
   ⟨(put (cmd 0 0 0 0 []) .ready on).modQueue 0 (fun w => { w with n := 1, notices := [3] }), 0, 3, [], pollWaits 0 ((put (cmd 0 0 0 0 []) .ready on).modQueue 0 (fun w => { w with n := 1, notices := [3] })), _, rfl, rfl, by decide +kernel, by decide +kernel, by decide +kernel, by decide +kernel, by decide +kernel, rfl⟩⟩

theorem witness_BarrierCommands :
    (∃ (s : Machine.State) (q : ℕ) (x : ℕ) (b : Bytes) (d : Decision), Starts s q b ∧ cOp b = 17 ∧ x = (s.queue q).ctx ∧ s.ended = [] ∧ ((s.sl x).phase = Phase.reduce ∨ (s.sl x).phase = Phase.commit) ∧ (s.sl x).step = cStep b ∧ (s.sl x).decision = some d) ∧
    (∃ (s : Machine.State) (q : ℕ) (x : ℕ) (b : Bytes), Starts s q b ∧ cOp b = 17 ∧ x = (s.queue q).ctx ∧ s.ended = [] ∧ ((s.sl x).phase = Phase.reduce ∨ (s.sl x).phase = Phase.commit) ∧ (s.sl x).step = cStep b ∧ (s.sl x).decision = none ∧ (s.sl x).barrierCmd = none) ∧
    (∃ (s : Machine.State) (q : ℕ) (x : ℕ) (b : Bytes), Starts s q b ∧ cOp b = 18 ∧ x = (s.queue q).ctx ∧ (s.sl x).step = cStep b ∧ (s.sl x).decision.isSome = true ∧ (s.sl x).isOpen = true) ∧
    (∃ (s : Machine.State) (x : ℕ), s.Serving ∧ (∀ k ∈ s.colls, k.x = x → k.own = []) ∧ (s.sl x).phase = Phase.bwd ∧ (tryCommit x (enterPhase x .reduce s)).ended = []) ∧
    (∃ (s : Machine.State) (p : FjPkt) (v : Vote), s.Serving ∧ p.hdr.cls = 0 ∧ p.hdr.ty = 1 ∧ leAt p.payload 0 2 = 1 ∧ 40 ≤ List.length p.payload ∧ v = { member := leAt (List.drop 8 p.payload) 12 2, epoch := leAt (List.drop 8 p.payload) 0 4, step := leAt (List.drop 8 p.payload) 4 8, vote := leAt (List.drop 8 p.payload) 14 1, status := leAt (List.drop 8 p.payload) 15 1, check := slice (List.drop 8 p.payload) 16 8 } ∧ p.hdr.epoch = v.epoch ∧ p.hdr.step = v.step ∧ p.hdr.phase = 4 ∧ v.vote ≤ 2 ∧ (∀ c ∈ slice p.payload 32 8, c = 0) ∧ pktRefusal (takeRx s p) p = none ∧ (s.ctx p.hdr.ctx).job.isSome = true ∧ (jobOf s p.hdr.ctx).members[v.member]? = some p.hdr.src ∧ (¬(v.epoch = (s.sl p.hdr.ctx).epoch ∧ v.step < (s.sl p.hdr.ctx).step)) ∧ ((tryDecide p.hdr.ctx ((takeRx s p).modSl p.hdr.ctx (fun l => { l with votes := v :: l.votes.filter (fun w => !(w.member = v.member && w.epoch = v.epoch && w.step = v.step)) }))).ended = [])) ∧
    (∃ (s : Machine.State) (x : ℕ), s.Serving ∧ (s.sl x).phase = Phase.commit ∧ (s.sl x).decision = none ∧ (abandonStep x stTimeout false s).ended = []) :=
  ⟨⟨train (fun l => { l with phase := .commit, decision := some .update }) (put (cmd 17 4 0 0 ([])) .ready (on)), 0, 0, cmd 17 4 0 0 ([]), .update, starts_of (by decide +kernel), by decide +kernel, rfl, by decide +kernel⟩,
   ⟨train (fun l => { l with phase := .reduce }) (put (cmd 17 4 0 0 ([])) .ready (on)), 0, 0, cmd 17 4 0 0 ([]), starts_of (by decide +kernel), by decide +kernel, rfl, by decide +kernel⟩,
   ⟨train (fun l => { l with phase := .update, isOpen := true, decision := some .update }) (put (cmd 18 4 0 0 ([])) .ready (on)), 0, 0, cmd 18 4 0 0 ([]), starts_of (by decide +kernel), by decide +kernel, rfl, by decide +kernel⟩,
   ⟨train (fun l => { l with phase := .bwd, isOpen := true }) (on), 0, rfl, by decide +kernel⟩,
   ⟨train (fun l => { l with phase := .fwd, isOpen := true }) (put (cmd 18 4 0 0 ([])) .ready (on)), { hdr := { cls := 0, ty := 1, src := 0, dst := 0, jobTag := 5, phase := 4 }, payload := le 2 1 ++ zeros 38 }, { member := 0, epoch := 0, step := 0, vote := 0, status := 0, check := zeros 8 }, rfl, by decide +kernel⟩,
   ⟨train (fun l => { l with phase := .commit, isOpen := true }) (on), 0, rfl, by decide +kernel⟩⟩

theorem witness_BarrierDecision :
    (∃ (vs : List Vote), (∃ v ∈ vs, v.vote = 2)) ∧
    (∃ (vs : List Vote), (∀ v ∈ vs, v.vote ≠ 2) ∧ (∃ v ∈ vs, ∃ w ∈ vs, v.check ≠ w.check)) ∧
    (∃ (kind : StepKind) (vs : List Vote), (∀ v ∈ vs, v.vote ≠ 2) ∧ (∀ v ∈ vs, ∀ w ∈ vs, v.check = w.check) ∧ kind = StepKind.rediscovery) ∧
    (∃ (kind : StepKind) (vs : List Vote), (∀ v ∈ vs, v.vote ≠ 2) ∧ (∀ v ∈ vs, ∀ w ∈ vs, v.check = w.check) ∧ kind ≠ StepKind.rediscovery ∧ (∃ v ∈ vs, v.vote = 1)) ∧
    (∃ (kind : StepKind) (vs : List Vote), (∀ v ∈ vs, v.vote ≠ 2) ∧ (∀ v ∈ vs, ∀ w ∈ vs, v.check = w.check) ∧ kind ≠ StepKind.rediscovery ∧ (∀ v ∈ vs, v.vote ≠ 1)) ∧
    (∃ (vs : List Vote) (ws : List Vote), (∀ (v : Vote), v ∈ vs ↔ v ∈ ws) ∧ (∀ v ∈ vs, ∀ w ∈ vs, v.member = w.member → v = w)) ∧
    (∃ (s : Machine.State) (x : ℕ) (d : Decision), (s.sl x).phase = Phase.commit ∧ (s.sl x).decision = none ∧ d = decideVotes (s.sl x).kind (votesNow (s.sl x)) ∧ (∃ m < (jobOf s x).members.length, ∀ v ∈ votesNow (s.sl x), v.member ≠ m)) ∧
    (∃ (s : Machine.State) (x : ℕ) (d : Decision) (st : ℕ), (s.sl x).phase = Phase.commit ∧ (s.sl x).decision = none ∧ d = decideVotes (s.sl x).kind (votesNow (s.sl x)) ∧ (∀ m < (jobOf s x).members.length, ∃ v ∈ votesNow (s.sl x), v.member = m) ∧ d = Decision.abandon st) ∧
    (∃ (s : Machine.State) (x : ℕ) (d : Decision) (st : ℕ) (n : ℕ), (s.sl x).phase = Phase.commit ∧ (s.sl x).decision = none ∧ d = decideVotes (s.sl x).kind (votesNow (s.sl x)) ∧ (∀ m < (jobOf s x).members.length, ∃ v ∈ votesNow (s.sl x), v.member = m) ∧ (d, st, n) ∈ [(Decision.update, stOk, 0), (Decision.skip, stFlagged, 1), (Decision.rediscover, stOk, 2)]) :=
  ⟨⟨[vote 0 0 [], vote 2 0x21 []], by decide +kernel⟩,
   ⟨[vote 0 0 [1], vote 0 0 [2]], by decide +kernel⟩,
   ⟨.rediscovery, [vote 0 0 [], vote 1 0 []], by decide +kernel, by decide +kernel, rfl⟩,
   ⟨.normal, [vote 0 0 [], vote 1 0 []], by decide +kernel⟩,
   ⟨.verify, [vote 0 0 []], by decide +kernel⟩,
   ⟨[vote 0 0 []], [vote 0 0 [], vote 0 0 []], by simp, by decide +kernel⟩,
   ⟨train (fun l => { l with phase := .commit }) (on), 0, .update, by decide +kernel, by decide +kernel, by decide +kernel, ⟨0, by decide +kernel, by decide +kernel⟩⟩,
   ⟨train (fun l => { l with phase := .commit, votes := [vote 2 0x21 []] }) (on), 0, .abandon 0x21, 0x21, by decide +kernel, by decide +kernel, by decide +kernel, by decide +kernel, rfl⟩,
   ⟨train (fun l => { l with phase := .commit, votes := [vote 1 0 []] }) (on), 0, .skip, stFlagged, 1, by decide +kernel⟩⟩

theorem witness_AdaptationRule :
    (∃ (nib : ℕ) (x : ℕ) (streak : ℕ), nib < 16 ∧ 1 ≤ x ∧ x ≤ 254 ∧ streak ≤ 255 ∧ bit nib 3 = true) ∧
    (∃ (nib : ℕ) (x : ℕ) (streak : ℕ), nib < 16 ∧ 1 ≤ x ∧ x ≤ 254 ∧ streak ≤ 255 ∧ bit nib 3 = false ∧ bit nib 2 = true) ∧
    (∃ (nib : ℕ) (x : ℕ) (streak : ℕ), nib < 16 ∧ 1 ≤ x ∧ x ≤ 254 ∧ streak ≤ 255 ∧ bit nib 3 = false ∧ bit nib 2 = false ∧ bit nib 0 = true ∧ streak = 255) ∧
    (∃ (nib : ℕ) (x : ℕ) (streak : ℕ), nib < 16 ∧ 1 ≤ x ∧ x ≤ 254 ∧ streak ≤ 255 ∧ bit nib 3 = false ∧ bit nib 2 = false ∧ bit nib 0 = true ∧ streak ≠ 255) ∧
    (∃ (nib : ℕ) (x : ℕ) (streak : ℕ), nib < 16 ∧ 1 ≤ x ∧ x ≤ 254 ∧ streak ≤ 255 ∧ bit nib 3 = false ∧ bit nib 2 = false ∧ bit nib 0 = false) :=
  ⟨⟨15, 254, 255, by decide +kernel⟩,
   ⟨7, 1, 255, by decide +kernel⟩,
   (by refine ⟨1, 1, 255, ?_, ?_, ?_, ?_, ?_, ?_, ?_, rfl⟩ <;> decide +kernel),
   ⟨3, 254, 254, by decide +kernel⟩,
   ⟨2, 1, 0, by decide +kernel⟩⟩

theorem witness_LedgerCommands :
    (∃ (s : Machine.State) (h : ℕ) (x : ℕ), s.Serving ∧ (s.sl x).phase = Phase.update ∧ (s.sl x).updateEnd = true ∧ h ∉ (s.sl x).adapted ∧ h ∈ slotHolders s x ∧ updateOn s x h = false) ∧
    (∃ (s : Machine.State) (x : ℕ), s.Serving ∧ (s.sl x).phase = Phase.update ∧ (s.sl x).updateEnd = true ∧ (∀ h ∈ slotHolders s x, h ∈ (s.sl x).adapted ∧ updateOn s x h = false) ∧ (∀ h ∈ s.holders, ∀ e ∈ h.2.samples, ¬(e.ctx = x ∧ e.step = (s.sl x).step)) ∧ ((beginLedger x (s.modSl x (fun l => { l with hdr := hdrAfter ((s.sl x).cur.getD Outc.committed) l.step l.hdr, lsRaised := (adaptLs ((s.sl x).cur.getD Outc.committed) (s.sl x).hdr).2.1, lsLowered := (adaptLs ((s.sl x).cur.getD Outc.committed) (s.sl x).hdr).2.2.1, lsFloor := (adaptLs ((s.sl x).cur.getD Outc.committed) (s.sl x).hdr).2.2.2, counts := { l.counts with overflow := ((fun (i : Nat) => ((s.sl x).summed.filter (fun b => bit b.2 i)).length)) 3, nonfinite := ((fun (i : Nat) => ((s.sl x).summed.filter (fun b => bit b.2 i)).length)) 1, zeroSum := ((fun (i : Nat) => ((s.sl x).summed.filter (fun b => bit b.2 i)).length)) 2 } }))).ended = [])) ∧
    (∃ (s : Machine.State) (x : ℕ) (r : PendRec) (rest : List PendRec) (c : RingCtl) (u : Machine.State) (v : Machine.State), s.Serving ∧ (s.sl x).pend = r :: rest ∧ (r.fp = false ∨ (s.sl x).fpDone = true) ∧ (s.sl x).retrying = false ∧ ringCtl s x = some c ∧ (c.producer + 2 ^ 64 - c.consumer) % 2 ^ 64 < r.cap ∧ (s.sl x).waitClk = none ∧ (s.sl x).ledgerWait = 0 ∧ writeFor (endWait x s) x (r.base + 32768 + c.producer % max 1 r.cap * r.slot) (finalRecord ((endWait x s).sl x) r) = (u, stOk) ∧ writeFor u x r.base (le 8 (c.producer + 1)) = (v, stOk) ∧ v.hub.replay = none ∧ ((tryUpdate x (tryHold x (windowEvents x r.step r.outcome (cellsBoundary x (ledgerEvents x r.step r.outcome (finalRecord ((endWait x s).sl x) r) (ffEvent 0x0111 1 18 (myMember (v.modSl x (fun l => { l with pend := rest, outcome := r.outcome, lastRecEpoch := some r.epoch, lastRecord := (finalRecord ((endWait x s).sl x) r), ledgerWait := 0, retrying := false })) x) (some x) (le 1 (outCode r.outcome) ++ slice (finalRecord ((endWait x s).sl x) r) 48 8) (v.modSl x (fun l => { l with pend := rest, outcome := r.outcome, lastRecEpoch := some r.epoch, lastRecord := (finalRecord ((endWait x s).sl x) r), ledgerWait := 0, retrying := false })))))))).ended = [])) ∧
    (∃ (s : Machine.State) (x : ℕ), s.Serving ∧ s.ended = [] ∧ (s.sl x).retrying = true ∧ (s.sl x).pend = [] ∧ ((s.sl x).phase ≠ Phase.commit ∨ (s.sl x).qRead = true) ∧ ringOpen s x = true) ∧
    (∃ (s : Machine.State) (x : ℕ), s.Serving ∧ s.ended = [] ∧ (s.sl x).retrying = true ∧ (s.sl x).pend = [] ∧ ((s.sl x).phase ≠ Phase.commit ∨ (s.sl x).qRead = true) ∧ ringOpen s x = false) ∧
    (∃ (s : Machine.State) (x : ℕ) (b : Bytes), s.Serving ∧ (s.sl x).retrying = true ∧ (s.sl x).pend = [] ∧ (s.sl x).phase = Phase.commit ∧ (s.sl x).qRead = false ∧ readFor s x ((s.ctx x).ledger + 64) 32 = Except.ok b ∧ ((tryUpdate x (endWait x (s.modSl x fun l => { epoch := l.epoch, step := l.step, phase := l.phase, outcome := l.outcome, isOpen := l.isOpen, kind := l.kind, cur := l.cur, status := l.status, dead := l.dead, votes := l.votes, ownVote := l.ownVote, decision := l.decision, barrierCmd := l.barrierCmd, updateEnd := l.updateEnd, adapted := l.adapted, hdr := l.hdr, lsPrev := l.lsPrev, lsRaised := l.lsRaised, lsLowered := l.lsLowered, lsFloor := l.lsFloor, counts := l.counts, totals := l.totals, layers := l.layers, layerTot := l.layerTot, qGrid := l.qGrid, qStepOk := l.qStepOk, qOwn := gridOf (List.take 16 b), qStep := leAt b 24 8, qRead := true, fastAll := l.fastAll, unknownAll := l.unknownAll, batch := leAt b 16 4, digests := l.digests, digestBad := l.digestBad, badSlots := l.badSlots, fpDone := l.fpDone, lost := l.lost, fastUsed := l.fastUsed, unknownLayer := l.unknownLayer, smax := l.smax, summed := l.summed, bubbles := l.bubbles, soldierN := l.soldierN, soldierBad := l.soldierBad, soldierWait := l.soldierWait, soldierFail := l.soldierFail, soldierRate := l.soldierRate, phaseUs := l.phaseUs, phaseClk := l.phaseClk, openClk := l.openClk, tMax := l.tMax, tStale := l.tStale, gateEv := l.gateEv, droopEv := l.droopEv, pcap := l.pcap, waitClk := l.waitClk, ledgerWait := l.ledgerWait, pend := l.pend, failSt := l.failSt, table := l.table, lastRecEpoch := l.lastRecEpoch, lastRecord := l.lastRecord, refreshed := l.refreshed, parityStep := l.parityStep, uniform := l.uniform, thermal := l.thermal, capacity := l.capacity }))).ended = [])) :=
  ⟨⟨train (fun l => { l with phase := .update, updateEnd := true }) (on), 8, 0, rfl, by decide +kernel⟩,
   ⟨train (fun l => { l with phase := .update, updateEnd := true, adapted := [8], isOpen := true, step := 1 }) (on), 0, rfl, by decide +kernel⟩,
   (by refine ⟨wLed, 0, wRec, [], { producer := 0, consumer := 0, capacity := 16, layers := 0 }, wLed1, wLed2, rfl, ?_, ?_, ?_, ?_, ?_, ?_, ?_, pair_of (by decide +kernel), pair_of (by decide +kernel), ?_⟩ <;> decide +kernel),
   ⟨train (fun l => { l with retrying := true }) (on), 0, rfl, by decide +kernel⟩,
   ⟨on.modSl 0 (fun l => { l with retrying := true }), 0, rfl, by decide +kernel⟩,
   ⟨train (fun l => { l with retrying := true, phase := .commit }) (on), 0, zeros 32, rfl, by decide +kernel⟩⟩

theorem witness_StepsOpen :
    (∃ (s : Machine.State) (q : ℕ) (x : ℕ) (b : Bytes) (kind : StepKind) (r : RingCtl) (tab : List (ℕ × ℤ)) (w : Machine.State), Starts s q b ∧ cOp b = 16 ∧ x = (s.queue q).ctx ∧ (kind = if leAt b 24 1 = 1 then StepKind.rediscovery else if leAt b 24 1 = 2 then StepKind.verify else StepKind.normal) ∧ (s.ctx x).jobTag ≠ 0 ∧ (s.ctx x).job.isSome = true ∧ (s.sl x).isOpen = false ∧ (cStep b = if kind = StepKind.verify then (s.sl x).hdr.step else (s.sl x).hdr.step + 1) ∧ ((s.sl x).cur = some Outc.abandoned → (s.sl x).step ≠ cStep b) ∧ moltOn (s.ctx x) = false ∧ setpointWaits (beginCmd q b s) x (cStep b) = false ∧ ringCtl (beginCmd q b s) x = some r ∧ capacityOk r.capacity = true ∧ r.layers ≤ 4096 ∧ layerTable (beginCmd q b s) x r.layers = some tab ∧ ascending tab = true ∧ r.full = false ∧ writeFor (beginCmd q b s) x ((s.ctx x).ledger + 20) (le 4 (1024 * ((1024 + 32 * r.layers + 1023) / 1024))) = (w, stOk) ∧ windowDue (beginCmd q b s) x = false ∧ (openStep q (s.nextIdx q) x (cStep b) kind r.capacity tab (cellsBoundary x w)).ended = [] ∧ leAt b 24 1 = 0) ∧
    (∃ (s : Machine.State) (q : ℕ) (x : ℕ) (b : Bytes) (kind : StepKind) (r : RingCtl) (tab : List (ℕ × ℤ)) (w : Machine.State), Starts s q b ∧ cOp b = 16 ∧ x = (s.queue q).ctx ∧ (kind = if leAt b 24 1 = 1 then StepKind.rediscovery else if leAt b 24 1 = 2 then StepKind.verify else StepKind.normal) ∧ (s.ctx x).jobTag ≠ 0 ∧ (s.ctx x).job.isSome = true ∧ (s.sl x).isOpen = false ∧ (cStep b = if kind = StepKind.verify then (s.sl x).hdr.step else (s.sl x).hdr.step + 1) ∧ ((s.sl x).cur = some Outc.abandoned → (s.sl x).step ≠ cStep b) ∧ moltOn (s.ctx x) = false ∧ setpointWaits (beginCmd q b s) x (cStep b) = false ∧ ringCtl (beginCmd q b s) x = some r ∧ capacityOk r.capacity = true ∧ r.layers ≤ 4096 ∧ layerTable (beginCmd q b s) x r.layers = some tab ∧ ascending tab = true ∧ r.full = false ∧ writeFor (beginCmd q b s) x ((s.ctx x).ledger + 20) (le 4 (1024 * ((1024 + 32 * r.layers + 1023) / 1024))) = (w, stOk) ∧ windowDue (beginCmd q b s) x = false ∧ (openStep q (s.nextIdx q) x (cStep b) kind r.capacity tab (cellsBoundary x w)).ended = [] ∧ leAt b 24 1 = 1) ∧
    (∃ (s : Machine.State) (q : ℕ) (x : ℕ) (b : Bytes) (kind : StepKind) (r : RingCtl) (tab : List (ℕ × ℤ)) (w : Machine.State), Starts s q b ∧ cOp b = 16 ∧ x = (s.queue q).ctx ∧ (kind = if leAt b 24 1 = 1 then StepKind.rediscovery else if leAt b 24 1 = 2 then StepKind.verify else StepKind.normal) ∧ (s.ctx x).jobTag ≠ 0 ∧ (s.ctx x).job.isSome = true ∧ (s.sl x).isOpen = false ∧ (cStep b = if kind = StepKind.verify then (s.sl x).hdr.step else (s.sl x).hdr.step + 1) ∧ ((s.sl x).cur = some Outc.abandoned → (s.sl x).step ≠ cStep b) ∧ moltOn (s.ctx x) = false ∧ setpointWaits (beginCmd q b s) x (cStep b) = false ∧ ringCtl (beginCmd q b s) x = some r ∧ capacityOk r.capacity = true ∧ r.layers ≤ 4096 ∧ layerTable (beginCmd q b s) x r.layers = some tab ∧ ascending tab = true ∧ r.full = false ∧ writeFor (beginCmd q b s) x ((s.ctx x).ledger + 20) (le 4 (1024 * ((1024 + 32 * r.layers + 1023) / 1024))) = (w, stOk) ∧ windowDue (beginCmd q b s) x = false ∧ (openStep q (s.nextIdx q) x (cStep b) kind r.capacity tab (cellsBoundary x w)).ended = [] ∧ leAt b 24 1 = 2) ∧
    (∃ (s : Machine.State) (q : ℕ) (b : Bytes), Starts s q b ∧ cOp b = 16 ∧ (s.sl (s.queue q).ctx).cur = some Outc.abandoned ∧ (s.sl (s.queue q).ctx).step = cStep b ∧ s.ended = [] ∧ leAt b 24 1 = 0) ∧
    (∃ (s : Machine.State) (q : ℕ) (b : Bytes), Starts s q b ∧ cOp b = 16 ∧ (s.sl (s.queue q).ctx).cur = some Outc.abandoned ∧ (s.sl (s.queue q).ctx).step = cStep b ∧ s.ended = [] ∧ leAt b 24 1 = 1) ∧
    (∃ (s : Machine.State) (q : ℕ) (b : Bytes), Starts s q b ∧ cOp b = 16 ∧ (s.sl (s.queue q).ctx).cur = some Outc.abandoned ∧ (s.sl (s.queue q).ctx).step = cStep b ∧ s.ended = [] ∧ leAt b 24 1 = 2) ∧
    (∃ (kind : StepKind), kind ≠ StepKind.verify) ∧
    (∃ (s : Machine.State) (q : ℕ) (x : ℕ) (b : Bytes), Starts s q b ∧ cOp b = 16 ∧ leAt b 24 1 = 0 ∧ x = (s.queue q).ctx ∧ (s.ctx x).jobTag ≠ 0 ∧ (s.ctx x).job.isSome = true ∧ (s.sl x).isOpen = false ∧ cStep b = (s.sl x).hdr.step + 1 ∧ ((s.sl x).cur = some Outc.abandoned → (s.sl x).step ≠ cStep b) ∧ moltOn (s.ctx x) = false ∧ windowDue (beginCmd q b s) x = true ∧ s.ended = []) :=
  ⟨(by refine ⟨train (fun l => { l with phase := .idle }) (put (cmd 16 4 0 1 ([0])) .ready (on)), 0, 0, cmd 16 4 0 1 ([0]), .normal, { producer := 0, consumer := 0, capacity := 16, layers := 0 }, [], _, starts_of (by decide +kernel), ?_, rfl, ?_, ?_, ?_, ?_, ?_, ?_, ?_, ?_, ?_, ?_, ?_, ?_, ?_, ?_, pair_of (by decide +kernel), ?_⟩ <;> decide +kernel),
   (by refine ⟨train (fun l => { l with phase := .idle }) (put (cmd 16 4 0 1 ([1])) .ready (on)), 0, 0, cmd 16 4 0 1 ([1]), .rediscovery, { producer := 0, consumer := 0, capacity := 16, layers := 0 }, [], _, starts_of (by decide +kernel), ?_, rfl, ?_, ?_, ?_, ?_, ?_, ?_, ?_, ?_, ?_, ?_, ?_, ?_, ?_, ?_, pair_of (by decide +kernel), ?_⟩ <;> decide +kernel),
   (by refine ⟨train (fun l => { l with phase := .idle }) (put (cmd 16 4 0 0 ([2])) .ready (on)), 0, 0, cmd 16 4 0 0 ([2]), .verify, { producer := 0, consumer := 0, capacity := 16, layers := 0 }, [], _, starts_of (by decide +kernel), ?_, rfl, ?_, ?_, ?_, ?_, ?_, ?_, ?_, ?_, ?_, ?_, ?_, ?_, ?_, ?_, pair_of (by decide +kernel), ?_⟩ <;> decide +kernel),
   ⟨train (fun l => { l with phase := .idle, cur := some .abandoned, step := 1 }) (put (cmd 16 4 0 1 ([0])) .ready (on)), 0, cmd 16 4 0 1 ([0]), starts_of (by decide +kernel), by decide +kernel⟩,
   ⟨train (fun l => { l with phase := .idle, cur := some .abandoned, step := 1 }) (put (cmd 16 4 0 1 ([1])) .ready (on)), 0, cmd 16 4 0 1 ([1]), starts_of (by decide +kernel), by decide +kernel⟩,
   ⟨train (fun l => { l with phase := .idle, cur := some .abandoned, step := 1 }) (put (cmd 16 4 0 1 ([2])) .ready (on)), 0, cmd 16 4 0 1 ([2]), starts_of (by decide +kernel), by decide +kernel⟩,
   ⟨.normal, by decide +kernel⟩,
   ⟨ctx0 (fun c => { c with preReq := 2, job := some { job0 with sched := [{ kind := 3, phase := 0, period := 1, arg := 0, first := 0 }] } }) (train (fun l => { l with phase := .idle, pend := [{ epoch := 0, step := 0, outcome := .committed, bytes := [], base := 0, cap := 16, slot := 1024 }] }) (put (cmd 16 4 0 1 ([0])) .ready (on))), 0, 0, cmd 16 4 0 1 ([0]), starts_of (by decide +kernel), by decide +kernel, by decide +kernel, rfl, by decide +kernel⟩⟩

theorem witness_LaunchStarts :
    (∃ (s : Machine.State) (q : ℕ) (k : ℕ) (x : ℕ) (t : ℕ) (c : ℕ) (b : Bytes) (u : Machine.State) (v : Machine.State) (m : Cmd), Starts s q b ∧ cOp b = 32 ∧ x = (s.queue q).ctx ∧ t = leAt b 26 2 ∧ k = s.nextIdx q ∧ u = beginCmd q b s ∧ findCmd u q k = some m ∧ m.counted = false ∧ ((s.ctx x).admits = true ∨ t ≠ 65535) ∧ launchStatus u q b = stOk ∧ v = acceptCmd q k u ∧ (∀ (w : Cmd), findCmd v q k = some w → w.borrow = none) ∧ (∀ e ∈ (v.ctx x).epochs, e.restoring = false) ∧ ((findCmd v q k).isSome = true ∧ launchEpoch (acceptCmd q k u) x b = none) ∧ placeOf v x (leAt b 24 2) (leAt b 48 8) = Placed.free c) ∧
    (∃ (s : Machine.State) (q : ℕ) (k : ℕ) (b : Bytes) (m : Cmd), Starts s q b ∧ cOp b = 32 ∧ k = s.nextIdx q ∧ findCmd (beginCmd q b s) q k = some m ∧ m.counted = false ∧ ((s.ctx (s.queue q).ctx).admits = true ∨ leAt b 26 2 ≠ 65535) ∧ launchStatus (beginCmd q b s) q b ≠ stOk) ∧
    (∃ (s : Machine.State) (q : ℕ) (k : ℕ) (c : ℕ) (m : Cmd) (d : ℕ), findCmd s q k = some m ∧ d ≠ c) ∧
    (∃ (s : Machine.State) (q : ℕ) (k : ℕ) (c : ℕ) (m : Cmd), findCmd s q k = some m ∧ (s.cell c).ctx = (s.queue q).ctx) ∧
    (∃ (s : Machine.State) (q : ℕ) (k : ℕ) (c : ℕ) (m : Cmd), findCmd s q k = some m ∧ (s.cell c).ctx ≠ (s.queue q).ctx) :=
  ⟨⟨ctx0 (fun c => { c with owned := [3] }) (reg (put (cmd 32 0 0 0 (le 2 3 ++ le 2 0xFFFF ++ zeros 4 ++ le 8 0x10000 ++ le 8 0x20000)) .ready (on))), 0, 0, 0, 0xFFFF, 3, cmd 32 0 0 0 (le 2 3 ++ le 2 0xFFFF ++ zeros 4 ++ le 8 0x10000 ++ le 8 0x20000), beginCmd 0 (cmd 32 0 0 0 (le 2 3 ++ le 2 0xFFFF ++ zeros 4 ++ le 8 0x10000 ++ le 8 0x20000)) (ctx0 (fun c => { c with owned := [3] }) (reg (put (cmd 32 0 0 0 (le 2 3 ++ le 2 0xFFFF ++ zeros 4 ++ le 8 0x10000 ++ le 8 0x20000)) .ready (on)))), acceptCmd 0 0 (beginCmd 0 (cmd 32 0 0 0 (le 2 3 ++ le 2 0xFFFF ++ zeros 4 ++ le 8 0x10000 ++ le 8 0x20000)) (ctx0 (fun c => { c with owned := [3] }) (reg (put (cmd 32 0 0 0 (le 2 3 ++ le 2 0xFFFF ++ zeros 4 ++ le 8 0x10000 ++ le 8 0x20000)) .ready (on))))), { idx := 0, bytes := cmd 32 0 0 0 (le 2 3 ++ le 2 0xFFFF ++ zeros 4 ++ le 8 0x10000 ++ le 8 0x20000) }, starts_of (by decide +kernel), by decide +kernel, rfl, rfl, by decide +kernel, by decide +kernel, by decide +kernel, by decide +kernel, Or.inl (by decide +kernel), by decide +kernel, rfl, by decide +kernel, by decide +kernel, ⟨by decide +kernel, by decide +kernel⟩, by decide +kernel⟩,
   ⟨ctx0 (fun c => { c with owned := [3] }) (reg (put (cmd 32 0 0 0 (le 2 4 ++ le 2 0xFFFF ++ zeros 4 ++ le 8 0x10000 ++ le 8 0x20000)) .ready (on))), 0, 0, cmd 32 0 0 0 (le 2 4 ++ le 2 0xFFFF ++ zeros 4 ++ le 8 0x10000 ++ le 8 0x20000), { idx := 0, bytes := cmd 32 0 0 0 (le 2 4 ++ le 2 0xFFFF ++ zeros 4 ++ le 8 0x10000 ++ le 8 0x20000) }, starts_of (by decide +kernel), by decide +kernel, by decide +kernel, by decide +kernel, by decide +kernel, Or.inl (by decide +kernel), by decide +kernel⟩,
   ⟨fly id on, 0, 3, 3, { idx := 3, bytes := zeros 64 }, 4, by decide +kernel⟩,
   ⟨fly id on, 0, 3, 3, { idx := 3, bytes := zeros 64 }, by decide +kernel⟩,
   ⟨cell3 (fun k => { k with ctx := 1 }) (fly id on), 0, 3, 3, { idx := 3, bytes := zeros 64 }, by decide +kernel⟩⟩

theorem witness_SaveAndRestore :
    (∃ (s : Machine.State) (c : ℕ), s.Serving ∧ (s.cell c).st = CellSt.saving ∧ (s.cell c).stopFor = none) ∧
    (∃ (s : Machine.State) (c : ℕ) (q : ℕ) (k : ℕ) (w : ℕ × Machine.State), s.Serving ∧ (s.cell c).st = CellSt.saving ∧ (s.cell c).stopFor = some (q, k) ∧ (w = takeWord ((saveImage c s).modCell c (fun u => { u with st := .idle, stopPre := false }))) ∧ (stillWaits ((saveImage c s).modCell c (fun u => { u with st := .idle, stopPre := false })) q k = true)) ∧
    (∃ (s : Machine.State) (c : ℕ) (v : Saved), s.Serving ∧ (s.cell c).saved = some v ∧ (s.cell c).st = CellSt.idle ∧ (s.cell c).prog = none ∧ (s.cell c).ctx ≠ v.ctx ∧ (s.ctx v.ctx).st ≠ CtxSt.preempted ∧ (s.ctx v.ctx).preReq ≠ 1) ∧
    (∃ (s : Machine.State) (c : ℕ) (v : Saved), s.Serving ∧ (s.cell c).restoring = true ∧ (s.cell c).saved = some v) ∧
    (∃ (s : Machine.State) (c : ℕ) (i : ℕ), memWf memFill s.mem = true ∧ (saveArea s c).2 + 262144 ≤ cellWin c ∧ (saveArea s c).1 + 5767168 ≤ (saveArea s c).2 ∧ i < 5767168) ∧
    (∃ (s : Machine.State) (c : ℕ) (i : ℕ), memWf memFill s.mem = true ∧ (saveArea s c).2 + 262144 ≤ cellWin c ∧ (saveArea s c).1 + 5767168 ≤ (saveArea s c).2 ∧ i < 196608) ∧
    (∃ (s : Machine.State) (c : ℕ) (i : ℕ), memWf memFill s.mem = true ∧ (saveArea s c).2 + 262144 ≤ cellWin c ∧ (saveArea s c).1 + 5767168 ≤ (saveArea s c).2 ∧ i < 49152) ∧
    (∃ (s : Machine.State) (c : ℕ) (i : ℕ), memWf memFill s.mem = true ∧ (saveArea s c).2 + 262144 ≤ cellWin c ∧ (saveArea s c).1 + 5767168 ≤ (saveArea s c).2 ∧ i < 5963776) ∧
    (∃ (s : Machine.State) (c : ℕ) (a : ℕ), memWf memFill s.mem = true ∧ (saveArea s c).2 + 262144 ≤ cellWin c ∧ (saveArea s c).1 + 5767168 ≤ (saveArea s c).2 ∧ (a < (saveArea s c).1 ∨ (saveArea s c).1 + 5767168 ≤ a) ∧ (a < (saveArea s c).2 ∨ (saveArea s c).2 + 245760 ≤ a) ∧ (a < cellWin c ∨ cellWin c + 5963776 ≤ a) ∧ (a < coreMem c 16384 ∨ coreMem c 65536 ≤ a)) :=
  ⟨⟨cell3 (fun k => { k with st := .saving, ctx := 1, prog := some prog0 }) (fly id on), 3, rfl, by decide +kernel⟩,
   ⟨cell3 (fun k => { k with st := .saving, ctx := 1, prog := some prog0, stopFor := some (0, 3) }) (fly id on), 3, 0, 3, takeWord ((saveImage 3 (cell3 (fun k => { k with st := .saving, ctx := 1, prog := some prog0, stopFor := some (0, 3) }) (fly id on))).modCell 3 (fun u => { u with st := .idle, stopPre := false })), rfl, by decide +kernel, by decide +kernel, rfl, by decide +kernel⟩,
   ⟨cell3 (fun k => { k with saved := some saved1 }) on, 3, saved1, rfl, by decide +kernel⟩,
   ⟨cell3 (fun k => { k with saved := some saved1, restoring := true }) on, 3, saved1, rfl, by decide +kernel⟩,
   ⟨on, 3, 0, by decide +kernel⟩,
   ⟨on, 3, 0, by decide +kernel⟩,
   ⟨on, 3, 0, by decide +kernel⟩,
   ⟨on, 3, 0, by decide +kernel⟩,
   ⟨on, 3, 0, by decide +kernel, by decide +kernel, by decide +kernel, Or.inl (by decide +kernel), Or.inl (by decide +kernel), Or.inl (by decide +kernel), Or.inl (by decide +kernel)⟩⟩

theorem witness_PreemptionRequests :
    (∃ (s : Machine.State) (session : ℕ) (x : ℕ), s.Serving ∧ isOperator s session = true ∧ (s.ctx x).defined = true ∧ (s.ctx x).lc = false ∧ ((s.ctx x).st = CtxSt.ready ∨ (s.ctx x).st = CtxSt.running) ∧ (s.ctx x).preReq ≠ 1) ∧
    (∃ (s : Machine.State) (session : ℕ) (x : ℕ), s.Serving ∧ isOperator s session = true ∧ (s.ctx x).st = CtxSt.preempted ∧ (s.ctx x).preReq ≠ 3) ∧
    (∃ (s : Machine.State) (session : ℕ) (x : ℕ), s.Serving ∧ isOperator s session = true ∧ (s.ctx x).st ≠ CtxSt.preempted ∧ (s.ctx x).preReq = 2) ∧
    (∃ (s : Machine.State) (session : ℕ) (x : ℕ), s.Serving ∧ isOperator s session = true ∧ (s.ctx x).st ≠ CtxSt.preempted ∧ (s.ctx x).preReq ≠ 2) ∧
    (∃ (s : Machine.State) (x : ℕ), s.Serving ∧ (s.ctx x).st = CtxSt.preempted ∧ (s.ctx x).preReq ≠ 3 ∧ (s.ctx x).preWin.isSome = true) ∧
    (∃ (s : Machine.State) (session : ℕ), s.Serving ∧ isOperator s session = false) ∧
    (∃ (s : Machine.State) (x : ℕ), (∀ e ∈ s.cells, ∀ (v : Saved), e.2.saved = some v → v.ctx ≠ x)) ∧
    (∃ (s : Machine.State) (x : ℕ), (∃ c k, (c, k) ∈ s.cells ∧ s.cell c = k ∧ k.prog = none ∧ k.st = CellSt.idle ∧ ∃ v, k.saved = some v ∧ v.ctx = x)) ∧
    (∃ (x : ℕ) (y : ℕ), y ≠ x) ∧
    (∃ (s : Machine.State) (x : ℕ) (c : ℕ) (k : Cell), (c, k) ∈ s.cells ∧ s.cell c = k ∧ (∃ v, k.saved = some v ∧ v.ctx = x) ∧ k.prog = none ∧ k.st = CellSt.idle) :=
  ⟨⟨ctx0 (fun c => { c with defined := true, st := .ready }) (oper on), 1, 0, rfl, by decide +kernel, by decide +kernel, by decide +kernel, Or.inl (by decide +kernel), by decide +kernel⟩,
   ⟨ctx0 (fun c => { c with defined := true, st := .preempted }) (oper on), 1, 0, rfl, by decide +kernel⟩,
   ⟨ctx0 (fun c => { c with defined := true, st := .running, preReq := 2 }) (oper on), 1, 0, rfl, by decide +kernel⟩,
   ⟨ctx0 (fun c => { c with defined := true, st := .running }) (oper on), 1, 0, rfl, by decide +kernel⟩,
   ⟨ctx0 (fun c => { c with defined := true, st := .preempted, preWin := some 5 }) (oper on), 0, rfl, by decide +kernel⟩,
   ⟨oper on, 2, rfl, by decide +kernel⟩,
   ⟨on, 0, by intro e he; exact absurd (show e ∈ ([] : List (Nat × Cell)) from he) (by simp)⟩,
   ⟨cell3 (fun k => { k with saved := some saved1 }) on, 1, ⟨3, { saved := some saved1 }, by decide +kernel, by decide +kernel, rfl, rfl, saved1, rfl, rfl⟩⟩,
   ⟨0, 1, by decide +kernel⟩,
   ⟨cell3 (fun k => { k with saved := some saved1 }) on, 1, 3, { saved := some saved1 }, by decide +kernel, by decide +kernel, ⟨saved1, by decide +kernel, by decide +kernel⟩, by decide +kernel⟩⟩

theorem witness_TilesStart :
    (∃ (s : Machine.State) (c : ℕ) (n : ℕ) (x : ℕ) (t : Tile) (p : Plan), s.Serving ∧ fetch s c = Fetched.tile t n ∧ x = cellCtx s c ∧ planOf s c x t = some p ∧ p.fits c = true ∧ ((p.far.all fun f => mayReach s x f.2.2 (!f.2.2) 258 f.1 (f.1 + f.2.1)) = true) ∧ unitsBusy s c p = false ∧ inHazard s c p = false ∧ (isPaired t.desc = true → unitsBusy s (c + 1) p = false) ∧ (usesOdd s c x t = true → oddAway s c x = false) ∧ p.bad = false ∧ conflictOf s c x t = false ∧ (t.rerun = true ∨ semTurn s x (tileWait s c t) = true)) ∧
    (∃ (s : Machine.State) (c : ℕ) (n : ℕ) (x : ℕ) (t : Tile) (p : Plan), s.Serving ∧ fetch s c = Fetched.tile t n ∧ x = cellCtx s c ∧ planOf s c x t = some p ∧ p.fits c = true ∧ ((p.far.all fun f => mayReach s x f.2.2 (!f.2.2) 258 f.1 (f.1 + f.2.1)) = true) ∧ unitsBusy s c p = false ∧ inHazard s c p = false ∧ (isPaired t.desc = true → unitsBusy s (c + 1) p = false) ∧ (usesOdd s c x t = true → oddAway s c x = false) ∧ p.bad = false ∧ conflictOf s c x t = false ∧ t.rerun = false ∧ semTurn s x (tileWait s c t) = false) ∧
    (∃ (s : Machine.State) (c : ℕ) (st : ℕ) (p : Program), s.Serving ∧ fetch s c = Fetched.failed st ∧ (s.cell c).prog = some p) ∧
    (∃ (s : Machine.State) (c : ℕ) (n : ℕ) (t : Tile), s.Serving ∧ fetch s c = Fetched.tile t n ∧ planOf s c (cellCtx s c) t = none) ∧
    (∃ (s : Machine.State) (c : ℕ) (n : ℕ) (t : Tile) (p : Plan), s.Serving ∧ fetch s c = Fetched.tile t n ∧ planOf s c (cellCtx s c) t = some p ∧ p.fits c = true ∧ ((p.far.all fun f => mayReach s (cellCtx s c) f.2.2 (!f.2.2) 258 f.1 (f.1 + f.2.1)) = false)) ∧
    (∃ (s : Machine.State) (c : ℕ) (x : ℕ) (t : Tile) (g : Program) (d : ℕ), (s.cell c).prog = some g ∧ t.core = false ∧ isPaired t.desc = false ∧ usesOdd (semTake x (tWait t.desc) s) c x t = false ∧ usesOdd s c x t = false ∧ pcapNow s = 0 ∧ (s.ctx x).jobTag = 0 ∧ (s.ctx x).job = none ∧ d ≠ c) ∧
    (∃ (s : Machine.State) (c : ℕ) (x : ℕ) (t : Tile) (g : Program) (y : ℕ), (s.cell c).prog = some g ∧ t.core = false ∧ isPaired t.desc = false ∧ usesOdd (semTake x (tWait t.desc) s) c x t = false ∧ usesOdd s c x t = false ∧ pcapNow s = 0 ∧ (s.ctx x).jobTag = 0 ∧ (s.ctx x).job = none ∧ y ≠ x) ∧
    (∃ (s : Machine.State) (c : ℕ) (x : ℕ) (t : Tile) (g : Program), (s.cell c).prog = some g ∧ t.core = false ∧ isPaired t.desc = false ∧ usesOdd (semTake x (tWait t.desc) s) c x t = false ∧ usesOdd s c x t = false ∧ pcapNow s = 0 ∧ (s.ctx x).jobTag = 0 ∧ (s.ctx x).job = none ∧ t.rerun = false ∧ tWait t.desc < 4095) ∧
    (∃ (s : Machine.State) (c : ℕ) (x : ℕ) (t : Tile) (g : Program), (s.cell c).prog = some g ∧ t.core = false ∧ isPaired t.desc = false ∧ usesOdd (semTake x (tWait t.desc) s) c x t = false ∧ usesOdd s c x t = false ∧ pcapNow s = 0 ∧ (s.ctx x).jobTag = 0 ∧ (s.ctx x).job = none ∧ t.rerun = true) ∧
    (∃ (s : Machine.State) (c : ℕ), s.Serving ∧ fetch s c = Fetched.stop) :=
  ⟨(by refine ⟨seqm (id) 0x30, 3, 1, 0, { id := 0, desc := desc 0x30 }, (planOf (seqm (id) 0x30) 3 0 ({ id := 0, desc := desc 0x30 })).get (by decide +kernel), rfl, ?_, ?_, (Option.some_get _).symm, ?_, ?_, ?_, ?_, ?_, ?_, ?_, ?_, Or.inr (by decide +kernel)⟩ <;> decide +kernel),
   ⟨poke (seqr id []) 0x10000 (le 4 0x30000000 ++ le 4 0x003FFF00 ++ zeros 8 ++ memw 0 (cellWin 3) ++ memw 0 0x80000 ++ zeros 48), 3, 1, 0, { id := 0, desc := (le 4 0x30000000 ++ le 4 0x003FFF00 ++ zeros 8 ++ memw 0 (cellWin 3) ++ memw 0 0x80000 ++ zeros 48) }, (planOf (poke (seqr id []) 0x10000 (le 4 0x30000000 ++ le 4 0x003FFF00 ++ zeros 8 ++ memw 0 (cellWin 3) ++ memw 0 0x80000 ++ zeros 48)) 3 0 ({ id := 0, desc := (le 4 0x30000000 ++ le 4 0x003FFF00 ++ zeros 8 ++ memw 0 (cellWin 3) ++ memw 0 0x80000 ++ zeros 48) })).get (by decide +kernel), rfl, by decide +kernel, by decide +kernel, (Option.some_get _).symm, by decide +kernel⟩,
   ⟨ctx0 (fun c => { c with regions := [] }) (seqr id []), 3, stPerm, { prog0 with ctx := 0 }, rfl, by decide +kernel⟩,
   ⟨seqm (id) 0x77, 3, 1, { id := 0, desc := desc 0x77 }, rfl, by decide +kernel⟩,
   ⟨poke (seqr id []) 0x10000 (thead 0x30 ++ memw 0 (cellWin 3) ++ memw 0 0xB00000000 ++ zeros 48), 3, 1, { id := 0, desc := thead 0x30 ++ memw 0 (cellWin 3) ++ memw 0 0xB00000000 ++ zeros 48 }, (planOf (poke (seqr id []) 0x10000 (thead 0x30 ++ memw 0 (cellWin 3) ++ memw 0 0xB00000000 ++ zeros 48)) 3 0 ({ id := 0, desc := thead 0x30 ++ memw 0 (cellWin 3) ++ memw 0 0xB00000000 ++ zeros 48 })).get (by decide +kernel), rfl, by decide +kernel, (Option.some_get _).symm, by decide +kernel⟩,
   ⟨seqr id [], 3, 0, { id := 0, desc := desc 0x30 }, { prog0 with ctx := 0 }, 4, by decide +kernel⟩,
   ⟨seqr id [], 3, 0, { id := 0, desc := desc 0x30 }, { prog0 with ctx := 0 }, 1, by decide +kernel⟩,
   ⟨seqr id [], 3, 0, { id := 0, desc := le 4 0x30000000 ++ le 4 0x003FFF00 ++ zeros 120 }, { prog0 with ctx := 0 }, by decide +kernel⟩,
   ⟨seqr id [], 3, 0, { id := 0, desc := desc 0x30, rerun := true }, { prog0 with ctx := 0 }, by decide +kernel⟩,
   ⟨seqm (id) 0, 3, rfl, by decide +kernel⟩⟩

theorem witness_TilesComplete :
    (∃ (s : Machine.State) (c : ℕ) (t : ℕ) (u : Tile) (p : Program), s.Serving ∧ (s.cell c).prog = some p ∧ tileAt s c t = some u ∧ u.running = true ∧ u.applied = true ∧ u.staged = [] ∧ tOp u.desc ≠ 64 ∧ u.core = false) ∧
    (∃ (s : Machine.State) (c : ℕ) (p : Program) (t : Tile) (rest : List Tile) (w : Machine.State × ℕ), s.Serving ∧ (s.cell c).prog = some p ∧ (List.filter (fun u => !u.core) p.tiles = t :: rest) ∧ t.done = true ∧ t.rerun = false ∧ w = writeFor s p.ctx (p.recAt + 32 * p.written) (tileRec t) ∧ w.2 = stOk) ∧
    (∃ (s : Machine.State) (c : ℕ) (p : Program), s.Serving ∧ (s.cell c).prog = some p ∧ p.tiles = [] ∧ (p.ended = true ∨ p.fail.isSome = true)) :=
  ⟨⟨seqr id [tile (fun t => { t with applied := true }) 0x30], 3, 0, tile (fun t => { t with applied := true }) 0x30, { prog0 with ctx := 0, tiles := [tile (fun t => { t with applied := true }) 0x30] }, rfl, by decide +kernel⟩,
   ⟨seqr id [tile (fun t => { t with running := false, done := true, applied := true }) 0x30], 3, { prog0 with ctx := 0, tiles := [tile (fun t => { t with running := false, done := true, applied := true }) 0x30] }, tile (fun t => { t with running := false, done := true, applied := true }) 0x30, [], writeFor (seqr id [tile (fun t => { t with running := false, done := true, applied := true }) 0x30]) 0 0x20000 (tileRec (tile (fun t => { t with running := false, done := true, applied := true }) 0x30)), rfl, by decide +kernel, by decide +kernel, by decide +kernel, by decide +kernel, rfl, by decide +kernel⟩,
   ⟨seqr (fun p => { p with ended := true }) [], 3, { prog0 with ctx := 0, ended := true }, rfl, by decide +kernel, by decide +kernel, Or.inl (by decide +kernel)⟩⟩

theorem witness_TileWatchdog :
    (∃ (s : Machine.State) (c : ℕ) (t : ℕ) (u : Tile), s.Serving ∧ tileAt s c t = some u ∧ u.running = true ∧ u.late = false) ∧
    (∃ (s : Machine.State) (c : ℕ) (t : ℕ) (u : Tile) (p : Program), s.Serving ∧ tileAt s c t = some u ∧ (s.cell c).prog = some p ∧ u.running = true ∧ tOp u.desc = 64 ∧ u.applied = true) ∧
    (∃ (s : Machine.State) (c : ℕ) (t : ℕ) (u : Tile) (p : Program), s.Serving ∧ tileAt s c t = some u ∧ (s.cell c).prog = some p ∧ u.running = true ∧ tOp u.desc ≠ 64) ∧
    (∃ (s : Machine.State) (c : ℕ) (t : ℕ) (u : Tile) (p : Program), s.Serving ∧ tileAt s c t = some u ∧ (s.cell c).prog = some p ∧ u.running = false) :=
  ⟨⟨seqr id [tile (fun t => { t with late := false }) 0x30], 3, 0, tile (fun t => { t with late := false }) 0x30, rfl, by decide +kernel⟩,
   ⟨seqr id [tile (fun t => { t with applied := true }) 0x40], 3, 0, tile (fun t => { t with applied := true }) 0x40, { prog0 with ctx := 0, tiles := [tile (fun t => { t with applied := true }) 0x40] }, rfl, by decide +kernel⟩,
   ⟨seqr id [tile (fun t => { t with late := false }) 0x30], 3, 0, tile (fun t => { t with late := false }) 0x30, { prog0 with ctx := 0, tiles := [tile (fun t => { t with late := false }) 0x30] }, rfl, by decide +kernel⟩,
   ⟨seqr id [tile (fun t => { t with running := false, done := true, applied := true }) 0x30], 3, 0, tile (fun t => { t with running := false, done := true, applied := true }) 0x30, { prog0 with ctx := 0, tiles := [tile (fun t => { t with running := false, done := true, applied := true }) 0x30] }, rfl, by decide +kernel⟩⟩

theorem witness_ControlCore :
    (∃ (s : Machine.State) (c : ℕ) (desc : List Word) (k : CoreRun) (p : Program), s.Serving ∧ (s.cell c).core = some k ∧ (s.cell c).prog = some p ∧ k.exit = none ∧ k.waiting < 4 ∧ k.fail = none ∧ p.fail = none ∧ p.stopNew = false ∧ desc.length = 32) ∧
    (∃ (s : Machine.State) (c : ℕ) (k : CoreRun), s.Serving ∧ (s.cell c).core = some k ∧ 4 ≤ k.waiting) ∧
    (∃ (s : Machine.State) (c : ℕ) (v : Word) (k : CoreRun), s.Serving ∧ (s.cell c).core = some k ∧ k.exit = none ∧ v = 0) ∧
    (∃ (s : Machine.State) (c : ℕ) (v : Word) (k : CoreRun), s.Serving ∧ (s.cell c).core = some k ∧ k.exit = none ∧ v = 1) ∧
    (∃ (s : Machine.State) (c : ℕ) (v : Word) (k : CoreRun), s.Serving ∧ (s.cell c).core = some k ∧ k.exit = none ∧ v ≠ 0 ∧ v ≠ 1) ∧
    (∃ (s : Machine.State) (c : ℕ) (k : CoreRun) (e : ℕ), s.Serving ∧ (s.cell c).core = some k ∧ k.exit = some e) :=
  ⟨⟨cell3 (fun k => { k with core := some { tile := 0 } }) (seqr id []), 3, List.replicate 32 0, { tile := 0 }, { prog0 with ctx := 0 }, rfl, by decide +kernel⟩,
   ⟨cell3 (fun k => { k with core := some { tile := 0, waiting := 4 } }) (seqr id []), 3, { tile := 0, waiting := 4 }, rfl, by decide +kernel⟩,
   ⟨cell3 (fun k => { k with core := some { tile := 0 } }) (seqr id []), 3, 0, { tile := 0 }, rfl, by decide +kernel, by decide +kernel, rfl⟩,
   ⟨cell3 (fun k => { k with core := some { tile := 0 } }) (seqr id []), 3, 1, { tile := 0 }, rfl, by decide +kernel, by decide +kernel, rfl⟩,
   ⟨cell3 (fun k => { k with core := some { tile := 0 } }) (seqr id []), 3, 2, { tile := 0 }, rfl, by decide +kernel⟩,
   ⟨cell3 (fun k => { k with core := some { tile := 0, exit := some 0 } }) (seqr id []), 3, { tile := 0, exit := some 0 }, 0, rfl, by decide +kernel⟩⟩

theorem witness_CopiesWriteTheirPlanes :
    (∃ (s : Machine.State) (x : ℕ) (t : Tile) (a : TRef) (b : TRef) (i : ℕ), memWf memFill s.mem = true ∧ copyRefs t.desc = some (a, b) ∧ doorbellCopy s x t.desc = none ∧ (∀ w ∈ planeWrites b (List.map (fun p => if a.cm = b.cm then rawBlocks s a p (a.extent (dmaRows t.desc) (dmaCols t.desc)) 0 (a.extent (dmaRows t.desc) (dmaCols t.desc)) else turned s a b (dmaRows t.desc) (dmaCols t.desc) p) (List.range (b.rows (dmaRows t.desc) (dmaCols t.desc)))), i < w.1 ∨ w.1 + List.length w.2 ≤ i)) ∧
    (∃ (s : Machine.State) (c : ℕ) (x : ℕ) (t : Tile) (a : TRef) (b : TRef) (q : QCtl) (i : ℕ), memWf memFill s.mem = true ∧ layoutRefs (modeOf s x) t.desc = some (a, b, q) ∧ (¬(fmtMx a.fmt = true ∧ a.fmt = b.fmt ∧ a.cm = b.cm)) ∧ (∀ w ∈ planeWrites b (quantise s q (qRound false q) b (dmaRows t.desc) (dmaCols t.desc) (spAddr c (fld t.desc 25 0 22)) (srKey s x t.desc) fun i j => elemAt s a i j), i < w.1 ∨ w.1 + List.length w.2 ≤ i)) ∧
    (∃ (s : Machine.State) (x : ℕ) (t : Tile) (a : TRef) (b : TRef) (q : QCtl) (i : ℕ), memWf memFill s.mem = true ∧ layoutRefs (modeOf s x) t.desc = some (a, b, q) ∧ fmtMx a.fmt = true ∧ a.fmt = b.fmt ∧ a.cm = b.cm ∧ (∀ w ∈ planeWrites b (List.map (fun p => rawBlocks s a p (a.extent (dmaRows t.desc) (dmaCols t.desc)) 0 (a.extent (dmaRows t.desc) (dmaCols t.desc))) (List.range (b.rows (dmaRows t.desc) (dmaCols t.desc)))), i < w.1 ∨ w.1 + List.length w.2 ≤ i)) ∧
    (∃ (s : Machine.State) (c : ℕ) (t : Tile) (a : TRef) (b : TRef) (i : ℕ), memWf memFill s.mem = true ∧ indexRefs t.desc true = some (a, b) ∧ (∀ w ∈ planeWrites b (List.map (fun i => if (idxIn t.desc i || decide (dmaOob t.desc = 0)) = true then rawBlocks s a (clampIdx t.desc i) (dmaCols t.desc) 0 (dmaCols t.desc) else zeroBlocks a.fmt (dmaCols t.desc)) (List.map (idxAt s c t.desc) (List.range (dmaRows t.desc)))), i < w.1 ∨ w.1 + List.length w.2 ≤ i)) ∧
    (∃ (s : Machine.State) (c : ℕ) (t : Tile) (a : TRef) (b : TRef), memWf memFill s.mem = true ∧ indexRefs t.desc false = some (a, b) ∧ (∀ i ∈ (List.map (idxAt s c t.desc) (List.range (dmaRows t.desc))), idxIn t.desc i = false)) :=
  ⟨⟨seqr id [tile id 0x30], 0, (tile id 0x30), (((copyRefs (desc 0x30)).get (by decide +kernel)).1), (((copyRefs (desc 0x30)).get (by decide +kernel)).2), 0, by decide +kernel⟩,
   ⟨seqr id [tile id 0x31], 3, 0, (tile id 0x31), ((layoutRefs .native (desc 0x31)).get (by decide +kernel)).1, ((layoutRefs .native (desc 0x31)).get (by decide +kernel)).2.1, ((layoutRefs .native (desc 0x31)).get (by decide +kernel)).2.2, 0, by decide +kernel⟩,
   ⟨seqr id [(tile (fun t => { t with desc := thead 0x31 ++ memw 5 (cellWin 3) ++ memw 5 0x80000 ++ le 4 (31 * 2 ^ 8) ++ zeros 12 ++ le 4 (5 * 2 ^ 28 + 2 ^ 26) ++ zeros 28 }) 0x31)], 0, (tile (fun t => { t with desc := thead 0x31 ++ memw 5 (cellWin 3) ++ memw 5 0x80000 ++ le 4 (31 * 2 ^ 8) ++ zeros 12 ++ le 4 (5 * 2 ^ 28 + 2 ^ 26) ++ zeros 28 }) 0x31), ((layoutRefs .native (tile (fun t => { t with desc := thead 0x31 ++ memw 5 (cellWin 3) ++ memw 5 0x80000 ++ le 4 (31 * 2 ^ 8) ++ zeros 12 ++ le 4 (5 * 2 ^ 28 + 2 ^ 26) ++ zeros 28 }) 0x31).desc).get (by decide +kernel)).1, ((layoutRefs .native (tile (fun t => { t with desc := thead 0x31 ++ memw 5 (cellWin 3) ++ memw 5 0x80000 ++ le 4 (31 * 2 ^ 8) ++ zeros 12 ++ le 4 (5 * 2 ^ 28 + 2 ^ 26) ++ zeros 28 }) 0x31).desc).get (by decide +kernel)).2.1, ((layoutRefs .native (tile (fun t => { t with desc := thead 0x31 ++ memw 5 (cellWin 3) ++ memw 5 0x80000 ++ le 4 (31 * 2 ^ 8) ++ zeros 12 ++ le 4 (5 * 2 ^ 28 + 2 ^ 26) ++ zeros 28 }) 0x31).desc).get (by decide +kernel)).2.2, 0x7FFFF, by decide +kernel⟩,
   ⟨seqr id [tile id 0x33], 3, (tile id 0x33), ((indexRefs (desc 0x33) true).get (by decide +kernel)).1, ((indexRefs (desc 0x33) true).get (by decide +kernel)).2, 0, by decide +kernel⟩,
   ⟨poke (seqr id [tile id 0x34]) (cellWin 3 + 0x2000) (le 4 5), 3, (tile id 0x34), ((indexRefs (desc 0x34) false).get (by decide +kernel)).1, ((indexRefs (desc 0x34) false).get (by decide +kernel)).2, by decide +kernel⟩⟩

theorem witness_ScatterAdds :
    (∃ (s : Machine.State) (h : ℕ) (c : ℕ) (t : ℕ) (g : Staged), s.Serving ∧ (List.find? (fun e => decide (e.cell = c) && decide (e.tile = t)) (s.holder h).staged = some g)) ∧
    (∃ (s : Machine.State) (l : List (ℕ × ℕ)) (i : ℕ), memWf memFill s.mem = true ∧ (∀ e ∈ l, i < e.1 ∨ e.1 + 13 ≤ i)) ∧
    (∃ (s : Machine.State) (at_ : ℕ), memWf memFill s.mem = true ∧ unreadable s at_ 16 = false) ∧
    (∃ (s : Machine.State) (c : ℕ) (t : Tile) (a : TRef) (base : ℕ) (stride : ℕ) (h : ℕ), saddRefs c t.desc = some (a, base, stride) ∧ ownWin c base = false ∧ (∀ p ∈ (saddParts s c t (contributions s c t.desc a base stride)), p.1 ≠ h)) ∧
    (∃ (s : Machine.State) (h : ℕ) (c : ℕ) (t : ℕ) (n : ℕ) (before : List (ℕ × ℕ × ℕ)) (after : List (ℕ × ℕ × ℕ)), (s.holder h).announced = before ++ (c, t, n) :: after ∧ (∀ e ∈ before, ¬(e.1 = c ∧ e.2.1 = t))) :=
  ⟨⟨(seqr id [tile id 0x35]).modHolder 8 (fun h => { h with staged := [{ cell := 3, tile := 0, contr := [(0x80000, 0x3F800000)] }] }), 8, 3, 0, { cell := 3, tile := 0, contr := [(0x80000, 0x3F800000)] }, rfl, by decide +kernel⟩,
   ⟨on, [(0x80000, 0x3F800000)], 0x7FFFF, by decide +kernel⟩,
   ⟨on, 0x80000, by decide +kernel⟩,
   ⟨seqr id [tile id 0x35], 3, (tile id 0x35), ((saddRefs 3 (desc 0x35)).get (by decide +kernel)).1, 0x80000, 64, 9, by decide +kernel⟩,
   ⟨on.modHolder 8 (fun h => { h with announced := [(3, 0, 1)] }), 8, 3, 0, 1, [], [], by decide +kernel⟩⟩

theorem witness_ElementsDecode :
    (∃ (S : ℕ) (code : ℕ), 1 ≤ S ∧ S ≤ 254 ∧ code < 256 ∧ code % 128 ≤ 126 ∧ code ≠ 128) ∧
    (∃ (S : ℕ) (code : ℕ), 1 ≤ S ∧ S ≤ 254 ∧ code < 256 ∧ code % 128 ≤ 126 ∧ code ≠ 128) ∧
    (∃ (S : ℕ) (code : ℕ), 1 ≤ S ∧ S ≤ 254 ∧ code < 16 ∧ code ≠ 8) ∧
    (∃ (f : Fmt) (w : ℕ) (x : ℕ) (code : ℕ), (f, w) ∈ [(Fmt.gbi16, 16), (Fmt.gbi24, 24)] ∧ 1 ≤ x ∧ x ≤ 254 ∧ code < 2 ^ w ∧ code = 2 ^ (w - 1)) ∧
    (∃ (f : Fmt) (w : ℕ) (x : ℕ) (code : ℕ), (f, w) ∈ [(Fmt.gbi16, 16), (Fmt.gbi24, 24)] ∧ 1 ≤ x ∧ x ≤ 254 ∧ code < 2 ^ w ∧ code = 2 ^ (w - 1)) ∧
    (∃ (f : Fmt) (w : ℕ) (x : ℕ) (code : ℕ), (f, w) ∈ [(Fmt.gbi16, 16), (Fmt.gbi24, 24)] ∧ 1 ≤ x ∧ x ≤ 254 ∧ code < 2 ^ w ∧ code ≠ 2 ^ (w - 1)) :=
  ⟨⟨1, 0x7E, by decide +kernel⟩,
   ⟨254, 0xFE, by decide +kernel⟩,
   ⟨127, 0, by decide +kernel⟩,
   ⟨.gbi16, 16, 1, 0x8000, by decide +kernel, by decide +kernel, by decide +kernel, by decide +kernel, rfl⟩,
   ⟨.gbi24, 24, 254, 0x800000, by decide +kernel, by decide +kernel, by decide +kernel, by decide +kernel, rfl⟩,
   ⟨.gbi24, 24, 1, 0xFFFFFF, by decide +kernel⟩⟩

theorem witness_EngineEffects :
    (∃ (s : Machine.State) (j : EngJob) (l : List Machine.Stream) (o : Machine.Stream), memWf memFill s.mem = true ∧ streamAt l 7 = some o ∧ partPoison s o.base (jCount j.desc) = []) ∧
    (∃ (s : Machine.State) (j : EngJob) (l : List Machine.Stream) (o : Machine.Stream) (i : ℕ), memWf memFill s.mem = true ∧ streamAt l 7 = some o ∧ (∀ r ∈ l, r.slot ≤ 2 → digestFail s r (jCount j.desc) = none) ∧ partPoison s o.base 64 = [] ∧ (i < o.base ∨ o.base + List.length (sha512 (List.flatMap (fun r => List.flatMap (fun b => (digestUnit s r b).getD []) (List.range (digestUnits r (jCount j.desc)).1)) (List.filter (fun r => decide (r.slot ≤ 2)) l))) ≤ i)) ∧
    (∃ (s : Machine.State) (j : EngJob) (l : List Machine.Stream) (o : Machine.Stream), streamAt l 7 = some o ∧ o.reads = false ∧ (∀ r ∈ l, r.slot ≤ 5 → readTo s r.base (jCount j.desc) = jCount j.desc) ∧ partPoison s o.base (jCount j.desc) = []) ∧
    (∃ (s : Machine.State) (x : ℕ) (idx : ℕ) (dst : ℕ) (len : ℕ) (rows : ℕ) (i : ℕ) (w : Bytes), readMem s (idx + 4 * i) 4 = some w ∧ (toSigned 32 (ofLe w) < 0 ∨ ↑rows ≤ toSigned 32 (ofLe w)) ∧ (gatherPut s x (dst + i * len) (zeros len)).2 = 0) ∧
    (∃ (j : EngJob) (l : List Machine.Stream) (q : QCtl) (b : Bytes), progOk j.desc l q (wordsOf b) (jobProg j.desc l (wordsOf b)) = false) ∧
    (∃ (s : Machine.State) (j : EngJob) (l : List Machine.Stream) (q : QCtl) (b : Bytes), progOk j.desc l q (wordsOf b) (jobProg j.desc l (wordsOf b)) = true ∧ isUpdate s j.ctx j.desc l = true ∧ gateOpen s j.ctx j.bound (wordsOf b) = false) ∧
    (∃ (e : JobEnd), (e.grids = [] ∨ e.grids.length = 3)) :=
  ⟨⟨on, ejob 0x50, [{ slot := 7, base := 0x88000, fmt := .fp32, dir := 2, aux := 0 }], { slot := 7, base := 0x88000, fmt := .fp32, dir := 2, aux := 0 }, by decide +kernel⟩,
   ⟨on, ejob 0x20, [{ slot := 0, base := 0x80000, fmt := .fp32, dir := 1, aux := 0 }, { slot := 7, base := 0x88000, fmt := .fp32, dir := 2, aux := 0 }], { slot := 7, base := 0x88000, fmt := .fp32, dir := 2, aux := 0 }, 0, by decide +kernel, by decide +kernel, by decide +kernel, by decide +kernel, Or.inl (by decide +kernel)⟩,
   ⟨on, ejob 0x30, [{ slot := 0, base := 0x80000, fmt := .fp32, dir := 1, aux := 0 }, { slot := 7, base := 0x88000, fmt := .fp32, dir := 2, aux := 0 }], { slot := 7, base := 0x88000, fmt := .fp32, dir := 2, aux := 0 }, by decide +kernel⟩,
   ⟨on, 0, 0x81000, 0x88000, 4, 0, 0, zeros 4, by decide +kernel, Or.inr (by decide +kernel), by decide +kernel⟩,
   ⟨ejob 0x80, [], { fmt := .fp32, qmode := .plain, rmode := 0, sat := false, micro := false, strict := false, shift := 0 }, zeros 255 ++ [1], by decide +kernel⟩,
   ⟨train id on, ejob 0x10, [{ slot := 0, base := 0x80000, fmt := .fp32, dir := 1, aux := 0 }, { slot := 7, base := 0x88000, fmt := .fp32, dir := 2, aux := 0 }], { fmt := .fp32, qmode := .plain, rmode := 0, sat := false, micro := false, strict := false, shift := 0 }, zeros 256, by decide +kernel⟩,
   ⟨{ s := on }, Or.inl rfl⟩⟩

theorem witness_JobsHandedOut :
    (∃ (s : Machine.State) (q : ℕ) (h : ℕ) (x : ℕ) (b : Bytes) (d : Bytes), Starts s q b ∧ cOp b = 33 ∧ h = leAt b 24 1 ∧ (s.holder h).resetting = false ∧ x = (s.queue q).ctx ∧ readFor (beginCmd q b s) x (leAt b 32 8) 160 = Except.ok d ∧ fenced s h = false ∧ workConflict (beginCmd q b s) x (decide (jProg d = 96) || decide (jProg d = 80) || decide (jProg d = 33)) = false) ∧
    (∃ (s : Machine.State) (q : ℕ) (h : ℕ) (b : Bytes) (d : Bytes), Starts s q b ∧ cOp b = 33 ∧ h = leAt b 24 1 ∧ (s.holder h).resetting = false ∧ readFor (beginCmd q b s) (s.queue q).ctx (leAt b 32 8) 160 = Except.ok d ∧ fenced s h = true ∧ workConflict (beginCmd q b s) (s.queue q).ctx (decide (jProg d = 96) || decide (jProg d = 80) || decide (jProg d = 33)) = false) ∧
    (∃ (s : Machine.State) (q : ℕ) (h : ℕ) (b : Bytes) (e : ℕ), Starts s q b ∧ cOp b = 33 ∧ h = leAt b 24 1 ∧ (s.holder h).resetting = false ∧ readFor (beginCmd q b s) (s.queue q).ctx (leAt b 32 8) 160 = Except.error e ∧ fenced s h = false ∧ workConflict (beginCmd q b s) (s.queue q).ctx false = false) ∧
    (∃ (s : Machine.State) (h : ℕ) (j : EngJob) (l : List Machine.Stream) (q : QCtl) (b : Bytes) (a : Machine.Stream) (o : Machine.Stream), s.Serving ∧ EngineFree s h ∧ nextJob (s.holder h) = some j ∧ jProg j.desc = 81 ∧ jobChecks s h j = Except.ok (l, q, b) ∧ streamAt l 0 = some a ∧ streamAt l 7 = some o ∧ readTo s a.base (jCount j.desc) = jCount j.desc ∧ (sendWrite (startJob h j s) (some j.ctx) 2 (Config.migrateDev j.desc b) o.base (peek s a.base (jCount j.desc)) (.migrate h) ((startJob h j s).queue j.queue).budget).ended = []) ∧
    (∃ (s : Machine.State) (h : ℕ) (j : EngJob) (l : List Machine.Stream) (q : QCtl) (b : Bytes) (a : Machine.Stream) (o : Machine.Stream), s.Serving ∧ EngineFree s h ∧ nextJob (s.holder h) = some j ∧ jProg j.desc = 81 ∧ jobChecks s h j = Except.ok (l, q, b) ∧ streamAt l 0 = some a ∧ streamAt l 7 = some o ∧ readTo s a.base (jCount j.desc) = jCount j.desc ∧ ((sendWrite (startJob h j s) (some j.ctx) 2 (Config.migrateDev j.desc b) o.base (peek s a.base (jCount j.desc)) (.migrate h) ((startJob h j s).queue j.queue).budget).holder h).running = some j) ∧
    (∃ (s : Machine.State) (h : ℕ) (j : EngJob) (l : List Machine.Stream) (q : QCtl) (b : Bytes) (cs : Bytes) (o : Machine.Stream), s.Serving ∧ EngineFree s h ∧ nextJob (s.holder h) = some j ∧ jProg j.desc = 96 ∧ jobChecks s h j = Except.ok (l, q, b) ∧ streamAt l 7 = some o ∧ manOk b (jCount j.desc) = true ∧ loadMay (startJob h j s) h j b o = true ∧ readMem (startJob h j s) (jParam j.desc + 128) (8 * chunkCount (leAt b 64 8)) = some cs ∧ ((startLoad h ((startJob h j s).modHolder h (fun k => { k with load := some { job := j, base := o.base, len := leAt b 64 8, digest := slice b 0 64, crcs := (List.range (chunkCount (leAt b 64 8))).map (fun i => leAt cs (8 * i) 8), srcs := manSrcs b, timeout := if leAt b 72 4 = 0 then s.plate.shardTo else leAt b 72 4 } }))).ended = [])) ∧
    (∃ (s : Machine.State) (h : ℕ) (v : ShardLoad), (s.holder h).load = some v) ∧
    (∃ (s : Machine.State) (h : ℕ) (v : ShardLoad), s.Serving ∧ (s.holder h).load = some v ∧ ((endLoad h stShard (((List.range v.crcs.length).find? (fun i => !v.passed.contains i)).getD 0) s).ended = [])) :=
  ⟨⟨poke (reg (put (cmd 33 0 0 0 ([8] ++ zeros 7 ++ le 8 0x20000 ++ le 8 0xA0000)) .ready (on))) 0x20000 (jdesc 0x50), 0, 8, 0, cmd 33 0 0 0 ([8] ++ zeros 7 ++ le 8 0x20000 ++ le 8 0xA0000), jdesc 0x50, starts_of (by decide +kernel), by decide +kernel, rfl, by decide +kernel, rfl, by decide +kernel⟩,
   ⟨(poke (reg (put (cmd 33 0 0 0 ([9] ++ zeros 7 ++ le 8 0x20000 ++ le 8 0xA0000)) .ready (on))) 0x20000 (jdesc 0x50)).modDie 9 (fun d => { d with fenced := true }), 0, 9, cmd 33 0 0 0 ([9] ++ zeros 7 ++ le 8 0x20000 ++ le 8 0xA0000), jdesc 0x50, starts_of (by decide +kernel), by decide +kernel, rfl, by decide +kernel⟩,
   ⟨(put (cmd 33 0 0 0 ([8] ++ zeros 7 ++ le 8 0x20000 ++ le 8 0xA0000)) .ready (on)), 0, 8, cmd 33 0 0 0 ([8] ++ zeros 7 ++ le 8 0x20000 ++ le 8 0xA0000), stPerm, starts_of (by decide +kernel), by decide +kernel, rfl, by decide +kernel⟩,
   (by refine ⟨held 0x51 on, 8, ejob 0x51, [{ slot := 0, base := 0x80000, fmt := .fp32, dir := 1, aux := 0 }, { slot := 7, base := 0x88000, fmt := .fp32, dir := 2, aux := 0 }], ((jobForm .native (jdesc 0x51)).get (by decide +kernel)).2, peek (held 0x51 on) 0x90000 256, { slot := 0, base := 0x80000, fmt := .fp32, dir := 1, aux := 0 }, { slot := 7, base := 0x88000, fmt := .fp32, dir := 2, aux := 0 }, rfl, ⟨by decide +kernel, by decide +kernel, by decide +kernel⟩, ?_, ?_, ?_, ?_, ?_, ?_, fresh_none (startJob 8 (ejob 0x51) (held 0x51 on)) _ _ _ _ (by exact (show PeerSt.unknown ≠ .lost by decide)) (by rfl) (by rfl) (by decide +kernel)⟩ <;> decide +kernel),
   (by refine ⟨held 0x51 on, 8, ejob 0x51, [{ slot := 0, base := 0x80000, fmt := .fp32, dir := 1, aux := 0 }, { slot := 7, base := 0x88000, fmt := .fp32, dir := 2, aux := 0 }], ((jobForm .native (jdesc 0x51)).get (by decide +kernel)).2, peek (held 0x51 on) 0x90000 256, { slot := 0, base := 0x80000, fmt := .fp32, dir := 1, aux := 0 }, { slot := 7, base := 0x88000, fmt := .fp32, dir := 2, aux := 0 }, rfl, ⟨by decide +kernel, by decide +kernel, by decide +kernel⟩, ?_, ?_, ?_, ?_, ?_, ?_, (show ((sendMsg _ _ _ _ _).holder _).running = _ by unfold State.holder; rw [(fresh_send (startJob 8 (ejob 0x51) (held 0x51 on)) _ _ _ _ (by exact (show PeerSt.unknown ≠ .lost by decide)) (by rfl) (by rfl)).2]; decide +kernel)⟩ <;> decide +kernel),
   ⟨poke (held 0x60 on) 0x90000 man, 8, ejob 0x60, [{ slot := 7, base := 0x88000, fmt := .fp32, dir := 2, aux := 0 }], ((jobForm .native (jdesc 0x60)).get (by decide +kernel)).2, peek (poke (held 0x60 on) 0x90000 man) 0x90000 128, zeros 8, { slot := 7, base := 0x88000, fmt := .fp32, dir := 2, aux := 0 }, rfl, ⟨by decide +kernel, by decide +kernel, by decide +kernel⟩, by decide +kernel⟩,
   ⟨(reg on).modHolder 8 (fun k => { k with running := some (ejob 0x60), load := some { job := ejob 0x60, base := 0x88000, len := 4, digest := zeros 64, crcs := [0], srcs := [(1, 0x80000)] } }), 8, { job := ejob 0x60, base := 0x88000, len := 4, digest := zeros 64, crcs := [0], srcs := [(1, 0x80000)] }, by decide +kernel⟩,
   ⟨(reg on).modHolder 8 (fun k => { k with running := some (ejob 0x60), load := some { job := ejob 0x60, base := 0x88000, len := 4, digest := zeros 64, crcs := [0], srcs := [(1, 0x80000)] } }), 8, { job := ejob 0x60, base := 0x88000, len := 4, digest := zeros 64, crcs := [0], srcs := [(1, 0x80000)] }, rfl, by decide +kernel⟩⟩

theorem witness_ChunksRechecked :
    (∃ (s : Machine.State) (h : ℕ) (i : ℕ) (c : Chunk), s.Serving ∧ s.ended = [] ∧ (s.holder h).chunks[i]? = some c ∧ engMay s c.ctx c.addr c.len false false false (some h) = true ∧ (((s.holder h).restores.any fun r => decide (r.chunk.addr = c.addr)) = false) ∧ crcIs s c.addr c.len c.crc = true) ∧
    (∃ (s : Machine.State) (h : ℕ) (i : ℕ) (c : Chunk), s.Serving ∧ (s.holder h).chunks[i]? = some c ∧ engMay s c.ctx c.addr c.len false false false (some h) = true ∧ (((s.holder h).restores.any fun r => decide (r.chunk.addr = c.addr)) = false) ∧ unreadable s c.addr c.len = false ∧ crc64 (peek s c.addr c.len) ≠ c.crc ∧ ((askRestore 8 h c.addr (markRestoring c.ctx ((digestRecord 1 c.idx h 50 c.ctx 0 s).modHolder h (fun k => { k with restores := k.restores ++ [{ chunk := c, pos := 0 }] })))).ended = [])) ∧
    (∃ (s : Machine.State) (h : ℕ) (i : ℕ) (c : Chunk), s.Serving ∧ s.ended = [] ∧ (s.holder h).chunks[i]? = some c ∧ engMay s c.ctx c.addr c.len false false false (some h) = false) :=
  ⟨⟨(reg on).modHolder 8 (fun h => { h with chunks := [{ ctx := 0, addr := 0x80000, len := 4, crc := crc64 (zeros 4) }] }), 8, 0, { ctx := 0, addr := 0x80000, len := 4, crc := crc64 (zeros 4) }, rfl, by decide +kernel⟩,
   ⟨(reg on).modHolder 8 (fun h => { h with chunks := [{ ctx := 0, addr := 0x80000, len := 4, crc := 0 }] }), 8, 0, { ctx := 0, addr := 0x80000, len := 4, crc := 0 }, rfl, by decide +kernel⟩,
   ⟨(on).modHolder 8 (fun h => { h with chunks := [{ ctx := 0, addr := 0x80000, len := 4, crc := 0 }] }), 8, 0, { ctx := 0, addr := 0x80000, len := 4, crc := 0 }, rfl, by decide +kernel⟩⟩

theorem witness_MemoryRequests :
    (∃ (s : Machine.State) (r : Requester) (write : Bool) (a : ℕ) (n : ℕ) (data : Bytes), s.Serving ∧ ((requestStatus s r write a (if write = true then List.length data else n)).1 = stPerm)) ∧
    (∃ (s : Machine.State) (r : Requester) (a : ℕ) (n : ℕ) (tag : TagRead), s.Serving ∧ requestStatus s r false a n = (stOk, none) ∧ unreadable s a n = false ∧ (tag.first = [] ∨ checkedPairs s false a n = [])) ∧
    (∃ (s : Machine.State) (r : Requester) (a : ℕ) (data : Bytes) (tag : TagRead), s.Serving ∧ memWf memFill s.mem = true ∧ requestStatus s r true a (List.length data) = (stOk, none) ∧ partPoison s a (List.length data) = [] ∧ (tag.first = [] ∨ checkedPairs s true a (List.length data) = [])) ∧
    (∃ (s : Machine.State) (r : Requester) (a : ℕ) (n : ℕ) (tag : TagRead), s.Serving ∧ requestStatus s r false a n = (stOk, none) ∧ unreadable s a n = true ∧ (tag.first = [] ∨ checkedPairs s false a n = [])) ∧
    (∃ (s : Machine.State) (write : Bool) (a : ℕ) (n : ℕ) (h : ℕ) (r : Requester), areaOf s a = Area.firmware h ∧ r ≠ Requester.firmware ∧ (r ≠ Requester.operator ∨ write = true ∨ operatorTables s a n = false)) ∧
    (∃ (s : Machine.State) (a : ℕ) (n : ℕ) (h : ℕ), areaOf s a = Area.firmware h ∧ areaOf s (a + n - 1) = Area.firmware h ∧ 0 < n ∧ fenced s h = false ∧ operatorTables s a n = true) :=
  ⟨⟨on, .unit 0, false, 0x80000, 4, [], rfl, by decide +kernel⟩,
   ⟨reg on, .unit 0, 0x80000, 4, {}, rfl, by decide +kernel, by decide +kernel, Or.inl rfl⟩,
   ⟨reg on, .unit 0, 0x80000, [1, 2, 3, 4], {}, rfl, by decide +kernel, by decide +kernel, by decide +kernel, Or.inl rfl⟩,
   ⟨{ reg on with poison := [0x1000] }, .unit 0, 0x80000, 4, {}, rfl, by decide +kernel, by decide +kernel, Or.inl rfl⟩,
   ⟨on, false, 0xB30000000, 1, 8, .operator, by decide +kernel, by decide +kernel, Or.inr (Or.inr (by decide +kernel))⟩,
   ⟨on, crashSlot on 0, 8, 8, by decide +kernel⟩⟩

theorem witness_ScrubPatrol :
    (∃ (s : Machine.State) (h : ℕ), s.Serving ∧ (s.holder h).patrolEn = true ∧ fenced s h = false ∧ (s.holder h).resetting = false ∧ (8 ≤ h ∧ h ≤ 15 ∨ h = 19) ∧ (s.holder h).nextPair + 1 < (patrolCounts h).1 + (patrolCounts h).2 ∧ s.poison.contains (patrolPair h (s.holder h).nextPair) = false) ∧
    (∃ (s : Machine.State) (h : ℕ), s.Serving ∧ (s.holder h).patrolEn = true ∧ fenced s h = false ∧ (s.holder h).resetting = false ∧ (8 ≤ h ∧ h ≤ 15 ∨ h = 19) ∧ (s.holder h).nextPair + 1 < (patrolCounts h).1 + (patrolCounts h).2 ∧ s.poison.contains (patrolPair h (s.holder h).nextPair) = true) ∧
    (∃ (s : Machine.State) (h : ℕ) (p : ℕ), pairHolder s p = some h) ∧
    (∃ (tag : TagRead), tag.first ≠ []) ∧
    (∃ (s : Machine.State) (h : ℕ), s.Serving ∧ (s.holder h).patrolEn = true ∧ fenced s h = false ∧ (s.holder h).resetting = false ∧ (8 ≤ h ∧ h ≤ 15 ∨ h = 19) ∧ (s.holder h).nextPair + 1 = (patrolCounts h).1 + (patrolCounts h).2 ∧ s.poison.contains (patrolPair h (s.holder h).nextPair) = false) :=
  ⟨⟨on, 8, rfl, by decide +kernel, by decide +kernel, by decide +kernel, Or.inl (by decide +kernel), by decide +kernel⟩,
   ⟨{ on with poison := [0] }, 8, rfl, by decide +kernel, by decide +kernel, by decide +kernel, Or.inl (by decide +kernel), by decide +kernel⟩,
   ⟨on, 8, 0, by decide +kernel⟩,
   ⟨{ first := [0] }, by decide +kernel⟩,
   ⟨on.modHolder 19 (fun k => { k with nextPair := 0x3C3C00000 - 1 }), 19, rfl, by decide +kernel, by decide +kernel, by decide +kernel, Or.inr (by decide +kernel), by decide +kernel⟩⟩

theorem witness_Collectives :
    (∃ (s : Machine.State) (q : ℕ) (x : ℕ) (b : Bytes) (d : Bytes) (f : List (ℕ × ℕ) × List (ℕ × ℕ)), Starts s q b ∧ cOp b = 34 ∧ x = (s.queue q).ctx ∧ readFor (beginCmd q b s) x (leAt b 32 8) 128 = Except.ok d ∧ collForm (beginCmd q b s) x d = some f ∧ fenced (beginCmd q b s) (collDie (beginCmd q b s) (leAt b 24 1)) = false ∧ kOp d ≠ 9 ∧ workConflict (beginCmd q b s) x false = false ∧ mayAll (beginCmd q b s) x false true f.1 = true ∧ mayAll (beginCmd q b s) x true false f.2 = true ∧ anyBad (beginCmd q b s) f.1 = false) ∧
    (∃ (s : Machine.State) (q : ℕ) (x : ℕ) (b : Bytes) (d : Bytes), Starts s q b ∧ cOp b = 34 ∧ x = (s.queue q).ctx ∧ s.ended = [] ∧ readFor (beginCmd q b s) x (leAt b 32 8) 128 = Except.ok d ∧ collForm (beginCmd q b s) x d = none ∧ fenced (beginCmd q b s) (collDie (beginCmd q b s) (leAt b 24 1)) = false ∧ kOp d ≠ 9 ∧ workConflict (beginCmd q b s) x false = false) ∧
    (∃ (x : ℕ) (g : ℕ) (op : ℕ) (y : ℕ) (h : ℕ) (o : ℕ), (y, h, o) ≠ (x, g, op)) ∧
    (∃ (s : Machine.State) (p : FjPkt), s.Serving ∧ p.hdr.cls = 1 ∧ p.hdr.ty = 1 ∧ pktRefusal (takeRx s p) p = none ∧ (collGroup (takeRx s p) p.hdr.ctx (cdataOf p).group = none ∨ cdataOk (takeRx s p) p.hdr.ctx (cdataOf p) = false) ∧ s.ended = []) ∧
    (∃ (s : Machine.State) (p : FjPkt), s.Serving ∧ p.hdr.cls = 1 ∧ p.hdr.ty = 1 ∧ pktRefusal (takeRx s p) p = none ∧ collGroup (takeRx s p) p.hdr.ctx (cdataOf p).group ≠ none ∧ cdataOk (takeRx s p) p.hdr.ctx (cdataOf p) = true ∧ ((cdataOf p).op ≠ 1 ∧ (cdataOf p).op ≠ 2 ∧ (cdataOf p).op ≠ 6 ∨ (cdataOf p).fails = true) ∧ notYet (takeRx s p) p.hdr.ctx (cdataOf p) = false) ∧
    (∃ (s : Machine.State) (p : FjPkt), s.Serving ∧ p.hdr.cls = 1 ∧ p.hdr.ty = 1 ∧ pktRefusal (takeRx s p) p = none ∧ collGroup (takeRx s p) p.hdr.ctx (cdataOf p).group ≠ none ∧ cdataOk (takeRx s p) p.hdr.ctx (cdataOf p) = true ∧ ((cdataOf p).op = 1 ∨ (cdataOf p).op = 2 ∨ (cdataOf p).op = 6) ∧ (cdataOf p).fails = false ∧ (∀ (k : Coll), findColl (takeRx s p) p.hdr.ctx (cdataOf p).op (cdataOf p).group (cdataOf p).inst = some k → (cdataOf p).op = 6 → (cdataOf p).rows = kRows k.desc ∧ (cdataOf p).cols = kCols k.desc) ∧ (((List.range (cdataOf p).n).all fun i => reducesHere (takeRx s p) p.hdr.ctx (cdataOf p).op (cdataOf p).group ((cdataOf p).first + i)) = true) ∧ (findColl (takeRx s p) p.hdr.ctx (cdataOf p).op (cdataOf p).group (cdataOf p).inst).isSome = true ∧ redRoom (takeRx s p) p.hdr.ctx (cdataOf p) = true) :=
  ⟨⟨poke (train id (put (cmd 34 0 0 0 ([255] ++ zeros 7 ++ le 8 0x20000)) .ready (on))) 0x20000 (cdesc 5), 0, 0, cmd 34 0 0 0 ([255] ++ zeros 7 ++ le 8 0x20000), cdesc 5, ((collForm (beginCmd 0 (cmd 34 0 0 0 ([255] ++ zeros 7 ++ le 8 0x20000)) (poke (train id (put (cmd 34 0 0 0 ([255] ++ zeros 7 ++ le 8 0x20000)) .ready (on))) 0x20000 (cdesc 5))) 0 (cdesc 5)).get (by decide +kernel)), starts_of (by decide +kernel), by decide +kernel, rfl, by decide +kernel⟩,
   ⟨poke (train id (put (cmd 34 0 0 0 ([255] ++ zeros 7 ++ le 8 0x20000)) .ready (on))) 0x20000 (cdesc 0), 0, 0, cmd 34 0 0 0 ([255] ++ zeros 7 ++ le 8 0x20000), cdesc 0, starts_of (by decide +kernel), by decide +kernel, rfl, by decide +kernel⟩,
   ⟨0, 0, 5, 0, 0, 4, by decide +kernel⟩,
   ⟨train id (rdy), ofJob (pkt 1 1 (cext 0 0) []), rfl, by decide +kernel, by decide +kernel, by decide +kernel, Or.inr (by decide +kernel), by decide +kernel⟩,
   ⟨train id (ctx0 (fun c => { c with instNo := [(0, 5, 1)] }) rdy), ofJob (pkt 1 1 (cext 5 0) [1, 2]), rfl, by decide +kernel, by decide +kernel, by decide +kernel, by decide +kernel, by decide +kernel, Or.inl (by decide +kernel), by decide +kernel⟩,
   ⟨{ train id (ctx0 (fun c => { c with instNo := [(0, 1, 1)] }) rdy) with colls := [{ x := 0, queue := none, desc := zeros 128, op := 1, group := 0, num := 0, epoch := 0, die := 16, members := [0] }] }, ofJob (pkt 1 1 (cext 1 10) (zeros 68)), rfl, by decide +kernel, by decide +kernel, by decide +kernel, by decide +kernel, by decide +kernel, Or.inl (by decide +kernel), by decide +kernel, (by intro k hk h6; exact absurd h6 (by decide +kernel)), by decide +kernel⟩⟩

theorem witness_Doorbells :
    (∃ (s : Machine.State) (q : ℕ) (v : ℕ), (s.queue q).defined = true ∧ (s.queue q).enabled = true ∧ dbAccept (s.queue q) v = true ∧ ringOk s q = true) ∧
    (∃ (s : Machine.State) (q : ℕ) (v : ℕ), (s.queue q).defined = true ∧ (s.queue q).enabled = true ∧ dbAccept (s.queue q) v = true ∧ ringOk s q = true) ∧
    (∃ (s : Machine.State) (q : ℕ) (v : ℕ), (s.queue q).defined = true ∧ (s.queue q).enabled = true ∧ dbAccept (s.queue q) v = false) ∧
    (∃ (s : Machine.State) (q : ℕ), (s.queue q).enabled = false) ∧
    (∃ (s : Machine.State) (p : FjPkt) (session : Option ℕ), s.Serving ∧ isCtl p 2 = true ∧ leAt p.payload 2 2 = s.plate.devIndex ∧ List.length p.payload = 16 ∧ leAt (List.drop 8 p.payload) 2 2 = 0 ∧ pktRefusal (takeRx s p) p = none ∧ (leAt (p.payload.drop 8) 0 2) < 16384 ∧ ((takeRx s p).queue (leAt (p.payload.drop 8) 0 2)).defined = true ∧ ((takeRx s p).queue (leAt (p.payload.drop 8) 0 2)).ctx = p.hdr.ctx ∧ boundOk (takeRx s p) p.hdr.ctx (viaHost (takeRx s p) p) session = true) ∧
    (∃ (s : Machine.State) (p : FjPkt), s.Serving ∧ isCtl p 2 = true ∧ leAt p.payload 2 2 = s.plate.devIndex ∧ List.length p.payload = 16 ∧ leAt (List.drop 8 p.payload) 2 2 = 0 ∧ pktRefusal (takeRx s p) p = none ∧ (leAt (p.payload.drop 8) 0 2) / 16384 = 2 ∧ (leAt (p.payload.drop 8) 0 2) % 16384 < 4095) ∧
    (∃ (s : Machine.State) (r : Requester) (q : ℕ), s.Serving ∧ q < 16384 ∧ queueRight s r q = true) ∧
    (∃ (s : Machine.State) (r : Requester) (q : ℕ), s.Serving ∧ q < 16384 ∧ queueRight s r q = false) :=
  ⟨⟨rdy, 0, 2, by decide +kernel⟩,
   ⟨rdy, 0, 257, by decide +kernel⟩,
   ⟨rdy, 0, 1, by decide +kernel⟩,
   ⟨rdy.modQueue 0 (fun k => { k with enabled := false }), 0, by decide +kernel⟩,
   ⟨rdy, ctl 2 ([0, 0, 0, 0] ++ le 4 2), none, rfl, by decide +kernel⟩,
   ⟨rdy, ctl 2 ([3, 128, 0, 0] ++ le 4 2), rfl, by decide +kernel⟩,
   ⟨rdy, .unit 0, 0, rfl, by decide +kernel⟩,
   ⟨rdy, .unit 1, 0, rfl, by decide +kernel⟩⟩

theorem witness_Mailboxes :
    (∃ (s : Machine.State) (ch : ℕ) (msg : Bytes), s.Serving ∧ s.ended = [] ∧ ch < 64 ∧ (decide (ch = 63) && lendingChannel s) = false ∧ isSender s ch MboxFrom.fleet = true ∧ 8 ≤ List.length msg ∧ List.length msg ≤ 256 ∧ leAt msg 2 2 ≤ 248 ∧ mboxOff s ch = false ∧ (s.mbox ch).inFull = false) ∧
    (∃ (s : Machine.State) (ch : ℕ) (msg : Bytes), s.Serving ∧ s.ended = [] ∧ ch < 64 ∧ (decide (ch = 63) && lendingChannel s) = false ∧ isSender s ch MboxFrom.fleet = true ∧ 8 ≤ List.length msg ∧ List.length msg ≤ 256 ∧ leAt msg 2 2 ≤ 248 ∧ mboxOff s ch = false ∧ (s.mbox ch).inFull = true) ∧
    (∃ (s : Machine.State) (ch : ℕ), s.Serving ∧ s.ended = [] ∧ ch < 64 ∧ (decide (ch = 63) && lendingChannel s) = false ∧ isSender s ch MboxFrom.fleet = false) ∧
    (∃ (s : Machine.State) (ch : ℕ), s.Serving ∧ s.ended = [] ∧ ch < 64 ∧ (decide (ch = 63) && lendingChannel s) = false ∧ isSender s ch MboxFrom.operator = true ∧ mboxOff s ch = false) ∧
    (∃ (s : Machine.State) (ch : ℕ), s.Serving ∧ s.ended = [] ∧ ch < 64 ∧ (decide (ch = 63) && lendingChannel s) = false ∧ isSender s ch MboxFrom.operator = false) ∧
    (∃ (s : Machine.State) (r : Requester) (ch : ℕ), s.Serving ∧ ch < 64 ∧ mboxRight s r ch = true ∧ mboxOff s ch = false ∧ (s.mbox ch).inFull = false) ∧
    (∃ (s : Machine.State) (r : Requester) (ch : ℕ), s.Serving ∧ ch < 64 ∧ mboxRight s r ch = true ∧ mboxOff s ch = false ∧ (s.mbox ch).inFull = true) ∧
    (∃ (s : Machine.State) (ch : ℕ) (q : ℕ) (n : ℕ), s.Serving ∧ readsNow s ch 1 = true ∧ q = leAt (List.drop 8 (s.mbox ch).inb) 0 2 ∧ n = leAt (List.drop 8 (s.mbox ch).inb) 2 1 ∧ 1 ≤ n ∧ n ≤ 3 ∧ leAt (s.mbox ch).inb 2 2 = 8 + 64 * n ∧ leAt (s.mbox ch).inb 1 1 = 0 ∧ leAt (List.drop 8 (s.mbox ch).inb) 3 5 = 0 ∧ entitled s (s.mbox ch) q = true ∧ BitVec.toNat ((s.queue q).p - (s.queue q).n) + n > (s.queue q).size) ∧
    (∃ (s : Machine.State) (ch : ℕ) (q : ℕ) (n : ℕ), s.Serving ∧ readsNow s ch 1 = true ∧ q = leAt (List.drop 8 (s.mbox ch).inb) 0 2 ∧ n = leAt (List.drop 8 (s.mbox ch).inb) 2 1 ∧ 1 ≤ n ∧ n ≤ 3 ∧ leAt (s.mbox ch).inb 2 2 = 8 + 64 * n ∧ leAt (s.mbox ch).inb 1 1 = 0 ∧ leAt (List.drop 8 (s.mbox ch).inb) 3 5 = 0 ∧ entitled s (s.mbox ch) q = true ∧ BitVec.toNat ((s.queue q).p - (s.queue q).n) + n ≤ (s.queue q).size ∧ ch ≠ 0 ∧ (((List.range n).all fun i => qMay s q (cmdAt (s.queue q) (BitVec.toNat (s.queue q).p + i)) 64 true false) = true) ∧ (ringWrites s ch q n).2 = true) ∧
    (∃ (s : Machine.State) (ch : ℕ) (q : ℕ) (n : ℕ) (start : ℕ) (cs : List Bytes), s.Serving ∧ readsNow s ch 2 = true ∧ q = leAt (List.drop 8 (s.mbox ch).inb) 0 2 ∧ n = leAt (List.drop 8 (s.mbox ch).inb) 2 1 ∧ start = leAt (List.drop 8 (s.mbox ch).inb) 4 4 ∧ 1 ≤ n ∧ n ≤ 15 ∧ leAt (s.mbox ch).inb 2 2 = 8 ∧ leAt (s.mbox ch).inb 1 1 = 0 ∧ leAt (List.drop 8 (s.mbox ch).inb) 3 1 = 0 ∧ entitled s (s.mbox ch) q = true ∧ (List.map (fun i => qRead s q ((s.queue q).cpl + 16 * ((start + i) % (s.queue q).size)) 16) (List.range n) = List.map Except.ok cs)) ∧
    (∃ (s : Machine.State) (p : FjPkt), s.Serving ∧ p.hdr.cls = 0 ∧ p.hdr.ty = 1 ∧ leAt p.payload 2 2 ≠ s.plate.devIndex ∧ s.plate.bridge = s.plate.devIndex ∧ p.hdr.src = hostDev s ∧ (leAt p.payload 2 2) / 64 = s.plate.devIndex / 64 ∧ (leAt p.payload 2 2) < 16384) ∧
    (∃ (s : Machine.State) (p : FjPkt), s.Serving ∧ p.hdr.cls = 0 ∧ p.hdr.ty = 1 ∧ leAt p.payload 2 2 ≠ s.plate.devIndex ∧ s.plate.bridge = s.plate.devIndex ∧ p.hdr.src < 16384 ∧ (leAt p.payload 2 2) ≠ hostDev s ∧ s.ended = []) :=
  ⟨⟨chan (fun m => { m with kind := 1 }) (rdy), 1, zeros 8, rfl, by decide +kernel⟩,
   ⟨chan (fun m => { m with kind := 1, inFull := true }) (rdy), 1, zeros 256, rfl, by decide +kernel⟩,
   ⟨chan (fun m => { m with kind := 2 }) (rdy), 1, rfl, by decide +kernel⟩,
   ⟨chan (fun m => { m with kind := 4 }) (rdy), 1, rfl, by decide +kernel⟩,
   ⟨chan (fun m => { m with kind := 2 }) (rdy), 1, rfl, by decide +kernel⟩,
   ⟨chan (fun m => { m with kind := 4 }) (rdy), .operator, 1, rfl, by decide +kernel⟩,
   ⟨chan (fun m => { m with kind := 4, inFull := true }) (rdy), .firmware, 1, rfl, by decide +kernel⟩,
   ⟨chan (fun m => { m with kind := 2, inFull := true, inb := [1, 0] ++ le 2 200 ++ zeros 4 ++ [0, 0, 3] ++ zeros 197 }) (rdy.modQueue 0 (fun k => { k with p := 255 })), 1, 0, 3, rfl, by decide +kernel⟩,
   ⟨chan (fun m => { m with kind := 2, inFull := true, inb := [1, 0] ++ le 2 72 ++ zeros 4 ++ [0, 0, 1] ++ zeros 69 }) (rdy), 1, 0, 1, rfl, by decide +kernel⟩,
   ⟨chan (fun m => { m with kind := 2, inFull := true, inb := [2, 0] ++ le 2 8 ++ zeros 4 ++ [0, 0, 1] ++ zeros 5 }) (rdy), 1, 0, 1, 0, [zeros 16], rfl, by decide +kernel⟩,
   ⟨{ rdy with plate := { rdy.plate with bridge := 0 } }, { hdr := { cls := 0, ty := 1, src := 0x4000, dst := 0 }, ext := [], payload := le 2 2 ++ le 2 5 ++ zeros 12 }, rfl, by decide +kernel⟩,
   ⟨{ rdy with plate := { rdy.plate with bridge := 0 } }, { hdr := { cls := 0, ty := 1, src := 3, dst := 0 }, ext := [], payload := le 2 2 ++ le 2 5 ++ zeros 12 }, rfl, by decide +kernel⟩⟩

theorem witness_Registers :
    (∃ (s : Machine.State) (r : Requester) (a : ℕ) (size : ℕ) (st : ℕ), s.pwr.st.isDark = false ∧ csrCheck s r a size = Access.deny st) ∧
    (∃ (s : Machine.State) (r : Requester) (a : ℕ) (size : ℕ) (o : ℕ) (b : Block), s.pwr.st.isDark = false ∧ csrCheck s r a size = Access.go b o ∧ readShut s r b o = false ∧ (∀ (d : ℕ), b ≠ Block.lnk d)) ∧
    (∃ (s : Machine.State) (r : Requester) (l : ℕ) (a : ℕ), s.pwr.st.isDark = false ∧ l < 2 ∧ a = csrBase + 8388608 + 524288 * l + 36 ∧ csrRight r = true ∧ dieOn s (16 + l) = true) ∧
    (∃ (s : Machine.State) (r : Requester) (a : ℕ) (size : ℕ) (o : ℕ) (b : Block), s.pwr.st.isDark = false ∧ csrCheck s r a size = Access.go b o ∧ ownRow b o = false ∧ writeShut s r b o = true) ∧
    (∃ (s : Machine.State) (r : Requester) (a : ℕ) (size : ℕ) (o : ℕ) (b : Block), s.pwr.st.isDark = false ∧ csrCheck s r a size = Access.go b o ∧ ownRow b o = false ∧ writeShut s r b o = false ∧ b = Block.hub) ∧
    (∃ (s : Machine.State) (r : Requester) (a : ℕ) (size : ℕ) (o : ℕ) (b : Block), s.pwr.st.isDark = false ∧ csrCheck s r a size = Access.go b o ∧ ownRow b o = false ∧ b = Block.fw) ∧
    (∃ (s : Machine.State) (r : Requester) (a : ℕ) (size : ℕ) (o : ℕ) (b : Block), s.pwr.st.isDark = false ∧ csrCheck s r a size = Access.go b o ∧ ownRow b o = false ∧ (b = Block.boot ∨ b = Block.sec)) ∧
    (∃ (s : Machine.State) (r : Requester) (a : ℕ) (size : ℕ) (o : ℕ) (b : Block) (c : ℕ), s.pwr.st.isDark = false ∧ csrCheck s r a size = Access.go b o ∧ ownRow b o = false ∧ b = Block.cel c) ∧
    (∃ (s : Machine.State) (r : Requester) (a : ℕ) (size : ℕ) (o : ℕ) (b : Block) (h : ℕ), s.pwr.st.isDark = false ∧ csrCheck s r a size = Access.go b o ∧ ownRow b o = false ∧ b = Block.mem h) ∧
    (∃ (s : Machine.State) (r : Requester) (a : ℕ) (size : ℕ) (o : ℕ) (b : Block) (d : ℕ), s.pwr.st.isDark = false ∧ csrCheck s r a size = Access.go b o ∧ ownRow b o = false ∧ b = Block.lnk d) ∧
    (∃ (s : Machine.State) (r : Requester) (a : ℕ) (size : ℕ) (o : ℕ) (b : Block), s.pwr.st.isDark = false ∧ csrCheck s r a size = Access.go b o ∧ ownRow b o = false ∧ writeShut s r b o = false ∧ b = Block.pwr) ∧
    (∃ (v : Word), (1000 ≤ BitVec.toNat v % 65536 ∧ BitVec.toNat v % 65536 ≤ 3200)) ∧
    (∃ (v : Word), (1000 ≤ BitVec.toNat v % 65536 ∧ BitVec.toNat v % 65536 ≤ 3200)) ∧
    (∃ (v : Word), (¬(1000 ≤ BitVec.toNat v % 65536 ∧ BitVec.toNat v % 65536 ≤ 3200))) ∧
    (∃ (r : Requester), r ≠ Requester.operator) :=
  ⟨⟨on, .other, (csrBase + 0x10), 4, stPerm, by decide +kernel⟩,
   ⟨lit on, .operator, (csrBase + 0x402010), 4, 0x10, .pwr, by decide +kernel, by decide +kernel, by decide +kernel, by simp⟩,
   ⟨lit on, .operator, 1, (csrBase + 0x880024), by decide +kernel, by decide +kernel, rfl, by decide +kernel⟩,
   ⟨lit on, .firmware, (csrBase + 0x402010), 4, 0x10, .pwr, by decide +kernel⟩,
   ⟨lit on, .operator, (csrBase + 0x10), 4, 0x10, .hub, by decide +kernel, by decide +kernel, by decide +kernel, by decide +kernel, rfl⟩,
   ⟨lit on, .operator, (csrBase + 0x200100), 4, 0x100, .fw, by decide +kernel, by decide +kernel, by decide +kernel, rfl⟩,
   ⟨lit on, .operator, (csrBase + 0x400010), 4, 0x10, .boot, by decide +kernel, by decide +kernel, by decide +kernel, Or.inl rfl⟩,
   ⟨lit on, .operator, (csrBase + 0x1030004), 4, 4, .cel 3, 3, by decide +kernel, by decide +kernel, by decide +kernel, rfl⟩,
   ⟨lit on, .operator, (csrBase + 0x900010), 4, 0x10, .mem 8, 8, by decide +kernel, by decide +kernel, by decide +kernel, rfl⟩,
   ⟨lit on, .operator, (csrBase + 0x800010), 4, 0x10, .lnk 16, 16, by decide +kernel, by decide +kernel, by decide +kernel, rfl⟩,
   ⟨lit on, .operator, (csrBase + 0x402010), 4, 0x10, .pwr, by decide +kernel, by decide +kernel, by decide +kernel, by decide +kernel, rfl⟩,
   ⟨3200, ⟨by decide +kernel, by decide +kernel⟩⟩,
   ⟨1000, ⟨by decide +kernel, by decide +kernel⟩⟩,
   ⟨999, by decide +kernel⟩,
   ⟨.firmware, by decide +kernel⟩⟩

theorem witness_FlowsOpenAndClose :
    (∃ (s : Machine.State) (p : FjPkt) (inc : ℕ), s.Serving ∧ inc = leAt p.ext 0 4 ∧ Current s p inc ∧ p.hdr.ty = 4 ∧ hostRefusal s p = none ∧ rcvFull s (keyOf p) = false) ∧
    (∃ (s : Machine.State) (p : FjPkt) (inc : ℕ), s.Serving ∧ inc = leAt p.ext 0 4 ∧ Current s p inc ∧ p.hdr.ty = 5 ∧ (sndFlow (met s p inc) (keyOf p)).st = FlowSt.opening) ∧
    (∃ (s : Machine.State) (p : FjPkt), s.Serving ∧ leAt p.ext 0 4 < (s.peer p.hdr.src).inc ∧ (s.peer p.hdr.src).st ≠ PeerSt.lost ∧ s.ended = [] ∧ p.hdr.ty = 4 ∧ hostRefusal s p = none ∧ rcvFull s (keyOf p) = false) ∧
    (∃ (s : Machine.State) (p : FjPkt), s.Serving ∧ leAt p.ext 0 4 < (s.peer p.hdr.src).inc ∧ (s.peer p.hdr.src).st ≠ PeerSt.lost ∧ s.ended = [] ∧ p.hdr.ty = 5) ∧
    (∃ (s : Machine.State) (p : FjPkt) (e : ℕ), s.Serving ∧ s.ended = [] ∧ p.hdr.ty = 4 ∧ hostRefusal s p = some e) ∧
    (∃ (s : Machine.State) (p : FjPkt), s.Serving ∧ s.ended = [] ∧ p.hdr.ty = 4 ∧ hostRefusal s p = none ∧ rcvFull s (keyOf p) = true) ∧
    (∃ (s : Machine.State) (p : FjPkt), s.Serving ∧ s.ended = [] ∧ p.hdr.ty = 4 ∧ isHost p.hdr.src = false) ∧
    (∃ (s : Machine.State) (p : FjPkt), s.Serving ∧ s.ended = [] ∧ p.hdr.ty = 4 ∧ isHost p.hdr.src = true ∧ s.plate.bridge = s.plate.devIndex ∧ p.hdr.src = hostDev s ∧ p.hdr.cls = 0) ∧
    (∃ (s : Machine.State) (p : FjPkt), s.Serving ∧ s.ended = [] ∧ p.hdr.ty = 4 ∧ isHost p.hdr.src = true ∧ s.plate.bridge = s.plate.devIndex ∧ p.hdr.src = hostDev s ∧ p.hdr.cls ≠ 0) ∧
    (∃ (s : Machine.State) (p : FjPkt), s.Serving ∧ s.ended = [] ∧ p.hdr.ty = 4 ∧ isHost p.hdr.src = true ∧ (s.plate.bridge ≠ s.plate.devIndex ∨ p.hdr.src ≠ hostDev s)) ∧
    (∃ (s : Machine.State) (k : FlowKey), (s.peer k.peer).st ≠ PeerSt.lost ∧ (sndFlow s k).st = FlowSt.closed ∧ sndFull s k = true) ∧
    (∃ (s : Machine.State) (p : FjPkt), s.Serving ∧ (s.peer p.hdr.src).st ≠ PeerSt.lost ∧ p.hdr.ty = 6 ∧ (rcvFlow (heard p.hdr.src (takeRx s p)) (keyOf p)).isOpen = true) ∧
    (∃ (s : Machine.State) (p : FjPkt), s.Serving ∧ (s.peer p.hdr.src).st ≠ PeerSt.lost ∧ p.hdr.ty = 6 ∧ (rcvFlow (heard p.hdr.src (takeRx s p)) (keyOf p)).isOpen = false) ∧
    (∃ (s : Machine.State) (p : FjPkt), s.Serving ∧ (s.peer p.hdr.src).st ≠ PeerSt.lost ∧ p.hdr.ty = 7 ∧ (sndFlow (heard p.hdr.src (takeRx s p)) (keyOf p)).st = FlowSt.draining ∧ (sndFlow (heard p.hdr.src (takeRx s p)) (keyOf p)).una = [] ∧ (sndFlow (heard p.hdr.src (takeRx s p)) (keyOf p)).unsent = []) ∧
    (∃ (s : Machine.State) (k : FlowKey), s.Serving ∧ (sndFlow s k).st = FlowSt.isOpen) ∧
    (∃ (s : Machine.State) (k : FlowKey), s.Serving ∧ (sndFlow s k).st = FlowSt.opening ∧ (sndFlow s k).held = false ∧ (sndFlow s k).retries < 5) ∧
    (∃ (s : Machine.State) (k : FlowKey), s.Serving ∧ (sndFlow s k).st = FlowSt.opening ∧ (sndFlow s k).held = false ∧ 5 ≤ (sndFlow s k).retries) ∧
    (∃ (s : Machine.State) (k : FlowKey), s.Serving ∧ (sndFlow s k).st = FlowSt.opening ∧ (sndFlow s k).held = true) ∧
    (∃ (k : FlowKey) (j : FlowKey), j ≠ k) ∧
    (∃ (s : Machine.State) (k : FlowKey) (m : SndMsg), m ∈ (sndFlow s k).msgs ∧ (∀ (v : ℕ), m.use ≠ MsgUse.vote v) ∧ m.use ≠ MsgUse.none ∧ m.use ≠ MsgUse.reply) :=
  ⟨⟨on, pkt 0 4 (le 4 9 ++ zeros 4) ([]), 9, rfl, by decide +kernel, ⟨by decide +kernel, by decide +kernel, by decide +kernel⟩, by decide +kernel⟩,
   ⟨snd3 { st := .opening } (on), pkt 0 5 (le 4 0 ++ zeros 4) ([]), 0, rfl, by decide +kernel, ⟨by decide +kernel, by decide +kernel, by decide +kernel⟩, by decide +kernel⟩,
   ⟨peer3 (fun q => { q with st := .up, inc := 7 }) on, pkt 0 4 (le 4 6 ++ zeros 4) ([]), rfl, by decide +kernel⟩,
   ⟨peer3 (fun q => { q with st := .up, inc := 7 }) on, pkt 0 5 (le 4 6 ++ zeros 4) ([]), rfl, by decide +kernel⟩,
   ⟨on, { hdr := { cls := 0, ty := 4, src := 0x4000, dst := 0 }, ext := zeros 8, payload := [] }, 5, rfl, by decide +kernel⟩,
   ⟨rcvCrowd 65536, pkt 0 4 (zeros 8) [], rfl, by decide +kernel, by decide +kernel, by decide +kernel, (rcvCrowd_full 65536 (Nat.le_refl _))⟩,
   ⟨on, pkt 0 4 (zeros 8) [], rfl, by decide +kernel⟩,
   ⟨{ on with plate := { on.plate with bridge := 0 } }, { hdr := { cls := 0, ty := 4, src := 0x4000, dst := 0 }, ext := zeros 8, payload := [] }, rfl, by decide +kernel⟩,
   ⟨{ on with plate := { on.plate with bridge := 0 } }, { hdr := { cls := 1, ty := 4, src := 0x4000, dst := 0 }, ext := zeros 8, payload := [] }, rfl, by decide +kernel⟩,
   ⟨on, { hdr := { cls := 0, ty := 4, src := 0x4000, dst := 0 }, ext := zeros 8, payload := [] }, rfl, by decide +kernel, by decide +kernel, by decide +kernel, Or.inl (by decide +kernel)⟩,
   ⟨sndCrowd 65536, fk, by decide +kernel, (by rw [sndCrowd_flow]), (sndCrowd_full 65536 (Nat.le_refl _))⟩,
   ⟨{ on with rcv := [(fk, { isOpen := true })] }, pkt 0 6 (le 4 0 ++ zeros 4) ([]), rfl, by decide +kernel⟩,
   ⟨on, pkt 0 6 (le 4 0 ++ zeros 4) ([]), rfl, by decide +kernel⟩,
   ⟨snd3 { st := .draining } (on), pkt 0 7 (le 4 0 ++ zeros 4) ([]), rfl, by decide +kernel⟩,
   ⟨snd3 { st := .isOpen } (on), fk, rfl, by decide +kernel⟩,
   ⟨snd3 { st := .opening, retries := 4 } (on), fk, rfl, by decide +kernel⟩,
   ⟨snd3 { st := .opening, retries := 5 } (on), fk, rfl, by decide +kernel⟩,
   ⟨snd3 { st := .opening, held := true } (on), fk, rfl, by decide +kernel⟩,
   ⟨fk, { peer := 3, cls := 1, flow := 0 }, by decide +kernel⟩,
   ⟨snd3 { st := .isOpen, msgs := [{ seq := 0, use := .migrate 8 }] } (on), fk, { seq := 0, use := .migrate 8 }, by decide +kernel, (by intro v h; cases h), by decide +kernel⟩⟩

theorem witness_DataMoves :
    (∃ (s : Machine.State) (p : FjPkt), s.Serving ∧ s.ended = [] ∧ memWf memFill s.mem = true ∧ isBulk p 0 = true ∧ pktRefusal (takeRx s p) p = none ∧ (p.hdr.msgOff) + List.length p.payload ≤ (leAt p.ext 4 4) ∧ (p.hdr.last = true → (p.hdr.msgOff) + List.length p.payload = (leAt p.ext 4 4)) ∧ memOff (takeRx s p) (leAt p.ext 8 8) = false ∧ remoteMay (takeRx s p) p.hdr.ctx (leAt p.ext 8 8) (leAt p.ext 4 4) true = false) ∧
    (∃ (s : Machine.State) (p : FjPkt) (i : ℕ), s.Serving ∧ s.ended = [] ∧ memWf memFill s.mem = true ∧ isBulk p 0 = true ∧ pktRefusal (takeRx s p) p = none ∧ (p.hdr.msgOff) + List.length p.payload ≤ (leAt p.ext 4 4) ∧ (p.hdr.last = true → (p.hdr.msgOff) + List.length p.payload = (leAt p.ext 4 4)) ∧ memOff (takeRx s p) (leAt p.ext 8 8) = false ∧ remoteMay (takeRx s p) p.hdr.ctx (leAt p.ext 8 8) (leAt p.ext 4 4) true = true ∧ NothingWaits (takeRx s p) p.hdr.ctx (leAt p.ext 8 8) ∧ (p.hdr.last = true → earlierOpen (takeRx s p) p = false) ∧ (rcvFlow (takeRx s p) (keyOf p)).broken = [] ∧ partPoison s ((leAt p.ext 8 8) + (p.hdr.msgOff)) (List.length p.payload) = [] ∧ (i < (leAt p.ext 8 8) + (p.hdr.msgOff) ∨ (leAt p.ext 8 8) + (p.hdr.msgOff) + List.length p.payload ≤ i)) ∧
    (∃ (s : Machine.State) (p : FjPkt), s.Serving ∧ s.ended = [] ∧ memWf memFill s.mem = true ∧ isBulk p 0 = true ∧ pktRefusal (takeRx s p) p = none ∧ (leAt p.ext 4 4) < (p.hdr.msgOff) + List.length p.payload) ∧
    (∃ (p : FjPkt) (code : ℕ), code ≠ 3 ∧ code ≠ 4 ∧ p.hdr.last = false) ∧
    (∃ (s : Machine.State) (p : FjPkt) (code : ℕ), code ≠ 3 ∧ code ≠ 4 ∧ p.hdr.msgSeq ∈ (rcvFlow s (keyOf p)).broken) ∧
    (∃ (s : Machine.State) (p : FjPkt), s.Serving ∧ isBulk p 1 = true ∧ pktRefusal (takeRx s p) p = none ∧ p.payload = [] ∧ memOff (takeRx s p) (leAt p.ext 8 8) = false ∧ remoteMay (takeRx s p) p.hdr.ctx (leAt p.ext 8 8) (leAt p.ext 4 4) false = true ∧ unreadable (takeRx s p) (leAt p.ext 8 8) (leAt p.ext 4 4) = false) ∧
    (∃ (s : Machine.State) (p : FjPkt), s.Serving ∧ p.hdr.ty = 2 ∧ (s.peer p.hdr.src).st ≠ PeerSt.lost ∧ (sndFlow s (keyOf p)).st = FlowSt.isOpen ∧ (sndFlow s (keyOf p)).unsent = [] ∧ (sndFlow s (keyOf p)).msgs = [] ∧ leAt p.ext 0 8 = 0 ∧ s.ended = []) ∧
    (∃ (s : Machine.State) (p : FjPkt) (q : FjPkt), s.Serving ∧ p.hdr.ty = 3 ∧ (s.peer p.hdr.src).st ≠ PeerSt.lost ∧ (List.find? (fun r => decide (r.hdr.psn = p.hdr.psn)) (sndFlow s (keyOf p)).una = some q) ∧ (leAt p.ext 0 1 = 3 ∨ leAt p.ext 0 1 = 4) ∧ (sndFlow s (keyOf p)).refused.contains p.hdr.psn = false) ∧
    (∃ (s : Machine.State) (p : FjPkt) (q : FjPkt), s.Serving ∧ p.hdr.ty = 3 ∧ (s.peer p.hdr.src).st ≠ PeerSt.lost ∧ (List.find? (fun r => decide (r.hdr.psn = p.hdr.psn)) (sndFlow s (keyOf p)).una = some q) ∧ (leAt p.ext 0 1 = 2 ∨ 5 ≤ leAt p.ext 0 1 ∧ leAt p.ext 0 1 ≤ 9)) ∧
    (∃ (s : Machine.State), s.Serving) ∧
    (∃ (s : Machine.State) (k : FlowKey) (psn : ℕ), s.Serving ∧ (((sndFlow s k).una.any fun q => decide (q.hdr.psn = psn)) = true) ∧ (sndFlow s k).refused.contains psn = false ∧ (sndFlow s k).sacked.contains psn = false) ∧
    (∃ (s : Machine.State) (k : FlowKey), s.Serving ∧ 0 < (rcvFlow s k).unacked) ∧
    (∃ (s : Machine.State) (k : FlowKey), s.Serving ∧ (sndFlow s k).st ≠ FlowSt.closed ∧ (sndFlow s k).eceSeen = true) ∧
    (∃ (s : Machine.State) (k : FlowKey), s.Serving ∧ (sndFlow s k).st ≠ FlowSt.closed ∧ (sndFlow s k).eceSeen = false) :=
  ⟨⟨ctx0 (fun c => { c with regions := [] }) (lit rdy), bulk 0 0x80000 4 [1, 2, 3, 4], rfl, by decide +kernel⟩,
   (by refine ⟨lit rdy, bulk 0 0x80000 4 [1, 2, 3, 4], 0x7FFFF, rfl, ?_, ?_, ?_, ?_, ?_, ?_, ?_, ?_, ⟨by decide +kernel, by decide +kernel, by decide +kernel, by decide +kernel⟩, ?_, ?_, ?_, Or.inl (by decide +kernel)⟩ <;> decide +kernel),
   ⟨lit rdy, bulk 0 0x80000 3 [1, 2, 3, 4], rfl, by decide +kernel⟩,
   ⟨{ bulk 0 0x80000 8 [1, 2, 3, 4] with hdr := { cls := 2, ty := 1, src := 3, dst := 0, last := false } }, 7, by decide +kernel⟩,
   ⟨{ on with rcv := [({ peer := 3, cls := 2, flow := 0 }, { isOpen := true, broken := [0] })] }, bulk 0 0x80000 4 [1, 2, 3, 4], 7, by decide +kernel⟩,
   ⟨lit rdy, bulk 1 0x80000 4 [], rfl, by decide +kernel⟩,
   ⟨snd3 { st := .isOpen } (on), pkt 0 2 (zeros 8) ([]), rfl, by decide +kernel⟩,
   ⟨snd3 { st := .isOpen, una := [{ hdr := { cls := 0, ty := 1, src := 0, dst := 3, psn := 0 }, ext := [], payload := [] }] } (on), pkt 0 3 ([4, 0, 0, 0, 0, 0, 0, 0]) ([]), { hdr := { cls := 0, ty := 1, src := 0, dst := 3, psn := 0 }, ext := [], payload := [] }, rfl, by decide +kernel, by decide +kernel, by decide +kernel, Or.inr (by decide +kernel), by decide +kernel⟩,
   ⟨snd3 { st := .isOpen, una := [{ hdr := { cls := 0, ty := 1, src := 0, dst := 3, psn := 0 }, ext := [], payload := [] }] } (on), pkt 0 3 ([9, 0, 0, 0, 0, 0, 0, 0]) ([]), { hdr := { cls := 0, ty := 1, src := 0, dst := 3, psn := 0 }, ext := [], payload := [] }, rfl, by decide +kernel, by decide +kernel, by decide +kernel, Or.inr ⟨by decide +kernel, by decide +kernel⟩⟩,
   ⟨on, rfl⟩,
   ⟨snd3 { st := .isOpen, una := [{ hdr := { cls := 0, ty := 1, src := 0, dst := 3, psn := 0 }, ext := [], payload := [] }] } (on), fk, 0, rfl, by decide +kernel⟩,
   ⟨{ on with rcv := [(fk, { isOpen := true, unacked := 1 })] }, fk, rfl, by decide +kernel⟩,
   ⟨snd3 { st := .isOpen, eceSeen := true } (on), fk, rfl, by decide +kernel⟩,
   ⟨snd3 { st := .isOpen } (on), fk, rfl, by decide +kernel⟩⟩

theorem witness_PeersComeAndGo :
    (∃ (s : Machine.State) (p : FjPkt) (inc : ℕ), s.Serving ∧ s.ended = [] ∧ p.hdr.ty = 8 ∧ inc = leAt p.payload 0 4 ∧ Current s p inc) ∧
    (∃ (s : Machine.State) (dev : ℕ), s.Serving ∧ ((s.peer dev).st = PeerSt.up ∨ (s.peer dev).st = PeerSt.suspect)) ∧
    (∃ (s : Machine.State), waits s = []) ∧
    (∃ (s : Machine.State) (dev : ℕ), s.Serving ∧ (s.peer dev).st = PeerSt.up) ∧
    (∃ (s : Machine.State) (dev : ℕ) (e : FlowKey × RcvFlow), (s.peer dev).st ≠ PeerSt.lost ∧ e ∈ (losePeer s dev).rcv) ∧
    (∃ (s : Machine.State) (dev : ℕ) (p : FjPkt), (s.peer dev).st ≠ PeerSt.lost ∧ p ∈ (losePeer s dev).rxq) ∧
    (∃ (s : Machine.State) (dev : ℕ) (k : FlowKey), (s.peer dev).st ≠ PeerSt.lost ∧ (k ∈ List.map (fun x => x.1) s.snd) ∧ k.peer = dev) ∧
    (∃ (s : Machine.State) (p : FjPkt), s.Serving ∧ s.ended = [] ∧ (s.peer p.hdr.src).st = PeerSt.lost ∧ p.hdr.ty = 2) ∧
    (∃ (s : Machine.State) (p : FjPkt), s.Serving ∧ s.ended = [] ∧ (s.peer p.hdr.src).st = PeerSt.lost ∧ p.hdr.ty = 3) ∧
    (∃ (s : Machine.State) (p : FjPkt), s.Serving ∧ s.ended = [] ∧ (s.peer p.hdr.src).st = PeerSt.lost ∧ p.hdr.ty = 6) ∧
    (∃ (s : Machine.State) (dev : ℕ), (s.peer dev).st = PeerSt.lost) ∧
    (∃ (s : Machine.State) (dev : ℕ) (st : ℕ) (inc : ℕ), s.Serving ∧ (s.peer dev).readmit = some (st, inc)) ∧
    (∃ (s : Machine.State) (session : ℕ) (dev : ℕ), s.Serving ∧ isOperator s session = true ∧ (s.peer dev).st = PeerSt.lost ∧ (s.peer dev).readmit = none) ∧
    (∃ (s : Machine.State) (session : ℕ), s.Serving ∧ isOperator s session = false) :=
  ⟨⟨peer3 (fun q => { q with st := .up, inc := 7 }) on, pkt 0 8 ([]) (le 4 7 ++ zeros 44), 7, rfl, by decide +kernel, by decide +kernel, by decide +kernel, ⟨by decide +kernel, by decide +kernel, by decide +kernel⟩⟩,
   ⟨peer3 (fun q => { q with st := .up, inc := 7 }) on, 3, rfl, Or.inl (by decide +kernel)⟩,
   ⟨on, by decide +kernel⟩,
   ⟨peer3 (fun q => { q with st := .up, inc := 7 }) on, 3, rfl, by decide +kernel⟩,
   ⟨peer3 (fun q => { q with st := .up }) { on with rcv := [({ peer := 4, cls := 0, flow := 0 }, {})] }, 3, ({ peer := 4, cls := 0, flow := 0 }, {}), by decide +kernel⟩,
   ⟨peer3 (fun q => { q with st := .up }) { on with rxq := [{ hdr := { cls := 0, ty := 1, src := 4, dst := 0 }, ext := [], payload := [] }] }, 3, { hdr := { cls := 0, ty := 1, src := 4, dst := 0 }, ext := [], payload := [] }, by decide +kernel⟩,
   ⟨snd3 { st := .isOpen } (peer3 (fun q => { q with st := .up, inc := 7 }) on), 3, fk, by decide +kernel⟩,
   ⟨peer3 (fun q => { q with st := .lost }) on, pkt 0 2 (le 4 0 ++ zeros 4) ([]), rfl, by decide +kernel⟩,
   ⟨peer3 (fun q => { q with st := .lost }) on, pkt 0 3 (le 4 0 ++ zeros 4) ([]), rfl, by decide +kernel⟩,
   ⟨peer3 (fun q => { q with st := .lost }) on, pkt 0 6 (le 4 0 ++ zeros 4) ([]), rfl, by decide +kernel⟩,
   ⟨peer3 (fun q => { q with st := .lost }) on, 3, by decide +kernel⟩,
   ⟨peer3 (fun q => { q with readmit := some (1, 7) }) on, 3, 1, 7, rfl, by decide +kernel⟩,
   ⟨oper (peer3 (fun q => { q with st := .lost }) on), 1, 3, rfl, by decide +kernel⟩,
   ⟨peer3 (fun q => { q with st := .lost }) on, 1, rfl, by decide +kernel⟩⟩

theorem witness_PacketsRoundTrip :
    (∃ (p : FjPkt), PktOk p) :=
  ⟨bulk 0 0x80000 4 [1, 2, 3, 4], (by unfold PktOk; decide +kernel)⟩

theorem witness_FramesArrive :
    (∃ (s : Machine.State) (l : ℕ) (pri : ℕ) (sport : ℕ) (dst : Bytes) (p : FjPkt) (w : TxHdr), w = txHdr s l pri (OutMsg.packet l sport dst p) ∧ s.plate.macsec = 0) ∧
    (∃ (s : Machine.State) (l : ℕ) (pri : ℕ) (sport : ℕ) (dst : Bytes) (p : FjPkt) (w : TxHdr) (a : Sa), w = txHdr s l pri (OutMsg.packet l sport dst p) ∧ s.plate.macsec ≠ 0 ∧ (s.port l).sa = some a) ∧
    (∃ (s : Machine.State) (p : FjPkt), p.hdr.ty = 1 ∧ (rcvFlow s (keyOf p)).isOpen = true) ∧
    (∃ (s : Machine.State) (l : ℕ) (fr : Frame), s.pwr.st.isDark = false ∧ s.ended = [] ∧ (s.port l).present = true ∧ (s.port l).linkUp = true ∧ fenced s (dieOfLane l) = false ∧ (s.link (dieOfLane l)).resetting = false ∧ (fr.fcsOk = false ∨ 9216 < fr.len)) ∧
    (∃ (s : Machine.State) (l : ℕ) (fr : Frame), s.pwr.st.isDark = false ∧ s.ended = [] ∧ (s.port l).present = true ∧ (s.port l).linkUp = true ∧ fenced s (dieOfLane l) = false ∧ (s.link (dieOfLane l)).resetting = false ∧ (fr.fcsOk = false ∨ 9216 < fr.len)) ∧
    (∃ (s : Machine.State) (l : ℕ) (fr : Frame) (why : ℕ), s.pwr.st.isDark = false ∧ s.ended = [] ∧ (s.port l).present = true ∧ (s.port l).linkUp = true ∧ fenced s (dieOfLane l) = false ∧ (s.link (dieOfLane l)).resetting = false ∧ fr.fcsOk = true ∧ fr.len ≤ 9216 ∧ secDrop s l fr = some why) ∧
    (∃ (s : Machine.State) (l : ℕ) (fr : Frame) (ce : Bool) (b : Bytes), s.Serving ∧ (s.port l).present = true ∧ (s.port l).linkUp = true ∧ fenced s (dieOfLane l) = false ∧ (s.link (dieOfLane l)).resetting = false ∧ fr.fcsOk = true ∧ fr.len ≤ 9216 ∧ secDrop s l fr = none ∧ fr.body = FrameBody.fjorum true ce b) ∧
    (∃ (s : Machine.State) (p : FjPkt), (rcvFlow s (keyOf p)).reoffer = [] ∧ (rcvFlow s (keyOf p)).got = [] ∧ (rcvFlow s (keyOf p)).buffer = [] ∧ p.hdr.psn = (rcvFlow s (keyOf p)).ackPsn ∧ p.hdr.psn < 2 ^ 32) ∧
    (∃ (s : Machine.State) (p : FjPkt), (rcvFlow s (keyOf p)).reoffer = [] ∧ (rcvFlow s (keyOf p)).got = [] ∧ (rcvFlow s (keyOf p)).buffer = [] ∧ serLt p.hdr.psn (rcvFlow s (keyOf p)).ackPsn = true) ∧
    (∃ (s : Machine.State) (l : ℕ) (ip : ℕ), s.pwr.st.isDark = false ∧ mayTalk s l = true ∧ ownAddr s l (be 4 ip) = true) ∧
    (∃ (s : Machine.State) (l : ℕ) (ip : ℕ), s.pwr.st.isDark = false ∧ mayTalk s l = true ∧ ownAddr s l (be 4 ip) = false) ∧
    (∃ (s : Machine.State) (l : ℕ) (ip : ℕ), s.pwr.st.isDark = false ∧ mayTalk s l = true ∧ ownAddr s l (be 16 ip) = true) ∧
    (∃ (s : Machine.State) (l : ℕ) (ip : ℕ), s.pwr.st.isDark = false ∧ mayTalk s l = true ∧ ownAddr s l (be 16 ip) = false) ∧
    (∃ (s : Machine.State) (l : ℕ) (ip : ℕ) (n : ℕ) (v6 : Bool), s.pwr.st.isDark = false ∧ mayTalk s l = true ∧ (ownAddr s l (be (if v6 = true then 16 else 4) ip) = true) ∧ (n = if (s.port l).echoSec = s.clk / clkS then (s.port l).echoes else 0) ∧ n < 100) ∧
    (∃ (s : Machine.State) (l : ℕ) (ip : ℕ) (n : ℕ) (v6 : Bool), s.pwr.st.isDark = false ∧ mayTalk s l = true ∧ (ownAddr s l (be (if v6 = true then 16 else 4) ip) = true) ∧ (n = if (s.port l).echoSec = s.clk / clkS then (s.port l).echoes else 0) ∧ 100 ≤ n) :=
  ⟨⟨plain on, 5, 0, 0, [], pkt 0 1 [] [], txHdr (plain on) 5 0 (.packet 5 0 [] (pkt 0 1 [] [])), rfl, by decide +kernel⟩,
   ⟨up5 (fun k => { k with sa := some { an := 0, key := 1 } }) (on), 5, 0, 0, [], pkt 0 1 [] [], txHdr (up5 (fun k => { k with sa := some { an := 0, key := 1 } }) (on)) 5 0 (.packet 5 0 [] (pkt 0 1 [] [])), { an := 0, key := 1 }, rfl, by decide +kernel⟩,
   ⟨{ on with rcv := [(fk, { isOpen := true })] }, pkt 0 1 [] [], by decide +kernel⟩,
   (by refine ⟨up5 id (plain on), 5, fr false 64 .unknown, ?_, ?_, ?_, ?_, ?_, ?_, Or.inl rfl⟩ <;> decide +kernel),
   (by refine ⟨up5 id (plain on), 5, fr true 9217 .unknown, ?_, ?_, ?_, ?_, ?_, ?_, Or.inr (by decide +kernel)⟩ <;> decide +kernel),
   ⟨up5 id (on), 5, fr true 9216 .unknown, 2, by decide +kernel⟩,
   (by refine ⟨up5 id (plain on), 5, fr true 64 (.fjorum true false (pktBytes (pkt 0 8 [] (zeros 48)))), false, pktBytes (pkt 0 8 [] (zeros 48)), rfl, ?_, ?_, ?_, ?_, ?_, ?_, ?_, rfl⟩ <;> decide +kernel),
   ⟨on, pkt 0 1 [] [], by decide +kernel⟩,
   ⟨{ on with rcv := [(fk, { isOpen := true, ackPsn := 1 })] }, pkt 0 1 [] [], by decide +kernel⟩,
   ⟨up5 id (plain on), 5, 0x0A000001, by decide +kernel⟩,
   ⟨up5 id (plain on), 5, 0x0A000002, by decide +kernel⟩,
   ⟨up5 id (plain on), 5, 0, by decide +kernel⟩,
   ⟨up5 id (plain on), 5, 1, by decide +kernel⟩,
   ⟨up5 (fun k => { k with echoes := 99 }) (plain on), 5, 0x0A000001, 99, false, by decide +kernel⟩,
   ⟨up5 (fun k => { k with echoes := 100 }) (plain on), 5, 0, 100, true, by decide +kernel⟩⟩

theorem witness_PauseAndKeys :
    (∃ (s : Machine.State) (l : ℕ) (i : ℕ), s.pwr.st.isDark = false ∧ (priOf s l i).xoff = true) ∧
    (∃ (s : Machine.State) (l : ℕ) (i : ℕ), s.pwr.st.isDark = false ∧ (priOf s l i).xoff = false) ∧
    (∃ (s : Machine.State) (l : ℕ) (i : ℕ), s.pwr.st.isDark = false ∧ (priOf s l i).paused = true) ∧
    (∃ (s : Machine.State) (l : ℕ) (mask : ℕ) (named : List ℕ), s.pwr.st.isDark = false ∧ (s.port l).linkUp = true ∧ (named = List.filter (fun i => bit mask i && bit s.plate.pfcMask.toNat i) (List.range 8))) ∧
    (∃ (s : Machine.State) (l : ℕ) (quanta : List ℕ) (i : ℕ), s.pwr.st.isDark = false ∧ (s.port l).linkUp = true ∧ i < 8 ∧ (s.port l).pris.length = 8 ∧ (∀ j < 8, quanta.getD j 0 ≠ 0)) ∧
    (∃ (s : Machine.State) (l : ℕ) (i : ℕ), 0 < i ∧ i < 4 ∧ (s.port l).pris.length = 8 ∧ (priOf s l i).held = []) ∧
    (∃ (s : Machine.State) (l : ℕ) (i : ℕ), bit s.plate.pfcMask.toNat i = true ∧ ((s.port l).pris[i]?.getD { }).paused = true ∧ Pri.ignoring s ((s.port l).pris[i]?.getD { }) = false) ∧
    (∃ (s : Machine.State) (l : ℕ) (m : MkaMsg), s.pwr.st.isDark = false ∧ (s.port l).linkUp = true ∧ s.plate.macsec ≠ 0 ∧ cakOf s l ≠ none ∧ m.icvOk = false) ∧
    (∃ (s : Machine.State) (l : ℕ) (m : MkaMsg) (an : ℕ) (key : ℕ), s.pwr.st.isDark = false ∧ (s.port l).linkUp = true ∧ s.plate.macsec ≠ 0 ∧ cakOf s l ≠ none ∧ m.icvOk = true ∧ m.sak = some (an, key) ∧ m.keyServer = true ∧ m.live = true) ∧
    (∃ (s : Machine.State) (l : ℕ) (m : MkaMsg), s.pwr.st.isDark = false ∧ (s.port l).linkUp = true ∧ s.plate.macsec ≠ 0 ∧ cakOf s l ≠ none ∧ m.icvOk = true ∧ m.sak = none ∧ m.live = true ∧ m.keyServer = false ∧ (s.port l).sa = none) ∧
    (∃ (s : Machine.State) (l : ℕ) (a : Sa), s.pwr.st.isDark = false ∧ (s.port l).linkUp = true ∧ (s.port l).server = true ∧ (s.port l).sa = some a ∧ (s.port l).mkaPeer.isSome = true ∧ ((if s.plate.cipher = 0 then 3221225472 else 2 ^ 62) ≤ a.pn)) ∧
    (∃ (s : Machine.State) (l : ℕ) (a : Sa), s.pwr.st.isDark = false ∧ (s.port l).linkUp = true ∧ (s.port l).server = true ∧ (s.port l).sa = some a ∧ (s.port l).mkaPeer.isSome = true ∧ (a.pn < if s.plate.cipher = 0 then 3221225472 else 2 ^ 62)) ∧
    (∃ (s : Machine.State) (l : ℕ), s.pwr.st.isDark = false ∧ (s.port l).newSeen = true) ∧
    (∃ (s : Machine.State) (l : ℕ), s.pwr.st.isDark = false ∧ (s.port l).newSeen = false) ∧
    (∃ (s : Machine.State) (l : ℕ), s.pwr.st.isDark = false ∧ (s.port l).mkaPeer.isSome = true ∧ needsSa s l = false) ∧
    (∃ (s : Machine.State) (l : ℕ), s.pwr.st.isDark = false ∧ (s.port l).mkaPeer.isSome = true ∧ needsSa s l = true) :=
  ⟨⟨up5 (fun k => { k with pris := [{ xoff := true }] }) (plain on), 5, 0, by decide +kernel⟩,
   ⟨up5 id (plain on), 5, 3, by decide +kernel⟩,
   ⟨up5 (fun k => { k with pris := paused0 }) (plain on), 5, 0, by decide +kernel⟩,
   ⟨up5 id (plain on), 5, 255, (List.range 8).filter (fun i => bit 255 i && bit (up5 id (plain on)).plate.pfcMask.toNat i), by decide +kernel, by decide +kernel, rfl⟩,
   ⟨up5 id (plain on), 5, List.replicate 8 1, 7, by decide +kernel⟩,
   ⟨up5 (fun k => { k with pris := paused0 }) (plain on), 5, 3, by decide +kernel⟩,
   ⟨up5 (fun k => { k with pris := List.replicate 3 {} ++ [{ paused := true }] }) (plain on), 5, 3, by decide +kernel⟩,
   ⟨up5 id (caks on), 5, { icvOk := false, peerMi := 9, live := true, keyServer := true, sak := none }, by decide +kernel⟩,
   ⟨up5 id (caks on), 5, { icvOk := true, peerMi := 9, live := true, keyServer := true, sak := some (1, 77) }, 1, 77, by decide +kernel, by decide +kernel, by decide +kernel, by decide +kernel, by decide +kernel, rfl, by decide +kernel⟩,
   ⟨up5 id (caks on), 5, { icvOk := true, peerMi := 9, live := true, keyServer := false, sak := none }, by decide +kernel⟩,
   ⟨up5 (fun k => { k with server := true, sa := some { an := 0, key := 1, pn := 2 ^ 62 }, mkaPeer := some 9 }) (caks on), 5, { an := 0, key := 1, pn := 2 ^ 62 }, by decide +kernel⟩,
   ⟨up5 (fun k => { k with server := true, sa := some { an := 0, key := 1, pn := 0xBFFFFFFF }, mkaPeer := some 9 }) (caks on), 5, { an := 0, key := 1, pn := 0xBFFFFFFF }, by decide +kernel⟩,
   ⟨up5 (fun k => { k with newSeen := true }) (caks on), 5, by decide +kernel⟩,
   ⟨up5 id (caks on), 5, by decide +kernel⟩,
   ⟨up5 (fun k => { k with mkaPeer := some 9 }) (plain on), 5, by decide +kernel⟩,
   ⟨up5 (fun k => { k with mkaPeer := some 9 }) (caks on), 5, by decide +kernel⟩⟩

theorem witness_TimeFollowsMaster :
    (∃ (s : Machine.State) (l : ℕ) (d : ℕ), s.pwr.st.isDark = false ∧ d = dieOfLane l ∧ (s.port l).linkUp = true ∧ needsSa s l = true ∧ (s.port l).sa = none) ∧
    (∃ (s : Machine.State) (l : ℕ) (d : ℕ), s.pwr.st.isDark = false ∧ d = dieOfLane l ∧ (s.port l).linkUp = true ∧ (needsSa s l = true → (s.port l).sa.isSome = true) ∧ (s.link d).ptpLane.toNat ≠ l) ∧
    (∃ (s : Machine.State) (l : ℕ) (d : ℕ) (m : PtpMsg), s.pwr.st.isDark = false ∧ d = dieOfLane l ∧ (s.port l).linkUp = true ∧ (needsSa s l = true → (s.port l).sa.isSome = true) ∧ (s.link d).ptpLane.toNat = l ∧ (m.better = true ∧ (s.link d).ptp = PtpSt.listening ∨ (s.link d).ptp = PtpSt.holdover)) ∧
    (∃ (s : Machine.State) (l : ℕ) (d : ℕ) (m : PtpMsg), s.pwr.st.isDark = false ∧ d = dieOfLane l ∧ (s.port l).linkUp = true ∧ (needsSa s l = true → (s.port l).sa.isSome = true) ∧ (s.link d).ptpLane.toNat = l ∧ (m.better = true ∧ (s.link d).ptp = PtpSt.listening ∨ (s.link d).ptp = PtpSt.holdover)) ∧
    (∃ (s : Machine.State) (l : ℕ) (d : ℕ) (m : PtpMsg), s.pwr.st.isDark = false ∧ d = dieOfLane l ∧ (s.port l).linkUp = true ∧ (needsSa s l = true → (s.port l).sa.isSome = true) ∧ (s.link d).ptpLane.toNat = l ∧ m.twoStep = true) ∧
    (∃ (s : Machine.State) (l : ℕ) (d : ℕ) (m : PtpMsg), s.pwr.st.isDark = false ∧ d = dieOfLane l ∧ (s.port l).linkUp = true ∧ (needsSa s l = true → (s.port l).sa.isSome = true) ∧ (s.link d).ptpLane.toNat = l ∧ m.twoStep = false) ∧
    (∃ (s : Machine.State) (l : ℕ) (d : ℕ) (m : PtpMsg) (t2 : ℕ), s.pwr.st.isDark = false ∧ d = dieOfLane l ∧ (s.port l).linkUp = true ∧ (needsSa s l = true → (s.port l).sa.isSome = true) ∧ (s.link d).ptpLane.toNat = l ∧ (s.link d).syncWait = some (m.seqId, t2)) ∧
    (∃ (s : Machine.State) (l : ℕ) (d : ℕ) (m : PtpMsg), s.pwr.st.isDark = false ∧ d = dieOfLane l ∧ (s.port l).linkUp = true ∧ (needsSa s l = true → (s.port l).sa.isSome = true) ∧ (s.link d).ptpLane.toNat = l ∧ (s.link d).delayReq = some m.seqId) ∧
    (∃ (s : Machine.State) (d : ℕ), ((s.link d).ptp = PtpSt.uncalibrated ∨ (s.link d).ptp = PtpSt.slave) ∧ s.plate.ppsEn = false) ∧
    (∃ (s : Machine.State) (d : ℕ), s.pwr.st.isDark = false ∧ (s.link d).ptp = PtpSt.holdover) ∧
    (∃ (s : Machine.State) (d : ℕ), s.pwr.st.isDark = false ∧ (d = 16 ∨ d = 17) ∧ fenced s d = false) ∧
    (∃ (s : Machine.State) (d : ℕ), s.pwr.st.isDark = false ∧ (s.link d).ptp = PtpSt.slave ∧ s.plate.ptpStand = 127) ∧
    (∃ (s : Machine.State) (d : ℕ), s.pwr.st.isDark = false ∧ (s.link d).ptp ≠ PtpSt.slave) ∧
    (∃ (s : Machine.State) (ns : ℕ), s.pwr.st.isDark = false ∧ s.plate.ppsEn = true ∧ -1000 ≤ offSecond ns ∧ offSecond ns ≤ 1000) ∧
    (∃ (s : Machine.State) (ns : ℕ) (d : ℕ), s.pwr.st.isDark = false ∧ s.plate.ppsEn = true ∧ d = clockDie s ∧ (offSecond ns < -1000 ∨ 1000 < offSecond ns)) :=
  ⟨⟨up5 id (on), 5, 16, by decide +kernel⟩,
   ⟨up5 id (plain on), 5, 16, by decide +kernel⟩,
   ⟨l16 (fun k => { k with ptpLane := 5, ptp := .holdover }) (up5 id (plain on)), 5, 16, { seqId := 4, twoStep := false, origin := 1000 }, by decide +kernel, by decide +kernel, by decide +kernel, by decide +kernel, by decide +kernel, Or.inr (by decide +kernel)⟩,
   ⟨l16 (fun k => { k with ptpLane := 5, ptp := .listening }) (up5 id (plain on)), 5, 16, { seqId := 4, twoStep := false, origin := 1000, better := true }, by decide +kernel, rfl, by decide +kernel, by decide +kernel, by decide +kernel, Or.inl (by decide +kernel)⟩,
   ⟨l16 (fun k => { k with ptpLane := 5, ptp := .slave }) (up5 id (plain on)), 5, 16, { seqId := 4, twoStep := true, origin := 1000 }, by decide +kernel⟩,
   ⟨l16 (fun k => { k with ptpLane := 5, ptp := .slave }) (up5 id (plain on)), 5, 16, { seqId := 4, twoStep := false, origin := 1000 }, by decide +kernel⟩,
   ⟨l16 (fun k => { k with ptpLane := 5, syncWait := some (4, 77) }) (up5 id (plain on)), 5, 16, { seqId := 4, twoStep := true, origin := 1000 }, 77, by decide +kernel⟩,
   ⟨l16 (fun k => { k with ptpLane := 5, delayReq := some 4 }) (up5 id (plain on)), 5, 16, { seqId := 4, twoStep := true, origin := 1000 }, by decide +kernel⟩,
   ⟨l16 (fun k => { k with ptpLane := 5, ptp := .uncalibrated }) (up5 id (plain on)), 16, Or.inl (by decide +kernel), by decide +kernel⟩,
   ⟨l16 (fun k => { k with ptpLane := 5, ptp := .holdover }) (up5 id (plain on)), 16, by decide +kernel⟩,
   ⟨on, 17, by decide +kernel, Or.inr rfl, by decide +kernel⟩,
   ⟨l16 (fun k => { k with ptpLane := 5, ptp := .slave }) (up5 id (plain on)), 16, by decide +kernel⟩,
   ⟨on, 16, by decide +kernel⟩,
   ⟨{ on with plate := { on.plate with ppsEn := true } }, 1000, by decide +kernel⟩,
   ⟨{ on with plate := { on.plate with ppsEn := true } }, 1001, clockDie ({ on with plate := { on.plate with ppsEn := true } }), by decide +kernel, by decide +kernel, rfl, Or.inr (by decide +kernel)⟩⟩

theorem witness_LinksComeAndGo :
    (∃ (s : Machine.State) (l : ℕ), s.pwr.st.isDark = false ∧ (s.port l).linkUp = true) ∧
    (∃ (s : Machine.State) (l : ℕ), s.pwr.st.isDark = false ∧ (s.port l).present = true ∧ (s.port l).training = true ∧ fenced s (dieOfLane l) = false) ∧
    (∃ (s : Machine.State) (lane : ℕ) (l : ℕ), s.pwr.st.isDark = false ∧ portOfLane s lane = some l ∧ (s.port l).linkUp = true) ∧
    (∃ (s : Machine.State) (a : ℕ) (b : ℕ), s.pwr.st.isDark = false ∧ (fabricLinks.contains (a, b) = true ∨ fabricLinks.contains (b, a) = true) ∧ linkLive s (a, b) = true) ∧
    (∃ (s : Machine.State) (a : ℕ) (b : ℕ) (n : ℕ), routeNext (writeRoutes s) a b = some n) ∧
    (∃ (s : Machine.State) (d : ℕ) (c : ℕ), d < 20 ∧ (fabricBall s 18 19).contains d = false ∧ fenced s d = false ∧ d < 8 ∧ c < 256 ∧ c / 32 = d) ∧
    (∃ (s : Machine.State) (d : ℕ) (l : ℕ), d < 20 ∧ (fabricBall s 18 19).contains d = false ∧ fenced s d = false ∧ (d = 16 ∨ d = 17) ∧ dieOfLane l = d) ∧
    (∃ (s : Machine.State) (d : ℕ), (fabricBall s 18 19).contains d = true) :=
  ⟨⟨up5 id (plain on), 5, by decide +kernel⟩,
   ⟨on.modPort 5 (fun k => { k with present := true, training := true }), 5, by decide +kernel⟩,
   ⟨up5 id (plain on), 5, 5, by decide +kernel⟩,
   ⟨on, (fabricLinks.headD (0, 0)).1, (fabricLinks.headD (0, 0)).2, by decide +kernel⟩,
   ⟨on, 0, 9, (routeNext (writeRoutes on) 0 9).get (by decide +kernel), by decide +kernel⟩,
   ⟨{ on with fabDown := fabricLinks }, 3, 97, by decide +kernel⟩,
   ⟨{ on with fabDown := fabricLinks }, 17, 40, by decide +kernel, by decide +kernel, by decide +kernel, Or.inr (by decide +kernel), by decide +kernel⟩,
   ⟨on, 3, by decide +kernel⟩⟩

theorem witness_PowerStates :
    (∃ (s : Machine.State) (cv : ℕ), s.pwr.st = PwrSt.off ∧ 4500 ≤ cv ∧ cv ≤ 6400) ∧
    (∃ (s : Machine.State) (cv : ℕ), s.pwr.st = PwrSt.off ∧ 4500 ≤ cv ∧ cv ≤ 6400) ∧
    (∃ (s : Machine.State) (cv : ℕ), s.pwr.st = PwrSt.off ∧ (cv < 4500 ∨ 6400 < cv)) ∧
    (∃ (s : Machine.State) (cv : ℕ), s.pwr.st = PwrSt.off ∧ (cv < 4500 ∨ 6400 < cv)) ∧
    (∃ (s : Machine.State) (u : Machine.State), s.pwr.st.isDark = false ∧ u = (noteUnfinished s).dark) ∧
    (∃ (s : Machine.State), s.Inv ∧ (s.pwr.st = PwrSt.halted ∨ s.pwr.st = PwrSt.shutdown)) ∧
    (∃ (s : Machine.State), s.pwr.st = PwrSt.starting ∧ s.boot.active = true) ∧
    (∃ (s : Machine.State), s.pwr.st ≠ PwrSt.starting) :=
  ⟨⟨State.reset, 4500, by decide +kernel⟩,
   ⟨State.reset, 6400, by decide +kernel⟩,
   ⟨State.reset, 4499, by decide +kernel⟩,
   ⟨State.reset, 6401, by decide +kernel⟩,
   ⟨on, (noteUnfinished on).dark, by decide +kernel, rfl⟩,
   ⟨inSt .halted State.reset, (fun _ => rfl), by decide +kernel⟩,
   ⟨{ inSt .starting on with boot := { active := true } }, by decide +kernel⟩,
   ⟨on, by decide +kernel⟩⟩

theorem witness_CapsAndSensors :
    (∃ (s : Machine.State) (cv : ℕ) (ca : ℕ) (cap : Bool), s.pwr.st.isDark = false ∧ cap = (decide (4200 ≤ cv) && decide (cv < 4500) || decide (ca > 7200))) ∧
    (∃ (s : Machine.State) (cv : ℕ) (ca : ℕ) (cap : Bool), s.pwr.st.isDark = false ∧ cap = (decide (4200 ≤ cv) && decide (cv < 4500) || decide (ca > 7200))) ∧
    (∃ (s : Machine.State) (inlet : ℤ) (hot : Bool), s.pwr.st.isDark = false ∧ hot = decide (inlet > 640)) ∧
    (∃ (s : Machine.State) (inlet : ℤ) (hot : Bool), s.pwr.st.isDark = false ∧ hot = decide (inlet > 640)) ∧
    (∃ (s : Machine.State) (x : ℕ), x ∈ openSteps s) ∧
    (∃ (s : Machine.State) (d : ℕ) (i : ℕ) (temp : ℤ) (u : Machine.State), s.pwr.st.isDark = false ∧ hasSensor s d i = true ∧ u = readSensor d i temp s ∧ ((u.die d).capped = true ∨ hottest u d < (u.die d).capLim)) ∧
    (∃ (s : Machine.State) (d : ℕ) (i : ℕ) (temp : ℤ) (u : Machine.State), s.pwr.st.isDark = false ∧ hasSensor s d i = true ∧ u = readSensor d i temp s ∧ ((u.die d).capped = true ∨ hottest u d < (u.die d).capLim)) ∧
    (∃ (s : Machine.State) (d : ℕ) (i : ℕ) (temp : ℤ) (u : Machine.State), s.pwr.st.isDark = false ∧ hasSensor s d i = true ∧ u = readSensor d i temp s ∧ (u.die d).capped = false ∧ (u.die d).capLim ≤ hottest u d) ∧
    (∃ (s : Machine.State) (d : ℕ) (i : ℕ) (temp : ℤ) (u : Machine.State), s.pwr.st.isDark = false ∧ hasSensor s d i = true ∧ u = readSensor d i temp s ∧ (u.die d).capped = true ∧ hottest u d ≤ (u.die d).capLim - 48) ∧
    (∃ (s : Machine.State) (d : ℕ) (i : ℕ) (temp : ℤ) (u : Machine.State), s.pwr.st.isDark = false ∧ hasSensor s d i = true ∧ u = readSensor d i temp s ∧ ((u.die d).capped = false ∨ (u.die d).capLim - 48 < hottest u d)) ∧
    (∃ (s : Machine.State) (d : ℕ) (i : ℕ) (temp : ℤ) (u : Machine.State), s.pwr.st.isDark = false ∧ hasSensor s d i = true ∧ u = readSensor d i temp s ∧ (u.die d).shutLim ≤ ((u.die d).sensors.getD i { }).temp) ∧
    (∃ (s : Machine.State) (d : ℕ) (i : ℕ) (temp : ℤ) (u : Machine.State), s.pwr.st.isDark = false ∧ hasSensor s d i = true ∧ u = readSensor d i temp s ∧ ((u.die d).sensors.getD i { }).temp < (u.die d).shutLim) ∧
    (∃ (s : Machine.State) (d : ℕ) (i : ℕ) (q : Sensor) (j : ℕ), (s.die d).sensors[i]? = some q ∧ j ≠ i) ∧
    (∃ (s : Machine.State) (d : ℕ) (i : ℕ) (q : Sensor) (x : ℕ), (s.die d).sensors[i]? = some q ∧ x ∈ openSteps s) ∧
    (∃ (s : Machine.State) (d : ℕ), s.pwr.st.isDark = false ∧ d < 8 ∧ fenced s d = false ∧ (s.die d).on = true) ∧
    (∃ (s : Machine.State) (d : ℕ) (i : ℕ) (q : Sensor), s.pwr.st.isDark = false ∧ fenced s d = false ∧ (s.die d).on = true ∧ (8 ≤ d ∨ i < 8 ∨ 12 ≤ i) ∧ (s.die d).sensors[i]? = some q ∧ q.stale = true) ∧
    (∃ (s : Machine.State) (d : ℕ) (i : ℕ) (q : Sensor), s.pwr.st.isDark = false ∧ fenced s d = false ∧ (s.die d).on = true ∧ (8 ≤ d ∨ i < 8 ∨ 12 ≤ i) ∧ (s.die d).sensors[i]? = some q ∧ q.stale = false ∧ recalBusy s = false) ∧
    (∃ (s : Machine.State) (d : ℕ) (i : ℕ) (q : Sensor), s.pwr.st.isDark = false ∧ fenced s d = false ∧ (s.die d).on = true ∧ (8 ≤ d ∨ i < 8 ∨ 12 ≤ i) ∧ (s.die d).sensors[i]? = some q ∧ q.stale = false ∧ recalBusy s = true) ∧
    (∃ (s : Machine.State) (d : ℕ) (i : ℕ), s.pwr.st.isDark = false ∧ fenced s d = false ∧ (s.die d).on = true ∧ d < 8 ∧ 8 ≤ i ∧ i < 12 ∧ (s.die d).droopBusy = some i) ∧
    (∃ (s : Machine.State) (d : ℕ) (i : ℕ), s.pwr.st.isDark = false ∧ fenced s d = false ∧ (s.die d).on = true ∧ d < 8 ∧ 8 ≤ i ∧ i < 12 ∧ (s.die d).droopBusy ≠ some i ∧ recalBusy s = true) ∧
    (∃ (s : Machine.State) (d : ℕ) (i : ℕ), s.pwr.st.isDark = false ∧ fenced s d = false ∧ (s.die d).on = true ∧ d < 8 ∧ 8 ≤ i ∧ i < 12 ∧ recalBusy s = false) ∧
    (∃ (drift : ℕ), drift ≠ 0) ∧
    (∃ (drift : ℕ), drift = 0) :=
  ⟨⟨on, 4500, 7200, false, by decide +kernel⟩,
   ⟨on, 4200, 0, true, by decide +kernel⟩,
   ⟨on, 641, true, by decide +kernel⟩,
   ⟨on, 640, false, by decide +kernel⟩,
   ⟨train (fun l => { l with isOpen := true }) on, 0, by decide +kernel⟩,
   ⟨die9 (id) (on), 9, 0, 999, readSensor 9 0 999 (die9 (id) (on)), by decide +kernel, by decide +kernel, rfl, by decide +kernel⟩,
   ⟨die9 (fun k => { k with capped := true }) (on), 9, 0, 1000, readSensor 9 0 1000 (die9 (fun k => { k with capped := true }) (on)), by decide +kernel, by decide +kernel, rfl, by decide +kernel⟩,
   ⟨die9 (id) (on), 9, 0, 1000, readSensor 9 0 1000 (die9 (id) (on)), by decide +kernel, by decide +kernel, rfl, by decide +kernel⟩,
   ⟨die9 (fun k => { k with capped := true }) (on), 9, 0, 952, readSensor 9 0 952 (die9 (fun k => { k with capped := true }) (on)), by decide +kernel, by decide +kernel, rfl, by decide +kernel⟩,
   ⟨die9 (fun k => { k with capped := true }) (on), 9, 0, 953, readSensor 9 0 953 (die9 (fun k => { k with capped := true }) (on)), by decide +kernel, by decide +kernel, rfl, by decide +kernel⟩,
   ⟨die9 (id) (on), 9, 0, 1600, readSensor 9 0 1600 (die9 (id) (on)), by decide +kernel, by decide +kernel, rfl, by decide +kernel⟩,
   ⟨die9 (id) (on), 9, 0, 1599, readSensor 9 0 1599 (die9 (id) (on)), by decide +kernel, by decide +kernel, rfl, by decide +kernel⟩,
   ⟨die9 (fun k => { k with sensors := [{}, {}] }) on, 9, 1, {}, 0, by decide +kernel⟩,
   ⟨die9 (id) (train (fun l => { l with isOpen := true }) on), 9, 0, { temp := 100, valid := true }, 0, by decide +kernel⟩,
   ⟨on.modDie 3 (fun k => { k with on := true }), 3, by decide +kernel⟩,
   ⟨die9 (fun k => { k with sensors := [{ stale := true }] }) on, 9, 0, { stale := true }, by decide +kernel⟩,
   ⟨die9 (id) (on), 9, 0, { temp := 100, valid := true }, by decide +kernel⟩,
   ⟨(die9 id on).modDie 10 (fun k => { k with sensors := [{ stale := true }] }), 9, 0, { temp := 100, valid := true }, by decide +kernel⟩,
   ⟨on.modDie 3 (fun k => { k with on := true, sensors := List.replicate 16 { temp := 100, valid := true }, droopBusy := some 8 }), 3, 8, by decide +kernel⟩,
   ⟨on.modDie 3 (fun k => { k with on := true, sensors := List.replicate 16 { temp := 100, valid := true }, droopBusy := some 9 }), 3, 8, by decide +kernel⟩,
   ⟨on.modDie 3 (fun k => { k with on := true, sensors := List.replicate 16 { temp := 100, valid := true }, droopBusy := none }), 3, 8, by decide +kernel⟩,
   ⟨1, by decide +kernel⟩,
   ⟨0, rfl⟩⟩

theorem witness_FirmwareRuns :
    (∃ (s : Machine.State) (core : ℕ), s.pwr.st.isDark = false ∧ core < hubCores s ∧ s.hub.coreReset.contains core = true) ∧
    (∃ (s : Machine.State) (core : ℕ), s.pwr.st.isDark = false ∧ core < hubCores s ∧ s.hub.coreReset.contains core = false) ∧
    (∃ (s : Machine.State) (c : ℕ) (cause : ℕ) (cmd : Instr) (times : List ℕ), s.pwr.st.isDark = false ∧ (compOf s c).st = 1 ∧ (cmd, cause) ∈ [(Instr.sliceOverrun c, 3), (Instr.compartmentFault c 1, 1), (Instr.compartmentFault c 2, 2), (Instr.compartmentFault c 4, 4)] ∧ (times = List.filter (fun t => decide (s.clk - t < 60 * clkS)) (compOf s c).times) ∧ times.length < 2) ∧
    (∃ (s : Machine.State) (c : ℕ) (cause : ℕ) (cmd : Instr) (times : List ℕ), s.pwr.st.isDark = false ∧ (compOf s c).st = 1 ∧ (cmd, cause) ∈ [(Instr.sliceOverrun c, 3), (Instr.compartmentFault c 1, 1), (Instr.compartmentFault c 2, 2), (Instr.compartmentFault c 4, 4)] ∧ (times = List.filter (fun t => decide (s.clk - t < 60 * clkS)) (compOf s c).times) ∧ times.length < 2) ∧
    (∃ (s : Machine.State) (c : ℕ) (cause : ℕ) (cmd : Instr) (times : List ℕ), s.pwr.st.isDark = false ∧ (compOf s c).st = 1 ∧ (cmd, cause) ∈ [(Instr.sliceOverrun c, 3), (Instr.compartmentFault c 1, 1), (Instr.compartmentFault c 2, 2), (Instr.compartmentFault c 4, 4)] ∧ (times = List.filter (fun t => decide (s.clk - t < 60 * clkS)) (compOf s c).times) ∧ 2 ≤ times.length ∧ 3 ≤ c) ∧
    (∃ (s : Machine.State) (c : ℕ) (cause : ℕ) (cmd : Instr) (times : List ℕ), s.pwr.st.isDark = false ∧ (compOf s c).st = 1 ∧ (cmd, cause) ∈ [(Instr.sliceOverrun c, 3), (Instr.compartmentFault c 1, 1), (Instr.compartmentFault c 2, 2), (Instr.compartmentFault c 4, 4)] ∧ (times = List.filter (fun t => decide (s.clk - t < 60 * clkS)) (compOf s c).times) ∧ 2 ≤ times.length ∧ c < 3) ∧
    (∃ (s : Machine.State) (src : ℕ) (dst : ℕ) (msg : Bytes), s.pwr.st.isDark = false ∧ (compOf s src).st = 1 ∧ dst < 5 ∧ List.length msg ≤ 256 ∧ (compOf s dst).gate.length < 64) ∧
    (∃ (s : Machine.State) (src : ℕ) (dst : ℕ) (msg : Bytes), s.pwr.st.isDark = false ∧ (compOf s src).st = 1 ∧ dst < 5 ∧ (256 < List.length msg ∨ 64 ≤ (compOf s dst).gate.length)) ∧
    (∃ (s : Machine.State), s.Serving ∧ s.hub.profEn = true ∧ compDown s 4 = false) ∧
    (∃ (s : Machine.State), s.Serving ∧ (s.hub.profEn = false ∨ compDown s 4 = true)) ∧
    (∃ (s : Machine.State) (r : Requester) (v : Word) (h : Health), s.Serving ∧ (r = Requester.operator ∨ r = Requester.firmware) ∧ bits (BitVec.toNat v) 0 28 = 0 ∧ healthOf (BitVec.toNat v / 2 ^ 30) = some h ∧ (bit (BitVec.toNat v) 29 = false ∨ r = Requester.operator) ∧ healthOk s h (bit (BitVec.toNat v) 29) = true) ∧
    (∃ (s : Machine.State) (r : Requester) (v : Word) (h : Health), s.Serving ∧ (r = Requester.operator ∨ r = Requester.firmware) ∧ bits (BitVec.toNat v) 0 28 = 0 ∧ healthOf (BitVec.toNat v / 2 ^ 30) = some h ∧ (bit (BitVec.toNat v) 29 = false ∨ r = Requester.operator) ∧ healthOk s h (bit (BitVec.toNat v) 29) = false) ∧
    (∃ (s : Machine.State) (r : Requester) (v : Word), s.Serving ∧ (r = Requester.operator ∨ r = Requester.firmware) ∧ bits (BitVec.toNat v) 0 28 = 0 ∧ bit (BitVec.toNat v) 28 = true ∧ s.hub.health = Health.quarantine ∧ s.hub.stRun = false) ∧
    (∃ (s : Machine.State) (r : Requester) (v : Word), s.Serving ∧ (r = Requester.operator ∨ r = Requester.firmware) ∧ bits (BitVec.toNat v) 0 28 = 0 ∧ bit (BitVec.toNat v) 28 = true ∧ (s.hub.health ≠ Health.quarantine ∨ s.hub.stRun = true)) ∧
    (∃ (s : Machine.State), s.Serving ∧ s.hub.stRun = true) :=
  ⟨⟨hub1 (fun h => { h with coreReset := [1] }) (on), 1, by decide +kernel⟩,
   ⟨on, 3, by decide +kernel⟩,
   ⟨hub1 (fun h => { h with comps := List.replicate 5 { st := 1, times := List.replicate 1 0 } }) on, 4, 3, .sliceOverrun 4, [0], by decide +kernel⟩,
   ⟨hub1 (fun h => { h with comps := List.replicate 5 { st := 1, times := List.replicate 0 0 } }) on, 0, 1, .compartmentFault 0 1, [], by decide +kernel⟩,
   ⟨hub1 (fun h => { h with comps := List.replicate 5 { st := 1, times := List.replicate 2 0 } }) on, 3, 4, .compartmentFault 3 4, [0, 0], by decide +kernel⟩,
   ⟨hub1 (fun h => { h with comps := List.replicate 5 { st := 1, times := List.replicate 2 0 } }) on, 2, 2, .compartmentFault 2 2, [0, 0], by decide +kernel⟩,
   ⟨fw on, 1, 4, zeros 256, by decide +kernel⟩,
   ⟨fw on, 1, 4, zeros 257, by decide +kernel⟩,
   ⟨hub1 (fun h => { h with profEn := true }) (fw on), rfl, by decide +kernel⟩,
   ⟨fw on, rfl, Or.inl (by decide +kernel)⟩,
   ⟨hub1 (fun h => { h with health := .quarantine }) (on), .operator, 0x60000000, .probation, rfl, Or.inl rfl, by decide +kernel, by decide +kernel, Or.inr rfl, by decide +kernel⟩,
   ⟨hub1 (fun h => { h with health := .quarantine }) (on), .firmware, 0x00000000, .service, rfl, Or.inr rfl, by decide +kernel, by decide +kernel, Or.inl (by decide +kernel), by decide +kernel⟩,
   ⟨hub1 (fun h => { h with health := .quarantine }) (on), .firmware, 0x10000000, rfl, Or.inr rfl, by decide +kernel⟩,
   ⟨on, .firmware, 0x10000000, rfl, Or.inr rfl, by decide +kernel, by decide +kernel, Or.inl (by decide +kernel)⟩,
   ⟨hub1 (fun h => { h with stRun := true }) (on), rfl, by decide +kernel⟩⟩

theorem witness_HangsEnd :
    (∃ (s : Machine.State) (q : ℕ) (k : ℕ) (c : Cmd), s.Serving ∧ (s.ctx (s.queue q).ctx).st ≠ CtxSt.preempted ∧ findCmd s q k = some c ∧ c.status = none ∧ c.hung = false ∧ cOp c.bytes ≠ 17 ∧ c.armed < c.progress ∧ c.rearms < 15) ∧
    (∃ (s : Machine.State) (q : ℕ) (k : ℕ) (c : Cmd), s.Serving ∧ (s.ctx (s.queue q).ctx).st ≠ CtxSt.preempted ∧ findCmd s q k = some c ∧ c.status = none ∧ c.hung = false ∧ cOp c.bytes ≠ 17 ∧ (c.progress ≤ c.armed ∨ 15 ≤ c.rearms)) ∧
    (∃ (s : Machine.State) (q : ℕ) (k : ℕ) (c : Cmd), s.Serving ∧ (s.ctx (s.queue q).ctx).st ≠ CtxSt.preempted ∧ findCmd s q k = some c ∧ c.status = none ∧ c.hung = false ∧ cOp c.bytes ≠ 17 ∧ (c.progress ≤ c.armed ∨ 15 ≤ c.rearms)) ∧
    (∃ (s : Machine.State) (q : ℕ) (k : ℕ) (c : Cmd), s.Serving ∧ s.ended = [] ∧ findCmd s q k = some c ∧ cOp c.bytes = 17) ∧
    (∃ (c : Cmd), cOp c.bytes ∉ [3, 32, 33, 34]) ∧
    (∃ (s : Machine.State) (q : ℕ) (c : Cmd), cOp c.bytes = 33 ∧ handedOver s q c.idx = true) ∧
    (∃ (s : Machine.State) (q : ℕ) (c : Cmd), cOp c.bytes = 33 ∧ handedOver s q c.idx = false) ∧
    (∃ (s : Machine.State) (q : ℕ) (c : Cmd), cOp c.bytes = 32 ∧ hasProgram s q c.idx = false) ∧
    (∃ (s : Machine.State) (q : ℕ) (k : ℕ) (b : Bytes), s.Serving ∧ s.ended = [] ∧ findCmd s q k = none ∧ headRuns s q = true ∧ BitVec.toNat (s.queue q).n = k ∧ nextCmd s q = Except.ok b ∧ cOp b ≠ 17) ∧
    (∃ (s : Machine.State) (q : ℕ) (qs : List ℕ), s.Serving ∧ isCycle s (q :: qs) = true) ∧
    (∃ (s : Machine.State) (q : ℕ) (qs : List ℕ), s.Serving ∧ s.ended = [] ∧ isCycle s (q :: qs) = false) ∧
    (∃ (s : Machine.State) (q : ℕ) (n : ℕ) (b : Bytes), headWait s q = some (n, b) ∧ tileWaits s q = []) ∧
    (∃ (s : Machine.State) (peer : ℕ) (tag : ℕ) (mine : List (ℕ × Marker)), s.Serving ∧ s.ended = [] ∧ (mine = List.filter (fun w => decide (w.2.dev = peer) && decide (w.2.jobTag = tag)) (waits s)) ∧ mutualWait s peer tag = false) ∧
    (∃ (s : Machine.State) (peer : ℕ) (tag : ℕ) (x : ℕ) (mine : List (ℕ × Marker)), s.Serving ∧ s.ended = [] ∧ (mine = List.filter (fun w => decide (w.2.dev = peer) && decide (w.2.jobTag = tag)) (waits s)) ∧ mutualWait s peer tag = true ∧ ctxOfTag s tag = some x ∧ (∀ w ∈ mine, w.2.cls ≠ 1) ∧ (∃ w ∈ mine, w.2.cls = 0)) :=
  ⟨⟨flyOp 0x20 (fun c => { c with progress := 1, rearms := 14 }) on, 0, 3, cmdOp 0x20 (fun c => { c with progress := 1, rearms := 14 }), rfl, by decide +kernel⟩,
   ⟨flyOp 0x20 (fun c => { c with progress := 1, rearms := 15 }) on, 0, 3, cmdOp 0x20 (fun c => { c with progress := 1, rearms := 15 }), rfl, by decide +kernel, by decide +kernel, by decide +kernel, by decide +kernel, by decide +kernel, Or.inr (by decide +kernel)⟩,
   ⟨flyOp 0 (fun c => { c with progress := 0 }) on, 0, 3, cmdOp 0 (fun c => { c with progress := 0 }), rfl, by decide +kernel, by decide +kernel, by decide +kernel, by decide +kernel, by decide +kernel, Or.inl (by decide +kernel)⟩,
   ⟨flyOp 0x11 (fun c => { c with status := none }) on, 0, 3, cmdOp 0x11 (fun c => { c with status := none }), rfl, by decide +kernel⟩,
   ⟨cmdOp 0 id, by decide +kernel⟩,
   ⟨on.modHolder 8 (fun h => { h with queue := [ejob 0x50] }), 0, cmdOp 0x21 id, by decide +kernel⟩,
   ⟨on, 0, cmdOp 0x21 id, by decide +kernel⟩,
   ⟨on, 0, cmdOp 0x20 id, by decide +kernel⟩,
   ⟨put selfWait .ready on, 0, 0, selfWait, rfl, by decide +kernel⟩,
   ⟨put selfWait .ready on, 0, [], rfl, by decide +kernel⟩,
   ⟨on, 0, [1], rfl, by decide +kernel⟩,
   ⟨put selfWait .ready on, 0, 5, selfWait, by decide +kernel⟩,
   ⟨on, 3, 5, [], rfl, by decide +kernel⟩,
   ⟨bothWait, 3, 5, 0, (waits bothWait).filter (fun w => w.2.dev = 3 && w.2.jobTag = 5), rfl, by decide +kernel⟩⟩

theorem witness_DomainsReset :
    (∃ (s : Machine.State) (c : ℕ) (trigger : ℕ) (times : List ℕ), s.Serving ∧ cellPresent s c = true ∧ (s.cell c).st ≠ CellSt.resetting ∧ 1 ≤ trigger ∧ trigger ≤ 3 ∧ (times = List.filter (fun t => decide (s.clk - t < 60 * clkS)) (s.cell c).resets)) ∧
    (∃ (s : Machine.State) (c : ℕ) (trigger : ℕ) (times : List ℕ), s.Serving ∧ cellPresent s c = true ∧ (s.cell c).st ≠ CellSt.resetting ∧ 1 ≤ trigger ∧ trigger ≤ 3 ∧ (times = List.filter (fun t => decide (s.clk - t < 60 * clkS)) (s.cell c).resets)) ∧
    (∃ (s : Machine.State) (c : ℕ), (s.cell c).redrive = none ∧ (s.cell c).saved = none ∧ (s.cell c).stopFor = none) ∧
    (∃ (s : Machine.State), s.memsWf = true) ∧
    (∃ (s : Machine.State) (d : ℕ), s.Serving ∧ d < 8 ∧ fenced s d = false) ∧
    (∃ (s : Machine.State) (c : ℕ) (p : Program), s.Serving ∧ (s.cell c).st = CellSt.resetting ∧ (s.cell c).parked = false ∧ (s.cell c).stopFor = none ∧ (s.cell c).stopPre = false ∧ (s.cell c).redrive = some p ∧ p.stopNew = false) ∧
    (∃ (s : Machine.State) (c : ℕ), s.Serving ∧ (s.cell c).st = CellSt.resetting ∧ (s.cell c).parked = false ∧ (s.cell c).stopFor = none ∧ (s.cell c).stopPre = false ∧ (s.cell c).redrive = none ∧ (s.cell c).restoring = false) ∧
    (∃ (s : Machine.State) (h : ℕ), s.Serving ∧ (presentHolders s).contains h = true ∧ (s.holder h).resetting = false ∧ (s.holder h).load = none) ∧
    (∃ (s : Machine.State) (h : ℕ), s.Serving ∧ (s.holder h).resetting = true) ∧
    (∃ (s : Machine.State) (d : ℕ), s.Serving ∧ (d = 16 ∨ d = 17) ∧ fenced s d = false ∧ (s.link d).resetting = false) ∧
    (∃ (s : Machine.State) (core : ℕ) (times : List ℕ), s.pwr.st.isDark = false ∧ core < hubCores s ∧ s.hub.coreReset.contains core = false ∧ (times = List.filter (fun t => decide (s.clk - t < 60 * clkS)) s.hub.coreResets) ∧ times.length < 2) ∧
    (∃ (s : Machine.State) (core : ℕ) (times : List ℕ), s.pwr.st.isDark = false ∧ core < hubCores s ∧ s.hub.coreReset.contains core = false ∧ (times = List.filter (fun t => decide (s.clk - t < 60 * clkS)) s.hub.coreResets) ∧ 2 ≤ times.length) ∧
    (∃ (s : Machine.State) (core : ℕ), s.pwr.st.isDark = false ∧ s.hub.coreReset.contains core = true) ∧
    (∃ (s : Machine.State) (r : Requester), s.pwr.st.isDark = false ∧ r ≠ Requester.operator) ∧
    (∃ (s : Machine.State), s.pwr.st.isDark = false ∧ ((List.any s.holders fun e => e.2.resetting) = true ∨ (List.any s.links fun e => e.2.resetting) = true ∨ (compOf s 3).st = 3)) ∧
    (∃ (s : Machine.State), s.Serving ∧ s.hub.crashInfo = none) ∧
    (∃ (s : Machine.State) (i : ℕ × ℕ × ℕ × List ℕ), s.Serving ∧ s.memsWf = true ∧ s.hub.crashInfo = some i) ∧
    (∃ (s : Machine.State) (r : Requester), s.Serving ∧ r ≠ Requester.operator) ∧
    (∃ (s : Machine.State), s.Serving ∧ compDown s 2 = true) ∧
    (∃ (s : Machine.State), s.Serving ∧ compDown s 2 = false) :=
  ⟨⟨on, 3, 1, [], rfl, by decide +kernel⟩,
   ⟨cell3 (fun k => { k with resets := [0, 0] }) on, 3, 3, [0, 0], rfl, by decide +kernel⟩,
   ⟨on, 3, by decide +kernel⟩,
   ⟨on, by decide +kernel⟩,
   ⟨on, 7, rfl, by decide +kernel⟩,
   ⟨cell3 (fun k => { k with st := .resetting, redrive := some prog0 }) on, 3, prog0, rfl, by decide +kernel⟩,
   ⟨cell3 (fun k => { k with st := .resetting }) on, 3, rfl, by decide +kernel⟩,
   ⟨held 0x50 on, 8, rfl, by decide +kernel⟩,
   ⟨on.modHolder 8 (fun h => { h with resetting := true }), 8, rfl, by decide +kernel⟩,
   ⟨on, 17, rfl, Or.inr rfl, by decide +kernel⟩,
   ⟨hub1 (fun h => { h with coreResets := [0] }) (on), 3, [0], by decide +kernel⟩,
   ⟨hub1 (fun h => { h with coreResets := [0, 0] }) (on), 0, [0, 0], by decide +kernel⟩,
   ⟨hub1 (fun h => { h with coreReset := [2] }) (fw on), 2, by decide +kernel⟩,
   ⟨on, .firmware, by decide +kernel⟩,
   ⟨on.modHolder 8 (fun h => { h with resetting := true }), by decide +kernel, Or.inl (by decide +kernel)⟩,
   ⟨on, rfl, by decide +kernel⟩,
   ⟨hub1 (fun h => { h with crashInfo := some (1, 2, 3, [3]) }) (on), (1, 2, 3, [3]), rfl, by decide +kernel⟩,
   ⟨on, .firmware, rfl, by decide +kernel⟩,
   ⟨hub1 (fun h => { h with comps := List.replicate 5 { st := 3 } }) (on), rfl, by decide +kernel⟩,
   ⟨fw on, rfl, by decide +kernel⟩⟩

theorem witness_SoldierChecks :
    (∃ (s : Machine.State) (d : ℕ) (e : Sample) (b : Bytes), s.Serving ∧ (List.find? (fun e => e.check.isNone) (samplesOf s d) = some e) ∧ b = e.witness) ∧
    (∃ (s : Machine.State) (d : ℕ) (e : Sample) (b : Bytes), s.Serving ∧ (List.find? (fun e => e.check.isNone) (samplesOf s d) = some e) ∧ b ≠ e.witness) ∧
    (∃ (s : Machine.State) (d : ℕ) (e : Sample) (b : Bytes) (check : Bytes) (v : ℕ), s.Serving ∧ (List.find? (fun e => e.check.isSome) (samplesOf s d) = some e) ∧ e.check = some check ∧ v = verdictOf e check b) ∧
    (∃ (s : Machine.State) (d : ℕ) (e : Sample) (b : Bytes) (check : Bytes) (v : ℕ), s.Serving ∧ (List.find? (fun e => e.check.isSome) (samplesOf s d) = some e) ∧ e.check = some check ∧ v = verdictOf e check b) ∧
    (∃ (e : Sample) (b : Bytes), b = e.witness) ∧
    (∃ (e : Sample) (check : Bytes) (b : Bytes), b ≠ e.witness ∧ b = check) ∧
    (∃ (e : Sample) (check : Bytes) (b : Bytes), b ≠ e.witness ∧ b ≠ check) ∧
    (∃ (d : ℕ), d < 8) ∧
    (∃ (d : ℕ), 8 ≤ d) ∧
    (∃ (e : Sample), e.jobbed = false) ∧
    (∃ (e : Sample) (check : Bytes) (a : ℕ), e.matrix = false ∧ e.outAt = [(a, List.length check)]) ∧
    (∃ (s : Machine.State) (e : Sample), e.matrix = true ∧ e.jobbed = true ∧ (s.sl e.ctx).step = e.step) ∧
    (∃ (s : Machine.State) (session : ℕ) (x : ℕ) (d : ℕ) (tol : ℕ) (occ : ℕ) (memClass : ℕ) (holdS : ℕ) (refAddr : ℕ) (st : ℕ) (sp : List (ℤ × ℕ × ℕ)), s.Serving ∧ st = replayStatus s session x d sp tol occ memClass holdS refAddr ∧ st ≠ stOk) ∧
    (∃ (s : Machine.State) (session : ℕ) (x : ℕ) (d : ℕ) (tol : ℕ) (occ : ℕ) (memClass : ℕ) (holdS : ℕ) (refAddr : ℕ) (st : ℕ) (sp : List (ℤ × ℕ × ℕ)), s.Serving ∧ st = replayStatus s session x d sp tol occ memClass holdS refAddr ∧ st = stOk) ∧
    (∃ (s : Machine.State) (r : Replay), s.Serving ∧ s.hub.replay = some r ∧ r.held = true) ∧
    (∃ (s : Machine.State) (r : Replay), s.Serving ∧ s.hub.replay = some r ∧ r.held = false ∧ r.at_ + 1 < r.points.length) ∧
    (∃ (s : Machine.State) (r : Replay), s.Serving ∧ s.hub.replay = some r ∧ r.held = false ∧ r.points.length ≤ r.at_ + 1) :=
  ⟨⟨{ on with cellSamples := [{ matrix := true, unit := 3, checker := 1, referee := 2, ctx := 0, jobbed := false, tag := 5, index := 0, witness := [1, 2], outAt := [], check := none }] }, 0, { matrix := true, unit := 3, checker := 1, referee := 2, ctx := 0, jobbed := false, tag := 5, index := 0, witness := [1, 2], outAt := [], check := none }, [1, 2], rfl, by decide +kernel, rfl⟩,
   ⟨{ on with cellSamples := [{ matrix := true, unit := 3, checker := 1, referee := 2, ctx := 0, jobbed := false, tag := 5, index := 0, witness := [1, 2], outAt := [], check := none }] }, 0, { matrix := true, unit := 3, checker := 1, referee := 2, ctx := 0, jobbed := false, tag := 5, index := 0, witness := [1, 2], outAt := [], check := none }, [1, 3], rfl, by decide +kernel⟩,
   ⟨{ on with cellSamples := [{ matrix := true, unit := 3, checker := 1, referee := 2, ctx := 0, jobbed := true, tag := 5, index := 0, witness := [1, 2], outAt := [], check := some [3, 4] }] }, 0, { matrix := true, unit := 3, checker := 1, referee := 2, ctx := 0, jobbed := true, tag := 5, index := 0, witness := [1, 2], outAt := [], check := some [3, 4] }, [1, 2], [3, 4], 1, rfl, by decide +kernel⟩,
   ⟨on.modHolder 8 (fun h => { h with samples := [{ matrix := false, unit := 8, checker := 1, referee := 2, ctx := 0, jobbed := false, tag := 5, index := 0, witness := [1, 2], outAt := [(0x80000, 2)], check := some [3, 4] }] }), 8, { matrix := false, unit := 8, checker := 1, referee := 2, ctx := 0, jobbed := false, tag := 5, index := 0, witness := [1, 2], outAt := [(0x80000, 2)], check := some [3, 4] }, [1, 3], [3, 4], 3, rfl, by decide +kernel⟩,
   ⟨{ matrix := true, unit := 3, checker := 1, referee := 2, ctx := 0, jobbed := true, tag := 5, index := 0, witness := [1, 2], outAt := [], check := some [3, 4] }, [1, 2], rfl⟩,
   ⟨{ matrix := true, unit := 3, checker := 1, referee := 2, ctx := 0, jobbed := true, tag := 5, index := 0, witness := [1, 2], outAt := [], check := some [3, 4] }, [3, 4], [3, 4], by decide +kernel, rfl⟩,
   ⟨{ matrix := true, unit := 3, checker := 1, referee := 2, ctx := 0, jobbed := true, tag := 5, index := 0, witness := [1, 2], outAt := [], check := some [3, 4] }, [3, 4], [5, 6], by decide +kernel⟩,
   ⟨7, by decide +kernel⟩,
   ⟨8, by decide +kernel⟩,
   ⟨{ matrix := true, unit := 3, checker := 1, referee := 2, ctx := 0, jobbed := false, tag := 5, index := 0, witness := [1, 2], outAt := [], check := none }, by decide +kernel⟩,
   ⟨{ matrix := false, unit := 8, checker := 1, referee := 2, ctx := 0, jobbed := false, tag := 5, index := 0, witness := [1, 2], outAt := [(0x80000, 2)], check := some [3, 4] }, [3, 4], 0x80000, by decide +kernel⟩,
   ⟨train (fun l => l) on, { matrix := true, unit := 3, checker := 1, referee := 2, ctx := 0, jobbed := true, tag := 5, index := 0, witness := [1, 2], outAt := [], check := some [3, 4] }, by decide +kernel⟩,
   ⟨on, 1, 0, 3, 8, 0, 0, 1, 0, stPerm, [], rfl, by decide +kernel⟩,
   ⟨oper (ctx0 (fun c => { c with st := .ready, job := some { job0 with replay := true } }) (reg on)), 1, 0, 3, 160, 100, 0, 600, 0x80000, stOk, [(-32768, 1, 2), (32767, 3, 3)], rfl, by decide +kernel, rfl⟩,
   ⟨hub1 (fun h => { h with replay := some { x := 0, die := 3, points := [(500, 1, 2), (600, 3, 4)], at_ := 0, held := true, tol := 8, occ := 0, memClass := 0, holdS := 1, refAddr := 0 } }) on, { x := 0, die := 3, points := [(500, 1, 2), (600, 3, 4)], at_ := 0, held := true, tol := 8, occ := 0, memClass := 0, holdS := 1, refAddr := 0 }, rfl, by decide +kernel⟩,
   ⟨hub1 (fun h => { h with replay := some { x := 0, die := 3, points := [(500, 1, 2), (600, 3, 4)], at_ := 0, held := false, tol := 8, occ := 0, memClass := 0, holdS := 1, refAddr := 0 } }) on, { x := 0, die := 3, points := [(500, 1, 2), (600, 3, 4)], at_ := 0, held := false, tol := 8, occ := 0, memClass := 0, holdS := 1, refAddr := 0 }, rfl, by decide +kernel⟩,
   ⟨hub1 (fun h => { h with replay := some { x := 0, die := 3, points := [(500, 1, 2), (600, 3, 4)], at_ := 1, held := false, tol := 8, occ := 0, memClass := 0, holdS := 1, refAddr := 0 } }) on, { x := 0, die := 3, points := [(500, 1, 2), (600, 3, 4)], at_ := 1, held := false, tol := 8, occ := 0, memClass := 0, holdS := 1, refAddr := 0 }, rfl, by decide +kernel⟩⟩

theorem witness_BootStages :
    (∃ (s : Machine.State), s.pwr.st.isDark = false ∧ inStage s Stage.fuse = true) ∧
    (∃ (s : Machine.State), s.pwr.st.isDark = false ∧ inStage s Stage.fuse = true ∧ pupaReason { s with boot := { countStart s.boot with trial := s.boot.trialMark } } = none) ∧
    (∃ (s : Machine.State) (r : ℕ × ℕ), s.pwr.st.isDark = false ∧ inStage s Stage.fuse = true ∧ pupaReason { s with boot := { countStart s.boot with trial := s.boot.trialMark } } = some r) ∧
    (∃ (s : Machine.State) (r : ℕ × ℕ), s.pwr.st.isDark = false ∧ inStage s Stage.fuse = true ∧ pupaReason { s with boot := { countStart s.boot with trial := s.boot.trialMark } } = some r) ∧
    (∃ (s : Machine.State), 3 ≤ failedStarts s.boot ∧ s.boot.trial = false) ∧
    (∃ (s : Machine.State), (failedStarts s.boot < 3 ∨ s.boot.trial = true) ∧ s.boot.pupaReq = true) ∧
    (∃ (s : Machine.State), (failedStarts s.boot < 3 ∨ s.boot.trial = true) ∧ s.boot.pupaReq = true) ∧
    (∃ (s : Machine.State), (failedStarts s.boot < 3 ∨ s.boot.trial = true) ∧ s.boot.pupaReq = false) ∧
    (∃ (s : Machine.State), s.pwr.st.isDark = false ∧ inStage s Stage.image = true) ∧
    (∃ (s : Machine.State) (f : ℕ × ℕ), s.pwr.st.isDark = false ∧ inStage s Stage.carapace = true ∧ chooseBase s = Except.error f) ∧
    (∃ (s : Machine.State), s.pwr.st.isDark = false ∧ inStage s Stage.trainLinks = true ∧ s.boot.training = false) ∧
    (∃ (s : Machine.State) (l : ℕ) (p : ℕ × ℕ), s.pwr.st.isDark = false ∧ inStage s Stage.trainLinks = true ∧ s.boot.training = false ∧ p ∈ portsOf s s.plate.split ∧ p.1 ≤ l ∧ l < p.1 + p.2) ∧
    (∃ (s : Machine.State), s.pwr.st.isDark = false ∧ inStage s Stage.trainLinks = true ∧ s.boot.training = true) ∧
    (∃ (s : Machine.State), s.pwr.st.isDark = false ∧ inStage s Stage.release = true) ∧
    (∃ (s : Machine.State), s.pwr.st = PwrSt.starting ∧ s.boot.active = true) ∧
    (∃ (s : Machine.State), s.pwr.st = PwrSt.starting ∧ s.boot.retry = true) ∧
    (∃ (s : Machine.State), s.pwr.st = PwrSt.starting ∧ s.boot.retry = false) :=
  ⟨⟨{ inSt .starting on with boot := { stage := .fuse, active := true } }, by decide +kernel⟩,
   ⟨{ inSt .starting on with boot := { stage := .fuse, active := true } }, by decide +kernel⟩,
   ⟨{ inSt .starting on with boot := { stage := .fuse, active := true, pupaReq := true } }, (0x81, 0), by decide +kernel⟩,
   ⟨{ inSt .starting on with boot := { stage := .fuse, active := true, base := none } }, (0x80, 3), by decide +kernel⟩,
   ⟨{ inSt .starting on with boot := { stage := .fuse, active := true, fuses := 3 } }, by decide +kernel⟩,
   ⟨{ inSt .starting on with boot := { stage := .fuse, active := true, fuses := 2, pupaReq := true } }, Or.inl (by decide +kernel), by decide +kernel⟩,
   ⟨{ inSt .starting on with boot := { stage := .fuse, active := true, fuses := 3, trial := true, pupaReq := true } }, Or.inr rfl, by decide +kernel⟩,
   ⟨{ inSt .starting on with boot := { stage := .fuse, active := true, fuses := 2 } }, Or.inl (by decide +kernel), by decide +kernel⟩,
   ⟨{ inSt .starting on with boot := { stage := .image, active := true } }, by decide +kernel⟩,
   ⟨{ inSt .starting on with boot := { stage := .carapace, active := true } }, (0x20, 0), by decide +kernel⟩,
   ⟨{ inSt .starting on with boot := { stage := .trainLinks, active := true } }, by decide +kernel⟩,
   ⟨{ inSt .starting on with plate := { State.reset.plate with split := [1, 0, 0, 0, 0, 0, 0, 0, 0] }, boot := { stage := .trainLinks, active := true } }, 7, (0, 8), by decide +kernel⟩,
   ⟨{ inSt .starting on with boot := { stage := .trainLinks, active := true, training := true } }, by decide +kernel⟩,
   ⟨{ inSt .starting on with boot := { stage := .release, active := true } }, by decide +kernel⟩,
   ⟨{ inSt .starting on with boot := { stage := .image, active := true } }, by decide +kernel⟩,
   ⟨{ inSt .starting on with boot := { stage := .image, active := true, retry := true } }, by decide +kernel⟩,
   ⟨{ inSt .starting on with boot := { stage := .image, active := true } }, by decide +kernel⟩⟩

theorem witness_BootControl :
    (∃ (s : Machine.State) (a : ℕ), s.pwr.st.isDark = false ∧ a = csrBase + 4194352) ∧
    (∃ (s : Machine.State) (v : Word) (a : ℕ), s.pwr.st.isDark = false ∧ a = csrBase + 4194352 ∧ bits (BitVec.toNat v) 0 24 = 0 ∧ bit (BitVec.toNat v) 31 = true ∧ bit (BitVec.toNat v) 30 = false ∧ s.pwr.st ≠ PwrSt.pupa) ∧
    (∃ (s : Machine.State) (v : Word) (a : ℕ), s.pwr.st.isDark = false ∧ a = csrBase + 4194352 ∧ bits (BitVec.toNat v) 0 24 = 0 ∧ bit (BitVec.toNat v) 31 = true ∧ bit (BitVec.toNat v) 30 = false ∧ s.pwr.st = PwrSt.pupa) ∧
    (∃ (s : Machine.State) (v : Word) (a : ℕ), s.pwr.st.isDark = false ∧ a = csrBase + 4194352 ∧ bits (BitVec.toNat v) 0 24 = 0 ∧ bit (BitVec.toNat v) 30 = true) ∧
    (∃ (s : Machine.State) (v : Word) (a : ℕ), s.pwr.st.isDark = false ∧ a = csrBase + 4194352 ∧ bits (BitVec.toNat v) 0 24 = 0 ∧ s.pwr.st = PwrSt.pupa ∧ bit (BitVec.toNat v) 29 = true ∧ bits (BitVec.toNat v) 24 5 < 20) ∧
    (∃ (s : Machine.State) (n : ℕ), s.pwr.st = PwrSt.pupa ∧ isOperator s n = false) ∧
    (∃ (s : Machine.State) (n : ℕ), s.pwr.st = PwrSt.pupa ∧ isOperator s n = true ∧ compDown s 3 = false) ∧
    (∃ (s : Machine.State) (n : ℕ), (s.pwr.st = PwrSt.on ∨ s.pwr.st = PwrSt.pupa) ∧ isOperator s n = false) ∧
    (∃ (s : Machine.State) (n : ℕ), (s.pwr.st = PwrSt.on ∨ s.pwr.st = PwrSt.pupa) ∧ isOperator s n = false) ∧
    (∃ (s : Machine.State) (n : ℕ) (len : ℕ) (cara : Bool), (s.pwr.st = PwrSt.on ∨ s.pwr.st = PwrSt.pupa) ∧ isOperator s n = true ∧ compDown s 3 = false ∧ (len = 0 ∨ (if cara = true then 8388608 else 134217728) < len)) ∧
    (∃ (s : Machine.State) (n : ℕ) (len : ℕ) (cara : Bool), (s.pwr.st = PwrSt.on ∨ s.pwr.st = PwrSt.pupa) ∧ isOperator s n = true ∧ compDown s 3 = false ∧ (len = 0 ∨ (if cara = true then 8388608 else 134217728) < len)) ∧
    (∃ (s : Machine.State) (n : ℕ) (len : ℕ) (cara : Bool), (s.pwr.st = PwrSt.on ∨ s.pwr.st = PwrSt.pupa) ∧ isOperator s n = true ∧ compDown s 3 = false ∧ (len = 0 ∨ (if cara = true then 8388608 else 134217728) < len)) ∧
    (∃ (s : Machine.State) (n : ℕ) (len : ℕ) (cara : Bool), (s.pwr.st = PwrSt.on ∨ s.pwr.st = PwrSt.pupa) ∧ isOperator s n = true ∧ compDown s 3 = false ∧ 0 < len ∧ (len ≤ if cara = true then 8388608 else 134217728) ∧ (s.boot.fetchSt = 1 ∨ s.boot.fetchSt = 2)) ∧
    (∃ (s : Machine.State) (n : ℕ) (len : ℕ) (cara : Bool), (s.pwr.st = PwrSt.on ∨ s.pwr.st = PwrSt.pupa) ∧ isOperator s n = true ∧ compDown s 3 = false ∧ 0 < len ∧ (len ≤ if cara = true then 8388608 else 134217728) ∧ s.boot.fetchSt ≠ 1 ∧ s.boot.fetchSt ≠ 2) ∧
    (∃ (s : Machine.State) (why : Option ℕ), (s.pwr.st = PwrSt.on ∨ s.pwr.st = PwrSt.pupa) ∧ (why = if s.boot.fetchCara = true then fetchedFault s else Option.map (fun x => x.1) (imageCheck s)) ∧ s.boot.fetchSt ≠ 1) ∧
    (∃ (s : Machine.State) (why : Option ℕ), (s.pwr.st = PwrSt.on ∨ s.pwr.st = PwrSt.pupa) ∧ (why = if s.boot.fetchCara = true then fetchedFault s else Option.map (fun x => x.1) (imageCheck s)) ∧ s.boot.fetchSt = 1) :=
  ⟨⟨on, csrBase + 0x400030, by decide +kernel, rfl⟩,
   ⟨on, 0x80000000, csrBase + 0x400030, by decide +kernel, rfl, by decide +kernel⟩,
   ⟨pupa id (on), 0x80000000, csrBase + 0x400030, by decide +kernel, rfl, by decide +kernel⟩,
   ⟨on, 0xC0000000, csrBase + 0x400030, by decide +kernel, rfl, by decide +kernel⟩,
   ⟨pupa id (on), 0x33000000, csrBase + 0x400030, by decide +kernel, rfl, by decide +kernel⟩,
   ⟨pupa id (on), 1, by decide +kernel⟩,
   ⟨pupa id (oper on), 1, by decide +kernel⟩,
   ⟨pupa id (on), 1, Or.inr rfl, by decide +kernel⟩,
   ⟨on, 0, Or.inl rfl, by decide +kernel⟩,
   ⟨oper on, 1, 0, false, Or.inl rfl, by decide +kernel, by decide +kernel, Or.inl rfl⟩,
   ⟨oper on, 1, 8388609, true, Or.inl rfl, by decide +kernel, by decide +kernel, Or.inr (by decide +kernel)⟩,
   ⟨oper on, 1, 134217729, false, Or.inl rfl, by decide +kernel, by decide +kernel, Or.inr (by decide +kernel)⟩,
   ⟨pupa (fun b => { b with fetchSt := 2 }) (oper on), 1, 0x8000000, false, Or.inr rfl, by decide +kernel, by decide +kernel, by decide +kernel, by decide +kernel, Or.inr rfl⟩,
   ⟨oper on, 1, 8388608, true, Or.inl rfl, by decide +kernel⟩,
   ⟨on, some 0x10, Or.inl rfl, by decide +kernel⟩,
   ⟨{ on with boot := { fetchSt := 1, fetchCara := true, fetchAt := 0x9000000 } }, some 0x20, Or.inl rfl, by decide +kernel⟩⟩

theorem witness_MoltsRun :
    (∃ (s : Machine.State) (x : ℕ) (m : Molt), (s.sl x).isOpen = false ∧ (s.sl x).phase = Phase.idle ∧ (s.sl x).pend = [] ∧ m.phase = MoltPh.none ∧ (m.fresh = true ∨ m.sMin ≤ (s.sl x).hdr.step + 1)) ∧
    (∃ (s : Machine.State) (x : ℕ) (m : Molt), (s.sl x).isOpen = false ∧ (s.sl x).phase = Phase.idle ∧ (s.sl x).pend = [] ∧ m.phase = MoltPh.none ∧ (m.fresh = true ∨ m.sMin ≤ (s.sl x).hdr.step + 1)) ∧
    (∃ (s : Machine.State) (x : ℕ) (m : Molt), (s.sl x).isOpen = false ∧ (s.sl x).phase = Phase.idle ∧ (s.sl x).pend = [] ∧ m.phase = MoltPh.none ∧ m.fresh = false ∧ (s.sl x).hdr.step + 1 < m.sMin ∧ (s.sl x).dead = [] ∧ (s.sl x).cur = none) ∧
    (∃ (s : Machine.State) (x : ℕ) (j : Job), s.Serving ∧ (s.ctx x).molt.phase = MoltPh.hold ∧ (s.ctx x).molt.job = some j ∧ workRuns s x = false ∧ (s.ctx x).started = 0 ∧ (∀ k ∈ s.colls, k.x ≠ x) ∧ (s.ctx x).molt.recover = false) ∧
    (∃ (s : Machine.State) (x : ℕ) (new : Job) (v : Machine.State) (o : Job), s.Serving ∧ (s.ctx x).molt.phase = MoltPh.transfer ∧ (s.ctx x).job = some new ∧ (s.ctx x).molt.begun = false ∧ (s.ctx x).molt.recover = false ∧ (v = modMolt x (fun m => { m with begun := true }) s) ∧ o = (s.ctx x).molt.old.getD new) ∧
    (∃ (s : Machine.State) (x : ℕ) (new : Job) (old : Job), s.Serving ∧ (s.ctx x).molt.phase = MoltPh.transfer ∧ (s.ctx x).job = some new ∧ (s.ctx x).molt.begun = false ∧ (s.ctx x).molt.recover = true ∧ (s.ctx x).molt.old = some old ∧ (s.ctx x).molt.checkpoint = true) ∧
    (∃ (s : Machine.State) (x : ℕ) (new : Job) (old : Job), s.Serving ∧ (s.ctx x).molt.phase = MoltPh.transfer ∧ (s.ctx x).job = some new ∧ (s.ctx x).molt.begun = false ∧ (s.ctx x).molt.recover = true ∧ (s.ctx x).molt.old = some old ∧ (s.ctx x).molt.checkpoint = false ∧ (s.ctx x).molt.entries ≠ [] ∧ (recoverStep old (List.filter (fun e => old.members.contains e.dev) (s.ctx x).molt.entries) = none)) ∧
    (∃ (s : Machine.State) (x : ℕ) (new : Job) (old : Job) (p : ℕ), s.Serving ∧ (s.ctx x).molt.phase = MoltPh.transfer ∧ (s.ctx x).job = some new ∧ (s.ctx x).molt.begun = false ∧ (s.ctx x).molt.recover = true ∧ (s.ctx x).molt.old = some old ∧ (s.ctx x).molt.checkpoint = false ∧ (s.ctx x).molt.entries ≠ [] ∧ (recoverStep old (List.filter (fun e => old.members.contains e.dev) (s.ctx x).molt.entries) = some p)) ∧
    (∃ (s : Machine.State) (dev : ℕ) (j : Job) (b : SlotEnt), dev ≠ s.plate.devIndex ∧ slotDev j b ≠ s.plate.devIndex) ∧
    (∃ (s : Machine.State) (x : ℕ) (st : ℕ) (ok : ℕ) (bad : ℕ), s.Serving ∧ (s.ctx x).molt.agree = some (st, ok, bad) ∧ st ≠ stOk) ∧
    (∃ (s : Machine.State) (x : ℕ) (st : ℕ) (ok : ℕ) (bad : ℕ), s.Serving ∧ (s.ctx x).molt.agree = some (st, ok, bad) ∧ st = stOk ∧ ok ≠ (s.ctx x).molt.group.length) ∧
    (∃ (s : Machine.State) (x : ℕ) (st : ℕ) (ok : ℕ) (bad : ℕ), s.Serving ∧ (s.ctx x).molt.agree = some (st, ok, bad) ∧ st = stOk ∧ ok = (s.ctx x).molt.group.length ∧ bad ≠ 0) ∧
    (∃ (s : Machine.State) (x : ℕ) (st : ℕ) (ok : ℕ) (bad : ℕ), s.Serving ∧ (s.ctx x).molt.agree = some (st, ok, bad) ∧ st = stOk ∧ ok = (s.ctx x).molt.group.length ∧ bad = 0 ∧ (s.ctx x).molt.phase = MoltPh.transfer) ∧
    (∃ (s : Machine.State) (x : ℕ) (st : ℕ) (ok : ℕ) (bad : ℕ), s.Serving ∧ (s.ctx x).molt.agree = some (st, ok, bad) ∧ st = stOk ∧ ok = (s.ctx x).molt.group.length ∧ bad = 0 ∧ (s.ctx x).molt.phase = MoltPh.verify) ∧
    (∃ (s : Machine.State) (x : ℕ) (st : ℕ) (ok : ℕ) (bad : ℕ), s.Serving ∧ (s.ctx x).molt.agree = some (st, ok, bad) ∧ st = stOk ∧ ok = (s.ctx x).molt.group.length ∧ bad = 0 ∧ (s.ctx x).molt.phase = MoltPh.parity) ∧
    (∃ (s : Machine.State) (x : ℕ), s.Serving ∧ (s.ctx x).molt.phase ∈ [MoltPh.hold, MoltPh.transfer, MoltPh.verify, MoltPh.parity]) ∧
    (∃ (s : Machine.State) (x : ℕ), s.Serving ∧ (s.ctx x).molt.phase ∈ [MoltPh.hold, MoltPh.transfer, MoltPh.verify, MoltPh.parity]) ∧
    (∃ (s : Machine.State) (x : ℕ), s.Serving ∧ (s.ctx x).molt.phase = MoltPh.switch ∧ (s.ctx x).molt.waits = true) ∧
    (∃ (s : Machine.State) (x : ℕ), s.Serving ∧ s.ended = [] ∧ (s.ctx x).molt.phase = MoltPh.none) ∧
    (∃ (s : Machine.State) (x : ℕ) (st : ℕ) (j : Job), (s.ctx x).molt.phase ∈ [MoltPh.hold, MoltPh.transfer, MoltPh.verify, MoltPh.parity] ∧ ((s.ctx x).molt.recover = true ∨ st = stPeerLost ∨ st = stTimeout) ∧ (s.ctx x).molt.phase = MoltPh.hold ∧ (s.ctx x).molt.job = some j) ∧
    (∃ (s : Machine.State) (x : ℕ) (st : ℕ) (old : Job), (s.ctx x).molt.phase ∈ [MoltPh.hold, MoltPh.transfer, MoltPh.verify, MoltPh.parity] ∧ (s.ctx x).molt.recover = false ∧ st ≠ stPeerLost ∧ st ≠ stTimeout ∧ (s.ctx x).molt.fresh = false ∧ (s.ctx x).molt.old = some old) :=
  ⟨⟨on, 0, { fresh := true }, by decide +kernel, by decide +kernel, by decide +kernel, by decide +kernel, Or.inl rfl⟩,
   ⟨on, 0, { sMin := 1 }, by decide +kernel, by decide +kernel, by decide +kernel, by decide +kernel, Or.inr (by decide +kernel)⟩,
   ⟨on, 0, { sMin := 2 }, by decide +kernel⟩,
   ⟨ctx0 (fun c => { c with st := .molting, job := none, molt := { phase := .hold, job := some job0 } }) on, 0, job0, rfl, by decide +kernel, by decide +kernel, by decide +kernel, by decide +kernel, (fun _ h => nomatch h), by decide +kernel⟩,
   ⟨ctx0 (fun c => { c with st := .molting, job := some job0, molt := { phase := .transfer, old := some job0 } }) on, 0, job0, modMolt 0 (fun m => { m with begun := true }) (ctx0 (fun c => { c with st := .molting, job := some job0, molt := { phase := .transfer, old := some job0 } }) on), job0, rfl, by decide +kernel, by decide +kernel, by decide +kernel, by decide +kernel, rfl, rfl⟩,
   ⟨ctx0 (fun c => { c with st := .molting, job := some job0, molt := { phase := .transfer, old := some job0, recover := true, checkpoint := true } }) on, 0, job0, job0, rfl, by decide +kernel⟩,
   ⟨ctx0 (fun c => { c with st := .molting, job := some job0, molt := { phase := .transfer, old := some job0, recover := true, entries := [{ dev := 0, step := 4, gens := [(4, 2)] }, { dev := 1, step := 4, gens := [(4, 2)] }, { dev := 2, step := 4, gens := [(4, 2)] }] } }) on, 0, job0, job0, rfl, by decide +kernel⟩,
   ⟨ctx0 (fun c => { c with st := .molting, job := some job0, molt := { phase := .transfer, old := some ({ job0 with members := [0, 1, 2], sched := [{ kind := 1, phase := 0, period := 1, arg := 0, first := 0 }] }), recover := true, entries := [{ dev := 0, step := 4, gens := [(4, 2)] }, { dev := 1, step := 4, gens := [(4, 2)] }, { dev := 2, step := 4, gens := [(4, 2)] }] } }) on, 0, job0, { job0 with members := [0, 1, 2], sched := [{ kind := 1, phase := 0, period := 1, arg := 0, first := 0 }] }, 4, rfl, by decide +kernel⟩,
   ⟨on, 3, { job0 with members := [0, 1, 2], sched := [{ kind := 1, phase := 0, period := 1, arg := 0, first := 0 }] }, { member := 1 }, by decide +kernel⟩,
   ⟨ctx0 (fun c => { c with molt := { phase := .verify, group := [0, 3], agree := some (stTimeout, 2, 0) } }) on, 0, stTimeout, 2, 0, rfl, by decide +kernel⟩,
   ⟨ctx0 (fun c => { c with molt := { phase := .verify, group := [0, 3], agree := some (stOk, 1, 0) } }) on, 0, stOk, 1, 0, rfl, by decide +kernel, rfl, by decide +kernel⟩,
   ⟨ctx0 (fun c => { c with molt := { phase := .parity, group := [0, 3], agree := some (stOk, 2, 1) } }) on, 0, stOk, 2, 1, rfl, by decide +kernel, rfl, rfl, by decide +kernel⟩,
   ⟨ctx0 (fun c => { c with molt := { phase := .transfer, group := [0, 3], agree := some (stOk, 2, 0) } }) on, 0, stOk, 2, 0, rfl, by decide +kernel, rfl, rfl, rfl, by decide +kernel⟩,
   ⟨ctx0 (fun c => { c with molt := { phase := .verify, group := [0, 3], agree := some (stOk, 2, 0) } }) on, 0, stOk, 2, 0, rfl, by decide +kernel, rfl, rfl, rfl, by decide +kernel⟩,
   ⟨ctx0 (fun c => { c with molt := { phase := .parity, group := [0, 3], agree := some (stOk, 2, 0) } }) on, 0, stOk, 2, 0, rfl, by decide +kernel, rfl, rfl, rfl, by decide +kernel⟩,
   ⟨ctx0 (fun c => { c with st := .molting, job := none, molt := { phase := .hold } }) on, 0, rfl, by decide +kernel⟩,
   ⟨ctx0 (fun c => { c with st := .molting, job := none, molt := { phase := .parity } }) on, 0, rfl, by decide +kernel⟩,
   ⟨ctx0 (fun c => { c with st := .molting, job := none, molt := { phase := .switch, waits := true } }) on, 0, rfl, by decide +kernel⟩,
   ⟨on, 0, rfl, by decide +kernel⟩,
   ⟨ctx0 (fun c => { c with st := .molting, job := none, molt := { phase := .hold, job := some job0 } }) on, 0, stTimeout, job0, by decide +kernel, Or.inr (Or.inr rfl), by decide +kernel⟩,
   ⟨ctx0 (fun c => { c with st := .molting, job := none, molt := { phase := .hold, old := some job0 } }) on, 0, stConflict, job0, by decide +kernel⟩⟩

theorem witness_LendingAndAmendments :
    (∃ (s : Machine.State) (msg : Bytes), s.Serving ∧ (leAt msg 0 1 ≠ 16 ∨ leAt msg 2 2 ≠ 32 ∨ (List.drop 8 msg).length < 32)) ∧
    (∃ (s : Machine.State) (msg : Bytes), s.Serving ∧ (leAt msg 0 1 ≠ 16 ∨ leAt msg 2 2 ≠ 32 ∨ (List.drop 8 msg).length < 32)) ∧
    (∃ (s : Machine.State) (dev : ℕ) (x : ℕ) (cur : Job) (msg : Bytes), s.Serving ∧ leAt msg 0 1 = 16 ∧ leAt msg 2 2 = 32 ∧ 32 ≤ (List.drop 8 msg).length ∧ convertCtx s (leAt (List.drop 8 msg) 0 4) = some x ∧ knownJob (s.ctx x) = some cur ∧ coordinator cur = some dev) ∧
    (∃ (s : Machine.State) (dev : ℕ) (x : ℕ) (cur : Job) (msg : Bytes), s.Serving ∧ leAt msg 0 1 = 16 ∧ leAt msg 2 2 = 32 ∧ 32 ≤ (List.drop 8 msg).length ∧ convertCtx s (leAt (List.drop 8 msg) 0 4) = some x ∧ knownJob (s.ctx x) = some cur ∧ coordinator cur ≠ some dev) ∧
    (∃ (s : Machine.State) (x : ℕ) (cur : Job) (d : Bytes) (l : Lend), cur.lend[leAt d 4 1]? = some l ∧ (s.ctx x).molt.phase ≠ MoltPh.none) ∧
    (∃ (s : Machine.State) (x : ℕ) (cur : Job) (d : Bytes) (l : Lend), cur.lend[leAt d 4 1]? = some l ∧ (s.ctx x).molt.phase = MoltPh.none ∧ (l.cells = true ∨ leAt d 16 4 ≤ cur.epoch)) ∧
    (∃ (s : Machine.State) (x : ℕ) (w : ℕ) (l : Lend) (cs : List ℕ), s.Serving ∧ windowOf s x w = some l ∧ l.cells = true ∧ (s.ctx x).molt.phase = MoltPh.none ∧ x ≠ l.serveCtx ∧ (cs = List.filter (fun c => (s.ctx x).owned.contains c) (lentCells s l)) ∧ l.startConv = false ∧ atIdle s x = true) ∧
    (∃ (s : Machine.State) (x : ℕ) (w : ℕ) (l : Lend) (cs : List ℕ), s.Serving ∧ windowOf s x w = some l ∧ l.cells = true ∧ (s.ctx x).molt.phase = MoltPh.none ∧ x ≠ l.serveCtx ∧ (cs = List.filter (fun c => (s.ctx x).owned.contains c) (lentCells s l)) ∧ l.startConv = true ∧ l.endConv = false ∧ l.draining = false) ∧
    (∃ (s : Machine.State) (x : ℕ) (w : ℕ) (l : Lend) (cs : List ℕ), s.Serving ∧ windowOf s x w = some l ∧ l.cells = true ∧ (s.ctx x).molt.phase = MoltPh.none ∧ x ≠ l.serveCtx ∧ (cs = List.filter (fun c => (s.ctx x).owned.contains c) (lentCells s l)) ∧ (l.startConv = true ∨ atIdle s x = false)) ∧
    (∃ (s : Machine.State) (x : ℕ) (w : ℕ) (l : Lend) (cs : List ℕ), windowOf s x w = some l ∧ l.cells = true ∧ l.draining = true ∧ l.endConv = false ∧ (s.ctx x).molt.phase = MoltPh.none ∧ x ≠ l.serveCtx ∧ (cs = List.filter (fun c => (s.ctx l.serveCtx).owned.contains c) (lentCells s l)) ∧ drained s l = false) ∧
    (∃ (s : Machine.State) (x : ℕ) (w : ℕ) (l : Lend) (cs : List ℕ), windowOf s x w = some l ∧ l.cells = true ∧ l.draining = true ∧ l.endConv = false ∧ (s.ctx x).molt.phase = MoltPh.none ∧ x ≠ l.serveCtx ∧ (cs = List.filter (fun c => (s.ctx l.serveCtx).owned.contains c) (lentCells s l)) ∧ drained s l = true) ∧
    (∃ (s : Machine.State) (x : ℕ) (w : ℕ) (l : Lend), s.Serving ∧ windowOf s x w = some l ∧ l.draining = false) ∧
    (∃ (s : Machine.State) (x : ℕ) (w : ℕ) (l : Lend), s.Serving ∧ windowOf s x w = some l ∧ l.draining = true) ∧
    (∃ (s : Machine.State) (path : ReqPath), s.Serving ∧ (∀ (n : ℕ), path = ReqPath.mgmt n → compDown s 3 = false)) ∧
    (∃ (s : Machine.State) (path : ReqPath), s.Serving ∧ (∀ (n : ℕ), path = ReqPath.mgmt n → compDown s 3 = false)) ∧
    (∃ (path : ReqPath) (y : ℕ), path = ReqPath.control y) ∧
    (∃ (path : ReqPath) (n : ℕ), path = ReqPath.mgmt n) :=
  ⟨⟨on, [0x10, 0, 32, 0, 0, 0, 0, 0] ++ zeros 31, rfl, Or.inr (Or.inr (by decide +kernel))⟩,
   ⟨on, [0x11, 0, 32, 0, 0, 0, 0, 0] ++ zeros 32, rfl, Or.inl (by decide +kernel)⟩,
   ⟨ctx0 (fun c => { c with st := .ready, job := some ({ job0 with lend := [{ cells := false, devices := [0], masks := [], serveCtx := 1, tStart := 100, tEnd := 200 }] }), owned := [3] }) on, 0, 0, { job0 with lend := [{ cells := false, devices := [0], masks := [], serveCtx := 1, tStart := 100, tEnd := 200 }] }, [0x10, 0, 32, 0, 0, 0, 0, 0] ++ le 4 5 ++ zeros 28, rfl, by decide +kernel⟩,
   ⟨ctx0 (fun c => { c with st := .ready, job := some ({ job0 with lend := [{ cells := false, devices := [0], masks := [], serveCtx := 1, tStart := 100, tEnd := 200 }] }), owned := [3] }) on, 3, 0, { job0 with lend := [{ cells := false, devices := [0], masks := [], serveCtx := 1, tStart := 100, tEnd := 200 }] }, [0x10, 0, 32, 0, 0, 0, 0, 0] ++ le 4 5 ++ zeros 28, rfl, by decide +kernel⟩,
   ⟨ctx0 (fun c => { c with st := .molting, job := none, molt := { phase := .hold } }) on, 0, { job0 with lend := [{ cells := false, devices := [0], masks := [], serveCtx := 1, tStart := 100, tEnd := 200 }] }, zeros 32, { cells := false, devices := [0], masks := [], serveCtx := 1, tStart := 100, tEnd := 200 }, by decide +kernel⟩,
   ⟨on, 0, { job0 with lend := [{ cells := false, devices := [0], masks := [], serveCtx := 1, tStart := 100, tEnd := 200 }] }, zeros 32, { cells := false, devices := [0], masks := [], serveCtx := 1, tStart := 100, tEnd := 200 }, by decide +kernel, by decide +kernel, Or.inr (by decide +kernel)⟩,
   ⟨ctx0 (fun c => { c with st := .ready, job := some ({ job0 with lend := [{ cells := true, devices := [], masks := [(0, 8)], serveCtx := 1, tStart := 100, tEnd := 200 }] }), owned := [3] }) on, 0, 0, { cells := true, devices := [], masks := [(0, 8)], serveCtx := 1, tStart := 100, tEnd := 200 }, [3], rfl, by decide +kernel⟩,
   ⟨ctx0 (fun c => { c with st := .ready, job := some ({ job0 with lend := [{ cells := true, devices := [], masks := [(0, 8)], serveCtx := 1, tStart := 100, tEnd := 200, startConv := true }] }), owned := [3] }) on, 0, 0, { cells := true, devices := [], masks := [(0, 8)], serveCtx := 1, tStart := 100, tEnd := 200, startConv := true }, [3], rfl, by decide +kernel⟩,
   ⟨ctx0 (fun c => { c with st := .ready, job := some ({ job0 with lend := [{ cells := true, devices := [], masks := [(0, 8)], serveCtx := 1, tStart := 100, tEnd := 200, startConv := true }] }), owned := [3] }) on, 0, 0, { cells := true, devices := [], masks := [(0, 8)], serveCtx := 1, tStart := 100, tEnd := 200, startConv := true }, [3], rfl, by decide +kernel, by decide +kernel, by decide +kernel, by decide +kernel, by decide +kernel, Or.inl rfl⟩,
   (by refine ⟨cell3 (fun k => { k with prog := some prog0 }) ((ctx0 (fun c => { c with st := .ready, job := some ({ job0 with lend := [{ cells := true, devices := [], masks := [(0, 8)], serveCtx := 1, tStart := 100, tEnd := 200, startConv := true, draining := true }] }), owned := [3] }) on).modCtx 1 (fun c => { c with owned := [3] })), 0, 0, { cells := true, devices := [], masks := [(0, 8)], serveCtx := 1, tStart := 100, tEnd := 200, startConv := true, draining := true }, [3], ?_, ?_, ?_, ?_, ?_, ?_, rfl, ?_⟩ <;> decide +kernel),
   (by refine ⟨(ctx0 (fun c => { c with st := .ready, job := some ({ job0 with lend := [{ cells := true, devices := [], masks := [(0, 8)], serveCtx := 1, tStart := 100, tEnd := 200, startConv := true, draining := true }] }), owned := [3] }) on).modCtx 1 (fun c => { c with owned := [3] }), 0, 0, { cells := true, devices := [], masks := [(0, 8)], serveCtx := 1, tStart := 100, tEnd := 200, startConv := true, draining := true }, [3], ?_, ?_, ?_, ?_, ?_, ?_, rfl, ?_⟩ <;> decide +kernel),
   ⟨ctx0 (fun c => { c with st := .ready, job := some ({ job0 with lend := [{ cells := true, devices := [], masks := [(0, 8)], serveCtx := 1, tStart := 100, tEnd := 200 }] }), owned := [3] }) on, 0, 0, { cells := true, devices := [], masks := [(0, 8)], serveCtx := 1, tStart := 100, tEnd := 200 }, rfl, by decide +kernel⟩,
   ⟨ctx0 (fun c => { c with st := .ready, job := some ({ job0 with lend := [{ cells := true, devices := [], masks := [(0, 8)], serveCtx := 1, tStart := 100, tEnd := 200, draining := true }] }), owned := [3] }) on, 0, 0, { cells := true, devices := [], masks := [(0, 8)], serveCtx := 1, tStart := 100, tEnd := 200, draining := true }, rfl, by decide +kernel⟩,
   ⟨on, .control 0, rfl, (fun _ h => nomatch h)⟩,
   ⟨fw on, .mgmt 1, rfl, (fun _ _ => by decide +kernel)⟩,
   ⟨.control 0, 0, rfl⟩,
   ⟨.mgmt 1, 1, rfl⟩⟩

theorem witness_OperatorRequests :
    (∃ (s : Machine.State) (n : ℕ), s.Serving ∧ isOperator s n = false) ∧
    (∃ (s : Machine.State) (n : ℕ), s.Serving ∧ isOperator s n = false) ∧
    (∃ (s : Machine.State) (n : ℕ) (o : Bytes × Bytes), s.Serving ∧ isOperator s n = true ∧ compDown s 3 = false ∧ ownerHashes s.sec = some o ∧ allEmpty s = true ∧ s.sec.owners.length < 4 ∧ s.sec.ownerNew = none) ∧
    (∃ (s : Machine.State) (n : ℕ) (o : Bytes × Bytes), s.Serving ∧ isOperator s n = true ∧ compDown s 3 = false ∧ ownerHashes s.sec = some o ∧ (allEmpty s = false ∨ 4 ≤ s.sec.owners.length ∨ s.sec.ownerNew ≠ none)) ∧
    (∃ (s : Machine.State) (n : ℕ) (o : Bytes × Bytes), s.Serving ∧ isOperator s n = true ∧ compDown s 3 = false ∧ ownerHashes s.sec = some o ∧ (allEmpty s = false ∨ 4 ≤ s.sec.owners.length ∨ s.sec.ownerNew ≠ none)) ∧
    (∃ (s : Machine.State) (n : ℕ) (o : Bytes × Bytes), s.Serving ∧ isOperator s n = true ∧ compDown s 3 = false ∧ ownerHashes s.sec = some o ∧ allEmpty s = false) ∧
    (∃ (s : Machine.State) (n : ℕ) (k : ℕ) (key : Bytes), s.Serving ∧ isOperator s n = true ∧ compDown s 3 = false ∧ k < 16 ∧ key ≠ []) ∧
    (∃ (s : Machine.State) (n : ℕ) (k : ℕ) (key : Bytes), s.Serving ∧ isOperator s n = true ∧ compDown s 3 = false ∧ (16 ≤ k ∨ key = [])) ∧
    (∃ (s : Machine.State) (n : ℕ) (k : ℕ) (key : Bytes), s.Serving ∧ isOperator s n = true ∧ compDown s 3 = false ∧ (16 ≤ k ∨ key = [])) ∧
    (∃ (s : Machine.State) (n : ℕ) (at_ : ℕ) (len : ℕ) (b : Bytes), s.Serving ∧ isOperator s n = true ∧ requestStatus s Requester.operator false at_ len = (stOk, none) ∧ readMem s at_ len = some b) ∧
    (∃ (s : Machine.State) (n : ℕ) (at_ : ℕ) (len : ℕ), s.Serving ∧ isOperator s n = true ∧ requestStatus s Requester.operator false at_ len = (stOk, none) ∧ readMem s at_ len = none) ∧
    (∃ (s : Machine.State) (n : ℕ) (at_ : ℕ) (len : ℕ), s.Serving ∧ isOperator s n = true ∧ requestStatus s Requester.operator false at_ len ≠ (stOk, none)) ∧
    (∃ (s : Machine.State) (n : ℕ) (kind : ℕ) (at_ : ℕ) (len : ℕ) (b : Bytes), s.Serving ∧ isOperator s n = true ∧ kind ∉ [2, 3, 4, 5] ∧ requestStatus s Requester.operator false at_ len = (stOk, some kind) ∧ readMem s at_ len = some b) ∧
    (∃ (s : Machine.State) (n : ℕ) (kind : ℕ) (at_ : ℕ) (len : ℕ), s.Serving ∧ isOperator s n = true ∧ kind ∉ [2, 3, 4, 5] ∧ requestStatus s Requester.operator false at_ len = (stOk, some kind) ∧ readMem s at_ len = none) ∧
    (∃ (s : Machine.State) (n : ℕ) (kind : ℕ) (at_ : ℕ) (len : ℕ), s.Serving ∧ isOperator s n = true ∧ kind ∉ [2, 3, 4, 5] ∧ requestStatus s Requester.operator false at_ len ≠ (stOk, some kind)) :=
  ⟨⟨on, 1, rfl, by decide +kernel⟩,
   ⟨on, 0, rfl, by decide +kernel⟩,
   ⟨owned1 id (oper (fw on)), 1, ([1], [2]), rfl, by decide +kernel⟩,
   ⟨owned1 (fun x => { x with ownerNew := some ([3], [4]) }) (oper (fw on)), 1, ([1], [2]), rfl, by decide +kernel, by decide +kernel, by decide +kernel, Or.inr (Or.inr (by decide +kernel))⟩,
   ⟨owned1 id (ctx0 (fun c => { c with st := .ready }) (oper (fw on))), 1, ([1], [2]), rfl, by decide +kernel, by decide +kernel, by decide +kernel, Or.inl (by decide +kernel)⟩,
   ⟨owned1 id (ctx0 (fun c => { c with st := .ready }) (oper (fw on))), 1, ([1], [2]), rfl, by decide +kernel⟩,
   ⟨oper (fw on), 1, 15, zeros 32, rfl, by decide +kernel⟩,
   ⟨oper (fw on), 1, 16, zeros 32, rfl, by decide +kernel, by decide +kernel, Or.inl (by decide +kernel)⟩,
   ⟨oper (fw on), 1, 0, [], rfl, by decide +kernel, by decide +kernel, Or.inr rfl⟩,
   ⟨oper (fw on), 1, crashSlot on 0, 2, zeros 2, rfl, by decide +kernel⟩,
   ⟨oper { fw on with poison := [crashSlot on 0 / 128] }, 1, crashSlot on 0, 32, rfl, by decide +kernel⟩,
   ⟨oper (fw on), 1, 0x80000, 2, rfl, by decide +kernel⟩,
   ⟨oper (fw on), 1, 0, 0x80000, 2, zeros 2, rfl, by decide +kernel⟩,
   ⟨oper { on with poison := [0x1000] }, 1, 0, 0x80000, 32, rfl, by decide +kernel⟩,
   ⟨oper (fw on), 1, 0, 0x80000, 0, rfl, by decide +kernel⟩⟩

theorem witness_SpdmResponds :
    (∃ (s : Machine.State) (p : SpdmPath) (offer : Bytes), s.pwr.st.isDark = false ∧ spdmUp s p = true ∧ s.sec.versioned.contains p = true ∧ bit (leAt offer 8 4) 6 = true ∧ bit (leAt offer 12 4) 2 = true) ∧
    (∃ (s : Machine.State) (p : SpdmPath) (offer : Bytes), s.pwr.st.isDark = false ∧ spdmUp s p = true ∧ s.sec.versioned.contains p = true ∧ (bit (leAt offer 8 4) 6 = false ∨ bit (leAt offer 12 4) 2 = false)) ∧
    (∃ (s : Machine.State) (p : SpdmPath) (offer : Bytes), s.pwr.st.isDark = false ∧ spdmUp s p = true ∧ s.sec.versioned.contains p = true ∧ (bit (leAt offer 8 4) 6 = false ∨ bit (leAt offer 12 4) 2 = false)) ∧
    (∃ (s : Machine.State) (p : SpdmPath), s.pwr.st.isDark = false ∧ spdmUp s p = true ∧ s.sec.versioned.contains p = false) ∧
    (∃ (s : Machine.State) (p : SpdmPath), s.pwr.st.isDark = false ∧ spdmUp s p = true ∧ s.sec.negotiated.contains p = false) ∧
    (∃ (s : Machine.State) (p : SpdmPath) (index : ℕ) (nonce : Bytes), s.pwr.st.isDark = false ∧ spdmUp s p = true ∧ s.sec.negotiated.contains p = true ∧ index ≠ 0 ∧ measIndices index ≠ [] ∧ List.length nonce = 32) ∧
    (∃ (s : Machine.State) (p : SpdmPath) (index : ℕ) (nonce : Bytes), s.pwr.st.isDark = false ∧ spdmUp s p = true ∧ s.sec.negotiated.contains p = true ∧ index ≠ 0 ∧ (measIndices index = [] ∨ List.length nonce ≠ 32)) ∧
    (∃ (s : Machine.State) (p : SpdmPath) (index : ℕ) (nonce : Bytes), s.pwr.st.isDark = false ∧ spdmUp s p = true ∧ s.sec.negotiated.contains p = true ∧ index ≠ 0 ∧ (measIndices index = [] ∨ List.length nonce ≠ 32)) ∧
    (∃ (s : Machine.State) (p : SpdmPath) (d : BitVec 256 × Machine.State), s.pwr.st.isDark = false ∧ spdmUp s p = true ∧ s.sec.negotiated.contains p = true ∧ s.sec.sessions.length < 16 ∧ d = takeDraw s) ∧
    (∃ (s : Machine.State) (p : SpdmPath), s.pwr.st.isDark = false ∧ spdmUp s p = true ∧ s.sec.negotiated.contains p = true ∧ 16 ≤ s.sec.sessions.length) ∧
    (∃ (s : Machine.State) (p : SpdmPath) (nonce : Bytes), s.pwr.st.isDark = false ∧ spdmUp s p = true ∧ s.sec.negotiated.contains p = true ∧ List.length nonce = 32) ∧
    (∃ (s : Machine.State) (sid : ℕ) (e : Session) (rsa : Bytes), s.pwr.st.isDark = false ∧ (List.find? (fun e => decide (e.id = sid)) s.sec.sessions = some e) ∧ spdmUp s e.path = true ∧ e.ready = false ∧ rsa ≠ []) ∧
    (∃ (s : Machine.State) (sid : ℕ) (op : ℕ) (e : Session), s.pwr.st.isDark = false ∧ (List.find? (fun e => decide (e.id = sid)) s.sec.sessions = some e) ∧ spdmUp s e.path = true ∧ e.ready = true ∧ 1 ≤ op ∧ op ≤ 3) ∧
    (∃ (s : Machine.State) (sid : ℕ) (op : ℕ) (e : Session), s.pwr.st.isDark = false ∧ (List.find? (fun e => decide (e.id = sid)) s.sec.sessions = some e) ∧ spdmUp s e.path = true ∧ e.ready = true ∧ (op = 0 ∨ 3 < op)) ∧
    (∃ (s : Machine.State), s.pwr.st.isDark = false) ∧
    (∃ (s : Machine.State) (p : SpdmPath) (dev : ℕ) (q : FjPkt), p = SpdmPath.fjorum dev ∧ (List.find? (fun r => decide (r.hdr.src = dev) && isCtl r 7) s.rxq = some q)) ∧
    (∃ (s : Machine.State) (dev : ℕ), (List.find? (fun r => decide (r.hdr.src = dev) && isCtl r 7) s.rxq = none)) ∧
    (∃ (s : Machine.State) (u : Machine.State) (dev : ℕ), s.Serving ∧ u = takeSpdm (SpdmPath.fjorum dev) s ∧ (s.peer dev).readmit = none) ∧
    (∃ (s : Machine.State) (u : Machine.State) (dev : ℕ), s.Serving ∧ u = takeSpdm (SpdmPath.fjorum dev) s ∧ (compDown s 3 = true ∨ hubStalled s = true)) ∧
    (∃ (s : Machine.State) (u : Machine.State) (dev : ℕ) (inc : ℕ) (step : ℕ) (msg : Bytes), s.Serving ∧ u = takeSpdm (SpdmPath.fjorum dev) s ∧ (s.peer dev).readmit = some (step, inc) ∧ compDown s 3 = false ∧ hubStalled s = false ∧ step = 1 ∧ leAt msg 1 1 = 4) ∧
    (∃ (s : Machine.State) (u : Machine.State) (dev : ℕ) (inc : ℕ) (step : ℕ) (msg : Bytes), s.Serving ∧ u = takeSpdm (SpdmPath.fjorum dev) s ∧ (s.peer dev).readmit = some (step, inc) ∧ compDown s 3 = false ∧ hubStalled s = false ∧ step = 1 ∧ leAt msg 1 1 = 97) ∧
    (∃ (s : Machine.State) (u : Machine.State) (dev : ℕ) (inc : ℕ) (step : ℕ) (msg : Bytes), s.Serving ∧ u = takeSpdm (SpdmPath.fjorum dev) s ∧ (s.peer dev).readmit = some (step, inc) ∧ compDown s 3 = false ∧ hubStalled s = false ∧ step = 1 ∧ leAt msg 1 1 = 99) ∧
    (∃ (s : Machine.State) (u : Machine.State) (dev : ℕ) (inc : ℕ) (step : ℕ) (msg : Bytes), s.Serving ∧ u = takeSpdm (SpdmPath.fjorum dev) s ∧ (s.peer dev).readmit = some (step, inc) ∧ compDown s 3 = false ∧ hubStalled s = false ∧ step = 2 ∧ leAt msg 1 1 = 2 ∧ leAt msg 6 2 = 0) ∧
    (∃ (s : Machine.State) (u : Machine.State) (dev : ℕ) (inc : ℕ) (step : ℕ) (msg : Bytes) (r : Bytes), s.Serving ∧ u = takeSpdm (SpdmPath.fjorum dev) s ∧ (s.peer dev).readmit = some (step, inc) ∧ compDown s 3 = false ∧ hubStalled s = false ∧ step = 3 ∧ leAt msg 1 1 = 96 ∧ blockIn msg 240 = some r) ∧
    (∃ (s : Machine.State) (u : Machine.State) (dev : ℕ) (inc : ℕ) (step : ℕ) (msg : Bytes), s.Serving ∧ u = takeSpdm (SpdmPath.fjorum dev) s ∧ (s.peer dev).readmit = some (step, inc) ∧ compDown s 3 = false ∧ hubStalled s = false ∧ step ≠ 1 ∧ leAt msg 1 1 = 127) :=
  ⟨⟨secured (fun x => { x with negotiated := [.mgmt], versioned := [.mgmt] }) (fw on), .mgmt, zeros 8 ++ le 4 64 ++ le 4 4, by decide +kernel⟩,
   ⟨secured (fun x => { x with negotiated := [.mgmt], versioned := [.mgmt] }) (fw on), .mgmt, zeros 8 ++ le 4 64 ++ le 4 8, by decide +kernel, by decide +kernel, by decide +kernel, Or.inr (by decide +kernel)⟩,
   ⟨secured (fun x => { x with negotiated := [.mgmt], versioned := [.mgmt] }) (fw on), .mgmt, zeros 8 ++ le 4 32 ++ le 4 4, by decide +kernel, by decide +kernel, by decide +kernel, Or.inl (by decide +kernel)⟩,
   ⟨fw on, .fjorum 3, by decide +kernel⟩,
   ⟨fw on, .mgmt, by decide +kernel⟩,
   ⟨secured (fun x => { x with negotiated := [.mgmt], versioned := [.mgmt] }) (fw on), .mgmt, 0xFF, zeros 32, by decide +kernel⟩,
   ⟨secured (fun x => { x with negotiated := [.mgmt], versioned := [.mgmt] }) (fw on), .mgmt, 7, zeros 32, by decide +kernel, by decide +kernel, by decide +kernel, by decide +kernel, Or.inl rfl⟩,
   ⟨secured (fun x => { x with negotiated := [.mgmt], versioned := [.mgmt] }) (fw on), .mgmt, 1, zeros 31, by decide +kernel, by decide +kernel, by decide +kernel, by decide +kernel, Or.inr (by decide +kernel)⟩,
   ⟨secured (fun x => { x with negotiated := [.mgmt], versioned := [.mgmt] }) (fw on), .mgmt, takeDraw (secured (fun x => { x with negotiated := [.mgmt], versioned := [.mgmt] }) (fw on)), by decide +kernel, by decide +kernel, by decide +kernel, by decide +kernel, rfl⟩,
   ⟨secured (fun x => { x with negotiated := [.mgmt], sessions := List.replicate 16 { id := 1, path := .mgmt } }) (fw on), .mgmt, by decide +kernel⟩,
   ⟨secured (fun x => { x with negotiated := [.mgmt], versioned := [.mgmt] }) (fw on), .mgmt, zeros 32, by decide +kernel⟩,
   ⟨secured (fun x => { x with sessions := [{ id := 1, path := .mgmt, ready := false }] }) (fw on), 1, { id := 1, path := .mgmt, ready := false }, [1], by decide +kernel⟩,
   ⟨secured (fun x => { x with sessions := [{ id := 1, path := .mgmt, ready := true }] }) (fw on), 1, 3, { id := 1, path := .mgmt, ready := true }, by decide +kernel⟩,
   ⟨secured (fun x => { x with sessions := [{ id := 1, path := .mgmt, ready := true }] }) (fw on), 1, 4, { id := 1, path := .mgmt, ready := true }, by decide +kernel, by decide +kernel, by decide +kernel, by decide +kernel, Or.inr (by decide +kernel)⟩,
   ⟨on, by decide +kernel⟩,
   ⟨{ on with rxq := [ctl 7 []] }, .fjorum 3, 3, ctl 7 [], rfl, by decide +kernel⟩,
   ⟨on, 3, by decide +kernel⟩,
   ⟨fw on, takeSpdm (.fjorum 3) (fw on), 3, rfl, rfl, by decide +kernel⟩,
   ⟨hub1 (fun h => { h with comps := List.replicate 5 { st := 3 } }) on, takeSpdm (.fjorum 3) (hub1 (fun h => { h with comps := List.replicate 5 { st := 3 } }) on), 3, rfl, rfl, Or.inl (by decide +kernel)⟩,
   ⟨peer3 (fun p => { p with readmit := some (1, 7) }) (fw on), takeSpdm (.fjorum 3) (peer3 (fun p => { p with readmit := some (1, 7) }) (fw on)), 3, 7, 1, [0x12, 4], rfl, rfl, by decide +kernel, by decide +kernel, by decide +kernel, rfl, by decide +kernel⟩,
   ⟨peer3 (fun p => { p with readmit := some (1, 7) }) (fw on), takeSpdm (.fjorum 3) (peer3 (fun p => { p with readmit := some (1, 7) }) (fw on)), 3, 7, 1, [0x12, 0x61], rfl, rfl, by decide +kernel, by decide +kernel, by decide +kernel, rfl, by decide +kernel⟩,
   ⟨peer3 (fun p => { p with readmit := some (1, 7) }) (fw on), takeSpdm (.fjorum 3) (peer3 (fun p => { p with readmit := some (1, 7) }) (fw on)), 3, 7, 1, [0x12, 0x63], rfl, rfl, by decide +kernel, by decide +kernel, by decide +kernel, rfl, by decide +kernel⟩,
   ⟨peer3 (fun p => { p with readmit := some (2, 7) }) (fw on), takeSpdm (.fjorum 3) (peer3 (fun p => { p with readmit := some (2, 7) }) (fw on)), 3, 7, 2, [0x12, 2, 0, 0, 0, 0, 0, 0], rfl, rfl, by decide +kernel, by decide +kernel, by decide +kernel, rfl, by decide +kernel⟩,
   ⟨peer3 (fun p => { p with readmit := some (3, 7) }) (fw on), takeSpdm (.fjorum 3) (peer3 (fun p => { p with readmit := some (3, 7) }) (fw on)), 3, 7, 3, [0x12, 0x60, 0, 0, 1, 0, 0, 0, 240, 0, 0, 0, 0, 2, 0, 7, 8], [7, 8], rfl, rfl, by decide +kernel, by decide +kernel, by decide +kernel, rfl, by decide +kernel⟩,
   ⟨peer3 (fun p => { p with readmit := some (2, 7) }) (fw on), takeSpdm (.fjorum 3) (peer3 (fun p => { p with readmit := some (2, 7) }) (fw on)), 3, 7, 2, [0x12, 0x7F], rfl, rfl, by decide +kernel⟩⟩

end Sys2Proof.Tests
end

section
/-! PROOFS. How an element of a block format decodes (R48 to R54): a GBF element is the sign and the magnitude of its code unless the code
is a NaN or an infinity; a GBI element is the two's complement integer of its code unless that is the most negative one. -/
namespace Sys2Proof.Machine

/-! ### Codes of a fixed width -/

/-- Bit `n` of a code of `n + 1` bits, its sign. -/
theorem bit_eq_decide_le {n code : Nat} (h : code < 2 ^ (n + 1)) : bit code n = decide (2 ^ n ≤ code) := by
  have hq : code / 2 ^ n < 2 := Nat.div_lt_of_lt_mul (Nat.pow_succ 2 n ▸ h)
  have hone : 1 ≤ code / 2 ^ n ↔ 2 ^ n ≤ code := by rw [Nat.le_div_iff_mul_le (Nat.two_pow_pos n), Nat.one_mul]
  rw [bit, Nat.mod_eq_of_lt hq, decide_eq_decide, ← hone]
  exact Nat.le_antisymm_iff.trans (and_iff_right (Nat.le_of_lt_succ hq))

theorem eq_zero_or_top_of_mod_eq_zero {n code : Nat} (h : code < 2 ^ (n + 1)) (hm : code % 2 ^ n = 0) :
    code = 0 ∨ code = 2 ^ n := by
  obtain ⟨k, rfl⟩ := Nat.dvd_of_mod_eq_zero hm
  have hk : k < 2 := Nat.lt_of_mul_lt_mul_left (Nat.pow_succ 2 n ▸ h)
  interval_cases k <;> simp

theorem toSigned_of_lt {n x : Nat} (h : x < 2 ^ n) :
    toSigned n x = if x < 2 ^ (n - 1) then (x : Int) else (x : Int) - 2 ^ n := by
  simp [toSigned, Nat.mod_eq_of_lt h]

/-- Only the top bit alone reads as the most negative integer. -/
theorem toSigned_eq_min_iff {n x : Nat} (h : x < 2 ^ (n + 1)) : toSigned (n + 1) x = -2 ^ n ↔ x = 2 ^ n := by
  rw [toSigned_of_lt h, Nat.add_sub_cancel, pow_succ]
  have hcast : ((2 ^ n : Nat) : Int) = 2 ^ n := by norm_cast
  have hpos : 0 < 2 ^ n := Nat.two_pow_pos n
  split <;> omega

theorem natAbs_toSigned_lt {n x : Nat} (h : x < 2 ^ (n + 1)) (hne : x ≠ 2 ^ n) : (toSigned (n + 1) x).natAbs < 2 ^ n := by
  rw [toSigned_of_lt h, Nat.add_sub_cancel, pow_succ]
  have hcast : ((2 ^ n : Nat) : Int) = 2 ^ n := by norm_cast
  rw [pow_succ] at h
  split <;> omega

/-! ### GBF -/

/-- Fraction bits of a GBF element of width `w` (R48). -/
def gbfFrac (w : Nat) : Int := if w = 8 then 6 else 2

section
variable {S side i code : Nat}

/-- The sign bit alone is NaN, under every scale byte (R50, R51). -/
theorem decGbf_signOnly_isNan (n : Nat) : (decGbf (n + 1) S side i (2 ^ n)).isNan = true := by
  have hsign : bit (2 ^ n) n = true := by simp [bit]
  simp [decGbf, hsign, vNan, Val.isNan]

theorem decGbf_eight_inf (hS : S ≤ 0xFE) (hc : code % 128 = 127) : decGbf 8 S side i code = .inf (bit code 7) := by
  have hs : S ≠ 0xFF := by omega
  simp [decGbf, hs, hc]

theorem decGbf_zero (w : Nat) (hS : S ≤ 0xFE) : decGbf w S side i 0 = vZero := by
  have hs : S ≠ 0xFF := by omega
  simp [decGbf, hs, bit]

/-- A finite code with a nonzero magnitude is that signed magnitude × 2^(S − 127 − u − f) (R48). -/
theorem decGbf_nonzero {w : Nat} (h1 : 1 ≤ S) (hS : S ≤ 0xFE) (hm : code % 2 ^ (w - 1) ≠ 0)
    (hinf : w = 8 → code % 2 ^ (w - 1) ≠ 127) :
    decGbf w S side i code = .fin (bit code (w - 1)) (code % 2 ^ (w - 1)) ((S : Int) - 127 - micro side i - gbfFrac w) := by
  have hs : S ≠ 0xFF := by omega
  have hs0 : S ≠ 0 := by omega
  have hni : (decide (w = 8) && decide (code % 2 ^ (w - 1) = 127)) = false := by simpa using hinf
  simp [decGbf, hs, hs0, hm, hni, gbfFrac]

/-- Every code of `n + 1` bits but the NaN and the infinities is finite. Zero is plus zero, whatever its exponent. -/
theorem decGbf_finite {n : Nat} (h1 : 1 ≤ S) (hS : S ≤ 0xFE) (hc : code < 2 ^ (n + 1)) (hnan : code ≠ 2 ^ n)
    (hinf : n + 1 = 8 → code % 2 ^ n ≠ 127) :
    ∃ e, decGbf (n + 1) S side i code = .fin (decide (2 ^ n ≤ code) && decide (0 < code % 2 ^ n)) (code % 2 ^ n) e ∧
      (0 < code % 2 ^ n → e = (S : Int) - 127 - micro side i - gbfFrac (n + 1)) := by
  by_cases hm : code % 2 ^ n = 0
  · obtain rfl : code = 0 := (eq_zero_or_top_of_mod_eq_zero hc hm).resolve_right hnan
    exact ⟨0, by simp [decGbf_zero _ hS, vZero]⟩
  · refine ⟨_, ?_, fun _ => rfl⟩
    rw [decGbf_nonzero h1 hS hm hinf]
    simp [bit_eq_decide_le hc, Nat.pos_of_ne_zero hm]

end

/-! ### GBI -/

/-- `ofInt i` holds the sign and the magnitude of `i`. -/
theorem signed_natAbs (i : Int) : (if decide (i < 0) then -(i.natAbs : Int) else i.natAbs) = i := by
  simp only [decide_eq_true_eq]
  split <;> omega

section
variable {w n x code : Nat}

theorem decGbi_marker_isNan : (decGbi w (n + 1) x (2 ^ n)).isNan = true := by
  have hi : toSigned (n + 1) (2 ^ n) = -2 ^ n := (toSigned_eq_min_iff (Nat.pow_lt_pow_succ Nat.one_lt_two)).mpr rfl
  simp [decGbi, hi, vNan, Val.isNan]

theorem decGbi_eq_ofInt (h1 : 1 ≤ x) (hx : x ≤ 0xFE) (hc : code < 2 ^ (n + 1)) (hne : code ≠ 2 ^ n) :
    decGbi w (n + 1) x code = ofInt (toSigned (n + 1) code) ((x : Int) - 127 - ((w : Int) - 1)) := by
  have hx0 : x ≠ 0 := by omega
  have hxf : ¬ 0xFF ≤ x := by omega
  have hi : toSigned (n + 1) code ≠ -2 ^ n := (toSigned_eq_min_iff hc).not.mpr hne
  simp [decGbi, hx0, hxf, hi]

/-- Every code but the marker is its two's complement integer × 2^(x − 127 − (w − 1)) (R54). -/
theorem decGbi_finite (h1 : 1 ≤ x) (hx : x ≤ 0xFE) (hc : code < 2 ^ (n + 1)) (hne : code ≠ 2 ^ n) :
    ∃ neg m, decGbi w (n + 1) x code = .fin neg m ((x : Int) - 127 - ((w : Int) - 1)) ∧ m < 2 ^ n ∧
      (if neg then -(m : Int) else m) = (if code < 2 ^ n then (code : Int) else (code : Int) - 2 ^ (n + 1)) :=
  ⟨_, _, decGbi_eq_ofInt h1 hx hc hne, natAbs_toSigned_lt hc hne, (signed_natAbs _).trans (toSigned_of_lt hc)⟩

end

/-! ### The statement -/

/-- Settles O30: each format is a case of `decGbf` or `decGbi`, by its width. -/
theorem elementsDecode : Obligations.ElementsDecode := by
  refine ⟨?gbf8, ?gbf4, ?gbi⟩
  case gbf8 =>
    intro S side i code h1 hS hc
    exact ⟨fun hmag hnan => decGbf_finite (n := 7) h1 hS hc hnan (fun _ => by omega),
      decGbf_eight_inf hS rfl, decGbf_eight_inf hS rfl, decGbf_signOnly_isNan 7⟩
  case gbf4 =>
    intro S side i code h1 hS hc
    exact ⟨fun hnan => decGbf_finite (n := 3) h1 hS hc hnan nofun, decGbf_signOnly_isNan 3⟩
  case gbi =>
    intro f w x side i code hf h1 hx hc
    simp only [List.mem_cons, Prod.mk.injEq, List.not_mem_nil, or_false] at hf
    obtain ⟨rfl, rfl⟩ | ⟨rfl, rfl⟩ := hf
    · exact ⟨fun h => h ▸ decGbi_marker_isNan (n := 15), decGbi_finite (n := 15) h1 hx hc⟩
    · exact ⟨fun h => h ▸ decGbi_marker_isNan (n := 23), decGbi_finite (n := 23) h1 hx hc⟩

end Sys2Proof.Machine
end

section
/-! PROOFS. The barrier's decision (R242): what a set of votes decides, said once of `decideVotes`, and what the device does with the decision
once it holds the vote of every member. -/
namespace Sys2Proof.Machine

/-! ### Sorting by a key -/

theorem insertBy_key_eq_orderedInsert {α : Type} (f : α → Nat) (a : α) (l : List α) :
    insertBy (fun a b => decide (f a < f b)) a l = l.orderedInsert (f ⁻¹'o (· ≤ ·)) a := by
  induction l with
  | nil => rfl
  | cons b l ih =>
    by_cases h : f b < f a
    · simp [insertBy, Order.Preimage, h, ih, Nat.not_le_of_lt h]
    · simp [insertBy, Order.Preimage, h, Nat.le_of_not_lt h]

/-- The model's sort by a number is Mathlib's insertion sort. -/
theorem sortBy_key_eq_insertionSort {α : Type} (f : α → Nat) (l : List α) :
    sortBy (fun a b => decide (f a < f b)) l = l.insertionSort (f ⁻¹'o (· ≤ ·)) := by
  induction l with
  | nil => rfl
  | cons a l ih => rw [sortBy, ih, insertBy_key_eq_orderedInsert, List.insertionSort_cons]

@[simp] theorem mem_sortBy_key {α : Type} {f : α → Nat} {l : List α} {a : α} :
    a ∈ sortBy (fun a b => decide (f a < f b)) l ↔ a ∈ l := by
  rw [sortBy_key_eq_insertionSort, List.mem_insertionSort]

/-- The head of a list sorted by a number has the least of them. -/
theorem le_of_sortBy_key_eq_cons {α : Type} {f : α → Nat} {l m : List α} {a b : α}
    (h : sortBy (fun a b => decide (f a < f b)) l = a :: m) (hb : b ∈ l) : f a ≤ f b := by
  have : Std.Total (f ⁻¹'o (· ≤ ·)) := ⟨fun a b => Nat.le_total (f a) (f b)⟩
  have hsorted := List.pairwise_insertionSort (f ⁻¹'o (· ≤ ·)) l
  rw [← sortBy_key_eq_insertionSort, h, List.pairwise_cons] at hsorted
  rw [← mem_sortBy_key (f := f), h, List.mem_cons] at hb
  obtain rfl | hb := hb
  · exact le_rfl
  · exact hsorted.1 b hb

/-! ### What a set of votes decides -/

/-- A FAIL vote of the least member index among the FAIL votes (R242). -/
def LowestFail (vs : List Vote) (v : Vote) : Prop :=
  v ∈ vs ∧ v.vote = 2 ∧ ∀ w ∈ vs, w.vote = 2 → v.member ≤ w.member

/-- Two votes of the set carry different header checks (R242). -/
abbrev ChecksDiffer (vs : List Vote) : Prop := ∃ v ∈ vs, ∃ w ∈ vs, v.check ≠ w.check

/-- The model compares each check with the first vote's, which says the same as comparing each two. -/
theorem any_check_ne_head_iff (vs : List Vote) :
    vs.any (fun v => decide (v.check ≠ (vs.head?.map (·.check)).getD [])) = true ↔ ChecksDiffer vs := by
  cases vs with
  | nil => simp [ChecksDiffer]
  | cons a l =>
    rw [List.any_eq_true]
    constructor
    · rintro ⟨v, hv, hne⟩
      exact ⟨v, hv, a, List.mem_cons_self, of_decide_eq_true hne⟩
    · rintro ⟨v, hv, w, hw, hne⟩
      by_contra hno
      have hall : ∀ u ∈ a :: l, u.check = a.check := fun u hu => by_contra fun h => hno ⟨u, hu, decide_eq_true h⟩
      exact hne ((hall v hv).trans (hall w hw).symm)

/-- R242's order, said of the set of votes alone: a FAIL decides first, else the checks, the kind of the step and NONFINITE do. -/
theorem decideVotes_cases (kind : StepKind) (vs : List Vote) :
    (∃ v, LowestFail vs v ∧ decideVotes kind vs = .abandon v.status) ∨
    ((∀ v ∈ vs, v.vote ≠ 2) ∧ decideVotes kind vs =
      if ChecksDiffer vs then .abandon stInternal
      else if kind = .rediscovery then .rediscover
      else if ∃ v ∈ vs, v.vote = 1 then .skip
      else .update) := by
  unfold decideVotes
  split
  next v l hsort =>
    have hv : v ∈ vs.filter (fun v => v.vote = 2) := by
      rw [← mem_sortBy_key (f := Vote.member), hsort]
      exact List.mem_cons_self
    obtain ⟨hmem, hfail⟩ : v ∈ vs ∧ v.vote = 2 := by simpa using hv
    exact .inl ⟨v, ⟨hmem, hfail, fun w hw hwf => le_of_sortBy_key_eq_cons hsort (by simp [hw, hwf])⟩, rfl⟩
  next hsort =>
    refine .inr ⟨fun v hv hfail => ?_, if_congr (any_check_ne_head_iff vs) rfl (if_congr .rfl rfl (if_congr (by simp) rfl rfl))⟩
    have hin : v ∈ sortBy (fun (a b : Vote) => decide (a.member < b.member)) (vs.filter (fun v => v.vote = 2)) := by
      simp [hv, hfail]
    rw [hsort] at hin
    exact List.not_mem_nil hin

theorem decideVotes_of_fail (kind : StepKind) {vs : List Vote} (h : ∃ v ∈ vs, v.vote = 2) :
    ∃ v, LowestFail vs v ∧ decideVotes kind vs = .abandon v.status := by
  obtain hfail | ⟨hno, -⟩ := decideVotes_cases kind vs
  · exact hfail
  · obtain ⟨v, hv, hv2⟩ := h
    exact absurd hv2 (hno v hv)

theorem decideVotes_of_no_fail (kind : StepKind) {vs : List Vote} (h : ∀ v ∈ vs, v.vote ≠ 2) :
    decideVotes kind vs =
      if ChecksDiffer vs then .abandon stInternal
      else if kind = .rediscovery then .rediscover
      else if ∃ v ∈ vs, v.vote = 1 then .skip
      else .update := by
  obtain ⟨v, ⟨hv, hfail, -⟩, -⟩ | ⟨-, heq⟩ := decideVotes_cases kind vs
  · exact absurd hfail (h v hv)
  · exact heq

/-- Two lists that hold the same votes, one for each member, decide the same: order and repeats do not count (R242). -/
theorem decideVotes_eq_of_mem_iff (kind : StepKind) {vs ws : List Vote} (hmem : ∀ v, v ∈ vs ↔ v ∈ ws)
    (hone : ∀ v ∈ vs, ∀ w ∈ vs, v.member = w.member → v = w) : decideVotes kind vs = decideVotes kind ws := by
  by_cases hfail : ∃ v ∈ vs, v.vote = 2
  · obtain ⟨v, ⟨hv, hv2, hvle⟩, hvd⟩ := decideVotes_of_fail kind hfail
    obtain ⟨w, ⟨hw, hw2, hwle⟩, hwd⟩ := decideVotes_of_fail kind (vs := ws) (by simpa only [← hmem] using hfail)
    have hw : w ∈ vs := (hmem w).2 hw
    have heq : v = w := hone v hv w hw (le_antisymm (hvle w hw hw2) (hwle v ((hmem v).1 hv) hv2))
    rw [hvd, hwd, heq]
  · have hno : ∀ v ∈ vs, v.vote ≠ 2 := fun v hv h => hfail ⟨v, hv, h⟩
    rw [decideVotes_of_no_fail kind hno, decideVotes_of_no_fail kind (vs := ws) (fun v hv => hno v ((hmem v).2 hv))]
    exact if_congr (by simp only [ChecksDiffer, hmem]) rfl (if_congr .rfl rfl (if_congr (by simp only [hmem]) rfl rfl))

/-! ### The barrier completes when every member's vote is held -/

theorem tryDecide_of_vote_missing {s : State} {x m : Nat} (hm : m < (jobOf s x).members.length)
    (hno : ∀ v ∈ votesNow (s.sl x), v.member ≠ m) : tryDecide x s = s := by
  have hnot : (List.range (jobOf s x).members.length).all (fun m => (votesNow (s.sl x)).any (fun v => v.member = m)) = false := by
    simp only [List.all_eq_false, List.mem_range]
    exact ⟨m, hm, by simpa using hno⟩
  simp [tryDecide, hnot]

/-- The completing barrier acts on its decision: an ABANDON ends the step, each other one is kept for UPDATE to begin (R235, R242). -/
theorem tryDecide_of_votes_held {s : State} {x : Nat} (hphase : (s.sl x).phase = .commit) (hnone : (s.sl x).decision = none)
    (hall : ∀ m, m < (jobOf s x).members.length → ∃ v ∈ votesNow (s.sl x), v.member = m) :
    tryDecide x s =
      match decideVotes (s.sl x).kind (votesNow (s.sl x)) with
      | .abandon st => abandonStep x st true (ffEvent 0x0110 1 18 (myMember s x) (some x) [3, BitVec.ofNat 8 st] s)
      | d => tryUpdate x (endBarrier x (if d = .skip then stFlagged else stOk) (decCode d)
          ((ffEvent 0x0110 1 18 (myMember s x) (some x) [BitVec.ofNat 8 (decCode d), 0] s).modSl x
            (fun l => { l with decision := some d }))) := by
  have hheld : (List.range (jobOf s x).members.length).all (fun m => (votesNow (s.sl x)).any (fun v => v.member = m)) = true := by
    simpa using hall
  unfold tryDecide
  simp only [hphase, hnone, hheld]
  cases decideVotes (s.sl x).kind (votesNow (s.sl x)) <;> rfl

/-! ### The statement -/

/-- Settles O17: `decideVotes` read off its cases, and `tryDecide` by whether a member's vote is missing. -/
theorem barrierDecision : Obligations.BarrierDecision := by
  refine ⟨fun kind vs => ⟨?fail, ?noFail⟩, fun kind vs ws => decideVotes_eq_of_mem_iff kind, ?barrier⟩
  case fail =>
    intro h
    obtain ⟨v, ⟨hv, hfail, hle⟩, heq⟩ := decideVotes_of_fail kind h
    exact ⟨v, hv, hfail, hle, heq⟩
  case noFail =>
    intro hno
    rw [decideVotes_of_no_fail kind hno]
    refine ⟨fun (hdiff : ChecksDiffer vs) => if_pos hdiff, fun hsame => ?_⟩
    have hsame : ¬ ChecksDiffer vs := fun ⟨v, hv, w, hw, hne⟩ => hne (hsame v hv w hw)
    rw [if_neg hsame]
    refine ⟨fun hk => if_pos hk, fun hk hskip => ?_, fun hk hready => ?_⟩
    · rw [if_neg hk, if_pos hskip]
    · rw [if_neg hk, if_neg (by simpa using hready)]
  case barrier =>
    intro s x d hphase hnone hd
    refine ⟨fun ⟨m, hm, hno⟩ => tryDecide_of_vote_missing hm hno, fun hall => ?_⟩
    rw [tryDecide_of_votes_held hphase hnone hall, ← hd]
    refine ⟨?abandon, ?goOn⟩
    case abandon =>
      rintro st rfl
      rfl
    case goOn =>
      intro st n h
      simp only [List.mem_cons, Prod.mk.injEq, List.not_mem_nil, or_false] at h
      obtain ⟨rfl, rfl, rfl⟩ | ⟨rfl, rfl, rfl⟩ | ⟨rfl, rfl, rfl⟩ := h <;> rfl

end Sys2Proof.Machine
end

section
/-! PROOFS. Slow and hung commands (R363, R422 to R427): what the expiry of a command's timer does, by whether the command is in flight, is a
barrier, or is still command N of its ring; what ends a started command; and how a wait that closes a cycle is broken. -/
namespace Sys2Proof.Machine

/-! ### The timer of a command in flight -/

section
variable {s : State} {q k : Nat} {c : Cmd}

/-- A command in flight that has no end yet is armed again or hung (R423). -/
theorem commandTimeout_of_unfinished (hctx : (s.ctx (s.queue q).ctx).st ≠ .preempted) (hc : findCmd s q k = some c) (hst : c.status = none)
    (hh : c.hung = false) (hop : cOp c.bytes ≠ 0x11) :
    commandTimeout q k s =
      if c.armed < c.progress ∧ c.rearms < 15 then
        (modCmd s q k (fun e => { e with armed := e.progress, rearms := e.rearms + 1 })).modHub (fun h => { h with rearms := bump h.rearms 1 })
      else stopCommand q c (noteHung q k (cOp c.bytes) c.progress c.rearms s) := by
  have hlast : c.rearms + 1 < 16 ↔ c.rearms < 15 := Nat.succ_lt_succ_iff
  simp [commandTimeout, hctx, hc, hst, hh, hop, hlast]

theorem commandTimeout_of_barrier (hc : findCmd s q k = some c) (hop : cOp c.bytes = 0x11) : commandTimeout q k s = s := by
  simp [commandTimeout, hc, hop]

end

/-! ### The end of a started command (R424) -/

section
variable {s : State} {q : Nat} {c : Cmd}

theorem stopCommand_of_other (hop : cOp c.bytes ∉ [0x03, 0x20, 0x21, 0x22]) : stopCommand q c s = finishCmd q c.idx stTimeout 0 0 s := by
  simp only [List.mem_cons, List.not_mem_nil, or_false, not_or] at hop
  obtain ⟨hclose, hlaunch, hjob, hcoll⟩ := hop
  unfold stopCommand
  split
  · exact absurd ‹_› hlaunch
  · exact absurd ‹_› hjob
  · exact absurd ‹_› hcoll
  · exact absurd ‹_› hclose
  · rfl

theorem stopCommand_of_engineJob (hop : cOp c.bytes = 0x21) :
    stopCommand q c s =
      if handedOver s q c.idx then modCmd s q c.idx (fun e => { e with hung := true }) else finishCmd q c.idx stTimeout 0 0 s := by
  simp [stopCommand, hop]

theorem stopCommand_of_launch (hop : cOp c.bytes = 0x20) : stopCommand q c s = stopLaunch q c.idx s := by
  simp [stopCommand, hop]

theorem stopLaunch_of_no_program {k : Nat} (h : hasProgram s q k = false) : stopLaunch q k s = finishCmd q k stTimeout 0 0 s := by
  simp [stopLaunch, h]

end

/-! ### Recording a hang changes the hub and draws free values -/

section
variable (s : State) (q k op progress rearms : Nat)

@[simp] theorem noteHung_mem : (noteHung q k op progress rearms s).mem = s.mem := by simp [noteHung, setHang]
@[simp] theorem noteHung_ctxs : (noteHung q k op progress rearms s).ctxs = s.ctxs := by simp [noteHung, setHang]
@[simp] theorem noteHung_ended : (noteHung q k op progress rearms s).ended = s.ended := by simp [noteHung, setHang]
@[simp] theorem noteHung_clk : (noteHung q k op progress rearms s).clk = s.clk := by simp [noteHung, setHang]

/-- HUB_HANG_CTX names a hung command and its queue (R424). -/
theorem noteHung_hang : (noteHung q k op progress rearms s).hub.hangValid = true ∧ (noteHung q k op progress rearms s).hub.hangCause = 1 ∧
    (noteHung q k op progress rearms s).hub.hangQueue = BitVec.ofNat 14 q := ⟨rfl, rfl, rfl⟩

end

/-! ### The timer of command N -/

section
variable (s : State) (q : Nat) (b : Bytes)

@[simp] theorem headTimeout_mem : (headTimeout q b s).mem = s.mem := rfl
@[simp] theorem headTimeout_ctxs : (headTimeout q b s).ctxs = s.ctxs := rfl
@[simp] theorem headTimeout_ended : (headTimeout q b s).ended = s.ended := rfl
@[simp] theorem headTimeout_hub : (headTimeout q b s).hub = s.hub := rfl

theorem headTimeout_queue_same : (headTimeout q b s).queue q = { s.queue q with n := (s.queue q).n + 1, flight := (s.queue q).flight ++
    [{ idx := (s.queue q).n.toNat, bytes := b, started := false, status := some stTimeout, since := s.clk }] } :=
  State.queue_modQueue_same s q _

theorem headTimeout_queue_ne {p : Nat} (h : p ≠ q) : (headTimeout q b s).queue p = s.queue p := State.queue_modQueue_ne s q p _ h

end

section
variable {s : State} {q : Nat} {b : Bytes}

theorem not_preempted_of_headRuns (h : headRuns s q = true) : (s.ctx (s.queue q).ctx).st ≠ .preempted := by
  simp only [headRuns, Bool.and_eq_true, decide_eq_true_eq] at h
  exact h.2

/-- Command N, which its queue could start but for its waits, completes without having started (R363). -/
theorem commandTimeout_of_head (hnone : findCmd s q (s.queue q).n.toNat = none) (hruns : headRuns s q = true) (hb : nextCmd s q = .ok b)
    (hop : cOp b ≠ 0x11) :
    commandTimeout q (s.queue q).n.toNat s = headTimeout q b (noteHung q (s.queue q).n.toNat (cOp b) 0 0 s) := by
  simp [commandTimeout, not_preempted_of_headRuns hruns, hnone, hruns, hb, hop]

end

/-! ### Wait-for cycles on this device and across devices (R425 to R427) -/

theorem hangCycle_of_no_cycle {s : State} {qs : List Nat} (h : isCycle s qs = false) : hangCycle qs s = s := by
  simp [hangCycle, h]

theorem hangCycle_of_cycle {s : State} {q : Nat} {qs : List Nat} (h : isCycle s (q :: qs) = true) :
    hangCycle (q :: qs) s = logError 0x0A 18 q (some (s.queue q).ctx) stTimeout (cycleDetail (q :: qs) 0xFFFF)
      (setHang 2 (s.queue q).ctx q ((q :: qs).foldl (fun t p => breakQueue p t) s)) := by
  simp [hangCycle, h]

/-- With no tile that waits, only command N of the queue is broken off. -/
theorem breakQueue_of_headWait {s : State} {q n : Nat} {b : Bytes} (hw : headWait s q = some (n, b)) (ht : tileWaits s q = []) :
    breakQueue q s = headTimeout q b s := by
  simp [breakQueue, hw, ht]

section
variable {s : State} {peer tag : Nat}

theorem crossHang_of_not_mutual (h : mutualWait s peer tag = false) : crossHang peer tag s = s := by
  simp [crossHang, h]

/-- Where this device waits on the peer for a barrier and for no collective, the barrier's step is lost (R426). -/
theorem crossHang_of_barrier {x : Nat} {mine : List (Nat × Marker)}
    (hmine : mine = (waits s).filter (fun w => w.2.dev = peer && w.2.jobTag = tag)) (hm : mutualWait s peer tag = true)
    (hx : ctxOfTag s tag = some x) (hcoll : ∀ w ∈ mine, w.2.cls ≠ 1) (hbar : ∃ w ∈ mine, w.2.cls = 0) :
    crossHang peer tag s = logError 0x0A 18 0xFFFF (some x) stTimeout (cycleDetail [] peer) (setHang 3 x 0 (stepLoss x stTimeout s)) := by
  have hanyBar : mine.any (fun w => w.2.cls = 0) = true := by simpa using hbar
  have hanyColl : mine.any (fun w => w.2.cls = 1) = false := by simpa using hcoll
  simp [crossHang, hm, hx, ← hmine, hanyBar, hanyColl]

end

/-! ### The statement -/

/-- A command that changes nothing, of a device on which no message has ended, answers the state it found. -/
theorem net_unchanged {f : State → State} {s : State} (h : s.Serving) (he : s.ended = []) (hf : f s = s) : net f s = .next s :=
  net_of f s s h hf he rfl

/-- Settles O52: each clause is a case of `commandTimeout`, `stopCommand`, `hangCycle`, `breakQueue` or `crossHang`. -/
theorem hangsEnd : Obligations.HangsEnd := by
  refine ⟨?inFlight, ?barrier, fun s q c => stopCommand_of_other, fun s q c => ⟨?jobHanded, ?jobKept, ?launch⟩, ?head, ?cycle,
    fun s q n b => breakQueue_of_headWait, ?cross⟩
  case inFlight =>
    intro s q k c hs hctx hc hst hh hop
    have heq := commandTimeout_of_unfinished hctx hc hst hh hop
    exact ⟨fun harm hre => net_deliver _ s _ hs (heq.trans (if_pos ⟨harm, hre⟩)) rfl,
      fun hend => net_settle _ s _ hs (heq.trans (if_neg (by omega)))⟩
  case barrier =>
    intro s q k c hs he hc hop
    exact net_unchanged hs he (commandTimeout_of_barrier hc hop)
  case jobHanded =>
    intro hop hh
    exact (stopCommand_of_engineJob hop).trans (if_pos hh)
  case jobKept =>
    intro hop hh
    exact (stopCommand_of_engineJob hop).trans (if_neg (Bool.eq_false_iff.mp hh))
  case launch =>
    intro hop hno
    exact (stopCommand_of_launch hop).trans (stopLaunch_of_no_program hno)
  case head =>
    rintro s q k b hs he hnone hruns rfl hb hop
    refine ⟨_, net_of _ s _ hs (commandTimeout_of_head hnone hruns hb hop) (by simp [he]) (by simp), by simp, by simp, ?_, ?_, ?_⟩
    · simp [headTimeout_queue_same, noteHung_queue]
    · intro p hp
      rw [headTimeout_queue_ne _ _ _ hp, noteHung_queue]
    · rw [headTimeout_hub]
      exact noteHung_hang s q _ _ 0 0
  case cycle =>
    intro s q qs hs
    exact ⟨fun hcyc => net_settle _ s _ hs (hangCycle_of_cycle hcyc), fun he hno => net_unchanged hs he (hangCycle_of_no_cycle hno)⟩
  case cross =>
    intro s peer tag x mine hs he hmine
    exact ⟨fun hno => net_unchanged hs he (crossHang_of_not_mutual hno),
      fun hm hx hcoll hbar => net_deliver _ s _ hs (crossHang_of_barrier hmine hm hx hcoll hbar) (by simp)⟩

end Sys2Proof.Machine
end

section
/-! PROOFS. The stages of start-up (R492 to R500, R504, R505, R515, R516): what each stage leaves behind, said once of its end and of its
failures, and the command that runs it. -/
namespace Sys2Proof.Machine

/-! ### The power state of a stage -/

/-- A command of a lit module that keeps the power state answers its effect. -/
theorem powered_of_same_st {f : State → State} {s t : State} (h : s.pwr.st.isDark = false) (hf : f s = t) (hst : t.pwr.st = s.pwr.st) :
    powered f s = .next t :=
  powered_lit_of f s t h hf (hst ▸ h)

/-- Boot, security and power: what a start carries from one stage to the next. -/
def startShell (s : State) : Boot × Sec × Power := (s.boot, s.sec, s.pwr)

@[simp] theorem endStage_sec (g : Stage) (s : State) : (endStage g s).sec = s.sec := rfl
@[simp] theorem endStage_die (g : Stage) (s : State) (d : Nat) : (endStage g s).die d = s.die d := rfl

/-! ### BOOT_FUSE (R473, R496 to R500) -/

/-- The start is counted, a pending change of ownership is made, and the fused configuration is measured. -/
def countedStart (s : State) : State := { s with
  sec := { blowOwner s.sec with public_ := true, meas4 := Config.measurement 4 [fuseConfig (blowOwner s.sec)] },
  boot := { countStart s.boot with trial := s.boot.trialMark, trialMark := false, stepping := Config.stepping } }

/-- The state in which BOOT_FUSE chooses between a normal start and Pupa mode: the start is counted and the dies are calibrated. -/
def fuseChoice (cal : List CalFinding) (s : State) : State :=
  (List.range 20).foldl (fun t d => { t with dies := t.dies.set d (bootDie (calMask cal d) d) }) (countedStart s)

section
variable {s : State} {cal : List CalFinding}

theorem bootFuse_of_bad_fuse (h : inStage s .fuse = true) (w : Nat) : bootFuse cal (some (1, w)) s = failStart 0x01 w s := by
  simp [bootFuse, h]

theorem bootFuse_of_bad_pupa_unit (h : inStage s .fuse = true) (w : Nat) :
    bootFuse cal (some (2, w)) s = haltModule w (if w = 1 || w = 3 then s else { s with boot := countStart s.boot }) := by
  simp [bootFuse, h]

theorem bootFuse_of_good (h : inStage s .fuse = true) :
    bootFuse cal none s = match pupaReason (fuseChoice cal s) with
      | some r => enterPupa r.1 r.2 (endStage .pupa (fuseChoice cal s))
      | none => endStage .image (fuseChoice cal s) := by
  simp only [bootFuse, h, Bool.not_true, Bool.false_eq_true, if_false]
  rfl

/-- The dies that a fold writes are the ones written; the others stay. -/
theorem die_foldl_set (g : Nat → Die) (l : List Nat) (s : State) (d : Nat) :
    (l.foldl (fun t d => { t with dies := t.dies.set d (g d) }) s).die d = if d ∈ l then g d else s.die d := by
  induction l generalizing s with
  | nil => simp
  | cons a l ih =>
    rw [List.foldl_cons, ih]
    by_cases hl : d ∈ l
    · simp [hl]
    · by_cases ha : d = a <;> simp [State.die, tab_get_set, hl, ha]

theorem fuseChoice_die {d : Nat} (hd : d < 20) : (fuseChoice cal s).die d = bootDie (calMask cal d) d := by
  simp [fuseChoice, die_foldl_set, hd]

theorem fuseChoice_boot : (fuseChoice cal s).boot = (countedStart s).boot := by
  unfold fuseChoice
  exact foldl_proj (fun t => t.boot) _ (by intros; rfl) _ _

theorem fuseChoice_sec : (fuseChoice cal s).sec = (countedStart s).sec := by
  unfold fuseChoice
  exact foldl_proj (fun t => t.sec) _ (by intros; rfl) _ _

theorem fuseChoice_pwr : (fuseChoice cal s).pwr = s.pwr := by
  unfold fuseChoice
  exact foldl_proj (fun t => t.pwr) _ (by intros; rfl) _ _

/-- The choice reads the counted start and the lifecycle alone: neither the owner slots nor the dies change it. -/
theorem pupaReason_fuseChoice :
    pupaReason (fuseChoice cal s) = pupaReason { s with boot := { countStart s.boot with trial := s.boot.trialMark } } := by
  have hlife : (countedStart s).sec.lifecycle = s.sec.lifecycle := blowOwner_lifecycle s.sec
  simp only [pupaReason, fuseChoice_boot, fuseChoice_sec, hlife]
  rfl

end

/-! ### HALTED (R493, R526) -/

/-- A halted module keeps what a dark one keeps. -/
theorem settle_haltModule (n : Nat) (s : State) : (haltModule n s).settle = (haltModule n s).dark := rfl

theorem haltModule_flash (n : Nat) (s : State) : (haltModule n s).flash = s.flash := by
  unfold haltModule
  split <;> rfl

/-! ### Pupa mode (R497, R500) -/

theorem pupaReason_of_failed_starts {s : State} (hfail : 3 ≤ failedStarts s.boot) (ht : s.boot.trial = false) :
    pupaReason s = some (0x80, failedStarts s.boot) := by
  simp [pupaReason, hfail, ht]

/-- With fewer than three failed starts, or in a trial, the request decides, and after it the lifecycle. -/
theorem pupaReason_of_start_allowed {s : State} (h : failedStarts s.boot < 3 ∨ s.boot.trial = true) :
    pupaReason s = if s.boot.pupaReq then some (0x81, 0) else if 3 ≤ s.sec.lifecycle then some (0x82, s.sec.lifecycle) else none := by
  have hno : (decide (3 ≤ failedStarts s.boot) && !s.boot.trial) = false := by simpa [Nat.not_le, imp_iff_not_or] using h
  simp [pupaReason, hno]

/-- Every die of a list but the hub loses its power. -/
theorem die_on_foldl_off {d : Nat} (hd : d ≠ 18) (l : List Nat) (s : State) (h : d ∈ l ∨ (s.die d).on = false) :
    ((l.foldl (fun t d => if d = 18 then t else t.modDie d (fun k => { k with on := false })) s).die d).on = false := by
  induction l generalizing s with
  | nil => simpa using h
  | cons a l ih =>
    refine ih _ ?_
    by_cases ha : d = a
    · subst ha
      simp [hd]
    · have hkeep : (if a = 18 then s else s.modDie a (fun k => { k with on := false })).die d = s.die d := by
        split
        · rfl
        · exact State.die_modDie_ne s a d _ ha
      rw [hkeep]
      simpa [ha] using h

/-- The state of Pupa mode before the dies lose their power and its compartments start. -/
def pupaShell (reason detail : Nat) (s : State) : State := { s with
  pwr := { s.pwr with st := .pupa, faultN := false },
  boot := { s.boot with stage := .pupa, active := false, reason := BitVec.ofNat 8 reason, detail := BitVec.ofNat 16 detail, armed := false },
  hub := { s.hub with health := .pupa },
  sec := pupaSec s }

/-- What neither a die without power nor a compartment that starts changes is that of `pupaShell`. -/
theorem enterPupa_proj {α : Type} (P : State → α) (hdie : ∀ t d, P (t.modDie d (fun k => { k with on := false })) = P t)
    (hcomp : ∀ c k t, P (startComp c k t) = P t) (reason detail : Nat) (s : State) :
    P (enterPupa reason detail s) = P (pupaShell reason detail s) := by
  unfold enterPupa
  simp only [hcomp]
  refine foldl_proj P _ (fun t d => ?_) _ _
  split
  · rfl
  · exact hdie t d

section
variable (reason detail : Nat) (s : State)

theorem enterPupa_pwr : (enterPupa reason detail s).pwr = (pupaShell reason detail s).pwr :=
  enterPupa_proj (fun t => t.pwr) (fun _ _ => rfl) (fun _ _ _ => rfl) reason detail s

theorem enterPupa_boot : (enterPupa reason detail s).boot = (pupaShell reason detail s).boot :=
  enterPupa_proj (fun t => t.boot) (fun _ _ => rfl) (fun _ _ _ => rfl) reason detail s

theorem enterPupa_health : (enterPupa reason detail s).hub.health = .pupa :=
  enterPupa_proj (fun t => t.hub.health) (fun _ _ => rfl) (fun _ _ _ => rfl) reason detail s

theorem enterPupa_die_on {d : Nat} (hd : d < 20) (hhub : d ≠ 18) : ((enterPupa reason detail s).die d).on = false := by
  have hcomp : ∀ c k t, (startComp c k t).die d = t.die d := fun _ _ _ => rfl
  simp only [enterPupa, hcomp]
  exact die_on_foldl_off hhub _ _ (Or.inl (List.mem_range.mpr hd))

end

/-! ### BOOT_IMAGE (R475 to R477, R504, R505) -/

/-- The state after a verified image is taken. -/
def imageTaken (s : State) : State :=
  endStage .carapace (startComp 3 (compCore 4 3) { s with
    sec := imageSec s,
    boot := { s.boot with keyCache := sha512 (imageSec s).aliasSeed, commitSvn := bit (leAt (imgRead s 0 36864) 6 1) 0 } })

theorem imageTaken_sec (s : State) : (imageTaken s).sec = imageSec s := rfl

theorem bootImage_of_stage {s : State} (h : inStage s .image = true) :
    bootImage s = match imageCheck s with
      | some f => failStart f.1 f.2 { s with freeCtr := s.freeCtr + 1 }
      | none => imageTaken s := by
  simp only [bootImage, h, Bool.not_true, Bool.false_eq_true, if_false]
  rfl

/-! ### BOOT_CARAPACE (R502, R514, R515) -/

/-- The plate and the stream of a base come into force. -/
def takeStream (e : Envelope) (b : Bytes) (c : Conf) (s : State) : State := { s with
  plate := c.plate
  boot := { s.boot with
    stream := b
    applied := s.boot.amends.filter (fun a => match envelopeOf a with | some k => k.baseSeq = e.seq | none => false)
    caraSeen := max s.boot.caraSeen (e.seq + 1) } }

/-- The fenced dies lose their power, what is cut off is isolated, and the routes are written. -/
def fenceAndRoute (s : State) : State := writeRoutes (isolate (fenceDies s))

/-- A present die with a failed block. -/
def badBlock (s : State) (d : Nat) : Bool := !fenced s d && decide ((s.die d).failMask ≠ 0)

/-- A present holder whose training fails. -/
def badHolder (cal : List CalFinding) (s : State) (d : Nat) : Bool := !fenced s d && decide (calMask cal d ≠ 0)

/-- The holders, which BOOT_CARAPACE trains. -/
def holderDies : List Nat := [8, 9, 10, 11, 12, 13, 14, 15, 19]

/-- The end of BOOT_CARAPACE, once its stream is in force. -/
def fitPlate (cal : List CalFinding) (p : State) : State :=
  match (List.range 20).find? (badBlock p) with
  | some d => failStart 0x24 (256 * d + (p.die d).failMask.toNat) p
  | none =>
    if missingKinds p ≠ 0 then failStart 0x25 (missingKinds p) p
    else match holderDies.find? (badHolder cal (fenceAndRoute p)) with
      | some d => failStart 0x26 d (fenceAndRoute p)
      | none => endStage .trainLinks (drawKeys 0 (fenceAndRoute p))

section
variable {s p : State} {cal : List CalFinding} {e : Envelope} {b : Bytes}

theorem bootCarapace_of_no_base (h : inStage s .carapace = true) {f : Nat × Nat} (hbase : chooseBase s = .error f) :
    bootCarapace cal s = failStart f.1 f.2 s := by
  simp [bootCarapace, h, hbase]

theorem bootCarapace_of_bad_stream (h : inStage s .carapace = true) (hbase : chooseBase s = .ok (e, b)) {f : PlateErr}
    (hadd : addStream s e b (shapeConf e.shape) = .error f) : bootCarapace cal s = failStart f.1 f.2 s := by
  simp [bootCarapace, h, hbase, hadd]

theorem bootCarapace_of_bad_log (h : inStage s .carapace = true) (hbase : chooseBase s = .ok (e, b)) {c : Conf} {f : Nat × Nat}
    (hadd : addStream s e b (shapeConf e.shape) = .ok c) (hlog : logAmends s e.seq s.boot.amends c = .error f) :
    bootCarapace cal s = failStart f.1 f.2 s := by
  simp [bootCarapace, h, hbase, hadd, hlog]

theorem bootCarapace_of_conf (h : inStage s .carapace = true) (hbase : chooseBase s = .ok (e, b)) {c₀ c : Conf}
    (hadd : addStream s e b (shapeConf e.shape) = .ok c₀) (hlog : logAmends s e.seq s.boot.amends c₀ = .ok c) :
    bootCarapace cal s = fitPlate cal (takeStream e b c s) := by
  simp only [bootCarapace, h, hbase, hadd, hlog, Bool.not_true, Bool.false_eq_true, if_false]
  rfl

theorem fitPlate_of_bad_block {d : Nat} (hd : (List.range 20).find? (badBlock p) = some d) :
    fitPlate cal p = failStart 0x24 (256 * d + (p.die d).failMask.toNat) p := by
  simp [fitPlate, hd]

theorem find_badBlock_none (h : ∀ d, d < 20 → fenced p d = false → (p.die d).failMask = 0) : (List.range 20).find? (badBlock p) = none := by
  simpa [badBlock] using h

theorem find_badHolder_none (h : ∀ d, d ∈ holderDies → fenced p d = false → calMask cal d = 0) : holderDies.find? (badHolder cal p) = none := by
  simpa only [List.find?_eq_none, badHolder, Bool.and_eq_true, Bool.not_eq_true', decide_eq_true_eq, not_and, not_not] using h

theorem fitPlate_of_missing_kind (hblock : (List.range 20).find? (badBlock p) = none) (hkind : missingKinds p ≠ 0) :
    fitPlate cal p = failStart 0x25 (missingKinds p) p := by
  simp [fitPlate, hblock, hkind]

theorem fitPlate_of_bad_holder (hblock : (List.range 20).find? (badBlock p) = none) (hkind : missingKinds p = 0) {d : Nat}
    (hd : holderDies.find? (badHolder cal (fenceAndRoute p)) = some d) : fitPlate cal p = failStart 0x26 d (fenceAndRoute p) := by
  simp [fitPlate, hblock, hkind, hd]

theorem fitPlate_of_good (hblock : (List.range 20).find? (badBlock p) = none) (hkind : missingKinds p = 0)
    (hhold : holderDies.find? (badHolder cal (fenceAndRoute p)) = none) :
    fitPlate cal p = endStage .trainLinks (drawKeys 0 (fenceAndRoute p)) := by
  simp [fitPlate, hblock, hkind, hhold]

@[simp] theorem fenceAndRoute_pwr (s : State) : (fenceAndRoute s).pwr = s.pwr := by simp [fenceAndRoute]

end

/-! ### BOOT_TRAIN_LINKS (R34, R37, R272, R294) -/

/-- The incarnation rises. -/
def nextIncarnation (s : State) : State := { s with boot := { s.boot with incarn := (s.boot.incarn + 1) % 2 ^ 32 } }

/-- A failed start leaves nothing of the dies. -/
theorem failStart_modDie (r n d : Nat) (f : Die → Die) (s : State) : failStart r n (s.modDie d f) = failStart r n s := rfl

/-- The lane is one of a sub-port that trains. -/
def onPort (s : State) (l : Nat) : Bool := (portsOf s s.plate.split).any (fun p => decide (p.1 ≤ l) && decide (l < p.1 + p.2))

/-- Boot, plate and dies: what the sub-ports do not touch when they begin to train. -/
def linkShell (s : State) : Boot × Plate × Tab Die := (s.boot, s.plate, s.dies)

/-- The calibrated links begin to train. -/
def trainPorts (s : State) : State :=
  let t := setPtpLane ((portsOf s s.plate.split).foldl (fun t p => newPort p t) (calLinks s))
  { t with boot := { t.boot with training := true } }

/-- The SerDes of one present link die are calibrated. -/
def calLink (d : Nat) (s : State) : State :=
  if fenced s d then s else s.modDie d (fun k => { k with calValid := decide (k.failMask = 0) })

theorem calLinks_eq (s : State) : calLinks s = calLink 17 (calLink 16 s) := rfl

theorem calLink_die_same {s : State} {d : Nat} (h : fenced s d = false) :
    (calLink d s).die d = { s.die d with calValid := decide ((s.die d).failMask = 0) } := by
  simp [calLink, h]

theorem calLink_die_ne {s : State} {d e : Nat} (h : e ≠ d) : (calLink d s).die e = s.die e := by
  unfold calLink
  split
  · rfl
  · exact State.die_modDie_ne s d e _ h

theorem calLink_keep (d : Nat) (s : State) : (calLink d s).boot = s.boot ∧ (calLink d s).plate = s.plate := by
  unfold calLink
  split <;> exact ⟨rfl, rfl⟩

/-- The calibration of a present link die is whole where no block of the die has failed. -/
theorem calLinks_die_of_present {s : State} {d : Nat} (hd : d = 16 ∨ d = 17) (hf : fenced s d = false) :
    (calLinks s).die d = { s.die d with calValid := decide ((s.die d).failMask = 0) } := by
  rw [calLinks_eq]
  obtain rfl | rfl := hd
  · rw [calLink_die_ne (by decide), calLink_die_same hf]
  · have hdie : (calLink 16 s).die 17 = s.die 17 := calLink_die_ne (by decide)
    have hf' : fenced (calLink 16 s) 17 = false := by
      simpa only [fenced, hdie, (calLink_keep 16 s).2] using hf
    rw [calLink_die_same hf', hdie]

theorem calLinks_keep (s : State) : (calLinks s).boot = s.boot ∧ (calLinks s).plate = s.plate := by
  simp [calLinks_eq, calLink_keep]

theorem linkShell_setPtpLane (s : State) : linkShell (setPtpLane s) = linkShell s := by
  refine foldl_proj linkShell _ (fun t d => ?_) _ _
  split <;> rfl

theorem linkShell_newPorts (l : List (Nat × Nat)) (s : State) : linkShell (l.foldl (fun t p => newPort p t) s) = linkShell s :=
  foldl_proj linkShell (fun t p => newPort p t) (fun _ _ => rfl) l s

theorem linkShell_trainPorts (s : State) :
    linkShell (trainPorts s) = ({ s.boot with training := true }, s.plate, (calLinks s).dies) := by
  have h := (linkShell_setPtpLane _).trans (linkShell_newPorts (portsOf s s.plate.split) (calLinks s))
  simp only [linkShell, Prod.mk.injEq, (calLinks_keep s).1, (calLinks_keep s).2] at h
  obtain ⟨hboot, hplate, hdies⟩ := h
  simp [linkShell, trainPorts, hboot, hplate, hdies]

theorem trainPorts_pwr (s : State) : (trainPorts s).pwr = s.pwr := by
  simp [trainPorts, foldl_pwr (fun t p => newPort p t) (fun t p => newPort_pwr p t)]

/-- The end of the stage, when it comes at once, changes the stage and its time alone. -/
theorem trainEnd_keep (s : State) : (trainEnd s).boot.incarn = s.boot.incarn ∧ (trainEnd s).boot.training = s.boot.training ∧
    (trainEnd s).plate = s.plate ∧ (trainEnd s).dies = s.dies := by
  unfold trainEnd
  split <;> exact ⟨rfl, rfl, rfl, rfl⟩

section
variable {s : State}

theorem bootTrainLinks_of_stage (h : inStage s .trainLinks = true) (ht : s.boot.training = false) (bad : Option Nat) :
    bootTrainLinks bad s = match bad.filter (onPort s) with
      | some l => failStart 0x30 l (nextIncarnation s)
      | none => trainEnd (trainPorts (nextIncarnation s)) := by
  have hruns : (!inStage s .trainLinks || s.boot.training) = false := by simp [h, ht]
  simp only [bootTrainLinks, hruns, Bool.false_eq_true, if_false, failStart_modDie]
  rfl

theorem onPort_of_mem {l : Nat} {p : Nat × Nat} (hp : p ∈ portsOf s s.plate.split) (hlo : p.1 ≤ l) (hhi : l < p.1 + p.2) :
    onPort s l = true :=
  List.any_eq_true.mpr ⟨p, hp, by simp [hlo, hhi]⟩

theorem bootTrainLinks_of_good (h : inStage s .trainLinks = true) (ht : s.boot.training = false) :
    bootTrainLinks none s = trainEnd (trainPorts (nextIncarnation s)) := by
  rw [bootTrainLinks_of_stage h ht, Option.filter_none]

theorem bootTrainLinks_of_bad_lane (h : inStage s .trainLinks = true) (ht : s.boot.training = false) {l : Nat} (hl : onPort s l = true) :
    bootTrainLinks (some l) s = failStart 0x30 l (nextIncarnation s) := by
  rw [bootTrainLinks_of_stage h ht, Option.filter_some_pos hl]

theorem trainWait_of_training (h : inStage s .trainLinks = true) (ht : s.boot.training = true) : trainWait s = endStage .release s := by
  simp [trainWait, h, ht]

end

/-! ### BOOT_RELEASE (R449, R475, R496, R505) -/

theorem startShell_declareLends (j : Job) (s : State) : startShell (declareLends j s) = startShell s := by
  refine foldl_proj startShell _ (fun t e => ?_) _ _
  split
  · rfl
  · unfold putLendStat
    split <;> rfl

theorem startShell_putJob (j : Job) (s : State) : startShell (putJob j s) = startShell s := by
  unfold putJob
  dsimp only
  split
  · exact startShell_declareLends j _
  · split
    · exact startShell_declareLends j _
    · rfl

/-- Building the tables changes contexts, queues, the hub and the holders alone. -/
theorem startShell_buildTables (c : Conf) (s : State) : startShell (buildTables c s) = startShell s := by
  unfold buildTables putScrub
  rw [foldl_proj startShell _ (by intros; rfl), foldl_proj startShell _ (fun t j => ?job), foldl_proj startShell _ (fun t r => ?queues),
    foldl_proj startShell _ (by intros; rfl)]
  case job =>
    split
    · exact startShell_putJob j.1 t
    · rfl
  case queues => exact foldl_proj startShell _ (by intros; rfl) _ _
  rfl

/-- The state of a release before its compartments start. -/
def released (s : State) : State :=
  let k := takeDraw (buildTables (confNow s) s)
  let t := endStage .released k.2
  { t with
    hub := { t.hub with poolC := t.boot.poolC, poolO := t.boot.poolO, health := t.boot.hState, recState := t.boot.hRec, scored := true, solKey := k.1 },
    sec := { t.sec with svn := if t.boot.commitSvn then max t.sec.svn t.sec.imageSvn else t.sec.svn },
    boot := { t.boot with active := false, base := some t.boot.fuses, armed := false, trialMark := false,
                          history := ({ ok := true, stage := 4, reason := 0, detail := 0 } :: t.boot.history).take 16 },
    pwr := { t.pwr with st := .on } }

theorem bootRelease_of_stage {s : State} (h : inStage s .release = true) : bootRelease s = startComps (released s) := by
  simp only [bootRelease, h, Bool.not_true, Bool.false_eq_true, if_false]
  rfl

/-- Starting the compartments keeps what starting one keeps. -/
theorem startComps_proj {α : Type} (P : State → α) (h : ∀ c k t, P (startComp c k t) = P t) (s : State) : P (startComps s) = P s :=
  foldl_proj P (fun t c => startComp c (compCore (hubCores t) c) t) (fun t c => h c _ t) _ _

section
variable (s : State)

@[simp] theorem startComps_boot : (startComps s).boot = s.boot := startComps_proj (fun t => t.boot) (fun _ _ _ => rfl) s
@[simp] theorem startComps_sec : (startComps s).sec = s.sec := startComps_proj (fun t => t.sec) (fun _ _ _ => rfl) s
@[simp] theorem startComps_ctxs : (startComps s).ctxs = s.ctxs := startComps_proj (fun t => t.ctxs) (fun _ _ _ => rfl) s
@[simp] theorem startComps_queues : (startComps s).queues = s.queues := startComps_proj (fun t => t.queues) (fun _ _ _ => rfl) s
@[simp] theorem startComps_pwr_st : (startComps s).pwr.st = s.pwr.st := startComps_proj (fun t => t.pwr.st) (fun _ _ _ => rfl) s
@[simp] theorem startComps_health : (startComps s).hub.health = s.hub.health := startComps_proj (fun t => t.hub.health) (fun _ _ _ => rfl) s
@[simp] theorem startComps_poolC : (startComps s).hub.poolC = s.hub.poolC := startComps_proj (fun t => t.hub.poolC) (fun _ _ _ => rfl) s
@[simp] theorem startComps_poolO : (startComps s).hub.poolO = s.hub.poolO := startComps_proj (fun t => t.hub.poolO) (fun _ _ _ => rfl) s

theorem buildTables_boot (c : Conf) : (buildTables c s).boot = s.boot := congrArg Prod.fst (startShell_buildTables c s)

theorem buildTables_sec (c : Conf) : (buildTables c s).sec = s.sec := congrArg (fun p => p.2.1) (startShell_buildTables c s)

/-- A release writes the baseline of the start fuses and erases the markers (R496). -/
theorem released_marks : (released s).boot.stage = .released ∧ (released s).boot.active = false ∧
    (released s).boot.base = some s.boot.fuses ∧ (released s).boot.armed = false ∧ (released s).boot.trialMark = false := by
  simp only [released, endStage, takeDraw, buildTables_boot, and_self]

/-- The score takes up the health that was saved (R449). -/
theorem released_score : (released s).hub.health = s.boot.hState ∧ (released s).hub.poolC = s.boot.poolC ∧
    (released s).hub.poolO = s.boot.poolO := by
  simp only [released, endStage, takeDraw, buildTables_boot, and_self]

theorem released_tables : (released s).ctxs = (buildTables (confNow s) s).ctxs ∧ (released s).queues = (buildTables (confNow s) s).queues := by
  simp only [released, endStage, takeDraw, and_self]

theorem released_svn : (released s).sec.svn = if s.boot.commitSvn then max s.sec.svn s.sec.imageSvn else s.sec.svn := by
  simp [released, endStage, takeDraw, buildTables_boot, buildTables_sec]

end

/-! ### Failures of a start (R493) -/

theorem stageTimeout_of_active {s : State} (hst : s.pwr.st = .starting) (h : s.boot.active = true) :
    stageTimeout s = failStart 0x7E (stageCode s.boot.stage) s := by
  simp [stageTimeout, hst, h]

theorem bootRetry_of_retry {s : State} (hst : s.pwr.st = .starting) (h : s.boot.retry = true) : bootRetry s = warmReset s := by
  simp [bootRetry, hst, h]

theorem bootRetry_of_no_retry {s : State} (h : s.boot.retry = false) : bootRetry s = s := by
  simp [bootRetry, h]

/-! ### The statement -/

section
variable {s : State} {cal : List CalFinding}

/-- A unit of the Pupa set that fails halts the module with nothing volatile left (R493). -/
theorem exec_bootFuse_halt (hlit : s.pwr.st.isDark = false) (hin : inStage s .fuse = true) (w : Nat) :
    ∃ t, exec (.bootFuse cal (some (2, w))) s = .next t ∧ t.pwr.st = .halted ∧ t.pwr.faultN = false ∧ t.mem = [] ∧ t.flash = s.flash := by
  obtain ⟨u, hu, hflash⟩ : ∃ u, bootFuse cal (some (2, w)) s = haltModule w u ∧ u.flash = s.flash :=
    ⟨_, bootFuse_of_bad_pupa_unit hin w, by split <;> rfl⟩
  refine ⟨(haltModule w u).dark, ?_, rfl, rfl, rfl, (haltModule_flash w u).trans hflash⟩
  rw [← settle_haltModule]
  exact powered_settle _ s _ hlit hu

theorem exec_bootFuse_start (hlit : s.pwr.st.isDark = false) (hin : inStage s .fuse = true)
    (hno : pupaReason { s with boot := { countStart s.boot with trial := s.boot.trialMark } } = none) :
    exec (.bootFuse cal none) s = .next (endStage .image (fuseChoice cal s)) := by
  have heq : bootFuse cal none s = endStage .image (fuseChoice cal s) := by
    rw [bootFuse_of_good hin, pupaReason_fuseChoice, hno]
  refine powered_of_same_st hlit heq ?_
  rw [endStage_pwr, fuseChoice_pwr]

theorem exec_bootFuse_pupa (hlit : s.pwr.st.isDark = false) (hin : inStage s .fuse = true) {r : Nat × Nat}
    (hr : pupaReason { s with boot := { countStart s.boot with trial := s.boot.trialMark } } = some r) :
    exec (.bootFuse cal none) s = .next (enterPupa r.1 r.2 (endStage .pupa (fuseChoice cal s))) := by
  have heq : bootFuse cal none s = enterPupa r.1 r.2 (endStage .pupa (fuseChoice cal s)) := by
    rw [bootFuse_of_good hin, pupaReason_fuseChoice, hr]
  refine powered_lit_of _ s _ hlit heq ?_
  rw [enterPupa_pwr]
  rfl

end

/-- Settles O55: each clause is what the stage's lemmas say of its command, which keeps the rails on but for a halt. -/
theorem bootStages : Obligations.BootStages := by
  refine ⟨?fuse, ?reason, ?fail, ?image, ?carapace, ?train, fun s g => ⟨rfl, rfl⟩, ?release, ?retry⟩
  case fuse =>
    intro s cal hlit hin
    refine ⟨fun w => powered_of_same_st hlit (bootFuse_of_bad_fuse hin w) rfl, exec_bootFuse_halt hlit hin, fun hno => ?start, fun r hr => ?pupa⟩
    case start =>
      have hboot : (fuseChoice cal s).boot = (countedStart s).boot := fuseChoice_boot
      refine ⟨_, exec_bootFuse_start hlit hin hno, rfl, congrArg (·.starts) hboot, congrArg (·.armed) hboot, congrArg (·.fuses) hboot,
        congrArg (·.trialMark) hboot, congrArg (·.trial) hboot, ?_, fun d hd => ?_⟩
      · rw [endStage_sec, fuseChoice_sec]
        rfl
      · rw [endStage_die, fuseChoice_die hd]
    case pupa =>
      have hpwr := enterPupa_pwr r.1 r.2 (endStage .pupa (fuseChoice cal s))
      have hboot := enterPupa_boot r.1 r.2 (endStage .pupa (fuseChoice cal s))
      exact ⟨_, exec_bootFuse_pupa hlit hin hr, congrArg (·.st) hpwr, congrArg (·.faultN) hpwr, congrArg (·.stage) hboot,
        congrArg (·.active) hboot, congrArg (·.reason) hboot, congrArg (·.armed) hboot, enterPupa_health _ _ _,
        fun d hd hhub => enterPupa_die_on _ _ _ hd hhub⟩
  case reason =>
    intro s
    refine ⟨pupaReason_of_failed_starts, fun hok => ⟨fun hreq => ?_, fun hreq => ?_⟩⟩
    · rw [pupaReason_of_start_allowed hok, if_pos hreq]
    · rw [pupaReason_of_start_allowed hok, hreq, if_neg Bool.false_ne_true]
  case fail =>
    intro s r d
    exact ⟨rfl, rfl, rfl, rfl, rfl, rfl, rfl, rfl, rfl⟩
  case image =>
    intro s hlit hin
    refine ⟨imageTaken s, powered_of_same_st hlit (bootImage_of_stage hin) ?_, rfl, ?_, ?_, ?_, ?_, ?_, rfl⟩
    · split <;> rfl
    all_goals simp only [imageTaken_sec, imageSec]
  case carapace =>
    intro s cal hlit hin
    refine ⟨fun f hbase => powered_of_same_st hlit (bootCarapace_of_no_base hin hbase) rfl,
      fun e b f hbase hadd => powered_of_same_st hlit (bootCarapace_of_bad_stream hin hbase hadd) rfl,
      fun e b c f hbase hadd hlog => powered_of_same_st hlit (bootCarapace_of_bad_log hin hbase hadd hlog) rfl, ?fits⟩
    case fits =>
      intro e b c₀ c p q hbase hadd hlog hp hq
      have heq : bootCarapace cal s = fitPlate cal p := by
        rw [hp]
        exact bootCarapace_of_conf hin hbase hadd hlog
      have hst : p.pwr.st = s.pwr.st := by rw [hp]
      have hstq : q.pwr.st = s.pwr.st := by rw [hq, ← hst]; exact congrArg (·.st) (fenceAndRoute_pwr p)
      refine ⟨fun d hd => powered_of_same_st hlit (heq.trans (fitPlate_of_bad_block hd)) hst, fun hgood => ?_⟩
      have hblock := find_badBlock_none hgood
      subst hq
      refine ⟨fun hkind => powered_of_same_st hlit (heq.trans (fitPlate_of_missing_kind hblock hkind)) hst,
        fun d hkind hd => powered_of_same_st hlit (heq.trans (fitPlate_of_bad_holder hblock hkind hd)) hstq, fun hkind hhold => ?trained⟩
      case trained =>
        refine powered_of_same_st hlit (heq.trans (fitPlate_of_good hblock hkind (find_badHolder_none hhold))) ?_
        rw [endStage_pwr, drawKeys_pwr]
        exact hstq
  case train =>
    intro s hlit hin
    refine ⟨fun ht => ?good, fun l p ht hp hlo hhi => ?badLane, fun ht => powered_of_same_st hlit (trainWait_of_training hin ht) rfl⟩
    case good =>
      obtain ⟨hincarn, htraining, hplate, hdies⟩ := trainEnd_keep (trainPorts (nextIncarnation s))
      have hshell := linkShell_trainPorts (nextIncarnation s)
      simp only [linkShell, Prod.mk.injEq] at hshell
      obtain ⟨hboot, hplate', hdies'⟩ := hshell
      refine ⟨_, powered_of_same_st hlit (bootTrainLinks_of_good hin ht) ?_, ?_, ?_, ?_, fun d hd hf => ?_⟩
      · rw [trainEnd_pwr, trainPorts_pwr]
        rfl
      · rw [hincarn, hboot]
        rfl
      · rw [htraining, hboot]
      · rw [hplate, hplate']
        rfl
      · rw [State.die, hdies, hdies']
        exact congrArg (·.calValid) (calLinks_die_of_present (s := nextIncarnation s) hd hf)
    case badLane => exact powered_of_same_st hlit (bootTrainLinks_of_bad_lane hin ht (onPort_of_mem hp hlo hhi)) rfl
  case release =>
    intro s hlit hin
    obtain ⟨hstage, hactive, hbase, harmed, hmark⟩ := released_marks s
    obtain ⟨hctxs, hqueues⟩ := released_tables s
    obtain ⟨hhealth, hpoolC, hpoolO⟩ := released_score s
    refine ⟨startComps (released s), powered_lit_of _ s _ hlit (bootRelease_of_stage hin) ?_, ?_⟩
    · rw [startComps_pwr_st]
      rfl
    · simp only [startComps_pwr_st, startComps_boot, startComps_health, startComps_poolC, startComps_poolO, startComps_sec,
        startComps_ctxs, startComps_queues]
      exact ⟨rfl, hstage, hactive, hbase, harmed, hmark, hhealth, hpoolC, hpoolO, released_svn s, hctxs, hqueues⟩
  case retry =>
    intro s hst
    have hlit : s.pwr.st.isDark = false := by rw [hst]; rfl
    refine ⟨fun h => powered_of_same_st hlit (stageTimeout_of_active hst h) rfl,
      fun h => powered_of_same_st hlit (bootRetry_of_retry hst h) ((warmReset_fields s hlit).1.trans hst.symm),
      fun h => powered_of_same_st hlit (bootRetry_of_no_retry h) rfl⟩

end Sys2Proof.Machine
end

section
/-! PROOFS. The frame of every command (R429, R526): each answers a settled state, and without rails all but the pins answer the state they found. -/
namespace Sys2Proof.Machine

@[simp] theorem State.dark_dark (s : State) : s.dark.dark = s.dark := rfl

theorem State.settle_inv (s : State) : s.settle.Inv := by
  unfold State.settle
  split
  · exact fun _ => s.dark_dark
  next hlit => exact fun hdark => absurd hdark hlit

/-- Whatever a command does, its frame settles the outcome. -/
theorem exec_eq_settle (i : Instr) (s : State) : ∃ u : State, exec i s = .next u.settle := by
  cases i <;> exact ⟨_, rfl⟩

/-- Settles O6: every frame answers a settled state. -/
theorem everyCommandAnswers : Obligations.EveryCommandAnswers := by
  intro i s
  obtain ⟨u, hu⟩ := exec_eq_settle i s
  exact ⟨_, hu, u.settle_inv⟩

/-- A clock that passes leaves a dark module dark. -/
theorem State.Inv.tick {s : State} (h : s.Inv) : { s with clk := s.clk + 1 }.Inv :=
  fun hdark => congrArg (fun t : State => { t with clk := t.clk + 1 }) (h hdark)

/-- Settles O4: a command settles what it leaves, and a clock changes nothing volatile. -/
theorem darkHoldsNothing : Obligations.DarkHoldsNothing := by
  intro s s' hs hstep
  unfold step at hstep
  split at hstep
  case h_1 =>
    cases hstep
    exact hs.tick
  case h_2 i rest _ =>
    obtain ⟨u, hu⟩ := exec_eq_settle i { s with pending := rest }
    rw [hu] at hstep
    cases hstep
    exact u.settle_inv

/-- The state with its power state replaced. -/
def State.withSt (s : State) (p : PwrSt) : State := { s with pwr := { s.pwr with st := p } }

/-- Where the power state is a given dark one, the condition of every frame but the pins' is decided against its effect. -/
theorem exec_withSt_of_dark (s : State) {i : Instr} {p : PwrSt} (hpin : onPins i = false) (hdark : p.isDark = true) :
    exec i (s.withSt p) = .next (s.withSt p).dark := by
  cases p with
  | starting | on | pupa => cases hdark
  | off | halted | shutdown =>
    cases i with
    | powerOn | undervoltageTrip | overvoltageTrip | pwrEnLow | vinSenseOpen | conversionFault | faultRelease | resetN => cases hpin
    | _ => rfl

/-- Settles O5: a frame whose condition fails settles the state it found, which holds nothing volatile already. -/
theorem noPowerNoEffect : Obligations.NoPowerNoEffect := by
  intro i s hs hdark hpin
  have h : exec i s = .next s.dark := exec_withSt_of_dark s hpin hdark
  rw [h, hs hdark]

end Sys2Proof.Machine
end

section
/-! PROOFS. The bytes of a Fjorum packet (R288 to R290): a number is read back from the bytes that spell it, past the fields before it, and so a
packet from its bytes. -/
namespace Sys2Proof.Machine

/-! ### Reading a field of a byte string -/

theorem ofLe_le (n x : Nat) : ofLe (le n x) = x % 256 ^ n := by
  induction n generalizing x with
  | zero => simp [le, ofLe, Nat.mod_one]
  | succ n ih => simp [le, ofLe, ih, Nat.pow_succ', Nat.mod_mul]

theorem leAt_le_append (n x : Nat) (r : Bytes) : leAt (le n x ++ r) 0 n = x % 256 ^ n := by
  simp [leAt, ofLe_le]

/-- A field is read past the fields before it. -/
theorem leAt_le_append_of_le {m i : Nat} (h : m ≤ i) (x n : Nat) (r : Bytes) : leAt (le m x ++ r) i n = leAt r (i - m) n := by
  simp [leAt, List.drop_append, List.drop_eq_nil_of_le (as := le m x) (i := i) (by simpa using h)]

/-! ### The header -/

/-- Byte 0 of a header of version 1: version, class and LC (R288). -/
def firstByte (h : FjHdr) : Nat := 16 + h.cls * 4 + b2n h.lc * 2

/-- The flags of a header (R288). -/
def flagWord (h : FjHdr) : Nat := b2n h.last + 2 * b2n h.first + 4 * b2n h.ece + 8 * b2n h.ackReq + 16 * b2n h.retx

theorem firstByte_fields {h : FjHdr} (hc : h.cls < 4) : firstByte h < 256 ∧ firstByte h / 16 = 1 ∧ bit (firstByte h) 0 = false ∧
    bit (firstByte h) 1 = h.lc ∧ bits (firstByte h) 2 2 = h.cls := by
  unfold firstByte
  generalize h.cls = c at hc ⊢
  interval_cases c <;> cases h.lc <;> decide

theorem flagWord_fields (h : FjHdr) : flagWord h < 32 ∧ bit (flagWord h) 0 = h.last ∧ bit (flagWord h) 1 = h.first ∧
    bit (flagWord h) 2 = h.ece ∧ bit (flagWord h) 3 = h.ackReq ∧ bit (flagWord h) 4 = h.retx := by
  unfold flagWord
  cases h.last <;> cases h.first <;> cases h.ece <;> cases h.ackReq <;> cases h.retx <;> decide

theorem hdrBytes_length (h : FjHdr) (extLen payLen : Nat) : (hdrBytes h extLen payLen).length = 48 := by
  simp [hdrBytes]

/-- A packet as the string of its header's fields, its extension and its payload. -/
theorem pktBytes_eq {p : FjPkt} (hver : p.hdr.version = 1) : pktBytes p =
    le 1 (firstByte p.hdr) ++ (le 1 p.hdr.ty ++ (le 2 (flagWord p.hdr) ++ (le 2 p.hdr.src ++ (le 2 p.hdr.dst ++ (le 4 p.hdr.jobTag ++
    (le 2 p.hdr.flow ++ (le 1 p.hdr.ctx ++ (le 1 (p.ext.length / 8) ++ (le 4 p.hdr.psn ++ (le 4 p.hdr.ackPsn ++ (le 4 p.hdr.msgSeq ++
    (le 4 p.hdr.msgOff ++ (le 4 p.hdr.epoch ++ (le 8 p.hdr.step ++ (le 1 p.hdr.phase ++ (le 1 0 ++ (le 2 p.payload.length ++
    (p.ext ++ p.payload)))))))))))))))))) := by
  simp [pktBytes, hdrBytes, firstByte, flagWord, hver, le]

/-- Where each field of the header is read, in the ranges that it may have. -/
theorem leAt_pktBytes {p : FjPkt} (h : PktOk p) :
    leAt (pktBytes p) 0 1 = firstByte p.hdr ∧ leAt (pktBytes p) 1 1 = p.hdr.ty ∧ leAt (pktBytes p) 2 2 = flagWord p.hdr ∧
    leAt (pktBytes p) 4 2 = p.hdr.src ∧ leAt (pktBytes p) 6 2 = p.hdr.dst ∧ leAt (pktBytes p) 8 4 = p.hdr.jobTag ∧
    leAt (pktBytes p) 12 2 = p.hdr.flow ∧ leAt (pktBytes p) 14 1 = p.hdr.ctx ∧ 8 * leAt (pktBytes p) 15 1 = p.ext.length ∧
    leAt (pktBytes p) 16 4 = p.hdr.psn ∧ leAt (pktBytes p) 20 4 = p.hdr.ackPsn ∧ leAt (pktBytes p) 24 4 = p.hdr.msgSeq ∧
    leAt (pktBytes p) 28 4 = p.hdr.msgOff ∧ leAt (pktBytes p) 32 4 = p.hdr.epoch ∧ leAt (pktBytes p) 36 8 = p.hdr.step ∧
    leAt (pktBytes p) 44 1 = p.hdr.phase ∧ leAt (pktBytes p) 45 1 = 0 ∧ leAt (pktBytes p) 46 2 = p.payload.length := by
  obtain ⟨hver, hcls, -, hty, hsrc, hdst, htag, hflow, hctx, hpsn, hack, hseq, hoff, hepoch, hstep, hphase, hmod, hext, hpay⟩ := h
  have hfirst := (firstByte_fields hcls).1
  have hflag := (flagWord_fields p.hdr).1
  simp only [pktBytes_eq hver, leAt_le_append_of_le, leAt_le_append, Nat.reduceLeDiff, Nat.reduceSub, Nat.reducePow,
    true_and] at *
  omega

/-- Settles O44: each field is read where `leAt_pktBytes` finds it, and none of the checks refuses a packet in its ranges. -/
theorem packetsRoundTrip : Obligations.PacketsRoundTrip := by
  intro p h
  obtain ⟨r0, rty, rfl_, rsrc, rdst, rtag, rflow, rctx, rext, rpsn, rack, rseq, roff, repoch, rstep, rphase, rzero, rpay⟩ := leAt_pktBytes h
  obtain ⟨hver, hcls, hty, hty', -, -, -, -, hctx, -, -, -, -, -, -, -, -, hext, hpay⟩ := h
  obtain ⟨-, hdiv, hbit0, hlc, hbits⟩ := firstByte_fields hcls
  obtain ⟨hfl, hlast, hfirst, hece, hackReq, hretx⟩ := flagWord_fields p.hdr
  have hlen : (pktBytes p).length = 48 + p.ext.length + p.payload.length := by
    simp [pktBytes, hdrBytes_length, Nat.add_assoc]
  have hdrop : (pktBytes p).drop 48 = p.ext ++ p.payload := by
    simp [pktBytes, hdrBytes_length]
  have hdrop' : (pktBytes p).drop (48 + p.ext.length) = p.payload := by
    rw [← List.drop_drop, hdrop, List.drop_left]
  have hok : pktOf (pktBytes p) = some ⟨{ p.hdr with version := 1 }, p.ext, p.payload⟩ := by
    simp only [pktOf, r0, rty, rfl_, rsrc, rdst, rtag, rflow, rctx, rext, rpsn, rack, rseq, roff, repoch, rstep, rphase, rzero, rpay,
      hdrop, hdrop', hlen, hdiv, hbit0, hlc, hbits, hlast, hfirst, hece, hackReq, hretx, List.take_left]
    refine if_neg ?_
    simp
    omega
  rw [hok, ← hver]

end Sys2Proof.Machine
end

section
/-! PROOFS. Starting and completing a command (R363, R366, R367, R375), and the commands that set something of a queue or a semaphore. -/
namespace Sys2Proof.Machine

/-! ### Starting -/

/-- A trace point leaves the rounds of the classes as they are. -/
@[simp] theorem ffTrace_hub_turns (c d u : Nat) (x : Option Nat) (b : Bytes) (s : State) :
    (ffTrace c d u x b s).hub.nextLc = s.hub.nextLc ∧ (ffTrace c d u x b s).hub.nextBe = s.hub.nextBe := by
  unfold ffTrace
  split
  · exact ⟨rfl, rfl⟩
  · split <;> exact ⟨rfl, rfl⟩

theorem semTake_of_lt {x i : Nat} {s : State} (h : i < 0xFFF) :
    semTake x i s = s.modCtx x (fun c => { c with sems := c.sems.set i (c.sems.get 0 i - 1) }) :=
  if_neg (Nat.not_le_of_lt h)

theorem semTake_of_none {x i : Nat} {s : State} (h : 0xFFF ≤ i) : semTake x i s = s := if_pos h

section
variable (s : State) (q : Nat) (b : Bytes)

/-- Starting a command takes its unit, as contexts see it. -/
theorem beginCmd_ctx_eq (y : Nat) : (beginCmd q b s).ctx y = (semTake (s.queue q).ctx (cWait b) s).ctx y := by
  simp [beginCmd]

theorem beginCmd_turn_lc (h : queueLc s q = true) :
    (beginCmd q b s).hub.nextLc = (q + 1) % 16384 ∧ (beginCmd q b s).hub.nextBe = s.hub.nextBe := by
  simp [beginCmd, h, Hub.passTurn]

theorem beginCmd_turn_be (h : queueLc s q = false) :
    (beginCmd q b s).hub.nextBe = (q + 1) % 16384 ∧ (beginCmd q b s).hub.nextLc = s.hub.nextLc := by
  simp [beginCmd, h, Hub.passTurn]

/-- Starting a command changes queues, contexts and the hub, and no more. -/
theorem beginCmd_frame : { beginCmd q b s with queues := s.queues, ctxs := s.ctxs, hub := s.hub } = s := by
  unfold beginCmd
  obtain ⟨f, hf⟩ := ffTrace_eq _ _ _ _ _ _
  rw [hf]
  obtain h | h := Nat.lt_or_ge (cWait b) 0xFFF
  · rw [semTake_of_lt h]; rfl
  · rw [semTake_of_none h]; rfl

end

/-! ### Completing -/

theorem finishCmd_of_open {s : State} {q k st : Nat} {c : Cmd} (d1 d2 : Nat) (hc : findCmd s q k = some c) (hnone : c.status = none)
    (hh : c.hung = false) (hcnt : c.counted = false) (hst : st ≠ stInternal) :
    finishCmd q k st d1 d2 s =
      modCmd s q k (fun c => { c with status := some st, detail := d1, detail2 := d2, waiting := false, counted := false }) := by
  simp [finishCmd, hc, hnone, hh, hcnt, hst]

theorem finishCmd_of_done {s : State} {q k : Nat} {c : Cmd} (st d1 d2 : Nat) (hc : findCmd s q k = some c) (hdone : c.status.isSome = true) :
    finishCmd q k st d1 d2 s = s := by
  simp [finishCmd, hc, hdone]

/-- Settles O7: the frame of `beginCmd`, and `finishCmd` by whether the command has a status. -/
theorem beginAndFinish : Obligations.BeginAndFinish := by
  refine ⟨fun s q b => ?begin, fun s q k st d1 d2 c => finishCmd_of_open d1 d2, fun s q k st d1 d2 c => finishCmd_of_done st d1 d2⟩
  refine ⟨beginCmd_queue s q b, beginCmd_queue_ne s q b, fun y hy => ?_, fun h => ?_, fun h => ?_, beginCmd_turn_lc s q b,
    beginCmd_turn_be s q b, beginCmd_frame s q b⟩
  · rw [beginCmd_ctx_eq]
    obtain h | h := Nat.lt_or_ge (cWait b) 0xFFF
    · rw [semTake_of_lt h, State.ctx_modCtx_ne _ _ _ _ hy]
    · rw [semTake_of_none h]
  · rw [beginCmd_ctx_eq, semTake_of_lt h, State.ctx_modCtx_same]
  · rw [beginCmd_ctx_eq, semTake_of_none h]

/-! ### Which command of a row starts -/

section
variable {s : State} {q : Nat} {b : Bytes}

/-- With no started command waiting, a row serves command N: it starts, or stands in line for its unit, or does nothing. -/
theorem startRow_of_no_waiting (row : Bytes → Bool) (act : Nat → Nat → Bytes → State → State) (ready : State → Nat → Cmd → Bool)
    (hw : ∀ c ∈ (s.queue q).flight, c.waiting = false) (hb : nextCmd s q = .ok b) :
    startRow row act q s ready =
      if row b && startable s q b then checkCmd act q (s.queue q).n.toNat b (beginCmd q b s)
      else if row b && wantsUnit s q b && !canStart s q b then semWait (s.queue q).ctx (cmdWait s q b) s
      else s := by
  have hnone : (s.queue q).flight.find? (fun c => c.waiting && c.status.isNone && row c.bytes
      && decide (boundOf s (s.queue q).ctx c.bytes ≠ .wait) && decide ((s.ctx (s.queue q).ctx).st ≠ .preempted)
      && decide ((s.ctx (s.queue q).ctx).preReq ≠ 1) && ready s q c) = none :=
    List.find?_eq_none.mpr fun c hc => by simp [hw c hc]
  unfold startRow
  rw [hnone]
  dsimp only
  rw [hb]

theorem nopStart_of_ok (hb : nextCmd s q = .ok b) : nopStart q s = startRow rowNop (fun q k _ t => finishCmd q k stOk 0 0 t) q s := by
  simp [nopStart, hb]

/-- A wait whose semaphore has no more units than older waits need has no turn. -/
theorem semTurn_of_few {x : Nat} {w : Nat × Nat × Nat × Nat} (hw : w.1 < 0xFFF)
    (hfew : ((s.ctx x).semQ.takeWhile (fun v => v ≠ w)).countP (fun v => v.1 = w.1 && waitStands s v) ≥ (s.ctx x).sems.get 0 w.1) :
    semTurn s x w = false := by
  rw [List.countP_eq_length_filter] at hfew
  simp only [semTurn, Bool.or_eq_false_iff, decide_eq_false_iff_not]
  exact ⟨Nat.not_le_of_lt hw, Nat.not_lt_of_ge hfew⟩

theorem semWait_of_new {x : Nat} {w : Nat × Nat × Nat × Nat} (hnew : w ∉ (s.ctx x).semQ) :
    semWait x w s = s.modCtx x (fun c => { c with semQ := c.semQ.filter (waitStands s) ++ [w] }) :=
  if_neg (by simpa using hnew)

/-- A queue with a startable command that is served before q keeps q from its turn. -/
theorem not_inTurn_of_servedBefore {r : Nat} (hr : r ∈ s.queues.map (·.1)) (hs : hasStartable s r = true) (hb : servedBefore s r q = true) :
    inTurn s q = false := by
  obtain ⟨e, he, rfl⟩ := List.mem_map.mp hr
  exact List.all_eq_false.mpr ⟨e, he, by simp [hs, hb]⟩

/-- Out of its turn a startable NOP leaves everything as it is. -/
theorem nopStart_of_not_inTurn (hw : ∀ c ∈ (s.queue q).flight, c.waiting = false) (hb : nextCmd s q = .ok b) (hcan : canStart s q b = true)
    (hturn : inTurn s q = false) : nopStart q s = s := by
  rw [nopStart_of_ok hb, startRow_of_no_waiting _ _ _ hw hb]
  simp [startable, hcan, hturn]

end

/-! ### QUEUE_CTL -/

section
variable (s : State) (q : Nat) (b : Bytes) (r : Nat)

@[simp] theorem beginCmd_queue_defined : ((beginCmd q b s).queue r).defined = (s.queue r).defined := by
  by_cases h : r = q
  · subst h; simp
  · rw [beginCmd_queue_ne s q b r h]

@[simp] theorem beginCmd_queue_halted : ((beginCmd q b s).queue r).halted = (s.queue r).halted := by
  by_cases h : r = q
  · subst h; simp
  · rw [beginCmd_queue_ne s q b r h]

end

section
variable {s : State} {q r : Nat} {b : Bytes}

/-- A row of QUEUE_CTL runs its action on the queue it names, of the same context, and completes with its status. -/
theorem exec_ctl {n : Nat} {f : Nat → Nat → State → State × Nat} (hf : ∀ t v u, (f t v u).1.pwr = u.pwr) (h : Starts s q b) (hop : cOp b = 5)
    (hn : leAt b 26 1 = n) (hr : r = leAt b 24 2) (hd : (s.queue r).defined = true) (hx : (s.queue r).ctx = (s.queue q).ctx) :
    serving (startRow (rowCtl n) (ctlAct f) q) s =
      .next (finishCmd q (s.nextIdx q) (f r (leAt b 28 4) (beginCmd q b s)).2 0 0 (f r (leAt b 28 4) (beginCmd q b s)).1) := by
  refine exec_of_starts _ _ s q b h (by simp [rowCtl, hop, hn]) _ ?_ (by simp [hf])
  simp [ctlAct, ← hr, hd, hx]

end

section
variable {t : Nat} (v : Nat) {s : State}

theorem ctlResume_of_halted (h : (s.queue t).halted = true) :
    ctlResume t v s = (s.modQueue t (fun w => { w with halted := false }), stOk) := if_pos h

theorem ctlResume_of_active (h : (s.queue t).halted = false) : ctlResume t v s = (s, stConflict) :=
  if_neg (Bool.eq_false_iff.mp h)

/-- The commands from N to P − 1 of a queue as FLUSH completes them (R362). -/
def flushedCmds (s : State) (t : Nat) : List Cmd :=
  (List.range ((s.queue t).p - (s.queue t).n).toNat).map (fun i =>
    let k := ((s.queue t).n.toNat + i) % 2 ^ 32
    { idx := k, bytes := match qRead s t (cmdAt (s.queue t) k) 64 with | .ok b => b | .error _ => zeros 64,
      started := false, status := some stConflict, flushed := true, since := s.clk })

theorem ctlFlush_of_halted (h : (s.queue t).halted = true) : ctlFlush t v s =
    (s.modQueue t (fun w => { w with halted := false, n := w.p, flight := w.flight ++ flushedCmds s t }), stOk) :=
  if_neg (by simp [h])

theorem ctlFlush_of_active (h : (s.queue t).halted = false) : ctlFlush t v s = (s, stConflict) := if_pos (by simp [h])

end

/-! ### The statement -/

/-- Settles O8: the rows by what starts; a NOP without its unit or its turn by `startRow_of_no_waiting`. -/
theorem queueSettings : Obligations.QueueSettings := by
  refine ⟨?nop, ?unit, ?add, ?set, ?ctl, ?turn⟩
  case nop =>
    intro s q b h hop
    refine serving_of (nopStart q) s _ h.1 ?_ (by simp)
    rw [nopStart_of_ok h.2.2.1, startRow_of_starts _ _ s q b h (by simp [rowNop, hop])]
  case unit =>
    intro s q b hs hw hb hop hwant hlt hfew hnew
    refine serving_of (nopStart q) s _ hs ?_ rfl
    have hturn : semTurn s (s.queue q).ctx (cmdWait s q b) = false := semTurn_of_few hlt hfew
    rw [nopStart_of_ok hb, startRow_of_no_waiting _ _ _ hw hb, ← semWait_of_new hnew]
    simp [rowNop, hop, startable, canStart, hwant, hturn]
  case add =>
    intro s q b h hop hadd
    exact exec_of_starts _ semAddAct s q b h (by simp [hop, hadd]) _ (by simp [semAddAct]) (by simp)
  case set =>
    intro s q b h hop hset
    exact exec_of_starts _ semSetAct s q b h (by simp [hop, hset]) _ (by simp [semSetAct]) (by simp)
  case ctl =>
    intro s q r b h hop hr hd hx
    exact ⟨fun hn => exec_ctl ctlTimeout_pwr h hop hn hr hd hx, fun hn => exec_ctl ctlBudget_pwr h hop hn hr hd hx,
      fun hn => exec_ctl ctlHalt_pwr h hop hn hr hd hx, fun hn => exec_ctl ctlDisable_pwr h hop hn hr hd hx,
      fun hn => exec_ctl ctlEnable_pwr h hop hn hr hd hx, fun hn => exec_ctl ctlEventDev_pwr h hop hn hr hd hx⟩
  case turn =>
    intro s q r b hs hw hb _ hcan hr hst
    have hsame (hbefore : servedBefore s r q = true) : exec (.nop q) s = .next s :=
      serving_of (nopStart q) s s hs (nopStart_of_not_inTurn hw hb hcan (not_inTurn_of_servedBefore hr hst hbefore)) rfl
    exact ⟨fun hlc hbe => hsame (by simp [servedBefore, hlc, hbe]), fun hcls hplace => hsame (by simp [servedBefore, hcls, hplace])⟩

/-- Settles O9: `ctlResume` and `ctlFlush` by whether the queue is halted. -/
theorem queueResumeAndFlush : Obligations.QueueResumeAndFlush := by
  refine ⟨?resume, ?flush⟩
  case resume =>
    intro s q r b h hop hn hr hd hx
    have hexec := exec_ctl ctlResume_pwr h hop hn hr hd hx
    refine ⟨fun hh => ?_, fun hh => ?_⟩
    · rwa [ctlResume_of_halted _ (by simp [hh])] at hexec
    · rwa [ctlResume_of_active _ (by simp [hh])] at hexec
  case flush =>
    intro s q r b h hop hn hr hd hx
    have hexec := exec_ctl ctlFlush_pwr h hop hn hr hd hx
    refine ⟨fun hh hne => ⟨flushedCmds (beginCmd q b s) r, ?_, ?_, ?_⟩, fun hh => ?_⟩
    · rwa [ctlFlush_of_halted _ (by simp [hh])] at hexec
    · simp [flushedCmds, beginCmd_queue_ne s q b r hne]
    · intro i hi
      simp [flushedCmds, beginCmd_queue_ne s q b r hne]
    · rwa [ctlFlush_of_active _ (by simp [hh])] at hexec

end Sys2Proof.Machine
end

section
/-! PROOFS. Contexts, regions, weight epochs and sequences of a queue's context (R191 to R193, R227 to R229, R357, R358, R381 to R383), and the
writing of completions (R360, R367 to R369, R545). -/
namespace Sys2Proof.Machine

/-! ### What starting a command leaves of its context -/

section
variable (s : State) (q : Nat) (b : Bytes) (y : Nat)

@[simp] theorem beginCmd_ctx_started : ((beginCmd q b s).ctx y).started = (s.ctx y).started := by
  obtain ⟨m, h⟩ := beginCmd_ctx s q b y; rw [h]
@[simp] theorem beginCmd_ctx_preReq : ((beginCmd q b s).ctx y).preReq = (s.ctx y).preReq := by
  obtain ⟨m, h⟩ := beginCmd_ctx s q b y; rw [h]
@[simp] theorem beginCmd_ctx_slotMask : ((beginCmd q b s).ctx y).slotMask = (s.ctx y).slotMask := by
  obtain ⟨m, h⟩ := beginCmd_ctx s q b y; rw [h]

@[simp] theorem ffTrace_health (c d u : Nat) (x : Option Nat) (b : Bytes) : (ffTrace c d u x b s).hub.health = s.hub.health := by
  unfold ffTrace
  split
  · rfl
  · split <;> rfl

@[simp] theorem beginCmd_health : (beginCmd q b s).hub.health = s.hub.health := by
  obtain h | h := Nat.lt_or_ge (cWait b) 0xFFF
  · simp [beginCmd, semTake_of_lt h, Hub.passTurn, apply_ite]
  · simp [beginCmd, semTake_of_none h, Hub.passTurn, apply_ite]

@[simp] theorem beginCmd_regionsAt (a n : Nat) : ((beginCmd q b s).ctx y).regionsAt a n = (s.ctx y).regionsAt a n := by
  simp [Ctx.regionsAt]

@[simp] theorem beginCmd_loadsOf : loadsOf (beginCmd q b s) y = loadsOf s y := by
  simp [loadsOf, loadsEpoch]

@[simp] theorem beginCmd_epochLoads (e : EpochEntry) : epochLoads (beginCmd q b s) y e = epochLoads s y e := by
  have h : loadsEpoch (beginCmd q b s) y e = loadsEpoch s y e := by funext j; simp [loadsEpoch]
  simp [epochLoads, h]

@[simp] theorem beginCmd_workRuns : workRuns (beginCmd q b s) y = workRuns s y := by simp [workRuns]

@[simp] theorem beginCmd_inEpochMask (i : Nat) : inEpochMask (beginCmd q b s) y i = inEpochMask s y i := by simp [inEpochMask]

@[simp] theorem beginCmd_epochMask (c : Bytes) : epochMask (beginCmd q b s) y c = epochMask s y c := by simp [epochMask]

@[simp] theorem beginCmd_currentEpoch : currentEpoch (beginCmd q b s) y = currentEpoch s y := by simp [currentEpoch]

@[simp] theorem beginCmd_seqOwned (t : Nat) : seqOwned (beginCmd q b s) y t = seqOwned s y t := by simp [seqOwned]

end

/-! ### Commands that wait for a condition of their context -/

/-- What a poll of queue q does with one command in flight. -/
def pollOne (q : Nat) (t : State) (c : Cmd) : State :=
  let x := (t.queue q).ctx
  if c.status.isSome || c.waiting then t
  else match cOp c.bytes with
    | 0x02 => if loadsOf t x = 0 then
        finishCmd q c.idx stOk 0 0 (t.modCtx x (fun k => { k with st := if k.st = .loading then .ready else k.st })) else t
    | 0x03 => if closeReady t x then finishCmd q c.idx stOk 0 0 (emptyCtx x t) else t
    | 0x24 => if (t.seq (leAt c.bytes 24 2)).inFlight = 0 then finishCmd q c.idx stOk 0 0 (closeSeq (leAt c.bytes 24 2) t) else t
    | _ => t

theorem pollWaits_eq_foldl (q : Nat) (s : State) :
    pollWaits q s = ((tryPreempted (s.queue q).ctx s).queue q).flight.foldl (pollOne q) (tryPreempted (s.queue q).ctx s) := rfl

theorem pollOne_of_idle (q : Nat) (t : State) {c : Cmd} (h : c.status.isSome = true ∨ (cOp c.bytes ≠ 2 ∧ cOp c.bytes ≠ 3 ∧ cOp c.bytes ≠ 0x24)) :
    pollOne q t c = t := by
  unfold pollOne
  dsimp only
  split
  · rfl
  · next hno =>
    obtain hst | ⟨h2, h3, h24⟩ := h
    · simp [hst] at hno
    · split
      · exact absurd ‹_› h2
      · exact absurd ‹_› h3
      · exact absurd ‹_› h24
      · rfl

theorem tryPreempted_of_not_asked {x : Nat} {s : State} (h : (s.ctx x).preReq ≠ 1) : tryPreempted x s = s := by
  simp [tryPreempted, h]

/-- With no earlier command waiting for its context, a poll looks at the newest command of the flight alone. -/
theorem pollWaits_of_noWaits {s u : State} {q : Nat} {c : Cmd} (h : NoWaits s q) (hpre : (u.ctx (u.queue q).ctx).preReq ≠ 1)
    (hfl : (u.queue q).flight = (s.queue q).flight ++ [c]) : pollWaits q u = pollOne q u c := by
  have hidle : ∀ l : List Cmd, (∀ c ∈ l, c.status.isSome = true ∨ (cOp c.bytes ≠ 2 ∧ cOp c.bytes ≠ 3 ∧ cOp c.bytes ≠ 0x24)) →
      l.foldl (pollOne q) u = u := by
    intro l
    induction l with
    | nil => exact fun _ => rfl
    | cons c l ih =>
      intro hl
      rw [List.foldl_cons, pollOne_of_idle q u (hl c List.mem_cons_self), ih fun d hd => hl d (List.mem_cons_of_mem _ hd)]
  rw [pollWaits_eq_foldl, tryPreempted_of_not_asked hpre, hfl, List.foldl_append, hidle _ h.2]
  rfl

/-! ### Contexts -/

/-- With none of the failures there, the command goes on. -/
theorem firstOf_of_none {fs : List (Bool × Nat)} (h : ∀ f ∈ fs, f.1 = false) : firstOf fs = stOk := by
  rw [firstOf, List.filter_eq_nil_iff.mpr fun f hf => by simp [h f hf]]
  rfl

section
variable {u : State} {q k : Nat} {b : Bytes}

theorem ctxOpenAct_of_empty {d : Bytes} (hd : qRead u q (leAt b 32 8) 128 = .ok d)
    (hvia : u.hub.health ≠ .quarantine ∨ k ∈ (u.queue q).viaFleet) (hbad : ctxDescBad (u.ctx (u.queue q).ctx).lc d = false)
    (hst : (u.ctx (u.queue q).ctx).st = .empty) :
    ctxOpenAct q k b u = finishCmd q k stOk 0 0 (loadCtx (u.queue q).ctx d u) := by
  simp only [ctxOpenAct, hd]
  rw [firstOf_of_none, if_neg (by simp)]
  have hdeny : (decide (u.hub.health = .quarantine) && !(u.queue q).viaFleet.contains k) = false := by
    obtain h | h := hvia <;> simp [h]
  simp only [List.forall_mem_cons, List.not_mem_nil, IsEmpty.forall_iff, implies_true, hdeny, hbad, hst, decide_false, ne_eq, not_true,
    and_self]

theorem ctxReadyAct_of_loading (hst : (u.ctx (u.queue q).ctx).st = .loading) : ctxReadyAct q k b u = pollWaits q u := by
  simp [ctxReadyAct, hst]

theorem ctxCloseAct_of_open (hmolt : (u.ctx (u.queue q).ctx).st ≠ .molting) (hempty : (u.ctx (u.queue q).ctx).st ≠ .empty) :
    ctxCloseAct q k b u = pollWaits q (u.modCtx (u.queue q).ctx (fun c => { c with closing := some (q, k) })) := by
  simp [ctxCloseAct, hmolt, hempty]

/-- A CTX_READY that waits completes once no load is pending. -/
theorem pollOne_ctxReady {c : Cmd} (hc : c.status = none) (hw : c.waiting = false) (hop : cOp c.bytes = 2)
    (hst : (u.ctx (u.queue q).ctx).st = .loading) (hloads : loadsOf u (u.queue q).ctx = 0) :
    pollOne q u c = finishCmd q c.idx stOk 0 0 (u.modCtx (u.queue q).ctx (fun k => { k with st := .ready })) := by
  rw [State.modCtx_congr _ _ _ (fun k => { k with st := if k.st = .loading then .ready else k.st }) (by simp [hst])]
  simp [pollOne, hc, hw, hop, hloads]

/-- A CTX_CLOSE that waits completes once nothing of the context is left. -/
theorem pollOne_ctxClose {c : Cmd} (hc : c.status = none) (hw : c.waiting = false) (hop : cOp c.bytes = 3)
    (hready : closeReady u (u.queue q).ctx = true) : pollOne q u c = finishCmd q c.idx stOk 0 0 (emptyCtx (u.queue q).ctx u) := by
  simp [pollOne, hc, hw, hop, hready]

/-- A SEQ_CLOSE that waits completes once none of its launches is in flight. -/
theorem pollOne_seqClose {c : Cmd} (hc : c.status = none) (hw : c.waiting = false) (hop : cOp c.bytes = 0x24)
    (hidle : (u.seq (leAt c.bytes 24 2)).inFlight = 0) :
    pollOne q u c = finishCmd q c.idx stOk 0 0 (closeSeq (leAt c.bytes 24 2) u) := by
  simp [pollOne, hc, hw, hop, hidle]

end

/-- Settles O10: the effect of each row, and the poll that completes CTX_READY and CTX_CLOSE. -/
theorem contextLife : Obligations.ContextLife := by
  refine ⟨?opens, ?ready, ?close⟩
  case opens =>
    intro s q b d h hop hd hvia hbad hst
    refine exec_of_starts _ ctxOpenAct s q b h (by simp [hop]) _ ?_ (by simp)
    rw [ctxOpenAct_of_empty (d := d) (by simpa using hd) (by simpa using hvia) (by simpa using hbad) (by simpa using hst)]
    simp [loadCtx]
  case ready =>
    intro s q b h hop hno hst hloads
    refine exec_of_starts _ ctxReadyAct s q b h (by simp [hop]) _ ?_ (by simp)
    rw [ctxReadyAct_of_loading (by simpa using hst),
      pollWaits_of_noWaits hno (by simpa using hno.1) (congrArg Queue.flight (beginCmd_queue s q b)),
      pollOne_ctxReady rfl rfl hop (by simpa using hst) (by simpa using hloads)]
    simp [State.nextIdx]
  case close =>
    intro s q b h hop hno hmolt hempty hready
    refine exec_of_starts _ ctxCloseAct s q b h (by simp [hop]) _ ?_ (by simp)
    rw [ctxCloseAct_of_open (by simpa using hmolt) (by simpa using hempty),
      pollWaits_of_noWaits (u := (beginCmd q b s).modCtx _ _) hno (by simpa using hno.1) (congrArg Queue.flight (beginCmd_queue s q b)),
      pollOne_ctxClose rfl rfl hop (by simpa [closeReady, workRuns] using hready)]
    simp [State.nextIdx]

end Sys2Proof.Machine
end

section
/-! PROOFS. Changes of the region table (R191 to R193, R228, R479). -/
namespace Sys2Proof.Machine

/-! ### What a completion leaves of a context -/

/-- The end of a started command changes no more of a context than its count of started work and its state. -/
theorem ctxDone_ctx (x : Nat) (s : State) (y : Nat) : ∃ n v, (ctxDone x s).ctx y = { s.ctx y with started := n, st := v } := by
  unfold ctxDone
  rw [State.ctx_modCtx]
  split
  next h => subst h; exact ⟨_, _, rfl⟩
  next => exact ⟨_, _, rfl⟩

/-- A completion changes no more of a context than its count of started work and its state. -/
theorem finishCmd_ctx (q k st d1 d2 : Nat) (s : State) (y : Nat) :
    ∃ n v, (finishCmd q k st d1 d2 s).ctx y = { s.ctx y with started := n, st := v } := by
  unfold finishCmd
  split
  · exact ⟨_, _, rfl⟩
  · dsimp only
    split
    · exact ⟨_, _, rfl⟩
    · generalize ht : ite (_ = stInternal) _ _ = t
      have hkeep : t.ctx y = s.ctx y := by
        rw [← ht, apply_ite (fun u : State => u.ctx y), logInternal_ctx, ite_self, modCmd_ctx]
      split
      · obtain ⟨n, v, h⟩ := ctxDone_ctx (t.queue q).ctx t y
        exact ⟨n, v, h.trans (by rw [hkeep])⟩
      · exact ⟨_, _, hkeep⟩

/-! ### The list of changes of a context -/

section
variable {s : State} {x : Nat} {ch : RegionChange}

@[simp] theorem answerChange_changes (st : Nat) (ch : RegionChange) (s : State) (y : Nat) :
    ((answerChange st ch s).ctx y).changes = (s.ctx y).changes := by
  unfold answerChange
  split
  · obtain ⟨n, v, h⟩ := finishCmd_ctx _ _ st 0 0 s y
    rw [h]
  · rfl

theorem advanceChanges_of_none (n : Nat) (h : (s.ctx x).changes = []) : advanceChanges n x s = s := by
  cases n with
  | zero => rfl
  | succ n => simp [advanceChanges, h]

/-- A grant whose slot is the context's and whose entry is legal draws the keys of its slot (R192, R479). -/
theorem advanceChanges_of_grant {n : Nat} (hn : 0 < n) {rest : List RegionChange} (h : (s.ctx x).changes = ch :: rest) (hg : ch.grant = true)
    (hslot : ch.entry.keySlot ≠ 0) (hmask : bit (s.ctx x).slotMask ch.entry.keySlot = true)
    (hlegal : regionLegal s x ch.index ch.entry = true) : advanceChanges n x s = drawKeys ch.entry.keySlot s := by
  obtain ⟨m, rfl⟩ := Nat.exists_eq_succ_of_ne_zero hn.ne'
  simp [advanceChanges, h, hg, hslot, hmask, hlegal]

/-- A revocation that no weight epoch forbids clears its entry (R193, R371). -/
theorem advanceChanges_of_revocation {n : Nat} (hn : 0 < n) {rest : List RegionChange} (h : (s.ctx x).changes = ch :: rest) (hg : ch.grant = false)
    (hmask : inEpochMask s x ch.index = false) :
    advanceChanges n x s = s.modCtx x (fun c => { c with regions := c.regions.set ch.index {} }) := by
  obtain ⟨m, rfl⟩ := Nat.exists_eq_succ_of_ne_zero hn.ne'
  simp [advanceChanges, h, hg, hmask]

theorem askChange_of_first (h : (s.ctx x).changes = []) :
    askChange x ch s = advanceChanges 64 x (s.modCtx x (fun c => { c with changes := [ch] })) := by
  rw [State.modCtx_congr s x _ (fun c => { c with changes := c.changes ++ [ch] }) (by simp [h])]
  simp [askChange, h]

/-- The end of the only change answers its command. -/
theorem endChange_of_last (h : (s.ctx x).changes = [ch]) (hr : ch.release = none) :
    endChange x s = sweepKeys (answerChange stOk ch (s.modCtx x (fun c => { c with changes := [] }))) := by
  simp only [endChange, h, hr]
  rw [advanceChanges_of_none _ (by simp)]

/-- The end of the last revocation for a released epoch frees its entry and posts its notice (R228). -/
theorem endChange_of_last_release {n : Nat} (h : (s.ctx x).changes = [ch]) (hr : ch.release = some n) :
    endChange x s = sweepKeys (freeEpoch x n (answerChange stOk ch (s.modCtx x (fun c => { c with changes := [] })))) := by
  simp only [endChange, h, hr, List.any_nil, Bool.false_eq_true, if_false]
  rw [advanceChanges_of_none _ (by simp [freeEpoch])]

theorem regionZeroed_of_grant (h : (s.ctx x).changes = [ch]) (hg : ch.grant = true) :
    regionZeroed x s = endChange x ((zeroRange ch.entry.base (ch.entry.size * 0x200000) s).modCtx x
      (fun c => { c with regions := c.regions.set ch.index ch.entry })) := by
  simp [regionZeroed, h, hg]

theorem regionRevoked_of_idle (h : (s.ctx x).changes = [ch]) (hg : ch.grant = false) (hw : workRuns s x = false) :
    regionRevoked x s = endChange x s := by
  simp [regionRevoked, h, hg, hw]

theorem regionSetAct_of_form {q k : Nat} {b : Bytes} (h : bits (leAt (slice b 32 16) 12 4) 5 19 = 0)
    (hch : (s.ctx (s.queue q).ctx).changes = []) :
    regionSetAct q k b s = advanceChanges 64 (s.queue q).ctx (s.modCtx (s.queue q).ctx (fun c => { c with
      changes := [{ index := leAt b 24 1, grant := (regionOf (slice b 32 16)).valid, entry := regionOf (slice b 32 16),
                    queue := some (q, k) }] })) := by
  rw [← askChange_of_first hch]
  simp [regionSetAct, h]

end

/-- Settles O11: the head of the list of changes, as it begins and as it ends. -/
theorem regionChanges : Obligations.RegionChanges := by
  refine ⟨?ask, ?zeroed, ?revoked⟩
  case ask =>
    rintro s q b r h hop hform rfl hch
    have hact := regionSetAct_of_form (s := beginCmd q b s) (q := q) (k := s.nextIdx q) hform (by simpa using hch)
    rw [beginCmd_queue_ctx] at hact
    have hhead : ∀ l : List RegionChange,
        (((beginCmd q b s).modCtx (s.queue q).ctx (fun c => { c with changes := l })).ctx (s.queue q).ctx).changes = l := by simp
    refine ⟨fun hv hslot hmask hlegal => ?_, fun hv hmask => ?_⟩
    · refine exec_of_starts _ regionSetAct s q b h (by simp [hop]) _ (hact.trans ?_) (by simp)
      exact advanceChanges_of_grant (by decide) (hhead _) hv hslot (by simpa using hmask) hlegal
    · refine exec_of_starts _ regionSetAct s q b h (by simp [hop]) _ (hact.trans ?_) (by simp)
      exact advanceChanges_of_revocation (by decide) (hhead _) hv (by simpa [inEpochMask] using hmask)
  case zeroed =>
    intro s x ch hs hch hg hr
    refine serving_of _ s _ hs ((regionZeroed_of_grant hch hg).trans ?_) (by simp)
    have hctx : (((zeroRange ch.entry.base (ch.entry.size * 0x200000) s).modCtx x
        (fun c => { c with regions := c.regions.set ch.index ch.entry })).ctx x).changes = [ch] := by
      rw [State.ctx_modCtx_same]; exact hch
    rw [endChange_of_last hctx hr, State.modCtx_modCtx]
  case revoked =>
    intro s x ch hs hch hg hw
    have hrev := regionRevoked_of_idle hch hg hw
    refine ⟨fun hr => serving_of _ s _ hs (hrev.trans (endChange_of_last hch hr)) (by simp), fun n hr hq => ?_⟩
    refine serving_of _ s _ hs (hrev.trans ((endChange_of_last_release hch hr).trans ?_)) (by simp)
    rw [answerChange, hq, freeEpoch, State.modCtx_modCtx]

end Sys2Proof.Machine
end

section
/-! PROOFS. Weight epochs and sequences (R227 to R229, R371, R381 to R383), and the writing of completions (R360, R367 to R369, R545). -/
namespace Sys2Proof.Machine

section
variable {u : State} {q k : Nat} {b : Bytes}

/-! ### Weight epochs -/

theorem publishLoad_of_new {m : Nat} (hm : epochMask u (u.queue q).ctx b = .ok m) (hroom : (u.ctx (u.queue q).ctx).epochs.length < 4)
    (hnew : ∀ e ∈ (u.ctx (u.queue q).ctx).epochs, e.num ≠ leAt b 24 4) :
    publishLoad q k b u = finishCmd q k stOk 0 0 (u.modCtx (u.queue q).ctx (fun c => { c with
      epochs := c.epochs ++ [{ num := leAt b 24 4, st := .loading, mask := m, progBase := leAt b 32 8 }] })) := by
  have hany : (decide ((u.ctx (u.queue q).ctx).epochs.length ≥ 4) ||
      (u.ctx (u.queue q).ctx).epochs.any (fun e => e.num = leAt b 24 4)) = false := by
    simpa using ⟨hroom, hnew⟩
  simp only [publishLoad, hm, hany]
  rfl

theorem publishCurrent_of_loaded {e : EpochEntry} (he : (u.ctx (u.queue q).ctx).epochs.find? (fun e => e.num = leAt b 24 4) = some e)
    (hst : e.st = .loading) (hload : epochLoads u (u.queue q).ctx e = false) :
    publishCurrent q k b u = finishCmd q k stOk 0 0 (makeCurrent (u.queue q).ctx (leAt b 24 4) u) := by
  simp [publishCurrent, he, hst, hload]

theorem epochRetire_of_unused {e : EpochEntry} (he : (u.ctx (u.queue q).ctx).epochs.find? (fun e => e.num = leAt b 24 4) = some e)
    (hst : e.st ≠ .current) (hrefs : e.refs = 0) (hrel : e.releasing = false) :
    epochRetire q k b u = finishCmd q k stOk 0 0 (u.modCtx (u.queue q).ctx (fun c => { c with
      epochs := c.epochs.filter (fun f => f.num ≠ leAt b 24 4) })) := by
  simp [epochRetire, he, hst, hrefs, hrel]

/-! ### Sequences -/

theorem seqOpenAct_of_closed {e : EpochEntry} (hown : seqOwned u (u.queue q).ctx (leAt b 24 2) = true)
    (hadm : (u.ctx (u.queue q).ctx).admits = true) (hcur : currentEpoch u (u.queue q).ctx = some e)
    (hclosed : (u.seq (leAt b 24 2)).isOpen = false) :
    seqOpenAct q k b u = finishCmd q k stOk 0 0 (pinEpoch (u.queue q).ctx e.num
      (u.modSeq (leAt b 24 2) (fun _ => { isOpen := true, ctx := (u.queue q).ctx, epoch := e.num }))) := by
  simp [seqOpenAct, hown, hadm, hcur, hclosed]

theorem seqCloseAct_of_open (hown : seqOwned u (u.queue q).ctx (leAt b 24 2) = true) (hopen : (u.seq (leAt b 24 2)).isOpen = true)
    (hx : (u.seq (leAt b 24 2)).ctx = (u.queue q).ctx) : seqCloseAct q k b u = pollWaits q u := by
  simp [seqCloseAct, hown, hopen, hx]

theorem closeSeq_of_open {t : Nat} (hopen : (u.seq t).isOpen = true) :
    closeSeq t u = unpinEpoch (u.seq t).ctx (u.seq t).epoch (u.modSeq t (fun _ => {})) := by
  simp [closeSeq, hopen]

/-! ### The completion ring -/

/-- An entry that may be written and is written advances Q (R360). -/
theorem putEntry_of_written {v : State} {e : Bytes}
    (hmay : qMay u q ((u.queue q).cpl + 16 * ((u.queue q).q.toNat % (u.queue q).size)) 16 true false = true)
    (hw : writeMem u ((u.queue q).cpl + 16 * ((u.queue q).q.toNat % (u.queue q).size)) e = (v, true)) :
    putEntry q e u = (v.modQueue q (fun w => { w with q := w.q + 1, unwritten := none }), true) := by
  simp [putEntry, hmay, hw]

end

section
variable {s t : State} {q : Nat}

/-- A notice that waits is the next entry of the ring (R369). -/
theorem completionWrite_of_notice {n : Nat} {rest : List Nat} (ht : t = pollWaits q s) (hd : (t.queue q).defined = true)
    (hun : (t.queue q).unwritten = none) (hfree : slotFree (t.queue q) 0 = true) (hn : (t.queue q).notices = n :: rest) :
    completionWrite q s =
      if (putEntry q (noticeBytes (t.queue q) n) t).2 then
        (putEntry q (noticeBytes (t.queue q) n) t).1.modQueue q (fun w => { w with notices := rest })
      else (putEntry q (noticeBytes (t.queue q) n) t).1 := by
  subst ht
  simp [completionWrite, pendingCpl, hd, hun, hfree, hn]

/-- With no notice waiting the completion of the oldest command is the next entry, once it has its status (R367). -/
theorem completionWrite_of_done {c : Cmd} {rest : List Cmd} (ht : t = pollWaits q s) (hd : (t.queue q).defined = true)
    (hun : (t.queue q).unwritten = none) (hfree : slotFree (t.queue q) 0 = true) (hn : (t.queue q).notices = [])
    (hf : (t.queue q).flight = c :: rest) (hc : c.status.isSome = true) :
    completionWrite q s =
      if (putEntry q (cplBytes (t.queue q) c (finalStatus t (t.queue q).ctx c)) t).2 then
        afterCpl q c (finalStatus t (t.queue q).ctx c)
          ((putEntry q (cplBytes (t.queue q) c (finalStatus t (t.queue q).ctx c)) t).1.modQueue q (fun w => { w with flight := rest }))
      else (putEntry q (cplBytes (t.queue q) c (finalStatus t (t.queue q).ctx c)) t).1 := by
  subst ht
  obtain ⟨v, hv⟩ := Option.isSome_iff_exists.mp hc
  simp [completionWrite, pendingCpl, hd, hun, hfree, hn, hf, hv]

end

/-! ### The statements -/

/-- Settles O12: the effects of the three rows on the entries of the epoch table. -/
theorem weightEpochs : Obligations.WeightEpochs := by
  refine ⟨?load, ?current, ?retire⟩
  case load =>
    intro s q m b h hop hmode hm hroom hnew
    refine exec_of_starts _ publishLoad s q b h (by simp [hop, hmode]) _ ?_ (by simp)
    rw [publishLoad_of_new (by simpa using hm) (by simpa using hroom) (by simpa using hnew), beginCmd_queue_ctx]
  case current =>
    intro s q b e h hop hmode he hst hload
    refine exec_of_starts _ publishCurrent s q b h (by simp [hop, hmode]) _ ?_ (by simp)
    rw [publishCurrent_of_loaded (by simpa using he) hst (by simpa using hload), beginCmd_queue_ctx, makeCurrent]
  case retire =>
    intro s q b e h hop he hst hrefs hrel
    refine exec_of_starts _ epochRetire s q b h (by simp [hop]) _ ?_ (by simp)
    rw [epochRetire_of_unused (by simpa using he) hst hrefs hrel, beginCmd_queue_ctx]

/-- Settles O13: SEQ_OPEN pins the CURRENT entry, and the poll that completes SEQ_CLOSE releases the pin. -/
theorem sequencesPinEpochs : Obligations.SequencesPinEpochs := by
  refine ⟨?opens, ?close⟩
  case opens =>
    intro s q b e h hop hown hadm hcur hclosed
    refine exec_of_starts _ seqOpenAct s q b h (by simp [hop]) _ ?_ (by simp)
    rw [seqOpenAct_of_closed (by simpa using hown) (by simpa using hadm) (by simpa using hcur) (by simpa using hclosed), beginCmd_queue_ctx]
    rfl
  case close =>
    intro s q b h hop hno hown hopen hx hidle
    refine exec_of_starts _ seqCloseAct s q b h (by simp [hop]) _ ?_ (by simp)
    rw [seqCloseAct_of_open (by simpa using hown) (by simpa using hopen) (by simpa using hx),
      pollWaits_of_noWaits hno (by simpa using hno.1) (congrArg Queue.flight (beginCmd_queue s q b)),
      pollOne_seqClose rfl rfl hop (by simpa using hidle), closeSeq_of_open (by simpa using hopen)]
    simp [hx, State.nextIdx]

/-- Settles O14: the entry written is the notice that waits, else the completion of the oldest command. -/
theorem completionsWritten : Obligations.CompletionsWritten := by
  refine ⟨?cmd, ?notice⟩
  case cmd =>
    rintro s q c rest st t u hs ht hd hun hfree hn hf hc rfl hmay hw
    have heff := (completionWrite_of_done ht hd hun hfree hn hf hc).trans (if_pos (by rw [putEntry_of_written hmay hw]))
    rw [putEntry_of_written hmay hw, State.modQueue_modQueue] at heff
    refine serving_of _ s _ hs heff ?_
    rw [← heff, completionWrite_pwr]
  case notice =>
    rintro s q n rest t u hs ht hd hun hfree hn hmay hw
    have heff := (completionWrite_of_notice ht hd hun hfree hn).trans (if_pos (by rw [putEntry_of_written hmay hw]))
    rw [putEntry_of_written hmay hw, State.modQueue_modQueue] at heff
    refine serving_of _ s _ hs heff ?_
    rw [← heff, completionWrite_pwr]

end Sys2Proof.Machine
end

section
/-! PROOFS. Opening a step (R235 to R237, R252, R253, R364, R400). -/
namespace Sys2Proof.Machine

/-! ### What starting a command leaves of its context -/

section
variable (s : State) (q : Nat) (b : Bytes) (y : Nat)

@[simp] theorem beginCmd_sl : (beginCmd q b s).sl y = s.sl y := beginCmd_ctx_sl s q b y

@[simp] theorem beginCmd_ctx_molt : ((beginCmd q b s).ctx y).molt = (s.ctx y).molt := by
  obtain ⟨m, h⟩ := beginCmd_ctx s q b y; rw [h]

@[simp] theorem beginCmd_ctx_ledger : ((beginCmd q b s).ctx y).ledger = (s.ctx y).ledger := by
  obtain ⟨m, h⟩ := beginCmd_ctx s q b y; rw [h]

@[simp] theorem beginCmd_moltOn : moltOn ((beginCmd q b s).ctx y) = moltOn (s.ctx y) := by simp [moltOn]

end

/-! ### The effect of STEP_OPEN -/

/-- The kind of step that body byte 24 names (R364). -/
def openKind (b : Bytes) : StepKind := if leAt b 24 1 = 1 then .rediscovery else if leAt b 24 1 = 2 then .verify else .normal

/-- The step that a STEP_OPEN of a kind opens: the next one, or the last one again for a verify step (R235). -/
def nextStep (sl : StepLine) (kind : StepKind) : Nat := if kind = .verify then sl.hdr.step else sl.hdr.step + 1

/-- A STEP_OPEN that R371 does not refuse: a job with a ledger, no step open, and the step the next one, not abandoned in this epoch. -/
def OpenFits (u : State) (x : Nat) (b : Bytes) : Prop :=
  (u.ctx x).jobTag ≠ 0 ∧ (u.ctx x).job.isSome = true ∧ (u.sl x).isOpen = false ∧ cStep b = nextStep (u.sl x) (openKind b) ∧
  ((u.sl x).cur = some .abandoned → (u.sl x).step ≠ cStep b)

section
variable {u : State} {q k : Nat} {b : Bytes}

theorem stepOpenAct_of_abandoned (hcur : (u.sl (u.queue q).ctx).cur = some .abandoned) (hstep : (u.sl (u.queue q).ctx).step = cStep b) :
    stepOpenAct q k b u = finishCmd q k stConflict 0 0 u := by
  have h : abandonedHere (u.ctx (u.queue q).ctx).sl (cStep b) = true := by
    simp only [State.sl] at hcur hstep
    simp [abandonedHere, hcur, hstep]
  simp [stepOpenAct, h]

/-- What STEP_OPEN does once R371 and the molt let it pass. -/
theorem stepOpenAct_of_fits (h : OpenFits u (u.queue q).ctx b) (hmolt : moltOn (u.ctx (u.queue q).ctx) = false) :
    stepOpenAct q k b u =
      if setpointWaits u (u.queue q).ctx (cStep b) || windowDue u (u.queue q).ctx then holdCmd q k u
      else match ringCtl u (u.queue q).ctx with
        | none => holdCmd q k (lostRing (u.queue q).ctx stMem (notePoison u (u.ctx (u.queue q).ctx).ledger 0x1A))
        | some r =>
          if !capacityOk r.capacity || decide (r.layers > 4096) then finishCmd q k stBad 0 0 u
          else match layerTable u (u.queue q).ctx r.layers with
            | none => holdCmd q k (lostRing (u.queue q).ctx stMem (notePoison u ((u.ctx (u.queue q).ctx).ledger + 0x100) (4 * r.layers)))
            | some t =>
              if !ascending t then finishCmd q k stBad 0 0 u
              else if r.full then holdCmd q k (beginWait (u.queue q).ctx u)
              else
                let w := writeFor u (u.queue q).ctx ((u.ctx (u.queue q).ctx).ledger + 0x14)
                  (le 4 (1024 * ((1024 + 32 * r.layers + 1023) / 1024)))
                if w.2 ≠ stOk then holdCmd q k (lostRing (u.queue q).ctx w.2 w.1)
                else openStep q k (u.queue q).ctx (cStep b) (openKind b) r.capacity t (cellsBoundary (u.queue q).ctx w.1) := by
  obtain ⟨htag, hjob, hopen, hstep, hab⟩ := h
  unfold stepOpenAct
  simp only [State.sl] at hopen hstep hab
  rw [if_neg, if_neg]
  · rfl
  · simp [hmolt]
  · have hnot : abandonedHere (u.ctx (u.queue q).ctx).sl (cStep b) = false := by simpa [abandonedHere] using hab
    simp [htag, hopen, hnot, Option.isNone_iff_eq_none, Option.isSome_iff_ne_none.mp hjob]
    exact hstep

end

/-! ### The step line of an opened step -/

theorem enterPhase_sl (x : Nat) (ph : Phase) (s : State) : ∃ us, (enterPhase x ph s).sl x = { s.sl x with phase := ph, phaseClk := s.clk, phaseUs := us } := by
  unfold enterPhase
  rw [ffTrace_sl, State.sl_modSl_same]
  exact ⟨_, rfl⟩

/-- The fields of the line that are fresh in a step that is not a verify step (R235). -/
theorem openStep_sl (q k x step cap : Nat) {kind : StepKind} (tab : List (Nat × Int)) (s : State) (h : kind ≠ .verify) :
    let l := (openStep q k x step kind cap tab s).sl x
    l.isOpen = true ∧ l.phase = .fwd ∧ l.step = step ∧ l.kind = kind ∧ l.table = tab ∧ l.capacity = cap ∧ l.decision = none ∧
    l.summed = [] ∧ l.ownVote = false ∧ l.updateEnd = false ∧ l.adapted = [] ∧ l.pend = (s.sl x).pend ∧ l.epoch = (s.sl x).epoch := by
  simp only [openStep, h, if_false]
  obtain ⟨us, hus⟩ := enterPhase_sl x .fwd (finishCmd q k stOk 0 0 _)
  rw [hus]
  split <;> simp [openLine, endWait]

/-- A row of STEP_OPEN that ends no message answers what its effect leaves. -/
theorem exec_open {s t : State} {q n : Nat} {b : Bytes} (h : Starts s q b) (hop : cOp b = 0x10) (hn : leAt b 24 1 = n)
    (ht : stepOpenAct q (s.nextIdx q) b (beginCmd q b s) = t) (he : t.ended = []) :
    net (fun u => startRow (rowOpen n) stepOpenAct q u openReady) s = .next t :=
  net_of_starts _ stepOpenAct s q b h (by simp [rowOpen, hop, hn]) t ht he (by simp [← ht]) openReady

/-- Settles O15: the effect of STEP_OPEN by what it finds, and the line that `openStep` leaves. -/
theorem stepsOpen : Obligations.StepsOpen := by
  refine ⟨?opens, ?abandoned, fun s q k x step cap kind tab => openStep_sl q k x step cap tab s, ?window⟩
  case opens =>
    rintro s q x b kind r tab w h hop rfl rfl htag hjob hopen hstep hab hmolt hset hring hcap hlay htab hasc hfull hw hwin t he
    have hfits : OpenFits (beginCmd q b s) ((beginCmd q b s).queue q).ctx b := by
      rw [beginCmd_queue_ctx]
      exact ⟨by simpa using htag, by simpa using hjob, by simpa using hopen, by rw [beginCmd_sl]; exact hstep, by simpa using hab⟩
    have heff : stepOpenAct q (s.nextIdx q) b (beginCmd q b s) = t := by
      rw [stepOpenAct_of_fits hfits (by simpa using hmolt)]
      simp [hset, hwin, hring, hcap, hlay, htab, hasc, hfull, hw, t, openKind]
    exact ⟨fun hn => exec_open h hop hn heff he, fun hn => exec_open h hop hn heff he, fun hn => exec_open h hop hn heff he⟩
  case abandoned =>
    intro s q b h hop hcur hstep he t
    have heff : stepOpenAct q (s.nextIdx q) b (beginCmd q b s) = t :=
      stepOpenAct_of_abandoned (by simpa using hcur) (by simpa using hstep)
    have het : t.ended = [] := by simp [t, he]
    exact ⟨fun hn => exec_open h hop hn heff het, fun hn => exec_open h hop hn heff het, fun hn => exec_open h hop hn heff het⟩
  case window =>
    rintro s q x b h hop hn rfl htag hjob hopen hstep hab hmolt hwin he
    have hfits : OpenFits (beginCmd q b s) ((beginCmd q b s).queue q).ctx b := by
      rw [beginCmd_queue_ctx]
      exact ⟨by simpa using htag, by simpa using hjob, by simpa using hopen, by simpa [openKind, nextStep, hn] using hstep, by simpa using hab⟩
    refine exec_open h hop hn ?_ (by simp [holdCmd, he])
    rw [stepOpenAct_of_fits hfits (by simpa using hmolt)]
    simp [hwin]

end Sys2Proof.Machine
end

section
/-! PROOFS. The barrier of a step (R235, R241 to R243, R313), and UPDATE to LEDGER with its records (R246, R250, R253 to R255). -/
namespace Sys2Proof.Machine

/-! ### The barrier -/

section
variable {u : State} {q k : Nat} {b : Bytes}

theorem stepBarrierAct_of_step (hph : (u.sl (u.queue q).ctx).phase = .reduce ∨ (u.sl (u.queue q).ctx).phase = .commit)
    (hstep : (u.sl (u.queue q).ctx).step = cStep b) :
    stepBarrierAct q k b u =
      match (u.sl (u.queue q).ctx).decision with
      | some d => finishCmd q k (barrierAnswer d).1 0 (barrierAnswer d).2 u
      | none =>
        match (u.sl (u.queue q).ctx).barrierCmd with
        | none => u.modSl (u.queue q).ctx (fun l => { l with barrierCmd := some (q, k) })
        | some _ => holdCmd q k u := by
  refine if_neg ?_
  obtain h | h := hph <;> simp [h, hstep]

theorem stepUpdateEndAct_of_decided (hstep : (u.sl (u.queue q).ctx).step = cStep b) (hd : (u.sl (u.queue q).ctx).decision.isSome = true)
    (hopen : (u.sl (u.queue q).ctx).isOpen = true) :
    stepUpdateEndAct q k b u = finishCmd q k stOk 0 0 (u.modSl (u.queue q).ctx (fun l => { l with updateEnd := true })) := by
  simp [stepUpdateEndAct, hstep, hopen, Option.isSome_iff_ne_none.mp hd]

end

section
variable {s : State} {x : Nat}

theorem partialsHanded_of_bwd (hown : ∀ k ∈ s.colls, k.x = x → k.own = []) (hph : (s.sl x).phase = .bwd) :
    partialsHanded x s = tryCommit x (enterPhase x .reduce s) := by
  have hnone : s.colls.any (fun k => k.x = x && !k.own.isEmpty) = false := by simpa using hown
  simp [partialsHanded, hnone, hph]

/-- A loss in COMMIT before the decision abandons the step (R237, R243). -/
theorem stepLoss_of_undecided (st : Nat) (hph : (s.sl x).phase = .commit) (hd : (s.sl x).decision = none) :
    stepLoss x st s = abandonStep x st false s := by
  simp [stepLoss, hph, hd]

theorem commitTimeout_of_undecided (hph : (s.sl x).phase = .commit) (hd : (s.sl x).decision = none) :
    commitTimeout x s = abandonStep x stTimeout false s := by
  simp [commitTimeout, hph, hd, stepLoss_of_undecided stTimeout hph hd]

end

/-- The vote that a VOTE packet carries (R313). -/
abbrev voteOf (p : FjPkt) : Vote :=
  { member := leAt (p.payload.drop 8) 12 2, epoch := leAt (p.payload.drop 8) 0 4, step := leAt (p.payload.drop 8) 4 8,
    vote := leAt (p.payload.drop 8) 14 1, status := leAt (p.payload.drop 8) 15 1, check := slice (p.payload.drop 8) 16 8 }

/-- A vote of a member at a position that is not past is held, and the barrier looks whether it can decide (R242, R313). -/
theorem takeVote_of_member {s : State} {p : FjPkt} (hkind : p.hdr.cls = 0 ∧ p.hdr.ty = 1 ∧ leAt p.payload 0 2 = 1)
    (hform : badVote p (voteOf p) = false) (href : pktRefusal (takeRx s p) p = none) (hjob : (s.ctx p.hdr.ctx).job.isSome = true)
    (hmem : (jobOf s p.hdr.ctx).members[(voteOf p).member]? = some p.hdr.src)
    (hpos : ¬ ((voteOf p).epoch = (s.sl p.hdr.ctx).epoch ∧ (voteOf p).step < (s.sl p.hdr.ctx).step)) :
    takeVote p s = tryDecide p.hdr.ctx ((takeRx s p).modSl p.hdr.ctx (fun l => { l with
      votes := voteOf p :: l.votes.filter (fun w => !(w.member = (voteOf p).member && w.epoch = (voteOf p).epoch && w.step = (voteOf p).step)) })) := by
  have hj : jobOf (takeRx s p) p.hdr.ctx = jobOf s p.hdr.ctx := by simp [jobOf]
  unfold takeVote
  dsimp only
  rw [if_neg (by simp [hkind]), if_neg (by simpa using hform), href, hj]
  dsimp only
  rw [if_neg, if_neg]
  · simp only [Bool.and_eq_true, decide_eq_true_eq]
    exact hpos
  · simpa [Option.isSome_iff_ne_none] using ⟨Option.isSome_iff_ne_none.mp hjob, hmem⟩

theorem badVote_of_form {p : FjPkt} {v : Vote} (he : p.hdr.epoch = v.epoch) (hs : p.hdr.step = v.step) (hph : p.hdr.phase = 4)
    (hlen : 40 ≤ p.payload.length) (hv : v.vote ≤ 2) (hz : ∀ c ∈ slice p.payload 32 8, c = 0) : badVote p v = false := by
  simp [badVote, he, hs, hph, hlen, hv]
  exact hz

/-- Settles O16: each command by the phase and the decision of its step. -/
theorem barrierCommands : Obligations.BarrierCommands := by
  refine ⟨?barrier, ?updateEnd, ?partials, ?vote, ?timeout⟩
  case barrier =>
    rintro s q x b h hop rfl he hph hstep
    have heff := stepBarrierAct_of_step (u := beginCmd q b s) (q := q) (k := s.nextIdx q) (b := b) (by simpa using hph) (by simpa using hstep)
    refine ⟨fun d hd => ?_, fun hd hb => ?_⟩
    · refine net_of_starts _ stepBarrierAct s q b h (by simp [hop]) _ (heff.trans ?_) (by simp [he]) (by simp)
      simp [hd]
    · refine net_of_starts _ stepBarrierAct s q b h (by simp [hop]) _ (heff.trans ?_) (by simp [he]) (by simp)
      simp [hd, hb]
  case updateEnd =>
    rintro s q x b h hop rfl hstep hd hopen
    refine exec_of_starts _ stepUpdateEndAct s q b h (by simp [hop]) _ ?_ (by simp)
    rw [stepUpdateEndAct_of_decided (by simpa using hstep) (by simpa using hd) (by simpa using hopen), beginCmd_queue_ctx]
  case partials =>
    intro s x hs hown hph t he
    exact net_of _ s t hs (partialsHanded_of_bwd hown hph) he (by simp [t])
  case vote =>
    rintro s p v hs hcls hty hop hlen rfl hep hst hph hv hz href hjob hmem hpos t he
    exact net_of _ s t hs (takeVote_of_member ⟨hcls, hty, hop⟩ (badVote_of_form hep hst hph hlen hv hz) href hjob hmem hpos) he (by simp [t])
  case timeout =>
    intro s x hs hph hd t he
    exact net_of _ s t hs (commitTimeout_of_undecided hph hd) he (by simp [t])

end Sys2Proof.Machine
end

section
/-! PROOFS. UPDATE to LEDGER and the records of the steps (R246, R250, R252 to R255). -/
namespace Sys2Proof.Machine

theorem State.modSl_modSl (s : State) (x : Nat) (f g : StepLine → StepLine) : (s.modSl x f).modSl x g = s.modSl x (fun l => g (f l)) := by
  unfold State.modSl
  rw [State.modCtx_modCtx]

@[simp] theorem ffEvent_replay (c v d u : Nat) (x : Option Nat) (b : Bytes) (s : State) : (ffEvent c v d u x b s).hub.replay = s.hub.replay := by
  unfold ffEvent
  split
  · rfl
  · split <;> rfl

theorem pwr_of_writeFor {s u : State} {x a st : Nat} {bs : Bytes} (h : writeFor s x a bs = (u, st)) : u.pwr = s.pwr := by
  rw [← writeFor_pwr s x a bs, h]

section
variable {s : State} {x : Nat}

/-! ### UPDATE and LEDGER -/

theorem adaptationPass_of_due {h : Nat} (hph : (s.sl x).phase = .update) (hend : (s.sl x).updateEnd = true) (hnew : h ∉ (s.sl x).adapted)
    (hmine : h ∈ slotHolders s x) (hidle : updateOn s x h = false) :
    adaptationPass h x s = (((mySlots s x).filter (fun e => e.2.holder = h)).foldl (fun t e => adaptSlot x e.1 e.2 t) s).modSl x
      (fun l => { l with adapted := h :: l.adapted }) := by
  simp [adaptationPass, hph, hend, hnew, hmine, hidle]

/-- The step line as LEDGER finds it: the header after the step, what the loss scale did, and the counts of the blocks (R245, R250, R255). -/
def ledgerLine (x : Nat) (s : State) : State :=
  let o := (s.sl x).cur.getD .committed
  let n := fun (i : Nat) => ((s.sl x).summed.filter (fun b => bit b.2 i)).length
  s.modSl x (fun l => { l with
    hdr := hdrAfter o l.step l.hdr, lsRaised := (adaptLs o (s.sl x).hdr).2.1, lsLowered := (adaptLs o (s.sl x).hdr).2.2.1,
    lsFloor := (adaptLs o (s.sl x).hdr).2.2.2, counts := { l.counts with overflow := n 3, nonfinite := n 1, zeroSum := n 2 } })

theorem ledgerEnter_of_done (hph : (s.sl x).phase = .update) (hend : (s.sl x).updateEnd = true)
    (hdone : ∀ h ∈ slotHolders s x, h ∈ (s.sl x).adapted ∧ updateOn s x h = false)
    (hsamples : ∀ h ∈ s.holders, ∀ e ∈ h.2.samples, ¬ (e.ctx = x ∧ e.step = (s.sl x).step)) :
    ledgerEnter x s = beginLedger x (ledgerLine x s) := by
  refine if_neg ?_
  have hany : (slotHolders s x).any (fun h => !(s.sl x).adapted.contains h || updateOn s x h) = false := by
    simpa using hdone
  have hanyS : s.holders.any (fun h => h.2.samples.any (fun e => e.ctx = x && e.step = (s.sl x).step)) = false := by
    simpa using hsamples
  simp only [hph, hend, hany, hanyS]
  simp

/-! ### Records -/

/-- What stands after a record of `bytes` has been written to the ring, in state `v` (R253 to R255). -/
def recordWritten (x : Nat) (r : PendRec) (rest : List PendRec) (bytes : Bytes) (v : State) : State :=
  let w := v.modSl x (fun l => { l with pend := rest, outcome := r.outcome, lastRecEpoch := some r.epoch, lastRecord := bytes,
                                        ledgerWait := 0, retrying := false })
  tryUpdate x (tryHold x (windowEvents x r.step r.outcome (cellsBoundary x (ledgerEvents x r.step r.outcome bytes
    (ffEvent 0x0111 1 18 (myMember w x) (some x) (le 1 (outCode r.outcome) ++ slice bytes 48 8) w)))))

theorem ledgerRecordWrite_of_due {r : PendRec} {rest : List PendRec} (hp : (s.sl x).pend = r :: rest) (hfp : r.fp = false ∨ (s.sl x).fpDone = true)
    (hret : (s.sl x).retrying = false) : ledgerRecordWrite x s = writeRecord x r rest s := by
  simp only [ledgerRecordWrite, hp, hret]
  refine if_neg ?_
  obtain h | h := hfp <;> simp [h]

/-- A record that did not wait, whose two writes pass, is written, with no thermal replay to compare it with. -/
theorem writeRecord_of_room {r : PendRec} {rest : List PendRec} {c : RingCtl} {u v : State} (hring : ringCtl s x = some c)
    (hroom : (c.producer + 2 ^ 64 - c.consumer) % 2 ^ 64 < r.cap) (hclk : (s.sl x).waitClk = none) (hwait : (s.sl x).ledgerWait = 0)
    (hu : writeFor (endWait x s) x (r.base + 0x8000 + (c.producer % max 1 r.cap) * r.slot) (finalRecord ((endWait x s).sl x) r) = (u, stOk))
    (hv : writeFor u x r.base (le 8 (c.producer + 1)) = (v, stOk)) (hrep : v.hub.replay = none) :
    writeRecord x r rest s = recordWritten x r rest (finalRecord ((endWait x s).sl x) r) v := by
  have hzero : ((endWait x s).sl x).ledgerWait = 0 := by simp [endWait, hclk, hwait]
  simp only [writeRecord, hring, hu, hv, hzero, recordWritten]
  rw [if_neg (by simpa using hroom)]
  simp [compareReplay, hrep]

/-! ### The ring tried again -/

/-- With no record waiting, a retry looks whether the ring can be reached (R253). -/
theorem ledgerRetry_of_no_record (hret : (s.sl x).retrying = true) (hp : (s.sl x).pend = [])
    (hq : (s.sl x).phase ≠ .commit ∨ (s.sl x).qRead = true) :
    ledgerRetry x s = if ringOpen s x then s.modSl x (fun l => { l with retrying := false }) else s := by
  have hno : ((s.sl x).phase = .commit && !(s.sl x).qRead) = false := by obtain h | h := hq <;> simp [h]
  simp [ledgerRetry, hret, hp, hno]

/-- In COMMIT a retry reads the control block, which lets UPDATE begin (R252, R253). -/
theorem ledgerRetry_of_commit {b : Bytes} (hret : (s.sl x).retrying = true) (hp : (s.sl x).pend = []) (hph : (s.sl x).phase = .commit)
    (hq : (s.sl x).qRead = false) (hread : readFor s x ((s.ctx x).ledger + 0x40) 32 = .ok b) :
    ledgerRetry x s = tryUpdate x (endWait x (s.modSl x (fun l => { l with
      qOwn := gridOf (b.take 16), batch := leAt b 16 4, qStep := leAt b 24 8, qRead := true, retrying := false }))) := by
  have hline : readQ x s = s.modSl x (fun l => { l with qOwn := gridOf (b.take 16), batch := leAt b 16 4, qStep := leAt b 24 8, qRead := true }) := by
    simp [readQ, hread]
  simp [ledgerRetry, hret, hp, hph, hq, hline, State.modSl_modSl]

end

/-- Settles O19: each command when it is due. -/
theorem ledgerCommands : Obligations.LedgerCommands := by
  refine ⟨?pass, ?enter, ?record, ?retry, ?commit⟩
  case pass =>
    intro s h x hs hph hend hnew hmine hidle
    refine serving_of _ s _ hs (adaptationPass_of_due hph hend hnew hmine hidle) ?_
    rw [← adaptationPass_of_due hph hend hnew hmine hidle, adaptationPass_pwr]
  case enter =>
    intro s x hs hph hend hdone hsamples o n t he
    exact net_of _ s t hs (ledgerEnter_of_done hph hend hdone hsamples) he (by simp [t])
  case record =>
    intro s x r rest c u v hs hp hfp hret hring hroom hclk hwait hu hv hrep bytes w t he
    have heff : ledgerRecordWrite x s = t :=
      (ledgerRecordWrite_of_due hp hfp hret).trans (writeRecord_of_room hring hroom hclk hwait hu hv hrep)
    have hpwr : v.pwr = s.pwr := by
      rw [pwr_of_writeFor hv, pwr_of_writeFor hu, endWait_pwr]
    exact net_of _ s t hs heff he (by simp [t, w, hpwr])
  case retry =>
    intro s x hs he hret hp hq
    have heff := ledgerRetry_of_no_record hret hp hq
    exact ⟨fun hr => net_of _ s _ hs (heff.trans (if_pos hr)) he rfl, fun hr => net_unchanged hs he (heff.trans (if_neg (by simp [hr])))⟩
  case commit =>
    intro s x b hs hret hp hph hq hread t he
    exact net_of _ s t hs (ledgerRetry_of_commit hret hp hph hq hread) he (by simp [t])

end Sys2Proof.Machine
end

section
/-! PROOFS. The block itself, and the adaptation rule of one block (R246, R526). -/
namespace Sys2Proof.Machine

/-- Settles O1: a step takes the command from the front of the queue. -/
theorem stepRunsFront : Obligations.StepRunsFront := by
  intro i rest s h
  simp only [step, h]

/-- Settles O2: a step of an empty queue counts a clock. -/
theorem idleStepCountsClock : Obligations.IdleStepCountsClock := by
  intro s h
  simp only [step, h]

/-- Settles O3: at reset both memories list no byte, and the dark module is reset itself. -/
theorem resetIsDark : Obligations.ResetIsDark :=
  ⟨fun _ => rfl, Bool.and_eq_true_iff.mpr reset_memWf, rfl, rfl⟩

/-- Settles O18: case by case of the four guards; the bounds on exponent and streak follow in each. -/
theorem adaptationRule : Obligations.AdaptationRule := by
  intro nib x streak _ hx1 hx2 hs
  refine ⟨?overflow, ?zero, ?lower, ?longer, ?clear, ?bounds⟩
  case overflow => intro h3; simp [adaptBlock, h3]
  case zero => intro h3 h2; simp [adaptBlock, h3, h2]
  case lower => intro h3 h2 h0 hfull; simp [adaptBlock, h3, h2, h0, hfull]
  case longer => intro h3 h2 h0 hfull; simp [adaptBlock, h3, h2, h0, hfull]
  case clear => intro h3 h2 h0; simp [adaptBlock, h3, h2, h0]
  case bounds =>
    by_cases h3 : bit nib 3 = true
    · simp [adaptBlock, h3]
    · by_cases h2 : bit nib 2 = true
      · simp [adaptBlock, h3, h2, hx1, hx2, hs]
      · by_cases h0 : bit nib 0 = true
        · by_cases hfull : streak = 255 <;> simp [adaptBlock, h3, h2, h0, hfull] <;> omega
        · simp [adaptBlock, h3, h2, h0, hx1, hx2]

end Sys2Proof.Machine
end

section
/-! PROOFS. Launches, saved cells, and pre-emption (R357, R364, R371, R376 to R380, R400, R487). -/
namespace Sys2Proof.Machine

/-! ### Commands in flight -/

@[simp] theorem modCmd_queue_ctx (s : State) (q k r : Nat) (f : Cmd → Cmd) : ((modCmd s q k f).queue r).ctx = (s.queue r).ctx := by
  by_cases h : r = q
  · subst h; simp [modCmd]
  · simp [modCmd, State.queue_modQueue_ne, h]

@[simp] theorem acceptCmd_queue_ctx (s : State) (q k r : Nat) : ((acceptCmd q k s).queue r).ctx = (s.queue r).ctx := by
  simp [acceptCmd, ctxStart]

@[simp] theorem pinEpoch_queue (s : State) (x n r : Nat) : (pinEpoch x n s).queue r = s.queue r := by
  simp [pinEpoch, modEpoch]

/-! ### A cell's stores cleared -/

@[simp] theorem clearCell_mem (s : State) (c : Nat) :
    (clearCell c s).mem = memZero (memZero s.mem (cellWin c) 0x5B0000) (coreMem c 0x4000) 0xC000 := rfl

@[simp] theorem clearCell_queues (s : State) (c : Nat) : (clearCell c s).queues = s.queues := rfl
@[simp] theorem clearCell_ctxs (s : State) (c : Nat) : (clearCell c s).ctxs = s.ctxs := rfl
@[simp] theorem clearCell_queue (s : State) (c r : Nat) : (clearCell c s).queue r = s.queue r := rfl
@[simp] theorem clearCell_ctx (s : State) (c x : Nat) : (clearCell c s).ctx x = s.ctx x := rfl

@[simp] theorem clearCell_cell_same (s : State) (c : Nat) : (clearCell c s).cell c = { s.cell c with groups := [], bad := [], core := none } := by
  unfold clearCell
  rw [State.cell_modCell_same]
  rfl

theorem clearCell_cell_ne (s : State) {c d : Nat} (h : d ≠ c) : (clearCell c s).cell d = s.cell d := by
  unfold clearCell
  rw [State.cell_modCell_ne _ _ _ _ h]
  rfl

/-! ### LAUNCH -/

section
variable {u : State} {q k : Nat} {b : Bytes} {m : Cmd}

/-- An accepted launch: its work is counted, and it is in flight for its sequence or pins its weight epoch (R357, R381, R383). -/
def launchPinned (q k : Nat) (b : Bytes) (u : State) : State :=
  match launchEpoch (acceptCmd q k u) (u.queue q).ctx b with
  | none => acceptCmd q k u
  | some e =>
    if leAt b 26 2 ≠ 0xFFFF then
      modCmd ((acceptCmd q k u).modSeq (leAt b 26 2) (fun v => { v with inFlight := v.inFlight + 1 })) q k
        (fun w => { w with seq := some (leAt b 26 2), epoch := e.num })
    else modCmd (pinEpoch (u.queue q).ctx e.num (acceptCmd q k u)) q k (fun w => { w with pinned := true, epoch := e.num })

theorem launchPinned_queue_ctx (r : Nat) : ((launchPinned q k b u).queue r).ctx = (u.queue r).ctx := by
  unfold launchPinned
  split
  · simp
  · split <;> simp

@[simp] theorem launchPinned_pwr : (launchPinned q k b u).pwr = u.pwr := by
  unfold launchPinned
  split
  · simp
  · split <;> simp

/-- The checks of a launch that is not counted yet (R350, R371). -/
theorem launchAct_of_admitted (hm : findCmd u q k = some m) (hc : m.counted = false)
    (hadm : (u.ctx (u.queue q).ctx).admits = true ∨ leAt b 26 2 ≠ 0xFFFF) :
    launchAct q k b u = if launchStatus u q b ≠ stOk then finishCmd q k (launchStatus u q b) 0 0 u else goLaunch q k b (launchPinned q k b u) := by
  have hno : (!(u.ctx (u.queue q).ctx).admits && decide (leAt b 26 2 = 0xFFFF)) = false := by
    obtain h | h := hadm <;> simp [h]
  simp only [launchAct, hm, hc, hno]
  rfl

/-- A launch whose epoch is not being restored starts on the free cell of its placement (R376). -/
theorem goLaunch_of_free {v : State} {c : Nat} (hb : ∀ w, findCmd v q k = some w → w.borrow = none)
    (hr : ∀ e ∈ (v.ctx (v.queue q).ctx).epochs, e.restoring = false) (hk : (findCmd v q k).isSome = true)
    (hp : placeOf v (v.queue q).ctx (leAt b 24 2) (leAt b 48 8) = .free c) : goLaunch q k b v = startProgram q k c v := by
  obtain ⟨w, hw⟩ := Option.isSome_iff_exists.mp hk
  cases he : (v.ctx (v.queue q).ctx).epochs.find? (fun e => e.num = w.epoch) with
  | none => simp [goLaunch, hw, hb w hw, hp, he]
  | some e => simp [goLaunch, hw, hb w hw, hp, he, hr e (List.mem_of_find?_eq_some he)]

end

section
variable {s : State} {q k c : Nat} {m : Cmd}

/-- The cell a program starts on: running for the launch's context, with no tile yet (R376). -/
theorem startProgram_cell_same (hm : findCmd s q k = some m) :
    ((startProgram q k c s).cell c).st = .running ∧ ((startProgram q k c s).cell c).ctx = (s.queue q).ctx ∧
    ∃ p, ((startProgram q k c s).cell c).prog = some p ∧ p.queue = q ∧ p.cmd = k ∧ p.ctx = (s.queue q).ctx ∧ p.tiles = [] ∧ p.next = 0 ∧
      p.written = 0 ∧ p.recAt = leAt m.bytes 40 8 := by
  simp [startProgram, hm]

theorem startProgram_cell_ne (hm : findCmd s q k = some m) {d : Nat} (h : d ≠ c) : (startProgram q k c s).cell d = s.cell d := by
  simp only [startProgram, hm, modCmd_cell, ffTrace_cell, State.cell_modCell_ne _ _ _ _ h]
  split
  · rfl
  · exact clearCell_cell_ne s h

theorem startProgram_mem (hm : findCmd s q k = some m) :
    (startProgram q k c s).mem = if (s.cell c).ctx = (s.queue q).ctx then s.mem else (clearCell c s).mem := by
  simp only [startProgram, hm, modCmd_mem, ffTrace_mem, State.modCell_mem]
  split <;> rfl

theorem startProgram_groups_of_cleared (hm : findCmd s q k = some m) (h : (s.cell c).ctx ≠ (s.queue q).ctx) :
    ((startProgram q k c s).cell c).groups = [] := by
  simp [startProgram, hm, h]

end

/-- Settles O20: an accepted launch is pinned and placed on its free cell; a refused one completes with the status of its checks. -/
theorem launchStarts : Obligations.LaunchStarts := by
  refine ⟨?starts, ?fails, ?program⟩
  case starts =>
    intro s q k x t c b u v m h hop hx ht hk hu hm hc hadm hst hv hb hr hfound hplace
    subst hx ht hk hu
    have hpinned : v = launchPinned q (s.nextIdx q) b (beginCmd q b s) := by
      rw [hv, launchPinned, beginCmd_queue_ctx] <;> rfl
    have hctx : (v.queue q).ctx = (s.queue q).ctx := by rw [hpinned, launchPinned_queue_ctx, beginCmd_queue_ctx]
    refine serving_of_starts _ launchAct s q b h (by simp [hop]) _ ?_ (by simp [hpinned]) launchReady
    rw [launchAct_of_admitted hm hc (by simpa using hadm), if_neg (by simp [hst]), ← hpinned,
      goLaunch_of_free hb (by rwa [hctx]) hfound (by rwa [hctx])]
  case fails =>
    intro s q k b m h hop hk hm hc hadm hst
    subst hk
    refine serving_of_starts _ launchAct s q b h (by simp [hop]) _ ?_ (by simp) launchReady
    rw [launchAct_of_admitted hm hc (by simpa using hadm), if_pos hst]
  case program =>
    intro s q k c m hm t
    obtain ⟨hst, hctx, hprog⟩ := startProgram_cell_same (c := c) hm
    exact ⟨hst, hctx, fun d hd => startProgram_cell_ne hm hd, hprog, fun h => (startProgram_mem hm).trans (if_pos h),
      fun h => ⟨(startProgram_mem hm).trans (if_neg h), startProgram_groups_of_cleared hm h⟩⟩

end Sys2Proof.Machine
end

section
/-! PROOFS. Saved cells: the save, the hold of a borrowed cell, and the restore (R357, R377, R379, R380). -/
namespace Sys2Proof.Machine

/-- A key either has an entry or reads as the default. -/
theorem tab_get_mem {α : Type} (d : α) (t : Tab α) (k : Nat) : (k, t.get d k) ∈ t ∨ t.get d k = d := by
  induction t with
  | nil => exact .inr rfl
  | cons e t ih =>
    obtain ⟨j, w⟩ := e
    by_cases hj : j = k
    · subst hj; exact .inl (by simp [Tab.get])
    · simp only [Tab.get, if_neg hj]
      exact ih.imp_left (List.mem_cons_of_mem _)

section
variable {s : State} {c : Nat}

/-! ### The save image -/

theorem saveImage_mem : (saveImage c s).mem = memZero (memZero
    (memCopy (memCopy (memCopy s.mem (cellWin c) (saveArea s c).1 0x580000) (cellWin c + 0x580000) (saveArea s c).2 0x30000)
      (coreMem c 0x4000) ((saveArea s c).2 + 0x30000) 0xC000) (cellWin c) 0x5B0000) (coreMem c 0x4000) 0xC000 := rfl

/-- A byte after three copies from the stores at `w` and above, to areas `a` and `b` below them (R379). -/
theorem memGet_threeCopies {m : List Host.Cell} {a b w v : Nat} (hw : memWf memFill m = true) (hb : b + 0x40000 ≤ w) (ha : a + 0x580000 ≤ b)
    (hv : w ≤ v) (i : Nat) :
    memGet memFill (memCopy (memCopy (memCopy m w a 0x580000) (w + 0x580000) b 0x30000) v (b + 0x30000) 0xC000) i =
      if b + 0x30000 ≤ i ∧ i < b + 0x30000 + 0xC000 then memGet memFill m (i - (b + 0x30000) + v)
      else if b ≤ i ∧ i < b + 0x30000 then memGet memFill m (i - b + (w + 0x580000))
      else if a ≤ i ∧ i < a + 0x580000 then memGet memFill m (i - a + w)
      else memGet memFill m i := by
  have h1 := memCopy_wf memFill m w a 0x580000 hw
  have h2 := memCopy_wf memFill _ (w + 0x580000) b 0x30000 h1
  rw [memGet_memCopy _ _ _ _ _ _ h2]
  by_cases htop : b + 0x30000 ≤ i ∧ i < b + 0x30000 + 0xC000
  · rw [if_pos htop, if_pos htop, memGet_memCopy _ _ _ _ _ _ h1, if_neg (by omega), memGet_memCopy _ _ _ _ _ _ hw, if_neg (by omega)]
  · rw [if_neg htop, if_neg htop, memGet_memCopy _ _ _ _ _ _ h1]
    by_cases hmid : b ≤ i ∧ i < b + 0x30000
    · rw [if_pos hmid, if_pos hmid, memGet_memCopy _ _ _ _ _ _ hw, if_neg (by omega)]
    · rw [if_neg hmid, if_neg hmid, memGet_memCopy _ _ _ _ _ _ hw]

/-- A byte after the save: filled in the stores, the image in its two areas, else as it was (R379). -/
theorem memGet_saveImage (hw : memWf memFill s.mem = true) (hlow : (saveArea s c).2 + 0x40000 ≤ cellWin c)
    (hsep : (saveArea s c).1 + 0x580000 ≤ (saveArea s c).2) (i : Nat) :
    memGet memFill (saveImage c s).mem i =
      if coreMem c 0x4000 ≤ i ∧ i < coreMem c 0x4000 + 0xC000 then memFill
      else if cellWin c ≤ i ∧ i < cellWin c + 0x5B0000 then memFill
      else if (saveArea s c).2 + 0x30000 ≤ i ∧ i < (saveArea s c).2 + 0x30000 + 0xC000 then
        memGet memFill s.mem (i - ((saveArea s c).2 + 0x30000) + coreMem c 0x4000)
      else if (saveArea s c).2 ≤ i ∧ i < (saveArea s c).2 + 0x30000 then memGet memFill s.mem (i - (saveArea s c).2 + (cellWin c + 0x580000))
      else if (saveArea s c).1 ≤ i ∧ i < (saveArea s c).1 + 0x580000 then memGet memFill s.mem (i - (saveArea s c).1 + cellWin c)
      else memGet memFill s.mem i := by
  have hcopies := memCopy_wf memFill _ (coreMem c 0x4000) ((saveArea s c).2 + 0x30000) 0xC000
    (memCopy_wf memFill _ (cellWin c + 0x580000) (saveArea s c).2 0x30000 (memCopy_wf memFill s.mem (cellWin c) (saveArea s c).1 0x580000 hw))
  have hcore : cellWin c ≤ coreMem c 0x4000 := by
    simp only [coreMem, Nat.add_assoc]
    exact Nat.le_add_right _ _
  rw [saveImage_mem, memGet_memZero _ _ _ _ _ (memZero_wf memFill _ (cellWin c) 0x5B0000 hcopies), memGet_memZero _ _ _ _ _ hcopies,
    memGet_threeCopies hw hlow hsep hcore]

/-! ### SAVE_COMPLETE and BORROW_HOLD_EXPIRY -/

theorem saveComplete_of_owned (h : (s.cell c).st = .saving) (hnone : (s.cell c).stopFor = none) :
    saveComplete c s = pollCtx (s.cell c).ctx ((saveImage c s).modCell c (fun u => { u with st := .idle, stopPre := false })) := by
  simp [saveComplete, h, hnone]

@[simp] theorem saveImage_queue (q : Nat) : (saveImage c s).queue q = s.queue q := rfl

theorem saveComplete_of_borrowed {q k : Nat} (h : (s.cell c).st = .saving) (hfor : (s.cell c).stopFor = some (q, k))
    (hwait : stillWaits ((saveImage c s).modCell c (fun u => { u with st := .idle, stopPre := false })) q k = true) :
    saveComplete c s = startProgram q k c (ffTrace 0x0008 (c / 32) c (some (s.cell c).ctx)
      (le 1 (s.queue q).ctx ++ le 4 (takeWord ((saveImage c s).modCell c (fun u => { u with st := .idle, stopPre := false }))).1)
      (takeWord ((saveImage c s).modCell c (fun u => { u with st := .idle, stopPre := false }))).2) := by
  simp [saveComplete, h, hfor, hwait]

theorem borrowHoldExpiry_of_held {v : Saved} (hs : (s.cell c).saved = some v) (hidle : (s.cell c).st = .idle) (hprog : (s.cell c).prog = none)
    (hctx : (s.cell c).ctx ≠ v.ctx) (hpre : (s.ctx v.ctx).st ≠ .preempted) (hreq : (s.ctx v.ctx).preReq ≠ 1) :
    borrowHoldExpiry c s = beginRestore c s := by
  simp [borrowHoldExpiry, hs, hidle, hprog, hctx, hpre, hreq]

/-! ### The restore -/

theorem restoreImage_cell_same {v : Saved} (h : (s.cell c).saved = some v) :
    (restoreImage c s).cell c = { s.cell c with
      ctx := v.ctx, prog := v.prog, groups := v.groups, core := v.core, bad := v.bad, saved := none, restoring := false,
      st := if v.prog.isSome then .running else .idle } := by
  simp only [restoreImage, h, State.cell_modCell_same]
  change ({ (clearCell c s).cell c with
      ctx := v.ctx, prog := v.prog, groups := v.groups, core := v.core, bad := v.bad, saved := none, restoring := false,
      st := if v.prog.isSome then .running else .idle } : Cell) = _
  rw [clearCell_cell_same]

theorem restoreImage_cell_ne {d : Nat} (h : d ≠ c) : (restoreImage c s).cell d = s.cell d := by
  unfold restoreImage
  split
  · rfl
  · rw [State.cell_modCell_ne _ _ _ _ h]
    exact clearCell_cell_ne s h

@[simp] theorem restoreImage_queues : (restoreImage c s).queues = s.queues := by unfold restoreImage; split <;> rfl
@[simp] theorem restoreImage_ctxs : (restoreImage c s).ctxs = s.ctxs := by unfold restoreImage; split <;> rfl

theorem restoreImage_mem {v : Saved} (h : (s.cell c).saved = some v) :
    (restoreImage c s).mem = memCopy (memCopy (memCopy (clearCell c s).mem (saveArea s c).1 (cellWin c) 0x580000) (saveArea s c).2
      (cellWin c + 0x580000) 0x30000) ((saveArea s c).2 + 0x30000) (coreMem c 0x4000) 0xC000 := by
  simp only [restoreImage, h, State.modCell_mem]

/-! ### The end of a resumption -/

section
variable {x : Nat}

@[simp] theorem tryResumed_mem : (tryResumed x s).mem = s.mem := by unfold tryResumed; split <;> rfl
@[simp] theorem tryResumed_queues : (tryResumed x s).queues = s.queues := by unfold tryResumed; split <;> rfl
@[simp] theorem tryResumed_cell (d : Nat) : (tryResumed x s).cell d = s.cell d := by unfold tryResumed; split <;> rfl

theorem tryResumed_ctx_ne {y : Nat} (h : y ≠ x) : (tryResumed x s).ctx y = s.ctx y := by
  unfold tryResumed
  split
  · exact State.ctx_modCtx_ne _ _ _ _ h
  · rfl

theorem tryResumed_of_not_asked (h : (s.ctx x).preReq ≠ 3) : tryResumed x s = s := by simp [tryResumed, h]

/-- While a cell's image of the context is on its way back nothing changes. -/
theorem tryResumed_of_restoring {d : Nat} {v : Saved} (hr : (s.cell d).restoring = true) (hv : (s.cell d).saved = some v) (hx : v.ctx = x) :
    tryResumed x s = s := by
  have hkey : d ∈ s.cells.map (·.1) := by
    obtain h | h := tab_get_mem {} s.cells d
    · exact List.mem_map_of_mem h
    · rw [State.cell, h] at hr; exact absurd hr (by simp)
  unfold tryResumed
  refine if_neg fun h => ?_
  have hnone := (Bool.and_eq_true_iff.mp h).2
  rw [Bool.not_eq_true', List.any_eq_false] at hnone
  exact hnone d hkey (by simp [hr, hv, hx])

/-- With no image of the context on its way back the context goes on (R357). -/
theorem tryResumed_of_none_restoring (hreq : (s.ctx x).preReq = 3)
    (h : ∀ d v, (s.cell d).restoring = true → (s.cell d).saved = some v → v.ctx ≠ x) :
    tryResumed x s = s.modCtx x (fun c => { c with preReq := 0, st := if c.st = .preempted then .ready else c.st }) := by
  unfold tryResumed
  refine if_pos (Bool.and_eq_true_iff.mpr ⟨by simp [hreq], ?_⟩)
  rw [Bool.not_eq_true', List.any_eq_false]
  intro d _
  cases hv : (s.cell d).saved with
  | none => simp
  | some v => simpa using fun hr => h d v hr hv

end

theorem restoreComplete_of_saved {v : Saved} (hr : (s.cell c).restoring = true) (hv : (s.cell c).saved = some v) :
    restoreComplete c s = tryResumed v.ctx (ffTrace 0x0009 (c / 32) c (some v.ctx) (le 4 (takeWord s).1) (restoreImage c (takeWord s).2)) := by
  have hctx : ((restoreImage c (takeWord s).2).cell c).ctx = v.ctx := by rw [restoreImage_cell_same (s := (takeWord s).2) hv]
  have hr' : (!(s.cell c).restoring) = false := by simp [hr]
  simp only [restoreComplete, hr', hctx]
  rfl

end

/-- Settles O21: the image is written and read back byte by byte, and the cell and its context go on as the saved state says. -/
theorem saveAndRestore : Obligations.SaveAndRestore := by
  refine ⟨?owned, ?borrowed, ?hold, ?restore, ?image⟩
  case owned =>
    intro s c hs hst hfor
    exact serving_of _ s _ hs (saveComplete_of_owned hst hfor) (by rw [← saveComplete_of_owned hst hfor, saveComplete_pwr])
  case borrowed =>
    intro s c q k w hs hst hfor hw hwait
    subst hw
    exact serving_of _ s _ hs (saveComplete_of_borrowed hst hfor hwait) (by rw [← saveComplete_of_borrowed hst hfor hwait, saveComplete_pwr])
  case hold =>
    intro s c v hs hv hidle hprog hctx hpre hreq
    exact serving_of _ s _ hs (borrowHoldExpiry_of_held hv hidle hprog hctx hpre hreq) rfl
  case restore =>
    intro s c v hs hr hv
    have hcell := restoreImage_cell_same (s := (takeWord s).2) (c := c) (v := v) hv
    have hrest : ∀ d, d ≠ c → (restoreImage c (takeWord s).2).cell d = s.cell d := fun d hd => restoreImage_cell_ne (s := (takeWord s).2) hd
    have hctxOf : ∀ y, (restoreImage c (takeWord s).2).ctx y = s.ctx y := fun y => by
      rw [State.ctx, restoreImage_ctxs]; rfl
    refine ⟨restoreComplete c s, serving_of _ s _ hs rfl (restoreComplete_pwr c s), ?_⟩
    rw [restoreComplete_of_saved hr hv]
    simp only [tryResumed_cell, ffTrace_cell, tryResumed_queues, ffTrace_queues, tryResumed_mem, ffTrace_mem, restoreImage_queues, hcell]
    refine ⟨trivial, trivial, trivial, trivial, trivial, trivial, trivial, hrest, fun h => ?unasked, fun h3 hp hothers => ?resumed, rfl, ?mem⟩
    case unasked =>
      rw [tryResumed_of_not_asked (by rw [ffTrace_ctx, hctxOf]; exact h), ffTrace_ctxs, restoreImage_ctxs]
      rfl
    case resumed =>
      rw [tryResumed_of_none_restoring (by rw [ffTrace_ctx, hctxOf]; exact h3)]
      · simp [hctxOf, hp]
      · intro d w hdr hdw
        rw [ffTrace_cell] at hdr hdw
        by_cases hd : d = c
        · subst hd; rw [hcell] at hdr; exact absurd hdr (by simp)
        · rw [hrest d hd] at hdr hdw; exact hothers d hd w hdw hdr
    case mem => exact restoreImage_mem (s := (takeWord s).2) hv
  case image =>
    intro s c hw hlow hsep m
    have hget := memGet_saveImage hw hlow hsep
    have hcore : coreMem c 0x4000 = cellWin c + 0x604000 := by simp [coreMem, Nat.add_assoc]
    have htop : coreMem c 0x10000 = cellWin c + 0x610000 := by simp [coreMem, Nat.add_assoc]
    rw [hcore] at hget
    rw [hcore, htop]
    generalize (saveArea s c).1 = a at *
    generalize (saveArea s c).2 = b at *
    generalize cellWin c = w at *
    refine ⟨?scratch, ?stores, ?core, ?cleared, ?clearedCore, ?outside⟩
    case scratch =>
      intro i hi
      rw [hget, if_neg (by omega), if_neg (by omega), if_neg (by omega), if_neg (by omega), if_pos (by omega)]
      exact congrArg _ (by omega)
    case stores =>
      intro i hi
      rw [hget, if_neg (by omega), if_neg (by omega), if_neg (by omega), if_pos (by omega)]
      exact congrArg _ (by omega)
    case core =>
      intro i hi
      rw [hget, if_neg (by omega), if_neg (by omega), if_pos (by omega)]
      exact congrArg _ (by omega)
    case cleared =>
      intro i hi
      rw [hget, if_neg (by omega), if_pos (by omega)]
    case clearedCore =>
      intro i hi
      rw [hget, if_pos (by omega)]
    case outside =>
      intro i ha hb hwin hcr
      rw [hget, if_neg (by omega), if_neg (by omega), if_neg (by omega), if_neg (by omega), if_neg (by omega)]

end Sys2Proof.Machine
end

section
/-! PROOFS. Pre-emption requests, their windows, and a context that goes on (R357, R380, R400). -/
namespace Sys2Proof.Machine

section
variable {s : State} {x session : Nat}

/-! ### Cells whose restore begins -/

theorem foldl_beginRestore_cell (cs : List Nat) (s : State) (d : Nat) :
    (cs.foldl (fun t c => beginRestore c t) s).cell d =
      if d ∈ cs then { s.cell d with restoring := true, st := .running, stopFor := none } else s.cell d := by
  induction cs generalizing s with
  | nil => rfl
  | cons c cs ih =>
    rw [List.foldl_cons, ih, beginRestore, State.cell_modCell]
    by_cases hd : d = c
    · subst hd; by_cases hm : d ∈ cs <;> simp [hm]
    · simp [hd]

theorem foldl_beginRestore_frame (cs : List Nat) (s : State) :
    (cs.foldl (fun t c => beginRestore c t) s).ctxs = s.ctxs ∧ (cs.foldl (fun t c => beginRestore c t) s).mem = s.mem ∧
    (cs.foldl (fun t c => beginRestore c t) s).queues = s.queues ∧ (cs.foldl (fun t c => beginRestore c t) s).pwr = s.pwr :=
  have hkeep : ∀ {α} (P : State → α), (∀ t c, P (beginRestore c t) = P t) → P (cs.foldl (fun t c => beginRestore c t) s) = P s :=
    fun P h => foldl_proj P (fun t c => beginRestore c t) h cs s
  ⟨hkeep _ fun _ _ => rfl, hkeep _ fun _ _ => rfl, hkeep _ fun _ _ => rfl, hkeep _ fun _ _ => rfl⟩

/-- The cells whose image of context x may be restored now. -/
def savedCells (x : Nat) (s : State) : List Nat :=
  (s.cells.filter (fun c => match c.2.saved with | some v => v.ctx = x && c.2.prog.isNone && c.2.st = .idle | none => false)).map (·.1)

theorem mem_savedCells {c : Nat} {k : Cell} {v : Saved} (hc : (c, k) ∈ s.cells) (hv : k.saved = some v) (hx : v.ctx = x) (hprog : k.prog = none)
    (hidle : k.st = .idle) : c ∈ savedCells x s :=
  List.mem_map.mpr ⟨(c, k), List.mem_filter.mpr ⟨hc, by simp [hv, hx, hprog, hidle]⟩, rfl⟩

/-- The resumption of context x, before it is asked whether it has ended. -/
def restoring (x : Nat) (s : State) : State :=
  (savedCells x s).foldl (fun t c => beginRestore c t) (s.modCtx x (fun c => { c with preWin := none, preReq := 3 }))

theorem resumeCtx_eq : resumeCtx x s = tryResumed x (restoring x s) := rfl

theorem restoring_ctx (y : Nat) : (restoring x s).ctx y = (s.modCtx x (fun c => { c with preWin := none, preReq := 3 })).ctx y := by
  rw [State.ctx, restoring, (foldl_beginRestore_frame _ _).1]
  rfl

theorem restoring_cell (d : Nat) : (restoring x s).cell d =
    if d ∈ savedCells x s then { s.cell d with restoring := true, st := .running, stopFor := none } else s.cell d := by
  rw [restoring, foldl_beginRestore_cell, State.modCtx_cell]

@[simp] theorem restoring_cell_saved (d : Nat) : ((restoring x s).cell d).saved = (s.cell d).saved := by
  rw [restoring_cell]
  split <;> rfl

/-! ### A context goes on -/

theorem resumeCtx_pwr_kept : (resumeCtx x s).pwr = s.pwr :=
  (tryResumed_pwr _ _).trans (foldl_beginRestore_frame _ _).2.2.2

theorem resumeCtx_ctx_ne {y : Nat} (h : y ≠ x) : (resumeCtx x s).ctx y = s.ctx y := by
  rw [resumeCtx_eq, tryResumed_ctx_ne h, restoring_ctx, State.ctx_modCtx_ne _ _ _ _ h]

/-- With no saved image the context is READY at once (R380). -/
theorem resumeCtx_of_no_image (h : ∀ e ∈ s.cells, ∀ v, e.2.saved = some v → v.ctx ≠ x) :
    ((resumeCtx x s).ctx x).st = (if (s.ctx x).st = .preempted then .ready else (s.ctx x).st) ∧ ((resumeCtx x s).ctx x).preReq = 0 ∧
    ((resumeCtx x s).ctx x).preWin = none := by
  rw [resumeCtx_eq, tryResumed_of_none_restoring]
  · simp [restoring_ctx]
  · simp [restoring_ctx]
  · intro d v _ hv
    rw [restoring_cell_saved] at hv
    obtain hm | hd := tab_get_mem {} s.cells d
    · exact h _ hm v hv
    · rw [State.cell, hd] at hv; exact absurd hv (by simp)

/-- With an image that can be restored the context waits for it (R380). -/
theorem resumeCtx_of_image {c : Nat} {v : Saved} (hc : c ∈ savedCells x s) (hv : (s.cell c).saved = some v) (hx : v.ctx = x) :
    resumeCtx x s = restoring x s := by
  rw [resumeCtx_eq]
  exact tryResumed_of_restoring (d := c) (v := v) (by simp [restoring_cell, hc]) (by simpa using hv) hx

theorem resumeCtx_preWin : ((resumeCtx x s).ctx x).preWin = none := by
  rw [resumeCtx_eq]
  unfold tryResumed
  split <;> simp [restoring_ctx]

/-! ### Requests -/

theorem preemptStatus_of_operator (hop : isOperator s session = true) (hdef : (s.ctx x).defined = true) (hlc : (s.ctx x).lc = false)
    (hst : (s.ctx x).st = .ready ∨ (s.ctx x).st = .running) (hreq : (s.ctx x).preReq ≠ 1) : preemptStatus s session x = stOk := by
  refine firstOf_of_none ?_
  obtain h | h := hst <;> simp [hop, hdef, hlc, hreq, h]

/-- PERMISSION comes before what the context's state asks for (R536). -/
theorem firstOf_perm (c : Bool) : firstOf [(true, stPerm), (c, stConflict)] = stPerm := by
  cases c <;> rfl

end

/-- Settles O22: the requests by authority and state, and what a context that goes on leaves. -/
theorem preemptionRequests : Obligations.PreemptionRequests := by
  refine ⟨?asked, ?release, ?expiry, ?refused, ?goesOn⟩
  case asked =>
    intro s session x hs hop hdef hlc hst hreq
    have hok := preemptStatus_of_operator hop hdef hlc hst hreq
    exact ⟨serving_of _ s _ hs (by simp [contextPreempt, hok]) (by simp [answer]), serving_of _ s _ hs (by simp [preemptWindowed, hok]) (by simp [answer])⟩
  case release =>
    intro s session x hs hop
    refine ⟨fun hst hreq => ?_, fun hst hreq => ?_, fun hst hreq => ?_⟩
    · refine serving_of _ s _ hs ?_ (by simp [answer, resumeCtx_pwr_kept])
      rw [preemptRelease, firstOf_of_none (by simp [hop, hst, hreq])]
      simp [hst]
    · refine serving_of _ s _ hs ?_ (by simp [answer])
      rw [preemptRelease, firstOf_of_none (by simp [hop, hreq])]
      simp [hst]
    · refine serving_of _ s _ hs ?_ (by simp [answer])
      simp [preemptRelease, hop, hst, hreq, firstOf, stConflict, stOk]
  case expiry =>
    intro s x hs hst hreq hwin
    exact serving_of _ s _ hs (by simp [preemptWindowExpiry, hst, hreq, hwin]) resumeCtx_pwr_kept
  case refused =>
    intro s session x hs hop
    have hperm : preemptStatus s session x = stPerm := by
      simp only [preemptStatus, hop]
      exact firstOf_perm _
    refine ⟨serving_of _ s _ hs (by simp [contextPreempt, hperm, stPerm, stOk]) (by simp [answer]),
      serving_of _ s _ hs (by simp [preemptWindowed, hperm, stPerm, stOk]) (by simp [answer]), serving_of _ s _ hs ?_ (by simp [answer])⟩
    simp only [preemptRelease, hop, Bool.not_false, firstOf_perm]
    rfl
  case goesOn =>
    intro s x t
    refine ⟨fun h => ?none, ?image, resumeCtx_preWin, fun y hy => resumeCtx_ctx_ne hy, ?mem, ?queues, ?cells⟩
    case none =>
      obtain ⟨hst, hreq, -⟩ := resumeCtx_of_no_image h
      exact ⟨hst, hreq⟩
    case image =>
      rintro ⟨c, k, hc, hk, hprog, hidle, v, hv, hx⟩
      have hsame : t = restoring x s := resumeCtx_of_image (mem_savedCells hc hv hx hprog hidle) (by rw [hk]; exact hv) hx
      simp [hsame, restoring_ctx]
    case mem => exact (tryResumed_mem).trans (foldl_beginRestore_frame _ _).2.1
    case queues => exact (tryResumed_queues).trans (foldl_beginRestore_frame _ _).2.2.1
    case cells =>
      rintro c k hc hk ⟨v, hv, hx⟩ hprog hidle
      have hmem := mem_savedCells hc hv hx hprog hidle
      rw [show t = restoring x s from resumeCtx_of_image hmem (by rw [hk]; exact hv) hx, restoring_cell, if_pos hmem]
      exact ⟨rfl, rfl⟩

end Sys2Proof.Machine
end

section
/-! PROOFS. TILE_START and END (R123 to R127, R370). -/
namespace Sys2Proof.Machine

/-! ### The checks of TILE_START -/

section
variable {s : State} {c n : Nat} {t : Tile} {p : Plan}

theorem tileStart_of_no_plan (hf : fetch s c = .tile t n) (hp : planOf s c (cellCtx s c) t = none) :
    tileStart c s = failTile c t n stBad s := by
  simp only [tileStart, hf, hp]

theorem tileStart_of_out_of_reach (hf : fetch s c = .tile t n) (hp : planOf s c (cellCtx s c) t = some p) (hfit : p.fits c = true)
    (hmay : p.may s (cellCtx s c) = false) : tileStart c s = failTile c t n stPerm s := by
  simp [tileStart, hf, hp, hfit, hmay]

theorem tileStart_of_unread {st : Nat} {g : Program} (hf : fetch s c = .failed st) (hg : (s.cell c).prog = some g) :
    tileStart c s = failTile c { id := g.next, desc := noDesc } 1 st (noteRead st (g.prog + 128 * g.next) 128 s) := by
  simp only [tileStart, hf, hg]

/-- A tile that passes its checks starts when its unit of the semaphore is there, and else waits for it (R370). -/
theorem tileStart_of_checked (hf : fetch s c = .tile t n) (hp : planOf s c (cellCtx s c) t = some p) (hfit : p.fits c = true)
    (hmay : p.may s (cellCtx s c) = true) (hunits : unitsBusy s c p = false) (hhaz : inHazard s c p = false)
    (hpair : isPaired t.desc = true → unitsBusy s (c + 1) p = false) (hodd : usesOdd s c (cellCtx s c) t = true → oddAway s c (cellCtx s c) = false)
    (hbad : p.bad = false) (hconf : conflictOf s c (cellCtx s c) t = false) :
    tileStart c s = if !(t.rerun || semTurn s (cellCtx s c) (tileWait s c t)) then
        bubbleWait (cellCtx s c) c t (semWait (cellCtx s c) (tileWait s c t) s)
      else runTile c (cellCtx s c) t n p s := by
  have hpair' : (isPaired t.desc && unitsBusy s (c + 1) p) = false := by
    cases h : isPaired t.desc <;> simp [hpair, h]
  have hodd' : (usesOdd s c (cellCtx s c) t && oddAway s c (cellCtx s c)) = false := by
    cases h : usesOdd s c (cellCtx s c) t <;> simp [hodd, h]
  simp only [tileStart, hf, hp, hfit, hmay, hunits, hhaz, hpair', hodd', hbad, hconf]
  rfl

end

/-! ### A tile that starts alone: no power cap, no odd cell, no job -/

/-- What a unit of its semaphore leaves: a tile that runs again takes none. -/
def unitTaken (x : Nat) (t : Tile) (s : State) : State := if t.rerun then s else semTake x (tWait t.desc) s

/-- The tile as it stands in its program once it runs (R124, R125). -/
def startedTile (c x : Nat) (t : Tile) (p : Plan) (s : State) : Tile :=
  { t with running := true, start := s.clk, step := (s.sl x).step, num := (s.cell c).nTiles, odd := isPaired t.desc, array := p.array,
           vector := p.vector, dma := p.dma, rd := (p.own c).1,
           wr := (p.own c).2 ++ p.far.filterMap (fun f => if f.2.2 then some (f.1, f.2.1) else none) }

section
variable {s : State} {c x n : Nat} {t : Tile} {p : Plan}

@[simp] theorem unitTaken_clk : (unitTaken x t s).clk = s.clk := by unfold unitTaken; split <;> simp
@[simp] theorem unitTaken_mem : (unitTaken x t s).mem = s.mem := by unfold unitTaken; split <;> simp
@[simp] theorem unitTaken_queues : (unitTaken x t s).queues = s.queues := by unfold unitTaken; split <;> simp
@[simp] theorem unitTaken_pwr : (unitTaken x t s).pwr = s.pwr := by unfold unitTaken; split <;> simp
@[simp] theorem unitTaken_cell (d : Nat) : (unitTaken x t s).cell d = s.cell d := by unfold unitTaken; split <;> simp
@[simp] theorem unitTaken_die (d : Nat) : (unitTaken x t s).die d = s.die d := by unfold unitTaken; split <;> simp

theorem unitTaken_ctx_ne {y : Nat} (h : y ≠ x) : (unitTaken x t s).ctx y = s.ctx y := by
  unfold unitTaken semTake
  split
  · rfl
  · split
    · rfl
    · exact State.ctx_modCtx_ne _ _ _ _ h

theorem unitTaken_of_rerun (h : t.rerun = true) : unitTaken x t s = s := if_pos h

theorem unitTaken_of_first (h : t.rerun = false) : unitTaken x t s = semTake x (tWait t.desc) s := if_neg (by simp [h])

theorem unitTaken_job : ((unitTaken x t s).ctx x).job = (s.ctx x).job ∧ ((unitTaken x t s).ctx x).jobTag = (s.ctx x).jobTag := by
  unfold unitTaken semTake
  split
  · exact ⟨rfl, rfl⟩
  · split
    · exact ⟨rfl, rfl⟩
    · simp

/-- Outside a job no bubble is counted and no credit traced (R334). -/
theorem bubbleStart_of_no_job (h : (s.ctx x).job = none) : bubbleStart x c t s = s := by
  have htrace : traceCredit x c t s = s := by simp [traceCredit, h]
  simp [bubbleStart, htrace, onBubble, h]

theorem runTile_of_plain (hodd : usesOdd (unitTaken x t s) c x t = false) (hpair : isPaired t.desc = false) (hcap : pcapNow s = 0)
    (htag : (s.ctx x).jobTag = 0) (hjob : (s.ctx x).job = none) :
    runTile c x t n p s = (takeDescs c (startedTile c x t p (unitTaken x t s)) n (unitTaken x t s)).modCell c
      (fun u => { u with nTiles := u.nTiles + 1, tileIdx := BitVec.ofNat 16 t.id }) := by
  have hgate : gateIssue c x p (unitTaken x t s) = unitTaken x t s := by
    have : pcapNow (unitTaken x t s) = 0 := by rw [← hcap]; simp [pcapNow]
    simp [gateIssue, this]
  obtain ⟨hj, ht⟩ := unitTaken_job (s := s) (x := x) (t := t)
  have hquiet : ∀ v : State, (v.ctx x).job = none → (v.ctx x).jobTag = 0 →
      (if ((bubbleStart x c t v).ctx x).jobTag ≠ 0 && ((bubbleStart x c t v).sl x).phase = .fwd && opensBwd (bubbleStart x c t v) x t then
        enterPhase x .bwd (bubbleStart x c t v) else bubbleStart x c t v) = v := by
    intro v hv hv'
    rw [bubbleStart_of_no_job hv]
    exact if_neg (by simp [hv'])
  unfold runTile
  rw [show (if t.rerun then s else semTake x (tWait t.desc) s) = unitTaken x t s from rfl]
  simp only [hgate, hodd, startedTile, hpair, Bool.false_eq_true, if_false]
  exact hquiet _ (by simp [takeDescs, hj, hjob]) (by simp [takeDescs, ht, htag])


/-! ### The power state as a tile starts -/

@[simp] theorem gateIssue_st : (gateIssue c x p s).pwr.st = s.pwr.st := by
  unfold gateIssue
  split
  · rfl
  · dsimp only
    split
    · rfl
    · rw [ffTrace_pwr]
      split <;> rfl

theorem runTile_st : (runTile c x t n p s).pwr.st = s.pwr.st := by
  unfold runTile
  simp only [apply_ite State.pwr, enterPhase_pwr, bubbleStart_pwr, State.modCell_pwr, takeDescs, takeOdd_pwr, ite_self, gateIssue_st, semTake_pwr]

/-- A tile that the program gives joins its tiles. -/
theorem takeDescs_cell_same {g : Program} (hg : (s.cell c).prog = some g) (hcore : t.core = false) :
    ((takeDescs c t n s).cell c).prog = some { g with tiles := g.tiles ++ [t], next := g.next + n } := by
  simp [takeDescs, hg, hcore]

theorem takeDescs_cell_ne {d : Nat} (h : d ≠ c) : (takeDescs c t n s).cell d = s.cell d := State.cell_modCell_ne _ _ _ _ h

end

/-- Settles O23: the outcomes of the checks in their order, and a tile that starts alone. -/
theorem tilesStart : Obligations.TilesStart := by
  refine ⟨?checked, ?unread, ?ill, ?reach, ?runs, ?ends⟩
  case checked =>
    intro s c n x t p hs hf hx hp hfit hmay hunits hhaz hpair hodd hbad hconf
    subst hx
    have heff := tileStart_of_checked hf hp hfit hmay hunits hhaz hpair hodd hbad hconf
    refine ⟨fun hgo => ?_, fun hre hturn => ?_⟩
    · rw [if_neg (by obtain h | h := hgo <;> simp [h])] at heff
      exact serving_of_st _ s _ hs heff runTile_st
    · rw [if_pos (by simp [hre, hturn])] at heff
      exact serving_of _ s _ hs heff (by simp)
  case unread =>
    intro s c st p hs hf hp
    have heff := tileStart_of_unread hf hp
    exact serving_of _ s _ hs heff (by simp)
  case ill =>
    intro s c n t hs hf hp
    have heff := tileStart_of_no_plan hf hp
    exact serving_of _ s _ hs heff (by simp)
  case reach =>
    intro s c n t p hs hf hp hfit hmay
    have heff := tileStart_of_out_of_reach hf hp hfit hmay
    exact serving_of _ s _ hs heff (by simp)
  case runs =>
    intro s c x n t p g hg hcore hpair hodd hodd' hcap htag hjob v
    have htaken : usesOdd (unitTaken x t s) c x t = false := by
      cases h : t.rerun
      · rwa [unitTaken_of_first h]
      · rwa [unitTaken_of_rerun h]
    have hv : v = _ := runTile_of_plain (n := n) (p := p) htaken hpair hcap htag hjob
    have hprog : (v.cell c).prog = some { g with tiles := g.tiles ++ [startedTile c x t p (unitTaken x t s)], next := g.next + n } := by
      rw [hv, State.cell_modCell_same]
      exact takeDescs_cell_same (by simpa using hg) hcore
    have hctx : ∀ y, v.ctx y = (unitTaken x t s).ctx y := fun y => by rw [hv]; rfl
    refine ⟨⟨_, hprog, rfl, rfl, rfl, rfl, unitTaken_clk⟩, fun d hd => ?_, ?_, ?_, ?_, fun y hy => (hctx y).trans (unitTaken_ctx_ne hy),
      fun hfirst hlt => ?_, fun hre => by rw [hctx, unitTaken_of_rerun hre]⟩
    · rw [hv, State.cell_modCell_ne _ _ _ _ hd, takeDescs_cell_ne hd, unitTaken_cell]
    · rw [hv]; exact unitTaken_mem
    · rw [hv]; exact unitTaken_queues
    · rw [hv]; exact unitTaken_pwr
    · rw [hctx, unitTaken_of_first hfirst, semTake_of_lt hlt, State.ctx_modCtx_same]
  case ends =>
    intro s c hs hf
    refine serving_of _ s _ hs (by simp only [tileEnd, hf]) (by simp)

end Sys2Proof.Machine
end

section
/-! PROOFS. TILE_COMPLETE, TILE_RECORD_WRITE, the watchdog of tiles, and the control core (R127, R128, R143, R150, R153 to R157). -/
namespace Sys2Proof.Machine

section
variable {s : State} {c t : Nat} {u : Tile} {p : Program}

/-! ### TILE_COMPLETE -/

/-- A tile as it stands once it has completed (R127, R143). -/
def completedTile (u : Tile) (s : State) : Tile :=
  { u with running := false, done := true, status := (if u.status = 0 && u.late then stFlagged else u.status),
           busy := s.clk - u.start, stall := (takeWord s).1 % 65536 }

theorem tileComplete_of_applied (hp : (s.cell c).prog = some p) (hu : tileAt s c t = some u) (hrun : u.running = true) (happ : u.applied = true)
    (hst : u.staged = []) (hop : tOp u.desc ≠ 0x40) (hcore : u.core = false) :
    tileComplete c t s =
      let v := completedTile u s
      let w := bubbleEnd p.ctx v (progressCmd p.queue p.cmd 1 ((takeWord s).2.modCell c (fun k => { k with
        prog := some { p with tiles := p.tiles.map (fun w => if w.id = t then v else w), fail := noteFail v.id v.status p.fail, busy := p.busy + v.busy } })))
      reachBoundary c (if u.odd then reachBoundary (c + 1) w else w) := by
  have hword : (takeWord s).2.modCell c (fun k => { k with
      prog := k.prog.map (fun p => { p with
        tiles := p.tiles.map (fun v => if v.id = t then completedTile u s else v),
        fail := noteFail u.id (completedTile u s).status p.fail, busy := p.busy + (completedTile u s).busy }),
      core := k.core }) = (takeWord s).2.modCell c (fun k => { k with
      prog := some { p with tiles := p.tiles.map (fun w => if w.id = t then completedTile u s else w),
                            fail := noteFail u.id (completedTile u s).status p.fail, busy := p.busy + (completedTile u s).busy } }) :=
    State.modCell_congr _ _ _ _ (by rw [show ((takeWord s).2.cell c) = s.cell c from rfl, hp]; rfl)
  unfold tileComplete
  rw [hu]
  dsimp only
  rw [if_neg (by simp [hrun, happ, hst, hop])]
  simp only [hop, decide_false, Bool.false_and, Bool.false_eq_true, if_false, lateStatus]
  obtain ⟨_, _, _, core, _⟩ := u
  cases hcore
  simp only [completedTile, Bool.false_eq_true, if_false] at hword ⊢
  rw [hword]
  simp [cellCtx, progressCmd]


/-! ### TILE_RECORD_WRITE -/

/-- The program as its oldest tile's record stands: the record shows in the cell, the tile is gone, its status is noted (R127, R128). -/
def recordedTile (c : Nat) (u : Tile) (s : State) : State :=
  s.modCell c (fun k => { k with
    recs := (tileRec u :: k.recs).take 8,
    prog := k.prog.map (fun p' => { p' with tiles := p'.tiles.filter (fun v => v.id ≠ u.id), written := p'.written + 1,
                                            fail := noteFail u.id stOk p'.fail, flagged := p'.flagged || u.status = stFlagged }) })

theorem tileRecordWrite_of_done {rest : List Tile} {w : State × Nat} (hp : (s.cell c).prog = some p)
    (hl : p.tiles.filter (fun u => !u.core) = u :: rest) (hdone : u.done = true) (hre : u.rerun = false)
    (hw : w = writeFor s p.ctx (p.recAt + 32 * p.written) (tileRec u)) (hok : w.2 = stOk) :
    tileRecordWrite c s =
      let v := recordedTile c u (addQsum c p.ctx u.q (logFailed (c / 32) (some p.ctx) stOk w.1))
      tryEnd c (if u.status < 0x10 then semSignal p.ctx (tSignal u.desc) v else v) := by
  subst hw
  simp only [tileRecordWrite, hp, hl, hdone, hre, recordedTile]
  simp [hok]

theorem tileRecordWrite_of_last (hp : (s.cell c).prog = some p) (ht : p.tiles = []) (hend : p.ended = true ∨ p.fail.isSome = true) :
    tileRecordWrite c s = endProgram c s := by
  have hany : (p.ended || p.fail.isSome || p.stopNew) = true := by obtain h | h := hend <;> simp [h]
  simp [tileRecordWrite, tryEnd, hp, ht, hany]

@[simp] theorem satLe_length (n x : Nat) : (satLe n x).length = n := by simp [satLe]

theorem tileRec_length (v : Tile) : (tileRec v).length = 32 := by
  simp [tileRec, recordBytes, zeros_length]

/-! ### TILE_LATE and TILE_ABORT -/

theorem tileLate_of_first (hu : tileAt s c t = some u) (hrun : u.running = true) (hlate : u.late = false) :
    tileLate c t s = ffEvent 0x0140 2 (c / 32) c (some (cellCtx s c)) (le 4 t ++ le 1 (tOp u.desc))
      (modTile c t (fun v => { v with late := true }) (s.modCell c (fun k => { k with lateN := bump k.lateN 1 }))) := by
  have hctx : ∀ f, cellCtx (modTile c t f (s.modCell c (fun k => { k with lateN := bump k.lateN 1 }))) c = cellCtx s c := fun f => by
    cases h : (s.cell c).prog <;> simp [cellCtx, modTile, h]
  simp [tileLate, hu, hrun, hlate, hctx]

theorem tileLate_of_idle (hu : tileAt s c t = some u) (hrun : u.running = false) : tileLate c t s = s := by
  simp [tileLate, hu, hrun]

theorem tileAbort_of_idle (hu : tileAt s c t = some u) (hp : (s.cell c).prog = some p) (hrun : u.running = false) : tileAbort c t s = s := by
  simp [tileAbort, hu, hp, hrun]

/-- What an abort reports: the hang status, the count of the cell, its event and its error (R150, R424). -/
def abortNoted (c t : Nat) (u : Tile) (p : Program) (s : State) : State :=
  logError 0x08 (c / 32) c (some p.ctx) stTimeout (le 2 p.queue ++ le 4 p.cmd ++ le 4 t ++ le 1 (tOp u.desc))
    (ffEvent 0x0141 4 (c / 32) c (some p.ctx) (le 4 t ++ le 1 (tOp u.desc))
      ((setHang 5 p.ctx p.queue s).modCell c (fun k => { k with abort := bump k.abort 1 })))

theorem tileAbort_of_call (hu : tileAt s c t = some u) (hp : (s.cell c).prog = some p) (hrun : u.running = true) (hop : tOp u.desc = 0x40)
    (happ : u.applied = true) : tileAbort c t s = coreEnd c stTimeout (abortNoted c t u p s) := by
  simp [tileAbort, hu, hp, hrun, hop, happ, abortNoted]

/-- What an abort leaves of the tile itself (R150). -/
def abortedTile (c t x : Nat) (u : Tile) (s : State) : State :=
  modTile c t (fun v => { v with applied := true, status := stTimeout, staged := [], word0 := 0, word1 := 0, q := {} })
    (unstage (fun k i => k = c && i = t) (scramble u.wr (discardGroups c x u s)))

theorem tileAbort_of_tile (hu : tileAt s c t = some u) (hp : (s.cell c).prog = some p) (hrun : u.running = true) (hop : tOp u.desc ≠ 0x40) :
    tileAbort c t s = abortedTile c t p.ctx u (abortNoted c t u p s) := by
  simp [tileAbort, hu, hp, hrun, hop, abortNoted, abortedTile]

/-- What releasing a slot keeps, discarding the groups of a tile keeps. -/
theorem discardGroups_keeps {α : Type} (P : State → α) (hP : ∀ k grid slot v, P (dropGroup k grid slot v) = P v) (x : Nat) (u : Tile) (s : State) :
    P (discardGroups c x u s) = P s := by
  unfold discardGroups
  split
  · dsimp only
    split <;> split <;> simp only [hP]
  · dsimp only
    split <;> simp only [hP]
  · rfl

theorem discardGroups_of_other {x : Nat} (hmat : tOp u.desc ≠ 0x10) (hfill : tOp u.desc ≠ 0x13) : discardGroups c x u s = s := by
  unfold discardGroups
  split
  · exact absurd ‹_› hmat
  · exact absurd ‹_› hfill
  · rfl

theorem dropGroup_prog (k slot d : Nat) (grid : Bool) (v : State) :
    ((dropGroup k grid slot v).cell d).prog = (v.cell d).prog ∧ ((dropGroup k grid slot v).cell d).abort = (v.cell d).abort := by
  unfold dropGroup
  rw [State.cell_modCell]
  split
  · next h => subst h; exact ⟨rfl, rfl⟩
  · exact ⟨rfl, rfl⟩

/-- What writing undefined bytes keeps, scrambling intervals keeps. -/
theorem scramble_keeps {α : Type} (P : State → α) (hP : ∀ (n a : Nat) (bs : Bytes) (v : State), P (poke (takeBytes n v).2 a bs) = P v)
    (l : List (Nat × Nat)) (s : State) : P (scramble l s) = P s :=
  foldl_proj P (fun v (i : Nat × Nat) => poke (takeBytes i.2 v).2 i.1 (takeBytes i.2 v).1) (fun v i => hP i.2 i.1 (takeBytes i.2 v).1 v) l s

theorem memGet_scramble (l : List (Nat × Nat)) (s : State) (a : Nat) (hw : memWf memFill s.mem = true) (ha : ∀ i ∈ l, a < i.1 ∨ i.1 + i.2 ≤ a) :
    memGet memFill (scramble l s).mem a = memGet memFill s.mem a := by
  induction l generalizing s with
  | nil => rfl
  | cons i l ih =>
    have hlen : (takeBytes i.2 s).1.length = i.2 := by simp [takeBytes]
    have hstep := ih (poke (takeBytes i.2 s).2 i.1 (takeBytes i.2 s).1) (poke_wf _ _ _ hw) (fun j hj => ha j (List.mem_cons_of_mem _ hj))
    rw [scramble, List.foldl_cons]
    refine hstep.trans (memGet_memWrite_outside _ _ _ _ _ hw ?_)
    rw [hlen]
    exact ha i List.mem_cons_self

section
variable {x : Nat}

theorem abortedTile_cell_ne {d : Nat} (hd : d ≠ c) (hmat : tOp u.desc ≠ 0x10) (hfill : tOp u.desc ≠ 0x13) :
    (abortedTile c t x u s).cell d = s.cell d := by
  rw [abortedTile, modTile, State.cell_modCell_ne _ _ _ _ hd, discardGroups_of_other hmat hfill]
  exact scramble_keeps (fun v => v.cell d) (fun _ _ _ _ => rfl) u.wr s

theorem abortedTile_frame : (abortedTile c t x u s).queues = s.queues ∧ (abortedTile c t x u s).hub = s.hub ∧ (abortedTile c t x u s).ctxs = s.ctxs ∧
    (abortedTile c t x u s).pwr = s.pwr := by
  have hkeep : ∀ {α : Type} (P : State → α), (∀ k grid slot v, P (dropGroup k grid slot v) = P v) →
      (∀ (n a : Nat) (bs : Bytes) (v : State), P (poke (takeBytes n v).2 a bs) = P v) → P (scramble u.wr (discardGroups c x u s)) = P s :=
    fun P h h' => (scramble_keeps P h' _ _).trans (discardGroups_keeps P h x u s)
  exact ⟨hkeep State.queues (fun _ _ _ _ => rfl) (fun _ _ _ _ => rfl), hkeep State.hub (fun _ _ _ _ => rfl) (fun _ _ _ _ => rfl),
    hkeep State.ctxs (fun _ _ _ _ => rfl) (fun _ _ _ _ => rfl), hkeep State.pwr (fun _ _ _ _ => rfl) (fun _ _ _ _ => rfl)⟩

/-- The cell of an aborted tile: its count stays, and its program holds the tile with TIMEOUT. -/
theorem abortedTile_cell_same (hp : (s.cell c).prog = some p) : ((abortedTile c t x u s).cell c).abort = (s.cell c).abort ∧
    ((abortedTile c t x u s).cell c).prog = some { p with tiles := p.tiles.map (fun v =>
      if v.id = t then { v with applied := true, status := stTimeout, staged := [], word0 := 0, word1 := 0, q := {} } else v) } := by
  have hcell : ∀ {α : Type} (P : Cell → α), (∀ k grid slot v, P ((dropGroup k grid slot v).cell c) = P (v.cell c)) →
      P ((unstage (fun k i => k = c && i = t) (scramble u.wr (discardGroups c x u s))).cell c) = P (s.cell c) :=
    fun P h => (scramble_keeps (fun v => P (v.cell c)) (fun _ _ _ _ => rfl) _ _).trans (discardGroups_keeps (fun v => P (v.cell c)) h x u s)
  have habort := hcell Cell.abort (fun k grid slot v => (dropGroup_prog k slot c grid v).2)
  have hprog := hcell Cell.prog (fun k grid slot v => (dropGroup_prog k slot c grid v).1)
  simp only [abortedTile, modTile, State.cell_modCell_same, habort, hprog, hp]
  exact ⟨trivial, rfl⟩

theorem abortedTile_unstaged : ∀ h ∈ (abortedTile c t x u s).holders, ∀ e ∈ h.2.staged, ¬ (e.cell = c ∧ e.tile = t) := by
  intro h hh e he
  simp only [abortedTile, modTile, State.modCell_holders, unstage, List.mem_map] at hh
  obtain ⟨g, -, rfl⟩ := hh
  rintro ⟨hcell, htile⟩
  simpa [hcell, htile] using (List.mem_filter.mp he).2

theorem memGet_abortedTile (hw : memWf memFill s.mem = true) (a : Nat) (ha : ∀ i ∈ u.wr, a < i.1 ∨ i.1 + i.2 ≤ a) :
    memGet memFill (abortedTile c t x u s).mem a = memGet memFill s.mem a := by
  have hmem : (discardGroups c x u s).mem = s.mem := discardGroups_keeps State.mem (fun _ _ _ _ => rfl) x u s
  have := memGet_scramble u.wr (discardGroups c x u s) a (by rwa [hmem]) ha
  rwa [hmem] at this

end

/-! ### The control core -/

theorem coreIssue_of_room {desc : List Word} {k : CoreRun} (hk : (s.cell c).core = some k) (hp : (s.cell c).prog = some p) (hexit : k.exit = none)
    (hroom : k.waiting < 4) (hfail : k.fail = none) (hpf : p.fail = none) (hstop : p.stopNew = false) (hlen : desc.length = 32) :
    coreIssue c desc 1 s = s.modCell c (fun v => { v with
      prog := some { p with tiles := p.tiles ++ [{ id := 2 ^ 32 * (k.tile + 1) + k.issued, desc := desc.flatMap (fun w => le 4 w.toNat), core := true }] },
      core := some { k with desc := desc, segStart := s.clk, issued := k.issued + 1, waiting := k.waiting + 1 } }) := by
  have hwords : (desc ++ List.replicate 32 (0 : Word)).take 32 = desc := List.take_left' hlen
  simp only [coreIssue, hk, hp, hexit, hwords]
  rw [if_neg (by simp; omega), if_neg (by simp [stopped, modCore, hk, hp, hfail, hpf, hstop])]
  simp only [modCore, State.modCell_modCell]
  exact State.modCell_congr _ _ _ _ (by simp [hk, hexit])

theorem coreIssue_of_full {desc : List Word} {k : CoreRun} (hk : (s.cell c).core = some k) (hfull : 4 ≤ k.waiting) :
    coreIssue c desc 1 s = s := by
  cases hp : (s.cell c).prog <;> simp [coreIssue, hk, hp, hfull]

theorem coreEnd_of_running {k : CoreRun} (hk : (s.cell c).core = some k) (hexit : k.exit = none) (st : Nat) :
    coreEnd c st s = s.modCell c (fun v => { v with core := some { k with exit := some st } }) := by
  unfold coreEnd modCore
  exact State.modCell_congr _ _ _ _ (by simp [hk, hexit])

/-- The first end of a CORE_CALL stands (R155). -/
theorem coreEnd_of_ended {k : CoreRun} {e : Nat} (hk : (s.cell c).core = some k) (hexit : k.exit = some e) (st : Nat) :
    (coreEnd c st s).cell c = s.cell c := by
  have hsame : ({ k with exit := if k.exit.isSome then k.exit else some st } : CoreRun) = k := by
    obtain ⟨⟩ := k
    cases hexit
    rfl
  simp only [coreEnd, modCore, State.cell_modCell_same, hk, Option.map_some, hsame]
  rw [← hk]

end

/-- Settles O24: a tile that has taken its effect completes, and the oldest record is written. -/
theorem tilesComplete : Obligations.TilesComplete := by
  refine ⟨?complete, ?record, ?last, tileRec_length⟩
  case complete =>
    intro s c t u p hs hp hu hrun happ hst hop hcore v w
    exact serving_of _ s _ hs (tileComplete_of_applied hp hu hrun happ hst hop hcore)
      ((congrArg State.pwr (tileComplete_of_applied hp hu hrun happ hst hop hcore)).symm.trans (tileComplete_pwr c t s))
  case record =>
    intro s c p t rest w hs hp hl hdone hre hw hok v
    exact serving_of _ s _ hs (tileRecordWrite_of_done hp hl hdone hre hw hok)
      ((congrArg State.pwr (tileRecordWrite_of_done hp hl hdone hre hw hok)).symm.trans (tileRecordWrite_pwr c s))
  case last =>
    intro s c p hs hp ht hend
    have heff := tileRecordWrite_of_last hp ht hend
    exact serving_of _ s _ hs heff (by rw [← heff, tileRecordWrite_pwr])

/-- Settles O25: an aborted tile keeps nothing of its effect outside its own footprint. -/
theorem tileWatchdog : Obligations.TileWatchdog := by
  have answers : ∀ i s, ∃ w, exec i s = .next w := fun i s => (everyCommandAnswers i s).imp fun _ h => h.1
  refine ⟨?late, ?abort, ?idle⟩
  case late =>
    intro s c t u hs hu hrun hlate
    exact serving_of _ s _ hs (tileLate_of_first hu hrun hlate) (by simp [modTile])
  case abort =>
    intro s c t u p hs hu hp hrun
    refine ⟨answers _ _, answers _ _, fun hop happ => ?call, fun hop => ?tile⟩
    case call => exact serving_of _ s _ hs (tileAbort_of_call hu hp hrun hop happ) (by simp [setHang])
    case tile =>
      have hcell : (abortNoted c t u p s).cell c = { s.cell c with abort := bump (s.cell c).abort 1 } := by
        simp [abortNoted, setHang]
      have hnoted : ((abortNoted c t u p s).cell c).prog = some p := by rw [hcell]; exact hp
      obtain ⟨hq, hhub, hctx, hpwr⟩ := abortedTile_frame (c := c) (t := t) (x := p.ctx) (u := u) (s := abortNoted c t u p s)
      obtain ⟨habort, hprog⟩ := abortedTile_cell_same (t := t) (x := p.ctx) (u := u) hnoted
      have heff := tileAbort_of_tile hu hp hrun hop
      refine ⟨_, serving_of _ s _ hs heff ?_, hq, hhub, hctx, fun d hd hmat hfill => abortedTile_cell_ne hd hmat hfill, ?_,
        ⟨_, hprog, fun e he hid => ?_⟩, abortedTile_unstaged, fun hw a ha => ?_⟩
      · rw [hpwr]; simp [abortNoted, setHang]
      · rw [habort, hcell]
      · obtain ⟨v, -, rfl⟩ := List.mem_map.mp he
        by_cases hv : v.id = t
        · simp [hv]
        · rw [if_neg hv] at hid; exact absurd hid hv
      · have hmem : (abortNoted c t u p s).mem = s.mem := by simp [abortNoted, setHang]
        rw [memGet_abortedTile (by rwa [hmem]) a ha, hmem]
  case idle =>
    intro s c t u p hs hu hp hrun
    exact ⟨serving_of _ s _ hs (tileAbort_of_idle hu hp hrun) rfl, serving_of _ s _ hs (tileLate_of_idle hu hrun) rfl⟩

/-- Settles O26: the issue by the count of waiting tiles, and the first end by each way to end. -/
theorem controlCore : Obligations.ControlCore := by
  refine ⟨?issue, ?full, ?exit, ?first⟩
  case issue =>
    intro s c desc k p hs hk hp hexit hroom hfail hpf hstop hlen
    exact serving_of _ s _ hs (coreIssue_of_room hk hp hexit hroom hfail hpf hstop hlen) rfl
  case full =>
    intro s c desc k hs hk hfull
    exact serving_of _ s _ hs (coreIssue_of_full hk hfull) rfl
  case exit =>
    intro s c v k hs hk hexit
    have hend : ∀ st, serving (coreEnd c st) s = .next (s.modCell c (fun u => { u with core := some { k with exit := some st } })) :=
      fun st => serving_of _ s _ hs (coreEnd_of_running hk hexit st) rfl
    refine ⟨fun h => ?_, fun h => ?_, fun h0 h1 => ?_, hend stBad, hend stPerm⟩
    · subst h; exact hend 0
    · subst h; exact hend 1
    · have hst : exitStatus v.toNat = 0x11 := by
        have h0' : v.toNat ≠ 0 := fun h => h0 (BitVec.eq_of_toNat_eq h)
        have h1' : v.toNat ≠ 1 := fun h => h1 (BitVec.eq_of_toNat_eq h)
        simp [exitStatus, h0', h1']
      exact (congrArg (fun st => serving (coreEnd c st) s) hst).trans (hend 0x11)
  case first =>
    intro s c v illegal k e hs hk hexit
    have hend : ∀ st, ∃ t, serving (coreEnd c st) s = .next t ∧ t.cell c = s.cell c :=
      fun st => ⟨_, serving_of _ s _ hs rfl rfl, coreEnd_of_ended hk hexit st⟩
    exact ⟨hend _, hend _⟩

end Sys2Proof.Machine
end

section
/-! PROOFS. The running tile of each op takes its effect (R131 to R140, R147, R154, R172 to R180, R201, R223, R547). -/
namespace Sys2Proof.Machine

/-! ### The frame of an op -/

section
variable {plan : State → Nat → Nat → Tile → Option Plan} {eff : Nat → Nat → Tile → State → Done} {op c : Nat} {s : State} {t : Tile} {p : Plan}

/-- How the effect of a running tile comes out: a window gone, a word or a pair that cannot be read, or the effect itself (R126, R147). -/
def tileOutcome (eff : Nat → Nat → Tile → State → Done) (c : Nat) (t : Tile) (p : Plan) (s : State) : Done :=
  if !p.open_ s (cellCtx s c) then { s := s, st := stPerm }
  else if !(badMet s p.reads p.slots).isEmpty then { s := eccCount (cellCtx s c) (badMet s p.reads p.slots) s, st := stMem }
  else if anyBad s p.reads then { s := p.reads.foldl (fun u i => notePoison u i.1 i.2) s, st := stMem }
  else eff c (cellCtx s c) t s

/-- With no error found by the code, the tile takes the outcome and keeps it for its record. -/
theorem applyTile_of_running (ht : runningTile s c op = some t) (hp : plan s c (cellCtx s c) t = some p) :
    applyTile plan eff op c [] s = modTile c t.id (fun u => { u with
      applied := true, status := (tileOutcome eff c t p s).st, word0 := (tileOutcome eff c t p s).word0,
      word1 := (tileOutcome eff c t p s).word1, q := (tileOutcome eff c t p s).q }) (tileOutcome eff c t p s).s := by
  simp only [applyTile, ht, hp]
  rfl

theorem tileOutcome_of_closed (h : p.open_ s (cellCtx s c) = false) : tileOutcome eff c t p s = { s := s, st := stPerm } := by
  simp [tileOutcome, h]

theorem tileOutcome_of_bad_word (h : p.open_ s (cellCtx s c) = true) (hbad : badMet s p.reads p.slots ≠ []) :
    tileOutcome eff c t p s = { s := eccCount (cellCtx s c) (badMet s p.reads p.slots) s, st := stMem } := by
  simp [tileOutcome, h, hbad]

theorem tileOutcome_of_bad_pair (h : p.open_ s (cellCtx s c) = true) (hbad : badMet s p.reads p.slots = []) (hpair : anyBad s p.reads = true) :
    tileOutcome eff c t p s = { s := p.reads.foldl (fun u i => notePoison u i.1 i.2) s, st := stMem } := by
  simp [tileOutcome, h, hbad, hpair]

theorem tileOutcome_of_read (h : p.open_ s (cellCtx s c) = true) (hbad : badMet s p.reads p.slots = []) (hpair : anyBad s p.reads = false) :
    tileOutcome eff c t p s = eff c (cellCtx s c) t s := by
  simp [tileOutcome, h, hbad, hpair]

end

/-! ### The rows of tiles -/

theorem tileOps_eff_pwr : ∀ o ∈ tileOps, ∀ (c x : Nat) (t : Tile) (u : State), (o.eff c x t u).s.pwr = u.pwr := by
  simp [tileOps]

@[simp] theorem announceParts_cell (c t : Nat) (l : List (Nat × List (Nat × Nat))) (s : State) (d : Nat) :
    (announceParts c t l s).cell d = s.cell d := by
  unfold announceParts
  exact foldl_proj (fun u => u.cell d) _ (fun u e => by simp) l s

@[simp] theorem announceParts_pwr (c t : Nat) (l : List (Nat × List (Nat × Nat))) (s : State) : (announceParts c t l s).pwr = s.pwr := by
  unfold announceParts
  exact foldl_proj State.pwr _ (fun u e => by simp) l s

/-- What comes first leaves the tiles of the cells and the power shell. -/
theorem tileOps_prep : ∀ o ∈ tileOps, ∀ (c op : Nat) (t : Tile) (s : State),
    runningTile (o.prep c t s) c op = runningTile s c op ∧ (o.prep c t s).pwr = s.pwr := by
  simp [tileOps, saddAnnounce, runningTile, tilesOf]

/-- When a row is ready, its command applies the running tile to what came first. -/
theorem tileOps_exec : ∀ o ∈ tileOps, ∀ (s : State) (c : Nat) (t : Tile), runningTile s c o.op = some t → o.ready s c t = true →
    ∃ f, exec (o.cmd c) s = serving f s ∧ f s = applyTile o.plan o.eff o.op c [] (o.prep c t s) := by
  simp only [tileOps, List.mem_cons, List.not_mem_nil, or_false, forall_eq_or_imp, forall_eq]
  refine ⟨?nop, ?matmul, ?scan, ?spill, ?fill, ?drain, ?vec, ?copy, ?layout, ?window, ?gather, ?scatter, ?sadd, ?core⟩
  case matmul =>
    intro s c t ht hready
    have hgo : probationStall s c (cellCtx s c) t = false := by simpa using hready
    exact ⟨matmulRow c [], rfl, by simp [matmulRow, ht, hgo]⟩
  case sadd =>
    intro s c t ht hready
    refine ⟨saddRow c [], rfl, ?_⟩
    simp only [saddRow, ht]
    exact if_pos hready
  all_goals exact fun s c t _ _ => ⟨_, rfl, rfl⟩

/-- Settles O27: each row applies its running tile, and the four outcomes are the four branches of the frame. -/
theorem tilesTakeEffect : Obligations.TilesTakeEffect := by
  intro o ho s₀ s c t p hs ht hready hprep hp
  obtain ⟨f, hexec, hf⟩ := tileOps_exec o ho s₀ c t ht hready
  obtain ⟨hrun, hpwr⟩ := tileOps_prep o ho c o.op t s₀
  rw [← hprep] at hf hrun hpwr
  have heff := applyTile_of_running (eff := o.eff) (hrun.trans ht) hp
  have hshell : (applyTile o.plan o.eff o.op c [] s).pwr = s₀.pwr := (applyTile_pwr _ _ _ _ _ _ (tileOps_eff_pwr o ho c)).trans hpwr
  have hnext : exec (o.cmd c) s₀ = .next (applyTile o.plan o.eff o.op c [] s) := hexec.trans (serving_of f s₀ _ hs hf hshell)
  rw [heff] at hnext
  refine ⟨fun hopen => ?_, fun hopen hbad hpair => ?_, fun hopen hbad => ?_, fun hopen hbad hpair => ?_⟩
  · rw [hnext, tileOutcome_of_closed hopen]
  · rw [hnext, tileOutcome_of_read hopen hbad hpair]
  · rw [hnext, tileOutcome_of_bad_word hopen hbad]
  · rw [hnext, tileOutcome_of_bad_pair hopen hbad hpair]

end Sys2Proof.Machine
end

section
/-! PROOFS. What the copying tiles write (R172, R173, R177 to R179), and SCATTER_ADD (R180 to R182, R223). -/
namespace Sys2Proof.Machine

section
variable {s : State} {c x : Nat} {t : Tile} {a b : TRef}

/-! ### Copies -/

/-- The blocks that a DMA_COPY carries over: bit for bit, or turned to the other major order (R172). -/
def copyRows (s : State) (t : Tile) (a b : TRef) : List (List EncBlock) :=
  (List.range (b.rows (dmaRows t.desc) (dmaCols t.desc))).map (fun p =>
    if a.cm = b.cm then rawBlocks s a p (a.extent (dmaRows t.desc) (dmaCols t.desc)) 0 (a.extent (dmaRows t.desc) (dmaCols t.desc))
    else turned s a b (dmaRows t.desc) (dmaCols t.desc) p)

theorem copyEff_of_refs (hr : copyRefs t.desc = some (a, b)) (hd : doorbellCopy s x t.desc = none) :
    (copyEff c x t s).s = (writeList s (planeWrites b (copyRows s t a b))).1 := by
  simp only [copyEff, hr, hd]
  rfl

theorem layoutEff_of_encoded {q : QCtl} (hr : layoutRefs (modeOf s x) t.desc = some (a, b, q))
    (h : ¬ (fmtMx a.fmt = true ∧ a.fmt = b.fmt ∧ a.cm = b.cm)) :
    let blocks := quantise s q (qRound false q) b (dmaRows t.desc) (dmaCols t.desc) (spAddr c (fld t.desc 25 0 22)) (srKey s x t.desc) (fun i j => elemAt s a i j)
    layoutEff c x t s = wrote (writeList s (planeWrites b blocks)) (okFlag (qFlags (countsOf blocks))) (countsOf blocks) := by
  simp only [layoutEff, hr]
  exact if_neg (by simpa [and_assoc] using h)

theorem layoutEff_of_raw {q : QCtl} (hr : layoutRefs (modeOf s x) t.desc = some (a, b, q)) (hmx : fmtMx a.fmt = true) (hfmt : a.fmt = b.fmt)
    (hcm : a.cm = b.cm) :
    let e := a.extent (dmaRows t.desc) (dmaCols t.desc)
    layoutEff c x t s =
      wrote (writeList s (planeWrites b ((List.range (b.rows (dmaRows t.desc) (dmaCols t.desc))).map (fun p => rawBlocks s a p e 0 e)))) stOk {} := by
  simp only [layoutEff, hr]
  exact if_pos (by simp [hmx, ← hfmt, hcm])

/-! ### Rows by index -/

/-- The indices that a gather or scatter reads. -/
def readIdx (s : State) (c : Nat) (t : Tile) : List Int := (List.range (dmaRows t.desc)).map (idxAt s c t.desc)

/-- The rows out of range are counted, and flag the tile. -/
theorem okFlag_of_idx (d : Bytes) (l : List Int) (r : State × Bool) (q : QCounts) :
    let st := (wrote r (okFlag (decide ((l.filter (fun i => !idxIn d i)).length ≠ 0))) q).st
    st = stMem ∨ ((∃ i ∈ l, idxIn d i = false) ∧ st = stFlagged) ∨ ((∀ i ∈ l, idxIn d i = true) ∧ st = stOk) := by
  cases hr : r.2
  · exact .inl (by simp [wrote, hr])
  · by_cases h : ∀ i ∈ l, idxIn d i = true
    · have hnil : l.filter (fun i => !idxIn d i) = [] := List.filter_eq_nil_iff.mpr fun i hi => by simp [h i hi]
      exact .inr (.inr ⟨h, by simp only [wrote, hr, hnil]; rfl⟩)
    · obtain ⟨i, hi, hout⟩ : ∃ i ∈ l, idxIn d i = false := by simpa using h
      have hne : (l.filter (fun i => !idxIn d i)).length ≠ 0 := by
        simpa using ⟨i, hi, hout⟩
      exact .inr (.inl ⟨⟨i, hi, hout⟩, by simp only [wrote, hr, decide_eq_true hne]; rfl⟩)

theorem gatherEff_of_refs (hr : indexRefs t.desc true = some (a, b)) :
    let rows := (readIdx s c t).map (fun i => if idxIn t.desc i || dmaOob t.desc = 0 then rawBlocks s a (clampIdx t.desc i) (dmaCols t.desc) 0 (dmaCols t.desc)
      else zeroBlocks a.fmt (dmaCols t.desc))
    let out := ((readIdx s c t).filter (fun i => !idxIn t.desc i)).length
    gatherEff c x t s = wrote (writeList (s.modCell c (fun k => { k with subst := bump k.subst out })) (planeWrites b rows))
      (okFlag (decide (out ≠ 0))) (countsOf rows) := by
  simp only [gatherEff, hr]
  rfl

/-- The rows of a scatter, written one after the other from state u. -/
def scatterRows (s : State) (t : Tile) (a b : TRef) (l : List (Int × Nat)) (u : State × Bool) : State × Bool :=
  l.foldl (fun (u : State × Bool) e =>
    if idxIn t.desc e.1 then
      let w := writeList u.1 ((rowWrites b e.1.toNat (rawBlocks s a e.2 (dmaCols t.desc) 0 (dmaCols t.desc))).flatten)
      (w.1, u.2 && w.2)
    else u) u

theorem scatterEff_of_refs (hr : indexRefs t.desc false = some (a, b)) :
    let out := ((readIdx s c t).filter (fun i => !idxIn t.desc i)).length
    scatterEff c x t s = wrote (scatterRows s t a b (readIdx s c t).zipIdx (s.modCell c (fun k => { k with dropped := bump k.dropped out }), true))
      (okFlag (decide (out ≠ 0))) {} := by
  simp only [scatterEff, hr]
  rfl

/-- Rows that are all out of range are all dropped (R179). -/
theorem scatterRows_of_out (l : List (Int × Nat)) (u : State × Bool) (h : ∀ e ∈ l, idxIn t.desc e.1 = false) : scatterRows s t a b l u = u := by
  induction l with
  | nil => rfl
  | cons e l ih =>
    rw [scatterRows, List.foldl_cons, if_neg (by simp [h e List.mem_cons_self])]
    exact ih fun f hf => h f (List.mem_cons_of_mem _ hf)

end

/-- Settles O28: each copy is one list of writes of its planes, and no byte outside them changes. -/
theorem copiesWriteTheirPlanes : Obligations.CopiesWriteTheirPlanes := by
  refine ⟨?copy, ?encoded, ?raw, ?gather, ?scatter⟩
  case copy =>
    intro s c x t a b hw hr hd rows
    have heff : (copyEff c x t s).s = (writeList s (planeWrites b rows)).1 := copyEff_of_refs hr hd
    exact ⟨heff, fun i hi => by rw [heff]; exact (memGet_writeList_outside s _ i hw hi).2⟩
  case encoded =>
    intro s c x t a b q hw hr h blocks
    have heff : layoutEff c x t s = wrote (writeList s (planeWrites b blocks)) (okFlag (qFlags (countsOf blocks))) (countsOf blocks) :=
      layoutEff_of_encoded hr h
    rw [heff]
    exact ⟨rfl, rfl, fun i hi => (memGet_writeList_outside s _ i hw hi).2⟩
  case raw =>
    intro s c x t a b q hw hr hmx hfmt hcm e blocks
    have heff : layoutEff c x t s = wrote (writeList s (planeWrites b blocks)) stOk {} := layoutEff_of_raw hr hmx hfmt hcm
    rw [heff]
    exact ⟨rfl, rfl, fun i hi => (memGet_writeList_outside s _ i hw hi).2⟩
  case gather =>
    intro s c x t a b hw hr idx rows
    rw [gatherEff_of_refs hr]
    exact ⟨okFlag_of_idx t.desc idx _ _, fun i hi => (memGet_writeList_outside (s.modCell c _) _ i hw hi).2⟩
  case scatter =>
    intro s c x t a b hw hr idx
    rw [scatterEff_of_refs hr]
    refine ⟨okFlag_of_idx t.desc idx _ _, fun hout => ?_⟩
    have hdropped : ∀ e ∈ (readIdx s c t).zipIdx, idxIn t.desc e.1 = false := fun e he => hout e.1 (List.fst_mem_of_mem_zipIdx he)
    rw [scatterRows_of_out _ _ hdropped]
    rfl

/-! ### SCATTER_ADD -/

section
variable {s : State}

theorem saddApply_of_staged {h c t : Nat} {g : Staged} (hg : (s.holder h).staged.find? (fun e => e.cell = c && e.tile = t) = some g) :
    let r := addEntries s g.contr
    let st := if r.2.2 then stMem else if r.2.1 then stFlagged else stOk
    saddApply h c t s = modTile c t (fun u => { u with staged := u.staged.filter (fun k => k ≠ h), status := max u.status st })
      (r.1.modHolder h (fun k => { k with
        staged := k.staged.filter (fun e => !(e.cell = c && e.tile = t)),
        announced := k.announced.filter (fun e => !(e.1 = c && e.2.1 = t)),
        applied := k.applied.filter (fun e => !(e.1 = c && e.2.1 = t)) ++ [(c, t, st)] })) := by
  simp only [saddApply, hg]
  rfl

/-- One contribution writes 13 bytes, or nothing where its entry cannot be read (R180). -/
theorem addEntry_state (a v : Nat) : (addEntry s a v).1 = if unreadable s a 16 then s else
    poke s a (le 12 (ofSigned 96 (rowAdd (gridOf (peek s a 16)) (dec32 v)).1.word) ++
      [BitVec.ofNat 8 (rowAdd (gridOf (peek s a 16)) (dec32 v)).1.st.toNat]) := by
  unfold addEntry
  split <;> rfl

theorem addEntry_frame (a v : Nat) : (addEntry s a v).1.holders = s.holders ∧ (addEntry s a v).1.ctxs = s.ctxs := by
  rw [addEntry_state]
  split <;> exact ⟨rfl, rfl⟩

theorem addEntry_mem {a v i : Nat} (hw : memWf memFill s.mem = true) (hi : i < a ∨ a + 13 ≤ i) :
    memWf memFill (addEntry s a v).1.mem = true ∧ memGet memFill (addEntry s a v).1.mem i = memGet memFill s.mem i := by
  rw [addEntry_state]
  split
  · exact ⟨hw, rfl⟩
  · exact ⟨poke_wf _ _ _ hw, memGet_memWrite_outside _ _ _ _ _ hw (by simpa using hi)⟩

/-- The contributions fold over the state alone; their flags are gathered beside it. -/
theorem addEntries_state (l : List (Nat × Nat)) (u : State × Bool × Bool) :
    (l.foldl (fun u e => let r := addEntry u.1 e.1 e.2; (r.1, u.2.1 || r.2.1, u.2.2 || r.2.2)) u).1 =
      l.foldl (fun v e => (addEntry v e.1 e.2).1) u.1 := by
  induction l generalizing u with
  | nil => rfl
  | cons e l ih => rw [List.foldl_cons, List.foldl_cons, ih]

theorem addEntries_frame (l : List (Nat × Nat)) : (addEntries s l).1.holders = s.holders ∧ (addEntries s l).1.ctxs = s.ctxs := by
  rw [addEntries, addEntries_state]
  exact ⟨foldl_proj State.holders (fun v e => (addEntry v e.1 e.2).1) (fun v e => (addEntry_frame e.1 e.2).1) l s,
    foldl_proj State.ctxs (fun v e => (addEntry v e.1 e.2).1) (fun v e => (addEntry_frame e.1 e.2).2) l s⟩

theorem memGet_addEntries (l : List (Nat × Nat)) (i : Nat) (hw : memWf memFill s.mem = true) (hi : ∀ e ∈ l, i < e.1 ∨ e.1 + 13 ≤ i) :
    memGet memFill (addEntries s l).1.mem i = memGet memFill s.mem i := by
  rw [addEntries, addEntries_state]
  induction l generalizing s with
  | nil => rfl
  | cons e l ih =>
    obtain ⟨hwf, hget⟩ := addEntry_mem (v := e.2) hw (hi e List.mem_cons_self)
    rw [List.foldl_cons]
    exact (ih hwf fun f hf => hi f (List.mem_cons_of_mem _ hf)).trans hget

/-! ### Staging and reservation -/

/-- The parts handed to their engines (R181). -/
def stageParts (c t : Nat) (l : List (Nat × List (Nat × Nat))) (s : State) : State :=
  l.foldl (fun u p => u.modHolder p.1 (fun h => { h with staged := h.staged ++ [{ cell := c, tile := t, contr := p.2 }] })) s

theorem stageParts_keeps {α : Type} (P : State → α) (hP : ∀ h f v, P (v.modHolder h f) = P v) (c t : Nat) (l : List (Nat × List (Nat × Nat)))
    (s : State) : P (stageParts c t l s) = P s :=
  foldl_proj P (fun v (p : Nat × List (Nat × Nat)) => v.modHolder p.1 (fun h => { h with staged := h.staged ++ [{ cell := c, tile := t, contr := p.2 }] }))
    (fun v p => hP p.1 _ v) l s

theorem stageParts_holder_ne {c t h : Nat} (l : List (Nat × List (Nat × Nat))) (hl : ∀ p ∈ l, p.1 ≠ h) (s : State) :
    (stageParts c t l s).holder h = s.holder h := by
  induction l generalizing s with
  | nil => rfl
  | cons p l ih =>
    rw [stageParts, List.foldl_cons]
    refine (ih (fun q hq => hl q (List.mem_cons_of_mem _ hq)) _).trans ?_
    exact State.holder_modHolder_ne _ _ _ _ (hl p List.mem_cons_self).symm

/-- Into device memory the contributions are staged, and no byte is written yet (R181). -/
theorem saddEff_of_far {c x : Nat} {t : Tile} {a : TRef} {base stride : Nat} (hr : saddRefs c t.desc = some (a, base, stride))
    (hfar : ownWin c base = false) :
    ∃ n, (saddEff c x t s).s = modTile c t.id (fun v => { v with staged := (saddParts s c t (contributions s c t.desc a base stride)).map (·.1) })
      (stageParts c t.id (saddParts s c t (contributions s c t.desc a base stride)) (s.modCell c (fun k => { k with dropped := bump k.dropped n }))) := by
  refine ⟨((List.range (dmaRows t.desc)).filter (fun i => !idxIn t.desc (idxAt s c t.desc i))).length, ?_⟩
  simp only [saddEff, hr, hfar]
  rfl

/-- The engine reserves in the order of the announcements (R223). -/
theorem reserved_iff {h c t n : Nat} {before after : List (Nat × Nat × Nat)} (ha : (s.holder h).announced = before ++ (c, t, n) :: after)
    (hb : ∀ e ∈ before, ¬ (e.1 = c ∧ e.2.1 = t)) : reserved s h c t = true ↔ (before.map (fun e => e.2.2)).sum + n ≤ stagedRoom := by
  have hno : ∀ e ∈ before, (decide (e.1 = c) && decide (e.2.1 = t)) = false := fun e he => by
    rw [← Bool.decide_and]
    exact decide_eq_false (hb e he)
  have htake : (before ++ (c, t, n) :: after).takeWhile (fun e => !(e.1 = c && e.2.1 = t)) = before := by
    rw [List.takeWhile_append_of_pos fun e he => by simp only [hno e he, Bool.not_false]]
    simp
  have hfind : (before ++ (c, t, n) :: after).find? (fun e => e.1 = c && e.2.1 = t) = some (c, t, n) := by
    rw [List.find?_append, List.find?_eq_none.mpr fun e he => by simp only [hno e he, Bool.false_eq_true, not_false_eq_true]]
    simp
  simp only [reserved, ha, htake, hfind]
  exact decide_eq_true_iff

end

/-- Settles O29: the engine's side and the tile's side of a SCATTER_ADD, and the order of reservations. -/
theorem scatterAdds : Obligations.ScatterAdds := by
  refine ⟨?applied, ?outside, ?entry, ?staged, ?room⟩
  case applied =>
    intro s h c t g hs hg r st
    exact serving_of _ s _ hs (saddApply_of_staged hg)
      ((congrArg State.pwr (saddApply_of_staged hg)).symm.trans (saddApply_pwr h c t s))
  case outside =>
    intro s l i hw hi
    obtain ⟨hh, hc⟩ := addEntries_frame (s := s) l
    exact ⟨memGet_addEntries l i hw hi, hh, hc⟩
  case entry =>
    intro s a v hw hread r
    have hread' := memRead_memWrite memFill s.mem a (le 12 (ofSigned 96 r.word) ++ [BitVec.ofNat 8 r.st.toNat]) hw
    rw [addEntry_state, if_neg (by simp [hread])]
    rwa [List.length_append, le_length] at hread'
  case staged =>
    intro s c x t a base stride hr hfar u parts
    obtain ⟨n, hu⟩ := saddEff_of_far (s := s) (x := x) hr hfar
    have hkeep : ∀ {α : Type} (P : State → α), (∀ h f v, P (State.modHolder v h f) = P v) → (∀ k f v, P (State.modCell v k f) = P v) → P u = P s :=
      fun P hh hc => by rw [show u = _ from hu, modTile, hc, stageParts_keeps P hh, hc]
    refine ⟨hkeep State.mem (fun _ _ _ => rfl) (fun _ _ _ => rfl), hkeep State.ctxs (fun _ _ _ => rfl) (fun _ _ _ => rfl),
      hkeep State.queues (fun _ _ _ => rfl) (fun _ _ _ => rfl), fun h hp => ?_⟩
    rw [show u = _ from hu, modTile, State.modCell_holder, stageParts_holder_ne _ hp, State.modCell_holder]
  case room =>
    intro s h c t n before after ha hb
    exact reserved_iff ha hb

end Sys2Proof.Machine
end

section
/-! PROOFS. The jobs of the engines beside memory, and what their programs write (R204 to R222, R232, R233, R238, R440). -/
namespace Sys2Proof.Machine

/-! ### The row of a program -/

section
variable {mine : Nat → Bool} {run : EngJob → List Stream → QCtl → Bytes → State → JobEnd} {stall : State → EngJob → List Stream → Bool}
  {s : State} {h : Nat} {j : EngJob}

theorem engineRow_of_checked (hf : EngineFree s h) (hj : nextJob (s.holder h) = some j) (hm : mine (jProg j.desc) = true)
    {l : List Stream} {q : QCtl} {b : Bytes} (hc : jobChecks s h j = .ok (l, q, b)) :
    engineRow mine run stall h s = if stall s j l then setStall h true s else endJob h j (run j l q b (startJob h j (setStall h false s))) := by
  obtain ⟨hr, hn, hfen⟩ := hf
  simp [engineRow, hr, hn, hfen, hj, hm, hc]

theorem engineRow_of_failed (hf : EngineFree s h) (hj : nextJob (s.holder h) = some j) (hm : mine (jProg j.desc) = true) {st : Nat}
    (hc : jobChecks s h j = .error st) :
    engineRow mine run stall h s =
      endJob h j { s := noteRead st (jParam j.desc) (paramLen (jProg j.desc)) (startJob h j s), st := st } := by
  obtain ⟨hr, hn, hfen⟩ := hf
  simp [engineRow, hr, hn, hfen, hj, hm, hc]

end

theorem setStall_holder (h : Nat) (b : Bool) (s : State) : (setStall h b s).holder h = { s.holder h with stalled := b } := by
  unfold setStall
  split
  · next hb => rw [← hb]
  · rw [State.holder_modHolder_same]

theorem engineOps_run_pwr : ∀ o ∈ engineOps, ∀ (h : Nat) (j : EngJob) (l : List Stream) (q : QCtl) (b : Bytes) (u : State),
    (o.run h j l q b u).s.pwr = u.pwr := by
  simp [engineOps]

theorem engineOps_exec : ∀ o ∈ engineOps, ∀ (s : State) (h : Nat),
    exec (o.cmd h) s = serving (engineRow o.mine (o.run h) (fun t j l => o.stall t h j l) h) s := by
  simp only [engineOps, List.mem_cons, List.not_mem_nil, or_false, forall_eq_or_imp, forall_eq]
  refine ⟨?_, ?_, ?_, ?_, ?_, ?_, ?_, ?_, ?_⟩
  all_goals exact fun _ _ => rfl

/-- Settles O31: every program has the one row, and the row has the outcomes of the checks. -/
theorem engineJobsRun : Obligations.EngineJobsRun := by
  intro o ho s h j hs hf hj hm
  have hrow := engineOps_exec o ho s h
  refine ⟨fun l q b hc hstall => ?_, fun l q b hc hstall => ?_, fun st hc => ?_, setStall_holder h true s, fun hb => if_pos hb⟩
  · rw [hrow]
    refine serving_of _ s _ hs ((engineRow_of_checked hf hj hm hc).trans (if_neg (by simp [hstall]))) ?_
    simp [engineOps_run_pwr o ho, startJob]
  · rw [hrow]
    exact serving_of _ s _ hs ((engineRow_of_checked hf hj hm hc).trans (if_pos hstall)) (by simp)
  · rw [hrow]
    exact serving_of _ s _ hs (engineRow_of_failed hf hj hm hc) (by simp [startJob])

/-! ### Programs that move bytes -/

section
variable {s : State} {j : EngJob} {l : List Stream} {o : Stream}

theorem writeTo_of_sound {a n : Nat} (h : partPoison s a n = []) : writeTo s a n = n := by
  simp [writeTo, h]

theorem runZero_of_sound (ho : streamAt l 7 = some o) (hp : partPoison s o.base (jCount j.desc) = []) :
    runZero j l s = { s := runZero.zeroBytes s o.base (jCount j.desc), written := jCount j.desc } := by
  simp [runZero, ho, writeTo_of_sound hp]

theorem runDigest_of_read (ho : streamAt l 7 = some o) (hread : ∀ r ∈ l, r.slot ≤ 2 → digestFail s r (jCount j.desc) = none)
    (hp : partPoison s o.base 64 = []) :
    let dg := sha512 ((l.filter (fun r => decide (r.slot ≤ 2))).flatMap (fun r =>
      (List.range (digestUnits r (jCount j.desc)).1).flatMap (fun b => (digestUnit s r b).getD [])))
    runDigest j l s = { s := (writeMem s o.base dg).1, written := jCount j.desc } := by
  intro dg
  have hnone : (l.filter (fun r => decide (r.slot ≤ 2))).findSome? (fun r => (digestFail s r (jCount j.desc)).map (fun b => (r, b))) = none := by
    refine List.findSome?_eq_none_iff.mpr fun r hr => ?_
    obtain ⟨hm, hslot⟩ := List.mem_filter.mp hr
    rw [hread r hm (of_decide_eq_true hslot)]
    rfl
  have hwhole : (writeMem s o.base dg).2 = true := (writeMem_whole s o.base dg (by rw [sha512_length]; exact hp)).1
  simp only [runDigest, hnone, ho]
  exact if_pos hwhole

theorem foldl_min_of_le {α : Type} (f : α → Nat) (n : Nat) (l : List α) (h : ∀ a ∈ l, f a = n) : l.foldl (fun t a => min t (f a)) n = n := by
  induction l with
  | nil => rfl
  | cons a l ih =>
    rw [List.foldl_cons, h a List.mem_cons_self, Nat.min_self]
    exact ih fun b hb => h b (List.mem_cons_of_mem _ hb)

theorem writeRun_of_sound {a n : Nat} {bs : Bytes} (h : partPoison s a n = []) :
    writeRun s a bs n n = { s := (writeMem s a (bs.take n)).1, written := n } := by
  simp [writeRun, writeTo_of_sound h]

/-- With every input read whole and the output sound, PARITY writes the combination of its inputs (R220). -/
theorem runParity_of_read {par : Bytes} (ho : streamAt l 7 = some o) (hr : o.reads = false)
    (hread : ∀ r ∈ l, r.slot ≤ 5 → readTo s r.base (jCount j.desc) = jCount j.desc) (hp : partPoison s o.base (jCount j.desc) = []) :
    let p := (l.filter (fun r => decide (r.slot ≤ 5))).foldl (fun acc r => List.zipWith (fun x y => x ^^^ BitVec.ofNat 8 (gfMul (leAt par (4 + r.slot) 1) y.toNat))
      acc (peek s r.base (jCount j.desc))) (zeros (jCount j.desc))
    runParity j l par s = { s := (writeMem s o.base (p.take (jCount j.desc))).1, written := jCount j.desc } := by
  have hmin : ((l.filter (fun r => decide (r.slot ≤ 5))).map (·.base)).foldl (fun t a => min t (readTo s a (jCount j.desc))) (jCount j.desc) = jCount j.desc := by
    refine foldl_min_of_le _ _ _ fun a ha => ?_
    obtain ⟨r, hr, rfl⟩ := List.mem_map.mp ha
    obtain ⟨hm, hslot⟩ := List.mem_filter.mp hr
    exact hread r hm (of_decide_eq_true hslot)
  simp only [runParity, ho, hr, Bool.false_eq_true, if_false, List.nil_append, hmin, Nat.lt_irrefl]
  exact writeRun_of_sound hp

/-- A row of GATHER whose index is out of range is zeros (R221). -/
theorem gatherFrom_of_out {x src idx dst len rows i : Nat} {flag : Bool} {w : Bytes} (hw : readMem s (idx + 4 * i) 4 = some w)
    (hk : toSigned 32 (ofLe w) < 0 ∨ (rows : Int) ≤ toSigned 32 (ofLe w)) (hput : (gatherPut s x (dst + i * len) (zeros len)).2 = 0) :
    gatherFrom x src idx dst len rows 1 i flag s = { s := (gatherPut s x (dst + i * len) (zeros len)).1, st := stFlagged, written := i + 1 } := by
  have hout : (decide (0 ≤ toSigned 32 (ofLe w)) && decide (toSigned 32 (ofLe w) < rows)) = false := by
    obtain h | h := hk
    · simp [Int.not_le.mpr h]
    · simp [Int.not_lt.mpr h]
  simp only [gatherFrom, hw, hout]
  simp [hput, okFlag, stFlagged]

/-! ### Per-element programs that do not run -/

theorem elemRun_of_ill {h : Nat} {q : QCtl} {b : Bytes} (hp : progOk j.desc l q (wordsOf b) (jobProg j.desc l (wordsOf b)) = false) :
    elemRun h j l q b s = { s := s, st := stBad } := by
  simp [elemRun, hp]

theorem elemRun_of_shut {h : Nat} {q : QCtl} {b : Bytes} (hp : progOk j.desc l q (wordsOf b) (jobProg j.desc l (wordsOf b)) = true)
    (hu : isUpdate s j.ctx j.desc l = true) (hg : gateOpen s j.ctx j.bound (wordsOf b) = false) : elemRun h j l q b s = { s := s, st := stConflict } := by
  simp [elemRun, hp, hu, hg]

/-! ### The record -/

@[simp] theorem gridBytes_length (g : Grid) : (gridBytes g).length = 16 := by simp [gridBytes]

theorem jobRecord_length (d : Bytes) (e : JobEnd) (h : e.grids = [] ∨ e.grids.length = 3) : (jobRecord d e).length = 64 := by
  obtain h | h := h
  · simp [jobRecord, h]
  · obtain ⟨a, b, c, hl⟩ := List.length_eq_three.mp h
    simp [jobRecord, hl]

end

/-- Settles O32: each program on inputs it can read, and the two ways a per-element program does not run. -/
theorem engineEffects : Obligations.EngineEffects := by
  refine ⟨?zero, ?digest, ?parity, ?gather, ?elems, fun d e h => jobRecord_length d e h⟩
  case zero =>
    intro s j l o i hw ho hp
    rw [runZero_of_sound ho hp]
    exact ⟨rfl, rfl, memGet_memZero _ _ _ _ _ hw⟩
  case digest =>
    intro s j l o hw ho hread hp dg
    have heff : runDigest j l s = { s := (writeMem s o.base dg).1, written := jCount j.desc } := runDigest_of_read ho hread hp
    rw [heff]
    exact ⟨rfl, rfl, rfl, fun i hi => memGet_writeMem_outside _ _ _ _ hw hi⟩
  case parity =>
    intro s j l par o ho hr hread hp
    exact runParity_of_read ho hr hread hp
  case gather =>
    intro s x src idx dst len rows i flag w hw hk hput
    exact gatherFrom_of_out hw hk hput
  case elems =>
    intro s h j l q b
    exact ⟨elemRun_of_ill, elemRun_of_shut⟩

end Sys2Proof.Machine
end

section
/-! PROOFS. ENGINE_JOB, MIGRATE, LOAD_SHARD, SHARD_TIMEOUT and SHARD_RECHECK (R203, R204, R222 to R226, R230, R364, R371). -/
namespace Sys2Proof.Machine

/-! ### ENGINE_JOB -/

section
variable {s : State} {q k h : Nat} {b d : Bytes}

theorem beginCmd_fenced (d : Nat) : fenced (beginCmd q b s) d = fenced s d :=
  fenced_congr s _ (by simp) (by simp) d

theorem engineJobAct_of_read (hd : readFor s (s.queue q).ctx (leAt b 32 8) 160 = .ok d) (hfree : fenced s (leAt b 24 1) = false)
    (hwork : workConflict s (s.queue q).ctx (jProg d = 0x60 || jProg d = 0x50 || jProg d = 0x21) = false) :
    engineJobAct q k b s = (acceptCmd q k s).modHolder (leAt b 24 1) (fun w => { w with
      queue := w.queue ++ [{ queue := q, cmd := k, ctx := (s.queue q).ctx, desc := d, recAt := leAt b 40 8,
                             bound := if cBound b then some (cEpoch b, cStep b) else none, lc := (s.ctx (s.queue q).ctx).lc }] }) := by
  simp only [engineJobAct, hd]
  rw [firstOf_of_none (by simp [hfree, hwork]), if_neg (by simp)]

theorem engineJobAct_of_fenced (hd : readFor s (s.queue q).ctx (leAt b 32 8) 160 = .ok d) (hfen : fenced s (leAt b 24 1) = true)
    (hwork : workConflict s (s.queue q).ctx (jProg d = 0x60 || jProg d = 0x50 || jProg d = 0x21) = false) :
    engineJobAct q k b s = finishCmd q k stOff 0 0 s := by
  simp only [engineJobAct, hd, hfen, hwork]
  rfl

theorem engineJobAct_of_unread {e : Nat} (hd : readFor s (s.queue q).ctx (leAt b 32 8) 160 = .error e) (hfree : fenced s (leAt b 24 1) = false)
    (hwork : workConflict s (s.queue q).ctx false = false) :
    engineJobAct q k b s = finishCmd q k e 0 0 (noteRead e (leAt b 32 8) 160 s) := by
  have hst : firstOf [(false, stOff), (true, e), (false, stConflict)] = e := by simp [firstOf]
  have hno : (decide (0 = 0x60) || decide (0 = 0x50) || decide (0 = 0x21)) = false := rfl
  simp only [engineJobAct, hd, hfree, hno, hwork, hst, ite_self]

end

/-! ### MIGRATE and LOAD_SHARD -/

section
variable {s : State} {h : Nat} {j : EngJob} {l : List Stream} {b : Bytes}

theorem sendRow_of_checked {prog : Nat} {run : EngJob → List Stream → Bytes → State → State} {q : QCtl} (hf : EngineFree s h)
    (hj : nextJob (s.holder h) = some j) (hm : jProg j.desc = prog) (hc : jobChecks s h j = .ok (l, q, b)) :
    sendRow prog run h s = run j l b (startJob h j s) := by
  obtain ⟨hr, hn, hfen⟩ := hf
  simp [sendRow, hr, hn, hfen, hj, hm, hc]

theorem runMigrate_of_read {a o : Stream} (ha : streamAt l 0 = some a) (ho : streamAt l 7 = some o)
    (hread : readTo s a.base (jCount j.desc) = jCount j.desc) :
    runMigrate h j l b s = sendWrite s (some j.ctx) 2 (Config.migrateDev j.desc b) o.base (peek s a.base (jCount j.desc)) (.migrate h)
      (s.queue j.queue).budget := by
  simp [runMigrate, ha, ho, hread]

/-- The load that a manifest describes (R224). -/
def loadOf (j : EngJob) (b cs : Bytes) (o : Stream) (s : State) : ShardLoad :=
  { job := j, base := o.base, len := leAt b 64 8, digest := slice b 0 64,
    crcs := (List.range (chunkCount (leAt b 64 8))).map (fun i => leAt cs (8 * i) 8), srcs := manSrcs b,
    timeout := if leAt b 72 4 = 0 then s.plate.shardTo else leAt b 72 4 }

theorem runLoad_of_legal {go : Nat → State → State} {o : Stream} {cs : Bytes} (ho : streamAt l 7 = some o) (hman : manOk b (jCount j.desc) = true)
    (hmay : loadMay s h j b o = true) (hcs : readMem s (jParam j.desc + 128) (8 * chunkCount (leAt b 64 8)) = some cs) :
    runLoad go h j l b s = go h (s.modHolder h (fun k => { k with load := some (loadOf j b cs o s) })) := by
  simp only [runLoad, ho, hman, hmay, hcs]
  rfl

end

@[simp] theorem startJob_pwr_kept (h : Nat) (j : EngJob) (s : State) : (startJob h j s).pwr = s.pwr := by simp [startJob]

theorem startJob_frame (h : Nat) (j : EngJob) (s : State) :
    (startJob h j s).mem = s.mem ∧ (startJob h j s).poison = s.poison ∧ (startJob h j s).plate = s.plate := by
  simp [startJob, progressCmd]

/-- Settles O33: the descriptor by what can be read of it, and the rows whose work begins with a message. -/
theorem jobsHandedOut : Obligations.JobsHandedOut := by
  refine ⟨?handed, ?refused, ?migrate, ?load, ?start, ?timeout⟩
  case handed =>
    intro s q h x b d hst hop hh _ hx hd hfree hwork
    subst hh hx
    refine exec_of_starts _ engineJobAct s q b hst (by simp [hop]) _ ?_ (by simp)
    rw [engineJobAct_of_read (d := d) (by simpa using hd) (by rw [beginCmd_fenced]; exact hfree) (by rw [beginCmd_queue_ctx]; exact hwork),
      beginCmd_queue_ctx]
  case refused =>
    intro s q h b hst hop hh _
    subst hh
    refine ⟨fun d hd hfen hwork => ?_, fun e hd hfree hwork => ?_⟩
    · refine exec_of_starts _ engineJobAct s q b hst (by simp [hop]) _ ?_ (by simp)
      exact engineJobAct_of_fenced (d := d) (by simpa using hd) (by rw [beginCmd_fenced]; exact hfen) (by rw [beginCmd_queue_ctx]; exact hwork)
    · refine exec_of_starts _ engineJobAct s q b hst (by simp [hop]) _ ?_ (by simp)
      exact engineJobAct_of_unread (by simpa using hd) (by rw [beginCmd_fenced]; exact hfree) (by rw [beginCmd_queue_ctx]; exact hwork)
  case migrate =>
    intro s h j l q b a o hs hf hj hprog hc ha ho hread t
    obtain ⟨hmem, hpoison, -⟩ := startJob_frame h j s
    have hread' : readTo (startJob h j s) a.base (jCount j.desc) = jCount j.desc := by
      refine Eq.trans ?_ hread
      unfold readTo
      rw [hpoison]
    have hpeek : peek (startJob h j s) a.base (jCount j.desc) = peek s a.base (jCount j.desc) := by
      unfold peek
      rw [hmem]
    have heff : sendRow 0x51 (runMigrate h) h s = t := by
      rw [sendRow_of_checked hf hj hprog hc, runMigrate_of_read ha ho hread', hpeek]
    refine ⟨fun he => net_of _ s t hs heff he (by simp [t]), fun hrun st => ?_⟩
    simp [migrateEnded, hrun, hprog]
  case load =>
    intro s h j l q b cs o hs hf hj hprog hc ho hman hmay hcs t he
    obtain ⟨-, -, hplate⟩ := startJob_frame h j s
    have heff : sendRow 0x60 (runLoad startLoad h) h s = t := by
      rw [sendRow_of_checked hf hj hprog hc, runLoad_of_legal ho hman hmay hcs, loadOf, hplate]
    exact net_of _ s t hs heff he (by simp [t])
  case start =>
    intro s h v hv
    simp only [startLoad, hv]
  case timeout =>
    intro s h v hs hv t he
    exact net_of _ s t hs (by simp only [shardTimeout, hv, t]) he (by simp [t])

/-! ### SHARD_RECHECK -/

section
variable {s : State} {h i : Nat} {c : Chunk} {go : Nat → Nat → State → State}

theorem shardRecheck_of_sound (hc : (s.holder h).chunks[i]? = some c) (hmay : engMay s c.ctx c.addr c.len false false false (some h) = true)
    (hnew : (s.holder h).restores.any (fun r => r.chunk.addr = c.addr) = false) (hcrc : crcIs s c.addr c.len c.crc = true) :
    shardRecheck go h i s = s := by
  obtain ⟨hread, hval⟩ : unreadable s c.addr c.len = false ∧ crc64 (peek s c.addr c.len) = c.crc := by simpa [crcIs] using hcrc
  simp only [shardRecheck, hc, hmay, hnew, readMem, hread]
  simp [hval]

theorem shardRecheck_of_wrong (hc : (s.holder h).chunks[i]? = some c) (hmay : engMay s c.ctx c.addr c.len false false false (some h) = true)
    (hnew : (s.holder h).restores.any (fun r => r.chunk.addr = c.addr) = false) (hread : unreadable s c.addr c.len = false)
    (hcrc : crc64 (peek s c.addr c.len) ≠ c.crc) : shardRecheck go h i s = shardRecheck.bad go h c s := by
  simp only [shardRecheck, hc, hmay, hnew, readMem, hread]
  simp [hcrc]

theorem shardRecheck_of_gone (hc : (s.holder h).chunks[i]? = some c) (hmay : engMay s c.ctx c.addr c.len false false false (some h) = false) :
    shardRecheck go h i s = s.modHolder h (fun k => { k with chunks := k.chunks.erase c }) := by
  simp [shardRecheck, hc, hmay]

end

/-- Settles O34: the chunk by its CRC, and by whether its memory is still the context's. -/
theorem chunksRechecked : Obligations.ChunksRechecked := by
  refine ⟨?sound, ?wrong, ?gone⟩
  case sound =>
    intro s h i c hs he hc hmay hnew hcrc
    exact net_unchanged hs he (shardRecheck_of_sound hc hmay hnew hcrc)
  case wrong =>
    intro s h i c hs hc hmay hnew hread hcrc t he
    exact net_of _ s t hs (shardRecheck_of_wrong hc hmay hnew hread hcrc) he (by simp [t, markRestoring])
  case gone =>
    intro s h i c hs he hc hmay
    exact net_of _ s _ hs (shardRecheck_of_gone hc hmay) he rfl

end Sys2Proof.Machine
end

section
/-! PROOFS. Memory requests and the patrol (R190, R197, R199 to R202, R413, R547). -/
namespace Sys2Proof.Machine

/-! ### The check of a pair -/

section
variable {s : State} {p : Nat} {x : Option Nat} {tag : TagRead}

/-- A pair that is not poisoned and is read with no bit flipped agrees (R197). -/
theorem tagRow_of_clean (hf : tag.first = []) (hp : s.poison.contains p = false) : tagRow s p tag = .agrees := by
  simp only [tagRow, hf, hp]
  rfl

theorem tagCheck_of_clean (hf : tag.first = []) (hp : s.poison.contains p = false) : tagCheck p x tag s = s := by
  unfold tagCheck
  rw [tagRow_of_clean hf hp]
  split <;> rfl

end

/-! ### Requests -/

section
variable {s : State} {r : Requester} {a n : Nat} {data : Bytes} {tag : TagRead} {write : Bool}

theorem holderAccess_of_refused (h : (requestStatus s r write a (if write then data.length else n)).1 = stPerm) :
    holderAccess r write a n data tag s = s.emit (.data r a stPerm []) := by
  unfold holderAccess
  dsimp only
  rw [if_pos (by rw [h]; decide), h]

/-- The data of a request whose checks found nothing: its bytes are written, or read (R199 to R201). -/
def requestData (r : Requester) (write : Bool) (a n : Nat) (data : Bytes) (s : State) : State :=
  if write then
    (if (writeMem s a data).2 then (writeMem s a data).1 else notePoison (writeMem s a data).1 a n).emit
      (.data r a (if (writeMem s a data).2 then stOk else stMem) [])
  else match readMem s a n with
    | some b => s.emit (.data r a stOk b)
    | none => (notePoison s a n).emit (.data r a stMem [])

/-- A request that is granted without a record, with no pair to check or no bit flipped, has its data. -/
theorem holderAccess_of_granted (h : requestStatus s r write a (if write then data.length else n) = (stOk, none))
    (htag : tag.first = [] ∨ checkedPairs s write a (if write then data.length else n) = []) :
    holderAccess r write a n data tag s = requestData r write a (if write then data.length else n) data s := by
  have hclean : ∀ x q, (checkedPairs s write a (if write then data.length else n)).find? (fun q => !s.poison.contains q) = some q →
      tagCheck q x tag s = s := by
    intro x q hq
    obtain hf | hnil := htag
    · exact tagCheck_of_clean hf (by simpa using List.find?_some hq)
    · rw [hnil] at hq; exact absurd hq (by simp)
  unfold holderAccess
  simp only [h]
  rw [if_neg (by decide)]
  cases hq : (checkedPairs s write a (if write then data.length else n)).find? (fun q => !s.poison.contains q) with
  | none => rfl
  | some q =>
    simp only [hclean _ q hq]
    rfl

theorem requestStatus_of_peer (dev : Nat) (write : Bool) : (requestStatus s (.peer dev) write a n).1 = stPerm := by
  cases ha : areaOf s a <;> simp [requestStatus, ha]

theorem requestStatus_of_tables {h : Nat} (ha : areaOf s a = .firmware h) (hr : r ≠ .firmware)
    (hno : r ≠ .operator ∨ write = true ∨ operatorTables s a n = false) : (requestStatus s r write a n).1 = stPerm := by
  have hshut : (decide (r = .firmware) || (decide (r = .operator) && !write && operatorTables s a n)) = false := by
    obtain h | h | h := hno <;> simp [hr, h]
  simp only [requestStatus, ha, hshut, Bool.and_false, Bool.false_eq_true, if_false, ite_self]

theorem requestStatus_of_operator_tables {h : Nat} (ha : areaOf s a = .firmware h) (hb : areaOf s (a + n - 1) = .firmware h) (hn : 0 < n)
    (hf : fenced s h = false) (ht : operatorTables s a n = true) : requestStatus s .operator false a n = (stOk, none) := by
  have : n ≠ 0 := by omega
  simp [requestStatus, ha, hb, this, hf, ht]

/-- A write of sound pairs leaves everything but memory, poison and the windows' words. -/
theorem writeMem_frame {bs : Bytes} (h : partPoison s a bs.length = []) :
    { (writeMem s a bs).1 with mem := s.mem, poison := s.poison, cells := s.cells, sent := s.sent } = s ∧ (writeMem s a bs).1.sent = s.sent := by
  unfold writeMem
  split
  · exact ⟨rfl, rfl⟩
  · dsimp only
    rw [if_pos (by simp [h])]
    exact ⟨rfl, rfl⟩

end

/-- Settles O35: the request by its right, then by what its pairs hold. -/
theorem memoryRequests : Obligations.MemoryRequests := by
  refine ⟨?refused, ?read, ?write, ?poisoned, ?peer, ?tables, ?operator⟩
  case refused =>
    intro s r write a n data tag hs h
    exact serving_of _ s _ hs (holderAccess_of_refused h) rfl
  case read =>
    intro s r a n tag hs h hread htag
    refine serving_of _ s _ hs ((holderAccess_of_granted (write := false) h htag).trans ?_) rfl
    simp [requestData, readMem, hread]
  case write =>
    intro s r a data tag hs hw h hpart htag
    obtain ⟨hwhole, hmem⟩ := writeMem_whole s a data hpart
    obtain ⟨hframe, hsent⟩ := writeMem_frame hpart
    have hdata : requestData r true a data.length data s = (writeMem s a data).1.emit (.data r a stOk []) := by
      simp [requestData, hwhole]
    refine ⟨_, serving_of _ s _ hs ((holderAccess_of_granted (write := true) (n := 0) h htag).trans hdata) ?_, ?_,
      fun i hi => memGet_writeMem_outside _ _ _ _ hw hi, ?_, hframe⟩
    · simp
    · refine Eq.trans (congrArg (fun m => memRead memFill m a data.length) hmem) (memRead_memWrite _ _ _ _ hw)
    · exact congrArg (fun l => l ++ [OutMsg.data r a stOk []]) hsent
  case poisoned =>
    intro s r a n tag hs h hread htag
    refine serving_of _ s _ hs ((holderAccess_of_granted (write := false) h htag).trans ?_) (by simp)
    simp [requestData, readMem, hread]
  case peer =>
    intro s dev write a n
    exact requestStatus_of_peer dev write
  case tables =>
    intro s write a n h ha r hr hno
    exact requestStatus_of_tables ha hr hno
  case operator =>
    intro s a n h ha hb hn hf ht
    exact requestStatus_of_operator_tables ha hb hn hf ht

/-! ### The rows of R200 -/

/-- One number below n has the property, and no other. -/
theorem filter_range_length_one (n : Nat) (p : Nat → Bool) :
    ((List.range n).filter p).length = 1 ↔ ∃ i, i < n ∧ p i = true ∧ ∀ k, k < n → p k = true → k = i := by
  constructor
  · intro h
    obtain ⟨i, hi⟩ := List.length_eq_one_iff.mp h
    have hmem : ∀ k, k < n ∧ p k = true ↔ k = i := fun k => by
      rw [← List.mem_singleton (a := k) (b := i), ← hi, List.mem_filter, List.mem_range]
    exact ⟨i, ((hmem i).mpr rfl).1, ((hmem i).mpr rfl).2, fun k hk hp => (hmem k).mp ⟨hk, hp⟩⟩
  · rintro ⟨i, hi, hp, hone⟩
    rw [← List.toFinset_card_of_nodup (List.nodup_range.filter p), Finset.card_eq_one]
    refine ⟨i, Finset.ext fun k => ?_⟩
    rw [List.mem_toFinset, List.mem_filter, List.mem_range, Finset.mem_singleton]
    exact ⟨fun hk => hone k hk.1 hk.2, fun hk => by subst hk; exact ⟨hi, hp⟩⟩

theorem imageHolds_iff (s : State) (p mark : Nat) (b : Bytes) : imageHolds s p mark b = true ↔ leAt b 128 8 = pairTag s p (b.take 128) ^^^ mark :=
  decide_eq_true_iff

/-- The image carries its own tags. -/
theorem imageHolds_zero_iff (s : State) (p : Nat) (b : Bytes) : imageHolds s p 0 b = true ↔ leAt b 128 8 = pairTag s p (b.take 128) := by
  rw [imageHolds_iff, Nat.xor_zero]

section
variable {s : State} {p : Nat} {tag : TagRead}

theorem tagRow_of_flipped (h : tag.first ≠ []) : tagRow s p tag = tagSearch s p tag := by
  simp [tagRow, h]

theorem tagSearch_eq_agrees : tagSearch s p tag = .agrees ↔ imageHolds s p 0 (flipBits (pairImage s p) tag.first) = true := by
  unfold tagSearch
  dsimp only
  split_ifs <;> simp_all

theorem tagSearch_eq_transient : tagSearch s p tag = .transient ↔ ¬ imageHolds s p 0 (flipBits (pairImage s p) tag.first) = true ∧
    ¬ imageHolds s p poisonMark (flipBits (pairImage s p) tag.first) = true ∧ imageHolds s p 0 (flipBits (pairImage s p) tag.again) = true := by
  unfold tagSearch
  dsimp only
  split_ifs <;> simp_all

theorem tagSearch_eq_corrected : tagSearch s p tag = .corrected ↔ ¬ imageHolds s p 0 (flipBits (pairImage s p) tag.first) = true ∧
    ¬ imageHolds s p poisonMark (flipBits (pairImage s p) tag.first) = true ∧ ¬ imageHolds s p 0 (flipBits (pairImage s p) tag.again) = true ∧
    ((List.range 1088).filter (fun i => imageHolds s p 0 (flipBits (flipBits (pairImage s p) tag.again) [i]))).length = 1 := by
  unfold tagSearch
  dsimp only
  split_ifs <;> simp_all

end

/-! ### The patrol -/

section
variable {s : State} {h p : Nat} {tag : TagRead}

/-- What a patrolling holder does with its next pair (R202). -/
def patrolled (h : Nat) (tag : TagRead) (s : State) : State :=
  let p := patrolPair h (s.holder h).nextPair
  if s.poison.contains p then (notePoison s (128 * p) 128).modHolder h (fun w => { w with poisoned := bump w.poisoned 1 })
  else tagCheck p none tag s

theorem scrubPatrol_of_enabled (hen : (s.holder h).patrolEn = true) (hf : fenced s h = false) (hr : (s.holder h).resetting = false)
    (hh : (8 ≤ h ∧ h ≤ 15) ∨ h = 19) :
    scrubPatrol h tag s = if (s.holder h).nextPair + 1 < (patrolCounts h).1 + (patrolCounts h).2 then
        (patrolled h tag s).modHolder h (fun w => { w with nextPair := (s.holder h).nextPair + 1 })
      else
        let u := (patrolled h tag s).modHolder h (fun w => { w with nextPair := 0, passes := bump w.passes 1 })
        ffEvent 0x0132 1 h h none (le 2 (u.holder h).passes.toNat) u := by
  unfold scrubPatrol
  dsimp only
  rw [if_neg (by simp only [hen, hf, hr, decide_eq_true hh]; decide)]
  rfl

theorem mem_insertPoison {q : Nat} {l : List Nat} (h : q ≠ p) :
    q ∈ l.filter (fun q => decide (q < p)) ++ p :: l.filter (fun q => decide (p < q)) ↔ q ∈ l := by
  have : q < p ∨ p < q := Nat.lt_or_gt_of_ne h
  simp only [List.mem_append, List.mem_cons, List.mem_filter, decide_eq_true_eq, h, false_or]
  tauto

end

/-- Settles O36: the patrol's next pair, and the rows of R200 by what the tags say. -/
theorem scrubPatrol' : Obligations.ScrubPatrol := by
  refine ⟨?next, ?rows, ?tags, ?last⟩
  case next =>
    intro s h tag hs hen hf hr hh hlt
    have heff := (scrubPatrol_of_enabled (tag := tag) hen hf hr hh).trans (if_pos hlt)
    refine ⟨fun hp => ?_, fun hp => ?_⟩
    · rw [patrolled, if_neg (by rw [hp]; decide)] at heff
      exact serving_of _ s _ hs heff (by simp)
    · rw [patrolled, if_pos hp] at heff
      exact serving_of _ s _ hs heff (by simp)
  case rows =>
    intro s h p x tag hh
    cases hrow : tagRow s p tag with
    | agrees => simp only [tagCheck, hh, hrow]
    | poisoned => simp only [tagCheck, hh, hrow]
    | transient => simp only [tagCheck, hh, hrow]
    | corrected => simp [tagCheck, hh, hrow]
    | lost =>
      simp only [tagCheck, hh, hrow, tableFault_poison, tableFault_mem, ffEvent_poison, logError_poison, ffEvent_mem, logError_mem]
      exact ⟨by simp, rfl, fun q hq => mem_insertPoison hq⟩
  case tags =>
    intro s p tag hne word first again
    rw [tagRow_of_flipped hne, tagSearch_eq_agrees, tagSearch_eq_transient, tagSearch_eq_corrected, filter_range_length_one]
    have hzero := imageHolds_zero_iff s p
    have hmark := imageHolds_iff s p poisonMark
    simp only [hzero, hmark, pairImage, word, first, again, ne_eq, and_self]
  case last =>
    intro s h hs hen hf hr hh hlast hp
    have heff := (scrubPatrol_of_enabled (tag := {}) hen hf hr hh).trans (if_neg (by omega))
    rw [patrolled, if_neg (by rw [hp]; decide), tagCheck_of_clean rfl hp] at heff
    refine ⟨_, serving_of _ s _ hs heff (by simp), ?_, fun g hg => ?_, ?_⟩
    · simp
    · simp [State.holder_modHolder_ne, hg]
    · simp

end Sys2Proof.Machine
end

section
/-! PROOFS. COLLECTIVE and COLLECTIVE DATA (R302 to R307, R364, R546). -/
namespace Sys2Proof.Machine

/-! ### COLLECTIVE -/

section
variable {s : State} {q n : Nat} {b d : Bytes}

theorem collectiveAct_of_legal {f : List (Nat × Nat) × List (Nat × Nat)} (hd : readFor s (s.queue q).ctx (leAt b 32 8) 128 = .ok d)
    (hform : collForm s (s.queue q).ctx d = some f) (hfree : fenced s (collDie s (leAt b 24 1)) = false) (hop : kOp d ≠ 9)
    (hwork : workConflict s (s.queue q).ctx false = false) (hread : mayAll s (s.queue q).ctx false true f.1 = true)
    (hwrite : mayAll s (s.queue q).ctx true false f.2 = true) (hgood : anyBad s f.1 = false) :
    collectiveAct q n b s =
      beginColl (s.queue q).ctx (some (q, n)) d (leAt b 32 8) (collDie s (leAt b 24 1)) (acceptCmd q n s) := by
  simp only [collectiveAct, hd]
  rw [firstOf_of_none (by simp [hform, hfree, hop, hwork, hread, hwrite, hgood]), if_neg (by simp)]

theorem collectiveAct_of_illegal (hd : readFor s (s.queue q).ctx (leAt b 32 8) 128 = .ok d) (hform : collForm s (s.queue q).ctx d = none)
    (hfree : fenced s (collDie s (leAt b 24 1)) = false) (hop : kOp d ≠ 9) (hwork : workConflict s (s.queue q).ctx false = false) :
    collectiveAct q n b s = finishCmd q n stBad 0 0
      (writeEnd (s.queue q).ctx (leAt b 32 8) (collDie s (leAt b 24 1)) stBad 0 0 s).1 := by
  simp only [collectiveAct, hd]
  rw [show firstOf _ = stBad by simp [firstOf, hform, hfree, hop, hwork, mayAll, anyBad, stBad]]
  simp [hop, stBad, stOk]

end

theorem writeMem_ended (s : State) (a : Nat) (bs : Bytes) : (writeMem s a bs).1.ended = s.ended := by
  unfold writeMem
  split
  · rfl
  · dsimp only
    split
    · rfl
    · rw [foldl_proj State.ended]
      intro u _
      rfl

theorem writeFor_ended (s : State) (x a : Nat) (bs : Bytes) : (writeFor s x a bs).1.ended = s.ended := by
  unfold writeFor
  split
  · rfl
  · exact writeMem_ended s a bs

theorem writeEnd_ended (x at_ die st received dropped : Nat) (s : State) : (writeEnd x at_ die st received dropped s).1.ended = s.ended := by
  simp [writeEnd, writeFor_ended]

/-! ### Instance numbers and the nibble of the wire -/

/-- Dropping the entries of one key hides no entry of another. -/
theorem find_of_filter_key {α κ : Type} [DecidableEq κ] (key : α → κ) (l : List α) {k j : κ} (hne : j ≠ k) :
    (l.filter (fun e => decide (key e ≠ k))).find? (fun e => decide (key e = j)) = l.find? (fun e => decide (key e = j)) := by
  induction l with
  | nil => rfl
  | cons e l ih =>
    by_cases hj : key e = j
    · rw [List.filter_cons_of_pos (by simpa [hj] using hne), List.find?_cons_of_pos (by simpa using hj),
        List.find?_cons_of_pos (by simpa using hj)]
    · rw [List.find?_cons_of_neg (by simpa using hj), ← ih, List.filter_cons]
      split
      · rw [List.find?_cons_of_neg (by simpa using hj)]
      · rfl

/-- The entry of an instance number for a group and an op. -/
def instEntry (s : State) (x g op : Nat) : Option (Nat × Nat × Nat) := (s.ctx x).instNo.find? (fun e => decide ((e.1, e.2.1) = (g, op)))

theorem nextInst_eq (s : State) (x g op : Nat) : nextInst s x g op = ((instEntry s x g op).map (·.2.2)).getD 0 := by
  simp only [nextInst, instEntry, Prod.mk.injEq, Bool.decide_and]
  split <;> rename_i h <;> simp only [h] <;> rfl

theorem instEntry_bumpInst_same (s : State) (x g op : Nat) : instEntry (bumpInst x g op s) x g op = some (g, op, nextInst s x g op + 1) := by
  simp only [instEntry, bumpInst, State.ctx_modCtx_same]
  rw [List.find?_cons_of_pos (by simp)]

theorem instEntry_bumpInst_ne (s : State) {x g op y h o : Nat} (hne : (y, h, o) ≠ (x, g, op)) :
    instEntry (bumpInst x g op s) y h o = instEntry s y h o := by
  unfold instEntry bumpInst
  by_cases hy : y = x
  · subst hy
    have hkey : (h, o) ≠ (g, op) := fun he => hne (by rw [he])
    rw [State.ctx_modCtx_same]
    dsimp only
    rw [List.find?_cons_of_neg (by simpa using hkey.symm)]
    refine Eq.trans ?_ (find_of_filter_key (fun e : Nat × Nat × Nat => (e.1, e.2.1)) _ hkey)
    simp only [Prod.mk.injEq, ne_eq, decide_not, Bool.decide_and]
  · rw [State.ctx_modCtx_ne _ _ _ _ hy]

theorem bit_nib (p q r t : Bool) :
    bit (8 * b2n p + 4 * b2n q + 2 * b2n r + b2n t) 3 = p ∧ bit (8 * b2n p + 4 * b2n q + 2 * b2n r + b2n t) 2 = q ∧
    bit (8 * b2n p + 4 * b2n q + 2 * b2n r + b2n t) 1 = r ∧ bit (8 * b2n p + 4 * b2n q + 2 * b2n r + b2n t) 0 = t := by
  cases p <;> cases q <;> cases r <;> cases t <;> decide

theorem nibJoin_comm (a b : Nat) : nibJoin a b = nibJoin b a := by
  simp only [nibJoin, Bool.or_comm (bit a _), Bool.and_comm (bit a _)]

theorem nibJoin_assoc (a b c : Nat) : nibJoin (nibJoin a b) c = nibJoin a (nibJoin b c) := by
  simp only [nibJoin, bit_nib, Bool.or_assoc, Bool.and_assoc]

/-! ### COLLECTIVE DATA -/

section
variable {s : State} {p : FjPkt}

theorem collectiveData_of_misplaced (hc : p.hdr.cls = 1) (ht : p.hdr.ty = 1) (hr : pktRefusal (takeRx s p) p = none)
    (h : collGroup (takeRx s p) p.hdr.ctx (cdataOf p).group = none ∨ cdataOk (takeRx s p) p.hdr.ctx (cdataOf p) = false) :
    collectiveData p s = sendNack (takeRx s p) p 6 := by
  simp only [collectiveData, hr]
  rw [if_neg (by simp [hc, ht]), if_pos (by rcases h with h | h <;> simp [h])]

theorem collectiveData_of_part (hc : p.hdr.cls = 1) (ht : p.hdr.ty = 1) (hr : pktRefusal (takeRx s p) p = none)
    (hg : collGroup (takeRx s p) p.hdr.ctx (cdataOf p).group ≠ none) (hok : cdataOk (takeRx s p) p.hdr.ctx (cdataOf p) = true)
    (hop : ((cdataOf p).op ≠ 1 ∧ (cdataOf p).op ≠ 2 ∧ (cdataOf p).op ≠ 6) ∨ (cdataOf p).fails = true)
    (hnow : notYet (takeRx s p) p.hdr.ctx (cdataOf p) = false) :
    collectiveData p s = takePart p.hdr.ctx (cdataOf p) (takeRx s p) := by
  simp only [collectiveData, hr]
  rw [if_neg (by simp [hc, ht]), if_neg (by simp [hg, hok])]
  rcases hop with ⟨h1, h2, h6⟩ | hf
  · simp [h1, h2, h6, hnow]
  · simp [hf, hnow]

theorem collectiveData_of_reduced (hc : p.hdr.cls = 1) (ht : p.hdr.ty = 1) (hr : pktRefusal (takeRx s p) p = none)
    (hg : collGroup (takeRx s p) p.hdr.ctx (cdataOf p).group ≠ none) (hok : cdataOk (takeRx s p) p.hdr.ctx (cdataOf p) = true)
    (hop : (cdataOf p).op = 1 ∨ (cdataOf p).op = 2 ∨ (cdataOf p).op = 6) (hf : (cdataOf p).fails = false)
    (hsame : ∀ k, findColl (takeRx s p) p.hdr.ctx (cdataOf p).op (cdataOf p).group (cdataOf p).inst = some k → (cdataOf p).op = 6 →
      (cdataOf p).rows = kRows k.desc ∧ (cdataOf p).cols = kCols k.desc)
    (hhere : (List.range (cdataOf p).n).all
      (fun i => reducesHere (takeRx s p) p.hdr.ctx (cdataOf p).op (cdataOf p).group ((cdataOf p).first + i)) = true)
    (hsome : (findColl (takeRx s p) p.hdr.ctx (cdataOf p).op (cdataOf p).group (cdataOf p).inst).isSome = true)
    (hroom : redRoom (takeRx s p) p.hdr.ctx (cdataOf p) = true) :
    collectiveData p s = offerAll (redTake p.hdr.ctx (cdataOf p) (takeRx s p)) := by
  obtain ⟨k, hk⟩ := Option.isSome_iff_exists.mp hsome
  have hred : (decide ((cdataOf p).op = 1) || decide ((cdataOf p).op = 2) || decide ((cdataOf p).op = 6)) = true := by simpa [or_assoc] using hop
  simp only [collectiveData, hr, hk, hred, hhere, hf, hroom]
  rw [if_neg (by simp [hc, ht]), if_neg (by simp [hg, hok]), if_neg (by simp), if_pos (by simp), if_neg (by simp), if_neg, if_pos trivial]
  by_cases h6 : (cdataOf p).op = 6
  · obtain ⟨h1, h2⟩ := hsame k hk h6
    simp [h1, h2]
  · simp [h6]

end

/-- Settles O37: the descriptor by its form, the message by its op. -/
theorem collectives : Obligations.Collectives := by
  refine ⟨?starts, ?illegal, ?instances, ?data, fun a b c => ⟨nibJoin_comm a b, nibJoin_assoc a b c⟩⟩
  case starts =>
    intro s q x b d f hst hop hx u hd hform hfree hkop hwork hread hwrite hgood t
    subst hx
    refine net_deliver (startRow (fun b => cOp b = 0x22) collectiveAct q) s t hst.1 ?_ (by simp [t, u])
    rw [startRow_of_starts _ collectiveAct s q b hst (by simp [hop])]
    rw [← beginCmd_queue_ctx s q b q] at hd hform hwork hread hwrite
    rw [collectiveAct_of_legal hd hform hfree hkop hwork hread hwrite hgood, beginCmd_queue_ctx]
  case illegal =>
    intro s q x b d hst hop hx he u hd hform hfree hkop hwork
    subst hx
    rw [← beginCmd_queue_ctx s q b q] at hd hform hwork
    refine net_of_starts _ collectiveAct s q b hst (by simp [hop]) _ ?_ (by simp [writeEnd_ended, u, he]) (by simp [u])
    rw [collectiveAct_of_illegal hd hform hfree hkop hwork, beginCmd_queue_ctx]
  case instances =>
    intro s x g op
    refine ⟨?_, fun y h o hne => ?_⟩
    · rw [nextInst_eq, instEntry_bumpInst_same]
      rfl
    · rw [nextInst_eq, nextInst_eq, instEntry_bumpInst_ne s hne]
  case data =>
    intro s p hs hc ht hr c u
    refine ⟨fun h he => ?_, fun hg hok => ⟨fun hop hnow => ?_, fun hop hf hsame hhere hsome hroom => ?_⟩⟩
    · exact net_of _ s _ hs (collectiveData_of_misplaced hc ht hr h) (by simp [u, he]) (by simp [u])
    · exact net_deliver _ s _ hs (collectiveData_of_part hc ht hr hg hok hop hnow) (by simp [u])
    · exact net_deliver _ s _ hs (collectiveData_of_reduced hc ht hr hg hok hop hf hsame hhere hsome hroom) (by simp [u])

end Sys2Proof.Machine
end

section
/-! PROOFS. Doorbells and the queue registers (R312, R361, R370, R385, R540). -/
namespace Sys2Proof.Machine

section
variable {s : State} {q v : Nat}

theorem ringDoorbell_of_accepted (hd : (s.queue q).defined = true) (he : (s.queue q).enabled = true) (ha : dbAccept (s.queue q) v = true)
    (hr : ringOk s q = true) : ringDoorbell q v s = s.modQueue q (fun w => { w with p := BitVec.ofNat 32 v }) := by
  simp [ringDoorbell, hd, he, ha, hr]

theorem ringDoorbell_of_refused (ha : dbAccept (s.queue q) v = false) : (ringDoorbell q v s).queues = s.queues := by
  unfold ringDoorbell
  dsimp only
  split
  · rfl
  · rw [if_neg (by simp [ha]), ffEvent_queues]

theorem ringDoorbell_of_disabled (he : (s.queue q).enabled = false) : ringDoorbell q v s = s := by simp [ringDoorbell, he]

end

theorem sub_toNat (v p : Word) : (v - p).toNat = (v.toNat + 2 ^ 32 - p.toNat) % 2 ^ 32 := by
  have hp := p.isLt
  rw [BitVec.toNat_sub]
  congr 1
  omega

theorem dbAccept_iff (k : Queue) (v : Word) : dbAccept k v.toNat = true ↔ 1 ≤ (v - k.p).toNat ∧ (v - k.p).toNat ≤ k.size := by
  rw [sub_toNat]
  simp [dbAccept]

theorem writeCcons_eq (s : State) (q : Nat) (v : Word) : writeCcons q v.toNat s =
    if (v - (s.queue q).c).toNat ≤ ((s.queue q).q - (s.queue q).c).toNat then s.modQueue q (fun w => { w with c := v }) else s := by
  rw [sub_toNat, sub_toNat]
  simp only [writeCcons, decide_eq_true_eq, BitVec.ofNat_toNat, BitVec.setWidth_eq]

/-! ### Doorbells over Fjorum -/

section
variable {s : State} {p : FjPkt} {session : Option Nat}

theorem doorbell_of_bound (hc : isCtl p 2 = true) (hme : leAt p.payload 2 2 = s.plate.devIndex) (hlen : p.payload.length = 16)
    (hpad : leAt (p.payload.drop 8) 2 2 = 0) (hr : pktRefusal (takeRx s p) p = none) (hf : leAt (p.payload.drop 8) 0 2 < 16384)
    (hd : ((takeRx s p).queue (leAt (p.payload.drop 8) 0 2)).defined = true)
    (hx : ((takeRx s p).queue (leAt (p.payload.drop 8) 0 2)).ctx = p.hdr.ctx)
    (hb : boundOk (takeRx s p) p.hdr.ctx (viaHost (takeRx s p) p) session = true) :
    doorbell p session s = ringDoorbell (leAt (p.payload.drop 8) 0 2) (leAt (p.payload.drop 8) 4 4) (takeRx s p) := by
  have hdiv : leAt (p.payload.drop 8) 0 2 / 16384 = 0 := by omega
  have hmod : leAt (p.payload.drop 8) 0 2 % 16384 = leAt (p.payload.drop 8) 0 2 := by omega
  simp only [doorbell, hr, hdiv, hmod]
  rw [if_neg (by simp [hc, forMe, hme]), if_neg (by simp [hlen, hpad]), if_neg (by rw [takeRx_queue] at hd hx; simp [hd, hx, hb])]

theorem semaphoreDoorbell_of_legal (hc : isCtl p 2 = true) (hme : leAt p.payload 2 2 = s.plate.devIndex) (hlen : p.payload.length = 16)
    (hpad : leAt (p.payload.drop 8) 2 2 = 0) (hr : pktRefusal (takeRx s p) p = none) (hf : leAt (p.payload.drop 8) 0 2 / 16384 = 2)
    (hn : leAt (p.payload.drop 8) 0 2 % 16384 < 4095) :
    semaphoreDoorbell p s = semAdd p.hdr.ctx (leAt (p.payload.drop 8) 0 2 % 16384) (leAt (p.payload.drop 8) 4 4) (takeRx s p) := by
  simp only [semaphoreDoorbell, hr]
  rw [if_neg (by simp [hc, forMe, hme, hf]), if_neg (by simp [hlen, hpad, hn])]

end

section
variable {s : State} {r : Requester} {q : Nat} (v : Word)

theorem hubQDb_of_right (hq : q < 16384) (h : queueRight s r q = true) :
    hubQDb r q v s = csrAnswer r (queueRegAt q 0) stOk 0 (ringDoorbell q v.toNat s) :=
  if_pos (by simp [hq, h])

theorem hubQCcons_of_right (hq : q < 16384) (h : queueRight s r q = true) :
    hubQCcons r q v s = csrAnswer r (queueRegAt q 1) stOk 0 (writeCcons q v.toNat s) :=
  if_pos (by simp [hq, h])

theorem hubQDb_of_denied (h : queueRight s r q = false) : hubQDb r q v s = csrAnswer r (queueRegAt q 0) stPerm 0 s :=
  if_neg (by simp [h])

theorem hubQCcons_of_denied (h : queueRight s r q = false) : hubQCcons r q v s = csrAnswer r (queueRegAt q 1) stPerm 0 s :=
  if_neg (by simp [h])

end

/-- Settles O38: the doorbell by its value, the message by its form, the register by the requester's right. -/
theorem doorbells : Obligations.Doorbells := by
  refine ⟨?ring, fun s q v he => ringDoorbell_of_disabled he, dbAccept_iff, ?packet, ?register, writeCcons_eq⟩
  case ring =>
    intro s q v hd he
    exact ⟨ringDoorbell_of_accepted hd he, ringDoorbell_of_refused⟩
  case packet =>
    intro s p session hs hc hme hlen hpad f v u hr
    refine ⟨fun hf hd hx hb => ?_, fun hf hn => ?_⟩
    · exact serving_of _ s _ hs (doorbell_of_bound hc hme hlen hpad hr hf hd hx hb) (by simp [u])
    · exact serving_of _ s _ hs (semaphoreDoorbell_of_legal hc hme hlen hpad hr hf hn) (by simp [u])
  case register =>
    intro s r q v hs hq
    refine ⟨fun h => ⟨?_, ?_⟩, fun h => ⟨?_, ?_⟩⟩
    · exact serving_of (hubQDb r q v) s _ hs (hubQDb_of_right v hq h) ((csrAnswer_pwr _ _ _ _ _).trans (ringDoorbell_pwr q _ s))
    · exact serving_of (hubQCcons r q v) s _ hs (hubQCcons_of_right v hq h) ((csrAnswer_pwr _ _ _ _ _).trans (writeCcons_pwr q _ s))
    · exact serving_of (hubQDb r q v) s _ hs (hubQDb_of_denied v h) (csrAnswer_pwr _ _ _ _ _)
    · exact serving_of (hubQCcons r q v) s _ hs (hubQCcons_of_denied v h) (csrAnswer_pwr _ _ _ _ _)

end Sys2Proof.Machine
end

section
/-! PROOFS. The mailboxes of the fleet bridge (R314 to R317, R372 to R374, R387). -/
namespace Sys2Proof.Machine

section
variable {s : State} {ch : Nat}

/-! ### MBOX_WRITE and MBOX_READ -/

theorem mboxWrite_fleet_of_refused {msg : Bytes} {session : Option Nat} (hl : (ch = 63 && lendingChannel s) = false)
    (h : isSender s ch .fleet = false) : mboxWrite .fleet ch msg session s = answer 372 stPerm [] s := by
  have hl' : ¬ (ch = 63 && lendingChannel s) = true := by simp [hl]
  simp only [mboxWrite, mboxDev, if_neg hl', h]
  rw [if_pos (by simp)]
  rfl

theorem mboxWrite_fleet_of_sent {msg : Bytes} {session : Option Nat} (hch : ch < 64) (hl : (ch = 63 && lendingChannel s) = false)
    (h : isSender s ch .fleet = true) (hlow : 8 ≤ msg.length) (hhigh : msg.length ≤ 256) (hlen : leAt msg 2 2 ≤ 248) (hon : mboxOff s ch = false) :
    mboxWrite .fleet ch msg session s = if (s.mbox ch).inFull = true then s else postInbound ch .fleet msg session s := by
  have hl' : ¬ (ch = 63 && lendingChannel s) = true := by simp [hl]
  simp only [mboxWrite, mboxDev, if_neg hl', h, hon]
  rw [if_neg (by simp [hch]), if_neg (by simp [hlow, hhigh, hlen]), if_neg (by simp)] <;> rfl

theorem mboxRead_operator_of_sender (hch : ch < 64) (hl : (ch = 63 && lendingChannel s) = false) (h : isSender s ch .operator = true)
    (hon : mboxOff s ch = false) :
    mboxRead .operator ch s = answer 374 stOk (outMessage s ch) (s.modMbox ch (fun m => { m with outFull := false })) := by
  simp only [mboxRead, mboxDev, h, hl, hon]
  rw [if_neg (by simp [hch]), if_neg (by simp)]

theorem mboxRead_operator_of_refused (h : isSender s ch .operator = false) : mboxRead .operator ch s = answer 372 stPerm [] s := by
  simp only [mboxRead, mboxDev, h]
  rw [if_pos (by simp)]
  rfl

/-! ### The registers of a channel -/

section
variable {r : Requester} (hch : ch < 64) (hr : mboxRight s r ch = true) (hon : mboxOff s ch = false)
include hch hr hon

theorem hubMboxSend_of_free (hfull : (s.mbox ch).inFull = false) : hubMboxSend r ch s =
    csrAnswer r (mboxRegAt ch 0x204) stOk 0 (postInbound ch .operator (s.mbox ch).inb none s) := by
  unfold hubMboxSend
  dsimp only
  rw [if_neg (by simp [hch, hr]), if_neg (by simp [hon]), if_neg (by simp [hfull])]

theorem hubMboxSend_of_full (hfull : (s.mbox ch).inFull = true) : hubMboxSend r ch s =
    csrAnswer r (mboxRegAt ch 0x204) stOk 0
      (ffEvent 0x0103 2 18 ch none (le 2 (mboxCode s .operator)) (s.modMbox ch (fun m => { m with overrun := true }))) := by
  unfold hubMboxSend
  dsimp only
  rw [if_neg (by simp [hch, hr]), if_neg (by simp [hon]), if_pos hfull]

theorem hubMboxTake_of_right : hubMboxTake r ch s = csrAnswer r (mboxRegAt ch 0x208) stOk
    (BitVec.ofNat 32 (if (s.mbox ch).outFull then leAt (s.mbox ch).outb 2 2 else 0)) (s.modMbox ch (fun m => { m with outFull := false })) := by
  unfold hubMboxTake
  dsimp only
  rw [if_neg (by simp [hch, hr]), if_neg (by simp [hon])]

end

theorem mbox_ffEvent (c v d u : Nat) (x : Option Nat) (b : Bytes) : (ffEvent c v d u x b s).mbox ch = s.mbox ch := by
  obtain ⟨-, -, -, -, -, h⟩ := ffEvent_hub s c v d u x b
  simp only [State.mbox, h]

theorem State.mbox_modMbox (f : Mbox → Mbox) : (s.modMbox ch f).mbox ch = f (s.mbox ch) := by
  simp [State.mbox, State.modMbox, State.modHub]

/-! ### RING_PUT and READ_CPL -/

theorem ringWrites_pwr (s : State) (ch q n : Nat) : (ringWrites s ch q n).1.pwr = s.pwr := by
  refine foldl_fst_pwr _ (fun t i => ?_) _ _
  exact writeMem_pwr _ _ _

/-- A RING_PUT message of n commands for queue q that its channel's sender may give (R373). -/
structure RingPutLegal (s : State) (ch q n : Nat) : Prop where
  now : readsNow s ch 1 = true
  queue : q = leAt ((s.mbox ch).inb.drop 8) 0 2
  count : n = leAt ((s.mbox ch).inb.drop 8) 2 1
  low : 1 ≤ n
  high : n ≤ 3
  len : leAt (s.mbox ch).inb 2 2 = 8 + 64 * n
  flags : leAt (s.mbox ch).inb 1 1 = 0
  pad : leAt ((s.mbox ch).inb.drop 8) 3 5 = 0
  right : entitled s (s.mbox ch) q = true

theorem ringPut_of_full {q n : Nat} (h : RingPutLegal s ch q n) (hroom : ((s.queue q).p - (s.queue q).n).toNat + n > (s.queue q).size) :
    ringPut ch s = postReply ch stConflict [] s := by
  obtain ⟨now, rfl, rfl, low, high, len, flags, pad, right⟩ := h
  unfold ringPut
  dsimp only
  rw [if_neg (by simp [strangeNow, now]), if_neg (by simp [now]), if_neg (by simp [len, flags, pad]; omega), if_neg (by simp [right]), if_pos hroom]

theorem ringPut_of_room {q n : Nat} (h : RingPutLegal s ch q n) (hroom : ((s.queue q).p - (s.queue q).n).toNat + n ≤ (s.queue q).size)
    (hch : ch ≠ 0) (hmay : (List.range n).all (fun i => qMay s q (cmdAt (s.queue q) ((s.queue q).p.toNat + i)) 64 true false) = true)
    (hwrite : (ringWrites s ch q n).2 = true) :
    ringPut ch s = postReply ch stOk [] (ringDoorbell q (((s.queue q).p.toNat + n) % 2 ^ 32) (ringWrites s ch q n).1) := by
  obtain ⟨now, rfl, rfl, low, high, len, flags, pad, right⟩ := h
  unfold ringPut
  dsimp only
  rw [if_neg (by simp [strangeNow, now]), if_neg (by simp [now]), if_neg (by simp [len, flags, pad]; omega), if_neg (by simp [right]),
    if_neg (Nat.not_lt.mpr hroom), if_neg (by simp [hmay]), if_neg (by simp [hwrite]), if_neg hch]

theorem readCpl_of_read {q n start : Nat} {cs : List Bytes} (hnow : readsNow s ch 2 = true) (hq : q = leAt ((s.mbox ch).inb.drop 8) 0 2)
    (hn : n = leAt ((s.mbox ch).inb.drop 8) 2 1) (hstart : start = leAt ((s.mbox ch).inb.drop 8) 4 4) (hlow : 1 ≤ n) (hhigh : n ≤ 15)
    (hlen : leAt (s.mbox ch).inb 2 2 = 8) (hflags : leAt (s.mbox ch).inb 1 1 = 0) (hpad : leAt ((s.mbox ch).inb.drop 8) 3 1 = 0)
    (hright : entitled s (s.mbox ch) q = true)
    (hread : (List.range n).map (fun i => qRead s q ((s.queue q).cpl + 16 * ((start + i) % (s.queue q).size)) 16) = cs.map .ok) :
    readCpl ch s = postReply ch stOk cs.flatten s := by
  subst hq hn hstart
  unfold readCpl
  dsimp only
  rw [if_neg (by simp [hnow]), if_neg (by simp [hlen, hflags, hpad]; omega), if_neg (by simp [hright]), hread]
  simp [List.filterMap_map, List.flatMap_map]

/-! ### RELAY -/

theorem relay_of_host {p : FjPkt} (hc : p.hdr.cls = 0) (ht : p.hdr.ty = 1) (hme : leAt p.payload 2 2 ≠ s.plate.devIndex)
    (hbridge : s.plate.bridge = s.plate.devIndex) (hsrc : p.hdr.src = hostDev s) (hcol : leAt p.payload 2 2 / 64 = s.plate.devIndex / 64)
    (hdev : leAt p.payload 2 2 < 0x4000) :
    relay p s = relayOn p (leAt p.payload 2 2) (.relay p.hdr.src (leAt p.payload 4 4)) (takeRx s p) := by
  have hhost : isHost (hostDev s) = true := by simp [isHost, hostDev]
  have htarget : isHost (leAt p.payload 2 2) = false := by simp [isHost, hdev]
  have hsame : hostDev (takeRx s p) = hostDev s := rfl
  simp only [relay, hsrc, hhost, hsame, takeRx_plate]
  rw [if_neg (by simp [hc, ht, hme, hbridge]), if_pos (by simp), if_neg (by simp), if_neg (by simp [htarget, hcol])]

theorem relay_of_stranger {p : FjPkt} (hc : p.hdr.cls = 0) (ht : p.hdr.ty = 1) (hme : leAt p.payload 2 2 ≠ s.plate.devIndex)
    (hbridge : s.plate.bridge = s.plate.devIndex) (hsrc : p.hdr.src < 0x4000) (hhost : leAt p.payload 2 2 ≠ hostDev s) :
    relay p s = sendNack (takeRx s p) p 5 := by
  have hdev : isHost p.hdr.src = false := by simp [isHost, hsrc]
  have hsame : hostDev (takeRx s p) = hostDev s := rfl
  simp only [relay, hdev, hsame]
  rw [if_neg (by simp [hc, ht, hme, hbridge]), if_neg (by simp), if_neg (by simp [hhost])]

end

/-- Settles O39: each access by its sender's right and the state of the slot. -/
theorem mailboxes : Obligations.Mailboxes := by
  refine ⟨?write, ?read, ?registers, ?ring, ?cpl, ?relay⟩
  case write =>
    intro s ch msg session hs he hch hl
    refine ⟨fun hsend hlow hhigh hlen hon => ⟨fun hfull => ?_, fun hfull => ?_⟩, fun hsend => ?_⟩
    · refine net_of (mboxWrite .fleet ch msg session) s _ hs ?_ he rfl
      rw [mboxWrite_fleet_of_sent hch hl hsend hlow hhigh hlen hon, if_neg (by simp [hfull])]
      rfl
    · refine net_of (mboxWrite .fleet ch msg session) s _ hs ?_ he rfl
      rw [mboxWrite_fleet_of_sent hch hl hsend hlow hhigh hlen hon, if_pos hfull]
    · exact net_of (mboxWrite .fleet ch msg session) s _ hs (mboxWrite_fleet_of_refused hl hsend) he (answer_pwr _ _ _ _)
  case read =>
    intro s ch hs he hch hl
    refine ⟨fun hsend hon => ?_, fun hsend => ?_⟩
    · exact net_of (mboxRead .operator ch) s _ hs (mboxRead_operator_of_sender hch hl hsend hon) he (answer_pwr _ _ _ _)
    · exact net_of (mboxRead .operator ch) s _ hs (mboxRead_operator_of_refused hsend) he (answer_pwr _ _ _ _)
  case registers =>
    intro s r ch hs hch hr hon
    refine ⟨fun hfull => ?_, fun hfull => ?_, ?_⟩
    · exact serving_of (hubMboxSend r ch) s _ hs (hubMboxSend_of_free hch hr hon hfull) (csrAnswer_pwr _ _ _ _ _)
    · refine ⟨_, serving_of (hubMboxSend r ch) s _ hs (hubMboxSend_of_full hch hr hon hfull)
        ((csrAnswer_pwr _ _ _ _ _).trans (ffEvent_pwr _ _ _ _ _ _ _)), ?_⟩
      exact (mbox_ffEvent _ _ _ _ _ _).trans (State.mbox_modMbox _)
    · exact serving_of (hubMboxTake r ch) s _ hs (hubMboxTake_of_right hch hr hon) (csrAnswer_pwr _ _ _ _ _)
  case ring =>
    intro s ch q n hs hnow hq hn hlow hhigh hlen hflags hpad hright
    have hlegal : RingPutLegal s ch q n := ⟨hnow, hq, hn, hlow, hhigh, hlen, hflags, hpad, hright⟩
    refine ⟨fun hroom => ?_, fun hroom hch hmay hwrite => ?_⟩
    · exact serving_of (ringPut ch) s _ hs (ringPut_of_full hlegal hroom) (postReply_pwr _ _ _ _)
    · refine serving_of (ringPut ch) s _ hs (ringPut_of_room hlegal hroom hch hmay hwrite) ?_
      rw [postReply_pwr, ringDoorbell_pwr, ringWrites_pwr]
  case cpl =>
    intro s ch q n start cs hs hnow hq hn hstart hlow hhigh hlen hflags hpad hright hread
    exact serving_of (readCpl ch) s _ hs (readCpl_of_read hnow hq hn hstart hlow hhigh hlen hflags hpad hright hread) (postReply_pwr _ _ _ _)
  case relay =>
    intro s p hs hc ht hme hbridge u target
    refine ⟨fun hsrc hcol hdev => ?_, fun hsrc hhost he => ?_⟩
    · exact net_deliver (relay p) s _ hs (relay_of_host hc ht hme hbridge hsrc hcol hdev) (by simp [u])
    · exact net_of (relay p) s _ hs (relay_of_stranger hc ht hme hbridge hsrc hhost) (by simp [u, he]) (by simp [u])

end Sys2Proof.Machine
end

section
/-! PROOFS. Register reads and writes (R13, R319, R534, R539, R540). -/
namespace Sys2Proof.Machine

section
variable {s : State} {r : Requester} {a size st o : Nat} {b : Block} {v : Word}

/-! ### Reads -/

theorem registerReadClear_of_denied (h : csrCheck s r a size = .deny st) : registerReadClear r a size s = csrAnswer r a st 0 s := by
  simp only [registerReadClear, h]

theorem registerReadClear_of_other (h : csrCheck s r a size = .go b o) (hshut : readShut s r b o = false) (hb : ∀ d, b ≠ .lnk d) :
    registerReadClear r a size s = csrAnswer r a stOk (BitVec.ofNat 32 (readReg s b o)) (clearReg b o s) := by
  cases b with
  | lnk d => exact absurd rfl (hb d)
  | _ => simp only [registerReadClear, h]; rw [if_neg (by simp [hshut])]

theorem registerReadClear_of_time {d : Nat} (h : csrCheck s r a size = .go (.lnk d) 0x24) :
    registerReadClear r a size s = csrAnswer r a stOk (BitVec.ofNat 32 (fabricNs s % 1000000000)) (latchSec d s) := by
  simp [registerReadClear, h, readShut, readReg, readLnk, clearReg]

/-- What a read clears is no memory, queue, context or power state. -/
theorem clearReg_frame (b : Block) (o : Nat) (s : State) : (clearReg b o s).mem = s.mem ∧ (clearReg b o s).queues = s.queues ∧
    (clearReg b o s).ctxs = s.ctxs ∧ (clearReg b o s).pwr.st = s.pwr.st := by
  cases b <;> unfold clearReg <;> dsimp only <;> (repeat' split) <;> exact ⟨rfl, rfl, rfl, rfl⟩

/-- The nanoseconds of link die l (R539). -/
theorem csrCheck_linkTime {l : Nat} (hl : l < 2) (hr : csrRight r = true) (hon : dieOn s (16 + l) = true) :
    csrCheck s r (csrBase + 0x800000 + 0x80000 * l + 0x24) 4 = .go (.lnk (16 + l)) 0x24 := by
  have hb : blockOf (csrBase + 0x800000 + 0x80000 * l + 0x24) = some (.lnk (16 + l), 0x24) := by
    obtain rfl | rfl : l = 0 ∨ l = 1 := by omega
    · decide
    · decide
  have hal : (csrBase + 0x800000 + 0x80000 * l + 0x24) % 4 = 0 := by unfold csrBase; omega
  unfold csrCheck
  rw [if_neg (by rw [hal]; simp), hb]
  dsimp only
  rw [if_neg (by simp [hr])]
  simp only [blockDie, hon, if_true]

/-! ### Writes -/

theorem registerWrite_of_denied (h : csrCheck s r a size = .deny st) : registerWrite r a size v s = csrAnswer r a st 0 s := by
  simp only [registerWrite, h]

theorem registerWrite_of_shut (h : csrCheck s r a size = .go b o) (hrow : ownRow b o = false) (hshut : writeShut s r b o = true) :
    registerWrite r a size v s = csrAnswer r a stPerm 0 s := by
  simp only [registerWrite, h, hrow, hshut, if_true, Bool.false_eq_true, if_false]

/-- The effect of a write on the block it goes to. -/
def blockWrite (r : Requester) (b : Block) (o : Nat) (v : Word) (s : State) : State :=
  match b with
  | .hub => writeHub r o v s
  | .fw => writeFw o v s
  | .boot => s
  | .sec => s
  | .pwr => writePwr r o v s
  | .lnk d => writeLnk d o v s
  | .mem h => writeMemReg h o v s
  | .cel _ => s

theorem registerWrite_of_right (h : csrCheck s r a size = .go b o) (hrow : ownRow b o = false) (hshut : writeShut s r b o = false) :
    registerWrite r a size v s = csrAnswer r a stOk 0 (blockWrite r b o v s) := by
  simp only [registerWrite, h, hrow, hshut, Bool.false_eq_true, if_false]
  cases b <;> rfl

theorem writePwr_st (r : Requester) (o : Nat) (v : Word) (s : State) : (writePwr r o v s).pwr.st = s.pwr.st := by
  unfold writePwr
  dsimp only
  repeat' split
  all_goals rfl

theorem blockWrite_st (r : Requester) (b : Block) (o : Nat) (v : Word) (s : State) : (blockWrite r b o v s).pwr.st = s.pwr.st := by
  cases b <;> simp [blockWrite, writePwr_st]

/-- A write that is let through answers OK and has its block's effect. -/
theorem exec_registerWrite_of_right (hs : s.pwr.st.isDark = false) (h : csrCheck s r a size = .go b o) (hrow : ownRow b o = false)
    (hshut : writeShut s r b o = false) : exec (.registerWrite r a size v) s = .next (csrAnswer r a stOk 0 (blockWrite r b o v s)) :=
  powered_of (registerWrite r a size v) s _ hs (registerWrite_of_right h hrow hshut)
    (by rw [csrAnswer_pwr, blockWrite_st])

/-- R37: PWR_CAP takes 1000 W to 3200 W. -/
def capInRange (v : Word) : Prop := 1000 ≤ v.toNat % 65536 ∧ v.toNat % 65536 ≤ 3200

theorem writePwr_cap_of_operator (h : capInRange v) : readReg (writePwr .operator 0x10 v s) .pwr 0x10 = v.toNat % 65536 := by
  unfold writePwr
  dsimp only
  rw [if_pos rfl, if_pos ⟨rfl, h⟩]
  simp [readReg, readPwr]

theorem writePwr_cap_of_refused (h : ¬ (r = .operator ∧ capInRange v)) : writePwr r 0x10 v s = s := by
  unfold writePwr
  dsimp only
  rw [if_pos rfl]
  exact if_neg h

end

/-- Settles O40: the access by R540, the read and the write by the block. -/
theorem registers : Obligations.Registers := by
  refine ⟨?denied, ?read, ?time, ?write, ?cap, ?cleared, fun s b o => clearReg_frame b o s⟩
  case denied =>
    intro s r a size st v hs h
    exact ⟨powered_of (registerReadClear r a size) s _ hs (registerReadClear_of_denied h) (by rw [csrAnswer_pwr]),
      powered_of (registerWrite r a size v) s _ hs (registerWrite_of_denied h) (by rw [csrAnswer_pwr])⟩
  case read =>
    intro s r a size o b hs h hshut hb
    refine powered_of (registerReadClear r a size) s _ hs (registerReadClear_of_other h hshut hb) ?_
    obtain ⟨-, -, -, hst⟩ := clearReg_frame b o s
    rw [csrAnswer_pwr, hst]
  case time =>
    intro s r l a hs hl ha hr hon
    subst ha
    have hmod : l % 2 = l := by omega
    refine powered_of (registerReadClear r (csrBase + 0x800000 + 0x80000 * (l % 2) + 0x24) 4) s _ hs ?_ (by rw [csrAnswer_pwr]; rfl)
    rw [hmod, registerReadClear_of_time (csrCheck_linkTime hl hr hon)]
    rfl
  case write =>
    intro s r a size o b v hs h hrow
    refine ⟨fun hshut => ?_, fun hshut hb => ?_, fun hb => ?_, fun hb => ?_, fun c hb => ?_, fun c hb => ?_, fun d hb => ?_, fun hshut hb => ?_⟩
    · exact powered_of (registerWrite r a size v) s _ hs (registerWrite_of_shut h hrow hshut) (by rw [csrAnswer_pwr])
    · subst hb
      exact exec_registerWrite_of_right hs h hrow hshut
    · subst hb
      exact exec_registerWrite_of_right hs h hrow rfl
    · rcases hb with rfl | rfl
      · refine exec_registerWrite_of_right hs h hrow ?_
        simp only [ownRow, decide_eq_false_iff_not] at hrow
        simp [writeShut, hrow]
      · exact exec_registerWrite_of_right hs h hrow rfl
    · subst hb
      exact exec_registerWrite_of_right hs h hrow rfl
    · subst hb
      exact exec_registerWrite_of_right hs h hrow rfl
    · subst hb
      exact exec_registerWrite_of_right hs h hrow rfl
    · subst hb
      exact exec_registerWrite_of_right hs h hrow hshut
  case cap =>
    intro s v
    exact ⟨fun h => writePwr_cap_of_operator h, fun h => writePwr_cap_of_refused (fun hc => h hc.2),
      fun r hr => writePwr_cap_of_refused (fun hc => hr hc.1)⟩
  case cleared =>
    intro s c
    simp [readReg, clearReg, readCel, readHub, readFw, readPwr, word, State.modHub]

end Sys2Proof.Machine
end

section
/-! PROOFS. Fjorum flows open and close (R293, R294, R314, R353). -/
namespace Sys2Proof.Machine

/-! ### The end of messages -/

theorem endMsg_snd (s : State) (u : MsgUse) (st : Nat) : (endMsg s u st).snd = s.snd := by cases u <;> rfl
theorem endMsg_mem (s : State) (u : MsgUse) (st : Nat) : (endMsg s u st).mem = s.mem := by cases u <;> rfl

/-- The use of a message learns how it ended. -/
def MsgUse.heard (u : MsgUse) : Prop := (∀ v, u ≠ .vote v) ∧ u ≠ .none ∧ u ≠ .reply

theorem endMsg_ended_of_heard {u : MsgUse} (h : u.heard) (s : State) (st : Nat) : (endMsg s u st).ended = s.ended ++ [(u, st)] := by
  obtain ⟨hv, hn, hr⟩ := h
  cases u
  case none => exact absurd rfl hn
  case vote v => exact absurd rfl (hv v)
  case reply => exact absurd rfl hr
  all_goals rfl

theorem endMsg_ended_keeps {e : MsgUse × Nat} (s : State) (u : MsgUse) (st : Nat) (h : e ∈ s.ended) : e ∈ (endMsg s u st).ended := by
  cases u <;> simp [endMsg, h]

/-- Every message of a list is ended with a status. -/
def endMsgs (l : List SndMsg) (st : Nat) (s : State) : State := l.foldl (fun t m => endMsg t m.use st) s

theorem endMsgs_keeps {e : MsgUse × Nat} (l : List SndMsg) (st : Nat) (s : State) (h : e ∈ s.ended) : e ∈ (endMsgs l st s).ended := by
  induction l generalizing s with
  | nil => exact h
  | cons m l ih => exact ih _ (endMsg_ended_keeps s m.use st h)

theorem mem_endMsgs {l : List SndMsg} {m : SndMsg} (st : Nat) (s : State) (hm : m ∈ l) (h : m.use.heard) : (m.use, st) ∈ (endMsgs l st s).ended := by
  induction l generalizing s with
  | nil => exact absurd hm (by simp)
  | cons n l ih =>
    rcases List.mem_cons.mp hm with rfl | hm
    · exact endMsgs_keeps l st _ (by rw [endMsg_ended_of_heard h]; simp)
    · exact ih _ hm

theorem endMsgs_snd (l : List SndMsg) (st : Nat) (s : State) : (endMsgs l st s).snd = s.snd :=
  foldl_proj State.snd _ (fun t (m : SndMsg) => endMsg_snd t m.use st) l s

theorem endMsgs_mem (l : List SndMsg) (st : Nat) (s : State) : (endMsgs l st s).mem = s.mem :=
  foldl_proj State.mem _ (fun t (m : SndMsg) => endMsg_mem t m.use st) l s

/-! ### A flow that fails -/

section
variable (s : State) (k : FlowKey) (st : Nat)

/-- A flow that is closed with nothing queued or sent. -/
def closedFlow (f : SndFlow) : SndFlow :=
  { f with st := .closed, una := [], unsent := [], msgs := [], sentAt := [], refused := [], budget := [], tried := [], sacked := [], held := false }

theorem failFlow_eq : failFlow s k st = endMsgs (sndFlow s k).msgs st (putSnd s k (closedFlow (sndFlow s k))) := rfl

theorem sndFlow_failFlow (j : FlowKey) : sndFlow (failFlow s k st) j = if j = k then closedFlow (sndFlow s k) else sndFlow s j := by
  rw [← sndFlow_putSnd, failFlow_eq]
  simp only [sndFlow, endMsgs_snd]

theorem failFlow_mem : (failFlow s k st).mem = s.mem := endMsgs_mem _ st _

theorem mem_failFlow_ended {m : SndMsg} (hm : m ∈ (sndFlow s k).msgs) (h : m.use.heard) : (m.use, st) ∈ (failFlow s k st).ended :=
  mem_endMsgs st _ hm h

end

/-! ### Packets by their sender's incarnation -/

section
variable {s : State} {p : FjPkt} {inc : Nat} {f : State → State}

theorem withInc_current (h : Current s p inc) :
    withInc p inc f s = f (s.modPeer p.hdr.src (fun q => { q with st := .up, inc := inc, seen := s.clk })) := by
  obtain ⟨hlost, hinc, hnew⟩ := h
  unfold withInc
  dsimp only
  rw [if_neg (by simp [hinc]), if_neg hlost, if_neg]
  rcases hnew with h | h <;> simp [h]

theorem withInc_older (h : inc < (s.peer p.hdr.src).inc) (hlost : (s.peer p.hdr.src).st ≠ .lost) :
    withInc p inc f s = countDrop (peerDie s p.hdr.src) 8 s := by
  unfold withInc
  dsimp only
  rw [if_pos (by simp [h]), if_neg hlost]

theorem withInc_of_current (h : Current s p inc) : withInc p inc f (takeRx s p) = f (met s p inc) :=
  withInc_current (s := takeRx s p) h

theorem withInc_of_older (h : inc < (s.peer p.hdr.src).inc) (hlost : (s.peer p.hdr.src).st ≠ .lost) :
    withInc p inc f (takeRx s p) = countDrop (peerDie s p.hdr.src) 8 (takeRx s p) :=
  withInc_older (s := takeRx s p) h hlost

theorem fromPeer_of_held (h : (s.peer p.hdr.src).st ≠ .lost) : fromPeer p f (takeRx s p) = f (heard p.hdr.src (takeRx s p)) := by
  unfold fromPeer
  rw [takeRx_peer, if_neg h]

theorem fromPeer_of_lost (h : (s.peer p.hdr.src).st = .lost) : fromPeer p f (takeRx s p) = sendNack (takeRx s p) p 0xA := by
  unfold fromPeer
  rw [takeRx_peer, if_pos h]

theorem fjOpen_of_room (ht : p.hdr.ty = 4) (hh : hostRefusal s p = none) (hf : rcvFull s (keyOf p) = false) : fjOpen p s =
    withInc p (leAt p.ext 0 4) (fun u => sendBare (putRcv u (keyOf p) { isOpen := true, inc := leAt p.ext 0 4 }) (keyOf p) 5 (incExt u) []) (takeRx s p) := by
  simp only [fjOpen, hh]
  rw [if_neg (by simp [ht]), if_neg (by simp [hf])]

theorem fjOpen_of_host {e : Nat} (ht : p.hdr.ty = 4) (hh : hostRefusal s p = some e) : fjOpen p s = sendNack (takeRx s p) p e := by
  simp only [fjOpen, hh]
  rw [if_neg (by simp [ht])]

theorem fjOpen_of_full (ht : p.hdr.ty = 4) (hh : hostRefusal s p = none) (hf : rcvFull s (keyOf p) = true) :
    fjOpen p s = sendNack (takeRx s p) p 4 := by
  simp only [fjOpen, hh]
  rw [if_neg (by simp [ht]), if_pos hf]

/-- What an OPEN_ACK does to its flow. -/
def openFlow (k : FlowKey) (s : State) : State :=
  if (sndFlow s k).st = .opening then pumpAll (putSnd s k { sndFlow s k with st := .isOpen, held := false, retries := 0 }) k else s

theorem openAck_eq (ht : p.hdr.ty = 5) : openAck p s = withInc p (leAt p.ext 0 4) (openFlow (keyOf p)) (takeRx s p) :=
  if_neg (by simp [ht])

/-! ### Closing -/

theorem fjClose_of_held (ht : p.hdr.ty = 6) (hl : (s.peer p.hdr.src).st ≠ .lost) :
    fjClose p s = if (rcvFlow (heard p.hdr.src (takeRx s p)) (keyOf p)).isOpen
      then sendBare (putRcv (heard p.hdr.src (takeRx s p)) (keyOf p) {}) (keyOf p) 7 [] [] else sendNack (heard p.hdr.src (takeRx s p)) p 1 := by
  unfold fjClose
  rw [if_neg (by simp [ht]), fromPeer_of_held hl]

theorem closeAck_of_drained (ht : p.hdr.ty = 7) (hl : (s.peer p.hdr.src).st ≠ .lost)
    (hst : (sndFlow (heard p.hdr.src (takeRx s p)) (keyOf p)).st = .draining)
    (huna : (sndFlow (heard p.hdr.src (takeRx s p)) (keyOf p)).una = []) (hun : (sndFlow (heard p.hdr.src (takeRx s p)) (keyOf p)).unsent = []) :
    closeAck p s = putSnd (heard p.hdr.src (takeRx s p)) (keyOf p)
      { sndFlow (heard p.hdr.src (takeRx s p)) (keyOf p) with st := .closed } := by
  unfold closeAck
  rw [if_neg (by simp [ht]), fromPeer_of_held hl]
  dsimp only
  rw [if_neg (by simp [hst, huna]), if_pos (by simp [hun])]

end

/-- Settles O41: the packet by the incarnation of its sender, the timer by the state of its flow. -/
theorem flowsOpenAndClose : Obligations.FlowsOpenAndClose := by
  refine ⟨?current, ?older, ?refused, ?full, ?closing, ?timers, ?failing⟩
  case current =>
    intro s p inc hs hinc hcur u k
    subst hinc
    refine ⟨fun ht hh hf => ?_, fun ht hst => ?_⟩
    · exact net_deliver (fjOpen p) s _ hs (by rw [fjOpen_of_room ht hh hf, withInc_of_current hcur]) (by simp [u, met])
    · refine net_deliver (openAck p) s _ hs ?_ (by simp [u, met])
      rw [openAck_eq ht, withInc_of_current hcur]
      exact if_pos hst
  case older =>
    intro s p hs hinc hlost he
    refine ⟨fun ht hh hf => ?_, fun ht => ?_⟩
    · exact net_of (fjOpen p) s _ hs (by rw [fjOpen_of_room ht hh hf, withInc_of_older hinc hlost]) he (by simp)
    · exact net_of (openAck p) s _ hs (by rw [openAck_eq ht, withInc_of_older hinc hlost]) he (by simp)
  case refused =>
    intro s p hs he ht
    refine ⟨fun e h => ?_, fun h hf => ?_, fun h => ?_, fun h hb hd hc => ?_, fun h hb hd hc => ?_, fun h hb => ?_⟩
    · exact net_of (fjOpen p) s _ hs (fjOpen_of_host ht h) (by simp [he]) (by simp)
    · exact net_of (fjOpen p) s _ hs (fjOpen_of_full ht h hf) (by simp [he]) (by simp)
    · simp [hostRefusal, h]
    · simp [hostRefusal, hb, hd, hc]
    · rw [hd] at h
      simp [hostRefusal, h, hb, hd, hc]
    · unfold hostRefusal
      rw [if_neg (by simp [h]), if_pos (by rcases hb with hb | hb <;> simp [hb])]
  case full =>
    intro s k u b l hl hst hf
    unfold sendMsg
    rw [if_neg hl, if_pos (by simp [hst, hf])]
  case closing =>
    intro s p hs hl u k
    refine ⟨fun ht hopen => ?_, fun ht hopen => ?_, fun ht hst huna hun => ?_⟩
    · exact net_deliver (fjClose p) s _ hs (by rw [fjClose_of_held ht hl, if_pos hopen]) (by simp [u])
    · exact net_deliver (fjClose p) s _ hs (by rw [fjClose_of_held ht hl, if_neg (by rw [hopen]; simp)]) (by simp [u])
    · exact net_deliver (closeAck p) s _ hs (closeAck_of_drained ht hl hst huna hun) (by simp [u])
  case timers =>
    intro s k hs
    refine ⟨fun hst => ?_, fun hst hheld hn => ?_, fun hst hheld hn => ?_, fun hst hheld => ?_⟩
    · exact net_deliver (flowClose k) s _ hs (if_pos hst) (by simp)
    · refine net_deliver (openRetry k) s _ hs ?_ (by simp)
      unfold openRetry
      rw [if_neg (by simp [hst]), if_neg (by simp [hheld]), if_neg (Nat.not_le.mpr hn)]
    · refine net_deliver (openRetry k) s _ hs ?_ (by simp)
      unfold openRetry
      rw [if_neg (by simp [hst]), if_neg (by simp [hheld]), if_pos hn]
    · exact net_deliver (openingWait k) s _ hs (if_pos (by simp [hst, hheld])) (by simp)
  case failing =>
    intro s k st
    have hk : sndFlow (failFlow s k st) k = closedFlow (sndFlow s k) := by rw [sndFlow_failFlow, if_pos rfl]
    refine ⟨by rw [hk]; rfl, by rw [hk]; rfl, by rw [hk]; rfl, fun j hj => ?_, failFlow_mem s k st, fun m hm hv hn hr => ?_⟩
    · rw [sndFlow_failFlow, if_neg hj]
    · exact mem_failFlow_ended s k st hm ⟨hv, hn, hr⟩

end Sys2Proof.Machine
end

section
/-! PROOFS. Fjorum data, acknowledgements, refusals and timers (R290 to R292, R296, R298, R299). -/
namespace Sys2Proof.Machine

theorem rcvFlow_putRcv_same (s : State) (k : FlowKey) (f : RcvFlow) : rcvFlow (putRcv s k f) k = f := by
  simp [rcvFlow, putRcv, getKey_putKey]

theorem sndFlow_putSnd_same (s : State) (k : FlowKey) (f : SndFlow) : sndFlow (putSnd s k f) k = f := by
  rw [sndFlow_putSnd, if_pos rfl]

/-! ### WRITE -/

section
variable {s : State} {p : FjPkt}

theorem bulkWrite_of_misfit (hb : isBulk p 0 = true) (hr : pktRefusal (takeRx s p) p = none) (h : leAt p.ext 4 4 < p.hdr.msgOff + p.payload.length) :
    bulkWrite p s = rejectWrite (takeRx s p) p 6 := by
  simp only [bulkWrite, hr]
  rw [if_neg (by simp [hb]), if_pos (by simp [h])]

/-- The lengths of a packet of a WRITE message add up, and its memory has power (R290, R527). -/
def WriteFits (s : State) (p : FjPkt) : Prop :=
  p.hdr.msgOff + p.payload.length ≤ leAt p.ext 4 4 ∧ (p.hdr.last = true → p.hdr.msgOff + p.payload.length = leAt p.ext 4 4) ∧
  memOff (takeRx s p) (leAt p.ext 8 8) = false

theorem bulkWrite_of_denied (hb : isBulk p 0 = true) (hr : pktRefusal (takeRx s p) p = none) (hf : WriteFits s p)
    (hmay : remoteMay (takeRx s p) p.hdr.ctx (leAt p.ext 8 8) (leAt p.ext 4 4) true = false) :
    bulkWrite p s = rejectWrite (takeRx s p) p 5 := by
  obtain ⟨hlen, hlast, hon⟩ := hf
  simp only [bulkWrite, hr, hon, hmay]
  rw [if_neg (by simp [hb]), if_neg (by simpa [hlen] using hlast), if_neg (by simp), if_pos (by simp)]

theorem nothingWaits_of_frame {w : State} {x a : Nat} (h : { w with mem := s.mem, poison := s.poison, cells := s.cells, sent := s.sent } = s)
    (hn : NothingWaits s x a) : NothingWaits w x a := by
  rw [← h] at hn
  exact hn

theorem writeDelivered_of_nothing {x a n : Nat} (h : NothingWaits s x a) : writeDelivered x a n s = s := by
  obtain ⟨hload, hrestore, hstage, hmolt⟩ := h
  unfold writeDelivered
  rw [hload, hrestore, hstage]
  unfold moltArrived
  rw [if_pos (by rw [hmolt]; rfl)]

theorem endWrite_of_delivered {x a n : Nat} (hb : (rcvFlow s (keyOf p)).broken = []) (h : NothingWaits s x a) : endWrite p x a n s = s := by
  unfold endWrite
  rw [if_neg (by rw [hb]; simp), writeDelivered_of_nothing h]

theorem bulkWrite_of_granted (hb : isBulk p 0 = true) (hr : pktRefusal (takeRx s p) p = none) (hf : WriteFits s p)
    (hmay : remoteMay (takeRx s p) p.hdr.ctx (leAt p.ext 8 8) (leAt p.ext 4 4) true = true)
    (hwait : NothingWaits (takeRx s p) p.hdr.ctx (leAt p.ext 8 8)) (hopen : p.hdr.last = true → earlierOpen (takeRx s p) p = false)
    (hbr : (rcvFlow (takeRx s p) (keyOf p)).broken = []) (hp : partPoison (takeRx s p) (leAt p.ext 8 8 + p.hdr.msgOff) p.payload.length = []) :
    bulkWrite p s = (writeMem (takeRx s p) (leAt p.ext 8 8 + p.hdr.msgOff) p.payload).1 := by
  obtain ⟨hlen, hlast, hon⟩ := hf
  obtain ⟨hload, hrestore, hstage, hmolt⟩ := hwait
  obtain ⟨hall, -⟩ := writeMem_whole (takeRx s p) (leAt p.ext 8 8 + p.hdr.msgOff) p.payload hp
  obtain ⟨hframe, -⟩ := writeMem_frame hp
  have hcopy : copyPassed (takeRx s p) p.hdr.ctx (leAt p.ext 8 8) = false := by simp only [copyPassed, hload]
  have hend : endWrite p p.hdr.ctx (leAt p.ext 8 8) (leAt p.ext 4 4) (writeMem (takeRx s p) (leAt p.ext 8 8 + p.hdr.msgOff) p.payload).1 =
      (writeMem (takeRx s p) (leAt p.ext 8 8 + p.hdr.msgOff) p.payload).1 := by
    refine endWrite_of_delivered ?_ (nothingWaits_of_frame hframe ⟨hload, hrestore, hstage, hmolt⟩)
    rw [← hframe] at hbr
    exact hbr
  simp only [bulkWrite, hr, hon, hmay, hstage, hcopy, hall, hend]
  rw [if_neg (by simp [hb]), if_neg (by simpa [hlen] using hlast), if_neg (by simp), if_neg (by simp), if_neg (by simpa using hopen),
    if_neg (by simp), if_neg (by simp), if_neg (by simp), ite_self]

end

theorem rejectWrite_ended (s : State) (p : FjPkt) (code : Nat) (h3 : code ≠ 3) (h4 : code ≠ 4) : (rejectWrite s p code).ended = s.ended := by
  unfold rejectWrite
  rw [if_neg (by simp [h3, h4])]
  simp

theorem rejectWrite_of_more (s : State) {p : FjPkt} {code : Nat} (h3 : code ≠ 3) (h4 : code ≠ 4) (hl : p.hdr.last = false) :
    rejectWrite s p code = sendNack (putRcv s (keyOf p) { rcvFlow s (keyOf p) with
      broken := (rcvFlow s (keyOf p)).broken.filter (fun m => m ≠ p.hdr.msgSeq) ++ [p.hdr.msgSeq] }) p code := by
  unfold rejectWrite
  rw [if_neg (by simp [h3, h4])]
  dsimp only
  rw [if_neg (by simp [hl])]

theorem endWrite_of_broken {s : State} {p : FjPkt} (x a n : Nat) (h : p.hdr.msgSeq ∈ (rcvFlow s (keyOf p)).broken) :
    endWrite p x a n s = putRcv s (keyOf p) { rcvFlow s (keyOf p) with broken := (rcvFlow s (keyOf p)).broken.filter (fun m => m ≠ p.hdr.msgSeq) } :=
  if_pos (by simpa using h)

/-! ### READ_REQ -/

theorem readReq_of_granted {s : State} {p : FjPkt} (hb : isBulk p 1 = true) (hr : pktRefusal (takeRx s p) p = none) (hpay : p.payload = [])
    (hon : memOff (takeRx s p) (leAt p.ext 8 8) = false)
    (hmay : remoteMay (takeRx s p) p.hdr.ctx (leAt p.ext 8 8) (leAt p.ext 4 4) false = true)
    (hread : unreadable (takeRx s p) (leAt p.ext 8 8) (leAt p.ext 4 4) = false) :
    readReq p s = sendWrite (takeRx s p) (some p.hdr.ctx) p.hdr.cls p.hdr.src (leAt p.ext 16 8)
      (peek (takeRx s p) (leAt p.ext 8 8) (leAt p.ext 4 4)) .reply := by
  have hmem : readMem (takeRx s p) (leAt p.ext 8 8) (leAt p.ext 4 4) = some (peek (takeRx s p) (leAt p.ext 8 8) (leAt p.ext 4 4)) :=
    if_neg (by simp [hread])
  simp only [readReq, hr, hon, hmay, hmem]
  rw [if_neg (by simp [hb]), if_neg (by simp [hpay]), if_neg (by simp), if_neg (by simp)]

/-! ### NACK and the timers -/

section
variable {s : State} {p q : FjPkt}

theorem nack_of_slow (ht : p.hdr.ty = 3) (hl : (s.peer p.hdr.src).st ≠ .lost)
    (hq : (sndFlow s (keyOf p)).una.find? (fun r => r.hdr.psn = p.hdr.psn) = some q) (hc : leAt p.ext 0 1 = 3 ∨ leAt p.ext 0 1 = 4)
    (hnew : (sndFlow s (keyOf p)).refused.contains p.hdr.psn = false) :
    nack p s = putSnd (heard p.hdr.src (takeRx s p)) (keyOf p) { sndFlow s (keyOf p) with
      refused := (sndFlow s (keyOf p)).refused ++ [p.hdr.psn], sacked := (sndFlow s (keyOf p)).sacked.filter (fun q => q ≠ p.hdr.psn) } := by
  have hany : (sndFlow s (keyOf p)).una.any (fun r => r.hdr.psn = p.hdr.psn) = true :=
    List.any_eq_true.mpr ⟨q, List.mem_of_find?_eq_some hq, List.find?_some (p := fun r : FjPkt => decide (r.hdr.psn = p.hdr.psn)) hq⟩
  unfold nack
  rw [if_neg (by simp [ht]), fromPeer_of_held hl]
  dsimp only
  rw [if_neg (by rcases hc with hc | hc <;> simp [hc]), if_pos (by simpa using hc)]
  exact if_pos (by rw [Bool.and_eq_true]; exact ⟨hany, by rw [Bool.not_eq_true']; exact hnew⟩)

theorem nackStatus_ne_ok {code : Nat} (h : code = 2 ∨ (5 ≤ code ∧ code ≤ 9)) : nackStatus code ≠ stOk := by
  obtain rfl | rfl | rfl | rfl | rfl | rfl : code = 2 ∨ code = 5 ∨ code = 6 ∨ code = 7 ∨ code = 8 ∨ code = 9 := by omega
  all_goals decide

theorem nack_of_refused (ht : p.hdr.ty = 3) (hl : (s.peer p.hdr.src).st ≠ .lost)
    (hq : (sndFlow s (keyOf p)).una.find? (fun r => r.hdr.psn = p.hdr.psn) = some q)
    (hc : leAt p.ext 0 1 = 2 ∨ (5 ≤ leAt p.ext 0 1 ∧ leAt p.ext 0 1 ≤ 9)) :
    nack p s = dropMsg (heard p.hdr.src (takeRx s p)) (keyOf p) q.hdr.msgSeq (nackStatus (leAt p.ext 0 1)) := by
  have hq' : (sndFlow (heard p.hdr.src (takeRx s p)) (keyOf p)).una.find? (fun r => r.hdr.psn = p.hdr.psn) = some q := hq
  unfold nack
  rw [if_neg (by simp [ht]), fromPeer_of_held hl]
  dsimp only
  rw [if_neg (by simp; omega), if_neg (by simp; omega), if_neg (nackStatus_ne_ok hc), hq']

theorem retxTimeout_of_due {k : FlowKey} {psn : Nat} (hany : (sndFlow s k).una.any (fun q => q.hdr.psn = psn) = true)
    (hr : (sndFlow s k).refused.contains psn = false) (hsack : (sndFlow s k).sacked.contains psn = false) :
    retxTimeout k psn s = resend (putSnd s k { sndFlow s k with
      rto := min (2 * (sndFlow s k).rto) (s.plate.rtoMax * 1000), rate := max ((sndFlow s k).rate / 2) s.plate.rateMin, inc := 0 }) k psn := by
  unfold retxTimeout
  dsimp only
  rw [hany, hr, hsack]
  rfl

theorem rateIncrease_of_cut {k : FlowKey} (hst : (sndFlow s k).st ≠ .closed) (he : (sndFlow s k).eceSeen = true) :
    rateIncrease k s = putSnd s k { sndFlow s k with eceSeen := false } := by
  unfold rateIncrease
  dsimp only
  rw [if_neg hst, if_pos he]

theorem rateIncrease_of_clear {k : FlowKey} (hst : (sndFlow s k).st ≠ .closed) (he : (sndFlow s k).eceSeen = false) :
    rateIncrease k s = putSnd s k { sndFlow s k with
      alpha := (sndFlow s k).alpha - (sndFlow s k).alpha / 16, inc := min ((sndFlow s k).inc + 1) 255,
      rate := min ((sndFlow s k).rate + if min ((sndFlow s k).inc + 1) 255 > 5 then 5 * s.plate.ai else s.plate.ai)
        (flowSubRate s k (sndFlow s k)) } := by
  unfold rateIncrease
  dsimp only
  rw [if_neg hst, if_neg (by simp [he])]

end

/-! ### ACK -/

/-- Of the flow the packets of a list stay unacknowledged and nothing is queued; memory, queues, ended messages and the power shell are as they were. -/
structure Acked (s : State) (k : FlowKey) (l : List FjPkt) (t : State) : Prop where
  una : (sndFlow t k).una = l
  st : (sndFlow t k).st = .isOpen
  unsent : (sndFlow t k).unsent = []
  msgs : (sndFlow t k).msgs = []
  mem : t.mem = s.mem
  queues : t.queues = s.queues
  ended : t.ended = s.ended
  pwr : t.pwr = s.pwr

section
variable {s t : State} {k : FlowKey} {l : List FjPkt}

theorem Acked.putSnd (h : Acked s k l t) {f : SndFlow} (huna : f.una = l) (hst : f.st = .isOpen) (hun : f.unsent = []) (hm : f.msgs = []) :
    Acked s k l (putSnd t k f) :=
  ⟨by rw [sndFlow_putSnd_same, huna], by rw [sndFlow_putSnd_same, hst], by rw [sndFlow_putSnd_same, hun], by rw [sndFlow_putSnd_same, hm],
    h.mem, h.queues, h.ended, h.pwr⟩

theorem Acked.modLink (h : Acked s k l t) (d : Nat) (f : LinkDie → LinkDie) : Acked s k l (t.modLink d f) :=
  ⟨h.una, h.st, h.unsent, h.msgs, h.mem, h.queues, h.ended, h.pwr⟩

theorem Acked.reaped (h : Acked s k l t) : Acked s k l (reapMsgs t k) := by
  unfold reapMsgs
  dsimp only
  rw [h.msgs]
  exact h.putSnd h.una h.st h.unsent rfl

theorem Acked.settled (h : Acked s k l t) : closeIfDone k (pumpAll t k) = t := by
  have hp : pumpAll t k = t := by
    unfold pumpAll
    rw [h.unsent]
    rfl
  rw [hp]
  exact if_neg (by simp [h.st])

theorem cutRate_frame (s : State) (f : SndFlow) :
    (cutRate s f).una = f.una ∧ (cutRate s f).st = f.st ∧ (cutRate s f).unsent = f.unsent ∧ (cutRate s f).msgs = f.msgs := by
  unfold cutRate
  dsimp only
  split <;> exact ⟨rfl, rfl, rfl, rfl⟩

theorem acked_retire {u : State} (low : Nat) (sack : List Nat) (hmem : u.mem = s.mem) (hq : u.queues = s.queues) (he : u.ended = s.ended)
    (hp : u.pwr = s.pwr) (hst : (sndFlow u k).st = .isOpen) (hun : (sndFlow u k).unsent = []) (hm : (sndFlow u k).msgs = []) :
    Acked s k ((sndFlow u k).una.filter (fun q => !serLt q.hdr.psn low)) (retire k low sack u).1 := by
  unfold retire
  dsimp only
  exact ⟨by rw [sndFlow_putSnd_same], by rw [sndFlow_putSnd_same]; exact hst, by rw [sndFlow_putSnd_same]; exact hun,
    by rw [sndFlow_putSnd_same]; exact hm, hmem, hq, he, hp⟩

theorem sackOf_of_zero {p : FjPkt} (h : leAt p.ext 0 8 = 0) : sackOf p = [] := by
  have hbits : setBits 0 64 = [] := by decide
  simp only [sackOf, h, hbits, List.map_nil]

/-- The flow after an ACK has timed its packets sent at the given clocks (R298). -/
def timedFlow (k : FlowKey) (sent : List Nat) (s : State) : SndFlow :=
  if sent.isEmpty then sndFlow s k
  else
    let rtt := smooth (sndFlow s k).srtt (nsOf (s.clk - sent.foldl max 0))
    { sndFlow s k with srtt := some rtt, rto := rtoOf s rtt }

/-- The flow is put, its rate cut when the ACK carries ece (R299). -/
def putCut (p : FjPkt) (g : SndFlow) (s : State) : State :=
  if p.hdr.ece then (putSnd s (keyOf p) (cutRate s g)).modLink (peerDie s p.hdr.src) (fun l => { l with eceRx := bump l.eceRx 1 })
  else putSnd s (keyOf p) g

/-- The packets with three later ones in a SACK list (R298). -/
def latePkts (g : SndFlow) (sack : List Nat) : List FjPkt :=
  g.una.filter (fun q => !g.refused.contains q.hdr.psn && !g.sacked.contains q.hdr.psn && decide (3 ≤ (sack.filter (fun n =>
    serLt q.hdr.psn n && decide ((getKey g.sentAt q.hdr.psn).getD 0 ≤ (getKey g.sentAt n).getD 0))).length))

theorem latePkts_nil (g : SndFlow) : latePkts g [] = [] := by simp [latePkts]

/-- The clocks at which the packets that an ACK retires were sent. -/
def retiredAt (k : FlowKey) (low : Nat) (sack : List Nat) (s : State) : List Nat :=
  (retire k low sack s).2.filterMap (fun q => getKey (sndFlow s k).sentAt q)

/-- The flow of an ACK without the messages it ends. -/
def ackRetired (p : FjPkt) (s : State) : State :=
  let r := (retire (keyOf p) p.hdr.ackPsn (sackOf p) s).1
  let g := timedFlow (keyOf p) (retiredAt (keyOf p) p.hdr.ackPsn (sackOf p) s) r
  reapMsgs ((latePkts g (sackOf p)).foldl (fun t q => resend t (keyOf p) q.hdr.psn) (putCut p g r)) (keyOf p)

theorem ack_of_open {p : FjPkt} (ht : p.hdr.ty = 2) (hl : (s.peer p.hdr.src).st ≠ .lost)
    (hst : (sndFlow (heard p.hdr.src (takeRx s p)) (keyOf p)).st ≠ .closed) :
    ack p s = if !(sndFlow (heard p.hdr.src (takeRx s p)) (keyOf p)).una.isEmpty
      then closeIfDone (keyOf p) (pumpAll (ackRetired p (heard p.hdr.src (takeRx s p))) (keyOf p))
      else ackRetired p (heard p.hdr.src (takeRx s p)) := by
  unfold ack
  rw [if_neg (by simp [ht]), fromPeer_of_held hl]
  exact if_neg hst

theorem timedFlow_frame (k : FlowKey) (sent : List Nat) (s : State) : (timedFlow k sent s).una = (sndFlow s k).una ∧
    (timedFlow k sent s).st = (sndFlow s k).st ∧ (timedFlow k sent s).unsent = (sndFlow s k).unsent ∧
    (timedFlow k sent s).msgs = (sndFlow s k).msgs := by
  unfold timedFlow
  split <;> exact ⟨rfl, rfl, rfl, rfl⟩

theorem Acked.putCut {p : FjPkt} (h : Acked s (keyOf p) l t) {g : SndFlow} (huna : g.una = l) (hst : g.st = .isOpen) (hun : g.unsent = [])
    (hm : g.msgs = []) : Acked s (keyOf p) l (putCut p g t) := by
  unfold Machine.putCut
  split
  · obtain ⟨cuna, cst, cun, cm⟩ := cutRate_frame t g
    exact (h.putSnd (cuna.trans huna) (cst.trans hst) (cun.trans hun) (cm.trans hm)).modLink _ _
  · exact h.putSnd huna hst hun hm

theorem ackRetired_acked {p : FjPkt} {u : State} (hsack : leAt p.ext 0 8 = 0)
    (h : Acked s (keyOf p) l (retire (keyOf p) p.hdr.ackPsn [] u).1) : Acked s (keyOf p) l (ackRetired p u) := by
  unfold ackRetired
  dsimp only
  rw [sackOf_of_zero hsack, latePkts_nil]
  obtain ⟨guna, gst, gun, gm⟩ := timedFlow_frame (keyOf p) (retiredAt (keyOf p) p.hdr.ackPsn [] u) (retire (keyOf p) p.hdr.ackPsn [] u).1
  exact (h.putCut (guna.trans h.una) (gst.trans h.st) (gun.trans h.unsent) (gm.trans h.msgs)).reaped

theorem ack_acked {p : FjPkt} (ht : p.hdr.ty = 2) (hl : (s.peer p.hdr.src).st ≠ .lost) (hst : (sndFlow s (keyOf p)).st = .isOpen)
    (hun : (sndFlow s (keyOf p)).unsent = []) (hm : (sndFlow s (keyOf p)).msgs = []) (hsack : leAt p.ext 0 8 = 0) :
    Acked s (keyOf p) ((sndFlow s (keyOf p)).una.filter (fun q => !serLt q.hdr.psn p.hdr.ackPsn)) (ack p s) := by
  have hsame : sndFlow (heard p.hdr.src (takeRx s p)) (keyOf p) = sndFlow s (keyOf p) := rfl
  have hacked := ackRetired_acked hsack (acked_retire (s := s) (u := heard p.hdr.src (takeRx s p)) (k := keyOf p) p.hdr.ackPsn [] rfl rfl rfl rfl
    hst hun hm)
  rw [hsame] at hacked
  rw [ack_of_open ht hl (by rw [hsame, hst]; simp), hacked.settled, ite_self]
  exact hacked

end

/-- Settles O42: the packet by its checks, the timer by the state of its flow. -/
theorem dataMoves : Obligations.DataMoves := by
  refine ⟨?write, ?broken, ?read, ?ack, ?nack, ?timers⟩
  case write =>
    intro s p hs he hwf hb hr a n o u
    refine ⟨fun hlen hlast hon => ?_, fun hlen => ?_⟩
    · have hfit : WriteFits s p := ⟨hlen, hlast, hon⟩
      refine ⟨fun hmay => ?_, fun hmay hwait hopen hbr hp => ⟨?_, fun i hi => ?_, ?_⟩⟩
      · exact net_of (bulkWrite p) s _ hs (bulkWrite_of_denied hb hr hfit hmay) ((rejectWrite_ended u p 5 (by simp) (by simp)).trans he) (by simp [u])
      · obtain ⟨hframe, -⟩ := writeMem_frame hp
        have hended : (writeMem u (a + o) p.payload).1.ended = u.ended := writeMem_ended u _ _
        exact net_of (bulkWrite p) s _ hs (bulkWrite_of_granted hb hr hfit hmay hwait hopen hbr hp) (hended.trans he) (by simp [u])
      · exact memGet_writeMem_outside u (a + o) p.payload i hwf hi
      · obtain ⟨-, hmem⟩ := writeMem_whole u (a + o) p.payload hp
        unfold peek
        rw [hmem]
        exact memRead_memWrite memFill s.mem _ _ hwf
    · exact net_of (bulkWrite p) s _ hs (bulkWrite_of_misfit hb hr hlen) ((rejectWrite_ended u p 6 (by simp) (by simp)).trans he) (by simp [u])
  case broken =>
    intro s p x a n code h3 h4
    refine ⟨fun hl => ⟨_, rejectWrite_of_more s h3 h4 hl, ?_, rfl⟩, fun h => ?_⟩
    · rw [rcvFlow_putRcv_same]
      simp
    · rw [endWrite_of_broken x a n h]
      exact ⟨rfl, rfl, rfl⟩
  case read =>
    intro s p hs hb hr hpay a n u hon hmay hread
    exact net_deliver (readReq p) s _ hs (readReq_of_granted hb hr hpay hon hmay hread) (by simp [u])
  case ack =>
    intro s p hs ht hl k hst hun hm hsack he
    have h := ack_acked ht hl hst hun hm hsack
    exact ⟨ack p s, net_of (ack p) s _ hs rfl (h.ended.trans he) h.pwr, h.una, h.st, h.mem, h.queues⟩
  case nack =>
    intro s p q hs ht hl k u hq
    refine ⟨fun hc hnew => ?_, fun hc => ?_⟩
    · exact net_deliver (nack p) s _ hs (nack_of_slow ht hl hq hc hnew) (by simp [u])
    · exact net_deliver (nack p) s _ hs (nack_of_refused ht hl hq hc) (by simp [u])
  case timers =>
    intro s k seq psn hs
    refine ⟨?_, fun hany hr hsack => ?_, fun h => ?_, fun hst he => ?_, fun hst he => ?_⟩
    · exact net_deliver (nackResend k seq) s _ hs rfl (by simp)
    · exact net_deliver (retxTimeout k psn) s _ hs (retxTimeout_of_due hany hr hsack) (by simp)
    · exact serving_of (ackTimer k) s _ hs (if_pos (by simpa using h)) (by simp)
    · exact serving_of (rateIncrease k) s _ hs (rateIncrease_of_cut hst he) (by simp)
    · exact serving_of (rateIncrease k) s _ hs (rateIncrease_of_clear hst he) (by simp)

end Sys2Proof.Machine
end

section
/-! PROOFS. Fjorum peers become suspect, lost and are re-admitted (R295, R297, R353, R354, R426). -/
namespace Sys2Proof.Machine

/-! ### The loss of a peer -/

section
variable {s : State} {dev : Nat}

/-- The flows of a list of keys fail. -/
def failFlows (ks : List FlowKey) (st : Nat) (s : State) : State := ks.foldl (fun t k => failFlow t k st) s

theorem failFlows_mem (ks : List FlowKey) (st : Nat) (s : State) : (failFlows ks st s).mem = s.mem :=
  foldl_proj State.mem _ (fun t (k : FlowKey) => failFlow_mem t k st) ks s

theorem failFlows_keeps_closed {k : FlowKey} (ks : List FlowKey) (st : Nat) (s : State) (h : (sndFlow s k).st = .closed) :
    (sndFlow (failFlows ks st s) k).st = .closed := by
  induction ks generalizing s with
  | nil => exact h
  | cons j ks ih =>
    refine ih _ ?_
    rw [sndFlow_failFlow]
    split
    · rfl
    · exact h

theorem failFlows_closes {k : FlowKey} {ks : List FlowKey} (st : Nat) (s : State) (h : k ∈ ks) : (sndFlow (failFlows ks st s) k).st = .closed := by
  induction ks generalizing s with
  | nil => exact absurd h (by simp)
  | cons j ks ih =>
    rcases List.mem_cons.mp h with rfl | h
    · refine failFlows_keeps_closed ks st _ ?_
      rw [sndFlow_failFlow, if_pos rfl]
      rfl
    · exact ih _ h

/-- The keys of the flows to a peer. -/
def keysTo (s : State) (dev : Nat) : List FlowKey := (s.snd.map (·.1)).filter (fun k => k.peer = dev)

/-- What the loss of a peer leaves of the flows and of what was received. -/
def dropPeer (dev : Nat) (s : State) : State :=
  let t := failFlows (keysTo s dev) stPeerLost s
  { t with rcv := t.rcv.filter (fun e => e.1.peer ≠ dev), rxq := t.rxq.filter (fun p => p.hdr.src ≠ dev) }

theorem losePeer_of_held (h : (s.peer dev).st ≠ .lost) : ∃ d b, losePeer s dev = ffEvent 0x0121 3 d dev none b
    (((dropPeer dev s).modPeer dev (fun p => { p with st := .lost, readmit := none })).modLink d (fun l => { l with lost := bump l.lost 1 })) := by
  unfold losePeer
  rw [if_neg h]
  exact ⟨_, _, rfl⟩

/-- A lost peer: its record, the memory, and what is left of its flows and packets. -/
theorem losePeer_lost (h : (s.peer dev).st ≠ .lost) : ((losePeer s dev).peer dev).st = .lost ∧ (losePeer s dev).mem = s.mem ∧
    (losePeer s dev).rcv = (dropPeer dev s).rcv ∧ (losePeer s dev).rxq = (dropPeer dev s).rxq ∧ (losePeer s dev).snd = (dropPeer dev s).snd := by
  obtain ⟨d, b, heq⟩ := losePeer_of_held h
  rw [heq, ffEvent_peer, ffEvent_mem, ffEvent_rcv, ffEvent_rxq, ffEvent_snd]
  exact ⟨by simp, failFlows_mem _ _ s, rfl, rfl, rfl⟩

end

/-! ### Heartbeats and re-admission -/

theorem beatBytes_length {s : State} (h : waits s = []) : (beatBytes s).length = 48 := by
  simp [beatBytes, h]

section
variable {s : State} {p : FjPkt} {dev : Nat}

theorem heartbeat_eq (ht : p.hdr.ty = 8) : heartbeat p s = withInc p (leAt p.payload 0 4) (fun u => u.modPeer p.hdr.src (fun q => { q with
    health := leAt p.payload 4 2, hstate := leAt p.payload 6 1, stalled := bit (leAt p.payload 7 1) 0, beat := leAt p.payload 8 4,
    markers := [markerOf (slice p.payload 16 16), markerOf (slice p.payload 32 16)].filter (fun m => m.jobTag ≠ 0) })) (takeRx s p) :=
  if_neg (by simp [ht])

/-- The peer is in service: UP or SUSPECT. -/
def peerServes (s : State) (dev : Nat) : Prop := (s.peer dev).st = .up ∨ (s.peer dev).st = .suspect

theorem heartbeatTimer_of_served (h : peerServes s dev) :
    heartbeatTimer dev s = sendBare s { peer := dev, cls := 0, flow := 0 } 8 [] (beatBytes s) :=
  if_pos (by simpa [peerServes] using h)

theorem peerLost_of_served (h : peerServes s dev) : peerLost dev s = peerDown dev s := if_pos (by simpa [peerServes] using h)

theorem endReadmit_of_running {st inc : Nat} (result : Nat) (h : (s.peer dev).readmit = some (st, inc)) : endReadmit dev result s =
    ffEvent 0x0125 2 (peerDie s dev) dev none (le 4 inc ++ le 1 result) (s.modPeer dev (fun p => { p with readmit := none })) := by
  simp only [endReadmit, h]

theorem readmissionRequest_of_operator {session : Nat} (ho : isOperator s session = true) (hl : (s.peer dev).st = .lost)
    (hr : (s.peer dev).readmit = none) : readmissionRequest session dev s =
      answer 354 stOk [] (startReadmit dev (max (s.peer dev).inc (s.peer dev).tried) s) := by
  unfold readmissionRequest
  dsimp only
  rw [if_neg (by simp [ho]), if_neg (by simp [hl, hr])]

end

/-- Settles O43: the heartbeat by its sender's incarnation, the loss of a peer by what it leaves, re-admission by its run. -/
theorem peersComeAndGo : Obligations.PeersComeAndGo := by
  refine ⟨?beat, ?timers, fun s h => beatBytes_length h, ?suspect, ?lost, ?answers, ?spdm, ?timeout, ?request⟩
  case beat =>
    intro s p inc hs he ht hinc hcur
    subst hinc
    exact net_of (heartbeat p) s _ hs (by rw [heartbeat_eq ht, withInc_of_current hcur]) he rfl
  case timers =>
    intro s dev hs h
    exact ⟨serving_of (heartbeatTimer dev) s _ hs (heartbeatTimer_of_served h) (by simp),
      net_deliver (peerLost dev) s _ hs (peerLost_of_served h) (by simp)⟩
  case suspect =>
    intro s dev hs h
    exact serving_of (peerSuspect dev) s _ hs (if_neg (by simp [h])) (by simp)
  case lost =>
    intro s dev h
    obtain ⟨hst, hmem, hrcv, hrxq, hsnd⟩ := losePeer_lost h
    refine ⟨hst, hmem, fun e he => ?_, fun p hp => ?_, fun k hk hpeer => ?_⟩
    · rw [hrcv] at he
      simpa using (List.mem_filter.mp he).2
    · rw [hrxq] at hp
      simpa using (List.mem_filter.mp hp).2
    · unfold sndFlow
      rw [hsnd]
      exact failFlows_closes stPeerLost s (List.mem_filter.mpr ⟨hk, by simp [hpeer]⟩)
  case answers =>
    intro s p hs he hl
    refine ⟨fun ht => ?_, fun ht => ?_, fun ht => ?_⟩
    · exact net_of (ack p) s _ hs (by unfold ack; rw [if_neg (by simp [ht]), fromPeer_of_lost hl]) (by simp [he]) (by simp)
    · exact net_of (nack p) s _ hs (by unfold nack; rw [if_neg (by simp [ht]), fromPeer_of_lost hl]) (by simp [he]) (by simp)
    · exact net_of (fjClose p) s _ hs (by unfold fjClose; rw [if_neg (by simp [ht]), fromPeer_of_lost hl]) (by simp [he]) (by simp)
  case spdm =>
    intro s dev code fields data hl
    exact if_pos hl
  case timeout =>
    intro s dev st inc hs h
    exact serving_of (endReadmit dev 3) s _ hs (endReadmit_of_running 3 h) (by simp)
  case request =>
    intro s session dev hs
    refine ⟨fun ho hl hr => ?_, fun ho => ?_⟩
    · exact serving_of (readmissionRequest session dev) s _ hs (readmissionRequest_of_operator ho hl hr) (by simp [startReadmit])
    · exact serving_of (readmissionRequest session dev) s _ hs (if_pos (by simp [ho])) (by simp)

end Sys2Proof.Machine
end

section
/-! PROOFS. Ethernet frames, Fjorum delivery, ARP, Neighbor Discovery and echo (R275 to R277, R279, R283 to R285, R287, R288, R292, R298). -/
namespace Sys2Proof.Machine

/-! ### What sending changes -/

section
variable (s : State)

theorem leave_frame (l pri : Nat) (m : OutMsg) : { leave l pri m s with ports := s.ports, sent := s.sent } = s := by
  unfold leave
  dsimp only
  split <;> rfl

theorem sendFrame_frame (l pri : Nat) (m : OutMsg) : { sendFrame l pri m s with ports := s.ports, links := s.links, sent := s.sent } = s := by
  unfold sendFrame
  dsimp only
  split
  · split <;> rfl
  · have h := leave_frame s l pri m
    exact congrArg (fun t : State => { t with ports := s.ports, links := s.links, sent := s.sent }) h

theorem wire_frame (path : Nat) (p : FjPkt) :
    { wire s path p with ports := s.ports, links := s.links, peers := s.peers, sent := s.sent } = s := by
  unfold wire
  split
  · rfl
  · have h := sendFrame_frame s
    exact congrArg (fun t : State => { t with ports := s.ports, links := s.links, peers := s.peers, sent := s.sent }) (h _ _ _)

theorem wire_rxq (path : Nat) (p : FjPkt) : (wire s path p).rxq = s.rxq := by
  have h := congrArg State.rxq (wire_frame s path p)
  exact h

end

/-! ### Arrival of data -/

section
variable {s : State} {p : FjPkt}

theorem countArrival_rxq (p : FjPkt) (k : FlowKey) (s : State) : (countArrival p k s).rxq = s.rxq := by
  unfold countArrival
  dsimp only
  split
  · unfold sendAck
    dsimp only
    rw [putRcv_rxq, wire_rxq, putRcv_rxq]
  · rfl

theorem release_of_empty (n : Nat) (k : FlowKey) (h : (rcvFlow s k).buffer = []) : release n k s = s := by
  cases n with
  | zero => rfl
  | succ n => simp only [release, h, List.find?_nil]

/-- A packet that comes next is released alone. -/
theorem release_of_next (n : Nat) {k : FlowKey} (hb : (rcvFlow s k).buffer = [p]) (hn : p.hdr.psn = (rcvFlow s k).ackPsn) :
    (release (n + 1) k s).rxq = s.rxq ++ [p] := by
  simp only [release, hb]
  rw [List.find?_cons_of_pos (by simp [hn])]
  dsimp only
  rw [release_of_empty, putRcv_rxq]
  rw [rcvFlow_putRcv_same]
  simp

theorem dataArrives_next (hre : (rcvFlow s (keyOf p)).reoffer = []) (hgot : (rcvFlow s (keyOf p)).got = [])
    (hbuf : (rcvFlow s (keyOf p)).buffer = []) (hn : p.hdr.psn = (rcvFlow s (keyOf p)).ackPsn) : (dataArrives p s).rxq = s.rxq ++ [p] := by
  unfold dataArrives
  dsimp only
  have hlt : serLt p.hdr.psn (rcvFlow s (keyOf p)).ackPsn = false := by simp [serLt, hn]
  rw [if_neg (by simp [hre]), if_neg (by rw [hlt, hgot]; simp), if_neg (by rw [← hn]; simp), countArrival_rxq,
    release_of_next 256 (p := p) (by rw [rcvFlow_putRcv_same]; simp [hbuf]) (by rw [rcvFlow_putRcv_same]; exact hn), putRcv_rxq]

theorem dataArrives_again (hre : (rcvFlow s (keyOf p)).reoffer = []) (hlt : serLt p.hdr.psn (rcvFlow s (keyOf p)).ackPsn = true) :
    (dataArrives p s).rxq = s.rxq := by
  unfold dataArrives
  dsimp only
  rw [if_neg (by simp [hre]), if_pos (by simp [hlt])]
  unfold sendAck
  dsimp only
  rw [putRcv_rxq, wire_rxq, putRcv_rxq]

theorem noteCe_unmarked (p : FjPkt) (l : Nat) (s : State) : noteCe p false l s = s := rfl

theorem noteCe_counts (ht : p.hdr.ty = 1) (l : Nat) : ((noteCe p true l s).link (dieOfLane l)).ceRx = bump (s.link (dieOfLane l)).ceRx 1 := by
  unfold noteCe
  rw [if_neg (by simp [ht])]
  dsimp only
  split <;> simp

theorem noteCe_ece (ht : p.hdr.ty = 1) (l : Nat) (ho : (rcvFlow s (keyOf p)).isOpen = true) :
    (rcvFlow (noteCe p true l s) (keyOf p)).ece = true := by
  unfold noteCe
  rw [if_neg (by simp [ht])]
  dsimp only
  split
  · rw [rcvFlow_putRcv_same]
  · rename_i hclosed
    exact absurd ho hclosed

end

/-! ### Frames that leave and arrive -/

theorem txHdr_packet_sec (s : State) (l pri sport : Nat) (dst : Bytes) (p : FjPkt) : (txHdr s l pri (.packet l sport dst p)).sec =
    if s.plate.macsec = 0 then none else (s.port l).sa.map (fun a => (a.an, a.pn, s.plate.cipher)) := by
  simp [txHdr, OutMsg.isMka]

theorem leave_counts {s : State} {l pri sport : Nat} {dst : Bytes} {p : FjPkt} {a : Sa} (hm : s.plate.macsec ≠ 0) (ha : (s.port l).sa = some a) :
    ((leave l pri (.packet l sport dst p) s).port l).sa = some { a with pn := a.pn + 1 } := by
  unfold leave
  dsimp only
  rw [if_pos (by rw [txHdr_packet_sec, if_neg hm, ha]; rfl)]
  simp [ha]

/-- A sub-port that takes frames: present and up, its die there and not in reset. -/
structure PortTakes (s : State) (l : Nat) : Prop where
  present : (s.port l).present = true
  up : (s.port l).linkUp = true
  die : fenced s (dieOfLane l) = false
  live : (s.link (dieOfLane l)).resetting = false

section
variable {s : State} {l : Nat} {fr : Frame}

theorem frameReceive_of_bad (h : PortTakes s l) (hbad : fr.fcsOk = false ∨ 9216 < fr.len) : frameReceive l fr s = countDrop (dieOfLane l) 1 s := by
  obtain ⟨hp, hu, hd, hr⟩ := h
  unfold frameReceive
  dsimp only
  rw [if_neg (by simp [hp, hu, hd, hr]), if_pos (by rcases hbad with hb | hb <;> simp [hb])]

theorem frameReceive_of_secured {why : Nat} (h : PortTakes s l) (hf : fr.fcsOk = true) (hlen : fr.len ≤ 9216) (hw : secDrop s l fr = some why) :
    frameReceive l fr s = countDrop (dieOfLane l) why s := by
  obtain ⟨hp, hu, hd, hr⟩ := h
  simp only [frameReceive, hw]
  rw [if_neg (by simp [hp, hu, hd, hr]), if_neg (by simp [hf, hlen])]

theorem frameReceive_of_fjorum {ce : Bool} {b : Bytes} (hs : s.Serving) (h : PortTakes s l) (hf : fr.fcsOk = true) (hlen : fr.len ≤ 9216)
    (hw : secDrop s l fr = none) (hb : fr.body = .fjorum true ce b) :
    frameReceive l fr s = packetArrives b ce l (maybeXoff l (classOf (noteSa l fr s) fr) (noteSa l fr s)) := by
  obtain ⟨hp, hu, hd, hr⟩ := h
  have hon : (maybeXoff l (classOf (noteSa l fr s) fr) (noteSa l fr s)).pwr.st = .on := by
    rw [maybeXoff_pwr, noteSa_pwr]
    exact hs
  simp only [frameReceive, hw, hb]
  rw [if_neg (by simp [hp, hu, hd, hr]), if_neg (by simp [hf, hlen]), if_neg (by simp), if_pos hon]

/-! ### ARP, Neighbor Discovery and echo -/

theorem arpRequest_of_own {ip : Nat} (mac : Nat) (ht : mayTalk s l = true) (ho : ownAddr s l (be 4 ip) = true) :
    arpRequest l ip mac s = sendFrame l 6 (.frame l 2 [ip, mac] []) s :=
  if_pos (by simp [ht, ho])

theorem arpRequest_of_other {ip : Nat} (mac : Nat) (ho : ownAddr s l (be 4 ip) = false) : arpRequest l ip mac s = s := if_neg (by simp [ho])

theorem neighborSolicitation_of_own {ip : Nat} (mac : Nat) (ht : mayTalk s l = true) (ho : ownAddr s l (be 16 ip) = true) :
    neighborSolicitation l ip mac s = sendFrame l 6 (.frame l 3 [ip, mac] []) s :=
  if_pos (by simp [ht, ho])

theorem neighborSolicitation_of_other {ip : Nat} (mac : Nat) (ho : ownAddr s l (be 16 ip) = false) : neighborSolicitation l ip mac s = s :=
  if_neg (by simp [ho])

/-- The echoes that a sub-port has answered in the running second. -/
def echoesNow (s : State) (l : Nat) : Nat := if (s.port l).echoSec = s.clk / clkS then (s.port l).echoes else 0

theorem echoRequest_of_few {ip : Nat} {v6 : Bool} (data : Bytes) (ht : mayTalk s l = true) (ho : ownAddr s l (be (if v6 then 16 else 4) ip) = true)
    (hn : echoesNow s l < 100) : echoRequest l v6 ip data s = sendFrame l 6 (.frame l 4 [b2n v6, ip] data)
      (s.modPort l (fun k => { k with echoes := echoesNow s l + 1, echoSec := s.clk / clkS })) :=
  if_neg (by rw [ht, ho]; simpa [echoesNow] using hn)

theorem echoRequest_of_many (ip : Nat) (v6 : Bool) (data : Bytes) (hn : 100 ≤ echoesNow s l) : echoRequest l v6 ip data s = s :=
  if_pos (by rw [Bool.or_eq_true]; exact .inr (decide_eq_true hn))

end

/-- Settles O45: the frame by its checks, the packet by its number, the request by its address. -/
theorem framesArrive : Obligations.FramesArrive := by
  refine ⟨?leaves, ?ce, ?dropped, ?fjorum, ?data, ?address, ?echo⟩
  case leaves =>
    intro s l pri sport dst p w hw
    subst hw
    have hsec := txHdr_packet_sec s l pri sport dst p
    refine ⟨rfl, rfl, rfl, rfl, rfl, rfl, rfl, rfl, fun hm => ?_, fun a hm ha => ⟨?_, leave_counts hm ha⟩⟩
    · rw [hsec, if_pos hm]
    · rw [hsec, if_neg hm, ha]
      rfl
  case ce =>
    intro s p l ht
    exact ⟨noteCe_counts ht l, noteCe_ece ht l, noteCe_unmarked p l s⟩
  case dropped =>
    intro s l fr hs he hp hu hd hr
    have hport : PortTakes s l := ⟨hp, hu, hd, hr⟩
    have hquiet (why : Nat) : deliver 65536 (countDrop (dieOfLane l) why s) = countDrop (dieOfLane l) why s := deliver_quiet _ _ he
    refine ⟨fun hbad => ?_, fun why hf hlen hw => ?_⟩
    · exact powered_of (fun t => deliver 65536 (frameReceive l fr t)) s _ hs (by rw [frameReceive_of_bad hport hbad, hquiet]) (by simp)
    · exact powered_of (fun t => deliver 65536 (frameReceive l fr t)) s _ hs (by rw [frameReceive_of_secured hport hf hlen hw, hquiet])
        (by simp)
  case fjorum =>
    intro s l fr ce b hs hp hu hd hr hf hlen hw hb
    have hlit : s.pwr.st.isDark = false := by rw [show s.pwr.st = .on from hs]; rfl
    refine powered_of (fun t => deliver 65536 (frameReceive l fr t)) s _ hlit ?_ (by simp)
    rw [frameReceive_of_fjorum hs ⟨hp, hu, hd, hr⟩ hf hlen hw hb]
  case data =>
    intro s p hre hgot hbuf
    exact ⟨fun hn _ => dataArrives_next hre hgot hbuf hn, fun hlt => dataArrives_again hre hlt⟩
  case address =>
    intro s l ip mac hs ht
    exact ⟨fun ho => powered_of (arpRequest l ip mac) s _ hs (arpRequest_of_own mac ht ho) (by simp),
      fun ho => powered_of (arpRequest l ip mac) s _ hs (arpRequest_of_other mac ho) rfl,
      fun ho => powered_of (neighborSolicitation l ip mac) s _ hs (neighborSolicitation_of_own mac ht ho) (by simp),
      fun ho => powered_of (neighborSolicitation l ip mac) s _ hs (neighborSolicitation_of_other mac ho) rfl⟩
  case echo =>
    intro s l ip n v6 data hs ht ho hn
    subst hn
    exact ⟨fun h => powered_of (echoRequest l v6 ip data) s _ hs (echoRequest_of_few data ht ho h) (by simp),
      fun h => powered_of (echoRequest l v6 ip data) s _ hs (echoRequest_of_many ip v6 data h) rfl⟩

end Sys2Proof.Machine
end

section
/-! PROOFS. Priority flow control and MACsec keys (R278, R284 to R286, R300, R489). -/
namespace Sys2Proof.Machine

/-! ### Priorities of a sub-port -/

theorem pris_modPri (s : State) (l j : Nat) (f : Pri → Pri) : ((modPri l j f s).port l).pris = modAt (s.port l).pris j f := by
  unfold modPri
  rw [State.port_modPort_same]

theorem priOf_modPri {s : State} {l i : Nat} (j : Nat) (f : Pri → Pri) (hi : i < (s.port l).pris.length) :
    priOf (modPri l j f s) l i = if i = j then f (priOf s l i) else priOf s l i := by
  unfold priOf
  rw [pris_modPri, modAt, List.getElem?_modify, List.getElem?_eq_getElem hi]
  by_cases h : i = j
  · simp [h]
  · simp [h, Ne.symm h]

/-- A PAUSE with quanta other than zero stands for a priority. -/
def pausedBy (quanta : List Nat) (i : Nat) (r : Pri) : Pri := { r with paused := true, quanta := quanta.getD i 0 }

/-- The priorities of a list are paused. -/
def pauseAll (l : Nat) (quanta is : List Nat) (s : State) : State := is.foldl (fun t i => modPri l i (pausedBy quanta i) t) s

theorem pauseAll_pwr (l : Nat) (quanta is : List Nat) (s : State) : (pauseAll l quanta is s).pwr = s.pwr :=
  foldl_proj State.pwr _ (fun t (i : Nat) => modPri_pwr l i _ t) is s

theorem priOf_pauseAll {l i : Nat} (quanta is : List Nat) (s : State) (hi : i < (s.port l).pris.length) :
    priOf (pauseAll l quanta is s) l i = if i ∈ is then pausedBy quanta i (priOf s l i) else priOf s l i := by
  induction is generalizing s with
  | nil => rfl
  | cons j is ih =>
    have hlen : i < ((modPri l j (pausedBy quanta j) s).port l).pris.length := by
      rw [pris_modPri, modAt, List.length_modify]
      exact hi
    refine (ih _ hlen).trans ?_
    rw [priOf_modPri j _ hi]
    by_cases h : i = j
    · subst h
      simp [pausedBy]
    · simp [h]

/-! ### The order of service -/

theorem serveOrder_eq (s : State) (w : Nat → List OutMsg) : ∃ rest, serveOrder s w =
    ((w 7).filter (·.isLc) ++ (w 7).filter (fun m => !m.isLc)).map (fun m => (7, m)) ++
      ((w 6).filter (·.isLc) ++ (w 6).filter (fun m => !m.isLc)).map (fun m => (6, m)) ++ rest := by
  unfold serveOrder
  dsimp only
  simp only [List.append_assoc]
  exact ⟨_, rfl⟩

theorem serveOrder_nil (s : State) {w : Nat → List OutMsg} (h : ∀ i, w i = []) : serveOrder s w = [] := by
  simp [serveOrder, h, drr]

theorem unpauseAll_of_quiet {s : State} {l : Nat} {pris : List Nat} (h : ∀ i ∈ pris, (priOf s l i).held = []) : unpauseAll l pris s =
    pris.foldl (fun t i => modPri l i (fun q => { q with paused := false, quanta := 0, held := [] }) t) s := by
  unfold unpauseAll
  rw [serveOrder_nil, List.foldl_nil]
  intro i
  split
  · rename_i hi
    exact h i (by simpa using hi)
  · rfl

/-! ### PAUSE -/

section
variable {s : State} {l i : Nat}

theorem pfcFrame_of_up {mask : Nat} {quanta : List Nat} (hu : (s.port l).linkUp = true) : pfcFrame l mask quanta s =
    unpauseAll l (((List.range 8).filter (fun i => bit mask i && bit s.plate.pfcMask.toNat i)).filter (fun i => quanta.getD i 0 = 0))
      (pauseAll l quanta (((List.range 8).filter (fun i => bit mask i && bit s.plate.pfcMask.toNat i)).filter (fun i => quanta.getD i 0 ≠ 0)) s) :=
  if_neg (by simp [hu])

theorem pfcFrame_of_quanta {mask : Nat} {quanta : List Nat} (hu : (s.port l).linkUp = true) (hq : ∀ j, j < 8 → quanta.getD j 0 ≠ 0) :
    pfcFrame l mask quanta s = pauseAll l quanta ((List.range 8).filter (fun i => bit mask i && bit s.plate.pfcMask.toNat i)) s := by
  have hq' : ∀ j ∈ (List.range 8).filter (fun i => bit mask i && bit s.plate.pfcMask.toNat i), quanta.getD j 0 ≠ 0 := fun j hj =>
    hq j (List.mem_range.mp (List.mem_filter.mp hj).1)
  have hnone : ((List.range 8).filter (fun i => bit mask i && bit s.plate.pfcMask.toNat i)).filter (fun i => quanta.getD i 0 = 0) = [] :=
    List.filter_eq_nil_iff.mpr (fun j hj => by simpa using hq' j hj)
  have hall : ((List.range 8).filter (fun i => bit mask i && bit s.plate.pfcMask.toNat i)).filter (fun i => quanta.getD i 0 ≠ 0) =
      (List.range 8).filter (fun i => bit mask i && bit s.plate.pfcMask.toNat i) :=
    List.filter_eq_self.mpr (fun j hj => by simpa using hq' j hj)
  rw [pfcFrame_of_up hu, hnone, hall, unpauseAll_of_quiet (by simp), List.foldl_nil]

theorem pfcWdog_of_paused (h : (priOf s l i).paused = true) :
    pfcWdog l i s = ffEvent 0x0124 3 (dieOfLane l) l none (le 1 i) (countHeld l i s) :=
  if_neg (by simp [h])

theorem sendFrame_of_paused {m : OutMsg} (hb : bit s.plate.pfcMask.toNat i = true) (hp : (((s.port l).pris[i]?).getD {}).paused = true)
    (hi : (((s.port l).pris[i]?).getD {}).ignoring s = false) :
    sendFrame l i m s = s.modPort l (fun k => { k with pris := modAt k.pris i (fun q => { q with held := q.held ++ [m] }) }) := by
  unfold sendFrame
  dsimp only
  rw [if_pos (by simp [hb, hp]), if_neg (by simp [hi])]

end

/-! ### MACsec keys -/

section
variable {s : State} {l : Nat} {m : MkaMsg}

theorem mkaFrame_of_false (h : m.icvOk = false) : mkaFrame l m s = s := if_pos (by simp [h])

section
variable (hu : (s.port l).linkUp = true) (hm : s.plate.macsec ≠ 0) (hc : cakOf s l ≠ none) (hi : m.icvOk = true) (hl : m.live = true)
include hu hm hc hi hl

theorem mkaFrame_of_sak {an key : Nat} (hk : m.sak = some (an, key)) (hs : m.keyServer = true) :
    mkaFrame l m s = installSa l an key (s.modPort l (fun k => { k with mkaPeer := some m.peerMi, mkaClk := s.clk, server := false })) := by
  simp only [mkaFrame, hk, hs, hl]
  rw [if_neg (by simp [hu, hm, hc, hi])]
  simp

theorem mkaFrame_of_server (hk : m.sak = none) (hs : m.keyServer = false) (ha : (s.port l).sa = none) :
    mkaFrame l m s = newSak l (s.modPort l (fun k => { k with mkaPeer := some m.peerMi, mkaClk := s.clk, server := true })) := by
  simp only [mkaFrame, hk, hs, hl, ha]
  rw [if_neg (by simp [hu, hm, hc, hi])]
  simp

end

theorem mkaHello_of_keyed (hu : (s.port l).linkUp = true) (hm : s.plate.macsec ≠ 0) (hc : cakOf s l ≠ none) :
    mkaHello l s = sendMka l [0, (s.port l).mkaPeer.getD 0, b2n (s.port l).server] s :=
  if_pos (by simp [hu, hm, Option.isSome_iff_ne_none.mpr hc])

theorem sakDistribution_of_server {a : Sa} (hu : (s.port l).linkUp = true) (hs : (s.port l).server = true) (ha : (s.port l).sa = some a)
    (hp : (s.port l).mkaPeer.isSome = true) : sakDistribution l s = if renewAt s ≤ a.pn then newSak l s else s := by
  unfold sakDistribution
  dsimp only
  simp only [hu, hs, ha, hp, Option.any_some, Bool.true_and, Bool.and_true, decide_eq_true_eq]

theorem mkaLifeExpiry_of_live (hp : (s.port l).mkaPeer.isSome = true) : mkaLifeExpiry l s =
    if needsSa s l then movePaths l 3 (s.modPort l (fun p => { p with
      mkaPeer := none, server := false, sa := none, oldSa := none, newSeen := false }))
    else s.modPort l (fun p => { p with mkaPeer := none, server := false, sa := none, oldSa := none, newSeen := false }) := by
  have hneed : needsSa (s.modPort l (fun p => { p with mkaPeer := none, server := false, sa := none, oldSa := none, newSeen := false })) l =
      needsSa s l := by
    unfold needsSa
    rw [State.port_modPort_same]
    rfl
  unfold mkaLifeExpiry
  rw [if_neg (by simp [Option.isNone_iff_eq_none, Option.isSome_iff_ne_none.mp hp])]
  dsimp only
  rw [hneed]

end

/-- Settles O46: the priority by its state, the key message by its sender, the timers by the state of the sub-port. -/
theorem pauseAndKeys : Obligations.PauseAndKeys := by
  refine ⟨?pause, ?frame, fun s w => serveOrder_eq s w, ?quiet, fun s l i m hb hp hi => sendFrame_of_paused hb hp hi, ?mka, ?timers⟩
  case pause =>
    intro s l i hs
    refine ⟨fun h => ⟨?_, ?_⟩, fun h => ⟨?_, ?_⟩, fun h => ?_, fun h => ?_⟩
    · exact powered_of (pfcXon l i) s _ hs (if_pos h) rfl
    · exact powered_of (pfcRefresh l i) s _ hs (if_pos h) rfl
    · exact powered_of (pfcXon l i) s _ hs (if_neg (by simp [h])) rfl
    · exact powered_of (pfcRefresh l i) s _ hs (if_neg (by simp [h])) rfl
    · exact powered_of (pauseExpiry l i) s _ hs (if_pos h) (by simp)
    · exact powered_of (pfcWdog l i) s _ hs (pfcWdog_of_paused h) (by simp [countHeld])
  case frame =>
    intro s l mask quanta hs hu
    refine ⟨fun named hn => ?_, fun i hi hlen hq => ⟨_, powered_of (pfcFrame l mask quanta) s _ hs (pfcFrame_of_quanta hu hq) ?_, ?_⟩⟩
    · subst hn
      exact powered_of (pfcFrame l mask quanta) s _ hs (pfcFrame_of_up hu)
        (congrArg Power.st ((unpauseAll_pwr _ _ _).trans (pauseAll_pwr _ _ _ _)))
    · rw [pauseAll_pwr]
    · rw [priOf_pauseAll quanta _ s (by rw [hlen]; exact hi)]
      simp [hi, pausedBy]
  case quiet =>
    intro s l i _ _ _ hheld
    exact unpauseAll_of_quiet (by simpa using hheld)
  case mka =>
    intro s l m hs hu hm hc
    refine ⟨fun h => ?_, fun an key hi hk hsrv hl => ?_, fun hi hk hl hsrv ha => ?_, ?_⟩
    · exact powered_of (mkaFrame l m) s _ hs (mkaFrame_of_false h) rfl
    · exact powered_of (mkaFrame l m) s _ hs (mkaFrame_of_sak hu hm hc hi hl hk hsrv) (by simp)
    · exact powered_of (mkaFrame l m) s _ hs (mkaFrame_of_server hu hm hc hi hl hk hsrv ha) (by simp)
    · exact powered_of (mkaHello l) s _ hs (mkaHello_of_keyed hu hm hc) (by simp)
  case timers =>
    intro s l hs
    refine ⟨fun a hu hsrv ha hp => ⟨fun h => ?_, fun h => ?_⟩, fun h => ?_, fun h => ?_, fun hp hn => ?_, fun hp hn => ?_⟩
    · exact powered_of (sakDistribution l) s _ hs (by rw [sakDistribution_of_server hu hsrv ha hp]; exact if_pos h) (by simp)
    · exact powered_of (sakDistribution l) s _ hs (by rw [sakDistribution_of_server hu hsrv ha hp]; exact if_neg (Nat.not_le.mpr h)) rfl
    · exact powered_of (saAgeOut l) s _ hs (if_pos h) rfl
    · exact powered_of (saAgeOut l) s _ hs (if_neg (by simp [h])) rfl
    · exact powered_of (mkaLifeExpiry l) s _ hs (by rw [mkaLifeExpiry_of_live hp, if_neg (by simp [hn])]) rfl
    · exact powered_of (mkaLifeExpiry l) s _ hs (by rw [mkaLifeExpiry_of_live hp, if_pos hn]) (by simp)

end Sys2Proof.Machine
end

section
/-! PROOFS. PTP and the 1PPS edge (R280 to R283, R287, R319). -/
namespace Sys2Proof.Machine

/-! ### The active PTP sub-port -/

section
variable {s : State} {l : Nat} {f : Nat → State → State}

theorem onPtp_of_unkeyed (hu : (s.port l).linkUp = true) (hn : needsSa s l = true) (ha : (s.port l).sa = none) :
    onPtp l f s = countDrop (dieOfLane l) 2 s := by
  unfold onPtp
  rw [if_neg (by simp [hu]), if_pos (by simp [hn, ha])]

/-- A sub-port that must secure its frames has a secure association. -/
def keyed (s : State) (l : Nat) : Prop := needsSa s l = true → (s.port l).sa.isSome = true

theorem not_unkeyed (h : keyed s l) : ¬ (needsSa s l && (s.port l).sa.isNone) = true := by
  rw [Bool.and_eq_true]
  rintro ⟨hn, ha⟩
  rw [Option.isNone_iff_eq_none] at ha
  simpa [ha] using h hn

theorem onPtp_of_other (hu : (s.port l).linkUp = true) (hk : keyed s l) (hl : (s.link (dieOfLane l)).ptpLane.toNat ≠ l) :
    onPtp l f s = countDrop (dieOfLane l) 9 s := by
  unfold onPtp
  rw [if_neg (by simp [hu]), if_neg (not_unkeyed hk), if_neg hl]

theorem onPtp_of_active (hu : (s.port l).linkUp = true) (hk : keyed s l) (hl : (s.link (dieOfLane l)).ptpLane.toNat = l) :
    onPtp l f s = f (dieOfLane l) s := by
  unfold onPtp
  rw [if_neg (by simp [hu]), if_neg (not_unkeyed hk), if_pos hl]

end

section
variable {s : State} {m : PtpMsg} {d : Nat}

theorem followUpPtp_of_waiting {t2 : Nat} (h : (s.link d).syncWait = some (m.seqId, t2)) :
    followUpPtp m d s = applySync d (16 * m.origin + m.correction) t2 (s.modLink d (fun k => { k with syncWait := none })) := by
  simp only [followUpPtp, h, if_true]
  rfl

theorem delayRespPtp_of_asked (h : (s.link d).delayReq = some m.seqId) : delayRespPtp m d s = s.modLink d (fun k => { k with
    delayReq := none, delay := (((k.t2 : Int) - k.t1) + (16 * (m.origin : Int) - m.correction - k.t3)) / 2 }) :=
  if_neg (by simp [h])

end

/-! ### The servo -/

section
variable (s : State)

theorem leave_link (l pri : Nat) (m : OutMsg) (d : Nat) : (leave l pri m s).link d = s.link d := by
  have h := congrArg (fun t : State => t.link d) (leave_frame s l pri m)
  exact h

/-- A frame that is sent changes of a link die what counts its drops alone. -/
theorem sendFrame_link (l pri : Nat) (m : OutMsg) (d : Nat) :
    ∃ w n, (sendFrame l pri m s).link d = { s.link d with dropWhy := w, dropN := n } := by
  unfold sendFrame
  dsimp only
  split
  · split
    · rw [State.link_modLink]
      split
      · rename_i h
        subst h
        exact ⟨_, _, rfl⟩
      · exact ⟨_, _, rfl⟩
    · exact ⟨_, _, rfl⟩
  · rw [leave_link]
    exact ⟨_, _, rfl⟩

/-- A change of the PTP state changes of a link die that state alone. -/
theorem ptpTo_link (d : Nat) (st : PtpSt) : ∃ st', (ptpTo d st s).link d = { s.link d with ptp := st' } := by
  unfold ptpTo
  dsimp only
  split
  · exact ⟨_, rfl⟩
  · rw [ffEvent_link, State.link_modLink_same]
    exact ⟨_, rfl⟩

end

/-- What a complete Sync gives a link die: the offset, the request for the delay, and the clock without 1PPS. -/
structure Synced (s : State) (d : Nat) (off : Int) (t : State) : Prop where
  offset : (t.link d).offset = sat19 (off / 16)
  asked : (t.link d).delayReq = some (s.link d).reqSeq
  clock : s.plate.ppsEn = false → (t.link d).timeOff = (s.link d).timeOff - off

section
variable {s t u : State} {d : Nat} {off : Int}

theorem Synced.of_link (h : Synced s d off t) (ho : (u.link d).offset = (t.link d).offset) (hr : (u.link d).delayReq = (t.link d).delayReq)
    (hc : (u.link d).timeOff = (t.link d).timeOff) : Synced s d off u :=
  ⟨ho.trans h.offset, hr.trans h.asked, fun hp => hc.trans (h.clock hp)⟩

theorem Synced.sendFrame (h : Synced s d off t) (l pri : Nat) (m : OutMsg) : Synced s d off (sendFrame l pri m t) := by
  obtain ⟨w, n, hl⟩ := sendFrame_link t l pri m d
  exact h.of_link (by rw [hl]) (by rw [hl]) (by rw [hl])

theorem Synced.slave (h : Synced s d off t) : Synced s d off (ptpTo d .slave (t.modLink d (fun l => { l with locked := true, uncertain := false }))) := by
  obtain ⟨st, hl⟩ := ptpTo_link (t.modLink d (fun l => { l with locked := true, uncertain := false })) d .slave
  rw [State.link_modLink_same] at hl
  exact h.of_link (by rw [hl]) (by rw [hl]) (by rw [hl])

theorem Synced.event (h : Synced s d off t) (c v e x : Nat) (y : Option Nat) (b : Bytes) : Synced s d off (ffEvent c v e x y b t) :=
  h.of_link (by rw [ffEvent_link]) (by rw [ffEvent_link]) (by rw [ffEvent_link])

end

/-- The offset that a Sync shows, in 1/16 ns. -/
def syncOff (d : Nat) (t1 : Int) (t2 : Nat) (s : State) : Int := (t2 : Int) - t1 - (s.link d).delay

/-- What the offset is away from a whole second. -/
def syncPart (d : Nat) (t1 : Int) (t2 : Nat) (s : State) : Int := syncOff d t1 t2 s - wholeS (syncOff d t1 t2 s) * tickS

/-- 1PPS governs and the offset is more than 1 µs away from it. -/
def syncMis (d : Nat) (t1 : Int) (t2 : Nat) (s : State) : Bool :=
  (s.plate.ppsEn && (s.link d).ppsPres) && (decide (syncPart d t1 t2 s > 16000) || decide (syncPart d t1 t2 s < -16000))

/-- The Syncs below 100 ns in a row. -/
def syncGood (d : Nat) (t1 : Int) (t2 : Nat) (s : State) : Nat :=
  if decide (-1600 < syncOff d t1 t2 s) && decide (syncOff d t1 t2 s < 1600) then (s.link d).good + 1 else 0

/-- The link die has taken a Sync. -/
def syncTaken (d : Nat) (t1 : Int) (t2 : Nat) (s : State) : State :=
  s.modLink d (fun l => { l with
    offset := sat19 (syncOff d t1 t2 s / 16), good := syncGood d t1 t2 s, t1 := t1, t2 := t2,
    timeOff := l.timeOff - (if s.plate.ppsEn && (s.link d).ppsPres then wholeS (syncOff d t1 t2 s) * tickS else syncOff d t1 t2 s),
    ppsMis := l.ppsMis || syncMis d t1 t2 s, delayReq := some l.reqSeq, t3 := fabricStamp s, reqSeq := (l.reqSeq + 1) % 65536 })

/-- Its Delay_Req has gone out. -/
def syncAsked (d : Nat) (t1 : Int) (t2 : Nat) (s : State) : State :=
  sendFrame (s.link d).ptpLane.toNat 7 (.frame (s.link d).ptpLane.toNat 6 [(s.link d).reqSeq] [])
    (if syncMis d t1 t2 s then
      ffEvent 0x0123 3 d (s.link d).ptpLane.toNat none (le 4 (ofSigned 32 (syncPart d t1 t2 s / 16))) (syncTaken d t1 t2 s)
    else syncTaken d t1 t2 s)

theorem applySync_eq {s : State} {d : Nat} (t1 : Int) (t2 : Nat) (h : (s.link d).ptp = .uncalibrated ∨ (s.link d).ptp = .slave) :
    applySync d t1 t2 s = if (s.link d).ptp = .uncalibrated && decide (syncGood d t1 t2 s ≥ 16) then
      ptpTo d .slave ((syncAsked d t1 t2 s).modLink d (fun l => { l with locked := true, uncertain := false })) else syncAsked d t1 t2 s :=
  if_neg (by rcases h with h | h <;> simp [h])

theorem syncTaken_synced (d : Nat) (t1 : Int) (t2 : Nat) (s : State) : Synced s d (syncOff d t1 t2 s) (syncTaken d t1 t2 s) := by
  refine ⟨?_, ?_, fun hp => ?_⟩ <;> unfold syncTaken <;> rw [State.link_modLink_same]
  dsimp only
  rw [hp, Bool.false_and, if_neg (by simp)]

theorem syncAsked_synced (d : Nat) (t1 : Int) (t2 : Nat) (s : State) : Synced s d (syncOff d t1 t2 s) (syncAsked d t1 t2 s) := by
  refine Synced.sendFrame ?_ _ _ _
  split
  · exact (syncTaken_synced d t1 t2 s).event _ _ _ _ _ _
  · exact syncTaken_synced d t1 t2 s

theorem applySync_synced {s : State} {d t2 : Nat} {t1 : Int} (h : (s.link d).ptp = .uncalibrated ∨ (s.link d).ptp = .slave) :
    Synced s d (syncOff d t1 t2 s) (applySync d t1 t2 s) := by
  rw [applySync_eq t1 t2 h]
  split
  · exact (syncAsked_synced d t1 t2 s).slave
  · exact syncAsked_synced d t1 t2 s

/-! ### HOLDOVER and 1PPS -/

section
variable {s : State} {d : Nat}

theorem enterHoldover_of_alone (h : (s.link d).ptp = .slave) (hb : s.plate.ptpStand = 0x7F) : enterHoldover d s = ptpTo d .holdover s := by
  have hplate : (ptpTo d .holdover s).plate = s.plate := by
    unfold ptpTo
    dsimp only
    split
    · rfl
    · rw [ffEvent_plate, State.modLink_plate]
  unfold enterHoldover
  rw [if_neg (by simp [h])]
  dsimp only
  rw [hplate, if_pos hb]

/-- The edge marks a whole second on both link dies. -/
def ppsMark (ns : Nat) (s : State) : State :=
  [16, 17].foldl (fun t e => if fenced t e then t else t.modLink e (fun k => { k with ppsPres := true, timeOff := k.timeOff - 16 * offSecond ns })) s

theorem ppsEdge_of_near {ns : Nat} (he : s.plate.ppsEn = true) (hlow : -1000 ≤ offSecond ns) (hhigh : offSecond ns ≤ 1000) :
    ppsEdge ns s = ppsMark ns s := by
  unfold ppsEdge
  rw [if_neg (by simp [he])]
  exact if_neg (by simp [hlow, hhigh])

theorem ppsEdge_of_far {ns : Nat} (he : s.plate.ppsEn = true) (h : offSecond ns < -1000 ∨ 1000 < offSecond ns) :
    ppsEdge ns s = ffEvent 0x0123 3 (clockDie s) ((ppsMark ns s).link (clockDie s)).ptpLane.toNat none (le 4 (ofSigned 32 (offSecond ns)))
      ((ppsMark ns s).modLink (clockDie s) (fun l => { l with ppsMis := true })) := by
  unfold ppsEdge
  rw [if_neg (by simp [he])]
  exact if_pos (by rcases h with h | h <;> simp [h])

theorem ppsMark_pwr (ns : Nat) (s : State) : (ppsMark ns s).pwr = s.pwr := by
  refine foldl_proj State.pwr _ (fun t (e : Nat) => ?_) [16, 17] s
  split <;> rfl

end

/-- Settles O47: the message by its sub-port, the servo by the state of its die, the edge by its distance from the second. -/
theorem timeFollowsMaster : Obligations.TimeFollowsMaster := by
  refine ⟨?messages, ?servo, ?states, ?pps⟩
  case messages =>
    intro s l d m hs hd hu
    subst hd
    refine ⟨fun hn ha => ⟨?_, ?_⟩, fun hk hl => ⟨?_, ?_⟩, fun hk hl => ⟨fun h => ?_, fun h => ?_, fun h => ?_, fun t2 h => ?_, fun h => ?_, ?_⟩⟩
    · exact powered_of (onPtp l (announcePtp m)) s _ hs (onPtp_of_unkeyed hu hn ha) rfl
    · exact powered_of (onPtp l (syncPtp m)) s _ hs (onPtp_of_unkeyed hu hn ha) rfl
    · exact powered_of (onPtp l (announcePtp m)) s _ hs (onPtp_of_other hu hk hl) rfl
    · exact powered_of (onPtp l (syncPtp m)) s _ hs (onPtp_of_other hu hk hl) rfl
    · exact powered_of (onPtp l (announcePtp m)) s _ hs ((onPtp_of_active hu hk hl).trans (if_pos (by simpa using h))) (by simp)
    · exact powered_of (onPtp l (syncPtp m)) s _ hs ((onPtp_of_active hu hk hl).trans (if_pos h)) rfl
    · exact powered_of (onPtp l (syncPtp m)) s _ hs ((onPtp_of_active hu hk hl).trans (if_neg (by simp [h]))) (by simp)
    · exact powered_of (onPtp l (followUpPtp m)) s _ hs ((onPtp_of_active hu hk hl).trans (followUpPtp_of_waiting h)) (by simp)
    · exact powered_of (onPtp l (delayRespPtp m)) s _ hs ((onPtp_of_active hu hk hl).trans (delayRespPtp_of_asked h)) rfl
    · exact powered_of (fun t => if (t.link (dieOfLane l)).ptpLane.toNat = l then enterHoldover (dieOfLane l) t else t) s _ hs (if_pos hl) (by simp)
  case servo =>
    intro s d t2 t1 h
    have hsync := applySync_synced (t1 := t1) (t2 := t2) h
    exact ⟨hsync.offset, hsync.asked, hsync.clock⟩
  case states =>
    intro s d hs
    refine ⟨fun h => ?_, fun hd hf => ?_, fun h hb => enterHoldover_of_alone h hb, fun h => if_pos h⟩
    · exact powered_of (fun t => if (t.link d).ptp = .holdover then t.modLink d (fun k => { k with uncertain := true }) else t) s _ hs (if_pos h) rfl
    · exact powered_of (ptpFault d) s _ hs (if_neg (by rcases hd with rfl | rfl <;> simp [hf])) (by simp)
  case pps =>
    intro s hs he
    refine ⟨?_, fun ns hlow hhigh => ?_, fun ns d hd h => ?_⟩
    · exact powered_of ppsLoss s _ hs (if_neg (by simp [he])) rfl
    · exact powered_of (ppsEdge ns) s _ hs (ppsEdge_of_near he hlow hhigh) (congrArg Power.st (ppsMark_pwr ns s))
    · subst hd
      refine ⟨_, powered_of (ppsEdge ns) s _ hs (ppsEdge_of_far he h) ?_, ?_⟩
      · rw [ffEvent_pwr, State.modLink_pwr, ppsMark_pwr]
      · rw [ffEvent_link, State.link_modLink_same]

end Sys2Proof.Machine
end

section
/-! PROOFS. Sub-ports and fabric links (R24 to R26, R301, R416, R514). -/
namespace Sys2Proof.Machine

/-! ### A sub-port that goes down -/

section
variable {α : Type} (P : State → α)

theorem movePaths_proj (hput : ∀ t k f, P (putSnd t k f) = P t) (htr : ∀ t c d u x b, P (ffTrace c d u x b t) = P t) (l why : Nat) (s : State) :
    P (movePaths l why s) = P s := by
  unfold movePaths
  refine foldl_proj P _ (fun t (e : FlowKey × SndFlow) => ?_) s.snd s
  dsimp only
  split
  · split
    · split
      · split
        · rfl
        · rw [htr, hput]
      · rfl
    · rfl
  · rfl

theorem ptpTo_proj (hlink : ∀ t d f, P (State.modLink t d f) = P t) (hev : ∀ t c v d u x b, P (ffEvent c v d u x b t) = P t) (d : Nat) (st : PtpSt)
    (s : State) : P (ptpTo d st s) = P s := by
  unfold ptpTo
  dsimp only
  split
  · rfl
  · rw [hev, hlink]

theorem enterHoldover_proj (hlink : ∀ t d f, P (State.modLink t d f) = P t) (hev : ∀ t c v d u x b, P (ffEvent c v d u x b t) = P t) (d : Nat)
    (s : State) : P (enterHoldover d s) = P s := by
  unfold enterHoldover
  dsimp only
  split
  · rfl
  · split
    · exact ptpTo_proj P hlink hev _ _ _
    · split
      · rw [hlink, ptpTo_proj P hlink hev]
      · rw [hlink, hlink, ptpTo_proj P hlink hev]

/-- The record of a sub-port that has gone down. -/
def downPort (p : SubPort) : SubPort :=
  { p with
    linkUp := false, training := true, sa := none, oldSa := none, newSeen := false, secured := false, mkaPeer := none, server := false,
    pris := p.pris.map (fun _ => {}) }

/-- What neither flows, traces, events nor link dies decide is, after a sub-port has gone down, what its new record makes it. -/
theorem portDown_proj (hput : ∀ t k f, P (putSnd t k f) = P t) (htr : ∀ t c d u x b, P (ffTrace c d u x b t) = P t)
    (hlink : ∀ t d f, P (State.modLink t d f) = P t) (hev : ∀ t c v d u x b, P (ffEvent c v d u x b t) = P t) {l : Nat} {s : State}
    (hu : (s.port l).linkUp = true) : P (portDown l s) = P (s.modPort l downPort) := by
  unfold portDown
  rw [if_neg (by simp [hu])]
  dsimp only
  split
  · rw [enterHoldover_proj P hlink hev, movePaths_proj P hput htr]
    rfl
  · rw [movePaths_proj P hput htr]
    rfl

end

section
variable {s : State} {l : Nat}

theorem portDown_ports (hu : (s.port l).linkUp = true) : (portDown l s).ports = (s.modPort l downPort).ports :=
  portDown_proj State.ports (fun _ _ _ => rfl) (fun _ _ _ _ _ _ => by simp) (fun _ _ _ => rfl) (fun _ _ _ _ _ _ _ => by simp) hu

theorem portDown_of_down (hu : (s.port l).linkUp = false) : portDown l s = s := if_pos (by simp [hu])

/-- What is no part of a sub-port, a flow, a link die or the hub is as it was after a sub-port has gone down. -/
theorem portDown_keep {α : Type} (P : State → α) (hport : ∀ t m f, P (State.modPort t m f) = P t) (hput : ∀ t k f, P (putSnd t k f) = P t)
    (htr : ∀ t c d u x b, P (ffTrace c d u x b t) = P t) (hlink : ∀ t d f, P (State.modLink t d f) = P t)
    (hev : ∀ t c v d u x b, P (ffEvent c v d u x b t) = P t) (l : Nat) (s : State) : P (portDown l s) = P s := by
  cases hu : (s.port l).linkUp with
  | false => rw [portDown_of_down hu]
  | true => rw [portDown_proj P hput htr hlink hev hu, hport]

theorem portDown_mem (l : Nat) (s : State) : (portDown l s).mem = s.mem :=
  portDown_keep State.mem (fun _ _ _ => rfl) (fun _ _ _ => rfl) (fun _ _ _ _ _ _ => by simp) (fun _ _ _ => rfl) (fun _ _ _ _ _ _ _ => by simp) l s

theorem portDown_dies (l : Nat) (s : State) : (portDown l s).dies = s.dies :=
  portDown_keep State.dies (fun _ _ _ => rfl) (fun _ _ _ => rfl) (fun _ _ _ _ _ _ => by simp) (fun _ _ _ => rfl) (fun _ _ _ _ _ _ _ => by simp) l s

theorem portDown_cells (l : Nat) (s : State) : (portDown l s).cells = s.cells :=
  portDown_keep State.cells (fun _ _ _ => rfl) (fun _ _ _ => rfl) (fun _ _ _ _ _ _ => by simp) (fun _ _ _ => rfl) (fun _ _ _ _ _ _ _ => by simp) l s

theorem portDown_port_ne {m : Nat} (hm : m ≠ l) : (portDown l s).port m = s.port m := by
  cases hu : (s.port l).linkUp with
  | false => rw [portDown_of_down hu]
  | true =>
    unfold State.port
    rw [portDown_ports hu]
    exact State.port_modPort_ne s l m downPort hm

theorem portDown_port_same (hu : (s.port l).linkUp = true) : (portDown l s).port l = downPort (s.port l) := by
  refine Eq.trans ?_ (State.port_modPort_same s l downPort)
  unfold State.port
  rw [portDown_ports hu]

/-! ### A sub-port that comes up -/

theorem trainEnd_frame (s : State) : { trainEnd s with boot := s.boot } = s := by
  unfold trainEnd
  split <;> rfl

/-- What a sub-port that comes up does first: it is up, and its die is out of reset. -/
def raisePort (l : Nat) (s : State) : State :=
  (s.modPort l (fun p => { p with linkUp := true, training := false })).modLink (dieOfLane l) (fun k => { k with resetting := false })

theorem linkUp_of_training (hp : (s.port l).present = true) (ht : (s.port l).training = true) (hf : fenced s (dieOfLane l) = false) :
    linkUp l s = trainEnd (raisePort l s) ∨ linkUp l s = trainEnd (ptpTo (dieOfLane l) .listening (raisePort l s)) := by
  unfold linkUp
  dsimp only
  rw [if_neg (by simp [hp, ht, hf])]
  split
  · exact .inr rfl
  · exact .inl rfl

/-- A sub-port has come up. -/
structure PortRaised (s : State) (l : Nat) (t : State) : Prop where
  up : (t.port l).linkUp = true
  trained : (t.port l).training = false
  live : (t.link (dieOfLane l)).resetting = false
  mem : t.mem = s.mem

theorem PortRaised.trained_out {t : State} (h : PortRaised s l t) : PortRaised s l (trainEnd t) := by
  rw [← trainEnd_frame t] at h
  obtain ⟨hup, htr, hlive, hmem⟩ := h
  exact ⟨hup, htr, hlive, hmem⟩

theorem raisePort_raised (s : State) (l : Nat) : PortRaised s l (raisePort l s) := by
  unfold raisePort
  refine ⟨?_, ?_, ?_, rfl⟩
  · rw [State.modLink_port, State.port_modPort_same]
  · rw [State.modLink_port, State.port_modPort_same]
  · rw [State.link_modLink_same]

theorem PortRaised.listening {t : State} (h : PortRaised s l t) (st : PtpSt) : PortRaised s l (ptpTo (dieOfLane l) st t) := by
  have hports : (ptpTo (dieOfLane l) st t).ports = t.ports :=
    ptpTo_proj State.ports (fun _ _ _ => rfl) (fun _ _ _ _ _ _ _ => by simp) _ _ t
  have hmem : (ptpTo (dieOfLane l) st t).mem = t.mem := ptpTo_proj State.mem (fun _ _ _ => rfl) (fun _ _ _ _ _ _ _ => by simp) _ _ t
  obtain ⟨st', hlink⟩ := ptpTo_link t (dieOfLane l) st
  refine ⟨?_, ?_, ?_, hmem.trans h.mem⟩
  · unfold State.port
    rw [hports]
    exact h.up
  · unfold State.port
    rw [hports]
    exact h.trained
  · rw [hlink]
    exact h.live

theorem linkUp_raised (hp : (s.port l).present = true) (ht : (s.port l).training = true) (hf : fenced s (dieOfLane l) = false) :
    PortRaised s l (linkUp l s) := by
  rcases linkUp_of_training hp ht hf with h | h <;> rw [h]
  · exact (raisePort_raised s l).trained_out
  · exact ((raisePort_raised s l).listening .listening).trained_out

theorem lossOfSignal_of_up {lane : Nat} (fec : Bool) (hl : portOfLane s lane = some l) (hu : (s.port l).linkUp = true) :
    lossOfSignal lane fec s = logError 0x07 (dieOfLane lane) lane none 0 (le 1 lane ++ le 1 (if fec then 2 else 1))
      (if fec then s else s.modPort l (fun p => { p with los := bump p.los 1 })) := by
  simp only [lossOfSignal, hl]
  rw [if_neg (by simp [hu])]

end

/-! ### Routes -/

theorem mem_endsAt {ls : List (Nat × Nat)} {a k : Nat} (h : k ∈ endsAt ls a) : (a, k) ∈ ls ∨ (k, a) ∈ ls := by
  unfold endsAt at h
  obtain ⟨e, he, hk⟩ := List.mem_flatMap.mp h
  rcases List.mem_append.mp hk with hk | hk
  · split at hk
    · rename_i h1
      left
      rw [← h1, List.mem_singleton.mp hk]
      exact he
    · exact absurd hk (by simp)
  · split at hk
    · rename_i h2
      right
      rw [← h2, List.mem_singleton.mp hk]
      exact he
    · exact absurd hk (by simp)

/-- A die that is next on a route is joined by a link. -/
theorem nextHop_joined {ls dist : List (Nat × Nat)} {a n : Nat} (h : nextHop ls dist a = some n) : (a, n) ∈ ls ∨ (n, a) ∈ ls := by
  unfold nextHop at h
  split at h
  · exact absurd h (by simp)
  · have hmem (c : Bool) (g : Nat → Bool) (z : Bool) (hf : (List.range 20).find? (fun k =>
        (endsAt (ls.filter (fun e => (linksOf .chord).contains e = c)) a).contains k && g k && z) = some n) : (a, n) ∈ ls ∨ (n, a) ∈ ls := by
      have hn := List.find?_some hf
      simp only [Bool.and_eq_true] at hn
      obtain ⟨⟨hends, -⟩, -⟩ := hn
      exact (mem_endsAt (by simpa using hends)).imp (fun h => (List.mem_filter.mp h).1) (fun h => (List.mem_filter.mp h).1)
    rcases Option.or_eq_some_iff.mp ((Option.orElse_eq_or).symm.trans h) with h | ⟨-, h⟩
    · exact hmem false _ _ h
    · exact hmem true _ _ h

theorem routeNext_joined {s : State} {a b n : Nat} (h : routeNext (writeRoutes s) a b = some n) :
    ∃ e ∈ fabricLinks, linkLive s e = true ∧ (e = (a, n) ∨ e = (n, a)) := by
  obtain ⟨r, hr, rfl⟩ := Option.map_eq_some_iff.mp h
  have hkey := List.find?_some hr
  simp only [Bool.and_eq_true, decide_eq_true_eq] at hkey
  obtain ⟨ha, hb⟩ := hkey
  obtain ⟨d, -, hd⟩ := List.mem_flatMap.mp (List.mem_of_find?_eq_some hr)
  obtain ⟨c, -, hc⟩ := List.mem_filterMap.mp hd
  obtain ⟨m, hm, rfl⟩ := Option.map_eq_some_iff.mp hc
  subst ha
  rcases nextHop_joined hm with he | he
  · exact ⟨_, (List.mem_filter.mp he).1, (List.mem_filter.mp he).2, .inl rfl⟩
  · exact ⟨_, (List.mem_filter.mp he).1, (List.mem_filter.mp he).2, .inr rfl⟩

theorem fabricLinkDown_of_live {s : State} {a b : Nat} (hf : fabricLinks.contains (a, b) = true ∨ fabricLinks.contains (b, a) = true)
    (hl : linkLive s (a, b) = true) : fabricLinkDown a b s =
      writeRoutes (isolate (logError 0x05 a 0 none 0 (le 1 a ++ le 1 b) { s with fabDown := s.fabDown ++ [(a, b)] })) :=
  if_neg (by rcases hf with hf | hf <;> rw [hf, hl] <;> simp)

/-! ### Dies that no route reaches -/

section
variable {s : State}

/-- The present dies that no route from the hub reaches. -/
def lostDies (s : State) : List Nat := (List.range 20).filter (fun d => !fenced s d && !(fabricBall s 18 19).contains d)

theorem mem_lostDies {d : Nat} : d ∈ lostDies s ↔ d < 20 ∧ fenced s d = false ∧ (fabricBall s 18 19).contains d = false := by
  unfold lostDies
  rw [List.mem_filter, List.mem_range, Bool.and_eq_true, Bool.not_eq_true', Bool.not_eq_true']

/-- Dies are isolated and reported. -/
def markLost (ds : List Nat) (s : State) : State :=
  ds.foldl (fun t d => logError 0x06 d 0 none 0 (le 1 d) (t.modDie d (fun k => { k with isolated := true }))) s

/-- The sub-ports of dies no longer exist. -/
def dropAll (ds : List Nat) (s : State) : State := ds.foldl (fun t d => dropPorts d t) s

theorem isolate_eq (s : State) : isolate s = dropAll ((lostDies s).filter (fun d => d = 16 || d = 17))
    (if (lostDies s).any (· < 8) then fenceCells (markLost (lostDies s) s) else markLost (lostDies s) s) := rfl

theorem markLost_die (ds : List Nat) (s : State) (d : Nat) :
    (markLost ds s).die d = if d ∈ ds then { s.die d with isolated := true } else s.die d := by
  induction ds generalizing s with
  | nil => rfl
  | cons e ds ih =>
    refine (ih _).trans ?_
    rw [logError_die, State.die_modDie]
    by_cases h : d = e
    · subst h
      simp
    · simp [h]

theorem fenceCells_dies (s : State) : (fenceCells s).dies = s.dies := by
  unfold fenceCells
  refine foldl_proj State.dies _ (fun t (c : Nat) => ?_) _ s
  split <;> rfl

theorem dropPorts_dies (d : Nat) (s : State) : (dropPorts d s).dies = s.dies := by
  unfold dropPorts
  refine foldl_proj State.dies _ (fun t (l : Nat) => ?_) _ s
  exact portDown_dies l t

theorem dropPorts_cells (d : Nat) (s : State) : (dropPorts d s).cells = s.cells := by
  unfold dropPorts
  refine foldl_proj State.cells _ (fun t (l : Nat) => ?_) _ s
  exact portDown_cells l t

theorem isolate_die (s : State) (d : Nat) : (isolate s).die d = if d ∈ lostDies s then { s.die d with isolated := true } else s.die d := by
  rw [← markLost_die]
  have hdies : (isolate s).dies = (markLost (lostDies s) s).dies := by
    rw [isolate_eq]
    refine (foldl_proj State.dies _ (fun t (e : Nat) => dropPorts_dies e t) _ _).trans ?_
    split
    · exact fenceCells_dies _
    · rfl
  unfold State.die
  rw [hdies]

theorem fenced_isolate {d : Nat} (hd : d < 20) (h : (fabricBall s 18 19).contains d = false) : fenced (isolate s) d = true := by
  obtain ⟨-, hplate, -⟩ := isolate_keep s
  unfold fenced
  rw [hplate, isolate_die]
  cases hf : fenced s d with
  | false => rw [if_pos (mem_lostDies.mpr ⟨hd, hf, h⟩)]; simp
  | true =>
    rw [if_neg (fun hm => by simp [(mem_lostDies.mp hm).2.1] at hf)]
    exact hf

/-- Cells stand fenced where they are not present. -/
theorem fenceCells_cell {c : Nat} (hc : c < 256) (ha : cellPresent s c = false) : ((fenceCells s).cell c).st = .fenced := by
  have hstep (l : List Nat) (t : State) (hp : cellPresent t c = false) (hin : c ∈ l ∨ (t.cell c).st = .fenced) :
      ((l.foldl (fun u k => if cellPresent u k then u else u.modCell k (fun _ => { st := .fenced })) t).cell c).st = .fenced := by
    induction l generalizing t with
    | nil => simpa using hin
    | cons k l ih =>
      refine ih _ ?_ ?_
      · dsimp only
        split
        · exact hp
        · exact hp
      · by_cases hk : c = k
        · subst hk
          dsimp only
          rw [if_neg (by simp [hp]), State.cell_modCell_same]
          exact .inr rfl
        · rcases hin with hin | hin
          · exact .inl ((List.mem_cons.mp hin).resolve_left hk)
          · dsimp only
            split
            · exact .inr hin
            · rw [State.cell_modCell_ne _ _ _ _ hk]
              exact .inr hin
  exact hstep (List.range 256) s ha (.inl (List.mem_range.mpr hc))

theorem isolate_cell {c : Nat} (hc : c < 256) (h8 : c / 32 < 8) (hm : c / 32 ∈ lostDies s) : ((isolate s).cell c).st = .fenced := by
  have hcells : (isolate s).cells = (fenceCells (markLost (lostDies s) s)).cells := by
    rw [isolate_eq, if_pos (List.any_eq_true.mpr ⟨_, hm, by simpa using h8⟩)]
    exact foldl_proj State.cells _ (fun t (e : Nat) => dropPorts_cells e t) _ _
  unfold State.cell
  rw [hcells]
  refine fenceCells_cell hc ?_
  have hfen : fenced (markLost (lostDies s) s) (c / 32) = true := by
    unfold fenced
    rw [markLost_die, if_pos hm]
    simp
  simp [cellPresent, hfen]

/-- The sub-ports of a list are gone. -/
def gonePorts (ls : List Nat) (s : State) : State := ls.foldl (fun t l => (portDown l t).modPort l (fun _ => {})) s

theorem gonePorts_port (ls : List Nat) (s : State) (l : Nat) : (gonePorts ls s).port l = if l ∈ ls then {} else s.port l := by
  induction ls generalizing s with
  | nil => rfl
  | cons m ls ih =>
    refine (ih _).trans ?_
    by_cases h : l = m
    · subst h
      simp
    · rw [State.port_modPort_ne _ _ _ _ h, portDown_port_ne h]
      simp [h]

theorem dropPorts_port {d l : Nat} (s : State) (hl : dieOfLane l = d) : (dropPorts d s).port l = {} := by
  unfold dropPorts
  refine (gonePorts_port _ s l).trans ?_
  split
  · rfl
  · rename_i h
    refine get_absent {} s.ports l (fun e he heq => h ?_)
    exact List.mem_filter.mpr ⟨List.mem_map.mpr ⟨e, he, heq⟩, by simpa using hl⟩

theorem dropPorts_port_other {d l : Nat} (s : State) (hl : dieOfLane l ≠ d) : (dropPorts d s).port l = s.port l := by
  unfold dropPorts
  refine (gonePorts_port _ s l).trans (if_neg (fun h => hl ?_))
  simpa using (List.mem_filter.mp h).2

theorem dropAll_port {l : Nat} {ds : List Nat} (s : State) (h : dieOfLane l ∈ ds ∨ s.port l = {}) : (dropAll ds s).port l = {} := by
  induction ds generalizing s with
  | nil => exact h.resolve_left (by simp)
  | cons d ds ih =>
    refine ih _ ?_
    by_cases hd : dieOfLane l = d
    · exact .inr (dropPorts_port s hd)
    · rw [dropPorts_port_other s hd]
      exact h.imp_left (fun h => (List.mem_cons.mp h).resolve_left hd)

theorem isolate_port {l : Nat} (h : dieOfLane l ∈ lostDies s) : (isolate s).port l = {} := by
  rw [isolate_eq]
  refine dropAll_port _ (.inl (List.mem_filter.mpr ⟨h, ?_⟩))
  unfold dieOfLane
  split <;> rfl

end

/-- Settles O48: the sub-port by its record, the routing tables by the links they follow, the dies by the routes that reach them. -/
theorem linksComeAndGo : Obligations.LinksComeAndGo := by
  refine ⟨?down, ?up, ?signal, ?fabric, fun s a b n h => routeNext_joined h, ?isolated, ?reached⟩
  case down =>
    intro s l hs hu
    refine ⟨_, powered_of (portDown l) s _ hs rfl (by simp), ?_⟩
    rw [portDown_port_same hu]
    refine ⟨rfl, rfl, rfl, rfl, rfl, fun r hr => ?_, fun m hm => portDown_port_ne hm, portDown_mem l s⟩
    obtain ⟨_, -, rfl⟩ := List.mem_map.mp hr
    rfl
  case up =>
    intro s l hs hp ht hf
    obtain ⟨hup, htr, hlive, hmem⟩ := linkUp_raised hp ht hf
    exact ⟨_, powered_of (linkUp l) s _ hs rfl (by simp), hup, htr, hlive, hmem⟩
  case signal =>
    intro s lane l hs hl hu
    exact ⟨powered_of (lossOfSignal lane true) s _ hs (lossOfSignal_of_up true hl hu) (by simp),
      powered_of (lossOfSignal lane false) s _ hs (lossOfSignal_of_up false hl hu) (by simp)⟩
  case fabric =>
    intro s a b hs hf hl
    exact powered_of (fabricLinkDown a b) s _ hs (fabricLinkDown_of_live hf hl) (by simp)
  case isolated =>
    intro s d hd hb
    refine ⟨fenced_isolate hd hb, fun hf => ⟨fun h8 c hc hcd => ?_, fun _ l hl => ?_⟩⟩
    · subst hcd
      exact isolate_cell hc h8 (mem_lostDies.mpr ⟨hd, hf, hb⟩)
    · subst hl
      exact isolate_port (mem_lostDies.mpr ⟨hd, hf, hb⟩)
  case reached =>
    intro s d hb
    rw [isolate_die, if_neg]
    intro hm
    rw [(mem_lostDies.mp hm).2.2] at hb
    exact absurd hb (by simp)

end Sys2Proof.Machine
end

section
/-! PROOFS. Power states and pins (R429, R491, R495, R523 to R527). -/
namespace Sys2Proof.Machine

section
variable {s : State}

/-! ### Input -/

theorem powerOn_of_good {cv : Nat} (h : s.pwr.st = .off) (hlow : 4500 ≤ cv) (hhigh : cv ≤ 6400) : powerOn cv s = { s.dark with
    pwr := { s.pwr.kept with st := .starting, pwrEn := true, volts := BitVec.ofNat 16 cv },
    boot := { s.boot.kept with stage := .fuse, active := true, fuseClk := s.clk } } :=
  if_neg (by simp [h, hlow, hhigh])

theorem powerOn_of_bad {cv : Nat} (h : s.pwr.st ≠ .off ∨ cv < 4500 ∨ 6400 < cv) : powerOn cv s = s :=
  if_pos (by rcases h with h | h | h <;> simp [h])

/-- A command of any power state that does nothing to a dark module leaves it dark. -/
theorem always_unchanged {f : State → State} (h : f s = s) (hd : s.pwr.st.isDark = true) : always f s = .next s.dark := by
  rw [always_dark f s (by rw [h]; exact hd), h]

theorem warmReset_of_lit (h : s.pwr.st.isDark = false) : warmReset s = { (noteUnfinished s).dark with
    pwr := { (noteUnfinished s).dark.pwr with st := .starting, faultN := !pupaComes (noteUnfinished s).dark }
    boot := { (noteUnfinished s).dark.boot with stage := .fuse, active := true, fuseClk := s.clk }
    hub := { rstDomain := 6, rstTrig := 5 } } :=
  if_pos (by rcases isDark_false h with h | h | h <;> simp [h])

/-! ### A module that is held -/

/-- The module is HALTED or SHUTDOWN. -/
def State.Held (s : State) : Prop := s.pwr.st = .halted ∨ s.pwr.st = .shutdown

theorem State.Held.isDark (h : s.Held) : s.pwr.st.isDark = true := by
  rcases h with h | h <;> rw [h] <;> rfl

/-- A command that does nothing to a held module answers it. -/
theorem always_of_held {f : State → State} (hi : s.Inv) (h : s.Held) (hf : f s = s) : always f s = .next s := by
  rw [always_unchanged hf h.isDark, hi h.isDark]

theorem faultRelease_of_held (aux : Bool) (h : s.Held) : faultRelease aux s = { s with
    pwr := { s.pwr with st := .off, faultN := true, pwrEn := aux && s.pwr.pwrEn, lastShut := if aux then 0 else s.pwr.lastShut } } :=
  if_pos (by rcases h with h | h <;> simp [h])

/-- A held module that is released is OFF, and holds nothing volatile. -/
theorem always_faultRelease_of_held (aux : Bool) (hi : s.Inv) (h : s.Held) : always (faultRelease aux) s = .next { s with
    pwr := { s.pwr with st := .off, faultN := true, pwrEn := aux && s.pwr.pwrEn, lastShut := if aux then 0 else s.pwr.lastShut } } := by
  rw [always_dark _ _ (by rw [faultRelease_of_held aux h]; rfl), faultRelease_of_held aux h]
  have hdark := hi h.isDark
  rw [← hdark]
  rfl

theorem inputLost_of_held (h : s.Held) : inputLost s = s := if_pos (by rcases h with h | h <;> simp [h])

theorem warmReset_of_held (h : s.Held) : warmReset s = s := if_neg (by rcases h with h | h <;> simp [h])

/-! ### A start cut short -/

theorem noteUnfinished_of_start (h : s.pwr.st = .starting) (ha : s.boot.active = true) : (noteUnfinished s).boot.history =
    (({ ok := false, stage := stageCode s.boot.stage, reason := s.boot.reason.toNat, detail := s.boot.detail.toNat } : StartRec) ::
      s.boot.history).take 16 := by
  unfold noteUnfinished
  rw [if_pos (by simp [h, ha])]

theorem noteUnfinished_of_other (h : s.pwr.st ≠ .starting) : noteUnfinished s = s := if_neg (by simp [h])

end

/-- Settles O49: the pins by the power state in which they act. -/
theorem powerStates : Obligations.PowerStates := by
  refine ⟨?on, ?lit, ?held, fun s => ⟨noteUnfinished_of_start, noteUnfinished_of_other⟩⟩
  case on =>
    intro s cv h
    refine ⟨fun hlow hhigh => ?_, fun hbad => ?_⟩
    · have hgood := powerOn_of_good h hlow hhigh
      refine (always_lit s (powerOn cv) (by rw [hgood]; rfl)).trans ?_
      rw [hgood]
    · exact always_unchanged (powerOn_of_bad (.inr hbad)) (by rw [h]; rfl)
  case lit =>
    intro s u hs hu
    subst hu
    have hin := inputLost_lit s hs
    have hover := shutDown_lit 1 s hs
    have hconv := shutDown_lit 2 s hs
    have hreset := warmReset_of_lit hs
    refine ⟨?_, ?_, ?_, ?_, ?_, ?_⟩
    · refine (always_dark inputLost s (by rw [hin]; rfl)).trans ?_
      rw [hin]
      rfl
    · refine (always_dark inputLost s (by rw [hin]; rfl)).trans ?_
      rw [hin]
      rfl
    · refine (always_dark (fun t => let u := inputLost t; { u with pwr := { u.pwr with pwrEn := false } }) s (by dsimp only; rw [hin]; rfl)).trans ?_
      dsimp only
      rw [hin]
      rfl
    · refine (always_dark (shutDown 1) s (by rw [hover]; rfl)).trans ?_
      rw [hover]
      rfl
    · refine (always_dark (shutDown 2) s (by rw [hconv]; rfl)).trans ?_
      rw [hconv]
      rfl
    · refine (always_lit s warmReset (by rw [hreset]; rfl)).trans ?_
      rw [hreset]
  case held =>
    intro s aux hi h
    refine ⟨always_faultRelease_of_held aux hi h, always_of_held hi h (warmReset_of_held h), always_of_held hi h (inputLost_of_held h),
      always_of_held hi h (inputLost_of_held h), ?_⟩
    refine always_of_held hi h (powerOn_of_bad (.inl ?_))
    rcases h with h | h <;> simp [h]

end Sys2Proof.Machine
end

section
/-! PROOFS. Caps, sensors and droop (R29, R34 to R36, R255, R525, R528 to R532). -/
namespace Sys2Proof.Machine

/-! ### What joins every open step -/

section
variable {κ : Type} {val : State → κ} {g : κ → StepLine → StepLine}

/-- A change of step lines by what no step line decides may take that from the first state. -/
theorem foldl_modSl_const (hval : ∀ t x f, val (State.modSl t x f) = val t) (l : List Nat) (s : State) :
    l.foldl (fun t x => t.modSl x (g (val t))) s = l.foldl (fun t x => t.modSl x (g (val s))) s := by
  suffices h : ∀ t : State, val t = val s → l.foldl (fun t x => t.modSl x (g (val t))) t = l.foldl (fun t x => t.modSl x (g (val s))) t from h s rfl
  intro t ht
  induction l generalizing t with
  | nil => rfl
  | cons x l ih =>
    rw [List.foldl_cons, List.foldl_cons, ht]
    exact ih _ ((hval t x _).trans ht)

/-- A change that is the same when it is made again reaches every line of a list. -/
theorem sl_foldl_modSl {f : StepLine → StepLine} (hf : ∀ l, f (f l) = f l) (l : List Nat) (s : State) (x : Nat) :
    (l.foldl (fun t y => t.modSl y f) s).sl x = if x ∈ l then f (s.sl x) else s.sl x := by
  induction l generalizing s with
  | nil => rfl
  | cons y l ih =>
    rw [List.foldl_cons, ih, sl_modSl_ite]
    by_cases h : x = y
    · subst h
      simp [hf]
    · simp [h]

theorem sl_foldl_modSl_val (hval : ∀ t x f, val (State.modSl t x f) = val t) (hg : ∀ c l, g c (g c l) = g c l) (s : State) {l : List Nat} {x : Nat}
    (hx : x ∈ l) : (l.foldl (fun t x => t.modSl x (g (val t))) s).sl x = g (val s) (s.sl x) := by
  rw [foldl_modSl_const hval, sl_foldl_modSl (hg (val s)), if_pos hx]

end

theorem zipWith_max_again (a b : List Int) : List.zipWith max (List.zipWith max a b) b = List.zipWith max a b := by
  induction a generalizing b with
  | nil => rfl
  | cons x a ih =>
    cases b with
    | nil => rfl
    | cons y b => simp [ih]

theorem or_again {n : Nat} (a b : BitVec n) : a ||| b ||| b = a ||| b := by rw [BitVec.or_assoc, BitVec.or_self]

theorem sl_noteCaps {s : State} {x : Nat} (hx : x ∈ openSteps s) : ((noteCaps s).sl x).pcap = (s.sl x).pcap ||| BitVec.ofNat 8 (pcapNow s) := by
  unfold noteCaps
  rw [sl_foldl_modSl_val (val := pcapNow) (g := fun c l => { l with pcap := l.pcap ||| BitVec.ofNat 8 c }) (fun _ _ _ => rfl)
    (fun c l => by simp only [or_again]) s hx]

/-! ### Readings of the input and the coolant -/

section
variable {s : State}

/-- A reading of the input. -/
def inputRead (cv ca w : Nat) (cap : Bool) (s : State) : State :=
  { s with pwr := { s.pwr with
    volts := BitVec.ofNat 16 cv, amps := BitVec.ofNat 16 (min ca 7200), watts := BitVec.ofNat 16 w,
    peak := BitVec.ofNat 16 (max s.pwr.peak.toNat (w % 65536)), inCap := cap } }

/-- A reading of the coolant. -/
def coolantRead (inlet outlet : Int) (hot : Bool) (s : State) : State :=
  { s with pwr := { s.pwr with
    inlet := inlet, outlet := outlet, coolCap := hot, coolLim := if hot then 3200 - 128 * ((inlet - 640) / 16).toNat else 3200 } }

/-- A cap that begins is a gating event of the module. -/
def gateIf (c : Bool) (s : State) : State := if c then gateEvent 18 false s else s

/-- A reading under a cap counts in capped_ms. -/
def cappedTick (s : State) : State := if anyCap s then { s with pwr := { s.pwr with cappedMs := bump s.pwr.cappedMs 1 } } else s

theorem inputCap_eq (cv ca w : Nat) (cap : Bool) (h : cap = ((decide (4200 ≤ cv) && decide (cv < 4500)) || decide (ca > 7200))) :
    inputCap cv ca w s = noteCaps (cappedTick (gateIf (cap && !s.pwr.inCap) (inputRead cv ca w cap s))) := by
  subst h
  rfl

theorem coolantCap_eq (inlet outlet : Int) (hot : Bool) (h : hot = decide (inlet > 640)) :
    coolantCap inlet outlet s = noteCaps (gateIf (hot && !s.pwr.coolCap) (coolantRead inlet outlet hot s)) := by
  subst h
  rfl

/-- The power shell after a reading but for what gating and capped_ms count. -/
structure Gated (s : State) (c : Bool) (t : State) : Prop where
  pwr : { t.pwr with gate := s.pwr.gate, gateAt := s.pwr.gateAt, cappedMs := s.pwr.cappedMs } = s.pwr
  gate : t.pwr.gate = s.pwr.gate + b2n c
  mem : t.mem = s.mem
  dies : t.dies = s.dies

theorem gateIf_gated (c : Bool) (s : State) : Gated s c (gateIf c s) := by
  cases c with
  | false => exact ⟨rfl, rfl, rfl, rfl⟩
  | true =>
    have hpwr := gateEvent_pwr 18 s
    refine ⟨?_, ?_, gateEvent_mem 18 false s, gateEvent_dies 18 false s⟩ <;> unfold gateIf <;> rw [if_pos rfl, hpwr]
    rfl

theorem Gated.field {t : State} {c : Bool} {α : Type} (h : Gated s c t) (f : Power → α)
    (hf : ∀ p g l n, f { p with gate := g, gateAt := l, cappedMs := n } = f p) : f t.pwr = f s.pwr := by
  rw [← hf t.pwr s.pwr.gate s.pwr.gateAt s.pwr.cappedMs, h.pwr]

theorem Gated.ticked {t : State} {c : Bool} (h : Gated s c t) : Gated s c (cappedTick t) := by
  unfold cappedTick
  split
  · exact ⟨h.pwr, h.gate, h.mem, h.dies⟩
  · exact h

end

/-! ### Sensors -/

section
variable {s : State} {d i : Nat} {temp : Int}

/-- A reading of a sensor changes its die and the open steps alone. -/
theorem readSensor_frame (s : State) (d i : Nat) (temp : Int) : { readSensor d i temp s with dies := s.dies, ctxs := s.ctxs } = s := by
  unfold readSensor
  dsimp only
  refine (foldl_proj (fun t : State => { t with dies := s.dies, ctxs := s.ctxs }) _ (fun _ (_ : Nat) => ?_) _ _).trans ?_
  · rfl
  · rfl

theorem readSensor_mem (s : State) (d i : Nat) (temp : Int) : (readSensor d i temp s).mem = s.mem := by
  have h := congrArg State.mem (readSensor_frame s d i temp)
  exact h

/-- A start cut short is noted by the power shell and the boot records alone. -/
theorem noteUnfinished_dark_of_frame {u : State} (h : { u with dies := s.dies, ctxs := s.ctxs } = s) : (noteUnfinished u).dark = (noteUnfinished s).dark := by
  rw [← h]
  unfold noteUnfinished
  dsimp only
  split <;> rfl

theorem sensors_readSensor (j : Nat) : ((readSensor d i temp s).die d).sensors[j]? =
    if j = i then ((s.die d).sensors[j]?).map (fun q => if q.stale then q else { q with valid := true, temp := temp })
    else (s.die d).sensors[j]? := by
  rw [readSensor_die, State.die_modDie_same, List.getElem?_modify]
  by_cases h : j = i
  · simp [h]
  · simp [h, Ne.symm h]

theorem sl_readSensor {x : Nat} (hx : x ∈ openSteps s) : ((readSensor d i temp s).sl x).tMax =
    List.zipWith max (s.sl x).tMax (kindTemps (readSensor d i temp s)) := by
  have hkind : kindTemps (readSensor d i temp s) =
      kindTemps (s.modDie d (fun k => { k with sensors := k.sensors.modify i (fun q => if q.stale then q else { q with valid := true, temp := temp }) })) := by
    unfold readSensor
    dsimp only
    refine foldl_proj kindTemps _ (fun _ (_ : Nat) => ?_) _ _
    rfl
  rw [hkind]
  unfold readSensor
  dsimp only
  rw [sl_foldl_modSl_val (val := fun t => (kindTemps t, staleMask t))
    (g := fun c l => { l with tMax := List.zipWith max l.tMax c.1, tStale := l.tStale ||| BitVec.ofNat 20 c.2 }) (fun _ _ _ => rfl)
    (fun c l => by simp only [or_again, zipWith_max_again]) _ (by exact hx)]
  rfl

theorem thermalCap_of_mild (hs : hasSensor s d i = true)
    (h : ((readSensor d i temp s).die d).capped = true ∨ hottest (readSensor d i temp s) d < ((readSensor d i temp s).die d).capLim) :
    thermalCap d i temp s = readSensor d i temp s := by
  unfold thermalCap
  rw [if_neg (by simp [hs])]
  exact if_pos (by rcases h with h | h <;> simp [h])

/-- A die is gated for its heat, and reported. -/
def capDie (d : Nat) (temp : Int) (s : State) : State :=
  logError 0x10 d 0 none 0 (le 1 d ++ le 2 (ofSigned 16 temp)) (gateEvent d false (s.modDie d (fun k => { k with capped := true })))

theorem thermalCap_of_hot (hs : hasSensor s d i = true) (hc : ((readSensor d i temp s).die d).capped = false)
    (h : ((readSensor d i temp s).die d).capLim ≤ hottest (readSensor d i temp s) d) :
    thermalCap d i temp s = noteCaps (capDie d temp (readSensor d i temp s)) := by
  unfold thermalCap
  rw [if_neg (by simp [hs])]
  exact if_neg (by simpa [hc] using h)

theorem capDie_die (d : Nat) (temp : Int) (s : State) : (capDie d temp s).die d = { s.die d with capped := true } := by
  unfold capDie
  rw [logError_die]
  unfold State.die
  rw [gateEvent_dies]
  exact State.die_modDie_same s d _

theorem capDie_pwr (d : Nat) (temp : Int) (s : State) :
    (capDie d temp s).pwr = { s.pwr with gate := s.pwr.gate + 1, gateAt := s.clk :: within s s.pwr.gateAt } := by
  unfold capDie
  rw [logError_pwr, gateEvent_pwr]
  rfl

theorem capDie_mem (d : Nat) (temp : Int) (s : State) : (capDie d temp s).mem = s.mem := by
  unfold capDie
  rw [logError_mem, gateEvent_mem]
  rfl

theorem thermalCapRelease_eq (hs : hasSensor s d i = true) : thermalCapRelease d i temp s =
    if ((readSensor d i temp s).die d).capped &&
      decide (hottest (readSensor d i temp s) d ≤ ((readSensor d i temp s).die d).capLim - 48)
    then (readSensor d i temp s).modDie d (fun k => { k with capped := false }) else readSensor d i temp s :=
  if_neg (by simp [hs])

theorem thermalShutdown_eq (hs : hasSensor s d i = true) : thermalShutdown d i temp s =
    if (((readSensor d i temp s).die d).sensors.getD i {}).temp ≥ ((readSensor d i temp s).die d).shutLim
    then shutDown 3 (readSensor d i temp s) else readSensor d i temp s :=
  if_neg (by simp [hs])

end

/-! ### Droop and recalibration -/

section
variable {s : State} {d i drift : Nat} {temp : Int}

theorem gateEvent_droop_pwr (d : Nat) (s : State) :
    (gateEvent d true s).pwr = { s.pwr with droopAt := s.clk :: within s s.pwr.droopAt } := by
  unfold gateEvent
  dsimp only
  rw [ffTrace_pwr, foldl_proj State.pwr]
  · rfl
  · intro _ _
    rfl

theorem droopEvent_of_on (hd : d < 8) (hf : fenced s d = false) (ho : (s.die d).on = true) :
    droopEvent d s = gateEvent d true (s.modDie d (fun k => { k with droop := bump k.droop 1 })) :=
  if_neg (by simp [hf, ho, hd])

/-- The sensor is a droop sensor: 8 to 11 of a compute die. -/
def droopSensor (d i : Nat) : Prop := d < 8 ∧ 8 ≤ i ∧ i < 12

theorem recalibrate_thermal {q : Sensor} (hf : fenced s d = false) (ho : (s.die d).on = true) (hn : ¬ droopSensor d i)
    (hq : (s.die d).sensors[i]? = some q) : recalibrate d i temp drift s =
      if q.stale then recalDone d drift (readSensor d i temp
        (s.modDie d (fun k => { k with sensors := k.sensors.modify i (fun r => { r with stale := false }) })))
      else if recalBusy s then s
      else
        (openSteps (s.modDie d (fun k => { k with sensors := k.sensors.modify i (fun r => { r with stale := true }) }))).foldl
          (fun t x => t.modSl x (fun l => { l with tStale := l.tStale ||| BitVec.ofNat 20 (staleMask t) }))
          (s.modDie d (fun k => { k with sensors := k.sensors.modify i (fun r => { r with stale := true }) })) := by
  unfold recalibrate
  rw [if_neg (by simp [hf, ho]), if_neg (by simpa [droopSensor, and_assoc] using hn), hq]

theorem recalibrate_droop (hf : fenced s d = false) (ho : (s.die d).on = true) (hn : droopSensor d i) : recalibrate d i temp drift s =
    if (s.die d).droopBusy = some i then recalDone d drift (s.modDie d (fun k => { k with droopBusy := none }))
    else if recalBusy s then s
    else s.modDie d (fun k => { k with droopBusy := some i }) := by
  obtain ⟨hd, hlow, hhigh⟩ := hn
  unfold recalibrate
  rw [if_neg (by simp [hf, ho]), if_pos (by simp [hd, hlow, hhigh])]

/-- A droop sensor that is being recalibrated keeps the shell busy. -/
theorem recalBusy_of_droop {i : Nat} (hd : d < 8) (h : (s.die d).droopBusy = some i) : recalBusy s = true := by
  unfold recalBusy
  rw [Bool.or_eq_true]
  exact .inr (List.any_eq_true.mpr ⟨d, List.mem_range.mpr hd, by rw [h]; rfl⟩)

theorem recalDone_die (d drift : Nat) (s : State) :
    (recalDone d drift s).die d = { s.die d with recal := bump (s.die d).recal 1, drift := (s.die d).drift || decide (drift ≠ 0) } := by
  unfold recalDone
  dsimp only
  split
  · rw [State.die_modDie_same]
  · rw [ffEvent_die, logError_die, State.die_modDie_same]

end

/-- Settles O50: the reading by its limits, the sensor by its state, the recalibration by what is under way. -/
theorem capsAndSensors : Obligations.CapsAndSensors := by
  refine ⟨?input, ?coolant, fun s x hx => sl_noteCaps hx, ?thermal, ?sensor, ?droop, ?recalibration, ?droopSensor, ?done⟩
  case input =>
    intro s cv ca w cap hs hcap
    have hgated := (gateIf_gated (cap && !s.pwr.inCap) (inputRead cv ca w cap s)).ticked
    obtain ⟨hpwr, -, -⟩ := noteCaps_frame (cappedTick (gateIf (cap && !s.pwr.inCap) (inputRead cv ca w cap s)))
    refine ⟨_, powered_of (inputCap cv ca w) s _ hs (inputCap_eq cv ca w cap hcap) ?_, ?_, ?_, ?_, ?_, ?_, hgated.gate, ?_, hgated.mem, hgated.dies⟩
    · rw [hpwr]
      exact hgated.field Power.st (fun _ _ _ _ => rfl)
    · exact hgated.field Power.inCap (fun _ _ _ _ => rfl)
    · exact hgated.field Power.volts (fun _ _ _ _ => rfl)
    · exact hgated.field Power.amps (fun _ _ _ _ => rfl)
    · exact hgated.field Power.watts (fun _ _ _ _ => rfl)
    · exact hgated.field Power.peak (fun _ _ _ _ => rfl)
    · exact hgated.field Power.coolCap (fun _ _ _ _ => rfl)
  case coolant =>
    intro s inlet outlet hot hs hhot
    have hgated := gateIf_gated (hot && !s.pwr.coolCap) (coolantRead inlet outlet hot s)
    obtain ⟨hpwr, -, -⟩ := noteCaps_frame (gateIf (hot && !s.pwr.coolCap) (coolantRead inlet outlet hot s))
    refine ⟨_, powered_of (coolantCap inlet outlet) s _ hs (coolantCap_eq inlet outlet hot hhot) ?_, ?_, ?_, ?_, ?_, hgated.gate, ?_, hgated.mem,
      hgated.dies⟩
    · rw [hpwr]
      exact hgated.field Power.st (fun _ _ _ _ => rfl)
    · exact hgated.field Power.inlet (fun _ _ _ _ => rfl)
    · exact hgated.field Power.outlet (fun _ _ _ _ => rfl)
    · exact hgated.field Power.coolCap (fun _ _ _ _ => rfl)
    · exact hgated.field Power.coolLim (fun _ _ _ _ => rfl)
    · exact hgated.field Power.inCap (fun _ _ _ _ => rfl)
  case thermal =>
    intro s d i temp u hs hsens hu
    subst hu
    have hpwr := readSensor_pwr s d i temp
    refine ⟨fun h => ?_, fun hc h => ?_, fun hc h => ?_, fun h => ?_, fun h => ⟨_, rfl, ?_⟩, fun h => ?_⟩
    · exact powered_of (thermalCap d i temp) s _ hs (thermalCap_of_mild hsens h) (by rw [hpwr])
    · have hcap := capDie_pwr d temp (readSensor d i temp s)
      obtain ⟨hnote, -, -⟩ := noteCaps_frame (capDie d temp (readSensor d i temp s))
      refine ⟨_, powered_of (thermalCap d i temp) s _ hs (thermalCap_of_hot hsens hc h) ?_, ?_, ?_, ?_⟩
      · rw [hnote, hcap, hpwr]
      · rw [capDie_die]
      · rw [hcap, hpwr]
      · rw [capDie_mem, readSensor_mem]
    · refine powered_of (thermalCapRelease d i temp) s _ hs ?_ (congrArg Power.st hpwr)
      rw [thermalCapRelease_eq hsens, if_pos (by simp [hc, h])]
    · refine powered_of (thermalCapRelease d i temp) s _ hs ?_ (congrArg Power.st hpwr)
      rw [thermalCapRelease_eq hsens, if_neg]
      rcases h with h | h <;> simp [h]
    · refine (powered_settle (thermalShutdown d i temp) s _ hs (thermalShutdown_eq hsens)).trans ?_
      rw [if_pos h, shutDown_lit 3 _ (by rw [hpwr]; exact hs), ← noteUnfinished_dark_of_frame (readSensor_frame s d i temp)]
      rfl
    · exact powered_of (thermalShutdown d i temp) s _ hs (by rw [thermalShutdown_eq hsens, if_neg (by simpa using h)]) (by rw [hpwr])
  case sensor =>
    intro s d i temp q hq
    refine ⟨?_, fun j hj => ?_, fun x hx => sl_readSensor hx⟩
    · rw [sensors_readSensor, if_pos rfl, hq]
      rfl
    · rw [sensors_readSensor, if_neg hj]
  case droop =>
    intro s d hs hd hf ho
    have heff := droopEvent_of_on hd hf ho
    have hpwr := gateEvent_droop_pwr d (s.modDie d (fun k => { k with droop := bump k.droop 1 }))
    refine ⟨_, powered_of (droopEvent d) s _ hs heff (by rw [hpwr]; rfl), ?_, by rw [hpwr]; rfl, by rw [hpwr]; rfl, gateEvent_mem _ _ _⟩
    unfold State.die
    rw [gateEvent_dies]
    exact congrArg Die.droop (State.die_modDie_same s d _)
  case recalibration =>
    intro s d i drift temp q hs hf ho hi hq
    have heff := recalibrate_thermal (temp := temp) (drift := drift) hf ho (by unfold droopSensor; omega) hq
    refine ⟨fun hst => ?_, fun hst hb => ?_, fun hst hb => ?_⟩
    · exact powered_of (recalibrate d i temp drift) s _ hs (by rw [heff, if_pos hst]) (by rw [recalDone_pwr, readSensor_pwr]; rfl)
    · refine ⟨_, powered_of (recalibrate d i temp drift) s _ hs (by rw [heff, if_neg (by simp [hst]), if_neg (by simp [hb])]) ?_, ?_, ?_⟩
      · rw [foldl_proj State.pwr]
        · rfl
        · intro _ _
          rfl
      · rw [foldl_proj (fun t => t.die d), State.die_modDie_same]
        · simp [hq]
        · intro _ _
          rfl
      · rw [foldl_proj State.mem]
        · rfl
        · intro _ _
          rfl
    · exact powered_of (recalibrate d i temp drift) s _ hs (by rw [heff, if_neg (by simp [hst]), if_pos hb]) rfl
  case droopSensor =>
    intro s d i drift temp hs hf ho hd hlow hhigh
    have heff := recalibrate_droop (temp := temp) (drift := drift) hf ho ⟨hd, hlow, hhigh⟩
    refine ⟨fun h => ?_, fun h hb => ?_, fun hb => ?_⟩
    · exact powered_of (recalibrate d i temp drift) s _ hs (by rw [heff, if_pos h]) (by rw [recalDone_pwr]; rfl)
    · exact powered_of (recalibrate d i temp drift) s _ hs (by rw [heff, if_neg h, if_pos hb]) rfl
    · have h : (s.die d).droopBusy ≠ some i := fun h => by simp [recalBusy_of_droop hd h] at hb
      exact powered_of (recalibrate d i temp drift) s _ hs (by rw [heff, if_neg h, if_neg (by simp [hb])]) rfl
  case done =>
    intro s d drift
    rw [recalDone_die]
    exact ⟨rfl, fun h => by simp [h], fun h => by simp [h]⟩

end Sys2Proof.Machine
end

section
/-! PROOFS. Hub firmware: beat, compartments, gates, profiling and health (R388 to R392, R412, R434, R448 to R453). -/
namespace Sys2Proof.Machine

/-! ### The beat -/

section
variable {s : State} {core : Nat}

/-- A running compartment of a core has taken its gate messages. -/
def gatesTaken (core : Nat) (k : Comp) : Comp := if k.st = 1 && k.core = core then { k with gate := [] } else k

/-- The kernel of a core hands out the gate messages that wait. -/
def takeGates (core : Nat) (s : State) : State := s.modHub (fun h => { h with comps := h.comps.map (gatesTaken core) })

theorem hubBeat_of_running (hc : core < hubCores s) (hr : s.hub.coreReset.contains core = false) : hubBeat core s =
    if core = 0 && !(takeGates core s).hub.comps.any (fun c => c.st = 3)
    then (takeGates core s).modHub (fun h => { h with beat := h.beat + 1, beatClk := s.clk }) else takeGates core s :=
  if_neg (by rw [hr]; simpa using hc)

theorem hubBeat_of_reset (hr : s.hub.coreReset.contains core = true) : hubBeat core s = s := if_pos (by rw [hr]; rfl)

theorem compOf_takeGates (c : Nat) : compOf (takeGates core s) c = gatesTaken core (compOf s c) := by
  unfold compOf takeGates State.modHub
  dsimp only
  rw [List.getElem?_map]
  cases s.hub.comps[c]? with
  | none => simp [gatesTaken]
  | some k => rfl

theorem takeGates_failed (s : State) (core : Nat) : (takeGates core s).hub.comps.any (fun c => c.st = 3) = s.hub.comps.any (fun c => c.st = 3) := by
  unfold takeGates State.modHub
  dsimp only
  rw [List.any_map]
  refine congrArg (fun f => s.hub.comps.any f) (funext fun k => ?_)
  dsimp only [Function.comp_apply]
  unfold gatesTaken
  split <;> rfl

theorem hubBeat_compOf (hc : core < hubCores s) (hr : s.hub.coreReset.contains core = false) (c : Nat) :
    compOf (hubBeat core s) c = gatesTaken core (compOf s c) := by
  rw [hubBeat_of_running hc hr, ← compOf_takeGates]
  split <;> rfl

end

/-! ### Compartments -/

section
variable {s : State} {c cause : Nat}

/-- The clocks of the restarts of the last 60 s. -/
def restartsNow (s : State) (c : Nat) : List Nat := (compOf s c).times.filter (fun t => decide (s.clk - t < 60 * clkS))

/-- A compartment is reloaded and reported. -/
def reloaded (c cause : Nat) (s : State) : State :=
  logError 0x0E 18 c none 0 (le 1 c ++ le 1 cause)
    (ffEvent 0x0160 4 18 c none (le 1 cause ++ le 1 (bump (compOf s c).restarts 1).toNat)
      (modComp c (fun k => { k with
        st := 1, cause := BitVec.ofNat 4 cause, restarts := bump (compOf s c).restarts 1, times := s.clk :: restartsNow s c, gate := [] }) s))

/-- A compartment is left FAILED and reported. -/
def leftFailed (c cause : Nat) (s : State) : State :=
  logError 0x0F 18 c none 0 (le 1 c ++ le 1 cause) (ffEvent 0x0161 5 18 c none (le 1 cause)
    (modComp c (fun k => { k with st := 3, cause := BitVec.ofNat 4 cause, times := s.clk :: restartsNow s c }) s))

theorem restartComp_of_few (hc : cause ≠ 0) (hn : (restartsNow s c).length < 2) : restartComp c cause s = restartWork c (reloaded c cause s) := by
  unfold restartComp
  dsimp only
  rw [if_neg hc]
  exact if_neg (Nat.not_le.mpr hn)

theorem restartComp_of_third (hc : cause ≠ 0) (hn : 2 ≤ (restartsNow s c).length) :
    restartComp c cause s = if c < 3 then warmReset (leftFailed c cause s) else leftFailed c cause s := by
  unfold restartComp
  dsimp only
  rw [if_neg hc]
  exact if_pos hn

theorem compOf_report (x v d u : Nat) (y : Option Nat) (b : Bytes) (x' d' u' st : Nat) (y' : Option Nat) (b' : Bytes) (s : State) (c : Nat) :
    compOf (logError x' d' u' y' st b' (ffEvent x v d u y b s)) c = compOf s c := by
  obtain ⟨hlog, -, -⟩ := logError_comps x' d' u' y' st b' (ffEvent x v d u y b s)
  obtain ⟨hev, -, -⟩ := ffEvent_comps x v d u y b s
  unfold compOf
  rw [hlog, hev]

theorem compOf_reloaded (h : (compOf s c).st = 1) : compOf (reloaded c cause s) c = { compOf s c with
    st := 1, cause := BitVec.ofNat 4 cause, restarts := bump (compOf s c).restarts 1, times := s.clk :: restartsNow s c, gate := [] } := by
  unfold reloaded
  rw [compOf_report, compOf_modComp s c _ h]

theorem compOf_leftFailed (h : (compOf s c).st = 1) :
    compOf (leftFailed c cause s) c = { compOf s c with st := 3, cause := BitVec.ofNat 4 cause, times := s.clk :: restartsNow s c } := by
  unfold leftFailed
  rw [compOf_report, compOf_modComp s c _ h]

/-- What a report of a compartment leaves. -/
theorem reloaded_frame (c cause : Nat) (s : State) : (reloaded c cause s).mem = s.mem ∧ (reloaded c cause s).queues = s.queues ∧
    (reloaded c cause s).ctxs = s.ctxs ∧ (reloaded c cause s).sec = s.sec ∧ (reloaded c cause s).pwr = s.pwr := by
  unfold reloaded modComp
  simp

theorem leftFailed_frame (c cause : Nat) (s : State) : (leftFailed c cause s).mem = s.mem ∧ (leftFailed c cause s).flash = s.flash ∧
    (leftFailed c cause s).pwr = s.pwr := by
  unfold leftFailed modComp
  simp

/-- A command by which a compartment faults with a cause. -/
theorem exec_of_fault {cmd : Instr} (h : (cmd, cause) ∈ [(Instr.sliceOverrun c, 3), (.compartmentFault c 1, 1), (.compartmentFault c 2, 2),
    (.compartmentFault c 4, 4)]) (s : State) : exec cmd s = powered (fun t => deliver 65536 (compFault c cause t)) s ∧ cause ≠ 0 := by
  simp only [List.mem_cons, Prod.mk.injEq, List.not_mem_nil, or_false] at h
  rcases h with ⟨rfl, rfl⟩ | ⟨rfl, rfl⟩ | ⟨rfl, rfl⟩ | ⟨rfl, rfl⟩ <;> exact ⟨rfl, by decide⟩

theorem compFault_of_running (h : (compOf s c).st = 1) : compFault c cause s = restartComp c cause s := if_neg (by simp [h])

end

/-! ### Gates -/

section
variable {s : State} {src dst : Nat} {msg : Bytes}

theorem gateCall_of_room (hs : (compOf s src).st = 1) (hd : dst < 5) (hm : msg.length ≤ 256) (hg : (compOf s dst).gate.length < 64) :
    gateCall src dst msg s = modComp dst (fun k => { k with gate := k.gate ++ [(src, msg)] }) s := by
  unfold gateCall
  rw [if_neg (by simp [hs, hd]), if_neg (by simp [hm, hg])]

theorem gateCall_of_fault (hs : (compOf s src).st = 1) (hd : dst < 5) (h : 256 < msg.length ∨ 64 ≤ (compOf s dst).gate.length) :
    gateCall src dst msg s = compartmentFault src 4 s := by
  unfold gateCall
  rw [if_neg (by simp [hs, hd]), if_pos (by rcases h with h | h <;> simp [h])]
  rfl

end

/-! ### Profiling -/

/-- A sample of a cell goes to the buffer. -/
def profileCell (s : State) (t : State) (c : Nat) : State :=
  (poke t (profBase s + t.hub.profPos.toNat) (profBytes s c)).modHub (fun h => { h with profPos := h.profPos + 16 })

/-- The states that sampling passes through differ in the buffer and its position alone. -/
def sampling (s t : State) : Prop := ∃ m p, t = { s with mem := m, hub := { s.hub with profPos := p } }

theorem profileCell_sampling {s t : State} (h : sampling s t) (c : Nat) : sampling s (profileCell s t c) := by
  obtain ⟨m, p, rfl⟩ := h
  exact ⟨_, _, rfl⟩

theorem sample_eq {s t : State} (h : sampling s t) (c : Nat) :
    (poke t (profBase t + t.hub.profPos.toNat) (profBytes t c)).modHub (fun h => { h with profPos := BitVec.ofNat 24 (t.hub.profPos.toNat + 16) }) =
      profileCell s t c := by
  obtain ⟨m, p, rfl⟩ := h
  have hpos : BitVec.ofNat 24 (p.toNat + 16) = p + 16 := by
    rw [← BitVec.ofNat_add_ofNat, BitVec.ofNat_toNat, BitVec.setWidth_eq]
    rfl
  unfold profileCell
  dsimp only
  rw [hpos]
  rfl

theorem foldl_sample_eq {s : State} (cs : List Nat) {t : State} (h : sampling s t) : cs.foldl (fun t c =>
    (poke t (profBase t + t.hub.profPos.toNat) (profBytes t c)).modHub (fun h => { h with profPos := BitVec.ofNat 24 (t.hub.profPos.toNat + 16) })) t =
      cs.foldl (profileCell s) t := by
  induction cs generalizing t with
  | nil => rw [List.foldl_nil, List.foldl_nil]
  | cons c cs ih =>
    rw [List.foldl_cons, List.foldl_cons, sample_eq h]
    exact ih (profileCell_sampling h c)

theorem profileSample_of_enabled {s : State} (he : s.hub.profEn = true) (hd : compDown s 4 = false) :
    profileSample s = ((List.range 256).filter (cellPresent s)).foldl (profileCell s) s := by
  rw [← foldl_sample_eq _ ⟨s.mem, s.hub.profPos, rfl⟩]
  exact if_neg (by simp [he, hd])

theorem profileCells_pwr (cs : List Nat) (s t : State) : (cs.foldl (profileCell s) t).pwr = t.pwr :=
  foldl_proj State.pwr (profileCell s) (fun _ (_ : Nat) => rfl) cs t

/-! ### Health -/

section
variable {s : State} {r : Requester} {v : Word} {f : State → State}

theorem csrCheck_health (h : r = .operator ∨ r = .firmware) : csrCheck s r (csrBase + 0xC24) 4 = .go .hub 0xC24 := by
  have hb : blockOf (csrBase + 0xC24) = some (.hub, 0xC24) := by decide
  have hr : csrRight r = true := by rcases h with rfl | rfl <;> rfl
  unfold csrCheck
  rw [if_neg (by decide), hb]
  dsimp only
  rw [if_neg (by simp [hr])]
  rfl

theorem healthWrite_of_clean (h : r = .operator ∨ r = .firmware) (hz : bits v.toNat 0 28 = 0) :
    healthWrite r v f s = csrAnswer r (csrBase + 0xC24) stOk 0 (f s) := by
  simp only [healthWrite, csrCheck_health h]
  rw [if_neg (by simp [hz])]

/-- The health state is another one: samples count anew, and it is saved. -/
def takeHealth (h : Health) (s : State) : State :=
  saveHealth (cmdResult 1 (s.modHub (fun k =>
    let k := { k with health := h, samples := 0, stPass := false }
    { k with recState := recommend k })))

theorem csrAnswer_hub (r : Requester) (a st : Nat) (w : Word) (s : State) : (csrAnswer r a st w s).hub = s.hub := rfl

theorem csrAnswer_boot (r : Requester) (a st : Nat) (w : Word) (s : State) : (csrAnswer r a st w s).boot = s.boot := rfl

theorem csrAnswer_mem (r : Requester) (a st : Nat) (w : Word) (s : State) : (csrAnswer r a st w s).mem = s.mem := rfl

theorem csrAnswer_sent (r : Requester) (a st : Nat) (w : Word) (s : State) : (csrAnswer r a st w s).sent = s.sent ++ [.csr r a st w] := rfl

/-- What a change of the health state brings about. -/
theorem takeHealth_fields (h : Health) (s : State) : (takeHealth h s).hub.health = h ∧ (takeHealth h s).hub.samples = 0 ∧
    (takeHealth h s).hub.stPass = false ∧ (takeHealth h s).hub.cmdResult = 1 ∧ (takeHealth h s).boot.hState = h ∧
    (takeHealth h s).sent = s.sent ∧ (takeHealth h s).mem = s.mem ∧ (takeHealth h s).pwr = s.pwr := ⟨rfl, rfl, rfl, rfl, rfl, rfl, rfl, rfl⟩

theorem healthCmdTarget_of_named {h : Health} (hr : r = .operator ∨ r = .firmware) (hz : bits v.toNat 0 28 = 0)
    (hh : healthOf (v.toNat / 2 ^ 30) = some h) (hf : bit v.toNat 29 = false ∨ r = .operator) :
    healthCmdTarget r v s = csrAnswer r (csrBase + 0xC24) stOk 0 (if healthOk s h (bit v.toNat 29) then takeHealth h s else cmdResult 2 s) := by
  unfold healthCmdTarget
  rw [healthWrite_of_clean hr hz]
  simp only [hh]
  rw [if_neg (by rcases hf with hf | hf <;> simp [hf])]
  cases healthOk s h (bit v.toNat 29) <;> rfl

theorem selfTest_of_asked (hr : r = .operator ∨ r = .firmware) (hz : bits v.toNat 0 28 = 0) (ha : bit v.toNat 28 = true) :
    selfTest r v s = csrAnswer r (csrBase + 0xC24) stOk 0
      (if s.hub.health ≠ .quarantine || s.hub.stRun then cmdResult 2 s else cmdResult 1 (s.modHub (fun h => { h with stRun := true }))) := by
  unfold selfTest
  rw [healthWrite_of_clean hr hz, if_neg (by simp [ha])]

end

/-- Settles O51: the beat by its core, the compartment by its restarts, the health command by its register. -/
theorem firmwareRuns : Obligations.FirmwareRuns := by
  refine ⟨?beat, ?fault, ?gate, ?profile, ?health, ?done⟩
  case beat =>
    intro s core hs hc
    refine ⟨fun hr => powered_of (hubBeat core) s _ hs (hubBeat_of_reset hr) rfl, fun hr => ?_⟩
    have hcomp := hubBeat_compOf hc hr
    have heff := hubBeat_of_running hc hr
    refine ⟨_, powered_of (hubBeat core) s _ hs rfl (by simp), ?_, fun c hst hcore => ?_, fun c hcore => ?_, fun h0 hn => ?_, fun h0 => ?_⟩
    · rw [heff]
      split <;> rfl
    · rw [hcomp]
      exact if_pos (by simp [hst, hcore])
    · rw [hcomp]
      exact if_neg (by simp [hcore])
    · have hnone : s.hub.comps.any (fun c => c.st = 3) = false := by simpa using hn
      rw [heff, takeGates_failed, if_pos (by simp [h0, hnone])]
      exact ⟨rfl, rfl⟩
    · rw [heff, if_neg (by simp [h0])]
      rfl
  case fault =>
    intro s c cause cmd times hs hst hcmd htimes
    subst htimes
    obtain ⟨hexec, hcause⟩ := exec_of_fault hcmd s
    have hrun := compFault_of_running (cause := cause) hst
    refine ⟨fun hn => ⟨_, ?_, compOf_reloaded hst, ?_⟩, fun hn hc => ⟨_, ?_, compOf_leftFailed hst, ?_⟩, fun hn hc => ?_⟩
    · rw [hexec]
      refine powered_of _ s _ hs (by rw [hrun, restartComp_of_few hcause hn]) ?_
      obtain ⟨-, -, -, -, hpwr⟩ := reloaded_frame c cause s
      rw [deliver_pwr, restartWork_pwr, hpwr]
    · obtain ⟨hmem, hq, hctx, hsec, -⟩ := reloaded_frame c cause s
      exact ⟨hmem, hq, hctx, hsec⟩
    · rw [hexec]
      refine powered_of _ s _ hs (by rw [hrun, restartComp_of_third hcause hn, if_neg (Nat.not_lt.mpr hc)]) ?_
      obtain ⟨-, -, hpwr⟩ := leftFailed_frame c cause s
      rw [deliver_pwr, hpwr]
    · obtain ⟨hmem, -, -⟩ := leftFailed_frame c cause s
      exact hmem
    · obtain ⟨-, hflash, hpwr⟩ := leftFailed_frame c cause s
      obtain ⟨wst, wstage, wmem, wflash, wended⟩ := warmReset_fields (leftFailed c cause s) (by rw [hpwr]; exact hs)
      refine ⟨_, ?_, wst, wstage, wmem, wflash.trans hflash⟩
      rw [hexec]
      refine powered_lit_of _ s _ hs ?_ (by rw [wst]; rfl)
      rw [hrun, restartComp_of_third hcause hn, if_pos hc, deliver_quiet _ _ wended]
  case gate =>
    intro s src dst msg hs hst hd
    refine ⟨fun hm hg => powered_of (gateCall src dst msg) s _ hs (gateCall_of_room hst hd hm hg) rfl, fun h => ?_⟩
    show powered (gateCall src dst msg) s = powered (compartmentFault src 4) s
    unfold powered
    rw [gateCall_of_fault hst hd h]
  case profile =>
    intro s hs
    refine ⟨fun he hd => ?_, fun h => ?_, ?_⟩
    · exact serving_of profileSample s _ hs (profileSample_of_enabled he hd) (profileCells_pwr _ s s)
    · exact serving_of profileSample s _ hs (if_pos (by rcases h with h | h <;> simp [h])) rfl
    · exact ⟨_, serving_of healthDecay s _ hs rfl rfl, rfl, rfl, rfl, rfl, rfl, rfl⟩
  case health =>
    intro s r v hs hr hz
    refine ⟨fun h hh hf => ⟨fun hok => ?_, fun hok => ?_⟩, fun ha hq hrun => ?_, fun ha h => ?_⟩
    · obtain ⟨hhealth, hsamples, hpass, hres, hboot, hsent, hmem, hpwr⟩ := takeHealth_fields h s
      refine ⟨csrAnswer r (csrBase + 0xC24) stOk 0 (takeHealth h s),
        serving_of (healthCmdTarget r v) s _ hs ((healthCmdTarget_of_named hr hz hh hf).trans (congrArg _ (if_pos hok)))
          ((csrAnswer_pwr _ _ _ _ _).trans hpwr), ?_⟩
      rw [csrAnswer_hub, csrAnswer_boot, csrAnswer_sent, csrAnswer_mem, hsent]
      exact ⟨hhealth, hsamples, hpass, hres, hboot, rfl, hmem⟩
    · exact serving_of (healthCmdTarget r v) s _ hs ((healthCmdTarget_of_named hr hz hh hf).trans (congrArg _ (if_neg (by simp [hok]))))
        (csrAnswer_pwr _ _ _ _ _)
    · exact serving_of (selfTest r v) s _ hs ((selfTest_of_asked hr hz ha).trans (congrArg _ (if_neg (by simp [hq, hrun]))))
        (csrAnswer_pwr _ _ _ _ _)
    · exact serving_of (selfTest r v) s _ hs ((selfTest_of_asked hr hz ha).trans (congrArg _ (if_pos (by rcases h with h | h <;> simp [h]))))
        (csrAnswer_pwr _ _ _ _ _)
  case done =>
    intro s pass hs hrun
    exact ⟨_, serving_of (selfTestDone pass) s _ hs (if_neg (by simp [hrun])) rfl, rfl, rfl, rfl, rfl⟩

end Sys2Proof.Machine
end

section
/-! PROOFS. The reset domains, crash samples and their summary, and the re-drive (R108, R121, R409, R410, R428 to R435, R470, R472). -/
namespace Sys2Proof.Machine

/-! ### Crash samples -/

theorem sampleCell_mem (c trigger seq time : Nat) (s : State) : ∃ m, sampleCell c trigger seq time s = { s with mem := m } := ⟨_, rfl⟩

/-- The state with the memory and the hub of another one. -/
def State.sampled (s t : State) : State := { t with mem := s.mem, hub := s.hub }

theorem sampled_sampleCell (s t : State) (c trigger seq time : Nat) : s.sampled (sampleCell c trigger seq time t) = s.sampled t := by
  obtain ⟨m, hm⟩ := sampleCell_mem c trigger seq time t
  rw [hm]
  rfl

theorem sampled_ffEvent (s t : State) (c v d u : Nat) (x : Option Nat) (b : Bytes) : s.sampled (ffEvent c v d u x b t) = s.sampled t := by
  obtain ⟨f, hf⟩ := ffEvent_eq t c v d u x b
  rw [hf]
  rfl

theorem sampled_modHub (s t : State) (f : Hub → Hub) : s.sampled (t.modHub f) = s.sampled t := rfl

/-- Sampling writes memory and events alone. -/
theorem sampled_sampleDie (s t : State) (d trigger : Nat) (cs : List Nat) : s.sampled (sampleDie d trigger cs t) = s.sampled t := by
  unfold sampleDie
  dsimp only
  split
  · rfl
  · rw [sampled_modHub, foldl_proj s.sampled _ (fun u c => sampled_sampleCell s u c trigger t.hub.ffSeq (fabricNs t)), sampled_ffEvent]

theorem sampleCells_frame (trigger : Nat) (cs : List Nat) (s : State) : s.sampled (sampleCells trigger cs s) = s :=
  foldl_proj s.sampled (fun t d => sampleDie d trigger cs t) (fun t d => sampled_sampleDie s t d trigger cs) (List.range 8) s

theorem sampleCells_cell (trigger : Nat) (cs : List Nat) (s : State) (e : Nat) : (sampleCells trigger cs s).cell e = s.cell e := by
  have h := congrArg (fun t : State => t.cell e) (sampleCells_frame trigger cs s)
  exact h

theorem sampleCells_clk (trigger : Nat) (cs : List Nat) (s : State) : (sampleCells trigger cs s).clk = s.clk := by
  have h := congrArg State.clk (sampleCells_frame trigger cs s)
  exact h

/-- The head of a sample stands in front of its slot. -/
theorem peek_sampleCell (s : State) (c trigger seq time : Nat) (hw : s.memsWf = true) :
    peek (sampleCell c trigger seq time s) (crashSlot s c) 4096 = crashHead s c trigger seq time := by
  have hmem : memWf memFill s.mem = true := by
    unfold State.memsWf at hw
    exact (Bool.and_eq_true_iff.mp hw).1
  have h0 := memWrite_wf memFill s.mem (crashSlot s c) (crashHead s c trigger seq time) hmem
  have h1 := memCopy_wf memFill _ (cellWin c + 0x580000) (crashSlot s c + 0x1000) 0x30000 h0
  have h2 := memCopy_wf memFill _ (cellWin c) (crashSlot s c + 0x31000) 0x10000 h1
  have hlen := crashHead_length c trigger seq time s
  unfold peek
  rw [memRead_eq]
  refine List.ext_getElem (by simp [hlen]) fun i hi hj => ?_
  have hi' : i < 4096 := by simpa using hi
  rw [List.getElem_map, List.getElem_range]
  unfold sampleCell
  dsimp only
  rw [memGet_memCopy _ _ _ _ _ _ h2, if_neg (by omega), memGet_memCopy _ _ _ _ _ _ h1, if_neg (by omega), memGet_memCopy _ _ _ _ _ _ h0, if_neg (by omega)]
  exact memGet_memWrite_inside memFill s.mem _ _ i hmem hj

/-! ### What every reset writes -/

section
variable (d die u tr x : Nat) (c : Option Nat) (s : State)

theorem noteReset_frame : { noteReset d die u tr c x s with hub := s.hub, freeCtr := s.freeCtr } = s := by
  unfold noteReset logError
  obtain ⟨g, n, h⟩ := logErrorP_eq s (errClass 0x12).2 0x12 die u none 0 (le 1 d ++ le 1 tr ++ le 1 (c.getD 0) ++ le 1 (b2n c.isSome))
  rw [h]
  rfl

/-- The record of a reset leaves what is neither the hub's nor a free value. -/
theorem noteReset_keep {α : Type} (P : State → α) (h : ∀ t : State, P { t with hub := s.hub, freeCtr := s.freeCtr } = P t) :
    P (noteReset d die u tr c x s) = P s := by
  rw [← h, noteReset_frame]

theorem noteReset_clk : (noteReset d die u tr c x s).clk = s.clk := noteReset_keep d die u tr x c s State.clk (fun _ => rfl)

theorem noteReset_comps : (noteReset d die u tr c x s).hub.comps = s.hub.comps ∧ (noteReset d die u tr c x s).hub.coreReset = s.hub.coreReset ∧
    (noteReset d die u tr c x s).hub.coreResets = s.hub.coreResets :=
  logError_comps 0x12 die u none 0 (le 1 d ++ le 1 tr ++ le 1 (c.getD 0) ++ le 1 (b2n c.isSome)) s

/-- The registers that a reset sets. -/
theorem noteReset_last : (noteReset d die u tr c x s).hub.rstDomain = BitVec.ofNat 4 d ∧ (noteReset d die u tr c x s).hub.rstDie = BitVec.ofNat 5 die ∧
    (noteReset d die u tr c x s).hub.rstCell = BitVec.ofNat 8 (c.getD 0) ∧ (noteReset d die u tr c x s).hub.rstTrig = BitVec.ofNat 7 tr :=
  ⟨rfl, rfl, rfl, rfl⟩

end

/-! ### Cells -/

theorem dropCell_hub (c : Nat) (s : State) : (dropCell c s).hub = s.hub := by
  unfold dropCell
  split
  · rfl
  · split <;> rfl

/-- The even cell of a pair keeps, of its other half, all but the PAIRED groups. -/
theorem dropCell_odd {c : Nat} {s : State} (h : (s.cell c).halves = true) (hc : c % 2 = 0) : (dropCell c s).cell (c + 1) =
    { s.cell (c + 1) with groups := (s.cell (c + 1)).groups.filter (fun g => g.2.tmode ≠ 1) } := by
  unfold dropCell
  rw [if_neg (by simp [h]), if_pos hc, dropOne_cell, if_neg (by omega), dropHalves_cell, if_pos rfl]

/-- The odd cell of a pair takes its even cell with it. -/
theorem dropCell_even {c : Nat} {s : State} (h : (s.cell c).halves = true) (hc : c % 2 = 1) :
    ((dropCell c s).cell (c - 1)).st = .resetting ∧ ((dropCell c s).cell (c - 1)).groups = [] := by
  unfold dropCell
  rw [if_neg (by simp [h]), if_neg (by omega), dropOne_cell, if_neg (by omega), dropOne_cell, if_pos rfl]
  exact ⟨rfl, rfl⟩

/-- The clocks of a cell's resets of the last 60 s. -/
def cellResets (s : State) (c : Nat) : List Nat := (s.cell c).resets.filter (fun t => decide (s.clk - t < 60 * clkS))

/-- A sampled cell is recorded and lost, and its reset counts. -/
def cellLost (c trigger : Nat) (s : State) : State :=
  (dropCell c (noteReset 1 (c / 32) c trigger (some c) (s.cell c).ctx (sampleCells trigger [c] s))).modCell c
    (fun u => { u with resets := s.clk :: cellResets s c })

section
variable {s : State} {c trigger : Nat}

theorem cellReset_of_present (hp : cellPresent s c = true) (hst : (s.cell c).st ≠ .resetting) (h1 : 1 ≤ trigger) (h3 : trigger ≤ 3) :
    cellReset c trigger s = if 2 ≤ (cellResets s c).length then parkCell c (cellLost c trigger s) else cellLost c trigger s := by
  unfold cellReset
  dsimp only
  rw [if_neg (by simp [hp, hst, h1, h3])]
  unfold cellLost cellResets
  rw [noteReset_clk, sampleCells_clk]

theorem cellLost_before (e : Nat) : (noteReset 1 (c / 32) c trigger (some c) (s.cell c).ctx (sampleCells trigger [c] s)).cell e = s.cell e := by
  rw [noteReset_cell, sampleCells_cell]

theorem cellLost_own : (cellLost c trigger s).cell c = { s.cell c with
    st := .resetting, tileIdx := 0, recs := [], prog := none, groups := [], bad := [], core := none,
    redrive := (match (s.cell c).prog with | some p => some p | none => (s.cell c).redrive), resets := s.clk :: cellResets s c } := by
  unfold cellLost
  rw [State.cell_modCell_same, dropCell_own, cellLost_before] <;> rfl

theorem cellLost_ne {e : Nat} (he : e ≠ c) : (cellLost c trigger s).cell e =
    (dropCell c (noteReset 1 (c / 32) c trigger (some c) (s.cell c).ctx (sampleCells trigger [c] s))).cell e := State.cell_modCell_ne _ _ _ _ he

theorem cellLost_hub : (cellLost c trigger s).hub =
    (noteReset 1 (c / 32) c trigger (some c) (s.cell c).ctx (sampleCells trigger [c] s)).hub := dropCell_hub c _

theorem cellLost_pwr : (cellLost c trigger s).pwr = s.pwr := by
  unfold cellLost
  simp

/-- A parked cell that nothing waits for leaves the rest as it was. -/
theorem parkCell_of_empty (h1 : (s.cell c).redrive = none) (h2 : (s.cell c).saved = none) (h3 : (s.cell c).stopFor = none) :
    parkCell c s = s.modCell c (fun u => { u with parked := true, redrive := none, saved := none, stopFor := none, stopPre := false, restoring := false }) := by
  unfold parkCell
  simp only [h1, h2, h3, Option.bind_none]

/-- The cells of a die that its reset takes. -/
def cellsToReset (s : State) (d : Nat) : List Nat :=
  ((List.range 32).map (· + 32 * d)).filter (fun c => cellPresent s c && decide ((s.cell c).st ≠ .resetting))

theorem dieReset_of_present {d : Nat} (hd : d < 8) (hf : fenced s d = false) : dieReset d s =
    (cellsToReset s d).foldl (fun t c => dropCell c t) (noteReset 2 d d 4 none 0 (sampleCells 4 (cellsToReset s d) s)) :=
  if_neg (by simp [hd, hf])

theorem mem_cellsToReset {d : Nat} : c ∈ cellsToReset s d ↔ c / 32 = d ∧ cellPresent s c = true ∧ (s.cell c).st ≠ .resetting := by
  unfold cellsToReset
  rw [List.mem_filter, Bool.and_eq_true, decide_eq_true_eq, List.mem_map]
  refine and_congr_left fun _ => ⟨?_, fun h => ⟨c % 32, List.mem_range.mpr (by omega), by omega⟩⟩
  rintro ⟨i, hi, rfl⟩
  have := List.mem_range.mp hi
  omega

theorem tryEnd_of_going {p : Program} (h : (s.cell c).prog = some p) (he : p.ended = false) (hf : p.fail = none) (hn : p.stopNew = false) :
    tryEnd c s = s := by
  simp only [tryEnd, h]
  rw [if_neg (by simp [he, hf, hn])]

theorem tryEnd_of_idle (h : (s.cell c).prog = none) : tryEnd c s = s := by
  simp only [tryEnd, h]

theorem redrive_of_program {p : Program} (hst : (s.cell c).st = .resetting) (hp : (s.cell c).parked = false) (hs : (s.cell c).stopFor = none)
    (hpre : (s.cell c).stopPre = false) (hr : (s.cell c).redrive = some p) (hn : p.stopNew = false) : redrive c s =
      (s.modCell c (fun u => { u with st := .running, prog := some p.again, redrive := none })).modHub (fun h => { h with redrives := bump h.redrives 1 }) := by
  simp only [redrive, hr, hs, hpre, hst, hp, Option.isSome_some, Option.isSome_none, Option.map_some, Bool.true_or,
    Bool.or_self, Bool.false_eq_true, if_true, if_false]
  rw [if_neg (by simp)]
  exact tryEnd_of_going (p := p.again) (by simp) rfl rfl hn

theorem redrive_of_idle (hst : (s.cell c).st = .resetting) (hp : (s.cell c).parked = false) (hs : (s.cell c).stopFor = none)
    (hpre : (s.cell c).stopPre = false) (hr : (s.cell c).redrive = none) (hn : (s.cell c).restoring = false) : redrive c s =
      s.modCell c (fun u => { u with st := .idle, prog := none, redrive := none }) := by
  simp only [redrive, hr, hs, hpre, hst, hp, hn, Option.isSome_none, Option.map_none, Bool.or_self, Bool.false_eq_true, if_false]
  rw [if_neg (by simp)]
  exact tryEnd_of_idle (by simp)

end

/-! ### Holders and link dies -/

/-- What runs or waits at a holder whose engine is lost ends INTERNAL. -/
def jobsEnded (h : Nat) (js : List EngJob) (s : State) : State := js.foldl (fun t j => endJob h j { s := t, st := stInternal }) s

/-- The engine of a holder is empty and in reset. -/
def emptyEngine (k : Holder) : Holder :=
  { k with queue := [], running := none, load := none, staged := [], announced := [], samples := [], stalled := false, resetting := true }

section
variable {s : State} {h d : Nat}

theorem jobsEnded_pwr (js : List EngJob) (s : State) : (jobsEnded h js s).pwr = s.pwr :=
  foldl_proj State.pwr (fun t j => endJob h j { s := t, st := stInternal }) (fun _ _ => endJob_pwr _ _ _) js s

theorem holderReset_of_idle (hp : (presentHolders s).contains h = true) (hr : (s.holder h).resetting = false) (hl : (s.holder h).load = none)
    (hrun : (s.holder h).running = none) :
    holderReset h s = (jobsEnded h (s.holder h).queue (noteReset 3 h h 0 none 0 s)).modHolder h emptyEngine := by
  simp only [holderReset, hl, hrun]
  exact if_neg (by rw [hp, hr]; decide)

theorem holderReset_of_running {j : EngJob} (hp : (presentHolders s).contains h = true) (hr : (s.holder h).resetting = false)
    (hl : (s.holder h).load = none) (hrun : (s.holder h).running = some j) : holderReset h s =
      (jobsEnded h (s.holder h).queue (endJob h j { s := noteReset 3 h h 0 none 0 s, st := stInternal })).modHolder h emptyEngine := by
  simp only [holderReset, hl, hrun]
  exact if_neg (by rw [hp, hr]; decide)

/-- The sub-ports of a link die that it takes down. -/
def diePorts (s : State) (d : Nat) : List (Nat × SubPort) := s.ports.filter (fun e => e.2.present && dieOfLane e.1 = d)

/-- The link die is down with its sub-ports, its keys and its reduction store. -/
def linkDieLost (d : Nat) (s : State) : State :=
  let t := (diePorts s d).foldl (fun t e => portDown e.1 t) (noteReset 4 d d 0 none 0 s)
  ({ t with red := t.red.filter (fun r => r.die ≠ d) } : State).modLink d (fun l => { l with resetting := true })

/-- The collectives that use a die end INTERNAL. -/
def dieCollsEnded (d : Nat) (v : State) : State := (v.colls.filter (fun k => k.die = d)).foldl (fun t k =>
  match findColl t k.x k.op k.group k.num with | some c => endColl c stInternal t | none => t) v

theorem linkDieReset_of_present (hd : d = 16 ∨ d = 17) (hf : fenced s d = false) (hr : (s.link d).resetting = false) :
    linkDieReset d s = dieCollsEnded d (linkDieLost d s) := by
  unfold linkDieReset
  dsimp only
  rw [if_neg (by rcases hd with rfl | rfl <;> simp [hf, hr])]
  unfold linkDieLost diePorts
  rw [noteReset_keep 4 d d 0 0 none s State.ports (fun _ => rfl)]
  rfl

theorem linkDieLost_pwr (d : Nat) (s : State) : (linkDieLost d s).pwr = s.pwr := by
  refine Eq.trans (b := ((diePorts s d).foldl (fun t e => portDown e.1 t) (noteReset 4 d d 0 none 0 s)).pwr) rfl ?_
  exact (foldl_proj State.pwr _ (fun t (e : Nat × SubPort) => portDown_pwr e.1 t) _ _).trans (noteReset_pwr _ _ _ _ _ _ _)

theorem dieCollsEnded_pwr (d : Nat) (v : State) : (dieCollsEnded d v).pwr = v.pwr := by
  refine foldl_proj State.pwr _ (fun t k => ?_) _ _
  split
  · rw [endColl_pwr]
  · rfl

end

/-! ### Hub cores and the whole device -/

/-- A running compartment of a core stops. -/
def stoppedOn (core : Nat) (c : Comp) : Comp := if c.core = core && c.st = 1 then { c with st := 2 } else c

/-- The clocks of the core resets of the last 60 s. -/
def coreResetsNow (s : State) : List Nat := s.hub.coreResets.filter (fun t => decide (s.clk - t < 60 * clkS))

/-- A core is in reset with its compartments. -/
def coreStopped (core : Nat) (s : State) : State := (noteReset 5 18 core 0 none 0 s).modHub (fun h =>
  { h with coreReset := h.coreReset ++ [core], coreResets := s.clk :: coreResetsNow s, comps := h.comps.map (stoppedOn core) })

section
variable {s : State} {core : Nat}

theorem hubCoreReset_of_running (hc : core < hubCores s) (hr : s.hub.coreReset.contains core = false) : hubCoreReset core s =
    if 2 ≤ (coreResetsNow s).length then warmReset (coreStopped core s) else coreStopped core s := by
  obtain ⟨-, -, hresets⟩ := noteReset_comps 5 18 core 0 0 none s
  unfold hubCoreReset
  dsimp only
  rw [if_neg (by rw [hr]; simpa using hc)]
  unfold coreStopped coreResetsNow stoppedOn
  rw [hresets, noteReset_clk]

theorem coreStopped_pwr : (coreStopped core s).pwr = s.pwr := noteReset_pwr 5 18 core 0 none 0 s

theorem escalate_of_stuck (h : s.holders.any (fun e => e.2.resetting) = true ∨ s.links.any (fun e => e.2.resetting) = true ∨ (compOf s 3).st = 3) :
    escalate s = warmReset s :=
  if_pos (by rcases h with h | h | h <;> simp [h])

end

/-! ### The summary -/

/-- The flash without one slot. -/
def slotErased (a : Nat) (m : List Host.Cell) : List Host.Cell := m.filter (fun c => !(decide (a ≤ c.1) && decide (c.1 < a + 0x200000)))

/-- The summary of a sampling is in flash, and the next one takes the next slot. -/
def summarized (i : Nat × Nat × Nat × List Nat) (s : State) : State :=
  { s with
    flash := memWrite flashFill (slotErased (0x100000 + 0x200000 * (s.boot.crashIdx % 4)) s.flash) (0x100000 + 0x200000 * (s.boot.crashIdx % 4))
      (Config.flashSeal flashKey (crashBody s i))
    boot := { s.boot with crashIdx := (s.boot.crashIdx + 1) % 4 }
    hub := { s.hub with crashInfo := none } }

theorem crashSummary_of_taken {s : State} {i : Nat × Nat × Nat × List Nat} (h : s.hub.crashInfo = some i) : crashSummary s = summarized i s := by
  simp only [crashSummary, h, summarized, slotErased]

theorem memWf_filter {d : Byte} {m : List Host.Cell} (p : Host.Cell → Bool) (h : memWf d m = true) : memWf d (m.filter p) = true := by
  rw [memWf_iff] at h ⊢
  obtain ⟨habove, hne⟩ := h
  exact ⟨above_filter_none p m habove, fun e he => hne e (List.mem_filter.mp he).1⟩

/-- A summary stands in its slot of the flash. -/
theorem memGet_summary {m : List Host.Cell} (h : memWf flashFill m = true) (a : Nat) (bs : Bytes) {j : Nat} (hj : j < bs.length) :
    memGet flashFill (memWrite flashFill (slotErased a m) a bs) (a + j) = (bs[j]?).getD 0 := by
  unfold slotErased
  rw [memGet_memWrite_inside flashFill _ a bs j (memWf_filter _ h) hj, List.getElem?_eq_getElem hj, Option.getD_some]

/-- Settles O53: each domain by what its reset loses, the re-drive by the program that waits, the summary by its slot. -/
theorem domainsReset : Obligations.DomainsReset := by
  refine ⟨?cell, ?park, fun s c tr seq time hw => peek_sampleCell s c tr seq time hw, ?die, ?redrive, ?holder, ?holderEnd, ?link, ?core, ?coreEnd,
    ?device, ?summary, ?request⟩
  case cell =>
    intro s c tr times hs hp hst h1 h3 htimes
    subst htimes
    obtain ⟨hdom, -, hcell, htrig⟩ := noteReset_last 1 (c / 32) c tr (s.cell c).ctx (some c) (sampleCells tr [c] s)
    refine ⟨cellLost c tr s, ?_, cellLost_own, fun e he => ?_, fun hh e he => ?_, fun hh => ⟨fun h0 => ?_, fun h1 => ?_⟩, ?_, ?_, ?_, cellLost_pwr⟩
    · have hon : s.pwr.st = .on := hs
      rw [← show cellResets s c = (s.cell c).resets.filter (fun t => decide (s.clk - t < 60 * clkS)) from rfl,
        ← cellReset_of_present hp hst h1 h3]
      show Host.Outcome.next (if s.pwr.st = .on then cellReset c tr s else s).settle = _
      rw [if_pos hon]
    · rw [cellLost_ne (fun h => he (by rw [h])), dropCell_far _ _ _ he, cellLost_before]
    · rw [cellLost_ne he, dropCell_alone _ _ (by rw [cellLost_before]; exact hh) _ he, cellLost_before]
    · rw [cellLost_ne (by omega), dropCell_odd (by rw [cellLost_before]; exact hh) h0, cellLost_before]
    · rw [cellLost_ne (by omega)]
      exact dropCell_even (by rw [cellLost_before]; exact hh) h1
    · rw [cellLost_hub]
      exact hdom
    · rw [cellLost_hub]
      exact hcell
    · rw [cellLost_hub]
      exact htrig
  case park =>
    intro s c h1 h2 h3
    rw [parkCell_of_empty h1 h2 h3]
    exact ⟨by rw [State.cell_modCell_same], rfl⟩
  case die =>
    intro s d hs hd hf
    have hcell : ∀ e, (noteReset 2 d d 4 none 0 (sampleCells 4 (cellsToReset s d) s)).cell e = s.cell e := fun e => by
      rw [noteReset_cell, sampleCells_cell]
    have hfold := foldl_dropCell (cellsToReset s d) (noteReset 2 d d 4 none 0 (sampleCells 4 (cellsToReset s d) s))
    have hhub := foldl_proj State.hub (fun t c => dropCell c t) (fun t c => dropCell_hub c t) (cellsToReset s d)
      (noteReset 2 d d 4 none 0 (sampleCells 4 (cellsToReset s d) s))
    obtain ⟨hdom, hdie, -, htrig⟩ := noteReset_last 2 d d 4 0 none (sampleCells 4 (cellsToReset s d) s)
    refine ⟨_, serving_of (dieReset d) s _ hs (dieReset_of_present hd hf) ?_, fun c hp hc => ?_, fun c hc => ?_, ?_, ?_, ?_⟩
    · rw [foldl_proj State.pwr (fun t c => dropCell c t) (fun t c => dropCell_pwr c t), noteReset_pwr, sampleCells_pwr]
    · obtain ⟨hin, hheld, -⟩ := hfold c
      by_cases hr : (s.cell c).st = .resetting
      · exact hheld (by rw [hcell]; exact hr)
      · exact hin (mem_cellsToReset.mpr ⟨hc, hp, hr⟩)
    · obtain ⟨-, -, hfar⟩ := hfold c
      rw [hfar (fun a ha h => ?_), hcell]
      obtain ⟨had, -, -⟩ := mem_cellsToReset.mp ha
      have hd' : a / 32 = d := had
      omega
    · rw [hhub]
      exact hdom
    · rw [hhub]
      exact hdie
    · rw [hhub]
      exact htrig
  case redrive =>
    intro s c hs hst hp hstop hpre
    refine ⟨fun p hr hn => ?_, fun hr hn => ?_⟩
    · exact serving_of (redrive c) s _ hs (redrive_of_program hst hp hstop hpre hr hn) rfl
    · exact serving_of (redrive c) s _ hs (redrive_of_idle hst hp hstop hpre hr hn) rfl
  case holder =>
    intro s h hs hp hr hl
    cases hrun : (s.holder h).running with
    | none =>
      refine ⟨_, _, rfl, rfl, serving_of (fun t => deliver 65536 (holderReset h t)) s _ hs
        (congrArg (deliver 65536) (holderReset_of_idle hp hr hl hrun)) ?_⟩
      exact (deliver_pwr _ _).trans ((jobsEnded_pwr _ _).trans (noteReset_pwr _ _ _ _ _ _ _))
    | some j =>
      refine ⟨_, _, rfl, rfl, serving_of (fun t => deliver 65536 (holderReset h t)) s _ hs
        (congrArg (deliver 65536) (holderReset_of_running hp hr hl hrun)) ?_⟩
      exact (deliver_pwr _ _).trans ((jobsEnded_pwr _ _).trans ((endJob_pwr _ _ _).trans (noteReset_pwr _ _ _ _ _ _ _)))
  case holderEnd =>
    intro s h hs hr
    exact serving_of (fun t => deliver 65536 (holderResetEnd h t)) s _ hs (congrArg (deliver 65536) (if_neg (by simp [hr])))
      ((deliver_pwr _ _).trans (offerAll_pwr _))
  case link =>
    intro s d hs hd hf hr
    refine ⟨linkDieLost d s, serving_of (fun t => deliver 65536 (linkDieReset d t)) s _ hs
      (congrArg (deliver 65536) (linkDieReset_of_present hd hf hr)) ?_, ?_, fun r hm => ?_, rfl⟩
    · exact (deliver_pwr _ _).trans ((dieCollsEnded_pwr _ _).trans (linkDieLost_pwr _ _))
    · unfold linkDieLost
      rw [State.link_modLink_same]
    · exact of_decide_eq_true (List.mem_filter.mp hm).2
  case core =>
    intro s core times hs hc hr htimes
    subst htimes
    obtain ⟨hcomps, hreset, -⟩ := noteReset_comps 5 18 core 0 0 none s
    have heff := hubCoreReset_of_running hc hr
    refine ⟨fun hn => ⟨coreStopped core s, ?_, ?_, ?_, ?_, ?_⟩, fun hn => ?_⟩
    · exact powered_of (hubCoreReset core) s _ hs (heff.trans (if_neg (Nat.not_le.mpr hn))) (by rw [coreStopped_pwr])
    · exact congrArg (· ++ [core]) hreset
    · exact congrArg (List.map (stoppedOn core)) hcomps
    · exact noteReset_keep 5 18 core 0 0 none s State.mem (fun _ => rfl)
    · exact noteReset_keep 5 18 core 0 0 none s State.queues (fun _ => rfl)
    · obtain ⟨wst, wstage, wmem, -, -⟩ := warmReset_fields (coreStopped core s) (by rw [coreStopped_pwr]; exact hs)
      exact ⟨_, powered_lit_of (hubCoreReset core) s _ hs (heff.trans (if_pos hn)) (by rw [wst]; rfl), wst, wstage, wmem⟩
  case coreEnd =>
    intro s core hs hr
    exact powered_settle (fun t => deliver 65536 (hubCoreResetEnd core t)) s _ hs (congrArg (deliver 65536) (if_neg (by rw [hr]; decide)))
  case device =>
    intro s hs
    obtain ⟨wst, wstage, wmem, wflash, -⟩ := warmReset_fields s hs
    have hlit : (warmReset s).pwr.st.isDark = false := by rw [wst]; rfl
    exact ⟨powered_lit_of warmReset s _ hs rfl hlit, powered_lit_of (warmRequest .operator) s _ hs (if_pos rfl) hlit,
      fun r hr => powered_of (warmRequest r) s _ hs (if_neg hr) rfl, fun h => powered_lit_of escalate s _ hs (escalate_of_stuck h) hlit,
      wst, wstage, wmem, wflash⟩
  case summary =>
    intro s hs
    refine ⟨fun hn => serving_of crashSummary s _ hs (by simp only [crashSummary, hn]) rfl, fun i hw hi => ?_⟩
    have hflash : memWf flashFill s.flash = true := by
      unfold State.memsWf at hw
      exact (Bool.and_eq_true_iff.mp hw).2
    exact ⟨_, serving_of crashSummary s _ hs (crashSummary_of_taken hi) rfl, rfl, rfl, rfl, fun j => memGet_summary hflash _ _⟩
  case request =>
    intro s r cells hs
    refine ⟨fun hr => serving_of (crashRequest r cells) s _ hs (if_pos hr) rfl, fun hd => ?_, fun hd => ?_⟩
    · exact serving_of (crashRequest .operator cells) s _ hs ((if_neg (by simp)).trans (if_pos hd)) rfl
    · exact serving_of (crashRequest .operator cells) s _ hs ((if_neg (by simp)).trans (if_neg (by simp [hd])))
        ((answer_pwr _ _ _ _).trans (sampleCells_pwr _ _ _))

end Sys2Proof.Machine
end

section
/-! PROOFS. Soldier checks, their verdicts, and thermal replay (R440 to R447). -/
namespace Sys2Proof.Machine

/-! ### What a record leaves of the hub -/

/-- What of the hub neither events nor penalties nor the error log touch. -/
def hubShell (h : Hub) : BitVec 16 × Option Replay := (h.solMis, h.replay)

theorem hubShell_ffEvent (c v d u : Nat) (x : Option Nat) (b : Bytes) (s : State) : hubShell (ffEvent c v d u x b s).hub = hubShell s.hub := by
  unfold ffEvent
  dsimp only
  split
  · rfl
  · split <;> rfl

theorem hubShell_addPenalty (k p : Nat) (h : Hub) : hubShell (addPenalty k p h) = hubShell h := by
  unfold addPenalty
  split <;> rfl

theorem hubShell_logErrorP (pen c d u : Nat) (x : Option Nat) (st : Nat) (b : Bytes) (s : State) :
    hubShell (logErrorP pen c d u x st b s).hub = hubShell s.hub := by
  unfold logErrorP
  dsimp only
  split
  · rfl
  · rw [hubShell_ffEvent]
    exact hubShell_addPenalty _ _ _

theorem logErrorP_replay (pen c d u : Nat) (x : Option Nat) (st : Nat) (b : Bytes) (s : State) :
    (logErrorP pen c d u x st b s).hub.replay = s.hub.replay := congrArg Prod.snd (hubShell_logErrorP pen c d u x st b s)

theorem logErrorP_solMis (pen c d u : Nat) (x : Option Nat) (st : Nat) (b : Bytes) (s : State) :
    (logErrorP pen c d u x st b s).hub.solMis = s.hub.solMis := congrArg Prod.fst (hubShell_logErrorP pen c d u x st b s)

/-! ### Soldier checks -/

section
variable {s : State} {d : Nat} {e : Sample} {b check : Bytes}

theorem soldierCheck_of_pending (h : (samplesOf s d).find? (fun e => e.check.isNone) = some e) : soldierCheck d b s =
    if b = e.witness then sampleDone e (putSample d e none s) else putSample d e (some { e with check := some b }) s := by
  simp only [soldierCheck, h]

/-- A verdict is recorded and counted. -/
def verdictLogged (e : Sample) (check : Bytes) (v : Nat) (s : State) : State :=
  (logErrorP (if v = 3 then 250 else 150) 0x0B (if e.matrix then e.unit / 32 else e.unit) e.unit (some e.ctx) stSdc
    (le 1 (if e.matrix then 0 else 1) ++ le 1 v ++ le 2 e.unit ++ le 2 e.checker ++ le 2 e.referee ++ le 1 e.ctx ++ le 2 e.tag
      ++ le 8 e.index ++ witness64 e e.witness ++ witness64 e check) s).modHub (fun h => { h with solMis := bump h.solMis 1 })

/-- A sample of the open step counts there. -/
def countedBad (e : Sample) (t : State) : State :=
  if e.jobbed && (t.sl e.ctx).step = e.step then t.modSl e.ctx (fun l => { l with soldierBad := l.soldierBad + 1 }) else t

/-- The record of a verdict, its count, and its count in the open step. -/
def verdictNoted (e : Sample) (check : Bytes) (v : Nat) (s : State) : State := countedBad e (verdictLogged e check v s)

theorem soldierReferee_of_checked (h : (samplesOf s d).find? (fun e => e.check.isSome) = some e) (hc : e.check = some check) :
    soldierReferee d b s = sampleDone e (putSample d e none
      (if verdictOf e check b = 1 then verdictNoted e check (verdictOf e check b) s
       else actOnVerdict e check (verdictNoted e check (verdictOf e check b) s))) := by
  simp only [soldierReferee, h, hc, Option.getD_some]
  rfl

/-- Where the count of a verdict does not matter, its record decides. -/
theorem verdictNoted_keep {α : Type} (P : State → α) (hsl : ∀ (t : State) x f, P (t.modSl x f) = P t) (hhub : ∀ (t : State) f, P (t.modHub f) = P t)
    (hlog : ∀ (t : State) p c d u x st b, P (logErrorP p c d u x st b t) = P t) (e : Sample) (check : Bytes) (v : Nat) (s : State) :
    P (verdictNoted e check v s) = P s := by
  refine Eq.trans (b := P (verdictLogged e check v s)) ?_ ((hhub _ _).trans (hlog _ _ _ _ _ _ _ _))
  unfold verdictNoted countedBad
  split
  · exact hsl _ _ _
  · rfl

theorem verdictNoted_solMis (v : Nat) : (verdictNoted e check v s).hub.solMis = bump s.hub.solMis 1 := by
  refine Eq.trans (b := (verdictLogged e check v s).hub.solMis) ?_ (congrArg (fun n => bump n 1) (logErrorP_solMis _ _ _ _ _ _ _ s))
  unfold verdictNoted countedBad
  split <;> rfl

theorem verdictLogged_sl (v x : Nat) : (verdictLogged e check v s).sl x = s.sl x := logErrorP_sl _ _ _ _ _ _ _ _ _

theorem verdictNoted_soldierBad (v : Nat) : ((verdictNoted e check v s).sl e.ctx).soldierBad =
    (s.sl e.ctx).soldierBad + b2n (e.jobbed && decide ((s.sl e.ctx).step = e.step)) := by
  unfold verdictNoted countedBad
  rw [verdictLogged_sl]
  by_cases h : (e.jobbed && decide ((s.sl e.ctx).step = e.step)) = true
  · rw [if_pos h, h, State.sl_modSl_same, verdictLogged_sl]
    rfl
  · rw [if_neg h, Bool.eq_false_iff.mpr h, verdictLogged_sl]
    rfl

theorem actOnVerdict_pwr (e : Sample) (check : Bytes) (s : State) : (actOnVerdict e check s).pwr = s.pwr := by
  unfold actOnVerdict
  split
  · unfold pokeOver
    exact foldl_fst_pwr (fun (r : State × Bytes) (o : Nat × Nat) => (poke r.1 o.1 (r.2.take o.2), r.2.drop o.2)) (fun _ _ => rfl) _ _
  · split <;> rfl

theorem actOnVerdict_of_bytes {a : Nat} (hm : e.matrix = false) (ho : e.outAt = [(a, check.length)]) : actOnVerdict e check s = poke s a check := by
  unfold actOnVerdict pokeOver
  rw [if_pos (by simp [hm]), ho, List.foldl_cons, List.foldl_nil, List.take_length]

theorem actOnVerdict_of_matrix (hm : e.matrix = true) (hj : e.jobbed = true) (hs : (s.sl e.ctx).step = e.step) :
    ((actOnVerdict e check s).sl e.ctx).soldierFail = true := by
  unfold actOnVerdict
  rw [if_neg (by simp [hm]), if_pos (by simp [hj, hs]), State.sl_modSl_same]

theorem putSample_of_cell (hd : d < 8) : (putSample d e none s).cellSamples = s.cellSamples.erase e := by
  unfold putSample
  dsimp only
  rw [if_pos hd]

theorem putSample_of_holder (hd : 8 ≤ d) : ((putSample d e none s).holder d).samples = (s.holder d).samples.erase e := by
  unfold putSample
  dsimp only
  rw [if_neg (Nat.not_lt.mpr hd), State.holder_modHolder_same]

theorem sampleDone_of_other (h : e.jobbed = false) : sampleDone e s = s := if_neg (by simp [h])

end

/-! ### Thermal replay -/

section
variable {s : State} {r : Replay}

/-- The record of a setpoint that was not reached. -/
def setpointMissed (r : Replay) (s : State) : State := logError 0x10 r.die 0 none 0 (le 1 r.die ++ le 2 (ofSigned 16 (hottest s r.die))) s

/-- An accepted request is in force with its cap. -/
def replayBegun (r : Replay) (s : State) : State :=
  { s.modHub (fun h => { h with replay := some r }) with pwr := { s.pwr with repCap := true } }

theorem thermalReplay_of_ok {session x d tol occ mc hold ref : Nat} {sp : List (Int × Nat × Nat)}
    (h : replayStatus s session x d sp tol occ mc hold ref = stOk) : thermalReplay session x d sp tol occ mc hold ref s =
      noteCaps (replayBegun { x := x, die := d, points := sp, tol := tol, occ := occ, memClass := mc, holdS := hold, refAddr := ref } s) :=
  if_neg (not_not.mpr h)

theorem setpointHold_of_running (h : s.hub.replay = some r) :
    setpointHold s = s.modHub (fun h => { h with replay := some { r with held := true } }) := by
  simp only [setpointHold, h]

theorem setpointSkip_of_held (h : s.hub.replay = some r) (hh : r.held = true) : setpointSkip s = s := by
  simp only [setpointSkip, h]
  exact if_pos hh

theorem setpointSkip_of_open (h : s.hub.replay = some r) (hh : r.held = false) : setpointSkip s = endSetpoint 2 (setpointMissed r s) := by
  simp only [setpointSkip, h]
  exact if_neg (by simp [hh])

theorem endSetpoint_of_more {res : Nat} (h : s.hub.replay = some r) (hn : r.at_ + 1 < r.points.length) : endSetpoint res s =
    s.modHub (fun h => { h with replay := some { r with result := r.result ++ [res], at_ := r.at_ + 1, held := false } }) := by
  simp only [endSetpoint, h]
  exact if_pos hn

theorem endSetpoint_of_last {res : Nat} (h : s.hub.replay = some r) (hn : r.points.length ≤ r.at_ + 1) : endSetpoint res s =
    answer 445 stOk ((r.result ++ [res]).map (BitVec.ofNat 8))
      (({ s with pwr := { s.pwr with repCap := false } } : State).modHub (fun h => { h with replay := none })) := by
  simp only [endSetpoint, h]
  exact if_neg (Nat.not_lt.mpr hn)

end

/-- Settles O54: a check by the sample that waits, the verdict by the three results, the replay by its setpoint. -/
theorem soldierChecks : Obligations.SoldierChecks := by
  refine ⟨?check, ?referee, ?verdict, ?buffer, ?act, ?accept, ?setpoint⟩
  case check =>
    intro s d e b hs he
    have heff : soldierCheck d b s = _ := soldierCheck_of_pending he
    refine ⟨fun hb => ?_, fun hb => ?_⟩
    · exact serving_of (fun t => deliver 65536 (soldierCheck d b t)) s _ hs (congrArg (deliver 65536) (heff.trans (if_pos hb)))
        ((deliver_pwr _ _).trans ((sampleDone_pwr _ _).trans (putSample_pwr _ _ _ _)))
    · exact serving_of (fun t => deliver 65536 (soldierCheck d b t)) s _ hs (congrArg (deliver 65536) (heff.trans (if_neg hb)))
        ((deliver_pwr _ _).trans (putSample_pwr _ _ _ _))
  case referee =>
    intro s d e b check v hs he hc hv
    subst hv
    have hpwr : (verdictNoted e check (verdictOf e check b) s).pwr = s.pwr :=
      verdictNoted_keep State.pwr (fun _ _ _ => rfl) (fun _ _ => rfl) (fun t p c d u x st b => logErrorP_pwr _ _ _ _ _ _ _ _) _ _ _ _
    refine ⟨verdictNoted e check (verdictOf e check b) s, serving_of (fun t => deliver 65536 (soldierReferee d b t)) s _ hs
      (congrArg (deliver 65536) (soldierReferee_of_checked he hc)) ?_, verdictNoted_solMis _, ?_, ?_, verdictNoted_soldierBad _⟩
    · rw [deliver_pwr, sampleDone_pwr, putSample_pwr]
      split
      · exact hpwr
      · exact (actOnVerdict_pwr _ _ _).trans hpwr
    · exact verdictNoted_keep State.mem (fun _ _ _ => rfl) (fun _ _ => rfl) (fun t p c d u x st b => logErrorP_mem _ _ _ _ _ _ _ _) _ _ _ _
    · exact verdictNoted_keep State.cellSamples (fun _ _ _ => rfl) (fun _ _ => rfl) (fun t p c d u x st b => logErrorP_cellSamples _ _ _ _ _ _ _ _) _ _ _ _
  case verdict =>
    intro e check b
    exact ⟨fun h => if_pos h, fun h1 h2 => (if_neg h1).trans (if_pos h2), fun h1 h2 => (if_neg h1).trans (if_neg h2)⟩
  case buffer => exact fun s d e => ⟨putSample_of_cell, putSample_of_holder, sampleDone_of_other⟩
  case act => exact fun s e check a => ⟨actOnVerdict_of_bytes, actOnVerdict_of_matrix⟩
  case accept =>
    intro s session x d tol occ mc hold ref st sp hs hst
    subst hst
    refine ⟨fun h => serving_of (thermalReplay session x d sp tol occ mc hold ref) s _ hs (if_pos h) rfl, fun h => ?_⟩
    have heff := thermalReplay_of_ok h
    obtain ⟨npwr, nmem, nhub⟩ := noteCaps_frame (replayBegun
      { x := x, die := d, points := sp, tol := tol, occ := occ, memClass := mc, holdS := hold, refAddr := ref } s)
    refine ⟨_, serving_of_st (thermalReplay session x d sp tol occ mc hold ref) s _ hs heff ?_, ?_, nmem, ?_⟩
    · rw [npwr]
      rfl
    · exact congrArg Power.repCap npwr
    · exact congrArg Hub.replay nhub
  case setpoint =>
    intro s r hs hr
    have hmiss : (setpointMissed r s).hub.replay = some r := (logErrorP_replay _ _ _ _ _ _ _ _).trans hr
    have hpwr : (setpointMissed r s).pwr = s.pwr := logError_pwr _ _ _ _ _ _ _
    have hmem : (setpointMissed r s).mem = s.mem := logError_mem _ _ _ _ _ _ _
    refine ⟨serving_of setpointHold s _ hs (setpointHold_of_running hr) rfl, fun hh => serving_of setpointSkip s _ hs (setpointSkip_of_held hr hh) rfl,
      fun hh hn => ?_, fun hh hn => ?_⟩
    · exact ⟨_, serving_of setpointSkip s _ hs ((setpointSkip_of_open hr hh).trans (endSetpoint_of_more hmiss hn)) hpwr, hmem, hpwr, rfl⟩
    · refine ⟨_, serving_of_st setpointSkip s _ hs ((setpointSkip_of_open hr hh).trans (endSetpoint_of_last hmiss hn)) ?_, hmem, ?_,
        rfl, ?_⟩
      · have hst : (setpointMissed r s).pwr.st = s.pwr.st := by rw [hpwr]
        exact hst
      · exact congrArg (fun p : Power => { p with repCap := false }) hpwr
      · exact congrArg (· ++ [OutMsg.mgmt 445 stOk ((r.result ++ [2]).map (BitVec.ofNat 8))]) (logError_sent _ _ _ _ _ _ _)

end Sys2Proof.Machine
end

section
/-! PROOFS. The boot controller, the readouts of Pupa mode and the fetches (R497, R498, R501, R506, R507, R516, R519). -/
namespace Sys2Proof.Machine

/-! ### BOOT_CTL -/

section
variable {s : State} {r : Requester} {v : Word} {f : State → State} {a : Nat}

theorem csrCheck_boot (h : r = .operator ∨ r = .firmware) : csrCheck s r (csrBase + 0x400030) 4 = .go .boot 0x30 := by
  have hb : blockOf (csrBase + 0x400030) = some (.boot, 0x30) := by decide
  have hr : csrRight r = true := by rcases h with rfl | rfl <;> rfl
  unfold csrCheck
  rw [if_neg (by decide), hb]
  dsimp only
  rw [if_neg (by simp [hr])]
  rfl

theorem bootCtl_of_firmware (ha : a = csrBase + 0x400030) : bootCtl .firmware v f s = csrAnswer .firmware a stPerm 0 s := by
  subst ha
  simp only [bootCtl, csrCheck_boot (r := .firmware) (Or.inr rfl)]
  rw [if_pos (by decide)]

theorem bootCtl_of_operator (ha : a = csrBase + 0x400030) (hz : bits v.toNat 0 24 = 0) :
    bootCtl .operator v f s = f (csrAnswer .operator a stOk 0 s) := by
  subst ha
  simp only [bootCtl, csrCheck_boot (r := .operator) (Or.inl rfl)]
  rw [if_neg (by decide), if_neg (by simp [hz])]

theorem bootCtlRestart_of_operator (ha : a = csrBase + 0x400030) (hz : bits v.toNat 0 24 = 0) (h31 : bit v.toNat 31 = true)
    (h30 : bit v.toNat 30 = false) : bootCtlRestart .operator v s = warmReset
      (if s.pwr.st = .pupa then { csrAnswer .operator a stOk 0 s with boot := { s.boot with trialMark := true } } else csrAnswer .operator a stOk 0 s) := by
  unfold bootCtlRestart
  rw [bootCtl_of_operator ha hz, if_neg (by simp [h31, h30])]
  rfl

/-- A warm reset whose start ends in Pupa mode. -/
def pupaReset (s : State) : State :=
  { warmReset s with boot := { (warmReset s).boot with pupaReq := true }, pwr := { (warmReset s).pwr with faultN := false } }

theorem bootCtlEnterPupa_of_operator (ha : a = csrBase + 0x400030) (hz : bits v.toNat 0 24 = 0) (h30 : bit v.toNat 30 = true) :
    bootCtlEnterPupa .operator v s = pupaReset (csrAnswer .operator a stOk 0 s) := by
  unfold bootCtlEnterPupa
  rw [bootCtl_of_operator ha hz, if_neg (by simp [h30])]
  rfl

theorem dieSelfTest_of_operator {mask : Nat} (ha : a = csrBase + 0x400030) (hz : bits v.toNat 0 24 = 0) (hp : s.pwr.st = .pupa)
    (h29 : bit v.toNat 29 = true) (hd : bits v.toNat 24 5 < 20) : dieSelfTest .operator v mask s =
      answer 501 stOk (le 1 (bits v.toNat 24 5) ++ le 1 mask) (csrAnswer .operator a stOk 0 s) := by
  unfold dieSelfTest
  rw [bootCtl_of_operator ha hz]
  dsimp only
  rw [csrAnswer_pwr, if_neg (by simp [hp, h29, hd])]

theorem noteUnfinished_kept (s : State) : (noteUnfinished s).sent = s.sent ∧ (noteUnfinished s).boot.trialMark = s.boot.trialMark := by
  unfold noteUnfinished
  split <;> exact ⟨rfl, rfl⟩

theorem warmReset_kept (h : s.pwr.st.isDark = false) : (warmReset s).sent = s.sent ∧ (warmReset s).boot.trialMark = s.boot.trialMark := by
  rw [warmReset_of_lit h]
  exact noteUnfinished_kept s

end

/-! ### Requests of the operator -/

section
variable {s : State} {n code : Nat} {f : State → State}

theorem asOperator_of_other (h : isOperator s n = false) : asOperator (.mgmt n) code f s = answer code stPerm [] s := by
  show (if !isOperator s n then _ else _) = _
  rw [if_pos (by simp [h])]

theorem asOperator_of_operator (h : isOperator s n = true) (hd : compDown s 3 = false) : asOperator (.mgmt n) code f s = f s := by
  show (if !isOperator s n then _ else if compDown s 3 then _ else f s) = _
  rw [if_neg (by simp [h]), if_neg (by simp [hd])]

/-- The bytes of the Firefly ring. -/
def readoutRing (s : State) : Bytes :=
  (((List.range 12288).filterMap (s.hub.evRing.get none)) ++ ((List.range 4096).filterMap (s.hub.trRing.get none))).flatMap ffBytes

theorem logReadout_of_pupa (hp : s.pwr.st = .pupa) (h : isOperator s n = true) (hd : compDown s 3 = false) : logReadout (.mgmt n) s =
    answer 501 stOk (le 4 (readBoot s 0) ++ s.boot.history.flatMap startBytes ++ readoutRing s ++ flashRead s 0x100000 0x800000) s := by
  unfold logReadout readoutRing
  rw [if_neg (by simp [hp]), asOperator_of_operator h hd]

theorem logReadout_of_other (hp : s.pwr.st = .pupa) (h : isOperator s n = false) : logReadout (.mgmt n) s = answer 501 stPerm [] s := by
  unfold logReadout
  rw [if_neg (by simp [hp]), asOperator_of_other h]

theorem fuseReadout_of_pupa (hp : s.pwr.st = .pupa) (h : isOperator s n = true) (hd : compDown s 3 = false) : fuseReadout (.mgmt n) s =
    answer 501 stOk (fuseBytes s.sec ++ (takeBytes 80 s).1 ++ le 2 s.boot.fuses) (takeBytes 80 s).2 := by
  unfold fuseReadout
  rw [if_neg (by simp [hp]), asOperator_of_operator h hd]

theorem fuseReadout_of_other (hp : s.pwr.st = .pupa) (h : isOperator s n = false) : fuseReadout (.mgmt n) s = answer 501 stPerm [] s := by
  unfold fuseReadout
  rw [if_neg (by simp [hp]), asOperator_of_other h]

end

/-! ### Fetches -/

section
variable {s : State} {n len : Nat} {cara : Bool} {data : Bytes}

/-- What a fetch may hold. -/
def fetchMax (cara : Bool) : Nat := if cara then 0x800000 else 0x8000000

/-- A fetched object is programmed. -/
def fetched (cara : Bool) (len : Nat) (data : Bytes) (s : State) : State := { s with
  flash := memWrite flashFill s.flash (if cara then fetchBase s else 0x1000000) (data.take len)
  boot := { s.boot with fetchSt := 1, fetchWhy := 0, fetchPct := BitVec.ofNat 7 ((data.take len).length * 100 / len), fetchCara := cara,
                        fetchAt := (if cara then fetchBase s else 0x1000000), fetchLen := len } }

theorem imageFetch_of_other (hp : s.pwr.st = .on ∨ s.pwr.st = .pupa) (h : isOperator s n = false) :
    imageFetch (.mgmt n) cara len data s = answer 506 stPerm [] s := by
  unfold imageFetch
  rw [if_neg (by rcases hp with hp | hp <;> simp [hp]), asOperator_of_other h]

theorem imageFetch_of_operator (hp : s.pwr.st = .on ∨ s.pwr.st = .pupa) (h : isOperator s n = true) (hd : compDown s 3 = false) :
    imageFetch (.mgmt n) cara len data s = if len = 0 || decide (len > fetchMax cara) then answer 506 stBad [] s
      else if s.boot.fetchSt = 1 || s.boot.fetchSt = 2 then answer 506 stConflict [] s
      else answer 506 stOk [] (fetched cara len data s) := by
  unfold imageFetch
  rw [if_neg (by rcases hp with hp | hp <;> simp [hp]), asOperator_of_operator h hd]
  rfl

/-- The reason for which a fetched object is refused. -/
def fetchFault (s : State) : Option Nat := if s.boot.fetchCara then fetchedFault s else (imageCheck s).map (·.1)

/-- A fetched object has failed. -/
def fetchRefused (s : State) : State := { s with boot := { s.boot with fetchSt := 4, fetchWhy := BitVec.ofNat 8 ((fetchFault s).getD 0) } }

/-- A fetched base is accepted. -/
def baseAccepted (s : State) : State := { s with
  boot := { s.boot with fetchSt := 3, caraSeen := max s.boot.caraSeen (leAt (flashRead s s.boot.fetchAt 64) 8 8 + 1), amends := [] } }

theorem fetchVerify_of_idle (h : s.boot.fetchSt ≠ 1) : fetchVerify s = s :=
  if_pos ((Bool.or_eq_true _ _).mpr (Or.inr (decide_eq_true h)))

theorem fetchVerify_of_done (hp : s.pwr.st = .on ∨ s.pwr.st = .pupa) (h : s.boot.fetchSt = 1) : fetchVerify s =
    if (fetchFault s).isSome || decide (s.boot.fetchPct.toNat < 100) then fetchRefused s
    else if !s.boot.fetchCara then { s with boot := { s.boot with fetchSt := 3 } } else baseAccepted s := by
  unfold fetchVerify
  rw [if_neg (by rcases hp with hp | hp <;> simp [hp, h])]
  rfl

end

/-- Settles O56: the boot controller by the write's bits, the readouts and fetches by the operator's authority. -/
theorem bootControl : Obligations.BootControl := by
  refine ⟨?control, ?readout, ?fetch, ?verify⟩
  case control =>
    intro s v a hs ha
    refine ⟨⟨?_, ?_⟩, fun mask => ?_, fun hz => ⟨fun h31 h30 hp => ?_, fun h31 h30 hp => ?_, fun h30 => ?_, fun mask hp h29 hd => ?_⟩⟩
    · exact powered_of (bootCtlRestart .firmware v) s _ hs (bootCtl_of_firmware ha) rfl
    · exact powered_of (bootCtlEnterPupa .firmware v) s _ hs (bootCtl_of_firmware ha) rfl
    · exact powered_of (dieSelfTest .firmware v mask) s _ hs (bootCtl_of_firmware ha) rfl
    · obtain ⟨wst, -, -, -, -⟩ := warmReset_fields (csrAnswer .operator a stOk 0 s) hs
      exact powered_lit_of (bootCtlRestart .operator v) s _ hs
        ((bootCtlRestart_of_operator ha hz h31 h30).trans (congrArg warmReset (if_neg hp))) (by rw [wst]; rfl)
    · have hlit : ({ csrAnswer .operator a stOk 0 s with boot := { s.boot with trialMark := true } } : State).pwr.st.isDark = false := hs
      obtain ⟨wst, wstage, wmem, -, -⟩ := warmReset_fields _ hlit
      obtain ⟨-, wmark⟩ := warmReset_kept hlit
      exact ⟨_, powered_lit_of (bootCtlRestart .operator v) s _ hs
        ((bootCtlRestart_of_operator ha hz h31 h30).trans (congrArg warmReset (if_pos hp))) (by rw [wst]; rfl), wst, wmark, wstage, wmem⟩
    · have hlit : (csrAnswer .operator a stOk 0 s).pwr.st.isDark = false := hs
      obtain ⟨wst, -, wmem, -, -⟩ := warmReset_fields _ hlit
      obtain ⟨wsent, -⟩ := warmReset_kept hlit
      exact ⟨pupaReset (csrAnswer .operator a stOk 0 s), powered_lit_of (bootCtlEnterPupa .operator v) s _ hs (bootCtlEnterPupa_of_operator ha hz h30)
        ((congrArg PwrSt.isDark wst).trans rfl), rfl, rfl, wst, wmem, wsent⟩
    · exact powered_of (dieSelfTest .operator v mask) s _ hs (dieSelfTest_of_operator ha hz hp h29 hd) rfl
  case readout =>
    intro s n hp
    have hs : s.pwr.st.isDark = false := by rw [hp]; rfl
    refine ⟨fun h => ⟨?_, ?_⟩, fun h hd => ⟨readoutRing s, ?_, ?_⟩⟩
    · exact powered_of (logReadout (.mgmt n)) s _ hs (logReadout_of_other hp h) rfl
    · exact powered_of (fuseReadout (.mgmt n)) s _ hs (fuseReadout_of_other hp h) rfl
    · exact powered_of (logReadout (.mgmt n)) s _ hs (logReadout_of_pupa hp h hd) (congrArg Power.st (answer_pwr _ _ _ _))
    · exact powered_of (fuseReadout (.mgmt n)) s _ hs (fuseReadout_of_pupa hp h hd) (congrArg Power.st ((answer_pwr _ _ _ _).trans (takeBytes_pwr _ _)))
  case fetch =>
    intro s n len cara data hp
    have hs : s.pwr.st.isDark = false := by rcases hp with hp | hp <;> rw [hp] <;> rfl
    refine ⟨fun h => powered_of (imageFetch (.mgmt n) cara len data) s _ hs (imageFetch_of_other hp h) rfl, fun h hd => ?_⟩
    have heff := imageFetch_of_operator (len := len) (cara := cara) (data := data) hp h hd
    refine ⟨fun hl => ?_, fun h0 hm => ⟨fun hf => ?_, fun h1 h2 => ?_⟩⟩
    · have hbad : (decide (len = 0) || decide (len > fetchMax cara)) = true := by
        rcases hl with hl | hl
        · simp [hl]
        · exact (Bool.or_eq_true _ _).mpr (Or.inr (decide_eq_true hl))
      exact powered_of (imageFetch (.mgmt n) cara len data) s _ hs (heff.trans (if_pos hbad)) rfl
    all_goals
      have hlen : ¬ (decide (len = 0) || decide (len > fetchMax cara)) = true := by
        have h0' : ¬ len = 0 := by omega
        have hm' : ¬ fetchMax cara < len := Nat.not_lt.mpr hm
        simp [h0', hm']
    · exact powered_of (imageFetch (.mgmt n) cara len data) s _ hs ((heff.trans (if_neg hlen)).trans (if_pos (by rcases hf with hf | hf <;> simp [hf]))) rfl
    · exact powered_of (imageFetch (.mgmt n) cara len data) s _ hs ((heff.trans (if_neg hlen)).trans (if_neg (by simpa using ⟨h1, h2⟩))) rfl
  case verify =>
    intro s why hp hwhy
    have hs : s.pwr.st.isDark = false := by rcases hp with hp | hp <;> rw [hp] <;> rfl
    refine ⟨fun h => powered_of fetchVerify s _ hs (fetchVerify_of_idle h) rfl, fun h => ?_⟩
    have heff := fetchVerify_of_done hp h
    have hw : why = fetchFault s := hwhy
    subst hw
    by_cases hb : ((fetchFault s).isSome || decide (s.boot.fetchPct.toNat < 100)) = true
    · rw [if_pos hb] at heff ⊢
      exact ⟨fetchRefused s, powered_of fetchVerify s _ hs heff rfl, rfl, rfl, rfl, fun _ => rfl, fun h3 => absurd h3 (by decide : (4 : BitVec _) ≠ 3)⟩
    · rw [if_neg hb] at heff ⊢
      have hpct : ¬ s.boot.fetchPct.toNat < 100 := fun h => hb (by simp [h])
      cases hc : s.boot.fetchCara with
      | false =>
        exact ⟨_, powered_of fetchVerify s _ hs (heff.trans (if_pos (by simp [hc]))) rfl, rfl, rfl, rfl, fun h => absurd h hpct, fun _ h => nomatch h⟩
      | true =>
        exact ⟨_, powered_of fetchVerify s _ hs (heff.trans (if_neg (by simp [hc]))) rfl, rfl, rfl, rfl, fun h => absurd h hpct, fun _ _ => rfl⟩

end Sys2Proof.Machine
end

section
/-! PROOFS. Molts and recoveries: hold, transfer, agreements, the switch, failures (R340 to R347, R403, R464). -/
namespace Sys2Proof.Machine

/-! ### Announcing -/

section
variable {s : State} {x : Nat} {m : Molt}

theorem announceMolt_of_shut (h : (s.sl x).isOpen = false) :
    announceMolt x m s = tryHold x (moltPhase x .announce (s.modCtx x (fun c => { c with molt := m }))) := by
  have hsl : (moltPhase x .announce (s.modCtx x (fun c => { c with molt := m }))).sl x = s.sl x := by
    unfold State.sl
    rw [moltPhase_ctx, if_pos rfl, State.ctx_modCtx_same]
  unfold announceMolt
  dsimp only
  rw [if_neg (by rw [hsl, h]; simp)]

/-- The context of an announced molt. -/
theorem announced_ctx : (moltPhase x .announce (s.modCtx x (fun c => { c with molt := m }))).ctx x =
    { s.ctx x with molt := { m with phase := .announce, begun := false, agreed := false, agree := none } } := by
  rw [moltPhase_ctx, if_pos rfl, State.ctx_modCtx_same]

/-- A member at its boundary holds. -/
theorem tryHold_of_boundary (hp : (s.ctx x).molt.phase = .announce) (hi : (s.ctx x).sl.phase = .idle) (hq : (s.ctx x).sl.pend = [])
    (h : (s.ctx x).molt.fresh = true ∨ (s.ctx x).molt.sMin ≤ (s.ctx x).sl.hdr.step + 1) :
    tryHold x s = moltPhase x .hold (s.modCtx x (fun c => { c with st := .molting })) := by
  unfold tryHold
  dsimp only
  rw [if_neg (by simp [hp, hi, hq]), if_pos (by rcases h with h | h <;> simp [h])]

/-- A member before its boundary goes on. -/
theorem tryHold_of_before (hf : (s.ctx x).molt.fresh = false) (hn : (s.ctx x).sl.hdr.step + 1 < (s.ctx x).molt.sMin) (hd : (s.ctx x).sl.dead = [])
    (hc : (s.ctx x).sl.cur = none) : tryHold x s = s := by
  unfold tryHold
  dsimp only
  split
  · rfl
  · exact if_neg (by simp [hf, Nat.not_le.mpr hn, hd, hc])

end

/-! ### Holding -/

/-- The state with the flows, ports, links and peers of another one. -/
def State.flowed (s t : State) : State := { t with ports := s.ports, links := s.links, peers := s.peers, sent := s.sent, snd := s.snd }

theorem flowed_wire (s t : State) (path : Nat) (p : FjPkt) : s.flowed (wire t path p) = s.flowed t := by
  have h := congrArg s.flowed (wire_frame t path p)
  exact h

theorem flowed_flowClose (s t : State) (k : FlowKey) : s.flowed (flowClose k t) = s.flowed t := by
  unfold flowClose closeIfDone sendBare
  dsimp only
  split
  · split
    · rw [flowed_wire]
      rfl
    · rfl
  · rfl

theorem flowed_closeJobFlows (s t : State) (devs : List Nat) : s.flowed (closeJobFlows devs t) = s.flowed t :=
  foldl_proj s.flowed (fun t k => flowClose k t) (fun t k => flowed_flowClose s t k) _ t

theorem flowed_clearLost (s t : State) (j : Job) : s.flowed (clearLost j t) = s.flowed t := by
  refine foldl_proj s.flowed _ (fun u d => ?_) _ t
  split <;> rfl

theorem ctx_of_ctxs {s t : State} (h : t.ctxs = s.ctxs) (x : Nat) : t.ctx x = s.ctx x := by
  unfold State.ctx
  rw [h]

/-- What closing the flows of a job keeps. -/
theorem closeJobFlows_kept (devs : List Nat) (s : State) : (closeJobFlows devs s).ctxs = s.ctxs ∧ (closeJobFlows devs s).mem = s.mem ∧
    (closeJobFlows devs s).red = s.red := by
  have h := flowed_closeJobFlows s s devs
  have hctxs := congrArg State.ctxs h
  have hmem := congrArg State.mem h
  have hred := congrArg State.red h
  exact ⟨hctxs, hmem, hred⟩

theorem clearLost_kept (j : Job) (s : State) : (clearLost j s).ctxs = s.ctxs ∧ (clearLost j s).mem = s.mem ∧ (clearLost j s).red = s.red := by
  have h := flowed_clearLost s s j
  have hctxs := congrArg State.ctxs h
  have hmem := congrArg State.mem h
  have hred := congrArg State.red h
  exact ⟨hctxs, hmem, hred⟩

/-- The context of a device new to the job. -/
def joined (j : Job) (m : Molt) (seed : Bytes) (k : Ctx) : Ctx :=
  { k with
    jobTag := j.jobTag, jobSeed := (m.desc.map (·.1)).getD (BitVec.ofNat 256 (ofLe seed)), ledger := (m.desc.map (·.2)).getD 0, sems := [], semQ := [],
    semOvf := false, started := 0, admits := true }

/-- A device new to the job takes its tag, seed and ledger. -/
def moltJoined (x : Nat) (j : Job) (s : State) : State :=
  if (s.ctx x).molt.fresh then (takeBytes 32 s).2.modCtx x (joined j (s.ctx x).molt (takeBytes 32 s).1) else s

/-- What of the job's old epoch waits is dropped. -/
def moltCleared (x : Nat) (j : Job) (s : State) : State :=
  { s with red := s.red.filter (fun r => r.x ≠ x), routes := s.routes.filter (fun r => r.x ≠ x),
           rxq := s.rxq.filter (fun p => !(p.hdr.ctx = x && decide (p.hdr.jobTag = j.jobTag) && decide (p.hdr.epoch < j.epoch))) }

/-- A LOADING context, with the first header of a device new to the job. -/
def loadingCtx (m : Molt) (j : Job) (k : Ctx) : Ctx :=
  { k with st := .loading, sl := if m.fresh then { k.sl with hdr := hdrStart j j.jobTag, lastRecEpoch := some (j.epoch - 1) } else k.sl }

/-- The member has adopted the new epoch and carapace. -/
def moltAdopted (x : Nat) (j : Job) (s : State) : State :=
  (adoptEpoch x j (closeJobFlows (s.ctx x).molt.group (moltCleared x j (moltJoined x j s)))).modCtx x (loadingCtx (s.ctx x).molt j)

section
variable {s : State} {x : Nat} {j : Job}

theorem moltHold_of_idle (hp : (s.ctx x).molt.phase = .hold) (hj : (s.ctx x).molt.job = some j) (hw : workRuns s x = false)
    (h0 : (s.ctx x).started = 0) (hc : ∀ k ∈ s.colls, k.x ≠ x) (hr : (s.ctx x).molt.recover = false) :
    moltHold x s = moltPhase x .transfer (clearLost j (moltAdopted x j s)) := by
  have hcoll : s.colls.any (fun k => k.x = x) = false := by simpa using hc
  simp only [moltHold, hp, hj]
  rw [if_neg (by simp [hw, h0, hcoll]), if_neg (by simp [hr])]
  rfl

/-- The context of a member that has joined. -/
theorem moltJoined_ctx : (moltJoined x j s).ctx x = if (s.ctx x).molt.fresh then joined j (s.ctx x).molt (takeBytes 32 s).1 (s.ctx x) else s.ctx x := by
  unfold moltJoined
  split
  · rw [State.ctx_modCtx_same]
    rfl
  · rfl

/-- The context of a member that has adopted the new epoch. -/
def adoptedCtx (j : Job) (k : Ctx) : Ctx :=
  { k with
    job := some j, left := none, instNo := [], parIn := [],
    sl := { k.sl with epoch := j.epoch, votes := k.sl.votes.filter (fun v => v.epoch ≥ j.epoch), cur := none, uniform := true, refreshed := true } }

theorem adoptEpoch_ctx : (adoptEpoch x j s).ctx x = adoptedCtx j (s.ctx x) := State.ctx_modCtx_same _ _ _

theorem moltAdopted_ctx : (moltAdopted x j s).ctx x = loadingCtx (s.ctx x).molt j (adoptedCtx j ((moltJoined x j s).ctx x)) := by
  obtain ⟨hctxs, -, -⟩ := closeJobFlows_kept (s.ctx x).molt.group (moltCleared x j (moltJoined x j s))
  have hctx : (closeJobFlows (s.ctx x).molt.group (moltCleared x j (moltJoined x j s))).ctx x = (moltJoined x j s).ctx x :=
    ctx_of_ctxs hctxs x
  unfold moltAdopted
  rw [State.ctx_modCtx_same, adoptEpoch_ctx, hctx]

/-- The context of a member that holds no more. -/
theorem moltHeld_ctx : (moltPhase x .transfer (clearLost j (moltAdopted x j s))).ctx x =
    { (moltAdopted x j s).ctx x with
      molt := { ((moltAdopted x j s).ctx x).molt with phase := .transfer, begun := false, agreed := false, agree := none } } := by
  obtain ⟨hctxs, -, -⟩ := clearLost_kept j (moltAdopted x j s)
  have hctx : (clearLost j (moltAdopted x j s)).ctx x = (moltAdopted x j s).ctx x :=
    ctx_of_ctxs hctxs x
  rw [moltPhase_ctx, if_pos rfl, hctx]

theorem moltHeld_mem : (moltPhase x .transfer (clearLost j (moltAdopted x j s))).mem = s.mem := by
  obtain ⟨hp, -, -⟩ := moltPhase_frame x .transfer (clearLost j (moltAdopted x j s))
  obtain ⟨-, hl, -⟩ := clearLost_kept j (moltAdopted x j s)
  obtain ⟨-, hf, -⟩ := closeJobFlows_kept (s.ctx x).molt.group (moltCleared x j (moltJoined x j s))
  refine (hp.trans hl).trans (Eq.trans (b := (closeJobFlows (s.ctx x).molt.group (moltCleared x j (moltJoined x j s))).mem) rfl (hf.trans ?_))
  show (moltJoined x j s).mem = s.mem
  unfold moltJoined
  split <;> rfl

theorem moltHeld_red : (moltPhase x .transfer (clearLost j (moltAdopted x j s))).red = (moltJoined x j s).red.filter (fun r => r.x ≠ x) := by
  obtain ⟨-, hp, -⟩ := moltPhase_frame x .transfer (clearLost j (moltAdopted x j s))
  obtain ⟨-, -, hl⟩ := clearLost_kept j (moltAdopted x j s)
  obtain ⟨-, -, hf⟩ := closeJobFlows_kept (s.ctx x).molt.group (moltCleared x j (moltJoined x j s))
  exact (hp.trans hl).trans (Eq.trans (b := (closeJobFlows (s.ctx x).molt.group (moltCleared x j (moltJoined x j s))).red) rfl hf)

end

/-! ### Transfer and recovery -/

section
variable {s src : State} {x : Nat} {new old : Job}

/-- The molt's work has begun. -/
def moltBegun (x : Nat) (s : State) : State := modMolt x (fun m => { m with begun := true }) s

theorem moltTransfer_of_new (hp : (s.ctx x).molt.phase = .transfer) (hj : (s.ctx x).job = some new) (hb : (s.ctx x).molt.begun = false)
    (hr : (s.ctx x).molt.recover = false) : moltTransfer x s =
      checkMolt x (castHdr x (mendTransfer x ((s.ctx x).molt.old.getD new) (moveStages x ((s.ctx x).molt.old.getD new) new
        ((movedSlots ((s.ctx x).molt.old.getD new) new).foldl
          (fun t e => moveSlot (moltBegun x s) x e.1 (slotDev ((s.ctx x).molt.old.getD new) e.2.1) new e.2.1 e.2.2 t) (moltBegun x s))))) := by
  simp only [moltTransfer, hp, hj]
  exact if_neg (by simp [hb, hr])

theorem recoverRestore_of_checkpoint (hp : (s.ctx x).molt.phase = .transfer) (ho : (s.ctx x).molt.old = some old) (hj : (s.ctx x).job = some new)
    (hb : (s.ctx x).molt.begun = false) (hr : (s.ctx x).molt.recover = true) (hc : (s.ctx x).molt.checkpoint = true) : recoverRestore x s =
      checkMolt x (moltBegun x (s.modSl x (fun l => { l with hdr := hdrStart new new.jobTag }))) := by
  simp only [recoverRestore, hp, ho, hj]
  rw [if_neg (by simp [hb, hr]), if_pos hc]
  rfl

/-- The entries of the survivors. -/
def survivors (old : Job) (m : Molt) : List RecoverEnt := m.entries.filter (fun e => old.members.contains e.dev)

/-- The survivors' generation is chosen and restored. -/
def recoverBegun (x p : Nat) (old : Job) (s : State) : State :=
  restoreSnapshot x (modMolt x (fun m => { m with
    begun := true, p := some p, entries := survivors old (s.ctx x).molt, tStar := ((survivors old (s.ctx x).molt).map (·.step)).foldl max 0 }) s)

/-- Every slot that this device sends, awaits or copies in a recovery is under way. -/
def slotsRecovered (x : Nat) (old new : Job) (m : Molt) (u : State) : State :=
  (List.zip old.slots new.slots).zipIdx.foldl (fun w e =>
    if slotCount new e.2 = 0 then w
    else if (survivors old m).any (fun k => k.dev = slotDev old e.1.1) then moveSlot u x e.2 (slotDev old e.1.1) new e.1.1 e.1.2 w
    else if slotDev new e.1.2 = w.plate.devIndex && decide ((getKey m.heirs e.1.1.member).getD 0xFFFF ≠ w.plate.devIndex) then
      moveSlot u x e.2 ((getKey m.heirs e.1.1.member).getD 0xFFFF) new e.1.1 e.1.2 w
    else w) u

/-- The chunk rows that this device rebuilds as an heir. -/
def heirWork (x : Nat) (m : Molt) (v : State) : List Rebuild :=
  ((m.heirs.filter (fun h => h.2 = v.plate.devIndex)).map (·.1)).flatMap (fun l => rebuildRows v x l none)

/-- The heirs begin to rebuild. -/
def rebuildBegun (x : Nat) (m : Molt) (v : State) : State :=
  driveRebuild ((heirWork x m v).length + 1) x (castHdr x (modMolt x (fun m' => { m' with rebuild := heirWork x m v }) v))

theorem recoverRestore_of_none (hp : (s.ctx x).molt.phase = .transfer) (ho : (s.ctx x).molt.old = some old) (hj : (s.ctx x).job = some new)
    (hb : (s.ctx x).molt.begun = false) (hr : (s.ctx x).molt.recover = true) (hc : (s.ctx x).molt.checkpoint = false) (he : (s.ctx x).molt.entries ≠ [])
    (hn : recoverStep old (survivors old (s.ctx x).molt) = none) : recoverRestore x s = faultCtx x stMem (endMoltWith x stMem 3 s) := by
  unfold survivors at hn
  simp only [recoverRestore, hp, ho, hj, hn]
  rw [if_neg (by simp [hb, hr]), if_neg (by simp [hc]), if_neg (by simpa using he)]

theorem recoverRestore_of_step {p : Nat} (hp : (s.ctx x).molt.phase = .transfer) (ho : (s.ctx x).molt.old = some old) (hj : (s.ctx x).job = some new)
    (hb : (s.ctx x).molt.begun = false) (hr : (s.ctx x).molt.recover = true) (hc : (s.ctx x).molt.checkpoint = false) (he : (s.ctx x).molt.entries ≠ [])
    (hn : recoverStep old (survivors old (s.ctx x).molt) = some p) : recoverRestore x s =
      rebuildBegun x (s.ctx x).molt (mendTransfer x old (slotsRecovered x old new (s.ctx x).molt (recoverBegun x p old s))) := by
  unfold survivors at hn
  simp only [recoverRestore, hp, ho, hj, hn, Bool.not_not]
  rw [if_neg (by simp [hb, hr]), if_neg (by simp [hc]), if_neg (by simpa using he)]
  rfl

theorem moveSlot_of_others {i dev : Nat} {j : Job} {a b : SlotEnt} (hf : dev ≠ s.plate.devIndex) (ht : slotDev j b ≠ s.plate.devIndex) :
    moveSlot src x i dev j a b s = s := by
  unfold moveSlot
  dsimp only
  rw [if_neg (by simp [hf]), if_neg hf, if_neg ht]

end

/-! ### Agreements and ends -/

section
variable {s : State} {x st ok bad : Nat}

theorem moltAgreement_of_status (h : (s.ctx x).molt.agree = some (st, ok, bad)) (hst : st ≠ stOk) : moltAgreement x s = failMolt x st s := by
  simp only [moltAgreement, h]
  exact if_pos hst

theorem moltAgreement_of_loss (h : (s.ctx x).molt.agree = some (stOk, ok, bad)) (hok : ok ≠ (s.ctx x).molt.group.length) :
    moltAgreement x s = failMolt x stPeerLost s := by
  simp only [moltAgreement, h]
  rw [if_neg (by simp), if_pos hok]

theorem moltAgreement_of_bad (h : (s.ctx x).molt.agree = some (stOk, (s.ctx x).molt.group.length, bad)) (hbad : bad ≠ 0) : moltAgreement x s =
    failMolt x (if (s.ctx x).molt.phase = .verify then stDigest else if (s.ctx x).molt.phase = .transfer then stMem else stTimeout) s := by
  simp only [moltAgreement, h]
  rw [if_neg (by simp), if_neg (by simp), if_pos hbad]

theorem moltAgreement_of_transfer (h : (s.ctx x).molt.agree = some (stOk, (s.ctx x).molt.group.length, 0)) (hp : (s.ctx x).molt.phase = .transfer) :
    moltAgreement x s = checkMolt x (startVerify x (moltPhase x .verify s)) := by
  simp only [moltAgreement, h, hp]
  rw [if_neg (by simp), if_neg (by simp), if_neg (by simp)]

theorem moltAgreement_of_verify (h : (s.ctx x).molt.agree = some (stOk, (s.ctx x).molt.group.length, 0)) (hp : (s.ctx x).molt.phase = .verify) :
    moltAgreement x s = checkMolt x (startParity x (moltPhase x .parity s)) := by
  simp only [moltAgreement, h, hp]
  rw [if_neg (by simp), if_neg (by simp), if_neg (by simp)]

theorem moltAgreement_of_parity (h : (s.ctx x).molt.agree = some (stOk, (s.ctx x).molt.group.length, 0)) (hp : (s.ctx x).molt.phase = .parity) :
    moltAgreement x s = if edgeReached (moltPhase x .switch s) x then finishSwitch x (moltPhase x .switch s)
      else modMolt x (fun m => { m with waits := true }) (moltPhase x .switch s) := by
  simp only [moltAgreement, h, hp]
  rw [if_neg (by simp), if_neg (by simp), if_neg (by simp)]

theorem moltTimeout_of_running (h : (s.ctx x).molt.phase ∈ [.hold, .transfer, .verify, .parity]) : moltTimeout x s = failMolt x stTimeout s := by
  simp only [List.mem_cons, List.not_mem_nil, or_false] at h
  rcases h with h | h | h | h <;> simp only [moltTimeout, h]

theorem moltTimeout_of_none (h : (s.ctx x).molt.phase = .none) : moltTimeout x s = s := by
  simp only [moltTimeout, h]

/-- The firmware's collectives of a context are given up. -/
def hubCollsGone (x : Nat) (s : State) : State := { s with colls := s.colls.filter (fun k => !(k.x = x && k.queue.isNone)) }

/-- A member that still held adopts the new epoch. -/
def epochTaken (x : Nat) (s : State) : State :=
  match (s.ctx x).molt.phase, (s.ctx x).molt.job with
  | .hold, some j => adoptEpoch x j (hubCollsGone x s)
  | _, _ => hubCollsGone x s

theorem failMolt_of_lost (hp : (s.ctx x).molt.phase ∈ [.hold, .transfer, .verify, .parity])
    (h : (s.ctx x).molt.recover = true ∨ st = stPeerLost ∨ st = stTimeout) : failMolt x st s =
      endMoltWith x st 3 ((epochTaken x s).modCtx x (fun k => { k with st := .loading })) := by
  unfold failMolt
  dsimp only
  rw [if_neg (by simp only [List.mem_cons, List.not_mem_nil, or_false] at hp; rcases hp with hp | hp | hp | hp <;> simp [hp]),
    if_pos (by rcases h with h | h | h <;> simp [h])]
  rfl

theorem failMolt_of_revert (hp : (s.ctx x).molt.phase ∈ [.hold, .transfer, .verify, .parity]) (hr : (s.ctx x).molt.recover = false)
    (h1 : st ≠ stPeerLost) (h2 : st ≠ stTimeout) : failMolt x st s = revertMolt x st (hubCollsGone x s) := by
  unfold failMolt
  dsimp only
  rw [if_neg (by simp only [List.mem_cons, List.not_mem_nil, or_false] at hp; rcases hp with hp | hp | hp | hp <;> simp [hp]),
    if_neg (by simp [hr, h1, h2])]
  rfl

theorem revertMolt_of_old {old : Job} (hf : (s.ctx x).molt.fresh = false) (ho : (s.ctx x).molt.old = some old) : revertMolt x st s =
    endMoltWith x st 2 (s.modCtx x (fun k => { k with job := some { old with epoch := (s.ctx x).molt.epoch }, st := .ready })) := by
  unfold revertMolt
  dsimp only
  rw [if_neg (by simp [hf]), ho, Option.getD_some]

theorem epochTaken_of_hold {j : Job} (hp : (s.ctx x).molt.phase = .hold) (hj : (s.ctx x).molt.job = some j) :
    epochTaken x s = adoptEpoch x j (hubCollsGone x s) := by
  simp only [epochTaken, hp, hj]

end

/-- Settles O57: each row of a molt by its phase, its end by the status. -/
theorem moltsRun : Obligations.MoltsRun := by
  refine ⟨?announce, ?hold, ?transfer, fun s src x i dev j a b hf ht => moveSlot_of_others hf ht, ?agree, ?time, ?fail⟩
  case announce =>
    intro s x m hopen hidle hpend hphase
    have hctx := announced_ctx (s := s) (x := x) (m := m)
    rw [announceMolt_of_shut hopen]
    refine ⟨fun h => ?_, fun hf hn hd hc => ?_⟩
    · rw [tryHold_of_boundary (by rw [hctx]) (by rw [hctx]; exact hidle) (by rw [hctx]; exact hpend) (by rw [hctx]; exact h), moltPhase_ctx, if_pos rfl,
        State.ctx_modCtx_same]
      exact ⟨rfl, rfl⟩
    · rw [tryHold_of_before (by rw [hctx]; exact hf) (by rw [hctx]; exact hn) (by rw [hctx]; exact hd) (by rw [hctx]; exact hc), hctx]
      exact ⟨rfl, rfl⟩
  case hold =>
    intro s x j hs hp hj hw h0 hc hr
    refine ⟨_, serving_of (fun t => deliver 65536 (moltHold x t)) s _ hs (congrArg (deliver 65536) (moltHold_of_idle hp hj hw h0 hc hr)) ?_, ?_⟩
    · rw [deliver_pwr, ← moltHold_of_idle hp hj hw h0 hc hr, moltHold_pwr]
    · rw [State.sl, moltHeld_ctx, moltHeld_mem, moltHeld_red, moltAdopted_ctx, moltJoined_ctx]
      refine ⟨rfl, rfl, ?_, ?_, rfl, rfl, rfl, fun r hm => of_decide_eq_true (List.mem_filter.mp hm).2, fun hf => ?_⟩
      · unfold loadingCtx
        dsimp only
        split <;> rfl
      · unfold loadingCtx
        dsimp only
        split <;> rfl
      · unfold loadingCtx
        rw [if_pos hf, if_pos hf]
        refine ⟨rfl, rfl, fun d hd => ?_⟩
        unfold joined adoptedCtx
        simp only [hd, Option.map_some, Option.getD_some, and_self]
  case transfer =>
    intro s x new hs hp hj hb
    refine ⟨fun hr v o hv ho => ?_, fun hr old ho => ⟨fun hc => ?_, fun hc he hn => ?_, fun p hc he hn => ?_⟩⟩
    · subst hv ho
      have heff := moltTransfer_of_new hp hj hb hr
      exact serving_of (fun t => deliver 65536 (moltTransfer x t)) s _ hs (congrArg (deliver 65536) heff)
        ((deliver_pwr _ _).trans ((congrArg State.pwr heff).symm.trans (moltTransfer_pwr x s)))
    · have heff := recoverRestore_of_checkpoint hp ho hj hb hr hc
      exact serving_of (fun t => deliver 65536 (recoverRestore x t)) s _ hs (congrArg (deliver 65536) heff)
        ((deliver_pwr _ _).trans ((congrArg State.pwr heff).symm.trans (recoverRestore_pwr x s)))
    · have heff := recoverRestore_of_none hp ho hj hb hr hc he hn
      exact serving_of (fun t => deliver 65536 (recoverRestore x t)) s _ hs (congrArg (deliver 65536) heff)
        ((deliver_pwr _ _).trans ((congrArg State.pwr heff).symm.trans (recoverRestore_pwr x s)))
    · have heff := recoverRestore_of_step hp ho hj hb hr hc he hn
      exact ⟨recoverBegun x p old s, mendTransfer x old (slotsRecovered x old new (s.ctx x).molt (recoverBegun x p old s)), _, rfl, rfl, rfl,
        serving_of (fun t => deliver 65536 (recoverRestore x t)) s _ hs (congrArg (deliver 65536) heff)
          ((deliver_pwr _ _).trans ((congrArg State.pwr heff).symm.trans (recoverRestore_pwr x s)))⟩
  case agree =>
    intro s x st ok bad hs h
    have hrun : ∀ t, moltAgreement x s = t → exec (.moltAgreement x) s = .next (deliver 65536 t) := fun t ht =>
      serving_of (fun t => deliver 65536 (moltAgreement x t)) s _ hs (congrArg (deliver 65536) ht)
        ((deliver_pwr _ _).trans ((congrArg State.pwr ht).symm.trans (moltAgreement_pwr x s)))
    refine ⟨fun hst => hrun _ (moltAgreement_of_status h hst), fun hst hok => ?_, fun hst hok hbad => ?_, fun hst hok hbad => ⟨fun hp => ?_, fun hp => ?_,
      fun hp => ?_⟩⟩
    · subst hst
      exact hrun _ (moltAgreement_of_loss h hok)
    all_goals subst hst hok
    · exact hrun _ (moltAgreement_of_bad h hbad)
    all_goals subst hbad
    · exact hrun _ (moltAgreement_of_transfer h hp)
    · exact hrun _ (moltAgreement_of_verify h hp)
    · exact hrun _ (moltAgreement_of_parity h hp)
  case time =>
    intro s x hs
    refine ⟨fun hp => ?_, fun hp hw => ?_, fun he hp => ⟨?_, ?_⟩⟩
    · exact serving_of (fun t => deliver 65536 (moltTimeout x t)) s _ hs (congrArg (deliver 65536) (moltTimeout_of_running hp))
        ((deliver_pwr _ _).trans (failMolt_pwr _ _ _))
    · exact serving_of (fun t => deliver 65536 (lendSwitchWait x t)) s _ hs (congrArg (deliver 65536) (if_pos (by simp [hp, hw])))
        ((deliver_pwr _ _).trans (finishSwitch_pwr _ _))
    · exact net_of (moltTimeout x) s _ hs (moltTimeout_of_none hp) he rfl
    · exact net_of (lendSwitchWait x) s _ hs (if_neg (by simp [hp])) he rfl
  case fail =>
    intro s x st hp
    refine ⟨fun h => ?_, fun hr h1 h2 hf old ho => ?_⟩
    · rw [failMolt_of_lost hp h, State.sl, endMoltWith_ctx, State.ctx_modCtx_same]
      refine ⟨rfl, rfl, rfl, rfl, fun j hh hj => ?_⟩
      rw [epochTaken_of_hold hh hj, adoptEpoch_ctx]
      exact ⟨rfl, rfl⟩
    · rw [failMolt_of_revert hp hr h1 h2, revertMolt_of_old (s := hubCollsGone x s) hf ho, endMoltWith_ctx, State.ctx_modCtx_same]
      exact ⟨rfl, rfl, rfl, rfl⟩

end Sys2Proof.Machine
end

section
/-! PROOFS. Lending windows and amendments (R340, R344, R349, R350, R402 to R405, R508, R509, R516, R517). -/
namespace Sys2Proof.Machine

/-! ### Conversion of an edge -/

section
variable {s : State} {dev x : Nat} {cur : Job} {msg d : Bytes} {l : Lend}

theorem convert_of_other (h : leAt msg 0 1 ≠ 0x10 ∨ leAt msg 2 2 ≠ 32 ∨ (msg.drop 8).length < 32) : convert dev msg s = s := by
  have hbad : (leAt msg 0 1 ≠ 0x10 || leAt msg 2 2 ≠ 32 || decide ((msg.drop 8).length < 32)) = true := by
    rcases h with h | h | h
    · simp [h]
    · simp [h]
    · exact (Bool.or_eq_true _ _).mpr (Or.inr (decide_eq_true h))
  unfold convert convertMsg
  dsimp only
  rw [if_pos hbad]

theorem convert_of_named (h0 : leAt msg 0 1 = 0x10) (h2 : leAt msg 2 2 = 32) (hl : 32 ≤ (msg.drop 8).length)
    (hx : convertCtx s (leAt (msg.drop 8) 0 4) = some x) (hj : knownJob (s.ctx x) = some cur) :
    convert dev msg s = if coordinator cur = some dev then convertEdge x cur (msg.drop 8) s else s := by
  have hok : ¬ (leAt msg 0 1 ≠ 0x10 || leAt msg 2 2 ≠ 32 || decide ((msg.drop 8).length < 32)) = true := by
    have hlen : ¬ (msg.drop 8).length < 32 := Nat.not_lt.mpr hl
    rw [h0, h2, decide_eq_false hlen]
    decide
  simp only [convert, convertMsg, hx, hj]
  rw [if_neg hok]
  split <;> rfl

theorem convertEdge_of_busy (hl : cur.lend[leAt d 4 1]? = some l) (h : (s.ctx x).molt.phase ≠ .none) : convertEdge x cur d s = postMolt x stConflict s := by
  simp only [convertEdge, hl]
  exact if_pos (decide_eq_true h)

theorem convertEdge_of_bad (hl : cur.lend[leAt d 4 1]? = some l) (h : (s.ctx x).molt.phase = .none) (hb : l.cells = true ∨ leAt d 16 4 ≤ cur.epoch) :
    convertEdge x cur d s = postMolt x stBad s := by
  have hoff : ¬ moltOn (s.ctx x) = true := by
    unfold moltOn
    simp [h]
  simp only [convertEdge, hl]
  rw [if_neg hoff, if_pos]
  rcases hb with hb | hb <;> simp [hb]

end

/-! ### Lent cells -/

section
variable {s t : State} {x w : Nat} {l : Lend}

theorem windowOf_congr (h : (t.ctx x).job = (s.ctx x).job) : windowOf t x w = windowOf s x w := by
  unfold windowOf
  rw [h]

theorem windowOf_modWindow {f : Lend → Lend} (h : windowOf s x w = some l) : windowOf (modWindow x w f s) x w = some (f l) := by
  obtain ⟨j, hj, hl⟩ := Option.bind_eq_some_iff.mp h
  unfold windowOf
  rw [modWindow_ctx, if_pos rfl, hj, Option.map_some, Option.bind_some]
  show (j.lend.modify w f)[w]? = some (f l)
  rw [List.getElem?_modify_eq, hl]
  rfl

/-- The edge of a window is reported. -/
def edgeReported (x w st : Nat) (stop unc : Bool) (s : State) : State := cellsEvent x w stop unc (putLendStat w st unc s)

theorem edgeReported_ctx (st : Nat) (stop unc : Bool) (s : State) (y : Nat) : (edgeReported x w st stop unc s).ctx y = s.ctx y := by
  unfold edgeReported
  rw [cellsEvent_ctx, putLendStat_ctx]

theorem edgeReported_mem (st : Nat) (stop unc : Bool) (s : State) : (edgeReported x w st stop unc s).mem = s.mem := by
  unfold edgeReported cellsEvent lendEvent putLendStat
  rw [ffEvent_mem]
  split <;> rfl

/-- The cells of a window that its job still owns. -/
def cellsToGive (s : State) (x : Nat) (l : Lend) : List Nat := (lentCells s l).filter (fun c => (s.ctx x).owned.contains c)

/-- The lent cells stand with the serving context. -/
def cellsGiven (x w : Nat) (l : Lend) (cs : List Nat) (unc : Bool) (s : State) : State :=
  modWindow x w (fun l => { l with startConv := true, st := 2, uncertain := unc })
    ((s.modCtx x (fun c => { c with owned := c.owned.filter (fun k => !cs.contains k) })).modCtx l.serveCtx (fun c => { c with owned := c.owned ++ cs }))

/-- The lent cells stand with the job again. -/
def cellsBack (x w : Nat) (l : Lend) (cs : List Nat) (unc : Bool) (s : State) : State :=
  modWindow x w (fun l => { l with endConv := true, draining := false, st := 3, uncertain := unc })
    ((s.modCtx l.serveCtx (fun c => { c with owned := c.owned.filter (fun k => !cs.contains k), admits := true })).modCtx x
      (fun c => { c with owned := sortBy (fun a b => decide (a < b)) (c.owned ++ cs) }))

/-- The serving context admits no request, and its window drains. -/
def windowDraining (x w : Nat) (l : Lend) (s : State) : State :=
  modWindow x w (fun l => { l with draining := true }) (s.modCtx l.serveCtx (fun c => { c with admits := false }))

theorem giveCells_of_due (hw : windowOf s x w = some l) (hc : l.cells = true) (hm : (s.ctx x).molt.phase = .none) (hs : l.startConv = false) :
    giveCells x w s = edgeReported x w 2 false (timeUncertain s) (cellsGiven x w l (cellsToGive s x l) (timeUncertain s) s) := by
  have hoff : moltOn (s.ctx x) = false := by
    unfold moltOn
    simp [hm]
  simp only [giveCells, hw]
  rw [if_neg (by simp [hc, hs, hoff])]
  rfl

theorem giveCells_of_started (hw : windowOf s x w = some l) (hs : l.startConv = true) : giveCells x w s = s := by
  simp only [giveCells, hw]
  exact if_pos (by simp [hs])

theorem lendEnd_of_started (hw : windowOf s x w = some l) (hc : l.cells = true) (hs : l.startConv = true) (he : l.endConv = false)
    (hd : l.draining = false) : lendEnd x w s =
      if atIdle (windowDraining x w l s) x then takeBack x w (windowDraining x w l s) else windowDraining x w l s := by
  simp only [lendEnd, hw]
  exact if_neg (by simp [hc, hs, he, hd])

/-- The cells of a window that its serving context still owns. -/
def cellsToTake (s : State) (l : Lend) : List Nat := (lentCells s l).filter (fun c => (s.ctx l.serveCtx).owned.contains c)

theorem takeBack_of_busy (hw : windowOf s x w = some l) (hd : drained s l = false) : takeBack x w s = s := by
  simp only [takeBack, hw]
  exact if_pos (by simp [hd])

theorem takeBack_of_drained (hw : windowOf s x w = some l) (hc : l.cells = true) (hd : l.draining = true) (he : l.endConv = false)
    (hm : (s.ctx x).molt.phase = .none) (hdr : drained s l = true) :
    takeBack x w s = edgeReported x w 3 true (timeUncertain s) (cellsBack x w l (cellsToTake s l) (timeUncertain s) s) := by
  have hoff : moltOn (s.ctx x) = false := by
    unfold moltOn
    simp [hm]
  simp only [takeBack, hw]
  rw [if_neg (by simp [hc, hd, he, hdr, hoff])]
  rfl

/-- The launches of a serving context that still run are ended. -/
def servingStopped (l : Lend) (s : State) : State := s.queues.foldl (fun t q =>
  if q.2.ctx = l.serveCtx then q.2.flight.foldl (fun v c =>
    if c.counted && c.status.isNone && cOp c.bytes = 0x20 then stopProgram q.1 c.idx (finishCmd q.1 c.idx stPreempted 0 0 v) else v) t else t) s

theorem drainLimit_of_draining (hw : windowOf s x w = some l) (hd : l.draining = true) :
    drainLimit x w s = if atIdle (servingStopped l s) x then takeBack x w (servingStopped l s) else servingStopped l s := by
  simp only [drainLimit, hw]
  exact if_neg (by simp [hd])

theorem drainLimit_of_open (hw : windowOf s x w = some l) (hd : l.draining = false) : drainLimit x w s = s := by
  simp only [drainLimit, hw]
  exact if_pos (by simp [hd])

theorem cellsGiven_ctx (hx : x ≠ l.serveCtx) (hw : windowOf s x w = some l) (cs : List Nat) (unc : Bool) :
    ((cellsGiven x w l cs unc s).ctx x).owned = (s.ctx x).owned.filter (fun k => !cs.contains k) ∧
    ((cellsGiven x w l cs unc s).ctx l.serveCtx).owned = (s.ctx l.serveCtx).owned ++ cs ∧
    windowOf (cellsGiven x w l cs unc s) x w = some { l with startConv := true, st := 2, uncertain := unc } := by
  refine ⟨?_, ?_, windowOf_modWindow ?_⟩
  · unfold cellsGiven
    rw [modWindow_ctx, if_pos rfl, State.ctx_modCtx_ne _ _ _ _ hx, State.ctx_modCtx_same]
  · unfold cellsGiven
    rw [modWindow_ctx, if_neg hx.symm, State.ctx_modCtx_same, State.ctx_modCtx_ne _ _ _ _ hx.symm]
  · rw [← hw]
    exact windowOf_congr (by rw [State.ctx_modCtx_ne _ _ _ _ hx, State.ctx_modCtx_same])

theorem cellsBack_ctx (hx : x ≠ l.serveCtx) (hw : windowOf s x w = some l) (cs : List Nat) (unc : Bool) :
    ((cellsBack x w l cs unc s).ctx l.serveCtx).admits = true ∧
    ((cellsBack x w l cs unc s).ctx l.serveCtx).owned = (s.ctx l.serveCtx).owned.filter (fun k => !cs.contains k) ∧
    ((cellsBack x w l cs unc s).ctx x).owned = sortBy (fun a b => decide (a < b)) ((s.ctx x).owned ++ cs) ∧
    windowOf (cellsBack x w l cs unc s) x w = some { l with endConv := true, draining := false, st := 3, uncertain := unc } := by
  refine ⟨?_, ?_, ?_, windowOf_modWindow ?_⟩
  · unfold cellsBack
    rw [modWindow_ctx, if_neg hx.symm, State.ctx_modCtx_ne _ _ _ _ hx.symm, State.ctx_modCtx_same]
  · unfold cellsBack
    rw [modWindow_ctx, if_neg hx.symm, State.ctx_modCtx_ne _ _ _ _ hx.symm, State.ctx_modCtx_same]
  · unfold cellsBack
    rw [modWindow_ctx, if_pos rfl, State.ctx_modCtx_same, State.ctx_modCtx_ne _ _ _ _ hx]
  · rw [← hw]
    exact windowOf_congr (by rw [State.ctx_modCtx_same, State.ctx_modCtx_ne _ _ _ _ hx])

theorem windowDraining_ctx (hx : x ≠ l.serveCtx) (hw : windowOf s x w = some l) : ((windowDraining x w l s).ctx l.serveCtx).admits = false ∧
    windowOf (windowDraining x w l s) x w = some { l with draining := true } := by
  refine ⟨?_, windowOf_modWindow ?_⟩
  · unfold windowDraining
    rw [modWindow_ctx, if_neg hx.symm, State.ctx_modCtx_same]
  · rw [← hw]
    exact windowOf_congr (by rw [State.ctx_modCtx_ne _ _ _ _ hx])

end

/-! ### Amendments -/

/-- The path is open: the management compartment runs, where the request came over MGMT. -/
def pathOpen (s : State) (path : ReqPath) : Prop := ∀ n, path = .mgmt n → compDown s 3 = false

/-- What an amendment that changes the configuration brings about: it is stored, its plates and its sections take effect. -/
def amendApplied (b : Bytes) (new : Conf) (xs : List Nat) (s : State) : State :=
  xs.foldl (fun v x => match new.jobs.find? (fun j => j.1.ctx = x) with | some j => applySection j.1 j.2 v | none => v)
    (applyPlates (confNow s) new (storeAmend b s))

/-- The answer to an amendment in force: over MGMT at once, on a control queue when no molt of its context is under way. -/
def amendTaken (path : ReqPath) (u : State) : State :=
  match path with
  | .mgmt _ => amendAnswer path stOk u
  | .control x => if moltOn (u.ctx x) then u else amendAnswer path stOk u

/-- An amendment whose configuration is legal, by the status of its contents. -/
def amendDecided (path : ReqPath) (b : Bytes) (new : Conf) (xs : List Nat) (s : State) : State :=
  if amendStatus s (confNow s) new xs ≠ stOk then refuseAmend path xs (amendStatus s (confNow s) new xs) s
  else amendTaken path (amendApplied b new xs s)

/-- A well-formed amendment of this device: its signer, its base, the log, its configuration. -/
def amendChecked (path : ReqPath) (b : Bytes) (e : Envelope) (l : List (Nat × List Field)) (s : State) : State :=
  if !amendSigned s (confNow s) e b l || !pathFits s path e.signer (sectionCtxs l) then amendAnswer path stPerm s
  else if (match envelopeOf s.boot.stream with | some k => decide (k.seq ≠ e.baseSeq) | none => true) then refuseAmend path (sectionCtxs l) stConflict s
  else if logFull s.boot.amends b then refuseAmend path (sectionCtxs l) stConflict s
  else match confOf s s.boot.stream (s.boot.applied ++ [b]) with
    | .error _ => refuseAmend path (sectionCtxs l) stBad s
    | .ok c => amendDecided path b c.trim (sectionCtxs l) s

section
variable {s : State} {path : ReqPath} {b : Bytes} {e k : Envelope} {l : List (Nat × List Field)}

theorem amendment_of_long (hp : pathOpen s path) (h : 0x800000 < b.length) : amendment path b s = amendAnswer path stBad s := by
  unfold amendment
  dsimp only
  rw [if_neg (by cases path with | mgmt n => simp [hp n rfl] | control x => simp), if_pos (decide_eq_true h)]

theorem amendment_of_unframed (hp : pathOpen s path) (h : envelopeOf b = none) : amendment path b s = amendAnswer path stBad s := by
  simp only [amendment, h]
  rw [if_neg (by cases path with | mgmt n => simp [hp n rfl] | control x => simp), ite_self]

theorem amendment_of_foreign (hp : pathOpen s path) (hlen : b.length ≤ 0x800000) (he : envelopeOf b = some e)
    (h : e.kind ≠ 1 ∨ (e.serial ≠ 0 ∧ e.serial ≠ Config.serial.toNat)) : amendment path b s = amendAnswer path stBad s := by
  simp only [amendment, he]
  rw [if_neg (by cases path with | mgmt n => simp [hp n rfl] | control x => simp), if_neg (by simpa using hlen), if_pos]
  rcases h with h | ⟨h1, h2⟩
  · simp [h]
  · simp [h1, h2]

theorem amendment_of_plates (hp : pathOpen s path) (hlen : b.length ≤ 0x800000) (he : envelopeOf b = some e) (hk : e.kind = 1)
    (hs : e.serial = 0 ∨ e.serial = Config.serial.toNat) (hl : streamPlates e b = .ok l) : amendment path b s = amendChecked path b e l s := by
  simp only [amendment, he, hl]
  rw [if_neg (by cases path with | mgmt n => simp [hp n rfl] | control x => simp), if_neg (by simpa using hlen),
    if_neg (by rcases hs with hs | hs <;> simp [hk, hs])]
  rfl

theorem amendChecked_of_unsigned (h : amendSigned s (confNow s) e b l = false ∨ pathFits s path e.signer (sectionCtxs l) = false) :
    amendChecked path b e l s = amendAnswer path stPerm s :=
  if_pos (by rcases h with h | h <;> simp [h])

theorem amendChecked_of_base (hs : amendSigned s (confNow s) e b l = true) (hf : pathFits s path e.signer (sectionCtxs l) = true)
    (h : ∀ k, envelopeOf s.boot.stream = some k → k.seq ≠ e.baseSeq) : amendChecked path b e l s = refuseAmend path (sectionCtxs l) stConflict s := by
  unfold amendChecked
  rw [if_neg (by simp [hs, hf]), if_pos]
  cases hk : envelopeOf s.boot.stream with
  | none => rfl
  | some k => exact decide_eq_true (h k hk)

theorem amendChecked_of_full (hs : amendSigned s (confNow s) e b l = true) (hf : pathFits s path e.signer (sectionCtxs l) = true)
    (hfull : logFull s.boot.amends b = true) : amendChecked path b e l s = refuseAmend path (sectionCtxs l) stConflict s := by
  unfold amendChecked
  rw [if_neg (by simp [hs, hf]), if_pos hfull, ite_self]

theorem amendChecked_of_illegal {f : PlateErr} (hs : amendSigned s (confNow s) e b l = true) (hf : pathFits s path e.signer (sectionCtxs l) = true)
    (hk : envelopeOf s.boot.stream = some k) (hq : k.seq = e.baseSeq) (hfull : logFull s.boot.amends b = false)
    (hc : confOf s s.boot.stream (s.boot.applied ++ [b]) = .error f) : amendChecked path b e l s = refuseAmend path (sectionCtxs l) stBad s := by
  simp only [amendChecked, hk, hc]
  rw [if_neg (by simp [hs, hf]), if_neg (by simp [hq]), if_neg (by simp [hfull])]

theorem amendChecked_of_legal {c : Conf} (hs : amendSigned s (confNow s) e b l = true) (hf : pathFits s path e.signer (sectionCtxs l) = true)
    (hk : envelopeOf s.boot.stream = some k) (hq : k.seq = e.baseSeq) (hfull : logFull s.boot.amends b = false)
    (hc : confOf s s.boot.stream (s.boot.applied ++ [b]) = .ok c) : amendChecked path b e l s = amendDecided path b c.trim (sectionCtxs l) s := by
  simp only [amendChecked, hk, hc]
  rw [if_neg (by simp [hs, hf]), if_neg (by simp [hq]), if_neg (by simp [hfull])]

theorem storeAmend_fields (b : Bytes) (s : State) : (storeAmend b s).boot.amends = s.boot.amends ++ [b] ∧
    (storeAmend b s).boot.applied = s.boot.applied ++ [b] ∧ (storeAmend b s).sec.caraSeq = s.sec.caraSeq + 1 ∧ (storeAmend b s).mem = s.mem ∧
    (storeAmend b s).flash = s.flash := by
  unfold storeAmend
  dsimp only
  split
  · rw [ffEvent_boot, ffEvent_sec, ffEvent_mem, ffEvent_flash]
    exact ⟨rfl, rfl, rfl, rfl, rfl⟩
  · exact ⟨rfl, rfl, rfl, rfl, rfl⟩

end

/-- Settles O58: an edge by the coordinator, lent cells by their window, an amendment by the check that decides it. -/
theorem lendingAndAmendments : Obligations.LendingAndAmendments := by
  refine ⟨?convert, ?edge, ?window, ?back, ?limit, ?amend, ?refuse, fun s b => storeAmend_fields b s⟩
  case convert =>
    intro s dev x cur msg hs
    refine ⟨fun h => serving_of (convert dev msg) s _ hs (convert_of_other h) rfl, fun h0 h2 hl hx hj => ⟨fun hc => ?_, fun hc => ?_⟩⟩
    · exact serving_of (convert dev msg) s _ hs ((convert_of_named h0 h2 hl hx hj).trans (if_pos hc)) (convertEdge_pwr _ _ _ _)
    · exact serving_of (convert dev msg) s _ hs ((convert_of_named h0 h2 hl hx hj).trans (if_neg hc)) rfl
  case edge => exact fun s x cur d l hl => ⟨convertEdge_of_busy hl, convertEdge_of_bad hl⟩
  case window =>
    intro s x w l cs hs hw hc hm hx hcs
    subst hcs
    refine ⟨fun hst hi => ?_, fun hst he hd => ?_, fun h => ?_⟩
    · obtain ⟨hown, hserve, hwin⟩ := cellsGiven_ctx (s := s) hx hw (cellsToGive s x l) (timeUncertain s)
      have heff := giveCells_of_due hw hc hm hst
      refine ⟨_, serving_of (lendingWindowStart x w) s _ hs ((if_pos hi).trans heff) ((congrArg State.pwr heff).symm.trans (giveCells_pwr x w s)), ?_, ?_, ?_,
        edgeReported_mem _ _ _ _⟩
      · rw [edgeReported_ctx]
        exact hown
      · rw [edgeReported_ctx]
        exact hserve
      · rw [windowOf_congr (congrArg Ctx.job (edgeReported_ctx _ _ _ _ _))]
        exact hwin
    · have heff := lendEnd_of_started hw hc hst he hd
      obtain ⟨hadmits, hwin⟩ := windowDraining_ctx (s := s) hx hw
      exact ⟨windowDraining x w l s, serving_of (lendEnd x w) s _ hs heff ((congrArg State.pwr heff).symm.trans (lendEnd_pwr x w s)), hadmits, hwin, rfl⟩
    · have hnone : lendingWindowStart x w s = s := by
        rcases h with h | h
        · exact (if_congr Iff.rfl (giveCells_of_started hw h) rfl).trans (ite_self _)
        · exact if_neg (by simp [h])
      exact serving_of (lendingWindowStart x w) s _ hs hnone rfl
  case back =>
    intro s x w l cs hw hc hd he hm hx hcs
    subst hcs
    refine ⟨takeBack_of_busy hw, fun hdr => ?_⟩
    obtain ⟨hadmits, hserve, hown, hwin⟩ := cellsBack_ctx (s := s) hx hw (cellsToTake s l) (timeUncertain s)
    rw [takeBack_of_drained hw hc hd he hm hdr, windowOf_congr (congrArg Ctx.job (edgeReported_ctx _ _ _ _ _)), edgeReported_ctx, edgeReported_ctx]
    exact ⟨hadmits, hserve, hown, hwin⟩
  case limit =>
    intro s x w l hs hw
    exact ⟨fun hd => serving_of (drainLimit x w) s _ hs (drainLimit_of_open hw hd) rfl,
      fun hd => ⟨servingStopped l s, serving_settle (drainLimit x w) s _ hs (drainLimit_of_draining hw hd), rfl⟩⟩
  case amend =>
    intro s path b hs hp
    refine ⟨_, net_settle (amendment path b) s _ hs rfl, fun h => ?_, fun e hlen he => ⟨amendment_of_foreign hp hlen he, fun l hk hser hl => ?_⟩⟩
    · rcases h with h | h
      · exact amendment_of_long hp h
      · exact amendment_of_unframed hp h
    · rw [amendment_of_plates hp hlen he hk hser hl]
      refine ⟨amendChecked_of_unsigned, fun hsig hfit => ⟨fun h => ?_, fun k f hk hq hfull hc => amendChecked_of_illegal hsig hfit hk hq hfull hc,
        fun k c hk hq hfull hc => ⟨fun hst => ?_, fun u hst hu => ?_⟩⟩⟩
      · rcases h with h | h
        · exact amendChecked_of_full hsig hfit h
        · exact amendChecked_of_base hsig hfit h
      · exact (amendChecked_of_legal hsig hfit hk hq hfull hc).trans (if_pos hst)
      · have hu' : u = amendApplied b c.trim (sectionCtxs l) s := hu
        subst hu'
        have heff := (amendChecked_of_legal hsig hfit hk hq hfull hc).trans (if_neg (not_not.mpr hst))
        refine ⟨fun n hpath => ?_, fun y hpath => ?_⟩
        · subst hpath
          exact heff
        · subst hpath
          exact heff
  case refuse =>
    intro s path xs st
    refine ⟨fun y h => ?_, fun n h => ?_⟩
    · subst h
      rfl
    · subst h
      rfl

end Sys2Proof.Machine
end

section
/-! PROOFS. The operator's requests: ownership, CAKs, RMA, debug grants (R474, R482, R488, R489). -/
namespace Sys2Proof.Machine

/-! ### Ownership, CAKs and RMA -/

section
variable {s : State} {n : Nat} {o : Bytes × Bytes} {rsa mldsa a b key : Bytes}

/-- A change of ownership is signed by the current and by the new owner. -/
def changeSigned (o : Bytes × Bytes) (rsa mldsa a b : Bytes) : Bool := Config.hashSigned o.1 (rsa ++ mldsa) a && Config.hashSigned rsa (rsa ++ mldsa) b

/-- The device can take a new owner. -/
def ownerRoom (s : State) : Bool := allEmpty s && decide (s.sec.owners.length < 4) && s.sec.ownerNew.isNone

theorem ownershipChange_of_other (h : isOperator s n = false) : ownershipChange n rsa mldsa a b s = answer 474 stPerm [] s := by
  unfold ownershipChange
  split
  · rfl
  · exact if_pos (by simp [h])

theorem ownershipChange_of_owner (h : isOperator s n = true) (hd : compDown s 3 = false) (ho : ownerHashes s.sec = some o) :
    ownershipChange n rsa mldsa a b s = if changeSigned o rsa mldsa a b then
      (if ownerRoom s then answer 474 stOk [] { s with sec := { s.sec with ownerNew := some (rsa, mldsa) } } else answer 474 stConflict [] s)
    else answer 474 stPerm [] s := by
  simp only [ownershipChange, ho]
  cases hsig : changeSigned o rsa mldsa a b with
  | false =>
    unfold changeSigned at hsig
    rw [if_pos (by rw [Bool.and_eq_false_iff] at hsig; rcases hsig with hsig | hsig <;> simp [hsig]), if_neg (by simp)]
  | true =>
    unfold changeSigned at hsig
    obtain ⟨hold, hnew⟩ := Bool.and_eq_true_iff.mp hsig
    rw [if_neg (by simp [h, hold, hnew]), if_neg (by simp [hd]), if_pos rfl]
    cases hroom : ownerRoom s with
    | false =>
      refine (if_pos ?_).trans (if_neg (by simp)).symm
      unfold ownerRoom at hroom
      cases he : allEmpty s
      · rfl
      · by_cases hl : s.sec.owners.length < 4
        · have hnew : s.sec.ownerNew.isNone = false := by simpa [he, hl] using hroom
          rw [Option.isNone_eq_false_iff.mp hnew]
          simp
        · simp [Nat.not_lt.mp hl]
    | true =>
      unfold ownerRoom at hroom
      obtain ⟨hleft, hnone⟩ := Bool.and_eq_true_iff.mp hroom
      obtain ⟨he, hl⟩ := Bool.and_eq_true_iff.mp hleft
      have hl' : ¬ 4 ≤ s.sec.owners.length := Nat.not_le.mpr (of_decide_eq_true hl)
      rw [if_neg (by simp [he, hl', Option.isNone_iff_eq_none.mp hnone]), if_pos rfl]

theorem enterRma_of_other (h : isOperator s n = false) : enterRma n a b s = answer 488 stPerm [] s := by
  unfold enterRma
  split
  · rfl
  · exact if_pos (by simp [h])

/-- The keys and the CAK store of a device that goes to RMA are gone. -/
def keysDestroyed (s : State) : State :=
  { s with sec := { s.sec with lifecycle := max s.sec.lifecycle 3, slotLive := 0, slotKeys := [], caks := [] } }

/-- RMA is signed by the owner and by Onaov. -/
def rmaSigned (s : State) (o : Bytes × Bytes) (a b : Bytes) : Bool := Config.hashSigned o.1 (ascii "RMA") a && onaovSigned s (ascii "RMA") b

theorem enterRma_of_owner (h : isOperator s n = true) (hd : compDown s 3 = false) (ho : ownerHashes s.sec = some o) : enterRma n a b s =
    if rmaSigned s o a b then (if allEmpty s then warmReset (answer 488 stOk [] (keysDestroyed s)) else answer 488 stConflict [] s)
    else answer 488 stPerm [] s := by
  simp only [enterRma, ho]
  cases hsig : rmaSigned s o a b with
  | false =>
    unfold rmaSigned at hsig
    rw [if_pos (by rw [Bool.and_eq_false_iff] at hsig; rcases hsig with hsig | hsig <;> simp [hsig]), if_neg (by simp)]
  | true =>
    unfold rmaSigned at hsig
    obtain ⟨hown, hona⟩ := Bool.and_eq_true_iff.mp hsig
    rw [if_neg (by simp [h, hown, hona]), if_neg (by simp [hd]), if_pos rfl]
    cases he : allEmpty s <;> rfl

theorem cakInstall_of_other {k : Nat} (h : isOperator s n = false) : cakInstall n k key s = answer 489 stPerm [] s := if_pos (by simp [h])

theorem cakInstall_of_good {k : Nat} (h : isOperator s n = true) (hd : compDown s 3 = false) (hk : k < 16) (hne : key ≠ []) :
    cakInstall n k key s = answer 489 stOk [] { s with sec := { s.sec with caks := s.sec.caks.set k key } } := by
  unfold cakInstall
  rw [if_neg (by simp [h]), if_neg (by simp [hd]), if_neg (by simp [hk, hne])]

theorem cakInstall_of_bad {k : Nat} (h : isOperator s n = true) (hd : compDown s 3 = false) (hb : 16 ≤ k ∨ key = []) :
    cakInstall n k key s = answer 489 stBad [] s := by
  unfold cakInstall
  rw [if_neg (by simp [h]), if_neg (by simp [hd]), if_pos (by rcases hb with hb | hb <;> simp [hb])]

end

/-! ### Debug grants -/

section
variable {s : State} {n kind at_ len : Nat}

/-- What a grant of a kind lets pass: the crash area and the profile buffer for kind 3, what its kind names for the others. -/
def grantOf (kind : Nat) : Nat × Option Nat := (stOk, if kind = 3 then none else some kind)

/-- A grant of a logged kind is in the log. -/
def grantLogged (kind : Nat) (s : State) : State := if kind = 3 then s else logDebug kind s

theorem debugGrant_of_other (h : isOperator s n = false) : debugGrant n kind at_ len s = answer 488 stPerm [] s := if_pos (by simp [h])

theorem debugGrant_of_core (h : isOperator s n = true) : debugGrant n 2 at_ len s = answer 488 stOk [] (logDebug 2 s) := by
  unfold debugGrant
  rw [if_neg (by simp [h]), if_pos rfl]

theorem debugGrant_of_ring (h : isOperator s n = true) : debugGrant n 4 at_ len s = answer 488 stOk (ringAndCrashes s) s := by
  unfold debugGrant
  rw [if_neg (by simp [h]), if_neg (by decide), if_pos rfl]

theorem debugGrant_of_errors (h : isOperator s n = true) : debugGrant n 5 at_ len s = answer 488 stOk (errLogBytes s) s := by
  unfold debugGrant
  rw [if_neg (by simp [h]), if_neg (by decide), if_neg (by decide), if_pos rfl]

theorem grantLogged_read (a m : Nat) : readMem (grantLogged kind s) a m = readMem s a m := by
  unfold grantLogged
  split
  · rfl
  · exact readMem_congr s (logDebug kind s) rfl rfl rfl rfl rfl a m

theorem debugGrant_of_denied (h : isOperator s n = true) (h2 : kind ≠ 2) (h4 : kind ≠ 4) (h5 : kind ≠ 5)
    (hr : requestStatus s .operator false at_ len ≠ grantOf kind) : debugGrant n kind at_ len s = answer 488 stPerm [] s := by
  unfold debugGrant
  rw [if_neg (by simp [h]), if_neg h2, if_neg h4, if_neg h5]
  dsimp only
  refine if_pos ?_
  by_contra hc
  simp only [Bool.not_eq_true, Bool.or_eq_false_iff, decide_eq_false_iff_not, not_not] at hc
  exact hr (Prod.ext hc.1 hc.2)

theorem debugGrant_of_bytes {b : Bytes} (h : isOperator s n = true) (h2 : kind ≠ 2) (h4 : kind ≠ 4) (h5 : kind ≠ 5)
    (hr : requestStatus s .operator false at_ len = grantOf kind) (hb : readMem s at_ len = some b) :
    debugGrant n kind at_ len s = answer 488 stOk b (grantLogged kind s) := by
  have hread : readMem (grantLogged kind s) at_ len = some b := (grantLogged_read at_ len).trans hb
  unfold grantLogged at hread
  simp only [debugGrant, hr, hread]
  rw [if_neg (by simp [h]), if_neg h2, if_neg h4, if_neg h5, if_neg (by simp [grantOf])]
  rfl

theorem debugGrant_of_unreadable (h : isOperator s n = true) (h2 : kind ≠ 2) (h4 : kind ≠ 4) (h5 : kind ≠ 5)
    (hr : requestStatus s .operator false at_ len = grantOf kind) (hb : readMem s at_ len = none) :
    debugGrant n kind at_ len s = answer 488 stMem [] (notePoison (grantLogged kind s) at_ len) := by
  have hread : readMem (grantLogged kind s) at_ len = none := (grantLogged_read at_ len).trans hb
  unfold grantLogged at hread
  simp only [debugGrant, hr, hread]
  rw [if_neg (by simp [h]), if_neg h2, if_neg h4, if_neg h5, if_neg (by simp [grantOf])]
  rfl

theorem bit_or_four (w : BitVec 4) : bit (w ||| 4#4).toNat 2 = true := by
  revert w
  decide

end

/-- Settles O59: each request by its authority, its signatures and the state that it needs. -/
theorem operatorRequests : Obligations.OperatorRequests := by
  refine ⟨?owner, ?cak, ?grant, ?log⟩
  case owner =>
    intro s n o rsa mldsa a b hs
    refine ⟨fun h => ⟨?_, ?_, fun k key => ?_, fun kind at_ len => ?_⟩, fun h hd ho => ⟨fun he hl hn => ?_, fun hbusy => ?_, fun he => ?_, fun he => ?_⟩⟩
    · exact serving_of (ownershipChange n rsa mldsa a b) s _ hs (ownershipChange_of_other h) rfl
    · exact serving_of (enterRma n a b) s _ hs (enterRma_of_other h) rfl
    · exact serving_of (cakInstall n k key) s _ hs (cakInstall_of_other h) rfl
    · exact serving_of (debugGrant n kind at_ len) s _ hs (debugGrant_of_other h) rfl
    · have hroom : ownerRoom s = true := by
        unfold ownerRoom
        simp [he, hl, hn]
      refine serving_of (ownershipChange n rsa mldsa a b) s _ hs ((ownershipChange_of_owner h hd ho).trans (if_congr Iff.rfl (if_pos hroom) rfl)) ?_
      split <;> rfl
    · have hroom : ownerRoom s = false := by
        unfold ownerRoom
        rcases hbusy with hb | hb | hb
        · simp [hb]
        · simp [Nat.not_lt.mpr hb]
        · simp [Option.isSome_iff_ne_none.mpr hb]
      refine serving_of (ownershipChange n rsa mldsa a b) s _ hs
        ((ownershipChange_of_owner h hd ho).trans (if_congr Iff.rfl (if_neg (by simp [hroom])) rfl)) ?_
      split <;> rfl
    · refine serving_lit_of (enterRma n a b) s _ hs ((enterRma_of_owner h hd ho).trans (if_congr Iff.rfl (if_pos he) rfl)) ?_
      have hlit : s.pwr.st.isDark = false := by
        rw [show s.pwr.st = .on from hs]
        rfl
      split
      · obtain ⟨wst, -, -, -, -⟩ := warmReset_fields (answer 488 stOk [] (keysDestroyed s)) hlit
        exact (congrArg PwrSt.isDark wst).trans rfl
      · exact hlit
    · refine serving_of (enterRma n a b) s _ hs ((enterRma_of_owner h hd ho).trans (if_congr Iff.rfl (if_neg (by simp [he])) rfl)) ?_
      split <;> rfl
  case cak =>
    intro s n k key hs h hd
    exact ⟨fun hk hne => serving_of (cakInstall n k key) s _ hs (cakInstall_of_good h hd hk hne) rfl,
      fun hb => serving_of (cakInstall n k key) s _ hs (cakInstall_of_bad h hd hb) rfl⟩
  case grant =>
    intro s n kind at_ len hs h
    refine ⟨?_, ?_, ?_, fun hr => ⟨fun b hb => ?_, fun hb => ?_⟩, fun hr => ?_, fun hk hr => ⟨fun b hb => ?_, fun hb => ?_⟩, fun hk hr => ?_⟩
    · exact serving_of (debugGrant n 2 at_ len) s _ hs (debugGrant_of_core h) rfl
    · exact serving_of (debugGrant n 4 at_ len) s _ hs (debugGrant_of_ring h) (answer_pwr _ _ _ _)
    · exact serving_of (debugGrant n 5 at_ len) s _ hs (debugGrant_of_errors h) (answer_pwr _ _ _ _)
    · exact serving_of (debugGrant n 3 at_ len) s _ hs (debugGrant_of_bytes h (by decide) (by decide) (by decide) hr hb) rfl
    · exact serving_of (debugGrant n 3 at_ len) s _ hs (debugGrant_of_unreadable h (by decide) (by decide) (by decide) hr hb)
        ((answer_pwr _ _ _ _).trans (notePoison_pwr _ _ _))
    · exact serving_of (debugGrant n 3 at_ len) s _ hs (debugGrant_of_denied h (by decide) (by decide) (by decide) hr) rfl
    all_goals
      simp only [List.mem_cons, List.not_mem_nil, or_false, not_or] at hk
      obtain ⟨h2, h3, h4, h5⟩ := hk
      have hgrant : grantOf kind = (stOk, some kind) := congrArg (Prod.mk stOk) (if_neg h3)
      have hlog : grantLogged kind s = logDebug kind s := if_neg h3
      rw [← hgrant] at hr
    · exact serving_of (debugGrant n kind at_ len) s _ hs ((debugGrant_of_bytes h h2 h4 h5 hr hb).trans (congrArg _ hlog)) rfl
    · exact serving_of (debugGrant n kind at_ len) s _ hs
        ((debugGrant_of_unreadable h h2 h4 h5 hr hb).trans (congrArg (fun t => answer 488 stMem [] (notePoison t at_ len)) hlog))
        ((answer_pwr _ _ _ _).trans (notePoison_pwr _ _ _))
    · exact serving_of (debugGrant n kind at_ len) s _ hs (debugGrant_of_denied h h2 h4 h5 hr) rfl
  case log =>
    intro s b
    exact ⟨List.length_append, bit_or_four _, rfl, rfl⟩

end Sys2Proof.Machine
end

section
/-! PROOFS. SPDM as responder, and as requester in a re-admission (R353, R354, R481 to R485). -/
namespace Sys2Proof.Machine

/-- A command that needs the rails answers its effect when that keeps the power shell. -/
theorem powered_of_pwr {s : State} (h : s.pwr.st.isDark = false) (f : State → State) (t : State) (ht : f s = t) (hp : t.pwr = s.pwr) :
    powered f s = .next t := powered_of f s t h ht (by rw [hp])

/-! ### Negotiation -/

section
variable {s : State} {p : SpdmPath} {flags : Nat} {offer : Bytes}

/-- The transport's version is agreed, and what it had negotiated is void. -/
def versionAgreed (p : SpdmPath) (s : State) : State :=
  { s with sec := { s.sec with versioned := p :: s.sec.versioned.filter (· ≠ p), negotiated := s.sec.negotiated.filter (· ≠ p) } }

/-- The transport's algorithms are agreed. -/
def algorithmsAgreed (p : SpdmPath) (s : State) : State :=
  { s with sec := { s.sec with negotiated := p :: s.sec.negotiated.filter (· ≠ p) } }

theorem getVersion_of_up (h : spdmUp s p = true) : getVersion p s = spdmReply p 0x04 [0x12, 0x13] [] (versionAgreed p s) := if_neg (by simp [h])

theorem getCapabilities_of_versioned (h : spdmUp s p = true) (hv : s.sec.versioned.contains p = true) :
    getCapabilities p flags s = spdmReply p 0x61 [spdmCaps] [] s := by
  unfold getCapabilities
  rw [if_neg (by simp [h]), if_neg (by rw [hv]; decide)]

theorem getCapabilities_of_early (h : spdmUp s p = true) (hv : s.sec.versioned.contains p = false) :
    getCapabilities p flags s = spdmError p erUnexpected s := by
  unfold getCapabilities
  rw [if_neg (by simp [h]), if_pos (by rw [hv]; rfl)]

theorem negotiate_of_early (h : spdmUp s p = true) (hv : s.sec.versioned.contains p = false) : negotiate p offer s = spdmError p erUnexpected s := by
  unfold negotiate
  rw [if_neg (by simp [h]), if_pos (by rw [hv]; rfl)]

theorem negotiate_of_held (h : spdmUp s p = true) (hv : s.sec.versioned.contains p = true) (ha : bit (leAt offer 8 4) 6 = true)
    (hh : bit (leAt offer 12 4) 2 = true) : negotiate p offer s = spdmReply p 0x63 [64, 4] (Config.spdmBody 0x63 [] offer) (algorithmsAgreed p s) := by
  simp only [negotiate, ha, hh]
  rw [if_neg (by simp [h]), if_neg (by rw [hv]; decide)]
  rfl

theorem negotiate_of_lacking (h : spdmUp s p = true) (hv : s.sec.versioned.contains p = true)
    (hl : bit (leAt offer 8 4) 6 = false ∨ bit (leAt offer 12 4) 2 = false) : negotiate p offer s =
      spdmReply p 0x63 [b2n (bit (leAt offer 8 4) 6) * 64, b2n (bit (leAt offer 12 4) 2) * 4] (Config.spdmBody 0x63 [] offer) s := by
  unfold negotiate
  dsimp only
  rw [if_neg (by simp [h]), if_neg (by rw [hv]; decide), if_neg (c := (_ && _) = true) (by rcases hl with hl | hl <;> simp [hl])]

end

/-! ### Requests that need negotiated algorithms -/

section
variable {s : State} {p : SpdmPath} {off len index : Nat} {session : Option Nat} {nonce exch : Bytes}

/-- A portion of the RSA chain. -/
def chainReply (p : SpdmPath) (off len : Nat) (s : State) : State :=
  let part := slice (Config.certChain false) off (min len ((Config.certChain false).length - off))
  spdmReply p 0x02 [0, part.length, (Config.certChain false).length - off - part.length] part s

theorem getCertificate_of_negotiated (h : spdmUp s p = true) (hn : s.sec.negotiated.contains p = true) : getCertificate p 0 off len s =
    if (Config.certChain false).length ≤ off then spdmError p erInvalid s else chainReply p off len s := by
  unfold getCertificate
  rw [negotiated_run _ _ _ h hn]
  dsimp only
  by_cases ho : (Config.certChain false).length ≤ off
  · rw [if_pos (by simp [ho]), if_pos ho]
  · rw [if_neg (by simp [ho]), if_neg ho]
    rfl

/-- A report of measurements counts. -/
def reportCounted (index : Nat) (s : State) : State :=
  { s with sec := { s.sec with reports := s.sec.reports + b2n ((measIndices index).contains 0xF0) } }

/-- The blocks of an index. -/
def measBlocks (session : Option Nat) (index : Nat) (nonce : Bytes) (u : State) : Bytes :=
  (measIndices index).flatMap (fun i => measBlock i (measType i) (measValue u i nonce (reportScope u session)))

theorem reportCounted_eq : (if (measIndices index).contains 0xF0 then { s with sec := { s.sec with reports := s.sec.reports + 1 } } else s) =
    reportCounted index s := by
  unfold reportCounted
  cases (measIndices index).contains 0xF0 <;> rfl

theorem getMeasurements_of_number (h : spdmUp s p = true) (hn : s.sec.negotiated.contains p = true) :
    getMeasurements p session 0 nonce s = spdmReply p 0x60 [8] [] s := by
  unfold getMeasurements
  rw [negotiated_run _ _ _ h hn]
  exact if_pos rfl

theorem getMeasurements_of_invalid (h : spdmUp s p = true) (hn : s.sec.negotiated.contains p = true) (h0 : index ≠ 0)
    (hb : measIndices index = [] ∨ nonce.length ≠ 32) : getMeasurements p session index nonce s = spdmError p erInvalid s := by
  unfold getMeasurements
  rw [negotiated_run _ _ _ h hn]
  exact (if_neg h0).trans (if_pos (by rcases hb with hb | hb <;> simp [hb]))

theorem getMeasurements_of_blocks (h : spdmUp s p = true) (hn : s.sec.negotiated.contains p = true) (h0 : index ≠ 0)
    (hi : measIndices index ≠ []) (hl : nonce.length = 32) : getMeasurements p session index nonce s =
      spdmReply p 0x60 [(measIndices index).length, (measBlocks session index nonce (reportCounted index s)).length]
        (measBlocks session index nonce (reportCounted index s) ++ nonce ++
          fixLen 512 (Config.rsaSign s.sec.aliasSeed (measBlocks session index nonce (reportCounted index s) ++ nonce))) (reportCounted index s) := by
  unfold getMeasurements
  rw [negotiated_run _ _ _ h hn]
  dsimp only
  rw [if_neg h0, if_neg (by simp [hi, hl]), reportCounted_eq]
  rfl

/-- A session opens with a fresh secret of the device. -/
def sessionOpened (p : SpdmPath) (s : State) : State :=
  { (takeDraw s).2 with sec := { (takeDraw s).2.sec with
    sessions := s.sec.sessions ++ [{ id := s.sec.nextSid, path := p, clk := s.clk }], nextSid := s.sec.nextSid + 1 } }

theorem keyExchange_of_room (h : spdmUp s p = true) (hn : s.sec.negotiated.contains p = true) (hl : s.sec.sessions.length < 16) :
    keyExchange p 0 exch s =
      spdmReply p 0x64 [s.sec.nextSid] (Config.spdmBody 0x64 [s.sec.nextSid] (exch ++ keyBytes (takeDraw s).1)) (sessionOpened p s) := by
  unfold keyExchange
  rw [negotiated_run _ _ _ h hn]
  exact (if_neg (by simp)).trans (if_neg (Nat.not_le.mpr hl))

theorem keyExchange_of_full (h : spdmUp s p = true) (hn : s.sec.negotiated.contains p = true) (hl : 16 ≤ s.sec.sessions.length) :
    keyExchange p 0 exch s = spdmError p erSessions s := by
  unfold keyExchange
  rw [negotiated_run _ _ _ h hn]
  exact (if_neg (by simp)).trans (if_pos hl)

theorem challenge_of_nonce (h : spdmUp s p = true) (hn : s.sec.negotiated.contains p = true) (hl : nonce.length = 32) : challenge p 0 nonce s =
    spdmReply p 0x03 [0] (nonce ++ sha512 (Config.certChain false) ++ keyBytes (takeDraw s).1 ++
      fixLen 512 (Config.rsaSign s.sec.aliasSeed (nonce ++ sha512 (Config.certChain false) ++ keyBytes (takeDraw s).1))) (takeDraw s).2 := by
  unfold challenge
  rw [negotiated_run _ _ _ h hn]
  exact if_neg (by simp [hl])

end

/-! ### Sessions -/

section
variable {s : State} {sid op : Nat} {e : Session} {rsa mldsa proof : Bytes}

/-- A session is complete with its authority. -/
def sessionReady (sid : Nat) (a : Authority) (s : State) : State := { s with sec := { s.sec with
  sessions := s.sec.sessions.map (fun k => if k.id = sid then { k with ready := true, auth := a, clk := s.clk } else k) } }

/-- A session has new keys, or has shown that it holds them. -/
def keysRotated (sid op : Nat) (s : State) : State := { s with sec := { s.sec with
  sessions := s.sec.sessions.map (fun k => if k.id = sid then { k with keyGen := k.keyGen + (if op = 3 then 0 else 1), clk := s.clk } else k) } }

theorem finish_of_ready (he : s.sec.sessions.find? (fun e => e.id = sid) = some e) (h : spdmUp s e.path = true) (hr : e.ready = true) :
    finish sid rsa mldsa proof s = spdmError e.path erUnexpected s := by
  simp only [finish, he]
  rw [if_neg (by simp [h]), if_pos hr]

theorem finish_of_anonymous (he : s.sec.sessions.find? (fun e => e.id = sid) = some e) (h : spdmUp s e.path = true) (hr : e.ready = false) :
    finish sid [] [] proof s = spdmReply e.path 0x65 [sid] [] (sessionReady sid .none s) := by
  simp only [finish, he]
  rw [if_neg (by simp [h]), if_neg (by simp [hr])]
  rfl

theorem finish_of_mutual (he : s.sec.sessions.find? (fun e => e.id = sid) = some e) (h : spdmUp s e.path = true) (hr : e.ready = false)
    (hk : rsa ≠ []) : finish sid rsa mldsa proof s = if Config.finishVerify rsa proof then
      spdmReply e.path 0x65 [sid] [] (sessionReady sid (authorityOf s rsa mldsa) s) else spdmError e.path erDecrypt s := by
  have hm : (!(rsa.isEmpty && mldsa.isEmpty)) = true := by
    cases rsa with
    | nil => exact absurd rfl hk
    | cons b bs => rfl
  simp only [finish, he, hm]
  rw [if_neg (by simp [h]), if_neg (by simp [hr])]
  cases Config.finishVerify rsa proof <;> rfl

theorem keyUpdate_of_early (he : s.sec.sessions.find? (fun e => e.id = sid) = some e) (h : spdmUp s e.path = true) (hr : e.ready = false) :
    keyUpdate sid op s = spdmError e.path erUnexpected s := by
  simp only [keyUpdate, he]
  rw [if_neg (by simp [h]), if_pos (by simp [hr])]

theorem keyUpdate_of_invalid (he : s.sec.sessions.find? (fun e => e.id = sid) = some e) (h : spdmUp s e.path = true) (hr : e.ready = true)
    (ho : op = 0 ∨ 3 < op) : keyUpdate sid op s = spdmError e.path erInvalid s := by
  simp only [keyUpdate, he]
  rw [if_neg (by simp [h]), if_neg (by simp [hr]), if_pos (by rcases ho with ho | ho <;> simp [ho])]

theorem keyUpdate_of_op (he : s.sec.sessions.find? (fun e => e.id = sid) = some e) (h : spdmUp s e.path = true) (hr : e.ready = true)
    (h1 : 1 ≤ op) (h3 : op ≤ 3) : keyUpdate sid op s = spdmReply e.path 0x69 [sid, op] [] (keysRotated sid op s) := by
  have h0 : op ≠ 0 := by omega
  simp only [keyUpdate, he]
  rw [if_neg (by simp [h]), if_neg (by simp [hr]), if_neg (by simp [h0, h3])]
  rfl

end

/-! ### A message of a peer under re-admission -/

section
variable {s u : State} {dev inc step : Nat} {msg : Bytes}

theorem takeSpdm_of_found {q : FjPkt} (h : s.rxq.find? (fun r => r.hdr.src = dev && isCtl r 7) = some q) : takeSpdm (.fjorum dev) s = takeRx s q := by
  simp only [takeSpdm, h]

theorem takeSpdm_of_none (h : s.rxq.find? (fun r => r.hdr.src = dev && isCtl r 7) = none) : takeSpdm (.fjorum dev) s = s := by
  simp only [takeSpdm, h]

theorem spdmMessage_of_other (h : (s.peer dev).readmit = none) : spdmMessage (.fjorum dev) msg s = s := by
  simp only [spdmMessage, h]

theorem spdmMessage_of_down (h : compDown s 3 = true ∨ hubStalled s = true) : spdmMessage (.fjorum dev) msg s = s := by
  cases hr : (s.peer dev).readmit with
  | none => exact spdmMessage_of_other hr
  | some r =>
    simp only [spdmMessage, hr]
    exact if_pos (by rcases h with h | h <;> simp [h])

theorem spdmMessage_of_run (hr : (s.peer dev).readmit = some (step, inc)) (hd : compDown s 3 = false) (hh : hubStalled s = false) :
    spdmMessage (.fjorum dev) msg s = readmitStep dev step inc msg (takeSpdm (.fjorum dev) s) := by
  simp only [spdmMessage, hr]
  exact if_neg (by simp [hd, hh])

theorem readmitStep_of_version (hm : leAt msg 1 1 = 0x04) : readmitStep dev 1 inc msg u = spdmSend (.fjorum dev) 0xE1 [spdmCaps] [] u := by
  simp only [readmitStep, hm]
  exact if_pos trivial

theorem readmitStep_of_capabilities (hm : leAt msg 1 1 = 0x61) : readmitStep dev 1 inc msg u = spdmSend (.fjorum dev) 0xE3 [64, 4] [] u := by
  simp only [readmitStep, hm]
  exact if_pos trivial

theorem readmitStep_of_algorithms (hm : leAt msg 1 1 = 0x63) : readmitStep dev 1 inc msg u =
    askChain dev 0 (u.modPeer dev (fun r => { r with readmit := some (2, inc), chainR := [], chainM := [] })) := by
  simp only [readmitStep, hm]
  exact if_pos trivial

theorem readmitStep_of_chain (hm : leAt msg 1 1 = 0x02) (hl : leAt msg 6 2 = 0) : readmitStep dev 2 inc msg u =
    spdmSend (.fjorum dev) 0xE0 [0xF1] (zeros 32) (u.modPeer dev (fun r => { r with chainR := r.chainR ++ slice msg 8 (leAt msg 4 2) })) := by
  simp only [readmitStep, hm, hl]
  rw [if_neg (by simp), if_neg (by simp)]

/-- A re-admission is admitted, or ends with what its report lacks. -/
def reportJudged (dev inc : Nat) (r : Bytes) (u : State) : State :=
  if reportSigned u dev r then (if reportPolicy u inc r then (endReadmit dev 0 u).modPeer dev (fun p => { p with st := .unknown }) else endReadmit dev 2 u)
  else endReadmit dev 1 u

theorem readmitStep_of_report {r : Bytes} (hm : leAt msg 1 1 = 0x60) (hb : blockIn msg 0xF0 = some r) :
    readmitStep dev 3 inc msg u = reportJudged dev inc r u := by
  simp only [readmitStep, hm, readmitMeas, hb]
  rw [if_neg (by decide), if_pos trivial]
  unfold reportJudged
  cases reportSigned u dev r <;> cases reportPolicy u inc r <;> rfl

theorem readmitStep_of_error (hm : leAt msg 1 1 = 0x7F) (hs : step ≠ 1) : readmitStep dev step inc msg u = endReadmit dev 1 u := by
  simp only [readmitStep, hm]
  exact if_neg hs

end

/-- Settles O60: each request by what the transport has agreed, each message of a peer by the step of its run. -/
theorem spdmResponds : Obligations.SpdmResponds := by
  refine ⟨?negotiate, ?request, ?session, fun s sid hs => powered_of (sessionTimeout sid) s _ hs rfl rfl,
    fun s p => ⟨?found, rfl, fun dev h => takeSpdm_of_none h⟩, ?readmit⟩
  case found =>
    intro dev q hp hq
    subst hp
    exact takeSpdm_of_found hq
  case negotiate =>
    intro s p flags offer hs hup
    refine ⟨?_, fun hv => ⟨?_, fun ha hh => ?_, fun hl => ⟨[b2n (bit (leAt offer 8 4) 6) * 64, b2n (bit (leAt offer 12 4) 2) * 4], ?_⟩⟩, fun hv => ⟨?_, ?_⟩⟩
    · exact powered_of_pwr hs (getVersion p) _ (getVersion_of_up hup) (spdmReply_pwr _ _ _ _ _)
    · exact powered_of_pwr hs (getCapabilities p flags) _ (getCapabilities_of_versioned hup hv) (spdmReply_pwr _ _ _ _ _)
    · exact powered_of_pwr hs (negotiate p offer) _ (negotiate_of_held hup hv ha hh) (spdmReply_pwr _ _ _ _ _)
    · exact powered_of_pwr hs (negotiate p offer) _ (negotiate_of_lacking hup hv hl) (spdmReply_pwr _ _ _ _ _)
    · exact powered_of_pwr hs (getCapabilities p flags) _ (getCapabilities_of_early hup hv) (spdmError_pwr _ _ _)
    · exact powered_of_pwr hs (negotiate p offer) _ (negotiate_of_early hup hv) (spdmError_pwr _ _ _)
  case request =>
    intro s p off len index session nonce exch hs hup
    refine ⟨fun hn => ⟨?_, ?_, ?_, ?_⟩, fun hn => ⟨?_, ?_, fun h0 hi hl => ⟨reportCounted index s, _, ?_, rfl, rfl⟩, fun h0 hb => ?_, fun hl d hd => ?_,
      fun hl => ?_, fun hl => ?_⟩⟩
    · exact powered_of_pwr hs (getCertificate p 0 off len) _ (negotiated_refused _ _ _ hup hn) (spdmError_pwr _ _ _)
    · exact powered_of_pwr hs (getMeasurements p session index nonce) _ (negotiated_refused _ _ _ hup hn) (spdmError_pwr _ _ _)
    · exact powered_of_pwr hs (keyExchange p 0 exch) _ (negotiated_refused _ _ _ hup hn) (spdmError_pwr _ _ _)
    · exact powered_of_pwr hs (challenge p 0 nonce) _ (negotiated_refused _ _ _ hup hn) (spdmError_pwr _ _ _)
    · refine powered_of_pwr hs (getCertificate p 0 off len) _ (getCertificate_of_negotiated hup hn) ?_
      split
      · exact spdmError_pwr _ _ _
      · exact spdmReply_pwr _ _ _ _ _
    · exact powered_of_pwr hs (getMeasurements p session 0 nonce) _ (getMeasurements_of_number hup hn) (spdmReply_pwr _ _ _ _ _)
    · exact powered_of_pwr hs (getMeasurements p session index nonce) _ (getMeasurements_of_blocks hup hn h0 hi hl) (spdmReply_pwr _ _ _ _ _)
    · exact powered_of_pwr hs (getMeasurements p session index nonce) _ (getMeasurements_of_invalid hup hn h0 hb) (spdmError_pwr _ _ _)
    · subst hd
      exact powered_of_pwr hs (keyExchange p 0 exch) _ (keyExchange_of_room hup hn hl) (spdmReply_pwr _ _ _ _ _)
    · exact powered_of_pwr hs (keyExchange p 0 exch) _ (keyExchange_of_full hup hn hl) (spdmError_pwr _ _ _)
    · exact powered_of_pwr hs (challenge p 0 nonce) _ (challenge_of_nonce hup hn hl) (spdmReply_pwr _ _ _ _ _)
  case session =>
    intro s sid op e rsa mldsa proof hs he hup
    refine ⟨fun hr => ⟨?_, fun hk => ?_, ?_⟩, fun hr => ⟨?_, fun h1 h3 => ?_, fun ho => ?_⟩⟩
    · exact powered_of_pwr hs (finish sid [] [] proof) _ (finish_of_anonymous he hup hr) (spdmReply_pwr _ _ _ _ _)
    · have heff := finish_of_mutual (mldsa := mldsa) (proof := proof) he hup hr hk
      exact powered_of_pwr hs (finish sid rsa mldsa proof) _ heff ((congrArg State.pwr heff).symm.trans (finish_pwr _ _ _ _ _))
    · exact powered_of_pwr hs (keyUpdate sid op) _ (keyUpdate_of_early he hup hr) (spdmError_pwr _ _ _)
    · exact powered_of_pwr hs (finish sid rsa mldsa proof) _ (finish_of_ready he hup hr) (spdmError_pwr _ _ _)
    · exact powered_of_pwr hs (keyUpdate sid op) _ (keyUpdate_of_op he hup hr h1 h3) (spdmReply_pwr _ _ _ _ _)
    · exact powered_of_pwr hs (keyUpdate sid op) _ (keyUpdate_of_invalid he hup hr ho) (spdmError_pwr _ _ _)
  case readmit =>
    intro s u dev inc step msg hs hu
    subst hu
    have hrun : ∀ t, spdmMessage (.fjorum dev) msg s = t → exec (.spdm (.fjorum dev) msg) s = .next t := fun t ht =>
      serving_of (spdmMessage (.fjorum dev) msg) s _ hs ht ((congrArg State.pwr ht).symm.trans (spdmMessage_pwr _ _ _))
    refine ⟨serving_of (spdmMessage .mgmt msg) s _ hs rfl rfl, fun h => hrun _ (spdmMessage_of_other h), fun h => hrun _ (spdmMessage_of_down h),
      fun hr hd hh => ?_⟩
    have heff := spdmMessage_of_run (msg := msg) hr hd hh
    refine ⟨fun h1 hm => ?_, fun h1 hm => ?_, fun h1 hm => ?_, fun h2 hm hl => ?_, fun h3 hm r hb => ?_,
      fun hne hm => hrun _ (heff.trans (readmitStep_of_error hm hne))⟩
    · subst h1
      exact hrun _ (heff.trans (readmitStep_of_version hm))
    · subst h1
      exact hrun _ (heff.trans (readmitStep_of_capabilities hm))
    · subst h1
      exact hrun _ (heff.trans (readmitStep_of_algorithms hm))
    · subst h2
      exact hrun _ (heff.trans (readmitStep_of_chain hm hl))
    · subst h3
      exact hrun _ (heff.trans (readmitStep_of_report hm hb))

end Sys2Proof.Machine
end
